-- ==== Sys2Proof/Word.lean ====
section
/-! DEFINITION. The word types of the FV4 (R1, R2, R49): 64-bit registers and addresses, bytes. -/

namespace Sys2Proof

/-- A 64-bit register or address (R49). -/
abbrev Word := BitVec 64

/-- A byte of memory (R2). -/
abbrev Byte := BitVec 8

end Sys2Proof
end

