-- ==== Sys2Proof/Syntax.lean ====
section
/-! DEFINITION. Syntax of the FV4: every row of the opcode table is one constructor of `Instr`.
The first 241 rows are Hjell instruction words (04_formats_and_opcode_map.md, R70 to R101); a field
is the bit vector the row's table gives it. The other 58 rows are events of the machine that have
no word; their arguments are what the occurrence brings (which context, which entry, which host
write). -/

namespace Sys2Proof

/-- Which unit of a core caches translations (R156). -/
inductive UnitKind where
  | core | engine | port
  deriving DecidableEq, Repr

/-- What the root of trust finds in a firmware image (R269): the fused key digest, the signature, the security version. (DESIGN CHOICE, log 44.) -/
structure Firmware where
  keyOk : Bool
  sigOk : Bool
  version : Nat
  deriving DecidableEq, Repr

/-- SPDM requests that read or set what the model holds (R270, R271). (DESIGN CHOICE, log 44.) -/
inductive SpdmRequest where
  | getVersion
  | negotiateAlgorithms
  | getMeasurement (index : Nat)
  | keyExchange
  | other (code : Nat)
  deriving DecidableEq, Repr

/-- A host access through BAR 2 (R267): a read of `len` bytes or a write. -/
inductive HostAccess where
  | read (offset len : Nat)
  | write (offset : Nat) (bytes : List Byte)
  deriving DecidableEq, Repr

/-- The steps of the part: the rows of the opcode table, in its order. -/
inductive Instr where
  | add (d a b : BitVec 5)
  | sub (d a b : BitVec 5)
  | mul (d a b : BitVec 5)
  | mulh (d a b : BitVec 5)
  | mulhu (d a b : BitVec 5)
  | div (d a b : BitVec 5)
  | divu (d a b : BitVec 5)
  | rem (d a b : BitVec 5)
  | remu (d a b : BitVec 5)
  | and (d a b : BitVec 5)
  | andn (d a b : BitVec 5)
  | or (d a b : BitVec 5)
  | xor (d a b : BitVec 5)
  | sll (d a b : BitVec 5)
  | srl (d a b : BitVec 5)
  | sra (d a b : BitVec 5)
  | slt (d a b : BitVec 5)
  | sltu (d a b : BitVec 5)
  | min (d a b : BitVec 5)
  | max (d a b : BitVec 5)
  | minu (d a b : BitVec 5)
  | maxu (d a b : BitVec 5)
  | clz (d a : BitVec 5)
  | ctz (d a : BitVec 5)
  | popc (d a : BitVec 5)
  | sextB (d a : BitVec 5)
  | sextH (d a : BitVec 5)
  | sextW (d a : BitVec 5)
  | zextB (d a : BitVec 5)
  | zextH (d a : BitVec 5)
  | zextW (d a : BitVec 5)
  | csel (d a b c : BitVec 5)
  | addImm (d a : BitVec 5) (i : BitVec 16)
  | andImm (d a : BitVec 5) (i : BitVec 16)
  | orImm (d a : BitVec 5) (i : BitVec 16)
  | xorImm (d a : BitVec 5) (i : BitVec 16)
  | sltImm (d a : BitVec 5) (i : BitVec 16)
  | sltuImm (d a : BitVec 5) (i : BitVec 16)
  | lih (d a : BitVec 5) (i : BitVec 16)
  | addpc (d : BitVec 5) (i : BitVec 16)
  | fadd (d a b : BitVec 5) (f : BitVec 1)
  | fsub (d a b : BitVec 5) (f : BitVec 1)
  | fmul (d a b : BitVec 5) (f : BitVec 1)
  | fdiv (d a b : BitVec 5) (f : BitVec 1)
  | fsqrt (d a : BitVec 5) (f : BitVec 1)
  | fma (d a b c : BitVec 5) (f : BitVec 1)
  | fmin (d a b : BitVec 5) (f : BitVec 1)
  | fmax (d a b : BitVec 5) (f : BitVec 1)
  | fcmp (d a b : BitVec 5) (c : BitVec 3) (f : BitVec 1)
  | fcvt (d a c : BitVec 5)
  | fmvx (d a : BitVec 5) (f : BitVec 1)
  | ld (d a : BitVec 5) (o : BitVec 13) (w : BitVec 3)
  | st (d a : BitVec 5) (o : BitVec 13) (w : BitVec 2)
  | amoAdd (d a b : BitVec 5) (s : BitVec 1)
  | amoAnd (d a b : BitVec 5) (s : BitVec 1)
  | amoOr (d a b : BitVec 5) (s : BitVec 1)
  | amoXor (d a b : BitVec 5) (s : BitVec 1)
  | amoSmin (d a b : BitVec 5) (s : BitVec 1)
  | amoSmax (d a b : BitVec 5) (s : BitVec 1)
  | amoUmin (d a b : BitVec 5) (s : BitVec 1)
  | amoUmax (d a b : BitVec 5) (s : BitVec 1)
  | amoSwap (d a b : BitVec 5) (s : BitVec 1)
  | amoFmax (d a b : BitVec 5) (s : BitVec 1)
  | amoAddb (d a b c : BitVec 5) (s : BitVec 1)
  | cas (d a b c : BitVec 5) (s : BitVec 1)
  | pst (a b : BitVec 5) (s : BitVec 1)
  | pstOrd (a b : BitVec 5) (s : BitVec 1)
  | beq (a b : BitVec 5) (o : BitVec 16)
  | bne (a b : BitVec 5) (o : BitVec 16)
  | blt (a b : BitVec 5) (o : BitVec 16)
  | bge (a b : BitVec 5) (o : BitVec 16)
  | bltu (a b : BitVec 5) (o : BitVec 16)
  | bgeu (a b : BitVec 5) (o : BitVec 16)
  | jal (d : BitVec 5) (o : BitVec 21)
  | jalr (d a : BitVec 5) (i : BitVec 16)
  | csrr (d : BitVec 5) (n : BitVec 10)
  | csrw (d a : BitVec 5) (n : BitVec 10)
  | csrset (d a : BitVec 5) (n : BitVec 10)
  | csrclr (d a : BitVec 5) (n : BitVec 10)
  | trap (a : BitVec 5) (n : BitVec 6)
  | eret
  | brk (n : BitVec 10)
  | fence (p : BitVec 5) (s : BitVec 3)
  | svfence (f : BitVec 2)
  | ifence
  | tlbinv (a : BitVec 5) (s : BitVec 3) (l : BitVec 1)
  | stflush (a : BitVec 5) (l : BitVec 1)
  | stinv (a : BitVec 5) (l : BitVec 1)
  | tspawn (a : BitVec 5)
  | tend
  | tself (d : BitVec 5)
  | barrive (d a b : BitVec 5)
  | barwait (d a b c : BitVec 5)
  | hbar (a : BitVec 5) (s : BitVec 3)
  | cpy (d a b c : BitVec 5)
  | cpy2 (d a b c : BitVec 5)
  | cpyxG (d a b c : BitVec 5)
  | cpyxS (d a b c : BitVec 5)
  | rsort (d a b c : BitVec 5)
  | sisect (d a b : BitVec 5)
  | smerge (d a b : BitVec 5)
  | xbind (a : BitVec 5) (n : BitVec 4)
  | xsend (a b : BitVec 5) (n : BitVec 4)
  | xsendM (a b : BitVec 5) (n : BitVec 4)
  | xsendv (a b : BitVec 5) (n : BitVec 4)
  | xend (n : BitVec 4)
  | xsplitRd (d a : BitVec 5) (n : BitVec 4)
  | xsplitIn (d a : BitVec 5) (n : BitVec 4)
  | vsetl (d a : BitVec 5) (r : BitVec 1) (f s : BitVec 2)
  | rpt (n : BitVec 10) (k : BitVec 4) (s : BitVec 3) (x y z : BitVec 1)
  | vadd (d a b : BitVec 5) (m : BitVec 1) (r : BitVec 3)
  | vsub (d a b : BitVec 5) (m : BitVec 1) (r : BitVec 3)
  | vmul (d a b : BitVec 5) (m : BitVec 1) (r : BitVec 3)
  | vmulh (d a b : BitVec 5) (m : BitVec 1) (r : BitVec 3)
  | vmulhU (d a b : BitVec 5) (m : BitVec 1) (r : BitVec 3)
  | vmin (d a b : BitVec 5) (m : BitVec 1) (r : BitVec 3)
  | vminU (d a b : BitVec 5) (m : BitVec 1) (r : BitVec 3)
  | vmax (d a b : BitVec 5) (m : BitVec 1) (r : BitVec 3)
  | vmaxU (d a b : BitVec 5) (m : BitVec 1) (r : BitVec 3)
  | vand (d a b : BitVec 5) (m : BitVec 1) (r : BitVec 3)
  | vor (d a b : BitVec 5) (m : BitVec 1) (r : BitVec 3)
  | vxor (d a b : BitVec 5) (m : BitVec 1) (r : BitVec 3)
  | vsll (d a b : BitVec 5) (m : BitVec 1) (r : BitVec 3)
  | vsrl (d a b : BitVec 5) (m : BitVec 1) (r : BitVec 3)
  | vsra (d a b : BitVec 5) (m : BitVec 1) (r : BitVec 3)
  | vcmpEq (d a b : BitVec 5) (m : BitVec 1) (r : BitVec 3)
  | vcmpNe (d a b : BitVec 5) (m : BitVec 1) (r : BitVec 3)
  | vcmpLt (d a b : BitVec 5) (m : BitVec 1) (r : BitVec 3)
  | vcmpLtu (d a b : BitVec 5) (m : BitVec 1) (r : BitVec 3)
  | vcmpLe (d a b : BitVec 5) (m : BitVec 1) (r : BitVec 3)
  | vcmpLeu (d a b : BitVec 5) (m : BitVec 1) (r : BitVec 3)
  | vsel (d a b : BitVec 5) (r : BitVec 3)
  | vaddVs (d a b : BitVec 5) (m : BitVec 1) (r : BitVec 3)
  | vsubVs (d a b : BitVec 5) (m : BitVec 1) (r : BitVec 3)
  | vmulVs (d a b : BitVec 5) (m : BitVec 1) (r : BitVec 3)
  | vmulhVs (d a b : BitVec 5) (m : BitVec 1) (r : BitVec 3)
  | vmulhUVs (d a b : BitVec 5) (m : BitVec 1) (r : BitVec 3)
  | vminVs (d a b : BitVec 5) (m : BitVec 1) (r : BitVec 3)
  | vminUVs (d a b : BitVec 5) (m : BitVec 1) (r : BitVec 3)
  | vmaxVs (d a b : BitVec 5) (m : BitVec 1) (r : BitVec 3)
  | vmaxUVs (d a b : BitVec 5) (m : BitVec 1) (r : BitVec 3)
  | vandVs (d a b : BitVec 5) (m : BitVec 1) (r : BitVec 3)
  | vorVs (d a b : BitVec 5) (m : BitVec 1) (r : BitVec 3)
  | vxorVs (d a b : BitVec 5) (m : BitVec 1) (r : BitVec 3)
  | vsllVs (d a b : BitVec 5) (m : BitVec 1) (r : BitVec 3)
  | vsrlVs (d a b : BitVec 5) (m : BitVec 1) (r : BitVec 3)
  | vsraVs (d a b : BitVec 5) (m : BitVec 1) (r : BitVec 3)
  | vcmpEqVs (d a b : BitVec 5) (m : BitVec 1) (r : BitVec 3)
  | vcmpNeVs (d a b : BitVec 5) (m : BitVec 1) (r : BitVec 3)
  | vcmpLtVs (d a b : BitVec 5) (m : BitVec 1) (r : BitVec 3)
  | vcmpLtuVs (d a b : BitVec 5) (m : BitVec 1) (r : BitVec 3)
  | vcmpLeVs (d a b : BitVec 5) (m : BitVec 1) (r : BitVec 3)
  | vcmpLeuVs (d a b : BitVec 5) (m : BitVec 1) (r : BitVec 3)
  | vselVs (d a b : BitVec 5) (r : BitVec 3)
  | vfadd (d a b : BitVec 5) (m : BitVec 1) (r : BitVec 3)
  | vfsub (d a b : BitVec 5) (m : BitVec 1) (r : BitVec 3)
  | vfmul (d a b : BitVec 5) (m : BitVec 1) (r : BitVec 3)
  | vfma (d a b : BitVec 5) (m : BitVec 1) (r : BitVec 3)
  | vfdiv (d a b : BitVec 5) (m : BitVec 1) (r : BitVec 3)
  | vfsqrt (d a : BitVec 5) (m : BitVec 1) (r : BitVec 3)
  | vfmin (d a b : BitVec 5) (m : BitVec 1) (r : BitVec 3)
  | vfmax (d a b : BitVec 5) (m : BitVec 1) (r : BitVec 3)
  | vfexp2 (d a : BitVec 5) (m : BitVec 1) (r : BitVec 3)
  | vfrsqrt (d a : BitVec 5) (m : BitVec 1) (r : BitVec 3)
  | vfcmpEq (d a b : BitVec 5) (m : BitVec 1) (r : BitVec 3)
  | vfcmpLt (d a b : BitVec 5) (m : BitVec 1) (r : BitVec 3)
  | vfcmpLe (d a b : BitVec 5) (m : BitVec 1) (r : BitVec 3)
  | vfcmpUn (d a b : BitVec 5) (m : BitVec 1) (r : BitVec 3)
  | vfaddVs (d a b : BitVec 5) (m : BitVec 1) (r : BitVec 3)
  | vfsubVs (d a b : BitVec 5) (m : BitVec 1) (r : BitVec 3)
  | vfmulVs (d a b : BitVec 5) (m : BitVec 1) (r : BitVec 3)
  | vfmaVs (d a b : BitVec 5) (m : BitVec 1) (r : BitVec 3)
  | vfdivVs (d a b : BitVec 5) (m : BitVec 1) (r : BitVec 3)
  | vfminVs (d a b : BitVec 5) (m : BitVec 1) (r : BitVec 3)
  | vfmaxVs (d a b : BitVec 5) (m : BitVec 1) (r : BitVec 3)
  | vfcmpEqVs (d a b : BitVec 5) (m : BitVec 1) (r : BitVec 3)
  | vfcmpLtVs (d a b : BitVec 5) (m : BitVec 1) (r : BitVec 3)
  | vfcmpLeVs (d a b : BitVec 5) (m : BitVec 1) (r : BitVec 3)
  | vfcmpUnVs (d a b : BitVec 5) (m : BitVec 1) (r : BitVec 3)
  | vredAdd (d a : BitVec 5) (m : BitVec 1) (r : BitVec 3)
  | vredAnd (d a : BitVec 5) (m : BitVec 1) (r : BitVec 3)
  | vredOr (d a : BitVec 5) (m : BitVec 1) (r : BitVec 3)
  | vredXor (d a : BitVec 5) (m : BitVec 1) (r : BitVec 3)
  | vredMin (d a : BitVec 5) (m : BitVec 1) (r : BitVec 3)
  | vredMax (d a : BitVec 5) (m : BitVec 1) (r : BitVec 3)
  | vredMinu (d a : BitVec 5) (m : BitVec 1) (r : BitVec 3)
  | vredMaxu (d a : BitVec 5) (m : BitVec 1) (r : BitVec 3)
  | vfredAdd (d a : BitVec 5) (m : BitVec 1) (r : BitVec 3)
  | vfredMin (d a : BitVec 5) (m : BitVec 1) (r : BitVec 3)
  | vfredMax (d a : BitVec 5) (m : BitVec 1) (r : BitVec 3)
  | vslideUp (d a b : BitVec 5) (m : BitVec 1) (r : BitVec 3)
  | vslideDown (d a b : BitVec 5) (m : BitVec 1) (r : BitVec 3)
  | vperm (d a b : BitVec 5) (m : BitVec 1) (r : BitVec 3)
  | vcompress (d a : BitVec 5) (r : BitVec 3)
  | vexpand (d a : BitVec 5) (r : BitVec 3)
  | mand (d a b : BitVec 5)
  | mor (d a b : BitVec 5)
  | mxor (d a b : BitVec 5)
  | mnot (d a : BitVec 5)
  | mpop (d a : BitVec 5)
  | mfirst (d a : BitVec 5)
  | mbreak (d a : BitVec 5)
  | vcvt (d a t : BitVec 5) (m : BitVec 1) (r : BitVec 3)
  | vmvV (d a : BitVec 5) (m : BitVec 1) (r : BitVec 3)
  | vmvS (d a : BitVec 5) (m : BitVec 1) (r : BitVec 3)
  | vmvRaw (d a t : BitVec 5)
  | vidx (d : BitVec 5) (m : BitVec 1) (r : BitVec 3)
  | vextr (d a b : BitVec 5)
  | vins (d a b : BitVec 5)
  | vsort (d a : BitVec 5) (m : BitVec 1) (r : BitVec 3)
  | vsortKv (d a b : BitVec 5) (m : BitVec 1) (r : BitVec 3)
  | vld (d a b : BitVec 5) (m : BitVec 1) (r : BitVec 3)
  | vlds (d a b : BitVec 5) (m : BitVec 1) (r : BitVec 3)
  | vldseg (d a : BitVec 5) (m : BitVec 1) (r f : BitVec 3)
  | vldff (d a b : BitVec 5) (m : BitVec 1) (r : BitVec 3)
  | vst (d a b : BitVec 5) (m : BitVec 1) (r : BitVec 3)
  | vsts (d a b : BitVec 5) (m : BitVec 1) (r : BitVec 3)
  | vstseg (d a : BitVec 5) (m : BitVec 1) (r f : BitVec 3)
  | vstq (d a b : BitVec 5) (m : BitVec 1) (r : BitVec 3)
  | vldx (d a b : BitVec 5) (m : BitVec 1) (r : BitVec 3) (w : BitVec 2)
  | vstx (d a b : BitVec 5) (m : BitVec 1) (r : BitVec 3) (w : BitVec 2)
  | vstxOrd (d a b : BitVec 5) (m : BitVec 1) (r : BitVec 3) (w : BitVec 2)
  | vamoAdd (d a b : BitVec 5) (m : BitVec 1) (r : BitVec 3) (o e q : BitVec 1)
  | vamoAnd (d a b : BitVec 5) (m : BitVec 1) (r : BitVec 3) (o e q : BitVec 1)
  | vamoOr (d a b : BitVec 5) (m : BitVec 1) (r : BitVec 3) (o e q : BitVec 1)
  | vamoXor (d a b : BitVec 5) (m : BitVec 1) (r : BitVec 3) (o e q : BitVec 1)
  | vamoSmin (d a b : BitVec 5) (m : BitVec 1) (r : BitVec 3) (o e q : BitVec 1)
  | vamoSmax (d a b : BitVec 5) (m : BitVec 1) (r : BitVec 3) (o e q : BitVec 1)
  | vamoUmin (d a b : BitVec 5) (m : BitVec 1) (r : BitVec 3) (o e q : BitVec 1)
  | vamoUmax (d a b : BitVec 5) (m : BitVec 1) (r : BitVec 3) (o e q : BitVec 1)
  | vamoSwap (d a b : BitVec 5) (m : BitVec 1) (r : BitVec 3) (o e q : BitVec 1)
  | vamoFmax (d a b : BitVec 5) (m : BitVec 1) (r : BitVec 3) (o e q : BitVec 1)
  | vamoAddb (d a b : BitVec 5) (m : BitVec 1) (r : BitVec 3) (o e q : BitVec 1)
  | vwait (d a b : BitVec 5) (m : BitVec 1) (r c : BitVec 3)
  | mshape (d a : BitVec 5) (f : BitVec 3)
  | mzero (t : BitVec 3)
  | mldb (d a b : BitVec 5) (u : BitVec 1) (f : BitVec 3)
  | mma (d a b : BitVec 5) (t : BitVec 3) (u : BitVec 1) (f : BitVec 3)
  | mst (d a : BitVec 5) (t : BitVec 3)
  | mmovTo (d a : BitVec 5) (t : BitVec 3)
  | mmovFrom (d a : BitVec 5) (t : BitVec 3)
  | entrySelection (ctx : Nat)
  | lookAhead (ctx : Nat)
  | preemption (die seq : Nat)
  | fullSwitch (ctx : Nat)
  | reclaimFallback (ctx : Nat)
  | taskBudgetExceeded (ctx : Nat)
  | trapEntry (ctx : Nat)
  | pageTableWalk (core : Nat) (kind : UnitKind) (va : Word)
  | walkStalled (ctx : Nat)
  | sptEntryBusyTimeout (ctx : Nat)
  | stashFill (ctx : Nat) (page : BitVec 14)
  | stashLineFill (ctx : Nat) (page : BitVec 14) (line : BitVec 6)
  | pull (ctx : Nat) (page : BitVec 14)
  | copyCountStep (ctx : Nat) (slot : BitVec 3)
  | commandCompletionArrival (ctx : Nat) (slot : BitVec 3)
  | engineFault (ctx : Nat) (slot : BitVec 3)
  | postedStorePerform (id : Nat)
  | postedStoreAcknowledgement (id : Nat)
  | sendPortHandover (ch : BitVec 4) (slot : Nat)
  | mergePointForward (ch : BitVec 4) (point : Nat)
  | recordDelivery (ch : BitVec 4) (dest : Nat)
  | consumedPoll (ch : BitVec 4) (dest : Nat)
  | roundCompletion (ch : BitVec 4) (dest : Nat)
  | deliveryRetry (ch : BitVec 4) (dest : Nat)
  | sieveClose (ch : BitVec 4)
  | channelWatchdog (ch : BitVec 4)
  | barwaitLimitExpiry (ctx : Nat)
  | vwaitLimitExpiry (ctx : Nat)
  | containment (core : Nat) (unreadable : List Nat)
  | linePoisoning (line : Nat)
  | softErrorCorrection (pkg : Nat) (hbm : Bool) (count : Nat)
  | linkFailure (pkg link : Nat)
  | linkTraining (pkg link : Nat) (peer : Option Nat)
  | eventEntryWrite (pkg : Nat)
  | powerControlPeriod (pkg watts : Nat)
  | thermalThrottle (pkg : Nat) (tj : BitVec 12)
  | thermalShutdown (pkg : Nat) (tj : BitVec 12)
  | firmwareVerification (pkg : Nat)
  | firmwareLoad (pkg : Nat) (image : Firmware)
  | spdmRequest (pkg : Nat) (request : SpdmRequest)
  | ideKm (pkg : Nat) (key : BitVec 256)
  | lockInterface (pkg : Nat)
  | startInterface (pkg : Nat)
  | stopInterface (pkg : Nat)
  | ideIntegrityFailure (pkg : Nat)
  | hostMemoryAccess (pkg : Nat) (access : HostAccess)
  | hostRegisterWrite (pkg offset : Nat) (value : Word)
  | hostResume (pkg : Nat) (value : Word)
  | hostAbandon (pkg : Nat) (value : Word)
  | hspawn (pkg : Nat) (value : Word)
  | pkgcfg (pkg : Nat) (value : Word)
  | evbase (pkg : Nat) (value : Word)
  | evsize (pkg : Nat) (value : Word)
  | evhead (pkg : Nat) (value : Word)
  | dieReset (die : Nat)
  | commandCompletion (ctx : Nat) (slot : BitVec 3)
  | pciExpressPortTraining (pkg width rate : Nat)
  | linkRekeying (pkg link : Nat)
  deriving DecidableEq, Repr

end Sys2Proof
end

