-- ==== Sys2Proof/Machine/State.lean ====
section
/-! DEFINITION. The state of the domain as plain data, the reasons a step can stop, and the state
right after reset. INVENTORY.md lists every field with the rule that names it. -/

namespace Sys2Proof.Machine

/-! ## Registers and tags -/

/-- Format tags (R52). -/
inductive Tag where
  | unset | i8 | i16 | i32 | i64 | bf16 | fp16 | fp32 | fp64 | sb4 | sb8
  deriving DecidableEq, Repr

/-- Modes (R251). -/
inductive Mode where
  | task | supervisor
  deriving DecidableEq, Repr

/-- What a context is doing: no task, executing, stopped by R254, waiting for the matrix unit after a resume (R229). -/
inductive Life where
  | idle | running | stopped | acquiring
  deriving DecidableEq, Repr

/-- Kinds of access that a translation is checked for (R155); the page-list codes of R161 follow the order. -/
inductive Access where
  | read | write | atomic | fetch
  deriving DecidableEq, Repr

/-- PATHCNT of one path (R64). -/
structure PathCount where
  sent : BitVec 32
  acked : BitVec 32
  deriving DecidableEq, Repr

/-- A pending asynchronous cause with words 1 to 4 of its fault record (R252, R255). `owner` marks the causes of R217 that stay with the context. -/
structure Pending where
  cause : BitVec 10
  info : Word
  words : List Word
  owner : Bool
  deriving DecidableEq, Repr

/-- Copy-engine and beater commands (R257), in the order of their kinds. -/
inductive CmdKind where
  | cpy | cpy2 | gather | scatter | rsort
  deriving DecidableEq, Repr

/-- A place where bytes lie: a physical address, or a byte of a spill-backed frame (R140). -/
inductive Loc where
  | phys (address : Nat)
  | frame (core index offset : Nat)
  deriving DecidableEq, Repr

/-- One outstanding command (R248, R257, R292 to R298, R338). `part` is how many count steps of its unit at `pos` are reached, from 1 once the unit's source is read, `owed` are count steps of earlier units. `stall` counts the ticks of what it waits for (R138, R158). Bytes have keys, ascending in the command's order: `ahead` holds the places and keys of bytes performed before the rest, `kept` the keys, addresses and values of bytes of the unit that are not performed yet. `born` and `after` are the moments before and after which its reads may stand (R176, R248). (DESIGN CHOICE, log 9 and 25.) -/
structure Command where
  kind : CmdKind
  d : Word
  a : Word
  b : Word
  c : Word
  issue : Word
  pos : Nat
  part : Nat
  block : List Word
  stall : List (Nat × Nat)
  owed : List Nat
  ahead : List (Loc × Nat)
  kept : List (Nat × Nat × Byte)
  born : Nat
  after : Nat
  deriving DecidableEq, Repr

/-- A queued store of a vector element (R55, R168): consecutive places and their bytes. `stamp` names the instruction among those of its context that are in flight; scalar accesses whose stamps are below `follows` come first (R170). An `ordered` store follows the lower ones of its instruction (R131, R164); `split` marks packed data, whose bytes are elements of their own. -/
structure QStore where
  bytes : List (Loc × Byte)
  ordered : Bool
  stamp : Nat
  follows : Nat
  split : Bool
  deriving DecidableEq, Repr

/-- The key of an HBAR episode (R238): scope code, instance, episode number. -/
structure EpisodeId where
  scope : Nat
  inst : Nat
  number : Nat
  deriving DecidableEq, Repr

/-- A save area (R255): the die that owns it and its index. -/
structure Area where
  die : Nat
  index : Nat
  deriving DecidableEq, Repr

/-- The shape that MSHAPE granted (R221). -/
structure Shape where
  m : Nat
  n : Nat
  k : Nat
  fmt : BitVec 3
  deriving DecidableEq, Repr

/-- An accumulator tile (R54). -/
structure Tile where
  tag : Tag
  data : BitVec 131072
  deriving DecidableEq, Repr

/-- A stationary buffer with its side data and extents (R54, R224, R255). -/
structure Buffer where
  tag : Tag
  data : BitVec 262144
  side : BitVec 32768
  k : Nat
  n : Nat
  deriving DecidableEq, Repr

/-- The matrix unit of a core (R16, R220). -/
structure MatrixUnit where
  holder : Option Nat
  shape : Shape
  tiles : Vector Tile 8
  bufs : Vector Buffer 2
  deriving DecidableEq, Repr

/-- The paths of R166. -/
inductive Path where
  | o | p | c | x | m
  deriving DecidableEq, Repr

/-- The accesses of one context whose order among themselves R168, R176 and R248 fix: scalar and vector accesses on path O, reads of its engines, tile fetch reads. -/
inductive Stream where
  | scalar | vector | copy | tile
  deriving DecidableEq, Repr

/-- A past moment from which later reads of a context may still take their bytes (R169, R175 to R177): what has been overwritten since, the lines that were poisoned then, and the streams for which the moment is not over. (DESIGN CHOICE, log 9.) -/
structure Pin where
  ctx : Nat
  scalar : Bool
  vector : Bool
  copy : Bool
  tile : Bool
  saved : List (Loc × Byte)
  poison : List Nat
  stamp : Nat
  deriving DecidableEq, Repr

/-- What a CPY or CPY2 in a command slot of a task needs of its source as it stood at issue (R248, R257): the bytes overwritten since, by place, and, while the task is switched out, words 1 to 5 of its saved record; `loose` marks a record whose words software has changed. (DEDUCED, log 33.) -/
structure Source where
  tid : Nat
  slot : Nat
  saved : List (Loc × Byte)
  words : List Word
  loose : Bool
  deriving DecidableEq, Repr

/-- One cached translation (R156): the unit, the page or the region it maps by its level, and the leaf or table pointer that was read. -/
structure TlbEntry where
  core : Nat
  kind : UnitKind
  granule : Nat
  level : Nat
  leaf : Word
  deriving DecidableEq, Repr

/-- An access instruction that has issued and whose accesses are still to be placed (R55, R168, R176): the instruction, what stood in the registers that it reads, its stamp, the stamp below which accesses of the other stream come first (R170), the flags that it raised at issue, the translations that an atomic has found then, and the mode, stash root and features that it issued under. (DESIGN CHOICE, log 9.) -/
structure Late where
  instr : Instr
  pc : Word
  mode : Mode
  sptroot : Word
  enable : BitVec 12
  s : Vector Word 32
  v : Vector (BitVec 8192) 32
  tag : Vector Tag 32
  hdr : Vector (BitVec 512) 32
  sup : Vector (BitVec 256) 32
  m : Vector (BitVec 1024) 8
  held : Nat
  vl : BitVec 11
  vcfg : BitVec 7
  vstart : BitVec 11
  vfm : BitVec 1024
  mfmt : BitVec 10
  mu : MatrixUnit
  stamp : Nat
  follows : Nat
  flags : BitVec 5
  pinned : List TlbEntry
  deriving DecidableEq, Repr

/-- A scalar access that has issued and is not yet performed (R55, R168): a store with its places and bytes, or a load or an atomic. (DESIGN CHOICE, log 9.) -/
inductive Held where
  | store (stamp follows : Nat) (bytes : List (Loc × Byte))
  | again (l : Late)
  deriving DecidableEq, Repr

/-- One context: its registers (R49 to R64), trap registers (R251) and the task that occupies it. `vstores` are its queued vector stores, `delayed` its scalar accesses and `late` its vector and tile accesses that are not yet placed, `vAfter` and `sAfter` the stamps below which SVFENCE puts scalar before vector and vector before scalar accesses, `fences` the path sets of fences that are waited for while accesses on other paths go on (R55, R168, R170, R172, R176); `quota` is how many elements the next step may perform, `adone` the elements of a VAMO that are performed, `busy` a vector access that waits (R164, R243); `drained` are the places of the oldest queued vector store that are performed already, `looping` a SISECT or SMERGE past its first checks (R341), `prefetched` the words fetched ahead, each with whether task mode may fetch it (R155, R178), `due` a budget that has run out with how many older causes are taken first (R252). (DESIGN CHOICE, log 9.) -/
structure Ctx where
  life : Life
  mode : Mode
  pc : Word
  s : Vector Word 32
  v : Vector (BitVec 8192) 32
  tag : Vector Tag 32
  hdr : Vector (BitVec 512) 32
  sup : Vector (BitVec 256) 32
  m : Vector (BitVec 1024) 8
  held : Nat
  ceil : Nat
  vl : BitVec 11
  vcfg : BitVec 7
  vstart : BitVec 11
  vfm : BitVec 1024
  mfmt : BitVec 10
  fflags : BitVec 5
  rptpos : Word
  paths : Vector PathCount 4
  budget : Word
  sptroot : Word
  tvec : Word
  svcfg : BitVec 7
  svl : BitVec 11
  forced : Bool
  abandon : Bool
  tepc : Word
  async : Bool
  cause : BitVec 10
  tinfo : Word
  tscratch : Word
  record : Word
  ctrl : Word
  parent : Word
  budget0 : Word
  seq : Word
  home : Nat
  area : Option Area
  tid : Nat
  pending : List Pending
  lost : Bool
  due : Option Nat
  switch : Bool
  lowered : Option Nat
  cut : Option (Nat × Option Nat)
  stopInfo : Option (BitVec 10 × Word)
  waited : Option Nat
  vdone : BitVec 1024
  stall : List (Nat × Nat)
  rpt : List (BitVec 32)
  ending : Bool
  looping : Bool
  cmds : Vector (Option Command) 8
  chans : Vector (Option (Nat × Word)) 16
  vstores : List QStore
  drained : List Loc
  delayed : List Held
  late : List Late
  vAfter : Nat
  sAfter : Nat
  fences : List (BitVec 5)
  quota : Option Nat
  adone : BitVec 1024
  busy : Bool
  prefetched : List (Nat × Bool × BitVec 32)
  hbar : Option EpisodeId
  deriving DecidableEq, Repr

/-! ## Cores -/

/-- A frame that holds a page (R140). `entry` is the owning entry's virtual address, `page` the backing or mapped page, `phys` its physical page, `pull` the core toward which a remote access has started a pull (R147). (DEDUCED, log 16.) -/
structure Frame where
  entry : Word
  mapped : Bool
  page : Word
  phys : Nat
  valid : BitVec 64
  dirty : BitVec 64
  pageDirty : Bool
  last : Nat
  data : BitVec 32768
  poison : BitVec 64
  pull : Option Nat
  deriving DecidableEq, Repr

/-- A pre-emption in progress (R39, R260): the victim, the entry it serves (die and sequence number) and its need n. -/
structure Preempt where
  victim : Nat
  die : Nat
  seq : Word
  reclaim : Bool
  need : Nat
  deriving DecidableEq, Repr

/-- Lane groups of a core that lane reclaim has reserved for an entry (R260). -/
structure Reserve where
  die : Nat
  seq : Word
  groups : Nat
  deriving DecidableEq, Repr

/-- One core. `out` is set when containment takes it out of scheduling, `retiring` while its frames are handled, with the unreadable lines (R151, R264); `stall` counts the ticks that this waits (R158). -/
structure Core where
  frames : List (Nat × Frame)
  mu : MatrixUnit
  preempt : Option Preempt
  reserved : List Reserve
  out : Bool
  retiring : Option (List Nat)
  stall : List (Nat × Nat)
  deriving DecidableEq, Repr

/-! ## Dies and packages -/

/-- One die: its registers (R59, R255) and its scheduler (R30, R31, R35). `heads` and `tails` are those of the rings that are not at slot 0; `stall` counts the ticks that the accesses of a selection wait (R158). -/
structure Die where
  ageN : BitVec 16
  qbase : Word
  qdepth : BitVec 5
  reclaimLimit : BitVec 32
  vslip : BitVec 4
  savebase : Word
  savecount : BitVec 16
  nextSeq : Word
  pops : Nat
  queued : List (Nat × Nat)
  tails : List (Nat × Nat)
  heads : List (Nat × Nat)
  stall : List (Nat × Nat)
  areas : List Nat
  corrupted : Bool
  stopped : Bool
  deriving DecidableEq, Repr

/-- TDISP states (R271). -/
inductive Tdisp where
  | unlocked | locked | run | error
  deriving DecidableEq, Repr

/-- An event for the ring (R272). -/
structure Event where
  cause : BitVec 10
  kind : Nat
  ctx : Nat
  info : Word
  deriving DecidableEq, Repr

/-- One link of a package (R275, R276). -/
structure Link where
  peer : Option Nat
  trained : Bool
  masked : Bool
  failed : Bool
  encrypted : Bool
  rekeys : Nat
  deriving DecidableEq, Repr

/-- What the root of trust knows (R269): the fused minimum version, the image, whether it has been accepted, so that the cores have left reset, or refused. -/
structure Trust where
  minimum : Nat
  image : Option Firmware
  recovery : Bool
  verified : Bool
  deriving DecidableEq, Repr

/-- The algorithms of R270. -/
inductive Algorithm where
  | ecdsaP521 | sha512 | ecdheP521 | aes256Gcm
  deriving DecidableEq, Repr

/-- An answer to an SPDM request (R270): words, or the algorithms for signature, hash, measurement hash, key exchange and sessions. -/
inductive SpdmReply where
  | words (ws : List Word)
  | algorithms (signature hash measurement exchange session : Algorithm)
  deriving DecidableEq, Repr

/-- One package: control registers (R59, R63, R278) and device registers (R268); `periods` counts the periods of its power controller that are over (R277). (DEDUCED, log 41.) -/
structure Pkg where
  enable : BitVec 12
  ptroot : Word
  walkLimit : BitVec 32
  exchLimit : BitVec 32
  powerlimit : Word
  ceil : Nat
  below : Nat
  periods : Nat
  clockLow : Bool
  tj : BitVec 12
  throt : Bool
  off : Bool
  eccHbm : BitVec 32
  eccSram : BitVec 32
  trust : Trust
  hwin : Word
  pkgcfg : Word
  linkctl : Word
  evbase : Word
  evsize : Word
  evhead : Word
  evtail : Word
  hctl : Word
  hcaddr : Word
  events : List Event
  msix : Nat
  tdisp : Tdisp
  dispatchOff : Bool
  ideKey : Option (BitVec 256)
  measurement : List Word
  spdm : List SpdmReply
  hostReply : List Byte
  links : List (Nat × Link)
  pcieWidth : Nat
  pcieRate : Nat
  deriving DecidableEq, Repr

/-! ## The exchange -/

/-- Channel states (R183). -/
inductive ChanState where
  | free | bound | aborted
  deriving DecidableEq, Repr

/-- A record on the wire (R181). -/
structure Record where
  key : Word
  origin : BitVec 19
  seq : BitVec 32
  count : BitVec 13
  payload : BitVec 2048
  deriving DecidableEq, Repr

/-- Floors (R193): an order value, or TOP. -/
inductive Floor where
  | value (key origin seq : Nat)
  | top
  deriving DecidableEq, Repr

/-- A node of a destination's merge tree (R194, R211). -/
inductive Node where
  | slot (index : Nat)
  | leaf (core : Nat)
  | package (pkg : Nat)
  | receive
  deriving DecidableEq, Repr

/-- One input of a merge point (R193). `skip` counts rounds for which a sender that moved here has ended elsewhere, `gone` marks the input that a sender has left (R198). (DESIGN CHOICE, log 20.) -/
structure MergeInput where
  source : Node
  head : Option Record
  floor : Floor
  ended : Option Nat
  skip : Nat
  gone : Bool
  deriving DecidableEq, Repr

/-- One merge point of one destination's tree (R195, R210). `held` is what the press holds: one partial, or without DET the records still to combine. -/
structure MergePoint where
  dest : Nat
  node : Node
  next : Node
  inputs : List MergeInput
  held : List Record
  sent : Floor
  round : Nat
  deriving DecidableEq, Repr

/-- A receive descriptor (R213). -/
structure RecvDesc where
  owner : Nat
  index : Bool
  tags : Bool
  buf : Word
  cap : Nat
  ovf : Word
  ocap : Nat
  lo : Word
  hi : Word
  idx : Word
  sync : Word
  stat : Word
  deriving DecidableEq, Repr

/-- The group that a channel carries, as read at the first XBIND (R184). -/
structure Group where
  address : Word
  home : Nat
  d : Nat
  k : Nat
  plen : Nat
  press : BitVec 3
  auto : Bool
  det : Bool
  ns : Nat
  round0 : BitVec 32
  dver0 : BitVec 32
  deckle : Word
  dests : List Nat
  senders : List Nat
  status : Word
  recv : List RecvDesc
  gstat : Word
  deriving DecidableEq, Repr

/-- What a queued send operation does (R188): captured operands, how many records the port has read, and for runs whether some may be left. -/
inductive SendKind where
  | xsend (address count : Word) (done : Nat)
  | xsendM (table count : Word) (taken : List Nat) (rest : Bool)
  | xend
  deriving DecidableEq, Repr

/-- A queued send operation: what is still to read of it, the address of its instruction, the core whose port performs it (R198), the task that issued it, and the records that the port has read and not yet handed over, with their addresses (R172, R176). (DESIGN CHOICE, log 9.) -/
structure SendOp where
  kind : SendKind
  issue : Word
  core : Nat
  tid : Nat
  ahead : List (Nat × Word × BitVec 2048)
  deriving DecidableEq, Repr

/-- A sender slot (R184, R185, R187). `stall` counts the ticks of what its port waits for (R158). -/
structure Slot where
  holder : Option Nat
  core : Nat
  pkg : Nat
  round : BitVec 32
  sent : Nat
  lastKey : Option Word
  floor : Floor
  queue : List SendOp
  table : Option (List Word)
  cancelled : Nat
  fcause : BitVec 10
  stall : List (Nat × Nat)
  deriving DecidableEq, Repr

/-- Where a destination stands in its round (R215 to R218); `counters` follows a record whose status words are still to be written, with whether it is the first overflow, `mark` an arrival whose cause is. -/
inductive Stage where
  | receiving
  | counters (first : Bool)
  | index (j : Nat)
  | status
  | sync
  | mark (cause : BitVec 10)
  deriving DecidableEq, Repr

/-- One destination's receive port (R214 to R217). `report` is the cause and the address of a fault that the status block is still to name, `told` marks an entry that tells of one, `late` holds writes of the round that are not placed yet, in pieces of 8 bytes (R167, R176), `stall` counts the ticks of what the port waits for (R158). (DESIGN CHOICE, log 9.) -/
structure Dest where
  input : MergeInput
  round : BitVec 32
  started : Bool
  written : BitVec 32
  consumed : BitVec 32
  rstart : BitVec 32
  nrec : Nat
  ovfpos : Nat
  ovfn : Nat
  keys : List Word
  stage : Stage
  stalled : Bool
  retry : Bool
  aborted : Bool
  done : Bool
  finished : Nat
  report : Option (BitVec 10 × Word)
  told : Bool
  late : List (List (Loc × Byte))
  stall : List (Nat × Nat)
  deriving DecidableEq, Repr

/-- The sieve of a group (R205, R206): samples of its round, the ends of slots with the rounds that they end. (DEDUCED, log 59.) -/
structure Sieve where
  samples : List (Word × Nat)
  keff : Nat
  ends : List (BitVec 32)
  round : BitVec 32
  deriving DecidableEq, Repr

/-- One exchange channel (R183). `routes` are the routes between packages fixed at the first XBIND (R194), each as the packages it passes, `groupDue` marks an abort that the group status block is still to name (R425), `stall` counts the ticks of what the home's port waits for (R158). -/
structure Channel where
  state : ChanState
  group : Option Group
  slots : List Slot
  points : List MergePoint
  dests : List Dest
  sieve : Sieve
  dver : BitVec 32
  dround : BitVec 32
  pver : BitVec 32
  nsamp : Nat
  tstate : Bool
  acause : BitVec 10
  watch : Nat
  opened : Nat
  routes : List ((Nat × Nat) × List Nat)
  groupDue : Bool
  stall : List (Nat × Nat)
  deriving DecidableEq, Repr

/-! ## The domain -/

/-- A posted store that has issued (R245 to R247). `prior` names the stores that a PST.ord follows. -/
structure Posted where
  id : Nat
  tid : Nat
  path : Nat
  pkg : Nat
  loc : Nat
  size : Nat
  value : Word
  prior : List Nat
  performed : Bool
  deriving DecidableEq, Repr

/-- A copy of a resident stash entry that a context caches (R139), by the entry's address. (DESIGN CHOICE, log 17.) -/
structure SptCopy where
  ctx : Nat
  entry : Nat
  value : Nat
  deriving DecidableEq, Repr

/-- An HBAR episode (R238): the count its first arrival gave and the arrivals. -/
structure Episode where
  id : EpisodeId
  count : Nat
  arrived : Nat
  deriving DecidableEq, Repr

/-- What the machine holds of a switched-out task beside its save area (R255, R257, R258). (DEDUCED, log 33.) -/
structure Parked where
  area : Area
  tid : Nat
  ctrl : Word
  budget0 : Word
  home : Nat
  seq : Word
  hbar : Option EpisodeId
  due : Option Nat
  deriving DecidableEq, Repr

/-- A queue entry as it stands in its ring (R31). -/
structure QEntry where
  level : Nat
  slot : Nat
  words : List Word
  deriving DecidableEq, Repr

/-- What the wait condition of an entry answers (R36): it does not hold, it holds, its load faults, with the entry concerned (R161). -/
inductive WaitAnswer where
  | no | yes | fault (cause : BitVec 10) (entry : Word)
  deriving DecidableEq, Repr

/-- Whose turn it is, or what arrives (assumption 3). (DESIGN CHOICE, log 3.) -/
inductive Turn where
  | run (ctx : Nat)
  | event (i : Instr)
  | elapse (ticks : Nat)
  | drain (ctx index : Nat)
  | hold (ctx : Nat)
  | settle (ctx : Nat)
  | late (ctx index : Nat)
  | part (ctx elements : Nat)
  | unit (ctx : Nat) (slot : BitVec 3) (pos : Nat)
  | keep (ctx : Nat) (slot : BitVec 3)
  | deliver (ch : BitVec 4) (dest : Nat)
  | place (ch : BitVec 4) (dest piece : Nat)
  | orphan (index : Nat)
  | pin (ctx : Nat)
  | sread (ch : BitVec 4) (slot : Nat)
  | retry (index : Nat)
  | look (ctx : Nat)
  | entry (ctx : Nat) (page : BitVec 14)
  | prefetch (ctx : Nat) (address : Word)
  deriving DecidableEq, Repr

/-- A record that FV4 still has to enqueue, since the reading of it waits: as the re-run of a task that containment has ended (R264), or for the host (R273). `stall` counts the ticks of the wait (R158). (DESIGN CHOICE, log 25.) -/
structure Rerun where
  ctx : Nat
  record : Word
  home : Nat
  host : Bool
  stall : List (Nat × Nat)
  deriving DecidableEq, Repr

/-- A command of an abandoned task on its way to its next resume point, where FV4 discards it (R259): its context with the SPT that it uses. (DEDUCED, log 34.) -/
structure Orphan where
  ctx : Nat
  tid : Nat
  slot : BitVec 3
  sptroot : Word
  command : Command
  deriving DecidableEq, Repr

/-- All packages, of one domain or of several. `ticks` counts reference ticks since reset (TICK of every package), `chans` holds the channels of each domain under the index of its first package. (DESIGN CHOICE, log 3 and 4 and 43.) -/
structure State where
  mem : List Host.Cell
  poison : List Nat
  ctxs : List (Nat × Ctx)
  cores : List (Nat × Core)
  dies : List (Nat × Die)
  pkgs : List (Nat × Pkg)
  tlb : List TlbEntry
  spt : List SptCopy
  pins : List Pin
  sources : List Source
  posted : List Posted
  nextPosted : Nat
  episodes : List Episode
  nextEpisode : Nat
  parked : List Parked
  chans : List (Nat × Vector Channel 16)
  reruns : List Rerun
  orphans : List Orphan
  agenda : List Turn
  cur : Nat
  free : Nat
  clock : Nat
  nextTid : Nat
  ticks : Word
  deriving DecidableEq, Repr

/-! ## How an instruction ends, and who makes an access -/

/-- What a fault record holds beside the cause and the instruction's address (R161). (DEDUCED, log 12.) -/
structure FaultInfo where
  elem : Nat
  lane : Nat
  more : Bool
  w2 : Word
  w3 : Word
  w4 : Word
  pages : List Word
  deriving DecidableEq, Repr

/-- Why an instruction does not complete at this step: it traps (R252); it waits and is tried again; it waits for M bits or BUSY entries at addresses, whose ticks are counted (R138, R158). -/
inductive Stop where
  | trap (cause : BitVec 10) (info : Word) (record : FaultInfo)
  | wait
  | waitOn (keys : List Nat)
  deriving DecidableEq, Repr

/-- Who makes an access: the core and unit whose caches serve it (R156), the mode it is checked in (R155), its path (R136), the context whose SPT and package registers apply, the ticks waited on M bits and BUSY entries by the walk or entry concerned (R138, R158), and the stamp from which on frames are in use by it (R141). -/
structure Who where
  core : Nat
  unit : UnitKind
  mode : Mode
  path : Path
  ctx : Nat
  sptroot : Word
  waits : List (Nat × Nat)
  since : Nat
  deriving DecidableEq, Repr

/-! ## Why a step can stop -/

/-- Reasons for a fault outcome. The spec gives every case of this machine an effect (a trap, a host
stop, a report), so no meaning raises one; the constructor keeps the type inhabited. -/
inductive Fault where
  /-- No meaning raises it. Safe: the machine stops where the model would have no rule. -/
  | noRule (name : String)
  deriving DecidableEq, Repr

/-- Reasons for a refusal. -/
inductive Refusal where
  /-- Raised by an arm of `exec` that has no meaning yet. Safe: nothing is claimed of the instruction. -/
  | notModelled (mnemonic : String)
  deriving DecidableEq, Repr

/-! ## Reset (assumption 1 where the spec gives no value) -/

/-- A context after reset: no task (R34), every register of R59 at its reset value, the rest zero (assumption 1). (DESIGN CHOICE, log 1.) -/
def Ctx.reset : Ctx where
  life := .idle
  mode := .task
  pc := 0
  s := Vector.replicate 32 0
  v := Vector.replicate 32 0
  tag := Vector.replicate 32 .unset
  hdr := Vector.replicate 32 0
  sup := Vector.replicate 32 0
  m := Vector.replicate 8 0
  held := 0
  ceil := 0
  vl := 0
  vcfg := 0
  vstart := 0
  vfm := 0
  mfmt := 0
  fflags := 0
  rptpos := 0
  paths := Vector.replicate 4 ⟨0, 0⟩
  budget := 0
  sptroot := 0
  tvec := 0
  svcfg := 0
  svl := 0
  forced := false
  abandon := false
  tepc := 0
  async := false
  cause := 0
  tinfo := 0
  tscratch := 0
  record := 0
  ctrl := 0
  parent := 0
  budget0 := 0
  seq := 0
  home := 0
  area := none
  tid := 0
  pending := []
  lost := false
  due := none
  switch := false
  lowered := none
  cut := none
  stopInfo := none
  waited := none
  vdone := 0
  stall := []
  rpt := []
  ending := false
  looping := false
  cmds := Vector.replicate 8 none
  chans := Vector.replicate 16 none
  vstores := []
  drained := []
  delayed := []
  late := []
  vAfter := 0
  sAfter := 0
  fences := []
  quota := none
  adone := 0
  busy := false
  prefetched := []
  hbar := none

/-- A tile with no content (R54). (DESIGN CHOICE, log 1.) -/
def Tile.empty : Tile := ⟨.unset, 0⟩

/-- A buffer with no content (R54). (DESIGN CHOICE, log 1.) -/
def Buffer.empty : Buffer := ⟨.unset, 0, 0, 0, 0⟩

/-- A core after reset: every frame free, the matrix unit not held (assumption 1). (DESIGN CHOICE, log 1.) -/
def Core.reset : Core where
  frames := []
  mu := { holder := none, shape := ⟨0, 0, 0, 0⟩, tiles := Vector.replicate 8 Tile.empty,
          bufs := Vector.replicate 2 Buffer.empty }
  preempt := none
  reserved := []
  out := false
  retiring := none
  stall := []

/-- A die after reset (R30, R31, R35, R59, R255). (DESIGN CHOICE, log 1.) -/
def Die.reset : Die where
  ageN := 64
  qbase := 0
  qdepth := 12
  reclaimLimit := 50000
  vslip := 8
  savebase := 0
  savecount := 0
  nextSeq := 0
  pops := 0
  queued := []
  tails := []
  heads := []
  stall := []
  areas := []
  corrupted := false
  stopped := false

/-- A package after reset (R59, R63, R268, R278; measured values by assumption 1). (DESIGN CHOICE, log 1.) -/
def Pkg.reset : Pkg where
  enable := 0
  ptroot := 0
  walkLimit := 100000
  exchLimit := 50000000
  powerlimit := 3400
  ceil := 8
  below := 0
  periods := 0
  clockLow := false
  tj := 0
  throt := false
  off := false
  eccHbm := 0
  eccSram := 0
  trust := ⟨0, none, false, false⟩
  hwin := 0
  pkgcfg := 0
  linkctl := 0
  evbase := 0
  evsize := 0
  evhead := 0
  evtail := 0
  hctl := 0
  hcaddr := 0
  events := []
  msix := 0
  tdisp := .unlocked
  dispatchOff := false
  ideKey := none
  measurement := []
  spdm := []
  hostReply := []
  links := []
  pcieWidth := 0
  pcieRate := 0

/-- A channel that carries no group (R183). (DESIGN CHOICE, log 1.) -/
def Channel.reset : Channel where
  state := .free
  group := none
  slots := []
  points := []
  dests := []
  sieve := ⟨[], 0, [], 0⟩
  dver := 0
  dround := 0
  pver := 0
  nsamp := 0
  tstate := false
  acause := 0
  watch := 0
  opened := 0
  routes := []
  groupDue := false
  stall := []

/-- The domain right after reset: nothing listed in memory (assumption 2), no context runs a task. (DESIGN CHOICE, log 1.) -/
def State.reset : State where
  mem := []
  poison := []
  ctxs := []
  cores := []
  dies := []
  pkgs := []
  tlb := []
  spt := []
  pins := []
  sources := []
  posted := []
  nextPosted := 0
  episodes := []
  nextEpisode := 0
  parked := []
  chans := []
  reruns := []
  orphans := []
  agenda := []
  cur := 0
  free := 0
  clock := 0
  nextTid := 0
  ticks := 0

end Sys2Proof.Machine
end

