-- ==== Sys2Proof/Machine/Bits.lean ====
section
/-! DEFINITION. Helpers on lists, bit vectors and byte sequences that every other file uses. -/

namespace Sys2Proof.Machine

/-! ## Sparse tables: a key that is not listed has the default -/

/-- The value at a key. -/
def tableGet {α : Type} (t : List (Nat × α)) (k : Nat) (default : α) : α :=
  ((t.find? fun e => e.1 == k).map (·.2)).getD default

/-- The table with one value changed. -/
def tableSet {α : Type} (t : List (Nat × α)) (k : Nat) (x : α) : List (Nat × α) :=
  if t.any (·.1 == k) then t.map fun e => if e.1 == k then (k, x) else e else t ++ [(k, x)]

/-- The table with a key removed. -/
def tableErase {α : Type} (t : List (Nat × α)) (k : Nat) : List (Nat × α) :=
  t.filter fun e => e.1 != k

/-! ## Register files -/

/-- Register `i` of a file of 32. -/
def regGet {α : Type} (v : Vector α 32) (i : BitVec 5) : α := v[i.toNat]'(i.isLt)

/-- A file of 32 with register `i` written. -/
def regSet {α : Type} (v : Vector α 32) (i : BitVec 5) (x : α) : Vector α 32 := v.set i.toNat x i.isLt

/-- Entry `i` of a file of 8. -/
def get8 {α : Type} (v : Vector α 8) (i : BitVec 3) : α := v[i.toNat]'(i.isLt)

/-- A file of 8 with entry `i` written. -/
def set8 {α : Type} (v : Vector α 8) (i : BitVec 3) (x : α) : Vector α 8 := v.set i.toNat x i.isLt

/-- Entry `i` of a file of 16. -/
def get16 {α : Type} (v : Vector α 16) (i : BitVec 4) : α := v[i.toNat]'(i.isLt)

/-- A file of 16 with entry `i` written. -/
def set16 {α : Type} (v : Vector α 16) (i : BitVec 4) (x : α) : Vector α 16 := v.set i.toNat x i.isLt

/-! ## Fields -/

/-- Bits `lo` to `lo + len - 1` of a number. -/
def field (x lo len : Nat) : Nat := (x >>> lo) % 2 ^ len

/-- Bit `i` of a number. -/
def bit (x i : Nat) : Bool := x.testBit i

/-- Bits `lo` to `lo + len - 1` of a bit vector. -/
def slice {n : Nat} (x : BitVec n) (lo len : Nat) : BitVec len := x.extractLsb' lo len

/-- A bit vector with bits `lo` to `lo + len - 1` replaced. -/
def splice {n : Nat} (x : BitVec n) (lo len : Nat) (v : Nat) : BitVec n :=
  let m := BitVec.ofNat n (2 ^ len - 1) <<< lo
  (x &&& ~~~m) ||| ((BitVec.ofNat n v <<< lo) &&& m)

/-- The low `n` bits, all others zero. -/
def keepLow {w : Nat} (x : BitVec w) (n : Nat) : BitVec w := x &&& BitVec.ofNat w (2 ^ n - 1)

/-- A 64-bit word of a number. -/
def word (n : Nat) : Word := BitVec.ofNat 64 n

/-- 1 or 0. -/
def flag (b : Bool) : Nat := if b then 1 else 0

/-- The signed value of the low `w` bits of a number (two's complement, R102). -/
def signed (w x : Nat) : Int :=
  let y := x % 2 ^ w
  if y < 2 ^ (w - 1) then (y : Int) else (y : Int) - (2 ^ w : Int)

/-- The low `w` bits of an integer, as a number (R103). -/
def wrap (w : Nat) (x : Int) : Nat := (x % (2 ^ w : Int)).toNat

/-! ## Bytes: little-endian everywhere (R2) -/

/-- `n` bytes of a number, lowest first. -/
def bytesOf (n : Nat) (x : Nat) : List Byte :=
  match n with
  | 0 => []
  | n + 1 => BitVec.ofNat 8 x :: bytesOf n (x / 256)

/-- The number that bytes make, lowest first. -/
def ofBytes : List Byte → Nat
  | [] => 0
  | b :: rest => b.toNat + 256 * ofBytes rest

/-- A list cut into words of 64 bits. -/
def wordsOf (n : Nat) (x : Nat) : List Word :=
  match n with
  | 0 => []
  | n + 1 => word x :: wordsOf n (x / 2 ^ 64)

/-- The number that 64-bit words make, lowest first. -/
def ofWords : List Word → Nat
  | [] => 0
  | x :: rest => x.toNat + 2 ^ 64 * ofWords rest

/-- Consecutive numbers. -/
def span (start : Nat) : Nat → List Nat
  | 0 => []
  | n + 1 => start :: span (start + 1) n

/-- The smallest element of a list under a key, the first of equals. -/
def leastBy {α : Type} (key : α → Nat) : List α → Option α
  | [] => none
  | x :: rest =>
    match leastBy key rest with
    | none => some x
    | some y => if key y < key x then some y else some x

/-- The position of the first element with a property. -/
def position {α : Type} (p : α → Bool) : List α → Option Nat
  | [] => none
  | x :: rest => if p x then some 0 else (position p rest).map (· + 1)

/-- A list with one entry changed. -/
def setAt {α : Type} (l : List α) (i : Nat) (x : α) : List α := l.set i x

/-- Stable insertion of an element into a list ordered by `le`. -/
def insertBy {α : Type} (le : α → α → Bool) (x : α) : List α → List α
  | [] => [x]
  | y :: rest => if le x y then x :: y :: rest else y :: insertBy le x rest

/-- A stable sort: equal elements keep their order. -/
def sortBy {α : Type} (le : α → α → Bool) : List α → List α
  | [] => []
  | x :: rest => insertBy le x (sortBy le rest)

/-- The greatest power of two among 1, 2, 4 and 8 that is no greater than `n`; 0 if there is none. -/
def power8 (n : Nat) : Nat := if 8 ≤ n then 8 else if 4 ≤ n then 4 else if 2 ≤ n then 2 else if 1 ≤ n then 1 else 0

end Sys2Proof.Machine
end

