-- ==== Sys2Proof/Machine/Flags.lean ====
section
/-! DEFINITION. Arithmetic and its flags (05_arithmetic.md): integer division, and floating point as an
exact value rounded once. Every floating-point function answers the result's bits and the flags NV DZ
OF UF NX it raises (R62, R109). -/

namespace Sys2Proof.Machine

/-! ## Integers (R102, R103) -/

/-- Signed quotient (R103), at width `w`. -/
def divS (w x y : Nat) : Nat :=
  let a := signed w x
  let b := signed w y
  if b = 0 then 2 ^ w - 1 else wrap w (a.tdiv b)

/-- Signed remainder (R103). -/
def remS (w x y : Nat) : Nat :=
  let a := signed w x
  let b := signed w y
  if b = 0 then x % 2 ^ w else wrap w (a.tmod b)

/-- Unsigned quotient (R103). -/
def divU (w x y : Nat) : Nat := if y % 2 ^ w = 0 then 2 ^ w - 1 else x % 2 ^ w / (y % 2 ^ w)

/-- Unsigned remainder (R103). -/
def remU (w x y : Nat) : Nat := if y % 2 ^ w = 0 then x % 2 ^ w else x % 2 ^ w % (y % 2 ^ w)

/-- The number of zero bits above the highest set bit of 64 (R291). -/
def clz64 (x : Nat) : Nat := if x = 0 then 64 else 63 - Nat.log2 x

/-- The number of zero bits below the lowest set bit of `n` bits (R291). -/
def ctzFrom (x : Nat) : Nat → Nat
  | 0 => 0
  | n + 1 => if x % 2 = 1 then 0 else 1 + ctzFrom (x / 2) n

/-- The number of set bits among `n` (R291). -/
def popcount (x : Nat) : Nat → Nat
  | 0 => 0
  | n + 1 => x % 2 + popcount (x / 2) n

/-! ## Formats and values (R104) -/

/-- A binary format: exponent and fraction bits. -/
structure Fmt where
  eb : Nat
  fb : Nat
  deriving DecidableEq, Repr

def fp16 : Fmt := ⟨5, 10⟩
def bf16 : Fmt := ⟨8, 7⟩
def fp32 : Fmt := ⟨8, 23⟩
def fp64 : Fmt := ⟨11, 52⟩

/-- The width of a format. -/
def Fmt.width (f : Fmt) : Nat := 1 + f.eb + f.fb

/-- The bias (R104). -/
def Fmt.bias (f : Fmt) : Int := 2 ^ (f.eb - 1) - 1

/-- The exponent of the smallest normal value. -/
def Fmt.emin (f : Fmt) : Int := 1 - f.bias

/-- The magnitude bits of infinity. -/
def Fmt.inf (f : Fmt) : Nat := (2 ^ f.eb - 1) * 2 ^ f.fb

/-- The canonical quiet NaN (R104). -/
def Fmt.nan (f : Fmt) : Nat := f.inf + 2 ^ (f.fb - 1)

/-- The sign bit in place. -/
def Fmt.sign (f : Fmt) (neg : Bool) : Nat := if neg then 2 ^ (f.eb + f.fb) else 0

/-- A value: a NaN (signalling or quiet), an infinity, or ± mant × 2^exp. -/
inductive Fp where
  | nan (signalling : Bool)
  | inf (neg : Bool)
  | fin (neg : Bool) (mant : Nat) (exp : Int)
  deriving DecidableEq, Repr

/-- The sign of a bit pattern. -/
def Fmt.neg (f : Fmt) (x : Nat) : Bool := bit x (f.eb + f.fb)

/-- The value of a bit pattern (R104). -/
def unpack (f : Fmt) (x : Nat) : Fp :=
  let e := field x f.fb f.eb
  let m := field x 0 f.fb
  if e = 2 ^ f.eb - 1 then
    if m = 0 then .inf (f.neg x) else .nan (!bit x (f.fb - 1))
  else if e = 0 then .fin (f.neg x) m (f.emin - f.fb)
  else .fin (f.neg x) (m + 2 ^ f.fb) (e + f.emin - 1 - f.fb)

/-- A pattern is a NaN. -/
def isNan (f : Fmt) (x : Nat) : Bool :=
  match unpack f x with
  | .nan _ => true
  | _ => false

/-- A pattern is a signalling NaN. -/
def isSnan (f : Fmt) (x : Nat) : Bool := unpack f x == .nan true

/-- Rounding modes (R60, R105): the codes of VCFG.RM. -/
inductive Rm where
  | rne | rtz | rdn | rup
  deriving DecidableEq, Repr

/-- The mode of a code. -/
def rmOf (c : BitVec 2) : Rm :=
  match c.toNat with
  | 0 => .rne
  | 1 => .rtz
  | 2 => .rdn
  | _ => .rup

def flagNV : BitVec 5 := 16#5
def flagDZ : BitVec 5 := 8#5
def flagOF : BitVec 5 := 4#5
def flagUF : BitVec 5 := 2#5
def flagNX : BitVec 5 := 1#5

/-- A result's bits and its flags. -/
abbrev FpResult := Nat × BitVec 5

/-! ## Rounding (R105 to R107) -/

/-- Whether the magnitude is rounded up: `t` is the kept part, `rem` of `half` twice the rest, `sticky` a non-zero rest below that. -/
def roundsUp (rm : Rm) (neg : Bool) (t rem half : Nat) (sticky : Bool) : Bool :=
  match rm with
  | .rne => decide (half < rem) || (rem == half && (sticky || t % 2 == 1))
  | .rtz => false
  | .rdn => neg && (rem != 0 || sticky)
  | .rup => !neg && (rem != 0 || sticky)

/-- The result of an overflow (R106). -/
def overflow (f : Fmt) (rm : Rm) (neg : Bool) : FpResult :=
  let large :=
    match rm with
    | .rne => false
    | .rtz => true
    | .rdn => !neg
    | .rup => neg
  (f.sign neg + (if large then f.inf - 1 else f.inf), flagOF ||| flagNX)

/-- Rounding of the exact value ± mant × 2^exp, or of a value just above it in magnitude when `sticky` is set (then `mant` holds at least three bits more than the fraction). `flush` replaces a tiny result by zero (R107). (DEDUCED, log 19.) -/
def round (f : Fmt) (rm : Rm) (flush neg : Bool) (mant : Nat) (exp : Int) (sticky : Bool) : FpResult :=
  if mant = 0 && !sticky then (f.sign neg, 0)
  else
    let low : Int := f.emin - f.fb
    let deep := decide ((Nat.log2 mant : Int) + exp < low - 3) || mant == 0
    let m := if deep then 1 else mant
    let x := if deep then low - 3 else exp
    let st := sticky || deep
    let e : Int := Nat.log2 m + x
    let tiny := decide (e < f.emin)
    if tiny && flush then (f.sign neg, flagUF ||| flagNX)
    else
      let q := max (e - f.fb) low
      let shift := q - x
      let d := shift.toNat
      let t := if shift ≤ 0 then m * 2 ^ (-shift).toNat else m / 2 ^ d
      let rem := if shift ≤ 0 then 0 else m % 2 ^ d
      let half := if shift ≤ 0 then 1 else 2 ^ (d - 1)
      let inexact := rem != 0 || st
      let r := if roundsUp rm neg t rem half st then t + 1 else t
      let bits := (q - low).toNat * 2 ^ f.fb + r
      if f.inf ≤ bits then overflow f rm neg
      else (f.sign neg + bits, (if inexact then flagNX ||| (if tiny then flagUF else 0) else 0))

/-- Output flush of a policy FZ (R107). -/
def flushOut (fz : BitVec 2) : Bool := fz == 1#2 || fz == 2#2

/-- Input flush of a policy FZ (R107): a subnormal becomes zero of its own sign. -/
def flushIn (f : Fmt) (fz : BitVec 2) (x : Nat) : Nat :=
  if fz == 2#2 && field x f.fb f.eb == 0 then f.sign (f.neg x) else x % 2 ^ f.width

/-- The canonical NaN, with NV where `inv` holds (R108). -/
def nanOf (f : Fmt) (inv : Bool) : FpResult := (f.nan, if inv then flagNV else 0)

/-! ## Operations (R105, R108, R109) -/

/-- An exact integer times a power of two, rounded; an exact zero has the sign `zeroNeg`. -/
def roundInt (f : Fmt) (rm : Rm) (flush : Bool) (v exp : Int) (zeroNeg : Bool) : FpResult :=
  if v = 0 then (f.sign zeroNeg, 0) else round f rm flush (decide (v < 0)) v.natAbs exp false

/-- A signed mantissa. -/
def sgn (neg : Bool) (m : Nat) : Int := if neg then -(m : Int) else m

/-- The sum of two finite values (R105: signs of zero). -/
def addFin (f : Fmt) (rm : Rm) (flush : Bool) (na : Bool) (ma : Nat) (ea : Int) (nb : Bool) (mb : Nat) (eb : Int) :
    FpResult :=
  let e := min ea eb
  let v := sgn na ma * 2 ^ (ea - e).toNat + sgn nb mb * 2 ^ (eb - e).toNat
  let zeroNeg := if ma = 0 && mb = 0 && na == nb then na else rm == .rdn
  roundInt f rm flush v e zeroNeg

/-- x + y of two values. -/
def addVal (f : Fmt) (rm : Rm) (flush : Bool) (x y : Fp) : FpResult :=
  match x, y with
  | .nan a, .nan b => nanOf f (a || b)
  | .nan a, _ => nanOf f a
  | _, .nan b => nanOf f b
  | .inf a, .inf b => if a == b then (f.sign a + f.inf, 0) else nanOf f true
  | .inf a, _ => (f.sign a + f.inf, 0)
  | _, .inf b => (f.sign b + f.inf, 0)
  | .fin na ma ea, .fin nb mb eb => addFin f rm flush na ma ea nb mb eb

/-- The value with its sign changed. -/
def Fp.negate : Fp → Fp
  | .nan s => .nan s
  | .inf n => .inf (!n)
  | .fin n m e => .fin (!n) m e

/-- x × y of two values. -/
def mulVal (f : Fmt) (rm : Rm) (flush : Bool) (x y : Fp) : FpResult :=
  match x, y with
  | .nan a, .nan b => nanOf f (a || b)
  | .nan a, _ => nanOf f a
  | _, .nan b => nanOf f b
  | .inf a, .inf b => (f.sign (a != b) + f.inf, 0)
  | .inf a, .fin b m _ => if m = 0 then nanOf f true else (f.sign (a != b) + f.inf, 0)
  | .fin a m _, .inf b => if m = 0 then nanOf f true else (f.sign (a != b) + f.inf, 0)
  | .fin na ma ea, .fin nb mb eb => round f rm flush (na != nb) (ma * mb) (ea + eb) false

/-- x / y of two values (R109: DZ). -/
def divVal (f : Fmt) (rm : Rm) (flush : Bool) (x y : Fp) : FpResult :=
  match x, y with
  | .nan a, .nan b => nanOf f (a || b)
  | .nan a, _ => nanOf f a
  | _, .nan b => nanOf f b
  | .inf _, .inf _ => nanOf f true
  | .inf a, .fin b _ _ => (f.sign (a != b) + f.inf, 0)
  | .fin a _ _, .inf b => (f.sign (a != b), 0)
  | .fin na ma ea, .fin nb mb eb =>
    if mb = 0 then (if ma = 0 then nanOf f true else (f.sign (na != nb) + f.inf, flagDZ))
    else if ma = 0 then (f.sign (na != nb), 0)
    else
      let k := f.fb + 5 + Nat.log2 mb
      let n := ma * 2 ^ k
      round f rm flush (na != nb) (n / mb) (ea - eb - k) (n % mb != 0)

/-- The integer square root by bits: `r` so far, bits below `n` still to decide. -/
def isqrtFrom (x r : Nat) : Nat → Nat
  | 0 => r
  | n + 1 =>
    let c := r + 2 ^ n
    isqrtFrom x (if c * c ≤ x then c else r) n

/-- floor(√x). -/
def isqrt (x : Nat) : Nat := isqrtFrom x 0 (Nat.log2 x / 2 + 1)

/-- √x of a value (R108). -/
def sqrtVal (f : Fmt) (rm : Rm) (flush : Bool) (x : Fp) : FpResult :=
  match x with
  | .nan s => nanOf f s
  | .inf n => if n then nanOf f true else (f.inf, 0)
  | .fin n m e =>
    if m = 0 then (f.sign n, 0)
    else if n then nanOf f true
    else
      let j := f.fb + 4
      let odd := (e % 2).toNat
      let v := m * 2 ^ (2 * j + odd)
      let r := isqrt v
      round f rm flush false r ((e - odd) / 2 - j) (r * r != v)

/-- 1/√x of a value (R112). (DEDUCED, log 19.) -/
def rsqrtVal (f : Fmt) (rm : Rm) (flush : Bool) (x : Fp) : FpResult :=
  match x with
  | .nan s => nanOf f s
  | .inf n => if n then nanOf f true else (0, 0)
  | .fin n m e =>
    if m = 0 then (f.sign n + f.inf, flagDZ)
    else if n then nanOf f true
    else
      let odd := (e % 2).toNat
      let m := m * 2 ^ odd
      let k := f.fb + 5 + Nat.log2 m
      let r := isqrt (2 ^ (2 * k) / m)
      round f rm flush false r (-(k : Int) - (e - odd) / 2) (r * r * m != 2 ^ (2 * k))

/-- x × y + z of three values, rounded once (R105, R108). -/
def fmaVal (f : Fmt) (rm : Rm) (flush : Bool) (x y z : Fp) : FpResult :=
  let snan v := v == Fp.nan true
  let nan v :=
    match v with
    | Fp.nan _ => true
    | _ => false
  let s := snan x || snan y || snan z
  let zeroTimesInf :=
    match x, y with
    | .inf _, .fin _ m _ => m == 0
    | .fin _ m _, .inf _ => m == 0
    | _, _ => false
  if zeroTimesInf then nanOf f true
  else if nan x || nan y || nan z then nanOf f s
  else
    let product : Fp :=
      match x, y with
      | .inf a, .inf b => .inf (a != b)
      | .inf a, .fin b _ _ => .inf (a != b)
      | .fin a _ _, .inf b => .inf (a != b)
      | .fin na ma ea, .fin nb mb eb => .fin (na != nb) (ma * mb) (ea + eb)
      | _, _ => .nan false
    addVal f rm flush product z

/-- 2^320 × ln 2, rounded down. (DEDUCED, log 19.) -/
def ln2Fixed : Nat := 0xb17217f7d1cf79abc9e3b39803f2f6af40f343267298b62d8a0d175b8baafa2be7b876206debac98

/-- The sum of the terms of e^z in 320-bit fixed point: `t` is the next term, of index `i`. (DEDUCED, log 19.) -/
def expTerms (z t i : Nat) : Nat → Nat
  | 0 => 0
  | n + 1 => t + expTerms z (t * z / 2 ^ 320 / (i + 1)) (i + 1) n

/-- 2^x of a value (R112): an integer exactly, a tiny x as 1 with a rest, any other x through 320 bits of 2^(x − floor x). -/
def exp2Val (f : Fmt) (rm : Rm) (flush : Bool) (x : Fp) : FpResult :=
  match x with
  | .nan s => nanOf f s
  | .inf n => if n then (0, 0) else (f.inf, 0)
  | .fin n m e =>
    if m = 0 then round f rm flush false 1 0 false
    else if 0 ≤ e then
      if (2 ^ (f.eb + 2) : Nat) ≤ m * 2 ^ min e.toNat (f.eb + 2) then
        round f rm flush false 1 (sgn n (2 ^ (f.eb + 2))) false
      else round f rm flush false 1 (sgn n (m * 2 ^ e.toNat)) false
    else
      let k := (-e).toNat
      if (Nat.log2 m : Int) + e < -(f.fb + 6 : Int) then
        let p := f.fb + 5
        if n then round f rm flush false (2 ^ p - 1) (-(p : Int)) true
        else round f rm flush false (2 ^ p) (-(p : Int)) true
      else
        let whole := m / 2 ^ k
        let part := m % 2 ^ k
        let up := n && part != 0
        let exp : Int := if n then -(whole : Int) - flag up else whole
        let frac := if up then 2 ^ k - part else part
        if frac = 0 then round f rm flush false 1 exp false
        else
          let z := frac * 2 ^ 320 / 2 ^ k * ln2Fixed / 2 ^ 320
          round f rm flush false (expTerms z (2 ^ 320) 0 90) (exp - 320) true

/-! ## On bit patterns, with the policy FZ (R107) -/

def fpAdd (f : Fmt) (rm : Rm) (fz : BitVec 2) (x y : Nat) : FpResult :=
  addVal f rm (flushOut fz) (unpack f (flushIn f fz x)) (unpack f (flushIn f fz y))

def fpSub (f : Fmt) (rm : Rm) (fz : BitVec 2) (x y : Nat) : FpResult :=
  addVal f rm (flushOut fz) (unpack f (flushIn f fz x)) (unpack f (flushIn f fz y)).negate

def fpMul (f : Fmt) (rm : Rm) (fz : BitVec 2) (x y : Nat) : FpResult :=
  mulVal f rm (flushOut fz) (unpack f (flushIn f fz x)) (unpack f (flushIn f fz y))

def fpDiv (f : Fmt) (rm : Rm) (fz : BitVec 2) (x y : Nat) : FpResult :=
  divVal f rm (flushOut fz) (unpack f (flushIn f fz x)) (unpack f (flushIn f fz y))

def fpSqrt (f : Fmt) (rm : Rm) (fz : BitVec 2) (x : Nat) : FpResult :=
  sqrtVal f rm (flushOut fz) (unpack f (flushIn f fz x))

def fpRsqrt (f : Fmt) (rm : Rm) (fz : BitVec 2) (x : Nat) : FpResult :=
  rsqrtVal f rm (flushOut fz) (unpack f (flushIn f fz x))

def fpExp2 (f : Fmt) (rm : Rm) (fz : BitVec 2) (x : Nat) : FpResult :=
  exp2Val f rm (flushOut fz) (unpack f (flushIn f fz x))

def fpFma (f : Fmt) (rm : Rm) (fz : BitVec 2) (x y z : Nat) : FpResult :=
  fmaVal f rm (flushOut fz) (unpack f (flushIn f fz x)) (unpack f (flushIn f fz y)) (unpack f (flushIn f fz z))

/-! ## Comparisons, minimum and maximum (R110) -/

/-- The place of a pattern that is no NaN in the order of values; −0 and +0 are equal. -/
def fpKey (f : Fmt) (x : Nat) : Int := sgn (f.neg x) (field x 0 (f.eb + f.fb))

/-- The conditions of FCMP and VFCMP. -/
inductive FpCond where
  | eq | lt | le | un
  deriving DecidableEq, Repr

/-- A comparison: whether it holds, and its flags. -/
def fpCmp (f : Fmt) (fz : BitVec 2) (c : FpCond) (x y : Nat) : Bool × BitVec 5 :=
  let x := flushIn f fz x
  let y := flushIn f fz y
  let nan := isNan f x || isNan f y
  let snan := isSnan f x || isSnan f y
  match c with
  | .eq => (!nan && fpKey f x == fpKey f y, if snan then flagNV else 0)
  | .lt => (!nan && decide (fpKey f x < fpKey f y), if nan then flagNV else 0)
  | .le => (!nan && decide (fpKey f x ≤ fpKey f y), if nan then flagNV else 0)
  | .un => (nan, if snan then flagNV else 0)

/-- x comes before y when −0 is less than +0. -/
def fpBelow (f : Fmt) (x y : Nat) : Bool :=
  decide (fpKey f x < fpKey f y) || (fpKey f x == fpKey f y && f.neg x && !f.neg y)

/-- Minimum or maximum. -/
def fpMinMax (f : Fmt) (fz : BitVec 2) (max : Bool) (x y : Nat) : FpResult :=
  let x := flushIn f fz x
  let y := flushIn f fz y
  let flags := if isSnan f x || isSnan f y then flagNV else 0
  if isNan f x then (if isNan f y then f.nan else y, flags)
  else if isNan f y then (x, flags)
  else (if fpBelow f x y != max then x else y, flags)

/-! ## Conversions (R111) -/

/-- From one format to another. -/
def fpToFp (src dst : Fmt) (rm : Rm) (fz : BitVec 2) (x : Nat) : FpResult :=
  match unpack src (flushIn src fz x) with
  | .nan s => nanOf dst s
  | .inf n => (dst.sign n + dst.inf, 0)
  | .fin n m e => round dst rm (flushOut fz) n m e false

/-- A value rounded to an integer, and whether it is exact. -/
def toInteger (rm : Rm) (n : Bool) (m : Nat) (e : Int) : Int × Bool :=
  if 0 ≤ e then (sgn n (m * 2 ^ e.toNat), true)
  else
    let d := (-e).toNat
    let deep := Nat.log2 m + 2 < d
    let t := if deep then 0 else m / 2 ^ d
    let rem := if deep then flag (m != 0) else m % 2 ^ d
    let half := if deep then 4 else 2 ^ (d - 1)
    (sgn n (if roundsUp rm n t rem half false then t + 1 else t), rem == 0)

/-- To an integer of `w` bits, signed or not. -/
def fpToInt (src : Fmt) (rm : Rm) (fz : BitVec 2) (w : Nat) (isSigned : Bool) (x : Nat) : FpResult :=
  let lo : Int := if isSigned then -(2 ^ (w - 1)) else 0
  let hi : Int := if isSigned then 2 ^ (w - 1) - 1 else 2 ^ w - 1
  match unpack src (flushIn src fz x) with
  | .nan _ => (0, flagNV)
  | .inf n => (wrap w (if n then lo else hi), flagNV)
  | .fin n m e =>
    let (v, exact) := toInteger rm n m e
    if v < lo then (wrap w lo, flagNV)
    else if hi < v then (wrap w hi, flagNV)
    else (wrap w v, if exact then 0 else flagNX)

/-- From an integer. -/
def intToFp (dst : Fmt) (rm : Rm) (flush : Bool) (v : Int) : FpResult := roundInt dst rm flush v 0 false

/-- From a signed integer to a narrower one: saturating (R111). -/
def saturate (w : Nat) (v : Int) : Nat :=
  if v < -(2 ^ (w - 1)) then wrap w (-(2 ^ (w - 1)))
  else if (2 ^ (w - 1) - 1 : Int) < v then wrap w (2 ^ (w - 1) - 1)
  else wrap w v

end Sys2Proof.Machine
end

