-- ==== Sys2Proof/Config.lean ====
section
/-! DEFINITION. What the spec leaves to the part: constants without a body. Nothing in Lean can
evaluate them, so a statement about the model holds for every choice. -/

namespace Sys2Proof

/-- The n-th free choice of the machine (R6): a number that nothing constrains. The step reads the
counter `State.free`, applies this constant to it and advances the counter. Used for the path of a
posted store (R245), the die of SCOPE 4 (R28), the order of unordered elements (R168), the bytes that
a faulted step leaves (R225, R293) and the other choices that assumption 4 lists. (DESIGN CHOICE, log 4.) -/
opaque Config.freeNat : Nat → Nat

/-- The 64-bit value that an unstated result takes; applied to the counter `State.free`. (DESIGN CHOICE, log 4.) -/
opaque Config.freeWord : Nat → Word

/-- What VOLT (R278) measures in a package at a tick: the two rail voltages. (DESIGN CHOICE, log 4.) -/
opaque Config.railVoltage : Nat → Word → BitVec 32

/-- What PROCMON (R278) measures in a package at a tick. (DESIGN CHOICE, log 4.) -/
opaque Config.oscillator : Nat → Word → BitVec 32

end Sys2Proof
end

