-- ==== Sys2Proof/WellFormed.lean ====
section
/-! DEFINITION. Which instructions a word can stand for: the checks of R72 and of the group tables
(04_formats_and_opcode_map.md) on an instruction's fields. -/

namespace Sys2Proof

/-- A scalar pair is named by 1 to 30 (R72). -/
def isPair (n : BitVec 5) : Bool := 1#5 ≤ n && n ≤ 30#5

/-- Two pairs share no register (R72, R87). -/
def apart (n k : BitVec 5) : Bool := n ≠ k && n + 1#5 ≠ k && n ≠ k + 1#5

/-- A single register is none of a pair's (R72, R87). -/
def outside (d n : BitVec 5) : Bool := d ≠ n && d ≠ n + 1#5

/-- Check 1 of R73 on the fields: no value that a group table marks unassigned, no register field that breaks
R72. An event of the machine has no word and is not legal as one. (DEDUCED, log 32.) -/
def Instr.legal : Instr → Bool
  | .fcmp _ _ _ c _ => c ≤ 3#3
  | .fcvt _ _ c => c ≤ 13#5
  | .ld _ _ _ w => w ≠ 7#3
  | .fence p s => p ≠ 0#5 && s ≤ 4#3
  | .svfence f => f ≠ 0#2
  | .tlbinv _ s _ => s = 3#3 || s = 4#3
  | .hbar _ s => 1#3 ≤ s && s ≤ 4#3
  | .sisect d a b => isPair a && isPair b && apart a b && outside d a && outside d b
  | .smerge d a b => isPair d && isPair a && isPair b && apart a b && apart d a && apart d b
  | .vsetl _ _ _ f _ => f ≠ 3#2
  | .vcmpEq d _ _ _ _ => d < 8#5
  | .vcmpNe d _ _ _ _ => d < 8#5
  | .vcmpLt d _ _ _ _ => d < 8#5
  | .vcmpLtu d _ _ _ _ => d < 8#5
  | .vcmpLe d _ _ _ _ => d < 8#5
  | .vcmpLeu d _ _ _ _ => d < 8#5
  | .vcmpEqVs d _ _ _ _ => d < 8#5
  | .vcmpNeVs d _ _ _ _ => d < 8#5
  | .vcmpLtVs d _ _ _ _ => d < 8#5
  | .vcmpLtuVs d _ _ _ _ => d < 8#5
  | .vcmpLeVs d _ _ _ _ => d < 8#5
  | .vcmpLeuVs d _ _ _ _ => d < 8#5
  | .vfcmpEq d _ _ _ _ => d < 8#5
  | .vfcmpLt d _ _ _ _ => d < 8#5
  | .vfcmpLe d _ _ _ _ => d < 8#5
  | .vfcmpUn d _ _ _ _ => d < 8#5
  | .vfcmpEqVs d _ _ _ _ => d < 8#5
  | .vfcmpLtVs d _ _ _ _ => d < 8#5
  | .vfcmpLeVs d _ _ _ _ => d < 8#5
  | .vfcmpUnVs d _ _ _ _ => d < 8#5
  | .mand d a b => d < 8#5 && a < 8#5 && b < 8#5
  | .mor d a b => d < 8#5 && a < 8#5 && b < 8#5
  | .mxor d a b => d < 8#5 && a < 8#5 && b < 8#5
  | .mnot d a => d < 8#5 && a < 8#5
  | .mpop _ a => a < 8#5
  | .mfirst _ a => a < 8#5
  | .mbreak d a => d < 8#5 && a < 8#5
  | .vcvt _ _ t _ _ => 1#5 ≤ t && t ≤ 8#5
  | .vmvRaw _ _ t => t ≤ 10#5
  | .vsortKv d _ _ _ _ => d ≤ 30#5
  | .vldseg d _ _ _ f => f ≠ 0#3 && d.toNat + f.toNat ≤ 31
  | .vstseg d _ _ _ f => f ≠ 0#3 && d.toNat + f.toNat ≤ 31
  | .vamoAddb d _ _ _ _ _ _ _ => d ≤ 30#5
  | .vwait _ _ _ _ _ c => c ≤ 5#3
  | .mshape _ _ f => f ≤ 4#3
  | .mldb _ _ _ _ f => f ≤ 4#3
  | .mma _ _ _ _ _ f => f ≤ 4#3
  | .add .. | .sub .. | .mul .. | .mulh .. | .mulhu .. | .div .. | .divu .. | .rem .. | .remu .. | .and ..
  | .andn .. | .or .. | .xor .. | .sll .. | .srl .. | .sra .. | .slt .. | .sltu .. | .min .. | .max ..
  | .minu .. | .maxu .. | .clz .. | .ctz .. | .popc .. | .sextB .. | .sextH .. | .sextW .. | .zextB ..
  | .zextH .. | .zextW .. | .csel .. | .addImm .. | .andImm .. | .orImm .. | .xorImm .. | .sltImm ..
  | .sltuImm .. | .lih .. | .addpc .. | .fadd .. | .fsub .. | .fmul .. | .fdiv .. | .fsqrt .. | .fma ..
  | .fmin .. | .fmax .. | .fmvx .. | .st .. | .amoAdd .. | .amoAnd .. | .amoOr .. | .amoXor .. | .amoSmin ..
  | .amoSmax .. | .amoUmin .. | .amoUmax .. | .amoSwap .. | .amoFmax .. | .amoAddb .. | .cas .. | .pst ..
  | .pstOrd .. | .beq .. | .bne .. | .blt .. | .bge .. | .bltu .. | .bgeu .. | .jal .. | .jalr .. | .csrr ..
  | .csrw .. | .csrset .. | .csrclr .. | .trap .. | .eret | .brk .. | .ifence | .stflush .. | .stinv ..
  | .tspawn .. | .tend | .tself .. | .barrive .. | .barwait .. | .cpy .. | .cpy2 .. | .cpyxG .. | .cpyxS ..
  | .rsort .. | .xbind .. | .xsend .. | .xsendM .. | .xsendv .. | .xend .. | .xsplitRd .. | .xsplitIn ..
  | .rpt .. | .vadd .. | .vsub .. | .vmul .. | .vmulh .. | .vmulhU .. | .vmin .. | .vminU .. | .vmax ..
  | .vmaxU .. | .vand .. | .vor .. | .vxor .. | .vsll .. | .vsrl .. | .vsra .. | .vsel .. | .vaddVs ..
  | .vsubVs .. | .vmulVs .. | .vmulhVs .. | .vmulhUVs .. | .vminVs .. | .vminUVs .. | .vmaxVs .. | .vmaxUVs ..
  | .vandVs .. | .vorVs .. | .vxorVs .. | .vsllVs .. | .vsrlVs .. | .vsraVs .. | .vselVs .. | .vfadd ..
  | .vfsub .. | .vfmul .. | .vfma .. | .vfdiv .. | .vfsqrt .. | .vfmin .. | .vfmax .. | .vfexp2 ..
  | .vfrsqrt .. | .vfaddVs .. | .vfsubVs .. | .vfmulVs .. | .vfmaVs .. | .vfdivVs .. | .vfminVs ..
  | .vfmaxVs .. | .vredAdd .. | .vredAnd .. | .vredOr .. | .vredXor .. | .vredMin .. | .vredMax ..
  | .vredMinu .. | .vredMaxu .. | .vfredAdd .. | .vfredMin .. | .vfredMax .. | .vslideUp .. | .vslideDown ..
  | .vperm .. | .vcompress .. | .vexpand .. | .vmvV .. | .vmvS .. | .vidx .. | .vextr .. | .vins ..
  | .vsort .. | .vld .. | .vlds .. | .vldff .. | .vst .. | .vsts .. | .vstq .. | .vldx .. | .vstx ..
  | .vstxOrd .. | .vamoAdd .. | .vamoAnd .. | .vamoOr .. | .vamoXor .. | .vamoSmin .. | .vamoSmax ..
  | .vamoUmin .. | .vamoUmax .. | .vamoSwap .. | .vamoFmax .. | .mzero .. | .mst .. | .mmovTo ..
  | .mmovFrom .. => true
  | .entrySelection .. | .lookAhead .. | .preemption .. | .fullSwitch .. | .reclaimFallback ..
  | .taskBudgetExceeded .. | .trapEntry .. | .pageTableWalk .. | .walkStalled .. | .sptEntryBusyTimeout ..
  | .stashFill .. | .stashLineFill .. | .pull .. | .copyCountStep .. | .commandCompletionArrival ..
  | .engineFault .. | .postedStorePerform .. | .postedStoreAcknowledgement .. | .sendPortHandover ..
  | .mergePointForward .. | .recordDelivery .. | .consumedPoll .. | .roundCompletion .. | .deliveryRetry ..
  | .sieveClose .. | .channelWatchdog .. | .barwaitLimitExpiry .. | .vwaitLimitExpiry .. | .containment ..
  | .linePoisoning .. | .softErrorCorrection .. | .linkFailure .. | .linkTraining .. | .eventEntryWrite ..
  | .powerControlPeriod .. | .thermalThrottle .. | .thermalShutdown .. | .firmwareVerification ..
  | .firmwareLoad .. | .spdmRequest .. | .ideKm .. | .lockInterface .. | .startInterface ..
  | .stopInterface .. | .ideIntegrityFailure .. | .hostMemoryAccess .. | .hostRegisterWrite ..
  | .hostResume .. | .hostAbandon .. | .hspawn .. | .pkgcfg .. | .evbase .. | .evsize .. | .evhead ..
  | .dieReset .. | .commandCompletion .. | .pciExpressPortTraining .. | .linkRekeying .. => false

/-- Check 2 of R73 on the fields that are reserved only for some values of another: MREG under MSK = 0 (R72), the
address register under ALL (R83), the side-array register of a format without one (R101). (DEDUCED, log 32.) -/
def Instr.spare : Instr → Bool
  | .tlbinv a _ l => l = 0#1 || a = 0#5
  | .stflush a l => l = 0#1 || a = 0#5
  | .stinv a l => l = 0#1 || a = 0#5
  | .vadd _ _ _ m r => m = 1#1 || r = 0#3
  | .vsub _ _ _ m r => m = 1#1 || r = 0#3
  | .vmul _ _ _ m r => m = 1#1 || r = 0#3
  | .vmulh _ _ _ m r => m = 1#1 || r = 0#3
  | .vmulhU _ _ _ m r => m = 1#1 || r = 0#3
  | .vmin _ _ _ m r => m = 1#1 || r = 0#3
  | .vminU _ _ _ m r => m = 1#1 || r = 0#3
  | .vmax _ _ _ m r => m = 1#1 || r = 0#3
  | .vmaxU _ _ _ m r => m = 1#1 || r = 0#3
  | .vand _ _ _ m r => m = 1#1 || r = 0#3
  | .vor _ _ _ m r => m = 1#1 || r = 0#3
  | .vxor _ _ _ m r => m = 1#1 || r = 0#3
  | .vsll _ _ _ m r => m = 1#1 || r = 0#3
  | .vsrl _ _ _ m r => m = 1#1 || r = 0#3
  | .vsra _ _ _ m r => m = 1#1 || r = 0#3
  | .vcmpEq _ _ _ m r => m = 1#1 || r = 0#3
  | .vcmpNe _ _ _ m r => m = 1#1 || r = 0#3
  | .vcmpLt _ _ _ m r => m = 1#1 || r = 0#3
  | .vcmpLtu _ _ _ m r => m = 1#1 || r = 0#3
  | .vcmpLe _ _ _ m r => m = 1#1 || r = 0#3
  | .vcmpLeu _ _ _ m r => m = 1#1 || r = 0#3
  | .vaddVs _ _ _ m r => m = 1#1 || r = 0#3
  | .vsubVs _ _ _ m r => m = 1#1 || r = 0#3
  | .vmulVs _ _ _ m r => m = 1#1 || r = 0#3
  | .vmulhVs _ _ _ m r => m = 1#1 || r = 0#3
  | .vmulhUVs _ _ _ m r => m = 1#1 || r = 0#3
  | .vminVs _ _ _ m r => m = 1#1 || r = 0#3
  | .vminUVs _ _ _ m r => m = 1#1 || r = 0#3
  | .vmaxVs _ _ _ m r => m = 1#1 || r = 0#3
  | .vmaxUVs _ _ _ m r => m = 1#1 || r = 0#3
  | .vandVs _ _ _ m r => m = 1#1 || r = 0#3
  | .vorVs _ _ _ m r => m = 1#1 || r = 0#3
  | .vxorVs _ _ _ m r => m = 1#1 || r = 0#3
  | .vsllVs _ _ _ m r => m = 1#1 || r = 0#3
  | .vsrlVs _ _ _ m r => m = 1#1 || r = 0#3
  | .vsraVs _ _ _ m r => m = 1#1 || r = 0#3
  | .vcmpEqVs _ _ _ m r => m = 1#1 || r = 0#3
  | .vcmpNeVs _ _ _ m r => m = 1#1 || r = 0#3
  | .vcmpLtVs _ _ _ m r => m = 1#1 || r = 0#3
  | .vcmpLtuVs _ _ _ m r => m = 1#1 || r = 0#3
  | .vcmpLeVs _ _ _ m r => m = 1#1 || r = 0#3
  | .vcmpLeuVs _ _ _ m r => m = 1#1 || r = 0#3
  | .vfadd _ _ _ m r => m = 1#1 || r = 0#3
  | .vfsub _ _ _ m r => m = 1#1 || r = 0#3
  | .vfmul _ _ _ m r => m = 1#1 || r = 0#3
  | .vfma _ _ _ m r => m = 1#1 || r = 0#3
  | .vfdiv _ _ _ m r => m = 1#1 || r = 0#3
  | .vfsqrt _ _ m r => m = 1#1 || r = 0#3
  | .vfmin _ _ _ m r => m = 1#1 || r = 0#3
  | .vfmax _ _ _ m r => m = 1#1 || r = 0#3
  | .vfexp2 _ _ m r => m = 1#1 || r = 0#3
  | .vfrsqrt _ _ m r => m = 1#1 || r = 0#3
  | .vfcmpEq _ _ _ m r => m = 1#1 || r = 0#3
  | .vfcmpLt _ _ _ m r => m = 1#1 || r = 0#3
  | .vfcmpLe _ _ _ m r => m = 1#1 || r = 0#3
  | .vfcmpUn _ _ _ m r => m = 1#1 || r = 0#3
  | .vfaddVs _ _ _ m r => m = 1#1 || r = 0#3
  | .vfsubVs _ _ _ m r => m = 1#1 || r = 0#3
  | .vfmulVs _ _ _ m r => m = 1#1 || r = 0#3
  | .vfmaVs _ _ _ m r => m = 1#1 || r = 0#3
  | .vfdivVs _ _ _ m r => m = 1#1 || r = 0#3
  | .vfminVs _ _ _ m r => m = 1#1 || r = 0#3
  | .vfmaxVs _ _ _ m r => m = 1#1 || r = 0#3
  | .vfcmpEqVs _ _ _ m r => m = 1#1 || r = 0#3
  | .vfcmpLtVs _ _ _ m r => m = 1#1 || r = 0#3
  | .vfcmpLeVs _ _ _ m r => m = 1#1 || r = 0#3
  | .vfcmpUnVs _ _ _ m r => m = 1#1 || r = 0#3
  | .vredAdd _ _ m r => m = 1#1 || r = 0#3
  | .vredAnd _ _ m r => m = 1#1 || r = 0#3
  | .vredOr _ _ m r => m = 1#1 || r = 0#3
  | .vredXor _ _ m r => m = 1#1 || r = 0#3
  | .vredMin _ _ m r => m = 1#1 || r = 0#3
  | .vredMax _ _ m r => m = 1#1 || r = 0#3
  | .vredMinu _ _ m r => m = 1#1 || r = 0#3
  | .vredMaxu _ _ m r => m = 1#1 || r = 0#3
  | .vfredAdd _ _ m r => m = 1#1 || r = 0#3
  | .vfredMin _ _ m r => m = 1#1 || r = 0#3
  | .vfredMax _ _ m r => m = 1#1 || r = 0#3
  | .vslideUp _ _ _ m r => m = 1#1 || r = 0#3
  | .vslideDown _ _ _ m r => m = 1#1 || r = 0#3
  | .vperm _ _ _ m r => m = 1#1 || r = 0#3
  | .vcvt _ _ _ m r => m = 1#1 || r = 0#3
  | .vmvV _ _ m r => m = 1#1 || r = 0#3
  | .vmvS _ _ m r => m = 1#1 || r = 0#3
  | .vidx _ m r => m = 1#1 || r = 0#3
  | .vsort _ _ m r => m = 1#1 || r = 0#3
  | .vsortKv _ _ _ m r => m = 1#1 || r = 0#3
  | .vld _ _ _ m r => m = 1#1 || r = 0#3
  | .vlds _ _ _ m r => m = 1#1 || r = 0#3
  | .vldseg _ _ m r _ => m = 1#1 || r = 0#3
  | .vldff _ _ _ m r => m = 1#1 || r = 0#3
  | .vst _ _ _ m r => m = 1#1 || r = 0#3
  | .vsts _ _ _ m r => m = 1#1 || r = 0#3
  | .vstseg _ _ m r _ => m = 1#1 || r = 0#3
  | .vstq _ _ _ m r => m = 1#1 || r = 0#3
  | .vldx _ _ _ m r _ => m = 1#1 || r = 0#3
  | .vstx _ _ _ m r _ => m = 1#1 || r = 0#3
  | .vstxOrd _ _ _ m r _ => m = 1#1 || r = 0#3
  | .vamoAdd _ _ _ m r _ _ _ => m = 1#1 || r = 0#3
  | .vamoAnd _ _ _ m r _ _ _ => m = 1#1 || r = 0#3
  | .vamoOr _ _ _ m r _ _ _ => m = 1#1 || r = 0#3
  | .vamoXor _ _ _ m r _ _ _ => m = 1#1 || r = 0#3
  | .vamoSmin _ _ _ m r _ _ _ => m = 1#1 || r = 0#3
  | .vamoSmax _ _ _ m r _ _ _ => m = 1#1 || r = 0#3
  | .vamoUmin _ _ _ m r _ _ _ => m = 1#1 || r = 0#3
  | .vamoUmax _ _ _ m r _ _ _ => m = 1#1 || r = 0#3
  | .vamoSwap _ _ _ m r _ _ _ => m = 1#1 || r = 0#3
  | .vamoFmax _ _ _ m r _ _ _ => m = 1#1 || r = 0#3
  | .vamoAddb _ _ _ m r _ _ _ => m = 1#1 || r = 0#3
  | .vwait _ _ _ m r _ => m = 1#1 || r = 0#3
  | .mldb _ _ b _ f => f = 3#3 || f = 4#3 || b = 0#5
  | .mma _ _ b _ _ f => f = 3#3 || f = 4#3 || b = 0#5
  | .add .. | .sub .. | .mul .. | .mulh .. | .mulhu .. | .div .. | .divu .. | .rem .. | .remu .. | .and ..
  | .andn .. | .or .. | .xor .. | .sll .. | .srl .. | .sra .. | .slt .. | .sltu .. | .min .. | .max ..
  | .minu .. | .maxu .. | .clz .. | .ctz .. | .popc .. | .sextB .. | .sextH .. | .sextW .. | .zextB ..
  | .zextH .. | .zextW .. | .csel .. | .addImm .. | .andImm .. | .orImm .. | .xorImm .. | .sltImm ..
  | .sltuImm .. | .lih .. | .addpc .. | .fadd .. | .fsub .. | .fmul .. | .fdiv .. | .fsqrt .. | .fma ..
  | .fmin .. | .fmax .. | .fcmp .. | .fcvt .. | .fmvx .. | .ld .. | .st .. | .amoAdd .. | .amoAnd ..
  | .amoOr .. | .amoXor .. | .amoSmin .. | .amoSmax .. | .amoUmin .. | .amoUmax .. | .amoSwap .. | .amoFmax ..
  | .amoAddb .. | .cas .. | .pst .. | .pstOrd .. | .beq .. | .bne .. | .blt .. | .bge .. | .bltu .. | .bgeu ..
  | .jal .. | .jalr .. | .csrr .. | .csrw .. | .csrset .. | .csrclr .. | .trap .. | .eret | .brk ..
  | .fence .. | .svfence .. | .ifence | .tspawn .. | .tend | .tself .. | .barrive .. | .barwait .. | .hbar ..
  | .cpy .. | .cpy2 .. | .cpyxG .. | .cpyxS .. | .rsort .. | .sisect .. | .smerge .. | .xbind .. | .xsend ..
  | .xsendM .. | .xsendv .. | .xend .. | .xsplitRd .. | .xsplitIn .. | .vsetl .. | .rpt .. | .vsel ..
  | .vselVs .. | .vcompress .. | .vexpand .. | .mand .. | .mor .. | .mxor .. | .mnot .. | .mpop ..
  | .mfirst .. | .mbreak .. | .vmvRaw .. | .vextr .. | .vins .. | .mshape .. | .mzero .. | .mst ..
  | .mmovTo .. | .mmovFrom .. => true
  | .entrySelection .. | .lookAhead .. | .preemption .. | .fullSwitch .. | .reclaimFallback ..
  | .taskBudgetExceeded .. | .trapEntry .. | .pageTableWalk .. | .walkStalled .. | .sptEntryBusyTimeout ..
  | .stashFill .. | .stashLineFill .. | .pull .. | .copyCountStep .. | .commandCompletionArrival ..
  | .engineFault .. | .postedStorePerform .. | .postedStoreAcknowledgement .. | .sendPortHandover ..
  | .mergePointForward .. | .recordDelivery .. | .consumedPoll .. | .roundCompletion .. | .deliveryRetry ..
  | .sieveClose .. | .channelWatchdog .. | .barwaitLimitExpiry .. | .vwaitLimitExpiry .. | .containment ..
  | .linePoisoning .. | .softErrorCorrection .. | .linkFailure .. | .linkTraining .. | .eventEntryWrite ..
  | .powerControlPeriod .. | .thermalThrottle .. | .thermalShutdown .. | .firmwareVerification ..
  | .firmwareLoad .. | .spdmRequest .. | .ideKm .. | .lockInterface .. | .startInterface ..
  | .stopInterface .. | .ideIntegrityFailure .. | .hostMemoryAccess .. | .hostRegisterWrite ..
  | .hostResume .. | .hostAbandon .. | .hspawn .. | .pkgcfg .. | .evbase .. | .evsize .. | .evhead ..
  | .dieReset .. | .commandCompletion .. | .pciExpressPortTraining .. | .linkRekeying .. => false

/-- A well-formed instruction: one that some word stands for. -/
def Instr.wellFormed (i : Instr) : Bool := i.legal && i.spare

end Sys2Proof
end

