-- ==== Sys2Proof/Decode.lean ====
section
/-! DEFINITION. Decoding of instruction words (R70 to R101) in the order of R73, checks 1 and 2, and
after it the encoder, written from the same tables. Checks 3 and 4 depend on the mode and on ENABLE
and are made when the instruction executes. -/

namespace Sys2Proof

/-- Why a word is no instruction: 0x001 for an unassigned code or a register field that breaks R72, 0x002 for a
reserved field that is not zero (R73). -/
inductive DecodeError where
  | illegal | reserved
  deriving DecidableEq, Repr

/-! The functions `groupXX` read the function code of a major opcode and answer the instruction with the mask
of the bits that its row leaves unused, or none where the code is unassigned. -/

/-- Major 0x01. -/
def group01 (w : BitVec 32) : Option (Instr × BitVec 32) :=
  match (w.extractLsb' 0 6).toNat with
  | 0 => some (.add (w.extractLsb' 21 5) (w.extractLsb' 16 5) (w.extractLsb' 11 5), 0x000007C0#32)
  | 1 => some (.sub (w.extractLsb' 21 5) (w.extractLsb' 16 5) (w.extractLsb' 11 5), 0x000007C0#32)
  | 2 => some (.mul (w.extractLsb' 21 5) (w.extractLsb' 16 5) (w.extractLsb' 11 5), 0x000007C0#32)
  | 3 => some (.mulh (w.extractLsb' 21 5) (w.extractLsb' 16 5) (w.extractLsb' 11 5), 0x000007C0#32)
  | 4 => some (.mulhu (w.extractLsb' 21 5) (w.extractLsb' 16 5) (w.extractLsb' 11 5), 0x000007C0#32)
  | 5 => some (.div (w.extractLsb' 21 5) (w.extractLsb' 16 5) (w.extractLsb' 11 5), 0x000007C0#32)
  | 6 => some (.divu (w.extractLsb' 21 5) (w.extractLsb' 16 5) (w.extractLsb' 11 5), 0x000007C0#32)
  | 7 => some (.rem (w.extractLsb' 21 5) (w.extractLsb' 16 5) (w.extractLsb' 11 5), 0x000007C0#32)
  | 8 => some (.remu (w.extractLsb' 21 5) (w.extractLsb' 16 5) (w.extractLsb' 11 5), 0x000007C0#32)
  | 9 => some (.and (w.extractLsb' 21 5) (w.extractLsb' 16 5) (w.extractLsb' 11 5), 0x000007C0#32)
  | 10 => some (.andn (w.extractLsb' 21 5) (w.extractLsb' 16 5) (w.extractLsb' 11 5), 0x000007C0#32)
  | 11 => some (.or (w.extractLsb' 21 5) (w.extractLsb' 16 5) (w.extractLsb' 11 5), 0x000007C0#32)
  | 12 => some (.xor (w.extractLsb' 21 5) (w.extractLsb' 16 5) (w.extractLsb' 11 5), 0x000007C0#32)
  | 13 => some (.sll (w.extractLsb' 21 5) (w.extractLsb' 16 5) (w.extractLsb' 11 5), 0x000007C0#32)
  | 14 => some (.srl (w.extractLsb' 21 5) (w.extractLsb' 16 5) (w.extractLsb' 11 5), 0x000007C0#32)
  | 15 => some (.sra (w.extractLsb' 21 5) (w.extractLsb' 16 5) (w.extractLsb' 11 5), 0x000007C0#32)
  | 16 => some (.slt (w.extractLsb' 21 5) (w.extractLsb' 16 5) (w.extractLsb' 11 5), 0x000007C0#32)
  | 17 => some (.sltu (w.extractLsb' 21 5) (w.extractLsb' 16 5) (w.extractLsb' 11 5), 0x000007C0#32)
  | 18 => some (.min (w.extractLsb' 21 5) (w.extractLsb' 16 5) (w.extractLsb' 11 5), 0x000007C0#32)
  | 19 => some (.max (w.extractLsb' 21 5) (w.extractLsb' 16 5) (w.extractLsb' 11 5), 0x000007C0#32)
  | 20 => some (.minu (w.extractLsb' 21 5) (w.extractLsb' 16 5) (w.extractLsb' 11 5), 0x000007C0#32)
  | 21 => some (.maxu (w.extractLsb' 21 5) (w.extractLsb' 16 5) (w.extractLsb' 11 5), 0x000007C0#32)
  | 22 => some (.clz (w.extractLsb' 21 5) (w.extractLsb' 16 5), 0x0000FFC0#32)
  | 23 => some (.ctz (w.extractLsb' 21 5) (w.extractLsb' 16 5), 0x0000FFC0#32)
  | 24 => some (.popc (w.extractLsb' 21 5) (w.extractLsb' 16 5), 0x0000FFC0#32)
  | 25 => some (.sextB (w.extractLsb' 21 5) (w.extractLsb' 16 5), 0x0000FFC0#32)
  | 26 => some (.sextH (w.extractLsb' 21 5) (w.extractLsb' 16 5), 0x0000FFC0#32)
  | 27 => some (.sextW (w.extractLsb' 21 5) (w.extractLsb' 16 5), 0x0000FFC0#32)
  | 28 => some (.zextB (w.extractLsb' 21 5) (w.extractLsb' 16 5), 0x0000FFC0#32)
  | 29 => some (.zextH (w.extractLsb' 21 5) (w.extractLsb' 16 5), 0x0000FFC0#32)
  | 30 => some (.zextW (w.extractLsb' 21 5) (w.extractLsb' 16 5), 0x0000FFC0#32)
  | 31 => some (.csel (w.extractLsb' 21 5) (w.extractLsb' 16 5) (w.extractLsb' 11 5) (w.extractLsb' 6 5), 0x00000000#32)
  | _ => none

/-- Major 0x02. -/
def group02 (w : BitVec 32) : Option (Instr × BitVec 32) :=
  some (.addImm (w.extractLsb' 21 5) (w.extractLsb' 16 5) (w.extractLsb' 0 16), 0x00000000#32)

/-- Major 0x03. -/
def group03 (w : BitVec 32) : Option (Instr × BitVec 32) :=
  some (.andImm (w.extractLsb' 21 5) (w.extractLsb' 16 5) (w.extractLsb' 0 16), 0x00000000#32)

/-- Major 0x04. -/
def group04 (w : BitVec 32) : Option (Instr × BitVec 32) :=
  some (.orImm (w.extractLsb' 21 5) (w.extractLsb' 16 5) (w.extractLsb' 0 16), 0x00000000#32)

/-- Major 0x05. -/
def group05 (w : BitVec 32) : Option (Instr × BitVec 32) :=
  some (.xorImm (w.extractLsb' 21 5) (w.extractLsb' 16 5) (w.extractLsb' 0 16), 0x00000000#32)

/-- Major 0x06. -/
def group06 (w : BitVec 32) : Option (Instr × BitVec 32) :=
  some (.sltImm (w.extractLsb' 21 5) (w.extractLsb' 16 5) (w.extractLsb' 0 16), 0x00000000#32)

/-- Major 0x07. -/
def group07 (w : BitVec 32) : Option (Instr × BitVec 32) :=
  some (.sltuImm (w.extractLsb' 21 5) (w.extractLsb' 16 5) (w.extractLsb' 0 16), 0x00000000#32)

/-- Major 0x08. -/
def group08 (w : BitVec 32) : Option (Instr × BitVec 32) :=
  some (.lih (w.extractLsb' 21 5) (w.extractLsb' 16 5) (w.extractLsb' 0 16), 0x00000000#32)

/-- Major 0x09. -/
def group09 (w : BitVec 32) : Option (Instr × BitVec 32) :=
  some (.addpc (w.extractLsb' 21 5) (w.extractLsb' 0 16), 0x001F0000#32)

/-- Major 0x0A. -/
def group0A (w : BitVec 32) : Option (Instr × BitVec 32) :=
  match (w.extractLsb' 0 6).toNat with
  | 0 | 16 => some (.fadd (w.extractLsb' 21 5) (w.extractLsb' 16 5) (w.extractLsb' 11 5) (w.extractLsb' 4 1), 0x000007C0#32)
  | 1 | 17 => some (.fsub (w.extractLsb' 21 5) (w.extractLsb' 16 5) (w.extractLsb' 11 5) (w.extractLsb' 4 1), 0x000007C0#32)
  | 2 | 18 => some (.fmul (w.extractLsb' 21 5) (w.extractLsb' 16 5) (w.extractLsb' 11 5) (w.extractLsb' 4 1), 0x000007C0#32)
  | 3 | 19 => some (.fdiv (w.extractLsb' 21 5) (w.extractLsb' 16 5) (w.extractLsb' 11 5) (w.extractLsb' 4 1), 0x000007C0#32)
  | 4 | 20 => some (.fsqrt (w.extractLsb' 21 5) (w.extractLsb' 16 5) (w.extractLsb' 4 1), 0x0000FFC0#32)
  | 5 | 21 => some (.fma (w.extractLsb' 21 5) (w.extractLsb' 16 5) (w.extractLsb' 11 5) (w.extractLsb' 6 5) (w.extractLsb' 4 1), 0x00000000#32)
  | 6 | 22 => some (.fmin (w.extractLsb' 21 5) (w.extractLsb' 16 5) (w.extractLsb' 11 5) (w.extractLsb' 4 1), 0x000007C0#32)
  | 7 | 23 => some (.fmax (w.extractLsb' 21 5) (w.extractLsb' 16 5) (w.extractLsb' 11 5) (w.extractLsb' 4 1), 0x000007C0#32)
  | 8 | 24 => some (.fcmp (w.extractLsb' 21 5) (w.extractLsb' 16 5) (w.extractLsb' 11 5) (w.extractLsb' 6 3) (w.extractLsb' 4 1), 0x00000600#32)
  | 9 => some (.fcvt (w.extractLsb' 21 5) (w.extractLsb' 16 5) (w.extractLsb' 6 5), 0x0000F800#32)
  | 10 | 26 => some (.fmvx (w.extractLsb' 21 5) (w.extractLsb' 16 5) (w.extractLsb' 4 1), 0x0000FFC0#32)
  | _ => none

/-- Major 0x0B. -/
def group0B (w : BitVec 32) : Option (Instr × BitVec 32) :=
  some (.ld (w.extractLsb' 21 5) (w.extractLsb' 16 5) (w.extractLsb' 3 13) (w.extractLsb' 0 3), 0x00000000#32)

/-- Major 0x0C. -/
def group0C (w : BitVec 32) : Option (Instr × BitVec 32) :=
  if w.extractLsb' 2 1 = 0#1 then some (.st (w.extractLsb' 21 5) (w.extractLsb' 16 5) (w.extractLsb' 3 13) (w.extractLsb' 0 2), 0x00000000#32) else none

/-- Major 0x0D. -/
def group0D (w : BitVec 32) : Option (Instr × BitVec 32) :=
  match (w.extractLsb' 0 6).toNat with
  | 32 | 48 => some (.amoAdd (w.extractLsb' 21 5) (w.extractLsb' 16 5) (w.extractLsb' 11 5) (w.extractLsb' 4 1), 0x000007C0#32)
  | 33 | 49 => some (.amoAnd (w.extractLsb' 21 5) (w.extractLsb' 16 5) (w.extractLsb' 11 5) (w.extractLsb' 4 1), 0x000007C0#32)
  | 34 | 50 => some (.amoOr (w.extractLsb' 21 5) (w.extractLsb' 16 5) (w.extractLsb' 11 5) (w.extractLsb' 4 1), 0x000007C0#32)
  | 35 | 51 => some (.amoXor (w.extractLsb' 21 5) (w.extractLsb' 16 5) (w.extractLsb' 11 5) (w.extractLsb' 4 1), 0x000007C0#32)
  | 36 | 52 => some (.amoSmin (w.extractLsb' 21 5) (w.extractLsb' 16 5) (w.extractLsb' 11 5) (w.extractLsb' 4 1), 0x000007C0#32)
  | 37 | 53 => some (.amoSmax (w.extractLsb' 21 5) (w.extractLsb' 16 5) (w.extractLsb' 11 5) (w.extractLsb' 4 1), 0x000007C0#32)
  | 38 | 54 => some (.amoUmin (w.extractLsb' 21 5) (w.extractLsb' 16 5) (w.extractLsb' 11 5) (w.extractLsb' 4 1), 0x000007C0#32)
  | 39 | 55 => some (.amoUmax (w.extractLsb' 21 5) (w.extractLsb' 16 5) (w.extractLsb' 11 5) (w.extractLsb' 4 1), 0x000007C0#32)
  | 40 | 56 => some (.amoSwap (w.extractLsb' 21 5) (w.extractLsb' 16 5) (w.extractLsb' 11 5) (w.extractLsb' 4 1), 0x000007C0#32)
  | 41 | 57 => some (.amoFmax (w.extractLsb' 21 5) (w.extractLsb' 16 5) (w.extractLsb' 11 5) (w.extractLsb' 4 1), 0x000007C0#32)
  | 42 | 58 => some (.amoAddb (w.extractLsb' 21 5) (w.extractLsb' 16 5) (w.extractLsb' 11 5) (w.extractLsb' 6 5) (w.extractLsb' 4 1), 0x00000000#32)
  | 43 | 59 => some (.cas (w.extractLsb' 21 5) (w.extractLsb' 16 5) (w.extractLsb' 11 5) (w.extractLsb' 6 5) (w.extractLsb' 4 1), 0x00000000#32)
  | 44 | 60 => some (.pst (w.extractLsb' 16 5) (w.extractLsb' 11 5) (w.extractLsb' 4 1), 0x03E007C0#32)
  | 45 | 61 => some (.pstOrd (w.extractLsb' 16 5) (w.extractLsb' 11 5) (w.extractLsb' 4 1), 0x03E007C0#32)
  | _ => none

/-- Major 0x0E. -/
def group0E (w : BitVec 32) : Option (Instr × BitVec 32) :=
  some (.beq (w.extractLsb' 21 5) (w.extractLsb' 16 5) (w.extractLsb' 0 16), 0x00000000#32)

/-- Major 0x0F. -/
def group0F (w : BitVec 32) : Option (Instr × BitVec 32) :=
  some (.bne (w.extractLsb' 21 5) (w.extractLsb' 16 5) (w.extractLsb' 0 16), 0x00000000#32)

/-- Major 0x10. -/
def group10 (w : BitVec 32) : Option (Instr × BitVec 32) :=
  some (.blt (w.extractLsb' 21 5) (w.extractLsb' 16 5) (w.extractLsb' 0 16), 0x00000000#32)

/-- Major 0x11. -/
def group11 (w : BitVec 32) : Option (Instr × BitVec 32) :=
  some (.bge (w.extractLsb' 21 5) (w.extractLsb' 16 5) (w.extractLsb' 0 16), 0x00000000#32)

/-- Major 0x12. -/
def group12 (w : BitVec 32) : Option (Instr × BitVec 32) :=
  some (.bltu (w.extractLsb' 21 5) (w.extractLsb' 16 5) (w.extractLsb' 0 16), 0x00000000#32)

/-- Major 0x13. -/
def group13 (w : BitVec 32) : Option (Instr × BitVec 32) :=
  some (.bgeu (w.extractLsb' 21 5) (w.extractLsb' 16 5) (w.extractLsb' 0 16), 0x00000000#32)

/-- Major 0x14. -/
def group14 (w : BitVec 32) : Option (Instr × BitVec 32) :=
  some (.jal (w.extractLsb' 21 5) (w.extractLsb' 0 21), 0x00000000#32)

/-- Major 0x15. -/
def group15 (w : BitVec 32) : Option (Instr × BitVec 32) :=
  some (.jalr (w.extractLsb' 21 5) (w.extractLsb' 16 5) (w.extractLsb' 0 16), 0x00000000#32)

/-- Major 0x16. -/
def group16 (w : BitVec 32) : Option (Instr × BitVec 32) :=
  match (w.extractLsb' 0 6).toNat with
  | 0 => some (.csrr (w.extractLsb' 21 5) (w.extractLsb' 6 10), 0x001F0000#32)
  | 1 => some (.csrw (w.extractLsb' 21 5) (w.extractLsb' 16 5) (w.extractLsb' 6 10), 0x00000000#32)
  | 2 => some (.csrset (w.extractLsb' 21 5) (w.extractLsb' 16 5) (w.extractLsb' 6 10), 0x00000000#32)
  | 3 => some (.csrclr (w.extractLsb' 21 5) (w.extractLsb' 16 5) (w.extractLsb' 6 10), 0x00000000#32)
  | 8 => some (.trap (w.extractLsb' 16 5) (w.extractLsb' 6 6), 0x03E0F000#32)
  | 9 => some (.eret, 0x03FFFFC0#32)
  | 10 => some (.brk (w.extractLsb' 6 10), 0x03FF0000#32)
  | 16 => some (.fence (w.extractLsb' 11 5) (w.extractLsb' 8 3), 0x03FF00C0#32)
  | 17 => some (.svfence (w.extractLsb' 6 2), 0x03FFFF00#32)
  | 18 => some (.ifence, 0x03FFFFC0#32)
  | 19 => some (.tlbinv (w.extractLsb' 16 5) (w.extractLsb' 8 3) (w.extractLsb' 7 1), 0x03E0F840#32)
  | 20 => some (.stflush (w.extractLsb' 16 5) (w.extractLsb' 7 1), 0x03E0FF40#32)
  | 21 => some (.stinv (w.extractLsb' 16 5) (w.extractLsb' 7 1), 0x03E0FF40#32)
  | _ => none

/-- Major 0x17. -/
def group17 (w : BitVec 32) : Option (Instr × BitVec 32) :=
  match (w.extractLsb' 0 6).toNat with
  | 0 => some (.tspawn (w.extractLsb' 16 5), 0x03E0FFC0#32)
  | 1 => some (.tend, 0x03FFFFC0#32)
  | 2 => some (.tself (w.extractLsb' 21 5), 0x001FFFC0#32)
  | _ => none

/-- Major 0x18. -/
def group18 (w : BitVec 32) : Option (Instr × BitVec 32) :=
  match (w.extractLsb' 0 6).toNat with
  | 0 => some (.barrive (w.extractLsb' 21 5) (w.extractLsb' 16 5) (w.extractLsb' 11 5), 0x000007C0#32)
  | 1 => some (.barwait (w.extractLsb' 21 5) (w.extractLsb' 16 5) (w.extractLsb' 11 5) (w.extractLsb' 6 5), 0x00000000#32)
  | 2 => some (.hbar (w.extractLsb' 16 5) (w.extractLsb' 6 3), 0x03E0FE00#32)
  | _ => none

/-- Major 0x19. -/
def group19 (w : BitVec 32) : Option (Instr × BitVec 32) :=
  match (w.extractLsb' 0 6).toNat with
  | 0 => some (.cpy (w.extractLsb' 21 5) (w.extractLsb' 16 5) (w.extractLsb' 11 5) (w.extractLsb' 6 5), 0x00000000#32)
  | 1 => some (.cpy2 (w.extractLsb' 21 5) (w.extractLsb' 16 5) (w.extractLsb' 11 5) (w.extractLsb' 6 5), 0x00000000#32)
  | 2 => some (.cpyxG (w.extractLsb' 21 5) (w.extractLsb' 16 5) (w.extractLsb' 11 5) (w.extractLsb' 6 5), 0x00000000#32)
  | 3 => some (.cpyxS (w.extractLsb' 21 5) (w.extractLsb' 16 5) (w.extractLsb' 11 5) (w.extractLsb' 6 5), 0x00000000#32)
  | 4 => some (.rsort (w.extractLsb' 21 5) (w.extractLsb' 16 5) (w.extractLsb' 11 5) (w.extractLsb' 6 5), 0x00000000#32)
  | _ => none

/-- Major 0x1A. -/
def group1A (w : BitVec 32) : Option (Instr × BitVec 32) :=
  match (w.extractLsb' 0 6).toNat with
  | 0 => some (.sisect (w.extractLsb' 21 5) (w.extractLsb' 16 5) (w.extractLsb' 11 5), 0x000007C0#32)
  | 1 => some (.smerge (w.extractLsb' 21 5) (w.extractLsb' 16 5) (w.extractLsb' 11 5), 0x000007C0#32)
  | _ => none

/-- Major 0x1B. -/
def group1B (w : BitVec 32) : Option (Instr × BitVec 32) :=
  match (w.extractLsb' 0 6).toNat with
  | 0 => some (.xbind (w.extractLsb' 16 5) (w.extractLsb' 6 4), 0x03E0FC00#32)
  | 1 => some (.xsend (w.extractLsb' 16 5) (w.extractLsb' 11 5) (w.extractLsb' 6 4), 0x03E00400#32)
  | 2 => some (.xsendM (w.extractLsb' 16 5) (w.extractLsb' 11 5) (w.extractLsb' 6 4), 0x03E00400#32)
  | 3 => some (.xsendv (w.extractLsb' 16 5) (w.extractLsb' 11 5) (w.extractLsb' 6 4), 0x03E00400#32)
  | 4 => some (.xend (w.extractLsb' 6 4), 0x03FFFC00#32)
  | 5 => some (.xsplitRd (w.extractLsb' 21 5) (w.extractLsb' 16 5) (w.extractLsb' 6 4), 0x0000FC00#32)
  | 6 => some (.xsplitIn (w.extractLsb' 21 5) (w.extractLsb' 16 5) (w.extractLsb' 6 4), 0x0000FC00#32)
  | _ => none

/-- Major 0x1C. -/
def group1C (w : BitVec 32) : Option (Instr × BitVec 32) :=
  some (.vsetl (w.extractLsb' 21 5) (w.extractLsb' 16 5) (w.extractLsb' 4 1) (w.extractLsb' 2 2) (w.extractLsb' 0 2), 0x0000FFE0#32)

/-- Major 0x1D. -/
def group1D (w : BitVec 32) : Option (Instr × BitVec 32) :=
  some (.rpt (w.extractLsb' 16 10) (w.extractLsb' 12 4) (w.extractLsb' 9 3) (w.extractLsb' 8 1) (w.extractLsb' 7 1) (w.extractLsb' 6 1), 0x0000003F#32)

/-- Major 0x20. -/
def group20 (w : BitVec 32) : Option (Instr × BitVec 32) :=
  match (w.extractLsb' 0 7).toNat with
  | 0 => some (.vadd (w.extractLsb' 21 5) (w.extractLsb' 16 5) (w.extractLsb' 11 5) (w.extractLsb' 10 1) (w.extractLsb' 7 3), 0x00000000#32)
  | 1 => some (.vsub (w.extractLsb' 21 5) (w.extractLsb' 16 5) (w.extractLsb' 11 5) (w.extractLsb' 10 1) (w.extractLsb' 7 3), 0x00000000#32)
  | 2 => some (.vmul (w.extractLsb' 21 5) (w.extractLsb' 16 5) (w.extractLsb' 11 5) (w.extractLsb' 10 1) (w.extractLsb' 7 3), 0x00000000#32)
  | 3 => some (.vmulh (w.extractLsb' 21 5) (w.extractLsb' 16 5) (w.extractLsb' 11 5) (w.extractLsb' 10 1) (w.extractLsb' 7 3), 0x00000000#32)
  | 4 => some (.vmulhU (w.extractLsb' 21 5) (w.extractLsb' 16 5) (w.extractLsb' 11 5) (w.extractLsb' 10 1) (w.extractLsb' 7 3), 0x00000000#32)
  | 5 => some (.vmin (w.extractLsb' 21 5) (w.extractLsb' 16 5) (w.extractLsb' 11 5) (w.extractLsb' 10 1) (w.extractLsb' 7 3), 0x00000000#32)
  | 6 => some (.vminU (w.extractLsb' 21 5) (w.extractLsb' 16 5) (w.extractLsb' 11 5) (w.extractLsb' 10 1) (w.extractLsb' 7 3), 0x00000000#32)
  | 7 => some (.vmax (w.extractLsb' 21 5) (w.extractLsb' 16 5) (w.extractLsb' 11 5) (w.extractLsb' 10 1) (w.extractLsb' 7 3), 0x00000000#32)
  | 8 => some (.vmaxU (w.extractLsb' 21 5) (w.extractLsb' 16 5) (w.extractLsb' 11 5) (w.extractLsb' 10 1) (w.extractLsb' 7 3), 0x00000000#32)
  | 9 => some (.vand (w.extractLsb' 21 5) (w.extractLsb' 16 5) (w.extractLsb' 11 5) (w.extractLsb' 10 1) (w.extractLsb' 7 3), 0x00000000#32)
  | 10 => some (.vor (w.extractLsb' 21 5) (w.extractLsb' 16 5) (w.extractLsb' 11 5) (w.extractLsb' 10 1) (w.extractLsb' 7 3), 0x00000000#32)
  | 11 => some (.vxor (w.extractLsb' 21 5) (w.extractLsb' 16 5) (w.extractLsb' 11 5) (w.extractLsb' 10 1) (w.extractLsb' 7 3), 0x00000000#32)
  | 12 => some (.vsll (w.extractLsb' 21 5) (w.extractLsb' 16 5) (w.extractLsb' 11 5) (w.extractLsb' 10 1) (w.extractLsb' 7 3), 0x00000000#32)
  | 13 => some (.vsrl (w.extractLsb' 21 5) (w.extractLsb' 16 5) (w.extractLsb' 11 5) (w.extractLsb' 10 1) (w.extractLsb' 7 3), 0x00000000#32)
  | 14 => some (.vsra (w.extractLsb' 21 5) (w.extractLsb' 16 5) (w.extractLsb' 11 5) (w.extractLsb' 10 1) (w.extractLsb' 7 3), 0x00000000#32)
  | 16 => some (.vcmpEq (w.extractLsb' 21 5) (w.extractLsb' 16 5) (w.extractLsb' 11 5) (w.extractLsb' 10 1) (w.extractLsb' 7 3), 0x00000000#32)
  | 17 => some (.vcmpNe (w.extractLsb' 21 5) (w.extractLsb' 16 5) (w.extractLsb' 11 5) (w.extractLsb' 10 1) (w.extractLsb' 7 3), 0x00000000#32)
  | 18 => some (.vcmpLt (w.extractLsb' 21 5) (w.extractLsb' 16 5) (w.extractLsb' 11 5) (w.extractLsb' 10 1) (w.extractLsb' 7 3), 0x00000000#32)
  | 19 => some (.vcmpLtu (w.extractLsb' 21 5) (w.extractLsb' 16 5) (w.extractLsb' 11 5) (w.extractLsb' 10 1) (w.extractLsb' 7 3), 0x00000000#32)
  | 20 => some (.vcmpLe (w.extractLsb' 21 5) (w.extractLsb' 16 5) (w.extractLsb' 11 5) (w.extractLsb' 10 1) (w.extractLsb' 7 3), 0x00000000#32)
  | 21 => some (.vcmpLeu (w.extractLsb' 21 5) (w.extractLsb' 16 5) (w.extractLsb' 11 5) (w.extractLsb' 10 1) (w.extractLsb' 7 3), 0x00000000#32)
  | 24 => if w.extractLsb' 10 1 = 1#1 then some (.vsel (w.extractLsb' 21 5) (w.extractLsb' 16 5) (w.extractLsb' 11 5) (w.extractLsb' 7 3), 0x00000000#32) else none
  | _ => none

/-- Major 0x21. -/
def group21 (w : BitVec 32) : Option (Instr × BitVec 32) :=
  match (w.extractLsb' 0 7).toNat with
  | 0 => some (.vaddVs (w.extractLsb' 21 5) (w.extractLsb' 16 5) (w.extractLsb' 11 5) (w.extractLsb' 10 1) (w.extractLsb' 7 3), 0x00000000#32)
  | 1 => some (.vsubVs (w.extractLsb' 21 5) (w.extractLsb' 16 5) (w.extractLsb' 11 5) (w.extractLsb' 10 1) (w.extractLsb' 7 3), 0x00000000#32)
  | 2 => some (.vmulVs (w.extractLsb' 21 5) (w.extractLsb' 16 5) (w.extractLsb' 11 5) (w.extractLsb' 10 1) (w.extractLsb' 7 3), 0x00000000#32)
  | 3 => some (.vmulhVs (w.extractLsb' 21 5) (w.extractLsb' 16 5) (w.extractLsb' 11 5) (w.extractLsb' 10 1) (w.extractLsb' 7 3), 0x00000000#32)
  | 4 => some (.vmulhUVs (w.extractLsb' 21 5) (w.extractLsb' 16 5) (w.extractLsb' 11 5) (w.extractLsb' 10 1) (w.extractLsb' 7 3), 0x00000000#32)
  | 5 => some (.vminVs (w.extractLsb' 21 5) (w.extractLsb' 16 5) (w.extractLsb' 11 5) (w.extractLsb' 10 1) (w.extractLsb' 7 3), 0x00000000#32)
  | 6 => some (.vminUVs (w.extractLsb' 21 5) (w.extractLsb' 16 5) (w.extractLsb' 11 5) (w.extractLsb' 10 1) (w.extractLsb' 7 3), 0x00000000#32)
  | 7 => some (.vmaxVs (w.extractLsb' 21 5) (w.extractLsb' 16 5) (w.extractLsb' 11 5) (w.extractLsb' 10 1) (w.extractLsb' 7 3), 0x00000000#32)
  | 8 => some (.vmaxUVs (w.extractLsb' 21 5) (w.extractLsb' 16 5) (w.extractLsb' 11 5) (w.extractLsb' 10 1) (w.extractLsb' 7 3), 0x00000000#32)
  | 9 => some (.vandVs (w.extractLsb' 21 5) (w.extractLsb' 16 5) (w.extractLsb' 11 5) (w.extractLsb' 10 1) (w.extractLsb' 7 3), 0x00000000#32)
  | 10 => some (.vorVs (w.extractLsb' 21 5) (w.extractLsb' 16 5) (w.extractLsb' 11 5) (w.extractLsb' 10 1) (w.extractLsb' 7 3), 0x00000000#32)
  | 11 => some (.vxorVs (w.extractLsb' 21 5) (w.extractLsb' 16 5) (w.extractLsb' 11 5) (w.extractLsb' 10 1) (w.extractLsb' 7 3), 0x00000000#32)
  | 12 => some (.vsllVs (w.extractLsb' 21 5) (w.extractLsb' 16 5) (w.extractLsb' 11 5) (w.extractLsb' 10 1) (w.extractLsb' 7 3), 0x00000000#32)
  | 13 => some (.vsrlVs (w.extractLsb' 21 5) (w.extractLsb' 16 5) (w.extractLsb' 11 5) (w.extractLsb' 10 1) (w.extractLsb' 7 3), 0x00000000#32)
  | 14 => some (.vsraVs (w.extractLsb' 21 5) (w.extractLsb' 16 5) (w.extractLsb' 11 5) (w.extractLsb' 10 1) (w.extractLsb' 7 3), 0x00000000#32)
  | 16 => some (.vcmpEqVs (w.extractLsb' 21 5) (w.extractLsb' 16 5) (w.extractLsb' 11 5) (w.extractLsb' 10 1) (w.extractLsb' 7 3), 0x00000000#32)
  | 17 => some (.vcmpNeVs (w.extractLsb' 21 5) (w.extractLsb' 16 5) (w.extractLsb' 11 5) (w.extractLsb' 10 1) (w.extractLsb' 7 3), 0x00000000#32)
  | 18 => some (.vcmpLtVs (w.extractLsb' 21 5) (w.extractLsb' 16 5) (w.extractLsb' 11 5) (w.extractLsb' 10 1) (w.extractLsb' 7 3), 0x00000000#32)
  | 19 => some (.vcmpLtuVs (w.extractLsb' 21 5) (w.extractLsb' 16 5) (w.extractLsb' 11 5) (w.extractLsb' 10 1) (w.extractLsb' 7 3), 0x00000000#32)
  | 20 => some (.vcmpLeVs (w.extractLsb' 21 5) (w.extractLsb' 16 5) (w.extractLsb' 11 5) (w.extractLsb' 10 1) (w.extractLsb' 7 3), 0x00000000#32)
  | 21 => some (.vcmpLeuVs (w.extractLsb' 21 5) (w.extractLsb' 16 5) (w.extractLsb' 11 5) (w.extractLsb' 10 1) (w.extractLsb' 7 3), 0x00000000#32)
  | 24 => if w.extractLsb' 10 1 = 1#1 then some (.vselVs (w.extractLsb' 21 5) (w.extractLsb' 16 5) (w.extractLsb' 11 5) (w.extractLsb' 7 3), 0x00000000#32) else none
  | _ => none

/-- Major 0x22. -/
def group22 (w : BitVec 32) : Option (Instr × BitVec 32) :=
  match (w.extractLsb' 0 7).toNat with
  | 0 => some (.vfadd (w.extractLsb' 21 5) (w.extractLsb' 16 5) (w.extractLsb' 11 5) (w.extractLsb' 10 1) (w.extractLsb' 7 3), 0x00000000#32)
  | 1 => some (.vfsub (w.extractLsb' 21 5) (w.extractLsb' 16 5) (w.extractLsb' 11 5) (w.extractLsb' 10 1) (w.extractLsb' 7 3), 0x00000000#32)
  | 2 => some (.vfmul (w.extractLsb' 21 5) (w.extractLsb' 16 5) (w.extractLsb' 11 5) (w.extractLsb' 10 1) (w.extractLsb' 7 3), 0x00000000#32)
  | 3 => some (.vfma (w.extractLsb' 21 5) (w.extractLsb' 16 5) (w.extractLsb' 11 5) (w.extractLsb' 10 1) (w.extractLsb' 7 3), 0x00000000#32)
  | 4 => some (.vfdiv (w.extractLsb' 21 5) (w.extractLsb' 16 5) (w.extractLsb' 11 5) (w.extractLsb' 10 1) (w.extractLsb' 7 3), 0x00000000#32)
  | 5 => some (.vfsqrt (w.extractLsb' 21 5) (w.extractLsb' 16 5) (w.extractLsb' 10 1) (w.extractLsb' 7 3), 0x0000F800#32)
  | 6 => some (.vfmin (w.extractLsb' 21 5) (w.extractLsb' 16 5) (w.extractLsb' 11 5) (w.extractLsb' 10 1) (w.extractLsb' 7 3), 0x00000000#32)
  | 7 => some (.vfmax (w.extractLsb' 21 5) (w.extractLsb' 16 5) (w.extractLsb' 11 5) (w.extractLsb' 10 1) (w.extractLsb' 7 3), 0x00000000#32)
  | 8 => some (.vfexp2 (w.extractLsb' 21 5) (w.extractLsb' 16 5) (w.extractLsb' 10 1) (w.extractLsb' 7 3), 0x0000F800#32)
  | 9 => some (.vfrsqrt (w.extractLsb' 21 5) (w.extractLsb' 16 5) (w.extractLsb' 10 1) (w.extractLsb' 7 3), 0x0000F800#32)
  | 16 => some (.vfcmpEq (w.extractLsb' 21 5) (w.extractLsb' 16 5) (w.extractLsb' 11 5) (w.extractLsb' 10 1) (w.extractLsb' 7 3), 0x00000000#32)
  | 17 => some (.vfcmpLt (w.extractLsb' 21 5) (w.extractLsb' 16 5) (w.extractLsb' 11 5) (w.extractLsb' 10 1) (w.extractLsb' 7 3), 0x00000000#32)
  | 18 => some (.vfcmpLe (w.extractLsb' 21 5) (w.extractLsb' 16 5) (w.extractLsb' 11 5) (w.extractLsb' 10 1) (w.extractLsb' 7 3), 0x00000000#32)
  | 19 => some (.vfcmpUn (w.extractLsb' 21 5) (w.extractLsb' 16 5) (w.extractLsb' 11 5) (w.extractLsb' 10 1) (w.extractLsb' 7 3), 0x00000000#32)
  | _ => none

/-- Major 0x23. -/
def group23 (w : BitVec 32) : Option (Instr × BitVec 32) :=
  match (w.extractLsb' 0 7).toNat with
  | 0 => some (.vfaddVs (w.extractLsb' 21 5) (w.extractLsb' 16 5) (w.extractLsb' 11 5) (w.extractLsb' 10 1) (w.extractLsb' 7 3), 0x00000000#32)
  | 1 => some (.vfsubVs (w.extractLsb' 21 5) (w.extractLsb' 16 5) (w.extractLsb' 11 5) (w.extractLsb' 10 1) (w.extractLsb' 7 3), 0x00000000#32)
  | 2 => some (.vfmulVs (w.extractLsb' 21 5) (w.extractLsb' 16 5) (w.extractLsb' 11 5) (w.extractLsb' 10 1) (w.extractLsb' 7 3), 0x00000000#32)
  | 3 => some (.vfmaVs (w.extractLsb' 21 5) (w.extractLsb' 16 5) (w.extractLsb' 11 5) (w.extractLsb' 10 1) (w.extractLsb' 7 3), 0x00000000#32)
  | 4 => some (.vfdivVs (w.extractLsb' 21 5) (w.extractLsb' 16 5) (w.extractLsb' 11 5) (w.extractLsb' 10 1) (w.extractLsb' 7 3), 0x00000000#32)
  | 6 => some (.vfminVs (w.extractLsb' 21 5) (w.extractLsb' 16 5) (w.extractLsb' 11 5) (w.extractLsb' 10 1) (w.extractLsb' 7 3), 0x00000000#32)
  | 7 => some (.vfmaxVs (w.extractLsb' 21 5) (w.extractLsb' 16 5) (w.extractLsb' 11 5) (w.extractLsb' 10 1) (w.extractLsb' 7 3), 0x00000000#32)
  | 16 => some (.vfcmpEqVs (w.extractLsb' 21 5) (w.extractLsb' 16 5) (w.extractLsb' 11 5) (w.extractLsb' 10 1) (w.extractLsb' 7 3), 0x00000000#32)
  | 17 => some (.vfcmpLtVs (w.extractLsb' 21 5) (w.extractLsb' 16 5) (w.extractLsb' 11 5) (w.extractLsb' 10 1) (w.extractLsb' 7 3), 0x00000000#32)
  | 18 => some (.vfcmpLeVs (w.extractLsb' 21 5) (w.extractLsb' 16 5) (w.extractLsb' 11 5) (w.extractLsb' 10 1) (w.extractLsb' 7 3), 0x00000000#32)
  | 19 => some (.vfcmpUnVs (w.extractLsb' 21 5) (w.extractLsb' 16 5) (w.extractLsb' 11 5) (w.extractLsb' 10 1) (w.extractLsb' 7 3), 0x00000000#32)
  | _ => none

/-- Major 0x24. -/
def group24 (w : BitVec 32) : Option (Instr × BitVec 32) :=
  match (w.extractLsb' 0 7).toNat with
  | 0 => some (.vredAdd (w.extractLsb' 21 5) (w.extractLsb' 16 5) (w.extractLsb' 10 1) (w.extractLsb' 7 3), 0x0000F800#32)
  | 1 => some (.vredAnd (w.extractLsb' 21 5) (w.extractLsb' 16 5) (w.extractLsb' 10 1) (w.extractLsb' 7 3), 0x0000F800#32)
  | 2 => some (.vredOr (w.extractLsb' 21 5) (w.extractLsb' 16 5) (w.extractLsb' 10 1) (w.extractLsb' 7 3), 0x0000F800#32)
  | 3 => some (.vredXor (w.extractLsb' 21 5) (w.extractLsb' 16 5) (w.extractLsb' 10 1) (w.extractLsb' 7 3), 0x0000F800#32)
  | 4 => some (.vredMin (w.extractLsb' 21 5) (w.extractLsb' 16 5) (w.extractLsb' 10 1) (w.extractLsb' 7 3), 0x0000F800#32)
  | 5 => some (.vredMax (w.extractLsb' 21 5) (w.extractLsb' 16 5) (w.extractLsb' 10 1) (w.extractLsb' 7 3), 0x0000F800#32)
  | 6 => some (.vredMinu (w.extractLsb' 21 5) (w.extractLsb' 16 5) (w.extractLsb' 10 1) (w.extractLsb' 7 3), 0x0000F800#32)
  | 7 => some (.vredMaxu (w.extractLsb' 21 5) (w.extractLsb' 16 5) (w.extractLsb' 10 1) (w.extractLsb' 7 3), 0x0000F800#32)
  | 8 => some (.vfredAdd (w.extractLsb' 21 5) (w.extractLsb' 16 5) (w.extractLsb' 10 1) (w.extractLsb' 7 3), 0x0000F800#32)
  | 9 => some (.vfredMin (w.extractLsb' 21 5) (w.extractLsb' 16 5) (w.extractLsb' 10 1) (w.extractLsb' 7 3), 0x0000F800#32)
  | 10 => some (.vfredMax (w.extractLsb' 21 5) (w.extractLsb' 16 5) (w.extractLsb' 10 1) (w.extractLsb' 7 3), 0x0000F800#32)
  | 16 => some (.vslideUp (w.extractLsb' 21 5) (w.extractLsb' 16 5) (w.extractLsb' 11 5) (w.extractLsb' 10 1) (w.extractLsb' 7 3), 0x00000000#32)
  | 17 => some (.vslideDown (w.extractLsb' 21 5) (w.extractLsb' 16 5) (w.extractLsb' 11 5) (w.extractLsb' 10 1) (w.extractLsb' 7 3), 0x00000000#32)
  | 18 => some (.vperm (w.extractLsb' 21 5) (w.extractLsb' 16 5) (w.extractLsb' 11 5) (w.extractLsb' 10 1) (w.extractLsb' 7 3), 0x00000000#32)
  | 19 => if w.extractLsb' 10 1 = 1#1 then some (.vcompress (w.extractLsb' 21 5) (w.extractLsb' 16 5) (w.extractLsb' 7 3), 0x0000F800#32) else none
  | 20 => if w.extractLsb' 10 1 = 1#1 then some (.vexpand (w.extractLsb' 21 5) (w.extractLsb' 16 5) (w.extractLsb' 7 3), 0x0000F800#32) else none
  | _ => none

/-- Major 0x25. -/
def group25 (w : BitVec 32) : Option (Instr × BitVec 32) :=
  match (w.extractLsb' 0 7).toNat with
  | 0 => some (.mand (w.extractLsb' 21 5) (w.extractLsb' 16 5) (w.extractLsb' 11 5), 0x00000780#32)
  | 1 => some (.mor (w.extractLsb' 21 5) (w.extractLsb' 16 5) (w.extractLsb' 11 5), 0x00000780#32)
  | 2 => some (.mxor (w.extractLsb' 21 5) (w.extractLsb' 16 5) (w.extractLsb' 11 5), 0x00000780#32)
  | 3 => some (.mnot (w.extractLsb' 21 5) (w.extractLsb' 16 5), 0x0000FF80#32)
  | 4 => some (.mpop (w.extractLsb' 21 5) (w.extractLsb' 16 5), 0x0000FF80#32)
  | 5 => some (.mfirst (w.extractLsb' 21 5) (w.extractLsb' 16 5), 0x0000FF80#32)
  | 6 => some (.mbreak (w.extractLsb' 21 5) (w.extractLsb' 16 5), 0x0000FF80#32)
  | _ => none

/-- Major 0x26. -/
def group26 (w : BitVec 32) : Option (Instr × BitVec 32) :=
  match (w.extractLsb' 0 7).toNat with
  | 0 => some (.vcvt (w.extractLsb' 21 5) (w.extractLsb' 16 5) (w.extractLsb' 11 5) (w.extractLsb' 10 1) (w.extractLsb' 7 3), 0x00000000#32)
  | 1 => some (.vmvV (w.extractLsb' 21 5) (w.extractLsb' 16 5) (w.extractLsb' 10 1) (w.extractLsb' 7 3), 0x0000F800#32)
  | 2 => some (.vmvS (w.extractLsb' 21 5) (w.extractLsb' 16 5) (w.extractLsb' 10 1) (w.extractLsb' 7 3), 0x0000F800#32)
  | 3 => some (.vmvRaw (w.extractLsb' 21 5) (w.extractLsb' 16 5) (w.extractLsb' 11 5), 0x00000780#32)
  | 4 => some (.vidx (w.extractLsb' 21 5) (w.extractLsb' 10 1) (w.extractLsb' 7 3), 0x001FF800#32)
  | 5 => some (.vextr (w.extractLsb' 21 5) (w.extractLsb' 16 5) (w.extractLsb' 11 5), 0x00000780#32)
  | 6 => some (.vins (w.extractLsb' 21 5) (w.extractLsb' 16 5) (w.extractLsb' 11 5), 0x00000780#32)
  | _ => none

/-- Major 0x27. -/
def group27 (w : BitVec 32) : Option (Instr × BitVec 32) :=
  match (w.extractLsb' 0 7).toNat with
  | 0 => some (.vsort (w.extractLsb' 21 5) (w.extractLsb' 16 5) (w.extractLsb' 10 1) (w.extractLsb' 7 3), 0x0000F800#32)
  | 1 => some (.vsortKv (w.extractLsb' 21 5) (w.extractLsb' 16 5) (w.extractLsb' 11 5) (w.extractLsb' 10 1) (w.extractLsb' 7 3), 0x00000000#32)
  | _ => none

/-- Major 0x28. -/
def group28 (w : BitVec 32) : Option (Instr × BitVec 32) :=
  match (w.extractLsb' 0 4).toNat with
  | 0 => some (.vld (w.extractLsb' 21 5) (w.extractLsb' 16 5) (w.extractLsb' 11 5) (w.extractLsb' 10 1) (w.extractLsb' 7 3), 0x00000070#32)
  | 1 => some (.vlds (w.extractLsb' 21 5) (w.extractLsb' 16 5) (w.extractLsb' 11 5) (w.extractLsb' 10 1) (w.extractLsb' 7 3), 0x00000070#32)
  | 2 => some (.vldseg (w.extractLsb' 21 5) (w.extractLsb' 16 5) (w.extractLsb' 10 1) (w.extractLsb' 7 3) (w.extractLsb' 4 3), 0x0000F800#32)
  | 3 => some (.vldff (w.extractLsb' 21 5) (w.extractLsb' 16 5) (w.extractLsb' 11 5) (w.extractLsb' 10 1) (w.extractLsb' 7 3), 0x00000070#32)
  | _ => none

/-- Major 0x29. -/
def group29 (w : BitVec 32) : Option (Instr × BitVec 32) :=
  match (w.extractLsb' 0 4).toNat with
  | 0 => some (.vst (w.extractLsb' 21 5) (w.extractLsb' 16 5) (w.extractLsb' 11 5) (w.extractLsb' 10 1) (w.extractLsb' 7 3), 0x00000070#32)
  | 1 => some (.vsts (w.extractLsb' 21 5) (w.extractLsb' 16 5) (w.extractLsb' 11 5) (w.extractLsb' 10 1) (w.extractLsb' 7 3), 0x00000070#32)
  | 2 => some (.vstseg (w.extractLsb' 21 5) (w.extractLsb' 16 5) (w.extractLsb' 10 1) (w.extractLsb' 7 3) (w.extractLsb' 4 3), 0x0000F800#32)
  | 4 => some (.vstq (w.extractLsb' 21 5) (w.extractLsb' 16 5) (w.extractLsb' 11 5) (w.extractLsb' 10 1) (w.extractLsb' 7 3), 0x00000070#32)
  | _ => none

/-- Major 0x2A. -/
def group2A (w : BitVec 32) : Option (Instr × BitVec 32) :=
  match (w.extractLsb' 0 4).toNat with
  | 0 => some (.vldx (w.extractLsb' 21 5) (w.extractLsb' 16 5) (w.extractLsb' 11 5) (w.extractLsb' 10 1) (w.extractLsb' 7 3) (w.extractLsb' 4 2), 0x00000040#32)
  | 1 => some (.vstx (w.extractLsb' 21 5) (w.extractLsb' 16 5) (w.extractLsb' 11 5) (w.extractLsb' 10 1) (w.extractLsb' 7 3) (w.extractLsb' 4 2), 0x00000040#32)
  | 2 => some (.vstxOrd (w.extractLsb' 21 5) (w.extractLsb' 16 5) (w.extractLsb' 11 5) (w.extractLsb' 10 1) (w.extractLsb' 7 3) (w.extractLsb' 4 2), 0x00000040#32)
  | _ => none

/-- Major 0x2B. -/
def group2B (w : BitVec 32) : Option (Instr × BitVec 32) :=
  match (w.extractLsb' 0 4).toNat with
  | 0 => some (.vamoAdd (w.extractLsb' 21 5) (w.extractLsb' 16 5) (w.extractLsb' 11 5) (w.extractLsb' 10 1) (w.extractLsb' 7 3) (w.extractLsb' 6 1) (w.extractLsb' 5 1) (w.extractLsb' 4 1), 0x00000000#32)
  | 1 => some (.vamoAnd (w.extractLsb' 21 5) (w.extractLsb' 16 5) (w.extractLsb' 11 5) (w.extractLsb' 10 1) (w.extractLsb' 7 3) (w.extractLsb' 6 1) (w.extractLsb' 5 1) (w.extractLsb' 4 1), 0x00000000#32)
  | 2 => some (.vamoOr (w.extractLsb' 21 5) (w.extractLsb' 16 5) (w.extractLsb' 11 5) (w.extractLsb' 10 1) (w.extractLsb' 7 3) (w.extractLsb' 6 1) (w.extractLsb' 5 1) (w.extractLsb' 4 1), 0x00000000#32)
  | 3 => some (.vamoXor (w.extractLsb' 21 5) (w.extractLsb' 16 5) (w.extractLsb' 11 5) (w.extractLsb' 10 1) (w.extractLsb' 7 3) (w.extractLsb' 6 1) (w.extractLsb' 5 1) (w.extractLsb' 4 1), 0x00000000#32)
  | 4 => some (.vamoSmin (w.extractLsb' 21 5) (w.extractLsb' 16 5) (w.extractLsb' 11 5) (w.extractLsb' 10 1) (w.extractLsb' 7 3) (w.extractLsb' 6 1) (w.extractLsb' 5 1) (w.extractLsb' 4 1), 0x00000000#32)
  | 5 => some (.vamoSmax (w.extractLsb' 21 5) (w.extractLsb' 16 5) (w.extractLsb' 11 5) (w.extractLsb' 10 1) (w.extractLsb' 7 3) (w.extractLsb' 6 1) (w.extractLsb' 5 1) (w.extractLsb' 4 1), 0x00000000#32)
  | 6 => some (.vamoUmin (w.extractLsb' 21 5) (w.extractLsb' 16 5) (w.extractLsb' 11 5) (w.extractLsb' 10 1) (w.extractLsb' 7 3) (w.extractLsb' 6 1) (w.extractLsb' 5 1) (w.extractLsb' 4 1), 0x00000000#32)
  | 7 => some (.vamoUmax (w.extractLsb' 21 5) (w.extractLsb' 16 5) (w.extractLsb' 11 5) (w.extractLsb' 10 1) (w.extractLsb' 7 3) (w.extractLsb' 6 1) (w.extractLsb' 5 1) (w.extractLsb' 4 1), 0x00000000#32)
  | 8 => some (.vamoSwap (w.extractLsb' 21 5) (w.extractLsb' 16 5) (w.extractLsb' 11 5) (w.extractLsb' 10 1) (w.extractLsb' 7 3) (w.extractLsb' 6 1) (w.extractLsb' 5 1) (w.extractLsb' 4 1), 0x00000000#32)
  | 9 => some (.vamoFmax (w.extractLsb' 21 5) (w.extractLsb' 16 5) (w.extractLsb' 11 5) (w.extractLsb' 10 1) (w.extractLsb' 7 3) (w.extractLsb' 6 1) (w.extractLsb' 5 1) (w.extractLsb' 4 1), 0x00000000#32)
  | 10 => some (.vamoAddb (w.extractLsb' 21 5) (w.extractLsb' 16 5) (w.extractLsb' 11 5) (w.extractLsb' 10 1) (w.extractLsb' 7 3) (w.extractLsb' 6 1) (w.extractLsb' 5 1) (w.extractLsb' 4 1), 0x00000000#32)
  | _ => none

/-- Major 0x2C. -/
def group2C (w : BitVec 32) : Option (Instr × BitVec 32) :=
  some (.vwait (w.extractLsb' 21 5) (w.extractLsb' 16 5) (w.extractLsb' 11 5) (w.extractLsb' 10 1) (w.extractLsb' 7 3) (w.extractLsb' 4 3), 0x0000000F#32)

/-- Major 0x30. -/
def group30 (w : BitVec 32) : Option (Instr × BitVec 32) :=
  match (w.extractLsb' 0 4).toNat with
  | 0 => some (.mshape (w.extractLsb' 21 5) (w.extractLsb' 16 5) (w.extractLsb' 4 3), 0x0000FF80#32)
  | 1 => some (.mzero (w.extractLsb' 8 3), 0x03FFF8F0#32)
  | 2 => some (.mldb (w.extractLsb' 21 5) (w.extractLsb' 16 5) (w.extractLsb' 11 5) (w.extractLsb' 7 1) (w.extractLsb' 4 3), 0x00000700#32)
  | 3 => some (.mma (w.extractLsb' 21 5) (w.extractLsb' 16 5) (w.extractLsb' 11 5) (w.extractLsb' 8 3) (w.extractLsb' 7 1) (w.extractLsb' 4 3), 0x00000000#32)
  | 4 => some (.mst (w.extractLsb' 21 5) (w.extractLsb' 16 5) (w.extractLsb' 8 3), 0x0000F8F0#32)
  | 5 => some (.mmovTo (w.extractLsb' 21 5) (w.extractLsb' 16 5) (w.extractLsb' 8 3), 0x0000F8F0#32)
  | 6 => some (.mmovFrom (w.extractLsb' 21 5) (w.extractLsb' 16 5) (w.extractLsb' 8 3), 0x0000F8F0#32)
  | _ => none

/-- The instruction that the major opcode and the function code select (R76), with its unused bits. (DEDUCED, log 32.) -/
def select (w : BitVec 32) : Option (Instr × BitVec 32) :=
  match (w.extractLsb' 26 6).toNat with
  | 1 => group01 w
  | 2 => group02 w
  | 3 => group03 w
  | 4 => group04 w
  | 5 => group05 w
  | 6 => group06 w
  | 7 => group07 w
  | 8 => group08 w
  | 9 => group09 w
  | 10 => group0A w
  | 11 => group0B w
  | 12 => group0C w
  | 13 => group0D w
  | 14 => group0E w
  | 15 => group0F w
  | 16 => group10 w
  | 17 => group11 w
  | 18 => group12 w
  | 19 => group13 w
  | 20 => group14 w
  | 21 => group15 w
  | 22 => group16 w
  | 23 => group17 w
  | 24 => group18 w
  | 25 => group19 w
  | 26 => group1A w
  | 27 => group1B w
  | 28 => group1C w
  | 29 => group1D w
  | 32 => group20 w
  | 33 => group21 w
  | 34 => group22 w
  | 35 => group23 w
  | 36 => group24 w
  | 37 => group25 w
  | 38 => group26 w
  | 39 => group27 w
  | 40 => group28 w
  | 41 => group29 w
  | 42 => group2A w
  | 43 => group2B w
  | 44 => group2C w
  | 48 => group30 w
  | _ => none

/-- Decoding of one word, checks 1 and 2 of R73. (DEDUCED, log 32.) -/
def decode (w : BitVec 32) : Except DecodeError Instr :=
  match select w with
  | none => .error .illegal
  | some (i, unused) =>
    if !i.legal then .error .illegal
    else if w &&& unused ≠ 0#32 || !i.spare then .error .reserved
    else .ok i

/-- Four bytes in memory order make a word (R2, R70). -/
def wordOfBytes (b0 b1 b2 b3 : Byte) : BitVec 32 := b3 ++ b2 ++ b1 ++ b0

/-- The four bytes of a word in memory order (R2). -/
def bytesOfWord (w : BitVec 32) : List Byte :=
  [w.extractLsb' 0 8, w.extractLsb' 8 8, w.extractLsb' 16 8, w.extractLsb' 24 8]

/-- Decoding of bytes: the instruction and the bytes that follow it; fewer than four bytes are no instruction. -/
def decodeBytes : List Byte → Except DecodeError (Instr × List Byte)
  | b0 :: b1 :: b2 :: b3 :: rest =>
    match decode (wordOfBytes b0 b1 b2 b3) with
    | .ok i => .ok (i, rest)
    | .error e => .error e
  | _ => .error .illegal

/-- The encoding of an instruction: its row's bits, every unused field zero (R71 to R101). An event has no word. -/
def encode : Instr → BitVec 32
  | .add d a b => 1#6 ++ d ++ a ++ b ++ 0#11
  | .sub d a b => 1#6 ++ d ++ a ++ b ++ 1#11
  | .mul d a b => 1#6 ++ d ++ a ++ b ++ 2#11
  | .mulh d a b => 1#6 ++ d ++ a ++ b ++ 3#11
  | .mulhu d a b => 1#6 ++ d ++ a ++ b ++ 4#11
  | .div d a b => 1#6 ++ d ++ a ++ b ++ 5#11
  | .divu d a b => 1#6 ++ d ++ a ++ b ++ 6#11
  | .rem d a b => 1#6 ++ d ++ a ++ b ++ 7#11
  | .remu d a b => 1#6 ++ d ++ a ++ b ++ 8#11
  | .and d a b => 1#6 ++ d ++ a ++ b ++ 9#11
  | .andn d a b => 1#6 ++ d ++ a ++ b ++ 10#11
  | .or d a b => 1#6 ++ d ++ a ++ b ++ 11#11
  | .xor d a b => 1#6 ++ d ++ a ++ b ++ 12#11
  | .sll d a b => 1#6 ++ d ++ a ++ b ++ 13#11
  | .srl d a b => 1#6 ++ d ++ a ++ b ++ 14#11
  | .sra d a b => 1#6 ++ d ++ a ++ b ++ 15#11
  | .slt d a b => 1#6 ++ d ++ a ++ b ++ 16#11
  | .sltu d a b => 1#6 ++ d ++ a ++ b ++ 17#11
  | .min d a b => 1#6 ++ d ++ a ++ b ++ 18#11
  | .max d a b => 1#6 ++ d ++ a ++ b ++ 19#11
  | .minu d a b => 1#6 ++ d ++ a ++ b ++ 20#11
  | .maxu d a b => 1#6 ++ d ++ a ++ b ++ 21#11
  | .clz d a => 1#6 ++ d ++ a ++ 22#16
  | .ctz d a => 1#6 ++ d ++ a ++ 23#16
  | .popc d a => 1#6 ++ d ++ a ++ 24#16
  | .sextB d a => 1#6 ++ d ++ a ++ 25#16
  | .sextH d a => 1#6 ++ d ++ a ++ 26#16
  | .sextW d a => 1#6 ++ d ++ a ++ 27#16
  | .zextB d a => 1#6 ++ d ++ a ++ 28#16
  | .zextH d a => 1#6 ++ d ++ a ++ 29#16
  | .zextW d a => 1#6 ++ d ++ a ++ 30#16
  | .csel d a b c => 1#6 ++ d ++ a ++ b ++ c ++ 31#6
  | .addImm d a i => 2#6 ++ d ++ a ++ i
  | .andImm d a i => 3#6 ++ d ++ a ++ i
  | .orImm d a i => 4#6 ++ d ++ a ++ i
  | .xorImm d a i => 5#6 ++ d ++ a ++ i
  | .sltImm d a i => 6#6 ++ d ++ a ++ i
  | .sltuImm d a i => 7#6 ++ d ++ a ++ i
  | .lih d a i => 8#6 ++ d ++ a ++ i
  | .addpc d i => 9#6 ++ d ++ 0#5 ++ i
  | .fadd d a b f => 10#6 ++ d ++ a ++ b ++ 0#6 ++ f ++ 0#4
  | .fsub d a b f => 10#6 ++ d ++ a ++ b ++ 0#6 ++ f ++ 1#4
  | .fmul d a b f => 10#6 ++ d ++ a ++ b ++ 0#6 ++ f ++ 2#4
  | .fdiv d a b f => 10#6 ++ d ++ a ++ b ++ 0#6 ++ f ++ 3#4
  | .fsqrt d a f => 10#6 ++ d ++ a ++ 0#11 ++ f ++ 4#4
  | .fma d a b c f => 10#6 ++ d ++ a ++ b ++ c ++ 0#1 ++ f ++ 5#4
  | .fmin d a b f => 10#6 ++ d ++ a ++ b ++ 0#6 ++ f ++ 6#4
  | .fmax d a b f => 10#6 ++ d ++ a ++ b ++ 0#6 ++ f ++ 7#4
  | .fcmp d a b c f => 10#6 ++ d ++ a ++ b ++ 0#2 ++ c ++ 0#1 ++ f ++ 8#4
  | .fcvt d a c => 10#6 ++ d ++ a ++ 0#5 ++ c ++ 9#6
  | .fmvx d a f => 10#6 ++ d ++ a ++ 0#11 ++ f ++ 10#4
  | .ld d a o w => 11#6 ++ d ++ a ++ o ++ w
  | .st d a o w => 12#6 ++ d ++ a ++ o ++ 0#1 ++ w
  | .amoAdd d a b s => 13#6 ++ d ++ a ++ b ++ 1#6 ++ s ++ 0#4
  | .amoAnd d a b s => 13#6 ++ d ++ a ++ b ++ 1#6 ++ s ++ 1#4
  | .amoOr d a b s => 13#6 ++ d ++ a ++ b ++ 1#6 ++ s ++ 2#4
  | .amoXor d a b s => 13#6 ++ d ++ a ++ b ++ 1#6 ++ s ++ 3#4
  | .amoSmin d a b s => 13#6 ++ d ++ a ++ b ++ 1#6 ++ s ++ 4#4
  | .amoSmax d a b s => 13#6 ++ d ++ a ++ b ++ 1#6 ++ s ++ 5#4
  | .amoUmin d a b s => 13#6 ++ d ++ a ++ b ++ 1#6 ++ s ++ 6#4
  | .amoUmax d a b s => 13#6 ++ d ++ a ++ b ++ 1#6 ++ s ++ 7#4
  | .amoSwap d a b s => 13#6 ++ d ++ a ++ b ++ 1#6 ++ s ++ 8#4
  | .amoFmax d a b s => 13#6 ++ d ++ a ++ b ++ 1#6 ++ s ++ 9#4
  | .amoAddb d a b c s => 13#6 ++ d ++ a ++ b ++ c ++ 1#1 ++ s ++ 10#4
  | .cas d a b c s => 13#6 ++ d ++ a ++ b ++ c ++ 1#1 ++ s ++ 11#4
  | .pst a b s => 13#6 ++ 0#5 ++ a ++ b ++ 1#6 ++ s ++ 12#4
  | .pstOrd a b s => 13#6 ++ 0#5 ++ a ++ b ++ 1#6 ++ s ++ 13#4
  | .beq a b o => 14#6 ++ a ++ b ++ o
  | .bne a b o => 15#6 ++ a ++ b ++ o
  | .blt a b o => 16#6 ++ a ++ b ++ o
  | .bge a b o => 17#6 ++ a ++ b ++ o
  | .bltu a b o => 18#6 ++ a ++ b ++ o
  | .bgeu a b o => 19#6 ++ a ++ b ++ o
  | .jal d o => 20#6 ++ d ++ o
  | .jalr d a i => 21#6 ++ d ++ a ++ i
  | .csrr d n => 22#6 ++ d ++ 0#5 ++ n ++ 0#6
  | .csrw d a n => 22#6 ++ d ++ a ++ n ++ 1#6
  | .csrset d a n => 22#6 ++ d ++ a ++ n ++ 2#6
  | .csrclr d a n => 22#6 ++ d ++ a ++ n ++ 3#6
  | .trap a n => 22#6 ++ 0#5 ++ a ++ 0#4 ++ n ++ 8#6
  | .eret => 22#6 ++ 9#26
  | .brk n => 22#6 ++ 0#10 ++ n ++ 10#6
  | .fence p s => 22#6 ++ 0#10 ++ p ++ s ++ 16#8
  | .svfence f => 22#6 ++ 0#18 ++ f ++ 17#6
  | .ifence => 22#6 ++ 18#26
  | .tlbinv a s l => 22#6 ++ 0#5 ++ a ++ 0#5 ++ s ++ l ++ 19#7
  | .stflush a l => 22#6 ++ 0#5 ++ a ++ 0#8 ++ l ++ 20#7
  | .stinv a l => 22#6 ++ 0#5 ++ a ++ 0#8 ++ l ++ 21#7
  | .tspawn a => 23#6 ++ 0#5 ++ a ++ 0#16
  | .tend => 23#6 ++ 1#26
  | .tself d => 23#6 ++ d ++ 2#21
  | .barrive d a b => 24#6 ++ d ++ a ++ b ++ 0#11
  | .barwait d a b c => 24#6 ++ d ++ a ++ b ++ c ++ 1#6
  | .hbar a s => 24#6 ++ 0#5 ++ a ++ 0#7 ++ s ++ 2#6
  | .cpy d a b c => 25#6 ++ d ++ a ++ b ++ c ++ 0#6
  | .cpy2 d a b c => 25#6 ++ d ++ a ++ b ++ c ++ 1#6
  | .cpyxG d a b c => 25#6 ++ d ++ a ++ b ++ c ++ 2#6
  | .cpyxS d a b c => 25#6 ++ d ++ a ++ b ++ c ++ 3#6
  | .rsort d a b c => 25#6 ++ d ++ a ++ b ++ c ++ 4#6
  | .sisect d a b => 26#6 ++ d ++ a ++ b ++ 0#11
  | .smerge d a b => 26#6 ++ d ++ a ++ b ++ 1#11
  | .xbind a n => 27#6 ++ 0#5 ++ a ++ 0#6 ++ n ++ 0#6
  | .xsend a b n => 27#6 ++ 0#5 ++ a ++ b ++ 0#1 ++ n ++ 1#6
  | .xsendM a b n => 27#6 ++ 0#5 ++ a ++ b ++ 0#1 ++ n ++ 2#6
  | .xsendv a b n => 27#6 ++ 0#5 ++ a ++ b ++ 0#1 ++ n ++ 3#6
  | .xend n => 27#6 ++ 0#16 ++ n ++ 4#6
  | .xsplitRd d a n => 27#6 ++ d ++ a ++ 0#6 ++ n ++ 5#6
  | .xsplitIn d a n => 27#6 ++ d ++ a ++ 0#6 ++ n ++ 6#6
  | .vsetl d a r f s => 28#6 ++ d ++ a ++ 0#11 ++ r ++ f ++ s
  | .rpt n k s x y z => 29#6 ++ n ++ k ++ s ++ x ++ y ++ z ++ 0#6
  | .vadd d a b m r => 32#6 ++ d ++ a ++ b ++ m ++ r ++ 0#7
  | .vsub d a b m r => 32#6 ++ d ++ a ++ b ++ m ++ r ++ 1#7
  | .vmul d a b m r => 32#6 ++ d ++ a ++ b ++ m ++ r ++ 2#7
  | .vmulh d a b m r => 32#6 ++ d ++ a ++ b ++ m ++ r ++ 3#7
  | .vmulhU d a b m r => 32#6 ++ d ++ a ++ b ++ m ++ r ++ 4#7
  | .vmin d a b m r => 32#6 ++ d ++ a ++ b ++ m ++ r ++ 5#7
  | .vminU d a b m r => 32#6 ++ d ++ a ++ b ++ m ++ r ++ 6#7
  | .vmax d a b m r => 32#6 ++ d ++ a ++ b ++ m ++ r ++ 7#7
  | .vmaxU d a b m r => 32#6 ++ d ++ a ++ b ++ m ++ r ++ 8#7
  | .vand d a b m r => 32#6 ++ d ++ a ++ b ++ m ++ r ++ 9#7
  | .vor d a b m r => 32#6 ++ d ++ a ++ b ++ m ++ r ++ 10#7
  | .vxor d a b m r => 32#6 ++ d ++ a ++ b ++ m ++ r ++ 11#7
  | .vsll d a b m r => 32#6 ++ d ++ a ++ b ++ m ++ r ++ 12#7
  | .vsrl d a b m r => 32#6 ++ d ++ a ++ b ++ m ++ r ++ 13#7
  | .vsra d a b m r => 32#6 ++ d ++ a ++ b ++ m ++ r ++ 14#7
  | .vcmpEq d a b m r => 32#6 ++ d ++ a ++ b ++ m ++ r ++ 16#7
  | .vcmpNe d a b m r => 32#6 ++ d ++ a ++ b ++ m ++ r ++ 17#7
  | .vcmpLt d a b m r => 32#6 ++ d ++ a ++ b ++ m ++ r ++ 18#7
  | .vcmpLtu d a b m r => 32#6 ++ d ++ a ++ b ++ m ++ r ++ 19#7
  | .vcmpLe d a b m r => 32#6 ++ d ++ a ++ b ++ m ++ r ++ 20#7
  | .vcmpLeu d a b m r => 32#6 ++ d ++ a ++ b ++ m ++ r ++ 21#7
  | .vsel d a b r => 32#6 ++ d ++ a ++ b ++ 1#1 ++ r ++ 24#7
  | .vaddVs d a b m r => 33#6 ++ d ++ a ++ b ++ m ++ r ++ 0#7
  | .vsubVs d a b m r => 33#6 ++ d ++ a ++ b ++ m ++ r ++ 1#7
  | .vmulVs d a b m r => 33#6 ++ d ++ a ++ b ++ m ++ r ++ 2#7
  | .vmulhVs d a b m r => 33#6 ++ d ++ a ++ b ++ m ++ r ++ 3#7
  | .vmulhUVs d a b m r => 33#6 ++ d ++ a ++ b ++ m ++ r ++ 4#7
  | .vminVs d a b m r => 33#6 ++ d ++ a ++ b ++ m ++ r ++ 5#7
  | .vminUVs d a b m r => 33#6 ++ d ++ a ++ b ++ m ++ r ++ 6#7
  | .vmaxVs d a b m r => 33#6 ++ d ++ a ++ b ++ m ++ r ++ 7#7
  | .vmaxUVs d a b m r => 33#6 ++ d ++ a ++ b ++ m ++ r ++ 8#7
  | .vandVs d a b m r => 33#6 ++ d ++ a ++ b ++ m ++ r ++ 9#7
  | .vorVs d a b m r => 33#6 ++ d ++ a ++ b ++ m ++ r ++ 10#7
  | .vxorVs d a b m r => 33#6 ++ d ++ a ++ b ++ m ++ r ++ 11#7
  | .vsllVs d a b m r => 33#6 ++ d ++ a ++ b ++ m ++ r ++ 12#7
  | .vsrlVs d a b m r => 33#6 ++ d ++ a ++ b ++ m ++ r ++ 13#7
  | .vsraVs d a b m r => 33#6 ++ d ++ a ++ b ++ m ++ r ++ 14#7
  | .vcmpEqVs d a b m r => 33#6 ++ d ++ a ++ b ++ m ++ r ++ 16#7
  | .vcmpNeVs d a b m r => 33#6 ++ d ++ a ++ b ++ m ++ r ++ 17#7
  | .vcmpLtVs d a b m r => 33#6 ++ d ++ a ++ b ++ m ++ r ++ 18#7
  | .vcmpLtuVs d a b m r => 33#6 ++ d ++ a ++ b ++ m ++ r ++ 19#7
  | .vcmpLeVs d a b m r => 33#6 ++ d ++ a ++ b ++ m ++ r ++ 20#7
  | .vcmpLeuVs d a b m r => 33#6 ++ d ++ a ++ b ++ m ++ r ++ 21#7
  | .vselVs d a b r => 33#6 ++ d ++ a ++ b ++ 1#1 ++ r ++ 24#7
  | .vfadd d a b m r => 34#6 ++ d ++ a ++ b ++ m ++ r ++ 0#7
  | .vfsub d a b m r => 34#6 ++ d ++ a ++ b ++ m ++ r ++ 1#7
  | .vfmul d a b m r => 34#6 ++ d ++ a ++ b ++ m ++ r ++ 2#7
  | .vfma d a b m r => 34#6 ++ d ++ a ++ b ++ m ++ r ++ 3#7
  | .vfdiv d a b m r => 34#6 ++ d ++ a ++ b ++ m ++ r ++ 4#7
  | .vfsqrt d a m r => 34#6 ++ d ++ a ++ 0#5 ++ m ++ r ++ 5#7
  | .vfmin d a b m r => 34#6 ++ d ++ a ++ b ++ m ++ r ++ 6#7
  | .vfmax d a b m r => 34#6 ++ d ++ a ++ b ++ m ++ r ++ 7#7
  | .vfexp2 d a m r => 34#6 ++ d ++ a ++ 0#5 ++ m ++ r ++ 8#7
  | .vfrsqrt d a m r => 34#6 ++ d ++ a ++ 0#5 ++ m ++ r ++ 9#7
  | .vfcmpEq d a b m r => 34#6 ++ d ++ a ++ b ++ m ++ r ++ 16#7
  | .vfcmpLt d a b m r => 34#6 ++ d ++ a ++ b ++ m ++ r ++ 17#7
  | .vfcmpLe d a b m r => 34#6 ++ d ++ a ++ b ++ m ++ r ++ 18#7
  | .vfcmpUn d a b m r => 34#6 ++ d ++ a ++ b ++ m ++ r ++ 19#7
  | .vfaddVs d a b m r => 35#6 ++ d ++ a ++ b ++ m ++ r ++ 0#7
  | .vfsubVs d a b m r => 35#6 ++ d ++ a ++ b ++ m ++ r ++ 1#7
  | .vfmulVs d a b m r => 35#6 ++ d ++ a ++ b ++ m ++ r ++ 2#7
  | .vfmaVs d a b m r => 35#6 ++ d ++ a ++ b ++ m ++ r ++ 3#7
  | .vfdivVs d a b m r => 35#6 ++ d ++ a ++ b ++ m ++ r ++ 4#7
  | .vfminVs d a b m r => 35#6 ++ d ++ a ++ b ++ m ++ r ++ 6#7
  | .vfmaxVs d a b m r => 35#6 ++ d ++ a ++ b ++ m ++ r ++ 7#7
  | .vfcmpEqVs d a b m r => 35#6 ++ d ++ a ++ b ++ m ++ r ++ 16#7
  | .vfcmpLtVs d a b m r => 35#6 ++ d ++ a ++ b ++ m ++ r ++ 17#7
  | .vfcmpLeVs d a b m r => 35#6 ++ d ++ a ++ b ++ m ++ r ++ 18#7
  | .vfcmpUnVs d a b m r => 35#6 ++ d ++ a ++ b ++ m ++ r ++ 19#7
  | .vredAdd d a m r => 36#6 ++ d ++ a ++ 0#5 ++ m ++ r ++ 0#7
  | .vredAnd d a m r => 36#6 ++ d ++ a ++ 0#5 ++ m ++ r ++ 1#7
  | .vredOr d a m r => 36#6 ++ d ++ a ++ 0#5 ++ m ++ r ++ 2#7
  | .vredXor d a m r => 36#6 ++ d ++ a ++ 0#5 ++ m ++ r ++ 3#7
  | .vredMin d a m r => 36#6 ++ d ++ a ++ 0#5 ++ m ++ r ++ 4#7
  | .vredMax d a m r => 36#6 ++ d ++ a ++ 0#5 ++ m ++ r ++ 5#7
  | .vredMinu d a m r => 36#6 ++ d ++ a ++ 0#5 ++ m ++ r ++ 6#7
  | .vredMaxu d a m r => 36#6 ++ d ++ a ++ 0#5 ++ m ++ r ++ 7#7
  | .vfredAdd d a m r => 36#6 ++ d ++ a ++ 0#5 ++ m ++ r ++ 8#7
  | .vfredMin d a m r => 36#6 ++ d ++ a ++ 0#5 ++ m ++ r ++ 9#7
  | .vfredMax d a m r => 36#6 ++ d ++ a ++ 0#5 ++ m ++ r ++ 10#7
  | .vslideUp d a b m r => 36#6 ++ d ++ a ++ b ++ m ++ r ++ 16#7
  | .vslideDown d a b m r => 36#6 ++ d ++ a ++ b ++ m ++ r ++ 17#7
  | .vperm d a b m r => 36#6 ++ d ++ a ++ b ++ m ++ r ++ 18#7
  | .vcompress d a r => 36#6 ++ d ++ a ++ 1#6 ++ r ++ 19#7
  | .vexpand d a r => 36#6 ++ d ++ a ++ 1#6 ++ r ++ 20#7
  | .mand d a b => 37#6 ++ d ++ a ++ b ++ 0#11
  | .mor d a b => 37#6 ++ d ++ a ++ b ++ 1#11
  | .mxor d a b => 37#6 ++ d ++ a ++ b ++ 2#11
  | .mnot d a => 37#6 ++ d ++ a ++ 3#16
  | .mpop d a => 37#6 ++ d ++ a ++ 4#16
  | .mfirst d a => 37#6 ++ d ++ a ++ 5#16
  | .mbreak d a => 37#6 ++ d ++ a ++ 6#16
  | .vcvt d a t m r => 38#6 ++ d ++ a ++ t ++ m ++ r ++ 0#7
  | .vmvV d a m r => 38#6 ++ d ++ a ++ 0#5 ++ m ++ r ++ 1#7
  | .vmvS d a m r => 38#6 ++ d ++ a ++ 0#5 ++ m ++ r ++ 2#7
  | .vmvRaw d a t => 38#6 ++ d ++ a ++ t ++ 3#11
  | .vidx d m r => 38#6 ++ d ++ 0#10 ++ m ++ r ++ 4#7
  | .vextr d a b => 38#6 ++ d ++ a ++ b ++ 5#11
  | .vins d a b => 38#6 ++ d ++ a ++ b ++ 6#11
  | .vsort d a m r => 39#6 ++ d ++ a ++ 0#5 ++ m ++ r ++ 0#7
  | .vsortKv d a b m r => 39#6 ++ d ++ a ++ b ++ m ++ r ++ 1#7
  | .vld d a b m r => 40#6 ++ d ++ a ++ b ++ m ++ r ++ 0#7
  | .vlds d a b m r => 40#6 ++ d ++ a ++ b ++ m ++ r ++ 1#7
  | .vldseg d a m r f => 40#6 ++ d ++ a ++ 0#5 ++ m ++ r ++ f ++ 2#4
  | .vldff d a b m r => 40#6 ++ d ++ a ++ b ++ m ++ r ++ 3#7
  | .vst d a b m r => 41#6 ++ d ++ a ++ b ++ m ++ r ++ 0#7
  | .vsts d a b m r => 41#6 ++ d ++ a ++ b ++ m ++ r ++ 1#7
  | .vstseg d a m r f => 41#6 ++ d ++ a ++ 0#5 ++ m ++ r ++ f ++ 2#4
  | .vstq d a b m r => 41#6 ++ d ++ a ++ b ++ m ++ r ++ 4#7
  | .vldx d a b m r w => 42#6 ++ d ++ a ++ b ++ m ++ r ++ 0#1 ++ w ++ 0#4
  | .vstx d a b m r w => 42#6 ++ d ++ a ++ b ++ m ++ r ++ 0#1 ++ w ++ 1#4
  | .vstxOrd d a b m r w => 42#6 ++ d ++ a ++ b ++ m ++ r ++ 0#1 ++ w ++ 2#4
  | .vamoAdd d a b m r o e q => 43#6 ++ d ++ a ++ b ++ m ++ r ++ o ++ e ++ q ++ 0#4
  | .vamoAnd d a b m r o e q => 43#6 ++ d ++ a ++ b ++ m ++ r ++ o ++ e ++ q ++ 1#4
  | .vamoOr d a b m r o e q => 43#6 ++ d ++ a ++ b ++ m ++ r ++ o ++ e ++ q ++ 2#4
  | .vamoXor d a b m r o e q => 43#6 ++ d ++ a ++ b ++ m ++ r ++ o ++ e ++ q ++ 3#4
  | .vamoSmin d a b m r o e q => 43#6 ++ d ++ a ++ b ++ m ++ r ++ o ++ e ++ q ++ 4#4
  | .vamoSmax d a b m r o e q => 43#6 ++ d ++ a ++ b ++ m ++ r ++ o ++ e ++ q ++ 5#4
  | .vamoUmin d a b m r o e q => 43#6 ++ d ++ a ++ b ++ m ++ r ++ o ++ e ++ q ++ 6#4
  | .vamoUmax d a b m r o e q => 43#6 ++ d ++ a ++ b ++ m ++ r ++ o ++ e ++ q ++ 7#4
  | .vamoSwap d a b m r o e q => 43#6 ++ d ++ a ++ b ++ m ++ r ++ o ++ e ++ q ++ 8#4
  | .vamoFmax d a b m r o e q => 43#6 ++ d ++ a ++ b ++ m ++ r ++ o ++ e ++ q ++ 9#4
  | .vamoAddb d a b m r o e q => 43#6 ++ d ++ a ++ b ++ m ++ r ++ o ++ e ++ q ++ 10#4
  | .vwait d a b m r c => 44#6 ++ d ++ a ++ b ++ m ++ r ++ c ++ 0#4
  | .mshape d a f => 48#6 ++ d ++ a ++ 0#9 ++ f ++ 0#4
  | .mzero t => 48#6 ++ 0#15 ++ t ++ 1#8
  | .mldb d a b u f => 48#6 ++ d ++ a ++ b ++ 0#3 ++ u ++ f ++ 2#4
  | .mma d a b t u f => 48#6 ++ d ++ a ++ b ++ t ++ u ++ f ++ 3#4
  | .mst d a t => 48#6 ++ d ++ a ++ 0#5 ++ t ++ 4#8
  | .mmovTo d a t => 48#6 ++ d ++ a ++ 0#5 ++ t ++ 5#8
  | .mmovFrom d a t => 48#6 ++ d ++ a ++ 0#5 ++ t ++ 6#8
  | .entrySelection .. | .lookAhead .. | .preemption .. | .fullSwitch .. | .reclaimFallback ..
  | .taskBudgetExceeded .. | .trapEntry .. | .pageTableWalk .. | .walkStalled .. | .sptEntryBusyTimeout ..
  | .stashFill .. | .stashLineFill .. | .pull .. | .copyCountStep .. | .commandCompletionArrival ..
  | .engineFault .. | .postedStorePerform .. | .postedStoreAcknowledgement .. | .sendPortHandover ..
  | .mergePointForward .. | .recordDelivery .. | .consumedPoll .. | .roundCompletion .. | .deliveryRetry ..
  | .sieveClose .. | .channelWatchdog .. | .barwaitLimitExpiry .. | .vwaitLimitExpiry .. | .containment ..
  | .linePoisoning .. | .softErrorCorrection .. | .linkFailure .. | .linkTraining .. | .eventEntryWrite ..
  | .powerControlPeriod .. | .thermalThrottle .. | .thermalShutdown .. | .firmwareVerification ..
  | .firmwareLoad .. | .spdmRequest .. | .ideKm .. | .lockInterface .. | .startInterface ..
  | .stopInterface .. | .ideIntegrityFailure .. | .hostMemoryAccess .. | .hostRegisterWrite ..
  | .hostResume .. | .hostAbandon .. | .hspawn .. | .pkgcfg .. | .evbase .. | .evsize .. | .evhead ..
  | .dieReset .. | .commandCompletion .. | .pciExpressPortTraining .. | .linkRekeying .. => 0#32

/-- What the decoder reads from an instruction of the opcode table, laid out in memory as the hardware stores it. -/
def decodeTableWord (_nbits w : Nat) : Option Instr :=
  match decodeBytes (bytesOfWord (BitVec.ofNat 32 w)) with
  | .ok (i, _) => some i
  | .error _ => none

end Sys2Proof
end

