-- ==== Sys2Proof/Machine/Access.lean ====
section
/-! DEFINITION. The named operations on the state below the instructions: records of the domain, registers, memory,
translation (R153 to R158), the stash (R135 to R147), accesses and what is in flight of them (R166 to R177). -/

namespace Sys2Proof.Machine

/-! ## Numbering (R12) and records of the domain -/

/-- The core of a context (R12). -/
def coreOf (c : Nat) : Nat := c / 4

/-- The die of a context, numbered over the domain as 4 × package + die (R12, R28). -/
def dieOf (c : Nat) : Nat := c / 256

/-- The package of a context (R12). -/
def pkgOf (c : Nat) : Nat := c / 1024

/-- The die of a core. -/
def dieOfCore (k : Nat) : Nat := k / 64

/-- The package of a core. -/
def pkgOfCore (k : Nat) : Nat := k / 256

def State.ctx (s : State) (c : Nat) : Ctx := tableGet s.ctxs c Ctx.reset
def State.core (s : State) (k : Nat) : Core := tableGet s.cores k Core.reset
def State.die (s : State) (d : Nat) : Die := tableGet s.dies d Die.reset
def State.pkg (s : State) (p : Nat) : Pkg := tableGet s.pkgs p Pkg.reset

def State.setCtx (s : State) (c : Nat) (x : Ctx) : State := { s with ctxs := tableSet s.ctxs c x }
def State.setCore (s : State) (k : Nat) (x : Core) : State := { s with cores := tableSet s.cores k x }
def State.setDie (s : State) (d : Nat) (x : Die) : State := { s with dies := tableSet s.dies d x }
def State.setPkg (s : State) (p : Nat) (x : Pkg) : State := { s with pkgs := tableSet s.pkgs p x }

/-- The context whose turn it is. -/
def State.me (s : State) : Ctx := s.ctx s.cur

/-- The state with that context changed. -/
def State.setMe (s : State) (x : Ctx) : State := s.setCtx s.cur x

/-- The package registers of the context whose turn it is. -/
def State.myPkg (s : State) : Pkg := s.pkg (pkgOf s.cur)

/-! ## Scalar registers (R49) -/

/-- A scalar register; s0 reads as zero. -/
def Ctx.reg (x : Ctx) (r : BitVec 5) : Word := if r = 0#5 then 0#64 else regGet x.s r

/-- A write of a scalar register; a write to s0 is discarded. -/
def Ctx.setReg (x : Ctx) (r : BitVec 5) (v : Word) : Ctx := if r = 0#5 then x else { x with s := regSet x.s r v }

/-- The program counter keeps bits [1:0] and [63:55] zero (R49). -/
def goodPc (a : Word) : Bool := a.toNat % 4 = 0 && a.toNat < 2 ^ 55

/-- The address after an instruction, within the 55 bits of R49. (DEDUCED, log 28.) -/
def nextPc (pc : Word) (n : Nat) : Word := word ((pc.toNat + 4 * n) % 2 ^ 55)

/-- The context at the following instruction. (DEDUCED, log 28.) -/
def Ctx.advance (x : Ctx) : Ctx := { x with pc := nextPc x.pc 1, stall := [], busy := false }

/-! ## Memory as bytes (R2, R19) -/

/-- The byte at a physical address; a byte that nothing has written reads as 0 (assumption 2). (DESIGN CHOICE, log 2.) -/
def memByte (m : List Host.Cell) (a : Nat) : Byte :=
  match m with
  | [] => 0#8
  | (k, b) :: rest => if k = a then b else memByte rest a

/-- A byte listed at its place in the ascending order. -/
def memInsert (m : List Host.Cell) (a : Nat) (b : Byte) : List Host.Cell :=
  match m with
  | [] => [(a, b)]
  | (k, c) :: rest =>
    if k < a then (k, c) :: memInsert rest a b
    else if k = a then (a, b) :: rest
    else (a, b) :: (k, c) :: rest

/-- Memory with one byte written, in the canonical form: ascending addresses, no listed zero. (DESIGN CHOICE, log 2.) -/
def memSet (m : List Host.Cell) (a : Nat) (b : Byte) : List Host.Cell :=
  if b = 0#8 then m.filter fun e => e.1 != a else memInsert m a b

/-- The canonical form of memory: addresses strictly rising above `low`, no entry equal to what an unlisted address reads as. -/
def memWfFrom (low : Nat) : List Host.Cell → Bool
  | [] => true
  | (k, b) :: rest => decide (low ≤ k) && b != 0#8 && memWfFrom (k + 1) rest

/-- Memory is in its canonical form. (DESIGN CHOICE, log 2.) -/
def Memory.wf (m : List Host.Cell) : Bool := memWfFrom 0 m

/-- Bytes of consecutive physical addresses. -/
def memBytes (m : List Host.Cell) (a : Nat) : Nat → List Byte
  | 0 => []
  | n + 1 => memByte m a :: memBytes m (a + 1) n

/-- Memory with consecutive bytes written. -/
def memPut (m : List Host.Cell) (a : Nat) : List Byte → List Host.Cell
  | [] => m
  | b :: rest => memPut (memSet m a b) (a + 1) rest

/-- A number of `n` bytes at a physical address. -/
def memRead (m : List Host.Cell) (a n : Nat) : Nat := ofBytes (memBytes m a n)

/-! ## Packages of the domain (R12, R19 to R21, R274 to R276) -/

/-- The number of a package (R12, R274). The model keeps packages, and with them their cores, dies and contexts, under an index of their own; where the spec gives or takes a number, it is this one. (DESIGN CHOICE, log 63.) -/
def Pkg.number (x : Pkg) : Nat := field x.pkgcfg.toNat 0 9

/-- The same of the package at an index. -/
def State.number (s : State) (p : Nat) : Nat := (s.pkg p).number

/-- The number of a core (R12). -/
def State.coreNumber (s : State) (k : Nat) : Nat := 256 * s.number (k / 256) + k % 256

/-- The number of a context (R12). -/
def State.ctxNumber (s : State) (c : Nat) : Nat := 1024 * s.number (c / 1024) + c % 1024

/-- The state of a link. -/
def Pkg.link (x : Pkg) (i : Nat) : Link := tableGet x.links i ⟨none, false, false, false, false, 0⟩

/-- Sets of coordinates and JOINED of two PKGCFG registers agree (R275). -/
def sameSets (a b : Word) : Bool :=
  a.getLsbD 63 && b.getLsbD 63 && field a.toNat 12 32 == field b.toNat 12 32

/-- Some link of a package to a peer carries traffic as far as this end knows: enabled, trained, not masked, and encrypted if LINKCTL.ENC asks for it (R275, R276). (DEDUCED, log 56.) -/
def Pkg.opens (x : Pkg) (q : Nat) : Bool :=
  x.links.any fun e => x.linkctl.getLsbD e.1 && e.2.trained && !e.2.masked && (e.2.encrypted || !x.linkctl.getLsbD 32) && e.2.peer == some q

/-- Traffic passes between two packages without a third (R275). (DEDUCED, log 56.) -/
def State.joins (s : State) (p q : Nat) : Bool :=
  sameSets (s.pkg p).pkgcfg (s.pkg q).pkgcfg && (s.pkg p).linkctl.getLsbD 32 == (s.pkg q).linkctl.getLsbD 32 &&
  (s.pkg p).opens q && (s.pkg q).opens p

/-- The packages that some packages reach in as many further hops as the fuel says. -/
def State.spread (s : State) : Nat → List Nat → List Nat
  | 0, ps => ps
  | n + 1, ps =>
    let more := (s.pkgs.map (·.1)).filter fun q => !ps.contains q && ps.any fun p => s.joins p q
    if more.isEmpty then ps else s.spread n (ps ++ more)

/-- Whether a package shares its domain with another: itself, and once JOINED every package with equal sets to which links carry traffic (R20, R275). (DEDUCED, log 7.) -/
def inDomain (s : State) (p q : Nat) : Bool :=
  if q = p then true else s.joins p q || (s.spread s.pkgs.length [p]).contains q

/-- The package that stands for a domain: the one with the lowest index. (DEDUCED, log 51.) -/
def State.domainRoot (s : State) (p : Nat) : Nat :=
  (s.pkgs.map (·.1)).foldl (fun r q => if q < r && inDomain s p q then q else r) p

/-- The channels of a domain (R23, R183), given by its first package. -/
def State.chansOf (s : State) (root : Nat) : Vector Channel 16 := tableGet s.chans root (Vector.replicate 16 Channel.reset)

/-- A channel of a domain. -/
def State.chanOf (s : State) (root : Nat) (c : BitVec 4) : Channel := get16 (s.chansOf root) c

/-- A channel of a domain changed. -/
def State.setChanOf (s : State) (root : Nat) (c : BitVec 4) (x : Channel) : State :=
  { s with chans := tableSet s.chans root (set16 (s.chansOf root) c x) }

/-- The domain of the context whose turn it is; what FV4 does on a channel it does in that domain. (DESIGN CHOICE, log 3.) -/
def State.dom (s : State) : Nat := s.domainRoot (pkgOf s.cur)

/-- A channel of that domain. -/
def State.chan (s : State) (c : BitVec 4) : Channel := s.chanOf s.dom c

/-- A channel of that domain changed. -/
def State.setChan (s : State) (c : BitVec 4) (x : Channel) : State := s.setChanOf s.dom c x

/-- Something done in the domain of a package. -/
def State.within (s : State) (p : Nat) (f : State → State) : State := { f { s with cur := 1024 * p } with cur := s.cur }

/-- Every channel of every domain changed. -/
def State.mapChans (s : State) (f : Channel → Channel) : State :=
  if s.chans.isEmpty then s else { s with chans := s.chans.map fun e => (e.1, e.2.map f) }

/-- The package that a package of the domain knows by a number. (DEDUCED, log 7.) -/
def State.packageAt (s : State) (p n : Nat) : Option Nat :=
  if n = s.number p then some p
  else (s.pkgs.find? fun e => e.2.number == n && e.1 != p && inDomain s p e.1).map (·.1)

/-- The core that a package of the domain knows by a number. -/
def State.coreAt (s : State) (p n : Nat) : Option Nat := (s.packageAt p (n / 256)).map fun q => 256 * q + n % 256

/-- The context that a package of the domain knows by a number. -/
def State.ctxAt (s : State) (p n : Nat) : Option Nat := (s.packageAt p (n / 1024)).map fun q => 1024 * q + n % 1024

/-- The package of a place in memory, where bits [56:48] hold its index. -/
def pkgOfAddr (a : Nat) : Nat := a / 2 ^ 48

/-- Where a physical address of R19 lies in memory, as a package of the domain knows it: none where nothing is populated. (DEDUCED, log 7.) -/
def physical (s : State) (p : Nat) (a : Nat) : Option Nat :=
  if a < 2 ^ 57 && a % 2 ^ 48 < 0xC000000000 then (s.packageAt p (a / 2 ^ 48)).map fun q => q * 2 ^ 48 + a % 2 ^ 48 else none

/-- R19: the address lies in the HBM of a package of the domain. (DEDUCED, log 7.) -/
def populated (s : State) (p : Nat) (a : Nat) : Bool := (physical s p a).isSome

/-- Whether the 64-byte line of a physical address is poisoned (R265). -/
def poisoned (s : State) (a : Nat) : Bool := s.poison.contains (a / 64)

/-! ## Places -/

/-- The frame at an index, if it holds a page. -/
def Core.frame (k : Core) (i : Nat) : Option Frame := (k.frames.find? fun e => e.1 == i).map (·.2)

/-- The core with a frame changed. -/
def Core.setFrame (k : Core) (i : Nat) (f : Frame) : Core := { k with frames := tableSet k.frames i f }

/-- The core with a frame free. -/
def Core.freeFrame (k : Core) (i : Nat) : Core := { k with frames := tableErase k.frames i }

/-- The byte at a place. -/
def State.locByte (s : State) : Loc → Byte
  | .phys a => memByte s.mem a
  | .frame k i o =>
    match (s.core k).frame i with
    | some f => slice f.data (8 * o) 8
    | none => 0#8

/-- What is kept of a place when it is first overwritten. -/
def keepByte (saved : List (Loc × Byte)) (l : Loc) (b : Byte) : List (Loc × Byte) :=
  if saved.any fun w => w.1 == l then saved else (l, b) :: saved

/-- Past moments, or commands that need their source as it stood, are kept. -/
def State.keeps (s : State) : Bool := !s.pins.isEmpty || !s.sources.isEmpty

/-- The bytes kept for past moments and for commands' sources changed. -/
def State.mapSaved (s : State) (f : List (Loc × Byte) → List (Loc × Byte)) : State :=
  { s with
    pins := s.pins.map fun p => { p with saved := f p.saved }
    sources := s.sources.map fun c => { c with saved := f c.saved } }

/-- The state with the byte at a place replaced, whatever past moments are kept. -/
def State.put (s : State) (l : Loc) (b : Byte) : State :=
  match l with
  | .phys a => { s with mem := memSet s.mem a b }
  | .frame k i o =>
    match (s.core k).frame i with
    | some f => s.setCore k ((s.core k).setFrame i
        { f with data := splice f.data (8 * o) 8 b.toNat, pageDirty := true })
    | none => s

/-- The past moments and the sources that are kept take note of a place that is about to be written (R175, R248). (DESIGN CHOICE, log 9; DEDUCED, log 33.) -/
def State.remember (s : State) (l : Loc) : State :=
  if s.keeps then s.mapSaved fun saved => keepByte saved l (s.locByte l) else s

/-- The state with the byte at a place written. -/
def State.setLoc (s : State) (l : Loc) (b : Byte) : State := (s.remember l).put l b

/-- Whether the line of a place is poisoned (R265). -/
def State.locPoisoned (s : State) : Loc → Bool
  | .phys a => poisoned s a
  | .frame k i o =>
    match (s.core k).frame i with
    | some f => f.poison.getLsbD (o / 64)
    | none => false

/-- The state with bytes written, one after another. -/
def State.setLocs (s : State) : List (Loc × Byte) → State
  | [] => s
  | (l, b) :: rest => (s.setLoc l b).setLocs rest

/-- The places of a line that a write covers (R265). (DEDUCED, log 26.) -/
def coversLine (ls : List Loc) (line : Nat) : Bool :=
  (span (64 * line) 64).all fun a => ls.contains (.phys a)

/-- A write of all 64 bytes of a line clears its poison; a partial write leaves it (R265). (DEDUCED, log 26.) -/
def State.clearPoison (s : State) (ls : List Loc) : State :=
  if s.poison.isEmpty then s
  else { s with poison := s.poison.filter fun n => !coversLine ls n }

/-- The lines of a frame that a write covers (R265). -/
def coveredLines (k i : Nat) (ls : List Loc) : BitVec 64 :=
  (span 0 64).foldl (fun m j => if (span (64 * j) 64).all fun o => ls.contains (.frame k i o) then m ||| (1#64 <<< j) else m) 0

/-- A frame whose lines are written whole has no poison there (R265). (DEDUCED, log 26.) -/
def Core.clearPoison (c : Core) (k : Nat) (ls : List Loc) : Core :=
  { c with frames := c.frames.map fun e =>
      if e.2.poison = 0 then e else (e.1, { e.2 with poison := e.2.poison &&& ~~~(coveredLines k e.1 ls) }) }

/-- The same for every frame. -/
def State.clearFrames (s : State) (ls : List Loc) : State :=
  if s.cores.any fun c => c.2.frames.any fun e => e.2.poison != 0 then
    { s with cores := s.cores.map fun c => (c.1, c.2.clearPoison c.1 ls) }
  else s

/-- Bytes written as one write by FV4 itself: afterwards fully written lines are no longer poisoned. (DEDUCED, log 26.) -/
def State.storeLocs (s : State) (w : List (Loc × Byte)) : State :=
  ((s.setLocs w).clearPoison (w.map (·.1))).clearFrames (w.map (·.1))

/-- A place in the rings of a die that schedules: since its reset an entry has been queued (R31, R266). (DEDUCED, log 30.) -/
def Die.holdsPlace (q : Die) (d : Nat) : Loc → Bool
  | .phys a =>
    let base := d / 4 * 2 ^ 48 + q.qbase.toNat
    q.nextSeq != 0 && decide (base ≤ a) && decide (a < base + 128 * 64 * 2 ^ q.qdepth.toNat)
  | .frame _ _ _ => false

/-- A write of software or of the host into the queue region of a die corrupts its structures (R266). (DEDUCED, log 30.) -/
def State.watchQueues (s : State) (ls : List Loc) : State :=
  if s.dies.any fun e => !e.2.corrupted && ls.any (e.2.holdsPlace e.1) then
    { s with dies := s.dies.map fun e =>
        (e.1, { e.2 with corrupted := e.2.corrupted || ls.any (e.2.holdsPlace e.1) }) }
  else s

/-- Bytes written as one write of a program or of the host. -/
def State.writeLocs (s : State) (w : List (Loc × Byte)) : State :=
  (s.storeLocs w).watchQueues (w.map (·.1))

/-! ## Past moments (R169, R175 to R177) -/

/-- A stream may still read at a past moment. -/
def Pin.isOpen (p : Pin) : Stream → Bool
  | .scalar => p.scalar
  | .vector => p.vector
  | .copy => p.copy
  | .tile => p.tile

/-- A past moment that is over for a stream if `keep` is false. -/
def Pin.limit (p : Pin) (st : Stream) (keep : Bool) : Pin :=
  match st with
  | .scalar => { p with scalar := p.scalar && keep }
  | .vector => { p with vector := p.vector && keep }
  | .copy => { p with copy := p.copy && keep }
  | .tile => { p with tile := p.tile && keep }

/-- The past moments of a context changed. -/
def State.mapPins (s : State) (c : Nat) (f : Pin → Pin) : State :=
  if s.pins.isEmpty then s else { s with pins := s.pins.map fun p => if p.ctx == c then f p else p }

/-- Every past moment is over for some streams of a context: what it has done on them comes before their later reads (R172, R173). (DESIGN CHOICE, log 9.) -/
def State.closePins (s : State) (c : Nat) (sts : List Stream) : State :=
  s.mapPins c fun p => sts.foldl (fun p st => p.limit st false) p

/-- A later read of stream `b` comes after what stream `a` has done (R170): moments that are over for `a` are over for `b`. (DESIGN CHOICE, log 9.) -/
def State.alignPins (s : State) (c : Nat) (a b : Stream) : State := s.mapPins c fun p => p.limit b (p.isOpen a)

/-- The moments before the `j`-th are over for a stream that has read at that one (R168, R169). (DESIGN CHOICE, log 9.) -/
def State.closeBefore (s : State) (c : Nat) (st : Stream) (j : Nat) : State :=
  if s.pins.isEmpty then s
  else { s with pins := s.pins.mapIdx fun i p => if p.ctx == c && decide (i < j) then p.limit st false else p }

/-- An acquire over all paths (R173): no later read of a context stands at a past moment. (DESIGN CHOICE, log 9.) -/
def State.acquired (s : State) (c : Nat) : State := s.closePins c [.scalar, .vector, .copy, .tile]

/-- A past moment begins for a context's later reads. (DESIGN CHOICE, log 9.) -/
def State.newPin (s : State) (c : Nat) : State :=
  { s with
    clock := s.clock + 1
    pins := s.pins ++ [{ ctx := c, scalar := true, vector := true, copy := true, tile := true, saved := [],
                         poison := s.poison, stamp := s.clock }] }

/-- No past moment is kept for a context. -/
def State.dropPins (s : State) (c : Nat) : State :=
  if s.pins.isEmpty then s else { s with pins := s.pins.filter fun p => p.ctx != c }

/-- The domain at a past moment, as far as a read can tell: the bytes that stood then, and no cached translation or entry that may have been read since (R169). (DESIGN CHOICE, log 9.) -/
def State.back (s : State) (p : Pin) : State :=
  { p.saved.foldl (fun t w => t.put w.1 w.2) s with poison := p.poison, tlb := [], spt := [], pins := [], sources := [] }

/-! ## How a meaning runs -/

/-- A meaning over the state that may stop; what it did before it stopped stays in the state. -/
abbrev M (α : Type) : Type := ExceptT Stop (StateM State) α

/-- The state. -/
def getS : M State := get

/-- A change of the state. -/
def modS (f : State → State) : M Unit := modify f

/-- A change of the context whose turn it is. -/
def modMe (f : Ctx → Ctx) : M Unit := modify fun s => s.setMe (f s.me)

/-- A fault record that names nothing. -/
def noInfo : FaultInfo := ⟨0, 0, false, 0, 0, 0, []⟩

/-- Raise a trap (R8). -/
def trapM {α : Type} (cause : BitVec 10) (info : Word) (r : FaultInfo := noInfo) : M α := throw (.trap cause info r)

/-- Raise a trap unless a check holds. -/
def check (ok : Bool) (cause : BitVec 10) (info : Word) : M Unit := if ok then pure () else trapM cause info

/-- A result that may be a stop. -/
def liftE {α : Type} (r : Except Stop α) : M α :=
  match r with
  | .ok x => pure x
  | .error e => throw e

/-- The n-th free choice below `n` (R6, assumption 4). (DESIGN CHOICE, log 4.) -/
def choose (n : Nat) : M Nat := do
  let s ← getS
  modS fun s => { s with free := s.free + 1 }
  return Config.freeNat s.free % n

/-- A multiple of `n`, else 0x010 with the value (R250). -/
def aligned (v : Word) (n : Nat) : M Unit := check (v.toNat % n == 0) 0x010 v

/-- What an agent waits for with the ticks counted: nothing is counted for what it no longer waits for (R138, R158). (DESIGN CHOICE, log 23.) -/
def waitsFor (old : List (Nat × Nat)) (keys : List Nat) : List (Nat × Nat) :=
  keys.map fun k => (k, ((old.find? fun e => e.1 == k).map (·.2)).getD 0)

/-- The same for an agent that goes on past a wait which has lasted `limit` ticks: that one stays so while it waits for another. -/
def waitsAfter (limit : Nat) (old : List (Nat × Nat)) (keys : List Nat) : List (Nat × Nat) :=
  waitsFor old keys ++ old.filter fun e => decide (limit ≤ e.2) && !keys.contains e.1

/-- WALK_LIMIT as it applies to what a core waits for (R59, R158). -/
def State.limitOf (s : State) (core : Nat) : Nat := (s.pkg (pkgOfCore core)).walkLimit.toNat

/-- Ticks pass for what an agent waits for. -/
def passTicks (n : Nat) (l : List (Nat × Nat)) : List (Nat × Nat) := l.map fun e => (e.1, e.2 + n)

/-- Run a part whose stop is caught: the result or the stop. -/
def attempt {α : Type} (m : M α) : M (Except Stop α) := fun s =>
  match m.run s with
  | (r, t) => (.ok r, t)

/-- Do something for every element of a list, in order. -/
def each {α : Type} (f : α → M Unit) : List α → M Unit
  | [] => pure ()
  | x :: rest => do f x; each f rest

/-- The results of something done for every element of a list, in order. -/
def collect {α β : Type} (f : α → M β) : List α → M (List β)
  | [] => pure []
  | x :: rest => do
    let y ← f x
    let ys ← collect f rest
    return y :: ys

/-! ## Addresses (R135, R136, R153) -/

/-- The base of the stash window. -/
def windowBase : Nat := 0xFF00000000000000

/-- An address lies in the stash window (R135). -/
def inWindow (a : Nat) : Bool := decide (windowBase ≤ a) && decide (a ≤ windowBase + 0x3FFFFFF)

/-- An address outside the window with a bit of [63:55] set is not usable (R136, R153). -/
def usable (a : Nat) : Bool := inWindow a || decide (a < 2 ^ 55)

/-- A fault record that names an address and an entry (words 3 and 4 of R161). (DEDUCED, log 12.) -/
def atAddr (va entry : Nat) : FaultInfo := { noInfo with w3 := word va, w4 := word entry }

/-! ## The page-table walk (R153 to R158) -/

/-- Bits [56:16] of an entry: the next node or the page. -/
def ptePa (e : Nat) : Nat := field e 16 41 * 2 ^ 16

/-- R154: an entry with V = 1 and M = 0 is malformed. -/
def pteMalformed (e shift : Nat) : Bool :=
  field e 57 7 != 0 || field e 8 8 != 0 || field e 5 2 != 0 ||
  (if bit e 1 then (shift == 29 && field e 16 13 != 0) || (shift == 42 && field e 16 26 != 0)
   else shift == 16 || field e 2 3 != 0)

/-- R155: a leaf has the bits that an access kind needs in a mode. -/
def leafAllows (e : Nat) (kind : Access) (mode : Mode) : Bool :=
  (match kind with
   | .read => true
   | .write => bit e 2
   | .atomic => bit e 2
   | .fetch => bit e 3) && (mode == .supervisor || !bit e 4)

/-- The name under which the ticks of a walk are counted, by the 64 KiB granule of its address (R158). -/
def walkKey (va : Nat) : Nat := 2 * (va / 65536)

/-- The name under which the ticks of a BUSY entry are counted (R138). -/
def busyKey (entry : Nat) : Nat := 2 * entry + 1

/-- Whether a wait of an access has reached WALK_LIMIT since the access first met it (R138, R158). -/
def waitExpired (s : State) (who : Who) (key : Nat) : Bool :=
  who.waits.any fun e => e.1 == key && decide ((s.pkg (pkgOfCore who.core)).walkLimit.toNat ≤ e.2)

/-- The walk from a node through the levels whose index shifts are given: the leaf, its shift and its address. -/
def walkFrom (s : State) (who : Who) (va node : Nat) : List Nat → Except Stop (Nat × Nat × Nat)
  | [] => .error (.trap 0x105 (word node) (atAddr va node))
  | sh :: rest =>
    let epa := node + 8 * field va sh 13
    match physical s (pkgOfCore who.core) epa with
    | none => .error (.trap 0x382 (word va) (atAddr va epa))
    | some pa =>
      let e := memRead s.mem pa 8
      if poisoned s pa then .error (.trap 0x381 (word va) (atAddr va epa))
      else if !bit e 0 then .error (.trap 0x101 (word va) (atAddr va epa))
      else if bit e 7 then
        if waitExpired s who (walkKey va) then .error (.trap 0x103 (word epa) (atAddr va epa))
        else .error (.waitOn [walkKey va])
      else if pteMalformed e sh then .error (.trap 0x105 (word epa) (atAddr va epa))
      else if bit e 1 then .ok (e, sh, epa)
      else walkFrom s who va (ptePa e) rest

/-- The walk of R158 from PTROOT. (DESIGN CHOICE, log 15.) -/
def walk (s : State) (who : Who) (va : Nat) : Except Stop (Nat × Nat × Nat) :=
  walkFrom s who va (s.pkg (pkgOfCore who.core)).ptroot.toNat [42, 29, 16]

/-- The entries with V = 1 and M = 0 that a walk reads, with their shifts: table pointers, and the leaf if it ends in one (R156). (DESIGN CHOICE, log 15.) -/
def walkedFrom (s : State) (who : Who) (va node : Nat) : List Nat → List (Nat × Nat)
  | [] => []
  | sh :: rest =>
    let epa := node + 8 * field va sh 13
    match physical s (pkgOfCore who.core) epa with
    | none => []
    | some pa =>
      let e := memRead s.mem pa 8
      if poisoned s pa || !bit e 0 || bit e 7 || pteMalformed e sh then []
      else (sh, e) :: (if bit e 1 then [] else walkedFrom s who va (ptePa e) rest)

/-- A unit has cached an entry that the walk to an address reads (R156). -/
def serves (who : Who) (va : Nat) (t : TlbEntry) : Bool :=
  t.core == who.core && t.kind == who.unit && va >>> t.level == t.granule

/-- A cached translation of the page that holds an address (R156). (DESIGN CHOICE, log 15.) -/
def cached (s : State) (who : Who) (va : Nat) : Option TlbEntry :=
  s.tlb.find? fun t => serves who va t && t.leaf.getLsbD 1

/-- The cached table pointer that leads farthest on the walk to an address (R156). (DESIGN CHOICE, log 15.) -/
def cachedTable (s : State) (who : Who) (va : Nat) : Option TlbEntry :=
  leastBy (fun (t : TlbEntry) => t.level) (s.tlb.filter fun t => serves who va t && !t.leaf.getLsbD 1)

/-- The physical address that a leaf gives. -/
def leafTarget (leaf shift va : Nat) : Nat := ptePa leaf + va % 2 ^ shift

/-- Translation of a global virtual address (R153 to R156): a cached leaf that gives the right serves it, or a leaf that a cached table pointer leads to; otherwise the page is walked afresh, and the fresh walk decides. (DESIGN CHOICE, log 15.) -/
def translate (s : State) (who : Who) (kind : Access) (va : Nat) : Except Stop Nat :=
  match cached s who va with
  | some t =>
    if leafAllows t.leaf.toNat kind who.mode then .ok (leafTarget t.leaf.toNat t.level va)
    else fresh
  | none =>
    match cachedTable s who va with
    | some t =>
      match walkFrom s who va (ptePa t.leaf.toNat) ([42, 29, 16].filter (· < t.level)) with
      | .ok (e, sh, _) => if leafAllows e kind who.mode then .ok (leafTarget e sh va) else fresh
      | .error _ => fresh
    | none => fresh
where
  fresh : Except Stop Nat :=
    match walk s who va with
    | .error e => .error e
    | .ok (e, sh, epa) =>
      if leafAllows e kind who.mode then .ok (leafTarget e sh va)
      else .error (.trap 0x102 (word va) (atAddr va epa))

/-- What a unit has cached on the way to an address does not serve an access, so that it is discarded and the page walked again (R156). -/
def cacheFails (s : State) (who : Who) (kind : Access) (va : Nat) : Bool :=
  match cached s who va with
  | some t => !leafAllows t.leaf.toNat kind who.mode
  | none =>
    match cachedTable s who va with
    | some t =>
      match walkFrom s who va (ptePa t.leaf.toNat) ([42, 29, 16].filter (· < t.level)) with
      | .ok (e, _, _) => !leafAllows e kind who.mode
      | .error _ => true
    | none => false

/-- A unit's cached translations of the page that holds an address, and the pointers that lead to it, are discarded (R156). -/
def State.discard (s : State) (who : Who) (va : Nat) : State :=
  { s with tlb := s.tlb.filter fun t => !serves who va t }

/-- Translation as an access makes it: what is cached and fails is discarded first (R156). -/
def translateM (who : Who) (kind : Access) (va : Nat) : M Nat := do
  let s ← getS
  if cacheFails s who kind va then modS fun t => t.discard who va
  liftE (translate s who kind va)

/-- A global access: translation, then R19 at the address reached (R155). Poison is met by the read itself. -/
def globalLoc (who : Who) (kind : Access) (va : Nat) : M Nat := do
  let target ← translateM who kind va
  let s ← getS
  match physical s (pkgOfCore who.core) target with
  | none => trapM 0x382 (word va) (atAddr va 0)
  | some pa => if poisoned s pa && kind != .write then trapM 0x381 (word va) (atAddr va 0) else return pa

/-- FV4's own access on a task's behalf is checked in task mode (R155). -/
def Who.asTask (w : Who) : Who := { w with mode := .task }

/-- The places of `n` bytes at a global address, translated once per 64-byte line (no page is smaller). `last` is the place found for the byte before in the same line, plus one. -/
def globalFrom (who : Who) (kind : Access) (va : Nat) (last : Option Nat) : Nat → M (List Loc)
  | 0 => pure []
  | n + 1 => do
    let pa ← match last with
      | some p => pure p
      | none => globalLoc who kind va
    let next := if (va + 1) % 64 == 0 then none else some (pa + 1)
    let rest ← globalFrom who kind ((va + 1) % 2 ^ 64) next n
    return .phys pa :: rest

/-- The places of `n` bytes at a global address. -/
def globalLocs (who : Who) (kind : Access) (va n : Nat) : M (List Loc) := globalFrom who kind va none n

/-! ## The stash (R135 to R147) -/

/-- The stash entry of a window address (R135). -/
def entryAddr (root va : Nat) : Nat := (root + 8 * field va 12 14) % 2 ^ 64

/-- R138: the form of an entry read with BUSY = 0, but for the frame's own record. -/
def entryForm (s : State) (p : Nat) (e : Nat) : Bool :=
  match e % 4 with
  | 0 => field e 2 2 == 0
  | 1 => field e 29 35 == 0 && (s.coreAt p (field e 12 17)).isSome
  | _ => field e 55 9 == 0 && field e 3 9 == 0

/-- A place lies in a frame. -/
def Loc.inFrame (k i : Nat) : Loc → Bool
  | .frame k' i' _ => k' == k && i' == i
  | .phys _ => false

/-- A place lies in some frame. -/
def Loc.isFrame : Loc → Bool
  | .frame _ _ _ => true
  | .phys _ => false

/-- The bytes that a scalar access in flight stores. -/
def Held.bytes : Held → List (Loc × Byte)
  | .store _ _ bs => bs
  | .again _ => []

/-- Whether some store of a context that is not yet performed writes a place with a property. -/
def Ctx.storesTo (x : Ctx) (f : Loc → Bool) : Bool :=
  (x.vstores.any fun q => q.bytes.any fun w => f w.1) || x.delayed.any fun h => h.bytes.any fun w => f w.1

/-- A place lies in a frame, or in the page that a frame maps (R144). -/
def Frame.holds (f : Frame) (k i : Nat) (l : Loc) : Bool :=
  l.inFrame k i ||
  match l with
  | .phys a => f.mapped && decide (f.phys ≤ a) && decide (a < f.phys + 4096)
  | .frame _ _ _ => false

/-- Whether a store of some context still has to reach a frame (R141: an access to it is in flight). -/
def frameBusy (s : State) (k i : Nat) (f : Frame) : Bool := s.ctxs.any fun e => e.2.storesTo (f.holds k i)

/-- The value of an entry whose page leaves its frame (R137, R144). -/
def leftEntry (f : Frame) : Nat := f.page.toNat + (if f.mapped then 3 else 2)

/-- The underlying cause of a backing error, with the global address (R146); causes that R146 does not list are named the same way. (DEDUCED, log 12; DESIGN CHOICE, log 65.) -/
def backing (stash : Nat) (entry : Word) (r : Except Stop α) : M α :=
  match r with
  | .ok x => pure x
  | .error (.trap c _ i) => trapM 0x1C2 (word stash) { noInfo with w2 := c.zeroExtend 64, w3 := i.w3, w4 := entry }
  | .error e => throw e

/-- Writing a frame back (R144): the page must be mapped with V and W; a poisoned frame fails with 0x381. (DEDUCED, log 16.) -/
def writeBack (who : Who) (k : Nat) (f : Frame) : M Unit := do
  if if f.mapped then f.dirty != 0 else f.pageDirty then
    let _ ← translateM { who.asTask with core := k, unit := .core } .write f.page.toNat
    let s ← getS
    let bad (j : Nat) := if f.mapped then f.dirty.getLsbD j && poisoned s (f.phys + 64 * j) else f.poison.getLsbD j
    match (span 0 64).find? bad with
    | some j => trapM 0x381 (word (f.page.toNat + 64 * j)) (atAddr (f.page.toNat + 64 * j) 0)
    | none =>
      if !f.mapped then
        modS fun s => s.writeLocs ((span 0 4096).map fun o => (.phys (f.phys + o), slice f.data (8 * o) 8))

/-- No context keeps a cached copy of an entry (R139). (DESIGN CHOICE, log 17.) -/
def State.forgetEntry (s : State) (entry : Nat) : State :=
  { s with spt := s.spt.filter fun p => p.entry != entry }

/-- The final write of an entry (R139), an atomic on path O in task mode: accesses follow it from then on. (DEDUCED, log 18.) -/
def setEntry (who : Who) (entry value : Nat) : M Unit := do
  let ls ← globalLocs who.asTask .atomic entry 8
  modS fun s => (s.setLocs (ls.zip (bytesOf 8 value))).forgetEntry entry

/-- The frame that a resident entry names, as a package of the domain knows it (R137): its core, its index, and what it holds. -/
def entryFrame (s : State) (p e : Nat) : Option (Nat × Nat × Frame) :=
  match s.coreAt p (field e 12 17) with
  | none => none
  | some k => ((s.core k).frame (field e 4 8)).map fun f => (k, field e 4 8, f)

/-- The resident entry that a context caches at an address (R139), while the frame that it names holds the page. (DESIGN CHOICE, log 17.) -/
def cachedEntry (s : State) (who : Who) (entry : Nat) : Option Nat :=
  match s.spt.find? fun p => p.ctx == who.ctx && p.entry == entry with
  | none => none
  | some p =>
    match entryFrame s (pkgOf who.ctx) p.value with
    | some (_, _, f) => if f.entry == word entry then some p.value else none
    | none => none

/-- R141: a frame can be evicted: its entry is not BUSY and no access to it is in flight, that of `who` neither. -/
def evictable (s : State) (who : Who) (k i : Nat) (f : Frame) : Bool :=
  !frameBusy s k i f && decide (f.last < who.since) &&
  match translate s { who.asTask with core := k } .read f.entry.toNat with
  | .ok a =>
    match physical s (pkgOfCore k) a with
    | some pa => !bit (memRead s.mem pa 8) 2
    | none => true
  | .error _ => true

/-- What is known of the bytes of a spill-backed page, by place, follows it out of a frame to its physical page. -/
def savedOut {α : Type} (k i pa : Nat) (saved : List (Loc × α)) : List (Loc × α) :=
  saved.filterMap fun w =>
    match w.1 with
    | .phys a => if pa ≤ a && a < pa + 4096 then none else some w
    | .frame k' i' o => some (if k' == k && i' == i then (.phys (pa + o), w.2) else w)

/-- What is known of a spill-backed page follows it into a frame. -/
def savedIn {α : Type} (k i pa : Nat) (saved : List (Loc × α)) : List (Loc × α) :=
  saved ++ saved.filterMap fun w =>
    match w.1 with
    | .phys a => if pa ≤ a && a < pa + 4096 then some (.frame k i (a - pa), w.2) else none
    | .frame _ _ _ => none

/-- What is known of a page follows it from one frame to another (R147). -/
def savedMove {α : Type} (k i k' i' : Nat) (saved : List (Loc × α)) : List (Loc × α) :=
  saved.map fun w =>
    match w.1 with
    | .frame a b o => if a == k && b == i then (.frame k' i' o, w.2) else w
    | .phys _ => w

/-- A command with the places of the bytes that it has performed ahead changed. -/
def Command.mapAhead (k : Command) (f : List (Loc × Nat) → List (Loc × Nat)) : Command := { k with ahead := f k.ahead }

/-- The same for every command of a context. -/
def Ctx.mapAhead (x : Ctx) (f : List (Loc × Nat) → List (Loc × Nat)) : Ctx := { x with cmds := x.cmds.map fun k => k.map (·.mapAhead f) }

/-- Some command has performed bytes ahead of others. -/
def State.someAhead (s : State) : Bool :=
  (s.ctxs.any fun e => e.2.cmds.any fun k => k.any fun k => !k.ahead.isEmpty) || s.orphans.any fun o => !o.command.ahead.isEmpty

/-- Everything that is known by place moves with a page: bytes kept for past moments and sources, bytes that commands have performed ahead (R296). (DESIGN CHOICE, log 9.) -/
def State.mapPlaces (s : State) (f : {α : Type} → List (Loc × α) → List (Loc × α)) : State :=
  let t := if s.keeps then s.mapSaved f else s
  if t.someAhead then
    { t with
      ctxs := t.ctxs.map fun e => (e.1, e.2.mapAhead f)
      orphans := t.orphans.map fun o => { o with command := o.command.mapAhead f } }
  else t

/-- The same as a page leaves a frame. -/
def State.pageLeaves (s : State) (k i : Nat) (f : Frame) : State :=
  if f.mapped then s else s.mapPlaces (savedOut k i f.phys)

/-- Nothing is known of a page that is discarded with its frame (R149). (DESIGN CHOICE, log 9.) -/
def State.pageDropped (s : State) (k i : Nat) : State :=
  s.mapPlaces fun saved => saved.filter fun w => !w.1.inFrame k i

/-- The same as a page goes into the frame that takes it. -/
def State.pageEnters (s : State) (k i : Nat) (f : Frame) : State :=
  if f.mapped then s else s.mapPlaces (savedIn k i f.phys)

/-- A free frame of a core, by eviction if need be (R141, R144): none when no frame is eligible. `stash` is the window address of the access that needs it. (DEDUCED, log 18.) -/
def takeFrame (who : Who) (k stash : Nat) : M (Option Nat) := do
  let s ← getS
  let core := s.core k
  match (span 0 256).find? fun i => (core.frame i).isNone with
  | some i => return some i
  | none =>
    let frames := sortBy (fun a b => decide (a.1 ≤ b.1)) core.frames
    match leastBy (fun e => e.2.last) (frames.filter fun e => evictable s who k e.1 e.2) with
    | none => return none
    | some (i, f) =>
      let w ← attempt (writeBack who k f)
      let _ ← backing stash f.entry w
      let r ← attempt (setEntry { who with core := k } f.entry.toNat (leftEntry f))
      let _ ← backing stash f.entry r
      modS fun s => (s.setCore k ((s.core k).freeFrame i)).pageLeaves k i f
      return some i

/-- The value of a resident entry (R137). -/
def residentEntry (s : State) (k i : Nat) (mapped : Bool) : Nat := s.coreNumber k * 4096 + i * 16 + (if mapped then 8 else 0) + 1

/-- The poison of the 64 lines of a physical page, as a frame carries it. -/
def pagePoison (s : State) (pa : Nat) : BitVec 64 :=
  BitVec.ofNat 64 ((span 0 64).foldl (fun acc j => acc + (if poisoned s (pa + 64 * j) then 2 ^ j else 0)) 0)

/-- Filling a spilled page, or giving a mapped page a frame (R142, R143): the frame's index. (DEDUCED, log 18.) -/
def fillPage (who : Who) (stash entry e : Nat) : M Nat := do
  let mapped := e % 4 == 3
  let page := field e 12 43 * 4096
  let some i ← takeFrame who who.core stash | throw .wait
  let found ← attempt (translateM { who.asTask with unit := .core } .read page)
  let target ← backing stash (word entry) found
  let s ← getS
  let some pa := physical s (pkgOfCore who.core) target
    | trapM 0x1C2 (word stash) { noInfo with w2 := 0x382, w3 := word page, w4 := word entry }
  setEntry who entry (residentEntry s who.core i mapped)
  let data := if mapped then 0#32768 else BitVec.ofNat 32768 (memRead s.mem pa 4096)
  let f : Frame :=
    { entry := word entry, mapped := mapped, page := word page, phys := pa, valid := 0, dirty := 0,
      pageDirty := false, last := s.clock, data := data,
      poison := if mapped then 0 else pagePoison s pa, pull := none }
  modS fun t => { (t.setCore who.core ((t.core who.core).setFrame i f)).pageEnters who.core i f with clock := t.clock + 1 }
  return i

/-- The place of a byte of a resident page (R142, R144): a line of a mapped page is filled first and its store marks it dirty; a remote access starts a pull (R147). A fill that faults is named by the base of its page (R146). (DEDUCED, log 16; DESIGN CHOICE, log 65.) -/
def touchFrame (who : Who) (kind : Access) (stash entry k i : Nat) : M Loc := do
  let s ← getS
  let some f := (s.core k).frame i | trapM 0x1C3 (word entry) { noInfo with w4 := word entry }
  let o := stash % 4096
  let line := o / 64
  let writes := kind == .write || kind == .atomic
  if f.mapped && !f.valid.getLsbD line then
    let found ← attempt (translateM { who.asTask with core := k, unit := .core } .read f.page.toNat)
    let _ ← backing stash (word entry) found
  let g : Frame :=
    { f with
      last := s.clock
      valid := if f.mapped then f.valid ||| (1#64 <<< line) else f.valid
      dirty := if f.mapped && writes then f.dirty ||| (1#64 <<< line) else f.dirty
      pageDirty := f.pageDirty || (!f.mapped && writes)
      pull := if k == who.core then f.pull else (match f.pull with | some c => some c | none => some who.core) }
  modS fun t => { t.setCore k ((t.core k).setFrame i g) with clock := t.clock + 1 }
  return if f.mapped then .phys (f.phys + o) else .frame k i o

/-- Reading an entry for an access (R135, R138): its address and value with BUSY = 0; a resident entry that the context caches is not read again (R139). (DEDUCED, log 12 and 18; DESIGN CHOICE, log 17.) -/
def readEntry (who : Who) (stash : Nat) : M (Nat × Nat) := do
  let entry := entryAddr who.sptroot.toNat stash
  if who.sptroot = 0 then trapM 0x1C1 (word stash)
  else if inWindow entry || decide (2 ^ 55 ≤ entry) then trapM 0x1C4 (word entry) (atAddr entry entry)
  else if let some e := cachedEntry (← getS) who entry then return (entry, e)
  else
    let ls ← globalLocs who.asTask .read entry 8
    let s ← getS
    let e := ofBytes (ls.map s.locByte)
    if bit e 2 then
      if waitExpired s who (busyKey entry) then trapM 0x1C3 (word entry) { noInfo with w4 := word entry }
      else throw (.waitOn [busyKey entry])
    else if !entryForm s (pkgOfCore who.core) e then trapM 0x1C3 (word entry) { noInfo with w4 := word entry }
    else return (entry, e)

/-- The place of a window address (R135 to R142). (DEDUCED, log 14.) -/
def stashLoc (who : Who) (kind : Access) (stash : Nat) : M Loc := do
  let s ← getS
  if who.path == .p || who.path == .x then trapM 0x1C4 (word stash) (atAddr stash 0)
  else if !(s.pkg (pkgOf who.ctx)).enable.getLsbD 3 then trapM 0x004 (word stash) (atAddr stash 0)
  else
    let (entry, e) ← readEntry who stash
    if e % 4 == 0 then trapM 0x1C1 (word stash) { noInfo with w4 := word entry }
    else if e % 4 == 1 then
      match entryFrame (← getS) (pkgOfCore who.core) e with
      | some (k, i, f) =>
        if f.entry == word entry then touchFrame who kind stash entry k i
        else trapM 0x1C3 (word entry) { noInfo with w4 := word entry }
      | none => trapM 0x1C3 (word entry) { noInfo with w4 := word entry }
    else
      let i ← fillPage who stash entry e
      touchFrame who kind stash entry who.core i

/-! ## Accesses by virtual address (R8, R166) -/

/-- The place of one byte: the stash window, a global address, or an address that is not usable (R136). -/
def locate (who : Who) (kind : Access) (va : Nat) : M Loc := do
  if inWindow va then stashLoc who kind va
  else if 2 ^ 55 ≤ va then trapM 0x1C4 (word va) (atAddr va 0)
  else return .phys (← globalLoc who kind va)

/-- The place `o` bytes further within a page. -/
def Loc.plus : Loc → Nat → Loc
  | .phys a, o => .phys (a + o)
  | .frame k i b, o => .frame k i (b + o)

/-- The places of `n` consecutive bytes, found once for each 64-byte line (no page is smaller than a line). `have` counts the bytes left in the line of the place found last. -/
def locateFrom (who : Who) (kind : Access) (va : Nat) (last : Option Loc) : Nat → M (List Loc)
  | 0 => pure []
  | n + 1 => do
    let l ← match last with
      | some l => pure l
      | none => locate who kind va
    let next := if (va + 1) % 64 == 0 then none else some (l.plus 1)
    let rest ← locateFrom who kind ((va + 1) % 2 ^ 64) next n
    return l :: rest

/-- The places of `n` consecutive bytes. -/
def locateBytes (who : Who) (kind : Access) (va n : Nat) : M (List Loc) := locateFrom who kind va none n

/-- A read that meets a poisoned frame line traps with 0x381 (R265). -/
def checkPoison (va : Nat) (ls : List Loc) : M Unit := do
  let s ← getS
  if ls.any s.locPoisoned then trapM 0x381 (word va) (atAddr va 0)

/-- Read (R8): `n` bytes as a number. -/
def readVa (who : Who) (va n : Nat) : M Nat := do
  let ls ← locateBytes who .read va n
  checkPoison va ls
  let s ← getS
  return ofBytes (ls.map s.locByte)

/-! ## Reads at past moments (R169, R175 to R177) -/

/-- The bytes that a read may take at a past moment: the address led to the same places then, and no line of them was poisoned. (DESIGN CHOICE, log 9.) -/
def pastBytes (s : State) (who : Who) (va : Nat) (ls : List Loc) (p : Pin) : Option (List Byte) :=
  let t := s.back p
  if p.ctx == who.ctx then
    match (locateBytes who .read va ls.length).run t with
    | (.ok ls', _) => if ls' == ls && !ls.any t.locPoisoned then some (ls.map t.locByte) else none
    | (.error _, _) => none
  else none

/-- The bytes of one single-copy atomic unit of a read (R167): those of the present, `now`, or those of a past moment that `may` allows, by free choice; with them the number of the moment. (DESIGN CHOICE, log 4 and 9.) -/
def readUnit (who : Who) (may : Pin → Bool) (va : Nat) (ls : List Loc) (now : List Byte) :
    M (Nat × List Byte) := do
  let s ← getS
  let past := (s.pins.zip (span 0 s.pins.length)).filterMap fun e =>
    if may e.1 then (pastBytes s who va ls e.1).map fun bs => (e.2, bs) else none
  if past.isEmpty then return (s.pins.length, now)
  else
    let k ← choose (past.length + 1)
    return (past[k]?).getD (s.pins.length, now)

/-- The bytes of a transfer whose units are its naturally aligned 8 bytes (R167, R228); `fuel` bounds the units. -/
def readUnits (who : Who) (may : Pin → Bool) (va : Nat) (ls : List Loc) (now : List Byte) :
    Nat → M (List Byte)
  | 0 => pure []
  | fuel + 1 => do
    if ls.isEmpty then return []
    let k := 8 - va % 8
    let (_, bs) ← readUnit who may va (ls.take k) (now.take k)
    let rest ← readUnits who may (va + k) (ls.drop k) (now.drop k) fuel
    return bs ++ rest

/-- The bytes at places by a read on path C or M, `now` those of the present. (DESIGN CHOICE, log 9.) -/
def transferBytes (who : Who) (may : Pin → Bool) (va : Nat) (ls : List Loc) (now : List Byte) :
    M (List Byte) := do
  if (← getS).pins.isEmpty then return now else readUnits who may va ls now (ls.length + 1)

/-- A scalar load: one unit, after which the stream reads no earlier (R168). (DESIGN CHOICE, log 9.) -/
def loadVa (who : Who) (va n : Nat) : M Nat := do
  let ls ← locateBytes who .read va n
  checkPoison va ls
  let s ← getS
  let (j, bs) ← readUnit who (·.isOpen .scalar) va ls (ls.map s.locByte)
  modS fun s => s.closeBefore who.ctx .scalar j
  return ofBytes bs

/-- Write (R8): the low `n` bytes of a number. -/
def writeVa (who : Who) (va n v : Nat) : M Unit := do
  let ls ← locateBytes who .write va n
  modS fun s => s.writeLocs (ls.zip (bytesOf n v))

/-- A write of bytes. -/
def writeBytes (who : Who) (va : Nat) (bs : List Byte) : M Unit := do
  let ls ← locateBytes who .write va bs.length
  modS fun s => s.writeLocs (ls.zip bs)

/-- The scalar thread of the context whose turn it is, on path O. (DESIGN CHOICE, log 10.) -/
def State.who (s : State) : Who :=
  { core := coreOf s.cur, unit := .core, mode := s.me.mode, path := .o, ctx := s.cur,
    sptroot := s.me.sptroot, waits := s.me.stall, since := s.clock }

/-- The same. -/
def whoM : M Who := do return (← getS).who

/-! ## Queued vector stores (R55, R168) -/

/-- Whether two queued elements of one instruction write a common place. -/
def overlapping : List QStore → Bool
  | [] => false
  | q :: rest =>
    (q.bytes.any fun w => rest.any fun r => r.bytes.any fun v => v.1 == w.1) || overlapping rest

/-- The queued elements of the oldest instruction. -/
def headGroup (q : List QStore) : List QStore :=
  match q with
  | [] => []
  | x :: _ => q.takeWhile fun y => y.stamp == x.stamp

/-- Which queued element is performed next when all of an instruction are: the first where the order is given or does not matter, otherwise any (R168). -/
def pickStore (q : List QStore) (n : Nat) : Nat :=
  match q with
  | [] => 0
  | x :: _ => if x.ordered || !overlapping (headGroup q) then 0 else n % (headGroup q).length

/-- Perform queued elements, at most `fuel` of them. -/
def drainFrom (s : State) (q : List QStore) : Nat → State
  | 0 => s
  | fuel + 1 =>
    match q with
    | [] => s
    | x :: _ =>
      let choice := !x.ordered && overlapping (headGroup q)
      let i := pickStore q (Config.freeNat s.free)
      let t := match q[i]? with
        | some y => s.setLocs y.bytes
        | none => s
      drainFrom (if choice then { t with free := t.free + 1 } else t) (q.eraseIdx i) fuel

/-- The streams whose later reads come after a vector access with a stamp (R168, R170). (DESIGN CHOICE, log 9.) -/
def Ctx.afterVectorAt (x : Ctx) (stamp : Nat) : List Stream :=
  if stamp < x.sAfter then [.vector, .scalar] else [.vector]

/-- The streams whose later reads come after a scalar access with a stamp (R168, R170). (DESIGN CHOICE, log 9.) -/
def Ctx.afterScalarAt (x : Ctx) (stamp : Nat) : List Stream :=
  if stamp < x.vAfter then [.scalar, .vector] else [.scalar]

/-- The first `n` queued elements of a context are performed: whole instructions, oldest first (R168). What DRAIN turns have performed of the oldest counts as written with the rest (R265). (DESIGN CHOICE, log 9; DEDUCED, log 26.) -/
def State.drainFirst (s : State) (c n : Nat) : State :=
  let x := s.ctx c
  let q := x.vstores.take n
  match q with
  | [] => s
  | y :: _ =>
    let ls := q.flatMap fun x => x.bytes.map (·.1)
    let t := (((drainFrom s q q.length).clearPoison (x.drained ++ ls)).clearFrames (x.drained ++ ls)).watchQueues ls
    (t.setCtx c { t.ctx c with vstores := x.vstores.drop n, drained := [] }).closePins c (x.afterVectorAt y.stamp)

/-- All queued vector stores of a context are performed (R168, R170). (DESIGN CHOICE, log 9; DEDUCED, log 26.) -/
def State.drain (s : State) (c : Nat) : State := s.drainFirst c (s.ctx c).vstores.length

/-- The pieces of one queued store: its bytes, or each byte as an element of its own. -/
def QStore.pieces (q : QStore) : List (List (Loc × Byte)) := if q.split then q.bytes.map fun w => [w] else [q.bytes]

/-- The queued store without a piece. -/
def QStore.without (q : QStore) (piece : List (Loc × Byte)) : QStore := { q with bytes := q.bytes.filter fun w => !piece.contains w }

/-- Element `i` of an instruction may be performed before the lower ones that are left (R131, R164, R168). -/
def mayPass (group : List QStore) (i : Nat) : Bool :=
  match group[i]? with
  | none => false
  | some q =>
    !q.ordered || i == 0

/-- The pieces of the oldest instruction with the elements that they belong to. -/
def headPieces (q : List QStore) : List (Nat × List (Loc × Byte)) :=
  let group := headGroup q
  (group.zip (span 0 group.length)).flatMap fun e => e.1.pieces.map fun p => (e.2, p)

/-- Piece `n` of the oldest queued vector store of a context is performed, if it may go before the lower ones. (DESIGN CHOICE, log 9; DEDUCED, log 26.) -/
def State.drainOne (s : State) (c n : Nat) : State :=
  let x := s.ctx c
  let group := headGroup x.vstores
  match (headPieces x.vstores)[n]?, x.vstores with
  | some (i, piece), y :: _ =>
    if !mayPass group i then s
    else
      let left := (group.mapIdx fun j q => if j = i then q.without piece else q).filter fun q => !q.bytes.isEmpty
      let ls := x.drained ++ piece.map (·.1)
      let t := (((s.setLocs piece).clearPoison ls).clearFrames ls).watchQueues (piece.map (·.1))
      (t.setCtx c { t.ctx c with vstores := left ++ x.vstores.drop group.length, drained := if left.isEmpty then [] else ls }).closePins c
        (x.afterVectorAt y.stamp)
  | _, _ => s

/-- The same for the context whose turn it is, as a meaning does it. -/
def drainM : M Unit := modS fun s => s.drain s.cur

/-- The oldest delayed scalar access of a context, if it is a store, is performed (R168, R170). (DESIGN CHOICE, log 9.) -/
def State.settleOne (s : State) (c : Nat) : State :=
  let x := s.ctx c
  match x.delayed with
  | .store n _ bytes :: rest =>
    let t := s.writeLocs bytes
    (t.setCtx c { t.ctx c with delayed := rest }).closePins c (x.afterScalarAt n)
  | _ => s

/-- As many delayed scalar stores of a context as the fuel says are performed, in program order. -/
def State.settleFirst (s : State) (c : Nat) : Nat → State
  | 0 => s
  | n + 1 => (s.settleOne c).settleFirst c n

/-- The delayed scalar stores of a context are performed, in program order (R168, R170). (DESIGN CHOICE, log 9.) -/
def State.settleStores (s : State) (c : Nat) : State := s.settleFirst c (s.ctx c).delayed.length

/-- The same for the context whose turn it is, as a meaning does it. -/
def settleM : M Unit := modS fun s => s.settleStores s.cur

/-- No access of a context is in flight. -/
def Ctx.noneInFlight (x : Ctx) : Bool := x.vstores.isEmpty && x.delayed.isEmpty && x.late.isEmpty

/-- What is in flight of a context are stores only. -/
def Ctx.onlyStores (x : Ctx) : Bool :=
  x.late.isEmpty && x.delayed.all fun h => match h with
    | .store _ _ _ => true
    | .again _ => false

/-- The stamp of a scalar access in flight. -/
def Held.stamp : Held → Nat
  | .store n _ _ => n
  | .again l => l.stamp

/-- The stamp below which vector accesses come before a scalar access in flight. -/
def Held.follows : Held → Nat
  | .store _ n _ => n
  | .again l => l.follows

/-- The older store of the two streams is performed. -/
def State.storeNext (s : State) (c : Nat) : State :=
  let x := s.ctx c
  match x.vstores, x.delayed with
  | q :: _, h :: _ => if h.stamp < q.stamp then s.settleOne c else s.drainFirst c (headGroup x.vstores).length
  | _ :: _, [] => s.drainFirst c (headGroup x.vstores).length
  | [], _ => s.settleOne c

/-- Stores of a context are performed in program order; the fuel bounds them. -/
def State.storesInOrder (s : State) (c : Nat) : Nat → State
  | 0 => s
  | n + 1 => (s.storeNext c).storesInOrder c n

/-- No scalar store that waits has to follow a vector store that waits (R170). -/
def Ctx.scalarFirst (x : Ctx) : Bool := x.delayed.all fun h => x.vstores.all fun q => decide (h.follows ≤ q.stamp)

/-- Every store of a context is performed: scalar stores first unless SVFENCE has put vector stores before them. (DESIGN CHOICE, log 9.) -/
def State.storesDone (s : State) (c : Nat) : State :=
  let x := s.ctx c
  if x.scalarFirst then (s.settleStores c).drain c
  else (s.storesInOrder c (x.vstores.length + x.delayed.length)).drain c

/-- Every older instruction of a context has its whole effect (R56): its stores are performed, and no access of it comes later; a step has placed its other accesses in flight before. (DEDUCED, log 11.) -/
def State.finishOlder (s : State) (c : Nat) : State :=
  let t := s.storesDone c
  if (t.ctx c).noneInFlight && (t.ctx c).fences.isEmpty then t
  else t.setCtx c { t.ctx c with delayed := [], late := [], fences := [] }

/-! ## FV4's own structures in memory (R31, R255) -/

/-- The first address of a range of FV4's own structures that R19 refuses or whose line is poisoned (R31, R255); a write of a whole line does not mind its poison. -/
def badLine (s : State) (p base n : Nat) (write : Bool) : Option Nat :=
  (span (base / 64) ((base + n + 63) / 64 - base / 64)).findSome? fun l =>
    let whole := write && decide (base ≤ 64 * l) && decide (64 * l + 64 ≤ base + n)
    if pkgOfAddr (64 * l) != p || decide (0xC000000000 ≤ 64 * l % 2 ^ 48) then some (max base (64 * l))
    else if poisoned s (64 * l) && !whole then some (max base (64 * l)) else none

/-- Write bytes at a physical address as FV4 itself: the state, or the address that failed. -/
def putPhys (s : State) (p base : Nat) (bs : List Byte) : Except Nat State :=
  match badLine s p base bs.length true with
  | some a => .error a
  | none => .ok (s.storeLocs ((span base bs.length).zip bs |>.map fun w => (.phys w.1, w.2)))

/-- Read a number of `n` bytes at a physical address as FV4 itself. -/
def readPhys (s : State) (p base n : Nat) : Except Nat Nat :=
  match badLine s p base n false with
  | some a => .error a
  | none => .ok (memRead s.mem base n)

/-! ## Accesses in flight (R55, R168, R170) -/

/-- The stamp that the next access instruction of a context gets: above those in flight. -/
def Ctx.newStamp (x : Ctx) : Nat :=
  (x.vstores.map fun q => q.stamp + 1).foldl max
    ((x.delayed.map fun h => h.stamp + 1).foldl max ((x.late.map fun l => l.stamp + 1).foldl max (max x.vAfter x.sAfter)))

end Sys2Proof.Machine
end

