-- ==== Sys2Proof/Machine/Engine.lean ====
section
/-! DEFINITION. The barrier object (R230 to R237), and what copy-engine and beater commands do (R234, R248, R256,
R257, R293 to R298, R339): their accesses, their units of work, their count steps. -/

namespace Sys2Proof.Machine

/-! ## The barrier object -/

/-- Fields of word 0 (R230). -/
def barE (w0 : Nat) : Nat := field w0 0 20
def barA (w0 : Nat) : Nat := field w0 20 20
def barP (w0 : Nat) : Nat := field w0 40 4
def barBytes (w0 : Nat) : Bool := bit w0 45

/-- Fields of word 1 (R230). -/
def barBC (w1 : Nat) : Nat := field w1 32 32
def barTB (w1 : Nat) : Nat := field w1 0 32

/-- The phase condition (R231). -/
def phaseMet (w0 w1 : Nat) : Bool := barA w0 == barE w0 && (!barBytes w0 || barBC w1 == barTB w1)

/-- R231: the object is malformed. -/
def barMalformed (w0 w1 : Nat) : Bool :=
  field w0 46 18 != 0 || decide (barE w0 < barA w0) || (barBytes w0 && decide (barTB w1 < barBC w1)) ||
  (!barBytes w0 && barBC w1 != 0) || phaseMet w0 w1

/-- Word 0 with OVR set (R232). -/
def setOvr (w0 : Nat) : Nat := w0 ||| 2 ^ 44

/-- The phase completes when its condition holds: P goes on, A and BC are zero, the rest is kept (R232). -/
def settlePhase (w0 w1 : Nat) : Nat × Nat :=
  if phaseMet w0 w1 then
    (field w0 44 20 * 2 ^ 44 + (barP w0 + 1) % 16 * 2 ^ 40 + field w0 0 20, field w1 0 32)
  else (w0, w1)

/-- An arrival of count n on an object that is well formed (R232): the new words, or none on an overrun. -/
def arrived (w0 w1 n : Nat) : Option (Nat × Nat) :=
  if barE w0 < barA w0 + n then none else some (settlePhase (w0 + n * 2 ^ 20) w1)

/-- `n` bytes counted on an object that is well formed (R234): the new words, or none on an overrun. -/
def counted (w0 w1 n : Nat) : Option (Nat × Nat) :=
  if barTB w1 < barBC w1 + n then none else some (settlePhase w0 (w1 + n * 2 ^ 32))

/-- An access to a barrier object: its places and words, checked under R231. -/
def readObject (who : Who) (kind : Access) (a : Word) : M (List Loc × Nat × Nat) := do
  aligned a 16
  let ls ← locateBytes who kind a.toNat 16
  checkPoison a.toNat ls
  let s ← getS
  let n := ofBytes (ls.map s.locByte)
  let w0 := n % 2 ^ 64
  let w1 := n / 2 ^ 64
  if barMalformed w0 w1 then trapM 0x302 a
  return (ls, w0, w1)

/-- An update of a barrier object as one atomic: word 0 as read; an overrun sets OVR and raises 0x301. -/
def updateObject (who : Who) (a : Word) (f : Nat → Nat → Option (Nat × Nat)) : M Word := do
  let (ls, w0, w1) ← readObject who .atomic a
  match f w0 w1 with
  | none =>
    modS fun t => t.writeLocs (ls.zip (bytesOf 8 (setOvr w0)))
    trapM 0x301 a
  | some (v0, v1) =>
    if v0 != w0 || v1 != w1 then
      modS fun t => t.writeLocs (ls.zip (bytesOf 16 (v0 + 2 ^ 64 * v1)))
    return word w0

/-! ## Commands of a context -/

/-- An asynchronous cause becomes pending in a context. -/
def State.raise (s : State) (c : Nat) (p : Pending) : State :=
  s.setCtx c { s.ctx c with pending := (s.ctx c).pending ++ [p] }

/-- A new command with its captured registers. `after` is the moment before which its reads no longer stand. (DESIGN CHOICE, log 9.) -/
def Command.new (k : CmdKind) (d a b c pc : Word) (born after : Nat) : Command :=
  { kind := k, d := d, a := a, b := b, c := c, issue := pc, pos := 0, part := 0, block := [], stall := [], owed := [], ahead := [],
    kept := [], born := born, after := after }

/-- The kind codes of commands (R256, R257). -/
def kindOfCode : Nat → Option CmdKind
  | 0 => some .cpy
  | 1 => some .cpy2
  | 2 => some .gather
  | 3 => some .scatter
  | 4 => some .rsort
  | _ => none

def CmdKind.code : CmdKind → Nat
  | .cpy => 0
  | .cpy2 => 1
  | .gather => 2
  | .scatter => 3
  | .rsort => 4

/-- CPY and CPY2 copy their source as it stood at issue (R248). -/
def CmdKind.moves : CmdKind → Bool
  | .cpy => true
  | .cpy2 => true
  | _ => false

/-- The command in a slot, if the context runs one. -/
def State.command (s : State) (c : Nat) (slot : BitVec 3) : Option Command := get8 (s.ctx c).cmds slot

/-- A command's slot changed. -/
def State.setCommand (s : State) (c : Nat) (slot : BitVec 3) (k : Option Command) : State :=
  s.setCtx c { s.ctx c with cmds := set8 (s.ctx c).cmds slot k }

/-- Nothing is kept any more of the source of a task's command. -/
def State.dropSource (s : State) (tid slot : Nat) : State :=
  if s.sources.isEmpty then s else { s with sources := s.sources.filter fun x => !(x.tid == tid && x.slot == slot) }

/-- From now on the source of a task's command is kept as it stands (R248). (DEDUCED, log 33.) -/
def State.keepSource (s : State) (tid slot : Nat) : State :=
  let t := s.dropSource tid slot
  { t with sources := t.sources ++ [{ tid := tid, slot := slot, saved := [], words := [], loose := false }] }

/-- The source kept for a command of a context. -/
def State.source (s : State) (c : Nat) (slot : BitVec 3) : Option Source :=
  s.sources.find? fun x => x.tid == (s.ctx c).tid && x.slot == slot.toNat

/-- The command is retired and its slot is free (R256). -/
def State.retire (s : State) (c : Nat) (slot : BitVec 3) : State :=
  (s.setCommand c slot none).dropSource (s.ctx c).tid slot.toNat

/-! ## Accesses of an engine -/

/-- The engine of a context, on path C, checked in task mode (R155); it uses the SPTROOT that the context has at the access. (DESIGN CHOICE, log 64.) -/
def engineWho (s : State) (c : Nat) (k : Command) : Who :=
  { core := coreOf c, unit := .engine, mode := .task, path := .c, ctx := c, sptroot := (s.ctx c).sptroot, waits := k.stall,
    since := s.clock }

/-- A trap of an engine's access names the address that faulted in word 3, unless the access has named another: a stash entry that cannot be used (R135, R146, R293). -/
def atFault {α : Type} (va : Nat) (m : M α) : M α := fun s =>
  match m.run s with
  | (.error (.trap c i r), t) => (.error (.trap c i { r with w2 := c.zeroExtend 64, w3 := if r.w3 = 0 then word va else r.w3 }), t)
  | r => r

/-- The places of `n` bytes, found line by line so that a fault names the first byte that it concerns; `lines` bounds the number of lines. -/
def enginePlacesFrom (who : Who) (kind : Access) (va n : Nat) : Nat → M (List Loc)
  | 0 => pure []
  | lines + 1 => do
    if n = 0 then return []
    let a := va % 2 ^ 64
    let k := min n (64 - a % 64)
    let ls ← atFault a (do
      let ls ← locateBytes who kind a k
      if kind == .read then checkPoison a ls
      return ls)
    let rest ← enginePlacesFrom who kind (va + k) (n - k) lines
    return ls ++ rest

/-- The same, over as many lines as `n` bytes can touch. -/
def enginePlaces (who : Who) (kind : Access) (va n : Nat) : M (List Loc) := enginePlacesFrom who kind va n (n / 64 + 2)

/-- The past moments whose bytes a read of a command may take: CPY and CPY2 take none later than their issue (R294, R296), CPYX and RSORT none before the writes of their chunk or run before (R248). (DESIGN CHOICE, log 9.) -/
def Command.may (k : Command) (p : Pin) : Bool :=
  decide (k.after ≤ p.stamp) && (!k.kind.moves || decide (p.stamp < k.born))

/-- The byte at a place as a command's source has it. (DEDUCED, log 33.) -/
def Source.byte (x : Source) (s : State) (l : Loc) : Byte :=
  match x.saved.find? fun w => w.1 == l with
  | some w => w.2
  | none => s.locByte l

/-- The bytes at places as the source of CPY or CPY2: as they stood at issue; of a record that software has changed, as then or as now (R248, R257). (DEDUCED, log 33.) -/
def sourceBytes (x : Option Source) (ls : List Loc) : M (List Byte) := do
  let s ← getS
  match x with
  | none => return ls.map s.locByte
  | some x =>
    if !x.loose then return ls.map (x.byte s)
    else
      modS fun t => { t with free := t.free + 1 }
      return (ls.zip (span 0 ls.length)).map fun w =>
        if bit (Config.freeNat s.free) w.2 then x.byte s w.1 else s.locByte w.1

/-- The bytes that an engine reads for a command; frames that it reaches are in use until it has them (R141). -/
def engineRead (who : Who) (k : Command) (x : Option Source) (va n : Nat) : M (List Byte) := do
  let s ← getS
  let who := { who with since := s.clock }
  let ls ← enginePlaces who .read va n
  let now ← sourceBytes x ls
  transferBytes who k.may va ls now

/-- One write of an engine; frames that it reaches are in use from then on (R141). -/
def enginePut (who : Who) (va : Nat) (bs : List Byte) : M Unit := do
  let s ← getS
  let ls ← enginePlaces { who with since := s.clock } .write va bs.length
  modS fun t => t.writeLocs (ls.zip bs)

/-- Writes of an engine as one group; one that ends on a fault leaves what it has written to the choice that R293 allows. -/
def engineWrites (who : Who) (ws : List (Nat × List Byte)) : M Unit := fun s =>
  match (each (fun w => enginePut who w.1 w.2) ws).run s with
  | (.error e, _) => (.error e, s)
  | r => r

/-! ## The unit of work at a command's position -/

/-- Word `i` of the parameter block. -/
def Command.p (k : Command) (i : Nat) : Nat := ((k.block[i]?).getD 0).toNat

/-- Fields of the blocks (R295, R297, R338). -/
def Command.rows (k : Command) : Nat := field (k.p 0) 32 32
def Command.width (k : Command) : Nat := field (k.p 0) 0 32
def Command.elems (k : Command) : Nat := field (k.p 1) 0 32
def Command.elemSize (k : Command) : Nat := 2 ^ field (k.p 1) 36 3
def Command.indexBytes (k : Command) : Nat := 2 ^ field (k.p 1) 32 2
def Command.records (k : Command) : Nat := field (k.p 0) 0 32
def Command.runLength (k : Command) : Nat :=
  let n := field (k.p 0) 32 13
  if n = 0 || decide (4096 < n) then 4096 else n
def Command.recordSize (k : Command) : Nat := 8 + 32 * min 8 (field (k.p 1) 0 4)

/-- The units of a command's position: bytes, chunks or runs (R257). -/
def Command.total (k : Command) : Nat :=
  match k.kind with
  | .cpy => k.b.toNat
  | .cpy2 => k.rows * k.width
  | .gather => (k.elems + 63) / 64
  | .scatter => (k.elems + 63) / 64
  | .rsort => (k.records + k.runLength - 1) / k.runLength

/-- All of the command's bytes are performed and counted. -/
def Command.done (k : Command) : Bool := decide (k.total ≤ k.pos)

/-- The next step of CPY and CPY2: destination, source, length. It ends at a row end and at each destination address that is a multiple of 256 (R294, R296). -/
def Command.move (k : Command) : Nat × Nat × Nat :=
  match k.kind with
  | .cpy2 =>
    let i := k.pos / k.width
    let j := k.pos % k.width
    let dst := (k.d + word (i * k.p 2 + j)).toNat
    let src := (k.a + word (i * k.p 1 + j)).toNat
    (dst, src, min (k.width - j) (256 - dst % 256))
  | _ =>
    let dst := (k.d + word k.pos).toNat
    (dst, (k.a + word k.pos).toNat, min (k.b.toNat - k.pos) (256 - dst % 256))

/-- The elements of the current chunk of CPYX. -/
def Command.chunk (k : Command) : List Nat := span (64 * k.pos) (min 64 (k.elems - 64 * k.pos))

/-- The records of the current run of RSORT: first record and how many. -/
def Command.run (k : Command) : Nat × Nat := (k.pos * k.runLength, min k.runLength (k.records - k.pos * k.runLength))

/-- A number of bytes cut into steps of at most 256. -/
def countSteps (n : Nat) : List Nat :=
  List.replicate (n / 256) 256 ++ (if n % 256 = 0 then [] else [n % 256])

/-- The count steps of the current unit (R234, R294, R296, R298, R339). -/
def Command.steps (k : Command) : List Nat :=
  match k.kind with
  | .cpy => [k.move.2.2]
  | .cpy2 => [k.move.2.2]
  | .gather => countSteps (k.chunk.length * k.elemSize)
  | .scatter => countSteps (k.chunk.length * k.elemSize)
  | .rsort => countSteps (k.run.2 * k.recordSize) ++ [16]

/-- The command at its next unit. -/
def Command.next (k : Command) : Command :=
  let pos := if k.kind.moves then k.pos + k.move.2.2 else k.pos + 1
  { k with pos := pos, part := 0, stall := [], kept := [], ahead := if k.kind.moves then k.ahead.filter fun e => decide (pos ≤ e.2) else [] }

/-- A command at a resume point has no unit that is performed in part or counted in part (R257). -/
def Command.resting (k : Command) : Bool := k.part == 0 && k.owed.isEmpty

/-- How many keys of a unit its first `n` count steps cover, with those before it. -/
def Command.covered (k : Command) (n : Nat) : Nat := (if k.kind.moves then k.pos else 0) + ((k.steps.take n).foldl (· + ·) 0)

/-- Destination and source of the byte at a position of CPY or CPY2 (R294, R296). -/
def Command.byteAt (k : Command) (pos : Nat) : Nat × Nat :=
  match k.kind with
  | .cpy2 =>
    let i := pos / k.width
    let j := pos % k.width
    ((k.d + word (i * k.p 2 + j)).toNat, (k.a + word (i * k.p 1 + j)).toNat)
  | _ => ((k.d + word pos).toNat, (k.a + word pos).toNat)

/-- Writes of a unit with the keys of their bytes. -/
def Command.keyed (k : Command) (ws : List (Nat × List Byte)) : List (Nat × Nat × Byte) :=
  let bytes := ws.flatMap fun w => (w.2.zip (span 0 w.2.length)).map fun b => ((w.1 + b.2) % 2 ^ 64, b.1)
  (bytes.zip (span (k.covered 0) bytes.length)).map fun e => (e.2, e.1)

/-- The byte with a key is at its place already, or one with a higher key is (R248, R296). -/
def Command.passed (k : Command) (key : Nat) (l : Loc) : Bool :=
  k.ahead.any fun e => e.2 == key || (decide (key < e.2) && e.1 == l)

/-- Bytes go to their places one after another. -/
def putBytes (who : Who) (k : Command) : List (Nat × Nat × Byte) → M Command
  | [] => pure k
  | (key, va, b) :: rest => do
    let s ← getS
    let ls ← enginePlaces { who with since := s.clock } .write va 1
    let l := ls.head?.getD (.phys 0)
    if !k.passed key l then modS fun t => t.writeLocs [(l, b)]
    putBytes who { k with ahead := k.ahead ++ [(l, key)], kept := k.kept.filter fun e => e.1 != key } rest

/-- Bytes of a command are performed before or after the rest of their unit (R176); a line that is written whole is no longer poisoned (R265). (DESIGN CHOICE, log 9; DEDUCED, log 26.) -/
def performBytes (who : Who) (k : Command) (bs : List (Nat × Nat × Byte)) : M Command := fun s =>
  match (putBytes who k bs).run s with
  | (.ok k', t) => (.ok k', (t.clearPoison (k'.ahead.map (·.1))).clearFrames (k'.ahead.map (·.1)))
  | (.error e, _) => (.error e, s)

/-- The writes of one step of CPY and CPY2, with source bytes as they stood at issue (R248). (DEDUCED, log 33.) -/
def moveWrites (who : Who) (k : Command) (x : Option Source) : M (List (Nat × List Byte)) := do
  let (dst, src, n) := k.move
  return [(dst, ← engineRead who k x src n)]

/-- Bytes of CPY and CPY2 go in any order (R176, R294, R296): those of the aligned 8 bytes of the destination that hold a position not yet reached (R167). (DESIGN CHOICE, log 9.) -/
def performAhead (who : Who) (k : Command) (x : Option Source) (pos : Nat) : M Command := do
  let from' := if k.part = 0 then k.pos else k.next.pos
  let row := if k.kind == .cpy2 then k.width else k.total
  let start := pos - min (pos % row) ((k.byteAt pos).1 % 8)
  let len := min (8 - (k.byteAt start).1 % 8) (row - start % row)
  let ps := (span start len).filter fun p => decide (from' ≤ p) && decide (p < k.total) && !(k.ahead.any fun e => e.2 == p)
  match ps with
  | [] => return k
  | p :: _ =>
    let data ← engineRead who k x (k.byteAt p).2 ps.length
    performBytes who k ((ps.zip data).map fun w => (w.1, (k.byteAt w.1).1, w.2))

/-- R165 for a list of indexed addresses: the first that fails, with its index. -/
def badIndex (base : Nat) (idx : List (Nat × Nat)) : Option (Nat × Nat) :=
  idx.find? fun e => if inWindow base then !inWindow e.2 else decide (2 ^ 55 ≤ e.2)

/-- From now on the reads of a command no longer stand before what it has written (R248). -/
def settled (k : Command) : M Command := do
  let s ← getS
  modS fun t => { t with clock := t.clock + 1 }
  return { k with after := s.clock }

/-- The writes of one chunk of CPYX (R298). -/
def chunkWrites (who : Who) (k : Command) : M (List (Nat × List Byte)) := do
  let es := k.elemSize
  let indexed := if k.kind == .gather then k.a else k.d
  let idx ← collect (fun i => do
    let bs ← engineRead who k none (k.p 0 + i * k.indexBytes) k.indexBytes
    let n := ofBytes bs
    return (n, (indexed + word (n * es)).toNat)) k.chunk
  match badIndex indexed.toNat idx with
  | some (n, va) => trapM 0x104 (word n) { noInfo with w2 := word n, w3 := word va }
  | none =>
    let straight (base : Word) := k.chunk.map fun i => (base + word (i * es)).toNat
    let src := if k.kind == .gather then idx.map (·.2) else straight k.a
    let dst := if k.kind == .gather then straight k.d else idx.map (·.2)
    let data ← collect (fun a => engineRead who k none a es) src
    return dst.zip data

/-- The writes of one run of RSORT, sorted by key with equal keys in input order, and its table entry (R339). -/
def runWrites (who : Who) (k : Command) : M (List (Nat × List Byte)) := do
  let rsz := k.recordSize
  let (first, n) := k.run
  let recs ← collect (fun i => engineRead who k none (k.a + word (i * rsz)).toNat rsz) (span first n)
  let sorted := sortBy (fun x y => decide (ofBytes (x.take 8) ≤ ofBytes (y.take 8))) recs
  let out := (k.d + word (first * rsz)).toNat
  let rows := (sorted.zip (span 0 n)).map fun w => ((out + w.2 * rsz) % 2 ^ 64, w.1)
  let entry := (word (k.p 2) + word (16 * k.pos)).toNat
  return rows ++ [(entry, bytesOf 8 out ++ bytesOf 8 n)]

/-- The writes of a command's current unit, in its order. -/
def unitWrites (who : Who) (k : Command) (x : Option Source) : M (List (Nat × List Byte)) :=
  match k.kind with
  | .cpy => moveWrites who k x
  | .cpy2 => moveWrites who k x
  | .gather => chunkWrites who k
  | .scatter => chunkWrites who k
  | .rsort => runWrites who k

/-- The fields of a parameter block: word, lowest bit, width (R295, R297, R338). -/
def blockFields : CmdKind → List (Nat × Nat × Nat)
  | .cpy => []
  | .cpy2 => [(0, 0, 32), (0, 32, 32), (1, 0, 64), (2, 0, 64)]
  | .gather => [(0, 0, 64), (1, 0, 32), (1, 32, 2), (1, 36, 3)]
  | .scatter => [(0, 0, 64), (1, 0, 32), (1, 32, 2), (1, 36, 3)]
  | .rsort => [(0, 0, 32), (0, 32, 13), (1, 0, 4), (2, 0, 64)]

/-- A block whose fields are those read first or those that stand there now, as a mask says (R293). -/
def mixBlock (fields : List (Nat × Nat × Nat)) (mask : Nat) (old now : List Word) : List Word :=
  (fields.zip (span 0 fields.length)).foldl (fun b f =>
    let (w, lo, len) := f.1
    if bit mask f.2 then b.set w (splice ((b[w]?).getD 0) lo len (field ((now[w]?).getD 0).toNat lo len)) else b) old

/-- The parameter block is read once, before the first byte moves; if it has been changed since, the rest of the command may use either value of each field (R293). (DEDUCED, log 33.) -/
def readBlock (who : Who) (k : Command) : M Command := do
  if k.kind == .cpy then return k
  else if k.block.isEmpty then
    let bs ← engineRead who k none k.b.toNat 32
    return { k with block := wordsOf 4 (ofBytes bs) }
  else if k.part ≠ 0 then return k
  else fun s =>
    match (locateBytes who .read k.b.toNat 32).run s with
    | (.ok ls, _) =>
      let now := wordsOf 4 (ofBytes (ls.map s.locByte))
      if now = k.block then (.ok k, s)
      else (.ok { k with block := mixBlock (blockFields k.kind) (Config.freeNat s.free) k.block now }, { s with free := s.free + 1 })
    | (.error _, _) => (.ok k, s)

/-! ## A command that ends on a fault (R256, R293) -/

/-- Bytes of the units of a command from `k` on, as many as the fuel says, as far as they can be read; each unit reads what those before it have written. -/
def laterBytes (who : Who) (k : Command) : Nat → M (List (Nat × Byte))
  | 0 => pure []
  | n + 1 => do
    if k.done then return []
    match ← attempt (unitWrites who k none) with
    | .error _ => return []
    | .ok ws =>
      each (fun w => do let _ ← attempt (enginePut who w.1 w.2)) ws
      let rest ← laterBytes who k.next n
      return (k.keyed ws).map (·.2) ++ rest

/-- Keys, addresses and new values of bytes of a command that are not yet counted, of `n` positions or units, as far as they can be read (R293). -/
def restBytes (who : Who) (k : Command) (x : Option Source) (n : Nat) : M (List (Nat × Nat × Byte)) := do
  let later (k' : Command) (n : Nat) : M (List (Nat × Nat × Byte)) := do
    return (← laterBytes who k' n).map fun w => (k.covered k.steps.length, w)
  if k.kind.moves then
    let ps := (span k.pos (min n (k.total - k.pos))).filter fun p => !k.ahead.any fun e => e.2 == p
    let bs ← collect (fun p => do return (p, ← attempt (engineRead who k x (k.byteAt p).2 1))) ps
    return bs.filterMap fun e =>
      match e.2 with
      | .ok [b] => some (e.1, (k.byteAt e.1).1, b)
      | _ => none
  else if k.part = 0 then later k n
  else return k.kept ++ (← later k.next n)

/-- The last byte for each place. -/
def lastBytes : List (Loc × Byte) → List (Loc × Byte)
  | [] => []
  | w :: rest => if rest.any fun v => v.1 == w.1 then lastBytes rest else w :: lastBytes rest

/-- The places of bytes of a command that can be written and would be. -/
def targetPlaces (who : Who) (k : Command) (ws : List (Nat × Nat × Byte)) : M (List (Loc × Byte)) := do
  let rs ← collect (fun (w : Nat × Nat × Byte) => do
    let s ← getS
    return (w, ← attempt (enginePlaces { who with since := s.clock } .write w.2.1 1))) ws
  return rs.filterMap fun e =>
    match e.2 with
    | .ok [l] => if k.passed e.1.1 l then none else some (l, e.1.2.2)
    | _ => none

/-- Bytes of a command that ends on a fault which it has not counted: any of them hold their new values (R293, R298). (DESIGN CHOICE, log 37.) -/
def State.strew (s : State) (who : Who) (k : Command) (x : Option Source) : State :=
  let k := match (readBlock who k).run s with
    | (.ok k', _) => k'
    | (.error _, _) => k
  if k.done then s
  else
    let n := 1 + Config.freeNat s.free % (k.total - k.pos)
    let mask := Config.freeNat (s.free + 1)
    let s := { s with free := s.free + 2 }
    match (restBytes who k x n).run s with
    | (.ok ws, _) =>
      match (targetPlaces who k ws).run s with
      | (.ok ls, t) =>
        let ls := lastBytes ls
        t.writeLocs (((ls.zip (span 0 ls.length)).filter fun w => bit mask w.2).map (·.1))
      | (.error _, t) => t
    | (.error _, _) => s

/-- R256: the command is retired with a status, and 0x201 becomes pending. -/
def State.commandFault (s : State) (c : Nat) (slot : BitVec 3) (k : Command) (cause : BitVec 10) (r : FaultInfo) : State :=
  let info := cause.toNat + slot.toNat * 2 ^ 10 + k.kind.code * 2 ^ 13
  (s.retire c slot).raise c ⟨0x201, word info, [k.issue, r.w2, r.w3, r.w4], false⟩

/-! ## Steps of a command -/

/-- Performing the bytes of the current unit, but for those that are performed already. -/
def performUnit (who : Who) (k : Command) (x : Option Source) : M Command := do
  if k.part ≠ 0 then performBytes who k k.kept
  else
    let ws ← unitWrites who k x
    if k.ahead.isEmpty then
      engineWrites who ws
      return k
    else performBytes who k (k.keyed ws)

/-- The bytes of the current unit are performed and the command goes on to the next; the writes of a chunk or run precede the reads of later ones (R248). -/
def finishUnit (who : Who) (k : Command) (x : Option Source) : M Command := do
  let k ← performUnit who k x
  if k.kind.moves then return k.next else settled k.next

/-- The sync object's accesses, on path O. -/
def Who.onO (w : Who) : Who := { w with path := .o }

/-- Whether the sync object counts bytes. -/
def countsBytes (who : Who) (k : Command) : M Bool := atFault k.c.toNat do
  let (_, w0, _) ← readObject who.onO .atomic k.c
  return barBytes w0

/-- `n` bytes are counted (R234). -/
def countBytes (who : Who) (k : Command) (n : Nat) : M Unit := do
  let _ ← atFault k.c.toNat (updateObject who.onO k.c fun w0 w1 => counted w0 w1 n)

/-- One action of a command: the bytes of its current unit are performed, or one step of them is counted (R234). (DEDUCED, log 8.) -/
def advanceCommand (who : Who) (k : Command) (x : Option Source) : M (Option Command) := do
  let k ← readBlock who k
  match k.owed with
  | n :: rest =>
    if ← countsBytes who k then
      countBytes who k n
      let k' := { k with owed := rest, stall := [] }
      return if k'.done && rest.isEmpty then none else some k'
    else return some { k with owed := [] }
  | [] =>
    if k.done then
      if k.c = 0 then return some k
      else return if ← countsBytes who k then none else some k
    else if k.c = 0 then return some (← finishUnit who k x)
    else if k.part = 0 then
      let k ← performUnit who k x
      return some { k with part := 1, stall := [] }
    else if ← countsBytes who k then
      let k ← performBytes who k (k.kept.filter fun e => decide (e.1 < k.covered k.part))
      countBytes who k ((k.steps[k.part - 1]?).getD 0)
      let k' ← if k.part < k.steps.length then pure { k with part := k.part + 1, stall := [] } else finishUnit who k x
      return if k'.done then none else some k'
    else return some (← finishUnit who k x)

/-- What a command's action leaves: its new position, its retirement, or its fault; a wait leaves the state as it was, with the ticks counted for what is waited for (R138, R158). -/
def State.commandAction (s : State) (c : Nat) (slot : BitVec 3) (k : Command) (m : M (Option Command)) : State :=
  match m.run s with
  | (.ok (some k'), t) => t.setCommand c slot (some k')
  | (.ok none, t) => t.retire c slot
  | (.error (.trap cause _ r), t) => (t.strew (engineWho s c k) k (s.source c slot)).commandFault c slot k cause r
  | (.error (.waitOn ks), _) => s.setCommand c slot (some { k with stall := waitsFor k.stall ks })
  | (.error .wait, _) => s

/-- Whether one unit at most is left of a command without sync object. -/
def Command.atEnd (k : Command) : Bool := k.done || k.next.done

/-- A command whose current unit is performed but not yet counted is counted to the end of the unit; `fuel` bounds the count steps. (DEDUCED, log 34.) -/
def State.settleCommand (s : State) (c : Nat) (slot : BitVec 3) : Nat → State
  | 0 => s
  | fuel + 1 =>
    match s.command c slot with
    | none => s
    | some k =>
      if k.resting then s
      else
        (s.commandAction c slot k (advanceCommand (engineWho s c k) k (s.source c slot))).settleCommand c slot fuel

/-- How many actions take a command to its next resume point, at most. -/
def Command.toRest (k : Command) : Nat := k.owed.length + k.steps.length + 1

/-- Every command of a context goes to its next resume point (R257, R259). (DEDUCED, log 34.) -/
def State.settleCommands (s : State) (c : Nat) : State :=
  if (s.ctx c).cmds.all (·.isNone) then s
  else (span 0 8).foldl (fun t i => t.settleCommand c (BitVec.ofNat 3 i)
    ((t.command c (BitVec.ofNat 3 i)).map Command.toRest |>.getD 0)) s

/-- Some command of a context is between resume points: a count step of it waits. -/
def Ctx.midUnit (x : Ctx) : Bool := x.cmds.any fun k => match k with
  | some k => !k.resting
  | none => false

end Sys2Proof.Machine
end

