-- ==== Sys2Proof/Machine/Ops.lean ====
section
/-! DEFINITION. Operations on tasks and contexts: reports to the host, save areas, giving up a context, TAKING A TRAP
(R252, R254) and the return from it, and how an instruction ends. -/

namespace Sys2Proof.Machine

/-! ## Reports to the host (R254, R266, R272) -/

/-- An event joins those that wait for the ring (R272). (DESIGN CHOICE, log 39.) -/
def State.report (s : State) (p : Nat) (e : Event) : State :=
  s.setPkg p { s.pkg p with events := (s.pkg p).events ++ [e] }

/-! ## The save area (R255) -/

/-- The physical address of a save area. (DEDUCED, log 29.) -/
def areaBase (s : State) (a : Area) : Nat :=
  (a.die / 4) * 2 ^ 48 + (s.die a.die).savebase.toNat + a.index * 0x40000

/-- A physical address as the spec numbers it, for a place in memory (R19, log 63). -/
def State.addressOf (s : State) (a : Nat) : Nat := s.number (pkgOfAddr a) * 2 ^ 48 + a % 2 ^ 48

/-- The die's scheduler structures are corrupted (R266): dispatch stops and 0x384 reaches the host. The spec names no context for it. (DEDUCED, log 30; DESIGN CHOICE, log 39.) -/
def State.corrupt (s : State) (d address : Nat) : State :=
  let t := { s.setDie d { s.die d with corrupted := true, stopped := true } with free := s.free + 1 }
  t.report (d / 4) ⟨0x384, 3, Config.freeNat s.free % 2 ^ 19, word (s.addressOf address)⟩

/-- A report of which the spec gives the kind alone (R272): cause, context number and information word are free values. (DESIGN CHOICE, log 39.) -/
def State.reportKind (s : State) (p kind : Nat) : State :=
  { s with free := s.free + 1 }.report p
    ⟨BitVec.ofNat 10 (Config.freeNat s.free), kind, Config.freeNat (s.free) / 2 ^ 10 % 2 ^ 19, Config.freeWord s.free⟩

/-! ## Giving up a context (R42, R183, R217, R258, R259) -/

/-- A channel with no slot bound becomes FREE once nothing holds it (R183): no open round, and no operation that a port still has to perform, since the end of a round may stand in a queue. (DEDUCED, log 45.) -/
def Channel.settle (ch : Channel) : Channel :=
  if ch.slots.any (fun x => x.holder.isSome || !x.queue.isEmpty) then ch
  else
    match ch.state with
    | .free => ch
    | .bound => if ch.dests.any (fun d => decide (d.finished < ch.opened)) then ch else Channel.reset
    | .aborted =>
      if ch.groupDue || ch.dests.any (fun d => d.aborted && !d.done) then ch else Channel.reset

/-- A slot is released; an open round stays open (R183, R186). (DEDUCED, log 45.) -/
def Channel.unbind (ch : Channel) (slot : Nat) : Channel :=
  match ch.slots[slot]? with
  | some x => { ch with slots := ch.slots.set slot { x with holder := none } }.settle
  | none => ch

/-- Every channel that a context holds is unbound (R186). -/
def State.unbindAll (s : State) (c : Nat) : State :=
  if (s.ctx c).chans.all (·.isNone) then s
  else
    let root := s.domainRoot (pkgOf c)
    let t := (span 0 16).foldl (fun t i =>
      match get16 (s.ctx c).chans (BitVec.ofNat 4 i) with
      | some (slot, _) => t.setChanOf root (BitVec.ofNat 4 i) ((t.chanOf root (BitVec.ofNat 4 i)).unbind slot)
      | none => t) s
    t.setCtx c { t.ctx c with chans := Vector.replicate 16 none }

/-- Ports of a channel that are stalled on the 0x28A whose information word is `stat` may retry (R217). -/
def Channel.retryPorts (stat : Word) (ch : Channel) : Channel :=
  match ch.group with
  | none => ch
  | some g =>
    { ch with dests := ch.dests.mapIdx fun i d =>
        match g.recv[i]? with
        | some r => if r.stat == stat && d.stalled then { d with retry := true } else d
        | none => d }

/-- The same on every channel of the domain of a context. -/
def State.retryPorts (s : State) (c : Nat) (stat : Word) : State :=
  let root := s.domainRoot (pkgOf c)
  { s with chans := s.chans.map fun e => if e.1 == root then (e.1, e.2.map (Channel.retryPorts stat)) else e }

/-- Leaving the handler of a 0x28A, or resuming the host's stop for it, lets the port retry (R217). -/
def State.leaveHandler (s : State) (c : Nat) : State :=
  let x := s.ctx c
  let t := if x.mode == .supervisor && x.cause == 0x28A#10 then s.retryPorts c x.tinfo else s
  match x.stopInfo with
  | some (0x28A, i) => t.retryPorts c i
  | _ => t

/-! ## Lane groups and ceilings (R15, R38, R39, R260) -/

/-- The lane groups that the running contexts of a core hold (R15). -/
def heldGroups (s : State) (k : Nat) : Nat := ((span (4 * k) 4).map fun c => (s.ctx c).held).sum

/-- The free lane groups of a core (R15, R38). -/
def freeGroups (s : State) (k : Nat) : Nat := 8 - heldGroups s k

/-- The groups of a core that lane reclaim has reserved (R260). -/
def reservedGroups (s : State) (k : Nat) : Nat := ((s.core k).reserved.map (·.groups)).sum

/-- The ceiling that a control word asks for under the power limit (R27, R38). -/
def requestCeil (s : State) (p : Nat) (ctrl : Word) : Nat := min (2 ^ field ctrl.toNat 41 2) (s.pkg p).ceil

/-- The lane ceiling C of a context as it stands: its record's request under the power limit, and a reclaim's lowered value (R38, R39); in supervisor mode the ceiling that stood at trap entry (R305). (DEDUCED, log 49.) -/
def State.currentCeil (s : State) (c : Nat) : Nat :=
  let x := s.ctx c
  let top := requestCeil s (pkgOf c) x.ctrl
  if x.mode == .supervisor then x.ceil
  else
    match x.cut with
    | some (v, _) => min top v
    | none => top

/-- Ceilings that a reclaim for the task `tid` lowered return to their records' requests as that task ends (R39). (DEDUCED, log 49.) -/
def State.restoreCeilings (s : State) (tid : Nat) : State :=
  { s with ctxs := s.ctxs.map fun e =>
      match e.2.cut with
      | some (_, some t) =>
        if t == tid then
          let top := requestCeil s (pkgOf e.1) e.2.ctrl
          (e.1, { e.2 with ceil := if e.2.mode == .supervisor then max e.2.ceil top else top, cut := none })
        else e
      | _ => e }

/-- The groups reserved on a core for an entry (R260). -/
def Core.reservedFor (k : Core) (die : Nat) (seq : Word) : Nat :=
  ((k.reserved.filter fun r => r.die == die && r.seq == seq).map (·.groups)).sum

/-- The core with that many groups reserved for an entry (R260). -/
def Core.reserveFor (k : Core) (die : Nat) (seq : Word) (groups : Nat) : Core :=
  let rest := k.reserved.filter fun r => !(r.die == die && r.seq == seq)
  { k with reserved := if groups = 0 then rest else rest ++ [⟨die, seq, groups⟩] }

/-- A matrix unit that nobody holds: tiles and buffers UNSET (R54, R220). -/
def MatrixUnit.free : MatrixUnit := Core.reset.mu

/-- A core without a context that leaves it: the matrix unit is free if it held it, and a pre-emption of it is over; groups that are reserved stay so until the entry starts (R260). -/
def Core.without (k : Core) (c : Nat) : Core :=
  { k with
    mu := if k.mu.holder == some c then MatrixUnit.free else k.mu
    preempt := k.preempt.filter fun p => p.victim != c }

/-- The lanes, the matrix unit and the context are released; causes for OWNER stay with it (R42, R217). -/
def State.vacate (s : State) (c : Nat) : State :=
  let x := s.ctx c
  let k := coreOf c
  let s := s.setCore k ((s.core k).without c)
  let s := { s with spt := s.spt.filter fun p => p.ctx != c }.dropPins c
  s.setCtx c
    { s.ctx c with
      life := .idle, mode := .task, held := 0, ceil := 0, cmds := Vector.replicate 8 none,
      chans := Vector.replicate 16 none, pending := x.pending.filter (·.owner), vstores := [], drained := [], area := none,
      record := 0, ctrl := 0, parent := 0, budget := 0, budget0 := 0, lost := false, due := none, switch := false,
      lowered := none, cut := none, stopInfo := none, waited := none, vdone := 0, stall := [], rpt := [],
      ending := false, looping := false, delayed := [], late := [], vAfter := 0, sAfter := 0, fences := [], quota := none, adone := 0,
      busy := false, prefetched := [], hbar := none }

/-- A task is over: ceilings that were lowered for it return (R39), and nothing is kept for its commands. -/
def State.taskGone (s : State) (tid : Nat) : State :=
  let t := s.restoreCeilings tid
  if t.sources.isEmpty then t else { t with sources := t.sources.filter fun x => x.tid != tid }

/-- The save area returns to its die's pool (R255). -/
def State.releaseArea (s : State) (a : Option Area) : State :=
  match a with
  | none => s
  | some a => s.setDie a.die { s.die a.die with areas := (s.die a.die).areas.filter (· != a.index) }

/-- The commands of a context that are between resume points go on there without it (R259). (DEDUCED, log 34.) -/
def State.orphanCommands (s : State) (c : Nat) : State :=
  let x := s.ctx c
  if !x.midUnit then s
  else { s with orphans := s.orphans ++ (span 0 8).filterMap fun i =>
      match get8 x.cmds (BitVec.ofNat 3 i) with
      | some k => if k.resting then none else some ⟨c, x.tid, BitVec.ofNat 3 i, x.sptroot, k⟩
      | none => none }

/-- Abandoning a task (R259): older stores are performed, its commands go to their resume points and are discarded with its bindings, everything it holds is released; no join and no fence. (DEDUCED, log 11 and 34.) -/
def State.abandon (s : State) (c : Nat) : State :=
  let t := ((s.finishOlder c).settleCommands c).leaveHandler c
  let t := (t.orphanCommands c).unbindAll c
  ((t.vacate c).taskGone (s.ctx c).tid).releaseArea (s.ctx c).area

/-- A task whose save area failed is lost (R255, R266). -/
def State.loseTask (s : State) (c address : Nat) : State :=
  let x := s.ctx c
  let t :=
    match x.area with
    | some a => s.corrupt a.die address
    | none => s
  (t.abandon c).report (pkgOf c) ⟨0x383, 2, s.ctxNumber c, x.record⟩

/-! ## Taking a trap (R252, R254) and the return from it (R253, R305) -/

/-- The causes for which FV4 writes a fault record at trap entry (R161): translation, stash and machine check, 0x201, 0x343, 0x346, and 0x341 whose re-run could not be enqueued. -/
def writesRecord (cause : BitVec 10) (info : Word) : Bool :=
  let c := cause.toNat
  (decide (0x100 ≤ c) && decide (c < 0x200)) || (decide (0x380 ≤ c) && decide (c < 0x3C0)) ||
  c == 0x201 || c == 0x343 || c == 0x346 || (c == 0x341 && info.getLsbD 63)

/-- The 32 words of a fault record (R161). (DEDUCED, log 12.) -/
def faultRecord (cause : BitVec 10) (w1 : Word) (r : FaultInfo) : List Word :=
  let n := r.pages.length
  let w0 := cause.toNat + r.lane * 2 ^ 10 + r.elem * 2 ^ 16 + n * 2 ^ 32 + (if r.more then 2 ^ 40 else 0)
  [word w0, w1, r.w2, r.w3, r.w4] ++ r.pages ++ List.replicate (27 - n) 0

/-- The bytes of 64-bit words in memory order (R2). -/
def bytesOfWords (ws : List Word) : List Byte := ws.flatMap fun w => bytesOf 8 w.toNat

/-! ## Asynchronous causes for a task (R252, R255) -/

/-- The context that a task occupies. -/
def State.whereIs (s : State) (tid : Nat) : Option Nat :=
  (s.ctxs.find? fun e => e.2.life != .idle && e.2.tid == tid).map (·.1)

/-- A write into a save area by FV4; an area that fails counts as a corrupted structure (R255). -/
def State.putArea (s : State) (a : Area) (off : Nat) (bs : List Byte) : State :=
  match putPhys s (a.die / 4) (areaBase s a + off) bs with
  | .ok t => t
  | .error e => s.corrupt a.die e

/-- A cause for a switched-out task becomes a pending pair of its save area (R255): not added when an equal pair is held, LOST when 15 are. -/
def State.addPair (s : State) (a : Area) (p : Pending) : State :=
  match readPhys s (a.die / 4) (areaBase s a + 8 * 33) 248 with
  | .error e => s.corrupt a.die e
  | .ok h =>
    let w := wordsOf 31 h
    let at_ i := (w[i]?).getD 0
    let n := field (at_ 0).toNat 0 4
    let equal := (span 0 n).any fun i => at_ (1 + 2 * i) == p.cause.setWidth 64 && at_ (2 + 2 * i) == p.info
    if equal then s
    else if n = 15 then s.putArea a (8 * 33) (bytesOf 8 (15 + 2 ^ 63))
    else
      let t := s.putArea a (8 * (34 + 2 * n)) (bytesOf 8 p.cause.toNat ++ bytesOf 8 p.info.toNat)
      let t := t.putArea a (0x880 + 32 * n) (bytesOfWords p.words)
      t.putArea a (8 * 33) (bytesOf 8 ((at_ 0).toNat + 1))

/-- The save area of a context that still waits for the matrix unit: it stands for the task until the unit is held (R229). -/
def Ctx.waitingArea (x : Ctx) : Option Area := if x.life == .acquiring then x.area else none

/-- A cause reaches a task wherever it is; a task that has ended no longer takes it. One that waits for the matrix unit may go back with its save area as it stands, so that the area takes the cause too (R229). -/
def State.raiseTask (s : State) (tid : Nat) (p : Pending) : State :=
  match s.whereIs tid with
  | some c =>
    match (s.ctx c).waitingArea with
    | some a => (s.raise c p).addPair a p
    | none => s.raise c p
  | none =>
    match s.parked.find? fun q => q.tid == tid with
    | some q => s.addPair q.area p
    | none => s

/-- The fault record of a context's save area is written; an area that fails loses the task (R255). The Bool says whether the task is still there. (DEDUCED, log 29.) -/
def State.putRecord (s : State) (c : Nat) (ws : List Word) : State × Bool :=
  match (s.ctx c).area with
  | none => (s, true)
  | some a =>
    match putPhys s (a.die / 4) (areaBase s a + 0x200) (bytesOfWords ws) with
    | .ok t => (t, true)
    | .error e => (s.loseTask c e, false)

/-- Marks of a wait, and the words of an RPT frame, that a trap or a switch abandons (R66, R158, R233, R244, R350). -/
def Ctx.clearWaits (x : Ctx) : Ctx :=
  { x with waited := none, vdone := 0, stall := [], ending := false, looping := false, rpt := [], quota := none, adone := 0, busy := false }

/-- Host stop (R254): the record is written, the context stops with its state held, the host is notified. -/
def State.hostStop (s : State) (c : Nat) (cause : BitVec 10) (info w1 : Word) (r : FaultInfo) : State :=
  let ws :=
    if writesRecord cause info then faultRecord cause w1 r
    else [word cause.toNat, (s.ctx c).pc, 0, info] ++ List.replicate 28 0
  match s.putRecord c ws with
  | (t, false) => t
  | (t, true) =>
    let t := t.setCtx c { (t.ctx c).clearWaits with life := .stopped, stopInfo := some (cause, info) }
    t.report (pkgOf c) ⟨cause, 1, t.ctxNumber c, info⟩

/-- Trap entry (R252) at the commit pointer, where every older instruction has its whole effect (R56). `skip` is set for TRAP n, which counts as completed and orders no access: its return address is the next instruction, and older stores may still wait (R353). (DEDUCED, log 11 and 27.) -/
def State.takeTrap (s : State) (c : Nat) (cause : BitVec 10) (info w1 : Word) (r : FaultInfo) (async skip : Bool) :
    State :=
  let s := if skip then s else s.finishOlder c
  let x := s.ctx c
  if x.mode == .supervisor || x.tvec = 0 then s.hostStop c cause info w1 r
  else
    match (if writesRecord cause info then s.putRecord c (faultRecord cause w1 r) else (s, true)) with
    | (t, false) => t
    | (t, true) =>
      let y := (t.ctx c).clearWaits
      t.setCtx c
        { y with
          tepc := if skip then nextPc x.pc 1 else x.pc
          cause := cause, async := async, tinfo := info
          svl := x.vl, svcfg := x.vcfg, mode := .supervisor, pc := x.tvec }

/-- A trap that the instruction at the commit pointer raises. -/
def State.trapNow (s : State) (cause : BitVec 10) (info : Word) (r : FaultInfo) : State :=
  s.takeTrap s.cur cause info s.me.pc r false false

/-- How many asynchronous causes a context has pending besides its budget (R252, R255). -/
def Ctx.causes (x : Ctx) : Nat := x.pending.length + flag x.lost

/-- The next asynchronous cause of a context is taken (R252): the oldest pending one, then a set LOST bit as 0x201 (R255). A cause that reaches a context both as OWNER and with its task, as the holder of a slot, is taken once (R199, R218). (DEDUCED, log 27 and 46.) -/
def State.takeAsync (s : State) (c : Nat) : State :=
  let x := s.ctx c
  match x.pending with
  | p :: later =>
    let other (q : Pending) := !(q.cause == p.cause && q.info == p.info && q.owner != p.owner)
    let rest := later.filter other
    let older := x.due.map fun n => ((later.take (n - 1)).filter other).length + (n - x.pending.length)
    let g i := (p.words[i]?).getD 0
    (s.setCtx c { x with pending := rest, due := older }).takeTrap c p.cause p.info (g 0)
      { noInfo with w2 := g 1, w3 := g 2, w4 := g 3 } true false
  | [] => if x.lost then (s.setCtx c { x with lost := false, due := x.due.map (· - 1) }).takeTrap c 0x201 0 0 noInfo true false else s

/-- VLMAX at an element width code and a holding (R50, R59). -/
def vlmaxAt (sew : BitVec 2) (held : Nat) : Nat := 1024 * held / (8 * 2 ^ sew.toNat)

/-- A context that waits on entries keeps the ticks counted for each, and nothing for entries it no longer waits on (R138, R158). (DESIGN CHOICE, log 23.) -/
def Ctx.waitsOn (x : Ctx) (keys : List Nat) : Ctx := { x with stall := waitsFor x.stall keys }

/-- A context that waits for something other than an entry: nothing is counted for it, and a switch may take it (R158, R258). (DESIGN CHOICE, log 23.) -/
def State.unmarked (s : State) : State :=
  if s.me.busy || !s.me.stall.isEmpty then s.setMe { s.me.waitsOn [] with busy := false } else s

/-- How a meaning ends: its state, a trap taken on what it left, or the state before it with the wait marked; one that waits for something else than an entry keeps no mark. `whole` says that an instruction that waits for an entry completes or traps before any switch (R258). (DEDUCED, log 8; DESIGN CHOICE, log 23.) -/
def finishWith (whole : Bool) (m : M Unit) (s : State) : Host.Outcome State Fault Refusal :=
  match m.run s with
  | (.ok _, t) => .next t
  | (.error (.trap cause info r), t) => .next (t.trapNow cause info r)
  | (.error .wait, _) => .next s.unmarked
  | (.error (.waitOn ks), _) => .next (s.setMe { s.me.waitsOn ks with busy := whole })

/-- The end of a meaning that a switch finds complete or trapped. (DEDUCED, log 8.) -/
def finish (m : M Unit) (s : State) : Host.Outcome State Fault Refusal := finishWith true m s

/-- The end of a meaning that a switch may abandon while it waits (R258, R164). (DEDUCED, log 8.) -/
def finishOpen (m : M Unit) (s : State) : Host.Outcome State Fault Refusal := finishWith false m s

/-- The program counter moves to the next instruction; a wait that has ended leaves no mark. -/
def nextM : M Unit := modMe Ctx.advance

/-- A meaning that ends by going on to the next instruction. (DEDUCED, log 8.) -/
def complete (m : M Unit) (s : State) : Host.Outcome State Fault Refusal :=
  finish (do m; nextM) s

/-- What ERET restores (R253, R305): the budget of word 4 after a 0x341 that exhausted it; one that is still due comes after every pending cause. (DEDUCED, log 52.) -/
def Ctx.returned (x : Ctx) : Ctx :=
  { x with
    vcfg := x.svcfg
    vl := BitVec.ofNat 11 (min x.svl.toNat (vlmaxAt (slice x.svcfg 0 2) x.held))
    mode := .task, pc := x.tepc, stall := [], busy := false
    due := x.due.map fun _ => x.causes
    budget := if x.budget0 ≠ 0 && x.budget = 0 && x.due.isNone then x.budget0 else x.budget }

/-- The effect of SVFENCE.full on a context whose older scalar and vector accesses are placed (R170): its stores are performed, and neither kind reads earlier than the other has. (DESIGN CHOICE, log 9.) -/
def State.fullFence (s : State) (c : Nat) : State := ((s.storesDone c).alignPins c .scalar .vector).alignPins c .vector .scalar

/-- The return from a trap: it has the effect of SVFENCE.full, lets a stalled port retry (R217), and resumes the task, whose ceiling is again what reclaim and power limit make of it, or abandons it. (DEDUCED, log 11 and 49.) -/
def State.eret (s : State) (c : Nat) : State :=
  let t := s.fullFence c
  if (t.ctx c).abandon then t.abandon c
  else
    let t := t.leaveHandler c
    let u := t.setCtx c (t.ctx c).returned
    u.setCtx c { u.ctx c with ceil := u.currentCeil c }

/-- The instruction word as an information word (R73). -/
def instrWord (i : Instr) : Word := (encode i).setWidth 64

/-- The feature of R63 is enabled, else 0x004. -/
def feature (n : Nat) (i : Instr) : M Unit := do
  let s ← getS
  check (s.myPkg.enable.getLsbD n) 0x004 (instrWord i)

/-- R135: while ENABLE.STASH is 0, the lowest window address that an instruction would access is reported before any element is performed. (DEDUCED, log 14.) -/
def stashOpen (vas : List Nat) : M Unit := do
  let s ← getS
  if !s.myPkg.enable.getLsbD 3 then
    match leastBy id (vas.filter inWindow) with
    | some a => trapM 0x004 (word a) (atAddr a 0)
    | none => pure ()

/-- A scalar instruction that only writes a register (R280 to R282). -/
def writeReg (d : BitVec 5) (v : Word) (s : State) : Host.Outcome State Fault Refusal :=
  .next (s.setMe (s.me.setReg d v).advance)

end Sys2Proof.Machine
end

