-- ==== Sys2Proof/Machine/Scalar.lean ====
section
/-! DEFINITION. Scalar integer instructions (R281 to R283, R291, R299, R302, R303 and the entries MUL, LIH,
SEXT, SLL, ZEXT of the instruction reference). Each reads its sources before it writes d; none raises a cause
beyond R73 or sets a flag. -/

namespace Sys2Proof.Machine

/-- What a step of this machine answers. -/
abbrev Out : Type := Host.Outcome State Fault Refusal

/-- A two-source operation (R282). -/
def alu2 (f : Word → Word → Word) (d a b : BitVec 5) (s : State) : Out := writeReg d (f (s.me.reg a) (s.me.reg b)) s

/-- A one-source operation (R291). -/
def alu1 (f : Word → Word) (d a : BitVec 5) (s : State) : Out := writeReg d (f (s.me.reg a)) s

/-- 1 if a condition holds, else 0 (R281). -/
def truth (b : Bool) : Word := if b then 1#64 else 0#64

/-- An operation on numbers, at 64 bits. -/
def onNat (f : Nat → Nat → Nat) (x y : Word) : Word := word (f x.toNat y.toNat)

/-- ADD (R282). -/
def execAdd (d a b : BitVec 5) (s : State) : Out := alu2 (fun x y => x + y) d a b s

/-- SUB (R282). -/
def execSub (d a b : BitVec 5) (s : State) : Out := alu2 (fun x y => x - y) d a b s

/-- MUL (R102: the low half of the product). -/
def execMul (d a b : BitVec 5) (s : State) : Out := alu2 (fun x y => x * y) d a b s

/-- MULH (R102: bits [127:64] of the signed product). -/
def execMulh (d a b : BitVec 5) (s : State) : Out := alu2 (fun x y => BitVec.ofInt 64 (x.toInt * y.toInt / 2 ^ 64)) d a b s

/-- MULHU (R102: bits [127:64] of the unsigned product). -/
def execMulhu (d a b : BitVec 5) (s : State) : Out := alu2 (fun x y => word (x.toNat * y.toNat / 2 ^ 64)) d a b s

/-- DIV (R302). -/
def execDiv (d a b : BitVec 5) (s : State) : Out := alu2 (fun x y => onNat (divS 64) x y) d a b s

/-- DIVU (R302). -/
def execDivu (d a b : BitVec 5) (s : State) : Out := alu2 (fun x y => onNat (divU 64) x y) d a b s

/-- REM (R302). -/
def execRem (d a b : BitVec 5) (s : State) : Out := alu2 (fun x y => onNat (remS 64) x y) d a b s

/-- REMU (R302). -/
def execRemu (d a b : BitVec 5) (s : State) : Out := alu2 (fun x y => onNat (remU 64) x y) d a b s

/-- AND (R282). -/
def execAnd (d a b : BitVec 5) (s : State) : Out := alu2 (fun x y => x &&& y) d a b s

/-- ANDN (R282). -/
def execAndn (d a b : BitVec 5) (s : State) : Out := alu2 (fun x y => x &&& ~~~y) d a b s

/-- OR (R282). -/
def execOr (d a b : BitVec 5) (s : State) : Out := alu2 (fun x y => x ||| y) d a b s

/-- XOR (R282). -/
def execXor (d a b : BitVec 5) (s : State) : Out := alu2 (fun x y => x ^^^ y) d a b s

/-- SLL (R102: the low six bits of the amount). -/
def execSll (d a b : BitVec 5) (s : State) : Out := alu2 (fun x y => x <<< (y.toNat % 64)) d a b s

/-- SRL (R102). -/
def execSrl (d a b : BitVec 5) (s : State) : Out := alu2 (fun x y => x >>> (y.toNat % 64)) d a b s

/-- SRA (R102: filled with the sign). -/
def execSra (d a b : BitVec 5) (s : State) : Out := alu2 (fun x y => x.sshiftRight (y.toNat % 64)) d a b s

/-- SLT (R282). -/
def execSlt (d a b : BitVec 5) (s : State) : Out := alu2 (fun x y => truth (x.slt y)) d a b s

/-- SLTU (R282). -/
def execSltu (d a b : BitVec 5) (s : State) : Out := alu2 (fun x y => truth (x.ult y)) d a b s

/-- MIN (R282). -/
def execMin (d a b : BitVec 5) (s : State) : Out := alu2 (fun x y => if x.slt y then x else y) d a b s

/-- MAX (R282). -/
def execMax (d a b : BitVec 5) (s : State) : Out := alu2 (fun x y => if x.slt y then y else x) d a b s

/-- MINU (R282). -/
def execMinu (d a b : BitVec 5) (s : State) : Out := alu2 (fun x y => if x.ult y then x else y) d a b s

/-- MAXU (R282). -/
def execMaxu (d a b : BitVec 5) (s : State) : Out := alu2 (fun x y => if x.ult y then y else x) d a b s

/-- CLZ (R291). -/
def execClz (d a : BitVec 5) (s : State) : Out := alu1 (fun x => word (clz64 x.toNat)) d a s

/-- CTZ (R291). -/
def execCtz (d a : BitVec 5) (s : State) : Out := alu1 (fun x => word (ctzFrom x.toNat 64)) d a s

/-- POPC (R291). -/
def execPopc (d a : BitVec 5) (s : State) : Out := alu1 (fun x => word (popcount x.toNat 64)) d a s

/-- SEXT.b. -/
def execSextB (d a : BitVec 5) (s : State) : Out := alu1 (fun x => (x.setWidth 8).signExtend 64) d a s

/-- SEXT.h. -/
def execSextH (d a : BitVec 5) (s : State) : Out := alu1 (fun x => (x.setWidth 16).signExtend 64) d a s

/-- SEXT.w. -/
def execSextW (d a : BitVec 5) (s : State) : Out := alu1 (fun x => (x.setWidth 32).signExtend 64) d a s

/-- ZEXT.b. -/
def execZextB (d a : BitVec 5) (s : State) : Out := alu1 (fun x => (x.setWidth 8).setWidth 64) d a s

/-- ZEXT.h. -/
def execZextH (d a : BitVec 5) (s : State) : Out := alu1 (fun x => (x.setWidth 16).setWidth 64) d a s

/-- ZEXT.w. -/
def execZextW (d a : BitVec 5) (s : State) : Out := alu1 (fun x => (x.setWidth 32).setWidth 64) d a s

/-- CSEL (R299). -/
def execCsel (d a b c : BitVec 5) (s : State) : Out :=
  writeReg d (if s.me.reg c ≠ 0 then s.me.reg a else s.me.reg b) s

/-- ADD with immediate (R74, R281). -/
def execAddImm (d a : BitVec 5) (i : BitVec 16) (s : State) : Out := alu1 (fun x => x + i.signExtend 64) d a s

/-- AND with immediate (R74, R281). -/
def execAndImm (d a : BitVec 5) (i : BitVec 16) (s : State) : Out := alu1 (fun x => x &&& i.signExtend 64) d a s

/-- OR with immediate (R74, R281). -/
def execOrImm (d a : BitVec 5) (i : BitVec 16) (s : State) : Out := alu1 (fun x => x ||| i.setWidth 64) d a s

/-- XOR with immediate (R74, R281). -/
def execXorImm (d a : BitVec 5) (i : BitVec 16) (s : State) : Out := alu1 (fun x => x ^^^ i.setWidth 64) d a s

/-- SLT with immediate (R74, R281). -/
def execSltImm (d a : BitVec 5) (i : BitVec 16) (s : State) : Out := alu1 (fun x => truth (x.slt (i.signExtend 64))) d a s

/-- SLTU with immediate (R74, R281). -/
def execSltuImm (d a : BitVec 5) (i : BitVec 16) (s : State) : Out := alu1 (fun x => truth (x.ult (i.signExtend 64))) d a s

/-- LIH (R74, R281). -/
def execLih (d a : BitVec 5) (i : BitVec 16) (s : State) : Out := alu1 (fun x => (x <<< 16) ||| i.setWidth 64) d a s

/-- ADDPC (R283): not an address check. -/
def execAddpc (d : BitVec 5) (i : BitVec 16) (s : State) : Out :=
  writeReg d (s.me.pc + (i.signExtend 64 <<< 16)) s

end Sys2Proof.Machine
end

