-- ==== Sys2Proof/Machine/ScalarFp.lean ====
section
/-! DEFINITION. Scalar floating point (R306 to R310, R313): VCFG.RM rounds, FZ never applies, flags are ORed
into FFLAGS. -/

namespace Sys2Proof.Machine

/-- The format of FMT (R79). -/
def fmtOf (f : BitVec 1) : Fmt := if f = 0#1 then fp32 else fp64

/-- The rounding mode of a context (R60, R105). -/
def Ctx.rm (x : Ctx) : Rm := rmOf (slice x.vcfg 4 2)

/-- An operand: bits [31:0] for .f32, all for .f64 (R307). -/
def Ctx.fpReg (x : Ctx) (f : BitVec 1) (r : BitVec 5) : Nat := (x.reg r).toNat % 2 ^ (fmtOf f).width

/-- A result and its flags (R307). -/
def writeFp (d : BitVec 5) (r : FpResult) (s : State) : Out :=
  .next (s.setMe { (s.me.setReg d (word r.1)).advance with fflags := s.me.fflags ||| r.2 })

/-- FADD (R306, R307). -/
def execFadd (d a b : BitVec 5) (f : BitVec 1) (s : State) : Out :=
  writeFp d (fpAdd (fmtOf f) s.me.rm 0 (s.me.fpReg f a) (s.me.fpReg f b)) s

/-- FSUB (R306, R307). -/
def execFsub (d a b : BitVec 5) (f : BitVec 1) (s : State) : Out :=
  writeFp d (fpSub (fmtOf f) s.me.rm 0 (s.me.fpReg f a) (s.me.fpReg f b)) s

/-- FMUL (R306, R307). -/
def execFmul (d a b : BitVec 5) (f : BitVec 1) (s : State) : Out :=
  writeFp d (fpMul (fmtOf f) s.me.rm 0 (s.me.fpReg f a) (s.me.fpReg f b)) s

/-- FDIV (R306, R307). -/
def execFdiv (d a b : BitVec 5) (f : BitVec 1) (s : State) : Out :=
  writeFp d (fpDiv (fmtOf f) s.me.rm 0 (s.me.fpReg f a) (s.me.fpReg f b)) s

/-- FSQRT (R306, R307). -/
def execFsqrt (d a : BitVec 5) (f : BitVec 1) (s : State) : Out :=
  writeFp d (fpSqrt (fmtOf f) s.me.rm 0 (s.me.fpReg f a)) s

/-- FMA (R306, R307): rounded once. -/
def execFma (d a b c : BitVec 5) (f : BitVec 1) (s : State) : Out :=
  writeFp d (fpFma (fmtOf f) s.me.rm 0 (s.me.fpReg f a) (s.me.fpReg f b) (s.me.fpReg f c)) s

/-- FMIN (R110, R307). -/
def execFmin (d a b : BitVec 5) (f : BitVec 1) (s : State) : Out :=
  writeFp d (fpMinMax (fmtOf f) 0 false (s.me.fpReg f a) (s.me.fpReg f b)) s

/-- FMAX (R110, R307). -/
def execFmax (d a b : BitVec 5) (f : BitVec 1) (s : State) : Out :=
  writeFp d (fpMinMax (fmtOf f) 0 true (s.me.fpReg f a) (s.me.fpReg f b)) s

/-- The conditions of FCMP (R79). -/
def condOf (c : BitVec 3) : FpCond :=
  match c.toNat with
  | 0 => .eq
  | 1 => .lt
  | 2 => .le
  | _ => .un

/-- FCMP (R308): does not round and does not read VCFG. -/
def execFcmp (d a b : BitVec 5) (c : BitVec 3) (f : BitVec 1) (s : State) : Out :=
  let r := fpCmp (fmtOf f) 0 (condOf c) (s.me.fpReg f a) (s.me.fpReg f b)
  writeFp d (flag r.1, r.2) s

/-- The conversions of R79, by code, under the table of R111. -/
def convert (code : BitVec 5) (rm : Rm) (x : Nat) : FpResult :=
  match code.toNat with
  | 0x00 => fpToFp fp64 fp32 rm 0 x
  | 0x01 => fpToFp fp32 fp64 rm 0 (x % 2 ^ 32)
  | 0x02 => fpToFp fp16 fp32 rm 0 (x % 2 ^ 16)
  | 0x03 => fpToFp fp32 fp16 rm 0 (x % 2 ^ 32)
  | 0x04 => fpToFp bf16 fp32 rm 0 (x % 2 ^ 16)
  | 0x05 => fpToFp fp32 bf16 rm 0 (x % 2 ^ 32)
  | 0x06 => intToFp fp32 rm false (signed 64 x)
  | 0x07 => intToFp fp32 rm false x
  | 0x08 => intToFp fp64 rm false (signed 64 x)
  | 0x09 => intToFp fp64 rm false x
  | 0x0A => fpToInt fp32 rm 0 64 true (x % 2 ^ 32)
  | 0x0B => fpToInt fp32 rm 0 64 false (x % 2 ^ 32)
  | 0x0C => fpToInt fp64 rm 0 64 true x
  | _ => fpToInt fp64 rm 0 64 false x

/-- FCVT (R309, R310). -/
def execFcvt (d a c : BitVec 5) (s : State) : Out := writeFp d (convert c s.me.rm (s.me.reg a).toNat) s

/-- FMVX (R313): the bits are copied, FFLAGS is unchanged. -/
def execFmvx (d a : BitVec 5) (f : BitVec 1) (s : State) : Out := writeReg d (word (s.me.fpReg f a)) s

end Sys2Proof.Machine
end

