-- ==== Sys2Proof/Machine/ScalarMem.lean ====
section
/-! DEFINITION. Scalar memory accesses on path O: LD (R320, R321) and ST (R345, R346). -/

namespace Sys2Proof.Machine

/-- The effective address of LD and ST (R74). -/
def memAddr (a : BitVec 5) (o : BitVec 13) (s : State) : Word := s.me.reg a + o.signExtend 64

/-- The size in bytes of a width code (R80). -/
def widthBytes (w : Nat) : Nat := 2 ^ (w % 4)

/-- The value of a load, extended as its width code says (R320). -/
def extendLoad (w : BitVec 3) (v : Nat) : Word :=
  match w.toNat with
  | 0 => (BitVec.ofNat 8 v).signExtend 64
  | 1 => (BitVec.ofNat 16 v).signExtend 64
  | 2 => (BitVec.ofNat 32 v).signExtend 64
  | 4 => (BitVec.ofNat 8 v).setWidth 64
  | 5 => (BitVec.ofNat 16 v).setWidth 64
  | 6 => (BitVec.ofNat 32 v).setWidth 64
  | _ => word v

/-- A scalar access has been performed now: later scalar loads stand no earlier (R168). (DESIGN CHOICE, log 9.) -/
def afterScalar : M Unit := modS fun s => s.closePins s.cur [.scalar]

/-- A vector access has been performed now: later vector loads stand no earlier (R168). (DESIGN CHOICE, log 9.) -/
def afterVector : M Unit := modS fun s => s.closePins s.cur [.vector]

/-- LD (R321). -/
def execLd (d a : BitVec 5) (o : BitVec 13) (w : BitVec 3) (s : State) : Out :=
  complete (do
    let x := memAddr a o s
    aligned x (widthBytes w.toNat)
    let v ← loadVa s.who x.toNat (widthBytes w.toNat)
    modMe fun m => m.setReg d (extendLoad w v)) s

/-- ST (R346): d is the register stored. -/
def execSt (d a : BitVec 5) (o : BitVec 13) (w : BitVec 2) (s : State) : Out :=
  complete (do
    let x := memAddr a o s
    aligned x (widthBytes w.toNat)
    writeVa s.who x.toNat (widthBytes w.toNat) (s.me.reg d).toNat
    afterScalar) s

/-- ST in a HOLD turn (assumption 9): every check is made, and the store waits to be performed. (DESIGN CHOICE, log 9.) -/
def delaySt (d a : BitVec 5) (o : BitVec 13) (w : BitVec 2) (s : State) : Out :=
  complete (do
    let x := memAddr a o s
    aligned x (widthBytes w.toNat)
    let ls ← locateBytes s.who .write x.toNat (widthBytes w.toNat)
    modMe fun m => { m with delayed := m.delayed ++
      [.store m.newStamp m.sAfter (ls.zip (bytesOf (widthBytes w.toNat) (s.me.reg d).toNat))] }) s

end Sys2Proof.Machine
end

