-- ==== Sys2Proof/Machine/Atomic.lean ====
section
/-! DEFINITION. Atomics AMO and CAS (R239 to R241, R284, R285, R290) and posted stores PST (R245 to R247, R334,
R335). -/

namespace Sys2Proof.Machine

/-- The operations of R240. -/
inductive AtomOp where
  | add | and | or | xor | smin | smax | umin | umax | swap | fmax | addb
  deriving DecidableEq, Repr

/-- New memory value and returned value of an atomic at width `w` (R240, R241): `old` the memory value, `x` the operand, `y` the bound. -/
def atomResult (op : AtomOp) (w old x y : Nat) : Nat × Nat :=
  match op with
  | .add => ((old + x) % 2 ^ w, old)
  | .and => (old &&& x, old)
  | .or => (old ||| x, old)
  | .xor => (old ^^^ x, old)
  | .smin => (if signed w old < signed w x then old else x, old)
  | .smax => (if signed w old < signed w x then x else old, old)
  | .umin => (min old x, old)
  | .umax => (max old x, old)
  | .swap => (x, old)
  | .fmax => ((fpMinMax (if w = 32 then fp32 else fp64) 0 true old x).1, old)
  | .addb => if old + x ≤ y then (old + x, old) else (old, old + 2 ^ 63)

/-- Read and write of one location as one point of T (R239): `f` gives the new value and the result. -/
def atomicVa (who : Who) (va n : Nat) (f : Nat → Nat × Nat) : M Nat := do
  let ls ← locateBytes who .atomic va n
  checkPoison va ls
  let s ← getS
  let r := f (ofBytes (ls.map s.locByte))
  modS fun t => t.writeLocs (ls.zip (bytesOf n r.1))
  return r.2

/-- The width of SIZE (R81): bit 5 is set in every legal code, bit 4 tells .d from .w. -/
def sizeBits (z : BitVec 1) : Nat := if z = 0#1 then 32 else 64

/-- A scalar atomic (R285): `f` gives the new value and the result. (DEDUCED, log 50.) -/
def amo (d a : BitVec 5) (z : BitVec 1) (f : Nat → Nat × Nat) (s : State) : Out :=
  complete (do
    let w := sizeBits z
    aligned (s.me.reg a) (w / 8)
    let r ← atomicVa s.who (s.me.reg a).toNat (w / 8) f
    afterScalar
    modMe fun m => m.setReg d (word r)) s

/-- A register's low `w` bits. -/
def lowReg (s : State) (r : BitVec 5) (w : Nat) : Nat := (s.me.reg r).toNat % 2 ^ w

/-- AMO.add (R240, R285). -/
def execAmoAdd (d a b : BitVec 5) (z : BitVec 1) (s : State) : Out :=
  amo d a z (fun old => atomResult .add (sizeBits z) old (lowReg s b (sizeBits z)) 0) s

/-- AMO.and (R240, R285). -/
def execAmoAnd (d a b : BitVec 5) (z : BitVec 1) (s : State) : Out :=
  amo d a z (fun old => atomResult .and (sizeBits z) old (lowReg s b (sizeBits z)) 0) s

/-- AMO.or (R240, R285). -/
def execAmoOr (d a b : BitVec 5) (z : BitVec 1) (s : State) : Out :=
  amo d a z (fun old => atomResult .or (sizeBits z) old (lowReg s b (sizeBits z)) 0) s

/-- AMO.xor (R240, R285). -/
def execAmoXor (d a b : BitVec 5) (z : BitVec 1) (s : State) : Out :=
  amo d a z (fun old => atomResult .xor (sizeBits z) old (lowReg s b (sizeBits z)) 0) s

/-- AMO.smin (R240, R285). -/
def execAmoSmin (d a b : BitVec 5) (z : BitVec 1) (s : State) : Out :=
  amo d a z (fun old => atomResult .smin (sizeBits z) old (lowReg s b (sizeBits z)) 0) s

/-- AMO.smax (R240, R285). -/
def execAmoSmax (d a b : BitVec 5) (z : BitVec 1) (s : State) : Out :=
  amo d a z (fun old => atomResult .smax (sizeBits z) old (lowReg s b (sizeBits z)) 0) s

/-- AMO.umin (R240, R285). -/
def execAmoUmin (d a b : BitVec 5) (z : BitVec 1) (s : State) : Out :=
  amo d a z (fun old => atomResult .umin (sizeBits z) old (lowReg s b (sizeBits z)) 0) s

/-- AMO.umax (R240, R285). -/
def execAmoUmax (d a b : BitVec 5) (z : BitVec 1) (s : State) : Out :=
  amo d a z (fun old => atomResult .umax (sizeBits z) old (lowReg s b (sizeBits z)) 0) s

/-- AMO.swap (R240, R285). -/
def execAmoSwap (d a b : BitVec 5) (z : BitVec 1) (s : State) : Out :=
  amo d a z (fun old => atomResult .swap (sizeBits z) old (lowReg s b (sizeBits z)) 0) s

/-- AMO.fmax (R240, R285). -/
def execAmoFmax (d a b : BitVec 5) (z : BitVec 1) (s : State) : Out :=
  amo d a z (fun old => atomResult .fmax (sizeBits z) old (lowReg s b (sizeBits z)) 0) s

/-- AMO.addb, the bounded add (R241). (DEDUCED, log 50.) -/
def execAmoAddb (d a b c : BitVec 5) (z : BitVec 1) (s : State) : Out :=
  amo d a z (fun old => atomResult .addb (sizeBits z) old (lowReg s b (sizeBits z)) (lowReg s c (sizeBits z))) s

/-- CAS (R290). -/
def execCas (d a b c : BitVec 5) (z : BitVec 1) (s : State) : Out :=
  amo d a z (fun old => (if old = lowReg s b (sizeBits z) then lowReg s c (sizeBits z) else old, old)) s

/-! ## Posted stores -/

/-- Posted stores of a task that are not acknowledged. -/
def unacked (s : State) (tid : Nat) : List Posted := s.posted.filter fun p => p.tid == tid

/-- The effect of PST and PST.ord (R335): a path is chosen, the store is sent. -/
def post (i : Instr) (a b : BitVec 5) (z : BitVec 1) (ord : Bool) (s : State) : Out :=
  complete (do
    feature 6 i
    let w := sizeBits z
    let va := (s.me.reg a).toNat
    aligned (s.me.reg a) (w / 8)
    let l ← locate { s.who with path := .p } .write va
    let pa := match l with
      | .phys n => n
      | .frame _ _ _ => 0
    if 4096 ≤ (unacked s s.me.tid).length then throw .wait
    let k ← choose 4
    modS fun t =>
      let mine := (unacked t t.me.tid).filter fun p => p.pkg == pkgOfAddr pa && !p.performed
      let p : Posted :=
        { id := t.nextPosted, tid := t.me.tid, path := k, pkg := pkgOfAddr pa, loc := pa, size := w / 8,
          value := word (lowReg s b w), prior := if ord then mine.map (·.id) else [], performed := false }
      let x := t.me
      let path := BitVec.ofNat 2 k
      let n := x.paths[path.toNat]'(path.isLt)
      let u := { t with posted := t.posted ++ [p], nextPosted := t.nextPosted + 1 }
      u.setMe { x with paths := x.paths.set path.toNat { n with sent := n.sent + 1 } path.isLt }) s

/-- PST (R335). -/
def execPst (a b : BitVec 5) (z : BitVec 1) (s : State) : Out := post (.pst a b z) a b z false s

/-- PST.ord (R246, R335). -/
def execPstOrd (a b : BitVec 5) (z : BitVec 1) (s : State) : Out := post (.pstOrd a b z) a b z true s

end Sys2Proof.Machine
end

