-- ==== Sys2Proof/Machine/Sched.lean ====
section
/-! DEFINITION. The die scheduler (02_tasks_contexts_scheduler.md): enqueueing records, choosing the
next entry, starting a task, restoring one that was switched out. -/

namespace Sys2Proof.Machine

/-! ## Enqueueing (R29 to R31) -/

/-- The priority of a control word (R27). -/
def prioOf (ctrl : Word) : Nat := field ctrl.toNat 32 7

/-- The accesses that FV4 makes for a task on a context: task mode, path O; `waits` are the ticks counted for what they wait for (R158). -/
def fv4Who (c : Nat) (waits : List (Nat × Nat)) : Who :=
  { core := coreOf c, unit := .core, mode := .task, path := .o, ctx := c, sptroot := 0, waits := waits, since := 0 }

/-- The form of R26 and R27 that a record must have. -/
def recordForm (w : List Word) : Bool :=
  let g i := ((w[i]?).getD 0).toNat
  let aligned x n := x == 0 || (x % n == 0 && decide (x < 2 ^ 55))
  decide (g 0 < 2 ^ 55) && g 0 % 4 == 0 && !bit (g 2) 63 && aligned (g 3) 64 && aligned (g 5) 8 && aligned (g 7) 4096

/-- SCOPE and TARGET of a control word name a die by its number, 4 × package + die (R28): none when they are out of range. `home` is that of the enqueuing context, `pick` the die within a package under SCOPE 4. -/
def placeOf (ctrl : Word) (home pick : Nat) : Option Nat :=
  let t := field ctrl.toNat 47 16
  match field ctrl.toNat 43 4 with
  | 0 => if t = 0 then some home else none
  | 1 => if t < 256 then some (4 * (home / 4) + t / 64) else none
  | 2 => if t < 27648 then some (t / 16) else none
  | 3 => if t < 1728 then some t else none
  | 4 => if t < 432 then some (4 * t + pick) else none
  | _ => none

/-- The number of a die (R28). -/
def State.dieNumber (s : State) (d : Nat) : Nat := 4 * s.number (d / 4) + d % 4

/-- The die in which a package of the domain places a record (R28). -/
def State.dieFor (s : State) (p : Nat) (ctrl : Word) (home pick : Nat) : Option Nat :=
  (placeOf ctrl (s.dieNumber home) pick).bind fun n => (s.packageAt p (n / 4)).map fun q => 4 * q + n % 4

/-- Where a slot of a ring lies (R31), as a physical address. -/
def slotAddr (s : State) (d level slot : Nat) : Nat :=
  let q := s.die d
  (d / 4) * 2 ^ 48 + q.qbase.toNat + (level * 2 ^ q.qdepth.toNat + slot) * 64

/-- The slots of a level that hold an entry. -/
def ringCount (q : Die) (level : Nat) : Nat := (q.queued.filter fun e => e.1 == level).length

/-- The first free slot at or after the tail, wrapping (R31); `n` is the number of slots still to look at. -/
def freeSlot (q : Die) (level size at_ : Nat) : Nat → Nat
  | 0 => at_
  | n + 1 => if q.queued.contains (level, at_) then freeSlot q level size ((at_ + 1) % size) n else at_

/-- An entry is written into a ring (R31): a failing write corrupts the die's structures. -/
def State.pushEntry (s : State) (d level : Nat) (w : List Word) : State :=
  let q := s.die d
  let size := 2 ^ q.qdepth.toNat
  let slot := freeSlot q level size (tableGet q.tails level 0 % size) (min size (q.queued.length + 1))
  match putPhys s (d / 4) (slotAddr s d level slot) (bytesOfWords w) with
  | .error a => s.corrupt d a
  | .ok t => t.setDie d { t.die d with queued := q.queued ++ [(level, slot)], tails := tableSet q.tails level ((slot + 1) % size) }

/-- A record entry with the die's next sequence number (R30, R31). -/
def State.pushRecord (s : State) (d : Nat) (addr ctrl waddr wval : Word) : State :=
  let q := s.die d
  (s.setDie d { q with nextSeq := q.nextSeq + 1 }).pushEntry d (prioOf ctrl)
    [addr, ctrl, waddr, wval, q.nextSeq, 0, 0, 0]

/-- A resume entry keeps the sequence number of its original enqueue (R40). `area` is its save area's package-local address. Its word 3 is zero: the table of R31 excepts only word 2 for a resume entry and names no value that one would have read. (DEDUCED, log 29.) -/
def State.pushResume (s : State) (d : Nat) (area : Nat) (ctrl seq : Word) : State :=
  s.pushEntry d (prioOf ctrl) [word (area + 2 ^ 63), ctrl, 0, 0, seq, 0, 0, 0]

/-- The checks of R29 in their order: the die and the words of the record. `reserved` marks a re-run, which never finds a ring full (R31). -/
def checkRecord (who : Who) (addr : Word) (home : Nat) (reserved : Bool) : M (Nat × List Word) := do
  if addr.toNat % 64 ≠ 0 then trapM 0x010 addr
  if 2 ^ 55 ≤ addr.toNat then trapM 0x342 addr
  let r ← attempt (readVa who addr.toNat 64)
  let n ← match r with
    | .ok n => pure n
    | .error (.trap c _ i) => trapM c addr i
    | .error e => throw e
  let w := wordsOf 8 n
  let ctrl := (w[2]?).getD 0
  if !recordForm w then trapM 0x342 addr
  let pick ← if field ctrl.toNat 43 4 = 4 then choose 4 else pure 0
  let s ← getS
  match s.dieFor (pkgOfCore who.core) ctrl home pick with
  | none => trapM 0x342 addr
  | some d =>
    let q := s.die d
    if q.stopped || (!reserved && decide (2 ^ q.qdepth.toNat ≤ ringCount q (prioOf ctrl) + 256)) then trapM 0x345 addr
    return (d, w)

/-- Enqueueing a record (R29). -/
def enqueue (who : Who) (addr : Word) (home : Nat) (reserved : Bool) : M Unit := do
  let (d, w) ← checkRecord who addr home reserved
  modS fun s => s.pushRecord d addr ((w[2]?).getD 0) ((w[5]?).getD 0) ((w[6]?).getD 0)

/-! ## Choosing (R28, R33 to R36) -/

/-- The eight words of a queued entry. -/
def readQueued (s : State) (d : Nat) (e : Nat × Nat) : Except Nat QEntry :=
  match readPhys s (d / 4) (slotAddr s d e.1 e.2) 64 with
  | .ok n => .ok ⟨e.1, e.2, wordsOf 8 n⟩
  | .error a => .error a

/-- Word `i` of an entry. -/
def QEntry.w (e : QEntry) (i : Nat) : Word := (e.words[i]?).getD 0

/-- The entry keeps the layout of R31. -/
def QEntry.wellFormed (e : QEntry) : Bool :=
  field (e.w 0).toNat 55 8 == 0 && e.w 5 == 0 && e.w 6 == 0 && e.w 7 == 0 && prioOf (e.w 1) == e.level

/-- A resume entry (R31). -/
def QEntry.resume (e : QEntry) : Bool := (e.w 0).getLsbD 63

/-- The entries of a die, or the address of one that cannot be read or breaks the layout (R31, R266). -/
def readRings (s : State) (d : Nat) : List (Nat × Nat) → Except Nat (List QEntry)
  | [] => .ok []
  | e :: rest =>
    match readQueued s d e, readRings s d rest with
    | .error a, _ => .error a
    | _, .error a => .error a
    | .ok q, .ok qs => if q.wellFormed then .ok (q :: qs) else .error (slotAddr s d e.1 e.2)

/-- R28: the cores that may run a record on a die, with the placement of a core that is out of scheduling. -/
def mayRun (s : State) (d : Nat) (ctrl : Word) (k : Nat) : Bool :=
  let t := field ctrl.toNat 47 16
  let out k := (s.core k).out
  k / 64 == d && !out k &&
  match field ctrl.toNat 43 4 with
  | 1 =>
    let c := 256 * (d / 4) + t
    if !out c then k == c
    else if (span (4 * (c / 4)) 4).any (fun j => !out j) then k / 4 == c / 4 else true
  | 2 => k / 4 % 64 == t % 64
  | _ => true

/-- The save area that a resume entry names. (DEDUCED, log 29.) -/
def areaOfEntry (s : State) (d : Nat) (e : QEntry) : Area :=
  ⟨d, (field (e.w 0).toNat 0 55 - (s.die d).savebase.toNat) / 0x40000⟩

/-- The holding that a resume entry's context saved: [3:0] of its header's word 0 (R255). -/
def savedHeld (s : State) (d : Nat) (e : QEntry) : Nat :=
  field (memRead s.mem (areaBase s (areaOfEntry s d e)) 8) 0 4

/-- The lowest-numbered free save area of a die (R255). -/
def freeArea (q : Die) : Option Nat := (span 0 (q.areas.length + 1)).find? fun i => decide (i < q.savecount.toNat) && !q.areas.contains i

/-- The groups of a core that an entry may take: the free ones but those reserved for another entry (R38, R260). -/
def groupsFor (s : State) (k d : Nat) (seq : Word) : Nat :=
  freeGroups s k - (reservedGroups s k - (s.core k).reservedFor d seq)

/-- The groups that an entry needs to start (R33). -/
def groupsNeeded (s : State) (d : Nat) (e : QEntry) : Nat := if e.resume then savedHeld s d e else 1

/-- The wait condition of an entry, loaded when it is considered (R36). -/
def waitAnswer (s : State) (c : Nat) (waits : List (Nat × Nat)) (e : QEntry) : WaitAnswer :=
  if e.w 2 == 0 || e.resume then .yes
  else
    match (readVa (fv4Who c waits) (e.w 2).toNat 8).run s with
    | (.ok v, _) => if (e.w 3).toNat ≤ v then .yes else .no
    | (.error (.trap cause _ i), _) => .fault cause i.w4
    | (.error _, _) => .no

/-- What the loads of wait conditions wait for, or have waited for in vain (R158). -/
def waitKeys (s : State) (c : Nat) (waits : List (Nat × Nat)) (es : List QEntry) : List Nat :=
  es.flatMap fun (e : QEntry) =>
    if e.w 2 = 0#64 || e.resume then []
    else
      match (readVa (fv4Who c waits) (e.w 2).toNat 8).run s with
      | (.error (.waitOn ks), _) => ks
      | (.error (.trap 0x103 _ _), _) => [walkKey (e.w 2).toNat]
      | _ => []

/-- An entry's wait condition holds and, for a record, a save area is free (R33, R255). R35 asks for a free area of any entry that ages; a resume entry brings its own (R255) and needs none here either. (DEDUCED, log 30.) -/
def ready (s : State) (c d : Nat) (waits : List (Nat × Nat)) (e : QEntry) : Bool :=
  (e.resume || (freeArea (s.die d)).isSome) && waitAnswer s c waits e != .no

/-- Eligible and dispatchable for the context's own core (R33). -/
def dispatchable (s : State) (c d : Nat) (waits : List (Nat × Nat)) (e : QEntry) : Bool :=
  mayRun s d (e.w 1) (coreOf c) && decide (groupsNeeded s d e ≤ groupsFor s (coreOf c) d (e.w 4)) && ready s c d waits e

/-- Die-dispatchable (R35). -/
def dieDispatchable (s : State) (c d : Nat) (waits : List (Nat × Nat)) (e : QEntry) : Bool :=
  ready s c d waits e &&
  (span (64 * d) 64).any fun k => mayRun s d (e.w 1) k && decide (groupsNeeded s d e ≤ groupsFor s k d (e.w 4))

/-- The entry with the smallest sequence number. -/
def oldest (es : List QEntry) : Option QEntry := leastBy (fun e => (e.w 4).toNat) es

/-- The aged candidate (R35): the oldest die-dispatchable entry below the highest level that holds one. -/
def agedCandidate (es : List QEntry) : Option QEntry :=
  let top := (es.map (·.level)).foldl max 0
  oldest (es.filter fun e => decide (e.level < top))

/-- The choice of R34 for an idle context: the entry and whether it is an aged pop. -/
def selectEntry (s : State) (c : Nat) (waits : List (Nat × Nat)) (es : List QEntry) : Option (QEntry × Bool) :=
  let d := dieOf c
  let q := s.die d
  let mine := es.filter (dispatchable s c d waits)
  let top := (mine.map (·.level)).foldl max 0
  let normal := (oldest (mine.filter fun e => e.level == top)).map fun e => (e, false)
  if q.ageN ≠ 0 && decide (q.ageN.toNat ≤ q.pops) then
    match agedCandidate (es.filter (dieDispatchable s c d waits)) with
    | some e => if mine.contains e then some (e, true) else normal
    | none => normal
  else normal

/-! ## Starting a task (R37, R38, R424) -/

/-- The head of a ring after a slot has left: past the slots that hold no entry, to the tail at most (R31). `fuel` is the number of slots that may be passed. (DEDUCED, log 30.) -/
def nextHead' (q : Die) (level size at_ : Nat) : Nat → Nat
  | 0 => at_
  | fuel + 1 =>
    if q.queued.contains (level, at_) || at_ == tableGet q.tails level 0 then at_
    else nextHead' q level size ((at_ + 1) % size) fuel

/-- The entry leaves its ring: word 5 becomes 1 (R31); the pop is counted (R35). Pops made while AGE_N = 0 leave the counter as it is: R35 counts under AGE_N ≥ 1. With `keep` the entry of a corrupted die stays as it is, to start once more (R266). (DEDUCED, log 30.) -/
def State.popEntry (s : State) (d : Nat) (e : QEntry) (aged keep : Bool) : State :=
  let q := s.die d
  let pops := if q.ageN = 0 then q.pops else if aged then 0 else q.pops + 1
  if keep then s.setDie d { q with pops := pops } else
  let left := { q with pops := pops, queued := q.queued.erase (e.level, e.slot) }
  let size := 2 ^ q.qdepth.toNat
  let head := nextHead' left e.level size (tableGet q.heads e.level 0 % size) size
  let t := s.setDie d { left with heads := tableSet q.heads e.level head }
  match putPhys t (d / 4) (slotAddr s d e.level e.slot + 40) (bytesOf 8 1) with
  | .ok u => u
  | .error a => t.corrupt d a

/-- One word of a record read at the start (R424): its value, or zero with the cause of the fault and words 3 and 4 of its record (R161). -/
def startWord (who : Who) (addr : Nat) : M (Word × Option (BitVec 10 × Word × Word)) := do
  let r ← attempt (readVa who addr 8)
  match r with
  | .ok n => return (word n, none)
  | .error (.trap c _ i) => return (0, some (c, if i.w3 = 0 then word addr else i.w3, i.w4))
  | .error e => throw e

/-- The registers of a context at the start of a record (R37, R59, R251). Bits [1:0] and [63:55] of a word 0 that was changed after its enqueue are dropped: the program counter holds none of them (R49). (DEDUCED, log 27.) -/
def Ctx.started (x : Ctx) (w0 w1 rec w3 w4 w7 : Word) : Ctx :=
  { x with
    life := .running, mode := .task, pc := word (w0.toNat % 2 ^ 55 / 4 * 4),
    s := ((((Vector.replicate 32 (0 : Word)).set 1 w1).set 2 rec).set 3 w3),
    v := Vector.replicate 32 0, tag := Vector.replicate 32 .unset, hdr := Vector.replicate 32 0,
    sup := Vector.replicate 32 0, m := Vector.replicate 8 0, vl := 0, vcfg := 0, vstart := 0, vfm := 0, mfmt := 0,
    fflags := 0, rptpos := 0, paths := Vector.replicate 4 ⟨0, 0⟩, budget := w4, budget0 := w4, sptroot := w7,
    forced := false, abandon := false, record := rec, parent := w3, lost := false, due := none, switch := false,
    lowered := none, cut := none, stopInfo := none, waited := none, vdone := 0, stall := [], rpt := [],
    ending := false, looping := false, cmds := Vector.replicate 8 none, chans := Vector.replicate 16 none, vstores := [],
    drained := [], delayed := [], late := [], vAfter := 0, sAfter := 0, fences := [], quota := none, adone := 0, busy := false,
    prefetched := [], hbar := none }

/-- The pre-emption in progress on a core serves this entry. -/
def servesEntry (k : Core) (d : Nat) (seq : Word) : Option Preempt :=
  match k.preempt with
  | some p => if p.die == d && p.seq == seq then some p else none
  | none => none

/-- An entry starts in a context: the pre-emption on that core that serves it is over; one on another core goes on until its victim has left or met its VSETL.r, but for no entry (R39, R260). The victim's lowered ceiling is tied to the new task, and reservations for the entry lapse. (DEDUCED, log 49.) -/
def State.claim (s : State) (c d : Nat) (seq : Word) (tid : Nat) : State :=
  let ctxs := s.ctxs.map fun (e : Nat × Ctx) =>
    match servesEntry (s.core (coreOf e.1)) d seq, e.2.cut with
    | some p, some (v, none) => if p.victim == e.1 then (e.1, { e.2 with cut := some (v, some tid) }) else e
    | _, _ => e
  let cores := s.cores.map fun (e : Nat × Core) =>
    match servesEntry e.2 d seq with
    | some p => (e.1, { e.2 with preempt := if e.1 = coreOf c then none else some { p with need := 0 } }.reserveFor d seq 0)
    | none => (e.1, e.2.reserveFor d seq 0)
  { s with ctxs := ctxs, cores := cores }

/-- The causes that a start leaves for the first boundary: a record word that could not be read, then an unreadable wait word (R36, R424). (DEDUCED, log 27.) -/
def startCauses (pc rec' wait : Word) (unread : Option (BitVec 10 × Word × Word)) (answer : WaitAnswer) : List Pending :=
  (match unread with
   | some (cause, at_, entry) => [⟨0x346, rec', [pc, cause.zeroExtend 64, at_, entry], false⟩]
   | none => []) ++
  (match answer with
   | .fault cause entry => [⟨0x343, wait, [pc, cause.zeroExtend 64, wait, entry], false⟩]
   | _ => [])

/-- A record entry starts in an idle context (R37, R38, R255, R424). (DEDUCED, log 27.) -/
def startRecord (c d : Nat) (waits : List (Nat × Nat)) (e : QEntry) : M Unit := do
  let who := fv4Who c waits
  let rec' := word (field (e.w 0).toNat 0 55)
  let a := rec'.toNat
  let (w0, f0) ← startWord who a
  let (w1, f1) ← startWord who (a + 8)
  let (w3, f3) ← startWord who (a + 24)
  let (w4, f4) ← startWord who (a + 32)
  let (w7, f7) ← startWord who (a + 56)
  let s ← getS
  let answer := waitAnswer s c waits e
  let area := (freeArea (s.die d)).map fun i => (⟨d, i⟩ : Area)
  let ceil := requestCeil s (pkgOf c) (e.w 1)
  let held := power8 (min ceil (groupsFor s (coreOf c) d (e.w 4)))
  let tid := s.nextTid
  modS fun s =>
    let s := { s with nextTid := tid + 1 }
    let s := s.setDie d { s.die d with areas := (s.die d).areas ++ (area.map (·.index)).toList }
    let x := (s.ctx c).started w0 w1 rec' w3 w4 w7
    let causes := startCauses x.pc rec' (e.w 2) ([f0, f1, f3, f4, f7].findSome? id) answer
    let s := s.setCtx c { x with
      ctrl := e.w 1, seq := e.w 4, home := d, area := area, tid := tid, held := held, ceil := ceil,
      pending := x.pending ++ causes }
    s.claim c d (e.w 4) tid

/-! ## Restoring a task that was switched out (R255, R257, R258, R229) -/

/-- The tag of a code (R52). -/
def tagOfCode (n : Nat) : Tag :=
  match n with
  | 1 => .i8
  | 2 => .i16
  | 3 => .i32
  | 4 => .i64
  | 5 => .bf16
  | 6 => .fp16
  | 7 => .fp32
  | 8 => .fp64
  | 9 => .sb4
  | 10 => .sb8
  | _ => .unset

/-- The code of a tag (R52). -/
def Tag.code : Tag → Nat
  | .unset => 0
  | .i8 => 1
  | .i16 => 2
  | .i32 => 3
  | .i64 => 4
  | .bf16 => 5
  | .fp16 => 6
  | .fp32 => 7
  | .fp64 => 8
  | .sb4 => 9
  | .sb8 => 10

/-- A command record of a save area (R257): none unless VALID with a kind of 0 to 4. What the restored command reads stands now or, for a source, as it is kept. -/
def commandOfRecord (w : List Word) (clock : Nat) : Option Command :=
  let g i := (w[i]?).getD 0
  if !(g 0).getLsbD 8 then none
  else (kindOfCode (field (g 0).toNat 0 3)).map fun k =>
    { Command.new k (g 2) (g 3) (g 4) (g 5) (g 6) 0 clock with pos := (g 1).toNat }

/-- A vector of 32 built from its entries. -/
def build32 {α : Type} (f : Nat → α) : Vector α 32 := Vector.ofFn fun i => f i.val

/-- The context that a save area describes (R255); `get off n` reads its bytes. -/
def restoreCtx (x : Ctx) (p : Parked) (clock : Nat) (get : Nat → Nat → Nat) : Ctx :=
  let h i := word (get (8 * i) 8)
  let w0 := get 0 8
  let held := field w0 0 4
  let pairs := field (get (8 * 33) 8) 0 4
  { x with
      life := .running, mode := .task, pc := word ((h 1).toNat % 2 ^ 55 / 4 * 4),
      s := build32 fun i => if i = 0 then 0 else word (get (0x300 + 8 * i) 8),
      v := build32 fun i => BitVec.ofNat 8192 (get (0x2000 + 1024 * i) (128 * held)),
      tag := build32 fun i => tagOfCode (get (0x800 + i) 1),
      hdr := build32 fun i => BitVec.ofNat 512 (get (0x1000 + 64 * i) (8 * held)),
      sup := build32 fun i => BitVec.ofNat 256 (get (0x1800 + 32 * i) (4 * held)),
      m := Vector.ofFn fun i => BitVec.ofNat 1024 (get (0xC00 + 128 * i.val) 128),
      held := held, ceil := field w0 4 4, vl := (h 4).setWidth 11, vcfg := (h 5).setWidth 7, vstart := (h 6).setWidth 11,
      vfm := BitVec.ofNat 1024 (get (8 * 17) 128), mfmt := (h 7).setWidth 10, fflags := (h 8).setWidth 5, rptpos := h 9 &&& 0x8000000000003FFF#64,
      paths := Vector.ofFn fun i => ⟨BitVec.ofNat 32 (get (8 * (13 + i.val) + 4) 4), BitVec.ofNat 32 (get (8 * (13 + i.val)) 4)⟩,
      budget := h 10, sptroot := h 11, record := h 2, parent := h 3, ctrl := p.ctrl, budget0 := p.budget0, seq := p.seq,
      home := p.home, area := some p.area, tid := p.tid, forced := false, abandon := false,
      pending := x.pending ++ (span 0 pairs).map fun i =>
        ⟨BitVec.ofNat 10 (get (8 * (34 + 2 * i)) 8), h (35 + 2 * i),
         wordsOf 4 (get (0x880 + 32 * i) 32), false⟩,
      lost := bit (get (8 * 33) 8) 63, due := p.due, switch := false, lowered := none, cut := none, stopInfo := none,
      waited := none, vdone := 0, stall := [], rpt := [], ending := false, looping := false, drained := [], delayed := [], late := [], vAfter := 0,
      sAfter := 0, fences := [], quota := none, adone := 0, busy := false,
      cmds := Vector.ofFn fun i => commandOfRecord (wordsOf 8 (get (0x400 + 64 * i.val) 64)) clock,
      chans := Vector.ofFn fun i =>
        let a := get (0x600 + 32 * i.val) 8
        if bit a 32 then some (field a 0 17, word (get (0x608 + 32 * i.val) 8)) else none,
      vstores := [], prefetched := [], hbar := p.hbar }

/-- The matrix unit that a save area describes (R229, R255). -/
def restoreUnit (c : Nat) (get : Nat → Nat → Nat) : MatrixUnit :=
  let w0 := get 0 8
  let sh := get (8 * 12) 8
  { holder := some c
    shape := ⟨field sh 24 8, field sh 16 8, field sh 0 11, BitVec.ofNat 3 (field sh 32 3)⟩
    tiles := Vector.ofFn fun i =>
      if bit w0 (8 + i.val) then ⟨tagOfCode (get (0x820 + i.val) 1), BitVec.ofNat 131072 (get (0x10000 + 0x4000 * i.val) 0x4000)⟩
      else Tile.empty
    bufs := Vector.ofFn fun i =>
      if bit w0 (16 + i.val) then
        let e := get (0x840 + 8 * i.val) 8
        ⟨tagOfCode (get (0x828 + i.val) 1), BitVec.ofNat 262144 (get (0x30000 + 0x8000 * i.val) 0x8000),
         BitVec.ofNat 32768 (get (0xA000 + 0x1000 * i.val) 0x1000), field e 0 11, field e 16 8⟩
      else Buffer.empty }

/-- Whether a save area says that the matrix unit was held (R255). -/
def savedUnit (s : State) (a : Area) : Bool := bit (memRead s.mem (areaBase s a) 8) 18

/-- The ranges of a save area that a resume reads besides its header (R255): the held groups, and the contents of the matrix unit that are saved. -/
def restoredRanges (w0 pairs : Nat) : List (Nat × Nat) :=
  let h := field w0 0 4
  let per (base step len : Nat) := (span 0 32).map fun i => (base + step * i, len)
  [(0x300, 256), (0x400, 512), (0x600, 512), (0x800, 64), (0x880, 32 * pairs), (0xC00, 1024)] ++
  per 0x1000 64 (8 * h) ++ per 0x1800 32 (4 * h) ++ per 0x2000 1024 (128 * h) ++
  (if bit w0 18 then
    ((span 0 8).filter fun i => bit w0 (8 + i)).map (fun i => (0x10000 + 0x4000 * i, 0x4000)) ++
    ((span 0 2).filter fun i => bit w0 (16 + i)).flatMap fun i => [(0x840 + 8 * i, 8), (0x30000 + 0x8000 * i, 0x8000), (0xA000 + 0x1000 * i, 0x1000)]
   else [])

/-- The first address that a resume needs of a save area and cannot read (R255). -/
def badArea (s : State) (a : Area) : Option Nat :=
  let base := areaBase s a
  let p := a.die / 4
  match badLine s p base 512 false with
  | some bad => some bad
  | none =>
    (restoredRanges (memRead s.mem base 8) (field (memRead s.mem (base + 8 * 33) 8) 0 4)).findSome? fun r =>
      if r.2 = 0 then none else badLine s p (base + r.1) r.2 false

/-- Taking the matrix unit again (R229): it is given if nobody holds it. -/
def State.acquireUnit (s : State) (c : Nat) : State :=
  let k := coreOf c
  match (s.ctx c).area with
  | none => s
  | some a =>
    if (s.core k).mu.holder.isSome then s
    else
      match badArea s a with
      | some bad => s.loseTask c bad
      | none =>
        let get off n := memRead s.mem (areaBase s a + off) n
        let s := s.setCore k { s.core k with mu := restoreUnit c get }
        s.setCtx c { s.ctx c with life := .running }

/-- What is kept of a command's source serves the restored command, as it stands if software has changed words 1 to 5 of its record; nothing is kept for a slot that restores no such command (R257). (DEDUCED, log 33.) -/
def Source.resume (x : Source) (record : List Word) : Source :=
  { x with words := [], loose := (record.drop 1).take 5 != x.words }

/-- The sources of a resumed task's commands. (DEDUCED, log 33.) -/
def State.resumeSources (s : State) (c : Nat) (get : Nat → Nat → Nat) : State :=
  (span 0 8).foldl (fun t i =>
    match t.command c (BitVec.ofNat 3 i) with
    | some k =>
      if !k.kind.moves then t.dropSource (t.ctx c).tid i
      else if (t.source c (BitVec.ofNat 3 i)).isNone then t.keepSource (t.ctx c).tid i
      else
        { t with sources := t.sources.map fun x =>
            if x.tid == (t.ctx c).tid && x.slot == i then x.resume (wordsOf 8 (get (0x400 + 64 * i) 64)) else x }
    | none => t.dropSource (t.ctx c).tid i) s

/-- A resume entry starts (R258): everything saved is restored; an area that cannot be read loses the task (R255). With `keep` the entry may start once more (R266). -/
def startResume (c d : Nat) (e : QEntry) (keep : Bool) : M Unit := modS fun s =>
  let a := areaOfEntry s d e
  match s.parked.find? fun p => p.area == a with
  | none => s
  | some p =>
    let get off n := memRead s.mem (areaBase s a + off) n
    let s := { s with parked := s.parked.filter fun q => keep || q.area != a, clock := s.clock + 1 }
    match badArea s a with
    | some bad =>
      (s.setCtx c { s.ctx c with area := some a, record := word (get 16 8), tid := p.tid, life := .running }).loseTask c bad
    | none =>
      let s := s.setCtx c (restoreCtx (s.ctx c) p s.clock get)
      let s := (s.resumeSources c get).claim c d (e.w 4) p.tid
      if savedUnit s a then (s.setCtx c { s.ctx c with life := .acquiring }).acquireUnit c else s

/-- The ticks that a die counts for the loads of wait conditions and for other accesses of a selection (R158). -/
def State.dieWaits (s : State) (c : Nat) (more : List Nat) : State :=
  let d := dieOf c
  let q := s.die d
  let keys := match readRings s d q.queued with
    | .ok es => waitKeys s c q.stall es
    | .error _ => []
  s.setDie d { q with stall := waitsFor q.stall (keys ++ more) }

/-- ENTRY_SELECTION (R34): an idle context of a die that dispatches takes the entry that R34 selects, and the task starts; no core has left reset before the firmware is accepted (R269). On a die whose structures are corrupted an entry may start, not start, or start and stay (R266). (DEDUCED, log 30.) -/
def selection (c : Nat) : M Unit := do
  let s ← getS
  let d := dieOf c
  let q := s.die d
  let p := s.pkg (pkgOf c)
  if (s.ctx c).life != .idle || (s.core (coreOf c)).out || q.stopped || p.dispatchOff || p.off || !p.trust.verified then pure ()
  else
    match readRings s d q.queued with
    | .error a => modS fun s => s.corrupt d a
    | .ok es =>
      modS fun s => s.dieWaits c []
      match selectEntry s c q.stall es with
      | none => pure ()
      | some (e, aged) =>
        let fate ← if q.corrupted then choose 3 else pure 1
        if fate = 0 then pure ()
        else
          modS fun s => s.popEntry d e aged (fate == 2)
          if e.resume then startResume c d e (fate == 2) else startRecord c d q.stall e

/-- The selection of a context; a start whose reads wait is made again, and their ticks are counted (R158). (DESIGN CHOICE, log 5.) -/
def State.select (s : State) (c : Nat) : State :=
  match (selection c).run s with
  | (.ok _, t) => t
  | (.error (.waitOn ks), _) => s.dieWaits c ks
  | (.error _, _) => s

end Sys2Proof.Machine
end

