-- ==== Sys2Proof/Machine/Control.lean ====
section
/-! DEFINITION. Branches and jumps (R288, R317 to R319), TRAP, BRK and ERET (R252, R253, R289, R304, R305, R353). -/

namespace Sys2Proof.Machine

/-- Going to a target (R49): a target that breaks the form of the program counter raises 0x010 with the target, and `link` is written only when it does not. -/
def jumpTo (t : Word) (link : Ctx → Ctx) (s : State) : Out :=
  if goodPc t then .next (s.setMe { (link s.me).advance with pc := t }) else .next (s.trapNow 0x010 t noInfo)

/-- A conditional branch (R288): the target is checked only when it is taken. -/
def branch (taken : Word → Word → Bool) (a b : BitVec 5) (o : BitVec 16) (s : State) : Out :=
  if taken (s.me.reg a) (s.me.reg b) then jumpTo (s.me.pc + (o.signExtend 64 <<< 2)) id s
  else .next (s.setMe s.me.advance)

/-- BEQ (R288). -/
def execBeq (a b : BitVec 5) (o : BitVec 16) (s : State) : Out := branch (fun x y => x == y) a b o s

/-- BNE (R288). -/
def execBne (a b : BitVec 5) (o : BitVec 16) (s : State) : Out := branch (fun x y => x != y) a b o s

/-- BLT (R288). -/
def execBlt (a b : BitVec 5) (o : BitVec 16) (s : State) : Out := branch (fun x y => x.slt y) a b o s

/-- BGE (R288). -/
def execBge (a b : BitVec 5) (o : BitVec 16) (s : State) : Out := branch (fun x y => !x.slt y) a b o s

/-- BLTU (R288). -/
def execBltu (a b : BitVec 5) (o : BitVec 16) (s : State) : Out := branch (fun x y => x.ult y) a b o s

/-- BGEU (R288). -/
def execBgeu (a b : BitVec 5) (o : BitVec 16) (s : State) : Out := branch (fun x y => !x.ult y) a b o s

/-- JAL (R317). -/
def execJal (d : BitVec 5) (o : BitVec 21) (s : State) : Out :=
  jumpTo (s.me.pc + (o.signExtend 64 <<< 2)) (fun x => x.setReg d (s.me.pc + 4)) s

/-- JALR (R319): s[a] is read before d is written. -/
def execJalr (d a : BitVec 5) (i : BitVec 16) (s : State) : Out :=
  jumpTo (s.me.reg a + i.signExtend 64) (fun x => x.setReg d (s.me.pc + 4)) s

/-- TRAP (R353): counts as completed, returns to the next instruction. (DEDUCED, log 52.) -/
def execTrap (a : BitVec 5) (n : BitVec 6) (s : State) : Out :=
  .next (s.takeTrap s.cur (0x3C0#10 + n.setWidth 10) (s.me.reg a) s.me.pc noInfo false true)

/-- BRK (R289): TEPC holds the address of the BRK. (DEDUCED, log 52.) -/
def execBrk (n : BitVec 10) (s : State) : Out := .next (s.trapNow 0x005 (n.setWidth 64) noInfo)

/-- ERET (R253, R304, R305). -/
def execEret (s : State) : Out :=
  if s.me.mode == .task then .next (s.trapNow 0x003 (instrWord .eret) noInfo)
  else if !s.me.abandon && slice s.me.svcfg 2 2 == 3#2 then .next (s.trapNow 0x002 (instrWord .eret) noInfo)
  else if !s.me.abandon && !goodPc s.me.tepc then .next (s.trapNow 0x010 s.me.tepc noInfo)
  else .next (s.eret s.cur)

end Sys2Proof.Machine
end

