-- ==== Sys2Proof/Machine/System.lean ====
section
/-! DEFINITION. Control registers (R58 to R64, R251, R255, R278, R300, R301), fences (R170, R172, R311, R312,
R316, R348), TLBINV (R157, R351, R352), STFLUSH and STINV (R148 to R150, R347). -/

namespace Sys2Proof.Machine

/-! ## Control registers -/

/-- Access classes (R58). -/
inductive CsrClass where
  | ro | rw | sw | s
  deriving DecidableEq, Repr

/-- The class of a register number (R59, R60, R255, R278); none for an unassigned number. -/
def csrClass (n : Nat) : Option CsrClass :=
  match n with
  | 0x000 => some .sw
  | 0x001 => some .rw
  | 0x002 => some .sw
  | 0x004 => some .rw
  | 0x005 => some .rw
  | 0x006 => some .sw
  | 0x030 => some .ro
  | 0x031 => some .ro
  | 0x032 => some .ro
  | 0x033 => some .ro
  | 0x034 => some .sw
  | 0x080 => some .ro
  | 0x081 => some .ro
  | 0x082 => some .sw
  | 0x083 => some .s
  | 0x084 => some .sw
  | 0x085 => some .sw
  | 0x0C0 => some .sw
  | 0x0C1 => some .s
  | 0x0C2 => some .s
  | 0x0C3 => some .sw
  | 0x0C4 => some .sw
  | 0x0C5 => some .s
  | 0x0C6 => some .s
  | _ =>
    if 0x010 ≤ n && n ≤ 0x01F then some .sw
    else if 0x020 ≤ n && n ≤ 0x023 then some .ro
    else if 0x040 ≤ n && n ≤ 0x045 then some .s
    else if 0x090 ≤ n && n ≤ 0x094 then some .ro
    else none

/-- POWERLIMIT as applied (R277). -/
def limitApplied (p : Pkg) : Nat := max 500 (min 3400 (field p.powerlimit.toNat 0 12))

/-- A package-scope register; THROT says that the arithmetic clock is lowered, for heat or for power (R59, R63, R278). (DESIGN CHOICE, log 43.) -/
def pkgReg (p : Pkg) (n : Nat) : Option Word :=
  match n with
  | 0x080 => some 0xFFF
  | 0x081 => some 0
  | 0x082 => some (p.enable.setWidth 64)
  | 0x083 => some p.ptroot
  | 0x084 => some (p.walkLimit.setWidth 64)
  | 0x085 => some (p.exchLimit.setWidth 64)
  | 0x090 => some (word (limitApplied p * 2 ^ 8 + p.ceil))
  | 0x091 => some (word (p.tj.toNat + (if p.throt || p.clockLow then 2 ^ 12 else 0)))
  | 0x094 => some (word (p.eccHbm.toNat * 2 ^ 32 + p.eccSram.toNat))
  | _ => none

/-- A die-scope register (R59, R255). (DESIGN CHOICE, log 53.) -/
def dieReg (d : Die) (n : Nat) : Option Word :=
  match n with
  | 0x0C0 => some (d.ageN.setWidth 64)
  | 0x0C1 => some d.qbase
  | 0x0C2 => some (d.qdepth.setWidth 64)
  | 0x0C3 => some (d.reclaimLimit.setWidth 64)
  | 0x0C4 => some (d.vslip.setWidth 64)
  | 0x0C5 => some d.savebase
  | 0x0C6 => some (d.savecount.setWidth 64)
  | _ => none

/-- TSTATUS as a word (R251). -/
def Ctx.tstatus (x : Ctx) : Word :=
  word (x.svcfg.toNat * 2 ^ 27 + x.svl.toNat * 2 ^ 16 + flag x.forced * 16 + flag x.abandon * 8)

/-- A context-scope register (R59 to R64, R251), but for CTXID. -/
def ctxReg (x : Ctx) (n : Nat) : Word :=
  match n with
  | 0x000 => x.vl.setWidth 64
  | 0x001 => x.vcfg.setWidth 64
  | 0x002 => x.vstart.setWidth 64
  | 0x004 => x.mfmt.setWidth 64
  | 0x005 => x.fflags.setWidth 64
  | 0x006 => x.rptpos
  | 0x031 => word (x.held + 16 * x.ceil)
  | 0x033 => x.budget
  | 0x034 => x.sptroot
  | 0x040 => x.tvec
  | 0x041 => x.tstatus
  | 0x042 => x.tepc
  | 0x043 => word (x.cause.toNat + (if x.async then 2 ^ 16 else 0))
  | 0x044 => x.tinfo
  | 0x045 => x.tscratch
  | _ =>
    if 0x010 ≤ n && n ≤ 0x01F then slice x.vfm (64 * (n - 0x010)) 64
    else if 0x020 ≤ n && n ≤ 0x023 then
      let k := BitVec.ofNat 2 (n - 0x020)
      let p := x.paths[k.toNat]'(k.isLt)
      word (p.sent.toNat * 2 ^ 32 + p.acked.toNat)
    else 0

/-- A control register as a context reads it. -/
def csrValue (s : State) (n : Nat) : Word :=
  match pkgReg s.myPkg n, dieReg (s.die (dieOf s.cur)) n with
  | some v, _ => v
  | none, some v => v
  | none, none =>
    if n = 0x030 then word (s.ctxNumber s.cur)
    else if n = 0x032 then s.ticks
    else if n = 0x092 then (Config.railVoltage (pkgOf s.cur) s.ticks).setWidth 64
    else if n = 0x093 then (Config.oscillator (pkgOf s.cur) s.ticks).setWidth 64
    else ctxReg s.me n

/-- A package-scope register written (R59): the fields that are kept. Bits of PTROOT that its alignment and R19 leave no use for are dropped. (DESIGN CHOICE, log 67.) -/
def setPkgReg (p : Pkg) (n : Nat) (v : Word) : Pkg :=
  match n with
  | 0x082 => { p with enable := v.setWidth 12 }
  | 0x083 => { p with ptroot := v &&& 0x01FFFFFFFFFF0000#64 }
  | 0x084 => { p with walkLimit := v.setWidth 32 }
  | 0x085 => { p with exchLimit := v.setWidth 32 }
  | _ => p

/-- A die-scope register written (R59, R255); none for a QDEPTH outside 9 to 16. A write of the queue or save-area registers while they are in use counts as corruption that FV4 does not detect (R266). (DEDUCED, log 30.) -/
def setDieReg (d : Die) (n : Nat) (v : Word) : Option Die :=
  match n with
  | 0x0C0 => some { d with ageN := v.setWidth 16 }
  | 0x0C1 => some { d with qbase := v &&& 0x0000FFFFFFFF0000#64, corrupted := d.corrupted || !d.queued.isEmpty }
  | 0x0C2 =>
    let q := v.setWidth 5
    if 9 ≤ q.toNat && q.toNat ≤ 16 then some { d with qdepth := q, corrupted := d.corrupted || !d.queued.isEmpty } else none
  | 0x0C3 => some { d with reclaimLimit := v.setWidth 32 }
  | 0x0C4 => some { d with vslip := v.setWidth 4 }
  | 0x0C5 => some { d with savebase := v &&& 0x0000FFFFFFFF0000#64, corrupted := d.corrupted || !d.areas.isEmpty }
  | 0x0C6 => some { d with savecount := v.setWidth 16, corrupted := d.corrupted || !d.areas.isEmpty }
  | _ => some d

/-- A context-scope register written (R57, R60 to R64, R251, R301); none when a kept field holds a reserved encoding. -/
def setCtxReg (x : Ctx) (n : Nat) (v : Word) : Option Ctx :=
  match n with
  | 0x000 => some { x with vl := BitVec.ofNat 11 (min (v.toNat % 2 ^ 11) (vlmaxAt (slice x.vcfg 0 2) x.held)) }
  | 0x001 =>
    if x.mode == .task then some { x with vcfg := (v.setWidth 7 &&& 0x70#7) ||| (x.vcfg &&& 0x0F#7) }
    else if slice v 2 2 == 3#2 then none
    else some { x with vcfg := v.setWidth 7 }
  | 0x002 => some { x with vstart := v.setWidth 11 }
  | 0x004 => if slice v 8 2 == 3#2 || 0x0B ≤ field v.toNat 0 5 then none else some { x with mfmt := v.setWidth 10 }
  | 0x005 => some { x with fflags := v.setWidth 5 }
  | 0x006 => some { x with rptpos := v &&& 0x8000000000003FFF#64 }
  | 0x034 => some { x with sptroot := v }
  | 0x040 => some { x with tvec := v &&& 0x007FFFFFFFFFFFFC#64 }
  | 0x041 =>
    some { x with svcfg := slice v 27 7, svl := slice v 16 11, abandon := if x.forced then x.abandon else v.getLsbD 3 }
  | 0x042 => some { x with tepc := v }
  | 0x045 => some { x with tscratch := v }
  | _ => if 0x010 ≤ n && n ≤ 0x01F then some { x with vfm := splice x.vfm (64 * (n - 0x010)) 64 v.toNat } else some x

/-- A control register written by the context whose turn it is; none for a reserved encoding. A write of SPTROOT drops the resident entries that the context caches (R139). (DESIGN CHOICE, log 17.) -/
def setCsr (s : State) (n : Nat) (v : Word) : Option State :=
  if (pkgReg s.myPkg n).isSome then some (s.setPkg (pkgOf s.cur) (setPkgReg s.myPkg n v))
  else if (dieReg (s.die (dieOf s.cur)) n).isSome then
    (setDieReg (s.die (dieOf s.cur)) n v).map fun d => s.setDie (dieOf s.cur) d
  else
    let t := if n == 0x034 then { s with spt := s.spt.filter fun p => p.ctx != s.cur } else s
    (setCtxReg s.me n v).map t.setMe

/-- The access checks of R58, made at step 3 of R73: none, or the cause. -/
def csrRefused (mode : Mode) (n : Nat) (writes : Bool) : Option (BitVec 10) :=
  match csrClass n with
  | none => some 0x001
  | some .ro => if writes then some 0x001 else none
  | some .rw => none
  | some .sw => if writes && mode == .task then some 0x003 else none
  | some .s => if mode == .task then some 0x003 else none

/-- The effect of R301: `new` is the value written, if any. -/
def csrAccess (i : Instr) (d : BitVec 5) (n : BitVec 10) (new : Option Word) (s : State) : Out :=
  match csrRefused s.me.mode n.toNat new.isSome with
  | some cause => .next (s.trapNow cause (instrWord i) noInfo)
  | none =>
    let old := csrValue s n.toNat
    match (match new with | none => some s | some v => setCsr s n.toNat v) with
    | none => .next (s.trapNow 0x002 (instrWord i) noInfo)
    | some t => .next (t.setMe (t.me.setReg d old).advance)

/-- CSRR (R301). -/
def execCsrr (d : BitVec 5) (n : BitVec 10) (s : State) : Out := csrAccess (.csrr d n) d n none s

/-- CSRW (R301). -/
def execCsrw (d a : BitVec 5) (n : BitVec 10) (s : State) : Out := csrAccess (.csrw d a n) d n (some (s.me.reg a)) s

/-- CSRSET (R300, R301): a zero a field only reads. -/
def execCsrset (d a : BitVec 5) (n : BitVec 10) (s : State) : Out :=
  csrAccess (.csrset d a n) d n (if a = 0#5 then none else some (csrValue s n.toNat ||| s.me.reg a)) s

/-- CSRCLR (R300, R301). -/
def execCsrclr (d a : BitVec 5) (n : BitVec 10) (s : State) : Out :=
  csrAccess (.csrclr d a n) d n (if a = 0#5 then none else some (csrValue s n.toNat &&& ~~~(s.me.reg a))) s

/-! ## Fences -/

/-- The port has still to read records of an operation, as far as what it has read tells (R172). -/
def SendOp.unread (op : SendOp) : Bool :=
  match op.kind with
  | .xsend _ c done => decide (done < c.toNat)
  | .xsendM _ _ _ rest => rest
  | .xend => false

/-! What a send port can do next without the fabric taking a record is read off the leaf of its slot. -/

/-- The input counts as ended for the point's round: an end mark has come, or no sender behind it takes part. -/
def MergeInput.isEnded (i : MergeInput) : Bool := i.ended.isSome || decide (0 < i.skip) || i.gone

/-- The input can take an end mark. -/
def MergeInput.acceptsEnd (i : MergeInput) : Bool := !i.isEnded

/-- The leaf of a slot. -/
def isLeafOf (core : Nat) (p : MergePoint) : Bool := p.node == .leaf core

/-- Nothing is left in an input and nothing more will come. -/
def MergeInput.dead (i : MergeInput) : Bool := i.gone && i.head.isNone && i.ended.isNone

/-- The leaves of a core can take the end of round `r` from a slot that moves there (R198). -/
def leafTakesMove (slot core r : Nat) (ps : List MergePoint) : Bool :=
  ps.all fun p => !isLeafOf core p || (p.held.isEmpty && p.inputs.all (·.dead)) ||
    (decide (r ≤ p.round) && p.inputs.all fun i => i.source != .slot slot || (if i.gone then i.ended.isNone else i.acceptsEnd))

/-- Whether a slot's input at its leaf satisfies a test, for one destination or for all. -/
def leafAll (slot core : Nat) (d : Option Nat) (t : MergeInput → Bool) (ps : List MergePoint) : Bool :=
  ps.all fun p => !(isLeafOf core p && (d.isNone || d == some p.dest)) || p.inputs.all fun i => i.source != .slot slot || t i

/-- The port of a slot writes the status entry for a task's operation, or drops the operation, with no record to hand over first: any operation on an aborted channel (R218); elsewhere the head, with none of its records left, an XEND where the end of the round can leave (R185). (DEDUCED, log 31.) -/
def Channel.entryDue (ch : Channel) (tid i : Nat) (x : Slot) : Bool :=
  match ch.state with
  | .free => false
  | .aborted => x.queue.any (·.tid == tid)
  | .bound => x.queue.head?.any fun op => op.tid == tid && op.ahead.isEmpty && !op.unread &&
      (op.kind != .xend ||
        (if op.core = x.core then leafAll i x.core none (·.acceptsEnd) ch.points
         else leafTakesMove i op.core ((ch.group.map fun g => (x.round - g.round0).toNat).getD 0) ch.points))

/-- Such a write is due for an operation that a task gave to a send port (R185). -/
def entriesDue (s : State) (tid : Nat) : Bool :=
  s.chans.any fun e => e.2.any fun ch => (ch.slots.mapIdx (ch.entryDue tid)).any id

/-- Whether a send port has still to read records that a task gave it (R172), also on a channel that it has unbound since. (DEDUCED, log 31.) -/
def sendsUnread (s : State) (tid : Nat) : Bool :=
  s.chans.any fun e => e.2.any fun ch => ch.slots.any fun x => x.queue.any fun op => op.tid == tid && op.unread

/-- Whether a fence over the paths M, X, C, P, O (bits 4 to 0) still waits (R172). Stores on path O are placed by the fence itself; tile fetch reads are done when their instruction is; with O and X, the status entries that the ports can write are written first (R185). (DEDUCED, log 31.) -/
def fenceWaits (s : State) (c : Nat) (paths : BitVec 5) : Bool :=
  (paths.getLsbD 1 && !(unacked s (s.ctx c).tid).isEmpty) ||
  (paths.getLsbD 2 && (s.ctx c).cmds.any (·.isSome)) ||
  (paths.getLsbD 3 && sendsUnread s (s.ctx c).tid) ||
  (paths.getLsbD 0 && paths.getLsbD 3 && entriesDue s (s.ctx c).tid)

/-- The streams whose reads are on the paths of a fence. -/
def fenceStreams (paths : BitVec 5) : List Stream :=
  (if paths.getLsbD 0 then [.scalar, .vector] else []) ++ (if paths.getLsbD 2 then [.copy] else []) ++
  (if paths.getLsbD 4 then [.tile] else [])

/-- FENCE (R185, R311, R312): later reads on its paths stand no earlier than here. (DESIGN CHOICE, log 9 and 10.) -/
def execFence (p : BitVec 5) (sc : BitVec 3) (s : State) : Out :=
  complete (do
    if p.getLsbD 1 then feature 6 (.fence p sc)
    if p.getLsbD 0 then
      settleM
      drainM
    let t ← getS
    if fenceWaits t t.cur p then throw .wait
    modS fun t => t.closePins t.cur (fenceStreams p)) s

/-- SVFENCE (R170, R348): .sv puts earlier scalar before later vector accesses, .vs earlier vector before later scalar ones, .full does both: the stores of the one kind that wait are performed, and loads of the other kind stand no earlier than those of the one. (DESIGN CHOICE, log 9.) -/
def execSvfence (f : BitVec 2) (s : State) : Out :=
  complete (do
    if f.getLsbD 0 then settleM
    if f.getLsbD 1 then drainM
    if f.getLsbD 0 then modS fun t => t.alignPins t.cur .scalar .vector
    if f.getLsbD 1 then modS fun t => t.alignPins t.cur .vector .scalar) s

/-- IFENCE (R178, R316): SVFENCE.vs, and what was fetched ahead is discarded; a fetch is no older than a load here. -/
def execIfence (s : State) : Out :=
  complete (do
    drainM
    modS fun t => t.alignPins t.cur .vector .scalar
    modMe fun x => { x with prefetched := [] }) s

/-- A cached translation that TLBINV drops (R157, R352): in scope, and of the page that holds the address. -/
def dropsEntry (s : State) (c : Nat) (pod all : Bool) (va : Nat) (t : TlbEntry) : Bool :=
  (if pod then inDomain s (pkgOf c) (pkgOfCore t.core) else pkgOfCore t.core == pkgOf c) && (all || (va % 2 ^ 55) >>> t.level == t.granule)

/-- The stores in flight that used a translation of their context's core: every context in the scope performs its own (R157). (DESIGN CHOICE, log 15.) -/
def State.settleScope (s : State) (pod : Bool) : State :=
  s.ctxs.foldl (fun t e =>
    if (if pod then inDomain s (pkgOf s.cur) (pkgOf e.1) else pkgOf e.1 == pkgOf s.cur) then t.storesDone e.1 else t) s

/-- TLBINV (R157, R351, R352): after every older store, it drops the cached translations in scope; it completes when the accesses that used one are performed, and waits for posted stores. (DESIGN CHOICE, log 15.) -/
def execTlbinv (a : BitVec 5) (sc : BitVec 3) (l : BitVec 1) (s : State) : Out :=
  complete (do
    check (s.me.mode == .supervisor) 0x003 (instrWord (.tlbinv a sc l))
    if s.posted.any (!·.performed) then throw .wait
    modS fun t => t.settleScope (sc == 4#3)
    modS fun t => { t with tlb := t.tlb.filter fun e => !dropsEntry t s.cur (sc == 4#3) (l == 1#1) (s.me.reg a).toNat e }) s

/-! ## STFLUSH and STINV -/

/-- Every store that still has to reach a frame is performed before its page is taken away (R141, R150). -/
def State.settlePage (s : State) (k i : Nat) (f : Frame) : State :=
  s.ctxs.foldl (fun t e => if e.2.storesTo (f.holds k i) then t.storesDone e.1 else t) s

/-- One page of STFLUSH or STINV (R149): what changing its entry would raise comes before the write-back's faults (R347), and a fault leaves the page unchanged. (DEDUCED, log 18.) -/
def flushPage (inv : Bool) (page : Nat) : M Unit := do
  let s ← getS
  let who := s.who
  let stash := windowBase + 4096 * page
  let (entry, e) ← readEntry who stash
  if e % 4 == 1 then
    let some (k, i, _) := entryFrame s (pkgOfCore who.core) e | trapM 0x1C3 (word entry) { noInfo with w4 := word entry }
    let some f := (s.core k).frame i | trapM 0x1C3 (word entry) { noInfo with w4 := word entry }
    if f.entry != word entry then trapM 0x1C3 (word entry) { noInfo with w4 := word entry }
    let _ ← globalLocs who.asTask .atomic entry 8
    modS fun t => t.settlePage k i f
    let some f := ((← getS).core k).frame i | throw .wait
    if !inv || f.mapped then
      let w ← attempt (writeBack who k f)
      let _ ← backing stash f.entry w
    setEntry who entry (if inv then 0 else leftEntry f)
    modS fun t =>
      let u := t.setCore k ((t.core k).freeFrame i)
      if inv && !f.mapped then u.pageDropped k i else u.pageLeaves k i f
  else if inv && e % 4 != 0 then setEntry who entry 0

/-- The effect of R149, with the checks of R347. -/
def stashOp (i : Instr) (inv : Bool) (a : BitVec 5) (l : BitVec 1) (s : State) : Out :=
  complete (do
    feature 3 i
    settleM
    drainM
    if l = 0#1 then
      let va := (s.me.reg a).toNat
      if !inWindow va then trapM 0x1C4 (s.me.reg a) (atAddr va 0)
      if s.me.sptroot ≠ 0 then flushPage inv (field va 12 14)
    else if s.me.sptroot ≠ 0 then each (flushPage inv) (span 0 16384)
    modS fun t => t.closePins t.cur [.scalar, .vector]) s

/-- STFLUSH (R149, R347). -/
def execStflush (a : BitVec 5) (l : BitVec 1) (s : State) : Out := stashOp (.stflush a l) false a l s

/-- STINV (R149, R347). -/
def execStinv (a : BitVec 5) (l : BitVec 1) (s : State) : Out := stashOp (.stinv a l) true a l s

end Sys2Proof.Machine
end

