-- ==== Sys2Proof/Machine/Task.lean ====
section
/-! DEFINITION. Task instructions (R41 to R44, R349, R350, R354 to R356). -/

namespace Sys2Proof.Machine

/-- TSPAWN (R41, R355, R356): a release on path O, so queued vector stores are performed first. -/
def execTspawn (a : BitVec 5) (s : State) : Out :=
  complete (do
    drainM
    enqueue s.who (s.me.reg a) (dieOf s.cur) false
    afterScalar) s

/-- TSELF (R354). -/
def execTself (d : BitVec 5) (s : State) : Out := writeReg d s.me.record s

/-- The join of R44 on a parent record: one atomic on JOIN, with the enqueue of a parent whose JOIN reaches 0. A parent address that was changed after the enqueue need not be a multiple of 64: the atomic asks for its own 4 bytes (R250), and R29 for 64 where the parent is enqueued. (DESIGN CHOICE, log 61.) -/
def join (who : Who) (parent : Word) (home : Nat) : M Unit := do
  if parent.toNat % 4 ≠ 0 then trapM 0x010 parent
  let ls ← locateBytes who .atomic (parent.toNat + 16) 4
  checkPoison (parent.toNat + 16) ls
  let s ← getS
  let old := ofBytes (ls.map s.locByte)
  if old = 0 then trapM 0x344 parent
  if old = 1 then
    let (d, _) ← checkRecord who parent home false
    modS fun t => t.writeLocs (ls.zip (bytesOf 4 0))
    let n ← readVa who parent.toNat 64
    let w := wordsOf 8 n
    modS fun t => t.pushRecord d parent ((w[2]?).getD 0) ((w[5]?).getD 0) ((w[6]?).getD 0)
  else modS fun t => t.writeLocs (ls.zip (bytesOf 4 (old - 1)))

/-- Steps 2 and 3 of R42: a join that traps leaves the task as it was (R43). The join is checked in the mode of the context, also when a handler executes the TEND. (DESIGN CHOICE, log 61.) -/
def endTask : M Unit := do
  let s ← getS
  if s.me.parent ≠ 0 then join s.who s.me.parent (dieOf s.cur)
  modS fun t =>
    let u := (t.unbindAll t.cur).leaveHandler t.cur
    ((u.vacate u.cur).taskGone t.me.tid).releaseArea t.me.area

/-- TEND (R42, R43, R349, R350): step 1 waits on every path; an asynchronous cause is taken when it has completed. (DEDUCED, log 31 and 52.) -/
def execTend (s : State) : Out :=
  if s.me.mode == .supervisor && s.me.forced then .next (s.abandon s.cur)
  else
    let t := s.finishOlder s.cur
    let t := t.setMe { t.me with ending := true }
    if fenceWaits t t.cur 0b01110#5 then .next t
    else if t.me.mode == .task && (!t.me.pending.isEmpty || t.me.lost) then
      .next ((t.setMe { t.me with ending := false }).takeAsync t.cur)
    else finish endTask t

end Sys2Proof.Machine
end

