-- ==== Sys2Proof/Machine/Sync.lean ====
section
/-! DEFINITION. BARRIVE (R286), BARWAIT (R287), HBAR (R238, R314, R315). -/

namespace Sys2Proof.Machine

/-- BARRIVE (R232, R286): a release of earlier O accesses. -/
def execBarrive (d a b : BitVec 5) (s : State) : Out :=
  complete (do
    drainM
    let r ← updateObject s.who (s.me.reg a) fun w0 w1 => arrived w0 w1 (s.me.reg b).toNat
    afterScalar
    modMe fun x => x.setReg d r) s

/-- One read of BARWAIT made `t` ticks after issue (R233, R287): done when the phase differs, an acquire over all paths (R173), or when the limit has passed, an ordinary read. A read that has been made leaves no count of a wait behind. -/
def barwaitRead (d a b c : BitVec 5) (t : Nat) (s : State) : M Unit := do
  let (_, w0, _) ← readObject s.who .read (s.me.reg a)
  afterScalar
  modMe fun x => { x with stall := [], busy := false }
  if barP w0 != field (s.me.reg b).toNat 0 4 then
    modS fun u => u.acquired u.cur
    modMe fun x => { (x.setReg d (word w0)).advance with waited := none }
  else if s.me.reg c ≠ 0xFFFFFFFFFFFFFFFF#64 && decide ((s.me.reg c).toNat ≤ t) then
    modMe fun x => { (x.setReg d (word (w0 + 2 ^ 63))).advance with waited := none }

/-- BARWAIT (R233, R287): the first execution starts the count of ticks; a switch may abandon it while it waits (R258). -/
def execBarwait (d a b c : BitVec 5) (s : State) : Out :=
  let t := s.me.waited.getD 0
  finishOpen (barwaitRead d a b c t s) (s.setMe { s.me with waited := some t })

/-! ## HBAR -/

/-- The number of contexts of a domain (R20, R238): 1,024 for every package that its sets name. (DEDUCED, log 51.) -/
def domainContexts (s : State) (p : Nat) : Nat :=
  let g := (s.pkg p).pkgcfg.toNat
  if bit g 63 then 1024 * (popcount (field g 12 6) 6 * popcount (field g 18 6) 6 * popcount (field g 32 12) 12) else 1024

/-- The instance of a scope that holds a context, and its number of contexts (R238, R315). (DEDUCED, log 51.) -/
def scopeInstance (s : State) (c : Nat) (sc : BitVec 3) : Nat × Nat :=
  match sc.toNat with
  | 1 => (c / 16, 16)
  | 2 => (dieOf c, 256)
  | 3 => (pkgOf c, 1024)
  | _ => (s.domainRoot (pkgOf c), domainContexts s (pkgOf c))

/-- One arrival of a context at the open episode of an instance, or at a new one (R238, R315). -/
def hbarArrive (sc inst count : Nat) : M Unit := do
  let s ← getS
  let e := (s.episodes.find? fun e => e.id.scope == sc && e.id.inst == inst).getD
    ⟨⟨sc, inst, s.nextEpisode⟩, count, 0⟩
  if e.count ≠ count then trapM 0x303 (word count)
  let rest := s.episodes.filter fun f => f.id != e.id
  let next := if e.id.number = s.nextEpisode then s.nextEpisode + 1 else s.nextEpisode
  modS fun t => { t with
    nextEpisode := next
    episodes := if e.arrived + 1 = count then rest else rest ++ [{ e with arrived := e.arrived + 1 }] }
  modMe fun x => { x with hbar := some e.id }

/-- HBAR completes once its recorded episode has (R315): later O accesses come after those of every participant. -/
def hbarReturn : M Unit := do
  let s ← getS
  let done := match s.me.hbar with
    | some id => !(s.episodes.any fun e => e.id == id)
    | none => true
  if done then
    modS fun t => t.closePins t.cur [.scalar, .vector]
    modMe fun x => { x.advance with hbar := none }

/-- HBAR (R238, R314, R315). A context that holds an arrival record waits for the recorded episode. (DESIGN CHOICE, log 10.) -/
def execHbar (a : BitVec 5) (sc : BitVec 3) (s : State) : Out :=
  finishOpen (do
    feature 11 (.hbar a sc)
    let (inst, most) := scopeInstance s s.cur sc
    let n := (s.me.reg a).toNat
    check (decide (1 ≤ n) && decide (n ≤ most)) 0x303 (s.me.reg a)
    if s.me.hbar.isNone then
      drainM
      hbarArrive sc.toNat inst n
    hbarReturn) s

end Sys2Proof.Machine
end

