-- ==== Sys2Proof/Machine/Copy.lean ====
section
/-! DEFINITION. Copy-engine and beater commands (R234, R248, R256, R292, R338): their issue, and the events that
perform and count their bytes. -/

namespace Sys2Proof.Machine

/-! ## Issue (R292, R338) -/

/-- The lowest free command slot. -/
def freeCommand (x : Ctx) : Option (BitVec 3) :=
  ((span 0 8).map (BitVec.ofNat 3)).find? fun i => (get8 x.cmds i).isNone

/-- The moment before which the reads of a command that a context issues now no longer stand (R172, R173): past the last past moment that is over for its commands. (DESIGN CHOICE, log 9.) -/
def State.copyFloor (s : State) (c : Nat) : Nat :=
  ((s.pins.filter fun p => p.ctx == c && !p.copy).map fun p => p.stamp + 1).foldl max 0

/-- A command in the slot that it takes, its registers captured (R292); CPY and CPY2 need their source as it stands from now on. -/
def State.addCommand (s : State) (i : BitVec 3) (k : CmdKind) (d a b c : Word) : State :=
  let t := s.setCommand s.cur i (some (Command.new k d a b c s.me.pc s.clock (s.copyFloor s.cur)))
  let u := { t with clock := t.clock + 1 }
  if k.moves then u.keepSource s.me.tid i.toNat else u

/-- R292: capture, checks, a free slot; the block of CPY2 and CPYX is a multiple of 8. -/
def issueCommand (k : CmdKind) (d a b c : BitVec 5) : M Unit := do
  let x := (← getS).me
  aligned (x.reg c) 16
  if k != .cpy && k != .rsort then aligned (x.reg b) 8
  match freeCommand x with
  | none => throw .wait
  | some i => modS fun s => s.addCommand i k (x.reg d) (x.reg a) (x.reg b) (x.reg c)

/-- CPY (R292, R294). -/
def execCpy (d a b c : BitVec 5) (s : State) : Out := complete (issueCommand .cpy d a b c) s

/-- CPY2 (R292, R295). -/
def execCpy2 (d a b c : BitVec 5) (s : State) : Out := complete (issueCommand .cpy2 d a b c) s

/-- CPYX.g (R292, R297). -/
def execCpyxG (d a b c : BitVec 5) (s : State) : Out := complete (issueCommand .gather d a b c) s

/-- CPYX.s (R292, R297). -/
def execCpyxS (d a b c : BitVec 5) (s : State) : Out := complete (issueCommand .scatter d a b c) s

/-- RSORT (R338): it has no alignment requirement but that of its sync object (R234, R339). -/
def execRsort (d a b c : BitVec 5) (s : State) : Out :=
  complete (do
    feature 8 (.rsort d a b c)
    issueCommand .rsort d a b c) s

/-- COPY_COUNT_STEP (R234): one action. The last unit of a command without sync object is left to its completion. -/
def State.copyStep (s : State) (c : Nat) (slot : BitVec 3) : State :=
  match s.command c slot with
  | none => s
  | some k =>
    let who := engineWho s c k
    s.commandAction c slot k do
      let k ← readBlock who k
      if k.c = 0 && k.atEnd then return some k else advanceCommand who k (s.source c slot)

/-- COMMAND_COMPLETION: a command with no sync object performs its last unit and frees its slot. -/
def State.copyComplete (s : State) (c : Nat) (slot : BitVec 3) : State :=
  match s.command c slot with
  | none => s
  | some k =>
    let who := engineWho s c k
    s.commandAction c slot k do
      let k ← readBlock who k
      if k.c ≠ 0 || !k.atEnd then return some k
      else if k.done then return none
      else
        let _ ← performUnit who k (s.source c slot)
        return none

/-- COMMAND_COMPLETION_ARRIVAL: with BYTES = 0 the command makes one arrival of count 1 when every byte is performed (R234). -/
def State.copyArrive (s : State) (c : Nat) (slot : BitVec 3) : State :=
  match s.command c slot with
  | none => s
  | some k =>
    let who := engineWho s c k
    s.commandAction c slot k do
      let k ← readBlock who k
      if k.c = 0 || !k.done then return some k
      else if ← countsBytes who k then return some k
      else
        let _ ← atFault k.c.toNat (updateObject who.onO k.c fun w0 w1 => arrived w0 w1 1)
        return none

/-- What a command does next, whichever of the three it is. -/
def nextAction (who : Who) (k : Command) (x : Option Source) : M (Option Command) := do
  let k ← readBlock who k
  if k.c = 0 && k.atEnd then
    if k.done then return none
    let _ ← performUnit who k x
    return none
  else if k.done && k.owed.isEmpty then
    if !(← countsBytes who k) then
      let _ ← atFault k.c.toNat (updateObject who.onO k.c fun w0 w1 => arrived w0 w1 1)
    return none
  else advanceCommand who k x

/-- ENGINE_FAULT (R256): what the command does next stops it with an error, a wait on M or BUSY among them whose limit its ticks have reached (R138, R158). (DEDUCED, log 12.) -/
def State.copyFault (s : State) (c : Nat) (slot : BitVec 3) : State :=
  match s.command c slot with
  | none => s
  | some k =>
    match (nextAction (engineWho s c k) k (s.source c slot)).run s with
    | (.error (.trap cause _ r), t) => (t.strew (engineWho s c k) k (s.source c slot)).commandFault c slot k cause r
    | _ => s

/-- UNIT turn: bytes of a command are performed before others (R176): those of its unit that are held back, in the aligned 8 bytes that hold the byte with a key (R167), or those of CPY and CPY2 at a position not yet reached. (DESIGN CHOICE, log 9.) -/
def State.copyAhead (s : State) (c : Nat) (slot : BitVec 3) (key : Nat) : State :=
  match s.command c slot with
  | none => s
  | some k =>
    let who := engineWho s c k
    s.commandAction c slot k do
      let k ← readBlock who k
      match k.kept.find? fun e => e.1 == key with
      | some w => return some (← performBytes who k (k.kept.filter fun e => e.2.1 / 8 == w.2.1 / 8))
      | none =>
        if k.kind.moves && decide (key < k.total) then return some (← performAhead who k (s.source c slot) key) else return some k

/-- KEEP turn: a command reads the source of its unit and holds its writes back; when it has performed them it may go on before they are counted (R176). (DESIGN CHOICE, log 9.) -/
def State.copyKeep (s : State) (c : Nat) (slot : BitVec 3) : State :=
  match s.command c slot with
  | none => s
  | some k =>
    let who := engineWho s c k
    s.commandAction c slot k do
      let k ← readBlock who k
      if k.done then return some k
      else if k.part = 0 then
        let ws ← unitWrites who k (s.source c slot)
        return some { k with part := 1, stall := [], kept := (k.keyed ws).filter fun e => !k.ahead.any fun a => a.2 == e.1 }
      else if k.kept.isEmpty && !k.kind.moves && k.c ≠ 0 then
        return some { ← settled k.next with owed := k.owed ++ k.steps.drop (k.part - 1) }
      else return some k

/-- ORPHAN turn: a command of an abandoned task goes on toward its next resume point, where it is discarded, and its faults with it (R259); none does in a package without power (R278). (DEDUCED, log 34.) -/
def State.orphanTurn (s : State) (i : Nat) : State :=
  match s.orphans[i]? with
  | none => s
  | some o =>
    let x := s.ctx o.ctx
    if (s.pkg (pkgOf o.ctx)).off then s else
    let t := s.setCtx o.ctx { x with tid := o.tid, sptroot := o.sptroot, cmds := set8 x.cmds o.slot (some o.command) }
    let u := t.commandAction o.ctx o.slot o.command (advanceCommand (engineWho t o.ctx o.command) o.command none)
    let left := match u.command o.ctx o.slot with
      | some k => if k.resting then none else some { o with command := k }
      | none => none
    { u.setCtx o.ctx { x with cmds := set8 (u.ctx o.ctx).cmds o.slot (get8 x.cmds o.slot) } with
      orphans := match left with
        | some o' => u.orphans.set i o'
        | none => u.orphans.eraseIdx i }

end Sys2Proof.Machine
end

