-- ==== Sys2Proof/Machine/Switch.lean ====
section
/-! DEFINITION. The full switch (R255 to R258, R40), the scheduler's pre-emption and lane reclaim (R39, R260, R262),
and the budget trap (R46, R253, R263). -/

namespace Sys2Proof.Machine

/-! ## The contents of a save area (R255) -/

/-- Pending pairs as they are saved: equal pairs once, at most 15; the Bool is LOST. -/
def savedPairs (x : Ctx) : List Pending × Bool :=
  let distinct := x.pending.filter (!·.owner) |>.foldl (fun acc p =>
    if acc.any fun q => q.cause == p.cause && q.info == p.info then acc else acc ++ [p]) []
  (distinct.take 15, x.lost || decide (15 < distinct.length))

/-- The bytes of a bit vector's low `n` bytes. -/
def lowBytes {w : Nat} (x : BitVec w) (n : Nat) : List Byte := bytesOf n x.toNat

/-- Tiles and buffers that hold content. -/
def savedUnitBits (u : MatrixUnit) : Nat :=
  ((span 0 8).map fun i => if (get8 u.tiles (BitVec.ofNat 3 i)).tag == .unset then 0 else 2 ^ (8 + i)).sum +
  (if u.bufs[0].tag == .unset then 0 else 2 ^ 16) + (if u.bufs[1].tag == .unset then 0 else 2 ^ 17) + 2 ^ 18

/-- The shape word and FMT of the held shape (R221, R255). -/
def shapeWord (sh : Shape) : Nat := sh.k + sh.n * 2 ^ 16 + sh.m * 2 ^ 24 + sh.fmt.toNat * 2 ^ 32

/-- The lines of a buffer that are saved: its K by N contents, the rest zero (R255). -/
def savedBuffer (b : Buffer) : List Byte :=
  let used := match b.tag with
    | .sb4 => (b.k + 1) / 2
    | .fp64 => 8 * b.k
    | .fp32 => 4 * b.k
    | .bf16 => 2 * b.k
    | .fp16 => 2 * b.k
    | _ => b.k
  (span 0 64).flatMap fun n =>
    if n < b.n then bytesOf 512 (keepLow (slice b.data (4096 * n) 4096) (8 * used)).toNat else List.replicate 512 0

/-- The side entries that are saved: those of superblocks that hold elements below K (R255). -/
def savedSide (b : Buffer) : List Byte :=
  (span 0 64).flatMap fun n => (span 0 4).flatMap fun q =>
    if n < b.n && decide ((if b.tag == .sb8 then 128 else 256) * q < b.k) then bytesOf 16 (slice b.side (512 * n + 128 * q) 128).toNat else List.replicate 16 0

/-- A command record (R257). -/
def commandRecord (k : Option Command) : List Byte :=
  match k with
  | none => List.replicate 64 0
  | some k => bytesOfWords [word (k.kind.code + 256), word k.pos, k.d, k.a, k.b, k.c, k.issue, 0]

/-- A channel record (R255). -/
def channelRecord (b : Option (Nat × Word)) : List Byte :=
  match b with
  | none => List.replicate 32 0
  | some (slot, addr) => bytesOfWords [word (slot + 2 ^ 32), addr, 0, 0]

/-- The count of a path as a save area holds it (R64, R255). -/
def pathWord (x : Ctx) (k : Nat) : Nat :=
  let p := x.paths[(BitVec.ofNat 2 k).toNat]'((BitVec.ofNat 2 k).isLt)
  p.sent.toNat * 2 ^ 32 + p.acked.toNat

/-- The header's doublewords (R255). -/
def saveHeader (x : Ctx) (w0 w12 : Nat) : List Word :=
  let (pairs, lost) := savedPairs x
  let path i := word (pathWord x i)
  [word w0, x.pc, x.record, x.parent, x.vl.setWidth 64, x.vcfg.setWidth 64, x.vstart.setWidth 64,
   x.mfmt.setWidth 64, x.fflags.setWidth 64, x.rptpos, x.budget, x.sptroot, word w12, path 0, path 1, path 2, path 3] ++
  wordsOf 16 x.vfm.toNat ++ [word (pairs.length + if lost then 2 ^ 63 else 0)] ++
  pairs.flatMap (fun p => [p.cause.setWidth 64, p.info]) ++ List.replicate (30 - 2 * pairs.length) 0

/-- The tags of a matrix unit as a save area holds them (R255). -/
def unitTags (unit : Option MatrixUnit) : List Byte :=
  match unit with
  | none => List.replicate 32 0
  | some u =>
    ((span 0 8).map fun i => BitVec.ofNat 8 (get8 u.tiles (BitVec.ofNat 3 i)).tag.code) ++
      [BitVec.ofNat 8 u.bufs[0].tag.code, BitVec.ofNat 8 u.bufs[1].tag.code] ++ List.replicate 22 0

/-- The contents of a matrix unit whose tags are not UNSET: tiles, then buffers with their extents and side data (R255, R258). -/
def unitImage (u : MatrixUnit) : List (Nat × List Byte) :=
  ((span 0 8).flatMap fun i =>
    let t := get8 u.tiles (BitVec.ofNat 3 i)
    if t.tag == .unset then [] else [(0x10000 + 0x4000 * i, lowBytes t.data 0x4000)]) ++
  [(u.bufs[0], 0), (u.bufs[1], 1)].flatMap fun b =>
    if b.1.tag == .unset then []
    else [(0x30000 + 0x8000 * b.2, savedBuffer b.1), (0x840 + 8 * b.2, bytesOf 8 (b.1.k + b.1.n * 2 ^ 16)),
      (0xA000 + 0x1000 * b.2, savedSide b.1)]

/-- What a full switch writes: offsets and bytes, in the order of R258 step 3. `unit` is the matrix unit if the context holds it. -/
def saveImage (s : State) (c : Nat) (unit : Option MatrixUnit) : List (Nat × List Byte) :=
  let x := s.ctx c
  let h := x.held
  let bits := match unit with
    | some u => savedUnitBits u
    | none => 0
  let w12 := match unit with
    | some u => shapeWord u.shape
    | none => 0
  let (pairs, _) := savedPairs x
  let r32 := (span 0 32).map (BitVec.ofNat 5)
  let vtags := r32.map fun r => BitVec.ofNat 8 (regGet x.tag r).code
  [(0, bytesOfWords (saveHeader x (h + requestCeil s (pkgOf c) x.ctrl * 16 + bits) w12))] ++
  ((pairs.zip (span 0 15)).map fun p => (0x880 + 32 * p.2, bytesOfWords p.1.words)) ++
  [(0x300, bytesOfWords (r32.map x.reg))] ++
  r32.map (fun r => (0x2000 + 1024 * r.toNat, lowBytes (regGet x.v r) (128 * h))) ++
  ((span 0 8).map fun i => (0xC00 + 128 * i, lowBytes (keepLow (get8 x.m (BitVec.ofNat 3 i)) (128 * h)) 128)) ++
  r32.map (fun r => (0x1000 + 64 * r.toNat, lowBytes (regGet x.hdr r) (8 * h))) ++
  r32.map (fun r => (0x1800 + 32 * r.toNat, lowBytes (regGet x.sup r) (4 * h))) ++
  [(0x800, vtags ++ unitTags unit)] ++
  ((span 0 8).map fun i => (0x400 + 64 * i, commandRecord (get8 x.cmds (BitVec.ofNat 3 i)))) ++
  ((span 0 16).map fun i => (0x600 + 32 * i, channelRecord (get16 x.chans (BitVec.ofNat 4 i)))) ++
  (match unit with
   | none => []
   | some u => unitImage u)

/-- The pieces are written one after another: the state, or what stood when one failed and the failing address. -/
def writeImage (s : State) (p base : Nat) : List (Nat × List Byte) → State × Option Nat
  | [] => (s, none)
  | (off, bs) :: rest =>
    match putPhys s p (base + off) bs with
    | .ok t => writeImage t p base rest
    | .error a => (s, some a)

/-! ## The switch -/

/-- No instruction is under way that must complete or trap first, and none that has advanced is still waited for (R164, R172, R258). -/
def Ctx.between (x : Ctx) : Bool := !x.busy && x.adone == 0 && x.fences.isEmpty

/-- A context is at a boundary where FV4 may switch it (R56, R258, R42). -/
def Ctx.switchable (x : Ctx) : Bool :=
  x.mode == .task && !x.ending && x.between && (x.life == .running || x.life == .acquiring)

/-- What the machine keeps of a task while it is switched out. -/
def Ctx.parkedAt (x : Ctx) (a : Area) : Parked :=
  { area := a, tid := x.tid, ctrl := x.ctrl, budget0 := x.budget0, home := x.home, seq := x.seq, hbar := x.hbar, due := x.due }

/-- Words 1 to 5 of the record of the command in a slot (R257). -/
def Ctx.recordWords (x : Ctx) (slot : Nat) : List Word :=
  match get8 x.cmds (BitVec.ofNat 3 slot) with
  | some k => [word k.pos, k.d, k.a, k.b, k.c]
  | none => []

/-- Sources of a task that is switched out remember the records as they are saved (R257). (DEDUCED, log 33.) -/
def State.parkSources (s : State) (c : Nat) : State :=
  if s.sources.isEmpty then s
  else { s with sources := s.sources.map fun y => if y.tid == (s.ctx c).tid then { y with words := (s.ctx c).recordWords y.slot } else y }

/-- The groups of a reclaim's victim that is switched instead stay reserved for the entry, as far as its need (R262). (DEDUCED, log 49.) -/
def State.reserveNeed (s : State) (c : Nat) : State :=
  let k := s.core (coreOf c)
  match k.preempt with
  | some p => if p.victim == c && p.reclaim then s.setCore (coreOf c) (k.reserveFor p.die p.seq p.need) else s
  | none => s

/-- The context is released and its task enqueued as a resume entry (R40, R258 steps 4 and 5). -/
def State.park (s : State) (c : Nat) (a : Area) : State :=
  let x := s.ctx c
  let t := { s.parkSources c with parked := s.parked ++ [x.parkedAt a] }
  ((t.reserveNeed c).vacate c).pushResume x.home (areaBase s a % 2 ^ 48) x.ctrl x.seq

/-- The pieces of a save area are written: the task goes on, or is lost with its area (R255). -/
def State.saveOr (s : State) (c : Nat) (a : Area) (image : List (Nat × List Byte)) (go : State → State) : State :=
  match writeImage s (a.die / 4) (areaBase s a) image with
  | (t, some bad) => t.loseTask c bad
  | (t, none) => go t

/-- A full switch (R258): older stores are performed, commands stop at resume points, the area is written, the context is released, the resume entry is enqueued. A command that waits before its resume point holds the switch. A context that still waits for the matrix unit goes back with its save area as it stood, where causes and acknowledgements that arrived meanwhile have been counted (R229, R247, R255). (DEDUCED, log 11 and 34.) -/
def State.switchOut (s : State) (c : Nat) : State :=
  match (s.ctx c).area with
  | none => s.abandon c
  | some a =>
    if (s.ctx c).life == .acquiring then s.park c a
    else
      let s := (s.finishOlder c).settleCommands c
      if (s.ctx c).midUnit then s
      else
        let mu := (s.core (coreOf c)).mu
        s.saveOr c a (saveImage s c (if mu.holder == some c then some mu else none)) fun t => t.park c a

/-- FULL_SWITCH: a context that the scheduler has chosen is switched at a boundary in task mode; 0x341 goes first (R263). -/
def State.fullSwitch (s : State) (c : Nat) : State :=
  let x := s.ctx c
  if x.switch && x.switchable && x.pending.isEmpty && !x.lost && x.due.isNone then s.switchOut c else s

/-! ## Choosing a victim (R39, R260) -/

/-- The contexts of a core. -/
def ctxsOf (k : Nat) : List Nat := span (4 * k) 4

/-- A core has an idle context. -/
def hasIdle (s : State) (k : Nat) : Bool := (ctxsOf k).any fun c => (s.ctx c).life == .idle

/-- A task that the scheduler may pre-empt for an entry at level p. -/
def below (s : State) (p c : Nat) : Bool :=
  let x := s.ctx c
  (x.life == .running || x.life == .acquiring) && decide (prioOf x.ctrl < p) && !x.switch

/-- The groups that an entry requests (R260): 2^LGLOG under the power limit, for a resume entry its saved holding. -/
def wanted (s : State) (d : Nat) (e : QEntry) : Nat := if e.resume then savedHeld s d e else requestCeil s (d / 4) (e.w 1)

/-- The need n of R260 on a core: the entry's request less the free groups that are not reserved, at least 1. -/
def reclaimNeed (s : State) (d : Nat) (e : QEntry) (k : Nat) : Nat :=
  max 1 (wanted s d e - (freeGroups s k - reservedGroups s k))

/-- The lowest priority first, then the lowest context number. -/
def lowestTask (s : State) (cs : List Nat) : Option Nat := leastBy (fun c => prioOf (s.ctx c).ctrl * 2 ^ 20 + c) cs

/-- A task whose ceiling can be lowered by the need (R39). -/
def reclaimable (s : State) (d : Nat) (e : QEntry) (c : Nat) : Bool :=
  let x := s.ctx c
  below s e.level c && x.ctrl.getLsbD 40 && hasIdle s (coreOf c) && decide (reclaimNeed s d e (coreOf c) + 1 ≤ x.ceil)

/-- The victim's ceiling is lowered (R39, R260), in a handler once that has returned (R305); with LRECLAIM_LIMIT = 0 the switch comes at once (R262). A ceiling that is lowered again for a second entry, while the task of the first still runs, returns as the second one's task ends: R39 and R260 leave open whose end restores it. (DEDUCED, log 49.) -/
def State.reclaim (s : State) (d : Nat) (e : QEntry) (c : Nat) : State :=
  let k := coreOf c
  let x := s.ctx c
  let ceil := power8 (x.ceil - reclaimNeed s d e k)
  let now := (s.die (dieOf c)).reclaimLimit = 0
  let t := s.setCore k { s.core k with preempt := some ⟨c, d, e.w 4, true, reclaimNeed s d e k⟩ }
  t.setCtx c { t.ctx c with ceil := if x.mode == .supervisor then x.ceil else ceil, cut := some (ceil, none), lowered := if now then none else some 0, switch := now }

/-- The victim is to be switched out whole. -/
def State.orderSwitch (s : State) (d : Nat) (e : QEntry) (c : Nat) : State :=
  let k := coreOf c
  let t := s.setCore k { s.core k with preempt := some ⟨c, d, e.w 4, false, reclaimNeed s d e k⟩ }
  t.setCtx c { t.ctx c with switch := true }

/-- PREEMPTION (R39) for the entry with a sequence number on a die: it can start on no eligible core that has an idle context. -/
def State.preemptFor (s : State) (d seq : Nat) : State :=
  match readRings s d (s.die d).queued with
  | .error a => s.corrupt d a
  | .ok es =>
    match es.find? fun e => (e.w 4).toNat == seq with
    | none => s
    | some e =>
      let cores := (span (64 * d) 64).filter (mayRun s d (e.w 1))
      let starts k := hasIdle s k && decide (groupsNeeded s d e ≤ groupsFor s k d (e.w 4))
      if (s.die d).stopped || !ready s (256 * d) d (s.die d).stall e || cores.any starts then s
      else
        let open' := (cores.filter fun k => (s.core k).preempt.isNone).flatMap ctxsOf
        match lowestTask s (open'.filter (reclaimable s d e)) with
        | some c => s.reclaim d e c
        | none =>
          match lowestTask s (open'.filter (below s e.level)) with
          | some c => s.orderSwitch d e c
          | none => s

/-- RECLAIM_FALLBACK (R262): no VSETL.r within LRECLAIM_LIMIT ticks, so the victim is switched instead; a victim in TEND is not. -/
def State.reclaimFallback (s : State) (c : Nat) : State :=
  let x := s.ctx c
  match x.lowered with
  | some t =>
    if x.mode == .task && !x.ending && decide ((s.die (dieOf c)).reclaimLimit.toNat ≤ t) then
      s.setCtx c { x with lowered := none, switch := true }
    else s
  | none => s

/-! ## The budget trap (R46, R253, R263) -/

/-- 0x341: with RERUN = 1 the record is enqueued again in a reserved slot and the task is marked abandoned; a check that fails is reported with bit 63. The die is that of the original entry under SCOPE 0, otherwise the one that SCOPE and TARGET of the record as read now name, should software have changed them. (DEDUCED, log 27.) -/
def budgetTrap (c : Nat) : M Unit := do
  let s ← getS
  let x := s.ctx c
  modS fun t => t.setCtx c { t.ctx c with due := none }
  if x.ctrl.getLsbD 39 then
    let r ← attempt (enqueue (fv4Who c x.stall) x.record x.home true)
    match r with
    | .ok _ =>
      modS fun t =>
        let u := t.setCtx c { t.ctx c with forced := true, abandon := true }
        u.takeTrap c 0x341 x.record x.pc noInfo true false
    | .error (.trap cause _ f) =>
      modS fun t => t.takeTrap c 0x341 (x.record ||| 0x8000000000000000#64) x.pc
        { noInfo with w2 := cause.setWidth 64, w3 := x.record, w4 := f.w4 } true false
    | .error e => throw e
  else modS fun t => t.takeTrap c 0x341 x.record x.pc noInfo true false

/-- A budget that has run out is taken at a task-mode boundary, after the causes that are older and outside TEND (R252). -/
def State.budgetDue (s : State) (c : Nat) : Bool :=
  let x := s.ctx c
  x.due == some 0 && x.mode == .task && !x.ending && x.between && x.life == .running

/-- TASK_BUDGET_EXCEEDED. A wait met while the record is read leaves the trap for later. (DEDUCED, log 27.) -/
def State.takeBudget (s : State) (c : Nat) : State :=
  if s.budgetDue c then
    match (budgetTrap c).run s with
    | (.ok _, t) => t
    | (.error (.waitOn ks), _) => s.setCtx c ((s.ctx c).waitsOn ks)
    | (.error _, _) => s
  else s

/-- TRAP_ENTRY: a pending asynchronous cause is taken at a task-mode boundary, unless the budget ran out before it (R252); during TEND it waits for step 1 (R350). -/
def State.takePending (s : State) (c : Nat) : State :=
  let x := s.ctx c
  if x.mode == .task && !x.ending && x.between && x.life == .running && x.due != some 0 then s.takeAsync c else s

end Sys2Proof.Machine
end

