-- ==== Sys2Proof/Machine/Operands.lean ====
section
/-! DEFINITION. Vector operands: element widths, elements, masks, format tags and their checks (R50 to R53, R59 to
R61, R357). -/

namespace Sys2Proof.Machine

/-! ## Widths and policies -/

/-- VCFG.SEW. -/
def Ctx.sew (x : Ctx) : BitVec 2 := slice x.vcfg 0 2

/-- The element width in bits (R60). -/
def Ctx.width (x : Ctx) : Nat := 8 * 2 ^ x.sew.toNat

/-- VLMAX (R50). -/
def Ctx.vlmax (x : Ctx) : Nat := vlmaxAt x.sew x.held

/-- VCFG.FZ. -/
def Ctx.fz (x : Ctx) : BitVec 2 := slice x.vcfg 2 2

/-- VCFG.REPRO. -/
def Ctx.repro (x : Ctx) : Bool := x.vcfg.getLsbD 6

/-! ## Elements -/

/-- Element `i` of a register image at width `w` (R50). -/
def elem (v : BitVec 8192) (w i : Nat) : Nat := (slice v (w * i) w).toNat

/-- A register image with elements written. -/
def setElems (v : BitVec 8192) (w : Nat) (l : List (Nat × Nat)) : BitVec 8192 :=
  l.foldl (fun v e => splice v (w * e.1) w e.2) v

/-- A mask register with bits written. -/
def setBits (m : BitVec 1024) (l : List (Nat × Bool)) : BitVec 1024 :=
  l.foldl (fun m e => splice m e.1 1 (flag e.2)) m

/-- Active(i): below VL and not masked off; `m` is MSK and `r` MREG. -/
def Ctx.active (x : Ctx) (m : BitVec 1) (r : BitVec 3) (i : Nat) : Bool :=
  decide (i < x.vl.toNat) && (m == 0#1 || (get8 x.m r).getLsbD i)

/-- The Active elements at or above a position. VL alone bounds them: after a CSR write has raised VCFG.SEW it may exceed VLMAX, and elements then lie beyond the register's lanes. (DESIGN CHOICE, log 66.) -/
def Ctx.activesFrom (x : Ctx) (m : BitVec 1) (r : BitVec 3) (start : Nat) : List Nat :=
  (span start (x.vl.toNat - start)).filter (x.active m r)

/-- The Active elements from VSTART. -/
def Ctx.actives (x : Ctx) (m : BitVec 1) (r : BitVec 3) : List Nat := x.activesFrom m r x.vstart.toNat

/-- The lane of an element (R50). -/
def laneOf (w i : Nat) : Nat := i * w / 256

/-! ## Tags (R52, R53) -/

/-- The width of an integer or floating tag. -/
def Tag.bits : Tag → Nat
  | .i8 => 8
  | .i16 => 16
  | .i32 => 32
  | .i64 => 64
  | .bf16 => 16
  | .fp16 => 16
  | .fp32 => 32
  | .fp64 => 64
  | _ => 0

def Tag.isInt : Tag → Bool
  | .i8 => true
  | .i16 => true
  | .i32 => true
  | .i64 => true
  | _ => false

def Tag.isFloat : Tag → Bool
  | .bf16 => true
  | .fp16 => true
  | .fp32 => true
  | .fp64 => true
  | _ => false

def Tag.isSb : Tag → Bool
  | .sb4 => true
  | .sb8 => true
  | _ => false

/-- The integer tag of an element width code. -/
def intTag (sew : BitVec 2) : Tag :=
  match sew.toNat with
  | 0 => .i8
  | 1 => .i16
  | 2 => .i32
  | _ => .i64

/-- The format of a floating tag. -/
def Tag.fmt : Tag → Fmt
  | .bf16 => Machine.bf16
  | .fp16 => Machine.fp16
  | .fp64 => Machine.fp64
  | _ => Machine.fp32

/-- The information word of 0x081 (R52). -/
def tagInfo (reg cls lowest : Nat) (found : Tag) : Word := word (reg + cls * 2 ^ 5 + lowest * 2 ^ 7 + found.code * 2 ^ 12)

/-- A vector register's tag lies in the accepted set, else 0x081. -/
def tagIn (r : BitVec 5) (accept : Tag → Bool) (lowest : Nat) : M Unit := do
  let t := regGet (← getS).me.tag r
  check (accept t) 0x081 (tagInfo r.toNat 0 lowest t)

/-- Tagged with the integer tag of width SEW. -/
def tagInt (r : BitVec 5) : M Unit := do
  let t := intTag (← getS).me.sew
  tagIn r (fun u => u == t) t.code

/-- Tagged with an integer or floating tag of width SEW. -/
def tagWide (r : BitVec 5) : M Unit := do
  let x := (← getS).me
  tagIn r (fun u => u.bits == x.width) (intTag x.sew).code

/-- Tagged exactly so. -/
def tagIs (r : BitVec 5) (t : Tag) : M Unit := tagIn r (fun u => u == t) t.code

/-- A floating tag of width SEW (R368); the lowest code is 0 for an empty set. -/
def tagFloat (r : BitVec 5) (only32 : Bool) : M Unit := do
  let w := (← getS).me.width
  let low := if w = 16 then (if only32 then 0 else 5) else if w = 32 then 7 else if w = 64 then 8 else 0
  tagIn r (fun u => u.isFloat && u.bits == w && !(only32 && w == 16)) low

/-! ## Results (R357) -/

/-- A vector register written with its tag; a tag other than SB4 and SB8 clears its sidecars (R53). -/
def Ctx.setVec (x : Ctx) (r : BitVec 5) (v : BitVec 8192) (t : Tag) : Ctx :=
  { x with
    v := regSet x.v r v, tag := regSet x.tag r t
    hdr := if t.isSb then x.hdr else regSet x.hdr r 0
    sup := if t.isSb then x.sup else regSet x.sup r 0 }

/-- Flags are set and stay set (R109). -/
def Ctx.raiseFlags (x : Ctx) (f : BitVec 5) : Ctx := { x with fflags := x.fflags ||| f }

/-- The union of the flags of results. -/
def unionFlags (l : List (BitVec 5)) : BitVec 5 := l.foldl (fun a b => a ||| b) 0

/-- The end of an element-wise instruction: elements, tag, flags, VSTART. -/
def Ctx.wrote (x : Ctx) (d : BitVec 5) (w : Nat) (res : List (Nat × FpResult)) (t : Tag) : Ctx :=
  let v := setElems (regGet x.v d) w (res.map fun e => (e.1, e.2.1))
  { ((x.setVec d v t).raiseFlags (unionFlags (res.map (·.2.2)))) with vstart := 0 }

/-- The end of a comparison: mask bits, flags, VSTART. -/
def Ctx.wroteMask (x : Ctx) (d : BitVec 5) (res : List (Nat × Bool × BitVec 5)) : Ctx :=
  let k := d.setWidth 3
  let m := setBits (get8 x.m k) (res.map fun e => (e.1, e.2.1))
  { (x.raiseFlags (unionFlags (res.map (·.2.2)))) with m := set8 x.m k m, vstart := 0 }

/-- The second source: a vector register or a scalar one (R357). -/
inductive VSrc where
  | vec (r : BitVec 5)
  | scl (r : BitVec 5)
  deriving DecidableEq, Repr

/-- Element `i` of the second source. -/
def Ctx.src (x : Ctx) (y : VSrc) (i : Nat) : Nat :=
  match y with
  | .vec r => elem (regGet x.v r) x.width i
  | .scl r => (x.reg r).toNat % 2 ^ x.width

/-- The check of a second source that is a vector. -/
def VSrc.tagOk (y : VSrc) (f : BitVec 5 → M Unit) : M Unit :=
  match y with
  | .vec r => f r
  | .scl _ => pure ()

/-- The source operand `a` at element `i`. -/
def Ctx.at (x : Ctx) (a : BitVec 5) (i : Nat) : Nat := elem (regGet x.v a) x.width i

end Sys2Proof.Machine
end

