-- ==== Sys2Proof/Machine/Fetch.lean ====
section
/-! DEFINITION. Instruction fetch (R155, R178, R318) and what happens at an instruction boundary before it (R34, R39,
R46, R56, R252, R258). -/

namespace Sys2Proof.Machine

/-- The instruction word at an address: one that was fetched ahead and that this mode may fetch (R155, R178), otherwise the word in memory. -/
def fetchWord (who : Who) (va : Nat) : M (BitVec 32) := do
  let s ← getS
  match s.me.prefetched.find? fun e => e.1 == va && (e.2.1 || who.mode == .supervisor) with
  | some e => return e.2.2
  | none =>
    let ls ← locateBytes who .fetch va 4
    let t ← getS
    return BitVec.ofNat 32 (ofBytes (ls.map t.locByte))

/-- PREFETCH turn: a word is fetched ahead of its use (R178). A fetch ahead that faults or waits leaves nothing. -/
def State.prefetch (s : State) (c : Nat) (va : Word) : State :=
  let x := s.ctx c
  if x.life != .running || !goodPc va then s
  else
    let who : Who := { core := coreOf c, unit := .core, mode := x.mode, path := .o, ctx := c, sptroot := x.sptroot, waits := [], since := s.clock }
    match (locateBytes who .fetch va.toNat 4).run s with
    | (.ok ls, t) =>
      let w := BitVec.ofNat 32 (ofBytes (ls.map t.locByte))
      let open' := match (locateBytes who.asTask .fetch va.toNat 4).run s with
        | (.ok _, _) => true
        | (.error _, _) => false
      s.setCtx c { x with prefetched := (va.toNat, open', w) :: x.prefetched.filter fun e => e.1 != va.toNat }
    | (.error _, _) => s

/-- What is taken at an instruction boundary instead of the next instruction, in task mode only: the oldest asynchronous cause, the budget among them, then the scheduler's switch, also when a reclaim has met its limit (R46, R252, R253, R258, R262). -/
def State.boundary (s : State) (c : Nat) : Option State :=
  let x := s.ctx c
  if x.mode != .task || x.ending || !x.between then none
  else if x.due = some 0 then some (s.takeBudget c)
  else if x.causes ≠ 0 then some (s.takeAsync c)
  else
    let t := s.reclaimFallback c
    if (t.ctx c).switch then some (t.switchOut c) else none

/-- The turn of a context that runs no instruction: one that waits for the matrix unit after a resume takes it when it is free, or is switched out again (R229). (DESIGN CHOICE, log 3.) -/
def State.idleTurn (s : State) (c : Nat) : State :=
  if (s.ctx c).life == .acquiring then
    let t := s.reclaimFallback c
    if (t.ctx c).switch then t.switchOut c else t.acquireUnit c
  else s

/-- Fetch and decode at the program counter (R73): the instruction, or the state with the trap or wait that stands in its place. TEND that waits for its fence goes on without a fetch. -/
def State.nextInstr (s : State) : Except State (Instr × State) :=
  if s.me.ending then .ok (.tend, s)
  else
    match (fetchWord s.who s.me.pc.toNat).run s with
    | (.error (.trap c i r), t) => .error (t.trapNow c i r)
    | (.error .wait, _) => .error s
    | (.error (.waitOn ks), _) => .error (s.setMe (s.me.waitsOn ks))
    | (.ok w, t) =>
      match decode w with
      | .ok i => .ok (i, t)
      | .error .illegal => .error (t.trapNow 0x001 (w.setWidth 64) noInfo)
      | .error .reserved => .error (t.trapNow 0x002 (w.setWidth 64) noInfo)

/-- An instruction placed at the program counter of the context whose turn it is (assumption 6): the page that holds the program counter is mapped, by a cached translation with every right, to the first page of the package's memory, the word stands there, and the context runs with nothing due before it. (DESIGN CHOICE, log 6.) -/
def State.placeWord (s : State) (_nbits w : Nat) : State :=
  let x := s.me
  let base := s.number (pkgOf s.cur) * 2 ^ 48
  let pa := pkgOf s.cur * 2 ^ 48 + x.pc.toNat % 2 ^ 16
  let entry : TlbEntry := { core := coreOf s.cur, kind := .core, granule := x.pc.toNat >>> 16, level := 16, leaf := word (base + 15) }
  let t := { s with
    agenda := []
    mem := memPut s.mem pa (bytesOf 4 w)
    poison := s.poison.filter (· != pa / 64)
    tlb := entry :: s.tlb }
  t.setMe { x with
    life := .running, prefetched := [], pending := [], lost := false, due := none, switch := false, lowered := none,
    ending := false, delayed := [], late := [], fences := [], quota := none, adone := 0, busy := false }

end Sys2Proof.Machine
end

