-- ==== Sys2Proof/Machine/Time.lean ====
section
/-! DEFINITION. Reference ticks (R46, R138, R158, R199, R233, R244, R262, R263): what passes with them in a context and
on a channel. -/

namespace Sys2Proof.Machine

/-- BUDGETLEFT after ticks (R263): at 0 the trap is due after the causes that are pending already (R252). It counts in every mode but not while stopped by the host or in TEND, and not with budget 0. (DESIGN CHOICE, log 24.) -/
def Ctx.spend (x : Ctx) (n : Nat) : Ctx :=
  if x.budget0 = 0 || x.budget = 0 || x.ending || (x.life != .running && x.life != .acquiring) then x
  else
    let left := x.budget.toNat - n
    { x with budget := word left, due := if x.due.isNone && left == 0 then some x.causes else x.due }

/-- Ticks since a reclaim lowered the ceiling, counted while the task occupies its context in task mode, also in a host stop (R262). -/
def Ctx.reclaimTicks (x : Ctx) (n : Nat) : Ctx :=
  if x.mode != .task || x.life == .idle then x
  else { x with lowered := x.lowered.map (· + n) }

/-- Ticks for a command: its waits are counted also while the host has stopped the context (R138, R158). -/
def Command.elapse (k : Command) (n : Nat) : Command := { k with stall := passTicks n k.stall }

/-- Ticks for one context. (DESIGN CHOICE, log 24.) -/
def Ctx.elapse (x : Ctx) (n : Nat) : Ctx :=
  let y := (x.spend n).reclaimTicks n
  let y := { y with cmds := y.cmds.map fun k => k.map fun k => k.elapse n }
  if x.life == .stopped then y
  else { y with waited := y.waited.map (· + n), stall := passTicks n y.stall }

/-- Ticks for one channel: its watchdog counts while a round is open (R199), and the waits of its ports are counted (R158). (DESIGN CHOICE, log 24.) -/
def Channel.elapse (n : Nat) (ch : Channel) : Channel :=
  let t := { ch with
    stall := passTicks n ch.stall
    slots := ch.slots.map fun x => { x with stall := passTicks n x.stall }
    dests := ch.dests.map fun d => { d with stall := passTicks n d.stall } }
  if ch.state == .bound && ch.dests.any (fun d => decide (d.finished < ch.opened)) then { t with watch := ch.watch + n } else t

/-- ELAPSE turn: `n` reference ticks pass in the whole domain. (DESIGN CHOICE, log 24 and 43 and 53.) -/
def State.elapse (s : State) (n : Nat) : State :=
  let t : State := { s with
    ticks := s.ticks + word n
    ctxs := s.ctxs.map fun e => (e.1, e.2.elapse n)
    cores := s.cores.map fun e => (e.1, { e.2 with stall := passTicks n e.2.stall })
    orphans := s.orphans.map fun o => { o with command := o.command.elapse n }
    dies := s.dies.map fun e => (e.1, { e.2 with stall := passTicks n e.2.stall })
    reruns := s.reruns.map fun r => { r with stall := passTicks n r.stall } }
  t.mapChans (Channel.elapse n)

end Sys2Proof.Machine
end

