-- ==== Sys2Proof/Machine/Events.lean ====
section
/-! DEFINITION. Events of the scheduler, of traps, of translation and the stash, of copy commands and of posted
stores. An event that is not enabled has no effect (assumption 5). -/

namespace Sys2Proof.Machine

/-- A meaning that FV4 runs outside any context: its state, or nothing where it stops. (DESIGN CHOICE, log 5.) -/
def State.background (s : State) (m : M Unit) : State :=
  match m.run s with
  | (.ok _, t) => t
  | (.error _, _) => s

/-! ## Scheduler and traps -/

/-- ENTRY_SELECTION (R34, R35, R37, R258). (DESIGN CHOICE, log 5 and 6.) -/
def execEntrySelection (c : Nat) (s : State) : Out := .next (s.select c)

/-- LOOK_AHEAD (R45): it has no architectural effect. (DESIGN CHOICE, log 53.) -/
def execLookAhead (_c : Nat) (s : State) : Out := .next s

/-- PREEMPTION (R39). -/
def execPreemption (d seq : Nat) (s : State) : Out := .next (s.preemptFor d seq)

/-- FULL_SWITCH (R258). -/
def execFullSwitch (c : Nat) (s : State) : Out := .next (s.fullSwitch c)

/-- RECLAIM_FALLBACK (R262). -/
def execReclaimFallback (c : Nat) (s : State) : Out := .next (s.reclaimFallback c)

/-- TASK_BUDGET_EXCEEDED (R46). -/
def execTaskBudgetExceeded (c : Nat) (s : State) : Out := .next (s.takeBudget c)

/-- TRAP_ENTRY (R252). -/
def execTrapEntry (c : Nat) (s : State) : Out := .next (s.takePending c)

/-! ## Translation -/

/-- PAGE_TABLE_WALK (R156, R158): the unit's cached translations of the page are discarded, and what a fresh walk reads with V = 1 and M = 0 is cached: table pointers and the leaf. (DESIGN CHOICE, log 15.) -/
def execPageTableWalk (k : Nat) (u : UnitKind) (va : Word) (s : State) : Out :=
  let who : Who := { core := k, unit := u, mode := .task, path := .o, ctx := 4 * k, sptroot := 0, waits := [], since := s.clock }
  let read := walkedFrom s who va.toNat (s.pkg (pkgOfCore k)).ptroot.toNat [42, 29, 16]
  if va.toNat < 2 ^ 55 then
    .next { s with tlb := (read.map fun r => { core := k, kind := u, granule := va.toNat >>> r.1, level := r.1, leaf := word r.2 }) ++
      (s.tlb.filter fun t => !serves who va.toNat t) }
  else .next s

/-- A context some of whose waits on an entry have reached WALK_LIMIT. (DESIGN CHOICE, log 24.) -/
def limitReached (s : State) (c : Nat) : Bool :=
  (s.ctx c).life == .running &&
  (s.ctx c).stall.any fun e => decide ((s.pkg (pkgOf c)).walkLimit.toNat ≤ e.2)

/-- The turn of a context whose wait has reached its limit comes next: its instruction is tried again and takes the cause. -/
def State.tryAgain (s : State) (c : Nat) : State :=
  if limitReached s c then { s with agenda := .run c :: s.agenda } else s

/-- WALK_STALLED (R158): the access of the context meets 0x103 at its next turn, which comes at once. -/
def execWalkStalled (c : Nat) (s : State) : Out := .next (s.tryAgain c)

/-- SPT_ENTRY_BUSY_TIMEOUT (R138): likewise with 0x1C3. -/
def execSptEntryBusyTimeout (c : Nat) (s : State) : Out := .next (s.tryAgain c)

/-! ## The stash -/

/-- The window address of a page. -/
def pageVa (page : BitVec 14) : Nat := windowBase + page.toNat * 4096

/-- The scalar thread of a context, as FV4 acts for it. -/
def taskWho (s : State) (c : Nat) : Who := { fv4Who c [] with sptroot := (s.ctx c).sptroot, since := s.clock }

/-- STASH_FILL (R142, R143): a spilled page, or the first touch of a mapped one, gets a frame. (DESIGN CHOICE, log 58.) -/
def execStashFill (c : Nat) (page : BitVec 14) (s : State) : Out :=
  .next (if (s.ctx c).life == .idle then s else s.background do
    let who := taskWho s c
    let (entry, e) ← readEntry who (pageVa page)
    if 2 ≤ e % 4 then
      let _ ← fillPage who (pageVa page) entry e)

/-- STASH_LINE_FILL (R142): an invalid line of a resident mapped page is filled. (DESIGN CHOICE, log 58.) -/
def execStashLineFill (c : Nat) (page : BitVec 14) (line : BitVec 6) (s : State) : Out :=
  .next (if (s.ctx c).life == .idle then s else s.background do
    let who := taskWho s c
    let (entry, e) ← readEntry who (pageVa page)
    match e % 4, entryFrame (← getS) (pkgOf c) e with
    | 1, some (k, i, f) =>
      if f.mapped && f.entry == word entry && !f.valid.getLsbD line.toNat then
        let found ← attempt (translateM { who.asTask with core := k, unit := .core } .read f.page.toNat)
        let _ ← backing (pageVa page) f.entry found
        modS fun t => t.setCore k ((t.core k).setFrame i { f with valid := f.valid ||| (1#64 <<< line.toNat) })
    | _, _ => pure ())

/-- The move of a resident page to a core (R147): none is made when no frame can be had or an access to the page is in flight. (DESIGN CHOICE, log 58.) -/
def pullPage (who : Who) (stash entry k i dest : Nat) (f : Frame) : M Unit := do
  let s ← getS
  if frameBusy s k i f then return ()
  let g := { f with pull := none }
  let none' := s.setCore k ((s.core k).setFrame i g)
  let r ← attempt (do
    match ← takeFrame { who with core := dest } dest stash with
    | none => throw .wait
    | some j =>
      setEntry { who with core := dest } entry (residentEntry s dest j f.mapped)
      return j)
  match r with
  | .ok j =>
    modS fun t =>
      let u := t.setCore k ((t.core k).freeFrame i)
      let u := u.setCore dest ((u.core dest).setFrame j g)
      if f.mapped then u else u.mapPlaces (savedMove k i dest j)
  | .error _ => modS fun _ => none'

/-- PULL (R147): the pull that a remote access started. (DESIGN CHOICE, log 58.) -/
def execPull (c : Nat) (page : BitVec 14) (s : State) : Out :=
  .next (if (s.ctx c).life == .idle then s else s.background do
    let who := taskWho s c
    let (entry, e) ← readEntry who (pageVa page)
    match e % 4, entryFrame (← getS) (pkgOf c) e with
    | 1, some (k, i, f) =>
      match f.pull with
      | some dest => if f.entry == word entry && dest != k then pullPage who (pageVa page) entry k i dest f
      | none => pure ()
    | _, _ => pure ())

/-! ## Copy commands -/

/-- A command belongs to a context that runs or is stopped by the host, on a core that has power (R278) and is not taken out (R264). -/
def commandRuns (s : State) (c : Nat) : Bool :=
  ((s.ctx c).life == .running || (s.ctx c).life == .stopped) && !(s.pkg (pkgOf c)).off && !(s.core (coreOf c)).out

/-- COPY_COUNT_STEP (R234). -/
def execCopyCountStep (c : Nat) (slot : BitVec 3) (s : State) : Out :=
  .next (if commandRuns s c then s.copyStep c slot else s)

/-- COMMAND_COMPLETION_ARRIVAL (R234). -/
def execCommandCompletionArrival (c : Nat) (slot : BitVec 3) (s : State) : Out :=
  .next (if commandRuns s c then s.copyArrive c slot else s)

/-- COMMAND_COMPLETION (R292, R293). (DESIGN CHOICE, log 5.) -/
def execCommandCompletion (c : Nat) (slot : BitVec 3) (s : State) : Out :=
  .next (if commandRuns s c then s.copyComplete c slot else s)

/-- ENGINE_FAULT (R256). -/
def execEngineFault (c : Nat) (slot : BitVec 3) (s : State) : Out :=
  .next (if commandRuns s c then s.copyFault c slot else s)

/-! ## Posted stores -/

/-- A posted store that may be performed: not yet performed, and every store that it follows has been (R246). -/
def mayPerform (s : State) (p : Posted) : Bool :=
  !p.performed && !(s.posted.any fun q => p.prior.contains q.id && !q.performed)

/-- POSTED_STORE_PERFORM (R245, R246). (DESIGN CHOICE, log 5.) -/
def execPostedStorePerform (id : Nat) (s : State) : Out :=
  match s.posted.find? fun p => p.id == id with
  | some p =>
    if mayPerform s p then
      let t := s.writeLocs (((span p.loc p.size).map Loc.phys).zip (bytesOf p.size p.value.toNat))
      .next { t with posted := t.posted.map fun q => if q.id == id then { q with performed := true } else q }
    else .next s
  | none => .next s

/-- One more acknowledged store on a path. -/
def Ctx.acknowledge (x : Ctx) (k : Nat) : Ctx :=
  let i := BitVec.ofNat 2 k
  let n := x.paths[i.toNat]'(i.isLt)
  { x with paths := x.paths.set i.toNat { n with acked := n.acked + 1 } i.isLt }

/-- One more acknowledged store on a path in a save area (R247, R255). -/
def State.areaAck (s : State) (a : Area) (k : Nat) : State :=
  let off := 8 * (13 + k)
  match readPhys s (a.die / 4) (areaBase s a + off) 8 with
  | .error e => s.corrupt a.die e
  | .ok n => s.putArea a off (bytesOf 8 (n / 2 ^ 32 * 2 ^ 32 + (n + 1) % 2 ^ 32))

/-- The acknowledgement reaches the task where it is: its context, its save area while it is switched out, both while it waits for the matrix unit (R229, R247). -/
def State.countAck (s : State) (tid k : Nat) : State :=
  match s.whereIs tid with
  | some c =>
    let t := s.setCtx c ((s.ctx c).acknowledge k)
    match (s.ctx c).waitingArea with
    | some a => t.areaAck a k
    | none => t
  | none =>
    match s.parked.find? fun q => q.tid == tid with
    | some q => s.areaAck q.area k
    | none => s

/-- POSTED_STORE_ACKNOWLEDGEMENT (R64, R245, R247). -/
def execPostedStoreAcknowledgement (id : Nat) (s : State) : Out :=
  match s.posted.find? fun p => p.id == id with
  | some p =>
    if p.performed then .next ({ s with posted := s.posted.filter fun q => q.id != id }.countAck p.tid p.path) else .next s
  | none => .next s

/-! ## Limits of BARWAIT and VWAIT -/

/-- The instruction of a context that waits, run in its turn when the ticks since its issue have reached its limit register. -/
def expire (c : Nat) (f : Instr → State → Option Out) (s : State) : Out :=
  let t := { s with cur := c }
  if t.me.life != .running || t.me.waited.isNone || (s.boundary c).isSome || (s.core (coreOf c)).out then .next s
  else
    match t.nextInstr with
    | .ok (i, u) =>
      match f i u with
      | some (.next v) => .next { v with cur := s.cur }
      | _ => .next s
    | .error _ => .next s

/-- The limit that a register gives has passed. -/
def limitPassed (s : State) (r : BitVec 5) : Bool :=
  s.me.reg r ≠ 0xFFFFFFFFFFFFFFFF#64 && decide ((s.me.reg r).toNat ≤ s.me.waited.getD 0)

/-- BARWAIT_LIMIT_EXPIRY (R233): one more read, at which the wait ends. -/
def execBarwaitLimitExpiry (c : Nat) (s : State) : Out :=
  expire c (fun i u => match i with
    | .barwait d a b l => if limitPassed u l then some (execBarwait d a b l u) else none
    | _ => none) s

end Sys2Proof.Machine
end

