-- ==== Sys2Proof/Machine/XMerge.lean ====
section
/-! DEFINITION. The fabric of the keyed exchange: order values (R193), the press (R209, R210, R212), merge trees
(R194, R195, R196, R198, R211). -/

namespace Sys2Proof.Machine

/-! ## Order values (R193) -/

/-- The least value. -/
def Floor.least : Floor := .value 0 0 0

/-- Comparison of floors: TOP lies above every order value. -/
def Floor.le : Floor → Floor → Bool
  | _, .top => true
  | .top, .value .. => false
  | .value k o q, .value l p r => decide (k < l) || (k == l && (decide (o < p) || (o == p && decide (q ≤ r))))

/-- The key of a floor, if it is not TOP. -/
def Floor.keyAbove (f : Floor) (k : Nat) : Bool :=
  match f with
  | .top => true
  | .value l _ _ => decide (k < l)

/-- The order value of a record: the triple in deterministic mode, otherwise the key alone. -/
def orderOf (det : Bool) (r : Record) : Floor :=
  if det then .value r.key.toNat r.origin.toNat r.seq.toNat else .value r.key.toNat 0 0

/-- The smaller of two floors. -/
def Floor.min (a b : Floor) : Floor := if a.le b then a else b

/-! ## The press (R209) -/

/-- 32-bit lanes of two payloads combined. -/
def pressLanes (n : Nat) (f : Nat → Nat → Nat) (a b : BitVec 2048) : BitVec 2048 :=
  (span 0 n).foldl (fun v i => splice v (32 * i) 32 (f (slice a (32 * i) 32).toNat (slice b (32 * i) 32).toNat)) 0

/-- The item count of a CONCAT payload. -/
def concatCount (p : BitVec 2048) : Nat := (slice p 0 32).toNat

/-- The payload of a ⊕ b; `plen` is PLEN. -/
def pressPayload (press : BitVec 3) (plen : Nat) (a b : BitVec 2048) : BitVec 2048 :=
  match press.toNat with
  | 1 => pressLanes (8 * plen) (fun x y => (fpAdd fp32 .rne 0 x y).1) a b
  | 2 => pressLanes (8 * plen) (fun x y => (x + y) % 2 ^ 32) a b
  | 3 => pressLanes (8 * plen) (fun x y => (fpMinMax fp32 0 true x y).1) a b
  | 4 => pressLanes (8 * plen) (fun x y => (fpMinMax fp32 0 false x y).1) a b
  | 5 =>
    let na := concatCount a
    let nb := concatCount b
    BitVec.ofNat 2048 (na + nb + (slice a 32 (32 * na)).toNat * 2 ^ 32 + (slice b 32 (32 * nb)).toNat * 2 ^ (32 + 32 * na))
  | _ => 0

/-- Whether two records of equal key may be combined. (DEDUCED, log 21.) -/
def mayCombine (press : BitVec 3) (plen : Nat) (a b : Record) : Bool :=
  match press.toNat with
  | 0 => false
  | 5 =>
    let cap := 8 * plen - 1
    decide (concatCount a.payload ≤ cap) && decide (concatCount b.payload ≤ cap) &&
    decide (concatCount a.payload + concatCount b.payload ≤ cap)
  | 6 => decide (a.count.toNat + b.count.toNat ≤ 8191)
  | _ => true

/-- The combination of two records of equal key, `a` first. -/
def pressRecords (press : BitVec 3) (plen : Nat) (a b : Record) : Record :=
  let first := if (orderOf true a).le (orderOf true b) then a else b
  { key := a.key, origin := first.origin, seq := first.seq,
    count := BitVec.ofNat 13 (Nat.min 8191 (a.count.toNat + b.count.toNat)),
    payload := pressPayload press plen a.payload b.payload }

/-! ## Inputs -/

/-- A new input for a stream that begins `skip` rounds ahead of its merge point. -/
def MergeInput.fresh (src : Node) (skip : Nat) (f : Floor) : MergeInput :=
  { source := src, head := none, floor := f, ended := none, skip := skip, gone := false }

/-- F of an input; TOP once it has ended (R193). -/
def MergeInput.level (i : MergeInput) : Floor := if i.isEnded then .top else i.floor

/-- The order value that an input shows: its head, or its floor. -/
def MergeInput.shows (det : Bool) (i : MergeInput) : Floor :=
  match i.head with
  | some h => orderOf det h
  | none => i.level

/-- The input can take a record of its round: it holds none and no end mark. (DESIGN CHOICE, log 20.) -/
def MergeInput.accepts (i : MergeInput) : Bool := i.head.isNone && !i.isEnded

/-- A record arrives at an input (R193). -/
def MergeInput.take (det : Bool) (r : Record) (i : MergeInput) : MergeInput :=
  { i with head := some r, floor := orderOf det r }

/-- A watermark arrives at an input. -/
def MergeInput.raise (f : Floor) (i : MergeInput) : MergeInput :=
  if i.isEnded || f.le i.floor then i else { i with floor := f }

/-- The next round at an input (R195). -/
def MergeInput.nextRound (f : Floor) (i : MergeInput) : MergeInput :=
  { i with ended := none, skip := i.skip - 1, floor := f }

/-! ## Trees (R194, R211) -/

/-- The package number that comes after `p` on a minimal route to `q` that crosses the dimensions in the order given (R20). -/
def nextNumber (p q : Nat) : List Nat → Nat
  | [] => q
  | d :: rest =>
    let (size, step) := if d = 0 then (6, 1) else if d = 1 then (6, 6) else (12, 36)
    let own := p / step % size
    let want := q / step % size
    if own = want then nextNumber p q rest else p - own * step + want * step

/-- The package numbers after `p` on such a route; three links reach every package (R20). -/
def numbersFrom (order : List Nat) (p q : Nat) : Nat → List Nat
  | 0 => []
  | n + 1 => if p = q then [] else nextNumber p q order :: numbersFrom order (nextNumber p q order) q n

/-- The orders in which a minimal route may cross the dimensions; the first is that of deterministic mode (R194). -/
def dimensionOrders : List (List Nat) := [[0, 1, 2], [0, 2, 1], [1, 0, 2], [1, 2, 0], [2, 0, 1], [2, 1, 0]]

/-- One link of a route; where traffic between the two packages has no link left it passes through an intermediate package (R21). (DEDUCED, log 56.) -/
def State.hop (s : State) (p q : Nat) : List Nat :=
  if s.joins p q then [q]
  else
    match (s.pkgs.map (·.1)).find? fun r => s.joins p r && s.joins r q with
    | some r => [r, q]
    | none => [q]

/-- The packages of a route, link by link. -/
def State.hops (s : State) (p : Nat) : List Nat → List Nat
  | [] => []
  | q :: rest => s.hop p q ++ s.hops q rest

/-- A route between two packages of the domain; `choice` picks its order of dimensions. -/
def State.route (s : State) (choice p q : Nat) : List Nat :=
  let order := (dimensionOrders[choice % 6]?).getD [0, 1, 2]
  p :: s.hops p ((numbersFrom order (s.number p) (s.number q) 3).filterMap (s.packageAt p))

/-- The routes of a group, fixed at the first XBIND (R194): in dimension order with DET, otherwise any minimal one for each pair of packages. (DEDUCED, log 21.) -/
def State.routes (s : State) (g : Group) : List ((Nat × Nat) × List Nat) :=
  let from' := (pkgOf s.cur :: s.pkgs.map (·.1)).eraseDups
  let ends := (g.dests.map pkgOfCore).eraseDups
  let seed := Config.freeNat s.free
  from'.flatMap fun p => ends.filterMap fun q =>
    if p ≠ q && inDomain s p q then some ((p, q), s.route (if g.det then 0 else seed / 6 ^ (432 * p + q)) p q) else none

/-- The nodes of one slot's path to a destination after its leaf: merge points of the packages on the route (R211). (DEDUCED, log 21.) -/
def pathOf (routes : List ((Nat × Nat) × List Nat)) (core dest : Nat) : List Nat :=
  let p := pkgOfCore core
  let q := pkgOfCore dest
  if p = q then [p]
  else ((routes.find? fun r => r.1 == (p, q)).map (·.2)).getD [p, q]

/-- A point of a destination's tree gets an input, or has one again, for a stream in round `r` with floor `f` (R198, R211). (DEDUCED, log 22.) -/
def MergePoint.join (p : MergePoint) (src : Node) (r : Nat) (f : Floor) : MergePoint :=
  let unused := p.held.isEmpty && p.inputs.all (·.dead)
  let p := if unused then { p with round := r, sent := Floor.least } else p
  let fresh := MergeInput.fresh src (r - p.round) f
  if p.inputs.any fun i => i.source == src then
    { p with inputs := p.inputs.map fun i =>
        if i.source == src && i.gone then { fresh with head := i.head, ended := i.ended } else i }
  else { p with inputs := p.inputs ++ [fresh] }

/-- A path joins a destination's tree from one node on: at nodes that the tree has, it follows the tree, and it adds those that the tree lacks. `src` is the node before, `fuel` bounds the nodes. (DEDUCED, log 21 and 22.) -/
def joinPath (d r : Nat) (f : Floor) (src node : Node) (route : List Nat) (ps : List MergePoint) : Nat → List MergePoint
  | 0 => ps
  | fuel + 1 =>
    match node with
    | .receive => ps
    | n =>
      match ps.find? fun p => p.dest == d && p.node == n with
      | some p =>
        joinPath d r f n p.next (route.drop 1) (ps.map fun q => if q.dest == d && q.node == n then q.join src r f else q) fuel
      | none =>
        let next := match route with
          | [] => Node.receive
          | q :: _ => Node.package q
        let p : MergePoint := { dest := d, node := n, next := next, inputs := [], held := [], sent := Floor.least, round := r }
        joinPath d r f n next (route.drop 1) (ps ++ [p.join src r f]) fuel

/-- The trees of every destination with a slot's path added. (DEDUCED, log 22.) -/
def joinSlot (routes : List ((Nat × Nat) × List Nat)) (g : Group) (slot core r : Nat) (f : Floor) (ps : List MergePoint) : List MergePoint :=
  (g.dests.zip (span 0 g.d)).foldl (fun ps e => joinPath e.2 r f (.slot slot) (.leaf core) (pathOf routes core e.1) ps 16) ps

/-- The trees of a group as the first XBIND sets them up, over every slot at the core of its listed context (R183, R186). (DEDUCED, log 21.) -/
def buildTrees (routes : List ((Nat × Nat) × List Nat)) (g : Group) (cores : List Nat) : List MergePoint :=
  (cores.zip (span 0 g.ns)).foldl (fun ps e => joinSlot routes g e.2 e.1 0 Floor.least ps) []

/-- A slot's input at the leaf it leaves is gone once it has drained (R198). (DEDUCED, log 22.) -/
def leaveLeaf (slot core : Nat) (ps : List MergePoint) : List MergePoint :=
  ps.map fun p =>
    if p.node == .leaf core then
      { p with inputs := p.inputs.map fun i => if i.source == .slot slot then { i with gone := true } else i }
    else p

/-! ## Slots -/

/-- The number of rounds since the first that a slot has ended. -/
def Group.index (g : Group) (round : BitVec 32) : Nat := (round - g.round0).toNat

/-- A slot hands over from another core (R198, R211). (DEDUCED, log 22.) -/
def Channel.moveSlot (ch : Channel) (g : Group) (slot core : Nat) : Channel :=
  match ch.slots[slot]? with
  | none => ch
  | some x =>
    if x.core = core then ch
    else
      { ch with
        points := leaveLeaf slot x.core (joinSlot ch.routes g slot core (g.index x.round) x.floor ch.points)
        slots := ch.slots.set slot { x with core := core, pkg := pkgOfCore core } }

/-- The inputs of a slot at its leaf changed, for one destination or for all. -/
def atLeaf (slot core : Nat) (d : Option Nat) (f : MergeInput → MergeInput) (ps : List MergePoint) : List MergePoint :=
  ps.map fun p =>
    if isLeafOf core p && (d.isNone || d == some p.dest) then
      { p with inputs := p.inputs.map fun i => if i.source == .slot slot then f i else i }
    else p

/-! ## Merge points (R195, R210) -/

/-- An input of the next node changed by an item: a point's input or a receive port's, where it resets the watchdog (R199). (DESIGN CHOICE, log 20.) -/
def Channel.feed (ch : Channel) (p : MergePoint) (f : MergeInput → MergeInput) : Channel :=
  match p.next with
  | .receive =>
    { ch with watch := 0, dests := ch.dests.mapIdx fun i d => if i = p.dest then { d with input := f d.input } else d }
  | n =>
    { ch with points := ch.points.map fun q =>
        if q.dest == p.dest && q.node == n then
          { q with inputs := q.inputs.map fun i => if i.source == p.node then f i else i }
        else q }

/-- The input that a point feeds. -/
def Channel.fed (ch : Channel) (p : MergePoint) : Option MergeInput :=
  match p.next with
  | .receive => (ch.dests[p.dest]?).map (·.input)
  | n => (ch.points.find? fun q => q.dest == p.dest && q.node == n).bind fun q => q.inputs.find? fun i => i.source == p.node

/-- The floor with which an input begins a round: at a send port that of a slot already in that round, else the least value (R196). (DEDUCED, log 22.) -/
def startFloor (ch : Channel) (g : Group) (round : Nat) (i : MergeInput) : Floor :=
  match i.source with
  | .slot n =>
    match ch.slots[n]? with
    | some x => if g.index x.round = round then x.floor else Floor.least
    | none => Floor.least
  | _ => Floor.least

/-- The end of a round at a point: its inputs are cleared (R195). -/
def MergePoint.nextRound (p : MergePoint) (ch : Channel) (g : Group) : MergePoint :=
  { p with
    round := p.round + 1, sent := Floor.least
    inputs := p.inputs.map fun i => i.nextRound (startFloor ch g (p.round + 1) i) }

/-- The position of the head that goes next: the least order value, any one among equal keys without DET. (DEDUCED, log 21.) -/
def nextHead (det : Bool) (choice : Nat) (p : MergePoint) : Option (Nat × Record) :=
  let hs := (span 0 p.inputs.length).filterMap fun i => ((p.inputs[i]?).bind (·.head)).map fun h => (i, h)
  let least := hs.filter fun e => hs.all fun f => (orderOf det e.2).le (orderOf det f.2)
  least[choice % Nat.max 1 least.length]?

/-- Every input without a head has a floor at or above a record (R195). -/
def MergePoint.safe (det : Bool) (p : MergePoint) (r : Record) : Bool :=
  p.inputs.all fun i => i.head.isSome || (orderOf det r).le i.level

/-- Every input shows a head or floor whose key exceeds k, or an end mark (R210). -/
def MergePoint.past (p : MergePoint) (k : Nat) : Bool := p.inputs.all fun i => (i.shows false).keyAbove k

/-- The watermark of a point (R195, R210): the least of what its inputs show, held back by what the press holds. -/
def MergePoint.mark (det : Bool) (p : MergePoint) : Floor :=
  let f := (p.inputs.map (·.shows det)).foldl Floor.min .top
  p.held.foldl (fun f r => Floor.min f (orderOf det r)) f

/-- A point of a channel changed. -/
def Channel.setPoint (ch : Channel) (n : Nat) (p : MergePoint) : Channel := { ch with points := ch.points.set n p }

/-- A record leaves a point for the next node. (DESIGN CHOICE, log 20.) -/
def Channel.emit (ch : Channel) (g : Group) (n : Nat) (p : MergePoint) (r : Record) : Channel :=
  (ch.setPoint n { p with sent := orderOf g.det r }).feed p (·.take g.det r)

/-- Records that wait uncombined at a point without DET: two of them, chosen freely, are combined. (DEDUCED, log 21.) -/
def combineTwo (g : Group) (choice : Nat) (rs : List Record) : Option (List Record) :=
  let pairs := (span 0 rs.length).flatMap fun i => (span 0 rs.length).filterMap fun j =>
    match rs[i]?, rs[j]? with
    | some a, some b => if i ≠ j && mayCombine g.press g.plen a b then some (i, j, pressRecords g.press g.plen a b) else none
    | _, _ => none
  match pairs[choice % Nat.max 1 pairs.length]? with
  | none => none
  | some (i, j, r) => some (r :: ((rs.zip (span 0 rs.length)).filter fun e => e.2 != i && e.2 != j).map (·.1))

/-- What the press holds goes on (R210): with DET the one partial; without, two records are combined or one leaves, and before the receive port nothing leaves that could still be combined (R212). (DEDUCED, log 21.) -/
def Channel.release (ch : Channel) (g : Group) (n : Nat) (p : MergePoint) (choice : Nat) (room : Bool) : Channel :=
  let out := match p.held with
    | r :: rest => if room then ch.emit g n { p with held := rest } r else ch
    | [] => ch
  if g.det then out
  else
    match combineTwo g choice p.held with
    | some rs => if p.next == .receive || (choice / 2 ^ 32) % 2 == 0 then ch.setPoint n { p with held := rs } else out
    | none => out

/-- A record joins those of its key that the press holds: with DET it is folded into the first that can take it (R210, R211). (DEDUCED, log 21.) -/
def foldIn (g : Group) (h : Record) : List Record → List Record
  | [] => [h]
  | a :: rest => if mayCombine g.press g.plen a h then pressRecords g.press g.plen a h :: rest else a :: foldIn g h rest

/-- A head goes through the press (R209, R210): it leaves at once with NONE, otherwise it is held. (DEDUCED, log 21.) -/
def Channel.pressHead (ch : Channel) (g : Group) (n : Nat) (p : MergePoint) (i : Nat) (h : Record) (room : Bool) : Channel :=
  let taken := { p with inputs := p.inputs.mapIdx fun j x => if j = i then { x with head := none } else x }
  if g.press = 0#3 then (if room then ch.emit g n taken h else ch)
  else ch.setPoint n { taken with held := if g.det then foldIn g h p.held else p.held ++ [h] }

/-- Nothing of its round is left at a point but its end mark. -/
def MergePoint.drained (p : MergePoint) : Bool := p.held.isEmpty && p.inputs.all fun i => i.head.isNone && i.isEnded

/-- The points of other destinations whose streams go over the same link (R194). -/
def Channel.sharers (ch : Channel) (p : MergePoint) : List MergePoint :=
  match p.node, p.next with
  | .package _, .package _ => ch.points.filter fun q =>
      q.dest != p.dest && q.node == p.node && q.next == p.next && !(q.held.isEmpty && q.inputs.all (·.dead))
  | _, _ => []

/-- The least order value that a link may still carry in the round of a point, for all the destinations behind it (R194). (DEDUCED, log 21.) -/
def Channel.linkMark (ch : Channel) (det : Bool) (p : MergePoint) : Floor :=
  ((ch.sharers p).filter fun q => q.round == p.round).foldl (fun f q => Floor.min f (q.mark det)) (p.mark det)

/-- A record may go over its link, whose one stream is sorted: no other destination behind it is to get an earlier one (R194). (DEDUCED, log 21.) -/
def Channel.mayCarry (ch : Channel) (det : Bool) (p : MergePoint) (f : Floor) : Bool :=
  (ch.sharers p).all fun q => decide (p.round ≤ q.round) && (q.round != p.round || f.le (q.mark det))

/-- One action of a merge point before it sends its watermark (R195): what is gone goes on as gone, the end mark, the press's release, the least safe head. A link carries the records and end marks of all the destinations behind it as one sorted stream (R194). (DEDUCED, log 21.) -/
def Channel.act (ch : Channel) (g : Group) (n choice : Nat) (p : MergePoint) : Channel :=
  match ch.fed p with
  | none => ch
  | some out =>
    if p.held.isEmpty && p.inputs.all (·.dead) then
      if p.next == .receive then ch else ch.feed p fun i => { i with gone := true }
    else if p.drained then
      if out.acceptsEnd && (ch.sharers p).all (fun q => decide (p.round < q.round) || (q.round == p.round && q.drained)) then
        let sum := (p.inputs.map fun i => i.ended.getD 0).sum
        (ch.setPoint n (p.nextRound ch g)).feed p fun i => { i with ended := some sum }
      else ch
    else
      let head := (nextHead g.det choice p).filter fun e => p.safe g.det e.2
      let room (r : Record) : Bool := out.accepts && ch.mayCarry g.det p (orderOf g.det r)
      match p.held, head with
      | a :: _, some (i, h) =>
        if h.key = a.key then ch.pressHead g n p i h (room h)
        else if p.past a.key.toNat then ch.release g n p choice (room a) else ch
      | a :: _, none => if p.past a.key.toNat then ch.release g n p choice (room a) else ch
      | [], some (i, h) => ch.pressHead g n p i h (room h)
      | [], none => ch

/-- The watermark of a point goes on when it is above the last item sent (R195); over a link it is that of all the destinations behind it (R194). -/
def Channel.watermark (ch : Channel) (g : Group) (n : Nat) : Channel :=
  match ch.points[n]? with
  | none => ch
  | some p =>
    let f := ch.linkMark g.det p
    match f, ch.fed p with
    | .value .., some out =>
      if f.le p.sent || out.isEnded || (ch.sharers p).any (fun q => decide (q.round < p.round)) then ch
      else (ch.setPoint n { p with sent := f }).feed p (·.raise f)
    | _, _ => ch

/-- MERGE_POINT_FORWARD (R195, R210): one action of a merge point of a channel that carries a group. (DESIGN CHOICE, log 5.) -/
def execMergePointForward (c : BitVec 4) (n : Nat) (s : State) : Out :=
  let ch := s.chan c
  match ch.state, ch.group, ch.points[n]? with
  | .bound, some g, some p =>
    .next ({ s with free := s.free + 1 }.setChan c ((ch.act g n (Config.freeNat s.free) p).watermark g n))
  | _, _, _ => .next s

end Sys2Proof.Machine
end

