-- ==== Sys2Proof/Machine/XPort.lean ====
section
/-! DEFINITION. Binding a channel (R183, R184, R186, R202, R213) and the sender's stream: XSEND, XSEND.m, XSENDV, XEND
and the hand-over of the send port (R185, R187 to R191, R196, R198, R203 to R205, R399 to R402). -/

namespace Sys2Proof.Machine

/-! ## Accesses of an exchange port (path X) -/

/-- No context: the ports' own accesses leave no wait marks in one. (DESIGN CHOICE, log 25.) -/
def noCtx : Nat := 442368

/-- The port of a core, acting on a task's behalf: checked in task mode (R155); `waits` are the ticks counted for what it waits for (R158). (DESIGN CHOICE, log 25.) -/
def portWho (core ctx : Nat) (waits : List (Nat × Nat)) : Who :=
  { core := core, unit := .port, mode := .task, path := .x, ctx := ctx, sptroot := 0, waits := waits, since := 0 }

/-- The port of the core whose instruction makes the access. -/
def State.xWho (s : State) : Who := portWho (coreOf s.cur) s.cur s.me.stall

/-- Two 32-bit halves as a doubleword. -/
def pair32 (hi lo : BitVec 32) : Word := hi ++ lo

/-! ## The group descriptor (R184, R202, R209, R213) -/

/-- An address of an exchange structure: aligned, bits [63:55] zero (which also leaves out the stash window). -/
def goodAddr (n : Nat) (a : Word) : Bool := a.toNat % n == 0 && decide (a.toNat < 2 ^ 55)

/-- A core number of the domain. (DEDUCED, log 7.) -/
def coreInDomain (s : State) (p k : Nat) : Bool := (s.coreAt p k).isSome

/-- PLEN suits the press (R209). -/
def pressForm (press plen : Nat) : Bool :=
  match press with
  | 0 => true
  | 6 => plen == 0
  | 7 => false
  | _ => decide (1 ≤ plen)

/-- The descriptor's own words keep the required form (R184). -/
def groupForm (s : State) (p n : Nat) (w : List Word) : Bool :=
  let g (i : Nat) : Word := (w[i]?).getD 0
  let c := (g 0).toNat
  field c 52 12 == 0 && field c 18 2 == 0 && coreInDomain s p (field c 35 17) &&
  decide (2 ≤ field c 20 15) && decide (field c 20 15 ≤ 16384) && decide (field c 9 4 ≤ 8) &&
  pressForm (field c 6 3) (field c 9 4) && field c 0 4 == n &&
  decide (1 ≤ (g 1).toNat) && decide ((g 1).toNat ≤ 65536) &&
  goodAddr 65536 (g 3) && goodAddr 8 (g 4) && goodAddr 8 (g 5) && goodAddr 16 (g 6) && goodAddr 128 (g 7) && goodAddr 64 (g 8) &&
  (w.drop 9).all (· == 0)

/-- A receive descriptor of 16 words (R213), its OWNER still as a number. -/
def recvOf (w : List Word) : RecvDesc :=
  let g (i : Nat) : Word := (w[i]?).getD 0
  { owner := field (g 0).toNat 45 19, index := bit (g 0).toNat 1, tags := bit (g 0).toNat 0, buf := g 1,
    cap := (g 2).toNat, ovf := g 3, ocap := (g 4).toNat, lo := g 5, hi := g 6, idx := g 7, sync := g 8, stat := g 9 }

/-- Its required form. -/
def recvForm (s : State) (p : Nat) (w : List Word) : Bool :=
  let g (i : Nat) : Word := (w[i]?).getD 0
  let r := recvOf w
  field (g 0).toNat 2 43 == 0 && (s.ctxAt p r.owner).isSome && goodAddr 8 r.buf &&
  decide (1 ≤ r.cap) && decide (r.cap < 2 ^ 32) && goodAddr 8 r.ovf && decide (r.ocap < 2 ^ 32) &&
  ((r.ovf == 0) == (r.ocap == 0)) && goodAddr 16 r.sync && goodAddr 64 r.stat && (w.drop 10).all (· == 0) &&
  (if r.index then decide (r.lo.toNat < r.hi.toNat) && decide (r.hi.toNat ≤ r.lo.toNat + 2 ^ 24) && goodAddr 8 r.idx
   else r.lo == 0 && r.hi == 0 && r.idx == 0)

/-- A number cut into pieces of `w` bits. -/
def pieces (w : Nat) : Nat → Nat → List Nat
  | 0, _ => []
  | n + 1, x => x % 2 ^ w :: pieces w n (x / 2 ^ w)

/-- Strictly ascending. -/
def ascending : List Nat → Bool
  | a :: b :: rest => decide (a < b) && ascending (b :: rest)
  | _ => true

/-- Non-decreasing. -/
def nonDecreasing : List Nat → Bool
  | a :: b :: rest => decide (a ≤ b) && nonDecreasing (b :: rest)
  | _ => true

/-- No value occurs twice. -/
def noRepeat : List Nat → Bool
  | [] => true
  | a :: rest => !rest.contains a && noRepeat rest

/-- The address of a table version's slot (R202). -/
def tableSlot (g : Group) (v : BitVec 32) : Nat := g.deckle.toNat + v.toNat % 2 * 0x20000

/-- XBIND's reads and checks of the descriptor and its structures, in the order of R186: the receive descriptors and the deckle table only at the first XBIND (R202, R213); a sender that names no context of the domain is accepted (DESIGN CHOICE, log 72). The sender list stays as numbers; HOME, the destinations and OWNERs are kept by index. (DEDUCED, log 45.) -/
def readGroup (n : BitVec 4) (ad : Word) (first : Bool) : M Group := do
  let s ← getS
  let who := s.xWho
  let p := pkgOf s.cur
  let w := wordsOf 32 (← readVa who ad.toNat 256)
  check (groupForm s p n.toNat w) 0x286 ad
  let v (i : Nat) : Word := (w[i]?).getD 0
  let c := (v 0).toNat
  let d := field c 20 15
  let ns := (v 1).toNat
  let dests := pieces 32 d (← readVa who (v 4).toNat (4 * d))
  let senders := pieces 32 ns (← readVa who (v 5).toNat (4 * ns))
  let recvs : List (List Word) ← if first then (do return (pieces 1024 d (← readVa who (v 7).toNat (128 * d))).map (wordsOf 16)) else pure []
  let index k := (s.coreAt p k).getD k
  let g : Group :=
    { address := ad, home := index (field c 35 17), d := d, k := field c 13 5, plen := field c 9 4,
      press := BitVec.ofNat 3 (field c 6 3), auto := bit c 5, det := bit c 4, ns := ns,
      round0 := (v 2).setWidth 32, dver0 := slice (v 2) 32 32, deckle := v 3, dests := dests.map index, senders := senders,
      status := v 6, recv := recvs.map fun w => { recvOf w with owner := (s.ctxAt p (recvOf w).owner).getD 0 }, gstat := v 8 }
  let table : List Word ← if first then (do return wordsOf d (← readVa who (tableSlot g g.dver0) (8 * d))) else pure []
  check (noRepeat dests && dests.all (coreInDomain s p) && ascending senders && recvs.all (recvForm s p) &&
    (!first || (table.head? == some (g.dver0.setWidth 64) && nonDecreasing ((table.drop 1).map (·.toNat))))) 0x286 ad
  return g

/-! ## Structures that FV4 writes -/

/-- A sender status entry (R185). (DEDUCED, log 45.) -/
def statusBytes (x : Slot) : List Byte :=
  bytesOfWords [pair32 x.round (BitVec.ofNat 32 x.sent), word (x.cancelled * 2 ^ 10 + x.fcause.toNat)]

/-- Its address. -/
def statusAddr (g : Group) (slot : Nat) : Nat := g.status.toNat + 16 * slot

/-- The group status block (R207). -/
def groupBytes (ch : Channel) : List Byte :=
  bytesOfWords ([pair32 ch.dver ch.dround, word (ch.pver.toNat * 2 ^ 32 + ch.nsamp),
    word (flag ch.tstate * 2 ^ 16 + ch.sieve.keff * 2 ^ 10 + ch.acause.toNat)] ++ List.replicate 5 0)

/-- A receive status block at the first XBIND (R214). -/
def recvBytes (g : Group) : List Byte := bytesOfWords (pair32 g.round0 0 :: List.replicate 15 0)

/-! ## XBIND -/

/-- A channel as the first XBIND sets it up (R183): its senders' cores and its routes are given. -/
def Channel.open' (g : Group) (cores : List Nat) (routes : List ((Nat × Nat) × List Nat)) : Channel where
  state := .bound
  group := some g
  slots := cores.map fun k =>
    { holder := none, core := k, pkg := pkgOfCore k, round := g.round0, sent := 0, lastKey := none,
      floor := Floor.least, queue := [], table := none, cancelled := 0, fcause := 0, stall := [] }
  points := buildTrees routes g cores
  dests := g.dests.map fun q =>
    { input := MergeInput.fresh (.package (pkgOfCore q)) 0 Floor.least, round := g.round0, started := false, written := 0,
      consumed := 0, rstart := 0, nrec := 0, ovfpos := 0, ovfn := 0, keys := [], stage := .receiving, stalled := false,
      retry := false, aborted := false, done := false, finished := 0, report := none, told := false, late := [], stall := [] }
  sieve := ⟨[], g.k, [], g.round0⟩
  dver := g.dver0
  dround := g.round0
  pver := 0
  nsamp := 0
  tstate := false
  acause := 0
  watch := 0
  opened := 0
  routes := routes
  groupDue := false
  stall := []

/-- The cores of a group's senders: those of their listed contexts (R186). -/
def senderCores (s : State) (g : Group) : List Nat :=
  g.senders.map fun n => coreOf ((s.ctxAt (pkgOf s.cur) n).getD n)

/-- Writes of which a fault leaves none (R56, R186). -/
def writeTogether (who : Who) (ws : List (Nat × List Byte)) : M Unit := do
  let ls ← collect (fun w => locateBytes who .write w.1 w.2.length) ws
  modS fun s => s.writeLocs ((ls.zip ws).flatMap fun e => e.1.zip e.2.2)

/-- A slot of a channel changed. -/
def Channel.setSlot (ch : Channel) (i : Nat) (x : Slot) : Channel := { ch with slots := ch.slots.set i x }

/-- A slot held by the task of the context whose turn it is. (DEDUCED, log 45.) -/
def bindSlot (n : BitVec 4) (ad : Word) (ch : Channel) (i : Nat) (x : Slot) : M Unit := do
  let me := (← getS).me
  modS fun s => s.setChan n (ch.setSlot i { x with holder := some me.tid })
  modMe fun y => { y with chans := set16 y.chans n (some (i, ad)) }

/-- XBIND with a descriptor (R186): a fault in one of its writes leaves none of them. It is the same descriptor if its address is (R183). (DEDUCED, log 45; DESIGN CHOICE, log 71.) -/
def bindGroup (n : BitVec 4) (ad : Word) : M Unit := do
  aligned ad 256
  let s ← getS
  let ch := s.chan n
  let first := ch.state == .free
  let g ← readGroup n ad first
  check (!g.det || s.myPkg.enable.getLsbD 5) 0x004 (instrWord (.xbind 0 n))
  let same := match ch.group with
    | some h => ch.state == .bound && h.address == ad
    | none => false
  let g := if same then ch.group.getD g else g
  match position (· == s.ctxNumber s.cur) g.senders with
  | none => trapM 0x287 ad
  | some i =>
    if (get16 s.me.chans n).isSome then
      check same 0x288 (n.setWidth 64)
    else
      check (first || same) 0x288 (n.setWidth 64)
      let fresh := if first then Channel.open' g (senderCores s g) (s.routes g) else ch
      match fresh.slots[i]? with
      | none => trapM 0x287 ad
      | some x =>
        check x.holder.isNone 0x288 (n.setWidth 64)
        writeTogether s.xWho ((statusAddr g i, statusBytes { x with sent := 0, cancelled := 0, fcause := 0 }) ::
          (if first then (g.gstat.toNat, groupBytes fresh) :: g.recv.map fun r => (r.stat.toNat, recvBytes g) else []))
        if first && !g.det then modS fun t => { t with free := t.free + 1 }
        bindSlot n ad fresh i { x with cancelled := 0, fcause := 0 }

/-- XBIND (R186, R399). -/
def execXbind (a : BitVec 5) (n : BitVec 4) (s : State) : Out :=
  complete (do
    feature 4 (.xbind a n)
    let ad := s.me.reg a
    if ad = 0 then
      match get16 s.me.chans n with
      | some (i, _) =>
        modS fun t => t.setChan n ((t.chan n).unbind i)
        modMe fun y => { y with chans := set16 y.chans n none }
      | none => pure ()
    else
      fun t => match (bindGroup n ad).run t with
        | (.error (.trap 0x004 _ r), u) => (.error (.trap 0x004 (instrWord (.xbind a n)) r), u)
        | r => r) s

/-! ## Issue of send operations (R188) -/

/-- The slot that the context holds on a channel, else 0x285. -/
def heldSlot (n : BitVec 4) : M (Nat × Slot) := do
  let s ← getS
  match get16 s.me.chans n with
  | none => trapM 0x285 (n.setWidth 64)
  | some (i, _) =>
    match (s.chan n).slots[i]? with
    | none => trapM 0x285 (n.setWidth 64)
    | some x => return (i, x)

/-- The round that an operation issued now belongs to: the slot's, and one more for every XEND that waits. -/
def Slot.issueRound (x : Slot) : BitVec 32 := x.round + BitVec.ofNat 32 (x.queue.filter fun o => o.kind == .xend).length

/-- An operation that carries records. -/
def SendKind.carries : SendKind → Bool
  | .xsend _ c _ => c != 0
  | .xsendM .. => true
  | .xend => false

/-- Whether that round already has a record-carrying operation. -/
def Slot.issueBegun (x : Slot) : Bool :=
  let tail := x.queue.reverse.takeWhile fun o => o.kind != .xend
  tail.any (·.kind.carries) || (tail.length == x.queue.length && decide (0 < x.sent))

/-- The deckle table of a round is published (R204): not awaited once the channel is ABORTED (R218). (DEDUCED, log 60.) -/
def Channel.published (ch : Channel) (round : BitVec 32) : Bool :=
  match ch.state, ch.group with
  | .bound, some g => decide (g.index round ≤ g.index ch.dround)
  | _, _ => true

/-- The first record-carrying operation of a round waits for its table (R188, R204). -/
def awaitTable (n : BitVec 4) (x : Slot) : M Unit := do
  let ch := (← getS).chan n
  if !(x.issueBegun || ch.published x.issueRound) then throw .wait

/-- An operation joins the queue of four (R188). -/
def enqueueSend (n : BitVec 4) (i : Nat) (x : Slot) (k : SendKind) : M Unit := do
  if 4 ≤ x.queue.length then throw .wait
  let s ← getS
  let op : SendOp := { kind := k, issue := s.me.pc, core := coreOf s.cur, tid := s.me.tid, ahead := [] }
  modS fun t => t.setChan n ((t.chan n).setSlot i { x with queue := x.queue ++ [op] })

/-- An address of an exchange operand (R136, R188). -/
def exchangeAddr (a : Word) : M Unit :=
  if 2 ^ 55 ≤ a.toNat then trapM 0x1C4 a (atAddr a.toNat 0) else pure ()

/-- XSEND (R188, R401). -/
def execXsend (a b : BitVec 5) (n : BitVec 4) (s : State) : Out :=
  complete (do
    let i := Instr.xsend a b n
    feature 4 i
    let (slot, x) ← heldSlot n
    exchangeAddr (s.me.reg a)
    aligned (s.me.reg a) 8
    check (decide ((s.me.reg b).toNat < 2 ^ 32)) 0x289 (instrWord i)
    if s.me.reg b ≠ 0 then awaitTable n x
    enqueueSend n slot x (.xsend (s.me.reg a) (s.me.reg b) 0)) s

/-- XSEND.m (R188, R189, R401). -/
def execXsendM (a b : BitVec 5) (n : BitVec 4) (s : State) : Out :=
  complete (do
    let i := Instr.xsendM a b n
    feature 4 i
    let (slot, x) ← heldSlot n
    exchangeAddr (s.me.reg a)
    aligned (s.me.reg a) 16
    check (decide (1 ≤ (s.me.reg b).toNat) && decide ((s.me.reg b).toNat ≤ 16)) 0x289 (instrWord i)
    awaitTable n x
    enqueueSend n slot x (.xsendM (s.me.reg a) (s.me.reg b) (List.replicate (s.me.reg b).toNat 0) true)) s

/-- XEND (R191, R400). -/
def execXend (n : BitVec 4) (s : State) : Out :=
  complete (do
    feature 4 (.xend n)
    let (slot, x) ← heldSlot n
    enqueueSend n slot x .xend) s

/-! ## Hand-over (R187, R196, R203, R205) -/

/-- The reason for which a key may not be handed over next (R187). -/
def keyReason (last : Option Word) (sent : Nat) (key : Word) : Option Nat :=
  if (match last with | some l => decide (key.toNat < l.toNat) | none => false) then some 0
  else if key = 0xFFFFFFFFFFFFFFFF#64 then some 1
  else if 2 ^ 32 - 1 ≤ sent then some 2
  else none

/-- The table of the slot's round: read at its first record, on path X (R203). -/
def slotTable (who : Who) (ch : Channel) (g : Group) (x : Slot) : M (List Word) := do
  match x.table with
  | some t => return t
  | none =>
    if ch.state != .bound then return []
    let v := g.dver0 + (x.round - g.round0)
    return (wordsOf g.d (← readVa who (tableSlot g v) (8 * g.d))).drop 1

/-- The bucket of a key (R203). -/
def bucketOf (table : List Word) (key : Word) : Nat := (table.filter fun t => decide (t.toNat ≤ key.toNat)).length

/-- The floor of a slot after a record (R196). -/
def slotFloor (det : Bool) (r : Record) : Floor := if det then .value r.key.toNat r.origin.toNat (r.seq.toNat + 1) else .value r.key.toNat 0 0

/-- Watermarks of a send port reach every destination's leaf (R194, R196). -/
def Channel.spread (ch : Channel) (i : Nat) (x : Slot) : Channel :=
  { ch with points := atLeaf i x.core none (·.raise x.floor) ch.points }

/-- One record handed over by slot `i`, `x` its state with its table, `origin` its listed context: none while the port holds back. While the channel is ABORTED the record is dropped (R218). (DESIGN CHOICE, log 20.) -/
def Channel.handOver (ch : Channel) (g : Group) (i : Nat) (x : Slot) (table : List Word) (key : Word)
    (payload : BitVec 2048) : Option Channel :=
  let r : Record := { key := key, origin := BitVec.ofNat 19 ((g.senders[i]?).getD 0), seq := BitVec.ofNat 32 x.sent, count := 1, payload := payload }
  let y := { x with sent := x.sent + 1, lastKey := some key, floor := slotFloor g.det r, table := some table }
  if ch.state != .bound then some (ch.setSlot i y)
  else
    let d := bucketOf table key
    if !leafAll i x.core (some d) (·.accepts) ch.points then none
    else
      let t := { ch with points := atLeaf i x.core (some d) (·.take g.det r) ch.points }
      let t := (t.setSlot i y).spread i y
      let sieve := if x.sent % 2 ^ g.k = 0 then { t.sieve with samples := t.sieve.samples ++ [(key, x.sent)] } else t.sieve
      some { t with sieve := sieve, watch := 0, opened := max t.opened (g.index x.round + 1) }

/-- The end of a slot's round leaves its port (R191, R196, R205): none while some leaf holds back. -/
def Channel.handEnd (ch : Channel) (g : Group) (i : Nat) (x : Slot) : Option Channel :=
  let y := { x with round := x.round + 1, sent := 0, lastKey := none, floor := Floor.least, table := none }
  if ch.state != .bound then some (ch.setSlot i y)
  else if !leafAll i x.core none (·.acceptsEnd) ch.points then none
  else
    let t := { ch with points := atLeaf i x.core none (fun m => { m with ended := some 1 }) ch.points }
    some { (t.setSlot i y) with
      sieve := { t.sieve with ends := t.sieve.ends ++ [x.round] }
      watch := 0
      opened := max t.opened (g.index x.round + 1) }

/-- The core from which a slot hands over is that of the operation (R198). -/
def Channel.placed (ch : Channel) (g : Group) (i core : Nat) : Channel :=
  if ch.state == .bound then ch.moveSlot g i core else ch

/-! ## Send commands -/

/-- The code of a send command in 0x201 (R256). -/
def SendKind.code : SendKind → Nat
  | .xsend .. => 5
  | .xsendM .. => 6
  | .xend => 7

/-- 0x201 for a send command (R256), with the words of the fault that it met (R161). -/
def sendCause (n : BitVec 4) (kind : Nat) (cause : BitVec 10) (issue : Word) (f : FaultInfo) : Pending :=
  ⟨0x201, word (cause.toNat + kind * 2 ^ 13 + n.toNat * 2 ^ 16), [issue, cause.setWidth 64, f.w3, f.w4], false⟩

/-- The status entry of a slot is written; a fault is raised as kind 7 at the task of the operation that it reports on (R185). (DEDUCED, log 46.) -/
def writeStatus (who : Who) (n : BitVec 4) (g : Group) (i : Nat) (op : SendOp) : M Unit := do
  match ((← getS).chan n).slots[i]? with
  | none => pure ()
  | some x =>
    let r ← attempt (writeBytes who (statusAddr g i) (statusBytes x))
    match r with
    | .ok _ => pure ()
    | .error (.trap c _ f) => modS fun s => s.raiseTask op.tid (sendCause n 7 c op.issue f)
    | .error e => throw e

/-- A slot's queue has changed; a channel that nothing holds any more is FREE (R183). -/
def settleChannel (n : BitVec 4) : M Unit := modS fun s => s.setChan n (s.chan n).settle

/-- A fault of a command (R187): it and every later operation are cancelled, and the task that issued it takes 0x201. (DEDUCED, log 46.) -/
def sendFault (who : Who) (n : BitVec 4) (g : Group) (i : Nat) (op : SendOp) (cause : BitVec 10) (f : FaultInfo) : M Unit := do
  match ((← getS).chan n).slots[i]? with
  | none => pure ()
  | some x =>
    modS fun s => s.setChan n ((s.chan n).setSlot i { x with queue := [], cancelled := x.queue.length, fcause := cause })
    writeStatus who n g i op
    modS fun s => s.raiseTask op.tid (sendCause n op.kind.code cause op.issue f)
    settleChannel n

/-- Key and payload of a record in memory (R180). -/
def readRecord (who : Who) (plen : Nat) (va : Nat) : M (Word × BitVec 2048) := do
  let n ← readVa who va (8 + 32 * plen)
  return (word n, BitVec.ofNat 2048 (n / 2 ^ 64))

/-- The head of a run of XSEND.m (R189): its index, the address and the key of its next record, how many records it has left. -/
structure RunHead where
  run : Nat
  va : Nat
  key : Word
  left : Nat
  deriving DecidableEq, Repr

/-- The heads of the runs that have records left; all 64 bits of word 1 of an entry are the run's count (R189). (DESIGN CHOICE, log 70.) -/
def runHeads (who : Who) (plen : Nat) (table : Nat) : List (Nat × Nat) → M (List RunHead)
  | [] => pure []
  | (j, taken) :: rest => do
    let e ← readVa who (table + 16 * j) 16
    let a := e % 2 ^ 64
    let count := e / 2 ^ 64
    if a % 8 ≠ 0 then trapM 0x010 (word a) (atAddr a 0)
    if 2 ^ 55 ≤ a then trapM 0x1C4 (word a) (atAddr a 0)
    let va := a + taken * (8 + 32 * plen)
    if taken < count then
      let k ← readVa who va 8
      let more ← runHeads who plen table rest
      return ⟨j, va, word k, count - taken⟩ :: more
    else runHeads who plen table rest

/-- The next record of a command and what is left of it: none when the port has read everything. -/
def nextRecord (who : Who) (plen : Nat) (k : SendKind) : M (Option (Nat × SendKind)) := do
  match k with
  | .xsend a c done =>
    if c.toNat ≤ done then return none
    else return some (a.toNat + done * (8 + 32 * plen), .xsend a c (done + 1))
  | .xsendM t c taken _ =>
    let hs ← runHeads who plen t.toNat ((span 0 taken.length).zip taken)
    match leastBy (fun (h : RunHead) => h.key.toNat) hs with
    | none => return none
    | some h =>
      return some (h.va, .xsendM t c (taken.set h.run ((taken[h.run]?).getD 0 + 1)) (decide (1 < hs.length) || decide (1 < h.left)))
  | .xend => return none

/-- A record as the port has read it, with its address, and the operation without it: the first of those read ahead, otherwise one that is read now; none when all are handed over. -/
def takeRecord (who : Who) (plen : Nat) (op : SendOp) : M (Option ((Nat × Word × BitVec 2048) × SendOp)) := do
  match op.ahead with
  | r :: rest => return some (r, { op with ahead := rest })
  | [] =>
    match ← nextRecord who plen op.kind with
    | none => return none
    | some (va, k) => return some ((va, ← readRecord who plen va), { op with kind := k })

/-- The head operation of a slot completes: it leaves the queue and the status entry is written (R185). -/
def completeSend (who : Who) (n : BitVec 4) (g : Group) (i : Nat) (op : SendOp) : M Unit := do
  modS fun s =>
    match (s.chan n).slots[i]? with
    | some x => s.setChan n ((s.chan n).setSlot i { x with queue := x.queue.drop 1 })
    | none => s
  writeStatus who n g i op
  settleChannel n

/-- The head operation of a slot goes on as `op`. -/
def State.continueSend (s : State) (n : BitVec 4) (i : Nat) (op : SendOp) : State :=
  match (s.chan n).slots[i]? with
  | some x => s.setChan n ((s.chan n).setSlot i { x with queue := op :: x.queue.drop 1 })
  | none => s

/-- One record of a command is handed over; its faults are those of R187. -/
def handRecord (who : Who) (n : BitVec 4) (g : Group) (i : Nat) (x : Slot) (r : Nat × Word × BitVec 2048) (op : SendOp) : M Unit := do
  match keyReason x.lastKey x.sent r.2.1 with
  | some _ => trapM 0x283 0 (atAddr r.1 0)
  | none =>
    let s ← getS
    let ch := (s.chan n).placed g i op.core
    let x := (ch.slots[i]?).getD x
    let table ← slotTable who ch g x
    match ch.handOver g i x table r.2.1 r.2.2 with
    | none => throw .wait
    | some t =>
      modS fun u => (u.setChan n t).continueSend n i op

/-- How many records an operation has left that the port cannot read, on an ABORTED channel: those that its count or its run table gives (R218). (DEDUCED, log 60.) -/
def recordsLeft (who : Who) (k : SendKind) : M Nat := do
  match k with
  | .xsend _ c done => return c.toNat - done
  | .xsendM t _ taken _ =>
    let ns ← collect (fun (e : Nat × Nat) => do
      match ← attempt (readVa who (t.toNat + 16 * e.1 + 8) 8) with
      | .ok n => return n - e.2
      | .error (.trap ..) => return 0
      | .error w => throw w) ((span 0 taken.length).zip taken)
    return ns.sum
  | .xend => return 0

/-- One action of the send port for the head operation of a slot (R187). While the channel is ABORTED records and end marks are dropped and no fault is raised (R218). (DEDUCED, log 8 and 60.) -/
def portAction (n : BitVec 4) (g : Group) (i : Nat) (x : Slot) (op : SendOp) : M Unit := do
  let who := portWho op.core noCtx x.stall
  if op.kind == .xend then
    let ch := ((← getS).chan n).placed g i op.core
    match ch.handEnd g i ((ch.slots[i]?).getD x) with
    | none => throw .wait
    | some t =>
      modS fun s => s.setChan n t
      completeSend who n g i op
  else if ((← getS).chan n).state != .bound then
    let r ← attempt (takeRecord who g.plen op)
    match r with
    | .ok (some (_, op')) =>
      modS fun s => (s.setChan n ((s.chan n).setSlot i { x with sent := x.sent + 1 })).continueSend n i op'
    | .ok none => completeSend who n g i op
    | .error (.trap ..) =>
      let left ← recordsLeft who op.kind
      modS fun s => s.setChan n ((s.chan n).setSlot i { x with sent := x.sent + left })
      completeSend who n g i op
    | .error e => throw e
  else
    let r ← attempt (do
      match ← takeRecord who g.plen op with
      | none => return true
      | some (rec, op') =>
        handRecord who n g i x rec op'
        return false)
    match r with
    | .ok done => if done then completeSend who n g i op
    | .error (.trap c _ f) => sendFault who n g i op c f
    | .error e => throw e

/-- The ticks that the port of a slot waits (R158). -/
def State.slotWaits (s : State) (n : BitVec 4) (i : Nat) (keys : List Nat) : State :=
  match (s.chan n).slots[i]? with
  | some x =>
    let limit := s.limitOf ((x.queue.head?.map (·.core)).getD x.core)
    if x.stall.isEmpty && keys.isEmpty then s
    else s.setChan n ((s.chan n).setSlot i { x with stall := if keys.isEmpty then [] else waitsAfter limit x.stall keys })
  | none => s

/-- What the port of a slot does ends: a wait leaves everything as it was but for the ticks that are counted. -/
def State.slotAction (s : State) (n : BitVec 4) (i : Nat) (m : M Unit) : State :=
  match m.run s with
  | (.ok _, t) => t.slotWaits n i []
  | (.error (.waitOn ks), _) => s.slotWaits n i ks
  | (.error _, _) => s

/-- SEND_PORT_HANDOVER (R187, R198): the port takes the head operation of a slot one action further, also while its context is switched out, but not without power (R278). -/
def execSendPortHandover (n : BitVec 4) (i : Nat) (s : State) : Out :=
  let ch := s.chan n
  match ch.group, ch.slots[i]? with
  | some g, some x =>
    match x.queue with
    | [] => .next s
    | op :: _ => .next (if (s.pkg (pkgOfCore op.core)).off then s else s.slotAction n i (portAction n g i x op))
  | _, _ => .next s

/-- The queue of a slot with the next record of its first operation that has one left read ahead. -/
def readAhead (who : Who) (plen : Nat) : List SendOp → M (List SendOp)
  | [] => pure []
  | op :: rest => do
    if !op.unread then return op :: (← readAhead who plen rest)
    else
      match ← nextRecord who plen op.kind with
      | none => return { op with kind := match op.kind with
          | .xsendM t c taken _ => .xsendM t c taken false
          | k => k } :: rest
      | some (va, k) =>
        let r ← readRecord who plen va
        return { op with kind := k, ahead := op.ahead ++ [(va, r)] } :: rest

/-- SREAD turn: the port reads a record of a slot's queue before its hand-over (R172, R176); one whose reading faults or waits is read at its turn. (DESIGN CHOICE, log 9 and 20.) -/
def State.portReads (s : State) (n : BitVec 4) (i : Nat) : State :=
  let ch := s.chan n
  match ch.state, ch.group, ch.slots[i]? with
  | .bound, some g, some x =>
    match x.queue with
    | [] => s
    | op :: _ =>
      match (readAhead (portWho op.core noCtx []) g.plen x.queue).run s with
      | (.ok q, t) => t.setChan n ((t.chan n).setSlot i { x with queue := q })
      | (.error _, _) => s
  | _, _, _ => s

/-! ## XSENDV (R190, R402) -/

/-- The registers that hold the payload. -/
def payloadRegs (b : BitVec 5) (plen : Nat) : List (BitVec 5) := (span b.toNat (4 * plen)).map (BitVec.ofNat 5)

/-- The first element whose key may not be handed over, with the reason. -/
def badKey (last : Option Word) (sent : Nat) : List (Nat × Word) → Option (Nat × Nat)
  | [] => none
  | (e, k) :: rest =>
    match keyReason last sent k with
    | some r => some (e, r)
    | none => badKey (some k) (sent + 1) rest

/-- The checks of R190 after the channel's that need no key. -/
def xsendvForm (i : Instr) (a b : BitVec 5) (g : Group) : M Unit := do
  let c := (← getS).me
  check (c.width == 64 && decide (b.toNat + 4 * g.plen ≤ 32)) 0x289 (instrWord i)
  tagIs a .i64
  each (fun r => tagIn r (fun t => t != .unset && !t.isSb) 1) (payloadRegs b g.plen)

/-- The check of the keys against those that the round already has, so made once older operations are done; nothing is refused while the channel is ABORTED (R218). (DEDUCED, log 60.) -/
def xsendvKeys (a : BitVec 5) (ch : Channel) (x : Slot) : M Unit := do
  let c := (← getS).me
  if ch.state == .bound then
    match badKey x.lastKey x.sent ((span c.vstart.toNat (c.vl.toNat - c.vstart.toNat)).map fun e => (e, word (c.at a e))) with
    | some (e, r) => trapM 0x283 (word (r * 2 ^ 11 + e))
    | none => pure ()

/-- The table for an element of XSENDV: a fault names the address that faulted (R203). -/
def elementTable (who : Who) (ch : Channel) (g : Group) (x : Slot) : M (List Word) := do
  match ← attempt (slotTable who ch g x) with
  | .ok t => return t
  | .error (.trap c _ f) => trapM c f.w3 f
  | .error e => throw e

/-- XSENDV (R190, R402). A machine step hands over one element; it waits while older operations or the port hold it back. (DEDUCED, log 8.) -/
def execXsendv (a b : BitVec 5) (n : BitVec 4) (s : State) : Out :=
  finishOpen (do
    let i := Instr.xsendv a b n
    feature 4 i
    let (slot, x) ← heldSlot n
    let ch := s.chan n
    match ch.group with
    | none => trapM 0x285 (n.setWidth 64)
    | some g =>
      xsendvForm i a b g
      let e := s.me.vstart.toNat
      if s.me.vl.toNat ≤ e then modMe fun c => { c.advance with vstart := 0 }
      else
        if !x.queue.isEmpty then throw .wait
        xsendvKeys a ch x
        awaitTable n x
        let ch := ch.placed g slot (coreOf s.cur)
        let x := (ch.slots[slot]?).getD x
        let table ← elementTable s.xWho ch g x
        let payload := ((payloadRegs b g.plen).zip (span 0 (4 * g.plen))).foldl
          (fun v r => splice v (64 * r.2) 64 (s.me.at r.1 e)) (0 : BitVec 2048)
        match ch.handOver g slot x table (word (s.me.at a e)) payload with
        | none => throw .wait
        | some t =>
          modS fun u => u.setChan n t
          modMe fun c =>
            if e + 1 < c.vl.toNat then { c with vstart := BitVec.ofNat 11 (e + 1), stall := [], busy := false }
            else { c.advance with vstart := 0 }) s

end Sys2Proof.Machine
end

