-- ==== Sys2Proof/Machine/XDeliver.lean ====
section
/-! DEFINITION. The receiving side of the keyed exchange: delivery (R213 to R217), the sieve (R205 to R207, R425),
aborts (R199, R218) and XSPLIT (R208, R403). -/

namespace Sys2Proof.Machine

/-! ## Causes at OWNER (R217) -/

/-- A cause for OWNER goes to the context with that number; a 0x28A that is pending for the same STAT is not raised twice. (DEDUCED, log 46.) -/
def State.raiseOwner (s : State) (r : RecvDesc) (cause : BitVec 10) (info : Word) : State :=
  let p : Pending := ⟨cause, info, [0, 0, 0, 0], true⟩
  if (s.ctx r.owner).pending.any fun q => q.cause == 0x28A#10 && q.cause == cause && q.info == info then s
  else s.raise r.owner p

/-! ## The receive status block (R214) -/

/-- The address of word `i` of a status block. -/
def statWord (r : RecvDesc) (i : Nat) : Nat := r.stat.toNat + 8 * i

/-- The parity of a destination's round. -/
def Dest.parity (d : Dest) : Nat := d.round.toNat % 2

/-- Bytes cut into pieces of 8. -/
def eights : Nat → List (Loc × Byte) → List (List (Loc × Byte))
  | 0, _ => []
  | n + 1, w => if w.isEmpty then [] else w.take 8 :: eights n (w.drop 8)

/-- A write of the port is found its place and joins those of the round that are to be placed (R176). -/
def putLate (who : Who) (va : Nat) (bs : List Byte) (d : Dest) : M Dest := do
  let ls ← locateBytes who .write va bs.length
  return { d with late := d.late ++ eights bs.length (ls.zip bs) }

/-- The port's writes are placed: as one write, so that whole lines are no longer poisoned (R265). (DEDUCED, log 26.) -/
def State.placeWrites (s : State) (d : Dest) : State := if d.late.isEmpty then s else s.writeLocs d.late.flatten

/-- The same as a meaning does it. -/
def placeM (d : Dest) : M Dest := do
  modS fun s => s.placeWrites d
  return { d with late := [] }

/-- Word 0: the round being received and WRITTEN. -/
def putHead (who : Who) (r : RecvDesc) (d : Dest) : M Dest :=
  putLate who (statWord r 0) (bytesOfWords [pair32 d.round d.written]) d

/-- The entry of the round: RSTART, NREC, OVFPOS, OVFN, IDXRES, CAUSE and STATE. -/
def putEntry (who : Who) (r : RecvDesc) (d : Dest) (idxres : Nat) (cause : BitVec 10) (state : Nat) : M Dest :=
  putLate who (statWord r (8 + 4 * d.parity)) (bytesOfWords
    [pair32 d.round d.rstart, word (d.nrec * 2 ^ 32 + d.ovfpos), word (d.ovfn * 2 ^ 32 + idxres),
     word (cause.toNat * 16 + state)]) { d with told := false }

/-- CAUSE and STATE alone. (DEDUCED, log 47.) -/
def putState (who : Who) (r : RecvDesc) (d : Dest) (cause : BitVec 10) (state : Nat) : M Dest :=
  putLate who (statWord r (11 + 4 * d.parity)) (bytesOfWords [word (cause.toNat * 16 + state)]) { d with told := false }

/-- IDXRES, CAUSE and STATE of an index that has stopped at entry `j`. -/
def putIndexState (who : Who) (r : RecvDesc) (d : Dest) (j : Nat) (cause : BitVec 10) : M Dest :=
  putLate who (statWord r (10 + 4 * d.parity)) (bytesOfWords [word (d.ovfn * 2 ^ 32 + j), word (cause.toNat * 16 + 3)]) d

/-! ## Delivery (R215) -/

/-- The size of a delivered record (R213). -/
def recordBytes (g : Group) (r : RecvDesc) : Nat := 8 + (if r.tags then 8 else 0) + 32 * g.plen

/-- The bytes of a delivered record: key, tag word if asked for, payload (R181, R213). -/
def recordImage (g : Group) (r : RecvDesc) (x : Record) : List Byte :=
  bytesOf 8 x.key.toNat ++
  (if r.tags then bytesOf 8 (x.origin.toNat * 2 ^ 45 + x.seq.toNat * 2 ^ 13 + x.count.toNat) else []) ++
  bytesOf (32 * g.plen) x.payload.toNat

/-- The ring is full. -/
def Dest.full (d : Dest) (r : RecvDesc) : Bool := decide (r.cap ≤ (d.written - d.consumed).toNat)

/-- Where the next record goes: a ring position, an overflow position, or nowhere (R215). -/
inductive Place where
  | ring
  | overflow
  | nowhere
  deriving DecidableEq, Repr

/-- The table of R215. -/
def Dest.place (d : Dest) (r : RecvDesc) : Place :=
  if d.ovfn = 0 then
    if !d.full r then .ring else if r.ovf ≠ 0 then .overflow else .nowhere
  else if d.ovfn < r.ocap then .overflow
  else if !d.full r then .ring else .nowhere

/-- What a port's action leaves: the destination it reached and, if it stopped, the stop. -/
abbrev Reached : Type := Dest × Option Stop

/-- Word 0 and then the entry of a round that is being received; a fault leaves what comes before it. -/
def putCounters (who : Who) (r : RecvDesc) (d : Dest) : M Reached := do
  match ← attempt (putHead who r d) with
  | .error stop => return (d, some stop)
  | .ok e =>
    match ← attempt (putEntry who r e 0 0 0) with
    | .error stop => return (e, some stop)
    | .ok e => return (e, none)

/-- The first item of a round starts its entry (R214). -/
def startRound (who : Who) (r : RecvDesc) (d : Dest) : M Reached := do
  if d.started then return (d, none)
  else
    match ← putCounters who r { d with rstart := d.written, nrec := 0, ovfpos := 0, ovfn := 0, keys := [] } with
    | (e, some stop) => return ({ d with late := e.late }, some stop)
    | (e, none) => return ({ e with started := true }, none)

/-- CONSUMED as software has left it. -/
def readConsumed (who : Who) (r : RecvDesc) (d : Dest) : M Dest := do
  return { d with consumed := BitVec.ofNat 32 (← readVa who (statWord r 1) 8) }

/-- Where a record goes: its address in the ring or the overflow area, and the destination with it counted; none when it is not accepted. -/
def Dest.takeRecord (d : Dest) (r : RecvDesc) (size : Nat) (x : Record) : Option (Nat × Dest) :=
  let e := { d with nrec := d.nrec + 1, keys := d.keys ++ [x.key], input := { d.input with head := none } }
  match d.place r with
  | .nowhere => none
  | .ring => some (r.buf.toNat + d.written.toNat % r.cap * size, { e with written := d.written + 1, stage := .counters false })
  | .overflow =>
    let first := d.ovfn == 0
    some (r.ovf.toNat + d.ovfn * size,
      { e with ovfn := d.ovfn + 1, ovfpos := if first then d.nrec else d.ovfpos, stage := .counters first })

/-- The status words of a record that is written; a fault leaves the destination at them (R217). The Bool tells the round's first overflow. -/
def countersStep (who : Who) (r : RecvDesc) (d : Dest) (first : Bool) : M (Reached × Bool) := do
  match ← putCounters who r d with
  | (e, some stop) => return ((e, some stop), false)
  | (e, none) => return (({ e with stage := .receiving }, none), first)

/-- The head record of a round that has started is delivered, if the port accepts it. -/
def deliverAction (who : Who) (g : Group) (r : RecvDesc) (d : Dest) (x : Record) : M (Reached × Bool) := do
  let a ← attempt (if d.full r then readConsumed who r d else pure d)
  match a with
  | .error stop => return ((d, some stop), false)
  | .ok e =>
    let image := recordImage g r x
    match e.takeRecord r (recordBytes g r) x with
    | none => return ((e, none), false)
    | some (va, t) =>
      match ← attempt (putLate who va image t) with
      | .error stop => return ((e, some stop), false)
      | .ok t =>
        match t.stage with
        | .counters first => countersStep who r t first
        | _ => return ((t, none), false)

/-! ## Completion (R216) -/

/-- IDX[j]: the number of the round's records with key below LO + j. -/
def indexEntry (r : RecvDesc) (d : Dest) (j : Nat) : Nat := (d.keys.filter fun k => decide (k.toNat < r.lo.toNat + j)).length

/-- The arrival at SYNC: the cause that an overrun or a malformed object leaves in the entry, 0 if none. -/
def arriveSync (who : Who) (r : RecvDesc) : M (BitVec 10) := do
  let a ← attempt (updateObject who.onO r.sync fun w0 w1 => arrived w0 w1 1)
  match a with
  | .ok _ => return 0
  | .error (.trap 0x301 _ _) => return 0x301
  | .error (.trap 0x302 _ _) => return 0x302
  | .error e => throw e

/-- Index entries from `j` on; a fault leaves the destination at its entry. -/
def putIndex (who : Who) (r : RecvDesc) (d : Dest) : List Nat → M Reached
  | [] => return (d, none)
  | j :: rest => do
    let w ← attempt (putLate who (r.idx.toNat + 4 * j) (bytesOf 4 (indexEntry r d j)) d)
    match w with
    | .ok e => putIndex who r e rest
    | .error stop => return ({ d with stage := .index j }, some stop)

/-- A destination at the end of its round. -/
def Dest.roundDone (d : Dest) : Dest :=
  { d with
    input := { d.input with ended := none, floor := Floor.least }, round := d.round + 1, started := false, nrec := 0,
    ovfpos := 0, ovfn := 0, keys := [], stage := .receiving, told := false, finished := d.finished + 1 }

/-- The cause that an arrival leaves, with STATE = 1; a fault of this status write leaves the destination at it. (DEDUCED, log 47.) -/
def markStep (who : Who) (r : RecvDesc) (d : Dest) (cause : BitVec 10) : M Reached := do
  let a ← attempt (putState who r d cause 1)
  match a with
  | .error stop => return ({ d with stage := .mark cause }, some stop)
  | .ok e => return (e.roundDone, none)

/-- The arrival step, once the writes of the round are placed (R176); its fault leaves the destination there. -/
def syncStep (who : Who) (r : RecvDesc) (d : Dest) : M Reached := do
  let e ← placeM { d with stage := .sync }
  let a ← attempt (arriveSync who r)
  match a with
  | .error stop => return (e, some stop)
  | .ok cause => if cause = 0 && !e.told then return (e.roundDone, none) else markStep who r e cause

/-- The status step. -/
def statusStep (who : Who) (r : RecvDesc) (d : Dest) : M Reached := do
  let e := { d with stage := .status }
  let a ← attempt (putEntry who r e 0 0 1)
  match a with
  | .error stop => return (e, some stop)
  | .ok e => syncStep who r e

/-- The index step from entry j. -/
def indexStep (who : Who) (r : RecvDesc) (d : Dest) (j : Nat) : M Reached := do
  if !r.index then statusStep who r d
  else
    match ← putIndex who r d (span j (r.hi.toNat - r.lo.toNat + 1 - j)) with
    | (e, some stop) => return (e, some stop)
    | (e, none) => statusStep who r e

/-- A read of CONSUMED by itself; an entry that told of its fault tells of it no more. -/
def pollAction (who : Who) (r : RecvDesc) (d : Dest) : M (Reached × Bool) := do
  let a ← attempt (do
    let e ← readConsumed who r d
    if d.told then putState who r e 0 0 else return e)
  match a with
  | .ok e => return ((e, none), false)
  | .error stop => return ((d, some stop), false)

/-- The completion of a round that has started, from the stage it has reached. -/
def stageAction (who : Who) (r : RecvDesc) (d : Dest) : M Reached :=
  match d.stage with
  | .receiving => indexStep who r d 0
  | .counters _ => indexStep who r d 0
  | .index j => indexStep who r d j
  | .status => statusStep who r d
  | .sync => syncStep who r d
  | .mark cause => markStep who r d cause

/-- Something of a round has reached the port: a record, an end mark or a watermark (R214). -/
def Dest.reached (d : Dest) : Bool := d.input.head.isSome || d.input.ended.isSome || d.input.floor != Floor.least

/-- What a destination does next: write the status words of a record that is written, start the entry of a round that something has reached, deliver its head record, or complete its round from where it stands (R214 to R216). The Bool tells the first overflow of a round. (DEDUCED, log 8 and 47.) -/
def destAction (who : Who) (g : Group) (r : RecvDesc) (d : Dest) : M (Reached × Bool) := do
  match d.stage with
  | .counters first => countersStep who r d first
  | _ =>
    if !d.reached then pollAction who r d
    else
      match ← startRound who r d, d.input.head with
      | (e, some stop), _ => return ((e, some stop), false)
      | (e, none), some x => deliverAction who g r e x
      | (e, none), none => if d.input.ended.isSome then return (← stageAction who r e, false) else return ((e, none), false)

/-! ## Delivery faults (R217) -/

/-- A write of a fault report: one that faults is not made (R217), one that waits is made later. -/
def tryWrite (d : Dest) (m : M Dest) : M Dest := do
  match ← attempt m with
  | .ok e => return e
  | .error (.trap ..) => return d
  | .error e => throw e

/-- FADDR, CAUSE and STATE of a fault, by the stage at which the destination stands; of the entry of a round that nothing has reached yet these words alone. (DEDUCED, log 47.) -/
def reportFault (who : Who) (r : RecvDesc) (d : Dest) (cause : BitVec 10) (at_ : Word) : M Unit := do
  let d ← tryWrite d (putLate who (statWord r 2) (bytesOfWords [at_]) d)
  let d ← tryWrite d (match d.stage with
    | .receiving => putState who r d cause 2
    | .counters _ => putState who r d cause 2
    | .status => putState who r d cause 2
    | .index j => putIndexState who r d j cause
    | .sync => putState who r d cause 1
    | .mark _ => putState who r d cause 1)
  let _ ← placeM d

/-- A destination changed. -/
def Channel.setDest (ch : Channel) (i : Nat) (d : Dest) : Channel := { ch with dests := ch.dests.set i d }

/-- The same on a channel of the domain. -/
def State.setDest (s : State) (c : BitVec 4) (i : Nat) (d : Dest) : State := s.setChan c ((s.chan c).setDest i d)

/-- The port of a destination, with the ticks counted for what it waits for. -/
def destWho (g : Group) (i : Nat) (d : Dest) : Who := portWho ((g.dests[i]?).getD 0) noCtx d.stall

/-- The report of a fault that is due is written, and 0x28A is raised at OWNER once it is (R217). (DEDUCED, log 47.) -/
def State.portReport (s : State) (c : BitVec 4) (i : Nat) (g : Group) (r : RecvDesc) (d : Dest) : State :=
  match d.report with
  | none => s
  | some (cause, at_) =>
    match (reportFault (destWho g i d) r { d with late := [] } cause at_).run (s.placeWrites d) with
    | (.ok _, t) => (t.setDest c i { d with report := none, told := true, late := [], stall := [] }).raiseOwner r 0x28A r.stat
    | (.error (.waitOn ks), t) => t.setDest c i { d with late := [], stall := waitsAfter (s.limitOf ((g.dests[i]?).getD 0)) d.stall ks }
    | (.error _, t) => t.setDest c i { d with late := [] }

/-- A receive port's action on a channel: progress resets the watchdog, a fault stalls the port and is reported, a wait leaves the port where it has come to. With `hold` its writes are placed later (R176). (DEDUCED, log 47; DESIGN CHOICE, log 9.) -/
def State.portStep (s : State) (c : BitVec 4) (i : Nat) (g : Group) (r : RecvDesc) (d : Dest) (hold : Bool)
    (act : Who → M (Reached × Bool)) : State :=
  match (act (destWho g i d)).run s with
  | (.error _, _) => s
  | (.ok ((e, stop), first), t) =>
    let (t, e) := if hold && stop.isNone then (t, e) else (t.placeWrites e, { e with late := [] })
    match stop with
    | none =>
      let ch := t.chan c
      let moved := e.nrec != d.nrec || e.finished != d.finished
      let ch := { (ch.setDest i { e with stall := [] }) with watch := if moved then 0 else ch.watch }
      let ch := if e.finished != d.finished then ch.settle else ch
      let t := t.setChan c ch
      if first then t.raiseOwner r 0x281 r.stat else t
    | some (.trap cause _ f) =>
      let e := { e with stalled := true, report := some (cause, f.w3), stall := [] }
      (t.setDest c i e).portReport c i g r e
    | some (.waitOn ks) => t.setDest c i { e with stall := waitsAfter (s.limitOf ((g.dests[i]?).getD 0)) d.stall ks }
    | some .wait => t.setDest c i e

/-- A receive port acts: a report that is due comes first, and while a fault stalls the port it does nothing else; nor does it without power (R278). -/
def State.portAct (s : State) (c : BitVec 4) (i : Nat) (g : Group) (r : RecvDesc) (d : Dest) (ready hold : Bool)
    (act : Who → M (Reached × Bool)) : State :=
  if (s.pkg (pkgOfCore ((g.dests[i]?).getD 0))).off then s
  else if d.report.isSome then s.portReport c i g r d
  else if d.stalled || !ready then s
  else s.portStep c i g r d hold act

/-- A destination of a channel that carries a group, with its descriptor. -/
def destOf (ch : Channel) (i : Nat) : Option (Group × RecvDesc × Dest) :=
  match ch.group with
  | none => none
  | some g =>
    match g.recv[i]?, ch.dests[i]? with
    | some r, some d => some (g, r, d)
    | _, _ => none

/-- A record is written whose status words are not. -/
def Stage.isCounters : Stage → Bool
  | .counters _ => true
  | _ => false

/-- RECORD_DELIVERY (R215), and the start of the entry of a round that only a watermark has reached (R214). -/
def execRecordDelivery (c : BitVec 4) (i : Nat) (s : State) : Out :=
  let ch := s.chan c
  match ch.state, destOf ch i with
  | .bound, some (g, r, d) => .next (s.portAct c i g r d (d.input.head.isSome || d.stage.isCounters || (!d.started && d.reached)) false fun who => destAction who g r d)
  | _, _ => .next s

/-- CONSUMED_POLL (R215): while the ring is full CONSUMED is read again, but not in the completion of a round, which delivers nothing. (DEDUCED, log 47.) -/
def execConsumedPoll (c : BitVec 4) (i : Nat) (s : State) : Out :=
  let ch := s.chan c
  match ch.state, destOf ch i with
  | .bound, some (g, r, d) => .next (s.portAct c i g r d (d.full r && d.stage == .receiving) false fun who => pollAction who r d)
  | _, _ => .next s

/-! ## Aborts (R199, R218) -/

/-- What is left to do at an aborted destination: its status write, its arrival, the cause that the arrival leaves, FADDR. The stages that lead there are `receiving`, `sync`, `mark` and `status`; a fault is kept as the report that is due. (DEDUCED, log 60.) -/
def abortStep (who : Who) (r : RecvDesc) (d : Dest) (cause : BitVec 10) : M Reached := do
  let last (e : Dest) : M Reached :=
    return ({ e with stage := .status }, none)
  let failed (e : Dest) (f : FaultInfo) : Dest := { e with report := some ((e.report.map (·.1)).getD 0x28A, (e.report.map (·.2)).getD f.w3) }
  match d.stage with
  | .sync =>
    match ← attempt (arriveSync who r) with
    | .ok 0 => last d
    | .ok mark => return ({ d with stage := .mark mark }, none)
    | .error (.trap _ _ f) => last (failed d f)
    | .error stop => return (d, some stop)
  | .mark mark =>
    match ← attempt (putState who r d mark 4) with
    | .ok e => last e
    | .error (.trap _ _ f) => last (failed d f)
    | .error stop => return (d, some stop)
  | .status =>
    match d.report with
    | none => return ({ d with done := true }, none)
    | some (_, at_) =>
      match ← attempt (tryWrite d (putLate who (statWord r 2) (bytesOfWords [at_]) d)) with
      | .ok e => return ({ e with done := true }, none)
      | .error stop => return (d, some stop)
  | _ =>
    let e := { d with rstart := if d.started then d.rstart else d.written }
    match ← attempt (putEntry who r e 0 cause 4) with
    | .ok e => return ({ e with stage := .sync }, none)
    | .error (.trap _ _ f) => return ({ failed e f with stage := .sync }, none)
    | .error stop => return (d, some stop)

/-- An aborted destination goes as far as it can, if its port has power (R278); what is done stays done while the rest waits. `fuel` bounds its stages. (DEDUCED, log 60.) -/
def State.endAborted (s : State) (c : BitVec 4) (i : Nat) : Nat → State
  | 0 => s
  | fuel + 1 =>
    let ch := s.chan c
    match destOf ch i with
    | none => s
    | some (g, r, d) =>
      if !d.aborted || d.done || (s.pkg (pkgOfCore ((g.dests[i]?).getD 0))).off then s
      else
        match (abortStep (destWho g i d) r d ch.acause).run s with
        | (.error _, _) => s
        | (.ok (e, some (.waitOn ks)), t) =>
          (t.placeWrites e).setDest c i { e with late := [], stall := waitsAfter (s.limitOf ((g.dests[i]?).getD 0)) d.stall ks }
        | (.ok (e, some _), t) => (t.placeWrites e).setDest c i { e with late := [] }
        | (.ok (e, none), t) =>
          let t := (t.placeWrites e).setDest c i { e with late := [], stall := [] }
          let t := if e.done && e.report.isSome then t.raiseOwner r 0x28A r.stat else t
          t.endAborted c i fuel

/-- Every OWNER of a group takes a cause of the channel, also one that holds a slot (R217, R218). (DEDUCED, log 46.) -/
def State.raiseOwners (s : State) (g : Group) (cause : BitVec 10) (info : Word) : State :=
  ((g.recv.map (·.owner)).eraseDups).foldl (fun s o => s.raise o ⟨cause, info, [0, 0, 0, 0], true⟩) s

/-- The cause of an abort reaches every slot holder, and every OWNER unless the watchdog aborts (R199, R218, R425). -/
def State.raiseAbort (s : State) (c : BitVec 4) (g : Group) (cause : BitVec 10) : State :=
  let tids := (s.chan c).slots.filterMap (·.holder)
  let t := tids.foldl (fun t tid => t.raiseTask tid ⟨cause, c.setWidth 64, [0, 0, 0, 0], false⟩) s
  if cause = 0x284#10 then t else t.raiseOwners g cause (c.setWidth 64)

/-- The group status block of an aborted channel is written; a fault in it makes the cause 0x28C, a wait leaves it due (R158, R425). The cause is that of the abort so far. (DEDUCED, log 60.) -/
def State.putGroup (s : State) (c : BitVec 4) (g : Group) : State × BitVec 10 :=
  let ch := s.chan c
  if (s.pkg (pkgOfCore g.home)).off then (s.setChan c { ch with groupDue := true }, ch.acause)
  else match (writeBytes (portWho g.home noCtx ch.stall) g.gstat.toNat (groupBytes ch)).run s with
  | (.ok _, t) => (t.setChan c { t.chan c with groupDue := false, stall := [] }, ch.acause)
  | (.error (.trap ..), t) => (t.setChan c { t.chan c with groupDue := false, stall := [], acause := 0x28C }, 0x28C)
  | (.error (.waitOn ks), t) => (t.setChan c { t.chan c with groupDue := true, stall := waitsAfter (s.limitOf g.home) ch.stall ks }, ch.acause)
  | (.error _, t) => (t.setChan c { t.chan c with groupDue := true }, ch.acause)

/-- A destination as its channel becomes ABORTED: one whose arrival is made has ended its round. (DEDUCED, log 60.) -/
def Dest.toAborted (opened : Nat) (d : Dest) : Dest :=
  let d := match d.stage with
    | .mark _ => d.roundDone
    | _ => d
  { d with
    aborted := decide (d.finished < opened), done := false, stalled := false, retry := false, report := none, told := false
    late := [], stage := .receiving, stall := [], input := { d.input with head := none, ended := none } }

/-- The channel becomes ABORTED with a cause (R183, R199, R218, R425); records already written stay. (DEDUCED, log 46 and 60.) -/
def State.abortChannel (s : State) (c : BitVec 4) (cause : BitVec 10) : State :=
  let ch := s.chan c
  match ch.state, ch.group with
  | .bound, some g =>
    let ended := ch.dests.map (Dest.toAborted ch.opened)
    let s := ch.dests.foldl State.placeWrites s
    let (t, cause) := (s.setChan c { ch with state := .aborted, acause := cause, points := [], dests := ended, stall := [] }).putGroup c g
    let t := (span 0 g.d).foldl (fun t i => t.endAborted c i 8) t
    let t := t.raiseAbort c g cause
    t.setChan c (t.chan c).settle
  | _, _ => s

/-- The group status block that an abort still has to write is written; a fault in it is a cause of its own (R425). (DEDUCED, log 60.) -/
def State.finishGroup (s : State) (c : BitVec 4) (g : Group) : State :=
  let (t, cause) := s.putGroup c g
  let t := if cause = (s.chan c).acause then t else t.raiseAbort c g cause
  t.setChan c (t.chan c).settle

/-- ROUND_COMPLETION (R216); on an aborted channel, the arrival that still waits (R218). -/
def execRoundCompletion (c : BitVec 4) (i : Nat) (s : State) : Out :=
  let ch := s.chan c
  match ch.state, destOf ch i with
  | .bound, some (g, r, d) =>
    .next (s.portAct c i g r d (d.input.head.isNone && d.input.ended.isSome) false fun who => destAction who g r d)
  | .aborted, some _ =>
    let t := s.endAborted c i 8
    .next (t.setChan c (t.chan c).settle)
  | _, _ => .next s

/-- DELIVERY_RETRY (R217): once OWNER has left the handler, the port repeats the access that faulted. -/
def execDeliveryRetry (c : BitVec 4) (i : Nat) (s : State) : Out :=
  let ch := s.chan c
  match ch.state, destOf ch i with
  | .bound, some (g, r, d) =>
    let e := { d with stalled := false, retry := false }
    .next (if d.stalled && !d.retry && d.report.isNone then s
      else s.portAct c i g r (if d.stalled && d.report.isNone then e else d) (d.stalled && d.retry) false fun who => destAction who g r e)
  | _, _ => .next s

/-- DELIVER turn: the port of a destination delivers its head record, or writes its status words, and its writes are placed later (R176). (DESIGN CHOICE, log 9.) -/
def State.deliverTurn (s : State) (c : BitVec 4) (i : Nat) : State :=
  let ch := s.chan c
  match ch.state, destOf ch i with
  | .bound, some (g, r, d) =>
    s.portAct c i g r d (d.input.head.isSome || d.stage.isCounters || (!d.started && d.reached)) true fun who => destAction who g r d
  | _, _ => s

/-- PLACE turn: one piece of a port's writes is placed, after those before it that write the same bytes. (DESIGN CHOICE, log 9.) -/
def State.placeTurn (s : State) (c : BitVec 4) (i n : Nat) : State :=
  let ch := s.chan c
  match ch.dests[i]? with
  | none => s
  | some d =>
    match d.late[n]? with
    | none => s
    | some w =>
      if (d.late.take n).any fun v => v.any fun x => w.any fun y => x.1 == y.1 then s
      else (s.writeLocs w).setDest c i { d with late := d.late.eraseIdx n }

/-- The writes of every receive port are placed. -/
def State.placeAllWrites (s : State) : State :=
  if s.chans.all fun e => e.2.all fun ch => ch.dests.all (·.late.isEmpty) then s
  else
    let t := s.chans.foldl (fun t e => e.2.toList.foldl (fun t ch => ch.dests.foldl State.placeWrites t) t) s
    t.mapChans fun ch => { ch with dests := ch.dests.map fun d => { d with late := [] } }

/-- Whether a round is open (R183). -/
def Channel.roundOpen (ch : Channel) : Bool := ch.dests.any fun d => decide (d.finished < ch.opened)

/-- The watchdog of a channel has reached its limit (R199). -/
def Channel.overdue (ch : Channel) (limit : Nat) : Bool :=
  ch.state == .bound && ch.roundOpen && limit != 0 && decide (limit ≤ ch.watch)

/-- CHANNEL_WATCHDOG (R199); on an aborted channel, the group status block that is still due (R425). -/
def execChannelWatchdog (c : BitVec 4) (s : State) : Out :=
  let ch := s.chan c
  match ch.state, ch.group with
  | .bound, some g => .next (if ch.overdue (s.pkg (pkgOfCore g.home)).exchLimit.toNat then s.abortChannel c 0x284 else s)
  | .aborted, some g => .next (if ch.groupDue && !(s.pkg (pkgOfCore g.home)).off then s.finishGroup c g else s)
  | _, _ => .next s

/-- The watchdogs of one domain compare their counts (R199). -/
def State.watchdogsOf (s : State) (chs : Vector Channel 16) : State :=
  (span 0 16).foldl (fun t i =>
    let c := BitVec.ofNat 4 i
    match (get16 chs c).group with
    | some g => if (t.chan c).overdue (t.pkg (pkgOfCore g.home)).exchLimit.toNat then t.abortChannel c 0x284 else t
    | none => t) s

/-- Every watchdog compares its count with its limit, at every tick and after every write of the limit (R199). -/
def State.watchdogs (s : State) : State :=
  if s.chans.isEmpty then s
  else s.chans.foldl (fun t e => t.within e.1 fun u => u.watchdogsOf e.2) s

/-! ## The sieve (R205, R206) -/

/-- The smallest shift from `k` on whose samples number at most 65,536. (DEDUCED, log 59.) -/
def sieveShift (samples : List (Word × Nat)) (k : Nat) : Nat → Nat
  | 0 => k
  | n + 1 => if (samples.filter fun e => e.2 % 2 ^ k == 0).length ≤ 65536 then k else sieveShift samples (k + 1) n

/-- A table as its slot holds it (R202). -/
def tableBytes (v : BitVec 32) (splitters : List Word) : List Byte := bytesOfWords (v.setWidth 64 :: splitters)

/-- The splitters that the sieve proposes (R206). (DEDUCED, log 59.) -/
def proposal (keys : List Word) (d : Nat) (old : List Word) : List Word :=
  let n := keys.length
  if d ≤ n + 1 then (span 1 (d - 1)).map fun j => (keys[j * n / d]?).getD 0 else old

/-- The splitters of a table version (R202). -/
def splittersAt (who : Who) (g : Group) (v : BitVec 32) : M (List Word) := do
  let n ← readVa who (tableSlot g v) (8 * g.d)
  return (wordsOf g.d n).drop 1

/-- The close of the sieve's round (R206, R207). (DEDUCED, log 59.) -/
def closeSieve (c : BitVec 4) (g : Group) : M Unit := do
  let ch := (← getS).chan c
  let who := portWho g.home noCtx ch.stall
  let r := ch.sieve.round
  let v := g.dver0 + (r - g.round0)
  let k := sieveShift ch.sieve.samples g.k (32 - g.k)
  let kept := (ch.sieve.samples.filter fun e => e.2 % 2 ^ k == 0).map (·.1)
  let keys := sortBy (fun a b => decide (a.toNat ≤ b.toNat)) kept
  let old ← if g.d ≤ keys.length + 1 then pure [] else splittersAt who g v
  writeBytes who (tableSlot g (v + 1)) (tableBytes (v + 1) (proposal keys g.d old))
  let next := { ch with nsamp := keys.length, stall := [], sieve := ⟨[], k, ch.sieve.ends.filter (· != r), r + 1⟩ }
  let next := if g.auto then { next with dver := v + 1, dround := r + 1 } else { next with pver := v + 1, tstate := true }
  writeBytes who g.gstat.toNat (groupBytes next)
  modS fun s => s.setChan c next

/-- SIEVE_CLOSE (R206): a fault in it aborts the channel with 0x28C (R425). -/
def execSieveClose (c : BitVec 4) (s : State) : Out :=
  let ch := s.chan c
  match ch.state, ch.group with
  | .bound, some g =>
    if (s.pkg (pkgOfCore g.home)).off || (ch.sieve.ends.filter (· == ch.sieve.round)).length ≠ g.ns then .next s
    else
      match (closeSieve c g).run s with
      | (.ok _, t) => .next t
      | (.error (.trap ..), t) => .next (t.abortChannel c 0x28C)
      | (.error (.waitOn ks), t) => .next (t.setChan c { t.chan c with stall := waitsAfter (s.limitOf g.home) ch.stall ks })
      | (.error _, t) => .next t
  | _, _ => .next s

/-! ## XSPLIT (R208) -/

/-- The issue checks of XSPLIT and its fence: the group. (DEDUCED, log 31.) -/
def xsplitIssue (i : Instr) (a : BitVec 5) (n : BitVec 4) : M Group := do
  feature 4 i
  let _ ← heldSlot n
  let s ← getS
  aligned (s.me.reg a) 8
  exchangeAddr (s.me.reg a)
  match (s.chan n).group with
  | none => trapM 0x285 (n.setWidth 64)
  | some g =>
    settleM
    drainM
    let t ← getS
    if fenceWaits t t.cur 0b01001#5 then throw .wait
    return g

/-- The fence of XSPLIT after its accesses: later reads on path O stand no earlier (R208). -/
def xsplitFence : M Unit := modS fun t => t.closePins t.cur [.scalar, .vector]

/-- XSPLIT.rd (R208). -/
def execXsplitRd (d a : BitVec 5) (n : BitVec 4) (s : State) : Out :=
  complete (do
    let g ← xsplitIssue (.xsplitRd d a n) a n
    let ch := (← getS).chan n
    let v := if ch.tstate then ch.pver else ch.dver
    let table ← readVa s.xWho (tableSlot g v) (8 * g.d)
    writeBytes s.xWho (s.me.reg a).toNat (bytesOf (8 * g.d) table)
    modMe fun x => x.setReg d (word (v.toNat + (if ch.tstate then 2 ^ 32 else 0)))
    xsplitFence) s

/-- Words written one by one; a fault leaves any mix of old and new ones (R208). (DESIGN CHOICE, log 37.) -/
def writeWords (who : Who) (va : Nat) (ws : List Word) : M Unit := do
  let r ← attempt (locateBytes who .write va (8 * ws.length))
  match r with
  | .ok ls => modS fun s => s.writeLocs (ls.zip (bytesOfWords ws))
  | .error (.trap c i f) =>
    let mask := Config.freeNat (← getS).free
    modS fun s => { s with free := s.free + 1 }
    each (fun (e : Word × Nat) => do
      if bit mask e.2 then
        let _ ← attempt (writeVa who (va + 8 * e.2) 8 e.1.toNat)) (ws.zip (span 0 ws.length))
    trapM c i f
  | .error e => throw e

/-- XSPLIT.in (R208): a fault in the write of the group status block leaves the table slot unwritten too (R56). -/
def execXsplitIn (d a : BitVec 5) (n : BitVec 4) (s : State) : Out :=
  complete (do
    let g ← xsplitIssue (.xsplitIn d a n) a n
    let ch := (← getS).chan n
    let reason k := (word (n.toNat + k * 16) : Word)
    check ch.tstate 0x282 (reason 0)
    let at_ := (s.me.reg a).toNat
    let w ← readVa s.xWho at_ 8
    check (w == ch.pver.toNat) 0x282 (reason 1)
    let sp := wordsOf (g.d - 1) (← readVa s.xWho (at_ + 8) (8 * (g.d - 1)))
    check (nonDecreasing (sp.map (·.toNat))) 0x282 (reason 2)
    if let .ok _ ← attempt (locateBytes s.xWho .write (tableSlot g ch.pver + 8) (8 * sp.length)) then
      let _ ← locateBytes s.xWho .write g.gstat.toNat 64
    writeWords s.xWho (tableSlot g ch.pver + 8) sp
    let next := { ch with dver := ch.pver, dround := ch.dround + 1, tstate := false }
    writeBytes s.xWho g.gstat.toNat (groupBytes next)
    modS fun t => t.setChan n next
    modMe fun x => x.setReg d (ch.pver.setWidth 64)
    xsplitFence) s

end Sys2Proof.Machine
end

