-- ==== Sys2Proof/Machine/Contain.lean ====
section
/-! DEFINITION. Containment (R151, R264), poison and soft errors (R265), links (R20, R21, R275, R276). -/

namespace Sys2Proof.Machine

/-! ## Poison and soft errors -/

/-- A line becomes poisoned (R265). -/
def State.poisonLine (s : State) (line : Nat) : State :=
  if s.poison.contains line then s else { s with poison := line :: s.poison }

/-- LINE_POISONING (R265). -/
def execLinePoisoning (line : Nat) (s : State) : Out := .next (s.poisonLine line)

/-- A 32-bit count that saturates. -/
def saturatingAdd (x : BitVec 32) (n : Nat) : BitVec 32 := BitVec.ofNat 32 (min (2 ^ 32 - 1) (x.toNat + n))

/-- SOFT_ERROR_CORRECTION (R265, R278): counted, with no other effect. -/
def execSoftErrorCorrection (p : Nat) (hbm : Bool) (n : Nat) (s : State) : Out :=
  let x := s.pkg p
  .next (s.setPkg p (if hbm then { x with eccHbm := saturatingAdd x.eccHbm n } else { x with eccSram := saturatingAdd x.eccSram n }))

/-! ## Containment -/

/-- The lines of a frame that hold content of the page. -/
def Frame.hasLine (f : Frame) (line : Nat) : Bool := !f.mapped || f.valid.getLsbD line

/-- The value of the entry of a frame that is taken out, once its page is written back: invalid when the write-back fails (R151). -/
def takeOut (who : Who) (k : Nat) (f : Frame) : M Nat := do
  match ← attempt (writeBack who k f) with
  | .ok _ => return leftEntry f
  | .error (.trap ..) => return 0
  | .error e => throw e

/-- One frame of a core taken out (R151): written back, unreadable lines poisoned, the entry made spilled or mapped, or invalid when the write-back fails. An entry that cannot be written stays as it is, and the frame is free (DESIGN CHOICE, log 55). `bad` are the frame's unreadable lines. -/
def retireFrame (who : Who) (k i : Nat) (bad : List Nat) : M Unit := do
  match ((← getS).core k).frame i with
  | none => pure ()
  | some f =>
    modS fun s => s.settlePage k i f
    let f := (((← getS).core k).frame i).getD f
    let value ← takeOut who k f
    modS fun t => (bad.filter f.hasLine).foldl (fun t j => t.poisonLine (f.phys / 64 + j)) t
    match ← attempt (setEntry who f.entry.toNat value) with
    | .ok _ => pure ()
    | .error (.trap ..) => pure ()
    | .error e => throw e
    modS fun t =>
      let u := t.setCore k ((t.core k).freeFrame i)
      if value = 0 && !f.mapped then u.pageDropped k i else u.pageLeaves k i f

/-- The frames of a core are handled in order, as many as the fuel says; one whose accesses wait is tried again from its start, with their ticks counted (R151, R158). The Bool says whether all are handled. (DEDUCED, log 55.) -/
def State.retireFrames (s : State) (k : Nat) (unreadable : List Nat) : Nat → State × Bool
  | 0 => (s, true)
  | n + 1 =>
    let i := 255 - n
    let who : Who := { fv4Who (4 * k) (s.core k).stall with core := k }
    match (retireFrame who k i ((unreadable.filter fun l => l / 64 == i).map (· % 64))).run s with
    | (.ok _, t) => (t.setCore k { t.core k with stall := [] }).retireFrames k unreadable n
    | (.error (.waitOn ks), _) => (s.setCore k { s.core k with stall := waitsAfter (s.limitOf k) (s.core k).stall ks }, false)
    | (.error _, _) => (s, false)

/-- The record of a task that containment has ended, or of the host, is enqueued; the reading of it may wait, and is then made again (R158, R264, R273). -/
def State.enqueueLater (s : State) (r : Rerun) : State :=
  match (enqueue (fv4Who r.ctx r.stall) r.record r.home (!r.host)).run s with
  | (.ok _, t) => t
  | (.error (.trap cause _ _), t) =>
    if r.host then t.report (pkgOf r.ctx) ⟨cause, 7, 0, r.record⟩
    else t.report (pkgOf r.ctx) ⟨0x383, 2, t.ctxNumber r.ctx, r.record⟩
  | (.error (.waitOn ks), _) => { s with reruns := s.reruns ++ [{ r with stall := waitsFor r.stall ks }] }
  | (.error .wait, _) => { s with reruns := s.reruns ++ [r] }

/-- RETRY turn: a record that still has to be enqueued. (DESIGN CHOICE, log 25.) -/
def State.retryRerun (s : State) (i : Nat) : State :=
  match s.reruns[i]? with
  | some r => { s with reruns := s.reruns.eraseIdx i }.enqueueLater r
  | none => s

/-- A task on a core taken out (R264): abandoned, and enqueued again with RERUN = 1; otherwise, or when a check of the re-run fails, it is reported as lost. (DEDUCED, log 55.) -/
def State.containTask (s : State) (c : Nat) : State :=
  let x := s.ctx c
  if x.life == .idle then s
  else
    let t := s.abandon c
    if x.ctrl.getLsbD 39 then t.enqueueLater { ctx := c, record := x.record, home := x.home, host := false, stall := [] }
    else t.report (pkgOf c) ⟨0x383, 2, t.ctxNumber c, x.record⟩

/-- The open rounds of one domain's channels end with 0x28B (R218) if a test on the channel and its group holds. (DEDUCED, log 55.) -/
def State.endRoundsHere (s : State) (hit : Channel → Group → Bool) : State :=
  (span 0 16).foldl (fun t n =>
    let c := BitVec.ofNat 4 n
    let ch := t.chan c
    match ch.group with
    | some g => if ch.roundOpen && hit ch g then t.abortChannel c 0x28B else t
    | none => t) s

/-- The same in every domain. -/
def State.endRounds (s : State) (hit : Channel → Group → Bool) : State :=
  s.chans.foldl (fun t e => t.within e.1 fun u => u.endRoundsHere hit) s

/-- A group uses the ports of a core: a slot, a destination or its home. (DEDUCED, log 55.) -/
def usesCore (k : Nat) (ch : Channel) (g : Group) : Bool :=
  ch.slots.any (fun x => x.core == k) || g.dests.contains k || g.home == k

/-- CONTAINMENT (R264): the core is taken out of scheduling, and once its frames are handled, its tasks and rounds are. `unreadable` names lines of the core's frames, as 64 × frame + line. While a frame waits, a further CONTAINMENT of the core goes on with it. (DEDUCED, log 55.) -/
def execContainment (k : Nat) (unreadable : List Nat) (s : State) : Out :=
  let core := s.core k
  if core.out && core.retiring.isNone then .next s
  else
    let bad := core.retiring.getD unreadable
    match (s.setCore k { core with out := true, retiring := some bad }).retireFrames k bad 256 with
    | (t, false) => .next t
    | (t, true) =>
      let t := t.setCore k { t.core k with retiring := none }
      let t := (ctxsOf k).foldl State.containTask t
      .next (t.endRounds (usesCore k))

/-! ## Links (R20, R276) -/

/-- The n-th value, in ascending order, of 0 to `size` − 1 without `own`. -/
def nthOther (size own n : Nat) : Option Nat := ((span 0 size).filter (· ≠ own))[n]?

/-- The number of the peer that the table of R276 names for a link of package number `p`; none for a spare. (DEDUCED, log 56.) -/
def linkPeer (p i : Nat) : Option Nat :=
  let x := p % 6
  let y := p / 6 % 6
  let z := p / 36
  if i < 5 then (nthOther 6 x i).map fun v => v + 6 * y + 36 * z
  else if i < 10 then (nthOther 6 y (i - 5)).map fun v => x + 6 * v + 36 * z
  else if i < 21 then (nthOther 12 z (i - 10)).map fun v => x + 6 * y + 36 * v
  else none

/-- Two package numbers differ in exactly one coordinate. -/
def oneApart (p q : Nat) : Bool :=
  (flag (p % 6 != q % 6) + flag (p / 6 % 6 != q / 6 % 6) + flag (p / 36 != q / 36)) == 1

/-- The link of a package number that joins it to another. -/
def linkTo (p q : Nat) : Option Nat := (span 0 21).find? fun i => linkPeer p i == some q

/-- A link of a package changed. -/
def State.setLink (s : State) (p i : Nat) (l : Link) : State :=
  s.setPkg p { s.pkg p with links := tableSet (s.pkg p).links i l }

/-- A group's traffic crosses the link between two packages. (DEDUCED, log 56.) -/
def crosses (p q : Nat) (ch : Channel) (_g : Group) : Bool :=
  ch.points.any fun m =>
    (m.node == .package p && m.inputs.any fun i => i.source == .package q) ||
    (m.node == .package q && m.inputs.any fun i => i.source == .package p)

/-- One end of a link that has failed: masked, and reported as kind 4. (DEDUCED, log 56.) -/
def State.maskLink (s : State) (p i : Nat) : State :=
  (s.setLink p i { (s.pkg p).link i with masked := true, failed := true }).reportKind p 4

/-- A link carries traffic as far as its own end knows. -/
def Pkg.carries (x : Pkg) (i : Nat) : Bool := x.linkctl.getLsbD i && (x.link i).trained && !(x.link i).masked

/-- The links of a package that reach a peer, lowest number first. -/
def Pkg.linksTo (x : Pkg) (q : Nat) : List Nat := (span 0 24).filter fun i => (x.link i).peer == some q

/-- The other end of a link: the link of the peer with the same place among those between the two. (DEDUCED, log 56.) -/
def farEnd (s : State) (p i q : Nat) : Option Nat :=
  if i < 21 then linkTo (s.number q) (s.number p)
  else
    let own := ((s.pkg p).linksTo q).filter (21 ≤ ·)
    let theirs := ((s.pkg q).linksTo p).filter (21 ≤ ·)
    (position (· == i) own).bind fun n => theirs[n]?

/-- The first spare of a package that is cabled to another and has trained. -/
def spareTo (x : Pkg) (q : Nat) : Option Nat :=
  (x.linksTo q).find? fun i => decide (21 ≤ i) && (x.link i).trained && !(x.link i).failed

/-- Once the direct link between two packages has failed a spare that joins them carries its traffic (R21, R276), if both ends agree on encryption (R275). (DEDUCED, log 56.) -/
def State.openSpare (s : State) (p q : Nat) : State :=
  let x := s.pkg p
  let y := s.pkg q
  let direct := match linkTo x.number y.number with
    | some i => (x.link i).failed
    | none => false
  match spareTo x q, spareTo y p with
  | some i, some j =>
    let enc := x.linkctl.getLsbD 32
    if direct && enc == y.linkctl.getLsbD 32 then
      (s.setLink p i { x.link i with masked := false, encrypted := enc }).setLink q j { y.link j with masked := false, encrypted := enc }
    else s
  | _, _ => s

/-- The trees of a channel of which no round is open, over routes as they are now (R21, R194). (DEDUCED, log 56.) -/
def Channel.reroute (ch : Channel) (s : State) (g : Group) : Channel :=
  let routes := s.routes g
  { ch with
    routes := routes
    points := (buildTrees routes g (ch.slots.map (·.core))).map fun p => { p with round := ch.opened } }

/-- Channels whose trees used a link take other routes. -/
def State.rerouteHere (s : State) (hit : Channel → Group → Bool) : State :=
  (span 0 16).foldl (fun t n =>
    let c := BitVec.ofNat 4 n
    let ch := t.chan c
    match ch.state, ch.group with
    | .bound, some g => if hit ch g then { t with free := t.free + 1 }.setChan c (ch.reroute t g) else t
    | _, _ => t) s

/-- The same in every domain. -/
def State.reroute (s : State) (hit : Channel → Group → Bool) : State :=
  s.chans.foldl (fun t e => t.within e.1 fun u => u.rerouteHere hit) s

/-- LINK_FAILURE (R21, R265): the link is masked at both ends, a spare takes its place, and open rounds that cross it end with 0x28B. Loads and posted stores in flight across it are performed once, on another route. (DEDUCED, log 56.) -/
def execLinkFailure (p i : Nat) (s : State) : Out :=
  let l := (s.pkg p).link i
  let peer := if l.peer.isSome then l.peer else (linkPeer (s.number p) i).bind (s.packageAt p)
  match peer with
  | none => .next (s.maskLink p i)
  | some q =>
    let used := (s.pkg p).carries i
    let t := s.maskLink p i
    let t := match farEnd s p i q with
      | some j => t.maskLink q j
      | none => t
    let t := t.openSpare p q
    .next (if used then (t.endRounds (crosses p q)).reroute (crosses p q) else t)

/-- LINK_TRAINING (R275, R276): `peer` is the package cabled to the link, which exchanges PKGCFG with this one. A link that has failed stays masked (R21). (DESIGN CHOICE, log 54; DEDUCED, log 56.) -/
def execLinkTraining (p i : Nat) (peer : Option Nat) (s : State) : Out :=
  let x := s.pkg p
  let l := x.link i
  if 24 ≤ i || !x.linkctl.getLsbD i then .next s
  else
    match peer with
    | none => .next ((s.setLink p i { l with peer := none, trained := false, masked := true }).reportKind p 4)
    | some q =>
      let y := s.pkg q
      let spare := decide (21 ≤ i)
      let fits := oneApart x.number y.number && sameSets x.pkgcfg y.pkgcfg && (spare || linkPeer x.number i == some y.number)
      let enc := x.linkctl.getLsbD 32
      if !fits then .next ((s.setLink p i { l with peer := some q, trained := true, masked := true }).reportKind p 4)
      else
        let direct := match linkTo x.number y.number with
          | some j => (x.link j).failed
          | none => false
        let masked := enc != y.linkctl.getLsbD 32 || l.failed || (spare && !direct)
        .next (s.setLink p i { l with peer := some q, trained := true, masked := masked, encrypted := enc && !masked })

/-- LINK_REKEYING (R275): an encrypted link takes new keys, which affects timing only. (DESIGN CHOICE, log 54.) -/
def execLinkRekeying (p i : Nat) (s : State) : Out :=
  let l := (s.pkg p).link i
  .next (if l.encrypted then s.setLink p i { l with rekeys := l.rekeys + 1 } else s)

end Sys2Proof.Machine
end

