-- ==== Sys2Proof/Machine/SbFormat.lean ====
section
/-! DEFINITION. Selected-block formats (R118 to R123, R127 to R132): side entries, header checks, element values,
the quantiser of VSTQ, and the segment products of the matrix unit. -/

namespace Sys2Proof.Machine

/-- Elements of a superblock (R118). -/
def superLen (sb8 : Bool) : Nat := if sb8 then 128 else 256

/-- Elements of a block (R118). -/
def blockLen (sb8 : Bool) : Nat := if sb8 then 32 else 64

/-- Bits of an element code (R118). -/
def codeBits (sb8 : Bool) : Nat := if sb8 then 8 else 4

/-! ## Tables (R122) -/

/-- The exponent d of the denominator. -/
def denom (sb8 : Bool) (sel : Nat) : Nat := if sb8 && sel == 1 then 18 else 8

/-- The numerators of the table QNT. -/
def qntTable : List Nat := [0, 26, 53, 82, 113, 148, 192, 256]

/-- The numerator N of a magnitude index. -/
def numer (sb8 : Bool) (sel mi : Nat) : Nat :=
  if sb8 then
    if sel = 0 then 2 * mi
    else
      let e := field mi 3 4
      let f := mi % 8
      if e = 0 then 2 * f else (8 + f) * 2 ^ e
  else
    match sel with
    | 0 => 32 * mi
    | 1 => if mi = 0 then 0 else 2 ^ (mi + 1)
    | _ => (qntTable[mi]?).getD 0

/-- The sign and the numerator of a code (R122, R123): a sign with mi = 0 decodes as +0. (DEDUCED, log 36.) -/
def decodeSb (sb8 : Bool) (sel code : Nat) : Bool × Nat :=
  let k := codeBits sb8 - 1
  let n := numer sb8 sel (code % 2 ^ k)
  (bit code k && n != 0, n)

/-! ## Scales (R121) -/

/-- The block scale of a superscale and a code: RNE32(S × r(s)), no flag. -/
def blockScale (s32 code : Nat) : Nat :=
  (mulVal fp32 .rne false (unpack fp32 s32) (.fin false (32 - code % 16) (-(field code 4 4 : Int) - 4))).1

/-- The value of an element (R123): b × Decode; a zero Decode gives +0, a zero scale b the zero with the sign of the product. (DEDUCED, log 36.) -/
def sbValue (b : Nat) (neg : Bool) (n d : Nat) : Fp :=
  if n = 0 then .fin false 0 0
  else
    match unpack fp32 b with
    | .inf nb => .inf (nb != neg)
    | .fin nb m e => .fin (nb != neg) (m * n) (e - d)
    | .nan s => .nan s

/-- A value rounded to a format (R124, R127): an infinity is exact. -/
def roundVal (f : Fmt) (rm : Rm) (fz : BitVec 2) (v : Fp) : FpResult :=
  match v with
  | .nan s => nanOf f s
  | .inf n => (f.sign n + f.inf, 0)
  | .fin n m e => round f rm (flushOut fz) n m e false

/-- The scale code and the selector of a header (R120). -/
def headerCode (h : Nat) : Nat := h % 256
def headerSel (h : Nat) : Nat := field h 8 2

/-- The value that an element code has in a block with header `h` under superscale `s32`, rounded to a format. -/
def expand (sb8 : Bool) (s32 h code : Nat) (f : Fmt) (rm : Rm) (fz : BitVec 2) : FpResult :=
  let (neg, n) := decodeSb sb8 (headerSel h) code
  roundVal f rm fz (sbValue (blockScale s32 (headerCode h)) neg n (denom sb8 (headerSel h)))

/-! ## Header checks (R128) -/

/-- Check 1: the superscale is a NaN or an infinity, or the reserved bytes are not zero. -/
def superBad (s32 reserved : Nat) : Bool := reserved != 0 || field s32 23 8 == 255

/-- Checks 2 to 4: the reason of a header that fails. -/
def headerBad (sb8 : Bool) (h : Nat) : Option Nat :=
  if popcount h 11 % 2 = 1 then some 0
  else if headerSel h = 3 || (sb8 && headerSel h = 2) then some 1
  else if field h 11 5 ≠ 0 then some 2 else none

/-- A side entry as a number: superscale, headers, reserved bytes (R119). -/
def sideSuper (e : Nat) : Nat := field e 0 32
def sideHeader (e q : Nat) : Nat := field e (32 + 16 * q) 16
def sideReserved (e : Nat) : Nat := field e 96 32

/-- The first block of a superblock, among those given in ascending order, that fails, with its reason: the superblock check is made before them. -/
def sideBad (sb8 : Bool) (entry : Nat) (blocks : List Nat) : Option (Nat × Nat) :=
  match blocks with
  | [] => none
  | q :: _ =>
    if superBad (sideSuper entry) (sideReserved entry) then some (q, 3)
    else blocks.findSome? fun q => (headerBad sb8 (sideHeader entry q)).map fun r => (q, r)

/-- The information word of 0x082. -/
def headerInfo (side q reason : Nat) : Word := word (field side 4 51 * 16 + q * 4 + reason)

/-! ## The quantiser (R129, R130) -/

/-- m1 × 2^e1 ≤ m2 × 2^e2, exactly. -/
def magLe (m1 : Nat) (e1 : Int) (m2 : Nat) (e2 : Int) : Bool :=
  let e := min e1 e2
  decide (m1 * 2 ^ (e1 - e).toNat ≤ m2 * 2 ^ (e2 - e).toNat)

/-- | |x| − y | for magnitudes, as mantissa and exponent. -/
def magDist (m1 : Nat) (e1 : Int) (m2 : Nat) (e2 : Int) : Nat × Int :=
  let e := min e1 e2
  let a := m1 * 2 ^ (e1 - e).toNat
  let b := m2 * 2 ^ (e2 - e).toNat
  (if a ≤ b then b - a else a - b, e)

/-- The pairwise tree of R113 over slots of FP values, with flags. -/
def pairUp (comb : Nat → Nat → FpResult) : List (Option Nat) → List (Option Nat) × BitVec 5
  | [] => ([], 0)
  | [x] => ([x], 0)
  | x :: y :: rest =>
    let (zs, f) := pairUp comb rest
    match x, y with
    | some a, some b => let r := comb a b; (some r.1 :: zs, r.2 ||| f)
    | some a, none => (some a :: zs, f)
    | none, b => (b :: zs, f)

/-- Levels of the tree until one slot is left. -/
def treeOf (comb : Nat → Nat → FpResult) (l : List (Option Nat)) (flags : BitVec 5) : Nat → Option Nat × BitVec 5
  | 0 => ((l.head?).getD none, flags)
  | levels + 1 =>
    match l with
    | [] => (none, flags)
    | [x] => (x, flags)
    | _ => let (z, f) := pairUp comb l; treeOf comb z (flags ||| f) levels

/-- Mmax of a selector, as a numerator over 2^d. -/
def maxNumer (sb8 : Bool) (sel : Nat) : Nat := numer sb8 sel (2 ^ (codeBits sb8 - 1) - 1)

/-- A finite scale as mantissa and exponent; none for an infinity. -/
def finiteScale (b : Nat) : Option (Nat × Int) :=
  match unpack fp32 b with
  | .fin _ m e => some (m, e)
  | _ => none

/-- A scale code qualifies for a block maximum A: b is finite and b × Mmax ≥ A (R130). -/
def qualifies (sb8 : Bool) (sel s32 : Nat) (ma : Nat) (ea : Int) (c : Nat) : Bool :=
  match finiteScale (blockScale s32 c) with
  | some (m, e) => magLe ma ea (m * maxNumer sb8 sel) (e - denom sb8 sel)
  | none => false

/-- The scale code that R130 takes: among those that qualify, the lowest with the smallest b. -/
def pickScale (sb8 : Bool) (sel s32 : Nat) (ma : Nat) (ea : Int) : Option Nat :=
  let cs := (span 0 256).filter (qualifies sb8 sel s32 ma ea)
  leastBy (fun c => blockScale s32 c) cs

/-- The magnitude index that is nearest, ties to the smaller (R130). -/
def nearest (sb8 : Bool) (sel : Nat) (mb : Nat) (eb : Int) (mx : Nat) (ex : Int) : Nat :=
  let d := denom sb8 sel
  (span 0 (2 ^ (codeBits sb8 - 1))).foldl (fun best mi =>
    let p := magDist mx ex (mb * numer sb8 sel best) (eb - d)
    let q := magDist mx ex (mb * numer sb8 sel mi) (eb - d)
    if magLe p.1 p.2 q.1 q.2 then best else mi) 0

/-- A source element of a quantised block: none for padding. -/
abbrev Quant := Option Fp

/-- The code and the squared error of one element (R130). (DEDUCED, log 36.) -/
def quantElem (sb8 : Bool) (sel mb : Nat) (eb : Int) (x : Quant) : Nat × Option Nat :=
  match x with
  | some (.fin neg m e) =>
    let mi := nearest sb8 sel mb eb m e
    let code := mi + (if neg && m != 0 && mi != 0 then 2 ^ (codeBits sb8 - 1) else 0)
    let (cn, n) := decodeSb sb8 sel code
    let dlt := (addFin fp32 .rne false neg m e (!cn) (mb * n) (eb - denom sb8 sel)).1
    (code, some (fpMul fp32 .rne 0 dlt dlt).1)
  | _ => (0, none)

/-- One selector tried on a block: scale code, element codes, error. -/
def quantWith (sb8 : Bool) (s32 : Nat) (xs : List Quant) (ma : Nat) (ea : Int) (sel : Nat) :
    Option (Nat × Nat × List Nat × Nat) :=
  match pickScale sb8 sel s32 ma ea with
  | none => none
  | some c =>
    match finiteScale (blockScale s32 c) with
    | none => none
    | some (mb, eb) =>
      let r := xs.map (quantElem sb8 sel mb eb)
      let slots := r.map (·.2) ++ List.replicate (64 - xs.length) none
      let err := (treeOf (fpAdd fp32 .rne 0) slots 0 6).1.getD 0
      some (sel, c, r.map (·.1), err)

/-- The greatest magnitude among elements. -/
def maxMag (xs : List Quant) : Nat × Int :=
  xs.foldl (fun acc x =>
    match x with
    | some (.fin _ m e) => if magLe m e acc.1 acc.2 then acc else (m, e)
    | _ => acc) (0, 0)

/-- The best of the allowed selectors: the least error, the lowest selector among equals (R130). -/
def quantBlock (sb8 : Bool) (s32 : Nat) (sels : List Nat) (xs : List Quant) : Option (Nat × Nat × List Nat × Nat) :=
  let (ma, ea) := maxMag xs
  (sels.filterMap (quantWith sb8 s32 xs ma ea)).foldl (fun best r =>
    match best with
    | none => some r
    | some b => if r.2.2.2 < b.2.2.2 then some r else best) none

/-- A header with its parity bit (R120). -/
def makeHeader (sel c : Nat) : Nat :=
  let v := c + sel * 256
  v + (popcount v 10 % 2) * 1024

/-- Element codes packed as payload bytes (R118). -/
def packCodes (sb8 : Bool) (codes : List Nat) : Nat :=
  codes.reverse.foldl (fun acc c => acc * 2 ^ codeBits sb8 + c) 0

/-- One superblock quantised (R130): payload and side entry, or the reason of 0x084. `xs` has one entry per element. -/
def quantSuper (sb8 : Bool) (sels : List Nat) (xs : List Quant) : Except Nat (Nat × Nat) :=
  if xs.any fun x => match x with
    | some (.fin _ _ _) => false
    | some _ => true
    | none => false
  then .error 1
  else
    let (m, e) := maxMag xs
    let s32 := (round fp32 .rne false false m e false).1
    if m = 0 then .ok (0, (span 0 4).foldl (fun acc q => acc + makeHeader 0 255 * 2 ^ (32 + 16 * q)) 0)
    else
      let n := blockLen sb8
      let blocks := (span 0 4).map fun q => quantBlock sb8 s32 sels ((xs.drop (n * q)).take n)
      if blocks.any (·.isNone) then .error 2
      else
        let bs := blocks.filterMap id
        .ok (packCodes sb8 (bs.flatMap fun b => b.2.2.1),
          (bs.zip (span 0 4)).foldl (fun acc b => acc + makeHeader b.1.1 b.1.2.1 * 2 ^ (32 + 16 * b.2)) s32)

end Sys2Proof.Machine
end

