-- ==== Sys2Proof/Machine/VInt.lean ====
section
/-! DEFINITION. Vector integer instructions of majors 0x20 and 0x21 (R357 to R359, R362, R386). -/

namespace Sys2Proof.Machine

/-- The operations of R358. -/
inductive IntOp where
  | add | sub | mul | mulh | mulhU | min | minU | max | maxU | and | or | xor | sll | srl | sra
  deriving DecidableEq, Repr

/-- The result of an operation at width `w` (R102, R358). -/
def intOp (op : IntOp) (w x y : Nat) : Nat :=
  match op with
  | .add => (x + y) % 2 ^ w
  | .sub => (x + 2 ^ w - y) % 2 ^ w
  | .mul => x * y % 2 ^ w
  | .mulh => wrap w (signed w x * signed w y / 2 ^ w)
  | .mulhU => x * y / 2 ^ w
  | .min => if signed w x ≤ signed w y then x else y
  | .minU => if x ≤ y then x else y
  | .max => if signed w x ≤ signed w y then y else x
  | .maxU => if x ≤ y then y else x
  | .and => x &&& y
  | .or => x ||| y
  | .xor => x ^^^ y
  | .sll => x * 2 ^ (y % w) % 2 ^ w
  | .srl => x / 2 ^ (y % w)
  | .sra => wrap w (signed w x / 2 ^ (y % w))

/-- The conditions of VCMP (R362). -/
inductive IntCond where
  | eq | ne | lt | ltu | le | leu
  deriving DecidableEq, Repr

/-- A condition at width `w` (R362). -/
def intCond (c : IntCond) (w x y : Nat) : Bool :=
  match c with
  | .eq => x == y
  | .ne => x != y
  | .lt => decide (signed w x < signed w y)
  | .ltu => decide (x < y)
  | .le => decide (signed w x ≤ signed w y)
  | .leu => decide (x ≤ y)

/-- An element-wise integer operation (R357, R358). -/
def vecInt (op : IntOp) (d a : BitVec 5) (y : VSrc) (m : BitVec 1) (r : BitVec 3) : M Unit := do
  tagInt a
  y.tagOk tagInt
  modMe fun x =>
    x.wrote d x.width ((x.actives m r).map fun i => (i, intOp op x.width (x.at a i) (x.src y i), 0)) (intTag x.sew)

/-- VCMP (R362). -/
def vecCmp (c : IntCond) (d a : BitVec 5) (y : VSrc) (m : BitVec 1) (r : BitVec 3) : M Unit := do
  tagInt a
  y.tagOk tagInt
  modMe fun x => x.wroteMask d ((x.actives m r).map fun i => (i, intCond c x.width (x.at a i) (x.src y i), 0))

/-- VSEL (R386): the mask selects and does not govern. -/
def vecSel (d a : BitVec 5) (y : VSrc) (r : BitVec 3) : M Unit := do
  tagWide a
  let t := regGet (← getS).me.tag a
  y.tagOk fun b => tagIs b t
  modMe fun x =>
    x.wrote d x.width ((x.actives 0 0).map fun i =>
      (i, if (get8 x.m r).getLsbD i then x.at a i else x.src y i, 0)) t

/-- VADD (R102, R358). -/
def execVadd (d a b : BitVec 5) (m : BitVec 1) (r : BitVec 3) (s : State) : Out :=
  complete (vecInt .add d a (.vec b) m r) s

/-- VSUB (R102, R358). -/
def execVsub (d a b : BitVec 5) (m : BitVec 1) (r : BitVec 3) (s : State) : Out :=
  complete (vecInt .sub d a (.vec b) m r) s

/-- VMUL (R102, R358). -/
def execVmul (d a b : BitVec 5) (m : BitVec 1) (r : BitVec 3) (s : State) : Out :=
  complete (vecInt .mul d a (.vec b) m r) s

/-- VMULH (R102, R358). -/
def execVmulh (d a b : BitVec 5) (m : BitVec 1) (r : BitVec 3) (s : State) : Out :=
  complete (vecInt .mulh d a (.vec b) m r) s

/-- VMULH.u (R102, R358). -/
def execVmulhU (d a b : BitVec 5) (m : BitVec 1) (r : BitVec 3) (s : State) : Out :=
  complete (vecInt .mulhU d a (.vec b) m r) s

/-- VMIN (R102, R358). -/
def execVmin (d a b : BitVec 5) (m : BitVec 1) (r : BitVec 3) (s : State) : Out :=
  complete (vecInt .min d a (.vec b) m r) s

/-- VMIN.u (R102, R358). -/
def execVminU (d a b : BitVec 5) (m : BitVec 1) (r : BitVec 3) (s : State) : Out :=
  complete (vecInt .minU d a (.vec b) m r) s

/-- VMAX (R102, R358). -/
def execVmax (d a b : BitVec 5) (m : BitVec 1) (r : BitVec 3) (s : State) : Out :=
  complete (vecInt .max d a (.vec b) m r) s

/-- VMAX.u (R102, R358). -/
def execVmaxU (d a b : BitVec 5) (m : BitVec 1) (r : BitVec 3) (s : State) : Out :=
  complete (vecInt .maxU d a (.vec b) m r) s

/-- VAND (R102, R358). -/
def execVand (d a b : BitVec 5) (m : BitVec 1) (r : BitVec 3) (s : State) : Out :=
  complete (vecInt .and d a (.vec b) m r) s

/-- VOR (R102, R358). -/
def execVor (d a b : BitVec 5) (m : BitVec 1) (r : BitVec 3) (s : State) : Out :=
  complete (vecInt .or d a (.vec b) m r) s

/-- VXOR (R102, R358). -/
def execVxor (d a b : BitVec 5) (m : BitVec 1) (r : BitVec 3) (s : State) : Out :=
  complete (vecInt .xor d a (.vec b) m r) s

/-- VSLL (R102, R358). -/
def execVsll (d a b : BitVec 5) (m : BitVec 1) (r : BitVec 3) (s : State) : Out :=
  complete (vecInt .sll d a (.vec b) m r) s

/-- VSRL (R102, R358). -/
def execVsrl (d a b : BitVec 5) (m : BitVec 1) (r : BitVec 3) (s : State) : Out :=
  complete (vecInt .srl d a (.vec b) m r) s

/-- VSRA (R102, R358). -/
def execVsra (d a b : BitVec 5) (m : BitVec 1) (r : BitVec 3) (s : State) : Out :=
  complete (vecInt .sra d a (.vec b) m r) s

/-- VCMP.eq (R362). -/
def execVcmpEq (d a b : BitVec 5) (m : BitVec 1) (r : BitVec 3) (s : State) : Out :=
  complete (vecCmp .eq d a (.vec b) m r) s

/-- VCMP.ne (R362). -/
def execVcmpNe (d a b : BitVec 5) (m : BitVec 1) (r : BitVec 3) (s : State) : Out :=
  complete (vecCmp .ne d a (.vec b) m r) s

/-- VCMP.lt (R362). -/
def execVcmpLt (d a b : BitVec 5) (m : BitVec 1) (r : BitVec 3) (s : State) : Out :=
  complete (vecCmp .lt d a (.vec b) m r) s

/-- VCMP.ltu (R362). -/
def execVcmpLtu (d a b : BitVec 5) (m : BitVec 1) (r : BitVec 3) (s : State) : Out :=
  complete (vecCmp .ltu d a (.vec b) m r) s

/-- VCMP.le (R362). -/
def execVcmpLe (d a b : BitVec 5) (m : BitVec 1) (r : BitVec 3) (s : State) : Out :=
  complete (vecCmp .le d a (.vec b) m r) s

/-- VCMP.leu (R362). -/
def execVcmpLeu (d a b : BitVec 5) (m : BitVec 1) (r : BitVec 3) (s : State) : Out :=
  complete (vecCmp .leu d a (.vec b) m r) s

/-- VSEL (R386). -/
def execVsel (d a b : BitVec 5) (r : BitVec 3) (s : State) : Out :=
  complete (vecSel d a (.vec b) r) s

/-- VADD with a scalar (R102, R358). -/
def execVaddVs (d a b : BitVec 5) (m : BitVec 1) (r : BitVec 3) (s : State) : Out :=
  complete (vecInt .add d a (.scl b) m r) s

/-- VSUB with a scalar (R102, R358). -/
def execVsubVs (d a b : BitVec 5) (m : BitVec 1) (r : BitVec 3) (s : State) : Out :=
  complete (vecInt .sub d a (.scl b) m r) s

/-- VMUL with a scalar (R102, R358). -/
def execVmulVs (d a b : BitVec 5) (m : BitVec 1) (r : BitVec 3) (s : State) : Out :=
  complete (vecInt .mul d a (.scl b) m r) s

/-- VMULH with a scalar (R102, R358). -/
def execVmulhVs (d a b : BitVec 5) (m : BitVec 1) (r : BitVec 3) (s : State) : Out :=
  complete (vecInt .mulh d a (.scl b) m r) s

/-- VMULH.u with a scalar (R102, R358). -/
def execVmulhUVs (d a b : BitVec 5) (m : BitVec 1) (r : BitVec 3) (s : State) : Out :=
  complete (vecInt .mulhU d a (.scl b) m r) s

/-- VMIN with a scalar (R102, R358). -/
def execVminVs (d a b : BitVec 5) (m : BitVec 1) (r : BitVec 3) (s : State) : Out :=
  complete (vecInt .min d a (.scl b) m r) s

/-- VMIN.u with a scalar (R102, R358). -/
def execVminUVs (d a b : BitVec 5) (m : BitVec 1) (r : BitVec 3) (s : State) : Out :=
  complete (vecInt .minU d a (.scl b) m r) s

/-- VMAX with a scalar (R102, R358). -/
def execVmaxVs (d a b : BitVec 5) (m : BitVec 1) (r : BitVec 3) (s : State) : Out :=
  complete (vecInt .max d a (.scl b) m r) s

/-- VMAX.u with a scalar (R102, R358). -/
def execVmaxUVs (d a b : BitVec 5) (m : BitVec 1) (r : BitVec 3) (s : State) : Out :=
  complete (vecInt .maxU d a (.scl b) m r) s

/-- VAND with a scalar (R102, R358). -/
def execVandVs (d a b : BitVec 5) (m : BitVec 1) (r : BitVec 3) (s : State) : Out :=
  complete (vecInt .and d a (.scl b) m r) s

/-- VOR with a scalar (R102, R358). -/
def execVorVs (d a b : BitVec 5) (m : BitVec 1) (r : BitVec 3) (s : State) : Out :=
  complete (vecInt .or d a (.scl b) m r) s

/-- VXOR with a scalar (R102, R358). -/
def execVxorVs (d a b : BitVec 5) (m : BitVec 1) (r : BitVec 3) (s : State) : Out :=
  complete (vecInt .xor d a (.scl b) m r) s

/-- VSLL with a scalar (R102, R358). -/
def execVsllVs (d a b : BitVec 5) (m : BitVec 1) (r : BitVec 3) (s : State) : Out :=
  complete (vecInt .sll d a (.scl b) m r) s

/-- VSRL with a scalar (R102, R358). -/
def execVsrlVs (d a b : BitVec 5) (m : BitVec 1) (r : BitVec 3) (s : State) : Out :=
  complete (vecInt .srl d a (.scl b) m r) s

/-- VSRA with a scalar (R102, R358). -/
def execVsraVs (d a b : BitVec 5) (m : BitVec 1) (r : BitVec 3) (s : State) : Out :=
  complete (vecInt .sra d a (.scl b) m r) s

/-- VCMP.eq with a scalar (R362). -/
def execVcmpEqVs (d a b : BitVec 5) (m : BitVec 1) (r : BitVec 3) (s : State) : Out :=
  complete (vecCmp .eq d a (.scl b) m r) s

/-- VCMP.ne with a scalar (R362). -/
def execVcmpNeVs (d a b : BitVec 5) (m : BitVec 1) (r : BitVec 3) (s : State) : Out :=
  complete (vecCmp .ne d a (.scl b) m r) s

/-- VCMP.lt with a scalar (R362). -/
def execVcmpLtVs (d a b : BitVec 5) (m : BitVec 1) (r : BitVec 3) (s : State) : Out :=
  complete (vecCmp .lt d a (.scl b) m r) s

/-- VCMP.ltu with a scalar (R362). -/
def execVcmpLtuVs (d a b : BitVec 5) (m : BitVec 1) (r : BitVec 3) (s : State) : Out :=
  complete (vecCmp .ltu d a (.scl b) m r) s

/-- VCMP.le with a scalar (R362). -/
def execVcmpLeVs (d a b : BitVec 5) (m : BitVec 1) (r : BitVec 3) (s : State) : Out :=
  complete (vecCmp .le d a (.scl b) m r) s

/-- VCMP.leu with a scalar (R362). -/
def execVcmpLeuVs (d a b : BitVec 5) (m : BitVec 1) (r : BitVec 3) (s : State) : Out :=
  complete (vecCmp .leu d a (.scl b) m r) s

/-- VSEL with a scalar (R386). -/
def execVselVs (d a b : BitVec 5) (r : BitVec 3) (s : State) : Out :=
  complete (vecSel d a (.scl b) r) s

end Sys2Proof.Machine
end

