-- ==== Sys2Proof/Machine/VFp.lean ====
section
/-! DEFINITION. Vector floating point of majors 0x22 and 0x23 (R368 to R370). -/

namespace Sys2Proof.Machine

/-- The operations of R368. -/
inductive FloatOp where
  | add | sub | mul | fma | div | sqrt | min | max | exp2 | rsqrt
  deriving DecidableEq, Repr

/-- The result of an operation: x and y its sources, z the old element of vd (R369). -/
def floatOp (op : FloatOp) (f : Fmt) (rm : Rm) (fz : BitVec 2) (x y z : Nat) : FpResult :=
  match op with
  | .add => fpAdd f rm fz x y
  | .sub => fpSub f rm fz x y
  | .mul => fpMul f rm fz x y
  | .fma => fpFma f rm fz x y z
  | .div => fpDiv f rm fz x y
  | .sqrt => fpSqrt f rm fz x
  | .min => fpMinMax f fz false x y
  | .max => fpMinMax f fz true x y
  | .exp2 => fpExp2 f rm fz x
  | .rsqrt => fpRsqrt f rm fz x

/-- R63: vector floating point at SEW = 64 needs ENABLE.VFP64. -/
def needFp64 (i : Instr) : M Unit := do
  if (← getS).me.width = 64 then feature 0 i

/-- An element-wise floating-point operation (R368, R369); `i` is the instruction, for the information word of 0x004. -/
def vecFloat (i : Instr) (op : FloatOp) (d a : BitVec 5) (y : VSrc) (m : BitVec 1) (r : BitVec 3) : M Unit := do
  needFp64 i
  tagFloat a (op == .exp2 || op == .rsqrt)
  let t := regGet (← getS).me.tag a
  y.tagOk fun b => tagIs b t
  if op == .fma then tagIs d t
  modMe fun x =>
    x.wrote d x.width ((x.actives m r).map fun i =>
      (i, floatOp op t.fmt x.rm x.fz (x.at a i) (x.src y i) (x.at d i))) t

/-- A unary operation: it has no second source. -/
def vecFloat1 (i : Instr) (op : FloatOp) (d a : BitVec 5) (m : BitVec 1) (r : BitVec 3) : M Unit :=
  vecFloat i op d a (.scl 0) m r

/-- VFCMP (R370). -/
def vecFcmp (i : Instr) (c : FpCond) (d a : BitVec 5) (y : VSrc) (m : BitVec 1) (r : BitVec 3) : M Unit := do
  needFp64 i
  tagFloat a false
  let t := regGet (← getS).me.tag a
  y.tagOk fun b => tagIs b t
  modMe fun x => x.wroteMask d ((x.actives m r).map fun i => (i, fpCmp t.fmt x.fz c (x.at a i) (x.src y i)))

/-- VFADD (R368, R369). -/
def execVfadd (d a b : BitVec 5) (m : BitVec 1) (r : BitVec 3) (s : State) : Out :=
  complete (vecFloat (.vfadd d a b m r) .add d a (.vec b) m r) s

/-- VFSUB (R368, R369). -/
def execVfsub (d a b : BitVec 5) (m : BitVec 1) (r : BitVec 3) (s : State) : Out :=
  complete (vecFloat (.vfsub d a b m r) .sub d a (.vec b) m r) s

/-- VFMUL (R368, R369). -/
def execVfmul (d a b : BitVec 5) (m : BitVec 1) (r : BitVec 3) (s : State) : Out :=
  complete (vecFloat (.vfmul d a b m r) .mul d a (.vec b) m r) s

/-- VFMA (R368, R369). -/
def execVfma (d a b : BitVec 5) (m : BitVec 1) (r : BitVec 3) (s : State) : Out :=
  complete (vecFloat (.vfma d a b m r) .fma d a (.vec b) m r) s

/-- VFDIV (R368, R369). -/
def execVfdiv (d a b : BitVec 5) (m : BitVec 1) (r : BitVec 3) (s : State) : Out :=
  complete (vecFloat (.vfdiv d a b m r) .div d a (.vec b) m r) s

/-- VFMIN (R368, R369). -/
def execVfmin (d a b : BitVec 5) (m : BitVec 1) (r : BitVec 3) (s : State) : Out :=
  complete (vecFloat (.vfmin d a b m r) .min d a (.vec b) m r) s

/-- VFMAX (R368, R369). -/
def execVfmax (d a b : BitVec 5) (m : BitVec 1) (r : BitVec 3) (s : State) : Out :=
  complete (vecFloat (.vfmax d a b m r) .max d a (.vec b) m r) s

/-- VFCMP.eq (R370). -/
def execVfcmpEq (d a b : BitVec 5) (m : BitVec 1) (r : BitVec 3) (s : State) : Out :=
  complete (vecFcmp (.vfcmpEq d a b m r) .eq d a (.vec b) m r) s

/-- VFCMP.lt (R370). -/
def execVfcmpLt (d a b : BitVec 5) (m : BitVec 1) (r : BitVec 3) (s : State) : Out :=
  complete (vecFcmp (.vfcmpLt d a b m r) .lt d a (.vec b) m r) s

/-- VFCMP.le (R370). -/
def execVfcmpLe (d a b : BitVec 5) (m : BitVec 1) (r : BitVec 3) (s : State) : Out :=
  complete (vecFcmp (.vfcmpLe d a b m r) .le d a (.vec b) m r) s

/-- VFCMP.un (R370). -/
def execVfcmpUn (d a b : BitVec 5) (m : BitVec 1) (r : BitVec 3) (s : State) : Out :=
  complete (vecFcmp (.vfcmpUn d a b m r) .un d a (.vec b) m r) s

/-- VFADD with a scalar (R368, R369). -/
def execVfaddVs (d a b : BitVec 5) (m : BitVec 1) (r : BitVec 3) (s : State) : Out :=
  complete (vecFloat (.vfaddVs d a b m r) .add d a (.scl b) m r) s

/-- VFSUB with a scalar (R368, R369). -/
def execVfsubVs (d a b : BitVec 5) (m : BitVec 1) (r : BitVec 3) (s : State) : Out :=
  complete (vecFloat (.vfsubVs d a b m r) .sub d a (.scl b) m r) s

/-- VFMUL with a scalar (R368, R369). -/
def execVfmulVs (d a b : BitVec 5) (m : BitVec 1) (r : BitVec 3) (s : State) : Out :=
  complete (vecFloat (.vfmulVs d a b m r) .mul d a (.scl b) m r) s

/-- VFMA with a scalar (R368, R369). -/
def execVfmaVs (d a b : BitVec 5) (m : BitVec 1) (r : BitVec 3) (s : State) : Out :=
  complete (vecFloat (.vfmaVs d a b m r) .fma d a (.scl b) m r) s

/-- VFDIV with a scalar (R368, R369). -/
def execVfdivVs (d a b : BitVec 5) (m : BitVec 1) (r : BitVec 3) (s : State) : Out :=
  complete (vecFloat (.vfdivVs d a b m r) .div d a (.scl b) m r) s

/-- VFMIN with a scalar (R368, R369). -/
def execVfminVs (d a b : BitVec 5) (m : BitVec 1) (r : BitVec 3) (s : State) : Out :=
  complete (vecFloat (.vfminVs d a b m r) .min d a (.scl b) m r) s

/-- VFMAX with a scalar (R368, R369). -/
def execVfmaxVs (d a b : BitVec 5) (m : BitVec 1) (r : BitVec 3) (s : State) : Out :=
  complete (vecFloat (.vfmaxVs d a b m r) .max d a (.scl b) m r) s

/-- VFCMP.eq with a scalar (R370). -/
def execVfcmpEqVs (d a b : BitVec 5) (m : BitVec 1) (r : BitVec 3) (s : State) : Out :=
  complete (vecFcmp (.vfcmpEqVs d a b m r) .eq d a (.scl b) m r) s

/-- VFCMP.lt with a scalar (R370). -/
def execVfcmpLtVs (d a b : BitVec 5) (m : BitVec 1) (r : BitVec 3) (s : State) : Out :=
  complete (vecFcmp (.vfcmpLtVs d a b m r) .lt d a (.scl b) m r) s

/-- VFCMP.le with a scalar (R370). -/
def execVfcmpLeVs (d a b : BitVec 5) (m : BitVec 1) (r : BitVec 3) (s : State) : Out :=
  complete (vecFcmp (.vfcmpLeVs d a b m r) .le d a (.scl b) m r) s

/-- VFCMP.un with a scalar (R370). -/
def execVfcmpUnVs (d a b : BitVec 5) (m : BitVec 1) (r : BitVec 3) (s : State) : Out :=
  complete (vecFcmp (.vfcmpUnVs d a b m r) .un d a (.scl b) m r) s

/-- VFSQRT (R112, R368, R369). -/
def execVfsqrt (d a : BitVec 5) (m : BitVec 1) (r : BitVec 3) (s : State) : Out :=
  complete (vecFloat1 (.vfsqrt d a m r) .sqrt d a m r) s

/-- VFEXP2 (R112, R368, R369). -/
def execVfexp2 (d a : BitVec 5) (m : BitVec 1) (r : BitVec 3) (s : State) : Out :=
  complete (vecFloat1 (.vfexp2 d a m r) .exp2 d a m r) s

/-- VFRSQRT (R112, R368, R369). -/
def execVfrsqrt (d a : BitVec 5) (m : BitVec 1) (r : BitVec 3) (s : State) : Out :=
  complete (vecFloat1 (.vfrsqrt d a m r) .rsqrt d a m r) s

end Sys2Proof.Machine
end

