-- ==== Sys2Proof/Machine/VPerm.lean ====
section
/-! DEFINITION. Reductions, slides, permutations, compress and expand, sorting (R113 to R115, R363, R364, R371, R372,
R384, R385, R390 to R392). -/

namespace Sys2Proof.Machine

/-! ## Reductions -/

/-- Element 0 of a register written; its tag is kept, VSTART is zero. -/
def Ctx.wroteFirst (x : Ctx) (d : BitVec 5) (v : Nat) (f : BitVec 5) : Ctx :=
  { (x.raiseFlags f) with v := regSet x.v d (setElems (regGet x.v d) x.width [(0, v)]), vstart := 0 }

/-- VRED (R385). -/
def vecRed (op : IntOp) (d a : BitVec 5) (m : BitVec 1) (r : BitVec 3) : M Unit := do
  tagInt a
  tagInt d
  modMe fun x =>
    x.wroteFirst d ((x.activesFrom m r 0).foldl (fun acc i => intOp op x.width acc (x.at a i)) (x.at d 0)) 0

/-- The leaf slots of R113 from `start`, `n` of them. -/
def Ctx.slots (x : Ctx) (a : BitVec 5) (m : BitVec 1) (r : BitVec 3) (start n : Nat) : List (Option Nat) :=
  (span start n).map fun i => if x.active m r i then some (x.at a i) else none

/-- VFRED.add with REPRO = 0 (R114): the new element 0 and the flags, none when no element is Active. -/
def Ctx.redTree (x : Ctx) (f : Fmt) (a : BitVec 5) (m : BitVec 1) (r : BitVec 3) (init : Nat) : Option FpResult :=
  let comb := fpAdd f x.rm x.fz
  match treeOf comb (x.slots a m r 0 x.vlmax) 0 11 with
  | (some s, fl) => let z := comb init s; some (z.1, z.2 ||| fl)
  | (none, _) => none

/-- VFRED.add with REPRO = 1 (R115): blocks of 32 in ascending order, every step RNE. -/
def Ctx.redBlocks (x : Ctx) (f : Fmt) (a : BitVec 5) (m : BitVec 1) (r : BitVec 3) (init : Nat) : FpResult :=
  let comb := fpAdd f .rne x.fz
  (span 0 ((x.vl.toNat + 31) / 32)).foldl (fun acc b =>
    match treeOf comb (x.slots a m r (32 * b) 32) 0 6 with
    | (some s, fl) => let z := comb acc.1 s; (z.1, acc.2 ||| fl ||| z.2)
    | (none, _) => acc) (init, 0)

/-- VFRED.min and .max (R372). Without an Active element the initial value is given as it is, and a signalling NaN raises nothing. (DESIGN CHOICE, log 69.) -/
def Ctx.redMinMax (x : Ctx) (f : Fmt) (max : Bool) (a : BitVec 5) (m : BitVec 1) (r : BitVec 3) (init : Nat) : FpResult :=
  (x.activesFrom m r 0).foldl (fun acc i =>
    let z := fpMinMax f x.fz max acc.1 (x.at a i)
    (z.1, acc.2 ||| z.2)) (flushIn f x.fz init, 0)

/-- The checks of R371. -/
def redChecks (i : Instr) (d a : BitVec 5) : M Tag := do
  needFp64 i
  tagFloat a false
  let t := regGet (← getS).me.tag a
  tagIs d t
  return t

/-- VFRED.add (R114, R115, R371, R372). -/
def vecFredAdd (i : Instr) (d a : BitVec 5) (m : BitVec 1) (r : BitVec 3) : M Unit := do
  let t ← redChecks i d a
  modMe fun x =>
    let z := if x.repro then some (x.redBlocks t.fmt a m r (x.at d 0)) else x.redTree t.fmt a m r (x.at d 0)
    match z with
    | some z => x.wroteFirst d z.1 z.2
    | none => { x with vstart := 0 }

/-- VFRED.min and VFRED.max (R371, R372). -/
def vecFredMinMax (i : Instr) (max : Bool) (d a : BitVec 5) (m : BitVec 1) (r : BitVec 3) : M Unit := do
  let t ← redChecks i d a
  modMe fun x =>
    let z := x.redMinMax t.fmt max a m r (x.at d 0)
    x.wroteFirst d z.1 z.2

/-- VRED.add (R385). -/
def execVredAdd (d a : BitVec 5) (m : BitVec 1) (r : BitVec 3) (s : State) : Out := complete (vecRed .add d a m r) s

/-- VRED.and (R385). -/
def execVredAnd (d a : BitVec 5) (m : BitVec 1) (r : BitVec 3) (s : State) : Out := complete (vecRed .and d a m r) s

/-- VRED.or (R385). -/
def execVredOr (d a : BitVec 5) (m : BitVec 1) (r : BitVec 3) (s : State) : Out := complete (vecRed .or d a m r) s

/-- VRED.xor (R385). -/
def execVredXor (d a : BitVec 5) (m : BitVec 1) (r : BitVec 3) (s : State) : Out := complete (vecRed .xor d a m r) s

/-- VRED.min (R385). -/
def execVredMin (d a : BitVec 5) (m : BitVec 1) (r : BitVec 3) (s : State) : Out := complete (vecRed .min d a m r) s

/-- VRED.max (R385). -/
def execVredMax (d a : BitVec 5) (m : BitVec 1) (r : BitVec 3) (s : State) : Out := complete (vecRed .max d a m r) s

/-- VRED.minu (R385). -/
def execVredMinu (d a : BitVec 5) (m : BitVec 1) (r : BitVec 3) (s : State) : Out := complete (vecRed .minU d a m r) s

/-- VRED.maxu (R385). -/
def execVredMaxu (d a : BitVec 5) (m : BitVec 1) (r : BitVec 3) (s : State) : Out := complete (vecRed .maxU d a m r) s

/-- VFRED.add (R371, R372). -/
def execVfredAdd (d a : BitVec 5) (m : BitVec 1) (r : BitVec 3) (s : State) : Out :=
  complete (vecFredAdd (.vfredAdd d a m r) d a m r) s

/-- VFRED.min (R371, R372). -/
def execVfredMin (d a : BitVec 5) (m : BitVec 1) (r : BitVec 3) (s : State) : Out :=
  complete (vecFredMinMax (.vfredMin d a m r) false d a m r) s

/-- VFRED.max (R371, R372). -/
def execVfredMax (d a : BitVec 5) (m : BitVec 1) (r : BitVec 3) (s : State) : Out :=
  complete (vecFredMinMax (.vfredMax d a m r) true d a m r) s

/-! ## Slides and permutations -/

/-- Elements moved under the tag of va: none keeps an element's bits. -/
def vecMove (d a : BitVec 5) (m : BitVec 1) (r : BitVec 3) (f : Ctx → Nat → Option Nat) : M Unit := do
  tagWide a
  modMe fun x =>
    x.wrote d x.width ((x.actives m r).filterMap fun i => (f x i).map fun v => (i, v, 0)) (regGet x.tag a)

/-- VSLIDE.up (R390). -/
def execVslideUp (d a b : BitVec 5) (m : BitVec 1) (r : BitVec 3) (s : State) : Out :=
  complete (vecMove d a m r fun x i =>
    let n := (x.reg b).toNat
    if n ≤ i then some (x.at a (i - n)) else none) s

/-- VSLIDE.down (R390). -/
def execVslideDown (d a b : BitVec 5) (m : BitVec 1) (r : BitVec 3) (s : State) : Out :=
  complete (vecMove d a m r fun x i =>
    let j := i + (x.reg b).toNat
    some (if j < x.vlmax then x.at a j else 0)) s

/-- VPERM (R384). -/
def execVperm (d a b : BitVec 5) (m : BitVec 1) (r : BitVec 3) (s : State) : Out :=
  complete (do
    tagWide a
    tagInt b
    vecMove d a m r fun x i =>
      let j := x.at b i
      some (if j < x.vlmax then x.at a j else 0)) s

/-- The positions below VL where a mask is set. -/
def Ctx.marked (x : Ctx) (r : BitVec 3) : List Nat := x.activesFrom 1 r 0

/-- VCOMPRESS (R363, R364). -/
def execVcompress (d a : BitVec 5) (r : BitVec 3) (s : State) : Out :=
  complete (do
    tagWide a
    modMe fun x =>
      let ps := x.marked r
      x.wrote d x.width ((ps.zip (span 0 ps.length)).map fun p => (p.2, x.at a p.1, 0)) (regGet x.tag a)) s

/-- VEXPAND (R363, R364). -/
def execVexpand (d a : BitVec 5) (r : BitVec 3) (s : State) : Out :=
  complete (do
    tagWide a
    modMe fun x =>
      let ps := x.marked r
      x.wrote d x.width ((ps.zip (span 0 ps.length)).map fun p => (p.1, x.at a p.2, 0)) (regGet x.tag a)) s

/-! ## Sorting (R391, R392) -/

/-- The Active positions in the order of their keys, read unsigned; equal keys keep their order. -/
def Ctx.sorted (x : Ctx) (a : BitVec 5) (m : BitVec 1) (r : BitVec 3) : List Nat :=
  sortBy (fun i j => decide (x.at a i ≤ x.at a j)) (x.activesFrom m r 0)

/-- The elements of a register in a given order, from position 0. -/
def Ctx.inOrder (x : Ctx) (a : BitVec 5) (ps : List Nat) : List (Nat × FpResult) :=
  (ps.zip (span 0 ps.length)).map fun p => (p.2, x.at a p.1, 0)

/-- VSORT (R391, R392). -/
def execVsort (d a : BitVec 5) (m : BitVec 1) (r : BitVec 3) (s : State) : Out :=
  complete (do
    feature 9 (.vsort d a m r)
    tagInt a
    modMe fun x => x.wrote d x.width (x.inOrder a (x.sorted a m r)) (regGet x.tag a)) s

/-- VSORT.kv (R391, R392): keys into vd, values into vd + 1. -/
def execVsortKv (d a b : BitVec 5) (m : BitVec 1) (r : BitVec 3) (s : State) : Out :=
  complete (do
    feature 9 (.vsortKv d a b m r)
    tagInt a
    tagWide b
    modMe fun x =>
      let ps := x.sorted a m r
      (x.wrote d x.width (x.inOrder a ps) (regGet x.tag a)).wrote (d + 1) x.width (x.inOrder b ps) (regGet x.tag b)) s

end Sys2Proof.Machine
end

