-- ==== Sys2Proof/Machine/VMove.lean ====
section
/-! DEFINITION. Mask instructions (R323, R324), conversions and moves of major 0x26 (R365 to R367, R373, R374, R382,
R383). -/

namespace Sys2Proof.Machine

/-! ## Masks -/

/-- Bits 0 to VL − 1 of a mask register written by position, VSTART zero (R324). -/
def Ctx.setMask (x : Ctx) (d : BitVec 5) (f : Nat → Bool) : Ctx :=
  let k := d.setWidth 3
  { x with m := set8 x.m k (setBits (get8 x.m k) ((span 0 x.vl.toNat).map fun i => (i, f i))), vstart := 0 }

/-- Bit `i` of a mask register. -/
def Ctx.maskBit (x : Ctx) (r : BitVec 5) (i : Nat) : Bool := (get8 x.m (r.setWidth 3)).getLsbD i

/-- The first set bit of a mask below VL; VL if there is none. -/
def Ctx.firstBit (x : Ctx) (r : BitVec 5) : Nat := ((span 0 x.vl.toNat).find? (x.maskBit r)).getD x.vl.toNat

/-- MAND (R324). -/
def execMand (d a b : BitVec 5) (s : State) : Out :=
  .next (s.setMe (s.me.setMask d fun i => s.me.maskBit a i && s.me.maskBit b i).advance)

/-- MOR (R324). -/
def execMor (d a b : BitVec 5) (s : State) : Out :=
  .next (s.setMe (s.me.setMask d fun i => s.me.maskBit a i || s.me.maskBit b i).advance)

/-- MXOR (R324). -/
def execMxor (d a b : BitVec 5) (s : State) : Out :=
  .next (s.setMe (s.me.setMask d fun i => s.me.maskBit a i != s.me.maskBit b i).advance)

/-- MNOT (R324). -/
def execMnot (d a : BitVec 5) (s : State) : Out := .next (s.setMe (s.me.setMask d fun i => !s.me.maskBit a i).advance)

/-- A count or position of a mask written to a scalar register, VSTART zero. -/
def maskScalar (d : BitVec 5) (v : Nat) (s : State) : Out :=
  .next (s.setMe { (s.me.setReg d (word v)).advance with vstart := 0 })

/-- MPOP (R324). -/
def execMpop (d a : BitVec 5) (s : State) : Out :=
  maskScalar d ((span 0 s.me.vl.toNat).filter (s.me.maskBit a)).length s

/-- MFIRST (R324). -/
def execMfirst (d a : BitVec 5) (s : State) : Out :=
  let f := s.me.firstBit a
  maskScalar d (if f < s.me.vl.toNat then f else 2 ^ 64 - 1) s

/-- MBREAK (R324). -/
def execMbreak (d a : BitVec 5) (s : State) : Out :=
  let f := s.me.firstBit a
  .next (s.setMe (s.me.setMask d fun i => decide (i < f)).advance)

/-! ## VCVT -/

/-- One element converted between integer and floating tags (R111, R366). -/
def convertElem (src dst : Tag) (rm : Rm) (fz : BitVec 2) (v : Nat) : FpResult :=
  if src.isInt then
    if dst.isInt then (saturate dst.bits (signed src.bits v), 0)
    else intToFp dst.fmt rm (flushOut fz) (signed src.bits v)
  else if dst.isInt then fpToInt src.fmt rm fz dst.bits true v
  else fpToFp src.fmt dst.fmt rm fz v

/-- The tags that pass the 0x081 check of R365 at a width. -/
def cvtAccepts (w : Nat) (dst t : Tag) : Bool :=
  if t.isSb then dst.isFloat && dst.bits == w else t.bits != 0 && max t.bits dst.bits == w

/-- The lowest accepted code of that check. -/
def cvtLowest (sew : BitVec 2) (w : Nat) (dst : Tag) : Nat :=
  if dst.bits = w then 1 else if dst.bits < w then (intTag sew).code else 0

/-- The header and the superscale of the block that a lane holds (R127). -/
def Ctx.laneHeader (x : Ctx) (a : BitVec 5) (l : Nat) : Nat := (slice (regGet x.hdr a) (16 * l) 16).toNat
def Ctx.laneSuper (x : Ctx) (a : BitVec 5) (l : Nat) : Nat := (slice (regGet x.sup a) (32 * (l / 4)) 32).toNat

/-- The reason for which the block of a lane fails R128; `first` marks the first block checked of its superblock. -/
def Ctx.laneBad (x : Ctx) (a : BitVec 5) (sb8 first : Bool) (l : Nat) : Option Nat :=
  if first && superBad (x.laneSuper a l) 0 then some 3 else headerBad sb8 (x.laneHeader a l)

/-- The first lane that fails among those that hold Active elements, in ascending order. -/
def Ctx.firstBad (x : Ctx) (a : BitVec 5) (sb8 : Bool) (prev : Option Nat) : List Nat → Option (Nat × Nat)
  | [] => none
  | l :: rest =>
    match x.laneBad a sb8 (prev != some (l / 4)) l with
    | some r => some (l, r)
    | none => x.firstBad a sb8 (some (l / 4)) rest

/-- A list without repeats of neighbours. -/
def dedup (l : List Nat) : List Nat := l.foldl (fun acc x => if acc.contains x then acc else acc ++ [x]) []

/-- VCVT of an SB source (R127, R128, R366). -/
def cvtSb (d a : BitVec 5) (dst : Tag) (sb8 : Bool) (m : BitVec 1) (r : BitVec 3) : M Unit := do
  let x := (← getS).me
  let n := blockLen sb8
  let is := x.actives m r
  let one i := (i, expand sb8 (x.laneSuper a (i / n)) (x.laneHeader a (i / n)) (elem (regGet x.v a) (codeBits sb8) i)
    dst.fmt x.rm x.fz)
  match x.firstBad a sb8 none (dedup (is.map (· / n))) with
  | none => modMe fun y => y.wrote d dst.bits (is.map one) dst
  | some (l, reason) =>
    modMe fun y => { (y.wrote d dst.bits ((is.filter fun i => decide (i / n < l)).map one) dst) with
      vstart := BitVec.ofNat 11 (max (l * n) x.vstart.toNat) }
    trapM 0x082 (headerInfo 0 (l % 4) reason)

/-- VCVT (R365, R366): `t` is the destination tag's code. -/
def execVcvt (d a t : BitVec 5) (m : BitVec 1) (r : BitVec 3) (s : State) : Out :=
  complete (do
    let i := Instr.vcvt d a t m r
    let x := s.me
    let src := regGet x.tag a
    let dst := tagOfCode t.toNat
    if dst == .fp64 || src == .fp64 then feature 0 i
    if src.isSb && dst.isInt then trapM 0x085 (instrWord i)
    tagIn a (cvtAccepts x.width dst) (cvtLowest x.sew x.width dst)
    if src.isSb then cvtSb d a dst (src == .sb8) m r
    else
      let one i := (i, convertElem src dst x.rm x.fz (elem (regGet x.v a) src.bits i))
      modMe fun y => y.wrote d dst.bits ((x.actives m r).map one) dst) s

/-! ## Moves -/

/-- VMV.v (R382, R383). -/
def execVmvV (d a : BitVec 5) (m : BitVec 1) (r : BitVec 3) (s : State) : Out :=
  complete (vecMove d a m r fun x i => some (x.at a i)) s

/-- VMV.s (R382, R383). -/
def execVmvS (d a : BitVec 5) (m : BitVec 1) (r : BitVec 3) (s : State) : Out :=
  let x := s.me
  let t := regGet x.tag d
  let t := if t.bits = x.width then t else intTag x.sew
  .next (s.setMe (x.wrote d x.width ((x.actives m r).map fun i => (i, (x.reg a).toNat % 2 ^ x.width, 0)) t).advance)

/-- VMV.raw (R53, R382, R383). -/
def execVmvRaw (d a t : BitVec 5) (s : State) : Out :=
  let x := s.me
  let tag := tagOfCode t.toNat
  let y := x.setVec d (regGet x.v a) tag
  let y := if tag.isSb then { y with hdr := regSet y.hdr d (regGet x.hdr a), sup := regSet y.sup d (regGet x.sup a) } else y
  .next (s.setMe { y.advance with vstart := 0 })

/-- VIDX (R373). -/
def execVidx (d : BitVec 5) (m : BitVec 1) (r : BitVec 3) (s : State) : Out :=
  let x := s.me
  .next (s.setMe (x.wrote d x.width ((x.actives m r).map fun i => (i, i % 2 ^ x.width, 0)) (intTag x.sew)).advance)

/-- VEXTR (R367): an integer element is sign-extended, a floating one zero-extended. -/
def execVextr (d a b : BitVec 5) (s : State) : Out :=
  complete (do
    tagWide a
    modMe fun x =>
      let n := (x.reg b).toNat
      let v := if n < x.vlmax then x.at a n else 0
      x.setReg d (if (regGet x.tag a).isInt then BitVec.ofInt 64 (signed x.width v) else word v)) s

/-- VINS (R374). -/
def execVins (d a b : BitVec 5) (s : State) : Out :=
  complete (do
    tagWide d
    modMe fun x =>
      let n := (x.reg b).toNat
      if n < x.vlmax then
        { x with v := regSet x.v d (setElems (regGet x.v d) x.width [(n, (x.reg a).toNat % 2 ^ x.width)]) }
      else x) s

end Sys2Proof.Machine
end

