-- ==== Sys2Proof/Machine/VMem.lean ====
section
/-! DEFINITION. How vector memory instructions access memory: batches replayed under VFM (R162, R163), ordered
elements (R164), index range (R165), the conversions of MFMT.ENC (R124 to R126) and the common checks (R376,
R377). -/

namespace Sys2Proof.Machine

/-! ## Batches -/

/-- The causes that a batch collects (R163). -/
def batchCause (c : BitVec 10) : Bool :=
  [0x101, 0x102, 0x103, 0x105, 0x1C1, 0x1C2, 0x1C3, 0x381, 0x382].contains c.toNat

/-- An element that faulted: its number, the address concerned, and the trap. -/
structure Fail where
  elem : Nat
  va : Nat
  cause : BitVec 10
  info : Word
  record : FaultInfo
  deriving DecidableEq, Repr

/-- The code of an access kind in a page list (R161). -/
def Access.code : Access → Nat
  | .read => 0
  | .write => 1
  | .atomic => 2
  | .fetch => 3

/-- The page-list entry of a failure (R161). -/
def pageEntry (kind : Access) (f : Fail) : Word :=
  let walkCause := decide (f.cause.toNat ≤ 0x105) || (f.cause == 0x382#10 && f.record.w4 != 0)
  let unit := if walkCause then 65536 else 4096
  word (f.va / unit * unit + kind.code * 1024 + f.cause.toNat)

/-- Distinct words in the order in which they first appear. -/
def distinct (l : List Word) : List Word := l.foldl (fun acc x => if acc.contains x then acc else acc ++ [x]) []

/-- The record of a batch trap (R161, R163): the lowest failing element and up to 27 pages. -/
def batchRecord (kind : Access) (w : Nat) (low : Fail) (fs : List Fail) : FaultInfo :=
  let ps := distinct (fs.map (pageEntry kind))
  { low.record with elem := low.elem, lane := laneOf w low.elem, more := decide (27 < ps.length), pages := ps.take 27 }

/-- The places of one access; a read or an atomic meets poison here (R265). -/
def placesOf (who : Who) (kind : Access) (va n : Nat) : M (List Loc) := do
  let ls ← locateBytes who kind va n
  if kind != .write then checkPoison va ls
  return ls

/-- The places of the accesses of one element, or the address and the stop that ended them: for a later field of a segment and for a side entry the address of that access. (DEDUCED, log 12.) -/
def placesAll (who : Who) (kind : Access) : List (Nat × Nat) → M (Except (Nat × Stop) (List Loc))
  | [] => pure (.ok [])
  | (va, n) :: rest => do
    match ← attempt (placesOf who kind va n) with
    | .error e => return .error (va, e)
    | .ok ls =>
      match ← placesAll who kind rest with
      | .error e => return .error e
      | .ok more => return .ok (ls ++ more)

/-- The same for one element, whose frames are in use while it is located (R141); what was done for an access that then faults stays (R146). A lack of frames first lets the context's own stores go (R141), if nothing else of it is in flight. -/
def elementPlaces (who : Who) (kind : Access) (accs : List (Nat × Nat)) : M (Except (Nat × Stop) (List Loc)) := fun s =>
  match (placesAll { who with since := s.clock } kind accs).run s with
  | (.ok (.error (va, .wait)), t) =>
    if s.me.onlyStores then
      let u := s.storesDone s.cur
      (placesAll { who with since := u.clock } kind accs).run u
    else (.ok (.error (va, .wait)), t)
  | r => r

/-- What a pass over a batch has found so far: results, failures, entries waited for, whether something else is waited for. -/
structure Pass (α : Type) where
  done : List (Nat × α)
  fails : List Fail
  keys : List Nat
  held : Bool

/-- The names under which the ticks of a wait that has reached its limit are kept while other elements of the batch still wait (R138, R158). -/
def waitedKeys (c : BitVec 10) (w : Word) (r : FaultInfo) : List Nat :=
  if c = 0x103#10 || (c = 0x1C2#10 && r.w2 = 0x103#64) then [walkKey r.w3.toNat]
  else if c = 0x1C3#10 then [busyKey w.toNat] else []

/-- One pass over elements: each is located, then acted on; failures of R163 are collected. `mark` names the element in the record of any other trap. -/
def passOver {α : Type} (who : Who) (kind : Access) (mark : Nat → FaultInfo → FaultInfo) (act : Nat → List Loc → M α)
    (p : Pass α) : List (Nat × List (Nat × Nat)) → M (Pass α)
  | [] => pure p
  | (i, accs) :: rest => do
    match ← elementPlaces who kind accs with
    | .ok ls =>
      let x ← act i ls
      passOver who kind mark act { p with done := p.done ++ [(i, x)] } rest
    | .error (va, .trap c w r) =>
      if batchCause c then
        passOver who kind mark act { p with fails := p.fails ++ [⟨i, va, c, w, r⟩], keys := p.keys ++ waitedKeys c w r } rest
      else trapM c w (mark i r)
    | .error (_, .wait) => passOver who kind mark act { p with held := true } rest
    | .error (_, .waitOn ks) => passOver who kind mark act { p with held := true, keys := p.keys ++ ks } rest

/-- A record that names an element and its lane (R161). -/
def atElem (w i : Nat) (r : FaultInfo) : FaultInfo := { r with elem := i, lane := laneOf w i }

/-- A pass whose stop leaves nothing behind; a pass in which an element waits is tried again. (DESIGN CHOICE, log 23.) -/
def batchPass {α : Type} (who : Who) (kind : Access) (mark : Nat → FaultInfo → FaultInfo)
    (els : List (Nat × List (Nat × Nat))) (act : Nat → List Loc → M α) : M (Pass α) := fun s =>
  match (passOver who kind mark act ⟨[], [], [], false⟩ els).run s with
  | (.ok p, t) => if p.held then (.error (.waitOn p.keys), s) else (.ok p, t)
  | (.error e, _) => (.error e, s)

/-- A mask with given bits. -/
def maskOf (l : List Nat) : BitVec 1024 := setBits 0 (l.map fun i => (i, true))

/-- The information word of a batch trap (R163): the entry for 0x103, 0x105 and 0x1C3, the element's address for every other cause. -/
def Fail.word (f : Fail) : Word :=
  if f.cause = 0x103#10 || f.cause = 0x105#10 || f.cause = 0x1C3#10 then f.info else Machine.word f.va

/-- The end of a batch (R163): VFM and VSTART cleared, or VFM set and the lowest failure raised. -/
def endBatch (kind : Access) (w : Nat) (marked : List Nat) (fs : List Fail) : M Unit := do
  match leastBy (fun (f : Fail) => f.elem) fs with
  | none => modMe fun x => { x with vfm := 0, vstart := 0, adone := 0 }
  | some low =>
    modMe fun x => { x with vfm := maskOf marked }
    trapM low.cause low.word (batchRecord kind w low fs)

/-- The elements of a pass: the Active ones from VSTART, on a replay only those named in VFM (R163). -/
def Ctx.passElems (x : Ctx) (m : BitVec 1) (r : BitVec 3) : List Nat :=
  (x.actives m r).filter fun i => x.vfm == 0 || x.vfm.getLsbD i

/-! ## Encodings (R61, R124 to R126, R376) -/

/-- Fields of MFMT. -/
def Ctx.enc (x : Ctx) : Tag := tagOfCode (field x.mfmt.toNat 0 5)
def Ctx.side (x : Ctx) : Nat := field x.mfmt.toNat 8 2
def Ctx.selMask (x : Ctx) : Nat := field x.mfmt.toNat 5 3

/-- The size in memory of one element in bytes, but for SB data. -/
def memSize (enc : Tag) (w : Nat) : Nat := if enc == .unset then w / 8 else enc.bits / 8

/-- The tag that a load gives (R124), SB encodings apart: none for a refused pair. -/
def loadTag (enc : Tag) (sew : BitVec 2) : Option Tag :=
  if enc.isFloat then
    match sew.toNat with
    | 0 => none
    | 1 => some (if enc == .fp16 then .fp16 else .bf16)
    | 2 => some .fp32
    | _ => some .fp64
  else some (intTag sew)

/-- The conversion of a load: the memory bits under ENC to the destination tag. -/
def loadElem (enc dst : Tag) (rm : Rm) (fz : BitVec 2) (v : Nat) : FpResult :=
  if enc == .unset || enc == dst then (v, 0) else convertElem enc dst rm fz v

/-- The conversion of a store: the register bits under the source tag to ENC. -/
def storeElem (enc src : Tag) (rm : Rm) (fz : BitVec 2) (v : Nat) : FpResult :=
  if enc == .unset || enc == src then (v, 0) else convertElem src enc rm fz v

/-- The source tags that a store accepts (R125). -/
def storeAccepts (enc : Tag) (w : Nat) (t : Tag) : Bool :=
  if enc == .unset then t.bits == w || (w == 8 && t.isSb)
  else if enc.isInt then t.isInt && t.bits == w
  else if enc.isFloat then t.bits == w
  else t == enc && w == 8

/-- The lowest code of that set. -/
def storeLowest (enc : Tag) (sew : BitVec 2) : Nat := if enc.isSb then enc.code else (intTag sew).code

/-- R63: an SB encoding needs ENABLE.SB. -/
def needSb (i : Instr) : M Unit := do
  if (← getS).me.enc.isSb then feature 2 i

/-- Alignment of addresses: the lowest that fails is named (R377). (DEDUCED, log 13.) -/
def alignedAll (m : Nat) (vas : List Nat) : M Unit :=
  match leastBy id (vas.filter fun a => a % m != 0) with
  | some a => trapM 0x010 (word a)
  | none => pure ()

/-- Check 4 of R377, over the addresses of elements: 0x1C4 names the element (R161). -/
def insideAll (base w : Nat) (vas : List (Nat × Nat)) : M Unit :=
  match vas.find? fun a => if inWindow base then !inWindow a.2 else decide (2 ^ 55 ≤ a.2) with
  | some a => trapM 0x1C4 (word a.2) (atElem w a.1 (atAddr a.2 0))
  | none => pure ()

/-- An address 64 bits wide. -/
def va64 (base : Word) (off : Nat) : Nat := (base + word off).toNat

/-! ## Loads and stores of elements -/

/-- The addresses of the fields of an element. -/
abbrev Addresses : Type := Nat → List Nat

/-- The bytes of the parts of one element, each part one unit (R167), and the latest past moment at which a part was read. (DESIGN CHOICE, log 9.) -/
def readParts (who : Who) : List (Nat × List Loc) → M (Nat × List Byte)
  | [] => pure (0, [])
  | (va, ls) :: rest => do
    let s ← getS
    let (j, bs) ← readUnit who (·.isOpen .vector) va ls (ls.map s.locByte)
    let (k, more) ← readParts who rest
    return (max j k, bs ++ more)

/-- Accesses of `n` bytes with their places. -/
def parts (vas : List Nat) (n : Nat) (ls : List Loc) : List (Nat × List Loc) :=
  (vas.zip (span 0 vas.length)).map fun v => (v.1, (ls.drop (n * v.2)).take n)

/-- The elements that a vector load has read precede those of later vector accesses (R168): moments before the latest read are over. (DESIGN CHOICE, log 9.) -/
def readUpTo (js : List Nat) : M Unit :=
  match js with
  | [] => pure ()
  | _ => modS fun s => s.closeBefore s.cur .vector (js.foldl max 0)

/-- A batch of loads (R163, R378): element `i` has one access of `n` bytes for each address of `adr i`, the results go to registers from `d` on. (DEDUCED, log 14.) -/
def loadBatch (d : BitVec 5) (m : BitVec 1) (r : BitVec 3) (dst : Tag) (n fields : Nat) (adr : Addresses) : M Unit := do
  stashOpen (((← getS).me.passElems m r).flatMap adr)
  drainM
  let s ← getS
  let x := s.me
  let els := (x.passElems m r).map fun i => (i, (adr i).map fun a => (a, n))
  let p ← batchPass s.who .read (atElem x.width) els fun i ls => do
    let (j, bytes) ← readParts s.who (parts (adr i) n ls)
    return (j, (span 0 fields).map fun q => loadElem x.enc dst x.rm x.fz (ofBytes ((bytes.drop (n * q)).take n)))
  readUpTo (p.done.map (·.2.1))
  modMe fun y =>
    let z := (span 0 fields).foldl (fun (z : Ctx) j =>
      z.wrote (d + BitVec.ofNat 5 j) y.width (p.done.map fun e => (e.1, (e.2.2[j]?).getD (0, 0))) dst) y
    { z with vstart := y.vstart }
  endBatch .read x.width (p.fails.map (·.elem)) p.fails

/-- A store joins the queue (R55, R168); `at_` is the context as its instruction issues, `split` marks packed data. -/
def queueStore (at_ : Ctx) (ordered split : Bool) (bytes : List (Loc × Byte)) : M Unit :=
  modMe fun x => { x with vstores := x.vstores ++ [⟨bytes, ordered, at_.newStamp, at_.vAfter, split⟩] }

/-- A batch of stores (R163, R394): the fields of element `i` come from registers from `d` on. (DEDUCED, log 14.) -/
def storeBatch (d : BitVec 5) (m : BitVec 1) (r : BitVec 3) (n fields : Nat) (adr : Addresses) : M Unit := do
  stashOpen (((← getS).me.passElems m r).flatMap adr)
  let s ← getS
  let x := s.me
  let els := (x.passElems m r).map fun i => (i, (adr i).map fun a => (a, n))
  let conv i j :=
    let q := d + BitVec.ofNat 5 j
    storeElem x.enc (regGet x.tag q) x.rm x.fz (x.at q i)
  let p ← batchPass s.who .write (atElem x.width) els fun i ls => do
    let vs := (span 0 fields).map (conv i)
    queueStore x false false (ls.zip (vs.flatMap fun v => bytesOf n v.1))
    return unionFlags (vs.map (·.2))
  modMe fun y => y.raiseFlags (unionFlags (p.done.map (·.2)))
  endBatch .write x.width (p.fails.map (·.elem)) p.fails

/-! ## Indexed accesses (R165) -/

/-- The indexed address of element `i`: base + zext(index) × SEW/8. -/
def Ctx.indexed (x : Ctx) (a b : BitVec 5) (iw i : Nat) : Nat :=
  va64 (x.reg a) (elem (regGet x.v b) iw i * (x.width / 8))

/-- Index range of the elements that are to be performed, on a replay those named in VFM: the indices of others may have been overwritten (R163). 0x104 names the element. (DEDUCED, log 14.) -/
def indexRange (a b : BitVec 5) (iw : Nat) (els : List Nat) : M Unit := do
  let x := (← getS).me
  let base := (x.reg a).toNat
  match els.find? fun i =>
      let va := x.indexed a b iw i
      if inWindow base then !inWindow va else decide (2 ^ 55 ≤ va) with
  | none => pure ()
  | some i =>
    trapM 0x104 (word (i + laneOf x.width i * 2 ^ 11))
      { noInfo with elem := i, lane := laneOf x.width i, w2 := word (elem (regGet x.v b) iw i),
                    w3 := word (x.indexed a b iw i) }

/-- The index width of VLDX and VSTX (R100). -/
def indexBits (w : BitVec 2) : Nat := 8 * 2 ^ w.toNat

/-- iw above SEW is refused (R380). -/
def indexFits (i : Instr) (w : BitVec 2) : M Unit := do
  check (decide (w.toNat ≤ (← getS).me.sew.toNat)) 0x085 (instrWord i)

/-! ## Atomic elements (R361) -/

/-- An order for elements that may touch a common place: the next one is any of those left (R243). -/
def anyOrder {α : Type} (s : State) : List α → Nat → List α × State
  | l, 0 => (l, s)
  | [], _ => ([], s)
  | l, fuel + 1 =>
    let k := Config.freeNat s.free % l.length
    let t := { s with free := s.free + 1 }
    match l[k]? with
    | none => (l, t)
    | some x => let (rest, u) := anyOrder t (l.eraseIdx k) fuel; (x :: rest, u)

/-- Whether a place occurs twice. -/
def repeated : List Loc → Bool
  | [] => false
  | a :: rest => rest.contains a || repeated rest

/-- The places of all elements that can be located, as they are found before any of them is performed. -/
def foundPlaces (who : Who) (kind : Access) : List (Nat × List (Nat × Nat)) → M (List Loc)
  | [] => pure []
  | (_, accs) :: rest => do
    let r ← elementPlaces who kind accs
    let more ← foundPlaces who kind rest
    match r with
    | .ok ls => return ls ++ more
    | .error _ => return more

/-- Some of the elements reach a common place, by one address or by two (R243). -/
def share (s : State) (who : Who) (kind : Access) (els : List (Nat × List (Nat × Nat))) : Bool :=
  match (foundPlaces who kind els).run s with
  | (.ok ls, _) => repeated ls
  | (.error _, _) => true

/-- Elements in an order that R243 allows: any, where two of them share a place or only some are performed now. (DEDUCED, log 50.) -/
def unordered (who : Who) (els : List (Nat × List (Nat × Nat))) : M (List (Nat × List (Nat × Nat))) := do
  let s ← getS
  if s.me.quota.isSome || share s who .atomic els then
    let (l, t) := anyOrder s els els.length
    modS fun _ => t
    return (match s.me.quota with
      | some n => l.take n
      | none => l)
  else return els

/-- Read and write of a place as one point of T (R239). -/
def atomicAt (ls : List Loc) (n : Nat) (f : Nat → Nat × Nat) : M Nat := do
  let s ← getS
  let r := f (ofBytes (ls.map s.locByte))
  modS fun t => t.writeLocs (ls.zip (bytesOf n r.1))
  return r.2

/-- How an ordered access ends (R164): a stop at an element, or the elements that this step performs are done and another follows. -/
inductive OrderedEnd where
  | all
  | next (elem : Nat)
  | stop (e : Stop) (elem : Nat)
  deriving DecidableEq, Repr

/-- One element after another in ascending order (R164), at most `quota` of them in this step: a fault or a wait stops the instruction there. -/
def orderedPass {α : Type} (who : Who) (kind : Access) (w : Nat) (act : Nat → List Loc → M α) (quota : Option Nat)
    (done : List (Nat × α)) : List (Nat × List (Nat × Nat)) → M (List (Nat × α) × OrderedEnd)
  | [] => pure (done, .all)
  | (i, accs) :: rest => do
    if quota == some 0 then return (done, .next i)
    match ← elementPlaces who kind accs with
    | .ok ls =>
      let x ← act i ls
      orderedPass who kind w act (quota.map (· - 1)) (done ++ [(i, x)]) rest
    | .error (_, .trap c inf r) => return (done, .stop (.trap c inf (atElem w i r)) i)
    | .error (_, e) => return (done, .stop e i)

/-- The end of an ordered access (R164): it completes, or stands at an element: a fault is raised there, a wait or a pre-emption leaves VSTART at it. -/
def endOrdered (stop : OrderedEnd) : M Unit := do
  match stop with
  | .all =>
    modMe fun x => { x with vfm := 0, vstart := 0 }
    nextM
  | .next i => modMe fun x => { x with vfm := 0, vstart := BitVec.ofNat 11 i, stall := [] }
  | .stop (.trap c w r) i =>
    modMe fun x => { x with vfm := 0, vstart := BitVec.ofNat 11 i }
    trapM c w r
  | .stop (.waitOn ks) i => modMe fun x => { x.waitsOn ks with vfm := 0, vstart := BitVec.ofNat 11 i }
  | .stop .wait i => modMe fun x => { x with vfm := 0, vstart := BitVec.ofNat 11 i }

end Sys2Proof.Machine
end

