-- ==== Sys2Proof/Machine/VLoad.lean ====
section
/-! DEFINITION. Vector loads VLD, VLDS, VLDSEG, VLDFF and VLDX (R375 to R381), packed and expanding loads of SB data
(R118, R119, R124, R126, R128, R378). -/

namespace Sys2Proof.Machine

/-! ## Plain loads -/

/-- The destination tag, or 0x085 for a refused pair and for SB data where they are not allowed. -/
def loadTagM (i : Instr) : M Tag := do
  let x := (← getS).me
  if x.enc.isSb then trapM 0x085 (instrWord i)
  match loadTag x.enc x.sew with
  | some t => return t
  | none => trapM 0x085 (instrWord i)

/-- Checks 3 and 4 of R377 on every Active element from VSTART. -/
def checkAddresses (base : Nat) (n : Nat) (m : BitVec 1) (r : BitVec 3) (adr : Addresses) : M Unit := do
  let x := (← getS).me
  let els := x.actives m r
  alignedAll n (els.flatMap adr)
  insideAll base x.width (els.flatMap fun i => (adr i).map fun a => (i, a))

/-- A load of `fields` registers whose addresses are given. -/
def plainLoad (i : Instr) (d a : BitVec 5) (m : BitVec 1) (r : BitVec 3) (fields : Nat) (adr : Ctx → Addresses) : M Unit := do
  let dst ← loadTagM i
  let x := (← getS).me
  let n := memSize x.enc x.width
  checkAddresses (x.reg a).toNat n m r (adr x)
  loadBatch d m r dst n fields (adr x)

/-- Unit-stride addresses (R376). -/
def Ctx.unitStride (x : Ctx) (a : BitVec 5) (i : Nat) : List Nat := [va64 (x.reg a) (i * memSize x.enc x.width)]

/-- Strided addresses (R376). -/
def Ctx.strided (x : Ctx) (a b : BitVec 5) (i : Nat) : List Nat := [(x.reg a + word i * x.reg b).toNat]

/-- Segment addresses (R376). -/
def Ctx.segment (x : Ctx) (a : BitVec 5) (fields i : Nat) : List Nat :=
  (span 0 fields).map fun j => va64 (x.reg a) ((fields * i + j) * memSize x.enc x.width)

/-! ## SB loads -/

/-- A superblock read in a pass: its number, its elements in the pass, payload and side entry. -/
structure SuperRead where
  j : Nat
  elems : List Nat
  payload : Nat
  side : Nat
  deriving DecidableEq, Repr

/-- How an SB access is laid out: elements per superblock and per block, whether payload and side array are used. -/
structure SbShape where
  sb8 : Bool
  packed : Bool
  payload : Bool
  side : Bool
  deriving DecidableEq, Repr

def SbShape.superElems (g : SbShape) : Nat := if g.packed then 128 else superLen g.sb8
def SbShape.blockElems (g : SbShape) : Nat := if g.packed then 32 else blockLen g.sb8

/-- Bits of one element. -/
def SbShape.elemBits (g : SbShape) : Nat := if g.packed then 8 else codeBits g.sb8

/-- The byte of a superblock that holds an element (R118). -/
def SbShape.byteOf (g : SbShape) (i : Nat) : Nat := i % g.superElems * g.elemBits / 8

/-- The accesses of a superblock: the payload bytes from the first to the last element concerned, then the side entry. -/
def SbShape.accesses (g : SbShape) (payload side j : Nat) (es : List Nat) : List (Nat × Nat) :=
  let lo := g.byteOf (es.head?.getD 0)
  let hi := g.byteOf (es.getLast?.getD 0)
  (if g.payload then [((payload + 128 * j + lo) % 2 ^ 64, hi - lo + 1)] else []) ++
  (if g.side then [((side + 16 * j) % 2 ^ 64, 16)] else [])

/-- The payload number of a superblock from the bytes of its accesses. -/
def SbShape.split (g : SbShape) (es : List Nat) (bs : List Byte) : Nat × Nat :=
  let lo := g.byteOf (es.head?.getD 0)
  let n := if g.payload then g.byteOf (es.getLast?.getD 0) - lo + 1 else 0
  (ofBytes (bs.take n) * 2 ^ (8 * lo), ofBytes (bs.drop n))

/-- What a pass over superblocks found: those read, failures with the elements they mark, waits, and a header fault as superblock, block and reason. -/
structure SbPass where
  done : List SuperRead
  latest : List Nat
  fails : List Fail
  marked : List Nat
  keys : List Nat
  held : Bool
  bad : Option (SuperRead × Nat × Nat)

/-- The units of a superblock's accesses: each byte of the payload holds elements of its own, the side entry is one unit (R167). (DESIGN CHOICE, log 9.) -/
def SbShape.units (g : SbShape) (accs : List (Nat × Nat)) (ls : List Loc) : List (Nat × List Loc) :=
  match g.payload, accs with
  | true, (va, n) :: rest => parts ((span 0 n).map (va + ·)) 1 (ls.take n) ++ parts (rest.map (·.1)) 16 (ls.drop n)
  | _, _ => parts (accs.map (·.1)) 16 ls

/-- The pass of R378: superblocks in ascending order. -/
def sbPass (who : Who) (g : SbShape) (payload side w : Nat) (p : SbPass) : List (Nat × List Nat) → M SbPass
  | [] => pure p
  | (j, es) :: rest => do
    let accs := g.accesses payload side j es
    match ← elementPlaces who .read accs with
    | .ok ls =>
      let (at_, bytes) ← readParts who (g.units accs ls)
      let (pl, sd) := g.split es bytes
      let q : SuperRead := ⟨j, es, pl, sd⟩
      let p := { p with latest := p.latest ++ [at_] }
      let blocks := dedup (es.map fun i => i % g.superElems / g.blockElems)
      match if g.side then sideBad g.sb8 sd blocks else none with
      | some (b, reason) => return { p with bad := some (q, b, reason) }
      | none => sbPass who g payload side w { p with done := p.done ++ [q] } rest
    | .error (va, .trap c i r) =>
      if batchCause c then
        sbPass who g payload side w
          { p with fails := p.fails ++ [⟨es.head?.getD 0, va, c, i, r⟩], marked := p.marked ++ es,
                   keys := p.keys ++ waitedKeys c i r } rest
      else trapM c i (atElem w (es.head?.getD 0) r)
    | .error (_, .wait) => sbPass who g payload side w { p with held := true } rest
    | .error (_, .waitOn ks) => sbPass who g payload side w { p with held := true, keys := p.keys ++ ks } rest

/-- Elements grouped by superblock. -/
def SbShape.group (g : SbShape) (es : List Nat) : List (Nat × List Nat) :=
  (dedup (es.map (· / g.superElems))).map fun j => (j, es.filter fun i => i / g.superElems == j)

/-- Sidecars of the lanes of a superblock: the superscale and the headers of the given blocks (R53, R127). -/
def Ctx.setSidecars (x : Ctx) (d : BitVec 5) (j entry : Nat) (blocks : List Nat) : Ctx :=
  { x with
    sup := regSet x.sup d (splice (regGet x.sup d) (32 * j) 32 (sideSuper entry))
    hdr := regSet x.hdr d (blocks.foldl (fun h q => splice h (16 * (4 * j + q)) 16 (sideHeader entry q)) (regGet x.hdr d)) }

/-- The elements of a superblock written to the destination. -/
def Ctx.putSuper (x : Ctx) (g : SbShape) (d : BitVec 5) (dst : Tag) (q : SuperRead) (es : List Nat) (blocks : List Nat) : Ctx :=
  let code i := q.payload / 2 ^ (i % g.superElems * g.elemBits) % 2 ^ g.elemBits
  let start := x.vstart
  let y :=
    if g.packed then
      let y := x.wrote d 8 (if g.payload then es.map fun i => (i, code i, 0) else []) dst
      if g.side && !blocks.isEmpty then y.setSidecars d q.j q.side blocks else y
    else
      x.wrote d x.width (es.map fun i =>
        (i, expand g.sb8 (sideSuper q.side) (sideHeader q.side (i % g.superElems / g.blockElems)) (code i) dst.fmt x.rm x.fz)) dst
  { y with vstart := start }

/-- The end of an SB load: what was read is written, then the batch trap, the header fault or completion (R128, R163, R378). A header fault inside a superblock leaves, of a packed load, its superscale and the headers of the blocks below the faulting one, if one of those held elements that were read. (DESIGN CHOICE, log 62.) -/
def endSb (g : SbShape) (d : BitVec 5) (dst : Tag) (side : Nat) (m : BitVec 1) (r : BitVec 3) (p : SbPass) : M Unit := do
  let x := (← getS).me
  modMe fun y =>
    let z := y.wrote d (if g.packed then 8 else y.width) [] dst
    p.done.foldl (fun z q => z.putSuper g d dst q q.elems [0, 1, 2, 3]) { z with vstart := y.vstart }
  match p.bad, p.fails.isEmpty with
  | some (q, b, reason), true =>
    let first := q.j * g.superElems + b * g.blockElems
    let below := q.elems.filter (· < first)
    modMe fun y =>
      let z := if below.isEmpty then y else y.putSuper g d dst q below (span 0 b)
      { z with vstart := BitVec.ofNat 11 (max first x.vstart.toNat) }
    trapM 0x082 (headerInfo ((side + 16 * q.j) % 2 ^ 64) b reason)
  | some (q, _, _), false =>
    endBatch .read x.width (p.marked ++ x.activesFrom m r (q.j * g.superElems)) p.fails
  | none, _ => endBatch .read x.width p.marked p.fails

/-- The checks of R126 on a packed access. -/
def packedChecks (i : Instr) (b : BitVec 5) (m : BitVec 1) : M Unit := do
  let x := (← getS).me
  check (x.side == 2 || b != 0#5) 0x085 (instrWord i)
  check (m == 0#1) 0x085 (instrWord i)
  check (x.vl.toNat % 128 == 0) 0x085 (instrWord i)

/-- The bases of an SB access are aligned (R119): the payload base always, the side base where the side array is accessed (R61). (DESIGN CHOICE, log 62.) -/
def sbBases (payload side : Word) (usesSide : Bool) : M Unit := do
  aligned payload 128
  if usesSide then aligned side 16

/-- VLD of SB data (R124, R126 to R128, R376 to R378). -/
def sbLoad (i : Instr) (d a b : BitVec 5) (m : BitVec 1) (r : BitVec 3) : M Unit := do
  let x := (← getS).me
  let packed := x.width == 8
  check (x.width != 64) 0x085 (instrWord i)
  if packed then packedChecks i b m
  else
    check (b != 0#5) 0x085 (instrWord i)
    check (x.side == 0) 0x085 (instrWord i)
  let g : SbShape := ⟨x.enc == .sb8, packed, x.side != 1, x.side != 2⟩
  sbBases (x.reg a) (x.reg b) g.side
  let start := if packed then x.vstart.toNat / 32 * 32 else x.vstart.toNat
  let act := x.activesFrom m r start
  let payload := (x.reg a).toNat
  let side := (x.reg b).toNat
  if g.payload then
    insideAll payload x.width (act.map fun k => (k, (payload + 128 * (k / g.superElems) + g.byteOf k) % 2 ^ 64))
  stashOpen (act.flatMap fun k =>
    (if g.payload then [(payload + 128 * (k / g.superElems) + g.byteOf k) % 2 ^ 64] else []) ++
    (if g.side then [(side + 16 * (k / g.superElems)) % 2 ^ 64] else []))
  drainM
  let dst := if packed then x.enc else if x.width = 16 then Tag.bf16 else Tag.fp32
  let es := act.filter fun k => x.vfm == 0 || x.vfm.getLsbD k
  let s ← getS
  let p ← sbPass s.who g payload side x.width ⟨[], [], [], [], [], false, none⟩ (g.group es)
  if p.held then throw (.waitOn p.keys)
  readUpTo p.latest
  endSb g d dst side m r p

/-! ## The instructions -/

/-- VLD (R375 to R378). -/
def execVld (d a b : BitVec 5) (m : BitVec 1) (r : BitVec 3) (s : State) : Out :=
  let i := Instr.vld d a b m r
  complete (do
    needSb i
    if s.me.enc.isSb then sbLoad i d a b m r
    else plainLoad i d a m r 1 fun x => x.unitStride a) s

/-- VLDS (R375 to R378). -/
def execVlds (d a b : BitVec 5) (m : BitVec 1) (r : BitVec 3) (s : State) : Out :=
  let i := Instr.vlds d a b m r
  complete (do
    needSb i
    plainLoad i d a m r 1 fun x => x.strided a b) s

/-- VLDSEG (R375 to R378): MODE holds f − 1. -/
def execVldseg (d a : BitVec 5) (m : BitVec 1) (r f : BitVec 3) (s : State) : Out :=
  let i := Instr.vldseg d a m r f
  complete (do
    needSb i
    plainLoad i d a m r (f.toNat + 1) fun x => x.segment a (f.toNat + 1)) s

/-- Elements read in ascending order up to the first that faults with a cause of the batch set. -/
def firstFaults (who : Who) (width : Nat) (done : List (Nat × List Loc)) : List (Nat × List (Nat × Nat)) → M (List (Nat × List Loc) × Option Fail)
  | [] => pure (done, none)
  | (i, accs) :: rest => do
    match ← elementPlaces who .read accs with
    | .ok ls => firstFaults who width (done ++ [(i, ls)]) rest
    | .error (va, .trap c w r) => if batchCause c then return (done, some ⟨i, va, c, w, r⟩) else trapM c w (atElem width i r)
    | .error (_, e) => throw e

/-- VLDFF (R379). -/
def execVldff (d a b : BitVec 5) (m : BitVec 1) (r : BitVec 3) (s : State) : Out :=
  let i := Instr.vldff d a b m r
  complete (do
    needSb i
    let dst ← loadTagM i
    let x := s.me
    let n := memSize x.enc x.width
    checkAddresses (x.reg a).toNat n m r (x.unitStride a)
    stashOpen ((x.actives m r).flatMap (x.unitStride a))
    drainM
    let els := (x.actives m r).map fun k => (k, (x.unitStride a k).map fun v => (v, n))
    let (done, stop) ← firstFaults s.who x.width [] els
    match stop with
    | some f =>
      if done.isEmpty then
        modMe fun y => { y with vfm := 0, vstart := BitVec.ofNat 11 f.elem }
        trapM f.cause f.word (batchRecord .read x.width f [f])
    | none => pure ()
    let got ← collect (fun e => do
      let (j, bytes) ← readParts s.who (parts (x.unitStride a e.1) n e.2)
      return (e.1, j, loadElem x.enc dst x.rm x.fz (ofBytes bytes))) done
    readUpTo (got.map (·.2.1))
    modMe fun y =>
      let z := y.wrote d y.width (got.map fun e => (e.1, e.2.2)) dst
      match stop with
      | some f => { z with vl := BitVec.ofNat 11 f.elem }
      | none => z) s

/-- VLDX (R380, R381). -/
def execVldx (d a b : BitVec 5) (m : BitVec 1) (r : BitVec 3) (w : BitVec 2) (s : State) : Out :=
  let i := Instr.vldx d a b m r w
  complete (do
    needSb i
    let dst ← loadTagM i
    indexFits i w
    tagIs b (intTag w)
    indexRange a b (indexBits w) (s.me.passElems m r)
    let x := s.me
    let n := memSize x.enc x.width
    let adr : Addresses := fun k => [x.indexed a b (indexBits w) k]
    alignedAll n ((x.passElems m r).flatMap adr)
    loadBatch d m r dst n 1 adr) s

end Sys2Proof.Machine
end

