-- ==== Sys2Proof/Machine/VStore.lean ====
section
/-! DEFINITION. Vector stores VST, VSTS, VSTSEG, VSTX, VSTX.ord and the quantising store VSTQ (R125, R126, R129 to
R131, R393 to R396). -/

namespace Sys2Proof.Machine

/-! ## Plain stores -/

/-- The SB format under which a source would be stored packed (R125, R126). -/
def Ctx.packedTag (x : Ctx) (q : BitVec 5) : Option Tag :=
  let t := regGet x.tag q
  if x.enc.isSb then some x.enc else if x.enc == .unset && t.isSb then some t else none

/-- The registers of a segment. -/
def segRegs (d : BitVec 5) (fields : Nat) : List (BitVec 5) := (span 0 fields).map fun j => d + BitVec.ofNat 5 j

/-- SB data are refused outside VST (R126). -/
def noPacked (i : Instr) (qs : List (BitVec 5)) : M Unit := do
  let x := (← getS).me
  check (!(qs.any fun q => (x.packedTag q).isSome)) 0x085 (instrWord i)

/-- The source tags of R125. -/
def storeTags (qs : List (BitVec 5)) : M Unit := do
  let x := (← getS).me
  each (fun q => tagIn q (storeAccepts x.enc x.width) (storeLowest x.enc x.sew)) qs

/-- An SB-tagged source is refused under any ENC at an SEW other than 8, before its tag is checked (R126). -/
def noWideSb (i : Instr) (qs : List (BitVec 5)) : M Unit := do
  let x := (← getS).me
  check (x.width == 8 || !(qs.any fun q => (regGet x.tag q).isSb)) 0x085 (instrWord i)

/-- A store of `fields` registers whose addresses are given (R394). -/
def plainStore (i : Instr) (d a : BitVec 5) (m : BitVec 1) (r : BitVec 3) (fields : Nat) (adr : Ctx → Addresses) : M Unit := do
  noPacked i (segRegs d fields)
  noWideSb i (segRegs d fields)
  storeTags (segRegs d fields)
  let x := (← getS).me
  let n := memSize x.enc x.width
  checkAddresses (x.reg a).toNat n m r (adr x)
  storeBatch d m r n fields (adr x)

/-! ## Packed stores -/

/-- The side entry of superblock j of a register (R119, R127). -/
def Ctx.sideEntry (x : Ctx) (q : BitVec 5) (j : Nat) : List Byte :=
  bytesOf 4 (slice (regGet x.sup q) (32 * j) 32).toNat ++ bytesOf 8 (slice (regGet x.hdr q) (64 * j) 64).toNat ++
  List.replicate 4 0

/-- VST of SB data, packed (R125, R126, R394). -/
def sbStore (i : Instr) (d a b : BitVec 5) (m : BitVec 1) (r : BitVec 3) (fmt : Tag) : M Unit := do
  let x := (← getS).me
  check (x.width == 8) 0x085 (instrWord i)
  packedChecks i b m
  check (!(regGet x.tag d).isFloat) 0x085 (instrWord i)
  tagIs d fmt
  let g : SbShape := ⟨fmt == .sb8, true, x.side != 1, x.side != 2⟩
  sbBases (x.reg a) (x.reg b) g.side
  let act := x.activesFrom m r (x.vstart.toNat / 32 * 32)
  let payload := (x.reg a).toNat
  let side := (x.reg b).toNat
  if g.payload then insideAll payload 8 (act.map fun k => (k, (payload + k) % 2 ^ 64))
  stashOpen (act.flatMap fun k => (if g.payload then [(payload + k) % 2 ^ 64] else []) ++
    (if g.side then [(side + 16 * (k / 128)) % 2 ^ 64] else []))
  let s ← getS
  let es := act.filter fun k => x.vfm == 0 || x.vfm.getLsbD k
  let groups := g.group es
  let first j := (es.find? fun k => k / 128 == j).getD 0
  let p ← batchPass s.who .write (fun j r => atElem 8 (first j) r)
      (groups.map fun e => (e.1, g.accesses payload side e.1 e.2)) fun j ls => do
    let mine := es.filter fun k => k / 128 == j
    let lo := mine.head?.getD 0
    let hi := mine.getLast?.getD 0
    let body := if g.payload then (span lo (hi - lo + 1)).map fun k => BitVec.ofNat 8 (elem (regGet x.v d) 8 k) else []
    queueStore x false true (ls.zip (body ++ if g.side then x.sideEntry d j else []))
  let fails := p.fails.map fun f => { f with elem := first f.elem }
  endBatch .write x.width (es.filter fun k => p.fails.any fun f => f.elem == k / 128) fails

/-! ## The instructions -/

/-- VST (R393, R394). -/
def execVst (d a b : BitVec 5) (m : BitVec 1) (r : BitVec 3) (s : State) : Out :=
  let i := Instr.vst d a b m r
  complete (do
    needSb i
    match s.me.packedTag d with
    | some t => sbStore i d a b m r t
    | none => plainStore i d a m r 1 fun x => x.unitStride a) s

/-- VSTS (R393, R394). -/
def execVsts (d a b : BitVec 5) (m : BitVec 1) (r : BitVec 3) (s : State) : Out :=
  let i := Instr.vsts d a b m r
  complete (do
    needSb i
    plainStore i d a m r 1 fun x => x.strided a b) s

/-- VSTSEG (R393, R394): MODE holds f − 1. -/
def execVstseg (d a : BitVec 5) (m : BitVec 1) (r f : BitVec 3) (s : State) : Out :=
  let i := Instr.vstseg d a m r f
  complete (do
    needSb i
    plainStore i d a m r (f.toNat + 1) fun x => x.segment a (f.toNat + 1)) s

/-- The checks of VSTX and VSTX.ord (R396) for the elements to be performed: the answer is the element size and the addresses. -/
def scatterChecks (i : Instr) (d a b : BitVec 5) (w : BitVec 2) (els : List Nat) : M (Nat × Addresses) := do
  needSb i
  noPacked i [d]
  noWideSb i [d]
  storeTags [d]
  indexFits i w
  tagIs b (intTag w)
  indexRange a b (indexBits w) els
  let x := (← getS).me
  let n := memSize x.enc x.width
  let adr : Addresses := fun k => [x.indexed a b (indexBits w) k]
  alignedAll n (els.flatMap adr)
  return (n, adr)

/-- VSTX (R396). -/
def execVstx (d a b : BitVec 5) (m : BitVec 1) (r : BitVec 3) (w : BitVec 2) (s : State) : Out :=
  let i := Instr.vstx d a b m r w
  complete (do
    let (n, adr) ← scatterChecks i d a b w (s.me.passElems m r)
    storeBatch d m r n 1 adr) s

/-- VSTX.ord (R164, R396): elements join the queue in ascending order; a switch may stop it at an element. -/
def execVstxOrd (d a b : BitVec 5) (m : BitVec 1) (r : BitVec 3) (w : BitVec 2) (s : State) : Out :=
  let i := Instr.vstxOrd d a b m r w
  finishOpen (do
    let (n, adr) ← scatterChecks i d a b w (s.me.actives m r)
    stashOpen (((← getS).me.actives m r).flatMap adr)
    let t ← getS
    let x := t.me
    let conv k := storeElem x.enc (regGet x.tag d) x.rm x.fz (x.at d k)
    let els := (x.actives m r).map fun k => (k, (adr k).map fun v => (v, n))
    let (done, stop) ← orderedPass t.who .write x.width (fun k ls => do
      queueStore x true false (ls.zip (bytesOf n (conv k).1))
      return (conv k).2) x.quota [] els
    modMe fun y => y.raiseFlags (unionFlags (done.map (·.2)))
    endOrdered stop) s

/-! ## VSTQ -/

/-- A source element for the quantiser: none for padding (R129). -/
def Ctx.quantSource (x : Ctx) (d : BitVec 5) (f : Fmt) (m : BitVec 1) (r : BitVec 3) (i : Nat) : Quant :=
  if x.active m r i then some (unpack f (x.at d i)) else none

/-- One superblock of VSTQ (R130, R131), queued as a whole behind those below it: a trap leaves VSTART at its first element. -/
def storeSuper (at_ : Ctx) (who : Who) (d : BitVec 5) (payload side : Nat) (m : BitVec 1) (r : BitVec 3) (sels : List Nat) (j : Nat) :
    M Unit := do
  let x := (← getS).me
  let sb8 := x.enc == .sb8
  let n := superLen sb8
  let stop (e : Stop) : M Unit := do
    match e with
    | .trap c w r =>
      modMe fun y => { y with vstart := BitVec.ofNat 11 (j * n) }
      throw (.trap c w (atElem x.width (j * n) r))
    | e => throw e
  match quantSuper sb8 sels ((span (j * n) n).map (x.quantSource d (regGet x.tag d).fmt m r)) with
  | .error reason => stop (.trap 0x084 (word reason) noInfo)
  | .ok (codes, entry) =>
    let accs := (if x.side != 1 then [((payload + 128 * j) % 2 ^ 64, 128)] else []) ++
      (if x.side != 2 then [((side + 16 * j) % 2 ^ 64, 16)] else [])
    match ← elementPlaces who .write accs with
    | .error (_, e) => stop e
    | .ok ls =>
      queueStore at_ true false (ls.zip ((if x.side != 1 then bytesOf 128 codes else []) ++
        (if x.side != 2 then bytesOf 16 entry else [])))

/-- VSTQ (R129 to R131, R395). -/
def execVstq (d a b : BitVec 5) (m : BitVec 1) (r : BitVec 3) (s : State) : Out :=
  let i := Instr.vstq d a b m r
  complete (do
    feature 2 i
    let x := s.me
    check x.enc.isSb 0x085 (instrWord i)
    check (x.side == 2 || b != 0#5) 0x085 (instrWord i)
    let w := x.width
    tagIn d (fun t => (t == .fp32 && w == 32) || ((t == .bf16 || t == .fp16) && w == 16))
      (if w = 32 then 7 else if w = 16 then 5 else 0)
    let sels := (span 0 (if x.enc == .sb8 then 2 else 3)).filter (bit x.selMask)
    check (!sels.isEmpty) 0x083 (instrWord i)
    sbBases (x.reg a) (x.reg b) (x.side != 2)
    let n := superLen (x.enc == .sb8)
    let first := x.vstart.toNat / n
    let supers := span first ((x.vl.toNat + n - 1) / n - first)
    stashOpen (supers.flatMap fun j => (if x.side != 1 then [va64 (x.reg a) (128 * j)] else []) ++
      (if x.side != 2 then [va64 (x.reg b) (16 * j)] else []))
    each (storeSuper x s.who d (x.reg a).toNat (x.reg b).toNat m r sels) supers
    modMe fun y => { y with vstart := 0 }) s

end Sys2Proof.Machine
end

