-- ==== Sys2Proof/Machine/VAtomic.lean ====
section
/-! DEFINITION. Vector atomics VAMO (R239 to R243, R360, R361) and VWAIT (R244, R397, R398). -/

namespace Sys2Proof.Machine

/-! ## VAMO -/

/-- The tag that vd must hold (R360). -/
def vamoTag (op : AtomOp) (sew : BitVec 2) : Tag :=
  match op with
  | .fmax => if sew = 3#2 then .fp64 else .fp32
  | _ => intTag sew

/-- One element's new memory value and result: a refused bounded add sets bit w − 1 (R361). (DEDUCED, log 50.) -/
def vamoResult (op : AtomOp) (w old x y : Nat) : Nat × Nat :=
  match op with
  | .addb => if old + x ≤ y then (old + x, old) else (old, old ||| 2 ^ (w - 1))
  | _ => atomResult op w old x y

/-- What VAMO does before the elements that it is to perform: its checks, and older vector stores are performed (R168, R360). -/
def vamoChecks (i : Instr) (op : AtomOp) (d a b : BitVec 5) (els : List Nat) : M Unit := do
  let x := (← getS).me
  let w := x.width
  check (decide (32 ≤ w)) 0x085 (instrWord i)
  tagIs d (vamoTag op x.sew)
  if op == .addb then tagIs (d + 1) (vamoTag op x.sew)
  tagIs b (intTag x.sew)
  aligned (x.reg a) (w / 8)
  indexRange a b w els
  stashOpen (els.map (x.indexed a b w))
  drainM

/-- The elements of a VAMO without .ord that are still to be performed: of its pass those that no earlier step has (R163, R243). -/
def Ctx.vamoLeft (x : Ctx) (m : BitVec 1) (r : BitVec 3) : List Nat := (x.passElems m r).filter fun k => !x.adone.getLsbD k

/-- The old values of the elements performed, in vd. -/
def Ctx.putOld (x : Ctx) (d : BitVec 5) (done : List (Nat × Nat)) : Ctx :=
  { x with v := regSet x.v d (setElems (regGet x.v d) x.width done) }

/-- VAMO.acq covers later O accesses (R173); every VAMO covers later vector ones (R168). (DESIGN CHOICE, log 9.) -/
def vamoAfter (acq : BitVec 1) : M Unit :=
  modS fun s => s.closePins s.cur (if acq = 1#1 then [.scalar, .vector] else [.vector])

/-- VAMO without .ord (R163, R243, R361): elements in any order; a step may perform only some of them, the rest then follow before the instruction ends. -/
def vamoBatch (op : AtomOp) (d a b : BitVec 5) (m : BitVec 1) (r : BitVec 3) (acq : BitVec 1) : M Unit := do
  let s ← getS
  let x := s.me
  let w := x.width
  let act k ls := atomicAt ls (w / 8) fun old => vamoResult op w old (x.at d k) (x.at (d + 1) k)
  let left := x.vamoLeft m r
  let els := left.map fun k => (k, [(x.indexed a b w k, w / 8)])
  let p ← batchPass s.who .atomic (atElem w) (← unordered s.who els) act
  vamoAfter acq
  modMe fun y => y.putOld d p.done
  if x.quota.isSome && decide (p.done.length < left.length) then
    modMe fun y => { y with adone := y.adone ||| maskOf (p.done.map (·.1)) }
  else
    endBatch .atomic w (p.fails.map (·.elem)) (sortBy (fun f g => decide (f.elem ≤ g.elem)) p.fails)
    nextM

/-- VAMO.ord (R164, R361): elements in ascending order. -/
def vamoOrdered (op : AtomOp) (d a b : BitVec 5) (m : BitVec 1) (r : BitVec 3) (acq : BitVec 1) : M Unit := do
  let s ← getS
  let x := s.me
  let w := x.width
  let act k ls := atomicAt ls (w / 8) fun old => vamoResult op w old (x.at d k) (x.at (d + 1) k)
  let els := (x.actives m r).map fun k => (k, [(x.indexed a b w k, w / 8)])
  let (done, stop) ← orderedPass s.who .atomic w act x.quota [] els
  vamoAfter acq
  modMe fun y => y.putOld d done
  endOrdered stop

/-- The effect of VAMO (R360, R361); `o` is .ord, `q` is .acq. .rel adds nothing where an instruction is performed: its older accesses have been placed before it is. -/
def vamo (i : Instr) (op : AtomOp) (d a b : BitVec 5) (m : BitVec 1) (r : BitVec 3) (o q : BitVec 1) (s : State) : Out :=
  if o = 1#1 then finishOpen (do vamoChecks i op d a b (s.me.actives m r); vamoOrdered op d a b m r q) s
  else finish (do vamoChecks i op d a b (s.me.vamoLeft m r); vamoBatch op d a b m r q) s

/-- VAMO.add (R360, R361). -/
def execVamoAdd (d a b : BitVec 5) (m : BitVec 1) (r : BitVec 3) (o e q : BitVec 1) (s : State) : Out :=
  let i := Instr.vamoAdd d a b m r o e q
  vamo i .add d a b m r o q s

/-- VAMO.and (R360, R361). -/
def execVamoAnd (d a b : BitVec 5) (m : BitVec 1) (r : BitVec 3) (o e q : BitVec 1) (s : State) : Out :=
  let i := Instr.vamoAnd d a b m r o e q
  vamo i .and d a b m r o q s

/-- VAMO.or (R360, R361). -/
def execVamoOr (d a b : BitVec 5) (m : BitVec 1) (r : BitVec 3) (o e q : BitVec 1) (s : State) : Out :=
  let i := Instr.vamoOr d a b m r o e q
  vamo i .or d a b m r o q s

/-- VAMO.xor (R360, R361). -/
def execVamoXor (d a b : BitVec 5) (m : BitVec 1) (r : BitVec 3) (o e q : BitVec 1) (s : State) : Out :=
  let i := Instr.vamoXor d a b m r o e q
  vamo i .xor d a b m r o q s

/-- VAMO.smin (R360, R361). -/
def execVamoSmin (d a b : BitVec 5) (m : BitVec 1) (r : BitVec 3) (o e q : BitVec 1) (s : State) : Out :=
  let i := Instr.vamoSmin d a b m r o e q
  vamo i .smin d a b m r o q s

/-- VAMO.smax (R360, R361). -/
def execVamoSmax (d a b : BitVec 5) (m : BitVec 1) (r : BitVec 3) (o e q : BitVec 1) (s : State) : Out :=
  let i := Instr.vamoSmax d a b m r o e q
  vamo i .smax d a b m r o q s

/-- VAMO.umin (R360, R361). -/
def execVamoUmin (d a b : BitVec 5) (m : BitVec 1) (r : BitVec 3) (o e q : BitVec 1) (s : State) : Out :=
  let i := Instr.vamoUmin d a b m r o e q
  vamo i .umin d a b m r o q s

/-- VAMO.umax (R360, R361). -/
def execVamoUmax (d a b : BitVec 5) (m : BitVec 1) (r : BitVec 3) (o e q : BitVec 1) (s : State) : Out :=
  let i := Instr.vamoUmax d a b m r o e q
  vamo i .umax d a b m r o q s

/-- VAMO.swap (R360, R361). -/
def execVamoSwap (d a b : BitVec 5) (m : BitVec 1) (r : BitVec 3) (o e q : BitVec 1) (s : State) : Out :=
  let i := Instr.vamoSwap d a b m r o e q
  vamo i .swap d a b m r o q s

/-- VAMO.fmax (R360, R361). -/
def execVamoFmax (d a b : BitVec 5) (m : BitVec 1) (r : BitVec 3) (o e q : BitVec 1) (s : State) : Out :=
  let i := Instr.vamoFmax d a b m r o e q
  vamo i .fmax d a b m r o q s

/-- VAMO.addb (R241, R360, R361). -/
def execVamoAddb (d a b : BitVec 5) (m : BitVec 1) (r : BitVec 3) (o e q : BitVec 1) (s : State) : Out :=
  let i := Instr.vamoAddb d a b m r o e q
  vamo i .addb d a b m r o q s

/-! ## VWAIT -/

/-- The conditions of VWAIT (R100, R244), with memory on the left. -/
def waitCond (c : BitVec 3) (mem v : Nat) : Bool :=
  match c.toNat with
  | 0 => mem == v
  | 1 => mem != v
  | 2 => decide (v ≤ mem)
  | 3 => decide (mem < v)
  | 4 => decide (signed 64 v ≤ signed 64 mem)
  | _ => decide (signed 64 mem < signed 64 v)

/-- What one round of reads found: elements satisfied, failures, entries waited for. -/
structure WaitPass where
  met : List Nat
  latest : List Nat
  fails : List Fail
  keys : List Nat
  held : Bool

/-- One read of every element given; each is judged by its own read. -/
def waitPass (who : Who) (test : Nat → Nat → Bool) (p : WaitPass) : List (Nat × Nat) → M WaitPass
  | [] => pure p
  | (i, va) :: rest => do
    match ← elementPlaces who .read [(va, 8)] with
    | .ok ls =>
      let (j, bytes) ← readParts who [(va, ls)]
      let p := { p with latest := p.latest ++ [j] }
      waitPass who test (if test i (ofBytes bytes) then { p with met := p.met ++ [i] } else p) rest
    | .error (va, .trap c w r) =>
      if batchCause c then
        waitPass who test { p with fails := p.fails ++ [⟨i, va, c, w, r⟩], keys := p.keys ++ waitedKeys c w r } rest
      else trapM c w (atElem 64 i r)
    | .error (_, .wait) => waitPass who test { p with held := true } rest
    | .error (_, .waitOn ks) => waitPass who test { p with held := true, keys := p.keys ++ ks } rest

/-- The checks of VWAIT (R397), made before any element is read. -/
def vwaitChecks (i : Instr) (d b : BitVec 5) (m : BitVec 1) (r : BitVec 3) : M Unit := do
  let x := (← getS).me
  check (x.width == 64) 0x085 (instrWord i)
  tagIs d .i64
  tagIs b .i64
  let els := (x.actives m r).map fun k => (k, x.at b k)
  alignedAll 8 (els.map (·.2))
  match els.find? fun e => !usable e.2 with
  | some e => trapM 0x1C4 (word e.2) (atElem 64 e.1 (atAddr e.2 0))
  | none => pure ()
  stashOpen (els.map (·.2))
  drainM

/-- VWAIT, `t` ticks after issue (R244, R397, R398): it returns when every Active element is satisfied, an acquire over all paths (R173), or the limit has passed, and otherwise stays. A failure is a batch trap; while some element's access waits, nothing else is decided. -/
def vwaitRound (i : Instr) (d a b : BitVec 5) (m : BitVec 1) (r c : BitVec 3) (t : Nat) : M Unit := do
  vwaitChecks i d b m r
  let s ← getS
  let x := s.me
  let left := (x.actives m r).filter fun k => !x.vdone.getLsbD k
  let p ← waitPass s.who (fun k v => waitCond c v (x.at d k)) ⟨[], [], [], [], false⟩ (left.map fun k => (k, x.at b k))
  readUpTo p.latest
  modMe fun y => { y with vdone := y.vdone ||| maskOf p.met }
  if p.held then modMe fun y => y.waitsOn p.keys
  else
    if !p.fails.isEmpty then endBatch .read x.width (p.fails.map (·.elem)) p.fails
    let n := left.length - p.met.length
    let late := x.reg a ≠ 0xFFFFFFFFFFFFFFFF#64 && decide ((x.reg a).toNat ≤ t)
    if n = 0 then modS fun u => u.acquired u.cur
    if n = 0 || late then
      modMe fun y => { (y.setReg a (word n)).advance with vfm := 0, vstart := 0, waited := none, vdone := 0 }
    else modMe fun y => { y with stall := [], busy := false }

/-- VWAIT (R397, R398): `d` names vV, `a` names sL, `b` names vA. A switch may abandon it while it waits (R164). -/
def execVwait (d a b : BitVec 5) (m : BitVec 1) (r c : BitVec 3) (s : State) : Out :=
  let i := Instr.vwait d a b m r c
  let t := s.me.waited.getD 0
  finishOpen (vwaitRound i d a b m r c t) (s.setMe { s.me with waited := some t })

end Sys2Proof.Machine
end

