-- ==== Sys2Proof/Machine/Matrix.lean ====
section
/-! DEFINITION. The matrix unit (R116, R117, R132, R220 to R229, R325 to R330, R333). -/

namespace Sys2Proof.Machine

/-! ## Formats -/

/-- The tag of a format code (R101, R224). -/
def matTag (f : BitVec 3) : Tag :=
  match f.toNat with
  | 0 => .fp32
  | 1 => .bf16
  | 2 => .fp16
  | 3 => .sb4
  | _ => .sb8

/-- The granule Kg and the largest length Kmax (R221). -/
def matK (f : BitVec 3) : Nat × Nat :=
  match matTag f with
  | .sb4 => (64, 1024)
  | .sb8 => (32, 512)
  | .fp32 => (32, 128)
  | _ => (32, 256)

/-- Bits of one element in a line (R222). -/
def matBits (t : Tag) : Nat :=
  match t with
  | .sb4 => 4
  | .sb8 => 8
  | _ => t.bits

/-- The features of a matrix instruction with a format (R63). -/
def matFeatures (i : Instr) (f : BitVec 3) : M Unit := do
  feature 1 i
  if (matTag f).isSb then feature 2 i

/-- The matrix unit of the context's core, held by it: else 0x210. -/
def heldUnit (i : Instr) : M MatrixUnit := do
  let s ← getS
  let u := (s.core (coreOf s.cur)).mu
  check (u.holder == some s.cur) 0x210 (instrWord i)
  return u

/-- The matrix unit changed. -/
def modUnit (f : MatrixUnit → MatrixUnit) : M Unit :=
  modS fun s => s.setCore (coreOf s.cur) { s.core (coreOf s.cur) with mu := f (s.core (coreOf s.cur)).mu }

/-! ## MSHAPE and MZERO -/

/-- The grant of R221 under a ceiling of `c` lane groups. -/
def grantShape (c : Nat) (req : Word) (f : BitVec 3) : Shape :=
  let (kg, kmax) := matK f
  let k := field req.toNat 0 11
  { m := min (min (max (field req.toNat 24 8) 1) 64) (8 * c)
    n := min (max (field req.toNat 16 8) 1) 64
    k := min (max ((k + kg - 1) / kg * kg) kg) kmax
    fmt := f }

/-- A request keeps its reserved bits zero (R221). -/
def shapeRequestOk (req : Word) : Bool := field req.toNat 32 32 == 0 && field req.toNat 11 5 == 0

/-- MSHAPE (R220, R221, R329). -/
def execMshape (d a : BitVec 5) (f : BitVec 3) (s : State) : Out :=
  complete (do
    matFeatures (.mshape d a f) f
    let req := s.me.reg a
    check (shapeRequestOk req) 0x211 req
    let u := (s.core (coreOf s.cur)).mu
    if u.holder.isSome && u.holder != some s.cur then throw .wait
    let sh := grantShape s.myPkg.ceil req f
    modUnit fun u => { (if u.holder.isNone then MatrixUnit.free else u) with holder := some s.cur, shape := sh }
    modMe fun x => x.setReg d (word (sh.k + sh.n * 2 ^ 16 + sh.m * 2 ^ 24))) s

/-- A tile written. -/
def MatrixUnit.setTile (u : MatrixUnit) (t : BitVec 3) (x : Tile) : MatrixUnit := { u with tiles := set8 u.tiles t x }

/-- MZERO (R225, R333). -/
def execMzero (t : BitVec 3) (s : State) : Out :=
  complete (do
    feature 1 (.mzero t)
    let _ ← heldUnit (.mzero t)
    modUnit fun u => u.setTile t ⟨.fp32, 0⟩) s

/-! ## Operands in memory (R222) -/

/-- The alignment of base, stride and side base. (DEDUCED, log 13.) -/
def operandAligned (t : Tag) (base stride side : Word) : M Unit := do
  let n := if t.isSb then 128 else t.bits / 8
  aligned base n
  aligned stride n
  if t.isSb then aligned side 16

/-- One line as read: its payload and its side entries, superblock by superblock. -/
structure Line where
  payload : Nat
  sides : List Nat
  deriving DecidableEq, Repr

/-- The superblocks of a line of K elements: how many elements each holds. -/
def lineSupers (t : Tag) (k : Nat) : List Nat :=
  let n := superLen (t == .sb8)
  (span 0 ((k + n - 1) / n)).map fun q => min n (k - n * q)

/-- What a read on path M gave: its bytes, or zero with the fault that ends the instruction once every read is made. -/
structure Fetched where
  value : Nat
  faults : List Stop

/-- A fault that R325 and R327 put after the translation and stash faults of every read. -/
def laterFault : Stop → Bool
  | .trap c _ _ => c == 0x381#10 || c == 0x382#10
  | _ => false

/-- The parts of an access of at most 4096 bytes that lie in one page each. -/
def pagePieces (va n : Nat) : List (Nat × Nat) :=
  let k := 4096 - va % 4096
  if n ≤ k then [(va, n)] else [(va, k), ((va + k) % 2 ^ 64, n - k)]

/-- A part of an access on path M, whose units are its aligned 8 bytes (R228). (DESIGN CHOICE, log 9.) -/
def readPiece (who : Who) (va n : Nat) : M Fetched := do
  match ← elementPlaces who .read [(va, n)] with
  | .error (_, e) => if laterFault e then return ⟨0, [e]⟩ else throw e
  | .ok ls =>
    let s ← getS
    return ⟨ofBytes (← transferBytes who (·.isOpen .tile) va ls (ls.map s.locByte)), []⟩

/-- One access on path M, page by page, so that a poisoned or unpopulated page does not hide a translation fault of the next (R325, R327). -/
def readM (who : Who) (va n : Nat) : M Fetched := do
  let ps := pagePieces va n
  let rs ← collect (fun p => readPiece who p.1 p.2) ps
  return ⟨(rs.zip ps).foldr (fun r acc => r.1.value + acc * 2 ^ (8 * r.2.2)) 0, rs.flatMap (·.faults)⟩

/-- One superblock of a line: the payload below K, then the side entry, which is checked if it could be read (R128, R222). -/
def readSuper (who : Who) (t : Tag) (base side : Nat) (q count : Nat) : M (Nat × Nat × List Stop) := do
  let sb8 := t == .sb8
  let p ← readM who ((base + 128 * q) % 2 ^ 64) (count * codeBits sb8 / 8)
  let va := (side + 16 * q) % 2 ^ 64
  let e ← readM who va 16
  let bad := if e.faults.isEmpty then sideBad sb8 e.value (span 0 ((count + blockLen sb8 - 1) / blockLen sb8)) else none
  let header := match bad with
    | some (b, reason) => [Stop.trap 0x082 (headerInfo va b reason) noInfo]
    | none => []
  return (p.value, e.value, header ++ p.faults ++ e.faults)

/-- One line of an operand. -/
def readLine (who : Who) (t : Tag) (k base side : Nat) : M (Line × List Stop) := do
  if t.isSb then
    let counts := lineSupers t k
    let rs ← collect (fun qc => readSuper who t base side qc.1 qc.2) ((span 0 counts.length).zip counts)
    return (⟨(rs.zip (span 0 rs.length)).foldl (fun acc r => acc + r.1.1 * 2 ^ (1024 * r.2)) 0, rs.map (·.2.1)⟩,
      rs.flatMap (·.2.2))
  else
    let p ← readM who base (k * t.bits / 8)
    return (⟨p.value, []⟩, p.faults)

/-- The lines of an operand (R222). Translation and stash faults of any read come first, then the first header fault, then the first poisoned line or unpopulated address (R325, R327). -/
def readLines (who : Who) (t : Tag) (k lines : Nat) (base stride side : Word) : M (List Line) := do
  let sideStride := BitVec.ofInt 64 (stride.toInt / 8)
  let at_ j := (base + word j * stride).toNat
  let sideAt j := (side + word j * sideStride).toNat
  stashOpen ((span 0 lines).flatMap fun j => at_ j :: (if t.isSb then [sideAt j] else []))
  let rs ← collect (fun j => readLine who t k (at_ j) (sideAt j)) (span 0 lines)
  let faults := rs.flatMap (·.2)
  match faults.find? (fun e => !laterFault e) with
  | some e => throw e
  | none =>
    match faults with
    | e :: _ => throw e
    | [] => return rs.map (·.1)

/-! ## MLDB -/

/-- A buffer filled with lines (R224, R326). -/
def fillBuffer (t : Tag) (k : Nat) (ls : List Line) : Buffer :=
  { tag := t
    data := (ls.zip (span 0 ls.length)).foldl (fun v l => splice v (4096 * l.2) 4096 l.1.payload) 0
    side := (ls.zip (span 0 ls.length)).foldl (fun v l =>
      splice v (512 * l.2) 512 ((l.1.sides.zip (span 0 4)).foldl (fun acc e => acc + e.1 * 2 ^ (128 * e.2)) 0)) 0
    k := k
    n := ls.length }

/-- A buffer of the unit. -/
def MatrixUnit.buf (u : MatrixUnit) (b : BitVec 1) : Buffer := if b = 0#1 then u.bufs[0] else u.bufs[1]

/-- A buffer changed. -/
def MatrixUnit.setBuf (u : MatrixUnit) (b : BitVec 1) (x : Buffer) : MatrixUnit :=
  { u with bufs := if b = 0#1 then u.bufs.set 0 x else u.bufs.set 1 x }

/-- MLDB (R224, R325, R326). -/
def execMldb (d a b : BitVec 5) (u : BitVec 1) (f : BitVec 3) (s : State) : Out :=
  let i := Instr.mldb d a b u f
  complete (do
    matFeatures i f
    let mu ← heldUnit i
    let t := matTag f
    check (mu.shape.fmt == f) 0x212 (instrWord i)
    check (!t.isSb || b != 0#5) 0x212 (instrWord i)
    operandAligned t (s.me.reg a) (s.me.reg d) (s.me.reg b)
    let ls ← readLines { s.who with path := .m } t mu.shape.k mu.shape.n (s.me.reg a) (s.me.reg d) (s.me.reg b)
    modUnit fun v => v.setBuf u (fillBuffer t mu.shape.k ls)) s

/-! ## Products without SB operands (R116, R117) -/

/-- The special sum of R117 over pairs of factors. -/
def specialSum (ps : List (Fp × Fp)) : Fp × BitVec 5 :=
  let isNan : Fp → Bool := fun
    | .nan _ => true
    | _ => false
  let isSnan : Fp → Bool := fun x => x == .nan true
  let isInf : Fp → Bool := fun
    | .inf _ => true
    | _ => false
  let isZero : Fp → Bool := fun
    | .fin _ 0 _ => true
    | _ => false
  let neg : Fp → Bool := fun
    | .nan _ => false
    | .inf n => n
    | .fin n _ _ => n
  let nan := ps.any fun p => isNan p.1 || isNan p.2
  let snan := ps.any fun p => isSnan p.1 || isSnan p.2
  let invalid := ps.any fun p => (isInf p.1 && isZero p.2) || (isZero p.1 && isInf p.2)
  let infs := (ps.filter fun p => isInf p.1 || isInf p.2).map fun p => neg p.1 != neg p.2
  if nan || invalid then (.nan false, if snan || invalid then flagNV else 0)
  else if infs.contains true && infs.contains false then (.nan false, flagNV)
  else (.inf (infs.contains true), 0)

/-- An exact product of finite values as a signed mantissa and an exponent. -/
def exactProduct (p : Fp × Fp) : Int × Int :=
  match p with
  | (.fin a m e, .fin b n g) => (sgn (a != b) (m * n), e + g)
  | _ => (0, 0)

/-- Whether a factor is a NaN or an infinity. -/
def isSpecial : Fp → Bool
  | .fin _ _ _ => false
  | _ => true

/-- A signed mantissa truncated toward zero to a multiple of 2^q, in units of 2^q. -/
def truncTo (q : Int) (p : Int × Int) : Int :=
  if q ≤ p.2 then p.1 * 2 ^ (p.2 - q).toNat else p.1.tdiv (2 ^ (q - p.2).toNat)

/-- floor(log2 |m × 2^e|) of a non-zero product. -/
def expOf (p : Int × Int) : Int := Nat.log2 p.1.natAbs + p.2

/-- One group of 32 products added to an accumulator (R116). -/
def groupStep (acc : Nat) (ps : List (Fp × Fp)) : FpResult :=
  if ps.any fun p => isSpecial p.1 || isSpecial p.2 then
    let (g, f) := specialSum ps
    let r := addVal fp32 .rne false (unpack fp32 acc) g
    (r.1, r.2 ||| f)
  else
    let xs := (ps.map exactProduct).filter fun p => p.1 != 0
    match xs with
    | [] => addVal fp32 .rne false (unpack fp32 acc) (.fin false 0 0)
    | x :: rest =>
      let q := (rest.foldl (fun e p => max e (expOf p)) (expOf x)) - 46
      let g := (xs.map (truncTo q)).sum
      addVal fp32 .rne false (unpack fp32 acc) (.fin (decide (g < 0)) g.natAbs q)

/-! ## Products with SB operands (R132) -/

/-- A segment of one operand: block scale, exponent of the denominator, values of the numerators. -/
structure Seg where
  scale : Nat
  d : Nat
  vals : List Fp
  deriving DecidableEq, Repr

/-- A line cut into segments of `len` elements (R132). -/
def lineSegs (t : Tag) (len k : Nat) (l : Line) : List Seg :=
  (span 0 (k / len)).map fun j =>
    let start := len * j
    if t.isSb then
      let sb8 := t == .sb8
      let e := (l.sides[start / superLen sb8]?).getD 0
      let h := sideHeader e (start % superLen sb8 / blockLen sb8)
      let w := codeBits sb8
      ⟨blockScale (sideSuper e) (headerCode h), denom sb8 (headerSel h), (span start len).map fun i =>
        let (neg, n) := decodeSb sb8 (headerSel h) (l.payload / 2 ^ (w * i) % 2 ^ w)
        .fin neg n 0⟩
    else
      ⟨0x3F800000, 0, (span start len).map fun i => unpack t.fmt (l.payload / 2 ^ (t.bits * i) % 2 ^ t.bits)⟩

/-- The exact sum of signed mantissas with exponents. -/
def exactSum (xs : List (Int × Int)) : Int × Int :=
  match xs.filter fun p => p.1 != 0 with
  | [] => (0, 0)
  | x :: rest =>
    let e := rest.foldl (fun e p => min e p.2) x.2
    (((x :: rest).map fun p => p.1 * 2 ^ (p.2 - e).toNat).sum, e)

/-- The product of two block scales (R132): an infinity by a zero counts as +0. -/
def scaleProduct (a b : Nat) : FpResult :=
  let r := mulVal fp32 .rne false (unpack fp32 a) (unpack fp32 b)
  if isNan fp32 r.1 then (0, 0) else r

/-- One segment added to an accumulator (R132). R132 gives no sign of u where t or dot is zero: a non-zero dot under a zero t gives the zero of the sign of dot × t, a zero dot gives +0. (DESIGN CHOICE, log 36.) -/
def segStep (acc : Nat) (a b : Seg) : FpResult :=
  let t := scaleProduct a.scale b.scale
  let ps := a.vals.zip b.vals
  if ps.any fun p => isSpecial p.1 || isSpecial p.2 then
    let (g, f) := specialSum ps
    let r := addVal fp32 .rne false (unpack fp32 acc) g
    (r.1, r.2 ||| f ||| t.2)
  else
    let (m, e) := exactSum (ps.map exactProduct)
    let u : FpResult :=
      if m = 0 then (0, 0)
      else
        match unpack fp32 t.1 with
        | .inf n => (fp32.sign (n != decide (m < 0)) + fp32.inf, 0)
        | .fin n tm te => round fp32 .rne false (n != decide (m < 0)) (m.natAbs * tm) (e + te - a.d - b.d) false
        | .nan _ => (0, 0)
    let r := addVal fp32 .rne false (unpack fp32 acc) (unpack fp32 u.1)
    (r.1, r.2 ||| u.2 ||| t.2)

/-! ## MMA -/

/-- Steps folded into an accumulator, with the flags of all. -/
def foldSteps {α : Type} (step : Nat → α → FpResult) (acc : Nat) (xs : List α) : FpResult :=
  xs.foldl (fun r x => let y := step r.1 x; (y.1, r.2 ||| y.2)) (acc, 0)

/-- One accumulator element (R116, R132): segments of the row and of the column. -/
def accumulate (sb : Bool) (acc : Nat) (row col : List Seg) : FpResult :=
  if sb then foldSteps (fun r p => segStep r p.1 p.2) acc (row.zip col)
  else foldSteps (fun r p => groupStep r (p.1.vals.zip p.2.vals)) acc (row.zip col)

/-- A line of a buffer. -/
def bufferLine (b : Buffer) (n : Nat) : Line :=
  ⟨(slice b.data (4096 * n) 4096).toNat, (span 0 4).map fun q => (slice b.side (512 * n + 128 * q) 128).toNat⟩

/-- The product of R223: new tile contents and flags. -/
def product (sa sb : Tag) (k : Nat) (rows cols : List Line) (tile : BitVec 131072) : BitVec 131072 × BitVec 5 :=
  let len := if sa == .sb4 && sb == .sb4 then 64 else 32
  let mixed := sa.isSb || sb.isSb
  let as' := (rows.map (lineSegs sa len k)).zip (span 0 rows.length)
  let bs := (cols.map (lineSegs sb len k)).zip (span 0 cols.length)
  as'.foldl (fun acc r => bs.foldl (fun acc c =>
    let pos := 32 * (64 * r.2 + c.2)
    let z := accumulate mixed (slice tile pos 32).toNat r.1 c.1
    (splice acc.1 pos 32 z.1, acc.2 ||| z.2)) acc) (tile, 0)

/-- The buffer tags that a streamed format accepts (R223), and the lowest code. -/
def bufferAccepts (t u : Tag) : Bool :=
  match t with
  | .fp32 => u == .fp32
  | .fp16 => u == .fp16
  | _ => u == .bf16 || u.isSb

def bufferLowest (t : Tag) : Nat :=
  match t with
  | .fp32 => 7
  | .fp16 => 6
  | _ => 5

/-- A tile holds FP32, else 0x081 of class 1. -/
def tileFp32 (u : MatrixUnit) (t : BitVec 3) : M Unit :=
  check ((get8 u.tiles t).tag == .fp32) 0x081 (tagInfo t.toNat 1 7 (get8 u.tiles t).tag)

/-- MMA (R223, R327). -/
def execMma (d a b : BitVec 5) (t : BitVec 3) (u : BitVec 1) (f : BitVec 3) (s : State) : Out :=
  let i := Instr.mma d a b t u f
  complete (do
    matFeatures i f
    let mu ← heldUnit i
    let tag := matTag f
    operandAligned tag (s.me.reg a) (s.me.reg d) (s.me.reg b)
    check (!tag.isSb || b != 0#5) 0x212 (instrWord i)
    let buf := mu.buf u
    check (bufferAccepts tag buf.tag) 0x081 (tagInfo u.toNat 2 (bufferLowest tag) buf.tag)
    tileFp32 mu t
    check (mu.shape.k == buf.k && mu.shape.n == buf.n) 0x212 (instrWord i)
    let rows ← readLines { s.who with path := .m } tag mu.shape.k mu.shape.m (s.me.reg a) (s.me.reg d) (s.me.reg b)
    let cols := (span 0 mu.shape.n).map (bufferLine buf)
    let (data, flags) := product tag buf.tag mu.shape.k rows cols (get8 mu.tiles t).data
    modUnit fun v => v.setTile t ⟨.fp32, data⟩
    modMe fun x => x.raiseFlags flags) s

/-! ## Moving results (R225) -/

/-- An element of a tile. -/
def Tile.at (x : Tile) (m n : Nat) : Nat := (slice x.data (32 * (64 * m + n)) 32).toNat

/-- The elements that a faulting MST leaves queued: any subset of those with its stamp (R225, R330). (DESIGN CHOICE, log 37.) -/
def Ctx.someOf (x : Ctx) (stamp mask : Nat) : Ctx :=
  let mine := x.vstores.filter fun q => q.stamp == stamp
  { x with vstores := (x.vstores.filter fun q => q.stamp != stamp) ++
      (mine.zip (span 0 mine.length)).filterMap fun e => if bit mask e.2 then some e.1 else none }

/-- MST (R225, R330): unordered elements of one vector instruction, each in flight once it is located (R141); at a fault any subset of them is written. (DESIGN CHOICE, log 37.) -/
def execMst (d a : BitVec 5) (t : BitVec 3) (s : State) : Out :=
  let i := Instr.mst d a t
  complete (do
    feature 1 i
    let mu ← heldUnit i
    tileFp32 mu t
    aligned (s.me.reg a) 4
    aligned (s.me.reg d) 4
    let n := mu.shape.n
    let adr e := (s.me.reg a + word (e / n) * s.me.reg d + word (4 * (e % n))).toNat
    stashOpen ((span 0 (mu.shape.m * n)).map adr)
    let p ← batchPass s.who .write (fun _ r => r) ((span 0 (mu.shape.m * n)).map fun e => (e, [(adr e, 4)])) fun e ls =>
      queueStore s.me false false (ls.zip (bytesOf 4 ((get8 mu.tiles t).at (e / n) (e % n))))
    match leastBy (fun (f : Fail) => f.elem) p.fails with
    | none => pure ()
    | some f =>
      modS fun u => { u.setMe (u.me.someOf s.me.newStamp (Config.freeNat u.free)) with free := u.free + 1 }
      trapM f.cause f.info f.record) s

/-- The checks of MMOV (R225, R328) before those of tags. -/
def mmovRow (i : Instr) (row : Word) : M (MatrixUnit × Nat) := do
  feature 1 i
  let mu ← heldUnit i
  check (decide (row.toNat ≤ 63) && (← getS).me.width == 32) 0x212 (instrWord i)
  return (mu, row.toNat)

/-- The elements that MMOV moves: VSTART to min(VL, 64) − 1. -/
def Ctx.moved (x : Ctx) : List Nat := span x.vstart.toNat (min x.vl.toNat 64 - x.vstart.toNat)

/-- MMOV.to (R225, R328). -/
def execMmovTo (d a : BitVec 5) (t : BitVec 3) (s : State) : Out :=
  let i := Instr.mmovTo d a t
  complete (do
    let (mu, row) ← mmovRow i (s.me.reg a)
    tileFp32 mu t
    modMe fun x => x.wrote d 32 (x.moved.map fun e => (e, (get8 mu.tiles t).at row e, 0)) .fp32) s

/-- MMOV.from (R225, R328). -/
def execMmovFrom (d a : BitVec 5) (t : BitVec 3) (s : State) : Out :=
  let i := Instr.mmovFrom d a t
  complete (do
    let (mu, row) ← mmovRow i (s.me.reg a)
    tagIs d .fp32
    let x := (← getS).me
    let old := get8 mu.tiles t
    let base := if old.tag == .unset then 0 else old.data
    let data := x.moved.foldl (fun v e => splice v (32 * (64 * row + e)) 32 (x.at d e)) base
    modUnit fun u => u.setTile t ⟨.fp32, data⟩
    modMe fun y => { y with vstart := 0 }) s

end Sys2Proof.Machine
end

