-- ==== Sys2Proof/Machine/Rpt.lean ====
section
/-! DEFINITION. RPT (R65, R66, R90, R336, R337). A machine step executes one captured word. -/

namespace Sys2Proof.Machine

/-- What a captured word does (majors 0x20 to 0x23), without moving the program counter. Any other instruction is refused when it is captured. -/
def capturedMeaning (i : Instr) : M Unit :=
  match i with
  | .vadd d a b m r => vecInt .add d a (.vec b) m r
  | .vsub d a b m r => vecInt .sub d a (.vec b) m r
  | .vmul d a b m r => vecInt .mul d a (.vec b) m r
  | .vmulh d a b m r => vecInt .mulh d a (.vec b) m r
  | .vmulhU d a b m r => vecInt .mulhU d a (.vec b) m r
  | .vmin d a b m r => vecInt .min d a (.vec b) m r
  | .vminU d a b m r => vecInt .minU d a (.vec b) m r
  | .vmax d a b m r => vecInt .max d a (.vec b) m r
  | .vmaxU d a b m r => vecInt .maxU d a (.vec b) m r
  | .vand d a b m r => vecInt .and d a (.vec b) m r
  | .vor d a b m r => vecInt .or d a (.vec b) m r
  | .vxor d a b m r => vecInt .xor d a (.vec b) m r
  | .vsll d a b m r => vecInt .sll d a (.vec b) m r
  | .vsrl d a b m r => vecInt .srl d a (.vec b) m r
  | .vsra d a b m r => vecInt .sra d a (.vec b) m r
  | .vcmpEq d a b m r => vecCmp .eq d a (.vec b) m r
  | .vcmpNe d a b m r => vecCmp .ne d a (.vec b) m r
  | .vcmpLt d a b m r => vecCmp .lt d a (.vec b) m r
  | .vcmpLtu d a b m r => vecCmp .ltu d a (.vec b) m r
  | .vcmpLe d a b m r => vecCmp .le d a (.vec b) m r
  | .vcmpLeu d a b m r => vecCmp .leu d a (.vec b) m r
  | .vsel d a b r => vecSel d a (.vec b) r
  | .vaddVs d a b m r => vecInt .add d a (.scl b) m r
  | .vsubVs d a b m r => vecInt .sub d a (.scl b) m r
  | .vmulVs d a b m r => vecInt .mul d a (.scl b) m r
  | .vmulhVs d a b m r => vecInt .mulh d a (.scl b) m r
  | .vmulhUVs d a b m r => vecInt .mulhU d a (.scl b) m r
  | .vminVs d a b m r => vecInt .min d a (.scl b) m r
  | .vminUVs d a b m r => vecInt .minU d a (.scl b) m r
  | .vmaxVs d a b m r => vecInt .max d a (.scl b) m r
  | .vmaxUVs d a b m r => vecInt .maxU d a (.scl b) m r
  | .vandVs d a b m r => vecInt .and d a (.scl b) m r
  | .vorVs d a b m r => vecInt .or d a (.scl b) m r
  | .vxorVs d a b m r => vecInt .xor d a (.scl b) m r
  | .vsllVs d a b m r => vecInt .sll d a (.scl b) m r
  | .vsrlVs d a b m r => vecInt .srl d a (.scl b) m r
  | .vsraVs d a b m r => vecInt .sra d a (.scl b) m r
  | .vcmpEqVs d a b m r => vecCmp .eq d a (.scl b) m r
  | .vcmpNeVs d a b m r => vecCmp .ne d a (.scl b) m r
  | .vcmpLtVs d a b m r => vecCmp .lt d a (.scl b) m r
  | .vcmpLtuVs d a b m r => vecCmp .ltu d a (.scl b) m r
  | .vcmpLeVs d a b m r => vecCmp .le d a (.scl b) m r
  | .vcmpLeuVs d a b m r => vecCmp .leu d a (.scl b) m r
  | .vselVs d a b r => vecSel d a (.scl b) r
  | .vfadd d a b m r => vecFloat (.vfadd d a b m r) .add d a (.vec b) m r
  | .vfsub d a b m r => vecFloat (.vfsub d a b m r) .sub d a (.vec b) m r
  | .vfmul d a b m r => vecFloat (.vfmul d a b m r) .mul d a (.vec b) m r
  | .vfma d a b m r => vecFloat (.vfma d a b m r) .fma d a (.vec b) m r
  | .vfdiv d a b m r => vecFloat (.vfdiv d a b m r) .div d a (.vec b) m r
  | .vfmin d a b m r => vecFloat (.vfmin d a b m r) .min d a (.vec b) m r
  | .vfmax d a b m r => vecFloat (.vfmax d a b m r) .max d a (.vec b) m r
  | .vfcmpEq d a b m r => vecFcmp (.vfcmpEq d a b m r) .eq d a (.vec b) m r
  | .vfcmpLt d a b m r => vecFcmp (.vfcmpLt d a b m r) .lt d a (.vec b) m r
  | .vfcmpLe d a b m r => vecFcmp (.vfcmpLe d a b m r) .le d a (.vec b) m r
  | .vfcmpUn d a b m r => vecFcmp (.vfcmpUn d a b m r) .un d a (.vec b) m r
  | .vfaddVs d a b m r => vecFloat (.vfaddVs d a b m r) .add d a (.scl b) m r
  | .vfsubVs d a b m r => vecFloat (.vfsubVs d a b m r) .sub d a (.scl b) m r
  | .vfmulVs d a b m r => vecFloat (.vfmulVs d a b m r) .mul d a (.scl b) m r
  | .vfmaVs d a b m r => vecFloat (.vfmaVs d a b m r) .fma d a (.scl b) m r
  | .vfdivVs d a b m r => vecFloat (.vfdivVs d a b m r) .div d a (.scl b) m r
  | .vfminVs d a b m r => vecFloat (.vfminVs d a b m r) .min d a (.scl b) m r
  | .vfmaxVs d a b m r => vecFloat (.vfmaxVs d a b m r) .max d a (.scl b) m r
  | .vfcmpEqVs d a b m r => vecFcmp (.vfcmpEqVs d a b m r) .eq d a (.scl b) m r
  | .vfcmpLtVs d a b m r => vecFcmp (.vfcmpLtVs d a b m r) .lt d a (.scl b) m r
  | .vfcmpLeVs d a b m r => vecFcmp (.vfcmpLeVs d a b m r) .le d a (.scl b) m r
  | .vfcmpUnVs d a b m r => vecFcmp (.vfcmpUnVs d a b m r) .un d a (.scl b) m r
  | .vfsqrt d a m r => vecFloat1 (.vfsqrt d a m r) .sqrt d a m r
  | .vfexp2 d a m r => vecFloat1 (.vfexp2 d a m r) .exp2 d a m r
  | .vfrsqrt d a m r => vecFloat1 (.vfrsqrt d a m r) .rsqrt d a m r
  | _ => trapM 0x001 (instrWord i)

/-- Whether vb names a vector register (R65): majors 0x20 and 0x22, but for the forms that leave the field unused. (DEDUCED, log 48.) -/
def namesVb (w : BitVec 32) : Bool :=
  let major := (slice w 26 6).toNat
  (major == 0x20 || major == 0x22) &&
  match decode w with
  | .ok (.vfsqrt ..) => false
  | .ok (.vfexp2 ..) => false
  | .ok (.vfrsqrt ..) => false
  | _ => true

/-- A word with its staggered fields of iteration j (R65). (DEDUCED, log 48.) -/
def stagger (x y z : BitVec 1) (step j : Nat) (w : BitVec 32) : BitVec 32 :=
  let add (on : Bool) (lo : Nat) (w : BitVec 32) : BitVec 32 :=
    if on then splice w lo 5 (((slice w lo 5).toNat + j * step) % 32) else w
  add (z == 1#1 && namesVb w) 11 (add (y == 1#1) 16 (add (x == 1#1) 21 w))

/-- RPTPOS at an iteration and a captured word (R65). -/
def rptAt (j i : Nat) : Word := word (2 ^ 63 + j * 16 + i)

/-- The captured words are fetched at issue; each must be a legal instruction of majors 0x20 to 0x23, and the first that is not is named. (DEDUCED, log 48; DESIGN CHOICE, log 68.) -/
def capture (s : State) (k : Nat) : M (List (BitVec 32)) := do
  let ws ← collect (fun i => fetchWord s.who (nextPc s.me.pc (i + 1)).toNat) (span 0 k)
  each (fun w => do
    let major := (slice w 26 6).toNat
    let legal := match decode w with
      | .ok _ => true
      | .error _ => false
    check (legal && decide (0x20 ≤ major) && decide (major ≤ 0x23)) 0x001 (w.setWidth 64)) ws
  return ws

/-- The checks at issue and the capture; a frame under way has made them. (DEDUCED, log 48.) -/
def rptIssue (i : Instr) (n k : Nat) : M Unit := do
  let s ← getS
  if s.me.rpt.isEmpty then
    feature 10 i
    let ws ← capture s k
    let p := s.me.rptpos.toNat
    check (!(bit p 63 && (decide (n ≤ field p 4 10) || decide (k ≤ field p 0 4)))) 0x001 (instrWord i)
    modMe fun x => { x with rpt := ws, rptpos := if bit p 63 then x.rptpos else rptAt 0 0 }

/-- RPT (R336, R337): `n`, `k` and `s` hold the operands less one; `x`, `y` and `z` stagger vd, va and vb. (DEDUCED, log 8 and 48.) -/
def execRpt (n : BitVec 10) (k : BitVec 4) (s : BitVec 3) (x y z : BitVec 1) (st : State) : Out :=
  finishOpen (do
    rptIssue (.rpt n k s x y z) (n.toNat + 1) (k.toNat + 1)
    let me := (← getS).me
    let j := field me.rptpos.toNat 4 10
    let i := field me.rptpos.toNat 0 4
    let w := stagger x y z (s.toNat + 1) j ((me.rpt[i]?).getD 0)
    match decode w with
    | .error _ => trapM 0x001 (w.setWidth 64)
    | .ok ins => capturedMeaning ins
    if i < k.toNat then modMe fun c => { c with rptpos := rptAt j (i + 1) }
    else if j < n.toNat then modMe fun c => { c with rptpos := rptAt (j + 1) 0 }
    else modMe fun c => { c with rptpos := 0, rpt := [], pc := nextPc c.pc (k.toNat + 2), stall := [], busy := false }) st

end Sys2Proof.Machine
end

