-- ==== Sys2Proof/Machine/Vsetl.lean ====
section
/-! DEFINITION. VSETL (R387 to R389), with the holding of R38 and the register effects of R261. -/

namespace Sys2Proof.Machine

/-- R38: another running context of the core that ranks before this one. (DEDUCED, log 49.) -/
def ranksBefore (s : State) (c j : Nat) : Bool :=
  let x := s.ctx c
  let y := s.ctx j
  j != c && y.life != .idle &&
  (decide (prioOf x.ctrl < prioOf y.ctrl) || (prioOf x.ctrl == prioOf y.ctrl && decide (j < c)))

/-- R38, R260: the free groups that a VSETL.r counts: not those reserved, not those set aside for contexts that rank before. (DEDUCED, log 49.) -/
def groupsLeft (s : State) (c : Nat) : Nat :=
  let k := coreOf c
  freeGroups s k - reservedGroups s k -
    (((span (4 * k) 4).filter (ranksBefore s c)).map fun j => s.currentCeil j - (s.ctx j).held).sum

/-- The holding that a VSETL.r sets (R38). (DEDUCED, log 49.) -/
def newHolding (s : State) (c : Nat) : Nat := power8 (min (s.currentCeil c) ((s.ctx c).held + groupsLeft s c))

/-- A change of the holding (R261). -/
def Ctx.resize (x : Ctx) (h : Nat) : Ctx :=
  if h = x.held then x
  else
    let n := min h x.held
    { x with
      held := h
      v := x.v.map fun y => keepLow y (1024 * n)
      hdr := x.hdr.map fun y => keepLow y (64 * n)
      sup := x.sup.map fun y => keepLow y (32 * n)
      m := x.m.map fun y => keepLow y (128 * n)
      vstart := 0, vfm := 0 }

/-- Groups that a reclaim's victim frees are reserved for the entry it serves (R260); with that entry started elsewhere the pre-emption is over. -/
def Core.reserve (k : Core) (c freed : Nat) : Core :=
  match k.preempt with
  | some p =>
    if p.victim = c && p.reclaim then
      if p.need = 0 then { k with preempt := none } else k.reserveFor p.die p.seq (k.reservedFor p.die p.seq + freed)
    else k
  | none => k

/-- The .r part of a VSETL: the ceiling and the holding of R38, the registers of R261; the reclaim is satisfied (R262). (DEDUCED, log 49.) -/
def applyHolding (s : State) : State :=
  let c := s.cur
  let x := s.me
  let h := newHolding s c
  let t := s.setCore (coreOf c) ((s.core (coreOf c)).reserve c (x.held - h))
  t.setMe { x.resize h with ceil := s.currentCeil c, lowered := none }

/-- The grant and what VSETL writes (R388). -/
def Ctx.grant (x : Ctx) (d : BitVec 5) (request : Word) (f w : BitVec 2) : Ctx :=
  let g := min request.toNat (vlmaxAt w x.held)
  { x.setReg d (word g) with
    vl := BitVec.ofNat 11 g
    vcfg := (slice x.vcfg 4 3) ++ f ++ w
    vstart := 0 }

/-- VSETL and VSETL.r (R388). -/
def execVsetl (d a : BitVec 5) (r : BitVec 1) (f w : BitVec 2) (s : State) : Out :=
  let t := if r = 1#1 then applyHolding s else s
  .next (t.setMe (t.me.grant d (s.me.reg a) f w).advance)

end Sys2Proof.Machine
end

