-- ==== Sys2Proof/Machine/Service.lean ====
section
/-! DEFINITION. Host, domain and system services (R267 to R274, R277 to R279): device registers, the event ring, host
commands, TDISP, SPDM, firmware, power and temperature. -/

namespace Sys2Proof.Machine

/-! ## The event ring (R272) -/

/-- EVSIZE and EVBASE have a value with which the ring works. -/
def Pkg.ringForm (x : Pkg) : Bool :=
  ((span 6 11).any fun k => x.evsize.toNat == 2 ^ k) && x.evbase.toNat % 4096 == 0 && decide (x.evbase.toNat < 2 ^ 48)

/-- An entry of the ring; `tick` is TICK as it is written. (DEDUCED, log 40.) -/
def eventBytes (e : Event) (tick : Word) : List Byte :=
  bytesOfWords [word (e.cause.toNat + e.kind * 2 ^ 12 + e.ctx * 2 ^ 16), e.info, tick, 0]

/-- The oldest waiting event is written if the ring has room and its memory can be written; otherwise it goes on waiting. (DEDUCED, log 40.) -/
def State.writeEvent (s : State) (p : Nat) : State :=
  let x := s.pkg p
  match x.events with
  | [] => s
  | e :: rest =>
    if !x.ringForm || x.evtail - x.evhead = x.evsize then s
    else
      match putPhys s p (p * 2 ^ 48 + x.evbase.toNat + 32 * (x.evtail.toNat % x.evsize.toNat)) (eventBytes e s.ticks) with
      | .error _ => s
      | .ok t => t.setPkg p { x with events := rest, evtail := x.evtail + 1, msix := x.msix + 1 }

/-- EVENT_ENTRY_WRITE (R272). -/
def execEventEntryWrite (p : Nat) (s : State) : Out := .next (s.writeEvent p)

/-! ## TDISP (R271) -/

/-- HWIN, PKGCFG and LINKCTL cannot be written, nor the windows. -/
def Pkg.frozen (x : Pkg) : Bool := x.tdisp == .locked || x.tdisp == .run

/-- TDISP goes to ERROR: kind 6 is reported and dispatch stops on every die. -/
def State.tdispError (s : State) (p : Nat) : State :=
  (s.setPkg p { s.pkg p with tdisp := .error, dispatchOff := true }).reportKind p 6

/-- A host write is heard: not in recovery (R269), nor in ERROR. (DEDUCED, log 57.) -/
def Pkg.hears (x : Pkg) : Bool := !x.trust.recovery && x.tdisp != .error

/-- A host write to a register that LOCK_INTERFACE freezes: the frozen interface goes to ERROR instead (R271). (DEDUCED, log 57.) -/
def State.frozenWrite (s : State) (p : Nat) (f : State → State) : State :=
  let x := s.pkg p
  if !x.hears then s else if x.frozen then s.tdispError p else f s

/-- A host write to another register. -/
def State.openWrite (s : State) (p : Nat) (f : State → State) : State := if (s.pkg p).hears then f s else s

/-! ## The registers themselves (R268) -/

/-- DEVID (R268, R269). -/
def Pkg.devid (x : Pkg) : Word := if x.trust.recovery then 0x800000004C460004 else 0x000000004C460004

/-- The offset of a window register: scope instance and register number. -/
def windowReg (offset : Nat) : Nat × Nat := ((offset - 0x100000) / 0x10000, (offset - 0x100000) % 0x10000 / 8)

/-- A package-scope register with those that only measure (R59, R278); none for another number. -/
def State.packageReg (s : State) (p n : Nat) : Option Word :=
  match n with
  | 0x032 => some s.ticks
  | 0x092 => some ((Config.railVoltage p s.ticks).setWidth 64)
  | 0x093 => some ((Config.oscillator p s.ticks).setWidth 64)
  | _ => pkgReg (s.pkg p) n

/-- A register of a window; none at an offset that has no register. -/
def windowValue (s : State) (p offset : Nat) : Option Word :=
  let (i, n) := windowReg offset
  if offset % 8 != 0 then none
  else if i = 0 then s.packageReg p n
  else if i ≤ 4 then dieReg (s.die (4 * p + i - 1)) n
  else none

/-- What a read of it gives (R267). -/
def windowRead (s : State) (p offset : Nat) : Word := (windowValue s p offset).getD 0

/-- A register stands at an offset from 0x10_0000 on (R268). -/
def frozenOffset (s : State) (p offset : Nat) : Bool :=
  if offset < 0x100000 then false
  else if offset < 0x200000 then (windowValue s p offset).isSome
  else decide (offset < 0x202000) && offset % 8 == 0

/-- What a host read of a device register returns (R267, R268, R271). -/
def hostRead (s : State) (p offset : Nat) : Word :=
  let x := s.pkg p
  if x.tdisp == .error then 0xFFFFFFFFFFFFFFFF#64
  else if x.trust.recovery then (if offset = 0 then x.devid else 0)
  else
    match offset with
    | 0x00 => x.devid
    | 0x08 => x.hwin
    | 0x10 => x.pkgcfg
    | 0x18 => x.linkctl
    | 0x20 => 0xFFF
    | 0x28 => x.enable.setWidth 64
    | 0x30 => x.powerlimit
    | 0x40 => x.evbase
    | 0x48 => x.evsize
    | 0x50 => x.evhead
    | 0x58 => x.evtail
    | 0x60 => x.hctl
    | 0x68 => x.hcaddr
    | _ =>
      if offset % 8 != 0 || offset < 0x100000 then 0
      else if offset < 0x200000 then windowRead s p offset
      else if offset < 0x202000 then (s.ctx (1024 * p + (offset - 0x200000) / 8)).tvec
      else 0

/-- A register of a window written, as a supervisor writes it (R58, R268). -/
def windowWrite (s : State) (p offset : Nat) (v : Word) : State :=
  let (i, n) := windowReg offset
  if i = 0 then s.setPkg p (setPkgReg (s.pkg p) n v)
  else if i ≤ 4 then
    let d := 4 * p + i - 1
    match setDieReg (s.die d) n v with
    | some y => s.setDie d y
    | none => s
  else s

/-- PKGCFG after a write (R274). -/
def pkgcfgAfter (old v : Word) : Word :=
  if old.getLsbD 63 then (if v.getLsbD 63 then old else old &&& 0x7FFFFFFFFFFFFFFF#64)
  else
    let f := v &&& 0x00000FFF00FFF1FF#64
    let g := v.toNat
    let p := field g 0 9
    let joins := v.getLsbD 63 && decide (p < 432) && bit g (12 + p % 6) && bit g (18 + p / 6 % 6) && bit g (32 + p / 36)
    if joins then f ||| 0x8000000000000000#64 else f

/-- A write of PKGCFG (R274): a package that leaves its domain carries no traffic until its links train again (R275). (DEDUCED, log 56.) -/
def Pkg.setConfig (x : Pkg) (v : Word) : Pkg :=
  let w := pkgcfgAfter x.pkgcfg v
  { x with
    pkgcfg := w
    links := if x.pkgcfg.getLsbD 63 && !w.getLsbD 63 then x.links.map fun e => (e.1, { e.2 with trained := false, encrypted := false })
      else x.links }

/-- A host write to a device register (R268); FV4 tries a waiting event again after a write of the ring's registers. (DEDUCED, log 57.) -/
def State.hostWrite (s : State) (p offset : Nat) (v : Word) : State :=
  let x := s.pkg p
  match offset with
  | 0x08 => s.frozenWrite p fun s => s.setPkg p { x with hwin := v &&& 0x0000FFF000000000#64 }
  | 0x10 => s.frozenWrite p fun s => s.setPkg p (x.setConfig v)
  | 0x18 => s.frozenWrite p fun s => s.setPkg p { x with linkctl := v &&& 0x0000000100FFFFFF#64 }
  | 0x28 => s.frozenWrite p fun s => s.setPkg p { x with enable := v.setWidth 12 }
  | 0x30 => s.openWrite p fun s => s.setPkg p { x with powerlimit := v &&& 0xFFF#64 }
  | 0x40 => s.openWrite p fun s => (s.setPkg p { x with evbase := v }).writeEvent p
  | 0x48 => s.openWrite p fun s => (s.setPkg p { x with evsize := v }).writeEvent p
  | 0x50 => s.openWrite p fun s => (s.setPkg p { x with evhead := v }).writeEvent p
  | 0x68 => s.openWrite p fun s => s.setPkg p { x with hcaddr := v }
  | _ =>
    if !frozenOffset s p offset then s
    else s.frozenWrite p fun s =>
      if offset < 0x200000 then windowWrite s p offset v
      else
        let c := 1024 * p + (offset - 0x200000) / 8
        s.setCtx c { s.ctx c with tvec := v &&& 0x007FFFFFFFFFFFFC#64 }

/-- PKGCFG (R274). -/
def execPkgcfg (p : Nat) (v : Word) (s : State) : Out := .next (s.hostWrite p 0x10 v)

/-- EVBASE (R272). -/
def execEvbase (p : Nat) (v : Word) (s : State) : Out := .next (s.hostWrite p 0x40 v)

/-- EVSIZE (R272). -/
def execEvsize (p : Nat) (v : Word) (s : State) : Out := .next (s.hostWrite p 0x48 v)

/-- EVHEAD (R272). -/
def execEvhead (p : Nat) (v : Word) (s : State) : Out := .next (s.hostWrite p 0x50 v)

/-- HOST_REGISTER_WRITE (R267, R268). The registers with a behaviour of their own have events of their own. -/
def execHostRegisterWrite (p offset : Nat) (v : Word) (s : State) : Out :=
  .next (if offset = 0x10 || offset = 0x40 || offset = 0x48 || offset = 0x50 then s else s.hostWrite p offset v)

/-! ## Host commands (R273) -/

/-- A write of HCTL: the command is carried out, or ignored with bit 63 set in what HCTL reads back. (DEDUCED, log 57.) -/
def State.hctlWrite (s : State) (p : Nat) (v : Word) : State := s.openWrite p fun s =>
  let x := s.pkg p
  let c := (s.ctxAt p (field v.toNat 0 19)).getD noCtx
  let y := s.ctx c
  let mine := pkgOf c == p && y.life == .stopped && y.stopInfo.isSome && !x.off
  let kept := v &&& 0x00000000003FFFFF#64
  match field v.toNat 20 2 with
  | 1 =>
    if mine && goodPc x.hcaddr then
      let t := (s.setPkg p { x with hctl := kept }).leaveHandler c
      t.setCtx c { t.ctx c with life := .running, mode := .supervisor, pc := x.hcaddr, stopInfo := none }
    else s.setPkg p { x with hctl := kept ||| 0x8000000000000000#64 }
  | 2 =>
    if mine then (s.setPkg p { x with hctl := kept }).abandon c
    else s.setPkg p { x with hctl := kept ||| 0x8000000000000000#64 }
  | _ => s.setPkg p { x with hctl := kept ||| 0x8000000000000000#64 }

/-- HOST_RESUME (R254, R273). -/
def execHostResume (p : Nat) (v : Word) (s : State) : Out := .next (s.hctlWrite p v)

/-- HOST_ABANDON (R254, R259, R273). -/
def execHostAbandon (p : Nat) (v : Word) (s : State) : Out := .next (s.hctlWrite p v)

/-- HSPAWN (R29, R271, R273): an enqueue as from a context of die 0 of the package; a refusal is reported as kind 7. A read of the record that waits is made again at a later turn. (DESIGN CHOICE, log 6 and 25.) -/
def execHspawn (p : Nat) (v : Word) (s : State) : Out :=
  let x := s.pkg p
  if !x.hears then .next s
  else if x.tdisp == .locked then .next (s.report p ⟨0x003, 7, 0, v⟩)
  else .next (s.enqueueLater { ctx := 1024 * p, record := v, home := 4 * p, host := true, stall := [] })

/-! ## BAR 2 (R267) -/

/-- The physical address of an offset in BAR 2. -/
def bar2 (s : State) (p offset : Nat) : Nat := p * 2 ^ 48 + (s.pkg p).hwin.toNat + offset

/-- The address lies in the window and in the package's own memory. -/
def bar2Ok (s : State) (p offset n : Nat) : Bool :=
  decide (offset + n ≤ 2 ^ 36) && decide ((s.pkg p).hwin.toNat + offset + n ≤ 0xC000000000)

/-- A byte that the host reads; one of a poisoned line is a free value. (DESIGN CHOICE, log 44.) -/
def hostByte (s : State) (a i : Nat) : Byte :=
  if poisoned s (a + i) then BitVec.ofNat 8 (Config.freeNat (s.free + i)) else memByte s.mem (a + i)

/-- HOST_MEMORY_ACCESS (R267, R271): in ERROR reads give all ones; before START_INTERFACE and in recovery nothing is accessed; an offset with no memory reads as zero and its writes are ignored. (DESIGN CHOICE, log 54.) -/
def execHostMemoryAccess (p : Nat) (x : HostAccess) (s : State) : Out :=
  let k := s.pkg p
  let reply (bs : List Byte) := s.setPkg p { k with hostReply := bs }
  match x with
  | .read o n =>
    if k.tdisp == .error then .next (reply (List.replicate n 255))
    else if k.trust.recovery || k.tdisp == .locked then .next s
    else if bar2Ok s p o n then .next { (reply ((span 0 n).map (hostByte s (bar2 s p o)))) with free := s.free + n }
    else .next (reply (List.replicate n 0))
  | .write o bs =>
    if !k.hears || k.tdisp == .locked || !bar2Ok s p o bs.length then .next s
    else .next (s.writeLocs (((span (bar2 s p o) bs.length).zip bs).map fun w => (.phys w.1, w.2)))

/-! ## TDISP, IDE and SPDM (R270, R271) -/

/-- What LOCK_INTERFACE records in measurement 4 (R270): the frozen registers. -/
def frozenRegisters (s : State) (p : Nat) : List Word :=
  let x := s.pkg p
  [x.hwin, x.pkgcfg, x.linkctl] ++
  ((span 0 0x100).map fun n => windowRead s p (0x100000 + 8 * n)) ++
  ((span 1 4).flatMap fun i => (span 0 0x100).map fun n => windowRead s p (0x100000 + 0x10000 * i + 8 * n)) ++
  ((span 0 1024).map fun c => (s.ctx (1024 * p + c)).tvec)

/-- LOCK_INTERFACE (R271). -/
def execLockInterface (p : Nat) (s : State) : Out :=
  let x := s.pkg p
  .next (if x.tdisp == .unlocked && !x.trust.recovery then
    s.setPkg p { x with tdisp := .locked, measurement := frozenRegisters s p } else s)

/-- START_INTERFACE (R271). -/
def execStartInterface (p : Nat) (s : State) : Out :=
  let x := s.pkg p
  .next (if x.tdisp == .locked then s.setPkg p { x with tdisp := .run } else s)

/-- Memory of a package zeroed, and none of its lines poisoned. (DEDUCED, log 35.) -/
def State.zeroMemory (s : State) (p : Nat) : State :=
  { s with
    mem := s.mem.filter fun e => pkgOfAddr e.1 != p
    poison := s.poison.filter fun n => pkgOfAddr (64 * n) != p }

/-- The contexts that a test picks, and their cores, are as after reset; a core taken out stays out. (DEDUCED, log 35 and 38.) -/
def State.clearUnits (s : State) (mine : Nat → Bool) : State :=
  let ctxs : List (Nat × Ctx) := s.ctxs.map fun e => if mine e.1 then (e.1, Ctx.reset) else e
  let cores : List (Nat × Core) := s.cores.map fun e => if mine (4 * e.1) then (e.1, { Core.reset with out := e.2.out }) else e
  { s with ctxs := ctxs, cores := cores }

/-- The contexts of a package that a state lists. (DEDUCED, log 35.) -/
def listedCtxs (s : State) (p : Nat) : List Nat := (s.ctxs.filter fun e => pkgOf e.1 == p).map (·.1)

/-- Posted stores that are on their way are performed, in the order of their issue. (DEDUCED, log 35.) -/
def State.performPosted (s : State) : State :=
  let t := (s.posted.filter (!·.performed)).foldl (fun t p =>
    t.writeLocs (((span p.loc p.size).map Loc.phys).zip (bytesOf p.size p.value.toNat))) s
  { t with posted := t.posted.map fun p => { p with performed := true } }

/-- A task that is gone releases its slots on every channel (R183). (DEDUCED, log 35.) -/
def Channel.release' (tid : Nat) (ch : Channel) : Channel :=
  if ch.slots.any fun x => x.holder == some tid then
    { ch with slots := ch.slots.map fun (x : Slot) => if x.holder == some tid then { x with holder := none } else x }.settle
  else ch

/-- Switched-out tasks whose save areas are gone are gone too. (DEDUCED, log 35 and 38.) -/
def State.dropParked (s : State) (mine : Nat → Bool) : State :=
  let gone := s.parked.filter fun q => mine q.area.die
  let t := gone.foldl (fun t q => (t.mapChans (Channel.release' q.tid)).taskGone q.tid) s
  { t with parked := t.parked.filter fun q => !mine q.area.die }

/-- The registers of a package and those of a die zeroed; a die that is stopped or corrupted stays so (R266). What is measured is no register's content. (DEDUCED, log 35.) -/
def Pkg.zeroed (x : Pkg) : Pkg :=
  { x with
    enable := 0, ptroot := 0, walkLimit := 0, exchLimit := 0, powerlimit := 0, eccHbm := 0, eccSram := 0, hwin := 0, linkctl := 0
    pkgcfg := 0, evbase := 0, evsize := 0, evhead := 0, evtail := 0, hctl := 0, hcaddr := 0
    links := x.links.map fun e => (e.1, { e.2 with trained := false, encrypted := false }) }
def Die.zeroed (x : Die) : Die :=
  { Die.reset with ageN := 0, qdepth := 0, reclaimLimit := 0, vslip := 0, corrupted := x.corrupted, stopped := x.stopped }

/-- STOP_INTERFACE (R271): every context is stopped and abandoned; what has been issued is performed, then memory, stash frames, tiles and registers are zeroed, with what the package has queued and cached, and the keys erased. (DEDUCED, log 35.) -/
def execStopInterface (p : Nat) (s : State) : Out :=
  let x := s.pkg p
  if x.tdisp == .unlocked then .next s
  else
    let t := (listedCtxs s p).foldl (fun t c => if (t.ctx c).life == .idle then t else t.abandon c) s
    let t := (t.dropParked fun d => d / 4 == p).performPosted
    let t := (t.zeroMemory p).clearUnits fun c => pkgOf c == p
    let t := (span (4 * p) 4).foldl (fun t d => t.setDie d (t.die d).zeroed) t
    let t := { t with
      tlb := t.tlb.filter fun e => pkgOfCore e.core != p
      reruns := t.reruns.filter fun r => pkgOf r.ctx != p
      orphans := t.orphans.filter fun o => pkgOf o.ctx != p }
    .next (t.setPkg p { (t.pkg p).zeroed with tdisp := .unlocked, dispatchOff := false, ideKey := none, measurement := [] })

/-- IDE_KM (R271): the keys of the selective IDE stream. (DESIGN CHOICE, log 54.) -/
def execIdeKm (p : Nat) (key : BitVec 256) (s : State) : Out := .next (s.setPkg p { s.pkg p with ideKey := some key })

/-- IDE_INTEGRITY_FAILURE (R271). -/
def execIdeIntegrityFailure (p : Nat) (s : State) : Out := .next (if (s.pkg p).frozen then s.tdispError p else s)

/-- The answer to an SPDM request (R270): versions, algorithms and measurements that the model holds; digests, keys and signatures are free values. (DESIGN CHOICE, log 44.) -/
def spdmAnswer (s : State) (x : Pkg) (r : SpdmRequest) : SpdmReply :=
  match r with
  | .getVersion => .words [0x12, 0x13]
  | .negotiateAlgorithms => .algorithms .ecdsaP521 .sha512 .sha512 .ecdheP521 .aes256Gcm
  | .getMeasurement 2 => .words [word ((x.trust.image.map (·.version)).getD 0)]
  | .getMeasurement 4 => .words (if x.measurement.isEmpty then List.replicate 2307 0 else x.measurement)
  | _ => .words [Config.freeWord s.free]

/-- SPDM_REQUEST (R270): answered in every TDISP state and in recovery. -/
def execSpdmRequest (p : Nat) (r : SpdmRequest) (s : State) : Out :=
  let x := s.pkg p
  .next ({ s with free := s.free + 1 }.setPkg p { x with spdm := x.spdm ++ [spdmAnswer s x r] })

/-! ## Firmware (R269) -/

/-- An image that the root of trust accepts. (DESIGN CHOICE, log 44.) -/
def imageAccepted (t : Trust) : Bool :=
  match t.image with
  | some i => i.keyOk && i.sigOk && decide (t.minimum ≤ i.version)
  | none => false

/-- FIRMWARE_VERIFICATION (R269), made before any core leaves reset: the cores leave it once the image is accepted, and a refused image holds the package in recovery. -/
def execFirmwareVerification (p : Nat) (s : State) : Out :=
  let x := s.pkg p
  let ok := imageAccepted x.trust
  .next (if x.trust.verified then s else s.setPkg p { x with trust := { x.trust with verified := ok, recovery := !ok } })

/-- FIRMWARE_LOAD (R269): the mailbox of recovery takes an image, which the next verification judges. (DESIGN CHOICE, log 44.) -/
def execFirmwareLoad (p : Nat) (i : Firmware) (s : State) : Out :=
  let x := s.pkg p
  .next (if x.trust.recovery then s.setPkg p { x with trust := { x.trust with image := some i } } else s)

/-! ## Power and temperature (R277, R278) -/

/-- The controller's decision for one period. (DEDUCED, log 42.) -/
def Pkg.powerPeriod (x : Pkg) (watts : Nat) : Pkg :=
  let limit := limitApplied x
  if limit < watts then
    if x.ceil = 1 then { x with clockLow := true, below := 0 } else { x with ceil := x.ceil / 2, below := 0 }
  else if 10 * watts < 9 * limit then
    if x.below + 1 < 10 then { x with below := x.below + 1, clockLow := false }
    else { x with ceil := min 8 (2 * x.ceil), below := 0, clockLow := false }
  else { x with below := 0, clockLow := false }

/-- The ceilings of a package's running contexts follow the power limit (R38). (DEDUCED, log 42.) -/
def State.capCeilings (s : State) (p : Nat) : State :=
  { s with ctxs := s.ctxs.map fun e =>
      if pkgOf e.1 == p && e.2.life != .idle then (e.1, { e.2 with ceil := s.currentCeil e.1 }) else e }

/-- A period of the power controller is over: 100,000 ticks since the last (R277). -/
def periodOver (s : State) (p : Nat) : Bool := decide (((s.pkg p).periods + 1) * 100000 ≤ s.ticks.toNat)

/-- POWER_CONTROL_PERIOD (R277): every 100,000 ticks, with the power measured. (DEDUCED, log 42.) -/
def execPowerControlPeriod (p watts : Nat) (s : State) : Out :=
  let x := s.pkg p
  .next (if periodOver s p then (s.setPkg p { x.powerPeriod watts with periods := x.periods + 1 }).capCeilings p else s)

/-- At 115 °C every context of a package stops, kind 5 is reported, the cores power down (R278). (DEDUCED, log 41.) -/
def State.shutDown (s : State) (p : Nat) (tj : BitVec 12) : State :=
  let stop (e : Nat × Ctx) := if pkgOf e.1 == p && e.2.life != .idle then (e.1, { e.2 with life := .stopped }) else e
  let t := { s with ctxs := s.ctxs.map stop }
  (t.setPkg p { t.pkg p with tj := tj, throt := true, off := true }).reportKind p 5

/-- THERMAL_THROTTLE (R278): TJ as measured; THROT from 105 °C on. (DEDUCED, log 41.) -/
def execThermalThrottle (p : Nat) (tj : BitVec 12) (s : State) : Out :=
  .next (if 920 ≤ tj.toNat then s.shutDown p tj else s.setPkg p { s.pkg p with tj := tj, throt := decide (840 ≤ tj.toNat) })

/-- THERMAL_SHUTDOWN (R278): the same at 115 °C. (DEDUCED, log 41.) -/
def execThermalShutdown (p : Nat) (tj : BitVec 12) (s : State) : Out :=
  .next (if 920 ≤ tj.toNat then s.shutDown p tj else s)

/-! ## Resets and training -/

/-- DIE_RESET (R30, R266): the die's registers and queues start afresh, its tasks are gone, and the corrupted state ends. (DEDUCED, log 38.) -/
def execDieReset (d : Nat) (s : State) : Out :=
  let mine := (s.ctxs.filter fun e => dieOf e.1 == d).map (·.1)
  let t := mine.foldl (fun t c => if (t.ctx c).life == .idle then t else t.abandon c) s
  let t := (t.setDie d Die.reset).clearUnits fun c => dieOf c == d
  .next { t.dropParked fun e => e == d with orphans := t.orphans.filter fun o => dieOf o.ctx != d }

/-- PCI_EXPRESS_PORT_TRAINING (R267): at most ×8 and 128 GT/s. (DESIGN CHOICE, log 54.) -/
def execPciExpressPortTraining (p width rate : Nat) (s : State) : Out :=
  .next (if (width == 1 || width == 2 || width == 4 || width == 8) && decide (rate ≤ 128) then
    s.setPkg p { s.pkg p with pcieWidth := width, pcieRate := rate } else s)

end Sys2Proof.Machine
end

