-- ==== Sys2Proof/Machine/Stream.lean ====
section
/-! DEFINITION. The stream instructions SISECT (R341, R342) and SMERGE (R344). A machine step is one step of their
loops, and one more when the loop has ended. -/

namespace Sys2Proof.Machine

/-- CNT and PLEN of a count register (R341). -/
def streamCount (v : Word) : Nat := field v.toNat 0 32
def streamPlen (v : Word) : Nat := field v.toNat 32 4

/-- The size of a record (R181, R341). -/
def streamSize (v : Word) : Nat := 8 + 32 * streamPlen v

/-- A count register keeps its reserved bits zero and its PLEN in range (R341). -/
def streamForm (v : Word) : Bool := field v.toNat 36 28 == 0 && decide (streamPlen v ≤ 8)

/-- The registers of a pair after one record: the pointer moves on, one record fewer remains. -/
def Ctx.streamStep (x : Ctx) (p : BitVec 5) : Ctx :=
  let c := x.reg (p + 1)
  (x.setReg p (x.reg p + word (streamSize c))).setReg (p + 1) (c - 1)

/-- One step of the loop of R342. -/
def sisectStep (d a b : BitVec 5) : M Unit := do
  let s ← getS
  aligned (s.me.reg a) 8
  aligned (s.me.reg b) 8
  let x ← loadVa s.who (s.me.reg a).toNat 8
  let y ← loadVa s.who (s.me.reg b).toNat 8
  modMe fun m =>
    let m := if x = y then m.setReg d (m.reg d + 1) else m
    let m := if x ≤ y then m.streamStep a else m
    { (if y ≤ x then m.streamStep b else m) with stall := [], busy := false, looping := true }
  afterScalar

/-- The checks that a stream instruction makes once, before its loop: the feature, and the form of its counts (R63, R341). -/
def streamChecks (i : Instr) (formed : Bool) : M Unit := do
  if !(← getS).me.looping then
    feature 7 i
    check formed 0x002 (instrWord i)

/-- The loop has ended. -/
def loopEnd : M Unit := modMe fun x => { x.advance with looping := false }

/-- SISECT (R341, R342). (DEDUCED, log 8.) -/
def execSisect (d a b : BitVec 5) (s : State) : Out :=
  finish (do
    let ca := s.me.reg (a + 1)
    let cb := s.me.reg (b + 1)
    streamChecks (.sisect d a b) (streamForm ca && streamForm cb)
    if streamCount ca = 0 || streamCount cb = 0 then loopEnd else sisectStep d a b) s

/-- The places of a record that is written, line by line, and the first stop met; `fuel` bounds the lines. -/
def storeLines (who : Who) (va : Nat) (bs : List Byte) : Nat → M (List (Loc × Byte) × Option Stop)
  | 0 => pure ([], none)
  | fuel + 1 => do
    if bs.isEmpty then return ([], none)
    let k := min bs.length (64 - va % 64)
    let r ← attempt (locateBytes who .write va k)
    let (rest, e) ← storeLines who ((va + k) % 2 ^ 64) (bs.drop k) fuel
    match r with
    | .ok ls => return (ls.zip bs ++ rest, e)
    | .error e' => return (rest, some e')

/-- The write of a step: one that faults leaves any subset of the record's bytes written (R344, R6). (DESIGN CHOICE, log 37.) -/
def storeRecord (who : Who) (va : Nat) (bs : List Byte) : M Unit := do
  let (places, stop) ← storeLines who va bs (bs.length / 64 + 2)
  match stop with
  | none => modS fun s => s.writeLocs places
  | some e =>
    modS fun s =>
      let mask := Config.freeNat s.free
      let chosen := (places.zip (span 0 places.length)).filterMap fun w => if bit mask w.2 then some w.1 else none
      { (s.writeLocs chosen) with free := s.free + 1 }
    throw e

/-- The write of a step that is placed later: every byte is located, and it waits with the scalar accesses (R55). (DESIGN CHOICE, log 9.) -/
def delayRecord (who : Who) (va : Nat) (bs : List Byte) : M Unit := do
  let ls ← locateBytes who .write va bs.length
  modMe fun m => { m with delayed := m.delayed ++ [.store m.newStamp m.sAfter (ls.zip bs)] }

/-- One step of the loop of R344, its record written by `put`. -/
def smergeStep (put : Who → Nat → List Byte → M Unit) (d a b : BitVec 5) : M Unit := do
  let s ← getS
  let pa := s.me.reg a
  let pb := s.me.reg b
  let left := streamCount (s.me.reg (a + 1)) ≠ 0
  let right := streamCount (s.me.reg (b + 1)) ≠ 0
  if left then aligned pa 8
  if right then aligned pb 8
  aligned (s.me.reg d) 8
  let src ←
    if !right then pure a
    else if !left then pure b
    else do
      let x ← loadVa s.who pa.toNat 8
      let y ← loadVa s.who pb.toNat 8
      pure (if x ≤ y then a else b)
  let size := streamSize (s.me.reg (src + 1))
  let v ← loadVa s.who (s.me.reg src).toNat size
  put s.who (s.me.reg d).toNat (bytesOf size v)
  modMe fun m => { (m.streamStep src).streamStep d with stall := [], busy := false, looping := true }
  afterScalar

/-- SMERGE with its records written by `put` (R344). (DEDUCED, log 8.) -/
def smergeBy (put : Who → Nat → List Byte → M Unit) (d a b : BitVec 5) (s : State) : Out :=
  finish (do
    let cd := s.me.reg (d + 1)
    let ca := s.me.reg (a + 1)
    let cb := s.me.reg (b + 1)
    streamChecks (.smerge d a b)
      (streamForm cd && streamForm ca && streamForm cb && streamPlen cd == streamPlen ca && streamPlen ca == streamPlen cb)
    if streamCount cd = 0 || (streamCount ca = 0 && streamCount cb = 0) then loopEnd else smergeStep put d a b) s

/-- SMERGE (R344). -/
def execSmerge (d a b : BitVec 5) (s : State) : Out := smergeBy storeRecord d a b s

/-- A step of SMERGE in a HOLD turn (assumption 9): its store waits to be performed. (DESIGN CHOICE, log 9.) -/
def delaySmerge (d a b : BitVec 5) (s : State) : Out := smergeBy delayRecord d a b s

end Sys2Proof.Machine
end

