-- ==== Sys2Proof/Machine/VEvents.lean ====
section
/-! DEFINITION. The limit of VWAIT as an event (R244). -/

namespace Sys2Proof.Machine

/-- VWAIT_LIMIT_EXPIRY (R244): one more round, at which the wait ends. -/
def execVwaitLimitExpiry (c : Nat) (s : State) : Out :=
  expire c (fun i u => match i with
    | .vwait d a b m r q => if limitPassed u a then some (execVwait d a b m r q u) else none
    | _ => none) s

end Sys2Proof.Machine
end

