-- ==== Sys2Proof/Machine/Dispatch.lean ====
section
/-! DEFINITION. Every instruction and event goes to its meaning. -/

namespace Sys2Proof.Machine

/-- What an instruction or event does. -/
def exec (i : Instr) (s : State) : Host.Outcome State Fault Refusal :=
  match i with
  | .add d a b => Sys2Proof.Machine.execAdd d a b s
  | .sub d a b => Sys2Proof.Machine.execSub d a b s
  | .mul d a b => Sys2Proof.Machine.execMul d a b s
  | .mulh d a b => Sys2Proof.Machine.execMulh d a b s
  | .mulhu d a b => Sys2Proof.Machine.execMulhu d a b s
  | .div d a b => Sys2Proof.Machine.execDiv d a b s
  | .divu d a b => Sys2Proof.Machine.execDivu d a b s
  | .rem d a b => Sys2Proof.Machine.execRem d a b s
  | .remu d a b => Sys2Proof.Machine.execRemu d a b s
  | .and d a b => Sys2Proof.Machine.execAnd d a b s
  | .andn d a b => Sys2Proof.Machine.execAndn d a b s
  | .or d a b => Sys2Proof.Machine.execOr d a b s
  | .xor d a b => Sys2Proof.Machine.execXor d a b s
  | .sll d a b => Sys2Proof.Machine.execSll d a b s
  | .srl d a b => Sys2Proof.Machine.execSrl d a b s
  | .sra d a b => Sys2Proof.Machine.execSra d a b s
  | .slt d a b => Sys2Proof.Machine.execSlt d a b s
  | .sltu d a b => Sys2Proof.Machine.execSltu d a b s
  | .min d a b => Sys2Proof.Machine.execMin d a b s
  | .max d a b => Sys2Proof.Machine.execMax d a b s
  | .minu d a b => Sys2Proof.Machine.execMinu d a b s
  | .maxu d a b => Sys2Proof.Machine.execMaxu d a b s
  | .clz d a => Sys2Proof.Machine.execClz d a s
  | .ctz d a => Sys2Proof.Machine.execCtz d a s
  | .popc d a => Sys2Proof.Machine.execPopc d a s
  | .sextB d a => Sys2Proof.Machine.execSextB d a s
  | .sextH d a => Sys2Proof.Machine.execSextH d a s
  | .sextW d a => Sys2Proof.Machine.execSextW d a s
  | .zextB d a => Sys2Proof.Machine.execZextB d a s
  | .zextH d a => Sys2Proof.Machine.execZextH d a s
  | .zextW d a => Sys2Proof.Machine.execZextW d a s
  | .csel d a b c => Sys2Proof.Machine.execCsel d a b c s
  | .addImm d a xi => Sys2Proof.Machine.execAddImm d a xi s
  | .andImm d a xi => Sys2Proof.Machine.execAndImm d a xi s
  | .orImm d a xi => Sys2Proof.Machine.execOrImm d a xi s
  | .xorImm d a xi => Sys2Proof.Machine.execXorImm d a xi s
  | .sltImm d a xi => Sys2Proof.Machine.execSltImm d a xi s
  | .sltuImm d a xi => Sys2Proof.Machine.execSltuImm d a xi s
  | .lih d a xi => Sys2Proof.Machine.execLih d a xi s
  | .addpc d xi => Sys2Proof.Machine.execAddpc d xi s
  | .fadd d a b f => Sys2Proof.Machine.execFadd d a b f s
  | .fsub d a b f => Sys2Proof.Machine.execFsub d a b f s
  | .fmul d a b f => Sys2Proof.Machine.execFmul d a b f s
  | .fdiv d a b f => Sys2Proof.Machine.execFdiv d a b f s
  | .fsqrt d a f => Sys2Proof.Machine.execFsqrt d a f s
  | .fma d a b c f => Sys2Proof.Machine.execFma d a b c f s
  | .fmin d a b f => Sys2Proof.Machine.execFmin d a b f s
  | .fmax d a b f => Sys2Proof.Machine.execFmax d a b f s
  | .fcmp d a b c f => Sys2Proof.Machine.execFcmp d a b c f s
  | .fcvt d a c => Sys2Proof.Machine.execFcvt d a c s
  | .fmvx d a f => Sys2Proof.Machine.execFmvx d a f s
  | .ld d a o w => Sys2Proof.Machine.execLd d a o w s
  | .st d a o w => Sys2Proof.Machine.execSt d a o w s
  | .amoAdd d a b xs => Sys2Proof.Machine.execAmoAdd d a b xs s
  | .amoAnd d a b xs => Sys2Proof.Machine.execAmoAnd d a b xs s
  | .amoOr d a b xs => Sys2Proof.Machine.execAmoOr d a b xs s
  | .amoXor d a b xs => Sys2Proof.Machine.execAmoXor d a b xs s
  | .amoSmin d a b xs => Sys2Proof.Machine.execAmoSmin d a b xs s
  | .amoSmax d a b xs => Sys2Proof.Machine.execAmoSmax d a b xs s
  | .amoUmin d a b xs => Sys2Proof.Machine.execAmoUmin d a b xs s
  | .amoUmax d a b xs => Sys2Proof.Machine.execAmoUmax d a b xs s
  | .amoSwap d a b xs => Sys2Proof.Machine.execAmoSwap d a b xs s
  | .amoFmax d a b xs => Sys2Proof.Machine.execAmoFmax d a b xs s
  | .amoAddb d a b c xs => Sys2Proof.Machine.execAmoAddb d a b c xs s
  | .cas d a b c xs => Sys2Proof.Machine.execCas d a b c xs s
  | .pst a b xs => Sys2Proof.Machine.execPst a b xs s
  | .pstOrd a b xs => Sys2Proof.Machine.execPstOrd a b xs s
  | .beq a b o => Sys2Proof.Machine.execBeq a b o s
  | .bne a b o => Sys2Proof.Machine.execBne a b o s
  | .blt a b o => Sys2Proof.Machine.execBlt a b o s
  | .bge a b o => Sys2Proof.Machine.execBge a b o s
  | .bltu a b o => Sys2Proof.Machine.execBltu a b o s
  | .bgeu a b o => Sys2Proof.Machine.execBgeu a b o s
  | .jal d o => Sys2Proof.Machine.execJal d o s
  | .jalr d a xi => Sys2Proof.Machine.execJalr d a xi s
  | .csrr d n => Sys2Proof.Machine.execCsrr d n s
  | .csrw d a n => Sys2Proof.Machine.execCsrw d a n s
  | .csrset d a n => Sys2Proof.Machine.execCsrset d a n s
  | .csrclr d a n => Sys2Proof.Machine.execCsrclr d a n s
  | .trap a n => Sys2Proof.Machine.execTrap a n s
  | .eret => Sys2Proof.Machine.execEret s
  | .brk n => Sys2Proof.Machine.execBrk n s
  | .fence p xs => Sys2Proof.Machine.execFence p xs s
  | .svfence f => Sys2Proof.Machine.execSvfence f s
  | .ifence => Sys2Proof.Machine.execIfence s
  | .tlbinv a xs l => Sys2Proof.Machine.execTlbinv a xs l s
  | .stflush a l => Sys2Proof.Machine.execStflush a l s
  | .stinv a l => Sys2Proof.Machine.execStinv a l s
  | .tspawn a => Sys2Proof.Machine.execTspawn a s
  | .tend => Sys2Proof.Machine.execTend s
  | .tself d => Sys2Proof.Machine.execTself d s
  | .barrive d a b => Sys2Proof.Machine.execBarrive d a b s
  | .barwait d a b c => Sys2Proof.Machine.execBarwait d a b c s
  | .hbar a xs => Sys2Proof.Machine.execHbar a xs s
  | .cpy d a b c => Sys2Proof.Machine.execCpy d a b c s
  | .cpy2 d a b c => Sys2Proof.Machine.execCpy2 d a b c s
  | .cpyxG d a b c => Sys2Proof.Machine.execCpyxG d a b c s
  | .cpyxS d a b c => Sys2Proof.Machine.execCpyxS d a b c s
  | .rsort d a b c => Sys2Proof.Machine.execRsort d a b c s
  | .sisect d a b => Sys2Proof.Machine.execSisect d a b s
  | .smerge d a b => Sys2Proof.Machine.execSmerge d a b s
  | .xbind a n => Sys2Proof.Machine.execXbind a n s
  | .xsend a b n => Sys2Proof.Machine.execXsend a b n s
  | .xsendM a b n => Sys2Proof.Machine.execXsendM a b n s
  | .xsendv a b n => Sys2Proof.Machine.execXsendv a b n s
  | .xend n => Sys2Proof.Machine.execXend n s
  | .xsplitRd d a n => Sys2Proof.Machine.execXsplitRd d a n s
  | .xsplitIn d a n => Sys2Proof.Machine.execXsplitIn d a n s
  | .vsetl d a r f xs => Sys2Proof.Machine.execVsetl d a r f xs s
  | .rpt n k xs x y z => Sys2Proof.Machine.execRpt n k xs x y z s
  | .vadd d a b m r => Sys2Proof.Machine.execVadd d a b m r s
  | .vsub d a b m r => Sys2Proof.Machine.execVsub d a b m r s
  | .vmul d a b m r => Sys2Proof.Machine.execVmul d a b m r s
  | .vmulh d a b m r => Sys2Proof.Machine.execVmulh d a b m r s
  | .vmulhU d a b m r => Sys2Proof.Machine.execVmulhU d a b m r s
  | .vmin d a b m r => Sys2Proof.Machine.execVmin d a b m r s
  | .vminU d a b m r => Sys2Proof.Machine.execVminU d a b m r s
  | .vmax d a b m r => Sys2Proof.Machine.execVmax d a b m r s
  | .vmaxU d a b m r => Sys2Proof.Machine.execVmaxU d a b m r s
  | .vand d a b m r => Sys2Proof.Machine.execVand d a b m r s
  | .vor d a b m r => Sys2Proof.Machine.execVor d a b m r s
  | .vxor d a b m r => Sys2Proof.Machine.execVxor d a b m r s
  | .vsll d a b m r => Sys2Proof.Machine.execVsll d a b m r s
  | .vsrl d a b m r => Sys2Proof.Machine.execVsrl d a b m r s
  | .vsra d a b m r => Sys2Proof.Machine.execVsra d a b m r s
  | .vcmpEq d a b m r => Sys2Proof.Machine.execVcmpEq d a b m r s
  | .vcmpNe d a b m r => Sys2Proof.Machine.execVcmpNe d a b m r s
  | .vcmpLt d a b m r => Sys2Proof.Machine.execVcmpLt d a b m r s
  | .vcmpLtu d a b m r => Sys2Proof.Machine.execVcmpLtu d a b m r s
  | .vcmpLe d a b m r => Sys2Proof.Machine.execVcmpLe d a b m r s
  | .vcmpLeu d a b m r => Sys2Proof.Machine.execVcmpLeu d a b m r s
  | .vsel d a b r => Sys2Proof.Machine.execVsel d a b r s
  | .vaddVs d a b m r => Sys2Proof.Machine.execVaddVs d a b m r s
  | .vsubVs d a b m r => Sys2Proof.Machine.execVsubVs d a b m r s
  | .vmulVs d a b m r => Sys2Proof.Machine.execVmulVs d a b m r s
  | .vmulhVs d a b m r => Sys2Proof.Machine.execVmulhVs d a b m r s
  | .vmulhUVs d a b m r => Sys2Proof.Machine.execVmulhUVs d a b m r s
  | .vminVs d a b m r => Sys2Proof.Machine.execVminVs d a b m r s
  | .vminUVs d a b m r => Sys2Proof.Machine.execVminUVs d a b m r s
  | .vmaxVs d a b m r => Sys2Proof.Machine.execVmaxVs d a b m r s
  | .vmaxUVs d a b m r => Sys2Proof.Machine.execVmaxUVs d a b m r s
  | .vandVs d a b m r => Sys2Proof.Machine.execVandVs d a b m r s
  | .vorVs d a b m r => Sys2Proof.Machine.execVorVs d a b m r s
  | .vxorVs d a b m r => Sys2Proof.Machine.execVxorVs d a b m r s
  | .vsllVs d a b m r => Sys2Proof.Machine.execVsllVs d a b m r s
  | .vsrlVs d a b m r => Sys2Proof.Machine.execVsrlVs d a b m r s
  | .vsraVs d a b m r => Sys2Proof.Machine.execVsraVs d a b m r s
  | .vcmpEqVs d a b m r => Sys2Proof.Machine.execVcmpEqVs d a b m r s
  | .vcmpNeVs d a b m r => Sys2Proof.Machine.execVcmpNeVs d a b m r s
  | .vcmpLtVs d a b m r => Sys2Proof.Machine.execVcmpLtVs d a b m r s
  | .vcmpLtuVs d a b m r => Sys2Proof.Machine.execVcmpLtuVs d a b m r s
  | .vcmpLeVs d a b m r => Sys2Proof.Machine.execVcmpLeVs d a b m r s
  | .vcmpLeuVs d a b m r => Sys2Proof.Machine.execVcmpLeuVs d a b m r s
  | .vselVs d a b r => Sys2Proof.Machine.execVselVs d a b r s
  | .vfadd d a b m r => Sys2Proof.Machine.execVfadd d a b m r s
  | .vfsub d a b m r => Sys2Proof.Machine.execVfsub d a b m r s
  | .vfmul d a b m r => Sys2Proof.Machine.execVfmul d a b m r s
  | .vfma d a b m r => Sys2Proof.Machine.execVfma d a b m r s
  | .vfdiv d a b m r => Sys2Proof.Machine.execVfdiv d a b m r s
  | .vfsqrt d a m r => Sys2Proof.Machine.execVfsqrt d a m r s
  | .vfmin d a b m r => Sys2Proof.Machine.execVfmin d a b m r s
  | .vfmax d a b m r => Sys2Proof.Machine.execVfmax d a b m r s
  | .vfexp2 d a m r => Sys2Proof.Machine.execVfexp2 d a m r s
  | .vfrsqrt d a m r => Sys2Proof.Machine.execVfrsqrt d a m r s
  | .vfcmpEq d a b m r => Sys2Proof.Machine.execVfcmpEq d a b m r s
  | .vfcmpLt d a b m r => Sys2Proof.Machine.execVfcmpLt d a b m r s
  | .vfcmpLe d a b m r => Sys2Proof.Machine.execVfcmpLe d a b m r s
  | .vfcmpUn d a b m r => Sys2Proof.Machine.execVfcmpUn d a b m r s
  | .vfaddVs d a b m r => Sys2Proof.Machine.execVfaddVs d a b m r s
  | .vfsubVs d a b m r => Sys2Proof.Machine.execVfsubVs d a b m r s
  | .vfmulVs d a b m r => Sys2Proof.Machine.execVfmulVs d a b m r s
  | .vfmaVs d a b m r => Sys2Proof.Machine.execVfmaVs d a b m r s
  | .vfdivVs d a b m r => Sys2Proof.Machine.execVfdivVs d a b m r s
  | .vfminVs d a b m r => Sys2Proof.Machine.execVfminVs d a b m r s
  | .vfmaxVs d a b m r => Sys2Proof.Machine.execVfmaxVs d a b m r s
  | .vfcmpEqVs d a b m r => Sys2Proof.Machine.execVfcmpEqVs d a b m r s
  | .vfcmpLtVs d a b m r => Sys2Proof.Machine.execVfcmpLtVs d a b m r s
  | .vfcmpLeVs d a b m r => Sys2Proof.Machine.execVfcmpLeVs d a b m r s
  | .vfcmpUnVs d a b m r => Sys2Proof.Machine.execVfcmpUnVs d a b m r s
  | .vredAdd d a m r => Sys2Proof.Machine.execVredAdd d a m r s
  | .vredAnd d a m r => Sys2Proof.Machine.execVredAnd d a m r s
  | .vredOr d a m r => Sys2Proof.Machine.execVredOr d a m r s
  | .vredXor d a m r => Sys2Proof.Machine.execVredXor d a m r s
  | .vredMin d a m r => Sys2Proof.Machine.execVredMin d a m r s
  | .vredMax d a m r => Sys2Proof.Machine.execVredMax d a m r s
  | .vredMinu d a m r => Sys2Proof.Machine.execVredMinu d a m r s
  | .vredMaxu d a m r => Sys2Proof.Machine.execVredMaxu d a m r s
  | .vfredAdd d a m r => Sys2Proof.Machine.execVfredAdd d a m r s
  | .vfredMin d a m r => Sys2Proof.Machine.execVfredMin d a m r s
  | .vfredMax d a m r => Sys2Proof.Machine.execVfredMax d a m r s
  | .vslideUp d a b m r => Sys2Proof.Machine.execVslideUp d a b m r s
  | .vslideDown d a b m r => Sys2Proof.Machine.execVslideDown d a b m r s
  | .vperm d a b m r => Sys2Proof.Machine.execVperm d a b m r s
  | .vcompress d a r => Sys2Proof.Machine.execVcompress d a r s
  | .vexpand d a r => Sys2Proof.Machine.execVexpand d a r s
  | .mand d a b => Sys2Proof.Machine.execMand d a b s
  | .mor d a b => Sys2Proof.Machine.execMor d a b s
  | .mxor d a b => Sys2Proof.Machine.execMxor d a b s
  | .mnot d a => Sys2Proof.Machine.execMnot d a s
  | .mpop d a => Sys2Proof.Machine.execMpop d a s
  | .mfirst d a => Sys2Proof.Machine.execMfirst d a s
  | .mbreak d a => Sys2Proof.Machine.execMbreak d a s
  | .vcvt d a t m r => Sys2Proof.Machine.execVcvt d a t m r s
  | .vmvV d a m r => Sys2Proof.Machine.execVmvV d a m r s
  | .vmvS d a m r => Sys2Proof.Machine.execVmvS d a m r s
  | .vmvRaw d a t => Sys2Proof.Machine.execVmvRaw d a t s
  | .vidx d m r => Sys2Proof.Machine.execVidx d m r s
  | .vextr d a b => Sys2Proof.Machine.execVextr d a b s
  | .vins d a b => Sys2Proof.Machine.execVins d a b s
  | .vsort d a m r => Sys2Proof.Machine.execVsort d a m r s
  | .vsortKv d a b m r => Sys2Proof.Machine.execVsortKv d a b m r s
  | .vld d a b m r => Sys2Proof.Machine.execVld d a b m r s
  | .vlds d a b m r => Sys2Proof.Machine.execVlds d a b m r s
  | .vldseg d a m r f => Sys2Proof.Machine.execVldseg d a m r f s
  | .vldff d a b m r => Sys2Proof.Machine.execVldff d a b m r s
  | .vst d a b m r => Sys2Proof.Machine.execVst d a b m r s
  | .vsts d a b m r => Sys2Proof.Machine.execVsts d a b m r s
  | .vstseg d a m r f => Sys2Proof.Machine.execVstseg d a m r f s
  | .vstq d a b m r => Sys2Proof.Machine.execVstq d a b m r s
  | .vldx d a b m r w => Sys2Proof.Machine.execVldx d a b m r w s
  | .vstx d a b m r w => Sys2Proof.Machine.execVstx d a b m r w s
  | .vstxOrd d a b m r w => Sys2Proof.Machine.execVstxOrd d a b m r w s
  | .vamoAdd d a b m r o e q => Sys2Proof.Machine.execVamoAdd d a b m r o e q s
  | .vamoAnd d a b m r o e q => Sys2Proof.Machine.execVamoAnd d a b m r o e q s
  | .vamoOr d a b m r o e q => Sys2Proof.Machine.execVamoOr d a b m r o e q s
  | .vamoXor d a b m r o e q => Sys2Proof.Machine.execVamoXor d a b m r o e q s
  | .vamoSmin d a b m r o e q => Sys2Proof.Machine.execVamoSmin d a b m r o e q s
  | .vamoSmax d a b m r o e q => Sys2Proof.Machine.execVamoSmax d a b m r o e q s
  | .vamoUmin d a b m r o e q => Sys2Proof.Machine.execVamoUmin d a b m r o e q s
  | .vamoUmax d a b m r o e q => Sys2Proof.Machine.execVamoUmax d a b m r o e q s
  | .vamoSwap d a b m r o e q => Sys2Proof.Machine.execVamoSwap d a b m r o e q s
  | .vamoFmax d a b m r o e q => Sys2Proof.Machine.execVamoFmax d a b m r o e q s
  | .vamoAddb d a b m r o e q => Sys2Proof.Machine.execVamoAddb d a b m r o e q s
  | .vwait d a b m r c => Sys2Proof.Machine.execVwait d a b m r c s
  | .mshape d a f => Sys2Proof.Machine.execMshape d a f s
  | .mzero t => Sys2Proof.Machine.execMzero t s
  | .mldb d a b u f => Sys2Proof.Machine.execMldb d a b u f s
  | .mma d a b t u f => Sys2Proof.Machine.execMma d a b t u f s
  | .mst d a t => Sys2Proof.Machine.execMst d a t s
  | .mmovTo d a t => Sys2Proof.Machine.execMmovTo d a t s
  | .mmovFrom d a t => Sys2Proof.Machine.execMmovFrom d a t s
  | .entrySelection ctx => Sys2Proof.Machine.execEntrySelection ctx s
  | .lookAhead ctx => Sys2Proof.Machine.execLookAhead ctx s
  | .preemption die seq => Sys2Proof.Machine.execPreemption die seq s
  | .fullSwitch ctx => Sys2Proof.Machine.execFullSwitch ctx s
  | .reclaimFallback ctx => Sys2Proof.Machine.execReclaimFallback ctx s
  | .taskBudgetExceeded ctx => Sys2Proof.Machine.execTaskBudgetExceeded ctx s
  | .trapEntry ctx => Sys2Proof.Machine.execTrapEntry ctx s
  | .pageTableWalk core kind va => Sys2Proof.Machine.execPageTableWalk core kind va s
  | .walkStalled ctx => Sys2Proof.Machine.execWalkStalled ctx s
  | .sptEntryBusyTimeout ctx => Sys2Proof.Machine.execSptEntryBusyTimeout ctx s
  | .stashFill ctx page => Sys2Proof.Machine.execStashFill ctx page s
  | .stashLineFill ctx page line => Sys2Proof.Machine.execStashLineFill ctx page line s
  | .pull ctx page => Sys2Proof.Machine.execPull ctx page s
  | .copyCountStep ctx slot => Sys2Proof.Machine.execCopyCountStep ctx slot s
  | .commandCompletionArrival ctx slot => Sys2Proof.Machine.execCommandCompletionArrival ctx slot s
  | .engineFault ctx slot => Sys2Proof.Machine.execEngineFault ctx slot s
  | .postedStorePerform id => Sys2Proof.Machine.execPostedStorePerform id s
  | .postedStoreAcknowledgement id => Sys2Proof.Machine.execPostedStoreAcknowledgement id s
  | .sendPortHandover ch slot => Sys2Proof.Machine.execSendPortHandover ch slot s
  | .mergePointForward ch point => Sys2Proof.Machine.execMergePointForward ch point s
  | .recordDelivery ch dest => Sys2Proof.Machine.execRecordDelivery ch dest s
  | .consumedPoll ch dest => Sys2Proof.Machine.execConsumedPoll ch dest s
  | .roundCompletion ch dest => Sys2Proof.Machine.execRoundCompletion ch dest s
  | .deliveryRetry ch dest => Sys2Proof.Machine.execDeliveryRetry ch dest s
  | .sieveClose ch => Sys2Proof.Machine.execSieveClose ch s
  | .channelWatchdog ch => Sys2Proof.Machine.execChannelWatchdog ch s
  | .barwaitLimitExpiry ctx => Sys2Proof.Machine.execBarwaitLimitExpiry ctx s
  | .vwaitLimitExpiry ctx => Sys2Proof.Machine.execVwaitLimitExpiry ctx s
  | .containment core unreadable => Sys2Proof.Machine.execContainment core unreadable s
  | .linePoisoning line => Sys2Proof.Machine.execLinePoisoning line s
  | .softErrorCorrection pkg hbm count => Sys2Proof.Machine.execSoftErrorCorrection pkg hbm count s
  | .linkFailure pkg link => Sys2Proof.Machine.execLinkFailure pkg link s
  | .linkTraining pkg link peer => Sys2Proof.Machine.execLinkTraining pkg link peer s
  | .eventEntryWrite pkg => Sys2Proof.Machine.execEventEntryWrite pkg s
  | .powerControlPeriod pkg watts => Sys2Proof.Machine.execPowerControlPeriod pkg watts s
  | .thermalThrottle pkg tj => Sys2Proof.Machine.execThermalThrottle pkg tj s
  | .thermalShutdown pkg tj => Sys2Proof.Machine.execThermalShutdown pkg tj s
  | .firmwareVerification pkg => Sys2Proof.Machine.execFirmwareVerification pkg s
  | .firmwareLoad pkg image => Sys2Proof.Machine.execFirmwareLoad pkg image s
  | .spdmRequest pkg request => Sys2Proof.Machine.execSpdmRequest pkg request s
  | .ideKm pkg key => Sys2Proof.Machine.execIdeKm pkg key s
  | .lockInterface pkg => Sys2Proof.Machine.execLockInterface pkg s
  | .startInterface pkg => Sys2Proof.Machine.execStartInterface pkg s
  | .stopInterface pkg => Sys2Proof.Machine.execStopInterface pkg s
  | .ideIntegrityFailure pkg => Sys2Proof.Machine.execIdeIntegrityFailure pkg s
  | .hostMemoryAccess pkg access => Sys2Proof.Machine.execHostMemoryAccess pkg access s
  | .hostRegisterWrite pkg offset value => Sys2Proof.Machine.execHostRegisterWrite pkg offset value s
  | .hostResume pkg value => Sys2Proof.Machine.execHostResume pkg value s
  | .hostAbandon pkg value => Sys2Proof.Machine.execHostAbandon pkg value s
  | .hspawn pkg value => Sys2Proof.Machine.execHspawn pkg value s
  | .pkgcfg pkg value => Sys2Proof.Machine.execPkgcfg pkg value s
  | .evbase pkg value => Sys2Proof.Machine.execEvbase pkg value s
  | .evsize pkg value => Sys2Proof.Machine.execEvsize pkg value s
  | .evhead pkg value => Sys2Proof.Machine.execEvhead pkg value s
  | .dieReset die => Sys2Proof.Machine.execDieReset die s
  | .commandCompletion ctx slot => Sys2Proof.Machine.execCommandCompletion ctx slot s
  | .pciExpressPortTraining pkg width rate => Sys2Proof.Machine.execPciExpressPortTraining pkg width rate s
  | .linkRekeying pkg link => Sys2Proof.Machine.execLinkRekeying pkg link s

end Sys2Proof.Machine
end

