-- ==== Sys2Proof/Machine/Turns.lean ====
section
/-! DEFINITION. What a turn of the agenda does (assumption 3), and the orders in which the accesses of one context reach
memory (R55, R56, R168, R170, R172, R176, R177). `exec` performs an instruction whole. In a HOLD turn an access issues and
is placed later, at a turn of its own or when an instruction needs it placed: the instruction uses a register that it
writes, follows it in preserved program order, or traps (R56). -/

namespace Sys2Proof.Machine

/-! ## What an instruction uses -/

/-- The major opcode of an instruction (R71, R76). -/
def majorOf (i : Instr) : Nat := (encode i).toNat / 2 ^ 26

/-- The low four bits of an instruction word: the code of the vector and matrix groups (R98 to R101). -/
def codeOf (i : Instr) : Nat := (encode i).toNat % 16

/-- The fields d, a, b and c of an instruction word (R72). -/
def fieldD (i : Instr) : BitVec 5 := (encode i).extractLsb' 21 5
def fieldA (i : Instr) : BitVec 5 := (encode i).extractLsb' 16 5
def fieldB (i : Instr) : BitVec 5 := (encode i).extractLsb' 11 5
def fieldC (i : Instr) : BitVec 5 := (encode i).extractLsb' 6 5

/-- The registers from `d` on that a segment access names (R376), one for the other accesses. -/
def segmentOf (i : Instr) : List (BitVec 5) :=
  let n := if codeOf i == 2 then field (encode i).toNat 4 3 + 1 else 1
  (span 0 n).map fun j => fieldD i + BitVec.ofNat 5 j

/-- The fields that may name scalar registers, by major opcode (R72, R76 to R101). -/
def scalarFields (i : Instr) : List (BitVec 5) :=
  let m := majorOf i
  if m == 0x01 || m == 0x0A || m == 0x0D || m == 0x18 || m == 0x19 then [fieldD i, fieldA i, fieldB i, fieldC i]
  else if m == 0x09 || m == 0x14 || m == 0x25 then [fieldD i]
  else if m < 0x1A || m == 0x1C then [fieldD i, fieldA i]
  else if m == 0x1A || m == 0x1B || m == 0x30 then [fieldD i, fieldA i, fieldB i]
  else if m == 0x21 || m == 0x23 || m == 0x24 then [fieldB i]
  else if m == 0x26 then (if codeOf i == 2 || codeOf i == 5 || codeOf i == 6 then [fieldD i, fieldA i, fieldB i] else [])
  else if m == 0x28 || m == 0x29 then [fieldA i, fieldB i]
  else if m == 0x2A || m == 0x2B || m == 0x2C then [fieldA i]
  else []

/-- The fields that may name vector registers, with the registers that follow them. -/
def vectorFields (i : Instr) : List (BitVec 5) :=
  let m := majorOf i
  if m == 0x20 || m == 0x22 || m == 0x24 then [fieldD i, fieldA i, fieldB i]
  else if m == 0x21 || m == 0x23 || m == 0x26 || m == 0x30 then [fieldD i, fieldA i]
  else if m == 0x27 then [fieldD i, fieldD i + 1, fieldA i, fieldB i]
  else if m == 0x28 || m == 0x29 then segmentOf i
  else if m == 0x2A || m == 0x2C then [fieldD i, fieldB i]
  else if m == 0x2B then [fieldD i, fieldD i + 1, fieldB i]
  else []

/-- Instructions that may use any register: RPT, whose words are not its own (R65). -/
def usesScalars (i : Instr) : Bool := majorOf i == 0x1D

/-- Instructions that may use any vector register: RPT, VSETL, which changes how many lanes each has (R59), XSENDV. -/
def usesVectors (i : Instr) : Bool :=
  majorOf i == 0x1C || majorOf i == 0x1D ||
  match i with
  | .xsendv _ _ _ => true
  | _ => false

/-- The tiles, as 0 to 7, and buffers, as 8 and 9, that a matrix instruction uses; MSHAPE uses all. -/
def tilesOf : Instr → List Nat
  | .mshape _ _ _ => span 0 10
  | .mzero t => [t.toNat]
  | .mldb _ _ _ u _ => [8 + u.toNat]
  | .mma _ _ _ t u _ => [t.toNat, 8 + u.toNat]
  | .mst _ _ t => [t.toNat]
  | .mmovTo _ _ t => [t.toNat]
  | .mmovFrom _ _ t => [t.toNat]
  | _ => []

/-- The path of an instruction's accesses as a set of R172: M, X, C, P and O in bits 4 to 0. Instructions that wait for everything before them name all. -/
def pathsOf (i : Instr) : BitVec 5 :=
  let m := majorOf i
  if m == 0x19 then 0b00100#5
  else if m == 0x1B then 0b01000#5
  else if m == 0x0B || m == 0x0C || m == 0x18 || m == 0x1A || (decide (0x28 ≤ m) && decide (m ≤ 0x2C)) then 0b00001#5
  else
    match i with
    | .mldb _ _ _ _ _ => 0b10000#5
    | .mma _ _ _ _ _ _ => 0b10000#5
    | .mst _ _ _ => 0b00001#5
    | .pst _ _ _ => 0b00010#5
    | .pstOrd _ _ _ => 0b00010#5
    | .tspawn _ => 0b00001#5
    | .svfence _ => 0b00001#5
    | .ifence => 0b00001#5
    | .trap _ _ => 0b11111#5
    | .eret => 0b11111#5
    | .brk _ => 0b11111#5
    | .tend => 0b11111#5
    | .tlbinv _ _ _ => 0b11111#5
    | .stflush _ _ => 0b11111#5
    | .stinv _ _ => 0b11111#5
    | _ => if m == 0x0D then 0b00001#5 else 0#5

/-- Which older accesses in flight are placed before an instruction is performed: none, the scalar, the vector or both kinds on path O, the tile fetches, all of its context, all of every context. -/
inductive Need where
  | none | scalar | vector | both | tile | own | every
  deriving DecidableEq, Repr

/-- What a FENCE over a set of paths waits for among the accesses in flight (R172). -/
def fenceNeed (p : BitVec 5) : Need :=
  if p.getLsbD 0 then (if p.getLsbD 4 then .own else .both) else if p.getLsbD 4 then .tile else .none

/-- What a control register access uses that accesses in flight still write or read: FFLAGS is written by them, PTROOT is read (R59, R60). -/
def csrNeed (n : BitVec 10) (writes : Bool) : Need :=
  if n = 0x005#10 || (writes && n = 0x083#10) then .own else .none

/-- What preserved program order, releases and the instruction itself ask for before it is performed (R168, R170, R172, R173, R178, R305, R353). (DESIGN CHOICE, log 9.) -/
def needOf (i : Instr) : Need :=
  let m := majorOf i
  match i with
  | .csrr _ n => csrNeed n false
  | .csrw _ _ n => csrNeed n true
  | .csrset _ _ n => csrNeed n true
  | .csrclr _ _ n => csrNeed n true
  | .fence p _ => fenceNeed p
  | .svfence f => if f.getLsbD 0 then (if f.getLsbD 1 then .both else .scalar) else .vector
  | .ifence => .both
  | .eret => .own
  | .tend => .own
  | .tlbinv _ _ _ => .every
  | .stflush _ _ => .every
  | .stinv _ _ => .every
  | .tspawn _ => .both
  | .barrive _ _ _ => .both
  | .barwait _ _ _ _ => .scalar
  | .hbar _ _ => .both
  | .xsplitRd _ _ _ => .both
  | .xsplitIn _ _ _ => .both
  | .vldx _ _ _ _ _ _ => .vector
  | .pst _ _ _ => .none
  | .pstOrd _ _ _ => .none
  | _ =>
    if m == 0x0B || m == 0x0C || m == 0x0D || m == 0x1A then .scalar
    else if m == 0x28 || m == 0x2C then .vector
    else if m == 0x2B then (if (encode i).getLsbD 5 then .both else .vector)
    else .none

/-! ## Accesses that issue before they are placed -/

/-- A scalar load or atomic, which may be placed later (R55, R168). -/
def scalarLater (i : Instr) : Bool :=
  majorOf i == 0x0B ||
  (majorOf i == 0x0D &&
    match i with
    | .pst _ _ _ => false
    | .pstOrd _ _ _ => false
    | _ => true)

/-- A vector load, a VAMO or a tile fetch, which may be placed later (R168, R176). -/
def vectorLater : Instr → Bool
  | .vld _ _ _ _ _ => true
  | .vlds _ _ _ _ _ => true
  | .vldseg _ _ _ _ _ => true
  | .vldff _ _ _ _ _ => true
  | .vldx _ _ _ _ _ _ => true
  | .mldb _ _ _ _ _ => true
  | .mma _ _ _ _ _ _ => true
  | i => majorOf i == 0x2B

/-- VAMO.rel comes after every older access on path O, VAMO.acq before every younger one (R168, R173). -/
def vamoRel (i : Instr) : Bool := majorOf i == 0x2B && (encode i).getLsbD 5
def vamoAcq (i : Instr) : Bool := majorOf i == 0x2B && (encode i).getLsbD 4

/-- An access of the matrix unit on path M. -/
def Late.isTile (l : Late) : Bool := majorOf l.instr == 0x30

/-- The scalar registers that a later placed access writes. -/
def Late.scalars (l : Late) : List (BitVec 5) :=
  if majorOf l.instr < 0x20 then [fieldD l.instr].filter (· != 0#5) else []

/-- The vector registers that it writes. -/
def Late.vectors (l : Late) : List (BitVec 5) :=
  let m := majorOf l.instr
  if m == 0x28 then segmentOf l.instr else if m == 0x2A || m == 0x2B then [fieldD l.instr] else []

/-- The tiles and buffers that it writes. -/
def Late.tiles (l : Late) : List Nat :=
  match l.instr with
  | .mldb _ _ _ u _ => [8 + u.toNat]
  | .mma _ _ _ t _ _ => [t.toNat]
  | _ => []

/-- An instruction uses what a later placed access writes, so that it waits for it (R55). -/
def usesResult (i : Instr) (l : Late) : Bool :=
  (usesScalars i && !l.scalars.isEmpty) || (usesVectors i && !l.vectors.isEmpty) ||
  (scalarFields i).any l.scalars.contains || (vectorFields i).any l.vectors.contains || (tilesOf i).any l.tiles.contains

/-- The scalar accesses in flight that are placed with their results. -/
def Ctx.again (x : Ctx) : List Late :=
  x.delayed.filterMap fun h => match h with
    | .again l => some l
    | .store _ _ _ => none

/-- The stamps of the vector and matrix instructions in flight, lowest first. -/
def Ctx.vectorStamps (x : Ctx) : List Nat :=
  sortBy (fun a b => decide (a ≤ b)) (dedup (x.vstores.map (·.stamp) ++ x.late.map (·.stamp)))

/-- The translations that an atomic has found, so that it is performed where it has been checked. -/
def pinnedAt (s : State) (who : Who) (vas : List Nat) : List TlbEntry :=
  vas.filterMap fun va =>
    match translate s who .atomic va with
    | .ok pa => some { core := who.core, kind := who.unit, granule := va >>> 16, level := 16, leaf := word (pa - va % 2 ^ 16 + 15) }
    | .error _ => none

/-- The addresses of an atomic's accesses. -/
def atomicAddresses (x : Ctx) (i : Instr) : List Nat :=
  if majorOf i == 0x0D then [(x.reg (fieldA i)).toNat]
  else if majorOf i == 0x2B then
    let m := (encode i).extractLsb' 10 1
    let r := (encode i).extractLsb' 7 3
    (if (encode i).getLsbD 6 then x.actives m r else x.passElems m r).map fun k => x.indexed (fieldA i) (fieldB i) x.width k
  else []

/-- What stands before an access that issues now. (DESIGN CHOICE, log 9.) -/
def lateOf (s : State) (i : Instr) (flags : BitVec 5) : Late :=
  let x := s.me
  { instr := i, pc := x.pc, mode := x.mode, sptroot := x.sptroot, enable := s.myPkg.enable, s := x.s, v := x.v, tag := x.tag, hdr := x.hdr, sup := x.sup, m := x.m, held := x.held,
    vl := x.vl, vcfg := x.vcfg, vstart := x.vstart, vfm := x.vfm, mfmt := x.mfmt, mu := (s.core (coreOf s.cur)).mu,
    stamp := x.newStamp, follows := if scalarLater i then x.sAfter else if vamoRel i then x.newStamp else x.vAfter, flags := flags,
    pinned := pinnedAt s s.who (atomicAddresses x i) }

/-! ## Placing -/

/-- A context with the results of an access taken from another copy of it. -/
def Ctx.takeResults (x y : Ctx) (l : Late) : Ctx :=
  let z := l.scalars.foldl (fun (z : Ctx) d => { z with s := regSet z.s d (regGet y.s d) }) x
  l.vectors.foldl (fun (z : Ctx) d =>
    { z with v := regSet z.v d (regGet y.v d), tag := regSet z.tag d (regGet y.tag d),
             hdr := regSet z.hdr d (regGet y.hdr d), sup := regSet z.sup d (regGet y.sup d) }) z

/-- A matrix unit with the results of a tile fetch taken from another copy of it. -/
def MatrixUnit.takeResults (u v : MatrixUnit) (l : Late) : MatrixUnit :=
  match l.instr with
  | .mldb _ _ _ b _ => { u with bufs := u.bufs.set b.toNat (v.bufs[b.toNat]'b.isLt) b.isLt }
  | .mma _ _ _ t _ _ => { u with tiles := u.tiles.set t.toNat (v.tiles[t.toNat]'t.isLt) t.isLt }
  | _ => u

/-- The state with the results of an access of a context taken from another copy of the domain. -/
def State.takeResults (s t : State) (c : Nat) (l : Late) : State :=
  let u := s.setCtx c ((s.ctx c).takeResults (t.ctx c) l)
  if l.isTile then u.setCore (coreOf c) { u.core (coreOf c) with mu := (u.core (coreOf c)).mu.takeResults (t.core (coreOf c)).mu l } else u

/-- The context without a placed access. -/
def Ctx.placed (x : Ctx) (stamp : Nat) : Ctx :=
  { x with
    delayed := x.delayed.filter fun h => h.stamp != stamp
    late := x.late.filter fun l => l.stamp != stamp }

/-- The features that a package has enabled replaced. -/
def State.withEnable (s : State) (p : Nat) (e : BitVec 12) : State :=
  if (s.pkg p).enable = e then s else s.setPkg p { s.pkg p with enable := e }

/-- The domain as an access meets it that is placed now: its context with the registers, the mode and the features that it had. Its stores that are younger stay in flight. -/
def State.replayed (s : State) (c : Nat) (l : Late) : State :=
  let x := s.ctx c
  let hidden := x.vstores.map fun q => Held.store q.stamp q.follows q.bytes
  let t := { s with cur := c, tlb := l.pinned ++ s.tlb }.setCtx c
    { x with
      pc := l.pc, mode := l.mode, sptroot := l.sptroot, s := l.s, v := l.v, tag := l.tag, hdr := l.hdr, sup := l.sup,
      m := l.m, held := l.held, vl := l.vl,
      vcfg := l.vcfg, vstart := l.vstart, vfm := l.vfm, mfmt := l.mfmt, fflags := 0, stall := [], busy := false,
      quota := none, adone := 0, vstores := [], delayed := x.delayed ++ hidden }
  let t := t.withEnable (pkgOf c) l.enable
  if l.isTile then t.setCore (coreOf c) { t.core (coreOf c) with mu := l.mu } else t

/-- A later access is placed now: performed with the operands and registers it had, and its results written. One that cannot complete now keeps what it read when it issued. (DESIGN CHOICE, log 9.) -/
def State.placeLater (s : State) (c : Nat) (l : Late) : State :=
  let x := s.ctx c
  let after := if scalarLater l.instr then x.afterScalarAt l.stamp else if l.isTile then [] else x.afterVectorAt l.stamp
  let kept := s.setCtx c { x.placed l.stamp with fflags := x.fflags ||| l.flags }
  match exec l.instr (s.replayed c l) with
  | .next u =>
    let z := u.ctx c
    if z.life == x.life && z.mode == l.mode && z.pc == nextPc l.pc 1 then
      let t := { u with cur := s.cur, tlb := u.tlb.filter fun e => !l.pinned.contains e }.withEnable (pkgOf c) (s.pkg (pkgOf c)).enable
      let t := if l.isTile then t.setCore (coreOf c) { t.core (coreOf c) with mu := (s.core (coreOf c)).mu } else t
      let t := (t.setCtx c { x.placed l.stamp with fflags := x.fflags ||| z.fflags }).takeResults u c l
      match after with
      | [a, b] => t.alignPins c a b
      | _ => t
    else kept
  | _ => kept

/-- The lowest stamp in flight of a context. -/
def Ctx.oldest (x : Ctx) : Option Nat :=
  leastBy id ((x.vstores.take 1).map (·.stamp) ++ (x.delayed.take 1).map Held.stamp ++ (x.late.take 1).map (·.stamp))

/-- The instruction in flight with a stamp is placed, of its kind the oldest. -/
def State.placeStamp (s : State) (c n : Nat) : State :=
  let x := s.ctx c
  match x.late.find? (fun l => l.stamp == n), x.delayed.find? (fun h => h.stamp == n) with
  | some l, _ => s.placeLater c l
  | none, some (.again l) => s.placeLater c l
  | none, some (.store _ _ _) => s.settleOne c
  | none, none => s.drainFirst c (headGroup x.vstores).length

/-- Everything in flight of a context is placed, in program order; the fuel bounds it. -/
def State.placeAll (s : State) (c : Nat) : Nat → State
  | 0 => s
  | fuel + 1 =>
    match (s.ctx c).oldest with
    | some k => (s.placeStamp c k).placeAll c fuel
    | none => s

/-- The oldest access in flight among the scalar ones with stamps below `sc` and the vector ones with stamps below `ve`. -/
def Ctx.oldestBelow (x : Ctx) (sc ve : Nat) : Option Nat :=
  leastBy id (((x.delayed.take 1).map Held.stamp).filter (· < sc) ++ ((x.vstores.take 1).map (·.stamp)).filter (· < ve) ++
    ((x.late.filter fun l => !l.isTile).map (·.stamp)).filter (· < ve))

/-- Those accesses are placed, in program order; the fuel bounds them. -/
def State.placeBelow (s : State) (c sc ve : Nat) : Nat → State
  | 0 => s
  | fuel + 1 =>
    match (s.ctx c).oldestBelow sc ve with
    | some k => (s.placeStamp c k).placeBelow c sc ve fuel
    | none => s

/-- Bounds that also take in what the accesses below them follow (R170). -/
def Ctx.closeBounds (x : Ctx) (sc ve : Nat) : Nat → Nat × Nat
  | 0 => (sc, ve)
  | fuel + 1 =>
    let ve' := ((x.delayed.filter fun h => decide (h.stamp < sc)).map Held.follows).foldl max ve
    let sc' := ((x.vstores.filter fun q => decide (q.stamp < ve)).map (·.follows) ++
      (x.late.filter fun l => !l.isTile && decide (l.stamp < ve)).map (·.follows)).foldl max sc
    if sc' = sc && ve' = ve then (sc, ve) else x.closeBounds sc' ve' fuel

/-- How many accesses of a context are in flight, at most. -/
def Ctx.inFlight (x : Ctx) : Nat := x.vstores.length + x.delayed.length + x.late.length

/-- Everything in flight of a context is placed. (DESIGN CHOICE, log 9.) -/
def State.flush (s : State) (c : Nat) : State :=
  let x := s.ctx c
  let t := if x.onlyStores then s.storesDone c else s.placeAll c x.inFlight
  if x.vAfter == 0 && x.sAfter == 0 then t else t.setCtx c { t.ctx c with vAfter := 0, sAfter := 0 }

/-- Everything in flight of every context and of every receive port is placed. (DESIGN CHOICE, log 9.) -/
def State.flushAll (s : State) : State :=
  (s.ctxs.foldl (fun t e => if e.2.noneInFlight then t else t.flush e.1) s).placeAllWrites

/-- The highest of some stamps, plus one. -/
def above (ns : List Nat) : Nat := ns.foldl (fun m n => max m (n + 1)) 0

/-- The oldest of 64 vector instructions in flight, if another joins them: it gives up its entry (R14, R55). -/
def Ctx.queueHead (x : Ctx) (i : Instr) : Option Nat :=
  match x.vectorStamps with
  | n :: rest => if 0x20 ≤ majorOf i && 63 ≤ rest.length then some n else none
  | [] => none

/-- The stamps below which scalar and vector accesses in flight are placed before an instruction is performed: what it needs, whose results it uses, and what those follow. (DESIGN CHOICE, log 9.) -/
def placeBounds (x : Ctx) (i : Instr) (need : Need) : Nat × Nat :=
  let n := x.newStamp
  let first : Nat × Nat := match need with
    | .scalar => (n, x.sAfter)
    | .vector => (x.vAfter, n)
    | .both => (n, n)
    | .none => (0, 0)
    | .tile => (0, 0)
    | .own => (n, n)
    | .every => (n, n)
  let scalars := above ((x.again.filter (usesResult i)).map (·.stamp))
  let vectors := above ((x.late.filter fun l => !l.isTile && usesResult i l).map (·.stamp))
  let full := match x.queueHead i with
    | some k => k + 1
    | none => 0
  x.closeBounds (max first.1 scalars) (max (max first.2 vectors) full) x.inFlight

/-- Tile fetches that come before an instruction is performed: all, those whose results it uses, or the oldest of a full queue. -/
def tilesFirst (x : Ctx) (i : Instr) (need : Need) : List Late :=
  x.late.filter fun l => l.isTile && (need == .tile || usesResult i l || x.queueHead i == some l.stamp)

/-- Everything is placed that an instruction waits for (R55, R168, R170). (DESIGN CHOICE, log 9.) -/
def State.prepare (s : State) (c : Nat) (i : Instr) (need : Need) : State :=
  if need == .every then s.flushAll
  else if need == .own then s.flush c
  else
    let x := s.ctx c
    if x.noneInFlight then s
    else
      let b := placeBounds x i need
      ((tilesFirst x i need).foldl (fun t l => t.placeLater c l) s).placeBelow c b.1 b.2 x.inFlight

/-! ## Fences that are waited for while other accesses go on (R172) -/

/-- Accesses in flight that a fence waits for: scalar and vector ones on path O, tile fetches on path M (R172). -/
def Ctx.awaits (x : Ctx) (p : BitVec 5) : Bool :=
  (p.getLsbD 0 && !(x.delayed.isEmpty && x.vstores.isEmpty && x.late.all (·.isTile))) || (p.getLsbD 4 && x.late.any (·.isTile))

/-- A fence that accesses have gone past still waits. -/
def fenceOpen (s : State) (c : Nat) (p : BitVec 5) : Bool := (s.ctx c).awaits p || fenceWaits s c p

/-- Fences of a context whose accesses are performed now end: later reads on their paths stand no earlier than here. (DESIGN CHOICE, log 9.) -/
def State.endFences (s : State) (c : Nat) : State :=
  let x := s.ctx c
  if x.fences.isEmpty then s
  else
    let done := x.fences.filter fun p => !fenceOpen s c p
    done.foldl (fun t p => t.closePins c (fenceStreams p)) (s.setCtx c { x with fences := x.fences.filter fun p => fenceOpen s c p })

/-- The accesses in flight that fences wait for are placed, and fences that wait for nothing else end. (DESIGN CHOICE, log 9.) -/
def State.serveFences (s : State) (c : Nat) : State :=
  let x := s.ctx c
  (x.fences.foldl (fun t p => t.prepare c (.fence p 0) (fenceNeed p)) s).endFences c

/-- A fence that is still waited for holds the accesses of an instruction (R172). -/
def Ctx.fenced (x : Ctx) (i : Instr) : Bool := x.fences.any fun p => p &&& pathsOf i != 0#5

/-! ## Issue -/

/-- An instruction has gone on: its context runs as before, elsewhere in the program, in a BARWAIT or VWAIT that goes on reading, or a step further in a SISECT or SMERGE. -/
def wentOn (before after : Ctx) : Bool :=
  after.life == .running && after.mode == before.mode && after.tid == before.tid &&
  (after.pc != before.pc || after.waited.isSome || (after.looping && after.s != before.s))

/-- An instruction that traps or waits does so once everything older is placed (R56); while a fence is waited for it does not yet. -/
def State.atPointer (s : State) (i : Instr) : Host.Outcome State Fault Refusal :=
  let t := (s.flush s.cur).endFences s.cur
  if t.me.fences.isEmpty then exec i t else .next t

/-- TRAP n completes and orders no access (R353). -/
def isTrap : Instr → Bool
  | .trap _ _ => true
  | _ => false

/-- An instruction is performed whole, after what it waits for. With nothing in flight that is `exec`. (DESIGN CHOICE, log 9.) -/
def perform (i : Instr) (s : State) : Host.Outcome State Fault Refusal :=
  if s.me.noneInFlight && s.me.fences.isEmpty && needOf i != .every then exec i s
  else
    let t := s.prepare s.cur i (needOf i)
    if t.me.noneInFlight && t.me.fences.isEmpty then exec i t
    else
      match exec i t with
      | .next u => if wentOn t.me u.me || isTrap i then .next u else t.atPointer i
      | o => o

/-- The instruction of a RUN turn: one that a fence holds comes once what the fence waits for is performed (R172). -/
def runNow (i : Instr) (s : State) : Host.Outcome State Fault Refusal :=
  if s.me.fenced i then
    let t := s.serveFences s.cur
    if t.me.fenced i then .next t else perform i t
  else perform i s

/-- An access issues and is placed later: it is tried after everything older, and goes on with what that gives until it is placed. One that traps or waits is performed at once. (DESIGN CHOICE, log 9.) -/
def State.issueLater (s : State) (i : Instr) : Host.Outcome State Fault Refusal :=
  let t := s.prepare s.cur i .none
  let x := t.me
  let trial := t.flush s.cur
  match exec i (trial.setMe { trial.me with fflags := 0 }) with
  | .next u =>
    let y := u.me
    if wentOn x y && (atomicAddresses x i).all (!inWindow ·) then
      let l := { lateOf t i y.fflags with vl := y.vl }
      let z := { x with pc := y.pc, vl := y.vl, vfm := y.vfm, vstart := y.vstart, stall := [], busy := false,
                        sAfter := if vamoAcq i then l.stamp + 1 else x.sAfter }
      let z := if scalarLater i then { z with delayed := z.delayed ++ [.again l] } else { z with late := z.late ++ [l] }
      .next ({ t.setMe z with free := u.free }.takeResults u s.cur l)
    else runNow i s
  | _ => runNow i s

/-- FENCE in a HOLD turn (R172): while what it waits for is still to be performed, accesses on other paths go on. (DESIGN CHOICE, log 9.) -/
def holdFence (p : BitVec 5) (sc : BitVec 3) (s : State) : Host.Outcome State Fault Refusal :=
  if p.getLsbD 1 && !s.myPkg.enable.getLsbD 6 then runNow (.fence p sc) s
  else
    let u := s.setMe { s.me.advance with fences := s.me.fences ++ [p] }
    .next (u.endFences u.cur)

/-- SVFENCE in a HOLD turn (R170): later accesses of the one kind are placed after the earlier ones of the other, which stay in flight. (DESIGN CHOICE, log 9.) -/
def holdSvfence (f : BitVec 2) (s : State) : Host.Outcome State Fault Refusal :=
  let x := s.me
  let t := s.setMe { x.advance with
    vAfter := if f.getLsbD 0 then x.newStamp else x.vAfter
    sAfter := if f.getLsbD 1 then x.newStamp else x.sAfter }
  let t := if f.getLsbD 0 then t.alignPins t.cur .scalar .vector else t
  .next (if f.getLsbD 1 then t.alignPins t.cur .vector .scalar else t)

/-- A step of SMERGE whose store is placed later (R168). One that traps, waits or ends is performed at once. (DESIGN CHOICE, log 9.) -/
def holdSmerge (d a b : BitVec 5) (s : State) : Host.Outcome State Fault Refusal :=
  let t := s.prepare s.cur (.smerge d a b) .scalar
  match delaySmerge d a b t with
  | .next u => if wentOn t.me u.me then .next u else runNow (.smerge d a b) s
  | _ => runNow (.smerge d a b) s

/-- The instruction of a HOLD turn: an access issues and is placed later, a fence lets accesses on other paths go on; any other runs as it does in a RUN turn. (DESIGN CHOICE, log 9.) -/
def runHeld (i : Instr) (s : State) : Host.Outcome State Fault Refusal :=
  if s.me.fenced i && (match i with | .fence _ _ => false | _ => true) then .next s
  else
    match i with
    | .st d a o w =>
      let t := s.prepare s.cur i .none
      match delaySt d a o w t with
      | .next u => if wentOn t.me u.me then .next u else runNow i s
      | _ => runNow i s
    | .svfence f => holdSvfence f s
    | .fence p sc => holdFence p sc s
    | .smerge d a b => holdSmerge d a b s
    | i => if (scalarLater i || vectorLater i) && s.me.adone == 0 then s.issueLater i else runNow i s

/-! ## Turns -/

/-- What stands in place of the next instruction comes once everything older is placed (R56); while a fence is waited for it does not come yet. -/
def State.whenDone (s : State) (t : State → State) : Host.Outcome State Fault Refusal :=
  let u := (s.flush s.cur).endFences s.cur
  .next (if u.me.fences.isEmpty then t u else u)

/-- One instruction of the context whose turn it is: what is due at the boundary, otherwise the instruction at the program counter; none on a core that is taken out (R264). (DESIGN CHOICE, log 3.) -/
def runOne (s : State) (hold : Bool) : Host.Outcome State Fault Refusal :=
  let s := s.endFences s.cur
  if (s.core (coreOf s.cur)).out then .next s
  else if s.me.life != .running then .next (s.idleTurn s.cur)
  else
    match s.boundary s.cur with
    | some _ => s.whenDone fun u => (u.boundary u.cur).getD u
    | none =>
      match s.nextInstr with
      | .error _ => s.whenDone fun u =>
          match u.nextInstr with
          | .error t => t
          | .ok _ => u
      | .ok (i, t) => if hold then runHeld i t else runNow i t

/-- PART turn: only so many elements of a VSTX.ord or VAMO are performed in the context's step (R164, R243). (DESIGN CHOICE, log 9.) -/
def runPart (s : State) (n : Nat) : Host.Outcome State Fault Refusal :=
  match runOne (s.setMe { s.me with quota := some n }) false with
  | .next t => .next (t.setCtx s.cur { t.ctx s.cur with quota := none })
  | o => o

/-- DRAIN turn: piece `n` of the oldest queued vector store of a context is performed, unless it follows an access that is not yet placed (R131, R164, R168, R170). (DESIGN CHOICE, log 9.) -/
def State.drainTurn (s : State) (c n : Nat) : State :=
  let x := s.ctx c
  match x.vstores with
  | q :: _ =>
    if x.late.any (fun l => !l.isTile && decide (l.stamp < q.stamp)) || x.delayed.any (fun h => decide (h.stamp < q.follows)) then s
    else s.drainOne c n
  | [] => s

/-- SETTLE turn: the oldest delayed scalar access of a context is placed, unless it follows a vector access that is not (R168, R170). (DESIGN CHOICE, log 9.) -/
def State.settleTurn (s : State) (c : Nat) : State :=
  let x := s.ctx c
  match x.delayed with
  | h :: _ =>
    if x.vstores.any (fun q => decide (q.stamp < h.follows)) || x.late.any (fun l => !l.isTile && decide (l.stamp < h.follows)) then s
    else
      match h with
      | .store _ _ _ => s.settleOne c
      | .again l => s.placeLater c l
  | [] => s

/-- LATE turn: vector or tile access `k` of those that a context has still to place is placed, unless it follows another that is not; tile fetches follow none (R168, R170, R176). (DESIGN CHOICE, log 9.) -/
def State.lateTurn (s : State) (c k : Nat) : State :=
  let x := s.ctx c
  match x.late[k]? with
  | some l =>
    if !l.isTile && ((x.late.take k).any (fun o => !o.isTile) || x.vstores.any (fun q => decide (q.stamp < l.stamp)) ||
        x.delayed.any (fun h => decide (h.stamp < l.follows))) then s
    else s.placeLater c l
  | none => s

/-- PIN turn: a moment begins at which later reads of a running context may still stand (R169, R175 to R177). (DESIGN CHOICE, log 9.) -/
def State.pinTurn (s : State) (c : Nat) : State := if (s.ctx c).life == .running then s.newPin c else s

/-- ENTRY turn: a context caches the entry of a resident page of its stash (R139). (DESIGN CHOICE, log 17.) -/
def State.cacheEntry (s : State) (c : Nat) (page : BitVec 14) : State :=
  let x := s.ctx c
  let who : Who := { core := coreOf c, unit := .core, mode := x.mode, path := .o, ctx := c, sptroot := x.sptroot, waits := [], since := s.clock }
  match (readEntry who (pageVa page)).run s with
  | (.ok (entry, e), _) =>
    if e % 4 == 1 && x.life != .idle then
      { s with spt := { ctx := c, entry := entry, value := e } :: s.spt.filter fun p => !(p.ctx == c && p.entry == entry) }
    else s
  | _ => s

/-- The rows of the table that are no instruction words: what the machine, its units or the host do. (DESIGN CHOICE, log 3.) -/
def isEvent : Instr → Bool
  | .entrySelection _ | .lookAhead _ | .preemption _ _ | .fullSwitch _ | .reclaimFallback _ | .taskBudgetExceeded _ | .trapEntry _
  | .pageTableWalk _ _ _ | .walkStalled _ | .sptEntryBusyTimeout _ | .stashFill _ _ | .stashLineFill _ _ _ | .pull _ _ | .copyCountStep _ _
  | .commandCompletionArrival _ _ | .engineFault _ _ | .postedStorePerform _ | .postedStoreAcknowledgement _ | .sendPortHandover _ _
  | .mergePointForward _ _ | .recordDelivery _ _ | .consumedPoll _ _ | .roundCompletion _ _ | .deliveryRetry _ _ | .sieveClose _
  | .channelWatchdog _ | .barwaitLimitExpiry _ | .vwaitLimitExpiry _ | .containment _ _ | .linePoisoning _ | .softErrorCorrection _ _ _
  | .linkFailure _ _ | .linkTraining _ _ _ | .eventEntryWrite _ | .powerControlPeriod _ _ | .thermalThrottle _ _ | .thermalShutdown _ _
  | .firmwareVerification _ | .firmwareLoad _ _ | .spdmRequest _ _ | .ideKm _ _ | .lockInterface _ | .startInterface _ | .stopInterface _
  | .ideIntegrityFailure _ | .hostMemoryAccess _ _ | .hostRegisterWrite _ _ _ | .hostResume _ _ | .hostAbandon _ _ | .hspawn _ _ | .pkgcfg _ _
  | .evbase _ _ | .evsize _ _ | .evhead _ _ | .dieReset _ | .commandCompletion _ _ | .pciExpressPortTraining _ _ _ | .linkRekeying _ _ => true
  | _ => false

/-- Events that may stop, switch or change a context, or change what its accesses reach: they come after what is in flight. (DESIGN CHOICE, log 9.) -/
def settlesFirst : Instr → Bool
  | .fullSwitch _ | .taskBudgetExceeded _ | .trapEntry _ | .pull _ _ | .barwaitLimitExpiry _ | .vwaitLimitExpiry _
  | .containment _ _ | .linePoisoning _ | .linkFailure _ _ | .linkTraining _ _ _ | .thermalThrottle _ _ | .thermalShutdown _ _
  | .lockInterface _ | .startInterface _ | .stopInterface _ | .ideIntegrityFailure _ | .hostRegisterWrite _ _ _ | .hostResume _ _
  | .hostAbandon _ _ | .pkgcfg _ _ | .dieReset _ => true
  | _ => false

/-- The context at whose instruction boundary an event acts. -/
def boundaryOf : Instr → Option Nat
  | .fullSwitch c => some c
  | .reclaimFallback c => some c
  | .taskBudgetExceeded c => some c
  | .trapEntry c => some c
  | .walkStalled c => some c
  | .sptEntryBusyTimeout c => some c
  | .barwaitLimitExpiry c => some c
  | .vwaitLimitExpiry c => some c
  | _ => none

/-- No boundary of a context comes on a core that is taken out (R264), nor while a fence that it has gone past is waited for (R56, R172). -/
def noBoundary (s : State) (c : Nat) : Bool := (s.core (coreOf c)).out || !(s.ctx c).fences.isEmpty

/-- An event of the agenda. -/
def runEvent (i : Instr) (s : State) : Host.Outcome State Fault Refusal :=
  if !isEvent i then .next s
  else
    let t := if settlesFirst i then s.flushAll else s
    match boundaryOf i with
    | some c =>
      let u := t.endFences c
      if noBoundary u c then .next u else exec i u
    | none => exec i t

/-- One turn of the agenda. (DESIGN CHOICE, log 3.) -/
def runTurn (s : State) (t : Turn) : Host.Outcome State Fault Refusal :=
  match t with
  | .run c => runOne { s with cur := c } false
  | .hold c => runOne { s with cur := c } true
  | .part c n => runPart { s with cur := c } n
  | .event i => runEvent i s
  | .elapse n => .next (s.elapse n)
  | .drain c n => .next (s.drainTurn c n)
  | .settle c => .next (s.settleTurn c)
  | .late c k => .next (s.lateTurn c k)
  | .unit c slot pos => .next (if commandRuns s c then s.copyAhead c slot pos else s)
  | .keep c slot => .next (if commandRuns s c then s.copyKeep c slot else s)
  | .orphan n => .next (s.orphanTurn n)
  | .deliver ch d => .next (s.deliverTurn ch d)
  | .place ch d n => .next (s.placeTurn ch d n)
  | .pin c => .next (s.pinTurn c)
  | .sread ch slot => .next (s.portReads ch slot)
  | .retry n => .next (s.retryRerun n)
  | .look c => .next { s with cur := c }
  | .entry c page => .next (s.cacheEntry c page)
  | .prefetch c a => .next (s.prefetch c a)

/-- The end of a step: watchdogs that have reached their limit end their rounds (R199). -/
def afterTurn : Host.Outcome State Fault Refusal → Host.Outcome State Fault Refusal
  | .next s => .next s.watchdogs
  | o => o

end Sys2Proof.Machine
end

