-- ==== Sys2Proof/Machine/Step.lean ====
section
/-! DEFINITION. One step of the machine: the next turn of the agenda, or one instruction of the context whose turn it
is (assumption 3); and how the host places one instruction. -/

namespace Sys2Proof.Machine

/-- One step: the agenda first, then the context whose turn it is. (DESIGN CHOICE, log 3.) -/
def step (s : State) : Host.Outcome State Fault Refusal :=
  afterTurn (match s.agenda with
    | t :: rest => runTurn { s with agenda := rest } t
    | [] => runOne s false)

/-- The state with an instruction placed so that the next step runs it (assumption 6). (DESIGN CHOICE, log 6.) -/
def State.withFetchWord (s : State) (nbits w : Nat) : State := s.placeWord nbits w

end Sys2Proof.Machine
end

