-- ==== Sys2Proof/Certificates/Slice0/Obligations.lean ====
section
/-! DEFINITION. The statements for the provers, each `def Obligations.<Name> : Prop`. Where a statement rests on a choice
of the model, its docstring says so and names the assumption. The vocabulary stands in `Sys2Proof.Claims`. -/

namespace Sys2Proof.Claims

open Sys2Proof.Machine

/-! ## Vocabulary -/

/-- Two states with the same bytes at every place: memory and stash frames. -/
def SameBytes (s t : State) : Prop := ∀ l : Loc, t.locByte l = s.locByte l

/-- Only the record of the context whose turn it is differs. -/
def OnlyMe (s t : State) : Prop := t = { s with ctxs := t.ctxs } ∧ ∀ c, c ≠ s.cur → t.ctx c = s.ctx c

/-- The context's record after an instruction that wrote scalar register d and nothing else. -/
def RegSet (x y : Ctx) (d : BitVec 5) (v : Word) : Prop :=
  y = { x with s := y.s, pc := nextPc x.pc 1, stall := [], busy := false } ∧
    y.reg d = (if d = 0#5 then 0#64 else v) ∧ ∀ r, r ≠ d → y.reg r = x.reg r

/-- From `t`, the context moves on with scalar register d holding v, and nothing else differs. -/
def Wrote (t u : State) (d : BitVec 5) (v : Word) : Prop := OnlyMe t u ∧ SameBytes t u ∧ RegSet t.me u.me d v

/-- The instruction completes at `s`: scalar register d holds v (s0 keeps reading zero, and a write to it changes nothing), the
program counter is at the next word, and nothing else differs: no other register, flag, mask, tag or control register of
the context, no other context, no byte of memory. `stall` and `busy` are the model's marks of a wait and no registers. -/
def Gives (i : Instr) (s : State) (d : BitVec 5) (v : Word) : Prop := ∃ t, exec i s = .next t ∧ Wrote s t d v

/-- The number that bytes make, the lowest first (R2). -/
def leNat (bs : List Byte) : Nat := bs.foldr (fun b n => b.toNat + 256 * n) 0

/-- The lowest n bytes of a number, the lowest first (R2). -/
def leBytes (n v : Nat) : List Byte := (List.range n).map fun k => BitVec.ofNat 8 (v / 256 ^ k)

/-- A place that exists: a physical address, or a byte of a frame that holds a page. -/
def Holds (s : State) : Loc → Prop
  | .phys _ => True
  | .frame k i o => o < 4096 ∧ ((s.core k).frame i).isSome

/-- Beside memory, frames, poison, the contexts and what the model keeps for past moments and commands' sources (assumptions 9 and 33), a
step changes nothing, but that a write into the rings of a die's queues corrupts them (R266). -/
def OnlyMemory (t u : State) : Prop :=
  u = { t with mem := u.mem, poison := u.poison, cores := u.cores, ctxs := u.ctxs, pins := u.pins, sources := u.sources, dies := u.dies } ∧
  (∀ k, (u.core k).mu = (t.core k).mu) ∧ ∀ d, u.die d = { t.die d with corrupted := (u.die d).corrupted }

/-- From `t`, the bytes `bs` are stored at the places `ls`, which read as `bs` afterwards; every other place reads as before, and
beside memory, frames, poison and the context's own record nothing differs. -/
def Stored (t u : State) (ls : List Loc) (bs : List Byte) : Prop :=
  OnlyMemory t u ∧ (∀ c, c ≠ t.cur → u.ctx c = t.ctx c) ∧ (∀ l, l ∉ ls → u.locByte l = t.locByte l) ∧
  ∀ p ∈ ls.zip bs, Holds t p.1 → u.locByte p.1 = p.2

/-- The bytes that a read of the places `ls` at the address `va` may take: those that stand there, or those of a past moment that is not
over for the stream (R169, R175 to R177; the moments are the model's form of this choice, assumption 9). Free choices may have been made before. -/
def MayTake (t : State) (who : Who) (st : Stream) (va : Nat) (ls : List Loc) (bs : List Byte) : Prop :=
  bs = ls.map t.locByte ∨ ∃ p ∈ t.pins, p.isOpen st = true ∧ ∃ n, pastBytes { t with free := n } who va ls p = some bs

/-- Every past moment is over for a stream of a context, so that its reads take what stands at their places (assumption 9). -/
def Present (t : State) (c : Nat) (st : Stream) : Prop := ∀ p ∈ t.pins, p.ctx = c → p.isOpen st = false

/-- The instruction waits for something other than an entry (R158): its context stays where it is, and keeps no mark of an earlier wait. -/
def Waits (i : Instr) (s : State) : Prop :=
  exec i s = .next (if s.me.busy = true ∨ s.me.stall ≠ [] then s.setMe { s.me with stall := [], busy := false } else s)

/-- Two records of a context differ at most in where bytes lie that its commands have performed ahead of others (R296): a page of the stash has moved. -/
def SameButAhead (x y : Ctx) : Prop := ∃ f, y = x.mapAhead f

/-- The instruction traps at the commit pointer (R252, R254) and has no other effect. -/
def Traps (i : Instr) (s : State) (cause : BitVec 10) (info : Word) : Prop :=
  exec i s = .next (s.trapNow cause info noInfo)

/-- A global address translates for an access, and the address reached is populated; it lies at `pa` in memory, where bits [56:48] are the
index of the package (assumption 63). Nothing cached on the way fails, so that nothing is discarded (R153 to R156). -/
def Leads (s : State) (who : Who) (kind : Access) (va pa : Nat) : Prop :=
  cacheFails s who kind va = false ∧ ∃ a, translate s who kind va = .ok a ∧ physical s (pkgOfCore who.core) a = some pa

/-- `n` bytes of one line at the global address `va` can be accessed, and lie at `pa` in memory (R153 to R156, R265). -/
def Mapped (s : State) (who : Who) (kind : Access) (va n pa : Nat) : Prop :=
  va < 2 ^ 55 ∧ 0 < n ∧ va % 64 + n ≤ 64 ∧ Leads s who kind va pa ∧ (kind = .write ∨ poisoned s pa = false)

/-- The `n` bytes at a physical address, as a number. -/
def physNat (s : State) (pa n : Nat) : Nat := leNat ((List.range n).map fun k => s.locByte (.phys (pa + k)))

/-- The bytes `bs` stand at a physical address after a step from `s` to `t`, and every other place reads as before. -/
def PutAt (s t : State) (pa : Nat) (bs : List Byte) : Prop :=
  (∀ k, ∀ h : k < bs.length, t.locByte (.phys (pa + k)) = bs[k]) ∧
  ∀ l, (∀ k, k < bs.length → l ≠ .phys (pa + k)) → t.locByte l = s.locByte l

/-- An address at which an instruction can stand (R49). -/
def PcForm (a : Word) : Prop := a.toNat % 4 = 0 ∧ a.toNat < 2 ^ 55

/-- The value of a finite pattern of a format, from its sign, exponent and fraction (R104). -/
def fpValue (f : Fmt) (x : Nat) : ℚ :=
  let e := x / 2 ^ f.fb % 2 ^ f.eb
  let m : ℚ := (x % 2 ^ f.fb : Nat)
  let mag : ℚ := if e = 0 then m / 2 ^ f.fb * 2 ^ f.emin else (1 + m / 2 ^ f.fb) * 2 ^ ((e : Int) - f.bias)
  if x / 2 ^ (f.eb + f.fb) % 2 = 1 then -mag else mag

/-- A pattern of a format that is neither infinite nor a NaN. -/
def FpFinite (f : Fmt) (x : Nat) : Prop := x < 2 ^ f.width ∧ x / 2 ^ f.fb % 2 ^ f.eb ≠ 2 ^ f.eb - 1

/-- A result that rounds the exact value q, which is not zero, once to a format (R105 to R107). A tiny value is flushed to the zero of its sign where
`flush` holds; an overflow gives the infinity or the largest finite value that the mode and the sign give; any other result is the finite value that
the mode chooses: to nearest, ties to even, or the best bound on its side. The flags are those of R109. -/
def Rounded (f : Fmt) (rm : Rm) (flush : Bool) (q : ℝ) (r : FpResult) : Prop :=
  let val (x : Nat) : ℝ := (fpValue f x : ℝ)
  let sign : Nat := if q < 0 then 2 ^ (f.eb + f.fb) else 0
  let inf : Nat := (2 ^ f.eb - 1) * 2 ^ f.fb
  let largest := val (inf - 1)
  let next := largest + (largest - val (inf - 2))
  let tiny : Prop := |q| < (2 : ℝ) ^ f.emin
  let exceeds : Prop := match rm with
    | .rne => (largest + next) / 2 ≤ |q|
    | .rtz => next ≤ |q|
    | .rdn => if 0 ≤ q then next ≤ q else q < -largest
    | .rup => if 0 ≤ q then largest < q else q ≤ -next
  let toInf : Prop := rm = .rne ∨ (rm = .rdn ∧ q < 0) ∨ (rm = .rup ∧ 0 ≤ q)
  (flush = true → tiny → r = (sign, 0b00011#5)) ∧
  (exceeds → (toInf → r = (sign + inf, 0b00101#5)) ∧ (¬toInf → r = (sign + inf - 1, 0b00101#5))) ∧
  (¬(flush = true ∧ tiny) → ¬exceeds →
    FpFinite f r.1 ∧ (r.1.testBit (f.eb + f.fb) = true ↔ q < 0) ∧
    (match rm with
      | .rne => ∀ w, FpFinite f w → |val r.1 - q| ≤ |val w - q| ∧ (|val w - q| = |val r.1 - q| → val w ≠ val r.1 → r.1 % 2 = 0)
      | .rtz => |val r.1| ≤ |q| ∧ ∀ w, FpFinite f w → |val w| ≤ |q| → |val w| ≤ |val r.1|
      | .rdn => val r.1 ≤ q ∧ ∀ w, FpFinite f w → val w ≤ q → val w ≤ val r.1
      | .rup => q ≤ val r.1 ∧ ∀ w, FpFinite f w → q ≤ val w → val r.1 ≤ val w) ∧
    (val r.1 = q → r.2 = 0) ∧ (val r.1 ≠ q → tiny → r.2 = 0b00011#5) ∧ (val r.1 ≠ q → ¬tiny → r.2 = 0b00001#5))

/-- The integer that a value rounds to (R105, R111). -/
def RoundsToInt (rm : Rm) (q : ℚ) (n : ℤ) : Prop :=
  match rm with
  | .rne => |q - n| ≤ 1 / 2 ∧ (|q - n| = 1 / 2 → n % 2 = 0)
  | .rtz => n = if 0 ≤ q then ⌊q⌋ else ⌈q⌉
  | .rdn => n = ⌊q⌋
  | .rup => n = ⌈q⌉

/-- The result of a scalar floating-point instruction: register d and FFLAGS, nothing else (R307). -/
def GivesFp (i : Instr) (s : State) (d : BitVec 5) (r : FpResult) : Prop :=
  ∃ t, exec i s = .next t ∧ OnlyMe s t ∧ SameBytes s t ∧
    t.me = { s.me with s := t.me.s, pc := nextPc s.me.pc 1, stall := [], busy := false, fflags := s.me.fflags ||| r.2 } ∧
    t.me.reg d = (if d = 0#5 then 0#64 else BitVec.ofNat 64 r.1) ∧ ∀ q, q ≠ d → t.me.reg q = s.me.reg q

/-- The port has still to read records of a queued send operation (R172). -/
def Unread (o : SendOp) : Prop :=
  match o.kind with
  | .xsend _ n done => done < n.toNat
  | .xsendM _ _ _ rest => rest = true
  | .xend => False

/-- A status entry is due for an operation of task t in slot i (R185): the port can write it with no record to hand over first (assumption 31). -/
def EntryDue (ch : Channel) (i : Nat) (x : Slot) (t : Nat) : Prop :=
  (ch.state = .aborted ∧ ∃ o ∈ x.queue, o.tid = t) ∨
  (ch.state = .bound ∧ ∃ o, x.queue.head? = some o ∧ o.tid = t ∧ o.ahead = [] ∧ ¬Unread o ∧
    (o.kind = .xend →
      (o.core = x.core ∧ ∀ p ∈ ch.points, p.node = .leaf x.core → ∀ m ∈ p.inputs, m.source = .slot i → m.isEnded = false) ∨
      (o.core ≠ x.core ∧ leafTakesMove i o.core ((ch.group.map fun g => (x.round - g.round0).toNat).getD 0) ch.points = true)))

/-- The task of context c has work outstanding on the paths P, C or X of a set (R172): posted stores without acknowledgement, commands in slots,
records that a port has still to read, also on channels unbound since; with O and X, a status entry that a port can write (R185). -/
def Outstanding (s : State) (c : Nat) (p : BitVec 5) : Prop :=
  (p.getLsbD 1 = true ∧ ∃ q ∈ s.posted, q.tid = (s.ctx c).tid) ∨
  (p.getLsbD 2 = true ∧ ∃ j : Fin 8, (s.ctx c).cmds[j] ≠ none) ∨
  (p.getLsbD 3 = true ∧ ∃ e ∈ s.chans, ∃ k : Fin 16, ∃ x ∈ (e.2[k]).slots, ∃ o ∈ x.queue, o.tid = (s.ctx c).tid ∧ Unread o) ∨
  (p.getLsbD 0 = true ∧ p.getLsbD 3 = true ∧
    ∃ e ∈ s.chans, ∃ k : Fin 16, ∃ i x, (e.2[k]).slots[i]? = some x ∧ EntryDue e.2[k] i x (s.ctx c).tid)

/-- The context's record after a trap entry of R252 from record x: the handler's address, the saved registers; the model's marks of waits are dropped. -/
def Entered (x : Ctx) (cause : BitVec 10) (info ret : Word) : Ctx :=
  { x with
    mode := .supervisor, pc := x.tvec, tepc := ret, cause := cause, async := false, tinfo := info, svl := x.vl, svcfg := x.vcfg
    waited := none, vdone := 0, stall := [], ending := false, looping := false, rpt := [], quota := none, adone := 0, busy := false }

end Sys2Proof.Claims

open Sys2Proof Sys2Proof.Machine Sys2Proof.Claims

/-! ## Scalar integer instructions -/

/-- R282, R302, R102, R103: sums, differences, products, quotients and remainders, as integers reduced modulo 2^64; comparisons give 1
or 0, minimum and maximum one of the sources, read signed or unsigned. -/
def Obligations.ScalarArithmetic : Prop :=
  (∀ (d a b : BitVec 5) (s : State),
  let x := s.me.reg a
  let y := s.me.reg b
  Gives (.add d a b) s d (BitVec.ofNat 64 (x.toNat + y.toNat)) ∧
  Gives (.sub d a b) s d (BitVec.ofInt 64 (x.toInt - y.toInt)) ∧
  Gives (.mul d a b) s d (BitVec.ofInt 64 (x.toInt * y.toInt)) ∧
  Gives (.mulh d a b) s d (BitVec.ofInt 64 (x.toInt * y.toInt / 2 ^ 64)) ∧
  Gives (.mulhu d a b) s d (BitVec.ofNat 64 (x.toNat * y.toNat / 2 ^ 64)) ∧
  Gives (.div d a b) s d (if y = 0 then BitVec.ofInt 64 (-1) else BitVec.ofInt 64 (x.toInt.tdiv y.toInt)) ∧
  Gives (.divu d a b) s d (if y = 0 then BitVec.ofInt 64 (-1) else BitVec.ofNat 64 (x.toNat / y.toNat)) ∧
  Gives (.rem d a b) s d (if y = 0 then x else BitVec.ofInt 64 (x.toInt.tmod y.toInt)) ∧
  Gives (.remu d a b) s d (if y = 0 then x else BitVec.ofNat 64 (x.toNat % y.toNat))) ∧
  (∀ (d a b : BitVec 5) (s : State),
  let x := s.me.reg a
  let y := s.me.reg b
  Gives (.slt d a b) s d (if x.toInt < y.toInt then 1 else 0) ∧
  Gives (.sltu d a b) s d (if x.toNat < y.toNat then 1 else 0) ∧
  Gives (.min d a b) s d (BitVec.ofInt 64 (min x.toInt y.toInt)) ∧
  Gives (.max d a b) s d (BitVec.ofInt 64 (max x.toInt y.toInt)) ∧
  Gives (.minu d a b) s d (BitVec.ofNat 64 (min x.toNat y.toNat)) ∧
  Gives (.maxu d a b) s d (BitVec.ofNat 64 (max x.toNat y.toNat)))

/-- R282, R291, R299, R340, R343, R354: bitwise operations and shifts, bit by bit (a shift uses bits [5:0] of its amount); the counts of
zero bits above the highest and below the lowest set bit and of set bits; extensions, the conditional select, the task's record address. -/
def Obligations.ScalarBits : Prop :=
  (∀ (d a b : BitVec 5) (s : State),
  let x := s.me.reg a
  let y := s.me.reg b
  let n := y.toNat % 64
  let bits (f : Nat → Bool) : Word := BitVec.ofFnLE fun k : Fin 64 => f k.val
  Gives (.and d a b) s d (bits fun k => x.getLsbD k && y.getLsbD k) ∧
  Gives (.andn d a b) s d (bits fun k => x.getLsbD k && !y.getLsbD k) ∧
  Gives (.or d a b) s d (bits fun k => x.getLsbD k || y.getLsbD k) ∧
  Gives (.xor d a b) s d (bits fun k => x.getLsbD k != y.getLsbD k) ∧
  Gives (.sll d a b) s d (bits fun k => decide (n ≤ k) && x.getLsbD (k - n)) ∧
  Gives (.srl d a b) s d (bits fun k => x.getLsbD (k + n)) ∧
  Gives (.sra d a b) s d (bits fun k => if k + n < 64 then x.getLsbD (k + n) else x.getLsbD 63)) ∧
  (∀ (d a : BitVec 5) (s : State),
  let x := s.me.reg a
  (∃ n, Gives (.clz d a) s d (BitVec.ofNat 64 n) ∧ n ≤ 64 ∧ (∀ k, k < n → x.getLsbD (63 - k) = false) ∧
    (n < 64 → x.getLsbD (63 - n) = true)) ∧
  (∃ n, Gives (.ctz d a) s d (BitVec.ofNat 64 n) ∧ n ≤ 64 ∧ (∀ k, k < n → x.getLsbD k = false) ∧
    (n < 64 → x.getLsbD n = true)) ∧
  Gives (.popc d a) s d (BitVec.ofNat 64 ((List.range 64).countP fun k => x.getLsbD k))) ∧
  (∀ (d a b c : BitVec 5) (s : State),
  let x := s.me.reg a
  let sext (w : Nat) : Word := if x.toNat % 2 ^ w < 2 ^ (w - 1) then BitVec.ofNat 64 (x.toNat % 2 ^ w)
    else BitVec.ofNat 64 (x.toNat % 2 ^ w + (2 ^ 64 - 2 ^ w))
  Gives (.sextB d a) s d (sext 8) ∧ Gives (.sextH d a) s d (sext 16) ∧ Gives (.sextW d a) s d (sext 32) ∧
  Gives (.zextB d a) s d (BitVec.ofNat 64 (x.toNat % 2 ^ 8)) ∧
  Gives (.zextH d a) s d (BitVec.ofNat 64 (x.toNat % 2 ^ 16)) ∧
  Gives (.zextW d a) s d (BitVec.ofNat 64 (x.toNat % 2 ^ 32)) ∧
  Gives (.csel d a b c) s d (if s.me.reg c = 0 then s.me.reg b else x) ∧
  Gives (.tself d) s d s.me.record)

/-- R281, R283, R322: immediates, sign-extended or zero-extended as R281 says; LIH shifts left by 16 and fills; ADDPC adds the
immediate times 65,536 to the instruction's own address. -/
def Obligations.ScalarImmediates : Prop := ∀ (d a : BitVec 5) (k : BitVec 16) (s : State),
  let x := s.me.reg a
  let bits (f : Nat → Bool) : Word := BitVec.ofFnLE fun j : Fin 64 => f j.val
  let sx (j : Nat) : Bool := if j < 16 then k.getLsbD j else k.getLsbD 15
  Gives (.addImm d a k) s d (BitVec.ofInt 64 (x.toInt + k.toInt)) ∧
  Gives (.andImm d a k) s d (bits fun j => x.getLsbD j && sx j) ∧
  Gives (.orImm d a k) s d (bits fun j => x.getLsbD j || k.getLsbD j) ∧
  Gives (.xorImm d a k) s d (bits fun j => x.getLsbD j != k.getLsbD j) ∧
  Gives (.sltImm d a k) s d (if x.toInt < k.toInt then 1 else 0) ∧
  Gives (.sltuImm d a k) s d (if x.toNat < (k.toInt % 2 ^ 64).toNat then 1 else 0) ∧
  Gives (.lih d a k) s d (BitVec.ofNat 64 (x.toNat * 2 ^ 16 + k.toNat)) ∧
  Gives (.addpc d k) s d (BitVec.ofInt 64 (s.me.pc.toNat + k.toInt * 65536))

/-! ## Scalar memory, atomics, posted stores -/

/-- R320, R321, R345, R346: a load or store computes its address modulo 2^64; `t` is the state once the places of the access are found
(unchanged unless a stash page is filled or a cached translation is discarded). LD gives the bytes at those places, lowest first, extended as the
width code says, or those of a past moment that its reads may still stand at (assumption 9); ST stores the low bytes of s[d] there and
nothing else: every register but the program counter and every byte elsewhere is as before. -/
def Obligations.ScalarMemory : Prop :=
  (∀ (d a : BitVec 5) (o : BitVec 13) (w : BitVec 3) (s t : State) (ls : List Loc),
  let n := 2 ^ (w.toNat % 4)
  let va := (BitVec.ofInt 64 ((s.me.reg a).toInt + o.toInt)).toNat
  w ≠ 7#3 → va % n = 0 → (locateBytes s.who .read va n).run s = (.ok ls, t) → (∀ l ∈ ls, t.locPoisoned l = false) →
  ∃ (u : State) (bs : List Byte), exec (.ld d a o w) s = .next u ∧ MayTake t s.who .scalar va ls bs ∧
    let v := leNat bs
    Wrote { t with free := u.free, pins := u.pins } u d
      (BitVec.ofNat 64 (if w.toNat < 4 ∧ 2 ^ (8 * n - 1) ≤ v then v + (2 ^ 64 - 2 ^ (8 * n)) else v))) ∧
  (∀ (d a : BitVec 5) (o : BitVec 13) (w : BitVec 2) (s t : State) (ls : List Loc),
  let n := 2 ^ w.toNat
  let va := (BitVec.ofInt 64 ((s.me.reg a).toInt + o.toInt)).toNat
  va % n = 0 → (locateBytes s.who .write va n).run s = (.ok ls, t) →
  ∃ u, exec (.st d a o w) s = .next u ∧ Stored t u ls (leBytes n (s.me.reg d).toNat) ∧
    u.me = { t.me with pc := nextPc t.me.pc 1, stall := [], busy := false })

/-- R285, R290, R240, R241: an atomic replaces the location's value by the operation's result and returns the old value,
zero-extended; a refused bounded add leaves the value and returns it with 2^63 added. `A i f` says so of the instruction i. -/
def Obligations.AtomicResults : Prop := ∀ (d a b c : BitVec 5) (z : BitVec 1) (s t : State) (ls : List Loc),
  let w := if z = 0#1 then 32 else 64
  let va := (s.me.reg a).toNat
  va % (w / 8) = 0 → (locateBytes s.who .atomic va (w / 8)).run s = (.ok ls, t) → (∀ l ∈ ls, t.locPoisoned l = false) →
  let old := leNat (ls.map t.locByte)
  let x := (s.me.reg b).toNat % 2 ^ w
  let y := (s.me.reg c).toNat % 2 ^ w
  let lt (p q : Nat) : Bool := decide ((BitVec.ofNat w p).toInt < (BitVec.ofNat w q).toInt)
  let A (i : Instr) (new ret : Nat) : Prop := ∃ u, exec i s = .next u ∧ Stored t u ls (leBytes (w / 8) new) ∧
    RegSet t.me u.me d (BitVec.ofNat 64 ret)
  A (.amoAdd d a b z) ((old + x) % 2 ^ w) old ∧ A (.amoAnd d a b z) (old &&& x) old ∧
  A (.amoOr d a b z) (old ||| x) old ∧ A (.amoXor d a b z) (old ^^^ x) old ∧
  A (.amoSmin d a b z) (if lt old x then old else x) old ∧ A (.amoSmax d a b z) (if lt old x then x else old) old ∧
  A (.amoUmin d a b z) (min old x) old ∧ A (.amoUmax d a b z) (max old x) old ∧ A (.amoSwap d a b z) x old ∧
  A (.amoFmax d a b z) (fpMinMax (if w = 32 then fp32 else fp64) 0 true old x).1 old ∧
  A (.amoAddb d a b c z) (if old + x ≤ y then old + x else old) (if old + x ≤ y then old else old + 2 ^ 63) ∧
  A (.cas d a b c z) (if old = x then y else old) old

/-- R245 to R247, R334, R335: with ENABLE.POSTED set, an aligned global address that translates with W and fewer than 4,096 stores
outstanding, PST and PST.ord issue one store on a path that FV4 chooses and count it in that path's SENT; no byte of memory changes. PST.ord follows
the task's earlier stores to the same package that are not yet performed, PST follows none. A posted store that every store it follows has been
performed before is performed once: its bytes reach memory and no other byte changes. When it is acknowledged, ACKED of its path rises by 1. -/
def Obligations.PostedStores : Prop :=
  (∀ (a b : BitVec 5) (z : BitVec 1) (s : State) (pa : Nat),
  let w := if z = 0#1 then 32 else 64
  let va := (s.me.reg a).toNat
  let mine := s.posted.filter fun p => p.tid == s.me.tid
  s.myPkg.enable.getLsbD 6 = true → va % (w / 8) = 0 → va < 2 ^ 55 → Leads s { s.who with path := .p } .write va pa →
  mine.length < 4096 →
  let P (i : Instr) (prior : List Nat) : Prop := ∃ (k : BitVec 2) (p : Posted) (u : State), exec i s = .next u ∧
    p.loc = pa ∧ p.size = w / 8 ∧ p.value.toNat = (s.me.reg b).toNat % 2 ^ w ∧ p.path = k.toNat ∧ p.tid = s.me.tid ∧
    p.performed = false ∧ p.prior = prior ∧ u.posted = s.posted ++ [p] ∧ u.mem = s.mem ∧
    (∀ j : Fin 4, (u.me.paths[j]).sent = (s.me.paths[j]).sent + (if j.val = k.toNat then 1 else 0)) ∧
    (∀ j : Fin 4, (u.me.paths[j]).acked = (s.me.paths[j]).acked) ∧
    u.me = { s.me with paths := u.me.paths, pc := nextPc s.me.pc 1, stall := [], busy := false }
  P (.pst a b z) [] ∧
  P (.pstOrd a b z) ((mine.filter fun p => p.pkg == pa / 2 ^ 48 && !p.performed).map (·.id))) ∧
  (∀ (id : Nat) (s : State) (p : Posted),
  s.posted.find? (fun q => q.id == id) = some p →
  (p.performed = false → (∀ q ∈ s.posted, q.id ∈ p.prior → q.performed = true) →
    ∃ u, exec (.postedStorePerform id) s = .next u ∧
      (∀ k, k < p.size → u.locByte (.phys (p.loc + k)) = BitVec.ofNat 8 (p.value.toNat / 256 ^ k)) ∧
      (∀ l, (∀ k, k < p.size → l ≠ .phys (p.loc + k)) → u.locByte l = s.locByte l) ∧
      OnlyMemory { s with posted := s.posted.map fun q => if q.id == id then { q with performed := true } else q } u ∧ u.ctxs = s.ctxs) ∧
  (∀ c, p.performed = true → p.path < 4 → s.whereIs p.tid = some c →
    ∃ u, exec (.postedStoreAcknowledgement id) s = .next u ∧
      u.posted = s.posted.filter (fun q => q.id != id) ∧ u.mem = s.mem ∧
      (∀ j : Fin 4, ((u.ctx c).paths[j]).acked = ((s.ctx c).paths[j]).acked + (if j.val = p.path then 1 else 0)) ∧
      u.ctx c = { s.ctx c with paths := (u.ctx c).paths } ∧ ∀ j, j ≠ c → u.ctx j = s.ctx j))

/-- R250, R285, R321, R334, R346: an address that is no multiple of the access size raises 0x010 with the address, before any
access. -/
def Obligations.MisalignedAccess : Prop := ∀ (d a b c : BitVec 5) (o : BitVec 13) (w : BitVec 3) (v : BitVec 2) (z : BitVec 1)
    (s : State),
  let x : Word := BitVec.ofInt 64 ((s.me.reg a).toInt + o.toInt)
  let y := s.me.reg a
  (x.toNat % 2 ^ (w.toNat % 4) ≠ 0 → Traps (.ld d a o w) s 0x010 x) ∧
  (x.toNat % 2 ^ v.toNat ≠ 0 → Traps (.st d a o v) s 0x010 x) ∧
  (y.toNat % (if z = 0#1 then 4 else 8) ≠ 0 →
    (∀ i ∈ [Instr.amoAdd d a b z, .amoAnd d a b z, .amoOr d a b z, .amoXor d a b z, .amoSmin d a b z, .amoSmax d a b z,
      .amoUmin d a b z, .amoUmax d a b z, .amoSwap d a b z, .amoFmax d a b z, .amoAddb d a b c z, .cas d a b c z],
      Traps i s 0x010 y) ∧
    (s.myPkg.enable.getLsbD 6 = true → Traps (.pst a b z) s 0x010 y ∧ Traps (.pstOrd a b z) s 0x010 y))

/-- R2, R136, R152 to R156, R245: an access within one line at a usable global address reaches consecutive bytes of physical memory,
found by the translation of its first byte; an address that R19 refuses stops any access with 0x382, a poisoned line a read or an atomic
with 0x381, an address outside the stash window with a bit of [63:55] set any access with 0x1C4, and a window address one on path P or X.
What is cached on the way and fails is discarded. Finding the places never touches a register or a posted store: at most memory
(entries, written-back pages), poison, frames and their order of use, cached translations and entries, and what the model keeps of past moments
(assumptions 9, 33) and, in a command, of bytes performed ahead, by place (R296); a written-back page may lie in the rings of a die's queues (R266). -/
def Obligations.AddressedPlaces : Prop :=
  (∀ (who : Who) (kind : Access) (va n : Nat) (s : State) (a : Nat),
  let t := if cacheFails s who kind va then { s with tlb := s.tlb.filter fun e => !serves who va e } else s
  va < 2 ^ 55 → 0 < n → va % 64 + n ≤ 64 → translate s who kind va = .ok a →
  (∀ pa, physical s (pkgOfCore who.core) a = some pa →
    (kind = .write ∨ poisoned s pa = false →
      (locateBytes who kind va n).run s = (.ok ((List.range n).map fun j => .phys (pa + j)), t)) ∧
    (kind ≠ .write → poisoned s pa = true →
      (locateBytes who kind va n).run s = (.error (.trap 0x381 (BitVec.ofNat 64 va) (atAddr va 0)), t))) ∧
  (physical s (pkgOfCore who.core) a = none →
    (locateBytes who kind va n).run s = (.error (.trap 0x382 (BitVec.ofNat 64 va) (atAddr va 0)), t))) ∧
  (∀ (who : Who) (kind : Access) (va n : Nat) (s : State),
  0 < n → va < 2 ^ 64 →
  (inWindow va = false → 2 ^ 55 ≤ va →
    (locateBytes who kind va n).run s = (.error (.trap 0x1C4 (BitVec.ofNat 64 va) (atAddr va 0)), s)) ∧
  (inWindow va = true → who.path = .p ∨ who.path = .x →
    (locateBytes who kind va n).run s = (.error (.trap 0x1C4 (BitVec.ofNat 64 va) (atAddr va 0)), s))) ∧
  (∀ (who : Who) (kind : Access) (va n : Nat) (s : State),
  let t := ((locateBytes who kind va n).run s).2
  t = { s with mem := t.mem, poison := t.poison, ctxs := t.ctxs, cores := t.cores, clock := t.clock, spt := t.spt, tlb := t.tlb, pins := t.pins,
               sources := t.sources, orphans := t.orphans, dies := t.dies } ∧
    (∀ c, SameButAhead (s.ctx c) (t.ctx c)) ∧
    (∃ f, t.orphans = s.orphans.map fun o => { o with command := o.command.mapAhead f }) ∧
    (∀ k, (t.core k).mu = (s.core k).mu) ∧ ∀ d, t.die d = { s.die d with corrupted := (t.die d).corrupted })

/-! ## Reset, decoding, the step -/

/-- R37, R59, R63, R255 (reset values that the spec gives): the control registers that have one hold it in every context, no context runs a
task, no translation is kept. CTXID holds the context's number in package 0, since PKG is 0 at reset (R12, R274). Memory is in its canonical form and every byte reads as an unwritten one does (zero: assumption 2, the model's
choice). The registers for which the spec gives no reset value are assumption 1; nothing here rests on them. -/
def Obligations.ResetState : Prop :=
  (∀ c, c < 442368 →
  let s := { State.reset with cur := c }
  s.me.life = .idle ∧ s.agenda = [] ∧ s.tlb = [] ∧
  (∀ n ∈ ([0x000, 0x001, 0x002, 0x004, 0x005, 0x006, 0x020, 0x021, 0x022, 0x023, 0x032, 0x033, 0x034, 0x040, 0x041, 0x042, 0x043,
    0x044, 0x045, 0x081, 0x082, 0x083, 0x0C1, 0x0C5, 0x0C6] : List Nat), csrValue s n = 0#64) ∧
  (∀ n, 0x010 ≤ n → n ≤ 0x01F → csrValue s n = 0#64) ∧
  csrValue s 0x030 = BitVec.ofNat 64 (c % 1024) ∧ csrValue s 0x080 = 0xFFF#64 ∧ csrValue s 0x084 = 100000#64 ∧ csrValue s 0x085 = 50000000#64 ∧
  csrValue s 0x0C0 = 64#64 ∧ csrValue s 0x0C2 = 12#64 ∧ csrValue s 0x0C3 = 50000#64 ∧ csrValue s 0x0C4 = 8#64) ∧
  (Memory.wf State.reset.mem = true ∧ ∀ l, State.reset.locByte l = 0#8)

/-- Words of the spec's examples, of every format of R71 and every group of majors, stand for the instructions that the spec prints beside them. -/
def Obligations.DecodeWords : Prop := ∀ p ∈ ([
  (0x80221800#32, .vadd 1 2 3 0 0), (0x80E84804#32, .vmulhU 7 8 9 0 0), (0x8485348E#32, .vsraVs 4 5 6 1 1),
  (0x80432492#32, .vcmpLt 2 3 4 1 1), (0x88420C80#32, .vfadd 2 2 1 1 1), (0x8D004803#32, .vfmaVs 8 0 9 0 0),
  (0x88640005#32, .vfsqrt 3 4 0 0), (0x88642812#32, .vfcmpLe 3 4 5 0 0), (0x90C70488#32, .vfredAdd 6 7 1 1),
  (0x90C70000#32, .vredAdd 6 7 0 0), (0x90C70487#32, .vredMaxu 6 7 1 1),
  (0x04E84803#32, .mulh 7 8 9), (0x04A63A1F#32, .csel 5 6 7 8), (0x0864FFF0#32, .addImm 3 4 0xFFF0), (0x24A00002#32, .addpc 5 2),
  (0x28A63898#32, .fcmp 5 6 7 2 1), (0x2D42FFC6#32, .ld 10 2 0x1FF8 6), (0x34A23030#32, .amoAdd 5 2 6 1), (0x34A231EB#32, .cas 5 2 6 7 0),
  (0x3CA6FFFD#32, .bne 5 6 0xFFFD), (0x53E00040#32, .jal 31 0x40), (0x58002B10#32, .fence 5 3), (0x580500C8#32, .trap 5 3),
  (0x5C050000#32, .tspawn 5), (0x5CA00002#32, .tself 5), (0x60861800#32, .barrive 4 6 3), (0x60050082#32, .hbar 5 2),
  (0x64432240#32, .cpy 2 3 4 9), (0x64432244#32, .rsort 2 3 4 9), (0x68864000#32, .sisect 4 6 8), (0x69464001#32, .smerge 10 6 8),
  (0x70A40012#32, .vsetl 5 4 1 0 2), (0x74021380#32, .rpt 2 1 1 1 1 0), (0x94221800#32, .mand 1 2 3), (0x94C10005#32, .mfirst 6 1),
  (0x98A63C80#32, .vcvt 5 6 7 1 1), (0x98600484#32, .vidx 3 1 1), (0x9C860000#32, .vsort 4 6 0 0), (0x9C864001#32, .vsortKv 4 6 8 0 0),
  (0xA0890522#32, .vldseg 4 9 1 2 2), (0xA0820003#32, .vldff 4 2 0 0 0), (0xA4421804#32, .vstq 2 2 3 0 0),
  (0xA8823020#32, .vldx 4 2 6 0 0 2), (0xA8A33832#32, .vstxOrd 5 3 7 0 0 3), (0xB0873020#32, .vwait 4 7 6 0 0 2),
  (0xC0A40030#32, .mshape 5 4 3), (0xC0C53AB3#32, .mma 6 5 7 2 1 3), (0xC0C50204#32, .mst 6 5 2)] : List (BitVec 32 × Instr)),
  decode p.1 = .ok p.2

/-- Every well-formed instruction is what the decoder reads from its word, and from the word's four bytes in memory order
whatever follows them: no bit of an encoding is dropped. -/
def Obligations.EncodeDecode : Prop := ∀ i : Instr, i.wellFormed = true →
  decode (encode i) = .ok i ∧ ∀ rest, decodeBytes (bytesOfWord (encode i) ++ rest) = .ok (i, rest)

/-- A word that decodes stands for a well-formed instruction, and is that instruction's only word: no bit of a legal word is
ignored, and no two words stand for one instruction. -/
def Obligations.DecodeEncode : Prop := ∀ (w : BitVec 32) (i : Instr), decode w = .ok i → i.wellFormed = true ∧ encode i = w

/-- R2, R73: a step of a running context with nothing due runs the instruction that the four bytes at its program counter decode to,
the lowest byte first; a word that is no instruction raises 0x001, and one with a reserved bit set or a reserved field value 0x002, each with
the word; a core that is taken out runs none (R264). With no access of the context in flight, the step is `exec` of that instruction where the
fetch has left the state (TLBINV, STFLUSH and STINV wait for other contexts' accesses too); otherwise accesses in flight that the instruction waits
for come first, and it is `exec` after them (assumption 9, the model's choice). An event of the agenda runs as `exec` runs it, after what is in flight
where it may change what accesses reach; one that acts at a context's boundary finds none on a core that is taken out or while a fence is waited
for (R56, R172, R264). Each step ends with the watchdogs of the exchange (R199). Whose turn it is stands in the agenda (assumption 3, the model's choice). -/
def Obligations.StepRunsInstruction : Prop :=
  (∀ (s u t : State) (ls : List Loc),
  (s.agenda = [] ∧ u = s) ∨ (∃ c rest, s.agenda = .run c :: rest ∧ u = { s with agenda := rest, cur := c }) →
  u.me.life = .running → (u.core (u.cur / 4)).out = false → u.boundary u.cur = none → u.me.ending = false → u.me.fences = [] →
  (∀ e ∈ u.me.prefetched, e.1 ≠ u.me.pc.toNat) → (locateBytes u.who .fetch u.me.pc.toNat 4).run u = (.ok ls, t) →
  let w := BitVec.ofNat 32 (leNat (ls.map t.locByte))
  let p (i : Instr) : State := t.prepare t.cur i (needOf i)
  (∀ i, decode w = .ok i → u.me.noneInFlight = true → needOf i ≠ .every → step s = afterTurn (exec i t)) ∧
  (∀ i, decode w = .ok i → (p i).me.noneInFlight = true → (p i).me.fences = [] → (needOf i = .every ∨ u.me.noneInFlight = false) →
    step s = afterTurn (exec i (p i))) ∧
  (∀ i v, decode w = .ok i → u.me.noneInFlight = false → exec i (p i) = .next v → wentOn (p i).me v.me = true ∨ isTrap i = true →
    step s = afterTurn (.next v)) ∧
  (u.me.noneInFlight = true → u.me.vAfter = 0 → u.me.sAfter = 0 →
    (decode w = .error .illegal → step s = afterTurn (.next (t.trapNow 0x001 (w.setWidth 64) noInfo))) ∧
    (decode w = .error .reserved → step s = afterTurn (.next (t.trapNow 0x002 (w.setWidth 64) noInfo))))) ∧
  (∀ (s : State) (i : Instr) (rest : List Turn),
  s.agenda = .event i :: rest → isEvent i = true →
    let t := { s with agenda := rest }
    let u := if settlesFirst i then t.flushAll else t
    (boundaryOf i = none → step s = afterTurn (exec i u)) ∧
    (∀ c, boundaryOf i = some c →
      let v := u.endFences c
      step s = afterTurn (if (v.core (c / 4)).out = true ∨ (v.ctx c).fences ≠ [] then .next v else exec i v)))

/-- No instruction, event or step ends in a fault or a refusal: every case has an effect (R8, R252, R254). -/
def Obligations.EveryStepGoesOn : Prop := (∀ s, goesOn s) ∧ ∀ i s, ∃ t, exec i s = .next t

/-- Every step keeps memory in its canonical form: addresses rising, no entry that an unlisted address would read as. So equal
memories are equal data. -/
def Obligations.MemoryStaysCanonical : Prop := ∀ s t : State, Memory.wf s.mem = true → step s = .next t → Memory.wf t.mem = true

/-! ## Scalar floating point -/

/-- R306 to R310, R313: the scalar floating-point instructions write their result to d, OR their flags into FFLAGS and change
nothing else. FCMP.cond gives 1 or 0; FCVT converts as its code says (R79, R309); FMVX copies bits and leaves FFLAGS. -/
def Obligations.ScalarFloat : Prop := ∀ (d a b c : BitVec 5) (k : BitVec 3) (z : BitVec 1) (s : State),
  let f := if z = 0#1 then fp32 else fp64
  let x := (s.me.reg a).toNat % 2 ^ f.width
  let y := (s.me.reg b).toNat % 2 ^ f.width
  let v := (s.me.reg c).toNat % 2 ^ f.width
  let rm : Rm := if slice s.me.vcfg 4 2 = 0#2 then .rne else if slice s.me.vcfg 4 2 = 1#2 then .rtz
    else if slice s.me.vcfg 4 2 = 2#2 then .rdn else .rup
  let cmp (q : FpCond) : FpResult := (if (fpCmp f 0 q x y).1 then 1 else 0, (fpCmp f 0 q x y).2)
  GivesFp (.fadd d a b z) s d (fpAdd f rm 0 x y) ∧ GivesFp (.fsub d a b z) s d (fpSub f rm 0 x y) ∧
  GivesFp (.fmul d a b z) s d (fpMul f rm 0 x y) ∧ GivesFp (.fdiv d a b z) s d (fpDiv f rm 0 x y) ∧
  GivesFp (.fsqrt d a z) s d (fpSqrt f rm 0 x) ∧ GivesFp (.fma d a b c z) s d (fpFma f rm 0 x y v) ∧
  GivesFp (.fmin d a b z) s d (fpMinMax f 0 false x y) ∧ GivesFp (.fmax d a b z) s d (fpMinMax f 0 true x y) ∧
  (k = 0#3 → GivesFp (.fcmp d a b k z) s d (cmp .eq)) ∧ (k = 1#3 → GivesFp (.fcmp d a b k z) s d (cmp .lt)) ∧
  (k = 2#3 → GivesFp (.fcmp d a b k z) s d (cmp .le)) ∧ (k = 3#3 → GivesFp (.fcmp d a b k z) s d (cmp .un)) ∧
  (let w := s.me.reg a
   let n := w.toNat
   let G (k : BitVec 5) (r : FpResult) : Prop := GivesFp (.fcvt d a k) s d r
   G 0x00 (fpToFp fp64 fp32 rm 0 n) ∧ G 0x01 (fpToFp fp32 fp64 rm 0 (n % 2 ^ 32)) ∧ G 0x02 (fpToFp fp16 fp32 rm 0 (n % 2 ^ 16)) ∧
   G 0x03 (fpToFp fp32 fp16 rm 0 (n % 2 ^ 32)) ∧ G 0x04 (fpToFp bf16 fp32 rm 0 (n % 2 ^ 16)) ∧ G 0x05 (fpToFp fp32 bf16 rm 0 (n % 2 ^ 32)) ∧
   G 0x06 (intToFp fp32 rm false w.toInt) ∧ G 0x07 (intToFp fp32 rm false n) ∧ G 0x08 (intToFp fp64 rm false w.toInt) ∧
   G 0x09 (intToFp fp64 rm false n) ∧ G 0x0A (fpToInt fp32 rm 0 64 true (n % 2 ^ 32)) ∧ G 0x0B (fpToInt fp32 rm 0 64 false (n % 2 ^ 32)) ∧
   G 0x0C (fpToInt fp64 rm 0 64 true n) ∧ G 0x0D (fpToInt fp64 rm 0 64 false n)) ∧
  Gives (.fmvx d a z) s d (BitVec.ofNat 64 x)

/-- R105 to R107, R111, R112: sums, differences, products, fused products and sums, quotients, square roots, reciprocal square roots and conversions of
finite operands round the exact result once, in every mode and under every FZ, whose input flush comes first; an exact zero has the sign of R105. A
conversion to an integer gives the rounded integer or the nearest bound. VFEXP2 of an integer rounds the power of two; of any other value it gives a
result within two steps of the grid of 2^x, inexact, OF and UF as R106 and R107: correct rounding there needs more than the model's 320 bits prove
(assumption 19). -/
def Obligations.RoundingAndOverflow : Prop := ∀ (f g : Fmt) (rm : Rm) (fz : BitVec 2) (x y v : Nat), f ∈ [fp16, bf16, fp32, fp64] →
  g ∈ [fp16, bf16, fp32, fp64] → fz ≠ 3 → FpFinite f x → FpFinite f y → FpFinite f v →
  let neg (p : Nat) : Bool := p.testBit (f.eb + f.fb)
  let zero (h : Fmt) (b : Bool) : FpResult := (if b then 2 ^ (h.eb + h.fb) else 0, 0)
  let input (p : Nat) : Nat := if fz = 2#2 ∧ p / 2 ^ f.fb % 2 ^ f.eb = 0 then (zero f (neg p)).1 else p
  let X := fpValue f (input x)
  let Y := fpValue f (input y)
  let V := fpValue f (input v)
  let flush := fz != 0
  let R (h : Fmt) (q : ℚ) (r : FpResult) : Prop := q ≠ 0 → Rounded h rm flush (q : ℝ) r
  let sum (q : ℚ) (bothZero : Prop) (na nb : Bool) (r : FpResult) : Prop := R f q r ∧
    (q = 0 → (bothZero → na = nb → r = zero f na) ∧ (¬(bothZero ∧ na = nb) → r = zero f (rm == .rdn)))
  sum (X + Y) (X = 0 ∧ Y = 0) (neg x) (neg y) (fpAdd f rm fz x y) ∧ sum (X - Y) (X = 0 ∧ Y = 0) (neg x) (!neg y) (fpSub f rm fz x y) ∧
  sum (X * Y + V) (X * Y = 0 ∧ V = 0) (neg x != neg y) (neg v) (fpFma f rm fz x y v) ∧
  R f (X * Y) (fpMul f rm fz x y) ∧ (X * Y = 0 → fpMul f rm fz x y = zero f (neg x != neg y)) ∧
  (Y ≠ 0 → R f (X / Y) (fpDiv f rm fz x y) ∧ (X = 0 → fpDiv f rm fz x y = zero f (neg x != neg y))) ∧
  (0 < X → Rounded f rm flush √(X : ℝ) (fpSqrt f rm fz x) ∧ Rounded f rm flush (1 / √(X : ℝ)) (fpRsqrt f rm fz x)) ∧
  R g X (fpToFp f g rm fz x) ∧ (X = 0 → fpToFp f g rm fz x = zero g (neg x)) ∧
  (∀ (n : ℤ) (b : Bool), (n ≠ 0 → Rounded f rm b (n : ℝ) (intToFp f rm b n)) ∧ intToFp f rm b 0 = (0, 0)) ∧
  (∀ w ∈ [8, 16, 32, 64], ∀ b : Bool, ∃ n : ℤ, RoundsToInt rm X n ∧
    let lo : ℤ := if b then -2 ^ (w - 1) else 0
    let hi : ℤ := if b then 2 ^ (w - 1) - 1 else 2 ^ w - 1
    let r := fpToInt f rm fz w b x
    (n < lo → r = ((lo % 2 ^ w).toNat, flagNV)) ∧ (hi < n → r = ((hi % 2 ^ w).toNat, flagNV)) ∧
    (lo ≤ n → n ≤ hi → r = ((n % 2 ^ w).toNat, if (n : ℚ) = X then 0 else flagNX))) ∧
  (f ∈ [fp32, fp64] →
    let r := fpExp2 f rm fz x
    let E : ℝ := (2 : ℝ) ^ (X : ℝ)
    let bounded : Prop := |(fpValue f r.1 : ℝ) - E| ≤ E * (2 : ℝ) ^ (1 - (f.fb : ℤ))
    let inf : Nat := (2 ^ f.eb - 1) * 2 ^ f.fb
    (∀ n : ℤ, X = n → Rounded f rm flush E r) ∧
    ((∀ n : ℤ, X ≠ n) →
      (f.emin ≤ X → X < f.bias + 1 → FpFinite f r.1 ∧ r.1.testBit (f.eb + f.fb) = false ∧ bounded ∧ r.2 = flagNX) ∧
      (f.bias + 1 ≤ X → r = (if rm = .rtz ∨ rm = .rdn then inf - 1 else inf, 0b00101#5)) ∧
      (X < f.emin → r.2 = 0b00011#5 ∧ (flush = true → r.1 = 0) ∧
        (flush = false → FpFinite f r.1 ∧ r.1.testBit (f.eb + f.fb) = false ∧ |(fpValue f r.1 : ℝ) - E| ≤ (2 : ℝ) ^ (f.emin - f.fb + 1)))))

/-- R104, R108 to R110: what NaNs and infinities give, and what comparisons, minimum and maximum do. R111, R112: what conversions, VFEXP2 and VFRSQRT give for them. A NaN operand gives the canonical NaN, with NV when one is signalling; ∞ − ∞,
0 × ∞, 0 / 0, ∞ / ∞ and the square root of a negative value give it with NV; a finite non-zero value over zero gives an infinity of the
product of the signs with DZ. `inf b` and `zero b` are the patterns with sign b. -/
def Obligations.FloatSpecials : Prop := ∀ (f : Fmt) (rm : Rm) (x y : Nat), f ∈ [fp16, bf16, fp32, fp64] → x < 2 ^ f.width →
  y < 2 ^ f.width →
  let sgn (b : Bool) : Nat := if b then 2 ^ (f.eb + f.fb) else 0
  let inf (b : Bool) : Nat := sgn b + (2 ^ f.eb - 1) * 2 ^ f.fb
  let infinite (p : Nat) : Prop := ∃ b, p = inf b
  let nan : Nat := (2 ^ f.eb - 1) * 2 ^ f.fb + 2 ^ (f.fb - 1)
  let isNaN (p : Nat) : Prop := p / 2 ^ f.fb % 2 ^ f.eb = 2 ^ f.eb - 1 ∧ p % 2 ^ f.fb ≠ 0
  let signalling (p : Nat) : Prop := isNaN p ∧ p / 2 ^ (f.fb - 1) % 2 = 0
  let neg (p : Nat) : Bool := p.testBit (f.eb + f.fb)
  (isNaN x ∨ isNaN y → ∀ r ∈ [fpAdd f rm 0 x y, fpSub f rm 0 x y, fpMul f rm 0 x y, fpDiv f rm 0 x y],
    r.1 = nan ∧ (signalling x ∨ signalling y → r.2 = flagNV) ∧ (¬(signalling x ∨ signalling y) → r.2 = 0)) ∧
  (∀ b, fpAdd f rm 0 (inf b) (inf !b) = (nan, flagNV) ∧ fpSub f rm 0 (inf b) (inf b) = (nan, flagNV)) ∧
  (∀ b c, fpMul f rm 0 (inf b) (sgn c) = (nan, flagNV) ∧ fpMul f rm 0 (sgn c) (inf b) = (nan, flagNV) ∧
    fpDiv f rm 0 (inf b) (inf c) = (nan, flagNV) ∧ fpDiv f rm 0 (sgn b) (sgn c) = (nan, flagNV)) ∧
  (FpFinite f x → x ≠ sgn (neg x) → ∀ b, fpDiv f rm 0 x (sgn b) = (inf (neg x != b), flagDZ)) ∧
  (FpFinite f x → neg x = true → x ≠ sgn true → fpSqrt f rm 0 x = (nan, flagNV)) ∧
  (∀ b, fpSqrt f rm 0 (sgn b) = (sgn b, 0) ∧ fpRsqrt f rm 0 (sgn b) = (inf b, flagDZ)) ∧
  (FpFinite f x → neg x = true → x ≠ sgn true → fpRsqrt f rm 0 x = (nan, flagNV)) ∧
  fpSqrt f rm 0 (inf false) = (inf false, 0) ∧ fpSqrt f rm 0 (inf true) = (nan, flagNV) ∧
  fpRsqrt f rm 0 (inf false) = (0, 0) ∧ fpRsqrt f rm 0 (inf true) = (nan, flagNV) ∧
  fpExp2 f rm 0 (inf false) = (inf false, 0) ∧ fpExp2 f rm 0 (inf true) = (0, 0) ∧
  (∀ b, fpExp2 f rm 0 (sgn b) = ((2 ^ (f.eb - 1) - 1) * 2 ^ f.fb, 0)) ∧
  (isNaN x → ∀ r ∈ [fpSqrt f rm 0 x, fpRsqrt f rm 0 x, fpExp2 f rm 0 x], r.1 = nan ∧ (signalling x → r.2 = flagNV) ∧ (¬signalling x → r.2 = 0)) ∧
  (∀ b c, fpAdd f rm 0 (inf b) (inf b) = (inf b, 0) ∧ fpSub f rm 0 (inf b) (inf !b) = (inf b, 0) ∧
    fpMul f rm 0 (inf b) (inf c) = (inf (b != c), 0)) ∧
  (FpFinite f x → ∀ b, fpAdd f rm 0 (inf b) x = (inf b, 0) ∧ fpAdd f rm 0 x (inf b) = (inf b, 0) ∧ fpSub f rm 0 (inf b) x = (inf b, 0) ∧
    fpSub f rm 0 x (inf b) = (inf !b, 0) ∧ fpDiv f rm 0 (inf b) x = (inf (b != neg x), 0) ∧ fpDiv f rm 0 x (inf b) = (sgn (neg x != b), 0) ∧
    (x ≠ sgn (neg x) → fpMul f rm 0 (inf b) x = (inf (b != neg x), 0) ∧ fpMul f rm 0 x (inf b) = (inf (b != neg x), 0))) ∧
  (∀ z, z < 2 ^ f.width →
    let zeroInf : Prop := (infinite x ∧ y = sgn (neg y)) ∨ (x = sgn (neg x) ∧ infinite y)
    let prodInf : Prop := (infinite x ∨ infinite y) ∧ ¬zeroInf ∧ ¬isNaN x ∧ ¬isNaN y
    let anyNaN : Prop := isNaN x ∨ isNaN y ∨ isNaN z
    let r := fpFma f rm 0 x y z
    (zeroInf → r = (nan, flagNV)) ∧
    (¬zeroInf → anyNaN → r.1 = nan ∧ (signalling x ∨ signalling y ∨ signalling z → r.2 = flagNV) ∧
      (¬(signalling x ∨ signalling y ∨ signalling z) → r.2 = 0)) ∧
    (prodInf → ¬isNaN z → (z = inf (!(neg x != neg y)) → r = (nan, flagNV)) ∧ (z ≠ inf (!(neg x != neg y)) → r = (inf (neg x != neg y), 0))) ∧
    (FpFinite f x → FpFinite f y → infinite z → r = (z, 0))) ∧
  (∀ g ∈ [fp16, bf16, fp32, fp64],
    (∀ b, fpToFp f g rm 0 (inf b) = ((if b then 2 ^ (g.eb + g.fb) else 0) + (2 ^ g.eb - 1) * 2 ^ g.fb, 0)) ∧
    (isNaN x → (fpToFp f g rm 0 x).1 = (2 ^ g.eb - 1) * 2 ^ g.fb + 2 ^ (g.fb - 1) ∧
      (signalling x → (fpToFp f g rm 0 x).2 = flagNV) ∧ (¬signalling x → (fpToFp f g rm 0 x).2 = 0))) ∧
  (∀ w ∈ [8, 16, 32, 64], ∀ b : Bool, (isNaN x → fpToInt f rm 0 w b x = (0, flagNV)) ∧
    fpToInt f rm 0 w b (inf false) = (if b then 2 ^ (w - 1) - 1 else 2 ^ w - 1, flagNV) ∧
    fpToInt f rm 0 w b (inf true) = (if b then 2 ^ (w - 1) else 0, flagNV)) ∧
  (let value (p : Nat) : WithBot (WithTop ℚ) := if p = inf true then ⊥ else if p = inf false then ((⊤ : WithTop ℚ) : WithBot (WithTop ℚ))
     else ((fpValue f p : WithTop ℚ) : WithBot (WithTop ℚ))
   let cmp (c : FpCond) := fpCmp f 0 c x y
   let pick (m : Bool) := (fpMinMax f 0 m x y).1
   (isNaN x ∨ isNaN y →
     (cmp .eq).1 = false ∧ (cmp .lt).1 = false ∧ (cmp .le).1 = false ∧ (cmp .un).1 = true ∧
     (cmp .lt).2 = flagNV ∧ (cmp .le).2 = flagNV ∧
     (signalling x ∨ signalling y → (cmp .eq).2 = flagNV ∧ (cmp .un).2 = flagNV) ∧
     (¬(signalling x ∨ signalling y) → (cmp .eq).2 = 0 ∧ (cmp .un).2 = 0)) ∧
   (¬isNaN x → ¬isNaN y →
     ((cmp .eq).1 = true ↔ value x = value y) ∧ ((cmp .lt).1 = true ↔ value x < value y) ∧ ((cmp .le).1 = true ↔ value x ≤ value y) ∧
     (cmp .un).1 = false ∧ (∀ c, (cmp c).2 = 0) ∧
     (value x < value y → pick false = x ∧ pick true = y) ∧ (value y < value x → pick false = y ∧ pick true = x) ∧
     (value x = value y → neg x = true → neg y = false → pick false = x ∧ pick true = y) ∧
     (value x = value y → neg x = false → neg y = true → pick false = y ∧ pick true = x) ∧ (x = y → ∀ m, pick m = x)) ∧
   (isNaN x → ¬isNaN y → ∀ m, pick m = y) ∧ (¬isNaN x → isNaN y → ∀ m, pick m = x) ∧ (isNaN x → isNaN y → ∀ m, pick m = nan) ∧
   (∀ m, (fpMinMax f 0 m x y).2 = if signalling x ∨ signalling y then flagNV else 0))
/-! ## Control flow, traps, control registers -/

/-- R288, R317, R319, R49: a branch whose condition holds goes to its own address plus four times its offset, otherwise to the next
word; a jump goes to its target with the address of the next word in d, s[a] read first. A target that breaks the form of the program
counter raises 0x010 with the target, only when it is gone to, and leaves d. Nothing else changes. -/
def Obligations.BranchesAndJumps : Prop := (∀ (a b : BitVec 5) (o : BitVec 16) (s : State),
  let x := s.me.reg a
  let y := s.me.reg b
  let target : Word := BitVec.ofInt 64 (s.me.pc.toNat + 4 * o.toInt)
  let B (i : Instr) (taken : Prop) : Prop :=
    (taken → PcForm target → exec i s = .next (s.setMe { s.me with pc := target, stall := [], busy := false })) ∧
    (taken → ¬PcForm target → Traps i s 0x010 target) ∧
    (¬taken → exec i s = .next (s.setMe { s.me with pc := nextPc s.me.pc 1, stall := [], busy := false }))
  B (.beq a b o) (x = y) ∧ B (.bne a b o) (x ≠ y) ∧ B (.blt a b o) (x.toInt < y.toInt) ∧ B (.bge a b o) (y.toInt ≤ x.toInt) ∧
  B (.bltu a b o) (x.toNat < y.toNat) ∧ B (.bgeu a b o) (y.toNat ≤ x.toNat)) ∧
  (∀ (d a : BitVec 5) (o : BitVec 21) (k : BitVec 16) (s : State),
  let J (i : Instr) (target : Word) : Prop :=
    (PcForm target → ∃ t, exec i s = .next t ∧ OnlyMe s t ∧ SameBytes s t ∧ t.me.pc = target ∧
      t.me = { s.me with s := t.me.s, pc := target, stall := [], busy := false } ∧
      t.me.reg d = (if d = 0#5 then 0#64 else BitVec.ofNat 64 (s.me.pc.toNat + 4)) ∧ ∀ r, r ≠ d → t.me.reg r = s.me.reg r) ∧
    (¬PcForm target → Traps i s 0x010 target)
  J (.jal d o) (BitVec.ofInt 64 (s.me.pc.toNat + 4 * o.toInt)) ∧
  J (.jalr d a k) (BitVec.ofInt 64 ((s.me.reg a).toNat + k.toInt)))

/-- R252, R289, R304, R353: in task mode with a handler set, TRAP n and BRK enter supervisor mode at TVEC with TCAUSE, TINFO and the
saved VL and VCFG written; TEPC is the next word for TRAP and the BRK itself for BRK. TRAP orders no access; BRK comes after every older store.
Marks of waits and captured words are the model's and are dropped. Nothing else changes. -/
def Obligations.SoftwareTraps : Prop := ∀ (a : BitVec 5) (n : BitVec 6) (k : BitVec 10) (s : State),
  s.me.mode = .task → s.me.tvec ≠ 0 →
  let u := s.finishOlder s.cur
  exec (.trap a n) s =
    .next (s.setMe (Entered s.me (BitVec.ofNat 10 (0x3C0 + n.toNat)) (s.me.reg a) (nextPc s.me.pc 1))) ∧
  exec (.brk k) s = .next (u.setMe (Entered u.me 0x005 (BitVec.ofNat 64 k.toNat) s.me.pc))

/-- R252, R161: a synchronous trap in task mode with a handler set, and a usable save area, writes a fault record of 32 words at
byte 0x200 of the area exactly for the causes that R161 names, and then enters the handler as every trap does; with other causes
memory is unchanged. The record's words 5 to 31 are the page list, then zero. -/
def Obligations.TrapRecord : Prop := ∀ (s : State) (cause : BitVec 10) (info : Word) (r : FaultInfo) (a : Area),
  s.me.mode = .task → s.me.tvec ≠ 0 → s.me.area = some a → r.pages.length ≤ 27 → r.elem < 2 ^ 11 → r.lane < 2 ^ 5 →
  let u := s.finishOlder s.cur
  badLine u (a.die / 4) (areaBase u a + 0x200) 256 true = none →
  let t := s.trapNow cause info r
  let c := cause.toNat
  let recorded : Prop := (0x100 ≤ c ∧ c < 0x200) ∨ (0x380 ≤ c ∧ c < 0x3C0) ∨ c = 0x201 ∨ c = 0x343 ∨ c = 0x346 ∨
    (c = 0x341 ∧ info.getLsbD 63 = true)
  let w0 := c + r.lane * 2 ^ 10 + r.elem * 2 ^ 16 + r.pages.length * 2 ^ 32 + (if r.more then 2 ^ 40 else 0)
  let ws : List Word := [BitVec.ofNat 64 w0, s.me.pc, r.w2, r.w3, r.w4] ++ r.pages
  (recorded → PutAt u t (areaBase u a + 0x200)
    ((List.range 32).flatMap fun j => leBytes 8 ((ws[j]?).getD 0).toNat)) ∧
  (¬recorded → SameBytes u t) ∧
  t.me = Entered u.me cause info s.me.pc ∧
  ∀ c, c ≠ s.cur → t.ctx c = s.ctx c

/-- R254: a synchronous trap in supervisor mode, or with TVEC = 0, stops the context for the host: its registers stay as they are,
every record is written, and an event of kind 1 with the cause, the context's number and the information word joins those for the ring. -/
def Obligations.HostStop : Prop := ∀ (s : State) (cause : BitVec 10) (info : Word) (r : FaultInfo) (a : Area),
  s.me.mode = .supervisor ∨ s.me.tvec = 0 → s.me.area = some a → r.pages.length ≤ 27 →
  let u := s.finishOlder s.cur
  badLine u (a.die / 4) (areaBase u a + 0x200) 256 true = none →
  let t := s.trapNow cause info r
  t.me = { u.me with
    life := .stopped, stopInfo := some (cause, info)
    waited := none, vdone := 0, stall := [], ending := false, looping := false, rpt := [], quota := none, adone := 0, busy := false } ∧
  (∀ c, c ≠ s.cur → t.ctx c = s.ctx c) ∧
  t.myPkg = { s.myPkg with events := s.myPkg.events ++ [⟨cause, 1, s.ctxNumber s.cur, info⟩] } ∧
  (∀ l, (∀ k, k < 256 → l ≠ .phys (areaBase u a + 0x200 + k)) → t.locByte l = u.locByte l) ∧
  (writesRecord cause info = false → PutAt u t (areaBase u a + 0x200)
    (leBytes 8 cause.toNat ++ leBytes 8 s.me.pc.toNat ++ leBytes 8 0 ++ leBytes 8 info.toNat ++ List.replicate 224 0#8))

/-- R253, R304, R305: ERET in supervisor mode performs the stores of the context that wait, orders older scalar and vector accesses before younger
ones of both kinds as SVFENCE.full does (past moments that are over for the one are over for the other: assumption 9, the model's choice), and
returns: VCFG and VL from TSTATUS with VL at most VLMAX, task mode, the program counter from TEPC, the budget of word 4 after a 0x341 that
exhausted it; one that is still due comes after every pending cause (assumption 52). The ceiling is what reclaim and power limit make of it (R39, R305). With ABANDON set the task is gone and the context idle; commands it had outstanding have gone to their resume points (R259). A reserved FZ in TSTATUS raises 0x002, a TEPC that breaks the program counter's form 0x010; both only
without ABANDON. -/
def Obligations.TrapReturn : Prop := ∀ (s : State), s.me.mode = .supervisor →
  let x := s.me
  let fz := x.svcfg.toNat / 4 % 4
  (x.abandon = false → fz = 3 → Traps .eret s 0x002 ((encode .eret).setWidth 64)) ∧
  (x.abandon = false → fz ≠ 3 → ¬PcForm x.tepc → Traps .eret s 0x010 x.tepc) ∧
  (x.abandon = false → fz ≠ 3 → PcForm x.tepc → (∀ h ∈ x.delayed, ∃ n m bs, h = .store n m bs) → ∃ t, exec .eret s = .next t ∧
    t.me = { x with
      mode := .task, pc := x.tepc, vcfg := x.svcfg, stall := [], busy := false, vstores := [], drained := t.me.drained, delayed := []
      ceil := t.me.ceil, due := x.due.map fun _ => x.pending.length + (if x.lost then 1 else 0)
      vl := BitVec.ofNat 11 (min x.svl.toNat (1024 * x.held / (8 * 2 ^ (x.svcfg.toNat % 4))))
      budget := if x.budget0 ≠ 0 ∧ x.budget = 0 ∧ x.due = none then x.budget0 else x.budget } ∧
    (x.cut = none → t.me.ceil = min (2 ^ (x.ctrl.toNat / 2 ^ 41 % 4)) s.myPkg.ceil) ∧
    (∀ c, c ≠ s.cur → t.ctx c = s.ctx c) ∧ (∀ q ∈ t.pins, q.ctx = s.cur → q.scalar = q.vector) ∧
    ∀ l, t.locByte l = (s.finishOlder s.cur).locByte l) ∧
  (x.abandon = true → ∃ t, exec .eret s = .next t ∧ t.me.life = .idle ∧ t.me.held = 0 ∧ t.me.area = none ∧
    ((∀ j, get8 x.cmds j = none) → ∀ l, t.locByte l = (s.finishOlder s.cur).locByte l))

/-- R58, R59, R73, R251, R304, R351: what task mode may not do. ERET, TLBINV and a write of a register of class SW or S, and any access
of a register of class S, raise 0x003 with the word in task mode; a write of a read-only register and any access of a number that
names none raise 0x001 in every mode; a write is CSRW, or CSRSET or CSRCLR with a source other than s0. -/
def Obligations.PrivilegeChecks : Prop := ∀ (d a : BitVec 5) (n : BitVec 10) (k : BitVec 3) (l : BitVec 1) (s : State),
  let R (i : Instr) (cause : BitVec 10) : Prop := Traps i s cause ((encode i).setWidth 64)
  let reads : List Instr := [.csrr d n, .csrset d 0 n, .csrclr d 0 n]
  let writes : List Instr := .csrw d a n :: if a = 0 then [] else [.csrset d a n, .csrclr d a n]
  let m := n.toNat
  let readOnly : Prop := (0x020 ≤ m ∧ m ≤ 0x023) ∨ (0x030 ≤ m ∧ m ≤ 0x033) ∨ m = 0x080 ∨ m = 0x081 ∨ (0x090 ≤ m ∧ m ≤ 0x094)
  let supervisor : Prop := (0x040 ≤ m ∧ m ≤ 0x045) ∨ m = 0x083 ∨ m = 0x0C1 ∨ m = 0x0C2 ∨ m = 0x0C5 ∨ m = 0x0C6
  let software : Prop := m = 0x000 ∨ m = 0x002 ∨ m = 0x006 ∨ (0x010 ≤ m ∧ m ≤ 0x01F) ∨ m = 0x034 ∨ m = 0x082 ∨ m = 0x084 ∨
    m = 0x085 ∨ m = 0x0C0 ∨ m = 0x0C3 ∨ m = 0x0C4
  let free : Prop := m = 0x001 ∨ m = 0x004 ∨ m = 0x005
  (s.me.mode = .task → R .eret 0x003 ∧ R (.tlbinv a k l) 0x003 ∧ (supervisor → ∀ i ∈ reads ++ writes, R i 0x003) ∧
    (software → ∀ i ∈ writes, R i 0x003)) ∧
  (readOnly → ∀ i ∈ writes, R i 0x001) ∧
  (¬readOnly ∧ ¬supervisor ∧ ¬software ∧ ¬free → ∀ i ∈ reads ++ writes, R i 0x001)

/-- R300, R301: an access that R58 allows gives d the register's old value, and a write leaves the register with the value written,
the OR or the AND NOT with s[a], as far as the register keeps its bits. `setCsr` is that write, none where the value is refused
with 0x002, and `CsrWrites` says what it keeps. -/
def Obligations.CsrAccess : Prop := ∀ (d a : BitVec 5) (n : BitVec 10) (s : State),
  let old := csrValue s n.toNat
  let x := s.me.reg a
  let W (i : Instr) (v : Word) : Prop :=
    (∀ u, setCsr s n.toNat v = some u → exec i s = .next (u.setMe { u.me.setReg d old with pc := nextPc s.me.pc 1, stall := [], busy := false })) ∧
    (setCsr s n.toNat v = none → Traps i s 0x002 ((encode i).setWidth 64))
  (csrRefused s.me.mode n.toNat false = none →
    Gives (.csrr d n) s d old ∧ Gives (.csrset d 0 n) s d old ∧ Gives (.csrclr d 0 n) s d old) ∧
  (csrRefused s.me.mode n.toNat true = none →
    W (.csrw d a n) x ∧ (a ≠ 0 → W (.csrset d a n) (old ||| x) ∧ W (.csrclr d a n) (old &&& ~~~x)))

/-- R57, R59 to R64, R251, R255, R301: what a write leaves in a register: the bits that the register keeps, and no other
register of the same context, package or die changes. VL is limited to VLMAX; a reserved FZ, SIDE or ENC and a QDEPTH outside 9 to 16 are
refused. TSTATUS keeps SVCFG, SVL and, unless FORCED is set, ABANDON; TCAUSE and TINFO, which FV4 alone writes, keep everything. A write of VCFG
in task mode changes RM and REPRO only; writes of MFMT and FFLAGS do not depend on the mode. -/
def Obligations.CsrWrites : Prop :=
  (∀ (s : State) (v : Word), s.me.mode = .supervisor →
  let leaves (n : Nat) (x : Word) : Prop := ∃ u, setCsr s n v = some u ∧ csrValue u n = x ∧
    (∀ k, k ≠ n → csrValue u k = csrValue s k) ∧ (∀ c, c ≠ s.cur → u.ctx c = s.ctx c) ∧ u.mem = s.mem
  let keeps (n : Nat) (mask : Word) : Prop := leaves n (v &&& mask)
  let vlmax := 1024 * s.me.held / (8 * 2 ^ (s.me.vcfg.toNat % 4))
  (∀ p ∈ ([(0x002, 0x7FF), (0x005, 0x1F), (0x006, 0x8000000000003FFF), (0x034, -1), (0x040, 0x007FFFFFFFFFFFFC), (0x042, -1),
    (0x045, -1), (0x082, 0xFFF), (0x083, 0x01FFFFFFFFFF0000), (0x084, 0xFFFFFFFF), (0x085, 0xFFFFFFFF), (0x0C0, 0xFFFF),
    (0x0C1, 0x0000FFFFFFFF0000), (0x0C3, 0xFFFFFFFF), (0x0C4, 0xF), (0x0C5, 0x0000FFFFFFFF0000), (0x0C6, 0xFFFF)] :
    List (Nat × Word)), keeps p.1 p.2) ∧
  (∀ n, 0x010 ≤ n → n ≤ 0x01F → keeps n (-1)) ∧
  leaves 0x000 (BitVec.ofNat 64 (min (v.toNat % 2 ^ 11) vlmax % 2 ^ 11)) ∧
  leaves 0x041 ((v &&& 0x00000003FFFF0000) ||| (csrValue s 0x041 &&& 0x10) ||| ((if s.me.forced then csrValue s 0x041 else v) &&& 0x8)) ∧
  leaves 0x043 (csrValue s 0x043) ∧ leaves 0x044 (csrValue s 0x044) ∧
  (v.toNat / 4 % 4 = 3 → setCsr s 0x001 v = none) ∧ (v.toNat / 4 % 4 ≠ 3 → keeps 0x001 0x7F) ∧
  (v.toNat / 256 % 4 = 3 ∨ 11 ≤ v.toNat % 32 → setCsr s 0x004 v = none) ∧
  (v.toNat / 256 % 4 ≠ 3 → v.toNat % 32 < 11 → keeps 0x004 0x3FF) ∧
  (9 ≤ v.toNat % 32 → v.toNat % 32 ≤ 16 → keeps 0x0C2 0x1F) ∧ (v.toNat % 32 < 9 ∨ 16 < v.toNat % 32 → setCsr s 0x0C2 v = none)) ∧
  (∀ (s : State) (v : Word), s.me.mode = .task →
  let leaves (n : Nat) (x : Word) : Prop := ∃ u, setCsr s n v = some u ∧ csrValue u n = x ∧
    (∀ k, k ≠ n → csrValue u k = csrValue s k) ∧ (∀ c, c ≠ s.cur → u.ctx c = s.ctx c) ∧ u.mem = s.mem
  leaves 0x001 ((v &&& 0x70) ||| (csrValue s 0x001 &&& 0x0F)) ∧ leaves 0x005 (v &&& 0x1F) ∧
  (v.toNat / 256 % 4 = 3 ∨ 11 ≤ v.toNat % 32 → setCsr s 0x004 v = none) ∧
  (v.toNat / 256 % 4 ≠ 3 → v.toNat % 32 < 11 → leaves 0x004 (v &&& 0x3FF)))

/-- R170, R172, R178, R185, R311, R312, R316, R348: a fence waits while a path that it names has work of the task outstanding, and goes on otherwise,
with the delayed scalar stores and the queued vector stores performed if it names path O; naming O and X it waits for the status entries
that the send ports can write with no record to hand over (assumption 31, the model's reading of R185); SVFENCE does the
former for .sv, the latter for .vs, both for .full; IFENCE does the latter and discards what was fetched ahead. A FENCE that names P needs ENABLE.POSTED.
Past moments at which later reads could stand are over for reads on the fence's paths, for vector reads where they are over for scalar reads
under .sv, and the other way round under .vs (assumption 9, the model's choice). -/
def Obligations.Fences : Prop := ∀ (p : BitVec 5) (c : BitVec 3) (f : BitVec 2) (s : State),
  let t := s.drain s.cur
  let u := if p.getLsbD 0 then (s.settleStores s.cur).drain s.cur else s
  let on (v : State) (i : Instr) (ended : Pin → Prop) : Prop := ∃ w : State, exec i s = .next (w.setMe w.me.advance) ∧
    w = { v with pins := w.pins } ∧ ∀ q ∈ w.pins, q.ctx = s.cur → ended q
  let usable : Prop := p.getLsbD 1 = true → s.myPkg.enable.getLsbD 6 = true
  (¬usable → Traps (.fence p c) s 0x004 ((encode (.fence p c)).setWidth 64)) ∧
  (usable → Outstanding s s.cur p → Waits (.fence p c) s) ∧
  (usable → ¬Outstanding s s.cur p → on u (.fence p c) fun q =>
    (p.getLsbD 0 = true → q.scalar = false ∧ q.vector = false) ∧ (p.getLsbD 2 = true → q.copy = false) ∧
    (p.getLsbD 4 = true → q.tile = false)) ∧
  (let r := if f.getLsbD 0 then s.settleStores s.cur else s
   let v := if f.getLsbD 1 then r.drain s.cur else r
   on v (.svfence f) fun q =>
     (f.getLsbD 0 = true → q.vector = true → q.scalar = true) ∧ (f.getLsbD 1 = true → q.scalar = true → q.vector = true)) ∧
  on (t.setMe { t.me with prefetched := [] }) .ifence fun q => q.scalar = true → q.vector = true

/-- R55, R168, R170: performing a context's queued vector stores empties the queue; a place that no store of the queue names reads
as before, a place that exactly one names reads as that store says, and no register of any context changes. That stores wait at all, in lists of
their context with stamps for program order, is the model's choice (assumption 9): performing the delayed scalar stores leaves each place with the
youngest store's byte, a scalar store that is delayed leaves memory as it is and waits at the end of its context's scalar accesses, and what a
scalar access, a release or a fence on path O waits for takes in every scalar access in flight. -/
def Obligations.QueuedStoresPerformed : Prop :=
  (∀ (s : State) (c : Nat),
  let t := s.drain c
  let ws := (s.ctx c).vstores.flatMap (·.bytes)
  t.ctx c = { s.ctx c with vstores := [], drained := (t.ctx c).drained } ∧ (∀ d, d ≠ c → t.ctx d = s.ctx d) ∧
  (∀ l, (∀ w ∈ ws, w.1 ≠ l) → t.locByte l = s.locByte l) ∧
  ((ws.map (·.1)).Nodup → ∀ w ∈ ws, Holds s w.1 → t.locByte w.1 = w.2) ∧
  OnlyMemory { s with free := t.free } t) ∧
  (∀ (s : State) (c : Nat), (∀ h ∈ (s.ctx c).delayed, ∃ n m bs, h = .store n m bs) →
  let t := s.settleStores c
  let ws := (s.ctx c).delayed.flatMap Held.bytes
  t.ctx c = { s.ctx c with delayed := [] } ∧ (∀ d, d ≠ c → t.ctx d = s.ctx d) ∧
  (∀ l, (∀ w ∈ ws, w.1 ≠ l) → t.locByte l = s.locByte l) ∧
  (∀ pre w post, ws = pre ++ w :: post → (∀ v ∈ post, v.1 ≠ w.1) → Holds s w.1 → t.locByte w.1 = w.2) ∧
  OnlyMemory s t) ∧
  (∀ (d a : BitVec 5) (o : BitVec 13) (w : BitVec 2) (s t : State) (ls : List Loc),
  let x : Word := BitVec.ofInt 64 ((s.me.reg a).toNat + o.toInt)
  let n := 2 ^ w.toNat
  (x.toNat % n ≠ 0 → delaySt d a o w s = .next (s.trapNow 0x010 x noInfo)) ∧
  (x.toNat % n = 0 → (locateBytes s.who .write x.toNat n).run s = (.ok ls, t) → delaySt d a o w s = .next (t.setMe { t.me with
    delayed := t.me.delayed ++ [.store t.me.newStamp t.me.sAfter (ls.zip (leBytes n (s.me.reg d).toNat))]
    pc := nextPc t.me.pc 1, stall := [], busy := false }))) ∧
  (∀ (d a b c : BitVec 5) (o : BitVec 13) (w : BitVec 3) (v : BitVec 2) (z : BitVec 1) (x : Ctx),
  ∀ i ∈ ([.ld d a o w, .st d a o v, .amoAdd d a b z, .amoSwap d a b z, .cas d a b c z, .barrive d a b, .barwait d a b c, .sisect d a b,
    .smerge d a b, .tspawn a, .tend, .svfence 1, .svfence 3, .fence 1 w] : List Instr),
    ∀ h ∈ x.delayed, h.stamp < (placeBounds x i (needOf i)).1)

/-- R58, R251, R252: an instruction word run in task mode changes no register of a package or a die that software sets, no handler address and no
saved trap register of a context that stays in task mode; if the context is in supervisor mode afterwards, a trap brought it there, to its handler.
No other context changes its mode. -/
def Obligations.TaskModeCannotConfigure : Prop := ∀ (w : BitVec 32) (i : Instr) (s t : State), decode w = .ok i → s.me.mode = .task →
  exec i s = .next t →
  (∀ p, t.pkg p = { s.pkg p with events := (t.pkg p).events }) ∧
  (∀ d, t.die d = { s.die d with
    nextSeq := (t.die d).nextSeq, queued := (t.die d).queued, tails := (t.die d).tails, heads := (t.die d).heads
    areas := (t.die d).areas, corrupted := (t.die d).corrupted, stopped := (t.die d).stopped }) ∧
  (∀ c, (t.ctx c).tvec = (s.ctx c).tvec ∧ (c ≠ s.cur → (t.ctx c).mode = (s.ctx c).mode)) ∧
  (t.me.mode = .supervisor → t.me.pc = s.me.tvec ∧ s.me.tvec ≠ 0) ∧
  (t.me.mode = .task → t.me.tepc = s.me.tepc ∧ t.me.cause = s.me.cause ∧ t.me.tinfo = s.me.tinfo ∧ t.me.tscratch = s.me.tscratch)
/-! ## Translation and the stash -/

/-- R153 to R156, R158: where nothing of the walk to it is cached an address is translated through at most three levels: the entry of a node at
eight times the index, where R19 populates it and its line is not poisoned, whose V, M and L bits decide whether the walk faults with 0x101,
waits, ends in a leaf or goes on at the node that bits [56:16] name; an entry that breaks the form of R154 raises 0x105. A leaf gives the page address plus the offset
below its level, if it allows the access, and 0x102 otherwise: it allows every read, a write or an atomic with W (bit 2), a fetch with X (bit 3),
and in task mode none with S (bit 4) set. The ticks of a wait are counted for the walk (assumption 23). -/
def Obligations.PageTableWalk : Prop :=
  (∀ (s : State) (who : Who) (kind : Access) (va : Nat),
  cached s who va = none → cachedTable s who va = none →
  let p := pkgOfCore who.core
  let root := (s.pkg p).ptroot.toNat
  let slot (node sh : Nat) := node + 8 * (va / 2 ^ sh % 2 ^ 13)
  let node (e : Nat) := e / 2 ^ 16 % 2 ^ 41 * 2 ^ 16
  let table (a sh e : Nat) : Prop := ∃ pa, physical s p a = some pa ∧ poisoned s pa = false ∧ e = physNat s pa 8 ∧
    e % 2 = 1 ∧ e / 2 ^ 7 % 2 = 0 ∧ e / 2 % 2 = 0 ∧ pteMalformed e sh = false
  let fault (cause : BitVec 10) (info a : Nat) : Prop := translate s who kind va = .error (.trap cause (BitVec.ofNat 64 info) (atAddr va a))
  let ends (a sh : Nat) : Prop :=
    (physical s p a = none → fault 0x382 va a) ∧
    (∀ pa, physical s p a = some pa →
     let e := physNat s pa 8
     (poisoned s pa = true → fault 0x381 va a) ∧
     (poisoned s pa = false → e % 2 = 0 → fault 0x101 va a) ∧
     (poisoned s pa = false → e % 2 = 1 →
       (e / 2 ^ 7 % 2 = 1 → waitExpired s who (walkKey va) = false → translate s who kind va = .error (.waitOn [walkKey va])) ∧
       (e / 2 ^ 7 % 2 = 1 → waitExpired s who (walkKey va) = true → fault 0x103 a a) ∧
       (e / 2 ^ 7 % 2 = 0 → pteMalformed e sh = true → fault 0x105 a a) ∧
       (e / 2 ^ 7 % 2 = 0 → pteMalformed e sh = false → e / 2 % 2 = 1 →
         (leafAllows e kind who.mode = true → translate s who kind va = .ok (node e + va % 2 ^ sh)) ∧
         (leafAllows e kind who.mode = false → fault 0x102 va a))))
  ends (slot root 42) 42 ∧ ∀ e1, table (slot root 42) 42 e1 →
    ends (slot (node e1) 29) 29 ∧ ∀ e2, table (slot (node e1) 29) 29 e2 → ends (slot (node e2) 16) 16) ∧
  (∀ (e : Nat) (kind : Access) (mode : Mode),
  leafAllows e kind mode = true ↔
    (kind = .write ∨ kind = .atomic → e / 4 % 2 = 1) ∧ (kind = .fetch → e / 8 % 2 = 1) ∧ (mode = .task → e / 16 % 2 = 0))

/-- R156 to R158, R351, R352: PAGE_TABLE_WALK keeps for its core and unit exactly what the walk to its address reads with V = 1 and M = 0 in
the form of R154, the table pointers on the way and the leaf, in place of what was kept for the address: a walk that ends without a leaf leaves only
the pointers before its end. TLBINV, once the stores in flight of its scope are performed, drops exactly the kept translations in its scope (the
package, or the whole domain for scope 4) that map the page of its address, or all of them with L = 1, and waits while posted stores are not
performed. Which walks happen ahead of use is the agenda's choice (assumptions 3, 15). -/
def Obligations.KeptTranslations : Prop := ∀ (a : BitVec 5) (c : BitVec 3) (l : BitVec 1) (k : Nat) (u : UnitKind) (va : Word)
    (s : State),
  let t := s.settleScope (c == 4#3)
  let x := (s.me.reg a).toNat % 2 ^ 55
  let inScope (q : Nat) : Prop := if c = 4#3 then inDomain s (s.cur / 1024) q = true else q = s.cur / 1024
  let hit (e : TlbEntry) : Prop := inScope (e.core / 256) ∧ (l = 1#1 ∨ x / 2 ^ e.level = e.granule)
  let mine (o : TlbEntry) : Prop := o.core = k ∧ o.kind = u ∧ va.toNat / 2 ^ o.level = o.granule
  let slot (node sh : Nat) := node + 8 * (va.toNat / 2 ^ sh % 2 ^ 13)
  let node (e : Nat) := e / 2 ^ 16 % 2 ^ 41 * 2 ^ 16
  let reads (a sh e : Nat) : Prop := ∃ pa, physical s (k / 256) a = some pa ∧ poisoned s pa = false ∧ e = physNat s pa 8 ∧
    e % 2 = 1 ∧ e / 2 ^ 7 % 2 = 0 ∧ pteMalformed e sh = false
  let top := slot (s.pkg (k / 256)).ptroot.toNat 42
  let kept (sh e : Nat) : Prop :=
    (sh = 42 ∧ reads top 42 e) ∨
    (sh = 29 ∧ ∃ e1, reads top 42 e1 ∧ e1 / 2 % 2 = 0 ∧ reads (slot (node e1) 29) 29 e) ∨
    (sh = 16 ∧ ∃ e1 e2, reads top 42 e1 ∧ e1 / 2 % 2 = 0 ∧ reads (slot (node e1) 29) 29 e2 ∧ e2 / 2 % 2 = 0 ∧
      reads (slot (node e2) 16) 16 e)
  (s.me.mode = .supervisor → (∀ q ∈ s.posted, q.performed = true) → ∃ tlb,
    exec (.tlbinv a c l) s = .next ({ t with tlb := tlb }.setMe t.me.advance) ∧ ∀ e, e ∈ tlb ↔ e ∈ s.tlb ∧ ¬hit e) ∧
  (s.me.mode = .supervisor → (∃ q ∈ s.posted, q.performed = false) → Waits (.tlbinv a c l) s) ∧
  (va.toNat < 2 ^ 55 → ∃ tlb, exec (.pageTableWalk k u va) s = .next { s with tlb := tlb } ∧
    (∀ o, ¬mine o → (o ∈ tlb ↔ o ∈ s.tlb)) ∧ ∀ o, mine o → (o ∈ tlb ↔ kept o.level o.leaf.toNat)) ∧
  (2 ^ 55 ≤ va.toNat → exec (.pageTableWalk k u va) s = .next s)

/-- R135, R137, R138, R140, R147: an access to a window address whose entry, read on the task's behalf, is resident in a spill-backed
frame that belongs to it reaches the byte of that frame, marks the page dirty if it writes, starts a pull if the frame is another
core's, and changes nothing else but the order of use. An entry whose state is invalid raises 0x1C1, whatever its bits above [3:2] hold; a BUSY
one is waited for, and raises 0x1C3 once the limit is reached, and so do at once an entry that breaks the form of its state and a resident one that
names no frame or a frame of another page; without ENABLE.STASH the access raises 0x004. All this where the context caches no copy of the entry (R139). -/
def Obligations.StashAccess : Prop := ∀ (who : Who) (kind : Access) (va pe : Nat) (s : State),
  inWindow va = true → who.path = .o ∨ who.path = .c ∨ who.path = .m →
  let entry := (who.sptroot.toNat + 8 * (va / 2 ^ 12 % 2 ^ 14)) % 2 ^ 64
  (∀ p ∈ s.spt, p.ctx = who.ctx → p.entry ≠ entry) →
  let e := physNat s pe 8
  let on : Prop := (s.pkg (pkgOf who.ctx)).enable.getLsbD 3 = true
  let here : Prop := on ∧ who.sptroot ≠ 0 ∧ Mapped s who.asTask .read entry 8 pe
  let i := e / 2 ^ 4 % 2 ^ 8
  let w := kind = .write ∨ kind = .atomic
  (¬on → (locate who kind va).run s = (.error (.trap 0x004 (BitVec.ofNat 64 va) (atAddr va 0)), s)) ∧
  (on → who.sptroot = 0 → (locate who kind va).run s = (.error (.trap 0x1C1 (BitVec.ofNat 64 va) noInfo), s)) ∧
  let p := pkgOfCore who.core
  let bad (e : Nat) : Prop := match e % 4 with
    | 0 => e / 8 % 2 = 1
    | 1 => e / 2 ^ 29 ≠ 0 ∨ match s.coreAt p (e / 2 ^ 12 % 2 ^ 17) with
      | none => True
      | some k => ∀ f, (s.core k).frame i = some f → f.entry ≠ BitVec.ofNat 64 entry
    | _ => e / 2 ^ 55 ≠ 0 ∨ e / 8 % 2 ^ 9 ≠ 0
  (here → e % 16 = 0 → (locate who kind va).run s =
    (.error (.trap 0x1C1 (BitVec.ofNat 64 va) { noInfo with w4 := BitVec.ofNat 64 entry }), s)) ∧
  (here → e / 4 % 2 = 0 → bad e → (locate who kind va).run s =
    (.error (.trap 0x1C3 (BitVec.ofNat 64 entry) { noInfo with w4 := BitVec.ofNat 64 entry }), s)) ∧
  (here → e / 4 % 2 = 1 → waitExpired s who (busyKey entry) = false →
    (locate who kind va).run s = (.error (.waitOn [busyKey entry]), s)) ∧
  (here → e / 4 % 2 = 1 → waitExpired s who (busyKey entry) = true → (locate who kind va).run s =
    (.error (.trap 0x1C3 (BitVec.ofNat 64 entry) { noInfo with w4 := BitVec.ofNat 64 entry }), s)) ∧
  (∀ k f, here → e % 8 = 1 → e / 2 ^ 29 = 0 → s.coreAt p (e / 2 ^ 12 % 2 ^ 17) = some k → (s.core k).frame i = some f →
    f.entry = BitVec.ofNat 64 entry → f.mapped = false →
    let g : Frame := { f with
      last := s.clock
      pageDirty := f.pageDirty || decide w
      pull := if k = who.core then f.pull else some (f.pull.getD who.core) }
    (locate who kind va).run s =
      (.ok (.frame k i (va % 4096)), { s.setCore k ((s.core k).setFrame i g) with clock := s.clock + 1 }))

/-- R137, R144, R149, R347: STFLUSH takes the page of its window address, or every page of the table, out of its frame: a resident page
is written back, its entry becomes spilled or mapped and the frame free; STINV makes the entry invalid, after writing back only a mapped
page. A page that is not resident is left by STFLUSH, and an entry that is not invalid becomes invalid by STINV. Without ENABLE.STASH both
raise 0x004, and an address outside the window raises 0x1C4. With SPTROOT = 0 there is nothing to take out. Both come after the context's own stores,
and its later reads on path O after them. The last part, with every condition on the state and the operands alone: with nothing in flight, an invalid
page is left as it is, also every page of the table under L = 1, and a clean spill-backed page that is resident leaves its frame. -/
def Obligations.StashFlush : Prop :=
  (∀ (a : BitVec 5) (l : BitVec 1) (s : State),
  let t := (s.settleStores s.cur).drain s.cur
  let va := (s.me.reg a).toNat
  let stash := 0xFF00000000000000 + 4096 * (va / 2 ^ 12 % 2 ^ 14)
  let done (u : State) : Host.Outcome State Fault Refusal :=
    let w := u.closePins u.cur [.scalar, .vector]
    .next (w.setMe w.me.advance)
  let F (inv : Bool) (i : Instr) : Prop :=
    (s.myPkg.enable.getLsbD 3 = false → Traps i s 0x004 ((encode i).setWidth 64)) ∧
    (s.myPkg.enable.getLsbD 3 = true →
      (l = 0#1 → inWindow va = false → exec i s = .next (t.trapNow 0x1C4 (s.me.reg a) (atAddr va 0))) ∧
      (l = 0#1 → inWindow va = true → s.me.sptroot = 0 → exec i s = done t) ∧
      (l = 1#1 → s.me.sptroot = 0 → exec i s = done t) ∧
      (∀ entry e u, l = 0#1 → inWindow va = true → s.me.sptroot ≠ 0 → (readEntry t.who stash).run t = (.ok (entry, e), u) →
        (e % 4 = 0 → exec i s = done u) ∧
        (2 ≤ e % 4 → inv = false → exec i s = done u) ∧
        (∀ v, 2 ≤ e % 4 → inv = true → (setEntry t.who entry 0).run u = (.ok (), v) → exec i s = done v) ∧
        (∀ k j f f' ls u1 w v, e % 4 = 1 → entryFrame t (s.cur / 1024) e = some (k, j, f) → f.entry = BitVec.ofNat 64 entry →
          (globalLocs t.who.asTask .atomic entry 8).run u = (.ok ls, u1) → ((u1.settlePage k j f).core k).frame j = some f' →
          (if inv = false ∨ f'.mapped = true then (writeBack t.who k f').run (u1.settlePage k j f) = (.ok (), w) else w = u1.settlePage k j f) →
          (setEntry t.who entry (if inv then 0 else f'.page.toNat + (if f'.mapped then 3 else 2))).run w = (.ok (), v) →
          let z := v.setCore k ((v.core k).freeFrame j)
          exec i s = done (if inv && !f'.mapped then z.pageDropped k j else z.pageLeaves k j f'))))
  F false (.stflush a l) ∧ F true (.stinv a l)) ∧
  (∀ (a : BitVec 5) (l : BitVec 1) (s : State) (pe : Nat → Nat),
  let va := (s.me.reg a).toNat
  let entry (p : Nat) := (s.me.sptroot.toNat + 8 * p) % 2 ^ 64
  let page := va / 2 ^ 12 % 2 ^ 14
  let e := physNat s (pe page) 8
  let done (u : State) : Prop := u.me = s.me.advance ∧ ∀ c, c ≠ s.cur → u.ctx c = s.ctx c
  s.myPkg.enable.getLsbD 3 = true → s.me.noneInFlight = true → s.spt = [] → s.me.sptroot ≠ 0 →
  (∀ i ∈ ([.stflush a l, .stinv a l] : List Instr),
    (l = 0#1 → inWindow va = true → Mapped s s.who.asTask .read (entry page) 8 (pe page) → e = 0 →
      ∃ u, exec i s = .next u ∧ done u ∧ SameBytes s u) ∧
    (l = 1#1 → (∀ p, p < 16384 → Mapped s s.who.asTask .read (entry p) 8 (pe p) ∧ physNat s (pe p) 8 = 0) →
      ∃ u, exec i s = .next u ∧ done u ∧ SameBytes s u)) ∧
  (∀ k f, l = 0#1 → inWindow va = true → Mapped s s.who.asTask .read (entry page) 8 (pe page) →
    Mapped s s.who.asTask .atomic (entry page) 8 (pe page) → e % 8 = 1 → e / 2 ^ 29 = 0 →
    s.coreAt (s.cur / 1024) (e / 2 ^ 12 % 2 ^ 17) = some k → (s.core k).frame (e / 2 ^ 4 % 2 ^ 8) = some f →
    f.entry = BitVec.ofNat 64 (entry page) → f.mapped = false → f.pageDirty = false → f.page.toNat < 2 ^ 55 → (∀ x ∈ s.ctxs, x.2.noneInFlight = true) →
    let left (i : Instr) (v : Nat) : Prop := ∃ u, exec i s = .next u ∧ SameButAhead s.me.advance u.me ∧
      (∀ c, c ≠ s.cur → SameButAhead (s.ctx c) (u.ctx c)) ∧ (u.core k).frame (e / 2 ^ 4 % 2 ^ 8) = none ∧
      physNat u (pe page) 8 = v ∧ ∀ b, (∀ o, o < 8 → b ≠ pe page + o) → u.locByte (.phys b) = s.locByte (.phys b)
    left (.stflush a l) (f.page.toNat + 2) ∧ left (.stinv a l) 0))

/-- R142 to R144, R147: STASH_FILL gives the page of a spilled or mapped entry a frame, STASH_LINE_FILL makes a line of a resident mapped page
valid, and PULL moves a page to the core whose access started the pull; each changes nothing where its case does not hold. That they may
come at any time is the model's reading (assumption 3). The last part puts every condition on the state and the operands alone: a free frame
takes a spilled or mapped page with the bytes of its physical page, and the entry names the frame; a pulled page moves with its bytes. -/
def Obligations.StashEvents : Prop :=
  (∀ (c : Nat) (p : BitVec 14) (j : BitVec 6) (s u : State) (entry e : Nat),
  let who : Who := { fv4Who c [] with sptroot := (s.ctx c).sptroot, since := s.clock }
  let va := 0xFF00000000000000 + p.toNat * 4096
  ((s.ctx c).life = .idle → exec (.stashFill c p) s = .next s ∧ exec (.stashLineFill c p j) s = .next s ∧ exec (.pull c p) s = .next s) ∧
  ((s.ctx c).life ≠ .idle → (readEntry who va).run s = (.ok (entry, e), u) →
    (∀ n v, 2 ≤ e % 4 → (fillPage who va entry e).run u = (.ok n, v) → exec (.stashFill c p) s = .next v) ∧
    (e % 4 < 2 → exec (.stashFill c p) s = .next u) ∧
    (∀ k i f d v, e % 4 = 1 → entryFrame u (c / 1024) e = some (k, i, f) → f.pull = some d → f.entry = BitVec.ofNat 64 entry → d ≠ k →
      (pullPage who va entry k i d f).run u = (.ok (), v) → exec (.pull c p) s = .next v) ∧
    (∀ k i f, e % 4 = 1 → entryFrame u (c / 1024) e = some (k, i, f) → f.pull = none → exec (.pull c p) s = .next u))) ∧
  (∀ (c : Nat) (p : BitVec 14) (j : BitVec 6) (s : State) (pe : Nat),
  let who : Who := { fv4Who c [] with sptroot := (s.ctx c).sptroot, since := s.clock }
  let entry := ((s.ctx c).sptroot.toNat + 8 * p.toNat) % 2 ^ 64
  let e := physNat s pe 8
  let fp := e / 2 ^ 12 % 2 ^ 43 * 4096
  (s.ctx c).life ≠ .idle → (s.ctx c).sptroot ≠ 0 → s.spt = [] → Mapped s who.asTask .read entry 8 pe → e / 4 % 2 = 0 →
  (∀ i pa, Mapped s who.asTask .atomic entry 8 pe → 2 ≤ e % 4 → e / 2 ^ 55 = 0 → e / 8 % 2 ^ 9 = 0 → i < 256 →
    (∀ k, k < i → (s.core (c / 4)).frame k ≠ none) → (s.core (c / 4)).frame i = none →
    Leads s { who.asTask with unit := .core } .read fp pa →
    ∃ u f, exec (.stashFill c p) s = .next u ∧ (u.core (c / 4)).frame i = some f ∧ f.entry = BitVec.ofNat 64 entry ∧
      f.mapped = decide (e % 4 = 3) ∧ f.page = BitVec.ofNat 64 fp ∧ f.phys = pa ∧ f.valid = 0 ∧ f.dirty = 0 ∧ f.pageDirty = false ∧
      (e % 4 = 2 → ∀ o, o < 4096 → u.locByte (.frame (c / 4) i o) = s.locByte (.phys (pa + o))) ∧
      physNat u pe 8 = s.coreNumber (c / 4) * 4096 + i * 16 + (if e % 4 = 3 then 8 else 0) + 1 ∧
      (∀ b, (∀ o, o < 8 → b ≠ pe + o) → u.locByte (.phys b) = s.locByte (.phys b)) ∧ ∀ d, SameButAhead (s.ctx d) (u.ctx d)) ∧
  (∀ k f pa, e % 4 = 1 → e / 2 ^ 29 = 0 → s.coreAt (c / 1024) (e / 2 ^ 12 % 2 ^ 17) = some k → (s.core k).frame (e / 2 ^ 4 % 2 ^ 8) = some f →
    f.entry = BitVec.ofNat 64 entry → f.mapped = true → f.valid.getLsbD j.toNat = false →
    let w : Who := { who.asTask with core := k, unit := .core }
    cacheFails s w .read f.page.toNat = false → translate s w .read f.page.toNat = .ok pa →
    exec (.stashLineFill c p j) s =
      .next (s.setCore k ((s.core k).setFrame (e / 2 ^ 4 % 2 ^ 8) { f with valid := f.valid ||| (1#64 <<< j.toNat) }))) ∧
  (∀ k d i f, e % 4 = 1 → e / 2 ^ 29 = 0 → s.coreAt (c / 1024) (e / 2 ^ 12 % 2 ^ 17) = some k → (s.core k).frame (e / 2 ^ 4 % 2 ^ 8) = some f →
    f.entry = BitVec.ofNat 64 entry → f.pull = some d → d ≠ k → i < 256 → (∀ n, n < i → (s.core d).frame n ≠ none) → (s.core d).frame i = none →
    (∀ x ∈ s.ctxs, x.2.noneInFlight = true) → Mapped s { who.asTask with core := d } .atomic entry 8 pe →
    ∃ u, exec (.pull c p) s = .next u ∧ (u.core k).frame (e / 2 ^ 4 % 2 ^ 8) = none ∧ (u.core d).frame i = some { f with pull := none } ∧
      physNat u pe 8 = s.coreNumber d * 4096 + i * 16 + (if f.mapped then 8 else 0) + 1 ∧
      (∀ b, (∀ o, o < 8 → b ≠ pe + o) → u.locByte (.phys b) = s.locByte (.phys b)) ∧ ∀ d, SameButAhead (s.ctx d) (u.ctx d)))

/-! ## Tasks, barriers, copy commands -/

/-- R27 to R31, R41, R355, R356: TSPAWN, after the queued vector stores, checks the record at s[a] and puts an entry into the ring of the
die and level that its control word names (any die of the package that it names under SCOPE 4): the record's address, the control word, the
wait address and value and the die's next sequence number, at the slot after the last one where that slot is free. A record at no multiple of
64 raises 0x010; one whose words break their form, or that names no die of the domain, 0x342; a full or stopped ring 0x345; each with its address. -/
def Obligations.TaskSpawn : Prop := ∀ (a : BitVec 5) (s : State),
  let x := s.me.reg a
  let t := s.drain s.cur
  (x.toNat % 64 ≠ 0 → exec (.tspawn a) s = .next (t.trapNow 0x010 x noInfo)) ∧
  (x.toNat % 64 = 0 → 2 ^ 55 ≤ x.toNat → exec (.tspawn a) s = .next (t.trapNow 0x342 x noInfo)) ∧
  ∀ pa, x.toNat % 64 = 0 → Mapped t s.who .read x.toNat 64 pa →
    let w (j : Nat) : Word := BitVec.ofNat 64 (physNat t (pa + 8 * j) 8)
    let form := recordForm ((List.range 8).map w)
    let scope := (w 2).toNat / 2 ^ 43 % 16
    (form = false → exec (.tspawn a) s = .next (t.trapNow 0x342 x noInfo)) ∧
    (form = true → ∃ pick n, pick < 4 ∧ (scope ≠ 4 → n = t.free) ∧
      let v := { t with free := n }
      let die := t.dieFor (s.cur / 1024) (w 2) (s.cur / 256) (if scope = 4 then pick else 0)
      (die = none → exec (.tspawn a) s = .next (v.trapNow 0x342 x noInfo)) ∧
      ∀ d, die = some d →
        let q := t.die d
        let level := (w 2).toNat / 2 ^ 32 % 128
        let size := 2 ^ q.qdepth.toNat
        let room : Prop := q.stopped = false ∧ (q.queued.filter fun e => e.1 == level).length + 256 < size
        let slot := tableGet q.tails level 0 % size
        let at_ := d / 4 * 2 ^ 48 + q.qbase.toNat + (level * size + slot) * 64
        (¬room → exec (.tspawn a) s = .next (v.trapNow 0x345 x noInfo)) ∧
        (room → (level, slot) ∉ q.queued → badLine t (d / 4) at_ 64 true = none →
          ∃ u, exec (.tspawn a) s = .next u ∧ u.me = t.me.advance ∧ (∀ c, c ≠ s.cur → u.ctx c = t.ctx c) ∧
            PutAt t u at_ (leBytes 8 x.toNat ++ leBytes 8 (w 2).toNat ++ leBytes 8 (w 5).toNat ++ leBytes 8 (w 6).toNat ++
              leBytes 8 q.nextSeq.toNat ++ List.replicate 24 0#8) ∧
            u.die d = { q with nextSeq := q.nextSeq + 1, queued := q.queued ++ [(level, slot)]
                               tails := tableSet q.tails level ((slot + 1) % size) } ∧ ∀ e, e ≠ d → u.die e = t.die e))

/-- R42 to R44, R349, R350: TEND, once the task has nothing outstanding on the paths P, C and X and, in task mode, no
pending cause, gives up everything: the context is idle with no holding and no channel, a matrix unit it held is free, its save area is
back in the pool; registers of other contexts and memory are unchanged but for the older stores and, with a parent, the JOIN word at byte 16 of
its record, which is one less. Until then it stays, and counts as ending. In supervisor mode with FORCED set it abandons the task at once. A JOIN
of 0 raises 0x344 with the parent's address, and the task does not end; a JOIN of 1 also puts the parent into its ring, as TSPAWN does. That the
decrement takes a parent address that is only a multiple of 4, with the rights of the context's mode, is the model's choice (assumption 61). -/
def Obligations.TaskEnd : Prop :=
  (∀ (s : State),
  let t := s.finishOlder s.cur
  let busy : Prop := Outstanding t s.cur 0b01110#5
  let gone (u : State) : Prop := u.me.life = .idle ∧ u.me.held = 0 ∧ u.me.area = none ∧ (∀ j, get16 u.me.chans j = none) ∧
    (u.core (s.cur / 4)).mu.holder ≠ some s.cur ∧
    (∀ a, s.me.area = some a → a.index ∉ (u.die a.die).areas) ∧
    ∀ c, c ≠ s.cur → (u.ctx c).s = (s.ctx c).s ∧ (u.ctx c).v = (s.ctx c).v ∧ (u.ctx c).pc = (s.ctx c).pc ∧
      (u.ctx c).life = (s.ctx c).life ∧ (u.ctx c).held = (s.ctx c).held
  (s.me.mode = .supervisor → s.me.forced = true → ∃ u, exec .tend s = .next u ∧ gone u ∧
    ((∀ j, get8 s.me.cmds j = none) → ∀ l, u.locByte l = t.locByte l)) ∧
  (¬(s.me.mode = .supervisor ∧ s.me.forced = true) →
    let clear : Prop := ¬busy ∧ (s.me.mode = .task → s.me.pending = [] ∧ s.me.lost = false)
    (busy → exec .tend s = .next (t.setMe { t.me with ending := true })) ∧
    (¬busy → s.me.mode = .task → s.me.pending ≠ [] ∨ s.me.lost = true →
      exec .tend s = .next ((t.setMe { t.me with ending := false }).takeAsync s.cur)) ∧
    (clear → s.me.parent = 0 → ∃ u, exec .tend s = .next u ∧ gone u ∧ ∀ l, u.locByte l = t.locByte l) ∧
    (∀ pa, clear → s.me.parent ≠ 0 → s.me.parent.toNat % 4 = 0 → Mapped t t.who .atomic (s.me.parent.toNat + 16) 4 pa →
      let n := physNat t pa 4
      (2 ≤ n → ∃ u, exec .tend s = .next u ∧ gone u ∧ PutAt t u pa (leBytes 4 (n - 1))) ∧
      (n = 0 → exec .tend s = .next ((t.setMe { t.me with ending := true }).trapNow 0x344 s.me.parent noInfo))))) ∧
  (∀ (who : Who) (parent : Word) (home : Nat) (s : State) (pa : Nat),
  parent.toNat % 4 = 0 → Mapped s who .atomic (parent.toNat + 16) 4 pa →
  let n := physNat s pa 4
  (n = 0 → (join who parent home).run s = (.error (.trap 0x344 parent noInfo), s)) ∧
  (2 ≤ n → ∃ t, (join who parent home).run s = (.ok (), t) ∧ PutAt s t pa (leBytes 4 (n - 1)) ∧ OnlyMemory s t ∧ t.ctxs = s.ctxs) ∧
  (∀ d w u, n = 1 → (checkRecord who parent home false).run s = (.ok (d, w), u) →
    ∀ (v : State) (ws : List Word),
    (readVa who parent.toNat 64).run (u.writeLocs ((List.range 4).map fun k => (.phys (pa + k), 0#8))) =
      (.ok (leNat (ws.flatMap fun x => leBytes 8 x.toNat)), v) → ws.length = 8 →
    (join who parent home).run s = (.ok (), v.pushRecord d parent ((ws[2]?).getD 0) ((ws[5]?).getD 0) ((ws[6]?).getD 0))))

/-- R230 to R233, R286, R287, R173: BARRIVE adds its count to the arrivals of a well-formed barrier object and gives d the old word 0; when every
expected arrival and, with BYTES, every byte has come, the phase goes on and the counts are zero again. More arrivals than are left set OVR
and raise 0x301. BARWAIT gives d word 0 as soon as the phase differs from s[b], an acquire after which no read stands at a past moment, and with bit
63 set once its limit has passed; until then it stays. A malformed object raises 0x302, a poisoned line 0x381. The object lies wherever its
address leads, also into the stash window: `u` is the state once its places are found; where they cannot be found the instruction traps, or waits with
the ticks counted for what it waits for (R138, R158, assumption 23), a BARWAIT with its count of ticks begun. -/
def Obligations.Barriers : Prop := ∀ (d a b c : BitVec 5) (s : State),
  let x := s.me.reg a
  let t := s.drain s.cur
  let r := s.setMe { s.me with waited := some (s.me.waited.getD 0) }
  let E (w0 : Nat) := w0 % 2 ^ 20
  let A (w0 : Nat) := w0 / 2 ^ 20 % 2 ^ 20
  let P (w0 : Nat) := w0 / 2 ^ 40 % 2 ^ 4
  let bytes (w0 : Nat) : Bool := w0 / 2 ^ 45 % 2 == 1
  let BC (w1 : Nat) := w1 / 2 ^ 32
  let TB (w1 : Nat) := w1 % 2 ^ 32
  let bad (w0 w1 : Nat) : Prop := w0 / 2 ^ 46 ≠ 0 ∨ E w0 < A w0 ∨ (bytes w0 = true ∧ TB w1 < BC w1) ∨ (bytes w0 = false ∧ BC w1 ≠ 0) ∨
    (A w0 = E w0 ∧ (bytes w0 = true → BC w1 = TB w1))
  (x.toNat % 16 ≠ 0 → exec (.barrive d a b) s = .next (t.trapNow 0x010 x noInfo) ∧
    exec (.barwait d a b c) s = .next (r.trapNow 0x010 x noInfo)) ∧
  (x.toNat % 16 = 0 →
    (∀ u e, (locateBytes s.who .atomic x.toNat 16).run t = (.error e, u) →
      (∀ cause info q, e = .trap cause info q → exec (.barrive d a b) s = .next (u.trapNow cause info q)) ∧
      (∀ ks, e = .waitOn ks → exec (.barrive d a b) s = .next (s.setMe { s.me.waitsOn ks with busy := true })) ∧
      (e = .wait → Waits (.barrive d a b) s)) ∧
    (∀ u e, (locateBytes s.who .read x.toNat 16).run r = (.error e, u) →
      (∀ cause info q, e = .trap cause info q → exec (.barwait d a b c) s = .next (u.trapNow cause info q)) ∧
      (∀ ks, e = .waitOn ks → exec (.barwait d a b c) s = .next (r.setMe { r.me.waitsOn ks with busy := false }))) ∧
    (∀ u ls, (locateBytes s.who .atomic x.toNat 16).run t = (.ok ls, u) →
     let w0 := leNat ((ls.take 8).map u.locByte)
     let w1 := leNat ((ls.drop 8).map u.locByte)
     let n := (s.me.reg b).toNat
     ((∃ l ∈ ls, u.locPoisoned l = true) → exec (.barrive d a b) s = .next (u.trapNow 0x381 x (atAddr x.toNat 0))) ∧
     ((∀ l ∈ ls, u.locPoisoned l = false) →
       (bad w0 w1 → exec (.barrive d a b) s = .next (u.trapNow 0x302 x noInfo)) ∧
       (¬bad w0 w1 → E w0 < A w0 + n → ∃ v, exec (.barrive d a b) s = .next (v.trapNow 0x301 x noInfo) ∧ v.ctxs = u.ctxs ∧
         Stored u v (ls.take 8) (leBytes 8 (w0 ||| 2 ^ 44))) ∧
       (¬bad w0 w1 → A w0 + n ≤ E w0 → ∃ v, exec (.barrive d a b) s = .next v ∧ RegSet u.me v.me d (BitVec.ofNat 64 w0) ∧
         Stored u v ls (if A w0 + n = E w0 ∧ (bytes w0 = true → BC w1 = TB w1) then
             leBytes 8 (w0 / 2 ^ 44 * 2 ^ 44 + (P w0 + 1) % 16 * 2 ^ 40 + E w0) ++ leBytes 8 (TB w1)
           else leBytes 8 (w0 + n * 2 ^ 20) ++ leBytes 8 w1)))) ∧
    (∀ u ls, (locateBytes s.who .read x.toNat 16).run r = (.ok ls, u) →
     let w0 := leNat ((ls.take 8).map u.locByte)
     let w1 := leNat ((ls.drop 8).map u.locByte)
     let lim := s.me.reg c
     let late : Prop := lim ≠ 0xFFFFFFFFFFFFFFFF ∧ lim.toNat ≤ s.me.waited.getD 0
     let same : Prop := P w0 = (s.me.reg b).toNat % 16
     let done (v : State) (n : Nat) : Prop := exec (.barwait d a b c) s = .next v ∧ OnlyMe { u with pins := v.pins } v ∧
       RegSet { u.me with waited := none } v.me d (BitVec.ofNat 64 n)
     ((∃ l ∈ ls, u.locPoisoned l = true) → exec (.barwait d a b c) s = .next (u.trapNow 0x381 x (atAddr x.toNat 0))) ∧
     ((∀ l ∈ ls, u.locPoisoned l = false) →
       (bad w0 w1 → exec (.barwait d a b c) s = .next (u.trapNow 0x302 x noInfo)) ∧
       (¬bad w0 w1 → ¬same → ∃ v, done v w0 ∧
         ∀ p ∈ v.pins, p.ctx = s.cur → p.scalar = false ∧ p.vector = false ∧ p.copy = false ∧ p.tile = false) ∧
       (¬bad w0 w1 → same → late → ∃ v, done v (w0 + 2 ^ 63)) ∧
       (¬bad w0 w1 → same → ¬late → ∃ v, exec (.barwait d a b c) s = .next v ∧ OnlyMe { u with pins := v.pins } v ∧
         v.me = { u.me with stall := [], busy := false }))))

/-- R238, R314, R315: HBAR arrives once at the open episode of its scope's instance, which its first arrival opens with its own count, and
goes on when the episode has its count of arrivals; a context that has arrived waits for that episode. A count of 0 or above the contexts of
the scope, or another count than the episode's, raises 0x303 with the count; without ENABLE.HBAR the word raises 0x004. The instance is that of the
16 contexts of a quad (scope 1), the 256 of a die (2), the 1,024 of a package (3) or those of the domain that holds the context; the domain is
named by the lowest of its packages, and has 1,024 contexts for each package that the sets of PKGCFG name (assumption 51). -/
def Obligations.HierarchicalBarrier : Prop := ∀ (a : BitVec 5) (c : BitVec 3) (s : State),
  let x := s.me.reg a
  let n := x.toNat
  let i := (scopeInstance s s.cur c).1
  let t := s.drain s.cur
  let on : Prop := s.myPkg.enable.getLsbD 11 = true
  let fits : Prop := 1 ≤ n ∧ n ≤ (scopeInstance s s.cur c).2
  let goes (v u : State) : Prop := exec (.hbar a c) s = .next u ∧ u.me = { v.me.advance with hbar := none } ∧
    OnlyMe { v with episodes := u.episodes, nextEpisode := u.nextEpisode, pins := u.pins } u
  let waits (id : EpisodeId) (u : State) : Prop := exec (.hbar a c) s = .next u ∧ u.me = { t.me with hbar := some id } ∧
    OnlyMe { t with episodes := u.episodes, nextEpisode := u.nextEpisode } u
  let g := s.myPkg.pkgcfg
  let bits (lo n : Nat) : Nat := (List.range n).countP fun k => g.getLsbD (lo + k)
  (c = 1#3 → scopeInstance s s.cur c = (s.cur / 16, 16)) ∧ (c = 2#3 → scopeInstance s s.cur c = (s.cur / 256, 256)) ∧
  (c = 3#3 → scopeInstance s s.cur c = (s.cur / 1024, 1024)) ∧
  (c = 4#3 → (scopeInstance s s.cur c).2 = (if g.getLsbD 63 then 1024 * (bits 12 6 * bits 18 6 * bits 32 12) else 1024) ∧
    inDomain s (s.cur / 1024) i = true ∧ ∀ e ∈ s.pkgs, inDomain s (s.cur / 1024) e.1 = true → i ≤ e.1) ∧
  (¬on → Traps (.hbar a c) s 0x004 ((encode (.hbar a c)).setWidth 64)) ∧
  (on → ¬fits → Traps (.hbar a c) s 0x303 x) ∧
  (∀ id, on → fits → s.me.hbar = some id →
    ((∃ e ∈ s.episodes, e.id = id) → exec (.hbar a c) s = .next s) ∧
    ((∀ e ∈ s.episodes, e.id ≠ id) → ∃ u, goes s u ∧ u.episodes = s.episodes)) ∧
  (on → s.me.hbar = none → fits →
    (∀ e, s.episodes.find? (fun e => e.id.scope == c.toNat && e.id.inst == i) = some e →
      (e.count ≠ n → exec (.hbar a c) s = .next (t.trapNow 0x303 x noInfo)) ∧
      (e.count = n → (∀ f ∈ s.episodes, f.id.number < s.nextEpisode) →
        (e.arrived + 1 = n → ∃ u, goes t u ∧ ∀ f, f ∈ u.episodes ↔ f ∈ s.episodes ∧ f.id ≠ e.id) ∧
        (e.arrived + 1 ≠ n → ∃ u, waits e.id u ∧
          ∀ f, f ∈ u.episodes ↔ (f ∈ s.episodes ∧ f.id ≠ e.id) ∨ f = { e with arrived := e.arrived + 1 }))) ∧
    (s.episodes.find? (fun e => e.id.scope == c.toNat && e.id.inst == i) = none → (∀ f ∈ s.episodes, f.id.number < s.nextEpisode) →
      (n = 1 → ∃ u, goes t u ∧ u.episodes = s.episodes) ∧
      (n ≠ 1 → ∃ u, waits ⟨c.toNat, i, s.nextEpisode⟩ u ∧ u.episodes = s.episodes ++ [⟨⟨c.toNat, i, s.nextEpisode⟩, n, 1⟩])))

/-- R248, R257, R292, R338: a copy, gather, scatter or sort command captures its four registers and its address in the lowest free of the
context's eight command slots and goes on; with every slot taken it waits. A sync object at no multiple of 16, or a parameter block of CPY2 or
CPYX at no multiple of 8, raises 0x010 with it. RSORT needs ENABLE.RSORT. What the model keeps of a command's source from then on, and the moments
it counts, are assumptions 33 and 9. -/
def Obligations.CommandIssue : Prop := ∀ (d a b c : BitVec 5) (s : State),
  let x (r : BitVec 5) := s.me.reg r
  let block (k : CmdKind) : Prop := k = .cpy2 ∨ k = .gather ∨ k = .scatter
  (∀ e ∈ ([(.cpy d a b c, .cpy), (.cpy2 d a b c, .cpy2), (.cpyxG d a b c, .gather), (.cpyxS d a b c, .scatter), (.rsort d a b c, .rsort)] :
      List (Instr × CmdKind)), (e.2 = .rsort → s.myPkg.enable.getLsbD 8 = true) →
    ((x c).toNat % 16 ≠ 0 → Traps e.1 s 0x010 (x c)) ∧
    ((x c).toNat % 16 = 0 → block e.2 → (x b).toNat % 8 ≠ 0 → Traps e.1 s 0x010 (x b)) ∧
    ((x c).toNat % 16 = 0 → (block e.2 → (x b).toNat % 8 = 0) → (∀ j : Fin 8, s.me.cmds[j] ≠ none) → Waits e.1 s) ∧
    ((x c).toNat % 16 = 0 → (block e.2 → (x b).toNat % 8 = 0) → (∃ j : Fin 8, s.me.cmds[j] = none) →
      ∃ (u : State) (j : Fin 8) (k : Command), exec e.1 s = .next u ∧ s.me.cmds[j] = none ∧ (∀ l : Fin 8, l < j → s.me.cmds[l] ≠ none) ∧
        u.me = { s.me with pc := nextPc s.me.pc 1, stall := [], busy := false, cmds := s.me.cmds.set j (some k) } ∧
        OnlyMe { s with clock := u.clock, sources := u.sources } u ∧
        k.kind = e.2 ∧ k.d = x d ∧ k.a = x a ∧ k.b = x b ∧ k.c = x c ∧ k.issue = s.me.pc ∧ k.pos = 0 ∧ k.part = 0 ∧ k.block = [] ∧
        k.owed = [] ∧ k.ahead = [] ∧ k.kept = [])) ∧
  (s.myPkg.enable.getLsbD 8 = false → Traps (.rsort d a b c) s 0x004 ((encode (.rsort d a b c)).setWidth 64))

/-- R234, R248, R256, R293, R294, R296: how commands go on. COPY_COUNT_STEP moves the bytes of the next unit of a CPY or CPY2, up to the next row end or
destination address that is a multiple of 256, with the source as it stood at issue (with a sync object the unit is then counted, without one the position goes
on). COMMAND_COMPLETION frees the slot of a finished command without sync object; COMMAND_COMPLETION_ARRIVAL of one whose object counts no
bytes makes one arrival and frees it; ENGINE_FAULT frees the slot of a command whose next access faults, and 0x201 with cause, slot and kind becomes
pending, with the words of its fault record. A context that is neither running nor stopped by the host, or whose package is powered down, has no command that
goes on, nor has one on a core that is taken out (R264). `readBlock` is the reading of a parameter block, `R293`'s choice when it has been changed
(assumption 33), `strew` that of the bytes not yet counted which hold their new values after a fault (assumption 37). The bytes of a unit that the model
holds back, performs ahead or counts later are assumption 9; the movement is stated for commands without them. -/
def Obligations.CommandSteps : Prop := ∀ (c : Nat) (j : BitVec 3) (s : State),
  (((s.ctx c).life ≠ .running ∧ (s.ctx c).life ≠ .stopped) ∨ (s.pkg (c / 1024)).off = true ∨ (s.core (c / 4)).out = true →
    ∀ i ∈ ([.copyCountStep c j, .commandCompletion c j, .commandCompletionArrival c j, .engineFault c j] : List Instr), exec i s = .next s) ∧
  (∀ k : Command, (s.ctx c).life = .running ∨ (s.ctx c).life = .stopped → (s.pkg (c / 1024)).off = false → (s.core (c / 4)).out = false →
    get8 (s.ctx c).cmds j = some k →
  let who : Who := { core := c / 4, unit := .engine, mode := .task, path := .c, ctx := c, sptroot := (s.ctx c).sptroot, waits := k.stall,
                     since := s.clock }
  let slots (u : State) := (u.ctx c).cmds
  let retired (t u : State) : Prop := u.ctx c = { t.ctx c with cmds := set8 (slots t) j none } ∧ (∀ d, d ≠ c → u.ctx d = t.ctx d) ∧
    u = { t with ctxs := u.ctxs, sources := u.sources }
  let block : Prop := k.kind = .cpy ∨ (readBlock who k).run s = (.ok k, s)
  let row := if k.kind = .cpy then k.b.toNat else k.width
  let i := if k.kind = .cpy then 0 else k.pos / row
  let q := if k.kind = .cpy then k.pos else k.pos % row
  let dst := (k.d.toNat + i * k.p 2 + q) % 2 ^ 64
  let src := (k.a.toNat + i * k.p 1 + q) % 2 ^ 64
  let n := min (row - q) (256 - dst % 256)
  let old (l : Loc) : Byte := match s.source c j with
    | some x => x.byte s l
    | none => s.locByte l
  (∀ ls ms, k.kind = .cpy ∨ k.kind = .cpy2 → block → k.part = 0 → k.owed = [] → k.ahead = [] → (∀ x, s.source c j = some x → x.loose = false) →
    (∀ p ∈ s.pins, p.ctx = c → k.may p = false) → k.pos < k.total → (k.c ≠ 0 ∨ k.pos + n < k.total) →
    (enginePlaces who .read src n).run s = (.ok ls, s) → (enginePlaces who .write dst n).run s = (.ok ms, s) → ms.Nodup →
    (∀ l ∈ ls ++ ms, Holds s l) →
    ∃ u k', exec (.copyCountStep c j) s = .next u ∧ (∀ p ∈ ls.zip ms, u.locByte p.2 = old p.1) ∧
      (∀ l, l ∉ ms → u.locByte l = s.locByte l) ∧ slots u = set8 (slots s) j (some k') ∧
      k'.pos = (if k.c = 0 then k.pos + n else k.pos) ∧ k'.part = (if k.c = 0 then 0 else 1) ∧ k'.d = k.d ∧ k'.a = k.a ∧ k'.b = k.b ∧
      k'.c = k.c ∧ k'.block = k.block) ∧
  (block → k.c = 0 → k.total ≤ k.pos → ∃ u, exec (.commandCompletion c j) s = .next u ∧ retired s u) ∧
  (∀ w v t, block → k.c ≠ 0 → k.total ≤ k.pos →
    (readObject { who with path := .o } .atomic k.c).run s = (.ok w, s) → w.2.1 / 2 ^ 45 % 2 = 0 →
    (updateObject { who with path := .o } k.c fun w0 w1 => arrived w0 w1 1).run s = (.ok v, t) →
    ∃ u, exec (.commandCompletionArrival c j) s = .next u ∧ retired t u) ∧
  (let stops (t : State) (cause : BitVec 10) (words : List Word) : Prop := ∃ u, exec (.engineFault c j) s = .next u ∧
     let v := t.strew who k (s.source c j)
     (∀ d, d ≠ c → u.ctx d = v.ctx d) ∧ u.ctx c = { v.ctx c with
       cmds := set8 (slots v) j none
       pending := (v.ctx c).pending ++
         [⟨0x201, BitVec.ofNat 64 (cause.toNat + j.toNat * 2 ^ 10 + k.kind.code * 2 ^ 13), k.issue :: words, false⟩] }
   (∀ cause info r t, (nextAction who k (s.source c j)).run s = (.error (.trap cause info r), t) → stops t cause [r.w2, r.w3, r.w4]) ∧
   (k.kind = .cpy → k.part = 0 → k.owed = [] → k.pos < k.b.toNat → 2 ^ 55 ≤ src → inWindow src = false → stops s 0x1C4 [0x1C4, BitVec.ofNat 64 src, 0])))

namespace Sys2Proof.Claims

/-! ## Vocabulary of the vector instructions -/

/-- Element i, at width w, of a vector register (R50). -/
def vel (x : Ctx) (r : BitVec 5) (w i : Nat) : Nat := (regGet x.v r).toNat / 2 ^ (w * i) % 2 ^ w

/-- SEW in bits (R60). -/
def sewBits (x : Ctx) : Nat := 8 * 2 ^ (x.vcfg.toNat % 4)

/-- VLMAX (R50). -/
def maxLen (x : Ctx) : Nat := 1024 * x.held / sewBits x

/-- The integer tag of a width (R52). -/
def tagOfWidth (w : Nat) : Tag := if w = 8 then .i8 else if w = 16 then .i16 else if w = 32 then .i32 else .i64

/-- Active(i): below VL, and set in the mask register unless MSK is 0. -/
def On (x : Ctx) (m : BitVec 1) (r : BitVec 3) (i : Nat) : Prop :=
  i < x.vl.toNat ∧ (m = 0#1 ∨ (get8 x.m r).getLsbD i = true)

/-- The elements that an element-wise instruction processes: Active, from VSTART (R357). -/
def Runs (x : Ctx) (m : BitVec 1) (r : BitVec 3) (i : Nat) : Prop := x.vstart.toNat ≤ i ∧ On x m r i

/-- The context after a vector instruction wrote register d with a tag that is no SB tag: `f` gives every element, `fl` the flags
raised. Every other vector register keeps its bits, tag and sidecars, and no other register changes but the program counter and VSTART. -/
def VecWrote (x y : Ctx) (d : BitVec 5) (w : Nat) (t : Tag) (fl : BitVec 5) (f : Nat → Nat) : Prop :=
  y = { x with
    v := y.v, tag := regSet x.tag d t, hdr := regSet x.hdr d 0, sup := regSet x.sup d 0, fflags := x.fflags ||| fl, vstart := 0
    pc := nextPc x.pc 1, stall := [], busy := false } ∧
  (∀ q, q ≠ d → regGet y.v q = regGet x.v q) ∧ ∀ i, (i + 1) * w ≤ 8192 → vel y d w i = f i

/-- The instruction completes with only that effect. -/
def VecGives (i : Instr) (s : State) (d : BitVec 5) (w : Nat) (t : Tag) (fl : BitVec 5) (f : Nat → Nat) : Prop :=
  ∃ u, exec i s = .next u ∧ OnlyMe s u ∧ SameBytes s u ∧ VecWrote s.me u.me d w t fl f

/-- The instruction completes, and writes bits of mask register md, FFLAGS and VSTART only. -/
def MaskGives (i : Instr) (s : State) (d : BitVec 5) (fl : BitVec 5) (f : Nat → Bool) : Prop :=
  ∃ u k, exec i s = .next u ∧ OnlyMe s u ∧ SameBytes s u ∧
    u.me = { s.me with
      m := set8 s.me.m (d.setWidth 3) k, fflags := s.me.fflags ||| fl, vstart := 0, pc := nextPc s.me.pc 1, stall := [], busy := false } ∧
    ∀ j, j < 1024 → k.getLsbD j = f j

/-- The pairwise tree of R113 over the 2^k slots from `i` on: its value, none if they are all empty, and the flags of its additions. -/
def slotTree (add : Nat → Nat → FpResult) (slot : Nat → Option Nat) : Nat → Nat → Option Nat × BitVec 5
  | 0, i => (slot i, 0)
  | k + 1, i =>
    let p := slotTree add slot k i
    let q := slotTree add slot k (i + 2 ^ k)
    match p.1, q.1 with
    | some a, some b => (some (add a b).1, p.2 ||| q.2 ||| (add a b).2)
    | some a, none => (some a, p.2 ||| q.2)
    | none, y => (y, p.2 ||| q.2)

/-- The conversion of R111 between two tags that are no SB tags. -/
def converted (src dst : Tag) (rm : Rm) (fz : BitVec 2) (v : Nat) : FpResult :=
  let n : ℤ := (BitVec.ofNat src.bits v).toInt
  if src.isInt = true ∧ dst.isInt = true then
    ((max (-2 ^ (dst.bits - 1)) (min (2 ^ (dst.bits - 1) - 1) n) % 2 ^ dst.bits).toNat, 0)
  else if src.isInt = true then intToFp dst.fmt rm (fz == 1#2 || fz == 2#2) n
  else if dst.isInt = true then fpToInt src.fmt rm fz dst.bits true v
  else fpToFp src.fmt dst.fmt rm fz v

/-- The value of an element code under a selector, as R122 and R123 tabulate it: its magnitude M with its sign. -/
def sbDecode (sb8 : Bool) (sel code : Nat) : ℚ :=
  let k : Nat := if sb8 then 7 else 3
  let mi : Nat := code % 2 ^ k
  let mag : ℚ :=
    if sb8 then
      if sel = 0 then mi / 128
      else (if mi / 8 = 0 then 2 * (mi % 8 : Nat) else (8 + (mi % 8 : Nat)) * 2 ^ (mi / 8)) / 2 ^ 18
    else if sel = 0 then mi / 8
    else if sel = 1 then (if mi = 0 then 0 else 2 ^ (mi + 1) / 256)
    else (([0, 26, 53, 82, 113, 148, 192, 256] : List ℚ)[mi]?).getD 0 / 256
  if code.testBit k then -mag else mag

/-- The block scale b of a superscale S and a scale code (R121): S × r(s), rounded to nearest in FP32. -/
def BlockScale (s32 code b : Nat) : Prop :=
  let r : ℚ := (32 - (code % 16 : Nat)) * 2 ^ (-(code / 16 % 16 : Nat) - 4 : ℤ)
  let q := fpValue fp32 s32 * r
  (q = 0 → b = s32 / 2 ^ 31 * 2 ^ 31) ∧ (q ≠ 0 → ∃ fl, Rounded fp32 .rne false (q : ℝ) (b, fl))

/-- The value of an element of a block, rounded to a format (R123, R124, R127). Where the scale is zero and Decode is not, the sign of the zero is the
model's choice (assumption 36). -/
def SbElement (sb8 : Bool) (s32 header code : Nat) (f : Fmt) (rm : Rm) (fz : BitVec 2) (r : FpResult) : Prop :=
  ∃ b, BlockScale s32 (header % 256) b ∧
    let q := sbDecode sb8 (header / 256 % 4) code
    let v := fpValue fp32 b * q
    let sign : Nat := if b.testBit 31 != decide (q < 0) then 2 ^ (f.eb + f.fb) else 0
    (q = 0 → r = (0, 0)) ∧
    (q ≠ 0 → b % 2 ^ 31 = 0x7F800000 → r = (sign + (2 ^ f.eb - 1) * 2 ^ f.fb, 0)) ∧
    (q ≠ 0 → b % 2 ^ 31 ≠ 0x7F800000 → (v = 0 → r = (sign, 0)) ∧ (v ≠ 0 → Rounded f rm (fz == 1#2 || fz == 2#2) (v : ℝ) r))

/-- What is wrong with a block header (R128): the reason code of the first of checks 2 to 4 that fails. -/
def headerReason (sb8 : Bool) (h : Nat) : Option Nat :=
  if (List.range 11).countP h.testBit % 2 = 1 then some 0
  else if h / 256 % 4 = 3 ∨ (sb8 = true ∧ h / 256 % 4 = 2) then some 1
  else if h / 2 ^ 11 % 2 ^ 5 ≠ 0 then some 2 else none

/-- The union of the flags of processed elements (R109). -/
def FlagsOf (P : Nat → Prop) (res : Nat → BitVec 5) (fl : BitVec 5) : Prop :=
  ∀ k, fl.getLsbD k = true ↔ ∃ i, P i ∧ (res i).getLsbD k = true

end Sys2Proof.Claims

open scoped Classical in
/-- R357, R358, R102: the integer operations, element by element at width SEW, between two vector registers or a vector register and a
scalar: Active elements from VSTART get the result, every other keeps its bits; the destination takes the integer tag. -/
def Obligations.VectorInteger : Prop := ∀ (d a b : BitVec 5) (m : BitVec 1) (r : BitVec 3) (s : State),
  let x := s.me
  let w := sewBits x
  let t := tagOfWidth w
  let n (v : Nat) : BitVec w := BitVec.ofNat w v
  let V (iv is : Instr) (f : Nat → Nat → Nat) : Prop := regGet x.tag a = t →
    (regGet x.tag b = t → VecGives iv s d w t 0 fun i => if Runs x m r i then f (vel x a w i) (vel x b w i) else vel x d w i) ∧
    VecGives is s d w t 0 fun i => if Runs x m r i then f (vel x a w i) ((x.reg b).toNat % 2 ^ w) else vel x d w i
  V (.vadd d a b m r) (.vaddVs d a b m r) (fun p q => (n p + n q).toNat) ∧
  V (.vsub d a b m r) (.vsubVs d a b m r) (fun p q => (n p - n q).toNat) ∧
  V (.vmul d a b m r) (.vmulVs d a b m r) (fun p q => (n p * n q).toNat) ∧
  V (.vmulh d a b m r) (.vmulhVs d a b m r) (fun p q => (BitVec.ofInt w ((n p).toInt * (n q).toInt / 2 ^ w)).toNat) ∧
  V (.vmulhU d a b m r) (.vmulhUVs d a b m r) (fun p q => p * q / 2 ^ w) ∧
  V (.vmin d a b m r) (.vminVs d a b m r) (fun p q => if (n p).toInt < (n q).toInt then p else q) ∧
  V (.vminU d a b m r) (.vminUVs d a b m r) (fun p q => min p q) ∧
  V (.vmax d a b m r) (.vmaxVs d a b m r) (fun p q => if (n p).toInt < (n q).toInt then q else p) ∧
  V (.vmaxU d a b m r) (.vmaxUVs d a b m r) (fun p q => max p q) ∧
  V (.vand d a b m r) (.vandVs d a b m r) (fun p q => (n p &&& n q).toNat) ∧
  V (.vor d a b m r) (.vorVs d a b m r) (fun p q => (n p ||| n q).toNat) ∧
  V (.vxor d a b m r) (.vxorVs d a b m r) (fun p q => (n p ^^^ n q).toNat) ∧
  V (.vsll d a b m r) (.vsllVs d a b m r) (fun p q => (n p <<< (q % w)).toNat) ∧
  V (.vsrl d a b m r) (.vsrlVs d a b m r) (fun p q => (n p >>> (q % w)).toNat) ∧
  V (.vsra d a b m r) (.vsraVs d a b m r) (fun p q => ((n p).sshiftRight (q % w)).toNat)

open scoped Classical in
/-- R362, R386: the comparisons set or clear the mask bits of the Active elements from VSTART, and no other; VSEL takes each element
below VL, from VSTART, from its first source where the mask register is set and from its second where it is clear. -/
def Obligations.VectorCompareSelect : Prop := ∀ (d a b : BitVec 5) (m : BitVec 1) (r : BitVec 3) (s : State),
  let x := s.me
  let w := sewBits x
  let t := tagOfWidth w
  let n (v : Nat) : BitVec w := BitVec.ofNat w v
  let old (i : Nat) : Bool := (get8 x.m (d.setWidth 3)).getLsbD i
  let V (iv is : Instr) (f : Nat → Nat → Prop) : Prop := regGet x.tag a = t →
    (regGet x.tag b = t → MaskGives iv s d 0 fun i => if Runs x m r i then decide (f (vel x a w i) (vel x b w i)) else old i) ∧
    MaskGives is s d 0 fun i => if Runs x m r i then decide (f (vel x a w i) ((x.reg b).toNat % 2 ^ w)) else old i
  V (.vcmpEq d a b m r) (.vcmpEqVs d a b m r) (fun p q => p = q) ∧ V (.vcmpNe d a b m r) (.vcmpNeVs d a b m r) (fun p q => p ≠ q) ∧
  V (.vcmpLt d a b m r) (.vcmpLtVs d a b m r) (fun p q => (n p).toInt < (n q).toInt) ∧
  V (.vcmpLtu d a b m r) (.vcmpLtuVs d a b m r) (fun p q => p < q) ∧
  V (.vcmpLe d a b m r) (.vcmpLeVs d a b m r) (fun p q => (n p).toInt ≤ (n q).toInt) ∧
  V (.vcmpLeu d a b m r) (.vcmpLeuVs d a b m r) (fun p q => p ≤ q) ∧
  ((regGet x.tag a).bits = w →
    let e (y : Nat → Nat) (i : Nat) : Nat :=
      if Runs x 0 0 i then (if (get8 x.m r).getLsbD i = true then vel x a w i else y i) else vel x d w i
    (regGet x.tag b = regGet x.tag a → VecGives (.vsel d a b r) s d w (regGet x.tag a) 0 (e (vel x b w))) ∧
    VecGives (.vselVs d a b r) s d w (regGet x.tag a) 0 (e fun _ => (x.reg b).toNat % 2 ^ w))

open scoped Classical in
/-- R368 to R370, R357, R112: the floating operations and comparisons, element by element in the format of the first source's tag, with
VCFG's rounding mode and FZ; the flags of the processed elements are ORed into FFLAGS. -/
def Obligations.VectorFloat : Prop := ∀ (d a b : BitVec 5) (m : BitVec 1) (r : BitVec 3) (s : State),
  let x := s.me
  let w := sewBits x
  let t := regGet x.tag a
  let f := t.fmt
  let rm := rmOf (slice x.vcfg 4 2)
  let fz := slice x.vcfg 2 2
  let fit : Prop := t.isFloat = true ∧ t.bits = w ∧ (w = 64 → s.myPkg.enable.getLsbD 0 = true)
  let vec (i : Nat) := vel x b w i
  let scl (_ : Nat) := (x.reg b).toNat % 2 ^ w
  let G (i : Instr) (y : Nat → Nat) (op : Nat → Nat → Nat → FpResult) : Prop :=
    let res (k : Nat) : FpResult := op (vel x a w k) (y k) (vel x d w k)
    ∃ fl, FlagsOf (Runs x m r) (fun k => (res k).2) fl ∧
      VecGives i s d w t fl fun k => if Runs x m r k then (res k).1 % 2 ^ w else vel x d w k
  let C (i : Instr) (y : Nat → Nat) (c : FpCond) : Prop :=
    let res (k : Nat) := fpCmp f fz c (vel x a w k) (y k)
    ∃ fl, FlagsOf (Runs x m r) (fun k => (res k).2) fl ∧
      MaskGives i s d fl fun k => if Runs x m r k then (res k).1 else (get8 x.m (d.setWidth 3)).getLsbD k
  let B (iv is : Instr) (op : Nat → Nat → Nat → FpResult) : Prop := (regGet x.tag b = t → G iv vec op) ∧ G is scl op
  fit →
    B (.vfadd d a b m r) (.vfaddVs d a b m r) (fun p q _ => fpAdd f rm fz p q) ∧
    B (.vfsub d a b m r) (.vfsubVs d a b m r) (fun p q _ => fpSub f rm fz p q) ∧
    B (.vfmul d a b m r) (.vfmulVs d a b m r) (fun p q _ => fpMul f rm fz p q) ∧
    B (.vfdiv d a b m r) (.vfdivVs d a b m r) (fun p q _ => fpDiv f rm fz p q) ∧
    B (.vfmin d a b m r) (.vfminVs d a b m r) (fun p q _ => fpMinMax f fz false p q) ∧
    B (.vfmax d a b m r) (.vfmaxVs d a b m r) (fun p q _ => fpMinMax f fz true p q) ∧
    (regGet x.tag d = t → B (.vfma d a b m r) (.vfmaVs d a b m r) (fun p q z => fpFma f rm fz p q z)) ∧
    G (.vfsqrt d a m r) vec (fun p _ _ => fpSqrt f rm fz p) ∧
    (w ≠ 16 → G (.vfexp2 d a m r) vec (fun p _ _ => fpExp2 f rm fz p) ∧ G (.vfrsqrt d a m r) vec (fun p _ _ => fpRsqrt f rm fz p)) ∧
    (regGet x.tag b = t → C (.vfcmpEq d a b m r) vec .eq ∧ C (.vfcmpLt d a b m r) vec .lt ∧ C (.vfcmpLe d a b m r) vec .le ∧
      C (.vfcmpUn d a b m r) vec .un) ∧
    C (.vfcmpEqVs d a b m r) scl .eq ∧ C (.vfcmpLtVs d a b m r) scl .lt ∧ C (.vfcmpLeVs d a b m r) scl .le ∧ C (.vfcmpUnVs d a b m r) scl .un

/-- R113 to R115, R371, R372, R385: a reduction combines element 0 of d with every Active element below VL, from element 0 on whatever
VSTART says, writes element 0 only, keeps d's tag, and clears VSTART. The sum of VFRED.add goes by the tree over VLMAX slots (R114), or with REPRO by
trees over blocks of 32 in ascending order, each step to nearest (R115); with no Active element it leaves d. VFRED.min and VFRED.max with no Active
element give the initial value and raise nothing, also when it is a signalling NaN: the model's choice (assumption 69). `acts` are the Active elements in
ascending order. -/
def Obligations.VectorReductions : Prop := ∀ (d a : BitVec 5) (m : BitVec 1) (r : BitVec 3) (s : State),
  let x := s.me
  let w := sewBits x
  let t := regGet x.tag a
  let n (v : Nat) : BitVec w := BitVec.ofNat w v
  let acts := (List.range x.vl.toNat).filter fun i => m == 0#1 || (get8 x.m r).getLsbD i
  let R (i : Instr) (z : FpResult) : Prop := ∃ u, exec i s = .next u ∧ OnlyMe s u ∧ SameBytes s u ∧
    u.me = { x with v := u.me.v, fflags := x.fflags ||| z.2, vstart := 0, pc := nextPc x.pc 1, stall := [], busy := false } ∧
    (∀ q, q ≠ d → regGet u.me.v q = regGet x.v q) ∧ vel u.me d w 0 = z.1 % 2 ^ w ∧
    ∀ i, i ≠ 0 → (i + 1) * w ≤ 8192 → vel u.me d w i = vel x d w i
  let fold (f : Nat → Nat → Nat) : FpResult := (acts.foldl (fun p i => f p (vel x a w i)) (vel x d w 0), 0)
  let signed (p q : Nat) : Bool := decide ((n p).toInt < (n q).toInt)
  let f := t.fmt
  let fz := slice x.vcfg 2 2
  let minmax (b : Bool) : FpResult := acts.foldl (fun p i => ((fpMinMax f fz b p.1 (vel x a w i)).1, p.2 ||| (fpMinMax f fz b p.1 (vel x a w i)).2))
    (flushIn f fz (vel x d w 0), 0)
  (t = tagOfWidth w → regGet x.tag d = t →
    R (.vredAdd d a m r) ((vel x d w 0 + (acts.map (vel x a w)).sum) % 2 ^ w, 0) ∧
    R (.vredAnd d a m r) (fold fun p q => p &&& q) ∧ R (.vredOr d a m r) (fold fun p q => p ||| q) ∧
    R (.vredXor d a m r) (fold fun p q => p ^^^ q) ∧ R (.vredMinu d a m r) (fold fun p q => min p q) ∧
    R (.vredMaxu d a m r) (fold fun p q => max p q) ∧ R (.vredMin d a m r) (fold fun p q => if signed q p then q else p) ∧
    R (.vredMax d a m r) (fold fun p q => if signed p q then q else p)) ∧
  (t.isFloat = true → t.bits = w → regGet x.tag d = t → (w = 64 → s.myPkg.enable.getLsbD 0 = true) →
    R (.vfredMin d a m r) (minmax false) ∧ R (.vfredMax d a m r) (minmax true) ∧
    (let slot (i : Nat) : Option Nat := if i ∈ acts then some (vel x a w i) else none
     let onto (add : Nat → Nat → FpResult) (acc : FpResult) (t : Option Nat × BitVec 5) : FpResult := match t with
       | (some z, fl) => ((add acc.1 z).1, acc.2 ||| fl ||| (add acc.1 z).2)
       | (none, _) => acc
     let even := fpAdd f .rne fz
     let any := fpAdd f (rmOf (slice x.vcfg 4 2)) fz
     (x.vcfg.getLsbD 6 = true → R (.vfredAdd d a m r)
       ((List.range ((x.vl.toNat + 31) / 32)).foldl (fun acc b => onto even acc (slotTree even slot 5 (32 * b))) (vel x d w 0, 0))) ∧
     (x.vcfg.getLsbD 6 = false → ∀ k, maxLen x = 2 ^ k → R (.vfredAdd d a m r) (onto any (vel x d w 0, 0) (slotTree any slot k 0)))) ∧
    (acts = [] → R (.vfredAdd d a m r) (vel x d w 0, 0)))

open scoped Classical in
/-- R363, R364, R367, R373, R374, R382 to R384, R390: elements moved within and between registers. VSLIDE moves by s[b], VPERM takes by index,
VCOMPRESS gathers the elements that the mask marks to the bottom and VEXPAND the reverse; an index at or above VLMAX reads zero. VMV.v copies,
VMV.s writes a scalar, VIDX its own index, VEXTR and VINS move one element to and from a scalar register. -/
def Obligations.VectorMoves : Prop := ∀ (d a b : BitVec 5) (m : BitVec 1) (r : BitVec 3) (s : State),
  let x := s.me
  let w := sewBits x
  let t := regGet x.tag a
  let n := (x.reg b).toNat
  let E (f : Nat → Option Nat) (i : Nat) : Nat := if Runs x m r i then (f i).getD (vel x d w i) else vel x d w i
  let at_ (j : Nat) : Nat := if j < maxLen x then vel x a w j else 0
  let marks := (List.range x.vl.toNat).filter fun i => (get8 x.m r).getLsbD i
  (t.bits = w →
    VecGives (.vslideUp d a b m r) s d w t 0 (E fun i => if n ≤ i then some (vel x a w (i - n)) else none) ∧
    VecGives (.vslideDown d a b m r) s d w t 0 (E fun i => some (at_ (i + n))) ∧
    (regGet x.tag b = tagOfWidth w → VecGives (.vperm d a b m r) s d w t 0 (E fun i => some (at_ (vel x b w i)))) ∧
    VecGives (.vcompress d a r) s d w t 0 (fun i => if h : i < marks.length then vel x a w marks[i] else vel x d w i) ∧
    VecGives (.vexpand d a r) s d w t 0
      (fun i => if i ∈ marks then vel x a w (marks.filter (· < i)).length else vel x d w i) ∧
    VecGives (.vmvV d a m r) s d w t 0 (E fun i => some (vel x a w i)) ∧
    Gives (.vextr d a b) s d (if t.isInt then BitVec.ofInt 64 (BitVec.ofNat w (at_ n)).toInt else BitVec.ofNat 64 (at_ n))) ∧
  VecGives (.vmvS d a m r) s d w (if (regGet x.tag d).bits = w then regGet x.tag d else tagOfWidth w) 0
    (E fun _ => some ((x.reg a).toNat % 2 ^ w)) ∧
  VecGives (.vidx d m r) s d w (tagOfWidth w) 0 (E fun i => some (i % 2 ^ w)) ∧
  ((regGet x.tag d).bits = w → ∃ u, exec (.vins d a b) s = .next u ∧ OnlyMe s u ∧ SameBytes s u ∧
    u.me = { x with v := u.me.v, pc := nextPc x.pc 1, stall := [], busy := false } ∧ (∀ q, q ≠ d → regGet u.me.v q = regGet x.v q) ∧
    ∀ i, (i + 1) * w ≤ 8192 → vel u.me d w i = if i = n ∧ n < maxLen x then (x.reg a).toNat % 2 ^ w else vel x d w i) ∧
  (∀ k : BitVec 5, let g := tagOfCode k.toNat
    exec (.vmvRaw d a k) s = .next (s.setMe { x with
      v := regSet x.v d (regGet x.v a), tag := regSet x.tag d g
      hdr := regSet x.hdr d (if g.isSb then regGet x.hdr a else 0), sup := regSet x.sup d (if g.isSb then regGet x.sup a else 0)
      vstart := 0, pc := nextPc x.pc 1, stall := [], busy := false }))

open scoped Classical in
/-- R111, R127, R128, R365, R366: VCVT converts each processed element from the source's tag to the destination's, at the width of the wider of the
two, which is SEW. Integers are read as signed and saturate; the other conversions round as R111 says. An SB source expands to a floating tag: each
element becomes its block scale times its decoded value, rounded; a block that fails its header checks raises 0x082 with the elements of the blocks below it
written and VSTART at it. An SB source with an integer destination raises 0x085; an FP64 tag needs ENABLE.VFP64. The last clause says what an
expanded element is (R121 to R123). -/
def Obligations.VectorConvert : Prop := (∀ (d a k : BitVec 5) (m : BitVec 1) (r : BitVec 3) (s : State),
  let x := s.me
  let src := regGet x.tag a
  let dst := tagOfCode k.toNat
  let i : Instr := .vcvt d a k m r
  let rm := rmOf (slice x.vcfg 4 2)
  let fz := slice x.vcfg 2 2
  let res (j : Nat) := converted src dst rm fz (vel x a src.bits j)
  let fp64 : Prop := src = .fp64 ∨ dst = .fp64
  (fp64 → s.myPkg.enable.getLsbD 0 = false → Traps i s 0x004 ((encode i).setWidth 64)) ∧
  ((fp64 → s.myPkg.enable.getLsbD 0 = true) →
    (src.isSb = true → dst.isInt = true → Traps i s 0x085 ((encode i).setWidth 64)) ∧
    (src.bits ≠ 0 → dst.bits ≠ 0 → max src.bits dst.bits = sewBits x →
      ∃ fl, FlagsOf (Runs x m r) (fun j => (res j).2) fl ∧
        VecGives i s d dst.bits dst fl fun j => if Runs x m r j then (res j).1 % 2 ^ dst.bits else vel x d dst.bits j) ∧
    (src.isSb = true → dst.isFloat = true → dst.bits = sewBits x →
      let sb8 : Bool := src == .sb8
      let n := if sb8 then 32 else 64
      let super (l : Nat) : Nat := (regGet x.sup a).toNat / 2 ^ (32 * (l / 4)) % 2 ^ 32
      let header (l : Nat) : Nat := (regGet x.hdr a).toNat / 2 ^ (16 * l) % 2 ^ 16
      let res (j : Nat) := expand sb8 (super (j / n)) (header (j / n)) (vel x a (if sb8 then 8 else 4) j) dst.fmt rm fz
      let reached (l : Nat) : Prop := ∃ j, Runs x m r j ∧ j / n = l
      let fails (l : Nat) : Option Nat :=
        if (∀ k, reached k → k / 4 = l / 4 → l ≤ k) ∧ super l / 2 ^ 23 % 256 = 255 then some 3 else headerReason sb8 (header l)
      ((∀ l, reached l → fails l = none) → ∃ fl, FlagsOf (Runs x m r) (fun j => (res j).2) fl ∧
        VecGives i s d dst.bits dst fl fun j => if Runs x m r j then (res j).1 % 2 ^ dst.bits else vel x d dst.bits j) ∧
      (∀ l reason, reached l → fails l = some reason → (∀ k, reached k → k < l → fails k = none) →
        let Q (j : Nat) : Prop := Runs x m r j ∧ j / n < l
        ∃ y fl, FlagsOf Q (fun j => (res j).2) fl ∧ OnlyMe s y ∧ SameBytes s y ∧
          exec i s = .next (y.trapNow 0x082 (BitVec.ofNat 64 (l % 4 * 4 + reason)) noInfo) ∧
          y.me = { x with
            v := y.me.v, tag := regSet x.tag d dst, hdr := regSet x.hdr d 0, sup := regSet x.sup d 0, fflags := x.fflags ||| fl
            vstart := BitVec.ofNat 11 (max (l * n) x.vstart.toNat) } ∧
          (∀ q, q ≠ d → regGet y.me.v q = regGet x.v q) ∧
          ∀ j, (j + 1) * dst.bits ≤ 8192 →
            vel y.me d dst.bits j = if Q j then (res j).1 % 2 ^ dst.bits else vel x d dst.bits j)))) ∧
  ∀ (sb8 : Bool) (s32 header code : Nat) (f : Fmt) (rm : Rm) (fz : BitVec 2), f ∈ [fp16, bf16, fp32, fp64] → s32 < 2 ^ 32 →
    s32 / 2 ^ 23 % 256 ≠ 255 → headerReason sb8 header = none → code < (if sb8 then 2 ^ 8 else 2 ^ 4) →
    SbElement sb8 s32 header code f rm fz (expand sb8 s32 header code f rm fz)

/-- R323, R324: the mask instructions work on bits 0 to VL − 1 whatever VSTART says, and leave the others. -/
def Obligations.MaskInstructions : Prop := ∀ (d a b : BitVec 5) (s : State),
  let x := s.me
  let n := x.vl.toNat
  let p (i : Nat) : Bool := (get8 x.m (a.setWidth 3)).getLsbD i
  let q (i : Nat) : Bool := (get8 x.m (b.setWidth 3)).getLsbD i
  let E (f : Nat → Bool) (i : Nat) : Bool := if i < n then f i else (get8 x.m (d.setWidth 3)).getLsbD i
  let W (i : Instr) (v : Word) : Prop := ∃ u, exec i s = .next u ∧ OnlyMe s u ∧ SameBytes s u ∧
    RegSet { x with vstart := 0 } u.me d v
  MaskGives (.mand d a b) s d 0 (E fun i => p i && q i) ∧ MaskGives (.mor d a b) s d 0 (E fun i => p i || q i) ∧
  MaskGives (.mxor d a b) s d 0 (E fun i => p i != q i) ∧ MaskGives (.mnot d a) s d 0 (E fun i => !p i) ∧
  W (.mpop d a) (BitVec.ofNat 64 ((List.range n).countP p)) ∧
  (∀ f, f < n → p f = true → (∀ j, j < f → p j = false) →
    W (.mfirst d a) (BitVec.ofNat 64 f) ∧ MaskGives (.mbreak d a) s d 0 (E fun i => decide (i < f))) ∧
  ((∀ j, j < n → p j = false) → W (.mfirst d a) (-1) ∧ MaskGives (.mbreak d a) s d 0 (E fun _ => true))

/-- R391, R392: VSORT puts the Active elements below VL, in ascending order of their values read as unsigned and with equal ones in their
order, into the elements of d from 0 on; VSORT.kv moves values to d + 1 in the order of their keys. Both need ENABLE.VSORT. `ps` lists
the Active positions in the sorted order. -/
def Obligations.VectorSort : Prop := ∀ (d a b : BitVec 5) (m : BitVec 1) (r : BitVec 3) (s : State),
  let x := s.me
  let w := sewBits x
  let acts := (List.range x.vl.toNat).filter fun i => m == 0#1 || (get8 x.m r).getLsbD i
  let sorted (ps : List Nat) : Prop := ps.Perm acts ∧
    ps.Pairwise fun i j => vel x a w i < vel x a w j ∨ (vel x a w i = vel x a w j ∧ i < j)
  let into (q d : BitVec 5) (ps : List Nat) (i : Nat) : Nat := if h : i < ps.length then vel x q w ps[i] else vel x d w i
  (s.myPkg.enable.getLsbD 9 = false → ∀ i ∈ ([.vsort d a m r, .vsortKv d a b m r] : List Instr), Traps i s 0x004 ((encode i).setWidth 64)) ∧
  (s.myPkg.enable.getLsbD 9 = true → regGet x.tag a = tagOfWidth w → ∃ ps, sorted ps ∧
    VecGives (.vsort d a m r) s d w (tagOfWidth w) 0 (into a d ps) ∧
    ((regGet x.tag b).bits = w → ∃ u, exec (.vsortKv d a b m r) s = .next u ∧ OnlyMe s u ∧ SameBytes s u ∧
      (∀ q, q ≠ d → q ≠ d + 1 → regGet u.me.v q = regGet x.v q) ∧
      u.me = { x with
        v := u.me.v, tag := regSet (regSet x.tag d (tagOfWidth w)) (d + 1) (regGet x.tag b)
        hdr := regSet (regSet x.hdr d 0) (d + 1) 0, sup := regSet (regSet x.sup d 0) (d + 1) 0
        vstart := 0, pc := nextPc x.pc 1, stall := [], busy := false } ∧
      ∀ i, (i + 1) * w ≤ 8192 → vel u.me d w i = into a d ps i ∧ vel u.me (d + 1) w i = into b (d + 1) ps i))

/-- R38, R60, R260, R261, R305, R387, R388: VSETL sets VL to the smaller of the request and VLMAX at the new width, gives it to d, writes the width and
FZ of VCFG, keeps RM and REPRO, and clears VSTART. VSETL.r first sets the ceiling and the holding: the greatest power of two that the ceiling
and the core's free groups allow, and a change of it clears what lies above in every vector register, its side data and every mask register. `C` is the
ceiling of a context: the request of its record under the power limit or the value that a reclaim left, in supervisor mode that of trap entry; `left`
are the groups that nobody holds, less those reserved, less what running contexts of higher rank lack. What a reclaim's victim frees is reserved for the
entry it serves. How these rules combine is the model's reading (assumption 49). -/
def Obligations.VectorLength : Prop := ∀ (d a : BitVec 5) (f w : BitVec 2) (s : State),
  let req := (s.me.reg a).toNat
  let S (i : Instr) (t : State) : Prop :=
    let g := min req (1024 * t.me.held / (8 * 2 ^ w.toNat))
    ∃ u, exec i s = .next u ∧ u = { t with ctxs := u.ctxs } ∧ (∀ c, c ≠ s.cur → u.ctx c = t.ctx c) ∧
      u.me = { t.me with
        s := u.me.s, vl := BitVec.ofNat 11 g, vcfg := BitVec.ofNat 7 (s.me.vcfg.toNat / 16 * 16 + f.toNat * 4 + w.toNat), vstart := 0
        pc := nextPc s.me.pc 1, stall := [], busy := false } ∧
      u.me.reg d = (if d = 0 then 0 else BitVec.ofNat 64 g) ∧ ∀ r, r ≠ d → u.me.reg r = s.me.reg r
  let c := s.cur
  let core := s.core (c / 4)
  let C (j : Nat) : Nat :=
    let y := s.ctx j
    let top := min (2 ^ (y.ctrl.toNat / 2 ^ 41 % 4)) s.myPkg.ceil
    if y.mode = .supervisor then y.ceil else match y.cut with
      | some (v, _) => min top v
      | none => top
  let prio (j : Nat) : Nat := (s.ctx j).ctrl.toNat / 2 ^ 32 % 2 ^ 7
  let mates : List Nat := [c / 4 * 4, c / 4 * 4 + 1, c / 4 * 4 + 2, c / 4 * 4 + 3]
  let before (j : Nat) : Bool := j ≠ c ∧ (s.ctx j).life ≠ .idle ∧ (prio c < prio j ∨ (prio c = prio j ∧ j < c))
  let left : Nat := 8 - (mates.map fun j => (s.ctx j).held).sum - (core.reserved.map (·.groups)).sum -
    ((mates.filter before).map fun j => C j - (s.ctx j).held).sum
  let want := min (C c) (s.me.held + left)
  S (.vsetl d a 0 f w) s ∧
  ∃ t h, S (.vsetl d a 1 f w) t ∧ t = { s with ctxs := t.ctxs, cores := t.cores } ∧ (∀ k, k ≠ c → t.ctx k = s.ctx k) ∧
    (∀ k, k ≠ c / 4 → t.core k = s.core k) ∧ t.core (c / 4) = { core with preempt := (t.core (c / 4)).preempt, reserved := (t.core (c / 4)).reserved } ∧
    (∀ p, core.preempt = some p → p.victim = c → p.reclaim = true →
      (p.need = 0 → (t.core (c / 4)).preempt = none ∧ (t.core (c / 4)).reserved = core.reserved) ∧
      (p.need ≠ 0 → (t.core (c / 4)).preempt = some p ∧
        (t.core (c / 4)).reservedFor p.die p.seq = core.reservedFor p.die p.seq + (s.me.held - h) ∧
        ∀ die seq, (die, seq) ≠ (p.die, p.seq) → (t.core (c / 4)).reservedFor die seq = core.reservedFor die seq)) ∧
    ((∀ p, core.preempt = some p → p.victim = c → p.reclaim = false) → t.core (c / 4) = core) ∧
    t.me.held = h ∧ t.me.ceil = C c ∧ t.me.lowered = none ∧
    (want = 0 → h = 0) ∧ (1 ≤ want → h ∈ [1, 2, 4, 8] ∧ h ≤ want ∧ ∀ k ∈ [1, 2, 4, 8], k ≤ want → k ≤ h) ∧
    (h = s.me.held → t.me = { s.me with ceil := C c, lowered := none }) ∧
    (h ≠ s.me.held →
      t.me = { s.me with
        ceil := C c, lowered := none, held := h, v := t.me.v, hdr := t.me.hdr, sup := t.me.sup, m := t.me.m, vstart := 0, vfm := 0 } ∧
      (∀ r, regGet t.me.v r = BitVec.ofNat 8192 ((regGet s.me.v r).toNat % 2 ^ (1024 * min h s.me.held)) ∧
        regGet t.me.hdr r = BitVec.ofNat 512 ((regGet s.me.hdr r).toNat % 2 ^ (64 * min h s.me.held)) ∧
        regGet t.me.sup r = BitVec.ofNat 256 ((regGet s.me.sup r).toNat % 2 ^ (32 * min h s.me.held))) ∧
      ∀ r, get8 t.me.m r = BitVec.ofNat 1024 ((get8 s.me.m r).toNat % 2 ^ (128 * min h s.me.held)))

/-- R65, R66, R336, R337: one captured word of an RPT frame runs at each step of this machine, with its staggered fields for the iteration,
and RPTPOS goes on: to the next captured word, to the next iteration, or past the frame, when the program counter is behind the captured
words. `u` is the state once the words are captured, which happens when the frame is issued or resumed. A word that traps leaves RPTPOS
at it, and RPT needs ENABLE.RPT. One word a step is the model's granularity. -/
def Obligations.RepeatFrame : Prop := ∀ (n : BitVec 10) (k : BitVec 4) (g : BitVec 3) (x y z : BitVec 1) (s u : State) (w : BitVec 32)
    (i : Instr),
  let p := u.me.rptpos.toNat
  let j := p / 16 % 2 ^ 10
  let e := p % 16
  (s.me.rpt = [] → s.myPkg.enable.getLsbD 10 = false →
    Traps (.rpt n k g x y z) s 0x004 ((encode (.rpt n k g x y z)).setWidth 64)) ∧
  ((rptIssue (.rpt n k g x y z) (n.toNat + 1) (k.toNat + 1)).run s = (.ok (), u) → u.me.rpt[e]? = some w →
    decode (stagger x y z (g.toNat + 1) j w) = .ok i →
    (∀ t, (capturedMeaning i).run u = (.ok (), t) → t.me.pc = u.me.pc →
      exec (.rpt n k g x y z) s = .next (t.setMe
        (if e < k.toNat then { t.me with rptpos := BitVec.ofNat 64 (2 ^ 63 + j * 16 + (e + 1)) }
         else if j < n.toNat then { t.me with rptpos := BitVec.ofNat 64 (2 ^ 63 + (j + 1) * 16) }
         else { t.me with rptpos := 0, rpt := [], pc := nextPc u.me.pc (k.toNat + 2), stall := [], busy := false }))) ∧
    (∀ t cause info f, (capturedMeaning i).run u = (.error (.trap cause info f), t) →
      exec (.rpt n k g x y z) s = .next (t.trapNow cause info f)))
namespace Sys2Proof.Claims

/-! ## Vocabulary of vector memory instructions -/

/-- MFMT.ENC (R61). -/
def encOf (x : Ctx) : Tag := tagOfCode (x.mfmt.toNat % 32)

/-- The elements of a batch: processed, and on a replay named in VFM (R163). -/
def Batch (x : Ctx) (m : BitVec 1) (r : BitVec 3) (k : Nat) : Prop := Runs x m r k ∧ (x.vfm = 0 ∨ x.vfm.getLsbD k = true)

/-- The places of `n` bytes from a physical address on. -/
def placesAt (pa n : Nat) : List Loc := (List.range n).map fun q => Loc.phys (pa + q)

/-- An element on its way between memory and register (R124, R125): its bits where ENC is 0 or both sides have one format, else converted. -/
def recoded (src dst : Tag) (x : Ctx) (v : Nat) : FpResult :=
  if src = .unset ∨ dst = .unset ∨ src = dst then (v, 0) else converted src dst (rmOf (slice x.vcfg 4 2)) (slice x.vcfg 2 2) v

/-- The tag that a load gives (R124), SB encodings apart. -/
def LoadTag (enc : Tag) (w : Nat) (dst : Tag) : Prop :=
  (enc.isFloat = false ∧ dst = tagOfWidth w) ∨ (enc.isFloat = true ∧ w = 16 ∧ dst = if enc = .fp16 then .fp16 else .bf16) ∨
  (enc.isFloat = true ∧ w = 32 ∧ dst = .fp32) ∨ (enc.isFloat = true ∧ w = 64 ∧ dst = .fp64)

/-- The source tags that a store accepts (R125), SB tags and encodings apart. -/
def StoreTag (enc : Tag) (w : Nat) (src : Tag) : Prop := src.isSb = false ∧ enc.isSb = false ∧ src.bits = w ∧ (enc.isInt = true → src.isInt = true)

/-- The accesses of an instruction pass the range check of their base and, where one is in the stash window, ENABLE.STASH (R135, R377). -/
def InRange (s : State) (base a : Nat) : Prop :=
  (inWindow base = true → inWindow a = true) ∧ (inWindow base = false → a < 2 ^ 55) ∧ (inWindow a = true → s.myPkg.enable.getLsbD 3 = true)

/-- How a batch is performed, one element after another from state `s` to `u`: element k has the accesses `accs k`, which are located (`o k`, leaving `at_ k`)
and then acted on, or end with a cause of R163 and are skipped. Translation, page moves and waits are those of one access (R135 to R147, R153 to R158). -/
def PassOver (who : Who) (kind : Access) (accs : Nat → List (Nat × Nat)) (act : Nat → List Loc → State → State)
    (o : Nat → Except (Nat × Stop) (List Loc)) (at_ : Nat → State) (u : State) : State → List Nat → Prop
  | s, [] => u = s
  | s, k :: rest => (elementPlaces who kind (accs k)).run s = (.ok (o k), at_ k) ∧
    match o k with
    | .ok ls => PassOver who kind accs act o at_ u (act k ls (at_ k)) rest
    | .error (_, .trap c _ _) => c ∈ ([0x101, 0x102, 0x103, 0x105, 0x1C1, 0x1C2, 0x1C3, 0x381, 0x382] : List (BitVec 10)) ∧
        PassOver who kind accs act o at_ u (at_ k) rest
    | .error _ => False

/-- An element that ended a pass with a fault: its number, the address concerned, the cause, its information word and its record. -/
def failures (els : List Nat) (o : Nat → Except (Nat × Stop) (List Loc)) : List (Nat × Nat × BitVec 10 × Word × FaultInfo) :=
  els.filterMap fun k => match o k with
    | .error (va, .trap c w r) => some (k, va, c, w, r)
    | _ => none

/-- The entry of a faulting element in the page list (R161). -/
def pageWord (kind : Nat) (f : Nat × Nat × BitVec 10 × Word × FaultInfo) : Word :=
  let unit := if f.2.2.1.toNat ≤ 0x105 ∨ (f.2.2.1 = 0x382 ∧ f.2.2.2.2.w4 ≠ 0) then 65536 else 4096
  BitVec.ofNat 64 (f.2.1 / unit * unit + kind * 1024 + f.2.2.1.toNat)

/-- The information word of a batch trap (R163). -/
def batchWord (f : Nat × Nat × BitVec 10 × Word × FaultInfo) : Word :=
  if f.2.2.1 ∈ ([0x103, 0x105, 0x1C3] : List (BitVec 10)) then f.2.2.2.1 else BitVec.ofNat 64 f.2.1

/-- How a batch ends (R161, R163) in the state `y` that holds its results: with no fault it completes with VFM and VSTART clear; else VFM names the
elements left (`marks` of each that faulted) and the cause of the lowest (`first` of it) is raised, with the faulting pages listed. -/
def BatchEnds (i : Instr) (s y : State) (kind w : Nat) (els : List Nat) (o : Nat → Except (Nat × Stop) (List Loc)) (first : Nat → Nat)
    (marks : Nat → List Nat) : Prop :=
  (failures els o = [] →
    exec i s = .next (y.setMe { y.me with vfm := 0, vstart := 0, adone := 0, pc := nextPc s.me.pc 1, stall := [], busy := false })) ∧
  ∀ f rest, failures els o = f :: rest →
    let all := ((f :: rest).map (pageWord kind)).eraseDups
    let left := BitVec.ofNat 1024 ((((f :: rest).flatMap fun g => marks g.1).map fun k => 2 ^ k).sum)
    exec i s = .next ((y.setMe { y.me with vfm := left }).trapNow f.2.2.1 (batchWord f)
      { f.2.2.2.2 with elem := first f.1, lane := first f.1 * w / 256, more := decide (27 < all.length), pages := all.take 27 })

/-- The elements of a batch in ascending order, as a list; `start` is VSTART or, for packed data, VSTART rounded down to 32. -/
def batchList (x : Ctx) (m : BitVec 1) (r : BitVec 3) (start : Nat) : List Nat :=
  (List.range x.vl.toNat).filter fun k => decide (start ≤ k) && (m == 0#1 || (get8 x.m r).getLsbD k) && (x.vfm == 0 || x.vfm.getLsbD k)

/-- A superblock access (R118, R119): the instruction's payload and side base, whether each is used, elements and blocks by their size. -/
structure SuperAccess where
  payload : Nat
  side : Nat
  usesPayload : Bool
  usesSide : Bool
  elems : Nat
  block : Nat
  bits : Nat

/-- The byte of its superblock's payload in which an element lies. -/
def SuperAccess.byteOf (g : SuperAccess) (k : Nat) : Nat := k % g.elems * g.bits / 8

/-- The elements of a list that lie in a superblock, and the first and the last byte of its payload that they touch. -/
def SuperAccess.within (g : SuperAccess) (els : List Nat) (j : Nat) : List Nat := els.filter fun k => k / g.elems == j
def SuperAccess.lo (g : SuperAccess) (els : List Nat) (j : Nat) : Nat := g.byteOf ((g.within els j).head?.getD 0)
def SuperAccess.hi (g : SuperAccess) (els : List Nat) (j : Nat) : Nat := g.byteOf ((g.within els j).getLast?.getD 0)

/-- The accesses of a superblock: the payload bytes from the first to the last touched, then the side entry. -/
def SuperAccess.accs (g : SuperAccess) (els : List Nat) (j : Nat) : List (Nat × Nat) :=
  (if g.usesPayload then [((g.payload + 128 * j + g.lo els j) % 2 ^ 64, g.hi els j - g.lo els j + 1)] else []) ++
  (if g.usesSide then [((g.side + 16 * j) % 2 ^ 64, 16)] else [])

/-- The code of an element and the side entry of a superblock, from the places that were located for it in a state. -/
def SuperAccess.code (g : SuperAccess) (els : List Nat) (t : State) (ls : List Loc) (k : Nat) : Nat :=
  (((ls.map t.locByte)[g.byteOf k - g.lo els (k / g.elems)]?).getD 0).toNat / 2 ^ (k * g.bits % 8) % 2 ^ g.bits
def SuperAccess.entry (g : SuperAccess) (els : List Nat) (t : State) (ls : List Loc) (j : Nat) : Nat :=
  leNat ((ls.map t.locByte).drop (if g.usesPayload then g.hi els j - g.lo els j + 1 else 0))

/-- What is wrong with block q of a superblock of which the blocks `qs` are read (R128). -/
def sideReason (sb8 : Bool) (entry : Nat) (qs : List Nat) (q : Nat) : Option Nat :=
  if (∀ p ∈ qs, q ≤ p) ∧ (entry / 2 ^ 96 % 2 ^ 32 ≠ 0 ∨ entry / 2 ^ 23 % 256 = 255) then some 3 else headerReason sb8 (entry / 2 ^ (32 + 16 * q) % 2 ^ 16)

/-- What a load of `fields` registers from d leaves: from `t`, field j of element k is the converted value of the `n` bytes at `pa k j`, or of those
of a past moment that vector reads may still stand at (assumption 9); every other element, register and byte is as before. `adone` is the model's
mark of an atomic that goes on, and no register. -/
def Loaded (x : Ctx) (t u : State) (d : BitVec 5) (dst : Tag) (n fields : Nat) (Q : Nat → Prop) (adr pa : Nat → Nat → Nat)
    (vfm : BitVec 1024) : Prop :=
  let w := sewBits x
  ∃ bs : Nat → Nat → List Byte, (∀ k j, Q k → j < fields → MayTake t t.who .vector (adr k j) (placesAt (pa k j) n) (bs k j)) ∧
    let val (k j : Nat) := recoded (encOf x) dst x (leNat (bs k j))
    ∃ fl, (∀ b, fl.getLsbD b = true ↔ ∃ k j, Q k ∧ j < fields ∧ (val k j).2.getLsbD b = true) ∧
      u = { t with ctxs := u.ctxs, pins := u.pins, free := u.free } ∧ (∀ c, c ≠ t.cur → u.ctx c = t.ctx c) ∧
      u.me = { t.me with
        v := u.me.v, tag := u.me.tag, hdr := u.me.hdr, sup := u.me.sup, fflags := x.fflags ||| fl, vfm := vfm, vstart := 0
        pc := nextPc x.pc 1, stall := [], busy := false, adone := u.me.adone } ∧
      (∀ j, j < fields → let q := d + BitVec.ofNat 5 j
        regGet u.me.tag q = dst ∧ regGet u.me.hdr q = 0 ∧ regGet u.me.sup q = 0 ∧
        ∀ k, (k + 1) * w ≤ 8192 → (Q k → vel u.me q w k = (val k j).1 % 2 ^ w) ∧ (¬Q k → vel u.me q w k = vel x q w k)) ∧
      ∀ q, (∀ j, j < fields → q ≠ d + BitVec.ofNat 5 j) → regGet u.me.v q = regGet x.v q ∧ regGet u.me.tag q = regGet x.tag q ∧
        regGet u.me.hdr q = regGet x.hdr q ∧ regGet u.me.sup q = regGet x.sup q

/-- A queued element: its places and bytes, whether it keeps the order of its instruction, and the marks of its place among the context's accesses
(assumption 9). -/
def queued (x : Ctx) (bytes : List (Loc × Byte)) (ord : Bool) : QStore := ⟨bytes, ord, x.newStamp, x.vAfter, false⟩

/-- The state with one more queued store of the context. -/
def withStore (s : State) (q : QStore) : State := s.setMe { s.me with vstores := s.me.vstores ++ [q] }

/-- What a store leaves: one queued store for each element of the list, ascending, of the given places and bytes, behind those that the queue holds;
memory itself changes only when the queue is performed (R55, R168). -/
def Queued (s u : State) (els : List Nat) (fl : BitVec 5) (q : Nat → QStore) : Prop :=
  OnlyMe s u ∧
  u.me = { s.me with
    vstores := s.me.vstores ++ els.map q, fflags := s.me.fflags ||| fl, vfm := 0, vstart := 0, pc := nextPc s.me.pc 1, stall := [], busy := false
    adone := u.me.adone }

open scoped Classical in
/-- One selector tried on a block of `n` elements from `base` on (R130): the scale code c, the element codes and the error; `S` is the superscale. The elements
are patterns of a format, none for padding. -/
def QuantTry (sb8 : Bool) (S : Nat) (f : Fmt) (ps : Nat → Option Nat) (base n sel c : Nat) (code : Nat → Nat) (err : Nat) : Prop :=
  let k := if sb8 then 7 else 3
  let mag (i : Nat) : ℚ := ((ps (base + i)).map fun p => |fpValue f p|).getD 0
  ∃ b : Nat → Nat, (∀ c, c < 256 → BlockScale S c (b c)) ∧
    let val (c : Nat) : ℚ := fpValue fp32 (b c)
    let qualifies (c : Nat) : Prop := c < 256 ∧ FpFinite fp32 (b c) ∧ ∀ i, i < n → mag i ≤ val c * sbDecode sb8 sel (2 ^ k - 1)
    qualifies c ∧ (∀ e, qualifies e → val c ≤ val e ∧ (val c = val e → c ≤ e)) ∧
    ∃ slot : Nat → Option Nat, (slotTree (fpAdd fp32 .rne 0) slot 6 0).1.getD 0 = err ∧ (∀ i, n ≤ i → slot i = none) ∧
      ∀ i, i < n →
        (ps (base + i) = none → code i = 0 ∧ slot i = none) ∧
        ∀ p, ps (base + i) = some p →
          let mi := code i % 2 ^ k
          let diff : ℚ := fpValue f p - val c * sbDecode sb8 sel (code i)
          (∀ e, e < 2 ^ k → |mag i - val c * sbDecode sb8 sel mi| ≤ |mag i - val c * sbDecode sb8 sel e| ∧
            (|mag i - val c * sbDecode sb8 sel mi| = |mag i - val c * sbDecode sb8 sel e| → mi ≤ e)) ∧
          code i = mi + (if fpValue f p < 0 ∧ mi ≠ 0 then 2 ^ k else 0) ∧
          (diff = 0 → slot i = some 0) ∧
          (diff ≠ 0 → ∃ dlt fl, Rounded fp32 .rne false (diff : ℝ) (dlt, fl) ∧ slot i = some (fpMul fp32 .rne 0 dlt dlt).1)

/-- The encoding of one superblock (R130): payload and side entry as numbers, or the information of cause 0x084. -/
def Quantised (sb8 : Bool) (sels : List Nat) (f : Fmt) (ps : Nat → Option Nat) (r : Except Nat (Nat × Nat)) : Prop :=
  let len := if sb8 then 128 else 256
  let n := if sb8 then 32 else 64
  let bits := if sb8 then 8 else 4
  let zero : Prop := ∀ i p, i < len → ps i = some p → fpValue f p = 0
  let header (e q : Nat) : Nat := e / 2 ^ (32 + 16 * q) % 2 ^ 16
  ((∃ i p, i < len ∧ ps i = some p ∧ ¬FpFinite f p) → r = .error 1) ∧
  ((∀ i p, i < len → ps i = some p → FpFinite f p) →
    (zero → r = .ok (0, 0x00FF00FF00FF00FF * 2 ^ 32)) ∧
    (¬zero → ∃ S, FpFinite fp32 S ∧ S < 2 ^ 31 ∧ (∀ i p, i < len → ps i = some p → |fpValue f p| ≤ fpValue fp32 S) ∧
      (∃ i p, i < len ∧ ps i = some p ∧ |fpValue f p| = fpValue fp32 S) ∧
      let usable (q sel : Nat) : Prop := ∃ c code err, QuantTry sb8 S f ps (n * q) n sel c code err
      ((∃ q, q < 4 ∧ ∀ sel ∈ sels, ¬usable q sel) → r = .error 2) ∧
      ((∀ q, q < 4 → ∃ sel ∈ sels, usable q sel) → ∃ payload entry, r = .ok (payload, entry) ∧ payload < 2 ^ 1024 ∧ entry < 2 ^ 96 ∧
        entry % 2 ^ 32 = S ∧ ∀ q, q < 4 → ∃ sel ∈ sels, ∃ c code err, QuantTry sb8 S f ps (n * q) n sel c code err ∧
          (∀ sel' ∈ sels, ∀ c' code' err', QuantTry sb8 S f ps (n * q) n sel' c' code' err' → err ≤ err' ∧ (err = err' → sel ≤ sel')) ∧
          header entry q % 2 ^ 10 = c + 256 * sel ∧ header entry q < 2 ^ 11 ∧ (List.range 11).countP (header entry q).testBit % 2 = 0 ∧
          ∀ i, i < n → payload / 2 ^ (bits * (n * q + i)) % 2 ^ bits = code i)))

/-- A factor of a product of the matrix unit: a NaN, an infinity, or a value; with its sign. -/
structure Factor where
  nan : Prop
  signalling : Prop
  inf : Prop
  neg : Prop
  val : ℚ

/-- The factor that a pattern of a format is. -/
def Factor.ofPattern (f : Fmt) (p : Nat) : Factor :=
  let top : Prop := p / 2 ^ f.fb % 2 ^ f.eb = 2 ^ f.eb - 1
  ⟨top ∧ p % 2 ^ f.fb ≠ 0, top ∧ p % 2 ^ f.fb ≠ 0 ∧ p / 2 ^ (f.fb - 1) % 2 = 0, top ∧ p % 2 ^ f.fb = 0, p.testBit (f.eb + f.fb) = true, fpValue f p⟩

/-- The factor that a decoded element is, without its block scale. -/
def Factor.ofValue (q : ℚ) : Factor := ⟨False, False, False, q < 0, q⟩

/-- Some of n products has a NaN or an infinity among its factors. -/
def Special (A B : Nat → Factor) (n : Nat) : Prop := ∃ k, k < n ∧ ((A k).nan ∨ (A k).inf ∨ (B k).nan ∨ (B k).inf)

/-- The special sum of R117 as an FP32 pattern, and its flags. -/
def SpecialSum (A B : Nat → Factor) (n g : Nat) (fl : BitVec 5) : Prop :=
  let zero (x : Factor) : Prop := ¬x.nan ∧ ¬x.inf ∧ x.val = 0
  let nan : Prop := ∃ k, k < n ∧ ((A k).nan ∨ (B k).nan)
  let snan : Prop := ∃ k, k < n ∧ ((A k).signalling ∨ (B k).signalling)
  let invalid : Prop := ∃ k, k < n ∧ (((A k).inf ∧ zero (B k)) ∨ (zero (A k) ∧ (B k).inf))
  let infs (b : Prop) : Prop := ∃ k, k < n ∧ ((A k).inf ∨ (B k).inf) ∧ (¬((A k).neg ↔ (B k).neg) ↔ b)
  (nan ∨ invalid → g = 0x7FC00000 ∧ (snan ∨ invalid → fl = flagNV) ∧ (¬(snan ∨ invalid) → fl = 0)) ∧
  (¬(nan ∨ invalid) →
    (infs True ∧ infs False → g = 0x7FC00000 ∧ fl = flagNV) ∧ (infs True ∧ ¬infs False → g = 0xFF800000 ∧ fl = 0) ∧
    (¬infs True → g = 0x7F800000 ∧ fl = 0))

/-- One group of 32 products added to an accumulator (R116). -/
def GroupStep (A B : Nat → Factor) (acc : Nat) (r : FpResult) : Prop :=
  let q (k : Nat) : ℚ := (A k).val * (B k).val
  let into (g : ℚ) : Prop := (¬FpFinite fp32 acc → r = fpAdd fp32 .rne 0 acc 0) ∧ (FpFinite fp32 acc →
    let v := fpValue fp32 acc + g
    (v = 0 → r = (0, 0)) ∧ (v ≠ 0 → Rounded fp32 .rne false (v : ℝ) r))
  let trunc (y : ℚ) : ℤ := if 0 ≤ y then ⌊y⌋ else ⌈y⌉
  (Special A B 32 → ∃ g fl, SpecialSum A B 32 g fl ∧ r = ((fpAdd fp32 .rne 0 acc g).1, (fpAdd fp32 .rne 0 acc g).2 ||| fl)) ∧
  (¬Special A B 32 → ((∀ k, k < 32 → q k = 0) → into 0) ∧
    ∀ E : ℤ, (∃ k, k < 32 ∧ (2 : ℚ) ^ E ≤ |q k|) → (∀ k, k < 32 → |q k| < (2 : ℚ) ^ (E + 1)) →
      into (((List.range 32).map fun k => (trunc (q k / (2 : ℚ) ^ (E - 46)) : ℚ) * (2 : ℚ) ^ (E - 46)).sum))

/-- One segment of n products under two block scales added to an accumulator (R132). The sign of u where t is a zero is the model's choice (assumption 36). -/
def SegmentStep (n bA bB : Nat) (A B : Nat → Factor) (acc : Nat) (r : FpResult) : Prop :=
  let product := fpMul fp32 .rne 0 bA bB
  let t : FpResult := if product.1 = 0x7FC00000 then (0, 0) else product
  let dot : ℚ := ((List.range n).map fun k => (A k).val * (B k).val).sum
  let sign : Nat := if t.1.testBit 31 != decide (dot < 0) then 2 ^ 31 else 0
  (Special A B n → ∃ g fl, SpecialSum A B n g fl ∧ r = ((fpAdd fp32 .rne 0 acc g).1, (fpAdd fp32 .rne 0 acc g).2 ||| fl ||| t.2)) ∧
  (¬Special A B n → ∃ u : FpResult, r = ((fpAdd fp32 .rne 0 acc u.1).1, (fpAdd fp32 .rne 0 acc u.1).2 ||| u.2 ||| t.2) ∧
    (dot = 0 → u = (0, 0)) ∧
    (dot ≠ 0 →
      (t.1 % 2 ^ 31 = 0x7F800000 → u = (sign + 0x7F800000, 0)) ∧ (t.1 % 2 ^ 31 = 0 → u = (sign, 0)) ∧
      (t.1 % 2 ^ 31 ≠ 0x7F800000 → t.1 % 2 ^ 31 ≠ 0 → Rounded fp32 .rne false ((dot * fpValue fp32 t.1 : ℚ) : ℝ) u)))

/-- The factors of a line (R118, R222), and the side entry of an element of an SB line. -/
def lineSide (t : Tag) (l : Line) (k : Nat) : Nat := (l.sides[k / (if t = .sb8 then 128 else 256)]?).getD 0
def lineHeader (t : Tag) (l : Line) (k : Nat) : Nat :=
  lineSide t l k / 2 ^ (32 + 16 * (if t = .sb8 then k % 128 / 32 else k % 256 / 64)) % 2 ^ 16
def lineFactor (t : Tag) (l : Line) (k : Nat) : Factor :=
  if t.isSb = true then
    let bits := if t = .sb8 then 8 else 4
    .ofValue (sbDecode (t == .sb8) (lineHeader t l k / 256 % 4) (l.payload / 2 ^ (bits * k) % 2 ^ bits))
  else .ofPattern t.fmt (l.payload / 2 ^ (t.bits * k) % 2 ^ t.bits)

/-- The scale of the block that element k of a line lies in: 1 where the operand is no SB operand. -/
def LineScale (t : Tag) (l : Line) (k b : Nat) : Prop :=
  (t.isSb = true → BlockScale (lineSide t l k % 2 ^ 32) (lineHeader t l k % 256) b) ∧ (t.isSb = false → b = 0x3F800000)

/-- The headers and superscales of a line below K pass their checks (R128). -/
def LineGood (t : Tag) (l : Line) (K : Nat) : Prop :=
  t.isSb = true → ∀ k, k < K → headerReason (t == .sb8) (lineHeader t l k) = none ∧ lineSide t l k / 2 ^ 23 % 256 ≠ 255

/-- One accumulator element over K elements of a row and a column (R116, R132): segment by segment in ascending order, the flags of all. -/
def Accumulated (tA tB : Tag) (K : Nat) (row col : Line) (acc : Nat) (r : FpResult) : Prop :=
  let len := if tA = .sb4 ∧ tB = .sb4 then 64 else 32
  ∃ (a : Nat → Nat) (fl : Nat → BitVec 5), a 0 = acc ∧ a (K / len) = r.1 ∧
    (∀ k, r.2.getLsbD k = true ↔ ∃ j, j < K / len ∧ (fl j).getLsbD k = true) ∧
    ∀ j, j < K / len → let A (k : Nat) := lineFactor tA row (len * j + k)
      let B (k : Nat) := lineFactor tB col (len * j + k)
      (tA.isSb = false ∧ tB.isSb = false → GroupStep A B (a j) (a (j + 1), fl j)) ∧
      (tA.isSb = true ∨ tB.isSb = true → ∃ bA bB, LineScale tA row (len * j) bA ∧ LineScale tB col (len * j) bB ∧
        SegmentStep len bA bB A B (a j) (a (j + 1), fl j))

/-- A list of the numbers with a property, in ascending order. -/
def Lists (els : List Nat) (Q : Nat → Prop) : Prop := els.Pairwise (· < ·) ∧ ∀ k, k ∈ els ↔ Q k

/-- The places and bytes of one access. -/
def cells (pa n v : Nat) : List (Loc × Byte) := (placesAt pa n).zip (leBytes n v)

end Sys2Proof.Claims

open scoped Classical in
/-- R50, R124, R126 to R128, R135, R163, R375 to R381: the vector loads: unit-stride, strided, segment (field by field into consecutive registers), indexed
and first-faulting. Clause L: with every element of the batch at a usable global address, each is read from its address, after the queued vector stores
(`t`: they are performed first), and converted under MFMT.ENC; the destination takes the tag that R124 gives, VFM and VSTART are cleared (VLDFF leaves
VFM). Clause W: at any addresses, also in the stash window, and with elements that fault: those that do not fault are loaded, those that do are named in VFM
and the lowest one's cause is raised with the pages listed; VLDFF ends before its first fault and shortens VL, or raises it for its first element. The last
clause: the packed and expanding loads of SB data, with their header checks. Clauses W and the last stand where no past moment is open (assumption 9).
What a packed load leaves at a header fault inside a superblock, and that a side base that is not accessed is not checked, is the model's choice (assumption 62). -/
def Obligations.VectorLoads : Prop := ∀ (d a b : BitVec 5) (m : BitVec 1) (r f : BitVec 3) (z : BitVec 2) (s : State) (dst : Tag)
    (pa : Nat → Nat → Nat) (o : Nat → Except (Nat × Stop) (List Loc)) (at_ : Nat → State) (u : State),
  let x := s.me
  let t := s.drain s.cur
  let w := sewBits x
  let enc := encOf x
  let n := if enc = .unset then w / 8 else enc.bits / 8
  let base := (x.reg a).toNat
  let idx (k : Nat) := vel x b (8 * 2 ^ z.toNat) k
  let fields := f.toNat + 1
  let unit (k _j : Nat) : Nat := (base + k * n) % 2 ^ 64
  let strided (k _j : Nat) : Nat := (base + k * (x.reg b).toNat) % 2 ^ 64
  let segment (k j : Nat) : Nat := (base + (fields * k + j) * n) % 2 ^ 64
  let indexed (k _j : Nat) : Nat := (base + idx k * (w / 8)) % 2 ^ 64
  let indexOk : Prop := z.toNat ≤ x.vcfg.toNat % 4 ∧ regGet x.tag b = tagOfWidth (8 * 2 ^ z.toNat)
  let es := batchList x m r x.vstart.toNat
  let ok (C : Nat → Prop) (fields : Nat) (adr : Nat → Nat → Nat) : Prop := ∀ k j, C k → j < fields → adr k j % n = 0 ∧ InRange s base (adr k j)
  (enc.isSb = false → LoadTag enc w dst →
    (let L (i : Instr) (fields : Nat) (C Q : Nat → Prop) (adr : Nat → Nat → Nat) (vfm : BitVec 1024) : Prop :=
       inWindow base = false → ok C fields adr → (∀ k j, Q k → j < fields → Mapped t s.who .read (adr k j) n (pa k j)) →
       ∃ u, exec i s = .next u ∧ Loaded x t u d dst n fields Q adr pa vfm
     L (.vld d a b m r) 1 (Runs x m r) (Batch x m r) unit 0 ∧ L (.vlds d a b m r) 1 (Runs x m r) (Batch x m r) strided 0 ∧
     L (.vldseg d a m r f) fields (Runs x m r) (Batch x m r) segment 0 ∧ L (.vldff d a b m r) 1 (Runs x m r) (Runs x m r) unit x.vfm ∧
     (indexOk → L (.vldx d a b m r z) 1 (Batch x m r) (Batch x m r) indexed 0)) ∧
    (let value (v : State) (_k j : Nat) (ls : List Loc) : FpResult := recoded enc dst x (leNat (((ls.map v.locByte).drop (n * j)).take n))
     let Written (v y : State) (fields : Nat) (got : List (Nat × List Loc × State)) : Prop :=
       ∃ fl, (∀ b, fl.getLsbD b = true ↔ ∃ e ∈ got, ∃ j, j < fields ∧ (value e.2.2 e.1 j e.2.1).2.getLsbD b = true) ∧
         y = { v with ctxs := y.ctxs, pins := y.pins } ∧ (∀ c, c ≠ v.cur → y.ctx c = v.ctx c) ∧
         y.me = { v.me with v := y.me.v, tag := y.me.tag, hdr := y.me.hdr, sup := y.me.sup, fflags := v.me.fflags ||| fl } ∧
         (∀ j, j < fields → let q := d + BitVec.ofNat 5 j
           regGet y.me.tag q = dst ∧ regGet y.me.hdr q = 0 ∧ regGet y.me.sup q = 0 ∧
           ∀ k, (k + 1) * w ≤ 8192 →
             (∀ e ∈ got, e.1 = k → vel y.me q w k = (value e.2.2 k j e.2.1).1 % 2 ^ w) ∧ ((∀ e ∈ got, e.1 ≠ k) → vel y.me q w k = vel x q w k)) ∧
         ∀ q, (∀ j, j < fields → q ≠ d + BitVec.ofNat 5 j) → regGet y.me.v q = regGet x.v q ∧ regGet y.me.tag q = regGet x.tag q ∧
           regGet y.me.hdr q = regGet x.hdr q ∧ regGet y.me.sup q = regGet x.sup q
     let placed (els : List Nat) (v : Nat → State) : List (Nat × List Loc × State) :=
       els.filterMap fun k => match o k with
         | .ok ls => some (k, ls, v k)
         | .error _ => none
     let W (i : Instr) (fields : Nat) (C : Nat → Prop) (adr : Nat → Nat → Nat) : Prop :=
       ok C fields adr → Present t s.cur .vector →
       PassOver s.who .read (fun k => (List.range fields).map fun j => (adr k j, n)) (fun _ _ v => v) o at_ u t es →
       ∃ y, Written u y fields (placed es at_) ∧ BatchEnds i s y 0 w es o id fun k => [k]
     W (.vld d a b m r) 1 (Runs x m r) unit ∧ W (.vlds d a b m r) 1 (Runs x m r) strided ∧ W (.vldseg d a m r f) fields (Runs x m r) segment ∧
     (indexOk → W (.vldx d a b m r z) 1 (Batch x m r) indexed) ∧
     (∀ pre k post va c inf rec, ok (Runs x m r) 1 unit → Present t s.cur .vector → Lists (pre ++ k :: post) (Runs x m r) →
       PassOver s.who .read (fun k => [(unit k 0, n)]) (fun _ _ v => v) o at_ u t pre → failures pre o = [] →
       (elementPlaces s.who .read [(unit k 0, n)]).run u = (.ok (.error (va, .trap c inf rec)), at_ k) →
       c ∈ ([0x101, 0x102, 0x103, 0x105, 0x1C1, 0x1C2, 0x1C3, 0x381, 0x382] : List (BitVec 10)) →
       (pre = [] → exec (.vldff d a b m r) s =
         .next (((at_ k).setMe { (at_ k).me with vfm := 0, vstart := BitVec.ofNat 11 k }).trapNow c (batchWord (k, va, c, inf, rec))
           { rec with elem := k, lane := k * w / 256, more := false, pages := [pageWord 0 (k, va, c, inf, rec)] })) ∧
       (pre ≠ [] → ∃ y, Written (at_ k) y 1 (placed pre fun _ => at_ k) ∧
         exec (.vldff d a b m r) s = .next (y.setMe { y.me with
           vl := BitVec.ofNat 11 k, vstart := 0, pc := nextPc x.pc 1, stall := [], busy := false }))))) ∧
  (enc.isSb = true → s.myPkg.enable.getLsbD 2 = true →
    let sb8 : Bool := enc == .sb8
    let packed : Bool := w == 8
    let sm := x.mfmt.toNat / 2 ^ 8 % 4
    let g : SuperAccess := { payload := base, side := (x.reg b).toNat, usesPayload := sm != 1, usesSide := sm != 2,
                             elems := if packed || sb8 then 128 else 256, block := if packed || sb8 then 32 else 64,
                             bits := if packed || sb8 then 8 else 4 }
    let start := if packed then x.vstart.toNat / 32 * 32 else x.vstart.toNat
    let es := batchList x m r start
    let js := (es.map (· / g.elems)).dedup
    let dst : Tag := if packed then enc else if w = 16 then .bf16 else .fp32
    let blocks (j : Nat) : List Nat := (g.within es j).map fun k => k % g.elems / g.block
    let i : Instr := .vld d a b m r
    (if packed then (sm = 2 ∨ b ≠ 0) ∧ m = 0 ∧ x.vl.toNat % 128 = 0 else w ≠ 64 ∧ b ≠ 0 ∧ sm = 0) →
    base % 128 = 0 → (sm = 2 ∨ g.side % 16 = 0) →
    (∀ k, start ≤ k → On x m r k → (sm = 1 ∨ InRange s base ((base + 128 * (k / g.elems) + g.byteOf k) % 2 ^ 64)) ∧
      (sm = 2 ∨ inWindow ((g.side + 16 * (k / g.elems)) % 2 ^ 64) = true → s.myPkg.enable.getLsbD 3 = true)) →
    Present t s.cur .vector →
    let got (j : Nat) : Option (List Loc) := match o j with
      | .ok ls => some ls
      | .error _ => none
    let bad (j q : Nat) : Option Nat := match got j with
      | some ls => if g.usesSide then sideReason sb8 (g.entry es (at_ j) ls j) (blocks j) q else none
      | none => none
    let res (k : Nat) : FpResult := match got (k / g.elems) with
      | some ls =>
        let e := g.entry es (at_ (k / g.elems)) ls (k / g.elems)
        let h := e / 2 ^ (32 + 16 * (k % g.elems / g.block)) % 2 ^ 16
        expand sb8 (e % 2 ^ 32) h (g.code es (at_ (k / g.elems)) ls k) dst.fmt (rmOf (slice x.vcfg 4 2)) (slice x.vcfg 2 2)
      | none => (0, 0)
    let Written (v y : State) (Q : Nat → Prop) (lanes : Nat → Nat → Prop) : Prop :=
      ∃ fl, (∀ b, fl.getLsbD b = true ↔ packed = false ∧ ∃ k, Q k ∧ (res k).2.getLsbD b = true) ∧
        y = { v with ctxs := y.ctxs, pins := y.pins } ∧ (∀ c, c ≠ v.cur → y.ctx c = v.ctx c) ∧
        y.me = { v.me with v := y.me.v, tag := regSet x.tag d dst, hdr := y.me.hdr, sup := y.me.sup, fflags := v.me.fflags ||| fl } ∧
        (∀ q, q ≠ d → regGet y.me.v q = regGet x.v q ∧ regGet y.me.hdr q = regGet x.hdr q ∧ regGet y.me.sup q = regGet x.sup q) ∧
        (∀ k, (k + 1) * w ≤ 8192 → vel y.me d w k =
          if Q k ∧ g.usesPayload = true then (if packed then ((got (k / g.elems)).map fun ls => g.code es (at_ (k / g.elems)) ls k).getD 0 else (res k).1 % 2 ^ w)
          else vel x d w k) ∧
        (packed = false → regGet y.me.hdr d = 0 ∧ regGet y.me.sup d = 0) ∧
        (packed = true → ∀ j, j < 8 →
          (regGet y.me.sup d).toNat / 2 ^ (32 * j) % 2 ^ 32 =
            (if ∃ q, lanes j q then ((got j).map fun ls => g.entry es (at_ j) ls j % 2 ^ 32).getD 0 else (regGet x.sup d).toNat / 2 ^ (32 * j) % 2 ^ 32) ∧
          ∀ q, q < 4 → (regGet y.me.hdr d).toNat / 2 ^ (16 * (4 * j + q)) % 2 ^ 16 =
            if lanes j q then ((got j).map fun ls => g.entry es (at_ j) ls j / 2 ^ (32 + 16 * q) % 2 ^ 16).getD 0
            else (regGet x.hdr d).toNat / 2 ^ (16 * (4 * j + q)) % 2 ^ 16)
    (PassOver s.who .read (g.accs es) (fun _ _ v => v) o at_ u t js → (∀ j ∈ js, ∀ q ∈ blocks j, bad j q = none) →
      ∃ y, Written u y (fun k => k ∈ es ∧ (got (k / g.elems)).isSome) (fun j q => j ∈ js ∧ (got j).isSome ∧ q < 4 ∧ sm ≠ 2) ∧
        BatchEnds i s y 0 w js o (fun j => (g.within es j).head?.getD 0) (g.within es)) ∧
    (∀ pre j post q reason, js = pre ++ j :: post → PassOver s.who .read (g.accs es) (fun _ _ v => v) o at_ u t (pre ++ [j]) →
      failures (pre ++ [j]) o = [] → (∀ p ∈ pre, ∀ q ∈ blocks p, bad p q = none) → q ∈ blocks j → bad j q = some reason →
      (∀ p ∈ blocks j, p < q → bad j p = none) →
      let stop := j * g.elems + q * g.block
      ∃ y, Written u y (fun k => k ∈ es ∧ k < stop) (fun l p => sm ≠ 2 ∧ ((l ∈ pre ∧ p < 4) ∨ (l = j ∧ p < q ∧ ∃ k ∈ g.within es j, k < stop))) ∧
        exec i s = .next ((y.setMe { y.me with vstart := BitVec.ofNat 11 (max stop x.vstart.toNat) }).trapNow 0x082
          (BitVec.ofNat 64 ((g.side + 16 * j) % 2 ^ 64 / 16 % 2 ^ 51 * 16 + q * 4 + reason)) noInfo)))

open scoped Classical in
/-- R55, R125, R130, R131, R135, R163, R164, R168, R393 to R396: the vector stores, likewise. Clause S: each element of the batch joins the context's queue
with its places and the bytes of its value converted to MFMT.ENC, behind what the queue holds; VSTX.ord marks them as ordered, and completes so unless the model
stops it at an element as a pre-emption may (`quota`, assumption 9). Clause W: at any addresses, also in the stash window, and with elements that fault: the others
join the queue, VFM names those that fault and the lowest one's cause is raised. Then the packed store of SB data, superblock by superblock, and VSTQ, which quantises
whole superblocks of its source and queues their 128 bytes of payload and 16 bytes of side entry, in ascending order (R131). That under SIDE = 10 the side
base is not checked is the model's choice (assumption 62). The last clause says what the quantiser gives (R130). -/
def Obligations.VectorStores : Prop := (∀ (d a b : BitVec 5) (m : BitVec 1) (r f : BitVec 3) (z : BitVec 2) (s : State) (els : List Nat)
    (pa : Nat → Nat → Nat) (o : Nat → Except (Nat × Stop) (List Loc)) (at_ : Nat → State) (u : State),
  let x := s.me
  let w := sewBits x
  let enc := encOf x
  let n := if enc = .unset then w / 8 else enc.bits / 8
  let base := (x.reg a).toNat
  let side := (x.reg b).toNat
  let idx (k : Nat) := vel x b (8 * 2 ^ z.toNat) k
  let reg (j : Nat) : BitVec 5 := d + BitVec.ofNat 5 j
  let val (k j : Nat) := recoded (regGet x.tag (reg j)) enc x (vel x (reg j) w k)
  let fields := f.toNat + 1
  let unit (k _j : Nat) : Nat := (base + k * n) % 2 ^ 64
  let strided (k _j : Nat) : Nat := (base + k * side) % 2 ^ 64
  let segment (k j : Nat) : Nat := (base + (fields * k + j) * n) % 2 ^ 64
  let indexed (k _j : Nat) : Nat := (base + idx k * (w / 8)) % 2 ^ 64
  let indexOk : Prop := z.toNat ≤ x.vcfg.toNat % 4 ∧ regGet x.tag b = tagOfWidth (8 * 2 ^ z.toNat)
  let ok (C : Nat → Prop) (fields : Nat) (adr : Nat → Nat → Nat) : Prop :=
    (∀ j, j < fields → StoreTag enc w (regGet x.tag (reg j))) ∧ ∀ k j, C k → j < fields → adr k j % n = 0 ∧ InRange s base (adr k j)
  let Flags (Q : Nat → Prop) (fields : Nat) (fl : BitVec 5) : Prop := ∀ c, fl.getLsbD c = true ↔ ∃ k j, Q k ∧ j < fields ∧ (val k j).2.getLsbD c = true
  (let S (i : Instr) (fields : Nat) (C Q : Nat → Prop) (adr : Nat → Nat → Nat) (ord : Bool) : Prop :=
     inWindow base = false → ok C fields adr → Lists els Q → (∀ k j, Q k → j < fields → Mapped s s.who .write (adr k j) n (pa k j)) →
     ∃ u fl, exec i s = .next u ∧ Flags Q fields fl ∧
       Queued s u els fl fun k => queued x ((List.range fields).flatMap fun j => cells (pa k j) n (val k j).1) ord
   S (.vst d a b m r) 1 (Runs x m r) (Batch x m r) unit false ∧ S (.vsts d a b m r) 1 (Runs x m r) (Batch x m r) strided false ∧
   S (.vstseg d a m r f) fields (Runs x m r) (Batch x m r) segment false ∧
   (indexOk → S (.vstx d a b m r z) 1 (Batch x m r) (Batch x m r) indexed false ∧
     (x.quota = none → S (.vstxOrd d a b m r z) 1 (Runs x m r) (Runs x m r) indexed true))) ∧
  (let es := batchList x m r x.vstart.toNat
   let W (i : Instr) (fields : Nat) (C : Nat → Prop) (adr : Nat → Nat → Nat) : Prop :=
     ok C fields adr →
     PassOver s.who .write (fun k => (List.range fields).map fun j => (adr k j, n))
       (fun k ls v => withStore v (queued x (ls.zip ((List.range fields).flatMap fun j => leBytes n (val k j).1)) false)) o at_ u s es →
     ∃ fl, Flags (fun k => k ∈ es ∧ ∃ ls, o k = .ok ls) fields fl ∧
       BatchEnds i s (u.setMe { u.me with fflags := u.me.fflags ||| fl }) 1 w es o id fun k => [k]
   W (.vst d a b m r) 1 (Runs x m r) unit ∧ W (.vsts d a b m r) 1 (Runs x m r) strided ∧ W (.vstseg d a m r f) fields (Runs x m r) segment ∧
   (indexOk → W (.vstx d a b m r z) 1 (Batch x m r) indexed)) ∧
  (let tag := regGet x.tag d
   let sm := x.mfmt.toNat / 2 ^ 8 % 4
   let g : SuperAccess := { payload := base, side := side, usesPayload := sm != 1, usesSide := sm != 2, elems := 128, block := 32, bits := 8 }
   let start := x.vstart.toNat / 32 * 32
   let es := batchList x m r start
   let js := (es.map (· / 128)).dedup
   tag.isSb = true → (enc = .unset ∨ (enc = tag ∧ s.myPkg.enable.getLsbD 2 = true)) → w = 8 → (sm = 2 ∨ b ≠ 0) → m = 0 → x.vl.toNat % 128 = 0 →
   base % 128 = 0 → (sm = 2 ∨ side % 16 = 0) →
   (∀ k, start ≤ k → On x m r k → (sm = 1 ∨ InRange s base ((base + k) % 2 ^ 64)) ∧
     (sm = 2 ∨ inWindow ((side + 16 * (k / 128)) % 2 ^ 64) = true → s.myPkg.enable.getLsbD 3 = true)) →
   PassOver s.who .write (g.accs es) (fun j ls v =>
     let body : List Byte := if sm = 1 then [] else
       (List.range (g.hi es j - g.lo es j + 1)).map fun q => BitVec.ofNat 8 (vel x d 8 (128 * j + g.lo es j + q))
     let entry : List Byte := if sm = 2 then [] else
       leBytes 16 ((regGet x.sup d).toNat / 2 ^ (32 * j) % 2 ^ 32 + (regGet x.hdr d).toNat / 2 ^ (64 * j) % 2 ^ 64 * 2 ^ 32)
     withStore v { queued x (ls.zip (body ++ entry)) false with split := true }) o at_ u s js →
   BatchEnds (.vst d a b m r) s u 1 8 js o (fun j => (g.within es j).head?.getD 0) (g.within es)) ∧
  (let sb8 : Bool := enc == .sb8
   let len := if sb8 then 128 else 256
   let sm := x.mfmt.toNat / 2 ^ 8 % 4
   let sels := (List.range (if sb8 then 2 else 3)).filter fun k => x.mfmt.getLsbD (5 + k)
   let src (j : Nat) : List Quant := (List.range len).map fun k =>
     if On x m r (j * len + k) then some (unpack (regGet x.tag d).fmt (vel x d w (j * len + k))) else none
   s.myPkg.enable.getLsbD 2 = true → enc.isSb = true → (sm = 2 ∨ b ≠ 0) → sels ≠ [] →
   (regGet x.tag d = .fp32 ∧ w = 32) ∨ ((regGet x.tag d = .bf16 ∨ regGet x.tag d = .fp16) ∧ w = 16) →
   base % 128 = 0 → (sm = 2 ∨ side % 16 = 0) →
   Lists els (fun j => x.vstart.toNat / len ≤ j ∧ j < (x.vl.toNat + len - 1) / len) →
   ∀ (cs : Nat → Nat × Nat), (∀ j ∈ els, quantSuper sb8 sels (src j) = .ok (cs j) ∧
     (sm ≠ 1 → Mapped s s.who .write ((base + 128 * j) % 2 ^ 64) 64 (pa j 0) ∧ Mapped s s.who .write ((base + 128 * j + 64) % 2 ^ 64) 64 (pa j 1)) ∧
     (sm ≠ 2 → Mapped s s.who .write ((side + 16 * j) % 2 ^ 64) 16 (pa j 2))) →
   ∃ u, exec (.vstq d a b m r) s = .next u ∧ OnlyMe s u ∧
     u.me = { x with
       vstart := 0, pc := nextPc x.pc 1, stall := [], busy := false
       vstores := x.vstores ++ els.map fun j => queued x
         ((if sm = 1 then [] else cells (pa j 0) 64 (cs j).1 ++ cells (pa j 1) 64 ((cs j).1 / 2 ^ 512)) ++
          (if sm = 2 then [] else cells (pa j 2) 16 (cs j).2)) true })) ∧
  ∀ (sb8 : Bool) (sels : List Nat) (f : Fmt) (ps : Nat → Option Nat), f ∈ [fp16, bf16, fp32] → sels ≠ [] → sels.Pairwise (· < ·) →
    (∀ sel ∈ sels, sel < if sb8 then 2 else 3) → (∀ i p, ps i = some p → p < 2 ^ f.width) →
    Quantised sb8 sels f ps (quantSuper sb8 sels ((List.range (if sb8 then 128 else 256)).map fun i => (ps i).map (unpack f)))

open scoped Classical in
/-- R239 to R244, R360, R361, R397, R398: VAMO performs its operation at the address of every element of the batch (of every processed one
with .ord) and gives the element the old value; a refused bounded add leaves memory and gives the old value with the top bit set. Shown for
elements at places that do not overlap and hold no page table that translates them, so that no order shows, and for an instruction that the model does
not divide (`quota`, `adone`, assumption 9). VWAIT reads every element not yet satisfied, as it stands or at a past moment that its reads may still
stand at (assumption 9): when all are satisfied, or its limit has passed, it gives s[a] the number that are not and goes on; until then it stays and
keeps which are satisfied. -/
def Obligations.VectorAtomics : Prop := ∀ (d a b : BitVec 5) (m : BitVec 1) (r q : BitVec 3) (o e g : BitVec 1) (s : State)
    (pa : Nat → Nat),
  let x := s.me
  let t := s.drain s.cur
  let w := sewBits x
  let base := (x.reg a).toNat
  let adr (k : Nat) := (base + vel x b w k * (w / 8)) % 2 ^ 64
  let Q (k : Nat) : Prop := if o = 1 then Runs x m r k else Batch x m r k
  let old (k : Nat) := physNat t (pa k) (w / 8)
  let lt (p q : Nat) : Prop := (BitVec.ofNat w p).toInt < (BitVec.ofNat w q).toInt
  let op (k : Nat) := vel x d w k
  let bound (k : Nat) := vel x (d + 1) w k
  let V (i : Instr) (tag : Tag) (new ret : Nat → Nat) : Prop :=
    regGet x.tag d = tag → ∃ u, exec i s = .next u ∧ OnlyMemory t u ∧ (∀ c, c ≠ s.cur → u.ctx c = t.ctx c) ∧
      u.me = { t.me with v := u.me.v, vfm := 0, vstart := 0, pc := nextPc x.pc 1, stall := [], busy := false } ∧
      (∀ p, p ≠ d → regGet u.me.v p = regGet x.v p) ∧
      (∀ k, (k + 1) * w ≤ 8192 → vel u.me d w k = if Q k then ret k else vel x d w k) ∧
      (∀ k, Q k → physNat u (pa k) (w / 8) = new k) ∧
      ∀ l, (∀ k j, Q k → j < w / 8 → l ≠ .phys (pa k + j)) → u.locByte l = t.locByte l
  (x.quota = none → x.adone = 0 → 32 ≤ w → regGet x.tag b = tagOfWidth w → base % (w / 8) = 0 → inWindow base = false → (∀ k, Q k → adr k < 2 ^ 55) →
    (∀ k mem, Q k → (∀ c, (∀ l j, Q l → j < w / 8 → c ≠ pa l + j) → memByte mem c = memByte t.mem c) →
      Mapped { t with mem := mem } s.who .atomic (adr k) (w / 8) (pa k)) →
    (∀ k l, Q k → Q l → k ≠ l → pa k + w / 8 ≤ pa l ∨ pa l + w / 8 ≤ pa k) →
    let i := tagOfWidth w
    V (.vamoAdd d a b m r o e g) i (fun k => (old k + op k) % 2 ^ w) old ∧ V (.vamoAnd d a b m r o e g) i (fun k => old k &&& op k) old ∧
    V (.vamoOr d a b m r o e g) i (fun k => old k ||| op k) old ∧ V (.vamoXor d a b m r o e g) i (fun k => old k ^^^ op k) old ∧
    V (.vamoSmin d a b m r o e g) i (fun k => if lt (old k) (op k) then old k else op k) old ∧
    V (.vamoSmax d a b m r o e g) i (fun k => if lt (old k) (op k) then op k else old k) old ∧
    V (.vamoUmin d a b m r o e g) i (fun k => min (old k) (op k)) old ∧ V (.vamoUmax d a b m r o e g) i (fun k => max (old k) (op k)) old ∧
    V (.vamoSwap d a b m r o e g) i op old ∧
    V (.vamoFmax d a b m r o e g) (if w = 64 then .fp64 else .fp32)
      (fun k => (fpMinMax (if w = 32 then fp32 else fp64) 0 true (old k) (op k)).1) old ∧
    (regGet x.tag (d + 1) = i → V (.vamoAddb d a b m r o e g) i
      (fun k => if old k + op k ≤ bound k then old k + op k else old k)
      (fun k => if old k + op k ≤ bound k then old k else old k ||| 2 ^ (w - 1)))) ∧
  (let left (k : Nat) : Prop := Runs x m r k ∧ x.vdone.getLsbD k = false
   let y (k : Nat) : BitVec 64 := BitVec.ofNat 64 (vel x d 64 k)
   let late : Prop := x.reg a ≠ -1 ∧ (x.reg a).toNat ≤ x.waited.getD 0
   w = 64 → regGet x.tag d = .i64 → regGet x.tag b = .i64 → (∀ k, Runs x m r k → vel x b 64 k % 8 = 0 ∧ vel x b 64 k < 2 ^ 55) →
   (∀ k, left k → Mapped t s.who .read (vel x b 64 k) 8 (pa k)) →
   ∃ (u : State) (bs : Nat → List Byte), exec (.vwait d a b m r q) s = .next u ∧
     (∀ k, left k → MayTake t t.who .vector (vel x b 64 k) (placesAt (pa k) 8) (bs k)) ∧
     u = { t with ctxs := u.ctxs, pins := u.pins, free := u.free } ∧ (∀ c, c ≠ s.cur → u.ctx c = t.ctx c) ∧
     let v (k : Nat) : BitVec 64 := BitVec.ofNat 64 (leNat (bs k))
     let met (k : Nat) : Prop := match q.toNat with
       | 0 => v k = y k
       | 1 => v k ≠ y k
       | 2 => (y k).toNat ≤ (v k).toNat
       | 3 => (v k).toNat < (y k).toNat
       | 4 => (y k).toInt ≤ (v k).toInt
       | _ => (v k).toInt < (y k).toInt
     let n := (List.range x.vl.toNat).countP fun k => decide (left k ∧ ¬met k)
     (n = 0 ∨ late → RegSet { t.me with vfm := 0, vstart := 0, waited := none, vdone := 0 } u.me a (BitVec.ofNat 64 n)) ∧
     (n ≠ 0 → ¬late →
       u.me = { t.me with waited := some (x.waited.getD 0), vdone := u.me.vdone, stall := [], busy := false } ∧
       ∀ k, k < 1024 → (u.me.vdone.getLsbD k = true ↔ x.vdone.getLsbD k = true ∨ (left k ∧ met k))))

open scoped Classical in
/-- R54, R101, R116, R117, R132, R220 to R225, R325 to R330, R333: MSHAPE waits while another context holds the core's matrix unit and otherwise takes it and
grants the shape of R221, within the package's lane ceiling; MZERO clears a tile; MLDB fills a buffer with N lines of K elements; MMA adds
the product of M streamed lines and the buffer's lines to a tile, element by element under R116 or R132; MMOV moves one row between a tile
and a vector register, MST queues the M by N elements of a tile as vector stores. A context that does not hold the unit raises 0x210. The last clause
says what an accumulator element becomes: groups of 32 exact products on a common grid (R116), or segments of an SB pair under their block scales
(R132), NaNs and infinities by R117. -/
def Obligations.MatrixUnit : Prop := (∀ (d a b : BitVec 5) (t f : BitVec 3) (h : BitVec 1) (s : State),
  let x := s.me
  let core := s.core (s.cur / 4)
  let u := core.mu
  let P (i : Instr) (y : State) : Prop := exec i s = .next (y.setMe y.me.advance)
  let withUnit (v : Machine.MatrixUnit) : State := s.setCore (s.cur / 4) { core with mu := v }
  let req := (x.reg a).toNat
  let on : Prop := s.myPkg.enable.getLsbD 1 = true
  let sb : Prop := f.toNat ≤ 2 ∨ s.myPkg.enable.getLsbD 2 = true
  let mine : Prop := u.holder = some s.cur
  let row := (x.reg a).toNat
  (¬on → ∀ i ∈ ([.mshape d a f, .mzero t, .mldb d a b h f, .mma d a b t h f, .mst d a t, .mmovTo d a t, .mmovFrom d a t] : List Instr),
    Traps i s 0x004 ((encode i).setWidth 64)) ∧
  (on → ¬mine → (∀ i ∈ ([.mzero t, .mst d a t, .mmovTo d a t, .mmovFrom d a t] : List Instr), Traps i s 0x210 ((encode i).setWidth 64)) ∧
    (sb → ∀ i ∈ ([.mldb d a b h f, .mma d a b t h f] : List Instr), Traps i s 0x210 ((encode i).setWidth 64))) ∧
  (on → sb →
    (req / 2 ^ 32 ≠ 0 ∨ req / 2 ^ 11 % 32 ≠ 0 → Traps (.mshape d a f) s 0x211 (x.reg a)) ∧
    (req / 2 ^ 32 = 0 → req / 2 ^ 11 % 32 = 0 →
      (∀ c, u.holder = some c → c ≠ s.cur → Waits (.mshape d a f) s) ∧
      (u.holder = none ∨ mine →
        let kg := if f.toNat = 3 then 64 else 32
        let kmax := if f.toNat = 0 then 128 else if f.toNat ≤ 2 then 256 else if f.toNat = 3 then 1024 else 512
        let M := min (min (max (req / 2 ^ 24 % 256) 1) 64) (8 * s.myPkg.ceil)
        let N := min (max (req / 2 ^ 16 % 256) 1) 64
        let K := min (max ((req % 2048 + kg - 1) / kg * kg) kg) kmax
        let v : Machine.MatrixUnit := { (if u.holder = none then Core.reset.mu else u) with holder := some s.cur, shape := ⟨M, N, K, f⟩ }
        ∃ y, exec (.mshape d a f) s = .next y ∧ Wrote (withUnit v) y d (BitVec.ofNat 64 (K + N * 2 ^ 16 + M * 2 ^ 24))))) ∧
  (on → mine →
    P (.mzero t) (withUnit { u with tiles := set8 u.tiles t ⟨.fp32, 0⟩ }) ∧
    (∀ ls y, sb → u.shape.fmt = f → ((matTag f).isSb = true → b ≠ 0) →
      (let n := if (matTag f).isSb then 128 else (matTag f).bits / 8
       req % n = 0 ∧ (x.reg d).toNat % n = 0 ∧ ((matTag f).isSb = true → (x.reg b).toNat % 16 = 0)) →
      (readLines { s.who with path := .m } (matTag f) u.shape.k u.shape.n (x.reg a) (x.reg d) (x.reg b)).run s = (.ok ls, y) →
      let v := (y.core (s.cur / 4)).mu
      ∃ z, exec (.mldb d a b h f) s = .next (z.setMe z.me.advance) ∧
        z = y.setCore (s.cur / 4) { y.core (s.cur / 4) with mu := v.setBuf h (fillBuffer (matTag f) u.shape.k ls) }) ∧
    (∀ rows y, sb → ((matTag f).isSb = true → b ≠ 0) →
      (let n := if (matTag f).isSb then 128 else (matTag f).bits / 8
       req % n = 0 ∧ (x.reg d).toNat % n = 0 ∧ ((matTag f).isSb = true → (x.reg b).toNat % 16 = 0)) →
      bufferAccepts (matTag f) (u.buf h).tag = true → (get8 u.tiles t).tag = .fp32 → u.shape.k = (u.buf h).k → u.shape.n = (u.buf h).n →
      (readLines { s.who with path := .m } (matTag f) u.shape.k u.shape.m (x.reg a) (x.reg d) (x.reg b)).run s = (.ok rows, y) →
      y.core (s.cur / 4) = core → y.me = x →
      let T : Tag := (u.buf h).tag
      let len := if matTag f = .sb4 ∧ T = .sb4 then 64 else 32
      let cell (i j : Nat) : FpResult := accumulate ((matTag f).isSb || T.isSb) ((get8 u.tiles t).at i j)
        (lineSegs (matTag f) len u.shape.k ((rows[i]?).getD ⟨0, []⟩)) (lineSegs T len u.shape.k (bufferLine (u.buf h) j))
      rows.length ≤ 64 → u.shape.n ≤ 64 → ∃ z, exec (.mma d a b t h f) s = .next z ∧ (z.core (s.cur / 4)).frames = core.frames ∧
        (get8 (z.core (s.cur / 4)).mu.tiles t).tag = .fp32 ∧ (∀ o, o ≠ t → get8 (z.core (s.cur / 4)).mu.tiles o = get8 u.tiles o) ∧
        (∀ i j, i < 64 → j < 64 → (get8 (z.core (s.cur / 4)).mu.tiles t).at i j =
          if i < rows.length ∧ j < u.shape.n then (cell i j).1 % 2 ^ 32 else (get8 u.tiles t).at i j) ∧
        ∃ fl, (∀ k, fl.getLsbD k = true ↔ ∃ i j, i < rows.length ∧ j < u.shape.n ∧ (cell i j).2.getLsbD k = true) ∧
          z.me = { x.advance with fflags := x.fflags ||| fl }) ∧
    (row ≤ 63 → sewBits x = 32 →
      ((get8 u.tiles t).tag = .fp32 → VecGives (.mmovTo d a t) s d 32 .fp32 0 fun i =>
        if x.vstart.toNat ≤ i ∧ i < x.vl.toNat ∧ i < 64 then (get8 u.tiles t).at row i else vel x d 32 i) ∧
      (regGet x.tag d = .fp32 → ∃ y g, exec (.mmovFrom d a t) s = .next y ∧
        y = (withUnit { u with tiles := set8 u.tiles t ⟨.fp32, g⟩ }).setMe { x.advance with vstart := 0 } ∧
        ∀ i j, i < 64 → j < 64 → (⟨.fp32, g⟩ : Tile).at i j =
          if i = row ∧ x.vstart.toNat ≤ j ∧ j < x.vl.toNat then vel x d 32 j
          else if (get8 u.tiles t).tag = .unset then 0 else (get8 u.tiles t).at i j)) ∧
    (∀ (pa : Nat → Nat), let n := u.shape.n
      let adr (e : Nat) := (req + e / n * (x.reg d).toNat + 4 * (e % n)) % 2 ^ 64
      (get8 u.tiles t).tag = .fp32 → req % 4 = 0 → (x.reg d).toNat % 4 = 0 →
      (∀ e, e < u.shape.m * n → Mapped s s.who .write (adr e) 4 (pa e)) →
      exec (.mst d a t) s = .next (s.setMe { x.advance with
        vstores := x.vstores ++ (List.range (u.shape.m * n)).map fun e => queued x (cells (pa e) 4 ((get8 u.tiles t).at (e / n) (e % n))) false })))) ∧
  ∀ (tA tB : Tag) (K : Nat) (row col : Line) (acc : Nat), acc < 2 ^ 32 →
    ((tA = tB ∧ tA ∈ ([.fp32, .bf16, .fp16] : List Tag)) ∨ (tA.isSb = true ∧ (tB.isSb = true ∨ tB = .bf16)) ∨ (tA = .bf16 ∧ tB.isSb = true)) →
    LineGood tA row K → LineGood tB col K →
    let len := if tA = .sb4 ∧ tB = .sb4 then 64 else 32
    Accumulated tA tB K row col acc (accumulate (tA.isSb || tB.isSb) acc (lineSegs tA len K row) (lineSegs tB len K col))
namespace Sys2Proof.Claims

/-! ## Vocabulary of streams, channels and services -/

/-- `n` bytes at a global address can be accessed and lie at the physical addresses `pa`: those of one line beside each other, where the
translation of the first of them in the line leads. -/
def MappedAll (s : State) (who : Who) (kind : Access) (va n : Nat) (pa : Nat → Nat) : Prop :=
  ∀ k, k < n → let first := k - min k ((va + k) % 64)
    Mapped s who kind (va + first) 1 (pa first) ∧ pa k = pa first + (k - first)

/-- The pair of registers at r after one record of `size` bytes: the pointer has moved on, one record fewer remains (R342, R344). -/
def moved (x : Ctx) (r : BitVec 5) (size : Nat) : Ctx :=
  (x.setReg r (x.reg r + BitVec.ofNat 64 size)).setReg (r + 1) (x.reg (r + 1) - 1)

/-- The round that an operation issued now belongs to has begun at the slot, or its table is published (R188, R204). -/
def TableReady (ch : Channel) (x : Slot) : Prop := x.issueBegun = true ∨ ch.published x.issueRound = true

/-- A slot's queue takes an operation if it holds fewer than four; otherwise the instruction waits (R188). -/
def Joins (i : Instr) (s : State) (n : BitVec 4) (j : Nat) (x : Slot) (k : SendKind) : Prop :=
  (4 ≤ x.queue.length → Waits i s) ∧
  (x.queue.length < 4 → exec i s = .next ((s.setChan n { s.chan n with
    slots := (s.chan n).slots.set j { x with queue := x.queue ++ [⟨k, s.me.pc, s.cur / 4, s.me.tid, []⟩] } }).setMe s.me.advance))

/-- No instruction of the context is under way that must complete or trap before a switch or an asynchronous cause (R164, R172, R258). -/
def between (x : Ctx) : Prop := x.busy = false ∧ x.adone = 0 ∧ x.fences = []

/-- The state with one free value taken. -/
def spent (s : State) : State := { s with free := s.free + 1 }

end Sys2Proof.Claims

/-- R341, R342, R344: SISECT and SMERGE, one record a step. Before the loop (`looping` is the model's mark that it has begun), without ENABLE.STREAM
they raise 0x004; a count register that breaks its form, or in SMERGE different PLENs, raises 0x002. With a count exhausted the instruction goes on to
the next one. Otherwise SISECT reads both keys, counts in d if they are equal, and moves past the record with the smaller key, past both if equal; SMERGE
copies the record with the smaller key, that of a among equals, to d and moves both pairs on. A pointer that is no multiple of 8 raises 0x010 at the step
that uses it. Shown where no past moment is left to the context's scalar reads (assumption 9). -/
def Obligations.StreamInstructions : Prop := ∀ (d a b : BitVec 5) (s : State),
  let x := s.me
  let cnt (r : BitVec 5) := (x.reg (r + 1)).toNat % 2 ^ 32
  let plen (r : BitVec 5) := (x.reg (r + 1)).toNat / 2 ^ 32 % 16
  let form (r : BitVec 5) : Prop := (x.reg (r + 1)).toNat / 2 ^ 36 = 0 ∧ plen r ≤ 8
  let size (r : BitVec 5) := 8 + 32 * plen r
  let va (r : BitVec 5) := (x.reg r).toNat
  let on : Prop := s.myPkg.enable.getLsbD 7 = true
  let fresh : Prop := x.looping = false
  let ends (i : Instr) : Prop := exec i s = .next (s.setMe { x.advance with looping := false })
  let goes (y : Ctx) : Ctx := { y with stall := [], busy := false, looping := true }
  let same : Prop := form d ∧ form a ∧ form b ∧ plen d = plen a ∧ plen a = plen b
  (fresh → ¬on → Traps (.sisect d a b) s 0x004 ((encode (.sisect d a b)).setWidth 64) ∧
    Traps (.smerge d a b) s 0x004 ((encode (.smerge d a b)).setWidth 64)) ∧
  (fresh → on →
    (¬(form a ∧ form b) → Traps (.sisect d a b) s 0x002 ((encode (.sisect d a b)).setWidth 64)) ∧
    (¬same → Traps (.smerge d a b) s 0x002 ((encode (.smerge d a b)).setWidth 64))) ∧
  ((fresh → on ∧ form a ∧ form b) →
    (cnt a = 0 ∨ cnt b = 0 → ends (.sisect d a b)) ∧
    (cnt a ≠ 0 → cnt b ≠ 0 → (va a % 8 ≠ 0 → Traps (.sisect d a b) s 0x010 (x.reg a)) ∧
      (va a % 8 = 0 → va b % 8 ≠ 0 → Traps (.sisect d a b) s 0x010 (x.reg b)) ∧
      (Present s s.cur .scalar → ∀ pa pb,
        va a % 8 = 0 → va b % 8 = 0 → Mapped s s.who .read (va a) 8 pa → Mapped s s.who .read (va b) 8 pb →
        (Instr.sisect d a b).wellFormed = true →
        let p := physNat s pa 8
        let q := physNat s pb 8
        let y := if p = q then x.setReg d (x.reg d + 1) else x
        let y := if p ≤ q then moved y a (size a) else y
        exec (.sisect d a b) s = .next (s.setMe (goes (if q ≤ p then moved y b (size b) else y)))))) ∧
  ((fresh → on ∧ same) →
    (cnt d = 0 ∨ (cnt a = 0 ∧ cnt b = 0) → ends (.smerge d a b)) ∧
    (cnt d ≠ 0 → cnt a ≠ 0 → va a % 8 ≠ 0 → Traps (.smerge d a b) s 0x010 (x.reg a)) ∧
    (∀ (src : BitVec 5) (pr pw : Nat → Nat), cnt d ≠ 0 → Present s s.cur .scalar → va d % 8 = 0 →
      (cnt a ≠ 0 → va a % 8 = 0) → (cnt b ≠ 0 → va b % 8 = 0) → (Instr.smerge d a b).wellFormed = true →
      ((src = a ∧ cnt a ≠ 0 ∧ cnt b = 0) ∨ (src = b ∧ cnt a = 0 ∧ cnt b ≠ 0) ∨
        (cnt a ≠ 0 ∧ cnt b ≠ 0 ∧ ∃ pa pb, Mapped s s.who .read (va a) 8 pa ∧ Mapped s s.who .read (va b) 8 pb ∧
          src = if physNat s pa 8 ≤ physNat s pb 8 then a else b)) →
      MappedAll s s.who .read (va src) (size src) pr → MappedAll s s.who .write (va d) (size src) pw →
      exec (.smerge d a b) s = .next ((s.writeLocs ((List.range (size src)).map fun k =>
        (.phys (pw k), s.locByte (.phys (pr k))))).setMe (goes (moved (moved x src (size src)) d (size d))))))

/-- R183 to R190, R208, R399 to R403: the exchange instructions. XBIND of 0 gives up the slot, if one is held; with a descriptor that passes
its checks it takes the context's slot, setting the channel up when it is the first. A channel in use by another group, or a slot already
held, raises 0x288; a context whose number (R12) the group does not list 0x287. XSEND, XSEND.m and XEND put an operation into the slot's queue of four,
after the round's table is published; until then, and while the queue is full, they wait. XSENDV hands one element over, from VSTART on, once the queue
is empty; with no element left it is complete. XSPLIT.rd copies the current or pending table to memory; XSPLIT.in takes a table of the pending version
back and publishes it, and a fault at the group status block leaves the table unwritten too (R56). Without a slot all raise 0x285. The model's choices
here: a slot bound again keeps its round, which its status entry then says (assumption 45), and the paths O and X that XSPLIT waits for take in the
status entries that a port can write (assumption 31). -/
def Obligations.ExchangeInstructions : Prop := ∀ (d a b : BitVec 5) (n : BitVec 4) (s : State),
  let x := s.me
  let ch := s.chan n
  let num : Word := n.setWidth 64
  let at_ := x.reg a
  let on : Prop := s.myPkg.enable.getLsbD 4 = true
  let sends : List Instr := [.xsend a b n, .xsendM a b n, .xsendv a b n, .xend n, .xsplitRd d a n, .xsplitIn d a n]
  (¬on → ∀ i ∈ Instr.xbind a n :: sends, Traps i s 0x004 ((encode i).setWidth 64)) ∧
  (on → get16 x.chans n = none → ∀ i ∈ sends, Traps i s 0x285 num) ∧
  (on →
    (at_ = 0 →
      (get16 x.chans n = none → exec (.xbind a n) s = .next (s.setMe x.advance)) ∧
      (∀ j ad y, get16 x.chans n = some (j, ad) → ch.slots[j]? = some y → ∃ t, exec (.xbind a n) s = .next t ∧ OnlyMe { s with chans := t.chans } t ∧
        t.me = { x.advance with chans := set16 x.chans n none } ∧ (∀ m, m ≠ n → t.chan m = s.chan m) ∧
        ((∃ (m : Nat) (h : m < ch.slots.length), m ≠ j ∧ ch.slots[m].holder.isSome = true) →
          t.chan n = { ch with slots := ch.slots.set j { y with holder := none } }))) ∧
    (at_ ≠ 0 → at_.toNat % 256 = 0 → ∀ (read : Group) (j : Nat), (readGroup n at_ (ch.state == .free)).run s = (.ok read, s) →
      (read.det = true → s.myPkg.enable.getLsbD 5 = true) →
      let mine : Prop := ch.state = .bound ∧ ∃ h, ch.group = some h ∧ h.address = at_
      ∀ g, (mine → ch.group = some g) → (¬mine → g = read) →
      let num' := s.ctxNumber s.cur
      (num' ∉ g.senders → Traps (.xbind a n) s 0x287 at_) ∧
      (g.senders[j]? = some num' → (∀ m, m < j → g.senders[m]? ≠ some num') →
        (get16 x.chans n ≠ none → mine → exec (.xbind a n) s = .next (s.setMe x.advance)) ∧
        (get16 x.chans n ≠ none → ¬mine → Traps (.xbind a n) s 0x288 num) ∧
        (get16 x.chans n = none → ch.state ≠ .free → ¬mine → Traps (.xbind a n) s 0x288 num) ∧
        (∀ y, get16 x.chans n = none → mine → ch.slots[j]? = some y →
          (y.holder ≠ none → Traps (.xbind a n) s 0x288 num) ∧
          (∀ pa, y.holder = none → Mapped s s.xWho .write (g.status.toNat + 16 * j) 16 pa →
            exec (.xbind a n) s = .next (((s.writeLocs (cells pa 16 (y.round.toNat * 2 ^ 32))).setChan n
              { ch with slots := ch.slots.set j { y with holder := some x.tid, cancelled := 0, fcause := 0 } }).setMe
              { x.advance with chans := set16 x.chans n (some (j, at_)) }))) ∧
        (∀ u, get16 x.chans n = none → ch.state = .free → j < g.senders.length →
          (writeTogether s.xWho ((g.status.toNat + 16 * j, leBytes 16 (g.round0.toNat * 2 ^ 32)) ::
            (g.gstat.toNat, groupBytes (Channel.open' g (senderCores s g) (s.routes g))) ::
            g.recv.map fun r => (r.stat.toNat, leBytes 128 (g.round0.toNat * 2 ^ 32)))).run s = (.ok (), u) →
          ∃ (t : State) (c : Channel), exec (.xbind a n) s = .next t ∧
            t = { (u.setChan n c).setMe { u.me.advance with chans := set16 u.me.chans n (some (j, at_)) } with free := t.free } ∧
            c.state = .bound ∧ c.group = some g ∧ c.slots.length = g.senders.length ∧
            (∀ (m : Nat) (y : Slot), c.slots[m]? = some y → y.round = g.round0 ∧ y.sent = 0 ∧ y.queue = [] ∧
              y.holder = (if m = j then some u.me.tid else none)) ∧ c.dver = g.dver0 ∧ c.dround = g.round0 ∧ c.opened = 0 ∧
            ∀ e ∈ c.dests, e.round = g.round0 ∧ e.written = 0 ∧ e.started = false))) ∧
    (∀ j ad y, get16 x.chans n = some (j, ad) → ch.slots[j]? = some y →
      let cnt := x.reg b
      Joins (.xend n) s n j y .xend ∧
      (at_.toNat < 2 ^ 55 →
        (at_.toNat % 8 ≠ 0 → Traps (.xsend a b n) s 0x010 at_) ∧ (at_.toNat % 16 ≠ 0 → Traps (.xsendM a b n) s 0x010 at_) ∧
        (at_.toNat % 8 = 0 → 2 ^ 32 ≤ cnt.toNat → Traps (.xsend a b n) s 0x289 ((encode (.xsend a b n)).setWidth 64)) ∧
        (at_.toNat % 16 = 0 → cnt = 0 ∨ 16 < cnt.toNat → Traps (.xsendM a b n) s 0x289 ((encode (.xsendM a b n)).setWidth 64)) ∧
        (at_.toNat % 8 = 0 → cnt.toNat < 2 ^ 32 → (cnt = 0 ∨ TableReady ch y → Joins (.xsend a b n) s n j y (.xsend at_ cnt 0)) ∧
          (cnt ≠ 0 → ¬TableReady ch y → Waits (.xsend a b n) s)) ∧
        (at_.toNat % 16 = 0 → 1 ≤ cnt.toNat → cnt.toNat ≤ 16 →
          (TableReady ch y → Joins (.xsendM a b n) s n j y (.xsendM at_ cnt (List.replicate cnt.toNat 0) true)) ∧
          (¬TableReady ch y → Waits (.xsendM a b n) s))) ∧
      (∀ g, ch.group = some g →
        let e := x.vstart.toNat
        let key (k : Nat) : Word := BitVec.ofNat 64 (vel x a 64 k)
        let w : Word := (encode (.xsendv a b n)).setWidth 64
        let fits : Prop := sewBits x = 64 ∧ b.toNat + 4 * g.plen ≤ 32
        let tags : Prop := regGet x.tag a = .i64 ∧ ∀ r : BitVec 5, b.toNat ≤ r.toNat → r.toNat < b.toNat + 4 * g.plen →
          regGet x.tag r ≠ .unset ∧ (regGet x.tag r).isSb = false
        let keys : Prop := (∀ k, e ≤ k → k < x.vl.toNat → key k ≠ -1 ∧ y.sent + (k - e) < 2 ^ 32 - 1) ∧
          (∀ k, e < k → k < x.vl.toNat → (key (k - 1)).toNat ≤ (key k).toNat) ∧
          ∀ l, y.lastKey = some l → e < x.vl.toNat → l.toNat ≤ (key e).toNat
        (¬fits → Traps (.xsendv a b n) s 0x289 w) ∧
        (fits → tags → x.vl.toNat ≤ e → exec (.xsendv a b n) s = .next (s.setMe { x.advance with vstart := 0 })) ∧
        (fits → tags → e < x.vl.toNat → y.queue ≠ [] → Waits (.xsendv a b n) s) ∧
        (fits → tags → (ch.state = .bound → keys) → y.queue = [] → e < x.vl.toNat →
          (¬TableReady ch y → Waits (.xsendv a b n) s) ∧
          (TableReady ch y → ∀ (z : Slot) (T : List Word) (p : BitVec 2048),
            let c := ch.placed g j (s.cur / 4)
            c.slots[j]? = some z → (slotTable s.xWho c g z).run s = (.ok T, s) → p.toNat < 2 ^ (256 * g.plen) →
            (∀ r, r < 4 * g.plen → p.toNat / 2 ^ (64 * r) % 2 ^ 64 = vel x (b + BitVec.ofNat 5 r) 64 e) →
            (c.handOver g j z T (key e) p = none → Waits (.xsendv a b n) s) ∧
            ∀ c', c.handOver g j z T (key e) p = some c' → exec (.xsendv a b n) s = .next ((s.setChan n c').setMe
              (if e + 1 < x.vl.toNat then { x with vstart := BitVec.ofNat 11 (e + 1), stall := [], busy := false } else { x.advance with vstart := 0 })))) ∧
        (let t := (s.settleStores s.cur).drain s.cur
         let old (v : BitVec 32) := g.deckle.toNat + v.toNat % 2 * 0x20000
         let val (v : BitVec 32) (p : Bool) : Word := BitVec.ofNat 64 (v.toNat + if p then 2 ^ 32 else 0)
         at_.toNat % 8 = 0 → at_.toNat < 2 ^ 55 →
         (Outstanding t t.cur 0b01001#5 → Waits (.xsplitRd d a n) s ∧ Waits (.xsplitIn d a n) s) ∧
         (¬Outstanding t t.cur 0b01001#5 →
         (∀ v u, (readVa s.xWho (old (if ch.tstate then ch.pver else ch.dver)) (8 * g.d)).run t = (.ok v, t) →
           (writeBytes s.xWho at_.toNat (leBytes (8 * g.d) v)).run t = (.ok (), u) →
           ∃ z, exec (.xsplitRd d a n) s = .next z ∧
             Wrote { u with pins := z.pins } z d (val (if ch.tstate then ch.pver else ch.dver) ch.tstate)) ∧
         (ch.tstate = false → exec (.xsplitIn d a n) s = .next (t.trapNow 0x282 num noInfo)) ∧
         (∀ (v : Nat) (sp : List Nat), ch.tstate = true → (readVa s.xWho at_.toNat 8).run t = (.ok v, t) →
           (v ≠ ch.pver.toNat → exec (.xsplitIn d a n) s = .next (t.trapNow 0x282 (num + 16) noInfo)) ∧
           (v = ch.pver.toNat → (readVa s.xWho (at_.toNat + 8) (8 * (g.d - 1))).run t = (.ok (leNat (sp.flatMap (leBytes 8))), t) →
             sp.length = g.d - 1 → (∀ k ∈ sp, k < 2 ^ 64) →
             (¬sp.Pairwise (· ≤ ·) → exec (.xsplitIn d a n) s = .next (t.trapNow 0x282 (num + 32) noInfo)) ∧
             ∀ (ls : List Loc), sp.Pairwise (· ≤ ·) → (locateBytes s.xWho .write (old ch.pver + 8) (8 * (g.d - 1))).run t = (.ok ls, t) →
               let c := { ch with dver := ch.pver, dround := ch.dround + 1, tstate := false }
               (∀ cause info f u, (locateBytes s.xWho .write g.gstat.toNat 64).run t = (.error (.trap cause info f), u) →
                 exec (.xsplitIn d a n) s = .next (u.trapNow cause info f)) ∧
               ∀ hs z, (locateBytes s.xWho .write g.gstat.toNat 64).run t = (.ok hs, t) →
                 (writeBytes s.xWho g.gstat.toNat (groupBytes c)).run (t.writeLocs (ls.zip (sp.flatMap (leBytes 8)))) = (.ok (), z) →
                 ∃ v, exec (.xsplitIn d a n) s = .next v ∧ Wrote { z.setChan n c with pins := v.pins } v d (val ch.pver false))))))))

/-- R161, R187, R193 to R195, R199, R206, R209, R210, R214 to R217, R278: the exchange's own actions on a channel that carries a group. The send port ends a
slot's round when every leaf can take the mark, and hands over the next record of an XSEND to the leaf of its bucket; a key out of order or a record that
cannot be read cancels with a 0x201 that names the fault. A merge point passes the least safe head on, or the end mark once all its inputs have ended, as
far as the one sorted stream of its link allows; with DET its press folds a head into the partial of the same key. A receive port writes its head record
at the ring position after the last and then its status, retries likewise after a fault, reads CONSUMED while its ring is full, reports a fault in FADDR,
CAUSE and STATE and to OWNER, and completes a round by status entry and arrival. The sieve proposes the next table from the sorted sample keys once every
slot has ended its round; the watchdog aborts the channel at its limit. A port without power does nothing. The model's choices here: an input holds one
record (assumption 20), the press and the shared stream (21), the waits that a port counts (25), and that a fault's report gives CAUSE and STATE alone,
which the next status write or poll sets back to 0 (47). -/
def Obligations.ExchangeEvents : Prop := ∀ (c : BitVec 4) (i : Nat) (g : Group) (s : State),
  let ch := s.chan c
  let powered (core : Nat) : Prop := (s.pkg (core / 256)).off = false
  ch.state = .bound → ch.group = some g →
  (∀ x, ch.slots[i]? = some x → x.queue = [] ∨ (∃ op rest, x.queue = op :: rest ∧ ¬powered op.core) → exec (.sendPortHandover c i) s = .next s) ∧
  (∀ (x y : Slot) (op : SendOp) (rest : List SendOp) (pa : Nat), ch.slots[i]? = some x → x.queue = op :: rest → powered op.core →
    x.holder.isSome = true →
    let who := portWho op.core 442368 x.stall
    let c1 := ch.placed g i op.core
    c1.slots[i]? = some y → Mapped s who .write (g.status.toNat + 16 * i) 16 pa →
    (op.kind = .xend →
      (c1.handEnd g i y = none → exec (.sendPortHandover c i) s = .next s) ∧
      (c1.handEnd g i y ≠ none → ∃ t z, exec (.sendPortHandover c i) s = .next t ∧
        OnlyMemory { s with chans := t.chans } t ∧ t.ctxs = s.ctxs ∧
        (t.chan c).slots[i]? = some z ∧ z.round = x.round + 1 ∧ z.sent = 0 ∧ z.queue = y.queue.drop 1 ∧ z.holder = y.holder ∧
        PutAt s t pa (leBytes 8 (z.round.toNat * 2 ^ 32) ++ leBytes 8 (y.cancelled * 2 ^ 10 + y.fcause.toNat)))) ∧
    (∀ (adr cnt : Word) (done : Nat) (key : Word) (p : BitVec 2048), op.kind = .xsend adr cnt done → op.ahead = [] → done < cnt.toNat →
      let va := adr.toNat + done * (8 + 32 * g.plen)
      let bad : Prop := key = -1 ∨ 2 ^ 32 - 1 ≤ x.sent ∨ ∃ l, x.lastKey = some l ∧ key.toNat < l.toNat
      let cancels (cause : BitVec 10) (at_ entry : Word) : Prop := ∀ o, s.whereIs op.tid = some o → (s.ctx o).life = .running →
        ∃ t, exec (.sendPortHandover c i) s = .next t ∧
          (t.chan c).slots[i]? = some { x with queue := [], cancelled := x.queue.length, fcause := cause, stall := [] } ∧
          (∃ q ∈ (t.ctx o).pending, q.cause = 0x201 ∧ q.info = BitVec.ofNat 64 (cause.toNat + 5 * 2 ^ 13 + c.toNat * 2 ^ 16) ∧
            q.words = [op.issue, cause.setWidth 64, at_, entry]) ∧
          PutAt s t pa (leBytes 8 (x.sent % 2 ^ 32 + x.round.toNat * 2 ^ 32) ++ leBytes 8 (x.queue.length * 2 ^ 10 + cause.toNat))
      (∀ cause inf r, (readRecord who g.plen va).run s = (.error (.trap cause inf r), s) → cancels cause r.w3 r.w4) ∧
      ((readRecord who g.plen va).run s = (.ok (key, p), s) →
      (bad → cancels 0x283 (BitVec.ofNat 64 va) 0) ∧
      (∀ T, ¬bad → y.table = some T →
        (c1.handOver g i y T key p = none → exec (.sendPortHandover c i) s = .next s) ∧
        (c1.handOver g i y T key p ≠ none → ∃ t z, exec (.sendPortHandover c i) s = .next t ∧ t = { s with chans := t.chans } ∧
          (t.chan c).slots[i]? = some z ∧ z.sent = y.sent + 1 ∧ z.lastKey = some key ∧
          z.queue = { op with kind := .xsend adr cnt (done + 1) } :: y.queue.drop 1 ∧
          ∀ q ∈ (t.chan c).points, q.node = .leaf y.core → q.dest = T.countP (fun k => k.toNat ≤ key.toNat) →
            ∀ m ∈ q.inputs, m.source = .slot i →
              m.head = some ⟨key, BitVec.ofNat 19 ((g.senders[i]?).getD 0), BitVec.ofNat 32 y.sent, 1, p⟩))))) ∧
  (∀ (p : MergePoint) (o : MergeInput), ch.points[i]? = some p → ch.fed p = some o → p.next ≠ p.node → g.det = true →
    let shares (q : MergePoint) : Prop := q ∈ ch.points ∧ q.dest ≠ p.dest ∧ (∃ a b, p.node = .package a ∧ p.next = .package b) ∧
      q.node = p.node ∧ q.next = p.next ∧ (q.held ≠ [] ∨ ∃ m ∈ q.inputs, m.gone = false ∨ m.head ≠ none ∨ m.ended ≠ none)
    let carried (h : Record) : Prop := ∀ q, shares q → p.round ≤ q.round ∧ (q.round = p.round → (orderOf true h).le (q.mark true) = true)
    (∀ (j : Nat) (m : MergeInput) (h : Record), p.inputs[j]? = some m → m.head = some h →
      (∀ l q f, l ≠ j → p.inputs[l]? = some q → q.head = some f → (orderOf true f).le (orderOf true h) = false) →
      (∀ q ∈ p.inputs, q.head = none → (orderOf true h).le q.level = true) →
      (g.press = 0 → p.held = [] → ¬(o.accepts = true ∧ carried h) → ∃ t q, exec (.mergePointForward c i) s = .next t ∧
        (t.chan c).points[i]? = some q ∧ q.inputs = p.inputs) ∧
      (g.press = 0 → p.held = [] → o.accepts = true → carried h → ∃ t q l, exec (.mergePointForward c i) s = .next t ∧
        t = { spent s with chans := t.chans } ∧ (t.chan c).points[i]? = some q ∧ q.inputs = p.inputs.set j { m with head := none } ∧
        (t.chan c).fed p = some l ∧ l.head = some h) ∧
      (g.press ≠ 0 → p.held = [] → ∃ t q, exec (.mergePointForward c i) s = .next t ∧ (t.chan c).points[i]? = some q ∧ q.held = [h] ∧
        q.inputs = p.inputs.set j { m with head := none }) ∧
      (∀ r, g.press ≠ 0 → p.held = [r] → h.key = r.key → mayCombine g.press g.plen r h = true →
        ∃ t q, exec (.mergePointForward c i) s = .next t ∧ (t.chan c).points[i]? = some q ∧
          q.held = [pressRecords g.press g.plen r h] ∧ q.inputs = p.inputs.set j { m with head := none })) ∧
    (p.held = [] → (∃ q ∈ p.inputs, q.gone = false) → (∀ q ∈ p.inputs, q.head = none ∧ q.isEnded = true) → o.acceptsEnd = true →
      (∀ q, shares q → p.round < q.round ∨ (q.round = p.round ∧ q.held = [] ∧ ∀ m ∈ q.inputs, m.head = none ∧ m.isEnded = true)) →
      ∃ t q l, exec (.mergePointForward c i) s = .next t ∧ (t.chan c).points[i]? = some q ∧ q.round = p.round + 1 ∧
        (∀ m ∈ q.inputs, m.ended = none) ∧ (t.chan c).fed p = some l ∧ l.ended = some ((p.inputs.map fun m => m.ended.getD 0).sum))) ∧
  (∀ (r : RecvDesc) (d : Dest), g.recv[i]? = some r → ch.dests[i]? = some d →
    let core := (g.dests[i]?).getD 0
    let who := portWho core 442368 d.stall
    let put (z : State) (e : Dest) : State := z.setChan c ((z.chan c).setDest i e)
    let moved (z : State) (e : Dest) : State := z.setChan c { (z.chan c).setDest i e with watch := 0 }
    let calm : Dest := { d with stalled := false, retry := if d.stalled then false else d.retry, stall := [] }
    let stat := r.stat.toNat
    let entryAt := stat + 64 + 32 * (d.round.toNat % 2)
    let found (n at_ : Nat) (z y : State) (ls : List Loc) : Prop := (locateBytes who .write at_ n).run z = (.ok ls, y)
    let entry (nrec start state : Nat) : List Byte := leBytes 8 (start + d.round.toNat * 2 ^ 32) ++ leBytes 8 (nrec * 2 ^ 32 + d.ovfpos) ++
      leBytes 8 (d.ovfn * 2 ^ 32) ++ leBytes 8 state
    let bytes (rec' : Record) : List Byte := leBytes 8 rec'.key.toNat ++
      (if r.tags then leBytes 8 (rec'.count.toNat + rec'.seq.toNat * 2 ^ 13 + rec'.origin.toNat * 2 ^ 45) else []) ++
      leBytes (32 * g.plen) rec'.payload.toNat
    let ports : List Instr := [.recordDelivery c i, .deliveryRetry c i, .consumedPoll c i, .roundCompletion c i]
    (¬powered core → ∀ e ∈ ports, exec e s = .next s) ∧
    (powered core → d.late = [] →
    (∀ cause at_ u w, d.report = some (cause, at_) → d.stage = .receiving →
      (do let w ← locateBytes who .write (stat + 16) 8; let v ← locateBytes who .write (entryAt + 24) 8; pure (w ++ v) : M (List Loc)).run s = (.ok w, u) →
      ∀ e ∈ ports, ∃ t, exec e s = .next t ∧
        (∀ l, t.locByte l = (u.writeLocs (w.zip (leBytes 8 at_.toNat ++ leBytes 8 (cause.toNat * 16 + 2)))).locByte l) ∧
        (t.chan c).dests[i]? = some { d with report := none, told := true, stall := [] } ∧
        ∃ q ∈ (t.ctx r.owner).pending, q.cause = 0x28A ∧ q.info = r.stat) ∧
    (d.report = none →
    (d.stalled = true → exec (.recordDelivery c i) s = .next s ∧ (d.retry = false → exec (.deliveryRetry c i) s = .next s)) ∧
    (∀ (e : Instr) (rec' : Record) (u : State) (w : List Loc),
      (e = .recordDelivery c i ∧ d.stalled = false) ∨ (e = .deliveryRetry c i ∧ d.stalled = true ∧ d.retry = true) →
      d.stage = .receiving → d.started = true → d.input.head = some rec' → d.ovfn = 0 → (d.written - d.consumed).toNat < r.cap →
      (do let w ← locateBytes who .write (r.buf.toNat + d.written.toNat % r.cap * (bytes rec').length) (bytes rec').length
          let v ← locateBytes who .write stat 8
          let z ← locateBytes who .write entryAt 32
          pure (w ++ v ++ z) : M (List Loc)).run s = (.ok w, u) →
      exec e s = .next (moved (u.writeLocs (w.zip (bytes rec' ++ leBytes 8 ((d.written + 1).toNat + d.round.toNat * 2 ^ 32) ++
          entry (d.nrec + 1) d.rstart.toNat 0)))
        { calm with written := d.written + 1, nrec := d.nrec + 1, keys := d.keys ++ [rec'.key], input := { d.input with head := none }, told := false })) ∧
    (d.stalled = false →
      ((d.written - d.consumed).toNat < r.cap ∨ d.stage ≠ .receiving → exec (.consumedPoll c i) s = .next s) ∧
      (∀ pa, r.cap ≤ (d.written - d.consumed).toNat → d.stage = .receiving → Mapped s who .read (stat + 8) 8 pa →
        let e : Dest := { d with consumed := BitVec.ofNat 32 (physNat s pa 8), stall := [] }
        (d.told = false → exec (.consumedPoll c i) s = .next (put s e)) ∧
        ∀ u w, d.told = true → found 8 (entryAt + 24) s u w →
          exec (.consumedPoll c i) s = .next (put (u.writeLocs (w.zip (leBytes 8 0))) { e with told := false })) ∧
      (∀ k cause t u w, d.started = true → d.input.head = none → d.input.ended = some k → d.stage = .receiving → r.index = false →
        found 32 entryAt s t w →
        (arriveSync who r).run (t.writeLocs (w.zip (entry d.nrec d.rstart.toNat 1))) = (.ok cause, u) →
        let ends (z : State) : State := z.setChan c ({ (z.chan c).setDest i { calm with
          input := { d.input with ended := none, floor := .value 0 0 0 }, round := d.round + 1, started := false, nrec := 0, ovfpos := 0
          ovfn := 0, keys := [], stage := .receiving, told := false, finished := d.finished + 1 } with watch := 0 } : Channel).settle
        (cause = 0 → exec (.roundCompletion c i) s = .next (ends u)) ∧
        ∀ z v, cause ≠ 0 → found 8 (entryAt + 24) u z v →
          exec (.roundCompletion c i) s = .next (ends (z.writeLocs (v.zip (leBytes 8 (cause.toNat * 16 + 1)))))))))) ∧
  (let closed := (ch.sieve.ends.filter fun r => r == ch.sieve.round).length
   (closed ≠ g.ns ∨ ¬powered g.home → exec (.sieveClose c) s = .next s) ∧
   (∀ (keys : List Word) u z, powered g.home → closed = g.ns → (∀ e ∈ ch.sieve.samples, e.2 % 2 ^ g.k = 0) → ch.sieve.samples.length ≤ 65536 →
    keys.Perm (ch.sieve.samples.map (·.1)) → keys.Pairwise (fun p q => p.toNat ≤ q.toNat) → g.d ≤ keys.length + 1 →
    let who := portWho g.home 442368 ch.stall
    let v := g.dver0 + (ch.sieve.round - g.round0) + 1
    let next : Channel := { ch with
      nsamp := keys.length, stall := [], sieve := ⟨[], g.k, ch.sieve.ends.filter (fun r => r != ch.sieve.round), ch.sieve.round + 1⟩ }
    let next := if g.auto then { next with dver := v, dround := ch.sieve.round + 1 } else { next with pver := v, tstate := true }
    (writeBytes who (g.deckle.toNat + v.toNat % 2 * 0x20000) (leBytes 8 v.toNat ++
      (List.range (g.d - 1)).flatMap fun j => leBytes 8 ((keys[(j + 1) * keys.length / g.d]?).getD 0).toNat)).run s = (.ok (), u) →
    (writeBytes who g.gstat.toNat (groupBytes next)).run u = (.ok (), z) →
    exec (.sieveClose c) s = .next (z.setChan c next))) ∧
  (let limit := (s.pkg (g.home / 256)).exchLimit.toNat
   let isOpen : Prop := ∃ d ∈ ch.dests, d.finished < ch.opened
   (¬isOpen ∨ limit = 0 ∨ ch.watch < limit → exec (.channelWatchdog c) s = .next s) ∧
   (isOpen → limit ≠ 0 → limit ≤ ch.watch → (∃ x ∈ ch.slots, x.holder.isSome = true) → ∃ t, exec (.channelWatchdog c) s = .next t ∧
     (t.chan c).state = .aborted ∧ (t.chan c).points = [] ∧ ((t.chan c).acause = 0x284 ∨ (t.chan c).acause = 0x28C) ∧
     ∀ m, m ≠ c → t.chan m = s.chan m))

/-- R33 to R46, R138, R158, R233, R244, R252, R255, R258 to R263: what the scheduler does between instructions. ENTRY_SELECTION starts, in an idle
context, the dispatchable entry of the highest level and among those the oldest: a record starts at its word 0 with s1, s2, s3 set, everything else
zero, and the widest holding its ceiling and the free groups allow; a resume entry gives back what its save area holds. PREEMPTION lowers the ceiling
of the lowest task that allows it, or orders the lowest task switched; FULL_SWITCH writes the save area and enqueues the resume entry; RECLAIM_FALLBACK
orders the switch once LRECLAIM_LIMIT has passed; TASK_BUDGET_EXCEEDED raises 0x341 and, with RERUN, enqueues the record again; TRAP_ENTRY takes the
oldest pending cause, unless the budget ran out before it. LOOK_AHEAD has no effect. WALK_STALLED and SPT_ENTRY_BUSY_TIMEOUT give a context whose wait on an entry has reached WALK_LIMIT the
next turn, in which its access raises 0x103 or 0x1C3 (PageTableWalk, StashAccess); the events at the limits of BARWAIT and VWAIT run the waiting
instruction once more. The model's choices here: a start drops bits [1:0] and [63:55] of word 0 (assumption 27), a resume entry names its save area by its
package-local address (29), a resume entry needs no free save area (30), what becomes of commands and holdings at a switch (34), what the need of a
pre-emption reserves (49), and that LOOK_AHEAD has no effect (53). -/
def Obligations.SchedulerEvents : Prop :=
  (∀ (c : Nat) (s : State), exec (.lookAhead c) s = .next s) ∧
  (∀ (c : Nat) (s : State) (es : List QEntry),
    let d := c / 256
    let q := s.die d
    let ok (e : QEntry) : Prop := e ∈ es ∧ dispatchable s c d q.stall e = true
    let rank (e : QEntry) := (e.w 4).toNat
    (s.ctx c).life = .idle → (s.core (c / 4)).out = false → q.stopped = false → q.corrupted = false →
    (s.pkg (c / 1024)).dispatchOff = false → (s.pkg (c / 1024)).off = false → (s.pkg (c / 1024)).trust.verified = true →
    readRings s d q.queued = .ok es →
    ((∀ e, ¬ok e) → ∃ t, exec (.entrySelection c) s = .next t ∧ t = { s with dies := t.dies } ∧
      ∀ k, t.die k = { s.die k with stall := (t.die k).stall }) ∧
    (∀ e, ok e → (∀ f, ok f → f = e ∨ f.level < e.level ∨ (f.level = e.level ∧ rank e < rank f)) →
      q.ageN = 0 ∨ q.pops < q.ageN.toNat →
      let u := (s.dieWaits c []).popEntry d e false false
      (∀ (pa : Nat → Nat) (i : Nat), e.resume = false → e.w 2 = 0 →
        let rec' := (e.w 0).toNat % 2 ^ 55
        let w (j : Nat) : Word := BitVec.ofNat 64 (physNat u (pa j) 8)
        (∀ j ∈ [0, 1, 3, 4, 7], Mapped u (fv4Who c q.stall) .read (rec' + 8 * j) 8 (pa j)) →
        i < q.savecount.toNat → i ∉ q.areas → (∀ j, j < i → j ∈ q.areas) →
        ∃ t, exec (.entrySelection c) s = .next t ∧
          (let y := t.ctx c
           let ceil := min (2 ^ ((e.w 1).toNat / 2 ^ 41 % 4)) (s.pkg (c / 1024)).ceil
           y.life = .running ∧ y.mode = .task ∧ y.pc = BitVec.ofNat 64 ((w 0).toNat % 2 ^ 55 / 4 * 4) ∧
           y.reg 1 = w 1 ∧ y.reg 2 = BitVec.ofNat 64 rec' ∧ y.reg 3 = w 3 ∧ (∀ r, r ≠ 1 → r ≠ 2 → r ≠ 3 → y.reg r = 0) ∧
           (∀ r, regGet y.v r = 0 ∧ regGet y.tag r = .unset) ∧ (∀ r, get8 y.m r = 0) ∧ y.vl = 0 ∧ y.vcfg = 0 ∧ y.vstart = 0 ∧ y.fflags = 0 ∧
           y.budget = w 4 ∧ y.parent = w 3 ∧ y.sptroot = w 7 ∧ y.record = BitVec.ofNat 64 rec' ∧ y.ctrl = e.w 1 ∧ y.ceil = ceil ∧
           y.held = power8 (min ceil (groupsFor u (c / 4) d (e.w 4))) ∧ y.area = some ⟨d, i⟩) ∧
          (t.die d).queued = q.queued.erase (e.level, e.slot) ∧ (t.die d).areas = q.areas ++ [i] ∧
          ∀ x, x ≠ c → t.ctx x = { s.ctx x with cut := (t.ctx x).cut }) ∧
      (∀ p, e.resume = true → u.parked.find? (fun p => p.area == areaOfEntry u d e) = some p → savedUnit u p.area = false →
        let base := areaBase u p.area
        badArea u p.area = none →
        ∃ t, exec (.entrySelection c) s = .next t ∧
          (let y := t.ctx c
           y.life = .running ∧ y.mode = .task ∧ y.pc = BitVec.ofNat 64 (physNat u (base + 8) 8 % 2 ^ 55 / 4 * 4) ∧
           (∀ r, r ≠ 0 → y.reg r = BitVec.ofNat 64 (physNat u (base + 0x300 + 8 * r.toNat) 8)) ∧
           y.held = physNat u base 8 % 16 ∧ y.vl = BitVec.ofNat 11 (physNat u (base + 32) 8) ∧
           (∀ r k, k < 16 * y.held → vel y r 64 k = physNat u (base + 0x2000 + 1024 * r.toNat + 8 * k) 8 ∨ 128 ≤ k) ∧ y.tid = p.tid)))) ∧
  (∀ (d seq : Nat) (s : State) (es : List QEntry) (e : QEntry) (v : Nat),
    let first (P : Nat → Prop) : Prop := P v ∧ ∀ w, P w → w = v ∨ prioOf (s.ctx v).ctrl < prioOf (s.ctx w).ctrl ∨
      (prioOf (s.ctx v).ctrl = prioOf (s.ctx w).ctrl ∧ v < w)
    let on k := k / 64 = d ∧ mayRun s d (e.w 1) k = true
    let idle k := ∃ c, c / 4 = k ∧ (s.ctx c).life = .idle
    let starts k := on k ∧ idle k ∧ groupsNeeded s d e ≤ groupsFor s k d (e.w 4)
    let low w := on (w / 4) ∧ (s.core (w / 4)).preempt = none ∧ ((s.ctx w).life = .running ∨ (s.ctx w).life = .acquiring) ∧
      prioOf (s.ctx w).ctrl < e.level ∧ (s.ctx w).switch = false
    let need w := max 1 (wanted s d e - (freeGroups s (w / 4) - reservedGroups s (w / 4)))
    let gives w := low w ∧ (s.ctx w).ctrl.getLsbD 40 = true ∧ idle (w / 4) ∧ need w + 1 ≤ (s.ctx w).ceil
    let x := s.ctx v
    let core := s.core (v / 4)
    let now : Bool := (s.die (v / 256)).reclaimLimit == 0
    let ceil := power8 (x.ceil - need v)
    d < 1728 → readRings s d (s.die d).queued = .ok es → es.find? (fun e => (e.w 4).toNat == seq) = some e →
    ((s.die d).stopped = true ∨ ready s (256 * d) d (s.die d).stall e = false ∨ (∃ k, starts k) ∨ (∀ w, ¬low w) → exec (.preemption d seq) s = .next s) ∧
    ((s.die d).stopped = false → ready s (256 * d) d (s.die d).stall e = true → (∀ k, ¬starts k) →
      (first gives → exec (.preemption d seq) s = .next ((s.setCore (v / 4) { core with preempt := some ⟨v, d, e.w 4, true, need v⟩ }).setCtx v
        { x with ceil := if x.mode = .supervisor then x.ceil else ceil, cut := some (ceil, none), lowered := if now then none else some 0, switch := now })) ∧
      ((∀ w, ¬gives w) → first low → exec (.preemption d seq) s = .next
        ((s.setCore (v / 4) { core with preempt := some ⟨v, d, e.w 4, false, need v⟩ }).setCtx v { x with switch := true })))) ∧
  (∀ (c : Nat) (s : State),
    let x := s.ctx c
    let t := (s.finishOlder c).settleCommands c
    let y := t.ctx c
    let due : Prop := x.switch = true ∧ x.mode = .task ∧ x.ending = false ∧ between x ∧ (x.life = .running ∨ x.life = .acquiring) ∧ x.pending = [] ∧
      x.lost = false ∧ x.due = none
    (¬due → exec (.fullSwitch c) s = .next s) ∧
    (∀ a u, due → x.life = .running → x.area = some a → (t.core (c / 4)).mu.holder ≠ some c → y.midUnit = false →
      writeImage t (a.die / 4) (areaBase t a) (saveImage t c none) = (u, none) →
      ∃ w : State, exec (.fullSwitch c) s = .next (w.pushResume y.home (areaBase u a % 2 ^ 48) y.ctrl y.seq) ∧ w.mem = u.mem ∧
        (w.ctx c).life = .idle ∧ (w.ctx c).held = 0 ∧ (∃ p ∈ w.parked, p.area = a ∧ p.tid = y.tid) ∧
        physNat u (areaBase t a) 8 % 16 = y.held % 16 ∧ physNat u (areaBase t a + 8) 8 = y.pc.toNat ∧
        (∀ j, physNat u (areaBase t a + 0x300 + 8 * j.toNat) 8 = (y.reg j).toNat)) ∧
    (∀ a, due → x.life = .acquiring → x.area = some a →
      ∃ w : State, exec (.fullSwitch c) s = .next (w.pushResume x.home (areaBase s a % 2 ^ 48) x.ctrl x.seq) ∧ w.mem = s.mem ∧
        (w.ctx c).life = .idle ∧ (w.ctx c).held = 0 ∧ ∃ p ∈ w.parked, p.area = a ∧ p.tid = x.tid)) ∧
  (∀ (c : Nat) (s : State),
    let x := s.ctx c
    let limit := (s.die (c / 256)).reclaimLimit.toNat
    (∀ n, x.lowered = some n → x.mode = .task → x.ending = false → limit ≤ n →
      exec (.reclaimFallback c) s = .next (s.setCtx c { x with lowered := none, switch := true })) ∧
    ((∀ n, x.lowered = some n → x.mode = .supervisor ∨ x.ending = true ∨ n < limit) → exec (.reclaimFallback c) s = .next s)) ∧
  (∀ (c : Nat) (s : State),
    let x := s.ctx c
    let ranOut : Prop := x.due = some 0 ∧ x.mode = .task ∧ x.ending = false ∧ between x ∧ x.life = .running
    let t := s.setCtx c { x with due := none }
    let again := (enqueue (fv4Who c x.stall) x.record x.home true).run t
    (¬ranOut → exec (.taskBudgetExceeded c) s = .next s) ∧
    (ranOut → x.ctrl.getLsbD 39 = false → exec (.taskBudgetExceeded c) s = .next (t.takeTrap c 0x341 x.record x.pc noInfo true false)) ∧
    (ranOut → x.ctrl.getLsbD 39 = true →
      (∀ u, again = (.ok (), u) → exec (.taskBudgetExceeded c) s =
        .next ((u.setCtx c { u.ctx c with forced := true, abandon := true }).takeTrap c 0x341 x.record x.pc noInfo true false)) ∧
      (∀ u cause i r, again = (.error (.trap cause i r), u) → exec (.taskBudgetExceeded c) s = .next
        (u.takeTrap c 0x341 (x.record ||| 0x8000000000000000) x.pc { noInfo with w2 := cause.setWidth 64, w3 := x.record, w4 := r.w4 } true false)))) ∧
  (∀ (c : Nat) (s : State),
    let x := s.ctx c
    let open' : Prop := x.mode = .task ∧ x.ending = false ∧ between x ∧ x.life = .running ∧ x.due ≠ some 0
    (¬open' ∨ (x.pending = [] ∧ x.lost = false) → exec (.trapEntry c) s = .next s) ∧
    (∀ p rest, open' → x.pending = p :: rest → x.tvec ≠ 0 → writesRecord p.cause p.info = false →
      let other (q : Pending) : Bool := !(q.cause == p.cause && q.info == p.info && q.owner != p.owner)
      let older := x.due.map fun n => (rest.take (n - 1)).countP other + (n - (rest.length + 1))
      let u := (s.setCtx c { x with pending := rest.filter other, due := older }).finishOlder c
      exec (.trapEntry c) s = .next (u.setCtx c { Entered (u.ctx c) p.cause p.info x.pc with async := true }))) ∧
  (∀ (c : Nat) (s : State),
    let reached : Prop := (s.ctx c).life = .running ∧ ∃ e ∈ (s.ctx c).stall, (s.pkg (c / 1024)).walkLimit.toNat ≤ e.2
    (¬reached → exec (.walkStalled c) s = .next s ∧ exec (.sptEntryBusyTimeout c) s = .next s) ∧
    (reached → exec (.walkStalled c) s = .next { s with agenda := .run c :: s.agenda } ∧
      exec (.sptEntryBusyTimeout c) s = .next { s with agenda := .run c :: s.agenda })) ∧
  (∀ (c : Nat) (s : State) (u : State),
    let t := { s with cur := c }
    let waits : Prop := t.me.life = .running ∧ t.me.waited ≠ none ∧ s.boundary c = none ∧ (s.core (c / 4)).out = false
    let past (r : BitVec 5) : Prop := u.me.reg r ≠ -1 ∧ (u.me.reg r).toNat ≤ u.me.waited.getD 0
    (¬waits → exec (.barwaitLimitExpiry c) s = .next s ∧ exec (.vwaitLimitExpiry c) s = .next s) ∧
    (∀ d a b l, waits → t.nextInstr = .ok (.barwait d a b l, u) →
      (¬past l → exec (.barwaitLimitExpiry c) s = .next s) ∧
      (past l → ∃ v, exec (.barwait d a b l) u = .next v ∧ exec (.barwaitLimitExpiry c) s = .next { v with cur := s.cur })) ∧
    (∀ d a b m r q, waits → t.nextInstr = .ok (.vwait d a b m r q, u) →
      (¬past a → exec (.vwaitLimitExpiry c) s = .next s) ∧
      (past a → ∃ v, exec (.vwait d a b m r q) u = .next v ∧ exec (.vwaitLimitExpiry c) s = .next { v with cur := s.cur })))

/-- R20, R21, R151, R264 to R267, R275 to R278: failures, links, power, temperature and the reset of a die. A poisoned line joins the poisoned ones;
a corrected error is counted, up to 2^32 − 1; a core taken out, once every frame is handled, has no frame, no task and no matrix unit left, and a task
without RERUN is reported with 0x383; a failed link is masked at both ends and reported as kind 4, and a spare that joins the same packages takes the
place of their direct link, encrypted as both ends say; training unmasks a link between packages whose numbers and sets may be joined, a spare only for a
failed link; the power controller moves the ceiling one step, every 100,000 ticks; at 115 °C every context stops, whichever event measures it. The
model's choices here: a die's reset ends its tasks (assumption 38), how a thermal stop marks contexts and package (41), that power periods are counted
(42), a core whose frames wait goes on in a further event (55), and which link is the far end of a spare (56). -/
def Obligations.FailuresAndPower : Prop :=
  (∀ (n : Nat) (s : State), ∃ t, exec (.linePoisoning n) s = .next t ∧ t = { s with poison := t.poison } ∧
    ∀ m, m ∈ t.poison ↔ m = n ∨ m ∈ s.poison) ∧
  (∀ (p n : Nat) (s : State),
    let x := s.pkg p
    let add (v : BitVec 32) : BitVec 32 := BitVec.ofNat 32 (min (2 ^ 32 - 1) (v.toNat + n))
    exec (.softErrorCorrection p true n) s = .next (s.setPkg p { x with eccHbm := add x.eccHbm }) ∧
    exec (.softErrorCorrection p false n) s = .next (s.setPkg p { x with eccSram := add x.eccSram })) ∧
  (∀ (k : Nat) (lines : List Nat) (s : State),
    ((s.core k).out = true → (s.core k).retiring = none → exec (.containment k lines) s = .next s) ∧
    ((s.core k).out = false → ∃ t, exec (.containment k lines) s = .next t ∧ (t.core k).out = true ∧
      ((∀ i, i < 256 → (s.core k).frame i = none) → (t.core k).retiring = none) ∧
      (∀ i f pe, (s.core k).frames = [(i, f)] → f.dirty = 0 → f.pageDirty = false → (∀ x ∈ s.ctxs, x.2.noneInFlight = true) →
        Mapped s (fv4Who (4 * k) (s.core k).stall) .atomic f.entry.toNat 8 pe → (t.core k).retiring = none) ∧
      ((t.core k).retiring = none → (∀ i, i < 256 → (t.core k).frame i = none) ∧
        ∀ c, c / 4 = k → (t.ctx c).life = .idle ∧
          ((s.ctx c).life ≠ .idle → (t.core k).mu.holder ≠ some c ∧ ((s.ctx c).ctrl.getLsbD 39 = false →
            ⟨0x383, 2, s.ctxNumber c, (s.ctx c).record⟩ ∈ (t.pkg (c / 1024)).events))))) ∧
  (∀ (p i : Nat) (s : State), ∃ t, exec (.linkFailure p i) s = .next t ∧
    ((t.pkg p).link i).masked = true ∧ ((t.pkg p).link i).failed = true ∧ (∃ e ∈ (t.pkg p).events, e.kind = 4) ∧
    (∀ q j, ((s.pkg p).link i).peer = some q → farEnd s p i q = some j →
      ((t.pkg q).link j).masked = true ∧ ∃ e ∈ (t.pkg q).events, e.kind = 4) ∧
    (∀ q, ((s.pkg p).link i).peer = some q → p ≠ q → 21 ≤ i →
      (∀ j, linkTo (s.pkg p).number (s.pkg q).number = some j → ((s.pkg p).link j).failed = false) →
      ∀ m, m ≠ i → ((t.pkg p).link m).masked = ((s.pkg p).link m).masked) ∧
    ∀ q a b, ((s.pkg p).link i).peer = some q → p ≠ q → i < 21 → linkTo (s.pkg p).number (s.pkg q).number = some i →
      spareTo (s.pkg p) q = some a → spareTo (s.pkg q) p = some b →
      let enc := (s.pkg p).linkctl.getLsbD 32
      enc = (s.pkg q).linkctl.getLsbD 32 →
      ((t.pkg p).link a).masked = false ∧ ((t.pkg q).link b).masked = false ∧
        ((t.pkg p).link a).encrypted = enc ∧ ((t.pkg q).link b).encrypted = enc) ∧
  (∀ (p i : Nat) (s : State),
    let x := s.pkg p
    let l := x.link i
    let on : Prop := i < 24 ∧ x.linkctl.getLsbD i = true
    (∀ q, ¬on → exec (.linkTraining p i q) s = .next s) ∧
    (on → ∃ t, exec (.linkTraining p i none) s = .next t ∧ ((t.pkg p).link i).masked = true ∧ (∃ e ∈ (t.pkg p).events, e.kind = 4)) ∧
    (∀ q, on →
      let y := s.pkg q
      let m := x.number
      let n := y.number
      let differ : Nat := (if m % 6 = n % 6 then 0 else 1) + (if m / 6 % 6 = n / 6 % 6 then 0 else 1) + (if m / 36 = n / 36 then 0 else 1)
      let fits : Prop := differ = 1 ∧ x.pkgcfg.getLsbD 63 = true ∧ y.pkgcfg.getLsbD 63 = true ∧
        x.pkgcfg.toNat / 2 ^ 12 % 2 ^ 32 = y.pkgcfg.toNat / 2 ^ 12 % 2 ^ 32 ∧ (21 ≤ i ∨ linkPeer m i = some n)
      let shut : Prop := x.linkctl.getLsbD 32 ≠ y.linkctl.getLsbD 32 ∨ l.failed = true ∨
        (21 ≤ i ∧ ∀ j, linkTo m n = some j → (x.link j).failed = false)
      (¬fits → ∃ t, exec (.linkTraining p i (some q)) s = .next t ∧ ((t.pkg p).link i).masked = true ∧
        ∃ e ∈ (t.pkg p).events, e.kind = 4) ∧
      (fits → ∃ t mask, (mask = true ↔ shut) ∧ exec (.linkTraining p i (some q)) s = .next t ∧
        (t.pkg p).link i = { l with
          peer := some q, trained := true, masked := mask, encrypted := x.linkctl.getLsbD 32 && !mask } ∧
        ∀ j, j ≠ i → (t.pkg p).link j = x.link j)) ∧
    (∃ t, exec (.linkRekeying p i) s = .next t ∧ (t.pkg p).link i = { l with rekeys := if l.encrypted then l.rekeys + 1 else l.rekeys } ∧
      ∀ m, m ≠ i → (t.pkg p).link m = x.link m)) ∧
  (∀ (p w : Nat) (s : State),
    let x := s.pkg p
    let limit := max 500 (min 3400 (x.powerlimit.toNat % 4096))
    let low : Prop := w ≤ limit ∧ 10 * w < 9 * limit
    let elapsed : Prop := (x.periods + 1) * 100000 ≤ s.ticks.toNat
    (¬elapsed → exec (.powerControlPeriod p w) s = .next s) ∧
    (elapsed → x.ceil ∈ [1, 2, 4, 8] → ∃ t, exec (.powerControlPeriod p w) s = .next t ∧ (t.pkg p).periods = x.periods + 1 ∧
      (limit < w → (t.pkg p).ceil = (if x.ceil = 1 then 1 else x.ceil / 2) ∧ (x.ceil = 1 → (t.pkg p).clockLow = true)) ∧
      (low → 9 ≤ x.below → (t.pkg p).ceil = min 8 (2 * x.ceil) ∧ (t.pkg p).below = 0) ∧
      (low → x.below < 9 → (t.pkg p).ceil = x.ceil ∧ (t.pkg p).below = x.below + 1) ∧
      (w ≤ limit → ¬low → (t.pkg p).ceil = x.ceil ∧ (t.pkg p).below = 0) ∧
      ∀ c, (t.ctx c).held = (s.ctx c).held ∧ (t.ctx c).v = (s.ctx c).v ∧
        (c / 1024 = p → (s.ctx c).life ≠ .idle → (s.ctx c).mode = .task → (t.ctx c).ceil ≤ (t.pkg p).ceil))) ∧
  (∀ (p : Nat) (tj : BitVec 12) (s : State),
    (tj.toNat < 920 → exec (.thermalShutdown p tj) s = .next s ∧
      exec (.thermalThrottle p tj) s = .next (s.setPkg p { s.pkg p with tj := tj, throt := decide (840 ≤ tj.toNat) })) ∧
    (920 ≤ tj.toNat → ∀ i ∈ ([.thermalThrottle p tj, .thermalShutdown p tj] : List Instr), ∃ t, exec i s = .next t ∧
      (∃ e ∈ (t.pkg p).events, e.kind = 5) ∧ (t.pkg p).off = true ∧
      ∀ c, t.ctx c = if c / 1024 = p ∧ (s.ctx c).life ≠ .idle then { s.ctx c with life := .stopped } else s.ctx c)) ∧
  (∀ (d : Nat) (s : State), ∃ t, exec (.dieReset d) s = .next t ∧ t.die d = Die.reset ∧
    (∀ q ∈ t.parked, q.area.die ≠ d) ∧ ∀ c, (c / 256 = d → t.ctx c = Ctx.reset) ∧
      (c / 256 ≠ d → (t.ctx c).s = (s.ctx c).s ∧ (t.ctx c).pc = (s.ctx c).pc ∧ (t.ctx c).life = (s.ctx c).life)) ∧
  (∀ (p w r : Nat) (s : State),
    (w ∈ [1, 2, 4, 8] → r ≤ 128 →
      exec (.pciExpressPortTraining p w r) s = .next (s.setPkg p { s.pkg p with pcieWidth := w, pcieRate := r })) ∧
    (w ∉ [1, 2, 4, 8] ∨ 128 < r → exec (.pciExpressPortTraining p w r) s = .next s))

/-- R29, R254, R259, R267 to R274: what the host and the services do. The oldest waiting event is written into the ring at EVTAIL, as long as the
ring has room; the device registers are written under their masks while the package hears the host, PKGCFG joins only with a place in its own sets, and a
frozen one sends the interface to ERROR, and an offset of the windows that has no register ignores it; HCTL resumes or abandons a stopped context of the
package, named by its number, or reads back with bit 63 set; HSPAWN enqueues a record, later if its read waits, and reports a refusal as kind 7; BAR 2
reads and writes the window; the interface locks, starts and stops, and STOP zeroes the package's contexts, queues, registers and memory; SPDM answers
with its versions, its algorithms and the locked registers; firmware is accepted, once, by key, signature and version. The model's choices here: the
zeroed contexts are as after reset (assumption 35), word 2 of an event is TICK as it is written (40), and writes in recovery or in ERROR are ignored, as
are the other bits of HCTL (57). -/
def Obligations.HostServices : Prop := ∀ (p : Nat) (v : Word) (s : State),
  let x := s.pkg p
  let hears : Prop := x.trust.recovery = false ∧ x.tdisp ≠ .error
  let frozen : Prop := x.tdisp = .locked ∨ x.tdisp = .run
  let failed (t : State) : Prop := (t.pkg p).tdisp = .error ∧ (t.pkg p).dispatchOff = true ∧ ∃ e ∈ (t.pkg p).events, e.kind = 6
  let sets (f : Pkg) (i : Instr) : Prop := exec i s = .next (s.setPkg p f)
  let ring : Prop := (∃ k, 6 ≤ k ∧ k ≤ 16 ∧ x.evsize.toNat = 2 ^ k) ∧ x.evbase.toNat % 4096 = 0 ∧ x.evbase.toNat < 2 ^ 48
  let at_ := p * 2 ^ 48 + x.evbase.toNat + 32 * (x.evtail.toNat % x.evsize.toNat)
  (x.events = [] ∨ ¬ring ∨ x.evtail - x.evhead = x.evsize → exec (.eventEntryWrite p) s = .next s) ∧
  (∀ e rest, x.events = e :: rest → ring → x.evtail - x.evhead ≠ x.evsize → badLine s p at_ 32 true = none →
    ∃ t, exec (.eventEntryWrite p) s = .next t ∧ PutAt s t at_ (leBytes 8 (e.cause.toNat + e.kind * 2 ^ 12 + e.ctx * 2 ^ 16) ++
      leBytes 8 e.info.toNat ++ leBytes 8 s.ticks.toNat ++ List.replicate 8 0#8) ∧
      t.pkg p = { x with events := rest, evtail := x.evtail + 1, msix := x.msix + 1 }) ∧
  (¬hears → ∀ i ∈ ([.pkgcfg p v, .evbase p v, .evsize p v, .evhead p v, .hspawn p v, .hostResume p v, .hostAbandon p v] : List Instr),
    exec i s = .next s) ∧
  (hears →
    (frozen → ∃ t, exec (.pkgcfg p v) s = .next t ∧ failed t ∧ (t.pkg p).pkgcfg = x.pkgcfg) ∧
    (¬frozen → ∃ f ls, exec (.pkgcfg p v) s = .next (s.setPkg p { x with pkgcfg := f, links := ls }) ∧
      (x.pkgcfg.getLsbD 63 = false ∨ f.getLsbD 63 = true → ls = x.links) ∧
      (x.pkgcfg.getLsbD 63 = true → f.getLsbD 63 = false → ∀ e ∈ ls, e.2.trained = false) ∧
      (let own := v.toNat % 512
       let joins : Prop := v.getLsbD 63 = true ∧ own < 432 ∧ v.getLsbD (12 + own % 6) = true ∧ v.getLsbD (18 + own / 6 % 6) = true ∧
         v.getLsbD (32 + own / 36) = true
       (x.pkgcfg.getLsbD 63 = true → f = if v.getLsbD 63 then x.pkgcfg else x.pkgcfg &&& 0x7FFFFFFFFFFFFFFF) ∧
       (x.pkgcfg.getLsbD 63 = false → (f.getLsbD 63 = true ↔ joins) ∧ f &&& 0x7FFFFFFFFFFFFFFF = v &&& 0x00000FFF00FFF1FF))) ∧
    exec (.evbase p v) s = exec (.eventEntryWrite p) (s.setPkg p { x with evbase := v }) ∧
    exec (.evsize p v) s = exec (.eventEntryWrite p) (s.setPkg p { x with evsize := v }) ∧
    exec (.evhead p v) s = exec (.eventEntryWrite p) (s.setPkg p { x with evhead := v }) ∧
    sets { x with powerlimit := v &&& 0xFFF } (.hostRegisterWrite p 0x30 v) ∧
    sets { x with hcaddr := v } (.hostRegisterWrite p 0x68 v) ∧
    (¬frozen → sets { x with enable := v.setWidth 12 } (.hostRegisterWrite p 0x28 v) ∧ sets { x with hwin := v &&& 0x0000FFF000000000 } (.hostRegisterWrite p 0x08 v) ∧
      sets { x with linkctl := v &&& 0x0000000100FFFFFF } (.hostRegisterWrite p 0x18 v) ∧
      ∀ c, c < 1024 → exec (.hostRegisterWrite p (0x200000 + 8 * c) v) s =
        .next (s.setCtx (1024 * p + c) { s.ctx (1024 * p + c) with tvec := v &&& 0x007FFFFFFFFFFFFC })) ∧
    (frozen → ∀ o ∈ [0x08, 0x18, 0x28], ∃ t, exec (.hostRegisterWrite p o v) s = .next t ∧ failed t ∧ (t.pkg p).hwin = x.hwin ∧
      (t.pkg p).linkctl = x.linkctl ∧ (t.pkg p).enable = x.enable) ∧
    (∀ o, 0x100000 ≤ o → o < 0x200000 → windowValue s p o = none → exec (.hostRegisterWrite p o v) s = .next s) ∧
    (let c := (s.ctxAt p (v.toNat % 2 ^ 19)).getD 442368
     let cmd := v.toNat / 2 ^ 20 % 4
     let kept := v &&& 0x3FFFFF
     let y := s.ctx c
     let mine : Prop := c / 1024 = p ∧ y.life = .stopped ∧ y.stopInfo ≠ none ∧ x.off = false
     ∀ i ∈ ([.hostResume p v, .hostAbandon p v] : List Instr),
       (cmd = 1 → mine → PcForm x.hcaddr → y.mode = .task → y.stopInfo.map (·.1) ≠ some 0x28A →
         exec i s = .next ((s.setPkg p { x with hctl := kept }).setCtx c
           { y with life := .running, mode := .supervisor, pc := x.hcaddr, stopInfo := none })) ∧
       (cmd = 2 → mine → ∃ t, exec i s = .next t ∧ (t.pkg p).hctl = kept ∧ (t.ctx c).life = .idle ∧ (t.ctx c).held = 0 ∧
         (∀ j, get16 (t.ctx c).chans j = none) ∧ ∀ d, d ≠ c → (t.ctx d).s = (s.ctx d).s ∧ (t.ctx d).pc = (s.ctx d).pc ∧
           (t.ctx d).life = (s.ctx d).life) ∧
       ((cmd ≠ 1 ∧ cmd ≠ 2) ∨ ¬mine ∨ (cmd = 1 ∧ ¬PcForm x.hcaddr) →
         exec i s = .next (s.setPkg p { x with hctl := kept ||| 0x8000000000000000 }))) ∧
    (x.tdisp = .locked → exec (.hspawn p v) s = .next (s.report p ⟨0x003, 7, 0, v⟩)) ∧
    (x.tdisp ≠ .locked →
      let r := (enqueue (fv4Who (1024 * p) []) v (4 * p) false).run s
      (∀ t, r = (.ok (), t) → exec (.hspawn p v) s = .next t) ∧
      (∀ cause i f t, r = (.error (.trap cause i f), t) → exec (.hspawn p v) s = .next (t.report p ⟨cause, 7, 0, v⟩)) ∧
      ∀ ks t, r = (.error (.waitOn ks), t) → exec (.hspawn p v) s = .next { s with
        reruns := s.reruns ++ [{ ctx := 1024 * p, record := v, home := 4 * p, host := true, stall := ks.map fun k => (k, 0) }] })) ∧
  (∀ (o n : Nat) (bs : List Byte),
    let base := p * 2 ^ 48 + x.hwin.toNat + o
    let inside (n : Nat) : Prop := o + n ≤ 2 ^ 36 ∧ x.hwin.toNat + o + n ≤ 0xC000000000
    (x.tdisp = .error → sets { x with hostReply := List.replicate n 255 } (.hostMemoryAccess p (.read o n))) ∧
    (hears → x.tdisp ≠ .locked →
      (¬inside n → sets { x with hostReply := List.replicate n 0 } (.hostMemoryAccess p (.read o n))) ∧
      (inside n → (∀ k, k < n → poisoned s (base + k) = false) → ∃ t, exec (.hostMemoryAccess p (.read o n)) s = .next t ∧
        t = { s.setPkg p { x with hostReply := (List.range n).map fun k => s.locByte (.phys (base + k)) } with free := s.free + n }) ∧
      (inside bs.length → ∃ t, exec (.hostMemoryAccess p (.write o bs)) s = .next t ∧ OnlyMemory s t ∧ t.ctxs = s.ctxs ∧
        PutAt s t base bs) ∧
      (¬inside bs.length → exec (.hostMemoryAccess p (.write o bs)) s = .next s)) ∧
    (x.tdisp = .locked → x.trust.recovery = false →
      exec (.hostMemoryAccess p (.read o n)) s = .next s ∧ exec (.hostMemoryAccess p (.write o bs)) s = .next s)) ∧
  (x.tdisp = .unlocked → x.trust.recovery = false → ∃ ws, exec (.lockInterface p) s = .next (s.setPkg p { x with tdisp := .locked, measurement := ws }) ∧
    ws.take 3 = [x.hwin, x.pkgcfg, x.linkctl]) ∧
  (x.tdisp ≠ .unlocked → exec (.lockInterface p) s = .next s) ∧
  (x.tdisp = .locked → sets { x with tdisp := .run } (.startInterface p)) ∧ (x.tdisp ≠ .locked → exec (.startInterface p) s = .next s) ∧
  (x.tdisp = .unlocked → exec (.stopInterface p) s = .next s) ∧
  (x.tdisp ≠ .unlocked → ∃ t, exec (.stopInterface p) s = .next t ∧ (t.pkg p).tdisp = .unlocked ∧ (t.pkg p).ideKey = none ∧
    (t.pkg p).measurement = [] ∧ (t.pkg p).enable = 0 ∧ (t.pkg p).ptroot = 0 ∧ (t.pkg p).walkLimit = 0 ∧ (t.pkg p).exchLimit = 0 ∧
    (t.pkg p).powerlimit = 0 ∧ (t.pkg p).eccHbm = 0 ∧ (t.pkg p).eccSram = 0 ∧ (t.pkg p).hwin = 0 ∧ (t.pkg p).pkgcfg = 0 ∧
    (t.pkg p).linkctl = 0 ∧ (t.pkg p).evbase = 0 ∧ (t.pkg p).evsize = 0 ∧ (t.pkg p).evhead = 0 ∧ (t.pkg p).evtail = 0 ∧
    (t.pkg p).hctl = 0 ∧ (t.pkg p).hcaddr = 0 ∧
    (∀ d, d / 4 = p → (t.die d).queued = [] ∧ (t.die d).areas = [] ∧ (t.die d).ageN = 0 ∧ (t.die d).qbase = 0 ∧ (t.die d).savecount = 0) ∧
    (∀ c, c / 1024 = p → t.ctx c = Ctx.reset) ∧ ∀ a, a / 2 ^ 48 = p → t.locByte (.phys a) = 0) ∧
  (∀ key, sets { x with ideKey := some key } (.ideKm p key)) ∧
  (frozen → ∃ t, exec (.ideIntegrityFailure p) s = .next t ∧ failed t) ∧ (¬frozen → exec (.ideIntegrityFailure p) s = .next s) ∧
  (∀ q, ∃ a, exec (.spdmRequest p q) s = .next ((spent s).setPkg p { x with spdm := x.spdm ++ [a] }) ∧
    (q = .getVersion → a = .words [0x12, 0x13]) ∧ (q = .negotiateAlgorithms → a = .algorithms .ecdsaP521 .sha512 .sha512 .ecdheP521 .aes256Gcm) ∧
    (q = .getMeasurement 4 → x.measurement ≠ [] → a = .words x.measurement)) ∧
  (x.trust.verified = true → exec (.firmwareVerification p) s = .next s) ∧
  (x.trust.verified = false → ∃ b, sets { x with trust := { x.trust with recovery := !b, verified := b } } (.firmwareVerification p) ∧
    (b = true ↔ ∃ i, x.trust.image = some i ∧ i.keyOk = true ∧ i.sigOk = true ∧ x.trust.minimum ≤ i.version)) ∧
  (∀ i, (x.trust.recovery = true → sets { x with trust := { x.trust with image := some i } } (.firmwareLoad p i)) ∧
    (x.trust.recovery = false → exec (.firmwareLoad p i) s = .next s))
end

