-- ==== Sys2Proof/Laws/Run.lean ====
section
/-! SUPPORT. How a meaning runs: one equation per operation of the monad M, so that proofs rewrite `m.run s`
and never unfold the monad. -/

namespace Sys2Proof.Machine

@[simp] theorem run_pure {α : Type} (x : α) (s : State) : (pure x : M α).run s = (.ok x, s) := rfl

@[simp] theorem run_bind {α β : Type} (m : M α) (f : α → M β) (s : State) :
    (m >>= f).run s =
      match m.run s with
      | (.ok x, t) => (f x).run t
      | (.error e, t) => (.error e, t) := by
  rcases h : m.run s with ⟨a, t⟩
  have h' : StateT.run m.run s = (a, t) := h
  change StateT.run (m >>= f).run s = _
  rw [ExceptT.run_bind, StateT.run_bind, h']
  cases a <;> rfl

@[simp] theorem run_map {α β : Type} (f : α → β) (m : M α) (s : State) :
    (f <$> m).run s = match m.run s with
      | (.ok x, t) => (.ok (f x), t)
      | (.error e, t) => (.error e, t) := by
  rw [← bind_pure_comp, run_bind]
  split <;> simp_all

@[simp] theorem run_throw {α : Type} (e : Stop) (s : State) : (throw e : M α).run s = (.error e, s) := rfl

@[simp] theorem run_getS (s : State) : getS.run s = (.ok s, s) := rfl

@[simp] theorem run_modS (f : State → State) (s : State) : (modS f).run s = (.ok (), f s) := rfl

@[simp] theorem run_modMe (f : Ctx → Ctx) (s : State) : (modMe f).run s = (.ok (), s.setMe (f s.me)) := rfl

@[simp] theorem run_trapM {α : Type} (c : BitVec 10) (i : Word) (r : FaultInfo) (s : State) :
    (trapM c i r : M α).run s = (.error (.trap c i r), s) := rfl

@[simp] theorem run_attempt {α : Type} (m : M α) (s : State) :
    (attempt m).run s = (.ok (m.run s).1, (m.run s).2) := rfl

@[simp] theorem run_liftE_ok {α : Type} (x : α) (s : State) : (liftE (.ok x) : M α).run s = (.ok x, s) := rfl

@[simp] theorem run_liftE_error {α : Type} (e : Stop) (s : State) : (liftE (.error e) : M α).run s = (.error e, s) := rfl

@[simp] theorem run_nextM (s : State) : nextM.run s = (.ok (), s.setMe s.me.advance) := rfl

@[simp] theorem run_drainM (s : State) : drainM.run s = (.ok (), s.drain s.cur) := rfl

@[simp] theorem run_settleM (s : State) : settleM.run s = (.ok (), s.settleStores s.cur) := rfl

/-- A check passes or raises its trap and changes nothing. -/
theorem run_check (ok : Bool) (c : BitVec 10) (i : Word) (s : State) :
    (check ok c i).run s = if ok then (.ok (), s) else (.error (.trap c i noInfo), s) := by
  cases ok <;> rfl

@[simp] theorem run_check_true (c : BitVec 10) (i : Word) (s : State) : (check true c i).run s = (.ok (), s) := rfl

@[simp] theorem run_check_false (c : BitVec 10) (i : Word) (s : State) :
    (check false c i).run s = (.error (.trap c i noInfo), s) := rfl

/-- A free choice advances the counter of free values. -/
@[simp] theorem run_choose (n : Nat) (s : State) :
    (choose n).run s = (.ok (Config.freeNat s.free % n), { s with free := s.free + 1 }) := rfl

/-- A feature that is enabled lets the instruction go on. -/
theorem run_feature (n : Nat) (i : Instr) (s : State) :
    (feature n i).run s =
      if s.myPkg.enable.getLsbD n then (.ok (), s) else (.error (.trap 0x004 (instrWord i) noInfo), s) := by
  cases h : s.myPkg.enable.getLsbD n <;> simp [feature, h]

/-! ### How a meaning ends, in either form -/

theorem finishWith_ok {w : Bool} {m : M Unit} {s t : State} (h : m.run s = (.ok (), t)) : finishWith w m s = .next t := by
  simp [finishWith, h]

theorem finishWith_trap {w : Bool} {m : M Unit} {s t : State} {c : BitVec 10} {i : Word} {r : FaultInfo}
    (h : m.run s = (.error (.trap c i r), t)) : finishWith w m s = .next (t.trapNow c i r) := by
  simp [finishWith, h]

theorem finishWith_wait {w : Bool} {m : M Unit} {s t : State} (h : m.run s = (.error .wait, t)) :
    finishWith w m s = .next s.unmarked := by
  simp [finishWith, h]

theorem finishWith_waitOn {w : Bool} {m : M Unit} {s t : State} {ks : List Nat}
    (h : m.run s = (.error (.waitOn ks), t)) :
    finishWith w m s = .next (s.setMe { s.me.waitsOn ks with busy := w }) := by
  simp [finishWith, h]

/-- A meaning never ends in a fault or a refusal. -/
theorem finishWith_next (w : Bool) (m : M Unit) (s : State) : ∃ t, finishWith w m s = .next t := by
  unfold finishWith
  split <;> exact ⟨_, rfl⟩

theorem finish_ok {m : M Unit} {s t : State} (h : m.run s = (.ok (), t)) : finish m s = .next t := finishWith_ok h

theorem finish_trap {m : M Unit} {s t : State} {c : BitVec 10} {i : Word} {r : FaultInfo}
    (h : m.run s = (.error (.trap c i r), t)) : finish m s = .next (t.trapNow c i r) := finishWith_trap h

theorem finish_wait {m : M Unit} {s t : State} (h : m.run s = (.error .wait, t)) : finish m s = .next s.unmarked :=
  finishWith_wait h

theorem finish_next (m : M Unit) (s : State) : ∃ t, finish m s = .next t := finishWith_next true m s

theorem finishOpen_next (m : M Unit) (s : State) : ∃ t, finishOpen m s = .next t := finishWith_next false m s

/-- A meaning that runs to its end goes on to the next instruction. -/
theorem complete_ok {m : M Unit} {s t : State} (h : m.run s = (.ok (), t)) :
    complete m s = .next (t.setMe t.me.advance) :=
  finish_ok (by simp [h])

/-- A meaning that traps takes the trap on the state it left. -/
theorem complete_trap {m : M Unit} {s t : State} {c : BitVec 10} {i : Word} {r : FaultInfo}
    (h : m.run s = (.error (.trap c i r), t)) : complete m s = .next (t.trapNow c i r) :=
  finish_trap (by simp [h])

/-- A context whose wait carries no mark is as it was. -/
theorem State.unmarked_of (s : State) (hb : s.me.busy = false) (hs : s.me.stall = []) : s.unmarked = s := by
  simp [State.unmarked, hb, hs]

/-- A meaning that waits leaves the state but for marks of an earlier wait. -/
theorem complete_wait {m : M Unit} {s t : State} (h : m.run s = (.error .wait, t)) : complete m s = .next s.unmarked :=
  finish_wait (t := t) (by simp [h])

end Sys2Proof.Machine
end

