-- ==== Sys2Proof/Laws/State.lean ====
section
/-! SUPPORT. The small lemmas of the state's updates: what each leaves in each field. -/

namespace Sys2Proof.Machine

/-! ## Sparse tables -/

/-- A table after an update: the new value at its key, the old ones elsewhere. -/
theorem tableGet_tableSet {α : Type} (t : List (Nat × α)) (j k : Nat) (x d : α) :
    tableGet (tableSet t k x) j d = if j = k then x else tableGet t j d := by
  unfold tableGet tableSet
  split
  · rename_i found
    have keys : ((fun e : Nat × α => e.1 == j) ∘ fun e => if e.1 == k then (k, x) else e) = fun e => e.1 == j := by
      funext e
      by_cases h : e.1 = k <;> simp [h]
    rw [List.find?_map, keys]
    cases h : t.find? fun e => e.1 == j with
    | some e =>
      have hj : e.1 = j := by simpa using List.find?_some h
      by_cases hk : j = k <;> simp [hj, hk]
    | none =>
      obtain ⟨e, he, hk⟩ := List.any_eq_true.mp found
      have := List.find?_eq_none.mp h e he
      have : j ≠ k := fun hjk => this (by simpa [hjk] using hk)
      simp [this]
  · rename_i absent
    rw [List.find?_append]
    by_cases hk : j = k
    · have : t.find? (fun e => e.1 == j) = none := List.find?_eq_none.mpr fun e he h =>
        absent (List.any_eq_true.mpr ⟨e, he, by simpa [hk] using h⟩)
      subst hk
      simp [this]
    · cases h : t.find? fun e => e.1 == j <;> simp [hk, Ne.symm hk]

@[simp] theorem tableGet_tableSet_same {α : Type} (t : List (Nat × α)) (k : Nat) (x d : α) :
    tableGet (tableSet t k x) k d = x := by
  simp [tableGet_tableSet]

theorem tableGet_tableSet_other {α : Type} (t : List (Nat × α)) (j k : Nat) (x d : α) (h : j ≠ k) :
    tableGet (tableSet t k x) j d = tableGet t j d := by
  simp [tableGet_tableSet, h]

@[simp] theorem tableSet_tableSet {α : Type} (t : List (Nat × α)) (k : Nat) (x y : α) :
    tableSet (tableSet t k x) k y = tableSet t k y := by
  have twice : ((fun e : Nat × α => if e.1 == k then (k, y) else e) ∘ fun e => if e.1 == k then (k, x) else e) =
      fun e => if e.1 == k then (k, y) else e := by
    funext e
    by_cases h : e.1 = k <;> simp [h]
  unfold tableSet
  by_cases h : t.any (·.1 == k) = true
  · have : (t.map fun e => if e.1 == k then (k, x) else e).any (·.1 == k) = true := by
      obtain ⟨e, he, hk⟩ := List.any_eq_true.mp h
      exact List.any_eq_true.mpr ⟨_, List.mem_map_of_mem he, by simp [hk]⟩
    rw [if_pos h, if_pos h, if_pos this, List.map_map, twice]
  · have same : t.map (fun e => if e.1 == k then (k, y) else e) = t :=
      List.map_congr_left (fun e he => if_neg fun hk => h (List.any_eq_true.mpr ⟨e, he, hk⟩)) |>.trans (List.map_id' t)
    rw [if_neg h, if_neg h, if_pos (by simp), List.map_append, same]
    simp

/-! ## Register files -/

@[simp] theorem regGet_regSet_same {α : Type} (v : Vector α 32) (i : BitVec 5) (x : α) : regGet (regSet v i x) i = x := by
  simp [regGet, regSet]

theorem regGet_regSet_other {α : Type} (v : Vector α 32) (i j : BitVec 5) (x : α) (h : j ≠ i) :
    regGet (regSet v i x) j = regGet v j := by
  have : i.toNat ≠ j.toNat := fun e => h (BitVec.eq_of_toNat_eq e.symm)
  simp [regGet, regSet, this]

@[simp] theorem get8_set8_same {α : Type} (v : Vector α 8) (i : BitVec 3) (x : α) : get8 (set8 v i x) i = x := by
  simp [get8, set8]

theorem get8_set8_other {α : Type} (v : Vector α 8) (i j : BitVec 3) (x : α) (h : j ≠ i) :
    get8 (set8 v i x) j = get8 v j := by
  have : i.toNat ≠ j.toNat := fun e => h (BitVec.eq_of_toNat_eq e.symm)
  simp [get8, set8, this]

@[simp] theorem get16_set16_same {α : Type} (v : Vector α 16) (i : BitVec 4) (x : α) : get16 (set16 v i x) i = x := by
  simp [get16, set16]

theorem get16_set16_other {α : Type} (v : Vector α 16) (i j : BitVec 4) (x : α) (h : j ≠ i) :
    get16 (set16 v i x) j = get16 v j := by
  have : i.toNat ≠ j.toNat := fun e => h (BitVec.eq_of_toNat_eq e.symm)
  simp [get16, set16, this]

/-! ## Updates of the domain's records -/

@[simp] theorem ctx_setCtx_same (s : State) (c : Nat) (x : Ctx) : (s.setCtx c x).ctx c = x := by
  simp [State.ctx, State.setCtx]

theorem ctx_setCtx_other (s : State) (c j : Nat) (x : Ctx) (h : j ≠ c) : (s.setCtx c x).ctx j = s.ctx j := by
  simp [State.ctx, State.setCtx, tableGet_tableSet_other _ _ _ _ _ h]

@[simp] theorem core_setCore_same (s : State) (c : Nat) (x : Core) : (s.setCore c x).core c = x := by
  simp [State.core, State.setCore]

theorem core_setCore_other (s : State) (c j : Nat) (x : Core) (h : j ≠ c) : (s.setCore c x).core j = s.core j := by
  simp [State.core, State.setCore, tableGet_tableSet_other _ _ _ _ _ h]

@[simp] theorem die_setDie_same (s : State) (c : Nat) (x : Die) : (s.setDie c x).die c = x := by
  simp [State.die, State.setDie]

theorem die_setDie_other (s : State) (c j : Nat) (x : Die) (h : j ≠ c) : (s.setDie c x).die j = s.die j := by
  simp [State.die, State.setDie, tableGet_tableSet_other _ _ _ _ _ h]

@[simp] theorem pkg_setPkg_same (s : State) (c : Nat) (x : Pkg) : (s.setPkg c x).pkg c = x := by
  simp [State.pkg, State.setPkg]

theorem pkg_setPkg_other (s : State) (c j : Nat) (x : Pkg) (h : j ≠ c) : (s.setPkg c x).pkg j = s.pkg j := by
  simp [State.pkg, State.setPkg, tableGet_tableSet_other _ _ _ _ _ h]

/-! ### Domains, which depend on the packages alone -/

theorem spread_congr {s t : State} (h : s.pkgs = t.pkgs) (n : Nat) (ps : List Nat) : s.spread n ps = t.spread n ps := by
  have hj : s.joins = t.joins := by funext p q; simp [State.joins, State.pkg, h]
  induction n generalizing ps with
  | zero => rfl
  | succ n ih => simp only [State.spread, h, hj, ih]

/-- Whether two packages share a domain is a matter of the packages' registers and links (R20, R275). -/
theorem inDomain_congr {s t : State} (h : s.pkgs = t.pkgs) (p q : Nat) : inDomain s p q = inDomain t p q := by
  have hj : s.joins = t.joins := by funext p q; simp [State.joins, State.pkg, h]
  simp [inDomain, hj, h, spread_congr h]

/-- Where a physical address lies in memory, likewise (R19). -/
theorem physical_congr {s t : State} (h : s.pkgs = t.pkgs) (p a : Nat) : physical s p a = physical t p a := by
  simp [physical, State.packageAt, State.number, State.pkg, h, inDomain_congr h]

theorem domainRoot_congr {s t : State} (h : s.pkgs = t.pkgs) (p : Nat) : s.domainRoot p = t.domainRoot p := by
  simp [State.domainRoot, h, inDomain_congr h]

/-- The domain of the current turn. -/
theorem dom_congr {s t : State} (h : s.pkgs = t.pkgs) (hc : s.cur = t.cur) : s.dom = t.dom := by
  simp [State.dom, hc, domainRoot_congr h]

/-- A channel as the current turn finds it. -/
theorem chan_congr {s t : State} (h : s.pkgs = t.pkgs) (hc : s.cur = t.cur) (hx : s.chans = t.chans) (j : BitVec 4) :
    s.chan j = t.chan j := by
  simp [State.chan, State.chanOf, State.chansOf, hx, dom_congr h hc]

@[simp] theorem chan_setChan_same (s : State) (c : BitVec 4) (x : Channel) : (s.setChan c x).chan c = x := by
  have hd : (s.setChanOf s.dom c x).dom = s.dom := dom_congr rfl rfl
  simp only [State.chan, State.setChan, hd]
  simp [State.chanOf, State.setChanOf, State.chansOf]

theorem chan_setChan_other (s : State) (c j : BitVec 4) (x : Channel) (h : j ≠ c) : (s.setChan c x).chan j = s.chan j := by
  have hd : (s.setChanOf s.dom c x).dom = s.dom := dom_congr rfl rfl
  simp only [State.chan, State.setChan, hd]
  simp [State.chanOf, State.setChanOf, State.chansOf, get16_set16_other _ _ _ _ h]

@[simp] theorem setCtx_setCtx (s : State) (c : Nat) (x y : Ctx) : (s.setCtx c x).setCtx c y = s.setCtx c y := by
  simp [State.setCtx]

@[simp] theorem me_setMe (s : State) (x : Ctx) : (s.setMe x).me = x := by
  simp [State.me, State.setMe, State.ctx, State.setCtx]

@[simp] theorem setMe_setMe (s : State) (x y : Ctx) : (s.setMe x).setMe y = s.setMe y := by
  simp [State.setMe, State.setCtx]

theorem me_eq (s : State) : s.me = s.ctx s.cur := rfl

theorem setMe_eq (s : State) (x : Ctx) : s.setMe x = s.setCtx s.cur x := rfl

/-! ### setCtx -/

@[simp] theorem mem_setCtx (s : State) (c : Nat) (x : Ctx) : (s.setCtx c x).mem = s.mem := rfl
@[simp] theorem poison_setCtx (s : State) (c : Nat) (x : Ctx) : (s.setCtx c x).poison = s.poison := rfl
@[simp] theorem cores_setCtx (s : State) (c : Nat) (x : Ctx) : (s.setCtx c x).cores = s.cores := rfl
@[simp] theorem dies_setCtx (s : State) (c : Nat) (x : Ctx) : (s.setCtx c x).dies = s.dies := rfl
@[simp] theorem pkgs_setCtx (s : State) (c : Nat) (x : Ctx) : (s.setCtx c x).pkgs = s.pkgs := rfl
@[simp] theorem tlb_setCtx (s : State) (c : Nat) (x : Ctx) : (s.setCtx c x).tlb = s.tlb := rfl
@[simp] theorem spt_setCtx (s : State) (c : Nat) (x : Ctx) : (s.setCtx c x).spt = s.spt := rfl
@[simp] theorem posted_setCtx (s : State) (c : Nat) (x : Ctx) : (s.setCtx c x).posted = s.posted := rfl
@[simp] theorem nextPosted_setCtx (s : State) (c : Nat) (x : Ctx) : (s.setCtx c x).nextPosted = s.nextPosted := rfl
@[simp] theorem episodes_setCtx (s : State) (c : Nat) (x : Ctx) : (s.setCtx c x).episodes = s.episodes := rfl
@[simp] theorem nextEpisode_setCtx (s : State) (c : Nat) (x : Ctx) : (s.setCtx c x).nextEpisode = s.nextEpisode := rfl
@[simp] theorem parked_setCtx (s : State) (c : Nat) (x : Ctx) : (s.setCtx c x).parked = s.parked := rfl
@[simp] theorem chans_setCtx (s : State) (c : Nat) (x : Ctx) : (s.setCtx c x).chans = s.chans := rfl
@[simp] theorem agenda_setCtx (s : State) (c : Nat) (x : Ctx) : (s.setCtx c x).agenda = s.agenda := rfl
@[simp] theorem cur_setCtx (s : State) (c : Nat) (x : Ctx) : (s.setCtx c x).cur = s.cur := rfl
@[simp] theorem free_setCtx (s : State) (c : Nat) (x : Ctx) : (s.setCtx c x).free = s.free := rfl
@[simp] theorem clock_setCtx (s : State) (c : Nat) (x : Ctx) : (s.setCtx c x).clock = s.clock := rfl
@[simp] theorem nextTid_setCtx (s : State) (c : Nat) (x : Ctx) : (s.setCtx c x).nextTid = s.nextTid := rfl
@[simp] theorem ticks_setCtx (s : State) (c : Nat) (x : Ctx) : (s.setCtx c x).ticks = s.ticks := rfl
@[simp] theorem pins_setCtx (s : State) (c : Nat) (x : Ctx) : (s.setCtx c x).pins = s.pins := rfl
@[simp] theorem sources_setCtx (s : State) (c : Nat) (x : Ctx) : (s.setCtx c x).sources = s.sources := rfl
@[simp] theorem reruns_setCtx (s : State) (c : Nat) (x : Ctx) : (s.setCtx c x).reruns = s.reruns := rfl
@[simp] theorem orphans_setCtx (s : State) (c : Nat) (x : Ctx) : (s.setCtx c x).orphans = s.orphans := rfl

/-! ### setCore -/

@[simp] theorem mem_setCore (s : State) (c : Nat) (x : Core) : (s.setCore c x).mem = s.mem := rfl
@[simp] theorem poison_setCore (s : State) (c : Nat) (x : Core) : (s.setCore c x).poison = s.poison := rfl
@[simp] theorem ctxs_setCore (s : State) (c : Nat) (x : Core) : (s.setCore c x).ctxs = s.ctxs := rfl
@[simp] theorem dies_setCore (s : State) (c : Nat) (x : Core) : (s.setCore c x).dies = s.dies := rfl
@[simp] theorem pkgs_setCore (s : State) (c : Nat) (x : Core) : (s.setCore c x).pkgs = s.pkgs := rfl
@[simp] theorem tlb_setCore (s : State) (c : Nat) (x : Core) : (s.setCore c x).tlb = s.tlb := rfl
@[simp] theorem spt_setCore (s : State) (c : Nat) (x : Core) : (s.setCore c x).spt = s.spt := rfl
@[simp] theorem posted_setCore (s : State) (c : Nat) (x : Core) : (s.setCore c x).posted = s.posted := rfl
@[simp] theorem nextPosted_setCore (s : State) (c : Nat) (x : Core) : (s.setCore c x).nextPosted = s.nextPosted := rfl
@[simp] theorem episodes_setCore (s : State) (c : Nat) (x : Core) : (s.setCore c x).episodes = s.episodes := rfl
@[simp] theorem nextEpisode_setCore (s : State) (c : Nat) (x : Core) : (s.setCore c x).nextEpisode = s.nextEpisode := rfl
@[simp] theorem parked_setCore (s : State) (c : Nat) (x : Core) : (s.setCore c x).parked = s.parked := rfl
@[simp] theorem chans_setCore (s : State) (c : Nat) (x : Core) : (s.setCore c x).chans = s.chans := rfl
@[simp] theorem agenda_setCore (s : State) (c : Nat) (x : Core) : (s.setCore c x).agenda = s.agenda := rfl
@[simp] theorem cur_setCore (s : State) (c : Nat) (x : Core) : (s.setCore c x).cur = s.cur := rfl
@[simp] theorem free_setCore (s : State) (c : Nat) (x : Core) : (s.setCore c x).free = s.free := rfl
@[simp] theorem clock_setCore (s : State) (c : Nat) (x : Core) : (s.setCore c x).clock = s.clock := rfl
@[simp] theorem nextTid_setCore (s : State) (c : Nat) (x : Core) : (s.setCore c x).nextTid = s.nextTid := rfl
@[simp] theorem ticks_setCore (s : State) (c : Nat) (x : Core) : (s.setCore c x).ticks = s.ticks := rfl
@[simp] theorem pins_setCore (s : State) (c : Nat) (x : Core) : (s.setCore c x).pins = s.pins := rfl
@[simp] theorem sources_setCore (s : State) (c : Nat) (x : Core) : (s.setCore c x).sources = s.sources := rfl
@[simp] theorem reruns_setCore (s : State) (c : Nat) (x : Core) : (s.setCore c x).reruns = s.reruns := rfl
@[simp] theorem orphans_setCore (s : State) (c : Nat) (x : Core) : (s.setCore c x).orphans = s.orphans := rfl

/-! ### setDie -/

@[simp] theorem mem_setDie (s : State) (c : Nat) (x : Die) : (s.setDie c x).mem = s.mem := rfl
@[simp] theorem poison_setDie (s : State) (c : Nat) (x : Die) : (s.setDie c x).poison = s.poison := rfl
@[simp] theorem ctxs_setDie (s : State) (c : Nat) (x : Die) : (s.setDie c x).ctxs = s.ctxs := rfl
@[simp] theorem cores_setDie (s : State) (c : Nat) (x : Die) : (s.setDie c x).cores = s.cores := rfl
@[simp] theorem pkgs_setDie (s : State) (c : Nat) (x : Die) : (s.setDie c x).pkgs = s.pkgs := rfl
@[simp] theorem tlb_setDie (s : State) (c : Nat) (x : Die) : (s.setDie c x).tlb = s.tlb := rfl
@[simp] theorem spt_setDie (s : State) (c : Nat) (x : Die) : (s.setDie c x).spt = s.spt := rfl
@[simp] theorem posted_setDie (s : State) (c : Nat) (x : Die) : (s.setDie c x).posted = s.posted := rfl
@[simp] theorem nextPosted_setDie (s : State) (c : Nat) (x : Die) : (s.setDie c x).nextPosted = s.nextPosted := rfl
@[simp] theorem episodes_setDie (s : State) (c : Nat) (x : Die) : (s.setDie c x).episodes = s.episodes := rfl
@[simp] theorem nextEpisode_setDie (s : State) (c : Nat) (x : Die) : (s.setDie c x).nextEpisode = s.nextEpisode := rfl
@[simp] theorem parked_setDie (s : State) (c : Nat) (x : Die) : (s.setDie c x).parked = s.parked := rfl
@[simp] theorem chans_setDie (s : State) (c : Nat) (x : Die) : (s.setDie c x).chans = s.chans := rfl
@[simp] theorem agenda_setDie (s : State) (c : Nat) (x : Die) : (s.setDie c x).agenda = s.agenda := rfl
@[simp] theorem cur_setDie (s : State) (c : Nat) (x : Die) : (s.setDie c x).cur = s.cur := rfl
@[simp] theorem free_setDie (s : State) (c : Nat) (x : Die) : (s.setDie c x).free = s.free := rfl
@[simp] theorem clock_setDie (s : State) (c : Nat) (x : Die) : (s.setDie c x).clock = s.clock := rfl
@[simp] theorem nextTid_setDie (s : State) (c : Nat) (x : Die) : (s.setDie c x).nextTid = s.nextTid := rfl
@[simp] theorem ticks_setDie (s : State) (c : Nat) (x : Die) : (s.setDie c x).ticks = s.ticks := rfl
@[simp] theorem pins_setDie (s : State) (c : Nat) (x : Die) : (s.setDie c x).pins = s.pins := rfl
@[simp] theorem sources_setDie (s : State) (c : Nat) (x : Die) : (s.setDie c x).sources = s.sources := rfl
@[simp] theorem reruns_setDie (s : State) (c : Nat) (x : Die) : (s.setDie c x).reruns = s.reruns := rfl
@[simp] theorem orphans_setDie (s : State) (c : Nat) (x : Die) : (s.setDie c x).orphans = s.orphans := rfl

/-! ### setPkg -/

@[simp] theorem mem_setPkg (s : State) (c : Nat) (x : Pkg) : (s.setPkg c x).mem = s.mem := rfl
@[simp] theorem poison_setPkg (s : State) (c : Nat) (x : Pkg) : (s.setPkg c x).poison = s.poison := rfl
@[simp] theorem ctxs_setPkg (s : State) (c : Nat) (x : Pkg) : (s.setPkg c x).ctxs = s.ctxs := rfl
@[simp] theorem cores_setPkg (s : State) (c : Nat) (x : Pkg) : (s.setPkg c x).cores = s.cores := rfl
@[simp] theorem dies_setPkg (s : State) (c : Nat) (x : Pkg) : (s.setPkg c x).dies = s.dies := rfl
@[simp] theorem tlb_setPkg (s : State) (c : Nat) (x : Pkg) : (s.setPkg c x).tlb = s.tlb := rfl
@[simp] theorem spt_setPkg (s : State) (c : Nat) (x : Pkg) : (s.setPkg c x).spt = s.spt := rfl
@[simp] theorem posted_setPkg (s : State) (c : Nat) (x : Pkg) : (s.setPkg c x).posted = s.posted := rfl
@[simp] theorem nextPosted_setPkg (s : State) (c : Nat) (x : Pkg) : (s.setPkg c x).nextPosted = s.nextPosted := rfl
@[simp] theorem episodes_setPkg (s : State) (c : Nat) (x : Pkg) : (s.setPkg c x).episodes = s.episodes := rfl
@[simp] theorem nextEpisode_setPkg (s : State) (c : Nat) (x : Pkg) : (s.setPkg c x).nextEpisode = s.nextEpisode := rfl
@[simp] theorem parked_setPkg (s : State) (c : Nat) (x : Pkg) : (s.setPkg c x).parked = s.parked := rfl
@[simp] theorem chans_setPkg (s : State) (c : Nat) (x : Pkg) : (s.setPkg c x).chans = s.chans := rfl
@[simp] theorem agenda_setPkg (s : State) (c : Nat) (x : Pkg) : (s.setPkg c x).agenda = s.agenda := rfl
@[simp] theorem cur_setPkg (s : State) (c : Nat) (x : Pkg) : (s.setPkg c x).cur = s.cur := rfl
@[simp] theorem free_setPkg (s : State) (c : Nat) (x : Pkg) : (s.setPkg c x).free = s.free := rfl
@[simp] theorem clock_setPkg (s : State) (c : Nat) (x : Pkg) : (s.setPkg c x).clock = s.clock := rfl
@[simp] theorem nextTid_setPkg (s : State) (c : Nat) (x : Pkg) : (s.setPkg c x).nextTid = s.nextTid := rfl
@[simp] theorem ticks_setPkg (s : State) (c : Nat) (x : Pkg) : (s.setPkg c x).ticks = s.ticks := rfl
@[simp] theorem pins_setPkg (s : State) (c : Nat) (x : Pkg) : (s.setPkg c x).pins = s.pins := rfl
@[simp] theorem sources_setPkg (s : State) (c : Nat) (x : Pkg) : (s.setPkg c x).sources = s.sources := rfl
@[simp] theorem reruns_setPkg (s : State) (c : Nat) (x : Pkg) : (s.setPkg c x).reruns = s.reruns := rfl
@[simp] theorem orphans_setPkg (s : State) (c : Nat) (x : Pkg) : (s.setPkg c x).orphans = s.orphans := rfl

/-! ### setChan -/

@[simp] theorem mem_setChan (s : State) (c : BitVec 4) (x : Channel) : (s.setChan c x).mem = s.mem := rfl
@[simp] theorem poison_setChan (s : State) (c : BitVec 4) (x : Channel) : (s.setChan c x).poison = s.poison := rfl
@[simp] theorem ctxs_setChan (s : State) (c : BitVec 4) (x : Channel) : (s.setChan c x).ctxs = s.ctxs := rfl
@[simp] theorem cores_setChan (s : State) (c : BitVec 4) (x : Channel) : (s.setChan c x).cores = s.cores := rfl
@[simp] theorem dies_setChan (s : State) (c : BitVec 4) (x : Channel) : (s.setChan c x).dies = s.dies := rfl
@[simp] theorem pkgs_setChan (s : State) (c : BitVec 4) (x : Channel) : (s.setChan c x).pkgs = s.pkgs := rfl
@[simp] theorem tlb_setChan (s : State) (c : BitVec 4) (x : Channel) : (s.setChan c x).tlb = s.tlb := rfl
@[simp] theorem spt_setChan (s : State) (c : BitVec 4) (x : Channel) : (s.setChan c x).spt = s.spt := rfl
@[simp] theorem posted_setChan (s : State) (c : BitVec 4) (x : Channel) : (s.setChan c x).posted = s.posted := rfl
@[simp] theorem nextPosted_setChan (s : State) (c : BitVec 4) (x : Channel) : (s.setChan c x).nextPosted = s.nextPosted := rfl
@[simp] theorem episodes_setChan (s : State) (c : BitVec 4) (x : Channel) : (s.setChan c x).episodes = s.episodes := rfl
@[simp] theorem nextEpisode_setChan (s : State) (c : BitVec 4) (x : Channel) : (s.setChan c x).nextEpisode = s.nextEpisode := rfl
@[simp] theorem parked_setChan (s : State) (c : BitVec 4) (x : Channel) : (s.setChan c x).parked = s.parked := rfl
@[simp] theorem agenda_setChan (s : State) (c : BitVec 4) (x : Channel) : (s.setChan c x).agenda = s.agenda := rfl
@[simp] theorem cur_setChan (s : State) (c : BitVec 4) (x : Channel) : (s.setChan c x).cur = s.cur := rfl
@[simp] theorem free_setChan (s : State) (c : BitVec 4) (x : Channel) : (s.setChan c x).free = s.free := rfl
@[simp] theorem clock_setChan (s : State) (c : BitVec 4) (x : Channel) : (s.setChan c x).clock = s.clock := rfl
@[simp] theorem nextTid_setChan (s : State) (c : BitVec 4) (x : Channel) : (s.setChan c x).nextTid = s.nextTid := rfl
@[simp] theorem ticks_setChan (s : State) (c : BitVec 4) (x : Channel) : (s.setChan c x).ticks = s.ticks := rfl
@[simp] theorem pins_setChan (s : State) (c : BitVec 4) (x : Channel) : (s.setChan c x).pins = s.pins := rfl
@[simp] theorem sources_setChan (s : State) (c : BitVec 4) (x : Channel) : (s.setChan c x).sources = s.sources := rfl
@[simp] theorem reruns_setChan (s : State) (c : BitVec 4) (x : Channel) : (s.setChan c x).reruns = s.reruns := rfl
@[simp] theorem orphans_setChan (s : State) (c : BitVec 4) (x : Channel) : (s.setChan c x).orphans = s.orphans := rfl

/-! ### setMe -/

@[simp] theorem mem_setMe (s : State) (x : Ctx) : (s.setMe x).mem = s.mem := rfl
@[simp] theorem poison_setMe (s : State) (x : Ctx) : (s.setMe x).poison = s.poison := rfl
@[simp] theorem cores_setMe (s : State) (x : Ctx) : (s.setMe x).cores = s.cores := rfl
@[simp] theorem dies_setMe (s : State) (x : Ctx) : (s.setMe x).dies = s.dies := rfl
@[simp] theorem pkgs_setMe (s : State) (x : Ctx) : (s.setMe x).pkgs = s.pkgs := rfl
@[simp] theorem tlb_setMe (s : State) (x : Ctx) : (s.setMe x).tlb = s.tlb := rfl
@[simp] theorem spt_setMe (s : State) (x : Ctx) : (s.setMe x).spt = s.spt := rfl
@[simp] theorem posted_setMe (s : State) (x : Ctx) : (s.setMe x).posted = s.posted := rfl
@[simp] theorem nextPosted_setMe (s : State) (x : Ctx) : (s.setMe x).nextPosted = s.nextPosted := rfl
@[simp] theorem episodes_setMe (s : State) (x : Ctx) : (s.setMe x).episodes = s.episodes := rfl
@[simp] theorem nextEpisode_setMe (s : State) (x : Ctx) : (s.setMe x).nextEpisode = s.nextEpisode := rfl
@[simp] theorem parked_setMe (s : State) (x : Ctx) : (s.setMe x).parked = s.parked := rfl
@[simp] theorem chans_setMe (s : State) (x : Ctx) : (s.setMe x).chans = s.chans := rfl
@[simp] theorem agenda_setMe (s : State) (x : Ctx) : (s.setMe x).agenda = s.agenda := rfl
@[simp] theorem cur_setMe (s : State) (x : Ctx) : (s.setMe x).cur = s.cur := rfl
@[simp] theorem free_setMe (s : State) (x : Ctx) : (s.setMe x).free = s.free := rfl
@[simp] theorem clock_setMe (s : State) (x : Ctx) : (s.setMe x).clock = s.clock := rfl
@[simp] theorem nextTid_setMe (s : State) (x : Ctx) : (s.setMe x).nextTid = s.nextTid := rfl
@[simp] theorem ticks_setMe (s : State) (x : Ctx) : (s.setMe x).ticks = s.ticks := rfl
@[simp] theorem pins_setMe (s : State) (x : Ctx) : (s.setMe x).pins = s.pins := rfl
@[simp] theorem sources_setMe (s : State) (x : Ctx) : (s.setMe x).sources = s.sources := rfl
@[simp] theorem reruns_setMe (s : State) (x : Ctx) : (s.setMe x).reruns = s.reruns := rfl
@[simp] theorem orphans_setMe (s : State) (x : Ctx) : (s.setMe x).orphans = s.orphans := rfl

@[simp] theorem ctx_setCore (s : State) (c : Nat) (x : Core) (j : Nat) : (s.setCore c x).ctx j = s.ctx j := rfl
@[simp] theorem ctx_setDie (s : State) (c : Nat) (x : Die) (j : Nat) : (s.setDie c x).ctx j = s.ctx j := rfl
@[simp] theorem ctx_setPkg (s : State) (c : Nat) (x : Pkg) (j : Nat) : (s.setPkg c x).ctx j = s.ctx j := rfl
@[simp] theorem ctx_setChan (s : State) (c : BitVec 4) (x : Channel) (j : Nat) : (s.setChan c x).ctx j = s.ctx j := rfl
@[simp] theorem core_setCtx (s : State) (c : Nat) (x : Ctx) (j : Nat) : (s.setCtx c x).core j = s.core j := rfl
@[simp] theorem core_setDie (s : State) (c : Nat) (x : Die) (j : Nat) : (s.setDie c x).core j = s.core j := rfl
@[simp] theorem core_setPkg (s : State) (c : Nat) (x : Pkg) (j : Nat) : (s.setPkg c x).core j = s.core j := rfl
@[simp] theorem core_setChan (s : State) (c : BitVec 4) (x : Channel) (j : Nat) : (s.setChan c x).core j = s.core j := rfl
@[simp] theorem core_setMe (s : State) (x : Ctx) (j : Nat) : (s.setMe x).core j = s.core j := rfl
@[simp] theorem die_setCtx (s : State) (c : Nat) (x : Ctx) (j : Nat) : (s.setCtx c x).die j = s.die j := rfl
@[simp] theorem die_setCore (s : State) (c : Nat) (x : Core) (j : Nat) : (s.setCore c x).die j = s.die j := rfl
@[simp] theorem die_setPkg (s : State) (c : Nat) (x : Pkg) (j : Nat) : (s.setPkg c x).die j = s.die j := rfl
@[simp] theorem die_setChan (s : State) (c : BitVec 4) (x : Channel) (j : Nat) : (s.setChan c x).die j = s.die j := rfl
@[simp] theorem die_setMe (s : State) (x : Ctx) (j : Nat) : (s.setMe x).die j = s.die j := rfl
@[simp] theorem pkg_setCtx (s : State) (c : Nat) (x : Ctx) (j : Nat) : (s.setCtx c x).pkg j = s.pkg j := rfl
@[simp] theorem pkg_setCore (s : State) (c : Nat) (x : Core) (j : Nat) : (s.setCore c x).pkg j = s.pkg j := rfl
@[simp] theorem pkg_setDie (s : State) (c : Nat) (x : Die) (j : Nat) : (s.setDie c x).pkg j = s.pkg j := rfl
@[simp] theorem pkg_setChan (s : State) (c : BitVec 4) (x : Channel) (j : Nat) : (s.setChan c x).pkg j = s.pkg j := rfl
@[simp] theorem pkg_setMe (s : State) (x : Ctx) (j : Nat) : (s.setMe x).pkg j = s.pkg j := rfl
@[simp] theorem chan_setCtx (s : State) (c : Nat) (x : Ctx) (j : BitVec 4) : (s.setCtx c x).chan j = s.chan j :=
  chan_congr (s := s.setCtx c x) (t := s) rfl rfl rfl j
@[simp] theorem chan_setCore (s : State) (c : Nat) (x : Core) (j : BitVec 4) : (s.setCore c x).chan j = s.chan j :=
  chan_congr (s := s.setCore c x) (t := s) rfl rfl rfl j
@[simp] theorem chan_setDie (s : State) (c : Nat) (x : Die) (j : BitVec 4) : (s.setDie c x).chan j = s.chan j :=
  chan_congr (s := s.setDie c x) (t := s) rfl rfl rfl j
@[simp] theorem chan_setMe (s : State) (x : Ctx) (j : BitVec 4) : (s.setMe x).chan j = s.chan j :=
  chan_congr (s := s.setMe x) (t := s) rfl rfl rfl j
@[simp] theorem me_setCore (s : State) (c : Nat) (x : Core) : (s.setCore c x).me = s.me := rfl
@[simp] theorem me_setDie (s : State) (c : Nat) (x : Die) : (s.setDie c x).me = s.me := rfl
@[simp] theorem me_setPkg (s : State) (c : Nat) (x : Pkg) : (s.setPkg c x).me = s.me := rfl
@[simp] theorem me_setChan (s : State) (c : BitVec 4) (x : Channel) : (s.setChan c x).me = s.me := rfl

/-! ## Updates of a context -/

@[simp] theorem advance_life (x : Ctx) : x.advance.life = x.life := rfl
@[simp] theorem advance_mode (x : Ctx) : x.advance.mode = x.mode := rfl
@[simp] theorem advance_s (x : Ctx) : x.advance.s = x.s := rfl
@[simp] theorem advance_v (x : Ctx) : x.advance.v = x.v := rfl
@[simp] theorem advance_tag (x : Ctx) : x.advance.tag = x.tag := rfl
@[simp] theorem advance_hdr (x : Ctx) : x.advance.hdr = x.hdr := rfl
@[simp] theorem advance_sup (x : Ctx) : x.advance.sup = x.sup := rfl
@[simp] theorem advance_m (x : Ctx) : x.advance.m = x.m := rfl
@[simp] theorem advance_held (x : Ctx) : x.advance.held = x.held := rfl
@[simp] theorem advance_ceil (x : Ctx) : x.advance.ceil = x.ceil := rfl
@[simp] theorem advance_vl (x : Ctx) : x.advance.vl = x.vl := rfl
@[simp] theorem advance_vcfg (x : Ctx) : x.advance.vcfg = x.vcfg := rfl
@[simp] theorem advance_vstart (x : Ctx) : x.advance.vstart = x.vstart := rfl
@[simp] theorem advance_vfm (x : Ctx) : x.advance.vfm = x.vfm := rfl
@[simp] theorem advance_mfmt (x : Ctx) : x.advance.mfmt = x.mfmt := rfl
@[simp] theorem advance_fflags (x : Ctx) : x.advance.fflags = x.fflags := rfl
@[simp] theorem advance_rptpos (x : Ctx) : x.advance.rptpos = x.rptpos := rfl
@[simp] theorem advance_paths (x : Ctx) : x.advance.paths = x.paths := rfl
@[simp] theorem advance_budget (x : Ctx) : x.advance.budget = x.budget := rfl
@[simp] theorem advance_sptroot (x : Ctx) : x.advance.sptroot = x.sptroot := rfl
@[simp] theorem advance_tvec (x : Ctx) : x.advance.tvec = x.tvec := rfl
@[simp] theorem advance_svcfg (x : Ctx) : x.advance.svcfg = x.svcfg := rfl
@[simp] theorem advance_svl (x : Ctx) : x.advance.svl = x.svl := rfl
@[simp] theorem advance_forced (x : Ctx) : x.advance.forced = x.forced := rfl
@[simp] theorem advance_abandon (x : Ctx) : x.advance.abandon = x.abandon := rfl
@[simp] theorem advance_tepc (x : Ctx) : x.advance.tepc = x.tepc := rfl
@[simp] theorem advance_async (x : Ctx) : x.advance.async = x.async := rfl
@[simp] theorem advance_cause (x : Ctx) : x.advance.cause = x.cause := rfl
@[simp] theorem advance_tinfo (x : Ctx) : x.advance.tinfo = x.tinfo := rfl
@[simp] theorem advance_tscratch (x : Ctx) : x.advance.tscratch = x.tscratch := rfl
@[simp] theorem advance_record (x : Ctx) : x.advance.record = x.record := rfl
@[simp] theorem advance_ctrl (x : Ctx) : x.advance.ctrl = x.ctrl := rfl
@[simp] theorem advance_parent (x : Ctx) : x.advance.parent = x.parent := rfl
@[simp] theorem advance_budget0 (x : Ctx) : x.advance.budget0 = x.budget0 := rfl
@[simp] theorem advance_seq (x : Ctx) : x.advance.seq = x.seq := rfl
@[simp] theorem advance_home (x : Ctx) : x.advance.home = x.home := rfl
@[simp] theorem advance_area (x : Ctx) : x.advance.area = x.area := rfl
@[simp] theorem advance_tid (x : Ctx) : x.advance.tid = x.tid := rfl
@[simp] theorem advance_pending (x : Ctx) : x.advance.pending = x.pending := rfl
@[simp] theorem advance_lost (x : Ctx) : x.advance.lost = x.lost := rfl
@[simp] theorem advance_due (x : Ctx) : x.advance.due = x.due := rfl
@[simp] theorem advance_switch (x : Ctx) : x.advance.switch = x.switch := rfl
@[simp] theorem advance_lowered (x : Ctx) : x.advance.lowered = x.lowered := rfl
@[simp] theorem advance_cut (x : Ctx) : x.advance.cut = x.cut := rfl
@[simp] theorem advance_stopInfo (x : Ctx) : x.advance.stopInfo = x.stopInfo := rfl
@[simp] theorem advance_waited (x : Ctx) : x.advance.waited = x.waited := rfl
@[simp] theorem advance_vdone (x : Ctx) : x.advance.vdone = x.vdone := rfl
@[simp] theorem advance_rpt (x : Ctx) : x.advance.rpt = x.rpt := rfl
@[simp] theorem advance_ending (x : Ctx) : x.advance.ending = x.ending := rfl
@[simp] theorem advance_looping (x : Ctx) : x.advance.looping = x.looping := rfl
@[simp] theorem advance_cmds (x : Ctx) : x.advance.cmds = x.cmds := rfl
@[simp] theorem advance_chans (x : Ctx) : x.advance.chans = x.chans := rfl
@[simp] theorem advance_vstores (x : Ctx) : x.advance.vstores = x.vstores := rfl
@[simp] theorem advance_delayed (x : Ctx) : x.advance.delayed = x.delayed := rfl
@[simp] theorem advance_drained (x : Ctx) : x.advance.drained = x.drained := rfl
@[simp] theorem advance_late (x : Ctx) : x.advance.late = x.late := rfl
@[simp] theorem advance_vAfter (x : Ctx) : x.advance.vAfter = x.vAfter := rfl
@[simp] theorem advance_sAfter (x : Ctx) : x.advance.sAfter = x.sAfter := rfl
@[simp] theorem advance_fences (x : Ctx) : x.advance.fences = x.fences := rfl
@[simp] theorem advance_quota (x : Ctx) : x.advance.quota = x.quota := rfl
@[simp] theorem advance_adone (x : Ctx) : x.advance.adone = x.adone := rfl
@[simp] theorem advance_busy (x : Ctx) : x.advance.busy = false := rfl
@[simp] theorem advance_prefetched (x : Ctx) : x.advance.prefetched = x.prefetched := rfl
@[simp] theorem advance_hbar (x : Ctx) : x.advance.hbar = x.hbar := rfl
@[simp] theorem advance_pc (x : Ctx) : x.advance.pc = nextPc x.pc 1 := rfl
@[simp] theorem advance_stall (x : Ctx) : x.advance.stall = [] := rfl

@[simp] theorem setReg_life (x : Ctx) (r : BitVec 5) (v : Word) : (x.setReg r v).life = x.life := by unfold Ctx.setReg; split <;> rfl
@[simp] theorem setReg_mode (x : Ctx) (r : BitVec 5) (v : Word) : (x.setReg r v).mode = x.mode := by unfold Ctx.setReg; split <;> rfl
@[simp] theorem setReg_pc (x : Ctx) (r : BitVec 5) (v : Word) : (x.setReg r v).pc = x.pc := by unfold Ctx.setReg; split <;> rfl
@[simp] theorem setReg_v (x : Ctx) (r : BitVec 5) (v : Word) : (x.setReg r v).v = x.v := by unfold Ctx.setReg; split <;> rfl
@[simp] theorem setReg_tag (x : Ctx) (r : BitVec 5) (v : Word) : (x.setReg r v).tag = x.tag := by unfold Ctx.setReg; split <;> rfl
@[simp] theorem setReg_hdr (x : Ctx) (r : BitVec 5) (v : Word) : (x.setReg r v).hdr = x.hdr := by unfold Ctx.setReg; split <;> rfl
@[simp] theorem setReg_sup (x : Ctx) (r : BitVec 5) (v : Word) : (x.setReg r v).sup = x.sup := by unfold Ctx.setReg; split <;> rfl
@[simp] theorem setReg_m (x : Ctx) (r : BitVec 5) (v : Word) : (x.setReg r v).m = x.m := by unfold Ctx.setReg; split <;> rfl
@[simp] theorem setReg_held (x : Ctx) (r : BitVec 5) (v : Word) : (x.setReg r v).held = x.held := by unfold Ctx.setReg; split <;> rfl
@[simp] theorem setReg_ceil (x : Ctx) (r : BitVec 5) (v : Word) : (x.setReg r v).ceil = x.ceil := by unfold Ctx.setReg; split <;> rfl
@[simp] theorem setReg_vl (x : Ctx) (r : BitVec 5) (v : Word) : (x.setReg r v).vl = x.vl := by unfold Ctx.setReg; split <;> rfl
@[simp] theorem setReg_vcfg (x : Ctx) (r : BitVec 5) (v : Word) : (x.setReg r v).vcfg = x.vcfg := by unfold Ctx.setReg; split <;> rfl
@[simp] theorem setReg_vstart (x : Ctx) (r : BitVec 5) (v : Word) : (x.setReg r v).vstart = x.vstart := by unfold Ctx.setReg; split <;> rfl
@[simp] theorem setReg_vfm (x : Ctx) (r : BitVec 5) (v : Word) : (x.setReg r v).vfm = x.vfm := by unfold Ctx.setReg; split <;> rfl
@[simp] theorem setReg_mfmt (x : Ctx) (r : BitVec 5) (v : Word) : (x.setReg r v).mfmt = x.mfmt := by unfold Ctx.setReg; split <;> rfl
@[simp] theorem setReg_fflags (x : Ctx) (r : BitVec 5) (v : Word) : (x.setReg r v).fflags = x.fflags := by unfold Ctx.setReg; split <;> rfl
@[simp] theorem setReg_rptpos (x : Ctx) (r : BitVec 5) (v : Word) : (x.setReg r v).rptpos = x.rptpos := by unfold Ctx.setReg; split <;> rfl
@[simp] theorem setReg_paths (x : Ctx) (r : BitVec 5) (v : Word) : (x.setReg r v).paths = x.paths := by unfold Ctx.setReg; split <;> rfl
@[simp] theorem setReg_budget (x : Ctx) (r : BitVec 5) (v : Word) : (x.setReg r v).budget = x.budget := by unfold Ctx.setReg; split <;> rfl
@[simp] theorem setReg_sptroot (x : Ctx) (r : BitVec 5) (v : Word) : (x.setReg r v).sptroot = x.sptroot := by unfold Ctx.setReg; split <;> rfl
@[simp] theorem setReg_tvec (x : Ctx) (r : BitVec 5) (v : Word) : (x.setReg r v).tvec = x.tvec := by unfold Ctx.setReg; split <;> rfl
@[simp] theorem setReg_svcfg (x : Ctx) (r : BitVec 5) (v : Word) : (x.setReg r v).svcfg = x.svcfg := by unfold Ctx.setReg; split <;> rfl
@[simp] theorem setReg_svl (x : Ctx) (r : BitVec 5) (v : Word) : (x.setReg r v).svl = x.svl := by unfold Ctx.setReg; split <;> rfl
@[simp] theorem setReg_forced (x : Ctx) (r : BitVec 5) (v : Word) : (x.setReg r v).forced = x.forced := by unfold Ctx.setReg; split <;> rfl
@[simp] theorem setReg_abandon (x : Ctx) (r : BitVec 5) (v : Word) : (x.setReg r v).abandon = x.abandon := by unfold Ctx.setReg; split <;> rfl
@[simp] theorem setReg_tepc (x : Ctx) (r : BitVec 5) (v : Word) : (x.setReg r v).tepc = x.tepc := by unfold Ctx.setReg; split <;> rfl
@[simp] theorem setReg_async (x : Ctx) (r : BitVec 5) (v : Word) : (x.setReg r v).async = x.async := by unfold Ctx.setReg; split <;> rfl
@[simp] theorem setReg_cause (x : Ctx) (r : BitVec 5) (v : Word) : (x.setReg r v).cause = x.cause := by unfold Ctx.setReg; split <;> rfl
@[simp] theorem setReg_tinfo (x : Ctx) (r : BitVec 5) (v : Word) : (x.setReg r v).tinfo = x.tinfo := by unfold Ctx.setReg; split <;> rfl
@[simp] theorem setReg_tscratch (x : Ctx) (r : BitVec 5) (v : Word) : (x.setReg r v).tscratch = x.tscratch := by unfold Ctx.setReg; split <;> rfl
@[simp] theorem setReg_record (x : Ctx) (r : BitVec 5) (v : Word) : (x.setReg r v).record = x.record := by unfold Ctx.setReg; split <;> rfl
@[simp] theorem setReg_ctrl (x : Ctx) (r : BitVec 5) (v : Word) : (x.setReg r v).ctrl = x.ctrl := by unfold Ctx.setReg; split <;> rfl
@[simp] theorem setReg_parent (x : Ctx) (r : BitVec 5) (v : Word) : (x.setReg r v).parent = x.parent := by unfold Ctx.setReg; split <;> rfl
@[simp] theorem setReg_budget0 (x : Ctx) (r : BitVec 5) (v : Word) : (x.setReg r v).budget0 = x.budget0 := by unfold Ctx.setReg; split <;> rfl
@[simp] theorem setReg_seq (x : Ctx) (r : BitVec 5) (v : Word) : (x.setReg r v).seq = x.seq := by unfold Ctx.setReg; split <;> rfl
@[simp] theorem setReg_home (x : Ctx) (r : BitVec 5) (v : Word) : (x.setReg r v).home = x.home := by unfold Ctx.setReg; split <;> rfl
@[simp] theorem setReg_area (x : Ctx) (r : BitVec 5) (v : Word) : (x.setReg r v).area = x.area := by unfold Ctx.setReg; split <;> rfl
@[simp] theorem setReg_tid (x : Ctx) (r : BitVec 5) (v : Word) : (x.setReg r v).tid = x.tid := by unfold Ctx.setReg; split <;> rfl
@[simp] theorem setReg_pending (x : Ctx) (r : BitVec 5) (v : Word) : (x.setReg r v).pending = x.pending := by unfold Ctx.setReg; split <;> rfl
@[simp] theorem setReg_lost (x : Ctx) (r : BitVec 5) (v : Word) : (x.setReg r v).lost = x.lost := by unfold Ctx.setReg; split <;> rfl
@[simp] theorem setReg_due (x : Ctx) (r : BitVec 5) (v : Word) : (x.setReg r v).due = x.due := by unfold Ctx.setReg; split <;> rfl
@[simp] theorem setReg_switch (x : Ctx) (r : BitVec 5) (v : Word) : (x.setReg r v).switch = x.switch := by unfold Ctx.setReg; split <;> rfl
@[simp] theorem setReg_lowered (x : Ctx) (r : BitVec 5) (v : Word) : (x.setReg r v).lowered = x.lowered := by unfold Ctx.setReg; split <;> rfl
@[simp] theorem setReg_cut (x : Ctx) (r : BitVec 5) (v : Word) : (x.setReg r v).cut = x.cut := by unfold Ctx.setReg; split <;> rfl
@[simp] theorem setReg_stopInfo (x : Ctx) (r : BitVec 5) (v : Word) : (x.setReg r v).stopInfo = x.stopInfo := by unfold Ctx.setReg; split <;> rfl
@[simp] theorem setReg_waited (x : Ctx) (r : BitVec 5) (v : Word) : (x.setReg r v).waited = x.waited := by unfold Ctx.setReg; split <;> rfl
@[simp] theorem setReg_vdone (x : Ctx) (r : BitVec 5) (v : Word) : (x.setReg r v).vdone = x.vdone := by unfold Ctx.setReg; split <;> rfl
@[simp] theorem setReg_stall (x : Ctx) (r : BitVec 5) (v : Word) : (x.setReg r v).stall = x.stall := by unfold Ctx.setReg; split <;> rfl
@[simp] theorem setReg_rpt (x : Ctx) (r : BitVec 5) (v : Word) : (x.setReg r v).rpt = x.rpt := by unfold Ctx.setReg; split <;> rfl
@[simp] theorem setReg_ending (x : Ctx) (r : BitVec 5) (v : Word) : (x.setReg r v).ending = x.ending := by unfold Ctx.setReg; split <;> rfl
@[simp] theorem setReg_looping (x : Ctx) (r : BitVec 5) (v : Word) : (x.setReg r v).looping = x.looping := by unfold Ctx.setReg; split <;> rfl
@[simp] theorem setReg_cmds (x : Ctx) (r : BitVec 5) (v : Word) : (x.setReg r v).cmds = x.cmds := by unfold Ctx.setReg; split <;> rfl
@[simp] theorem setReg_chans (x : Ctx) (r : BitVec 5) (v : Word) : (x.setReg r v).chans = x.chans := by unfold Ctx.setReg; split <;> rfl
@[simp] theorem setReg_vstores (x : Ctx) (r : BitVec 5) (v : Word) : (x.setReg r v).vstores = x.vstores := by unfold Ctx.setReg; split <;> rfl
@[simp] theorem setReg_delayed (x : Ctx) (r : BitVec 5) (v : Word) : (x.setReg r v).delayed = x.delayed := by unfold Ctx.setReg; split <;> rfl
@[simp] theorem setReg_drained (x : Ctx) (r : BitVec 5) (v : Word) : (x.setReg r v).drained = x.drained := by unfold Ctx.setReg; split <;> rfl
@[simp] theorem setReg_late (x : Ctx) (r : BitVec 5) (v : Word) : (x.setReg r v).late = x.late := by unfold Ctx.setReg; split <;> rfl
@[simp] theorem setReg_vAfter (x : Ctx) (r : BitVec 5) (v : Word) : (x.setReg r v).vAfter = x.vAfter := by unfold Ctx.setReg; split <;> rfl
@[simp] theorem setReg_sAfter (x : Ctx) (r : BitVec 5) (v : Word) : (x.setReg r v).sAfter = x.sAfter := by unfold Ctx.setReg; split <;> rfl
@[simp] theorem setReg_fences (x : Ctx) (r : BitVec 5) (v : Word) : (x.setReg r v).fences = x.fences := by unfold Ctx.setReg; split <;> rfl
@[simp] theorem setReg_quota (x : Ctx) (r : BitVec 5) (v : Word) : (x.setReg r v).quota = x.quota := by unfold Ctx.setReg; split <;> rfl
@[simp] theorem setReg_adone (x : Ctx) (r : BitVec 5) (v : Word) : (x.setReg r v).adone = x.adone := by unfold Ctx.setReg; split <;> rfl
@[simp] theorem setReg_busy (x : Ctx) (r : BitVec 5) (v : Word) : (x.setReg r v).busy = x.busy := by unfold Ctx.setReg; split <;> rfl
@[simp] theorem setReg_prefetched (x : Ctx) (r : BitVec 5) (v : Word) : (x.setReg r v).prefetched = x.prefetched := by unfold Ctx.setReg; split <;> rfl
@[simp] theorem setReg_hbar (x : Ctx) (r : BitVec 5) (v : Word) : (x.setReg r v).hbar = x.hbar := by unfold Ctx.setReg; split <;> rfl

/-- s0 reads as zero (R49). -/
@[simp] theorem reg_zero (x : Ctx) : x.reg 0#5 = 0#64 := rfl

/-- A write of s0 is discarded (R49). -/
@[simp] theorem setReg_zero (x : Ctx) (v : Word) : x.setReg 0#5 v = x := rfl

theorem reg_setReg_same (x : Ctx) (r : BitVec 5) (v : Word) (h : r ≠ 0#5) : (x.setReg r v).reg r = v := by
  simp [Ctx.reg, Ctx.setReg, h]

theorem reg_setReg_other (x : Ctx) (r q : BitVec 5) (v : Word) (h : q ≠ r) : (x.setReg r v).reg q = x.reg q := by
  by_cases hr : r = 0#5
  · simp [Ctx.setReg, hr]
  · simp [Ctx.reg, Ctx.setReg, hr, regGet_regSet_other _ _ _ _ h]

@[simp] theorem reg_advance (x : Ctx) (r : BitVec 5) : x.advance.reg r = x.reg r := rfl

end Sys2Proof.Machine
end

