-- ==== Sys2Proof/Laws/Memory.lean ====
section
/-! SUPPORT. Memory as bytes: a read after a write, and that every operation on memory keeps its canonical form. -/

namespace Sys2Proof.Machine

/-! ## A read after a write -/

theorem memByte_memInsert (m : List Host.Cell) (a c : Nat) (b : Byte) :
    memByte (memInsert m a b) c = if c = a then b else memByte m c := by
  fun_induction memInsert m a b <;> grind [memByte]

theorem memByte_filter (m : List Host.Cell) (p : Nat → Bool) (c : Nat) :
    memByte (m.filter fun e => p e.1) c = if p c then memByte m c else 0#8 := by
  induction m <;> grind [memByte]

/-- A byte written is read back, and every other byte reads as before. -/
theorem memByte_memSet (m : List Host.Cell) (a c : Nat) (b : Byte) :
    memByte (memSet m a b) c = if c = a then b else memByte m c := by
  by_cases hb : b = 0#8
  · subst hb
    have := memByte_filter m (fun k => k != a) c
    by_cases h : c = a <;> simp_all [memSet]
  · simp [memSet, hb, memByte_memInsert]

@[simp] theorem memByte_memSet_same (m : List Host.Cell) (a : Nat) (b : Byte) : memByte (memSet m a b) a = b := by
  simp [memByte_memSet]

theorem memByte_memSet_other (m : List Host.Cell) (a c : Nat) (b : Byte) (h : c ≠ a) :
    memByte (memSet m a b) c = memByte m c := by
  simp [memByte_memSet, h]

/-- Consecutive bytes written: within them the byte at its place, outside as before. -/
theorem memByte_memPut (m : List Host.Cell) (a c : Nat) (bs : List Byte) :
    memByte (memPut m a bs) c = if h : a ≤ c ∧ c < a + bs.length then bs[c - a]'(by omega) else memByte m c := by
  induction bs generalizing m a with
  | nil => simp [memPut]
  | cons b bs ih =>
    simp only [memPut, ih, List.length_cons]
    by_cases h : a + 1 ≤ c ∧ c < a + 1 + bs.length
    · have h' : a ≤ c ∧ c < a + (bs.length + 1) := by omega
      have e : c - a = (c - (a + 1)) + 1 := by omega
      simp only [h, h', and_self, dite_true, e, List.getElem_cons_succ]
    · by_cases hc : c = a
      · subst hc; simp
      · have h' : ¬(a ≤ c ∧ c < a + (bs.length + 1)) := by omega
        rw [dif_neg h, dif_neg h', memByte_memSet_other _ _ _ _ hc]

/-! ## The canonical form -/

/-- A lower bound may be lowered. -/
theorem memWfFrom_mono {m : List Host.Cell} {lo hi : Nat} (h : memWfFrom hi m = true) (hl : lo ≤ hi) :
    memWfFrom lo m = true := by
  cases m <;> grind [memWfFrom]

/-- Leaving out entries keeps the form. -/
theorem memWfFrom_filter (p : Host.Cell → Bool) {m : List Host.Cell} {lo : Nat} (h : memWfFrom lo m = true) :
    memWfFrom lo (m.filter p) = true := by
  induction m generalizing lo <;> grind [memWfFrom, memWfFrom_mono]

/-- Listing a byte that is not zero keeps the form. -/
theorem memWfFrom_memInsert {m : List Host.Cell} {lo a : Nat} {b : Byte} (h : memWfFrom lo m = true) (hb : b ≠ 0#8)
    (ha : lo ≤ a) : memWfFrom lo (memInsert m a b) = true := by
  induction m generalizing lo <;> grind [memWfFrom, memInsert]

theorem Memory.wf_filter (p : Host.Cell → Bool) {m : List Host.Cell} (h : Memory.wf m = true) :
    Memory.wf (m.filter p) = true := memWfFrom_filter p h

theorem Memory.wf_memSet {m : List Host.Cell} (a : Nat) (b : Byte) (h : Memory.wf m = true) :
    Memory.wf (memSet m a b) = true := by
  unfold memSet
  split
  · exact Memory.wf_filter _ h
  · exact memWfFrom_memInsert h ‹_› (Nat.zero_le _)

theorem Memory.wf_memPut {m : List Host.Cell} (a : Nat) (bs : List Byte) (h : Memory.wf m = true) :
    Memory.wf (memPut m a bs) = true := by
  induction bs generalizing m a with
  | nil => exact h
  | cons b bs ih => exact ih _ (Memory.wf_memSet a b h)

/-- Reset memory is canonical. -/
theorem Memory.wf_reset : Memory.wf State.reset.mem = true := rfl

/-! ## Places -/

@[simp] theorem State.mapSaved_mem (s : State) (f : List (Loc × Byte) → List (Loc × Byte)) : (s.mapSaved f).mem = s.mem := rfl

@[simp] theorem State.remember_mem (s : State) (l : Loc) : (s.remember l).mem = s.mem := by
  unfold State.remember; split <;> rfl

@[simp] theorem State.remember_cores (s : State) (l : Loc) : (s.remember l).cores = s.cores := by
  unfold State.remember; split <;> rfl

@[simp] theorem State.clearPoison_mem (s : State) (ls : List Loc) : (s.clearPoison ls).mem = s.mem := by
  unfold State.clearPoison; split <;> rfl

@[simp] theorem State.clearFrames_mem (s : State) (ls : List Loc) : (s.clearFrames ls).mem = s.mem := by
  unfold State.clearFrames; split <;> rfl

@[simp] theorem State.watchQueues_mem (s : State) (ls : List Loc) : (s.watchQueues ls).mem = s.mem := by
  unfold State.watchQueues; split <;> rfl

@[simp] theorem State.mapPins_mem (s : State) (c : Nat) (f : Pin → Pin) : (s.mapPins c f).mem = s.mem := by
  unfold State.mapPins; split <;> rfl

@[simp] theorem State.closePins_mem (s : State) (c : Nat) (l : List Stream) : (s.closePins c l).mem = s.mem := by
  simp [State.closePins]

@[simp] theorem State.forgetEntry_mem (s : State) (e : Nat) : (s.forgetEntry e).mem = s.mem := rfl

@[simp] theorem State.mapPlaces_mem (s : State) (f : {α : Type} → List (Loc × α) → List (Loc × α)) : (s.mapPlaces f).mem = s.mem := by
  unfold State.mapPlaces; dsimp only; split <;> split <;> rfl

@[simp] theorem State.pageLeaves_mem (s : State) (k i : Nat) (f : Frame) : (s.pageLeaves k i f).mem = s.mem := by
  unfold State.pageLeaves; split <;> simp

@[simp] theorem State.pageEnters_mem (s : State) (k i : Nat) (f : Frame) : (s.pageEnters k i f).mem = s.mem := by
  unfold State.pageEnters; split <;> simp

theorem Memory.wf_put {s : State} (l : Loc) (b : Byte) (h : Memory.wf s.mem = true) : Memory.wf (s.put l b).mem = true := by
  cases l with
  | phys a => exact Memory.wf_memSet a b h
  | frame k i o =>
    simp only [State.put]
    split <;> simpa [State.setCore] using h

theorem Memory.wf_setLoc {s : State} (l : Loc) (b : Byte) (h : Memory.wf s.mem = true) :
    Memory.wf (s.setLoc l b).mem = true := Memory.wf_put l b (by simpa using h)

theorem Memory.wf_setLocs {s : State} (w : List (Loc × Byte)) (h : Memory.wf s.mem = true) :
    Memory.wf (s.setLocs w).mem = true := by
  induction w generalizing s with
  | nil => exact h
  | cons e w ih => exact ih (Memory.wf_setLoc e.1 e.2 h)

theorem Memory.wf_storeLocs {s : State} (w : List (Loc × Byte)) (h : Memory.wf s.mem = true) :
    Memory.wf (s.storeLocs w).mem = true := by
  simpa [State.storeLocs] using Memory.wf_setLocs w h

theorem Memory.wf_writeLocs {s : State} (w : List (Loc × Byte)) (h : Memory.wf s.mem = true) :
    Memory.wf (s.writeLocs w).mem = true := by
  simpa [State.writeLocs] using Memory.wf_storeLocs w h

/-! ## Stores in flight -/

theorem Memory.wf_drainFrom {s : State} (q : List QStore) (n : Nat) (h : Memory.wf s.mem = true) :
    Memory.wf (drainFrom s q n).mem = true := by
  induction n generalizing s q with
  | zero => exact h
  | succ n ih =>
    cases q with
    | nil => exact h
    | cons x q =>
      simp only [drainFrom]
      refine ih _ ?_
      have key : Memory.wf (match (x :: q)[pickStore (x :: q) (Config.freeNat s.free)]? with
          | some y => s.setLocs y.bytes
          | none => s).mem = true := by
        split
        · exact Memory.wf_setLocs _ h
        · exact h
      split <;> exact key

theorem Memory.wf_drainFirst {s : State} (c n : Nat) (h : Memory.wf s.mem = true) :
    Memory.wf (s.drainFirst c n).mem = true := by
  unfold State.drainFirst
  dsimp only
  split
  · exact h
  · simpa using Memory.wf_drainFrom _ _ h

theorem Memory.wf_drain {s : State} (c : Nat) (h : Memory.wf s.mem = true) : Memory.wf (s.drain c).mem = true :=
  Memory.wf_drainFirst c _ h

theorem Memory.wf_drainOne {s : State} (c n : Nat) (h : Memory.wf s.mem = true) : Memory.wf (s.drainOne c n).mem = true := by
  unfold State.drainOne
  dsimp only
  split
  · split
    · exact h
    · simpa using Memory.wf_setLocs _ h
  · exact h

theorem Memory.wf_settleOne {s : State} (c : Nat) (h : Memory.wf s.mem = true) : Memory.wf (s.settleOne c).mem = true := by
  unfold State.settleOne
  dsimp only
  split
  · simpa using Memory.wf_writeLocs _ h
  · exact h

theorem Memory.wf_settleFirst {s : State} (c n : Nat) (h : Memory.wf s.mem = true) :
    Memory.wf (s.settleFirst c n).mem = true := by
  induction n generalizing s with
  | zero => exact h
  | succ n ih => exact ih (Memory.wf_settleOne c h)

theorem Memory.wf_settleStores {s : State} (c : Nat) (h : Memory.wf s.mem = true) :
    Memory.wf (s.settleStores c).mem = true := Memory.wf_settleFirst c _ h

theorem Memory.wf_storeNext {s : State} (c : Nat) (h : Memory.wf s.mem = true) : Memory.wf (s.storeNext c).mem = true := by
  unfold State.storeNext
  dsimp only
  split
  · split
    · exact Memory.wf_settleOne c h
    · exact Memory.wf_drainFirst c _ h
  · exact Memory.wf_drainFirst c _ h
  · exact Memory.wf_settleOne c h

theorem Memory.wf_storesInOrder {s : State} (c n : Nat) (h : Memory.wf s.mem = true) :
    Memory.wf (s.storesInOrder c n).mem = true := by
  induction n generalizing s with
  | zero => exact h
  | succ n ih => exact ih (Memory.wf_storeNext c h)

theorem Memory.wf_storesDone {s : State} (c : Nat) (h : Memory.wf s.mem = true) : Memory.wf (s.storesDone c).mem = true := by
  unfold State.storesDone
  dsimp only
  split
  · exact Memory.wf_drain c (Memory.wf_settleStores c h)
  · exact Memory.wf_drain c (Memory.wf_storesInOrder c _ h)

theorem Memory.wf_finishOlder {s : State} (c : Nat) (h : Memory.wf s.mem = true) :
    Memory.wf (s.finishOlder c).mem = true := by
  unfold State.finishOlder
  dsimp only
  split
  · exact Memory.wf_storesDone c h
  · simpa using Memory.wf_storesDone c h

theorem Memory.wf_putPhys {s t : State} {p base : Nat} {bs : List Byte} (h : Memory.wf s.mem = true)
    (e : putPhys s p base bs = .ok t) : Memory.wf t.mem = true := by
  unfold putPhys at e
  split at e
  · cases e
  · cases e; exact Memory.wf_storeLocs _ h

/-- A byte of memory written at a physical place is read back, and every other physical place reads as before. -/
theorem State.locByte_setLoc_phys (s : State) (a c : Nat) (b : Byte) :
    (s.setLoc (.phys a) b).locByte (.phys c) = if c = a then b else s.locByte (.phys c) := by
  simp [State.setLoc, State.put, State.locByte, memByte_memSet]

/-- A write to memory leaves every byte of every frame. -/
theorem State.locByte_setLoc_frame (s : State) (a k i o : Nat) (b : Byte) :
    (s.setLoc (.phys a) b).locByte (.frame k i o) = s.locByte (.frame k i o) := by
  simp [State.setLoc, State.put, State.locByte, State.core]

/-- With nothing in flight there is nothing to perform. -/
theorem State.storesDone_idle (s : State) (c : Nat) (h : (s.ctx c).noneInFlight = true) : s.storesDone c = s := by
  simp only [Ctx.noneInFlight, Bool.and_eq_true, List.isEmpty_iff] at h
  simp [State.storesDone, Ctx.scalarFirst, State.settleStores, State.settleFirst, State.drain, State.drainFirst, h]

/-- A context with nothing in flight and no fence pending is at the commit pointer as it is. -/
theorem State.finishOlder_idle (s : State) (c : Nat) (h : (s.ctx c).noneInFlight = true) (hf : (s.ctx c).fences = []) :
    s.finishOlder c = s := by
  simp [State.finishOlder, s.storesDone_idle c h, h, hf]

/-! ## What a meaning leaves

`Leaves P m` is a statement about every end of `m`: done, trapped or waiting. -/

/-- The state that a meaning leaves has a property. -/
def After {α : Type} (P : State → Prop) (s : State) (m : M α) : Prop := P (m.run s).2

/-- A meaning leaves the property wherever it holds. -/
def Leaves (P : State → Prop) {α : Type} (m : M α) : Prop := ∀ s, P s → After P s m

section
variable {P : State → Prop} {α β : Type}

/-- Two parts: the first leaves the property, and the second does from every state with it. -/
theorem Leaves.seq {m : M α} {f : α → M β} (first : Leaves P m) (second : ∀ a, Leaves P (f a)) : Leaves P (m >>= f) := by
  intro s hs
  have mid : P (m.run s).2 := first s hs
  unfold After
  rw [run_bind]
  generalize m.run s = r at mid
  obtain ⟨_ | a, t⟩ := r
  exacts [mid, second a t mid]

/-- A part that changes no state leaves every property. -/
theorem Leaves.still {m : M α} (h : ∀ s, (m.run s).2 = s) : Leaves P m := by
  intro s hs; unfold After; rwa [h s]

theorem Leaves.ret (a : α) : Leaves P (pure a : M α) := Leaves.still fun _ => rfl
theorem Leaves.look : Leaves P getS := Leaves.still fun _ => rfl
theorem Leaves.stop (e : Stop) : Leaves P (throw e : M α) := Leaves.still fun _ => rfl
theorem Leaves.trap (c : BitVec 10) (i : Word) (r : FaultInfo) : Leaves P (trapM c i r : M α) := Leaves.still fun _ => rfl

theorem Leaves.lift (r : Except Stop α) : Leaves P (liftE r) := Leaves.still fun _ => by cases r <;> rfl

theorem Leaves.back (g : Nat) (w : Word) (r : Except Stop α) : Leaves P (backing g w r) :=
  Leaves.still fun _ => by unfold backing; split <;> rfl

theorem Leaves.poison (va : Nat) (ls : List Loc) : Leaves P (checkPoison va ls) :=
  Leaves.still fun s => by
    unfold checkPoison
    simp only [run_bind, run_getS]
    split <;> rfl

theorem Leaves.modify {f : State → State} (h : ∀ s, P s → P (f s)) : Leaves P (modS f) := h

theorem Leaves.caught {m : M α} (h : Leaves P m) : Leaves P (attempt m) := h

theorem Leaves.cond {c : Prop} [Decidable c] {m n : M α} (yes : c → Leaves P m) (no : ¬c → Leaves P n) :
    Leaves P (if c then m else n) := by
  by_cases h : c
  · rw [if_pos h]; exact yes h
  · rw [if_neg h]; exact no h

/-- A meaning that leaves a property which taking a trap and a wait's marks leave ends in a state that has it. -/
theorem Leaves.finish {w : Bool} {m : M Unit} (hm : Leaves P m) (ht : ∀ s c i r, P s → P (s.trapNow c i r))
    (hw : ∀ s ks b, P s → P (s.setMe { s.me.waitsOn ks with busy := b })) {s t : State} (hs : P s)
    (e : finishWith w m s = .next t) : P t := by
  have done : P (m.run s).2 := hm s hs
  unfold finishWith at e
  generalize m.run s = r at done e
  obtain ⟨(_ | _ | _) | _, v⟩ := r <;> cases e
  · exact ht _ _ _ _ done
  · unfold State.unmarked; split
    exacts [hw _ [] false hs, hs]
  · exact hw _ _ _ hs
  · exact done

/-- What finding the places of an address may change. -/
structure Localised (P : State → Prop) : Prop where
  locs : ∀ s w, P s → P (State.setLocs s w)
  write : ∀ s w, P s → P (State.writeLocs s w)
  core : ∀ s k x, P s → P (State.setCore s k x)
  clock : ∀ s n, P s → P { s with clock := n }
  forget : ∀ s e, P s → P (State.forgetEntry s e)
  discard : ∀ s w va, P s → P (State.discard s w va)
  places : ∀ s (f : {α : Type} → List (Loc × α) → List (Loc × α)), P s → P (State.mapPlaces s f)

theorem Localised.leaves (hP : Localised P) (s : State) (k i : Nat) (f : Frame) (h : P s) : P (s.pageLeaves k i f) := by
  unfold State.pageLeaves; split
  exacts [h, hP.places _ _ h]

theorem Localised.enters (hP : Localised P) (s : State) (k i : Nat) (f : Frame) (h : P s) : P (s.pageEnters k i f) := by
  unfold State.pageEnters; split
  exacts [h, hP.places _ _ h]

/-- Translation discards what is cached and does not serve. -/
theorem Localised.translateM (hP : Localised P) (who : Who) (a : Access) (va : Nat) : Leaves P (translateM who a va) := by
  unfold Machine.translateM
  refine Leaves.look.seq fun s => ?_
  exact Leaves.cond (fun _ => (Leaves.modify fun t h => hP.discard t _ _ h).seq fun _ => Leaves.lift _) fun _ => Leaves.lift _

/-- The place of a global byte. -/
theorem Localised.globalLoc (hP : Localised P) (who : Who) (a : Access) (va : Nat) : Leaves P (globalLoc who a va) := by
  unfold Machine.globalLoc
  refine (hP.translateM _ _ _).seq fun target => Leaves.look.seq fun s => ?_
  split
  · exact Leaves.trap _ _ _
  · exact Leaves.cond (fun _ => Leaves.trap _ _ _) fun _ => Leaves.ret _

theorem Localised.globalLocs (hP : Localised P) (who : Who) (a : Access) (va n : Nat) : Leaves P (globalLocs who a va n) := by
  suffices h : ∀ n va last, Leaves P (globalFrom who a va last n) from h n va none
  intro n
  induction n with
  | zero => exact fun _ _ => Leaves.ret _
  | succ n ih =>
    rintro va (_ | p)
    · exact (hP.globalLoc who a va).seq fun _ => (ih _ _).seq fun _ => Leaves.ret _
    · exact (Leaves.ret p).seq fun _ => (ih _ _).seq fun _ => Leaves.ret _

/-- The final write of an entry changes memory and the cached copies of the entry. -/
theorem Localised.setEntry (hP : Localised P) (who : Who) (e v : Nat) : Leaves P (setEntry who e v) :=
  (hP.globalLocs _ _ _ _).seq fun _ => Leaves.modify fun t h => hP.forget _ _ (hP.locs t _ h)

theorem Localised.readEntry (hP : Localised P) (who : Who) (va : Nat) : Leaves P (readEntry who va) := by
  unfold Machine.readEntry
  refine Leaves.cond (fun _ => Leaves.trap _ _ _) fun _ => Leaves.cond (fun _ => Leaves.trap _ _ _) fun _ => ?_
  refine Leaves.look.seq fun s => ?_
  split
  · exact Leaves.ret _
  refine (hP.globalLocs _ _ _ _).seq fun ls => Leaves.look.seq fun t => ?_
  exact Leaves.cond (fun _ => Leaves.cond (fun _ => Leaves.trap _ _ _) fun _ => Leaves.stop _) fun _ =>
    Leaves.cond (fun _ => Leaves.trap _ _ _) fun _ => Leaves.ret _

/-- Writing a frame back. -/
theorem Localised.writeBack (hP : Localised P) (who : Who) (k : Nat) (f : Frame) : Leaves P (writeBack who k f) := by
  unfold Machine.writeBack
  refine Leaves.cond (fun _ => ?_) fun _ => Leaves.ret _
  refine (hP.translateM _ _ _).seq fun _ => Leaves.look.seq fun s => ?_
  dsimp only
  split
  · exact Leaves.trap _ _ _
  · exact Leaves.cond (fun _ => Leaves.modify fun t h => hP.write t _ h) fun _ => Leaves.ret _

theorem Localised.takeFrame (hP : Localised P) (who : Who) (k g : Nat) : Leaves P (takeFrame who k g) := by
  unfold Machine.takeFrame
  refine Leaves.look.seq fun s => ?_
  dsimp only
  split
  · exact Leaves.ret _
  split
  · exact Leaves.ret _
  refine (hP.writeBack _ _ _).caught.seq fun w => (Leaves.back _ _ w).seq fun _ => (hP.setEntry _ _ _).caught.seq fun r =>
    (Leaves.back _ _ r).seq fun _ => (Leaves.modify fun u h => hP.leaves _ _ _ _ (hP.core u _ _ h)).seq fun _ => Leaves.ret _

theorem Localised.fillPage (hP : Localised P) (who : Who) (g e v : Nat) : Leaves P (fillPage who g e v) := by
  unfold Machine.fillPage
  refine (hP.takeFrame _ _ _).seq fun i => ?_
  obtain _ | i := i
  · exact Leaves.stop _
  refine (hP.translateM _ _ _).caught.seq fun found => (Leaves.back _ _ found).seq fun target => Leaves.look.seq fun s => ?_
  split
  · refine (hP.setEntry _ _ _).seq fun _ => (Leaves.modify fun u h => hP.clock _ _ ?_).seq fun _ => Leaves.ret _
    exact hP.enters _ _ _ _ (hP.core u _ _ h)
  · exact Leaves.trap _ _ _

theorem Localised.touchFrame (hP : Localised P) (who : Who) (a : Access) (g e k i : Nat) :
    Leaves P (touchFrame who a g e k i) := by
  unfold Machine.touchFrame
  refine Leaves.look.seq fun s => ?_
  split
  · exact Leaves.cond
      (fun _ => (hP.translateM _ _ _).caught.seq fun found => (Leaves.back _ _ found).seq fun _ => (Leaves.modify fun t h => hP.clock _ _ (hP.core t _ _ h)).seq fun _ => Leaves.ret _)
      fun _ => (Leaves.modify fun t h => hP.clock _ _ (hP.core t _ _ h)).seq fun _ => Leaves.ret _
  · exact Leaves.trap _ _ _

theorem Localised.stashLoc (hP : Localised P) (who : Who) (a : Access) (g : Nat) : Leaves P (stashLoc who a g) := by
  unfold Machine.stashLoc
  refine Leaves.look.seq fun s => Leaves.cond (fun _ => Leaves.trap _ _ _) fun _ => Leaves.cond (fun _ => Leaves.trap _ _ _) fun _ => ?_
  refine (hP.readEntry _ _).seq fun r => Leaves.cond (fun _ => Leaves.trap _ _ _) fun _ => Leaves.cond (fun _ => ?_) fun _ => ?_
  · refine Leaves.look.seq fun t => ?_
    split
    · exact Leaves.cond (fun _ => hP.touchFrame _ _ _ _ _ _) fun _ => Leaves.trap _ _ _
    · exact Leaves.trap _ _ _
  · exact (hP.fillPage _ _ _ _).seq fun _ => hP.touchFrame _ _ _ _ _ _

theorem Localised.locate (hP : Localised P) (who : Who) (a : Access) (va : Nat) : Leaves P (locate who a va) :=
  Leaves.cond (fun _ => hP.stashLoc _ _ _) fun _ => Leaves.cond (fun _ => Leaves.trap _ _ _) fun _ =>
    (hP.globalLoc _ _ _).seq fun _ => Leaves.ret _

/-- Finding the places of an address. -/
theorem Localised.locateBytes (hP : Localised P) (who : Who) (a : Access) (va n : Nat) : Leaves P (locateBytes who a va n) := by
  suffices h : ∀ n va last, Leaves P (locateFrom who a va last n) from h n va none
  intro n
  induction n with
  | zero => exact fun _ _ => Leaves.ret _
  | succ n ih =>
    rintro va (_ | l)
    · exact (hP.locate who a va).seq fun _ => (ih _ _).seq fun _ => Leaves.ret _
    · exact (Leaves.ret l).seq fun _ => (ih _ _).seq fun _ => Leaves.ret _

theorem Localised.readVa (hP : Localised P) (who : Who) (va n : Nat) : Leaves P (readVa who va n) :=
  (hP.locateBytes _ _ _ _).seq fun _ => (Leaves.poison _ _).seq fun _ => Leaves.look.seq fun _ => Leaves.ret _

theorem Localised.writeVa (hP : Localised P) (who : Who) (va n v : Nat) : Leaves P (writeVa who va n v) :=
  (hP.locateBytes _ _ _ _).seq fun _ => Leaves.modify fun s h => hP.write s _ h

theorem Localised.writeBytes (hP : Localised P) (who : Who) (va : Nat) (bs : List Byte) : Leaves P (writeBytes who va bs) :=
  (hP.locateBytes _ _ _ _).seq fun _ => Leaves.modify fun s h => hP.write s _ h

end

/-- Memory's canonical form is such a property. -/
theorem Localised.wf : Localised fun s => Memory.wf s.mem = true where
  locs _ w h := Memory.wf_setLocs w h
  write _ w h := Memory.wf_writeLocs w h
  core _ _ _ h := h
  clock _ _ h := h
  forget _ _ h := h
  discard _ _ _ h := h
  places _ _ h := by simpa using h

/-- A write by virtual address keeps memory canonical. -/
theorem Memory.wf_writeBytes (who : Who) (va : Nat) (bs : List Byte) (s : State) (h : Memory.wf s.mem = true) :
    Memory.wf ((writeBytes who va bs).run s).2.mem = true := Localised.wf.writeBytes who va bs s h

end Sys2Proof.Machine
end

