-- ==== Sys2Proof/Laws/Access.lean ====
section
/-! SUPPORT. Accesses by virtual address: what finding, reading and writing the bytes of one line does where the page is
mapped. -/

namespace Sys2Proof.Machine

/-- `n` physical places from `pa` on. -/
def physLocs (pa n : Nat) : List Loc := (List.range n).map fun k => .phys (pa + k)

theorem physLocs_succ (pa n : Nat) : physLocs pa (n + 1) = .phys pa :: physLocs (pa + 1) n := by
  simp only [physLocs, List.range_succ_eq_map, List.map_cons, Nat.add_zero, List.map_map, List.cons.injEq, true_and]
  exact List.map_congr_left fun k _ => by simp; omega

/-- An access of a kind reaches a physical byte: it is translated without a fresh walk over a stale leaf, the target is populated, and, unless the access writes, its line is whole. -/
structure Reaches (s : State) (who : Who) (kind : Access) (va pa : Nat) : Prop where
  fresh : cacheFails s who kind va = false
  found : ∃ a, translate s who kind va = .ok a ∧ physical s (pkgOfCore who.core) a = some pa
  whole : kind = .write ∨ poisoned s pa = false

/-- Such a byte is found without a change of the state. -/
theorem Reaches.run_globalLoc {who : Who} {kind : Access} {va pa : Nat} {s : State} (h : Reaches s who kind va pa) :
    (globalLoc who kind va).run s = (.ok pa, s) := by
  obtain ⟨hf, ⟨a, ht, hp⟩, hq⟩ := h
  rcases hq with rfl | hq
  · simp [globalLoc, translateM, hf, ht, hp]
  · simp [globalLoc, translateM, hf, ht, hp, hq]

theorem Reaches.run_locate {who : Who} {kind : Access} {va pa : Nat} {s : State} (h : Reaches s who kind va pa)
    (hv : va < 2 ^ 55) : (locate who kind va).run s = (.ok (.phys pa), s) := by
  have hw : inWindow va = false := by
    have : ¬windowBase ≤ va := by unfold windowBase; omega
    simp [inWindow, this]
  simp only [locate, hw, Bool.false_eq_true, ↓reduceIte, Nat.not_le.mpr hv, run_bind, h.run_globalLoc, run_pure]

theorem run_locateFrom_line (who : Who) (kind : Access) (s : State) (va pa n : Nat) (hn : va % 64 + n ≤ 64)
    (hv : va + n < 2 ^ 64) : (locateFrom who kind va (some (.phys pa)) n).run s = (.ok (physLocs pa n), s) := by
  induction n generalizing va pa with
  | zero => rfl
  | succ n ih =>
    have inside : (va + 1) % 2 ^ 64 = va + 1 := Nat.mod_eq_of_lt (by omega)
    rw [physLocs_succ]
    unfold locateFrom
    simp only [run_bind, run_pure, inside, Loc.plus]
    rcases Nat.eq_zero_or_pos n with rfl | pos
    · rfl
    · have same : ((va + 1) % 64 == 0) = false := by simp; omega
      simp [same, ih (va + 1) (pa + 1) (by omega) (by omega)]

/-- The places of bytes of one line of a mapped page. -/
theorem Reaches.run_locateBytes {who : Who} {kind : Access} {va n pa : Nat} {s : State} (h : Reaches s who kind va pa)
    (hv : va < 2 ^ 55) (hn : 0 < n) (hl : va % 64 + n ≤ 64) :
    (locateBytes who kind va n).run s = (.ok (physLocs pa n), s) := by
  cases n with
  | zero => omega
  | succ n =>
    have inside : (va + 1) % 2 ^ 64 = va + 1 := Nat.mod_eq_of_lt (by omega)
    unfold locateBytes locateFrom
    simp only [run_bind, h.run_locate hv, inside, physLocs_succ]
    rcases Nat.eq_zero_or_pos n with rfl | pos
    · rfl
    · have more := run_locateFrom_line who kind s (va + 1) (pa + 1) n (by omega) (by omega)
      have same : ((va + 1) % 64 == 0) = false := by simp; omega
      simp [same, Loc.plus, more]

/-- A write to bytes of one line of a mapped page. -/
theorem Reaches.run_writeBytes {who : Who} {va pa : Nat} {bs : List Byte} {s : State} (h : Reaches s who .write va pa)
    (hv : va < 2 ^ 55) (hn : 0 < bs.length) (hl : va % 64 + bs.length ≤ 64) :
    (writeBytes who va bs).run s = (.ok (), s.writeLocs ((physLocs pa bs.length).zip bs)) := by
  simp [writeBytes, h.run_locateBytes hv hn hl]

end Sys2Proof.Machine
end

