-- ==== Sys2Proof/Laws/PerInstr.lean ====
section
/-! SUPPORT. One lemma per instruction: the decoder's tables select the instruction from its encoding, and no bit that
its row leaves unused is set in the encoding. The lemmas `cat_…` read one field of a word from its parts. -/

namespace Sys2Proof.Laws.Selects

/-- What is proved of each instruction: a well-formed instruction is selected from its own word, whose unused bits are zero. -/
def Statement (i : Instr) : Prop :=
  i.wellFormed = true → ∃ m, select (encode i) = some (i, m) ∧ encode i &&& m = 0#32

/-! ## Fields of a concatenation -/

theorem pickLo {u v : Nat} (x : BitVec u) (y : BitVec v) (lo n : Nat) (h : lo + n ≤ v) :
    (x ++ y).extractLsb' lo n = y.extractLsb' lo n :=
  BitVec.extractLsb'_append_eq_of_add_le h

theorem pickHi {u v : Nat} (x : BitVec u) (y : BitVec v) (lo n : Nat) (h : v ≤ lo) :
    (x ++ y).extractLsb' lo n = x.extractLsb' (lo - v) n :=
  BitVec.extractLsb'_append_eq_of_le h

theorem andCat {u v : Nat} {x p : BitVec u} {y q : BitVec v} (h : x &&& p = 0#u) (k : y &&& q = 0#v) :
    (x ++ y) &&& (p ++ q) = 0#(u + v) := by
  rw [BitVec.and_append, h, k]
  simp

/-- A field that reaches from the low part into the high one. -/
theorem crossLo {u v : Nat} (x : BitVec u) (y : BitVec v) (n : Nat) :
    (x ++ y).extractLsb' 0 (n + v) = x.extractLsb' 0 n ++ y := by
  ext i hi
  simp only [BitVec.getElem_extractLsb', BitVec.getElem_append, BitVec.getLsbD_append, Nat.zero_add]
  split <;> simp_all

theorem cleared {w m : BitVec 32} (p : BitVec 32) (h : w &&& p = 0#32) (e : m = p) : w &&& m = 0#32 := e ▸ h

theorem chosen {i : Instr} {w m : BitVec 32} {g : Option (Instr × BitVec 32)} (e : encode i = w) (h : select w = g)
    (k : g = some (i, m)) (c : w &&& m = 0#32) : Statement i := by
  subst e
  exact fun _ => ⟨m, h.trans k, c⟩

theorem bit_cases (x : BitVec 1) : x = 0#1 ∨ x = 1#1 := by
  revert x
  decide

theorem cat_6_5_5_5_11_at_26 (x0 : BitVec 6) (x1 : BitVec 5) (x2 : BitVec 5) (x3 : BitVec 5) (x4 : BitVec 11) :
    BitVec.extractLsb' 26 6 (x0 ++ x1 ++ x2 ++ x3 ++ x4 : BitVec 32) = x0 :=
  (pickHi _ _ 26 6 (by decide)).trans ((pickHi _ _ 15 6 (by decide)).trans ((pickHi _ _ 10 6 (by decide)).trans ((pickHi _ _ 5 6 (by decide)).trans (BitVec.extractLsb'_eq_self))))

theorem cat_6_5_5_5_11_at_21 (x0 : BitVec 6) (x1 : BitVec 5) (x2 : BitVec 5) (x3 : BitVec 5) (x4 : BitVec 11) :
    BitVec.extractLsb' 21 5 (x0 ++ x1 ++ x2 ++ x3 ++ x4 : BitVec 32) = x1 :=
  (pickHi _ _ 21 5 (by decide)).trans ((pickHi _ _ 10 5 (by decide)).trans ((pickHi _ _ 5 5 (by decide)).trans ((pickLo _ _ 0 5 (by decide)).trans (BitVec.extractLsb'_eq_self))))

theorem cat_6_5_5_5_11_at_16 (x0 : BitVec 6) (x1 : BitVec 5) (x2 : BitVec 5) (x3 : BitVec 5) (x4 : BitVec 11) :
    BitVec.extractLsb' 16 5 (x0 ++ x1 ++ x2 ++ x3 ++ x4 : BitVec 32) = x2 :=
  (pickHi _ _ 16 5 (by decide)).trans ((pickHi _ _ 5 5 (by decide)).trans ((pickLo _ _ 0 5 (by decide)).trans (BitVec.extractLsb'_eq_self)))

theorem cat_6_5_5_5_11_at_11 (x0 : BitVec 6) (x1 : BitVec 5) (x2 : BitVec 5) (x3 : BitVec 5) (x4 : BitVec 11) :
    BitVec.extractLsb' 11 5 (x0 ++ x1 ++ x2 ++ x3 ++ x4 : BitVec 32) = x3 :=
  (pickHi _ _ 11 5 (by decide)).trans ((pickLo _ _ 0 5 (by decide)).trans (BitVec.extractLsb'_eq_self))

theorem cat_6_5_5_5_11_at_0_6 (x0 : BitVec 6) (x1 : BitVec 5) (x2 : BitVec 5) (x3 : BitVec 5) (x4 : BitVec 11) :
    BitVec.extractLsb' 0 6 (x0 ++ x1 ++ x2 ++ x3 ++ x4 : BitVec 32) = x4.extractLsb' 0 6 :=
  (pickLo _ _ 0 6 (by decide)).trans rfl

theorem cat_6_5_5_16_at_26 (x0 : BitVec 6) (x1 : BitVec 5) (x2 : BitVec 5) (x3 : BitVec 16) :
    BitVec.extractLsb' 26 6 (x0 ++ x1 ++ x2 ++ x3 : BitVec 32) = x0 :=
  (pickHi _ _ 26 6 (by decide)).trans ((pickHi _ _ 10 6 (by decide)).trans ((pickHi _ _ 5 6 (by decide)).trans (BitVec.extractLsb'_eq_self)))

theorem cat_6_5_5_16_at_21 (x0 : BitVec 6) (x1 : BitVec 5) (x2 : BitVec 5) (x3 : BitVec 16) :
    BitVec.extractLsb' 21 5 (x0 ++ x1 ++ x2 ++ x3 : BitVec 32) = x1 :=
  (pickHi _ _ 21 5 (by decide)).trans ((pickHi _ _ 5 5 (by decide)).trans ((pickLo _ _ 0 5 (by decide)).trans (BitVec.extractLsb'_eq_self)))

theorem cat_6_5_5_16_at_16 (x0 : BitVec 6) (x1 : BitVec 5) (x2 : BitVec 5) (x3 : BitVec 16) :
    BitVec.extractLsb' 16 5 (x0 ++ x1 ++ x2 ++ x3 : BitVec 32) = x2 :=
  (pickHi _ _ 16 5 (by decide)).trans ((pickLo _ _ 0 5 (by decide)).trans (BitVec.extractLsb'_eq_self))

theorem cat_6_5_5_16_at_0_6 (x0 : BitVec 6) (x1 : BitVec 5) (x2 : BitVec 5) (x3 : BitVec 16) :
    BitVec.extractLsb' 0 6 (x0 ++ x1 ++ x2 ++ x3 : BitVec 32) = x3.extractLsb' 0 6 :=
  (pickLo _ _ 0 6 (by decide)).trans rfl

theorem cat_6_5_5_5_5_6_at_26 (x0 : BitVec 6) (x1 : BitVec 5) (x2 : BitVec 5) (x3 : BitVec 5) (x4 : BitVec 5) (x5 : BitVec 6) :
    BitVec.extractLsb' 26 6 (x0 ++ x1 ++ x2 ++ x3 ++ x4 ++ x5 : BitVec 32) = x0 :=
  (pickHi _ _ 26 6 (by decide)).trans ((pickHi _ _ 20 6 (by decide)).trans ((pickHi _ _ 15 6 (by decide)).trans ((pickHi _ _ 10 6 (by decide)).trans ((pickHi _ _ 5 6 (by decide)).trans (BitVec.extractLsb'_eq_self)))))

theorem cat_6_5_5_5_5_6_at_21 (x0 : BitVec 6) (x1 : BitVec 5) (x2 : BitVec 5) (x3 : BitVec 5) (x4 : BitVec 5) (x5 : BitVec 6) :
    BitVec.extractLsb' 21 5 (x0 ++ x1 ++ x2 ++ x3 ++ x4 ++ x5 : BitVec 32) = x1 :=
  (pickHi _ _ 21 5 (by decide)).trans ((pickHi _ _ 15 5 (by decide)).trans ((pickHi _ _ 10 5 (by decide)).trans ((pickHi _ _ 5 5 (by decide)).trans ((pickLo _ _ 0 5 (by decide)).trans (BitVec.extractLsb'_eq_self)))))

theorem cat_6_5_5_5_5_6_at_16 (x0 : BitVec 6) (x1 : BitVec 5) (x2 : BitVec 5) (x3 : BitVec 5) (x4 : BitVec 5) (x5 : BitVec 6) :
    BitVec.extractLsb' 16 5 (x0 ++ x1 ++ x2 ++ x3 ++ x4 ++ x5 : BitVec 32) = x2 :=
  (pickHi _ _ 16 5 (by decide)).trans ((pickHi _ _ 10 5 (by decide)).trans ((pickHi _ _ 5 5 (by decide)).trans ((pickLo _ _ 0 5 (by decide)).trans (BitVec.extractLsb'_eq_self))))

theorem cat_6_5_5_5_5_6_at_11 (x0 : BitVec 6) (x1 : BitVec 5) (x2 : BitVec 5) (x3 : BitVec 5) (x4 : BitVec 5) (x5 : BitVec 6) :
    BitVec.extractLsb' 11 5 (x0 ++ x1 ++ x2 ++ x3 ++ x4 ++ x5 : BitVec 32) = x3 :=
  (pickHi _ _ 11 5 (by decide)).trans ((pickHi _ _ 5 5 (by decide)).trans ((pickLo _ _ 0 5 (by decide)).trans (BitVec.extractLsb'_eq_self)))

theorem cat_6_5_5_5_5_6_at_6 (x0 : BitVec 6) (x1 : BitVec 5) (x2 : BitVec 5) (x3 : BitVec 5) (x4 : BitVec 5) (x5 : BitVec 6) :
    BitVec.extractLsb' 6 5 (x0 ++ x1 ++ x2 ++ x3 ++ x4 ++ x5 : BitVec 32) = x4 :=
  (pickHi _ _ 6 5 (by decide)).trans ((pickLo _ _ 0 5 (by decide)).trans (BitVec.extractLsb'_eq_self))

theorem cat_6_5_5_5_5_6_at_0 (x0 : BitVec 6) (x1 : BitVec 5) (x2 : BitVec 5) (x3 : BitVec 5) (x4 : BitVec 5) (x5 : BitVec 6) :
    BitVec.extractLsb' 0 6 (x0 ++ x1 ++ x2 ++ x3 ++ x4 ++ x5 : BitVec 32) = x5 :=
  (pickLo _ _ 0 6 (by decide)).trans (BitVec.extractLsb'_eq_self)

theorem cat_6_5_5_16_at_0 (x0 : BitVec 6) (x1 : BitVec 5) (x2 : BitVec 5) (x3 : BitVec 16) :
    BitVec.extractLsb' 0 16 (x0 ++ x1 ++ x2 ++ x3 : BitVec 32) = x3 :=
  (pickLo _ _ 0 16 (by decide)).trans (BitVec.extractLsb'_eq_self)

theorem cat_6_5_5_5_6_1_4_at_26 (x0 : BitVec 6) (x1 : BitVec 5) (x2 : BitVec 5) (x3 : BitVec 5) (x4 : BitVec 6) (x5 : BitVec 1) (x6 : BitVec 4) :
    BitVec.extractLsb' 26 6 (x0 ++ x1 ++ x2 ++ x3 ++ x4 ++ x5 ++ x6 : BitVec 32) = x0 :=
  (pickHi _ _ 26 6 (by decide)).trans ((pickHi _ _ 22 6 (by decide)).trans ((pickHi _ _ 21 6 (by decide)).trans ((pickHi _ _ 15 6 (by decide)).trans ((pickHi _ _ 10 6 (by decide)).trans ((pickHi _ _ 5 6 (by decide)).trans (BitVec.extractLsb'_eq_self))))))

theorem cat_6_5_5_5_6_1_4_at_21 (x0 : BitVec 6) (x1 : BitVec 5) (x2 : BitVec 5) (x3 : BitVec 5) (x4 : BitVec 6) (x5 : BitVec 1) (x6 : BitVec 4) :
    BitVec.extractLsb' 21 5 (x0 ++ x1 ++ x2 ++ x3 ++ x4 ++ x5 ++ x6 : BitVec 32) = x1 :=
  (pickHi _ _ 21 5 (by decide)).trans ((pickHi _ _ 17 5 (by decide)).trans ((pickHi _ _ 16 5 (by decide)).trans ((pickHi _ _ 10 5 (by decide)).trans ((pickHi _ _ 5 5 (by decide)).trans ((pickLo _ _ 0 5 (by decide)).trans (BitVec.extractLsb'_eq_self))))))

theorem cat_6_5_5_5_6_1_4_at_16 (x0 : BitVec 6) (x1 : BitVec 5) (x2 : BitVec 5) (x3 : BitVec 5) (x4 : BitVec 6) (x5 : BitVec 1) (x6 : BitVec 4) :
    BitVec.extractLsb' 16 5 (x0 ++ x1 ++ x2 ++ x3 ++ x4 ++ x5 ++ x6 : BitVec 32) = x2 :=
  (pickHi _ _ 16 5 (by decide)).trans ((pickHi _ _ 12 5 (by decide)).trans ((pickHi _ _ 11 5 (by decide)).trans ((pickHi _ _ 5 5 (by decide)).trans ((pickLo _ _ 0 5 (by decide)).trans (BitVec.extractLsb'_eq_self)))))

theorem cat_6_5_5_5_6_1_4_at_11 (x0 : BitVec 6) (x1 : BitVec 5) (x2 : BitVec 5) (x3 : BitVec 5) (x4 : BitVec 6) (x5 : BitVec 1) (x6 : BitVec 4) :
    BitVec.extractLsb' 11 5 (x0 ++ x1 ++ x2 ++ x3 ++ x4 ++ x5 ++ x6 : BitVec 32) = x3 :=
  (pickHi _ _ 11 5 (by decide)).trans ((pickHi _ _ 7 5 (by decide)).trans ((pickHi _ _ 6 5 (by decide)).trans ((pickLo _ _ 0 5 (by decide)).trans (BitVec.extractLsb'_eq_self))))

theorem cat_6_5_5_5_6_1_4_at_4 (x0 : BitVec 6) (x1 : BitVec 5) (x2 : BitVec 5) (x3 : BitVec 5) (x4 : BitVec 6) (x5 : BitVec 1) (x6 : BitVec 4) :
    BitVec.extractLsb' 4 1 (x0 ++ x1 ++ x2 ++ x3 ++ x4 ++ x5 ++ x6 : BitVec 32) = x5 :=
  (pickHi _ _ 4 1 (by decide)).trans ((pickLo _ _ 0 1 (by decide)).trans (BitVec.extractLsb'_eq_self))

theorem cat_6_5_5_11_1_4_at_26 (x0 : BitVec 6) (x1 : BitVec 5) (x2 : BitVec 5) (x3 : BitVec 11) (x4 : BitVec 1) (x5 : BitVec 4) :
    BitVec.extractLsb' 26 6 (x0 ++ x1 ++ x2 ++ x3 ++ x4 ++ x5 : BitVec 32) = x0 :=
  (pickHi _ _ 26 6 (by decide)).trans ((pickHi _ _ 22 6 (by decide)).trans ((pickHi _ _ 21 6 (by decide)).trans ((pickHi _ _ 10 6 (by decide)).trans ((pickHi _ _ 5 6 (by decide)).trans (BitVec.extractLsb'_eq_self)))))

theorem cat_6_5_5_11_1_4_at_21 (x0 : BitVec 6) (x1 : BitVec 5) (x2 : BitVec 5) (x3 : BitVec 11) (x4 : BitVec 1) (x5 : BitVec 4) :
    BitVec.extractLsb' 21 5 (x0 ++ x1 ++ x2 ++ x3 ++ x4 ++ x5 : BitVec 32) = x1 :=
  (pickHi _ _ 21 5 (by decide)).trans ((pickHi _ _ 17 5 (by decide)).trans ((pickHi _ _ 16 5 (by decide)).trans ((pickHi _ _ 5 5 (by decide)).trans ((pickLo _ _ 0 5 (by decide)).trans (BitVec.extractLsb'_eq_self)))))

theorem cat_6_5_5_11_1_4_at_16 (x0 : BitVec 6) (x1 : BitVec 5) (x2 : BitVec 5) (x3 : BitVec 11) (x4 : BitVec 1) (x5 : BitVec 4) :
    BitVec.extractLsb' 16 5 (x0 ++ x1 ++ x2 ++ x3 ++ x4 ++ x5 : BitVec 32) = x2 :=
  (pickHi _ _ 16 5 (by decide)).trans ((pickHi _ _ 12 5 (by decide)).trans ((pickHi _ _ 11 5 (by decide)).trans ((pickLo _ _ 0 5 (by decide)).trans (BitVec.extractLsb'_eq_self))))

theorem cat_6_5_5_11_1_4_at_4 (x0 : BitVec 6) (x1 : BitVec 5) (x2 : BitVec 5) (x3 : BitVec 11) (x4 : BitVec 1) (x5 : BitVec 4) :
    BitVec.extractLsb' 4 1 (x0 ++ x1 ++ x2 ++ x3 ++ x4 ++ x5 : BitVec 32) = x4 :=
  (pickHi _ _ 4 1 (by decide)).trans ((pickLo _ _ 0 1 (by decide)).trans (BitVec.extractLsb'_eq_self))

theorem cat_6_5_5_5_5_1_1_4_at_26 (x0 : BitVec 6) (x1 : BitVec 5) (x2 : BitVec 5) (x3 : BitVec 5) (x4 : BitVec 5) (x5 : BitVec 1) (x6 : BitVec 1) (x7 : BitVec 4) :
    BitVec.extractLsb' 26 6 (x0 ++ x1 ++ x2 ++ x3 ++ x4 ++ x5 ++ x6 ++ x7 : BitVec 32) = x0 :=
  (pickHi _ _ 26 6 (by decide)).trans ((pickHi _ _ 22 6 (by decide)).trans ((pickHi _ _ 21 6 (by decide)).trans ((pickHi _ _ 20 6 (by decide)).trans ((pickHi _ _ 15 6 (by decide)).trans ((pickHi _ _ 10 6 (by decide)).trans ((pickHi _ _ 5 6 (by decide)).trans (BitVec.extractLsb'_eq_self)))))))

theorem cat_6_5_5_5_5_1_1_4_at_21 (x0 : BitVec 6) (x1 : BitVec 5) (x2 : BitVec 5) (x3 : BitVec 5) (x4 : BitVec 5) (x5 : BitVec 1) (x6 : BitVec 1) (x7 : BitVec 4) :
    BitVec.extractLsb' 21 5 (x0 ++ x1 ++ x2 ++ x3 ++ x4 ++ x5 ++ x6 ++ x7 : BitVec 32) = x1 :=
  (pickHi _ _ 21 5 (by decide)).trans ((pickHi _ _ 17 5 (by decide)).trans ((pickHi _ _ 16 5 (by decide)).trans ((pickHi _ _ 15 5 (by decide)).trans ((pickHi _ _ 10 5 (by decide)).trans ((pickHi _ _ 5 5 (by decide)).trans ((pickLo _ _ 0 5 (by decide)).trans (BitVec.extractLsb'_eq_self)))))))

theorem cat_6_5_5_5_5_1_1_4_at_16 (x0 : BitVec 6) (x1 : BitVec 5) (x2 : BitVec 5) (x3 : BitVec 5) (x4 : BitVec 5) (x5 : BitVec 1) (x6 : BitVec 1) (x7 : BitVec 4) :
    BitVec.extractLsb' 16 5 (x0 ++ x1 ++ x2 ++ x3 ++ x4 ++ x5 ++ x6 ++ x7 : BitVec 32) = x2 :=
  (pickHi _ _ 16 5 (by decide)).trans ((pickHi _ _ 12 5 (by decide)).trans ((pickHi _ _ 11 5 (by decide)).trans ((pickHi _ _ 10 5 (by decide)).trans ((pickHi _ _ 5 5 (by decide)).trans ((pickLo _ _ 0 5 (by decide)).trans (BitVec.extractLsb'_eq_self))))))

theorem cat_6_5_5_5_5_1_1_4_at_11 (x0 : BitVec 6) (x1 : BitVec 5) (x2 : BitVec 5) (x3 : BitVec 5) (x4 : BitVec 5) (x5 : BitVec 1) (x6 : BitVec 1) (x7 : BitVec 4) :
    BitVec.extractLsb' 11 5 (x0 ++ x1 ++ x2 ++ x3 ++ x4 ++ x5 ++ x6 ++ x7 : BitVec 32) = x3 :=
  (pickHi _ _ 11 5 (by decide)).trans ((pickHi _ _ 7 5 (by decide)).trans ((pickHi _ _ 6 5 (by decide)).trans ((pickHi _ _ 5 5 (by decide)).trans ((pickLo _ _ 0 5 (by decide)).trans (BitVec.extractLsb'_eq_self)))))

theorem cat_6_5_5_5_5_1_1_4_at_6 (x0 : BitVec 6) (x1 : BitVec 5) (x2 : BitVec 5) (x3 : BitVec 5) (x4 : BitVec 5) (x5 : BitVec 1) (x6 : BitVec 1) (x7 : BitVec 4) :
    BitVec.extractLsb' 6 5 (x0 ++ x1 ++ x2 ++ x3 ++ x4 ++ x5 ++ x6 ++ x7 : BitVec 32) = x4 :=
  (pickHi _ _ 6 5 (by decide)).trans ((pickHi _ _ 2 5 (by decide)).trans ((pickHi _ _ 1 5 (by decide)).trans ((pickLo _ _ 0 5 (by decide)).trans (BitVec.extractLsb'_eq_self))))

theorem cat_6_5_5_5_5_1_1_4_at_4 (x0 : BitVec 6) (x1 : BitVec 5) (x2 : BitVec 5) (x3 : BitVec 5) (x4 : BitVec 5) (x5 : BitVec 1) (x6 : BitVec 1) (x7 : BitVec 4) :
    BitVec.extractLsb' 4 1 (x0 ++ x1 ++ x2 ++ x3 ++ x4 ++ x5 ++ x6 ++ x7 : BitVec 32) = x6 :=
  (pickHi _ _ 4 1 (by decide)).trans ((pickLo _ _ 0 1 (by decide)).trans (BitVec.extractLsb'_eq_self))

theorem cat_6_5_5_5_2_3_1_1_4_at_26 (x0 : BitVec 6) (x1 : BitVec 5) (x2 : BitVec 5) (x3 : BitVec 5) (x4 : BitVec 2) (x5 : BitVec 3) (x6 : BitVec 1) (x7 : BitVec 1) (x8 : BitVec 4) :
    BitVec.extractLsb' 26 6 (x0 ++ x1 ++ x2 ++ x3 ++ x4 ++ x5 ++ x6 ++ x7 ++ x8 : BitVec 32) = x0 :=
  (pickHi _ _ 26 6 (by decide)).trans ((pickHi _ _ 22 6 (by decide)).trans ((pickHi _ _ 21 6 (by decide)).trans ((pickHi _ _ 20 6 (by decide)).trans ((pickHi _ _ 17 6 (by decide)).trans ((pickHi _ _ 15 6 (by decide)).trans ((pickHi _ _ 10 6 (by decide)).trans ((pickHi _ _ 5 6 (by decide)).trans (BitVec.extractLsb'_eq_self))))))))

theorem cat_6_5_5_5_2_3_1_1_4_at_21 (x0 : BitVec 6) (x1 : BitVec 5) (x2 : BitVec 5) (x3 : BitVec 5) (x4 : BitVec 2) (x5 : BitVec 3) (x6 : BitVec 1) (x7 : BitVec 1) (x8 : BitVec 4) :
    BitVec.extractLsb' 21 5 (x0 ++ x1 ++ x2 ++ x3 ++ x4 ++ x5 ++ x6 ++ x7 ++ x8 : BitVec 32) = x1 :=
  (pickHi _ _ 21 5 (by decide)).trans ((pickHi _ _ 17 5 (by decide)).trans ((pickHi _ _ 16 5 (by decide)).trans ((pickHi _ _ 15 5 (by decide)).trans ((pickHi _ _ 12 5 (by decide)).trans ((pickHi _ _ 10 5 (by decide)).trans ((pickHi _ _ 5 5 (by decide)).trans ((pickLo _ _ 0 5 (by decide)).trans (BitVec.extractLsb'_eq_self))))))))

theorem cat_6_5_5_5_2_3_1_1_4_at_16 (x0 : BitVec 6) (x1 : BitVec 5) (x2 : BitVec 5) (x3 : BitVec 5) (x4 : BitVec 2) (x5 : BitVec 3) (x6 : BitVec 1) (x7 : BitVec 1) (x8 : BitVec 4) :
    BitVec.extractLsb' 16 5 (x0 ++ x1 ++ x2 ++ x3 ++ x4 ++ x5 ++ x6 ++ x7 ++ x8 : BitVec 32) = x2 :=
  (pickHi _ _ 16 5 (by decide)).trans ((pickHi _ _ 12 5 (by decide)).trans ((pickHi _ _ 11 5 (by decide)).trans ((pickHi _ _ 10 5 (by decide)).trans ((pickHi _ _ 7 5 (by decide)).trans ((pickHi _ _ 5 5 (by decide)).trans ((pickLo _ _ 0 5 (by decide)).trans (BitVec.extractLsb'_eq_self)))))))

theorem cat_6_5_5_5_2_3_1_1_4_at_11 (x0 : BitVec 6) (x1 : BitVec 5) (x2 : BitVec 5) (x3 : BitVec 5) (x4 : BitVec 2) (x5 : BitVec 3) (x6 : BitVec 1) (x7 : BitVec 1) (x8 : BitVec 4) :
    BitVec.extractLsb' 11 5 (x0 ++ x1 ++ x2 ++ x3 ++ x4 ++ x5 ++ x6 ++ x7 ++ x8 : BitVec 32) = x3 :=
  (pickHi _ _ 11 5 (by decide)).trans ((pickHi _ _ 7 5 (by decide)).trans ((pickHi _ _ 6 5 (by decide)).trans ((pickHi _ _ 5 5 (by decide)).trans ((pickHi _ _ 2 5 (by decide)).trans ((pickLo _ _ 0 5 (by decide)).trans (BitVec.extractLsb'_eq_self))))))

theorem cat_6_5_5_5_2_3_1_1_4_at_6 (x0 : BitVec 6) (x1 : BitVec 5) (x2 : BitVec 5) (x3 : BitVec 5) (x4 : BitVec 2) (x5 : BitVec 3) (x6 : BitVec 1) (x7 : BitVec 1) (x8 : BitVec 4) :
    BitVec.extractLsb' 6 3 (x0 ++ x1 ++ x2 ++ x3 ++ x4 ++ x5 ++ x6 ++ x7 ++ x8 : BitVec 32) = x5 :=
  (pickHi _ _ 6 3 (by decide)).trans ((pickHi _ _ 2 3 (by decide)).trans ((pickHi _ _ 1 3 (by decide)).trans ((pickLo _ _ 0 3 (by decide)).trans (BitVec.extractLsb'_eq_self))))

theorem cat_6_5_5_5_2_3_1_1_4_at_4 (x0 : BitVec 6) (x1 : BitVec 5) (x2 : BitVec 5) (x3 : BitVec 5) (x4 : BitVec 2) (x5 : BitVec 3) (x6 : BitVec 1) (x7 : BitVec 1) (x8 : BitVec 4) :
    BitVec.extractLsb' 4 1 (x0 ++ x1 ++ x2 ++ x3 ++ x4 ++ x5 ++ x6 ++ x7 ++ x8 : BitVec 32) = x7 :=
  (pickHi _ _ 4 1 (by decide)).trans ((pickLo _ _ 0 1 (by decide)).trans (BitVec.extractLsb'_eq_self))

theorem cat_6_5_5_13_3_at_26 (x0 : BitVec 6) (x1 : BitVec 5) (x2 : BitVec 5) (x3 : BitVec 13) (x4 : BitVec 3) :
    BitVec.extractLsb' 26 6 (x0 ++ x1 ++ x2 ++ x3 ++ x4 : BitVec 32) = x0 :=
  (pickHi _ _ 26 6 (by decide)).trans ((pickHi _ _ 23 6 (by decide)).trans ((pickHi _ _ 10 6 (by decide)).trans ((pickHi _ _ 5 6 (by decide)).trans (BitVec.extractLsb'_eq_self))))

theorem cat_6_5_5_13_3_at_21 (x0 : BitVec 6) (x1 : BitVec 5) (x2 : BitVec 5) (x3 : BitVec 13) (x4 : BitVec 3) :
    BitVec.extractLsb' 21 5 (x0 ++ x1 ++ x2 ++ x3 ++ x4 : BitVec 32) = x1 :=
  (pickHi _ _ 21 5 (by decide)).trans ((pickHi _ _ 18 5 (by decide)).trans ((pickHi _ _ 5 5 (by decide)).trans ((pickLo _ _ 0 5 (by decide)).trans (BitVec.extractLsb'_eq_self))))

theorem cat_6_5_5_13_3_at_16 (x0 : BitVec 6) (x1 : BitVec 5) (x2 : BitVec 5) (x3 : BitVec 13) (x4 : BitVec 3) :
    BitVec.extractLsb' 16 5 (x0 ++ x1 ++ x2 ++ x3 ++ x4 : BitVec 32) = x2 :=
  (pickHi _ _ 16 5 (by decide)).trans ((pickHi _ _ 13 5 (by decide)).trans ((pickLo _ _ 0 5 (by decide)).trans (BitVec.extractLsb'_eq_self)))

theorem cat_6_5_5_13_3_at_3 (x0 : BitVec 6) (x1 : BitVec 5) (x2 : BitVec 5) (x3 : BitVec 13) (x4 : BitVec 3) :
    BitVec.extractLsb' 3 13 (x0 ++ x1 ++ x2 ++ x3 ++ x4 : BitVec 32) = x3 :=
  (pickHi _ _ 3 13 (by decide)).trans ((pickLo _ _ 0 13 (by decide)).trans (BitVec.extractLsb'_eq_self))

theorem cat_6_5_5_13_3_at_0 (x0 : BitVec 6) (x1 : BitVec 5) (x2 : BitVec 5) (x3 : BitVec 13) (x4 : BitVec 3) :
    BitVec.extractLsb' 0 3 (x0 ++ x1 ++ x2 ++ x3 ++ x4 : BitVec 32) = x4 :=
  (pickLo _ _ 0 3 (by decide)).trans (BitVec.extractLsb'_eq_self)

theorem cat_6_5_5_13_1_2_at_26 (x0 : BitVec 6) (x1 : BitVec 5) (x2 : BitVec 5) (x3 : BitVec 13) (x4 : BitVec 1) (x5 : BitVec 2) :
    BitVec.extractLsb' 26 6 (x0 ++ x1 ++ x2 ++ x3 ++ x4 ++ x5 : BitVec 32) = x0 :=
  (pickHi _ _ 26 6 (by decide)).trans ((pickHi _ _ 24 6 (by decide)).trans ((pickHi _ _ 23 6 (by decide)).trans ((pickHi _ _ 10 6 (by decide)).trans ((pickHi _ _ 5 6 (by decide)).trans (BitVec.extractLsb'_eq_self)))))

theorem cat_6_5_5_13_1_2_at_21 (x0 : BitVec 6) (x1 : BitVec 5) (x2 : BitVec 5) (x3 : BitVec 13) (x4 : BitVec 1) (x5 : BitVec 2) :
    BitVec.extractLsb' 21 5 (x0 ++ x1 ++ x2 ++ x3 ++ x4 ++ x5 : BitVec 32) = x1 :=
  (pickHi _ _ 21 5 (by decide)).trans ((pickHi _ _ 19 5 (by decide)).trans ((pickHi _ _ 18 5 (by decide)).trans ((pickHi _ _ 5 5 (by decide)).trans ((pickLo _ _ 0 5 (by decide)).trans (BitVec.extractLsb'_eq_self)))))

theorem cat_6_5_5_13_1_2_at_16 (x0 : BitVec 6) (x1 : BitVec 5) (x2 : BitVec 5) (x3 : BitVec 13) (x4 : BitVec 1) (x5 : BitVec 2) :
    BitVec.extractLsb' 16 5 (x0 ++ x1 ++ x2 ++ x3 ++ x4 ++ x5 : BitVec 32) = x2 :=
  (pickHi _ _ 16 5 (by decide)).trans ((pickHi _ _ 14 5 (by decide)).trans ((pickHi _ _ 13 5 (by decide)).trans ((pickLo _ _ 0 5 (by decide)).trans (BitVec.extractLsb'_eq_self))))

theorem cat_6_5_5_13_1_2_at_3 (x0 : BitVec 6) (x1 : BitVec 5) (x2 : BitVec 5) (x3 : BitVec 13) (x4 : BitVec 1) (x5 : BitVec 2) :
    BitVec.extractLsb' 3 13 (x0 ++ x1 ++ x2 ++ x3 ++ x4 ++ x5 : BitVec 32) = x3 :=
  (pickHi _ _ 3 13 (by decide)).trans ((pickHi _ _ 1 13 (by decide)).trans ((pickLo _ _ 0 13 (by decide)).trans (BitVec.extractLsb'_eq_self)))

theorem cat_6_5_5_13_1_2_at_0 (x0 : BitVec 6) (x1 : BitVec 5) (x2 : BitVec 5) (x3 : BitVec 13) (x4 : BitVec 1) (x5 : BitVec 2) :
    BitVec.extractLsb' 0 2 (x0 ++ x1 ++ x2 ++ x3 ++ x4 ++ x5 : BitVec 32) = x5 :=
  (pickLo _ _ 0 2 (by decide)).trans (BitVec.extractLsb'_eq_self)

theorem cat_6_5_5_13_1_2_at_2 (x0 : BitVec 6) (x1 : BitVec 5) (x2 : BitVec 5) (x3 : BitVec 13) (x4 : BitVec 1) (x5 : BitVec 2) :
    BitVec.extractLsb' 2 1 (x0 ++ x1 ++ x2 ++ x3 ++ x4 ++ x5 : BitVec 32) = x4 :=
  (pickHi _ _ 2 1 (by decide)).trans ((pickLo _ _ 0 1 (by decide)).trans (BitVec.extractLsb'_eq_self))

theorem cat_6_5_21_at_26 (x0 : BitVec 6) (x1 : BitVec 5) (x2 : BitVec 21) :
    BitVec.extractLsb' 26 6 (x0 ++ x1 ++ x2 : BitVec 32) = x0 :=
  (pickHi _ _ 26 6 (by decide)).trans ((pickHi _ _ 5 6 (by decide)).trans (BitVec.extractLsb'_eq_self))

theorem cat_6_5_21_at_21 (x0 : BitVec 6) (x1 : BitVec 5) (x2 : BitVec 21) :
    BitVec.extractLsb' 21 5 (x0 ++ x1 ++ x2 : BitVec 32) = x1 :=
  (pickHi _ _ 21 5 (by decide)).trans ((pickLo _ _ 0 5 (by decide)).trans (BitVec.extractLsb'_eq_self))

theorem cat_6_5_21_at_0 (x0 : BitVec 6) (x1 : BitVec 5) (x2 : BitVec 21) :
    BitVec.extractLsb' 0 21 (x0 ++ x1 ++ x2 : BitVec 32) = x2 :=
  (pickLo _ _ 0 21 (by decide)).trans (BitVec.extractLsb'_eq_self)

theorem cat_6_5_5_10_6_at_26 (x0 : BitVec 6) (x1 : BitVec 5) (x2 : BitVec 5) (x3 : BitVec 10) (x4 : BitVec 6) :
    BitVec.extractLsb' 26 6 (x0 ++ x1 ++ x2 ++ x3 ++ x4 : BitVec 32) = x0 :=
  (pickHi _ _ 26 6 (by decide)).trans ((pickHi _ _ 20 6 (by decide)).trans ((pickHi _ _ 10 6 (by decide)).trans ((pickHi _ _ 5 6 (by decide)).trans (BitVec.extractLsb'_eq_self))))

theorem cat_6_5_5_10_6_at_21 (x0 : BitVec 6) (x1 : BitVec 5) (x2 : BitVec 5) (x3 : BitVec 10) (x4 : BitVec 6) :
    BitVec.extractLsb' 21 5 (x0 ++ x1 ++ x2 ++ x3 ++ x4 : BitVec 32) = x1 :=
  (pickHi _ _ 21 5 (by decide)).trans ((pickHi _ _ 15 5 (by decide)).trans ((pickHi _ _ 5 5 (by decide)).trans ((pickLo _ _ 0 5 (by decide)).trans (BitVec.extractLsb'_eq_self))))

theorem cat_6_5_5_10_6_at_6 (x0 : BitVec 6) (x1 : BitVec 5) (x2 : BitVec 5) (x3 : BitVec 10) (x4 : BitVec 6) :
    BitVec.extractLsb' 6 10 (x0 ++ x1 ++ x2 ++ x3 ++ x4 : BitVec 32) = x3 :=
  (pickHi _ _ 6 10 (by decide)).trans ((pickLo _ _ 0 10 (by decide)).trans (BitVec.extractLsb'_eq_self))

theorem cat_6_5_5_10_6_at_0 (x0 : BitVec 6) (x1 : BitVec 5) (x2 : BitVec 5) (x3 : BitVec 10) (x4 : BitVec 6) :
    BitVec.extractLsb' 0 6 (x0 ++ x1 ++ x2 ++ x3 ++ x4 : BitVec 32) = x4 :=
  (pickLo _ _ 0 6 (by decide)).trans (BitVec.extractLsb'_eq_self)

theorem cat_6_5_5_10_6_at_16 (x0 : BitVec 6) (x1 : BitVec 5) (x2 : BitVec 5) (x3 : BitVec 10) (x4 : BitVec 6) :
    BitVec.extractLsb' 16 5 (x0 ++ x1 ++ x2 ++ x3 ++ x4 : BitVec 32) = x2 :=
  (pickHi _ _ 16 5 (by decide)).trans ((pickHi _ _ 10 5 (by decide)).trans ((pickLo _ _ 0 5 (by decide)).trans (BitVec.extractLsb'_eq_self)))

theorem cat_6_5_5_4_6_6_at_26 (x0 : BitVec 6) (x1 : BitVec 5) (x2 : BitVec 5) (x3 : BitVec 4) (x4 : BitVec 6) (x5 : BitVec 6) :
    BitVec.extractLsb' 26 6 (x0 ++ x1 ++ x2 ++ x3 ++ x4 ++ x5 : BitVec 32) = x0 :=
  (pickHi _ _ 26 6 (by decide)).trans ((pickHi _ _ 20 6 (by decide)).trans ((pickHi _ _ 14 6 (by decide)).trans ((pickHi _ _ 10 6 (by decide)).trans ((pickHi _ _ 5 6 (by decide)).trans (BitVec.extractLsb'_eq_self)))))

theorem cat_6_5_5_4_6_6_at_16 (x0 : BitVec 6) (x1 : BitVec 5) (x2 : BitVec 5) (x3 : BitVec 4) (x4 : BitVec 6) (x5 : BitVec 6) :
    BitVec.extractLsb' 16 5 (x0 ++ x1 ++ x2 ++ x3 ++ x4 ++ x5 : BitVec 32) = x2 :=
  (pickHi _ _ 16 5 (by decide)).trans ((pickHi _ _ 10 5 (by decide)).trans ((pickHi _ _ 4 5 (by decide)).trans ((pickLo _ _ 0 5 (by decide)).trans (BitVec.extractLsb'_eq_self))))

theorem cat_6_5_5_4_6_6_at_6 (x0 : BitVec 6) (x1 : BitVec 5) (x2 : BitVec 5) (x3 : BitVec 4) (x4 : BitVec 6) (x5 : BitVec 6) :
    BitVec.extractLsb' 6 6 (x0 ++ x1 ++ x2 ++ x3 ++ x4 ++ x5 : BitVec 32) = x4 :=
  (pickHi _ _ 6 6 (by decide)).trans ((pickLo _ _ 0 6 (by decide)).trans (BitVec.extractLsb'_eq_self))

theorem cat_6_5_5_4_6_6_at_0 (x0 : BitVec 6) (x1 : BitVec 5) (x2 : BitVec 5) (x3 : BitVec 4) (x4 : BitVec 6) (x5 : BitVec 6) :
    BitVec.extractLsb' 0 6 (x0 ++ x1 ++ x2 ++ x3 ++ x4 ++ x5 : BitVec 32) = x5 :=
  (pickLo _ _ 0 6 (by decide)).trans (BitVec.extractLsb'_eq_self)

theorem cat_6_26_at_26 (x0 : BitVec 6) (x1 : BitVec 26) :
    BitVec.extractLsb' 26 6 (x0 ++ x1 : BitVec 32) = x0 :=
  (pickHi _ _ 26 6 (by decide)).trans (BitVec.extractLsb'_eq_self)

theorem cat_6_26_at_0_6 (x0 : BitVec 6) (x1 : BitVec 26) :
    BitVec.extractLsb' 0 6 (x0 ++ x1 : BitVec 32) = x1.extractLsb' 0 6 :=
  (pickLo _ _ 0 6 (by decide)).trans rfl

theorem cat_6_10_10_6_at_26 (x0 : BitVec 6) (x1 : BitVec 10) (x2 : BitVec 10) (x3 : BitVec 6) :
    BitVec.extractLsb' 26 6 (x0 ++ x1 ++ x2 ++ x3 : BitVec 32) = x0 :=
  (pickHi _ _ 26 6 (by decide)).trans ((pickHi _ _ 20 6 (by decide)).trans ((pickHi _ _ 10 6 (by decide)).trans (BitVec.extractLsb'_eq_self)))

theorem cat_6_10_10_6_at_6 (x0 : BitVec 6) (x1 : BitVec 10) (x2 : BitVec 10) (x3 : BitVec 6) :
    BitVec.extractLsb' 6 10 (x0 ++ x1 ++ x2 ++ x3 : BitVec 32) = x2 :=
  (pickHi _ _ 6 10 (by decide)).trans ((pickLo _ _ 0 10 (by decide)).trans (BitVec.extractLsb'_eq_self))

theorem cat_6_10_10_6_at_0 (x0 : BitVec 6) (x1 : BitVec 10) (x2 : BitVec 10) (x3 : BitVec 6) :
    BitVec.extractLsb' 0 6 (x0 ++ x1 ++ x2 ++ x3 : BitVec 32) = x3 :=
  (pickLo _ _ 0 6 (by decide)).trans (BitVec.extractLsb'_eq_self)

theorem cat_6_10_5_3_8_at_26 (x0 : BitVec 6) (x1 : BitVec 10) (x2 : BitVec 5) (x3 : BitVec 3) (x4 : BitVec 8) :
    BitVec.extractLsb' 26 6 (x0 ++ x1 ++ x2 ++ x3 ++ x4 : BitVec 32) = x0 :=
  (pickHi _ _ 26 6 (by decide)).trans ((pickHi _ _ 18 6 (by decide)).trans ((pickHi _ _ 15 6 (by decide)).trans ((pickHi _ _ 10 6 (by decide)).trans (BitVec.extractLsb'_eq_self))))

theorem cat_6_10_5_3_8_at_11 (x0 : BitVec 6) (x1 : BitVec 10) (x2 : BitVec 5) (x3 : BitVec 3) (x4 : BitVec 8) :
    BitVec.extractLsb' 11 5 (x0 ++ x1 ++ x2 ++ x3 ++ x4 : BitVec 32) = x2 :=
  (pickHi _ _ 11 5 (by decide)).trans ((pickHi _ _ 3 5 (by decide)).trans ((pickLo _ _ 0 5 (by decide)).trans (BitVec.extractLsb'_eq_self)))

theorem cat_6_10_5_3_8_at_8 (x0 : BitVec 6) (x1 : BitVec 10) (x2 : BitVec 5) (x3 : BitVec 3) (x4 : BitVec 8) :
    BitVec.extractLsb' 8 3 (x0 ++ x1 ++ x2 ++ x3 ++ x4 : BitVec 32) = x3 :=
  (pickHi _ _ 8 3 (by decide)).trans ((pickLo _ _ 0 3 (by decide)).trans (BitVec.extractLsb'_eq_self))

theorem cat_6_10_5_3_8_at_0_6 (x0 : BitVec 6) (x1 : BitVec 10) (x2 : BitVec 5) (x3 : BitVec 3) (x4 : BitVec 8) :
    BitVec.extractLsb' 0 6 (x0 ++ x1 ++ x2 ++ x3 ++ x4 : BitVec 32) = x4.extractLsb' 0 6 :=
  (pickLo _ _ 0 6 (by decide)).trans rfl

theorem cat_6_18_2_6_at_26 (x0 : BitVec 6) (x1 : BitVec 18) (x2 : BitVec 2) (x3 : BitVec 6) :
    BitVec.extractLsb' 26 6 (x0 ++ x1 ++ x2 ++ x3 : BitVec 32) = x0 :=
  (pickHi _ _ 26 6 (by decide)).trans ((pickHi _ _ 20 6 (by decide)).trans ((pickHi _ _ 18 6 (by decide)).trans (BitVec.extractLsb'_eq_self)))

theorem cat_6_18_2_6_at_6 (x0 : BitVec 6) (x1 : BitVec 18) (x2 : BitVec 2) (x3 : BitVec 6) :
    BitVec.extractLsb' 6 2 (x0 ++ x1 ++ x2 ++ x3 : BitVec 32) = x2 :=
  (pickHi _ _ 6 2 (by decide)).trans ((pickLo _ _ 0 2 (by decide)).trans (BitVec.extractLsb'_eq_self))

theorem cat_6_18_2_6_at_0 (x0 : BitVec 6) (x1 : BitVec 18) (x2 : BitVec 2) (x3 : BitVec 6) :
    BitVec.extractLsb' 0 6 (x0 ++ x1 ++ x2 ++ x3 : BitVec 32) = x3 :=
  (pickLo _ _ 0 6 (by decide)).trans (BitVec.extractLsb'_eq_self)

theorem cat_6_5_5_5_3_1_7_at_26 (x0 : BitVec 6) (x1 : BitVec 5) (x2 : BitVec 5) (x3 : BitVec 5) (x4 : BitVec 3) (x5 : BitVec 1) (x6 : BitVec 7) :
    BitVec.extractLsb' 26 6 (x0 ++ x1 ++ x2 ++ x3 ++ x4 ++ x5 ++ x6 : BitVec 32) = x0 :=
  (pickHi _ _ 26 6 (by decide)).trans ((pickHi _ _ 19 6 (by decide)).trans ((pickHi _ _ 18 6 (by decide)).trans ((pickHi _ _ 15 6 (by decide)).trans ((pickHi _ _ 10 6 (by decide)).trans ((pickHi _ _ 5 6 (by decide)).trans (BitVec.extractLsb'_eq_self))))))

theorem cat_6_5_5_5_3_1_7_at_16 (x0 : BitVec 6) (x1 : BitVec 5) (x2 : BitVec 5) (x3 : BitVec 5) (x4 : BitVec 3) (x5 : BitVec 1) (x6 : BitVec 7) :
    BitVec.extractLsb' 16 5 (x0 ++ x1 ++ x2 ++ x3 ++ x4 ++ x5 ++ x6 : BitVec 32) = x2 :=
  (pickHi _ _ 16 5 (by decide)).trans ((pickHi _ _ 9 5 (by decide)).trans ((pickHi _ _ 8 5 (by decide)).trans ((pickHi _ _ 5 5 (by decide)).trans ((pickLo _ _ 0 5 (by decide)).trans (BitVec.extractLsb'_eq_self)))))

theorem cat_6_5_5_5_3_1_7_at_8 (x0 : BitVec 6) (x1 : BitVec 5) (x2 : BitVec 5) (x3 : BitVec 5) (x4 : BitVec 3) (x5 : BitVec 1) (x6 : BitVec 7) :
    BitVec.extractLsb' 8 3 (x0 ++ x1 ++ x2 ++ x3 ++ x4 ++ x5 ++ x6 : BitVec 32) = x4 :=
  (pickHi _ _ 8 3 (by decide)).trans ((pickHi _ _ 1 3 (by decide)).trans ((pickLo _ _ 0 3 (by decide)).trans (BitVec.extractLsb'_eq_self)))

theorem cat_6_5_5_5_3_1_7_at_7 (x0 : BitVec 6) (x1 : BitVec 5) (x2 : BitVec 5) (x3 : BitVec 5) (x4 : BitVec 3) (x5 : BitVec 1) (x6 : BitVec 7) :
    BitVec.extractLsb' 7 1 (x0 ++ x1 ++ x2 ++ x3 ++ x4 ++ x5 ++ x6 : BitVec 32) = x5 :=
  (pickHi _ _ 7 1 (by decide)).trans ((pickLo _ _ 0 1 (by decide)).trans (BitVec.extractLsb'_eq_self))

theorem cat_6_5_5_5_3_1_7_at_0_6 (x0 : BitVec 6) (x1 : BitVec 5) (x2 : BitVec 5) (x3 : BitVec 5) (x4 : BitVec 3) (x5 : BitVec 1) (x6 : BitVec 7) :
    BitVec.extractLsb' 0 6 (x0 ++ x1 ++ x2 ++ x3 ++ x4 ++ x5 ++ x6 : BitVec 32) = x6.extractLsb' 0 6 :=
  (pickLo _ _ 0 6 (by decide)).trans rfl

theorem cat_6_5_5_8_1_7_at_26 (x0 : BitVec 6) (x1 : BitVec 5) (x2 : BitVec 5) (x3 : BitVec 8) (x4 : BitVec 1) (x5 : BitVec 7) :
    BitVec.extractLsb' 26 6 (x0 ++ x1 ++ x2 ++ x3 ++ x4 ++ x5 : BitVec 32) = x0 :=
  (pickHi _ _ 26 6 (by decide)).trans ((pickHi _ _ 19 6 (by decide)).trans ((pickHi _ _ 18 6 (by decide)).trans ((pickHi _ _ 10 6 (by decide)).trans ((pickHi _ _ 5 6 (by decide)).trans (BitVec.extractLsb'_eq_self)))))

theorem cat_6_5_5_8_1_7_at_16 (x0 : BitVec 6) (x1 : BitVec 5) (x2 : BitVec 5) (x3 : BitVec 8) (x4 : BitVec 1) (x5 : BitVec 7) :
    BitVec.extractLsb' 16 5 (x0 ++ x1 ++ x2 ++ x3 ++ x4 ++ x5 : BitVec 32) = x2 :=
  (pickHi _ _ 16 5 (by decide)).trans ((pickHi _ _ 9 5 (by decide)).trans ((pickHi _ _ 8 5 (by decide)).trans ((pickLo _ _ 0 5 (by decide)).trans (BitVec.extractLsb'_eq_self))))

theorem cat_6_5_5_8_1_7_at_7 (x0 : BitVec 6) (x1 : BitVec 5) (x2 : BitVec 5) (x3 : BitVec 8) (x4 : BitVec 1) (x5 : BitVec 7) :
    BitVec.extractLsb' 7 1 (x0 ++ x1 ++ x2 ++ x3 ++ x4 ++ x5 : BitVec 32) = x4 :=
  (pickHi _ _ 7 1 (by decide)).trans ((pickLo _ _ 0 1 (by decide)).trans (BitVec.extractLsb'_eq_self))

theorem cat_6_5_5_8_1_7_at_0_6 (x0 : BitVec 6) (x1 : BitVec 5) (x2 : BitVec 5) (x3 : BitVec 8) (x4 : BitVec 1) (x5 : BitVec 7) :
    BitVec.extractLsb' 0 6 (x0 ++ x1 ++ x2 ++ x3 ++ x4 ++ x5 : BitVec 32) = x5.extractLsb' 0 6 :=
  (pickLo _ _ 0 6 (by decide)).trans rfl

theorem cat_6_5_21_at_0_6 (x0 : BitVec 6) (x1 : BitVec 5) (x2 : BitVec 21) :
    BitVec.extractLsb' 0 6 (x0 ++ x1 ++ x2 : BitVec 32) = x2.extractLsb' 0 6 :=
  (pickLo _ _ 0 6 (by decide)).trans rfl

theorem cat_6_5_5_7_3_6_at_26 (x0 : BitVec 6) (x1 : BitVec 5) (x2 : BitVec 5) (x3 : BitVec 7) (x4 : BitVec 3) (x5 : BitVec 6) :
    BitVec.extractLsb' 26 6 (x0 ++ x1 ++ x2 ++ x3 ++ x4 ++ x5 : BitVec 32) = x0 :=
  (pickHi _ _ 26 6 (by decide)).trans ((pickHi _ _ 20 6 (by decide)).trans ((pickHi _ _ 17 6 (by decide)).trans ((pickHi _ _ 10 6 (by decide)).trans ((pickHi _ _ 5 6 (by decide)).trans (BitVec.extractLsb'_eq_self)))))

theorem cat_6_5_5_7_3_6_at_16 (x0 : BitVec 6) (x1 : BitVec 5) (x2 : BitVec 5) (x3 : BitVec 7) (x4 : BitVec 3) (x5 : BitVec 6) :
    BitVec.extractLsb' 16 5 (x0 ++ x1 ++ x2 ++ x3 ++ x4 ++ x5 : BitVec 32) = x2 :=
  (pickHi _ _ 16 5 (by decide)).trans ((pickHi _ _ 10 5 (by decide)).trans ((pickHi _ _ 7 5 (by decide)).trans ((pickLo _ _ 0 5 (by decide)).trans (BitVec.extractLsb'_eq_self))))

theorem cat_6_5_5_7_3_6_at_6 (x0 : BitVec 6) (x1 : BitVec 5) (x2 : BitVec 5) (x3 : BitVec 7) (x4 : BitVec 3) (x5 : BitVec 6) :
    BitVec.extractLsb' 6 3 (x0 ++ x1 ++ x2 ++ x3 ++ x4 ++ x5 : BitVec 32) = x4 :=
  (pickHi _ _ 6 3 (by decide)).trans ((pickLo _ _ 0 3 (by decide)).trans (BitVec.extractLsb'_eq_self))

theorem cat_6_5_5_7_3_6_at_0 (x0 : BitVec 6) (x1 : BitVec 5) (x2 : BitVec 5) (x3 : BitVec 7) (x4 : BitVec 3) (x5 : BitVec 6) :
    BitVec.extractLsb' 0 6 (x0 ++ x1 ++ x2 ++ x3 ++ x4 ++ x5 : BitVec 32) = x5 :=
  (pickLo _ _ 0 6 (by decide)).trans (BitVec.extractLsb'_eq_self)

theorem cat_6_5_5_6_4_6_at_26 (x0 : BitVec 6) (x1 : BitVec 5) (x2 : BitVec 5) (x3 : BitVec 6) (x4 : BitVec 4) (x5 : BitVec 6) :
    BitVec.extractLsb' 26 6 (x0 ++ x1 ++ x2 ++ x3 ++ x4 ++ x5 : BitVec 32) = x0 :=
  (pickHi _ _ 26 6 (by decide)).trans ((pickHi _ _ 20 6 (by decide)).trans ((pickHi _ _ 16 6 (by decide)).trans ((pickHi _ _ 10 6 (by decide)).trans ((pickHi _ _ 5 6 (by decide)).trans (BitVec.extractLsb'_eq_self)))))

theorem cat_6_5_5_6_4_6_at_16 (x0 : BitVec 6) (x1 : BitVec 5) (x2 : BitVec 5) (x3 : BitVec 6) (x4 : BitVec 4) (x5 : BitVec 6) :
    BitVec.extractLsb' 16 5 (x0 ++ x1 ++ x2 ++ x3 ++ x4 ++ x5 : BitVec 32) = x2 :=
  (pickHi _ _ 16 5 (by decide)).trans ((pickHi _ _ 10 5 (by decide)).trans ((pickHi _ _ 6 5 (by decide)).trans ((pickLo _ _ 0 5 (by decide)).trans (BitVec.extractLsb'_eq_self))))

theorem cat_6_5_5_6_4_6_at_6 (x0 : BitVec 6) (x1 : BitVec 5) (x2 : BitVec 5) (x3 : BitVec 6) (x4 : BitVec 4) (x5 : BitVec 6) :
    BitVec.extractLsb' 6 4 (x0 ++ x1 ++ x2 ++ x3 ++ x4 ++ x5 : BitVec 32) = x4 :=
  (pickHi _ _ 6 4 (by decide)).trans ((pickLo _ _ 0 4 (by decide)).trans (BitVec.extractLsb'_eq_self))

theorem cat_6_5_5_6_4_6_at_0 (x0 : BitVec 6) (x1 : BitVec 5) (x2 : BitVec 5) (x3 : BitVec 6) (x4 : BitVec 4) (x5 : BitVec 6) :
    BitVec.extractLsb' 0 6 (x0 ++ x1 ++ x2 ++ x3 ++ x4 ++ x5 : BitVec 32) = x5 :=
  (pickLo _ _ 0 6 (by decide)).trans (BitVec.extractLsb'_eq_self)

theorem cat_6_5_5_5_1_4_6_at_26 (x0 : BitVec 6) (x1 : BitVec 5) (x2 : BitVec 5) (x3 : BitVec 5) (x4 : BitVec 1) (x5 : BitVec 4) (x6 : BitVec 6) :
    BitVec.extractLsb' 26 6 (x0 ++ x1 ++ x2 ++ x3 ++ x4 ++ x5 ++ x6 : BitVec 32) = x0 :=
  (pickHi _ _ 26 6 (by decide)).trans ((pickHi _ _ 20 6 (by decide)).trans ((pickHi _ _ 16 6 (by decide)).trans ((pickHi _ _ 15 6 (by decide)).trans ((pickHi _ _ 10 6 (by decide)).trans ((pickHi _ _ 5 6 (by decide)).trans (BitVec.extractLsb'_eq_self))))))

theorem cat_6_5_5_5_1_4_6_at_16 (x0 : BitVec 6) (x1 : BitVec 5) (x2 : BitVec 5) (x3 : BitVec 5) (x4 : BitVec 1) (x5 : BitVec 4) (x6 : BitVec 6) :
    BitVec.extractLsb' 16 5 (x0 ++ x1 ++ x2 ++ x3 ++ x4 ++ x5 ++ x6 : BitVec 32) = x2 :=
  (pickHi _ _ 16 5 (by decide)).trans ((pickHi _ _ 10 5 (by decide)).trans ((pickHi _ _ 6 5 (by decide)).trans ((pickHi _ _ 5 5 (by decide)).trans ((pickLo _ _ 0 5 (by decide)).trans (BitVec.extractLsb'_eq_self)))))

theorem cat_6_5_5_5_1_4_6_at_11 (x0 : BitVec 6) (x1 : BitVec 5) (x2 : BitVec 5) (x3 : BitVec 5) (x4 : BitVec 1) (x5 : BitVec 4) (x6 : BitVec 6) :
    BitVec.extractLsb' 11 5 (x0 ++ x1 ++ x2 ++ x3 ++ x4 ++ x5 ++ x6 : BitVec 32) = x3 :=
  (pickHi _ _ 11 5 (by decide)).trans ((pickHi _ _ 5 5 (by decide)).trans ((pickHi _ _ 1 5 (by decide)).trans ((pickLo _ _ 0 5 (by decide)).trans (BitVec.extractLsb'_eq_self))))

theorem cat_6_5_5_5_1_4_6_at_6 (x0 : BitVec 6) (x1 : BitVec 5) (x2 : BitVec 5) (x3 : BitVec 5) (x4 : BitVec 1) (x5 : BitVec 4) (x6 : BitVec 6) :
    BitVec.extractLsb' 6 4 (x0 ++ x1 ++ x2 ++ x3 ++ x4 ++ x5 ++ x6 : BitVec 32) = x5 :=
  (pickHi _ _ 6 4 (by decide)).trans ((pickLo _ _ 0 4 (by decide)).trans (BitVec.extractLsb'_eq_self))

theorem cat_6_5_5_5_1_4_6_at_0 (x0 : BitVec 6) (x1 : BitVec 5) (x2 : BitVec 5) (x3 : BitVec 5) (x4 : BitVec 1) (x5 : BitVec 4) (x6 : BitVec 6) :
    BitVec.extractLsb' 0 6 (x0 ++ x1 ++ x2 ++ x3 ++ x4 ++ x5 ++ x6 : BitVec 32) = x6 :=
  (pickLo _ _ 0 6 (by decide)).trans (BitVec.extractLsb'_eq_self)

theorem cat_6_16_4_6_at_26 (x0 : BitVec 6) (x1 : BitVec 16) (x2 : BitVec 4) (x3 : BitVec 6) :
    BitVec.extractLsb' 26 6 (x0 ++ x1 ++ x2 ++ x3 : BitVec 32) = x0 :=
  (pickHi _ _ 26 6 (by decide)).trans ((pickHi _ _ 20 6 (by decide)).trans ((pickHi _ _ 16 6 (by decide)).trans (BitVec.extractLsb'_eq_self)))

theorem cat_6_16_4_6_at_6 (x0 : BitVec 6) (x1 : BitVec 16) (x2 : BitVec 4) (x3 : BitVec 6) :
    BitVec.extractLsb' 6 4 (x0 ++ x1 ++ x2 ++ x3 : BitVec 32) = x2 :=
  (pickHi _ _ 6 4 (by decide)).trans ((pickLo _ _ 0 4 (by decide)).trans (BitVec.extractLsb'_eq_self))

theorem cat_6_16_4_6_at_0 (x0 : BitVec 6) (x1 : BitVec 16) (x2 : BitVec 4) (x3 : BitVec 6) :
    BitVec.extractLsb' 0 6 (x0 ++ x1 ++ x2 ++ x3 : BitVec 32) = x3 :=
  (pickLo _ _ 0 6 (by decide)).trans (BitVec.extractLsb'_eq_self)

theorem cat_6_5_5_6_4_6_at_21 (x0 : BitVec 6) (x1 : BitVec 5) (x2 : BitVec 5) (x3 : BitVec 6) (x4 : BitVec 4) (x5 : BitVec 6) :
    BitVec.extractLsb' 21 5 (x0 ++ x1 ++ x2 ++ x3 ++ x4 ++ x5 : BitVec 32) = x1 :=
  (pickHi _ _ 21 5 (by decide)).trans ((pickHi _ _ 15 5 (by decide)).trans ((pickHi _ _ 11 5 (by decide)).trans ((pickHi _ _ 5 5 (by decide)).trans ((pickLo _ _ 0 5 (by decide)).trans (BitVec.extractLsb'_eq_self)))))

theorem cat_6_5_5_11_1_2_2_at_26 (x0 : BitVec 6) (x1 : BitVec 5) (x2 : BitVec 5) (x3 : BitVec 11) (x4 : BitVec 1) (x5 : BitVec 2) (x6 : BitVec 2) :
    BitVec.extractLsb' 26 6 (x0 ++ x1 ++ x2 ++ x3 ++ x4 ++ x5 ++ x6 : BitVec 32) = x0 :=
  (pickHi _ _ 26 6 (by decide)).trans ((pickHi _ _ 24 6 (by decide)).trans ((pickHi _ _ 22 6 (by decide)).trans ((pickHi _ _ 21 6 (by decide)).trans ((pickHi _ _ 10 6 (by decide)).trans ((pickHi _ _ 5 6 (by decide)).trans (BitVec.extractLsb'_eq_self))))))

theorem cat_6_5_5_11_1_2_2_at_21 (x0 : BitVec 6) (x1 : BitVec 5) (x2 : BitVec 5) (x3 : BitVec 11) (x4 : BitVec 1) (x5 : BitVec 2) (x6 : BitVec 2) :
    BitVec.extractLsb' 21 5 (x0 ++ x1 ++ x2 ++ x3 ++ x4 ++ x5 ++ x6 : BitVec 32) = x1 :=
  (pickHi _ _ 21 5 (by decide)).trans ((pickHi _ _ 19 5 (by decide)).trans ((pickHi _ _ 17 5 (by decide)).trans ((pickHi _ _ 16 5 (by decide)).trans ((pickHi _ _ 5 5 (by decide)).trans ((pickLo _ _ 0 5 (by decide)).trans (BitVec.extractLsb'_eq_self))))))

theorem cat_6_5_5_11_1_2_2_at_16 (x0 : BitVec 6) (x1 : BitVec 5) (x2 : BitVec 5) (x3 : BitVec 11) (x4 : BitVec 1) (x5 : BitVec 2) (x6 : BitVec 2) :
    BitVec.extractLsb' 16 5 (x0 ++ x1 ++ x2 ++ x3 ++ x4 ++ x5 ++ x6 : BitVec 32) = x2 :=
  (pickHi _ _ 16 5 (by decide)).trans ((pickHi _ _ 14 5 (by decide)).trans ((pickHi _ _ 12 5 (by decide)).trans ((pickHi _ _ 11 5 (by decide)).trans ((pickLo _ _ 0 5 (by decide)).trans (BitVec.extractLsb'_eq_self)))))

theorem cat_6_5_5_11_1_2_2_at_4 (x0 : BitVec 6) (x1 : BitVec 5) (x2 : BitVec 5) (x3 : BitVec 11) (x4 : BitVec 1) (x5 : BitVec 2) (x6 : BitVec 2) :
    BitVec.extractLsb' 4 1 (x0 ++ x1 ++ x2 ++ x3 ++ x4 ++ x5 ++ x6 : BitVec 32) = x4 :=
  (pickHi _ _ 4 1 (by decide)).trans ((pickHi _ _ 2 1 (by decide)).trans ((pickLo _ _ 0 1 (by decide)).trans (BitVec.extractLsb'_eq_self)))

theorem cat_6_5_5_11_1_2_2_at_2 (x0 : BitVec 6) (x1 : BitVec 5) (x2 : BitVec 5) (x3 : BitVec 11) (x4 : BitVec 1) (x5 : BitVec 2) (x6 : BitVec 2) :
    BitVec.extractLsb' 2 2 (x0 ++ x1 ++ x2 ++ x3 ++ x4 ++ x5 ++ x6 : BitVec 32) = x5 :=
  (pickHi _ _ 2 2 (by decide)).trans ((pickLo _ _ 0 2 (by decide)).trans (BitVec.extractLsb'_eq_self))

theorem cat_6_5_5_11_1_2_2_at_0 (x0 : BitVec 6) (x1 : BitVec 5) (x2 : BitVec 5) (x3 : BitVec 11) (x4 : BitVec 1) (x5 : BitVec 2) (x6 : BitVec 2) :
    BitVec.extractLsb' 0 2 (x0 ++ x1 ++ x2 ++ x3 ++ x4 ++ x5 ++ x6 : BitVec 32) = x6 :=
  (pickLo _ _ 0 2 (by decide)).trans (BitVec.extractLsb'_eq_self)

theorem cat_6_10_4_3_1_1_1_6_at_26 (x0 : BitVec 6) (x1 : BitVec 10) (x2 : BitVec 4) (x3 : BitVec 3) (x4 : BitVec 1) (x5 : BitVec 1) (x6 : BitVec 1) (x7 : BitVec 6) :
    BitVec.extractLsb' 26 6 (x0 ++ x1 ++ x2 ++ x3 ++ x4 ++ x5 ++ x6 ++ x7 : BitVec 32) = x0 :=
  (pickHi _ _ 26 6 (by decide)).trans ((pickHi _ _ 20 6 (by decide)).trans ((pickHi _ _ 19 6 (by decide)).trans ((pickHi _ _ 18 6 (by decide)).trans ((pickHi _ _ 17 6 (by decide)).trans ((pickHi _ _ 14 6 (by decide)).trans ((pickHi _ _ 10 6 (by decide)).trans (BitVec.extractLsb'_eq_self)))))))

theorem cat_6_10_4_3_1_1_1_6_at_16 (x0 : BitVec 6) (x1 : BitVec 10) (x2 : BitVec 4) (x3 : BitVec 3) (x4 : BitVec 1) (x5 : BitVec 1) (x6 : BitVec 1) (x7 : BitVec 6) :
    BitVec.extractLsb' 16 10 (x0 ++ x1 ++ x2 ++ x3 ++ x4 ++ x5 ++ x6 ++ x7 : BitVec 32) = x1 :=
  (pickHi _ _ 16 10 (by decide)).trans ((pickHi _ _ 10 10 (by decide)).trans ((pickHi _ _ 9 10 (by decide)).trans ((pickHi _ _ 8 10 (by decide)).trans ((pickHi _ _ 7 10 (by decide)).trans ((pickHi _ _ 4 10 (by decide)).trans ((pickLo _ _ 0 10 (by decide)).trans (BitVec.extractLsb'_eq_self)))))))

theorem cat_6_10_4_3_1_1_1_6_at_12 (x0 : BitVec 6) (x1 : BitVec 10) (x2 : BitVec 4) (x3 : BitVec 3) (x4 : BitVec 1) (x5 : BitVec 1) (x6 : BitVec 1) (x7 : BitVec 6) :
    BitVec.extractLsb' 12 4 (x0 ++ x1 ++ x2 ++ x3 ++ x4 ++ x5 ++ x6 ++ x7 : BitVec 32) = x2 :=
  (pickHi _ _ 12 4 (by decide)).trans ((pickHi _ _ 6 4 (by decide)).trans ((pickHi _ _ 5 4 (by decide)).trans ((pickHi _ _ 4 4 (by decide)).trans ((pickHi _ _ 3 4 (by decide)).trans ((pickLo _ _ 0 4 (by decide)).trans (BitVec.extractLsb'_eq_self))))))

theorem cat_6_10_4_3_1_1_1_6_at_9 (x0 : BitVec 6) (x1 : BitVec 10) (x2 : BitVec 4) (x3 : BitVec 3) (x4 : BitVec 1) (x5 : BitVec 1) (x6 : BitVec 1) (x7 : BitVec 6) :
    BitVec.extractLsb' 9 3 (x0 ++ x1 ++ x2 ++ x3 ++ x4 ++ x5 ++ x6 ++ x7 : BitVec 32) = x3 :=
  (pickHi _ _ 9 3 (by decide)).trans ((pickHi _ _ 3 3 (by decide)).trans ((pickHi _ _ 2 3 (by decide)).trans ((pickHi _ _ 1 3 (by decide)).trans ((pickLo _ _ 0 3 (by decide)).trans (BitVec.extractLsb'_eq_self)))))

theorem cat_6_10_4_3_1_1_1_6_at_8 (x0 : BitVec 6) (x1 : BitVec 10) (x2 : BitVec 4) (x3 : BitVec 3) (x4 : BitVec 1) (x5 : BitVec 1) (x6 : BitVec 1) (x7 : BitVec 6) :
    BitVec.extractLsb' 8 1 (x0 ++ x1 ++ x2 ++ x3 ++ x4 ++ x5 ++ x6 ++ x7 : BitVec 32) = x4 :=
  (pickHi _ _ 8 1 (by decide)).trans ((pickHi _ _ 2 1 (by decide)).trans ((pickHi _ _ 1 1 (by decide)).trans ((pickLo _ _ 0 1 (by decide)).trans (BitVec.extractLsb'_eq_self))))

theorem cat_6_10_4_3_1_1_1_6_at_7 (x0 : BitVec 6) (x1 : BitVec 10) (x2 : BitVec 4) (x3 : BitVec 3) (x4 : BitVec 1) (x5 : BitVec 1) (x6 : BitVec 1) (x7 : BitVec 6) :
    BitVec.extractLsb' 7 1 (x0 ++ x1 ++ x2 ++ x3 ++ x4 ++ x5 ++ x6 ++ x7 : BitVec 32) = x5 :=
  (pickHi _ _ 7 1 (by decide)).trans ((pickHi _ _ 1 1 (by decide)).trans ((pickLo _ _ 0 1 (by decide)).trans (BitVec.extractLsb'_eq_self)))

theorem cat_6_10_4_3_1_1_1_6_at_6 (x0 : BitVec 6) (x1 : BitVec 10) (x2 : BitVec 4) (x3 : BitVec 3) (x4 : BitVec 1) (x5 : BitVec 1) (x6 : BitVec 1) (x7 : BitVec 6) :
    BitVec.extractLsb' 6 1 (x0 ++ x1 ++ x2 ++ x3 ++ x4 ++ x5 ++ x6 ++ x7 : BitVec 32) = x6 :=
  (pickHi _ _ 6 1 (by decide)).trans ((pickLo _ _ 0 1 (by decide)).trans (BitVec.extractLsb'_eq_self))

theorem cat_6_5_5_5_1_3_7_at_26 (x0 : BitVec 6) (x1 : BitVec 5) (x2 : BitVec 5) (x3 : BitVec 5) (x4 : BitVec 1) (x5 : BitVec 3) (x6 : BitVec 7) :
    BitVec.extractLsb' 26 6 (x0 ++ x1 ++ x2 ++ x3 ++ x4 ++ x5 ++ x6 : BitVec 32) = x0 :=
  (pickHi _ _ 26 6 (by decide)).trans ((pickHi _ _ 19 6 (by decide)).trans ((pickHi _ _ 16 6 (by decide)).trans ((pickHi _ _ 15 6 (by decide)).trans ((pickHi _ _ 10 6 (by decide)).trans ((pickHi _ _ 5 6 (by decide)).trans (BitVec.extractLsb'_eq_self))))))

theorem cat_6_5_5_5_1_3_7_at_21 (x0 : BitVec 6) (x1 : BitVec 5) (x2 : BitVec 5) (x3 : BitVec 5) (x4 : BitVec 1) (x5 : BitVec 3) (x6 : BitVec 7) :
    BitVec.extractLsb' 21 5 (x0 ++ x1 ++ x2 ++ x3 ++ x4 ++ x5 ++ x6 : BitVec 32) = x1 :=
  (pickHi _ _ 21 5 (by decide)).trans ((pickHi _ _ 14 5 (by decide)).trans ((pickHi _ _ 11 5 (by decide)).trans ((pickHi _ _ 10 5 (by decide)).trans ((pickHi _ _ 5 5 (by decide)).trans ((pickLo _ _ 0 5 (by decide)).trans (BitVec.extractLsb'_eq_self))))))

theorem cat_6_5_5_5_1_3_7_at_16 (x0 : BitVec 6) (x1 : BitVec 5) (x2 : BitVec 5) (x3 : BitVec 5) (x4 : BitVec 1) (x5 : BitVec 3) (x6 : BitVec 7) :
    BitVec.extractLsb' 16 5 (x0 ++ x1 ++ x2 ++ x3 ++ x4 ++ x5 ++ x6 : BitVec 32) = x2 :=
  (pickHi _ _ 16 5 (by decide)).trans ((pickHi _ _ 9 5 (by decide)).trans ((pickHi _ _ 6 5 (by decide)).trans ((pickHi _ _ 5 5 (by decide)).trans ((pickLo _ _ 0 5 (by decide)).trans (BitVec.extractLsb'_eq_self)))))

theorem cat_6_5_5_5_1_3_7_at_11 (x0 : BitVec 6) (x1 : BitVec 5) (x2 : BitVec 5) (x3 : BitVec 5) (x4 : BitVec 1) (x5 : BitVec 3) (x6 : BitVec 7) :
    BitVec.extractLsb' 11 5 (x0 ++ x1 ++ x2 ++ x3 ++ x4 ++ x5 ++ x6 : BitVec 32) = x3 :=
  (pickHi _ _ 11 5 (by decide)).trans ((pickHi _ _ 4 5 (by decide)).trans ((pickHi _ _ 1 5 (by decide)).trans ((pickLo _ _ 0 5 (by decide)).trans (BitVec.extractLsb'_eq_self))))

theorem cat_6_5_5_5_1_3_7_at_10 (x0 : BitVec 6) (x1 : BitVec 5) (x2 : BitVec 5) (x3 : BitVec 5) (x4 : BitVec 1) (x5 : BitVec 3) (x6 : BitVec 7) :
    BitVec.extractLsb' 10 1 (x0 ++ x1 ++ x2 ++ x3 ++ x4 ++ x5 ++ x6 : BitVec 32) = x4 :=
  (pickHi _ _ 10 1 (by decide)).trans ((pickHi _ _ 3 1 (by decide)).trans ((pickLo _ _ 0 1 (by decide)).trans (BitVec.extractLsb'_eq_self)))

theorem cat_6_5_5_5_1_3_7_at_7 (x0 : BitVec 6) (x1 : BitVec 5) (x2 : BitVec 5) (x3 : BitVec 5) (x4 : BitVec 1) (x5 : BitVec 3) (x6 : BitVec 7) :
    BitVec.extractLsb' 7 3 (x0 ++ x1 ++ x2 ++ x3 ++ x4 ++ x5 ++ x6 : BitVec 32) = x5 :=
  (pickHi _ _ 7 3 (by decide)).trans ((pickLo _ _ 0 3 (by decide)).trans (BitVec.extractLsb'_eq_self))

theorem cat_6_5_5_5_1_3_7_at_0 (x0 : BitVec 6) (x1 : BitVec 5) (x2 : BitVec 5) (x3 : BitVec 5) (x4 : BitVec 1) (x5 : BitVec 3) (x6 : BitVec 7) :
    BitVec.extractLsb' 0 7 (x0 ++ x1 ++ x2 ++ x3 ++ x4 ++ x5 ++ x6 : BitVec 32) = x6 :=
  (pickLo _ _ 0 7 (by decide)).trans (BitVec.extractLsb'_eq_self)

theorem cat_6_5_5_6_3_7_at_26 (x0 : BitVec 6) (x1 : BitVec 5) (x2 : BitVec 5) (x3 : BitVec 6) (x4 : BitVec 3) (x5 : BitVec 7) :
    BitVec.extractLsb' 26 6 (x0 ++ x1 ++ x2 ++ x3 ++ x4 ++ x5 : BitVec 32) = x0 :=
  (pickHi _ _ 26 6 (by decide)).trans ((pickHi _ _ 19 6 (by decide)).trans ((pickHi _ _ 16 6 (by decide)).trans ((pickHi _ _ 10 6 (by decide)).trans ((pickHi _ _ 5 6 (by decide)).trans (BitVec.extractLsb'_eq_self)))))

theorem cat_6_5_5_6_3_7_at_21 (x0 : BitVec 6) (x1 : BitVec 5) (x2 : BitVec 5) (x3 : BitVec 6) (x4 : BitVec 3) (x5 : BitVec 7) :
    BitVec.extractLsb' 21 5 (x0 ++ x1 ++ x2 ++ x3 ++ x4 ++ x5 : BitVec 32) = x1 :=
  (pickHi _ _ 21 5 (by decide)).trans ((pickHi _ _ 14 5 (by decide)).trans ((pickHi _ _ 11 5 (by decide)).trans ((pickHi _ _ 5 5 (by decide)).trans ((pickLo _ _ 0 5 (by decide)).trans (BitVec.extractLsb'_eq_self)))))

theorem cat_6_5_5_6_3_7_at_16 (x0 : BitVec 6) (x1 : BitVec 5) (x2 : BitVec 5) (x3 : BitVec 6) (x4 : BitVec 3) (x5 : BitVec 7) :
    BitVec.extractLsb' 16 5 (x0 ++ x1 ++ x2 ++ x3 ++ x4 ++ x5 : BitVec 32) = x2 :=
  (pickHi _ _ 16 5 (by decide)).trans ((pickHi _ _ 9 5 (by decide)).trans ((pickHi _ _ 6 5 (by decide)).trans ((pickLo _ _ 0 5 (by decide)).trans (BitVec.extractLsb'_eq_self))))

theorem cat_6_5_5_6_3_7_at_7 (x0 : BitVec 6) (x1 : BitVec 5) (x2 : BitVec 5) (x3 : BitVec 6) (x4 : BitVec 3) (x5 : BitVec 7) :
    BitVec.extractLsb' 7 3 (x0 ++ x1 ++ x2 ++ x3 ++ x4 ++ x5 : BitVec 32) = x4 :=
  (pickHi _ _ 7 3 (by decide)).trans ((pickLo _ _ 0 3 (by decide)).trans (BitVec.extractLsb'_eq_self))

theorem cat_6_5_5_6_3_7_at_10_1 (x0 : BitVec 6) (x1 : BitVec 5) (x2 : BitVec 5) (x3 : BitVec 6) (x4 : BitVec 3) (x5 : BitVec 7) :
    BitVec.extractLsb' 10 1 (x0 ++ x1 ++ x2 ++ x3 ++ x4 ++ x5 : BitVec 32) = x3.extractLsb' 0 1 :=
  (pickHi _ _ 10 1 (by decide)).trans ((pickHi _ _ 3 1 (by decide)).trans ((pickLo _ _ 0 1 (by decide)).trans rfl))

theorem cat_6_5_5_6_3_7_at_0 (x0 : BitVec 6) (x1 : BitVec 5) (x2 : BitVec 5) (x3 : BitVec 6) (x4 : BitVec 3) (x5 : BitVec 7) :
    BitVec.extractLsb' 0 7 (x0 ++ x1 ++ x2 ++ x3 ++ x4 ++ x5 : BitVec 32) = x5 :=
  (pickLo _ _ 0 7 (by decide)).trans (BitVec.extractLsb'_eq_self)

theorem cat_6_5_5_5_11_at_0_7 (x0 : BitVec 6) (x1 : BitVec 5) (x2 : BitVec 5) (x3 : BitVec 5) (x4 : BitVec 11) :
    BitVec.extractLsb' 0 7 (x0 ++ x1 ++ x2 ++ x3 ++ x4 : BitVec 32) = x4.extractLsb' 0 7 :=
  (pickLo _ _ 0 7 (by decide)).trans rfl

theorem cat_6_5_5_16_at_0_7 (x0 : BitVec 6) (x1 : BitVec 5) (x2 : BitVec 5) (x3 : BitVec 16) :
    BitVec.extractLsb' 0 7 (x0 ++ x1 ++ x2 ++ x3 : BitVec 32) = x3.extractLsb' 0 7 :=
  (pickLo _ _ 0 7 (by decide)).trans rfl

theorem cat_6_5_10_1_3_7_at_26 (x0 : BitVec 6) (x1 : BitVec 5) (x2 : BitVec 10) (x3 : BitVec 1) (x4 : BitVec 3) (x5 : BitVec 7) :
    BitVec.extractLsb' 26 6 (x0 ++ x1 ++ x2 ++ x3 ++ x4 ++ x5 : BitVec 32) = x0 :=
  (pickHi _ _ 26 6 (by decide)).trans ((pickHi _ _ 19 6 (by decide)).trans ((pickHi _ _ 16 6 (by decide)).trans ((pickHi _ _ 15 6 (by decide)).trans ((pickHi _ _ 5 6 (by decide)).trans (BitVec.extractLsb'_eq_self)))))

theorem cat_6_5_10_1_3_7_at_21 (x0 : BitVec 6) (x1 : BitVec 5) (x2 : BitVec 10) (x3 : BitVec 1) (x4 : BitVec 3) (x5 : BitVec 7) :
    BitVec.extractLsb' 21 5 (x0 ++ x1 ++ x2 ++ x3 ++ x4 ++ x5 : BitVec 32) = x1 :=
  (pickHi _ _ 21 5 (by decide)).trans ((pickHi _ _ 14 5 (by decide)).trans ((pickHi _ _ 11 5 (by decide)).trans ((pickHi _ _ 10 5 (by decide)).trans ((pickLo _ _ 0 5 (by decide)).trans (BitVec.extractLsb'_eq_self)))))

theorem cat_6_5_10_1_3_7_at_10 (x0 : BitVec 6) (x1 : BitVec 5) (x2 : BitVec 10) (x3 : BitVec 1) (x4 : BitVec 3) (x5 : BitVec 7) :
    BitVec.extractLsb' 10 1 (x0 ++ x1 ++ x2 ++ x3 ++ x4 ++ x5 : BitVec 32) = x3 :=
  (pickHi _ _ 10 1 (by decide)).trans ((pickHi _ _ 3 1 (by decide)).trans ((pickLo _ _ 0 1 (by decide)).trans (BitVec.extractLsb'_eq_self)))

theorem cat_6_5_10_1_3_7_at_7 (x0 : BitVec 6) (x1 : BitVec 5) (x2 : BitVec 10) (x3 : BitVec 1) (x4 : BitVec 3) (x5 : BitVec 7) :
    BitVec.extractLsb' 7 3 (x0 ++ x1 ++ x2 ++ x3 ++ x4 ++ x5 : BitVec 32) = x4 :=
  (pickHi _ _ 7 3 (by decide)).trans ((pickLo _ _ 0 3 (by decide)).trans (BitVec.extractLsb'_eq_self))

theorem cat_6_5_10_1_3_7_at_0 (x0 : BitVec 6) (x1 : BitVec 5) (x2 : BitVec 10) (x3 : BitVec 1) (x4 : BitVec 3) (x5 : BitVec 7) :
    BitVec.extractLsb' 0 7 (x0 ++ x1 ++ x2 ++ x3 ++ x4 ++ x5 : BitVec 32) = x5 :=
  (pickLo _ _ 0 7 (by decide)).trans (BitVec.extractLsb'_eq_self)

theorem cat_6_5_5_5_1_3_7_at_0_4 (x0 : BitVec 6) (x1 : BitVec 5) (x2 : BitVec 5) (x3 : BitVec 5) (x4 : BitVec 1) (x5 : BitVec 3) (x6 : BitVec 7) :
    BitVec.extractLsb' 0 4 (x0 ++ x1 ++ x2 ++ x3 ++ x4 ++ x5 ++ x6 : BitVec 32) = x6.extractLsb' 0 4 :=
  (pickLo _ _ 0 4 (by decide)).trans rfl

theorem cat_6_5_5_5_1_3_3_4_at_26 (x0 : BitVec 6) (x1 : BitVec 5) (x2 : BitVec 5) (x3 : BitVec 5) (x4 : BitVec 1) (x5 : BitVec 3) (x6 : BitVec 3) (x7 : BitVec 4) :
    BitVec.extractLsb' 26 6 (x0 ++ x1 ++ x2 ++ x3 ++ x4 ++ x5 ++ x6 ++ x7 : BitVec 32) = x0 :=
  (pickHi _ _ 26 6 (by decide)).trans ((pickHi _ _ 22 6 (by decide)).trans ((pickHi _ _ 19 6 (by decide)).trans ((pickHi _ _ 16 6 (by decide)).trans ((pickHi _ _ 15 6 (by decide)).trans ((pickHi _ _ 10 6 (by decide)).trans ((pickHi _ _ 5 6 (by decide)).trans (BitVec.extractLsb'_eq_self)))))))

theorem cat_6_5_5_5_1_3_3_4_at_21 (x0 : BitVec 6) (x1 : BitVec 5) (x2 : BitVec 5) (x3 : BitVec 5) (x4 : BitVec 1) (x5 : BitVec 3) (x6 : BitVec 3) (x7 : BitVec 4) :
    BitVec.extractLsb' 21 5 (x0 ++ x1 ++ x2 ++ x3 ++ x4 ++ x5 ++ x6 ++ x7 : BitVec 32) = x1 :=
  (pickHi _ _ 21 5 (by decide)).trans ((pickHi _ _ 17 5 (by decide)).trans ((pickHi _ _ 14 5 (by decide)).trans ((pickHi _ _ 11 5 (by decide)).trans ((pickHi _ _ 10 5 (by decide)).trans ((pickHi _ _ 5 5 (by decide)).trans ((pickLo _ _ 0 5 (by decide)).trans (BitVec.extractLsb'_eq_self)))))))

theorem cat_6_5_5_5_1_3_3_4_at_16 (x0 : BitVec 6) (x1 : BitVec 5) (x2 : BitVec 5) (x3 : BitVec 5) (x4 : BitVec 1) (x5 : BitVec 3) (x6 : BitVec 3) (x7 : BitVec 4) :
    BitVec.extractLsb' 16 5 (x0 ++ x1 ++ x2 ++ x3 ++ x4 ++ x5 ++ x6 ++ x7 : BitVec 32) = x2 :=
  (pickHi _ _ 16 5 (by decide)).trans ((pickHi _ _ 12 5 (by decide)).trans ((pickHi _ _ 9 5 (by decide)).trans ((pickHi _ _ 6 5 (by decide)).trans ((pickHi _ _ 5 5 (by decide)).trans ((pickLo _ _ 0 5 (by decide)).trans (BitVec.extractLsb'_eq_self))))))

theorem cat_6_5_5_5_1_3_3_4_at_10 (x0 : BitVec 6) (x1 : BitVec 5) (x2 : BitVec 5) (x3 : BitVec 5) (x4 : BitVec 1) (x5 : BitVec 3) (x6 : BitVec 3) (x7 : BitVec 4) :
    BitVec.extractLsb' 10 1 (x0 ++ x1 ++ x2 ++ x3 ++ x4 ++ x5 ++ x6 ++ x7 : BitVec 32) = x4 :=
  (pickHi _ _ 10 1 (by decide)).trans ((pickHi _ _ 6 1 (by decide)).trans ((pickHi _ _ 3 1 (by decide)).trans ((pickLo _ _ 0 1 (by decide)).trans (BitVec.extractLsb'_eq_self))))

theorem cat_6_5_5_5_1_3_3_4_at_7 (x0 : BitVec 6) (x1 : BitVec 5) (x2 : BitVec 5) (x3 : BitVec 5) (x4 : BitVec 1) (x5 : BitVec 3) (x6 : BitVec 3) (x7 : BitVec 4) :
    BitVec.extractLsb' 7 3 (x0 ++ x1 ++ x2 ++ x3 ++ x4 ++ x5 ++ x6 ++ x7 : BitVec 32) = x5 :=
  (pickHi _ _ 7 3 (by decide)).trans ((pickHi _ _ 3 3 (by decide)).trans ((pickLo _ _ 0 3 (by decide)).trans (BitVec.extractLsb'_eq_self)))

theorem cat_6_5_5_5_1_3_3_4_at_4 (x0 : BitVec 6) (x1 : BitVec 5) (x2 : BitVec 5) (x3 : BitVec 5) (x4 : BitVec 1) (x5 : BitVec 3) (x6 : BitVec 3) (x7 : BitVec 4) :
    BitVec.extractLsb' 4 3 (x0 ++ x1 ++ x2 ++ x3 ++ x4 ++ x5 ++ x6 ++ x7 : BitVec 32) = x6 :=
  (pickHi _ _ 4 3 (by decide)).trans ((pickLo _ _ 0 3 (by decide)).trans (BitVec.extractLsb'_eq_self))

theorem cat_6_5_5_5_1_3_3_4_at_0 (x0 : BitVec 6) (x1 : BitVec 5) (x2 : BitVec 5) (x3 : BitVec 5) (x4 : BitVec 1) (x5 : BitVec 3) (x6 : BitVec 3) (x7 : BitVec 4) :
    BitVec.extractLsb' 0 4 (x0 ++ x1 ++ x2 ++ x3 ++ x4 ++ x5 ++ x6 ++ x7 : BitVec 32) = x7 :=
  (pickLo _ _ 0 4 (by decide)).trans (BitVec.extractLsb'_eq_self)

theorem cat_6_5_5_5_1_3_1_2_4_at_26 (x0 : BitVec 6) (x1 : BitVec 5) (x2 : BitVec 5) (x3 : BitVec 5) (x4 : BitVec 1) (x5 : BitVec 3) (x6 : BitVec 1) (x7 : BitVec 2) (x8 : BitVec 4) :
    BitVec.extractLsb' 26 6 (x0 ++ x1 ++ x2 ++ x3 ++ x4 ++ x5 ++ x6 ++ x7 ++ x8 : BitVec 32) = x0 :=
  (pickHi _ _ 26 6 (by decide)).trans ((pickHi _ _ 22 6 (by decide)).trans ((pickHi _ _ 20 6 (by decide)).trans ((pickHi _ _ 19 6 (by decide)).trans ((pickHi _ _ 16 6 (by decide)).trans ((pickHi _ _ 15 6 (by decide)).trans ((pickHi _ _ 10 6 (by decide)).trans ((pickHi _ _ 5 6 (by decide)).trans (BitVec.extractLsb'_eq_self))))))))

theorem cat_6_5_5_5_1_3_1_2_4_at_21 (x0 : BitVec 6) (x1 : BitVec 5) (x2 : BitVec 5) (x3 : BitVec 5) (x4 : BitVec 1) (x5 : BitVec 3) (x6 : BitVec 1) (x7 : BitVec 2) (x8 : BitVec 4) :
    BitVec.extractLsb' 21 5 (x0 ++ x1 ++ x2 ++ x3 ++ x4 ++ x5 ++ x6 ++ x7 ++ x8 : BitVec 32) = x1 :=
  (pickHi _ _ 21 5 (by decide)).trans ((pickHi _ _ 17 5 (by decide)).trans ((pickHi _ _ 15 5 (by decide)).trans ((pickHi _ _ 14 5 (by decide)).trans ((pickHi _ _ 11 5 (by decide)).trans ((pickHi _ _ 10 5 (by decide)).trans ((pickHi _ _ 5 5 (by decide)).trans ((pickLo _ _ 0 5 (by decide)).trans (BitVec.extractLsb'_eq_self))))))))

theorem cat_6_5_5_5_1_3_1_2_4_at_16 (x0 : BitVec 6) (x1 : BitVec 5) (x2 : BitVec 5) (x3 : BitVec 5) (x4 : BitVec 1) (x5 : BitVec 3) (x6 : BitVec 1) (x7 : BitVec 2) (x8 : BitVec 4) :
    BitVec.extractLsb' 16 5 (x0 ++ x1 ++ x2 ++ x3 ++ x4 ++ x5 ++ x6 ++ x7 ++ x8 : BitVec 32) = x2 :=
  (pickHi _ _ 16 5 (by decide)).trans ((pickHi _ _ 12 5 (by decide)).trans ((pickHi _ _ 10 5 (by decide)).trans ((pickHi _ _ 9 5 (by decide)).trans ((pickHi _ _ 6 5 (by decide)).trans ((pickHi _ _ 5 5 (by decide)).trans ((pickLo _ _ 0 5 (by decide)).trans (BitVec.extractLsb'_eq_self)))))))

theorem cat_6_5_5_5_1_3_1_2_4_at_11 (x0 : BitVec 6) (x1 : BitVec 5) (x2 : BitVec 5) (x3 : BitVec 5) (x4 : BitVec 1) (x5 : BitVec 3) (x6 : BitVec 1) (x7 : BitVec 2) (x8 : BitVec 4) :
    BitVec.extractLsb' 11 5 (x0 ++ x1 ++ x2 ++ x3 ++ x4 ++ x5 ++ x6 ++ x7 ++ x8 : BitVec 32) = x3 :=
  (pickHi _ _ 11 5 (by decide)).trans ((pickHi _ _ 7 5 (by decide)).trans ((pickHi _ _ 5 5 (by decide)).trans ((pickHi _ _ 4 5 (by decide)).trans ((pickHi _ _ 1 5 (by decide)).trans ((pickLo _ _ 0 5 (by decide)).trans (BitVec.extractLsb'_eq_self))))))

theorem cat_6_5_5_5_1_3_1_2_4_at_10 (x0 : BitVec 6) (x1 : BitVec 5) (x2 : BitVec 5) (x3 : BitVec 5) (x4 : BitVec 1) (x5 : BitVec 3) (x6 : BitVec 1) (x7 : BitVec 2) (x8 : BitVec 4) :
    BitVec.extractLsb' 10 1 (x0 ++ x1 ++ x2 ++ x3 ++ x4 ++ x5 ++ x6 ++ x7 ++ x8 : BitVec 32) = x4 :=
  (pickHi _ _ 10 1 (by decide)).trans ((pickHi _ _ 6 1 (by decide)).trans ((pickHi _ _ 4 1 (by decide)).trans ((pickHi _ _ 3 1 (by decide)).trans ((pickLo _ _ 0 1 (by decide)).trans (BitVec.extractLsb'_eq_self)))))

theorem cat_6_5_5_5_1_3_1_2_4_at_7 (x0 : BitVec 6) (x1 : BitVec 5) (x2 : BitVec 5) (x3 : BitVec 5) (x4 : BitVec 1) (x5 : BitVec 3) (x6 : BitVec 1) (x7 : BitVec 2) (x8 : BitVec 4) :
    BitVec.extractLsb' 7 3 (x0 ++ x1 ++ x2 ++ x3 ++ x4 ++ x5 ++ x6 ++ x7 ++ x8 : BitVec 32) = x5 :=
  (pickHi _ _ 7 3 (by decide)).trans ((pickHi _ _ 3 3 (by decide)).trans ((pickHi _ _ 1 3 (by decide)).trans ((pickLo _ _ 0 3 (by decide)).trans (BitVec.extractLsb'_eq_self))))

theorem cat_6_5_5_5_1_3_1_2_4_at_4 (x0 : BitVec 6) (x1 : BitVec 5) (x2 : BitVec 5) (x3 : BitVec 5) (x4 : BitVec 1) (x5 : BitVec 3) (x6 : BitVec 1) (x7 : BitVec 2) (x8 : BitVec 4) :
    BitVec.extractLsb' 4 2 (x0 ++ x1 ++ x2 ++ x3 ++ x4 ++ x5 ++ x6 ++ x7 ++ x8 : BitVec 32) = x7 :=
  (pickHi _ _ 4 2 (by decide)).trans ((pickLo _ _ 0 2 (by decide)).trans (BitVec.extractLsb'_eq_self))

theorem cat_6_5_5_5_1_3_1_2_4_at_0 (x0 : BitVec 6) (x1 : BitVec 5) (x2 : BitVec 5) (x3 : BitVec 5) (x4 : BitVec 1) (x5 : BitVec 3) (x6 : BitVec 1) (x7 : BitVec 2) (x8 : BitVec 4) :
    BitVec.extractLsb' 0 4 (x0 ++ x1 ++ x2 ++ x3 ++ x4 ++ x5 ++ x6 ++ x7 ++ x8 : BitVec 32) = x8 :=
  (pickLo _ _ 0 4 (by decide)).trans (BitVec.extractLsb'_eq_self)

theorem cat_6_5_5_5_1_3_1_1_1_4_at_26 (x0 : BitVec 6) (x1 : BitVec 5) (x2 : BitVec 5) (x3 : BitVec 5) (x4 : BitVec 1) (x5 : BitVec 3) (x6 : BitVec 1) (x7 : BitVec 1) (x8 : BitVec 1) (x9 : BitVec 4) :
    BitVec.extractLsb' 26 6 (x0 ++ x1 ++ x2 ++ x3 ++ x4 ++ x5 ++ x6 ++ x7 ++ x8 ++ x9 : BitVec 32) = x0 :=
  (pickHi _ _ 26 6 (by decide)).trans ((pickHi _ _ 22 6 (by decide)).trans ((pickHi _ _ 21 6 (by decide)).trans ((pickHi _ _ 20 6 (by decide)).trans ((pickHi _ _ 19 6 (by decide)).trans ((pickHi _ _ 16 6 (by decide)).trans ((pickHi _ _ 15 6 (by decide)).trans ((pickHi _ _ 10 6 (by decide)).trans ((pickHi _ _ 5 6 (by decide)).trans (BitVec.extractLsb'_eq_self)))))))))

theorem cat_6_5_5_5_1_3_1_1_1_4_at_21 (x0 : BitVec 6) (x1 : BitVec 5) (x2 : BitVec 5) (x3 : BitVec 5) (x4 : BitVec 1) (x5 : BitVec 3) (x6 : BitVec 1) (x7 : BitVec 1) (x8 : BitVec 1) (x9 : BitVec 4) :
    BitVec.extractLsb' 21 5 (x0 ++ x1 ++ x2 ++ x3 ++ x4 ++ x5 ++ x6 ++ x7 ++ x8 ++ x9 : BitVec 32) = x1 :=
  (pickHi _ _ 21 5 (by decide)).trans ((pickHi _ _ 17 5 (by decide)).trans ((pickHi _ _ 16 5 (by decide)).trans ((pickHi _ _ 15 5 (by decide)).trans ((pickHi _ _ 14 5 (by decide)).trans ((pickHi _ _ 11 5 (by decide)).trans ((pickHi _ _ 10 5 (by decide)).trans ((pickHi _ _ 5 5 (by decide)).trans ((pickLo _ _ 0 5 (by decide)).trans (BitVec.extractLsb'_eq_self)))))))))

theorem cat_6_5_5_5_1_3_1_1_1_4_at_16 (x0 : BitVec 6) (x1 : BitVec 5) (x2 : BitVec 5) (x3 : BitVec 5) (x4 : BitVec 1) (x5 : BitVec 3) (x6 : BitVec 1) (x7 : BitVec 1) (x8 : BitVec 1) (x9 : BitVec 4) :
    BitVec.extractLsb' 16 5 (x0 ++ x1 ++ x2 ++ x3 ++ x4 ++ x5 ++ x6 ++ x7 ++ x8 ++ x9 : BitVec 32) = x2 :=
  (pickHi _ _ 16 5 (by decide)).trans ((pickHi _ _ 12 5 (by decide)).trans ((pickHi _ _ 11 5 (by decide)).trans ((pickHi _ _ 10 5 (by decide)).trans ((pickHi _ _ 9 5 (by decide)).trans ((pickHi _ _ 6 5 (by decide)).trans ((pickHi _ _ 5 5 (by decide)).trans ((pickLo _ _ 0 5 (by decide)).trans (BitVec.extractLsb'_eq_self))))))))

theorem cat_6_5_5_5_1_3_1_1_1_4_at_11 (x0 : BitVec 6) (x1 : BitVec 5) (x2 : BitVec 5) (x3 : BitVec 5) (x4 : BitVec 1) (x5 : BitVec 3) (x6 : BitVec 1) (x7 : BitVec 1) (x8 : BitVec 1) (x9 : BitVec 4) :
    BitVec.extractLsb' 11 5 (x0 ++ x1 ++ x2 ++ x3 ++ x4 ++ x5 ++ x6 ++ x7 ++ x8 ++ x9 : BitVec 32) = x3 :=
  (pickHi _ _ 11 5 (by decide)).trans ((pickHi _ _ 7 5 (by decide)).trans ((pickHi _ _ 6 5 (by decide)).trans ((pickHi _ _ 5 5 (by decide)).trans ((pickHi _ _ 4 5 (by decide)).trans ((pickHi _ _ 1 5 (by decide)).trans ((pickLo _ _ 0 5 (by decide)).trans (BitVec.extractLsb'_eq_self)))))))

theorem cat_6_5_5_5_1_3_1_1_1_4_at_10 (x0 : BitVec 6) (x1 : BitVec 5) (x2 : BitVec 5) (x3 : BitVec 5) (x4 : BitVec 1) (x5 : BitVec 3) (x6 : BitVec 1) (x7 : BitVec 1) (x8 : BitVec 1) (x9 : BitVec 4) :
    BitVec.extractLsb' 10 1 (x0 ++ x1 ++ x2 ++ x3 ++ x4 ++ x5 ++ x6 ++ x7 ++ x8 ++ x9 : BitVec 32) = x4 :=
  (pickHi _ _ 10 1 (by decide)).trans ((pickHi _ _ 6 1 (by decide)).trans ((pickHi _ _ 5 1 (by decide)).trans ((pickHi _ _ 4 1 (by decide)).trans ((pickHi _ _ 3 1 (by decide)).trans ((pickLo _ _ 0 1 (by decide)).trans (BitVec.extractLsb'_eq_self))))))

theorem cat_6_5_5_5_1_3_1_1_1_4_at_7 (x0 : BitVec 6) (x1 : BitVec 5) (x2 : BitVec 5) (x3 : BitVec 5) (x4 : BitVec 1) (x5 : BitVec 3) (x6 : BitVec 1) (x7 : BitVec 1) (x8 : BitVec 1) (x9 : BitVec 4) :
    BitVec.extractLsb' 7 3 (x0 ++ x1 ++ x2 ++ x3 ++ x4 ++ x5 ++ x6 ++ x7 ++ x8 ++ x9 : BitVec 32) = x5 :=
  (pickHi _ _ 7 3 (by decide)).trans ((pickHi _ _ 3 3 (by decide)).trans ((pickHi _ _ 2 3 (by decide)).trans ((pickHi _ _ 1 3 (by decide)).trans ((pickLo _ _ 0 3 (by decide)).trans (BitVec.extractLsb'_eq_self)))))

theorem cat_6_5_5_5_1_3_1_1_1_4_at_6 (x0 : BitVec 6) (x1 : BitVec 5) (x2 : BitVec 5) (x3 : BitVec 5) (x4 : BitVec 1) (x5 : BitVec 3) (x6 : BitVec 1) (x7 : BitVec 1) (x8 : BitVec 1) (x9 : BitVec 4) :
    BitVec.extractLsb' 6 1 (x0 ++ x1 ++ x2 ++ x3 ++ x4 ++ x5 ++ x6 ++ x7 ++ x8 ++ x9 : BitVec 32) = x6 :=
  (pickHi _ _ 6 1 (by decide)).trans ((pickHi _ _ 2 1 (by decide)).trans ((pickHi _ _ 1 1 (by decide)).trans ((pickLo _ _ 0 1 (by decide)).trans (BitVec.extractLsb'_eq_self))))

theorem cat_6_5_5_5_1_3_1_1_1_4_at_5 (x0 : BitVec 6) (x1 : BitVec 5) (x2 : BitVec 5) (x3 : BitVec 5) (x4 : BitVec 1) (x5 : BitVec 3) (x6 : BitVec 1) (x7 : BitVec 1) (x8 : BitVec 1) (x9 : BitVec 4) :
    BitVec.extractLsb' 5 1 (x0 ++ x1 ++ x2 ++ x3 ++ x4 ++ x5 ++ x6 ++ x7 ++ x8 ++ x9 : BitVec 32) = x7 :=
  (pickHi _ _ 5 1 (by decide)).trans ((pickHi _ _ 1 1 (by decide)).trans ((pickLo _ _ 0 1 (by decide)).trans (BitVec.extractLsb'_eq_self)))

theorem cat_6_5_5_5_1_3_1_1_1_4_at_4 (x0 : BitVec 6) (x1 : BitVec 5) (x2 : BitVec 5) (x3 : BitVec 5) (x4 : BitVec 1) (x5 : BitVec 3) (x6 : BitVec 1) (x7 : BitVec 1) (x8 : BitVec 1) (x9 : BitVec 4) :
    BitVec.extractLsb' 4 1 (x0 ++ x1 ++ x2 ++ x3 ++ x4 ++ x5 ++ x6 ++ x7 ++ x8 ++ x9 : BitVec 32) = x8 :=
  (pickHi _ _ 4 1 (by decide)).trans ((pickLo _ _ 0 1 (by decide)).trans (BitVec.extractLsb'_eq_self))

theorem cat_6_5_5_5_1_3_1_1_1_4_at_0 (x0 : BitVec 6) (x1 : BitVec 5) (x2 : BitVec 5) (x3 : BitVec 5) (x4 : BitVec 1) (x5 : BitVec 3) (x6 : BitVec 1) (x7 : BitVec 1) (x8 : BitVec 1) (x9 : BitVec 4) :
    BitVec.extractLsb' 0 4 (x0 ++ x1 ++ x2 ++ x3 ++ x4 ++ x5 ++ x6 ++ x7 ++ x8 ++ x9 : BitVec 32) = x9 :=
  (pickLo _ _ 0 4 (by decide)).trans (BitVec.extractLsb'_eq_self)

theorem cat_6_5_5_5_1_3_3_4_at_11 (x0 : BitVec 6) (x1 : BitVec 5) (x2 : BitVec 5) (x3 : BitVec 5) (x4 : BitVec 1) (x5 : BitVec 3) (x6 : BitVec 3) (x7 : BitVec 4) :
    BitVec.extractLsb' 11 5 (x0 ++ x1 ++ x2 ++ x3 ++ x4 ++ x5 ++ x6 ++ x7 : BitVec 32) = x3 :=
  (pickHi _ _ 11 5 (by decide)).trans ((pickHi _ _ 7 5 (by decide)).trans ((pickHi _ _ 4 5 (by decide)).trans ((pickHi _ _ 1 5 (by decide)).trans ((pickLo _ _ 0 5 (by decide)).trans (BitVec.extractLsb'_eq_self)))))

theorem cat_6_5_5_9_3_4_at_26 (x0 : BitVec 6) (x1 : BitVec 5) (x2 : BitVec 5) (x3 : BitVec 9) (x4 : BitVec 3) (x5 : BitVec 4) :
    BitVec.extractLsb' 26 6 (x0 ++ x1 ++ x2 ++ x3 ++ x4 ++ x5 : BitVec 32) = x0 :=
  (pickHi _ _ 26 6 (by decide)).trans ((pickHi _ _ 22 6 (by decide)).trans ((pickHi _ _ 19 6 (by decide)).trans ((pickHi _ _ 10 6 (by decide)).trans ((pickHi _ _ 5 6 (by decide)).trans (BitVec.extractLsb'_eq_self)))))

theorem cat_6_5_5_9_3_4_at_21 (x0 : BitVec 6) (x1 : BitVec 5) (x2 : BitVec 5) (x3 : BitVec 9) (x4 : BitVec 3) (x5 : BitVec 4) :
    BitVec.extractLsb' 21 5 (x0 ++ x1 ++ x2 ++ x3 ++ x4 ++ x5 : BitVec 32) = x1 :=
  (pickHi _ _ 21 5 (by decide)).trans ((pickHi _ _ 17 5 (by decide)).trans ((pickHi _ _ 14 5 (by decide)).trans ((pickHi _ _ 5 5 (by decide)).trans ((pickLo _ _ 0 5 (by decide)).trans (BitVec.extractLsb'_eq_self)))))

theorem cat_6_5_5_9_3_4_at_16 (x0 : BitVec 6) (x1 : BitVec 5) (x2 : BitVec 5) (x3 : BitVec 9) (x4 : BitVec 3) (x5 : BitVec 4) :
    BitVec.extractLsb' 16 5 (x0 ++ x1 ++ x2 ++ x3 ++ x4 ++ x5 : BitVec 32) = x2 :=
  (pickHi _ _ 16 5 (by decide)).trans ((pickHi _ _ 12 5 (by decide)).trans ((pickHi _ _ 9 5 (by decide)).trans ((pickLo _ _ 0 5 (by decide)).trans (BitVec.extractLsb'_eq_self))))

theorem cat_6_5_5_9_3_4_at_4 (x0 : BitVec 6) (x1 : BitVec 5) (x2 : BitVec 5) (x3 : BitVec 9) (x4 : BitVec 3) (x5 : BitVec 4) :
    BitVec.extractLsb' 4 3 (x0 ++ x1 ++ x2 ++ x3 ++ x4 ++ x5 : BitVec 32) = x4 :=
  (pickHi _ _ 4 3 (by decide)).trans ((pickLo _ _ 0 3 (by decide)).trans (BitVec.extractLsb'_eq_self))

theorem cat_6_5_5_9_3_4_at_0 (x0 : BitVec 6) (x1 : BitVec 5) (x2 : BitVec 5) (x3 : BitVec 9) (x4 : BitVec 3) (x5 : BitVec 4) :
    BitVec.extractLsb' 0 4 (x0 ++ x1 ++ x2 ++ x3 ++ x4 ++ x5 : BitVec 32) = x5 :=
  (pickLo _ _ 0 4 (by decide)).trans (BitVec.extractLsb'_eq_self)

theorem cat_6_15_3_8_at_26 (x0 : BitVec 6) (x1 : BitVec 15) (x2 : BitVec 3) (x3 : BitVec 8) :
    BitVec.extractLsb' 26 6 (x0 ++ x1 ++ x2 ++ x3 : BitVec 32) = x0 :=
  (pickHi _ _ 26 6 (by decide)).trans ((pickHi _ _ 18 6 (by decide)).trans ((pickHi _ _ 15 6 (by decide)).trans (BitVec.extractLsb'_eq_self)))

theorem cat_6_15_3_8_at_8 (x0 : BitVec 6) (x1 : BitVec 15) (x2 : BitVec 3) (x3 : BitVec 8) :
    BitVec.extractLsb' 8 3 (x0 ++ x1 ++ x2 ++ x3 : BitVec 32) = x2 :=
  (pickHi _ _ 8 3 (by decide)).trans ((pickLo _ _ 0 3 (by decide)).trans (BitVec.extractLsb'_eq_self))

theorem cat_6_15_3_8_at_0_4 (x0 : BitVec 6) (x1 : BitVec 15) (x2 : BitVec 3) (x3 : BitVec 8) :
    BitVec.extractLsb' 0 4 (x0 ++ x1 ++ x2 ++ x3 : BitVec 32) = x3.extractLsb' 0 4 :=
  (pickLo _ _ 0 4 (by decide)).trans rfl

theorem cat_6_5_5_5_3_1_3_4_at_26 (x0 : BitVec 6) (x1 : BitVec 5) (x2 : BitVec 5) (x3 : BitVec 5) (x4 : BitVec 3) (x5 : BitVec 1) (x6 : BitVec 3) (x7 : BitVec 4) :
    BitVec.extractLsb' 26 6 (x0 ++ x1 ++ x2 ++ x3 ++ x4 ++ x5 ++ x6 ++ x7 : BitVec 32) = x0 :=
  (pickHi _ _ 26 6 (by decide)).trans ((pickHi _ _ 22 6 (by decide)).trans ((pickHi _ _ 19 6 (by decide)).trans ((pickHi _ _ 18 6 (by decide)).trans ((pickHi _ _ 15 6 (by decide)).trans ((pickHi _ _ 10 6 (by decide)).trans ((pickHi _ _ 5 6 (by decide)).trans (BitVec.extractLsb'_eq_self)))))))

theorem cat_6_5_5_5_3_1_3_4_at_21 (x0 : BitVec 6) (x1 : BitVec 5) (x2 : BitVec 5) (x3 : BitVec 5) (x4 : BitVec 3) (x5 : BitVec 1) (x6 : BitVec 3) (x7 : BitVec 4) :
    BitVec.extractLsb' 21 5 (x0 ++ x1 ++ x2 ++ x3 ++ x4 ++ x5 ++ x6 ++ x7 : BitVec 32) = x1 :=
  (pickHi _ _ 21 5 (by decide)).trans ((pickHi _ _ 17 5 (by decide)).trans ((pickHi _ _ 14 5 (by decide)).trans ((pickHi _ _ 13 5 (by decide)).trans ((pickHi _ _ 10 5 (by decide)).trans ((pickHi _ _ 5 5 (by decide)).trans ((pickLo _ _ 0 5 (by decide)).trans (BitVec.extractLsb'_eq_self)))))))

theorem cat_6_5_5_5_3_1_3_4_at_16 (x0 : BitVec 6) (x1 : BitVec 5) (x2 : BitVec 5) (x3 : BitVec 5) (x4 : BitVec 3) (x5 : BitVec 1) (x6 : BitVec 3) (x7 : BitVec 4) :
    BitVec.extractLsb' 16 5 (x0 ++ x1 ++ x2 ++ x3 ++ x4 ++ x5 ++ x6 ++ x7 : BitVec 32) = x2 :=
  (pickHi _ _ 16 5 (by decide)).trans ((pickHi _ _ 12 5 (by decide)).trans ((pickHi _ _ 9 5 (by decide)).trans ((pickHi _ _ 8 5 (by decide)).trans ((pickHi _ _ 5 5 (by decide)).trans ((pickLo _ _ 0 5 (by decide)).trans (BitVec.extractLsb'_eq_self))))))

theorem cat_6_5_5_5_3_1_3_4_at_11 (x0 : BitVec 6) (x1 : BitVec 5) (x2 : BitVec 5) (x3 : BitVec 5) (x4 : BitVec 3) (x5 : BitVec 1) (x6 : BitVec 3) (x7 : BitVec 4) :
    BitVec.extractLsb' 11 5 (x0 ++ x1 ++ x2 ++ x3 ++ x4 ++ x5 ++ x6 ++ x7 : BitVec 32) = x3 :=
  (pickHi _ _ 11 5 (by decide)).trans ((pickHi _ _ 7 5 (by decide)).trans ((pickHi _ _ 4 5 (by decide)).trans ((pickHi _ _ 3 5 (by decide)).trans ((pickLo _ _ 0 5 (by decide)).trans (BitVec.extractLsb'_eq_self)))))

theorem cat_6_5_5_5_3_1_3_4_at_7 (x0 : BitVec 6) (x1 : BitVec 5) (x2 : BitVec 5) (x3 : BitVec 5) (x4 : BitVec 3) (x5 : BitVec 1) (x6 : BitVec 3) (x7 : BitVec 4) :
    BitVec.extractLsb' 7 1 (x0 ++ x1 ++ x2 ++ x3 ++ x4 ++ x5 ++ x6 ++ x7 : BitVec 32) = x5 :=
  (pickHi _ _ 7 1 (by decide)).trans ((pickHi _ _ 3 1 (by decide)).trans ((pickLo _ _ 0 1 (by decide)).trans (BitVec.extractLsb'_eq_self)))

theorem cat_6_5_5_5_3_1_3_4_at_4 (x0 : BitVec 6) (x1 : BitVec 5) (x2 : BitVec 5) (x3 : BitVec 5) (x4 : BitVec 3) (x5 : BitVec 1) (x6 : BitVec 3) (x7 : BitVec 4) :
    BitVec.extractLsb' 4 3 (x0 ++ x1 ++ x2 ++ x3 ++ x4 ++ x5 ++ x6 ++ x7 : BitVec 32) = x6 :=
  (pickHi _ _ 4 3 (by decide)).trans ((pickLo _ _ 0 3 (by decide)).trans (BitVec.extractLsb'_eq_self))

theorem cat_6_5_5_5_3_1_3_4_at_0 (x0 : BitVec 6) (x1 : BitVec 5) (x2 : BitVec 5) (x3 : BitVec 5) (x4 : BitVec 3) (x5 : BitVec 1) (x6 : BitVec 3) (x7 : BitVec 4) :
    BitVec.extractLsb' 0 4 (x0 ++ x1 ++ x2 ++ x3 ++ x4 ++ x5 ++ x6 ++ x7 : BitVec 32) = x7 :=
  (pickLo _ _ 0 4 (by decide)).trans (BitVec.extractLsb'_eq_self)

theorem cat_6_5_5_5_3_1_3_4_at_8 (x0 : BitVec 6) (x1 : BitVec 5) (x2 : BitVec 5) (x3 : BitVec 5) (x4 : BitVec 3) (x5 : BitVec 1) (x6 : BitVec 3) (x7 : BitVec 4) :
    BitVec.extractLsb' 8 3 (x0 ++ x1 ++ x2 ++ x3 ++ x4 ++ x5 ++ x6 ++ x7 : BitVec 32) = x4 :=
  (pickHi _ _ 8 3 (by decide)).trans ((pickHi _ _ 4 3 (by decide)).trans ((pickHi _ _ 1 3 (by decide)).trans ((pickLo _ _ 0 3 (by decide)).trans (BitVec.extractLsb'_eq_self))))

theorem cat_6_5_5_5_3_8_at_26 (x0 : BitVec 6) (x1 : BitVec 5) (x2 : BitVec 5) (x3 : BitVec 5) (x4 : BitVec 3) (x5 : BitVec 8) :
    BitVec.extractLsb' 26 6 (x0 ++ x1 ++ x2 ++ x3 ++ x4 ++ x5 : BitVec 32) = x0 :=
  (pickHi _ _ 26 6 (by decide)).trans ((pickHi _ _ 18 6 (by decide)).trans ((pickHi _ _ 15 6 (by decide)).trans ((pickHi _ _ 10 6 (by decide)).trans ((pickHi _ _ 5 6 (by decide)).trans (BitVec.extractLsb'_eq_self)))))

theorem cat_6_5_5_5_3_8_at_21 (x0 : BitVec 6) (x1 : BitVec 5) (x2 : BitVec 5) (x3 : BitVec 5) (x4 : BitVec 3) (x5 : BitVec 8) :
    BitVec.extractLsb' 21 5 (x0 ++ x1 ++ x2 ++ x3 ++ x4 ++ x5 : BitVec 32) = x1 :=
  (pickHi _ _ 21 5 (by decide)).trans ((pickHi _ _ 13 5 (by decide)).trans ((pickHi _ _ 10 5 (by decide)).trans ((pickHi _ _ 5 5 (by decide)).trans ((pickLo _ _ 0 5 (by decide)).trans (BitVec.extractLsb'_eq_self)))))

theorem cat_6_5_5_5_3_8_at_16 (x0 : BitVec 6) (x1 : BitVec 5) (x2 : BitVec 5) (x3 : BitVec 5) (x4 : BitVec 3) (x5 : BitVec 8) :
    BitVec.extractLsb' 16 5 (x0 ++ x1 ++ x2 ++ x3 ++ x4 ++ x5 : BitVec 32) = x2 :=
  (pickHi _ _ 16 5 (by decide)).trans ((pickHi _ _ 8 5 (by decide)).trans ((pickHi _ _ 5 5 (by decide)).trans ((pickLo _ _ 0 5 (by decide)).trans (BitVec.extractLsb'_eq_self))))

theorem cat_6_5_5_5_3_8_at_8 (x0 : BitVec 6) (x1 : BitVec 5) (x2 : BitVec 5) (x3 : BitVec 5) (x4 : BitVec 3) (x5 : BitVec 8) :
    BitVec.extractLsb' 8 3 (x0 ++ x1 ++ x2 ++ x3 ++ x4 ++ x5 : BitVec 32) = x4 :=
  (pickHi _ _ 8 3 (by decide)).trans ((pickLo _ _ 0 3 (by decide)).trans (BitVec.extractLsb'_eq_self))

theorem cat_6_5_5_5_3_8_at_0_4 (x0 : BitVec 6) (x1 : BitVec 5) (x2 : BitVec 5) (x3 : BitVec 5) (x4 : BitVec 3) (x5 : BitVec 8) :
    BitVec.extractLsb' 0 4 (x0 ++ x1 ++ x2 ++ x3 ++ x4 ++ x5 : BitVec 32) = x5.extractLsb' 0 4 :=
  (pickLo _ _ 0 4 (by decide)).trans rfl

theorem cat_6_5_5_5_6_1_4_at_0_6 (x0 : BitVec 6) (x1 : BitVec 5) (x2 : BitVec 5) (x3 : BitVec 5) (x4 : BitVec 6) (x5 : BitVec 1) (x6 : BitVec 4) :
    BitVec.extractLsb' 0 6 (x0 ++ x1 ++ x2 ++ x3 ++ x4 ++ x5 ++ x6 : BitVec 32) = (((x4.extractLsb' 0 1 ++ x5) ++ x6) : BitVec 6) :=
  ((crossLo _ x6 2).trans (congrArg (· ++ x6) ((crossLo _ x5 1).trans (congrArg (· ++ x5) (pickLo _ _ 0 1 (by decide))))))

theorem cat_6_5_5_11_1_4_at_0_6 (x0 : BitVec 6) (x1 : BitVec 5) (x2 : BitVec 5) (x3 : BitVec 11) (x4 : BitVec 1) (x5 : BitVec 4) :
    BitVec.extractLsb' 0 6 (x0 ++ x1 ++ x2 ++ x3 ++ x4 ++ x5 : BitVec 32) = (((x3.extractLsb' 0 1 ++ x4) ++ x5) : BitVec 6) :=
  ((crossLo _ x5 2).trans (congrArg (· ++ x5) ((crossLo _ x4 1).trans (congrArg (· ++ x4) (pickLo _ _ 0 1 (by decide))))))

theorem cat_6_5_5_5_5_1_1_4_at_0_6 (x0 : BitVec 6) (x1 : BitVec 5) (x2 : BitVec 5) (x3 : BitVec 5) (x4 : BitVec 5) (x5 : BitVec 1) (x6 : BitVec 1) (x7 : BitVec 4) :
    BitVec.extractLsb' 0 6 (x0 ++ x1 ++ x2 ++ x3 ++ x4 ++ x5 ++ x6 ++ x7 : BitVec 32) = ((((0#0 ++ x5) ++ x6) ++ x7) : BitVec 6) :=
  ((crossLo _ x7 2).trans (congrArg (· ++ x7) ((crossLo _ x6 1).trans (congrArg (· ++ x6) ((crossLo _ x5 0).trans (congrArg (· ++ x5) BitVec.of_length_zero))))))

theorem cat_6_5_5_5_2_3_1_1_4_at_0_6 (x0 : BitVec 6) (x1 : BitVec 5) (x2 : BitVec 5) (x3 : BitVec 5) (x4 : BitVec 2) (x5 : BitVec 3) (x6 : BitVec 1) (x7 : BitVec 1) (x8 : BitVec 4) :
    BitVec.extractLsb' 0 6 (x0 ++ x1 ++ x2 ++ x3 ++ x4 ++ x5 ++ x6 ++ x7 ++ x8 : BitVec 32) = ((((0#0 ++ x6) ++ x7) ++ x8) : BitVec 6) :=
  ((crossLo _ x8 2).trans (congrArg (· ++ x8) ((crossLo _ x7 1).trans (congrArg (· ++ x7) ((crossLo _ x6 0).trans (congrArg (· ++ x6) BitVec.of_length_zero))))))

/-! ## Major opcodes -/

theorem select01 (w : BitVec 32) (h : w.extractLsb' 26 6 = 1#6) : select w = group01 w := by
  unfold select
  rw [h]; rfl

theorem select02 (w : BitVec 32) (h : w.extractLsb' 26 6 = 2#6) : select w = group02 w := by
  unfold select
  rw [h]; rfl

theorem select03 (w : BitVec 32) (h : w.extractLsb' 26 6 = 3#6) : select w = group03 w := by
  unfold select
  rw [h]; rfl

theorem select04 (w : BitVec 32) (h : w.extractLsb' 26 6 = 4#6) : select w = group04 w := by
  unfold select
  rw [h]; rfl

theorem select05 (w : BitVec 32) (h : w.extractLsb' 26 6 = 5#6) : select w = group05 w := by
  unfold select
  rw [h]; rfl

theorem select06 (w : BitVec 32) (h : w.extractLsb' 26 6 = 6#6) : select w = group06 w := by
  unfold select
  rw [h]; rfl

theorem select07 (w : BitVec 32) (h : w.extractLsb' 26 6 = 7#6) : select w = group07 w := by
  unfold select
  rw [h]; rfl

theorem select08 (w : BitVec 32) (h : w.extractLsb' 26 6 = 8#6) : select w = group08 w := by
  unfold select
  rw [h]; rfl

theorem select09 (w : BitVec 32) (h : w.extractLsb' 26 6 = 9#6) : select w = group09 w := by
  unfold select
  rw [h]; rfl

theorem select0A (w : BitVec 32) (h : w.extractLsb' 26 6 = 10#6) : select w = group0A w := by
  unfold select
  rw [h]; rfl

theorem select0B (w : BitVec 32) (h : w.extractLsb' 26 6 = 11#6) : select w = group0B w := by
  unfold select
  rw [h]; rfl

theorem select0C (w : BitVec 32) (h : w.extractLsb' 26 6 = 12#6) : select w = group0C w := by
  unfold select
  rw [h]; rfl

theorem select0D (w : BitVec 32) (h : w.extractLsb' 26 6 = 13#6) : select w = group0D w := by
  unfold select
  rw [h]; rfl

theorem select0E (w : BitVec 32) (h : w.extractLsb' 26 6 = 14#6) : select w = group0E w := by
  unfold select
  rw [h]; rfl

theorem select0F (w : BitVec 32) (h : w.extractLsb' 26 6 = 15#6) : select w = group0F w := by
  unfold select
  rw [h]; rfl

theorem select10 (w : BitVec 32) (h : w.extractLsb' 26 6 = 16#6) : select w = group10 w := by
  unfold select
  rw [h]; rfl

theorem select11 (w : BitVec 32) (h : w.extractLsb' 26 6 = 17#6) : select w = group11 w := by
  unfold select
  rw [h]; rfl

theorem select12 (w : BitVec 32) (h : w.extractLsb' 26 6 = 18#6) : select w = group12 w := by
  unfold select
  rw [h]; rfl

theorem select13 (w : BitVec 32) (h : w.extractLsb' 26 6 = 19#6) : select w = group13 w := by
  unfold select
  rw [h]; rfl

theorem select14 (w : BitVec 32) (h : w.extractLsb' 26 6 = 20#6) : select w = group14 w := by
  unfold select
  rw [h]; rfl

theorem select15 (w : BitVec 32) (h : w.extractLsb' 26 6 = 21#6) : select w = group15 w := by
  unfold select
  rw [h]; rfl

theorem select16 (w : BitVec 32) (h : w.extractLsb' 26 6 = 22#6) : select w = group16 w := by
  unfold select
  rw [h]; rfl

theorem select17 (w : BitVec 32) (h : w.extractLsb' 26 6 = 23#6) : select w = group17 w := by
  unfold select
  rw [h]; rfl

theorem select18 (w : BitVec 32) (h : w.extractLsb' 26 6 = 24#6) : select w = group18 w := by
  unfold select
  rw [h]; rfl

theorem select19 (w : BitVec 32) (h : w.extractLsb' 26 6 = 25#6) : select w = group19 w := by
  unfold select
  rw [h]; rfl

theorem select1A (w : BitVec 32) (h : w.extractLsb' 26 6 = 26#6) : select w = group1A w := by
  unfold select
  rw [h]; rfl

theorem select1B (w : BitVec 32) (h : w.extractLsb' 26 6 = 27#6) : select w = group1B w := by
  unfold select
  rw [h]; rfl

theorem select1C (w : BitVec 32) (h : w.extractLsb' 26 6 = 28#6) : select w = group1C w := by
  unfold select
  rw [h]; rfl

theorem select1D (w : BitVec 32) (h : w.extractLsb' 26 6 = 29#6) : select w = group1D w := by
  unfold select
  rw [h]; rfl

theorem select20 (w : BitVec 32) (h : w.extractLsb' 26 6 = 32#6) : select w = group20 w := by
  unfold select
  rw [h]; rfl

theorem select21 (w : BitVec 32) (h : w.extractLsb' 26 6 = 33#6) : select w = group21 w := by
  unfold select
  rw [h]; rfl

theorem select22 (w : BitVec 32) (h : w.extractLsb' 26 6 = 34#6) : select w = group22 w := by
  unfold select
  rw [h]; rfl

theorem select23 (w : BitVec 32) (h : w.extractLsb' 26 6 = 35#6) : select w = group23 w := by
  unfold select
  rw [h]; rfl

theorem select24 (w : BitVec 32) (h : w.extractLsb' 26 6 = 36#6) : select w = group24 w := by
  unfold select
  rw [h]; rfl

theorem select25 (w : BitVec 32) (h : w.extractLsb' 26 6 = 37#6) : select w = group25 w := by
  unfold select
  rw [h]; rfl

theorem select26 (w : BitVec 32) (h : w.extractLsb' 26 6 = 38#6) : select w = group26 w := by
  unfold select
  rw [h]; rfl

theorem select27 (w : BitVec 32) (h : w.extractLsb' 26 6 = 39#6) : select w = group27 w := by
  unfold select
  rw [h]; rfl

theorem select28 (w : BitVec 32) (h : w.extractLsb' 26 6 = 40#6) : select w = group28 w := by
  unfold select
  rw [h]; rfl

theorem select29 (w : BitVec 32) (h : w.extractLsb' 26 6 = 41#6) : select w = group29 w := by
  unfold select
  rw [h]; rfl

theorem select2A (w : BitVec 32) (h : w.extractLsb' 26 6 = 42#6) : select w = group2A w := by
  unfold select
  rw [h]; rfl

theorem select2B (w : BitVec 32) (h : w.extractLsb' 26 6 = 43#6) : select w = group2B w := by
  unfold select
  rw [h]; rfl

theorem select2C (w : BitVec 32) (h : w.extractLsb' 26 6 = 44#6) : select w = group2C w := by
  unfold select
  rw [h]; rfl

theorem select30 (w : BitVec 32) (h : w.extractLsb' 26 6 = 48#6) : select w = group30 w := by
  unfold select
  rw [h]; rfl

/-! ## The instructions -/

theorem add (d a b) : Statement (.add d a b) :=
  chosen (w := 1#6 ++ d ++ a ++ b ++ 0#11) rfl (select01 _ (cat_6_5_5_5_11_at_26 ..))
    (by rw [group01, cat_6_5_5_5_11_at_21, cat_6_5_5_5_11_at_16, cat_6_5_5_5_11_at_11, cat_6_5_5_5_11_at_0_6]; rfl)
    (cleared (0#6 ++ 0#5 ++ 0#5 ++ 0#5 ++ 1984#11) (andCat (andCat (andCat (andCat BitVec.and_zero BitVec.and_zero) BitVec.and_zero) BitVec.and_zero) rfl) rfl)

theorem sub (d a b) : Statement (.sub d a b) :=
  chosen (w := 1#6 ++ d ++ a ++ b ++ 1#11) rfl (select01 _ (cat_6_5_5_5_11_at_26 ..))
    (by rw [group01, cat_6_5_5_5_11_at_21, cat_6_5_5_5_11_at_16, cat_6_5_5_5_11_at_11, cat_6_5_5_5_11_at_0_6]; rfl)
    (cleared (0#6 ++ 0#5 ++ 0#5 ++ 0#5 ++ 1984#11) (andCat (andCat (andCat (andCat BitVec.and_zero BitVec.and_zero) BitVec.and_zero) BitVec.and_zero) rfl) rfl)

theorem mul (d a b) : Statement (.mul d a b) :=
  chosen (w := 1#6 ++ d ++ a ++ b ++ 2#11) rfl (select01 _ (cat_6_5_5_5_11_at_26 ..))
    (by rw [group01, cat_6_5_5_5_11_at_21, cat_6_5_5_5_11_at_16, cat_6_5_5_5_11_at_11, cat_6_5_5_5_11_at_0_6]; rfl)
    (cleared (0#6 ++ 0#5 ++ 0#5 ++ 0#5 ++ 1984#11) (andCat (andCat (andCat (andCat BitVec.and_zero BitVec.and_zero) BitVec.and_zero) BitVec.and_zero) rfl) rfl)

theorem mulh (d a b) : Statement (.mulh d a b) :=
  chosen (w := 1#6 ++ d ++ a ++ b ++ 3#11) rfl (select01 _ (cat_6_5_5_5_11_at_26 ..))
    (by rw [group01, cat_6_5_5_5_11_at_21, cat_6_5_5_5_11_at_16, cat_6_5_5_5_11_at_11, cat_6_5_5_5_11_at_0_6]; rfl)
    (cleared (0#6 ++ 0#5 ++ 0#5 ++ 0#5 ++ 1984#11) (andCat (andCat (andCat (andCat BitVec.and_zero BitVec.and_zero) BitVec.and_zero) BitVec.and_zero) rfl) rfl)

theorem mulhu (d a b) : Statement (.mulhu d a b) :=
  chosen (w := 1#6 ++ d ++ a ++ b ++ 4#11) rfl (select01 _ (cat_6_5_5_5_11_at_26 ..))
    (by rw [group01, cat_6_5_5_5_11_at_21, cat_6_5_5_5_11_at_16, cat_6_5_5_5_11_at_11, cat_6_5_5_5_11_at_0_6]; rfl)
    (cleared (0#6 ++ 0#5 ++ 0#5 ++ 0#5 ++ 1984#11) (andCat (andCat (andCat (andCat BitVec.and_zero BitVec.and_zero) BitVec.and_zero) BitVec.and_zero) rfl) rfl)

theorem div (d a b) : Statement (.div d a b) :=
  chosen (w := 1#6 ++ d ++ a ++ b ++ 5#11) rfl (select01 _ (cat_6_5_5_5_11_at_26 ..))
    (by rw [group01, cat_6_5_5_5_11_at_21, cat_6_5_5_5_11_at_16, cat_6_5_5_5_11_at_11, cat_6_5_5_5_11_at_0_6]; rfl)
    (cleared (0#6 ++ 0#5 ++ 0#5 ++ 0#5 ++ 1984#11) (andCat (andCat (andCat (andCat BitVec.and_zero BitVec.and_zero) BitVec.and_zero) BitVec.and_zero) rfl) rfl)

theorem divu (d a b) : Statement (.divu d a b) :=
  chosen (w := 1#6 ++ d ++ a ++ b ++ 6#11) rfl (select01 _ (cat_6_5_5_5_11_at_26 ..))
    (by rw [group01, cat_6_5_5_5_11_at_21, cat_6_5_5_5_11_at_16, cat_6_5_5_5_11_at_11, cat_6_5_5_5_11_at_0_6]; rfl)
    (cleared (0#6 ++ 0#5 ++ 0#5 ++ 0#5 ++ 1984#11) (andCat (andCat (andCat (andCat BitVec.and_zero BitVec.and_zero) BitVec.and_zero) BitVec.and_zero) rfl) rfl)

theorem rem (d a b) : Statement (.rem d a b) :=
  chosen (w := 1#6 ++ d ++ a ++ b ++ 7#11) rfl (select01 _ (cat_6_5_5_5_11_at_26 ..))
    (by rw [group01, cat_6_5_5_5_11_at_21, cat_6_5_5_5_11_at_16, cat_6_5_5_5_11_at_11, cat_6_5_5_5_11_at_0_6]; rfl)
    (cleared (0#6 ++ 0#5 ++ 0#5 ++ 0#5 ++ 1984#11) (andCat (andCat (andCat (andCat BitVec.and_zero BitVec.and_zero) BitVec.and_zero) BitVec.and_zero) rfl) rfl)

theorem remu (d a b) : Statement (.remu d a b) :=
  chosen (w := 1#6 ++ d ++ a ++ b ++ 8#11) rfl (select01 _ (cat_6_5_5_5_11_at_26 ..))
    (by rw [group01, cat_6_5_5_5_11_at_21, cat_6_5_5_5_11_at_16, cat_6_5_5_5_11_at_11, cat_6_5_5_5_11_at_0_6]; rfl)
    (cleared (0#6 ++ 0#5 ++ 0#5 ++ 0#5 ++ 1984#11) (andCat (andCat (andCat (andCat BitVec.and_zero BitVec.and_zero) BitVec.and_zero) BitVec.and_zero) rfl) rfl)

theorem and (d a b) : Statement (.and d a b) :=
  chosen (w := 1#6 ++ d ++ a ++ b ++ 9#11) rfl (select01 _ (cat_6_5_5_5_11_at_26 ..))
    (by rw [group01, cat_6_5_5_5_11_at_21, cat_6_5_5_5_11_at_16, cat_6_5_5_5_11_at_11, cat_6_5_5_5_11_at_0_6]; rfl)
    (cleared (0#6 ++ 0#5 ++ 0#5 ++ 0#5 ++ 1984#11) (andCat (andCat (andCat (andCat BitVec.and_zero BitVec.and_zero) BitVec.and_zero) BitVec.and_zero) rfl) rfl)

theorem andn (d a b) : Statement (.andn d a b) :=
  chosen (w := 1#6 ++ d ++ a ++ b ++ 10#11) rfl (select01 _ (cat_6_5_5_5_11_at_26 ..))
    (by rw [group01, cat_6_5_5_5_11_at_21, cat_6_5_5_5_11_at_16, cat_6_5_5_5_11_at_11, cat_6_5_5_5_11_at_0_6]; rfl)
    (cleared (0#6 ++ 0#5 ++ 0#5 ++ 0#5 ++ 1984#11) (andCat (andCat (andCat (andCat BitVec.and_zero BitVec.and_zero) BitVec.and_zero) BitVec.and_zero) rfl) rfl)

theorem or (d a b) : Statement (.or d a b) :=
  chosen (w := 1#6 ++ d ++ a ++ b ++ 11#11) rfl (select01 _ (cat_6_5_5_5_11_at_26 ..))
    (by rw [group01, cat_6_5_5_5_11_at_21, cat_6_5_5_5_11_at_16, cat_6_5_5_5_11_at_11, cat_6_5_5_5_11_at_0_6]; rfl)
    (cleared (0#6 ++ 0#5 ++ 0#5 ++ 0#5 ++ 1984#11) (andCat (andCat (andCat (andCat BitVec.and_zero BitVec.and_zero) BitVec.and_zero) BitVec.and_zero) rfl) rfl)

theorem xor (d a b) : Statement (.xor d a b) :=
  chosen (w := 1#6 ++ d ++ a ++ b ++ 12#11) rfl (select01 _ (cat_6_5_5_5_11_at_26 ..))
    (by rw [group01, cat_6_5_5_5_11_at_21, cat_6_5_5_5_11_at_16, cat_6_5_5_5_11_at_11, cat_6_5_5_5_11_at_0_6]; rfl)
    (cleared (0#6 ++ 0#5 ++ 0#5 ++ 0#5 ++ 1984#11) (andCat (andCat (andCat (andCat BitVec.and_zero BitVec.and_zero) BitVec.and_zero) BitVec.and_zero) rfl) rfl)

theorem sll (d a b) : Statement (.sll d a b) :=
  chosen (w := 1#6 ++ d ++ a ++ b ++ 13#11) rfl (select01 _ (cat_6_5_5_5_11_at_26 ..))
    (by rw [group01, cat_6_5_5_5_11_at_21, cat_6_5_5_5_11_at_16, cat_6_5_5_5_11_at_11, cat_6_5_5_5_11_at_0_6]; rfl)
    (cleared (0#6 ++ 0#5 ++ 0#5 ++ 0#5 ++ 1984#11) (andCat (andCat (andCat (andCat BitVec.and_zero BitVec.and_zero) BitVec.and_zero) BitVec.and_zero) rfl) rfl)

theorem srl (d a b) : Statement (.srl d a b) :=
  chosen (w := 1#6 ++ d ++ a ++ b ++ 14#11) rfl (select01 _ (cat_6_5_5_5_11_at_26 ..))
    (by rw [group01, cat_6_5_5_5_11_at_21, cat_6_5_5_5_11_at_16, cat_6_5_5_5_11_at_11, cat_6_5_5_5_11_at_0_6]; rfl)
    (cleared (0#6 ++ 0#5 ++ 0#5 ++ 0#5 ++ 1984#11) (andCat (andCat (andCat (andCat BitVec.and_zero BitVec.and_zero) BitVec.and_zero) BitVec.and_zero) rfl) rfl)

theorem sra (d a b) : Statement (.sra d a b) :=
  chosen (w := 1#6 ++ d ++ a ++ b ++ 15#11) rfl (select01 _ (cat_6_5_5_5_11_at_26 ..))
    (by rw [group01, cat_6_5_5_5_11_at_21, cat_6_5_5_5_11_at_16, cat_6_5_5_5_11_at_11, cat_6_5_5_5_11_at_0_6]; rfl)
    (cleared (0#6 ++ 0#5 ++ 0#5 ++ 0#5 ++ 1984#11) (andCat (andCat (andCat (andCat BitVec.and_zero BitVec.and_zero) BitVec.and_zero) BitVec.and_zero) rfl) rfl)

theorem slt (d a b) : Statement (.slt d a b) :=
  chosen (w := 1#6 ++ d ++ a ++ b ++ 16#11) rfl (select01 _ (cat_6_5_5_5_11_at_26 ..))
    (by rw [group01, cat_6_5_5_5_11_at_21, cat_6_5_5_5_11_at_16, cat_6_5_5_5_11_at_11, cat_6_5_5_5_11_at_0_6]; rfl)
    (cleared (0#6 ++ 0#5 ++ 0#5 ++ 0#5 ++ 1984#11) (andCat (andCat (andCat (andCat BitVec.and_zero BitVec.and_zero) BitVec.and_zero) BitVec.and_zero) rfl) rfl)

theorem sltu (d a b) : Statement (.sltu d a b) :=
  chosen (w := 1#6 ++ d ++ a ++ b ++ 17#11) rfl (select01 _ (cat_6_5_5_5_11_at_26 ..))
    (by rw [group01, cat_6_5_5_5_11_at_21, cat_6_5_5_5_11_at_16, cat_6_5_5_5_11_at_11, cat_6_5_5_5_11_at_0_6]; rfl)
    (cleared (0#6 ++ 0#5 ++ 0#5 ++ 0#5 ++ 1984#11) (andCat (andCat (andCat (andCat BitVec.and_zero BitVec.and_zero) BitVec.and_zero) BitVec.and_zero) rfl) rfl)

theorem min (d a b) : Statement (.min d a b) :=
  chosen (w := 1#6 ++ d ++ a ++ b ++ 18#11) rfl (select01 _ (cat_6_5_5_5_11_at_26 ..))
    (by rw [group01, cat_6_5_5_5_11_at_21, cat_6_5_5_5_11_at_16, cat_6_5_5_5_11_at_11, cat_6_5_5_5_11_at_0_6]; rfl)
    (cleared (0#6 ++ 0#5 ++ 0#5 ++ 0#5 ++ 1984#11) (andCat (andCat (andCat (andCat BitVec.and_zero BitVec.and_zero) BitVec.and_zero) BitVec.and_zero) rfl) rfl)

theorem max (d a b) : Statement (.max d a b) :=
  chosen (w := 1#6 ++ d ++ a ++ b ++ 19#11) rfl (select01 _ (cat_6_5_5_5_11_at_26 ..))
    (by rw [group01, cat_6_5_5_5_11_at_21, cat_6_5_5_5_11_at_16, cat_6_5_5_5_11_at_11, cat_6_5_5_5_11_at_0_6]; rfl)
    (cleared (0#6 ++ 0#5 ++ 0#5 ++ 0#5 ++ 1984#11) (andCat (andCat (andCat (andCat BitVec.and_zero BitVec.and_zero) BitVec.and_zero) BitVec.and_zero) rfl) rfl)

theorem minu (d a b) : Statement (.minu d a b) :=
  chosen (w := 1#6 ++ d ++ a ++ b ++ 20#11) rfl (select01 _ (cat_6_5_5_5_11_at_26 ..))
    (by rw [group01, cat_6_5_5_5_11_at_21, cat_6_5_5_5_11_at_16, cat_6_5_5_5_11_at_11, cat_6_5_5_5_11_at_0_6]; rfl)
    (cleared (0#6 ++ 0#5 ++ 0#5 ++ 0#5 ++ 1984#11) (andCat (andCat (andCat (andCat BitVec.and_zero BitVec.and_zero) BitVec.and_zero) BitVec.and_zero) rfl) rfl)

theorem maxu (d a b) : Statement (.maxu d a b) :=
  chosen (w := 1#6 ++ d ++ a ++ b ++ 21#11) rfl (select01 _ (cat_6_5_5_5_11_at_26 ..))
    (by rw [group01, cat_6_5_5_5_11_at_21, cat_6_5_5_5_11_at_16, cat_6_5_5_5_11_at_11, cat_6_5_5_5_11_at_0_6]; rfl)
    (cleared (0#6 ++ 0#5 ++ 0#5 ++ 0#5 ++ 1984#11) (andCat (andCat (andCat (andCat BitVec.and_zero BitVec.and_zero) BitVec.and_zero) BitVec.and_zero) rfl) rfl)

theorem clz (d a) : Statement (.clz d a) :=
  chosen (w := 1#6 ++ d ++ a ++ 22#16) rfl (select01 _ (cat_6_5_5_16_at_26 ..))
    (by rw [group01, cat_6_5_5_16_at_21, cat_6_5_5_16_at_16, cat_6_5_5_16_at_0_6]; rfl)
    (cleared (0#6 ++ 0#5 ++ 0#5 ++ 65472#16) (andCat (andCat (andCat BitVec.and_zero BitVec.and_zero) BitVec.and_zero) rfl) rfl)

theorem ctz (d a) : Statement (.ctz d a) :=
  chosen (w := 1#6 ++ d ++ a ++ 23#16) rfl (select01 _ (cat_6_5_5_16_at_26 ..))
    (by rw [group01, cat_6_5_5_16_at_21, cat_6_5_5_16_at_16, cat_6_5_5_16_at_0_6]; rfl)
    (cleared (0#6 ++ 0#5 ++ 0#5 ++ 65472#16) (andCat (andCat (andCat BitVec.and_zero BitVec.and_zero) BitVec.and_zero) rfl) rfl)

theorem popc (d a) : Statement (.popc d a) :=
  chosen (w := 1#6 ++ d ++ a ++ 24#16) rfl (select01 _ (cat_6_5_5_16_at_26 ..))
    (by rw [group01, cat_6_5_5_16_at_21, cat_6_5_5_16_at_16, cat_6_5_5_16_at_0_6]; rfl)
    (cleared (0#6 ++ 0#5 ++ 0#5 ++ 65472#16) (andCat (andCat (andCat BitVec.and_zero BitVec.and_zero) BitVec.and_zero) rfl) rfl)

theorem sextB (d a) : Statement (.sextB d a) :=
  chosen (w := 1#6 ++ d ++ a ++ 25#16) rfl (select01 _ (cat_6_5_5_16_at_26 ..))
    (by rw [group01, cat_6_5_5_16_at_21, cat_6_5_5_16_at_16, cat_6_5_5_16_at_0_6]; rfl)
    (cleared (0#6 ++ 0#5 ++ 0#5 ++ 65472#16) (andCat (andCat (andCat BitVec.and_zero BitVec.and_zero) BitVec.and_zero) rfl) rfl)

theorem sextH (d a) : Statement (.sextH d a) :=
  chosen (w := 1#6 ++ d ++ a ++ 26#16) rfl (select01 _ (cat_6_5_5_16_at_26 ..))
    (by rw [group01, cat_6_5_5_16_at_21, cat_6_5_5_16_at_16, cat_6_5_5_16_at_0_6]; rfl)
    (cleared (0#6 ++ 0#5 ++ 0#5 ++ 65472#16) (andCat (andCat (andCat BitVec.and_zero BitVec.and_zero) BitVec.and_zero) rfl) rfl)

theorem sextW (d a) : Statement (.sextW d a) :=
  chosen (w := 1#6 ++ d ++ a ++ 27#16) rfl (select01 _ (cat_6_5_5_16_at_26 ..))
    (by rw [group01, cat_6_5_5_16_at_21, cat_6_5_5_16_at_16, cat_6_5_5_16_at_0_6]; rfl)
    (cleared (0#6 ++ 0#5 ++ 0#5 ++ 65472#16) (andCat (andCat (andCat BitVec.and_zero BitVec.and_zero) BitVec.and_zero) rfl) rfl)

theorem zextB (d a) : Statement (.zextB d a) :=
  chosen (w := 1#6 ++ d ++ a ++ 28#16) rfl (select01 _ (cat_6_5_5_16_at_26 ..))
    (by rw [group01, cat_6_5_5_16_at_21, cat_6_5_5_16_at_16, cat_6_5_5_16_at_0_6]; rfl)
    (cleared (0#6 ++ 0#5 ++ 0#5 ++ 65472#16) (andCat (andCat (andCat BitVec.and_zero BitVec.and_zero) BitVec.and_zero) rfl) rfl)

theorem zextH (d a) : Statement (.zextH d a) :=
  chosen (w := 1#6 ++ d ++ a ++ 29#16) rfl (select01 _ (cat_6_5_5_16_at_26 ..))
    (by rw [group01, cat_6_5_5_16_at_21, cat_6_5_5_16_at_16, cat_6_5_5_16_at_0_6]; rfl)
    (cleared (0#6 ++ 0#5 ++ 0#5 ++ 65472#16) (andCat (andCat (andCat BitVec.and_zero BitVec.and_zero) BitVec.and_zero) rfl) rfl)

theorem zextW (d a) : Statement (.zextW d a) :=
  chosen (w := 1#6 ++ d ++ a ++ 30#16) rfl (select01 _ (cat_6_5_5_16_at_26 ..))
    (by rw [group01, cat_6_5_5_16_at_21, cat_6_5_5_16_at_16, cat_6_5_5_16_at_0_6]; rfl)
    (cleared (0#6 ++ 0#5 ++ 0#5 ++ 65472#16) (andCat (andCat (andCat BitVec.and_zero BitVec.and_zero) BitVec.and_zero) rfl) rfl)

theorem csel (d a b c) : Statement (.csel d a b c) :=
  chosen (w := 1#6 ++ d ++ a ++ b ++ c ++ 31#6) rfl (select01 _ (cat_6_5_5_5_5_6_at_26 ..))
    (by rw [group01, cat_6_5_5_5_5_6_at_21, cat_6_5_5_5_5_6_at_16, cat_6_5_5_5_5_6_at_11, cat_6_5_5_5_5_6_at_6, cat_6_5_5_5_5_6_at_0]; rfl)
    (BitVec.and_zero)

theorem addImm (d a i) : Statement (.addImm d a i) :=
  chosen (w := 2#6 ++ d ++ a ++ i) rfl (select02 _ (cat_6_5_5_16_at_26 ..))
    (by rw [group02, cat_6_5_5_16_at_21, cat_6_5_5_16_at_16, cat_6_5_5_16_at_0])
    (BitVec.and_zero)

theorem andImm (d a i) : Statement (.andImm d a i) :=
  chosen (w := 3#6 ++ d ++ a ++ i) rfl (select03 _ (cat_6_5_5_16_at_26 ..))
    (by rw [group03, cat_6_5_5_16_at_21, cat_6_5_5_16_at_16, cat_6_5_5_16_at_0])
    (BitVec.and_zero)

theorem orImm (d a i) : Statement (.orImm d a i) :=
  chosen (w := 4#6 ++ d ++ a ++ i) rfl (select04 _ (cat_6_5_5_16_at_26 ..))
    (by rw [group04, cat_6_5_5_16_at_21, cat_6_5_5_16_at_16, cat_6_5_5_16_at_0])
    (BitVec.and_zero)

theorem xorImm (d a i) : Statement (.xorImm d a i) :=
  chosen (w := 5#6 ++ d ++ a ++ i) rfl (select05 _ (cat_6_5_5_16_at_26 ..))
    (by rw [group05, cat_6_5_5_16_at_21, cat_6_5_5_16_at_16, cat_6_5_5_16_at_0])
    (BitVec.and_zero)

theorem sltImm (d a i) : Statement (.sltImm d a i) :=
  chosen (w := 6#6 ++ d ++ a ++ i) rfl (select06 _ (cat_6_5_5_16_at_26 ..))
    (by rw [group06, cat_6_5_5_16_at_21, cat_6_5_5_16_at_16, cat_6_5_5_16_at_0])
    (BitVec.and_zero)

theorem sltuImm (d a i) : Statement (.sltuImm d a i) :=
  chosen (w := 7#6 ++ d ++ a ++ i) rfl (select07 _ (cat_6_5_5_16_at_26 ..))
    (by rw [group07, cat_6_5_5_16_at_21, cat_6_5_5_16_at_16, cat_6_5_5_16_at_0])
    (BitVec.and_zero)

theorem lih (d a i) : Statement (.lih d a i) :=
  chosen (w := 8#6 ++ d ++ a ++ i) rfl (select08 _ (cat_6_5_5_16_at_26 ..))
    (by rw [group08, cat_6_5_5_16_at_21, cat_6_5_5_16_at_16, cat_6_5_5_16_at_0])
    (BitVec.and_zero)

theorem addpc (d i) : Statement (.addpc d i) :=
  chosen (w := 9#6 ++ d ++ 0#5 ++ i) rfl (select09 _ (cat_6_5_5_16_at_26 ..))
    (by rw [group09, cat_6_5_5_16_at_21, cat_6_5_5_16_at_0]; rfl)
    (cleared (0#6 ++ 0#5 ++ 31#5 ++ 0#16) (andCat (andCat (andCat BitVec.and_zero BitVec.and_zero) rfl) BitVec.and_zero) rfl)

theorem fadd (d a b f) : Statement (.fadd d a b f) :=
  chosen (w := 10#6 ++ d ++ a ++ b ++ 0#6 ++ f ++ 0#4) rfl (select0A _ (cat_6_5_5_5_6_1_4_at_26 ..))
    (by rw [group0A, cat_6_5_5_5_6_1_4_at_0_6, cat_6_5_5_5_6_1_4_at_21, cat_6_5_5_5_6_1_4_at_16, cat_6_5_5_5_6_1_4_at_11, cat_6_5_5_5_6_1_4_at_4]; rcases bit_cases f with rfl | rfl <;> rfl)
    (cleared (0#6 ++ 0#5 ++ 0#5 ++ 0#5 ++ 62#6 ++ 0#1 ++ 0#4) (andCat (andCat (andCat (andCat (andCat (andCat BitVec.and_zero BitVec.and_zero) BitVec.and_zero) BitVec.and_zero) rfl) BitVec.and_zero) BitVec.and_zero) rfl)

theorem fsub (d a b f) : Statement (.fsub d a b f) :=
  chosen (w := 10#6 ++ d ++ a ++ b ++ 0#6 ++ f ++ 1#4) rfl (select0A _ (cat_6_5_5_5_6_1_4_at_26 ..))
    (by rw [group0A, cat_6_5_5_5_6_1_4_at_0_6, cat_6_5_5_5_6_1_4_at_21, cat_6_5_5_5_6_1_4_at_16, cat_6_5_5_5_6_1_4_at_11, cat_6_5_5_5_6_1_4_at_4]; rcases bit_cases f with rfl | rfl <;> rfl)
    (cleared (0#6 ++ 0#5 ++ 0#5 ++ 0#5 ++ 62#6 ++ 0#1 ++ 0#4) (andCat (andCat (andCat (andCat (andCat (andCat BitVec.and_zero BitVec.and_zero) BitVec.and_zero) BitVec.and_zero) rfl) BitVec.and_zero) BitVec.and_zero) rfl)

theorem fmul (d a b f) : Statement (.fmul d a b f) :=
  chosen (w := 10#6 ++ d ++ a ++ b ++ 0#6 ++ f ++ 2#4) rfl (select0A _ (cat_6_5_5_5_6_1_4_at_26 ..))
    (by rw [group0A, cat_6_5_5_5_6_1_4_at_0_6, cat_6_5_5_5_6_1_4_at_21, cat_6_5_5_5_6_1_4_at_16, cat_6_5_5_5_6_1_4_at_11, cat_6_5_5_5_6_1_4_at_4]; rcases bit_cases f with rfl | rfl <;> rfl)
    (cleared (0#6 ++ 0#5 ++ 0#5 ++ 0#5 ++ 62#6 ++ 0#1 ++ 0#4) (andCat (andCat (andCat (andCat (andCat (andCat BitVec.and_zero BitVec.and_zero) BitVec.and_zero) BitVec.and_zero) rfl) BitVec.and_zero) BitVec.and_zero) rfl)

theorem fdiv (d a b f) : Statement (.fdiv d a b f) :=
  chosen (w := 10#6 ++ d ++ a ++ b ++ 0#6 ++ f ++ 3#4) rfl (select0A _ (cat_6_5_5_5_6_1_4_at_26 ..))
    (by rw [group0A, cat_6_5_5_5_6_1_4_at_0_6, cat_6_5_5_5_6_1_4_at_21, cat_6_5_5_5_6_1_4_at_16, cat_6_5_5_5_6_1_4_at_11, cat_6_5_5_5_6_1_4_at_4]; rcases bit_cases f with rfl | rfl <;> rfl)
    (cleared (0#6 ++ 0#5 ++ 0#5 ++ 0#5 ++ 62#6 ++ 0#1 ++ 0#4) (andCat (andCat (andCat (andCat (andCat (andCat BitVec.and_zero BitVec.and_zero) BitVec.and_zero) BitVec.and_zero) rfl) BitVec.and_zero) BitVec.and_zero) rfl)

theorem fsqrt (d a f) : Statement (.fsqrt d a f) :=
  chosen (w := 10#6 ++ d ++ a ++ 0#11 ++ f ++ 4#4) rfl (select0A _ (cat_6_5_5_11_1_4_at_26 ..))
    (by rw [group0A, cat_6_5_5_11_1_4_at_0_6, cat_6_5_5_11_1_4_at_21, cat_6_5_5_11_1_4_at_16, cat_6_5_5_11_1_4_at_4]; rcases bit_cases f with rfl | rfl <;> rfl)
    (cleared (0#6 ++ 0#5 ++ 0#5 ++ 2046#11 ++ 0#1 ++ 0#4) (andCat (andCat (andCat (andCat (andCat BitVec.and_zero BitVec.and_zero) BitVec.and_zero) rfl) BitVec.and_zero) BitVec.and_zero) rfl)

theorem fma (d a b c f) : Statement (.fma d a b c f) :=
  chosen (w := 10#6 ++ d ++ a ++ b ++ c ++ 0#1 ++ f ++ 5#4) rfl (select0A _ (cat_6_5_5_5_5_1_1_4_at_26 ..))
    (by rw [group0A, cat_6_5_5_5_5_1_1_4_at_0_6, cat_6_5_5_5_5_1_1_4_at_21, cat_6_5_5_5_5_1_1_4_at_16, cat_6_5_5_5_5_1_1_4_at_11, cat_6_5_5_5_5_1_1_4_at_6, cat_6_5_5_5_5_1_1_4_at_4]; rcases bit_cases f with rfl | rfl <;> rfl)
    (BitVec.and_zero)

theorem fmin (d a b f) : Statement (.fmin d a b f) :=
  chosen (w := 10#6 ++ d ++ a ++ b ++ 0#6 ++ f ++ 6#4) rfl (select0A _ (cat_6_5_5_5_6_1_4_at_26 ..))
    (by rw [group0A, cat_6_5_5_5_6_1_4_at_0_6, cat_6_5_5_5_6_1_4_at_21, cat_6_5_5_5_6_1_4_at_16, cat_6_5_5_5_6_1_4_at_11, cat_6_5_5_5_6_1_4_at_4]; rcases bit_cases f with rfl | rfl <;> rfl)
    (cleared (0#6 ++ 0#5 ++ 0#5 ++ 0#5 ++ 62#6 ++ 0#1 ++ 0#4) (andCat (andCat (andCat (andCat (andCat (andCat BitVec.and_zero BitVec.and_zero) BitVec.and_zero) BitVec.and_zero) rfl) BitVec.and_zero) BitVec.and_zero) rfl)

theorem fmax (d a b f) : Statement (.fmax d a b f) :=
  chosen (w := 10#6 ++ d ++ a ++ b ++ 0#6 ++ f ++ 7#4) rfl (select0A _ (cat_6_5_5_5_6_1_4_at_26 ..))
    (by rw [group0A, cat_6_5_5_5_6_1_4_at_0_6, cat_6_5_5_5_6_1_4_at_21, cat_6_5_5_5_6_1_4_at_16, cat_6_5_5_5_6_1_4_at_11, cat_6_5_5_5_6_1_4_at_4]; rcases bit_cases f with rfl | rfl <;> rfl)
    (cleared (0#6 ++ 0#5 ++ 0#5 ++ 0#5 ++ 62#6 ++ 0#1 ++ 0#4) (andCat (andCat (andCat (andCat (andCat (andCat BitVec.and_zero BitVec.and_zero) BitVec.and_zero) BitVec.and_zero) rfl) BitVec.and_zero) BitVec.and_zero) rfl)

theorem fcmp (d a b c f) : Statement (.fcmp d a b c f) :=
  chosen (w := 10#6 ++ d ++ a ++ b ++ 0#2 ++ c ++ 0#1 ++ f ++ 8#4) rfl (select0A _ (cat_6_5_5_5_2_3_1_1_4_at_26 ..))
    (by rw [group0A, cat_6_5_5_5_2_3_1_1_4_at_0_6, cat_6_5_5_5_2_3_1_1_4_at_21, cat_6_5_5_5_2_3_1_1_4_at_16, cat_6_5_5_5_2_3_1_1_4_at_11, cat_6_5_5_5_2_3_1_1_4_at_6, cat_6_5_5_5_2_3_1_1_4_at_4]; rcases bit_cases f with rfl | rfl <;> rfl)
    (cleared (0#6 ++ 0#5 ++ 0#5 ++ 0#5 ++ 3#2 ++ 0#3 ++ 0#1 ++ 0#1 ++ 0#4) (andCat (andCat (andCat (andCat (andCat (andCat (andCat (andCat BitVec.and_zero BitVec.and_zero) BitVec.and_zero) BitVec.and_zero) rfl) BitVec.and_zero) BitVec.and_zero) BitVec.and_zero) BitVec.and_zero) rfl)

theorem fcvt (d a c) : Statement (.fcvt d a c) :=
  chosen (w := 10#6 ++ d ++ a ++ 0#5 ++ c ++ 9#6) rfl (select0A _ (cat_6_5_5_5_5_6_at_26 ..))
    (by rw [group0A, cat_6_5_5_5_5_6_at_21, cat_6_5_5_5_5_6_at_16, cat_6_5_5_5_5_6_at_6, cat_6_5_5_5_5_6_at_0]; rfl)
    (cleared (0#6 ++ 0#5 ++ 0#5 ++ 31#5 ++ 0#5 ++ 0#6) (andCat (andCat (andCat (andCat (andCat BitVec.and_zero BitVec.and_zero) BitVec.and_zero) rfl) BitVec.and_zero) BitVec.and_zero) rfl)

theorem fmvx (d a f) : Statement (.fmvx d a f) :=
  chosen (w := 10#6 ++ d ++ a ++ 0#11 ++ f ++ 10#4) rfl (select0A _ (cat_6_5_5_11_1_4_at_26 ..))
    (by rw [group0A, cat_6_5_5_11_1_4_at_0_6, cat_6_5_5_11_1_4_at_21, cat_6_5_5_11_1_4_at_16, cat_6_5_5_11_1_4_at_4]; rcases bit_cases f with rfl | rfl <;> rfl)
    (cleared (0#6 ++ 0#5 ++ 0#5 ++ 2046#11 ++ 0#1 ++ 0#4) (andCat (andCat (andCat (andCat (andCat BitVec.and_zero BitVec.and_zero) BitVec.and_zero) rfl) BitVec.and_zero) BitVec.and_zero) rfl)

theorem ld (d a o w) : Statement (.ld d a o w) :=
  chosen (w := 11#6 ++ d ++ a ++ o ++ w) rfl (select0B _ (cat_6_5_5_13_3_at_26 ..))
    (by rw [group0B, cat_6_5_5_13_3_at_21, cat_6_5_5_13_3_at_16, cat_6_5_5_13_3_at_3, cat_6_5_5_13_3_at_0])
    (BitVec.and_zero)

theorem st (d a o w) : Statement (.st d a o w) :=
  chosen (w := 12#6 ++ d ++ a ++ o ++ 0#1 ++ w) rfl (select0C _ (cat_6_5_5_13_1_2_at_26 ..))
    (by rw [group0C, cat_6_5_5_13_1_2_at_21, cat_6_5_5_13_1_2_at_16, cat_6_5_5_13_1_2_at_3, cat_6_5_5_13_1_2_at_0, cat_6_5_5_13_1_2_at_2]; rfl)
    (BitVec.and_zero)

theorem amoAdd (d a b s) : Statement (.amoAdd d a b s) :=
  chosen (w := 13#6 ++ d ++ a ++ b ++ 1#6 ++ s ++ 0#4) rfl (select0D _ (cat_6_5_5_5_6_1_4_at_26 ..))
    (by rw [group0D, cat_6_5_5_5_6_1_4_at_0_6, cat_6_5_5_5_6_1_4_at_21, cat_6_5_5_5_6_1_4_at_16, cat_6_5_5_5_6_1_4_at_11, cat_6_5_5_5_6_1_4_at_4]; rcases bit_cases s with rfl | rfl <;> rfl)
    (cleared (0#6 ++ 0#5 ++ 0#5 ++ 0#5 ++ 62#6 ++ 0#1 ++ 0#4) (andCat (andCat (andCat (andCat (andCat (andCat BitVec.and_zero BitVec.and_zero) BitVec.and_zero) BitVec.and_zero) rfl) BitVec.and_zero) BitVec.and_zero) rfl)

theorem amoAnd (d a b s) : Statement (.amoAnd d a b s) :=
  chosen (w := 13#6 ++ d ++ a ++ b ++ 1#6 ++ s ++ 1#4) rfl (select0D _ (cat_6_5_5_5_6_1_4_at_26 ..))
    (by rw [group0D, cat_6_5_5_5_6_1_4_at_0_6, cat_6_5_5_5_6_1_4_at_21, cat_6_5_5_5_6_1_4_at_16, cat_6_5_5_5_6_1_4_at_11, cat_6_5_5_5_6_1_4_at_4]; rcases bit_cases s with rfl | rfl <;> rfl)
    (cleared (0#6 ++ 0#5 ++ 0#5 ++ 0#5 ++ 62#6 ++ 0#1 ++ 0#4) (andCat (andCat (andCat (andCat (andCat (andCat BitVec.and_zero BitVec.and_zero) BitVec.and_zero) BitVec.and_zero) rfl) BitVec.and_zero) BitVec.and_zero) rfl)

theorem amoOr (d a b s) : Statement (.amoOr d a b s) :=
  chosen (w := 13#6 ++ d ++ a ++ b ++ 1#6 ++ s ++ 2#4) rfl (select0D _ (cat_6_5_5_5_6_1_4_at_26 ..))
    (by rw [group0D, cat_6_5_5_5_6_1_4_at_0_6, cat_6_5_5_5_6_1_4_at_21, cat_6_5_5_5_6_1_4_at_16, cat_6_5_5_5_6_1_4_at_11, cat_6_5_5_5_6_1_4_at_4]; rcases bit_cases s with rfl | rfl <;> rfl)
    (cleared (0#6 ++ 0#5 ++ 0#5 ++ 0#5 ++ 62#6 ++ 0#1 ++ 0#4) (andCat (andCat (andCat (andCat (andCat (andCat BitVec.and_zero BitVec.and_zero) BitVec.and_zero) BitVec.and_zero) rfl) BitVec.and_zero) BitVec.and_zero) rfl)

theorem amoXor (d a b s) : Statement (.amoXor d a b s) :=
  chosen (w := 13#6 ++ d ++ a ++ b ++ 1#6 ++ s ++ 3#4) rfl (select0D _ (cat_6_5_5_5_6_1_4_at_26 ..))
    (by rw [group0D, cat_6_5_5_5_6_1_4_at_0_6, cat_6_5_5_5_6_1_4_at_21, cat_6_5_5_5_6_1_4_at_16, cat_6_5_5_5_6_1_4_at_11, cat_6_5_5_5_6_1_4_at_4]; rcases bit_cases s with rfl | rfl <;> rfl)
    (cleared (0#6 ++ 0#5 ++ 0#5 ++ 0#5 ++ 62#6 ++ 0#1 ++ 0#4) (andCat (andCat (andCat (andCat (andCat (andCat BitVec.and_zero BitVec.and_zero) BitVec.and_zero) BitVec.and_zero) rfl) BitVec.and_zero) BitVec.and_zero) rfl)

theorem amoSmin (d a b s) : Statement (.amoSmin d a b s) :=
  chosen (w := 13#6 ++ d ++ a ++ b ++ 1#6 ++ s ++ 4#4) rfl (select0D _ (cat_6_5_5_5_6_1_4_at_26 ..))
    (by rw [group0D, cat_6_5_5_5_6_1_4_at_0_6, cat_6_5_5_5_6_1_4_at_21, cat_6_5_5_5_6_1_4_at_16, cat_6_5_5_5_6_1_4_at_11, cat_6_5_5_5_6_1_4_at_4]; rcases bit_cases s with rfl | rfl <;> rfl)
    (cleared (0#6 ++ 0#5 ++ 0#5 ++ 0#5 ++ 62#6 ++ 0#1 ++ 0#4) (andCat (andCat (andCat (andCat (andCat (andCat BitVec.and_zero BitVec.and_zero) BitVec.and_zero) BitVec.and_zero) rfl) BitVec.and_zero) BitVec.and_zero) rfl)

theorem amoSmax (d a b s) : Statement (.amoSmax d a b s) :=
  chosen (w := 13#6 ++ d ++ a ++ b ++ 1#6 ++ s ++ 5#4) rfl (select0D _ (cat_6_5_5_5_6_1_4_at_26 ..))
    (by rw [group0D, cat_6_5_5_5_6_1_4_at_0_6, cat_6_5_5_5_6_1_4_at_21, cat_6_5_5_5_6_1_4_at_16, cat_6_5_5_5_6_1_4_at_11, cat_6_5_5_5_6_1_4_at_4]; rcases bit_cases s with rfl | rfl <;> rfl)
    (cleared (0#6 ++ 0#5 ++ 0#5 ++ 0#5 ++ 62#6 ++ 0#1 ++ 0#4) (andCat (andCat (andCat (andCat (andCat (andCat BitVec.and_zero BitVec.and_zero) BitVec.and_zero) BitVec.and_zero) rfl) BitVec.and_zero) BitVec.and_zero) rfl)

theorem amoUmin (d a b s) : Statement (.amoUmin d a b s) :=
  chosen (w := 13#6 ++ d ++ a ++ b ++ 1#6 ++ s ++ 6#4) rfl (select0D _ (cat_6_5_5_5_6_1_4_at_26 ..))
    (by rw [group0D, cat_6_5_5_5_6_1_4_at_0_6, cat_6_5_5_5_6_1_4_at_21, cat_6_5_5_5_6_1_4_at_16, cat_6_5_5_5_6_1_4_at_11, cat_6_5_5_5_6_1_4_at_4]; rcases bit_cases s with rfl | rfl <;> rfl)
    (cleared (0#6 ++ 0#5 ++ 0#5 ++ 0#5 ++ 62#6 ++ 0#1 ++ 0#4) (andCat (andCat (andCat (andCat (andCat (andCat BitVec.and_zero BitVec.and_zero) BitVec.and_zero) BitVec.and_zero) rfl) BitVec.and_zero) BitVec.and_zero) rfl)

theorem amoUmax (d a b s) : Statement (.amoUmax d a b s) :=
  chosen (w := 13#6 ++ d ++ a ++ b ++ 1#6 ++ s ++ 7#4) rfl (select0D _ (cat_6_5_5_5_6_1_4_at_26 ..))
    (by rw [group0D, cat_6_5_5_5_6_1_4_at_0_6, cat_6_5_5_5_6_1_4_at_21, cat_6_5_5_5_6_1_4_at_16, cat_6_5_5_5_6_1_4_at_11, cat_6_5_5_5_6_1_4_at_4]; rcases bit_cases s with rfl | rfl <;> rfl)
    (cleared (0#6 ++ 0#5 ++ 0#5 ++ 0#5 ++ 62#6 ++ 0#1 ++ 0#4) (andCat (andCat (andCat (andCat (andCat (andCat BitVec.and_zero BitVec.and_zero) BitVec.and_zero) BitVec.and_zero) rfl) BitVec.and_zero) BitVec.and_zero) rfl)

theorem amoSwap (d a b s) : Statement (.amoSwap d a b s) :=
  chosen (w := 13#6 ++ d ++ a ++ b ++ 1#6 ++ s ++ 8#4) rfl (select0D _ (cat_6_5_5_5_6_1_4_at_26 ..))
    (by rw [group0D, cat_6_5_5_5_6_1_4_at_0_6, cat_6_5_5_5_6_1_4_at_21, cat_6_5_5_5_6_1_4_at_16, cat_6_5_5_5_6_1_4_at_11, cat_6_5_5_5_6_1_4_at_4]; rcases bit_cases s with rfl | rfl <;> rfl)
    (cleared (0#6 ++ 0#5 ++ 0#5 ++ 0#5 ++ 62#6 ++ 0#1 ++ 0#4) (andCat (andCat (andCat (andCat (andCat (andCat BitVec.and_zero BitVec.and_zero) BitVec.and_zero) BitVec.and_zero) rfl) BitVec.and_zero) BitVec.and_zero) rfl)

theorem amoFmax (d a b s) : Statement (.amoFmax d a b s) :=
  chosen (w := 13#6 ++ d ++ a ++ b ++ 1#6 ++ s ++ 9#4) rfl (select0D _ (cat_6_5_5_5_6_1_4_at_26 ..))
    (by rw [group0D, cat_6_5_5_5_6_1_4_at_0_6, cat_6_5_5_5_6_1_4_at_21, cat_6_5_5_5_6_1_4_at_16, cat_6_5_5_5_6_1_4_at_11, cat_6_5_5_5_6_1_4_at_4]; rcases bit_cases s with rfl | rfl <;> rfl)
    (cleared (0#6 ++ 0#5 ++ 0#5 ++ 0#5 ++ 62#6 ++ 0#1 ++ 0#4) (andCat (andCat (andCat (andCat (andCat (andCat BitVec.and_zero BitVec.and_zero) BitVec.and_zero) BitVec.and_zero) rfl) BitVec.and_zero) BitVec.and_zero) rfl)

theorem amoAddb (d a b c s) : Statement (.amoAddb d a b c s) :=
  chosen (w := 13#6 ++ d ++ a ++ b ++ c ++ 1#1 ++ s ++ 10#4) rfl (select0D _ (cat_6_5_5_5_5_1_1_4_at_26 ..))
    (by rw [group0D, cat_6_5_5_5_5_1_1_4_at_0_6, cat_6_5_5_5_5_1_1_4_at_21, cat_6_5_5_5_5_1_1_4_at_16, cat_6_5_5_5_5_1_1_4_at_11, cat_6_5_5_5_5_1_1_4_at_6, cat_6_5_5_5_5_1_1_4_at_4]; rcases bit_cases s with rfl | rfl <;> rfl)
    (BitVec.and_zero)

theorem cas (d a b c s) : Statement (.cas d a b c s) :=
  chosen (w := 13#6 ++ d ++ a ++ b ++ c ++ 1#1 ++ s ++ 11#4) rfl (select0D _ (cat_6_5_5_5_5_1_1_4_at_26 ..))
    (by rw [group0D, cat_6_5_5_5_5_1_1_4_at_0_6, cat_6_5_5_5_5_1_1_4_at_21, cat_6_5_5_5_5_1_1_4_at_16, cat_6_5_5_5_5_1_1_4_at_11, cat_6_5_5_5_5_1_1_4_at_6, cat_6_5_5_5_5_1_1_4_at_4]; rcases bit_cases s with rfl | rfl <;> rfl)
    (BitVec.and_zero)

theorem pst (a b s) : Statement (.pst a b s) :=
  chosen (w := 13#6 ++ 0#5 ++ a ++ b ++ 1#6 ++ s ++ 12#4) rfl (select0D _ (cat_6_5_5_5_6_1_4_at_26 ..))
    (by rw [group0D, cat_6_5_5_5_6_1_4_at_0_6, cat_6_5_5_5_6_1_4_at_16, cat_6_5_5_5_6_1_4_at_11, cat_6_5_5_5_6_1_4_at_4]; rcases bit_cases s with rfl | rfl <;> rfl)
    (cleared (0#6 ++ 31#5 ++ 0#5 ++ 0#5 ++ 62#6 ++ 0#1 ++ 0#4) (andCat (andCat (andCat (andCat (andCat (andCat BitVec.and_zero rfl) BitVec.and_zero) BitVec.and_zero) rfl) BitVec.and_zero) BitVec.and_zero) rfl)

theorem pstOrd (a b s) : Statement (.pstOrd a b s) :=
  chosen (w := 13#6 ++ 0#5 ++ a ++ b ++ 1#6 ++ s ++ 13#4) rfl (select0D _ (cat_6_5_5_5_6_1_4_at_26 ..))
    (by rw [group0D, cat_6_5_5_5_6_1_4_at_0_6, cat_6_5_5_5_6_1_4_at_16, cat_6_5_5_5_6_1_4_at_11, cat_6_5_5_5_6_1_4_at_4]; rcases bit_cases s with rfl | rfl <;> rfl)
    (cleared (0#6 ++ 31#5 ++ 0#5 ++ 0#5 ++ 62#6 ++ 0#1 ++ 0#4) (andCat (andCat (andCat (andCat (andCat (andCat BitVec.and_zero rfl) BitVec.and_zero) BitVec.and_zero) rfl) BitVec.and_zero) BitVec.and_zero) rfl)

theorem beq (a b o) : Statement (.beq a b o) :=
  chosen (w := 14#6 ++ a ++ b ++ o) rfl (select0E _ (cat_6_5_5_16_at_26 ..))
    (by rw [group0E, cat_6_5_5_16_at_21, cat_6_5_5_16_at_16, cat_6_5_5_16_at_0])
    (BitVec.and_zero)

theorem bne (a b o) : Statement (.bne a b o) :=
  chosen (w := 15#6 ++ a ++ b ++ o) rfl (select0F _ (cat_6_5_5_16_at_26 ..))
    (by rw [group0F, cat_6_5_5_16_at_21, cat_6_5_5_16_at_16, cat_6_5_5_16_at_0])
    (BitVec.and_zero)

theorem blt (a b o) : Statement (.blt a b o) :=
  chosen (w := 16#6 ++ a ++ b ++ o) rfl (select10 _ (cat_6_5_5_16_at_26 ..))
    (by rw [group10, cat_6_5_5_16_at_21, cat_6_5_5_16_at_16, cat_6_5_5_16_at_0])
    (BitVec.and_zero)

theorem bge (a b o) : Statement (.bge a b o) :=
  chosen (w := 17#6 ++ a ++ b ++ o) rfl (select11 _ (cat_6_5_5_16_at_26 ..))
    (by rw [group11, cat_6_5_5_16_at_21, cat_6_5_5_16_at_16, cat_6_5_5_16_at_0])
    (BitVec.and_zero)

theorem bltu (a b o) : Statement (.bltu a b o) :=
  chosen (w := 18#6 ++ a ++ b ++ o) rfl (select12 _ (cat_6_5_5_16_at_26 ..))
    (by rw [group12, cat_6_5_5_16_at_21, cat_6_5_5_16_at_16, cat_6_5_5_16_at_0])
    (BitVec.and_zero)

theorem bgeu (a b o) : Statement (.bgeu a b o) :=
  chosen (w := 19#6 ++ a ++ b ++ o) rfl (select13 _ (cat_6_5_5_16_at_26 ..))
    (by rw [group13, cat_6_5_5_16_at_21, cat_6_5_5_16_at_16, cat_6_5_5_16_at_0])
    (BitVec.and_zero)

theorem jal (d o) : Statement (.jal d o) :=
  chosen (w := 20#6 ++ d ++ o) rfl (select14 _ (cat_6_5_21_at_26 ..))
    (by rw [group14, cat_6_5_21_at_21, cat_6_5_21_at_0])
    (BitVec.and_zero)

theorem jalr (d a i) : Statement (.jalr d a i) :=
  chosen (w := 21#6 ++ d ++ a ++ i) rfl (select15 _ (cat_6_5_5_16_at_26 ..))
    (by rw [group15, cat_6_5_5_16_at_21, cat_6_5_5_16_at_16, cat_6_5_5_16_at_0])
    (BitVec.and_zero)

theorem csrr (d n) : Statement (.csrr d n) :=
  chosen (w := 22#6 ++ d ++ 0#5 ++ n ++ 0#6) rfl (select16 _ (cat_6_5_5_10_6_at_26 ..))
    (by rw [group16, cat_6_5_5_10_6_at_21, cat_6_5_5_10_6_at_6, cat_6_5_5_10_6_at_0]; rfl)
    (cleared (0#6 ++ 0#5 ++ 31#5 ++ 0#10 ++ 0#6) (andCat (andCat (andCat (andCat BitVec.and_zero BitVec.and_zero) rfl) BitVec.and_zero) BitVec.and_zero) rfl)

theorem csrw (d a n) : Statement (.csrw d a n) :=
  chosen (w := 22#6 ++ d ++ a ++ n ++ 1#6) rfl (select16 _ (cat_6_5_5_10_6_at_26 ..))
    (by rw [group16, cat_6_5_5_10_6_at_21, cat_6_5_5_10_6_at_16, cat_6_5_5_10_6_at_6, cat_6_5_5_10_6_at_0]; rfl)
    (BitVec.and_zero)

theorem csrset (d a n) : Statement (.csrset d a n) :=
  chosen (w := 22#6 ++ d ++ a ++ n ++ 2#6) rfl (select16 _ (cat_6_5_5_10_6_at_26 ..))
    (by rw [group16, cat_6_5_5_10_6_at_21, cat_6_5_5_10_6_at_16, cat_6_5_5_10_6_at_6, cat_6_5_5_10_6_at_0]; rfl)
    (BitVec.and_zero)

theorem csrclr (d a n) : Statement (.csrclr d a n) :=
  chosen (w := 22#6 ++ d ++ a ++ n ++ 3#6) rfl (select16 _ (cat_6_5_5_10_6_at_26 ..))
    (by rw [group16, cat_6_5_5_10_6_at_21, cat_6_5_5_10_6_at_16, cat_6_5_5_10_6_at_6, cat_6_5_5_10_6_at_0]; rfl)
    (BitVec.and_zero)

theorem trap (a n) : Statement (.trap a n) :=
  chosen (w := 22#6 ++ 0#5 ++ a ++ 0#4 ++ n ++ 8#6) rfl (select16 _ (cat_6_5_5_4_6_6_at_26 ..))
    (by rw [group16, cat_6_5_5_4_6_6_at_16, cat_6_5_5_4_6_6_at_6, cat_6_5_5_4_6_6_at_0]; rfl)
    (cleared (0#6 ++ 31#5 ++ 0#5 ++ 15#4 ++ 0#6 ++ 0#6) (andCat (andCat (andCat (andCat (andCat BitVec.and_zero rfl) BitVec.and_zero) rfl) BitVec.and_zero) BitVec.and_zero) rfl)

theorem eret : Statement (.eret) :=
  chosen (w := 22#6 ++ 9#26) rfl (select16 _ (cat_6_26_at_26 ..))
    (by rw [group16, cat_6_26_at_0_6]; rfl)
    (cleared (0#6 ++ 67108800#26) (andCat BitVec.and_zero rfl) rfl)

theorem brk (n) : Statement (.brk n) :=
  chosen (w := 22#6 ++ 0#10 ++ n ++ 10#6) rfl (select16 _ (cat_6_10_10_6_at_26 ..))
    (by rw [group16, cat_6_10_10_6_at_6, cat_6_10_10_6_at_0]; rfl)
    (cleared (0#6 ++ 1023#10 ++ 0#10 ++ 0#6) (andCat (andCat (andCat BitVec.and_zero rfl) BitVec.and_zero) BitVec.and_zero) rfl)

theorem fence (p s) : Statement (.fence p s) :=
  chosen (w := 22#6 ++ 0#10 ++ p ++ s ++ 16#8) rfl (select16 _ (cat_6_10_5_3_8_at_26 ..))
    (by rw [group16, cat_6_10_5_3_8_at_11, cat_6_10_5_3_8_at_8, cat_6_10_5_3_8_at_0_6]; rfl)
    (cleared (0#6 ++ 1023#10 ++ 0#5 ++ 0#3 ++ 192#8) (andCat (andCat (andCat (andCat BitVec.and_zero rfl) BitVec.and_zero) BitVec.and_zero) rfl) rfl)

theorem svfence (f) : Statement (.svfence f) :=
  chosen (w := 22#6 ++ 0#18 ++ f ++ 17#6) rfl (select16 _ (cat_6_18_2_6_at_26 ..))
    (by rw [group16, cat_6_18_2_6_at_6, cat_6_18_2_6_at_0]; rfl)
    (cleared (0#6 ++ 262143#18 ++ 0#2 ++ 0#6) (andCat (andCat (andCat BitVec.and_zero rfl) BitVec.and_zero) BitVec.and_zero) rfl)

theorem ifence : Statement (.ifence) :=
  chosen (w := 22#6 ++ 18#26) rfl (select16 _ (cat_6_26_at_26 ..))
    (by rw [group16, cat_6_26_at_0_6]; rfl)
    (cleared (0#6 ++ 67108800#26) (andCat BitVec.and_zero rfl) rfl)

theorem tlbinv (a s l) : Statement (.tlbinv a s l) :=
  chosen (w := 22#6 ++ 0#5 ++ a ++ 0#5 ++ s ++ l ++ 19#7) rfl (select16 _ (cat_6_5_5_5_3_1_7_at_26 ..))
    (by rw [group16, cat_6_5_5_5_3_1_7_at_16, cat_6_5_5_5_3_1_7_at_8, cat_6_5_5_5_3_1_7_at_7, cat_6_5_5_5_3_1_7_at_0_6]; rfl)
    (cleared (0#6 ++ 31#5 ++ 0#5 ++ 31#5 ++ 0#3 ++ 0#1 ++ 64#7) (andCat (andCat (andCat (andCat (andCat (andCat BitVec.and_zero rfl) BitVec.and_zero) rfl) BitVec.and_zero) BitVec.and_zero) rfl) rfl)

theorem stflush (a l) : Statement (.stflush a l) :=
  chosen (w := 22#6 ++ 0#5 ++ a ++ 0#8 ++ l ++ 20#7) rfl (select16 _ (cat_6_5_5_8_1_7_at_26 ..))
    (by rw [group16, cat_6_5_5_8_1_7_at_16, cat_6_5_5_8_1_7_at_7, cat_6_5_5_8_1_7_at_0_6]; rfl)
    (cleared (0#6 ++ 31#5 ++ 0#5 ++ 255#8 ++ 0#1 ++ 64#7) (andCat (andCat (andCat (andCat (andCat BitVec.and_zero rfl) BitVec.and_zero) rfl) BitVec.and_zero) rfl) rfl)

theorem stinv (a l) : Statement (.stinv a l) :=
  chosen (w := 22#6 ++ 0#5 ++ a ++ 0#8 ++ l ++ 21#7) rfl (select16 _ (cat_6_5_5_8_1_7_at_26 ..))
    (by rw [group16, cat_6_5_5_8_1_7_at_16, cat_6_5_5_8_1_7_at_7, cat_6_5_5_8_1_7_at_0_6]; rfl)
    (cleared (0#6 ++ 31#5 ++ 0#5 ++ 255#8 ++ 0#1 ++ 64#7) (andCat (andCat (andCat (andCat (andCat BitVec.and_zero rfl) BitVec.and_zero) rfl) BitVec.and_zero) rfl) rfl)

theorem tspawn (a) : Statement (.tspawn a) :=
  chosen (w := 23#6 ++ 0#5 ++ a ++ 0#16) rfl (select17 _ (cat_6_5_5_16_at_26 ..))
    (by rw [group17, cat_6_5_5_16_at_16, cat_6_5_5_16_at_0_6]; rfl)
    (cleared (0#6 ++ 31#5 ++ 0#5 ++ 65472#16) (andCat (andCat (andCat BitVec.and_zero rfl) BitVec.and_zero) rfl) rfl)

theorem tend : Statement (.tend) :=
  chosen (w := 23#6 ++ 1#26) rfl (select17 _ (cat_6_26_at_26 ..))
    (by rw [group17, cat_6_26_at_0_6]; rfl)
    (cleared (0#6 ++ 67108800#26) (andCat BitVec.and_zero rfl) rfl)

theorem tself (d) : Statement (.tself d) :=
  chosen (w := 23#6 ++ d ++ 2#21) rfl (select17 _ (cat_6_5_21_at_26 ..))
    (by rw [group17, cat_6_5_21_at_21, cat_6_5_21_at_0_6]; rfl)
    (cleared (0#6 ++ 0#5 ++ 2097088#21) (andCat (andCat BitVec.and_zero BitVec.and_zero) rfl) rfl)

theorem barrive (d a b) : Statement (.barrive d a b) :=
  chosen (w := 24#6 ++ d ++ a ++ b ++ 0#11) rfl (select18 _ (cat_6_5_5_5_11_at_26 ..))
    (by rw [group18, cat_6_5_5_5_11_at_21, cat_6_5_5_5_11_at_16, cat_6_5_5_5_11_at_11, cat_6_5_5_5_11_at_0_6]; rfl)
    (cleared (0#6 ++ 0#5 ++ 0#5 ++ 0#5 ++ 1984#11) (andCat (andCat (andCat (andCat BitVec.and_zero BitVec.and_zero) BitVec.and_zero) BitVec.and_zero) rfl) rfl)

theorem barwait (d a b c) : Statement (.barwait d a b c) :=
  chosen (w := 24#6 ++ d ++ a ++ b ++ c ++ 1#6) rfl (select18 _ (cat_6_5_5_5_5_6_at_26 ..))
    (by rw [group18, cat_6_5_5_5_5_6_at_21, cat_6_5_5_5_5_6_at_16, cat_6_5_5_5_5_6_at_11, cat_6_5_5_5_5_6_at_6, cat_6_5_5_5_5_6_at_0]; rfl)
    (BitVec.and_zero)

theorem hbar (a s) : Statement (.hbar a s) :=
  chosen (w := 24#6 ++ 0#5 ++ a ++ 0#7 ++ s ++ 2#6) rfl (select18 _ (cat_6_5_5_7_3_6_at_26 ..))
    (by rw [group18, cat_6_5_5_7_3_6_at_16, cat_6_5_5_7_3_6_at_6, cat_6_5_5_7_3_6_at_0]; rfl)
    (cleared (0#6 ++ 31#5 ++ 0#5 ++ 127#7 ++ 0#3 ++ 0#6) (andCat (andCat (andCat (andCat (andCat BitVec.and_zero rfl) BitVec.and_zero) rfl) BitVec.and_zero) BitVec.and_zero) rfl)

theorem cpy (d a b c) : Statement (.cpy d a b c) :=
  chosen (w := 25#6 ++ d ++ a ++ b ++ c ++ 0#6) rfl (select19 _ (cat_6_5_5_5_5_6_at_26 ..))
    (by rw [group19, cat_6_5_5_5_5_6_at_21, cat_6_5_5_5_5_6_at_16, cat_6_5_5_5_5_6_at_11, cat_6_5_5_5_5_6_at_6, cat_6_5_5_5_5_6_at_0]; rfl)
    (BitVec.and_zero)

theorem cpy2 (d a b c) : Statement (.cpy2 d a b c) :=
  chosen (w := 25#6 ++ d ++ a ++ b ++ c ++ 1#6) rfl (select19 _ (cat_6_5_5_5_5_6_at_26 ..))
    (by rw [group19, cat_6_5_5_5_5_6_at_21, cat_6_5_5_5_5_6_at_16, cat_6_5_5_5_5_6_at_11, cat_6_5_5_5_5_6_at_6, cat_6_5_5_5_5_6_at_0]; rfl)
    (BitVec.and_zero)

theorem cpyxG (d a b c) : Statement (.cpyxG d a b c) :=
  chosen (w := 25#6 ++ d ++ a ++ b ++ c ++ 2#6) rfl (select19 _ (cat_6_5_5_5_5_6_at_26 ..))
    (by rw [group19, cat_6_5_5_5_5_6_at_21, cat_6_5_5_5_5_6_at_16, cat_6_5_5_5_5_6_at_11, cat_6_5_5_5_5_6_at_6, cat_6_5_5_5_5_6_at_0]; rfl)
    (BitVec.and_zero)

theorem cpyxS (d a b c) : Statement (.cpyxS d a b c) :=
  chosen (w := 25#6 ++ d ++ a ++ b ++ c ++ 3#6) rfl (select19 _ (cat_6_5_5_5_5_6_at_26 ..))
    (by rw [group19, cat_6_5_5_5_5_6_at_21, cat_6_5_5_5_5_6_at_16, cat_6_5_5_5_5_6_at_11, cat_6_5_5_5_5_6_at_6, cat_6_5_5_5_5_6_at_0]; rfl)
    (BitVec.and_zero)

theorem rsort (d a b c) : Statement (.rsort d a b c) :=
  chosen (w := 25#6 ++ d ++ a ++ b ++ c ++ 4#6) rfl (select19 _ (cat_6_5_5_5_5_6_at_26 ..))
    (by rw [group19, cat_6_5_5_5_5_6_at_21, cat_6_5_5_5_5_6_at_16, cat_6_5_5_5_5_6_at_11, cat_6_5_5_5_5_6_at_6, cat_6_5_5_5_5_6_at_0]; rfl)
    (BitVec.and_zero)

theorem sisect (d a b) : Statement (.sisect d a b) :=
  chosen (w := 26#6 ++ d ++ a ++ b ++ 0#11) rfl (select1A _ (cat_6_5_5_5_11_at_26 ..))
    (by rw [group1A, cat_6_5_5_5_11_at_21, cat_6_5_5_5_11_at_16, cat_6_5_5_5_11_at_11, cat_6_5_5_5_11_at_0_6]; rfl)
    (cleared (0#6 ++ 0#5 ++ 0#5 ++ 0#5 ++ 1984#11) (andCat (andCat (andCat (andCat BitVec.and_zero BitVec.and_zero) BitVec.and_zero) BitVec.and_zero) rfl) rfl)

theorem smerge (d a b) : Statement (.smerge d a b) :=
  chosen (w := 26#6 ++ d ++ a ++ b ++ 1#11) rfl (select1A _ (cat_6_5_5_5_11_at_26 ..))
    (by rw [group1A, cat_6_5_5_5_11_at_21, cat_6_5_5_5_11_at_16, cat_6_5_5_5_11_at_11, cat_6_5_5_5_11_at_0_6]; rfl)
    (cleared (0#6 ++ 0#5 ++ 0#5 ++ 0#5 ++ 1984#11) (andCat (andCat (andCat (andCat BitVec.and_zero BitVec.and_zero) BitVec.and_zero) BitVec.and_zero) rfl) rfl)

theorem xbind (a n) : Statement (.xbind a n) :=
  chosen (w := 27#6 ++ 0#5 ++ a ++ 0#6 ++ n ++ 0#6) rfl (select1B _ (cat_6_5_5_6_4_6_at_26 ..))
    (by rw [group1B, cat_6_5_5_6_4_6_at_16, cat_6_5_5_6_4_6_at_6, cat_6_5_5_6_4_6_at_0]; rfl)
    (cleared (0#6 ++ 31#5 ++ 0#5 ++ 63#6 ++ 0#4 ++ 0#6) (andCat (andCat (andCat (andCat (andCat BitVec.and_zero rfl) BitVec.and_zero) rfl) BitVec.and_zero) BitVec.and_zero) rfl)

theorem xsend (a b n) : Statement (.xsend a b n) :=
  chosen (w := 27#6 ++ 0#5 ++ a ++ b ++ 0#1 ++ n ++ 1#6) rfl (select1B _ (cat_6_5_5_5_1_4_6_at_26 ..))
    (by rw [group1B, cat_6_5_5_5_1_4_6_at_16, cat_6_5_5_5_1_4_6_at_11, cat_6_5_5_5_1_4_6_at_6, cat_6_5_5_5_1_4_6_at_0]; rfl)
    (cleared (0#6 ++ 31#5 ++ 0#5 ++ 0#5 ++ 1#1 ++ 0#4 ++ 0#6) (andCat (andCat (andCat (andCat (andCat (andCat BitVec.and_zero rfl) BitVec.and_zero) BitVec.and_zero) rfl) BitVec.and_zero) BitVec.and_zero) rfl)

theorem xsendM (a b n) : Statement (.xsendM a b n) :=
  chosen (w := 27#6 ++ 0#5 ++ a ++ b ++ 0#1 ++ n ++ 2#6) rfl (select1B _ (cat_6_5_5_5_1_4_6_at_26 ..))
    (by rw [group1B, cat_6_5_5_5_1_4_6_at_16, cat_6_5_5_5_1_4_6_at_11, cat_6_5_5_5_1_4_6_at_6, cat_6_5_5_5_1_4_6_at_0]; rfl)
    (cleared (0#6 ++ 31#5 ++ 0#5 ++ 0#5 ++ 1#1 ++ 0#4 ++ 0#6) (andCat (andCat (andCat (andCat (andCat (andCat BitVec.and_zero rfl) BitVec.and_zero) BitVec.and_zero) rfl) BitVec.and_zero) BitVec.and_zero) rfl)

theorem xsendv (a b n) : Statement (.xsendv a b n) :=
  chosen (w := 27#6 ++ 0#5 ++ a ++ b ++ 0#1 ++ n ++ 3#6) rfl (select1B _ (cat_6_5_5_5_1_4_6_at_26 ..))
    (by rw [group1B, cat_6_5_5_5_1_4_6_at_16, cat_6_5_5_5_1_4_6_at_11, cat_6_5_5_5_1_4_6_at_6, cat_6_5_5_5_1_4_6_at_0]; rfl)
    (cleared (0#6 ++ 31#5 ++ 0#5 ++ 0#5 ++ 1#1 ++ 0#4 ++ 0#6) (andCat (andCat (andCat (andCat (andCat (andCat BitVec.and_zero rfl) BitVec.and_zero) BitVec.and_zero) rfl) BitVec.and_zero) BitVec.and_zero) rfl)

theorem xend (n) : Statement (.xend n) :=
  chosen (w := 27#6 ++ 0#16 ++ n ++ 4#6) rfl (select1B _ (cat_6_16_4_6_at_26 ..))
    (by rw [group1B, cat_6_16_4_6_at_6, cat_6_16_4_6_at_0]; rfl)
    (cleared (0#6 ++ 65535#16 ++ 0#4 ++ 0#6) (andCat (andCat (andCat BitVec.and_zero rfl) BitVec.and_zero) BitVec.and_zero) rfl)

theorem xsplitRd (d a n) : Statement (.xsplitRd d a n) :=
  chosen (w := 27#6 ++ d ++ a ++ 0#6 ++ n ++ 5#6) rfl (select1B _ (cat_6_5_5_6_4_6_at_26 ..))
    (by rw [group1B, cat_6_5_5_6_4_6_at_21, cat_6_5_5_6_4_6_at_16, cat_6_5_5_6_4_6_at_6, cat_6_5_5_6_4_6_at_0]; rfl)
    (cleared (0#6 ++ 0#5 ++ 0#5 ++ 63#6 ++ 0#4 ++ 0#6) (andCat (andCat (andCat (andCat (andCat BitVec.and_zero BitVec.and_zero) BitVec.and_zero) rfl) BitVec.and_zero) BitVec.and_zero) rfl)

theorem xsplitIn (d a n) : Statement (.xsplitIn d a n) :=
  chosen (w := 27#6 ++ d ++ a ++ 0#6 ++ n ++ 6#6) rfl (select1B _ (cat_6_5_5_6_4_6_at_26 ..))
    (by rw [group1B, cat_6_5_5_6_4_6_at_21, cat_6_5_5_6_4_6_at_16, cat_6_5_5_6_4_6_at_6, cat_6_5_5_6_4_6_at_0]; rfl)
    (cleared (0#6 ++ 0#5 ++ 0#5 ++ 63#6 ++ 0#4 ++ 0#6) (andCat (andCat (andCat (andCat (andCat BitVec.and_zero BitVec.and_zero) BitVec.and_zero) rfl) BitVec.and_zero) BitVec.and_zero) rfl)

theorem vsetl (d a r f s) : Statement (.vsetl d a r f s) :=
  chosen (w := 28#6 ++ d ++ a ++ 0#11 ++ r ++ f ++ s) rfl (select1C _ (cat_6_5_5_11_1_2_2_at_26 ..))
    (by rw [group1C, cat_6_5_5_11_1_2_2_at_21, cat_6_5_5_11_1_2_2_at_16, cat_6_5_5_11_1_2_2_at_4, cat_6_5_5_11_1_2_2_at_2, cat_6_5_5_11_1_2_2_at_0]; rfl)
    (cleared (0#6 ++ 0#5 ++ 0#5 ++ 2047#11 ++ 0#1 ++ 0#2 ++ 0#2) (andCat (andCat (andCat (andCat (andCat (andCat BitVec.and_zero BitVec.and_zero) BitVec.and_zero) rfl) BitVec.and_zero) BitVec.and_zero) BitVec.and_zero) rfl)

theorem rpt (n k s x y z) : Statement (.rpt n k s x y z) :=
  chosen (w := 29#6 ++ n ++ k ++ s ++ x ++ y ++ z ++ 0#6) rfl (select1D _ (cat_6_10_4_3_1_1_1_6_at_26 ..))
    (by rw [group1D, cat_6_10_4_3_1_1_1_6_at_16, cat_6_10_4_3_1_1_1_6_at_12, cat_6_10_4_3_1_1_1_6_at_9, cat_6_10_4_3_1_1_1_6_at_8, cat_6_10_4_3_1_1_1_6_at_7, cat_6_10_4_3_1_1_1_6_at_6]; rfl)
    (cleared (0#6 ++ 0#10 ++ 0#4 ++ 0#3 ++ 0#1 ++ 0#1 ++ 0#1 ++ 63#6) (andCat (andCat (andCat (andCat (andCat (andCat (andCat BitVec.and_zero BitVec.and_zero) BitVec.and_zero) BitVec.and_zero) BitVec.and_zero) BitVec.and_zero) BitVec.and_zero) rfl) rfl)

theorem vadd (d a b m r) : Statement (.vadd d a b m r) :=
  chosen (w := 32#6 ++ d ++ a ++ b ++ m ++ r ++ 0#7) rfl (select20 _ (cat_6_5_5_5_1_3_7_at_26 ..))
    (by rw [group20, cat_6_5_5_5_1_3_7_at_21, cat_6_5_5_5_1_3_7_at_16, cat_6_5_5_5_1_3_7_at_11, cat_6_5_5_5_1_3_7_at_10, cat_6_5_5_5_1_3_7_at_7, cat_6_5_5_5_1_3_7_at_0]; rfl)
    (BitVec.and_zero)

theorem vsub (d a b m r) : Statement (.vsub d a b m r) :=
  chosen (w := 32#6 ++ d ++ a ++ b ++ m ++ r ++ 1#7) rfl (select20 _ (cat_6_5_5_5_1_3_7_at_26 ..))
    (by rw [group20, cat_6_5_5_5_1_3_7_at_21, cat_6_5_5_5_1_3_7_at_16, cat_6_5_5_5_1_3_7_at_11, cat_6_5_5_5_1_3_7_at_10, cat_6_5_5_5_1_3_7_at_7, cat_6_5_5_5_1_3_7_at_0]; rfl)
    (BitVec.and_zero)

theorem vmul (d a b m r) : Statement (.vmul d a b m r) :=
  chosen (w := 32#6 ++ d ++ a ++ b ++ m ++ r ++ 2#7) rfl (select20 _ (cat_6_5_5_5_1_3_7_at_26 ..))
    (by rw [group20, cat_6_5_5_5_1_3_7_at_21, cat_6_5_5_5_1_3_7_at_16, cat_6_5_5_5_1_3_7_at_11, cat_6_5_5_5_1_3_7_at_10, cat_6_5_5_5_1_3_7_at_7, cat_6_5_5_5_1_3_7_at_0]; rfl)
    (BitVec.and_zero)

theorem vmulh (d a b m r) : Statement (.vmulh d a b m r) :=
  chosen (w := 32#6 ++ d ++ a ++ b ++ m ++ r ++ 3#7) rfl (select20 _ (cat_6_5_5_5_1_3_7_at_26 ..))
    (by rw [group20, cat_6_5_5_5_1_3_7_at_21, cat_6_5_5_5_1_3_7_at_16, cat_6_5_5_5_1_3_7_at_11, cat_6_5_5_5_1_3_7_at_10, cat_6_5_5_5_1_3_7_at_7, cat_6_5_5_5_1_3_7_at_0]; rfl)
    (BitVec.and_zero)

theorem vmulhU (d a b m r) : Statement (.vmulhU d a b m r) :=
  chosen (w := 32#6 ++ d ++ a ++ b ++ m ++ r ++ 4#7) rfl (select20 _ (cat_6_5_5_5_1_3_7_at_26 ..))
    (by rw [group20, cat_6_5_5_5_1_3_7_at_21, cat_6_5_5_5_1_3_7_at_16, cat_6_5_5_5_1_3_7_at_11, cat_6_5_5_5_1_3_7_at_10, cat_6_5_5_5_1_3_7_at_7, cat_6_5_5_5_1_3_7_at_0]; rfl)
    (BitVec.and_zero)

theorem vmin (d a b m r) : Statement (.vmin d a b m r) :=
  chosen (w := 32#6 ++ d ++ a ++ b ++ m ++ r ++ 5#7) rfl (select20 _ (cat_6_5_5_5_1_3_7_at_26 ..))
    (by rw [group20, cat_6_5_5_5_1_3_7_at_21, cat_6_5_5_5_1_3_7_at_16, cat_6_5_5_5_1_3_7_at_11, cat_6_5_5_5_1_3_7_at_10, cat_6_5_5_5_1_3_7_at_7, cat_6_5_5_5_1_3_7_at_0]; rfl)
    (BitVec.and_zero)

theorem vminU (d a b m r) : Statement (.vminU d a b m r) :=
  chosen (w := 32#6 ++ d ++ a ++ b ++ m ++ r ++ 6#7) rfl (select20 _ (cat_6_5_5_5_1_3_7_at_26 ..))
    (by rw [group20, cat_6_5_5_5_1_3_7_at_21, cat_6_5_5_5_1_3_7_at_16, cat_6_5_5_5_1_3_7_at_11, cat_6_5_5_5_1_3_7_at_10, cat_6_5_5_5_1_3_7_at_7, cat_6_5_5_5_1_3_7_at_0]; rfl)
    (BitVec.and_zero)

theorem vmax (d a b m r) : Statement (.vmax d a b m r) :=
  chosen (w := 32#6 ++ d ++ a ++ b ++ m ++ r ++ 7#7) rfl (select20 _ (cat_6_5_5_5_1_3_7_at_26 ..))
    (by rw [group20, cat_6_5_5_5_1_3_7_at_21, cat_6_5_5_5_1_3_7_at_16, cat_6_5_5_5_1_3_7_at_11, cat_6_5_5_5_1_3_7_at_10, cat_6_5_5_5_1_3_7_at_7, cat_6_5_5_5_1_3_7_at_0]; rfl)
    (BitVec.and_zero)

theorem vmaxU (d a b m r) : Statement (.vmaxU d a b m r) :=
  chosen (w := 32#6 ++ d ++ a ++ b ++ m ++ r ++ 8#7) rfl (select20 _ (cat_6_5_5_5_1_3_7_at_26 ..))
    (by rw [group20, cat_6_5_5_5_1_3_7_at_21, cat_6_5_5_5_1_3_7_at_16, cat_6_5_5_5_1_3_7_at_11, cat_6_5_5_5_1_3_7_at_10, cat_6_5_5_5_1_3_7_at_7, cat_6_5_5_5_1_3_7_at_0]; rfl)
    (BitVec.and_zero)

theorem vand (d a b m r) : Statement (.vand d a b m r) :=
  chosen (w := 32#6 ++ d ++ a ++ b ++ m ++ r ++ 9#7) rfl (select20 _ (cat_6_5_5_5_1_3_7_at_26 ..))
    (by rw [group20, cat_6_5_5_5_1_3_7_at_21, cat_6_5_5_5_1_3_7_at_16, cat_6_5_5_5_1_3_7_at_11, cat_6_5_5_5_1_3_7_at_10, cat_6_5_5_5_1_3_7_at_7, cat_6_5_5_5_1_3_7_at_0]; rfl)
    (BitVec.and_zero)

theorem vor (d a b m r) : Statement (.vor d a b m r) :=
  chosen (w := 32#6 ++ d ++ a ++ b ++ m ++ r ++ 10#7) rfl (select20 _ (cat_6_5_5_5_1_3_7_at_26 ..))
    (by rw [group20, cat_6_5_5_5_1_3_7_at_21, cat_6_5_5_5_1_3_7_at_16, cat_6_5_5_5_1_3_7_at_11, cat_6_5_5_5_1_3_7_at_10, cat_6_5_5_5_1_3_7_at_7, cat_6_5_5_5_1_3_7_at_0]; rfl)
    (BitVec.and_zero)

theorem vxor (d a b m r) : Statement (.vxor d a b m r) :=
  chosen (w := 32#6 ++ d ++ a ++ b ++ m ++ r ++ 11#7) rfl (select20 _ (cat_6_5_5_5_1_3_7_at_26 ..))
    (by rw [group20, cat_6_5_5_5_1_3_7_at_21, cat_6_5_5_5_1_3_7_at_16, cat_6_5_5_5_1_3_7_at_11, cat_6_5_5_5_1_3_7_at_10, cat_6_5_5_5_1_3_7_at_7, cat_6_5_5_5_1_3_7_at_0]; rfl)
    (BitVec.and_zero)

theorem vsll (d a b m r) : Statement (.vsll d a b m r) :=
  chosen (w := 32#6 ++ d ++ a ++ b ++ m ++ r ++ 12#7) rfl (select20 _ (cat_6_5_5_5_1_3_7_at_26 ..))
    (by rw [group20, cat_6_5_5_5_1_3_7_at_21, cat_6_5_5_5_1_3_7_at_16, cat_6_5_5_5_1_3_7_at_11, cat_6_5_5_5_1_3_7_at_10, cat_6_5_5_5_1_3_7_at_7, cat_6_5_5_5_1_3_7_at_0]; rfl)
    (BitVec.and_zero)

theorem vsrl (d a b m r) : Statement (.vsrl d a b m r) :=
  chosen (w := 32#6 ++ d ++ a ++ b ++ m ++ r ++ 13#7) rfl (select20 _ (cat_6_5_5_5_1_3_7_at_26 ..))
    (by rw [group20, cat_6_5_5_5_1_3_7_at_21, cat_6_5_5_5_1_3_7_at_16, cat_6_5_5_5_1_3_7_at_11, cat_6_5_5_5_1_3_7_at_10, cat_6_5_5_5_1_3_7_at_7, cat_6_5_5_5_1_3_7_at_0]; rfl)
    (BitVec.and_zero)

theorem vsra (d a b m r) : Statement (.vsra d a b m r) :=
  chosen (w := 32#6 ++ d ++ a ++ b ++ m ++ r ++ 14#7) rfl (select20 _ (cat_6_5_5_5_1_3_7_at_26 ..))
    (by rw [group20, cat_6_5_5_5_1_3_7_at_21, cat_6_5_5_5_1_3_7_at_16, cat_6_5_5_5_1_3_7_at_11, cat_6_5_5_5_1_3_7_at_10, cat_6_5_5_5_1_3_7_at_7, cat_6_5_5_5_1_3_7_at_0]; rfl)
    (BitVec.and_zero)

theorem vcmpEq (d a b m r) : Statement (.vcmpEq d a b m r) :=
  chosen (w := 32#6 ++ d ++ a ++ b ++ m ++ r ++ 16#7) rfl (select20 _ (cat_6_5_5_5_1_3_7_at_26 ..))
    (by rw [group20, cat_6_5_5_5_1_3_7_at_21, cat_6_5_5_5_1_3_7_at_16, cat_6_5_5_5_1_3_7_at_11, cat_6_5_5_5_1_3_7_at_10, cat_6_5_5_5_1_3_7_at_7, cat_6_5_5_5_1_3_7_at_0]; rfl)
    (BitVec.and_zero)

theorem vcmpNe (d a b m r) : Statement (.vcmpNe d a b m r) :=
  chosen (w := 32#6 ++ d ++ a ++ b ++ m ++ r ++ 17#7) rfl (select20 _ (cat_6_5_5_5_1_3_7_at_26 ..))
    (by rw [group20, cat_6_5_5_5_1_3_7_at_21, cat_6_5_5_5_1_3_7_at_16, cat_6_5_5_5_1_3_7_at_11, cat_6_5_5_5_1_3_7_at_10, cat_6_5_5_5_1_3_7_at_7, cat_6_5_5_5_1_3_7_at_0]; rfl)
    (BitVec.and_zero)

theorem vcmpLt (d a b m r) : Statement (.vcmpLt d a b m r) :=
  chosen (w := 32#6 ++ d ++ a ++ b ++ m ++ r ++ 18#7) rfl (select20 _ (cat_6_5_5_5_1_3_7_at_26 ..))
    (by rw [group20, cat_6_5_5_5_1_3_7_at_21, cat_6_5_5_5_1_3_7_at_16, cat_6_5_5_5_1_3_7_at_11, cat_6_5_5_5_1_3_7_at_10, cat_6_5_5_5_1_3_7_at_7, cat_6_5_5_5_1_3_7_at_0]; rfl)
    (BitVec.and_zero)

theorem vcmpLtu (d a b m r) : Statement (.vcmpLtu d a b m r) :=
  chosen (w := 32#6 ++ d ++ a ++ b ++ m ++ r ++ 19#7) rfl (select20 _ (cat_6_5_5_5_1_3_7_at_26 ..))
    (by rw [group20, cat_6_5_5_5_1_3_7_at_21, cat_6_5_5_5_1_3_7_at_16, cat_6_5_5_5_1_3_7_at_11, cat_6_5_5_5_1_3_7_at_10, cat_6_5_5_5_1_3_7_at_7, cat_6_5_5_5_1_3_7_at_0]; rfl)
    (BitVec.and_zero)

theorem vcmpLe (d a b m r) : Statement (.vcmpLe d a b m r) :=
  chosen (w := 32#6 ++ d ++ a ++ b ++ m ++ r ++ 20#7) rfl (select20 _ (cat_6_5_5_5_1_3_7_at_26 ..))
    (by rw [group20, cat_6_5_5_5_1_3_7_at_21, cat_6_5_5_5_1_3_7_at_16, cat_6_5_5_5_1_3_7_at_11, cat_6_5_5_5_1_3_7_at_10, cat_6_5_5_5_1_3_7_at_7, cat_6_5_5_5_1_3_7_at_0]; rfl)
    (BitVec.and_zero)

theorem vcmpLeu (d a b m r) : Statement (.vcmpLeu d a b m r) :=
  chosen (w := 32#6 ++ d ++ a ++ b ++ m ++ r ++ 21#7) rfl (select20 _ (cat_6_5_5_5_1_3_7_at_26 ..))
    (by rw [group20, cat_6_5_5_5_1_3_7_at_21, cat_6_5_5_5_1_3_7_at_16, cat_6_5_5_5_1_3_7_at_11, cat_6_5_5_5_1_3_7_at_10, cat_6_5_5_5_1_3_7_at_7, cat_6_5_5_5_1_3_7_at_0]; rfl)
    (BitVec.and_zero)

theorem vsel (d a b r) : Statement (.vsel d a b r) :=
  chosen (w := 32#6 ++ d ++ a ++ b ++ 1#1 ++ r ++ 24#7) rfl (select20 _ (cat_6_5_5_5_1_3_7_at_26 ..))
    (by rw [group20, cat_6_5_5_5_1_3_7_at_21, cat_6_5_5_5_1_3_7_at_16, cat_6_5_5_5_1_3_7_at_11, cat_6_5_5_5_1_3_7_at_7, cat_6_5_5_5_1_3_7_at_10, cat_6_5_5_5_1_3_7_at_0]; rfl)
    (BitVec.and_zero)

theorem vaddVs (d a b m r) : Statement (.vaddVs d a b m r) :=
  chosen (w := 33#6 ++ d ++ a ++ b ++ m ++ r ++ 0#7) rfl (select21 _ (cat_6_5_5_5_1_3_7_at_26 ..))
    (by rw [group21, cat_6_5_5_5_1_3_7_at_21, cat_6_5_5_5_1_3_7_at_16, cat_6_5_5_5_1_3_7_at_11, cat_6_5_5_5_1_3_7_at_10, cat_6_5_5_5_1_3_7_at_7, cat_6_5_5_5_1_3_7_at_0]; rfl)
    (BitVec.and_zero)

theorem vsubVs (d a b m r) : Statement (.vsubVs d a b m r) :=
  chosen (w := 33#6 ++ d ++ a ++ b ++ m ++ r ++ 1#7) rfl (select21 _ (cat_6_5_5_5_1_3_7_at_26 ..))
    (by rw [group21, cat_6_5_5_5_1_3_7_at_21, cat_6_5_5_5_1_3_7_at_16, cat_6_5_5_5_1_3_7_at_11, cat_6_5_5_5_1_3_7_at_10, cat_6_5_5_5_1_3_7_at_7, cat_6_5_5_5_1_3_7_at_0]; rfl)
    (BitVec.and_zero)

theorem vmulVs (d a b m r) : Statement (.vmulVs d a b m r) :=
  chosen (w := 33#6 ++ d ++ a ++ b ++ m ++ r ++ 2#7) rfl (select21 _ (cat_6_5_5_5_1_3_7_at_26 ..))
    (by rw [group21, cat_6_5_5_5_1_3_7_at_21, cat_6_5_5_5_1_3_7_at_16, cat_6_5_5_5_1_3_7_at_11, cat_6_5_5_5_1_3_7_at_10, cat_6_5_5_5_1_3_7_at_7, cat_6_5_5_5_1_3_7_at_0]; rfl)
    (BitVec.and_zero)

theorem vmulhVs (d a b m r) : Statement (.vmulhVs d a b m r) :=
  chosen (w := 33#6 ++ d ++ a ++ b ++ m ++ r ++ 3#7) rfl (select21 _ (cat_6_5_5_5_1_3_7_at_26 ..))
    (by rw [group21, cat_6_5_5_5_1_3_7_at_21, cat_6_5_5_5_1_3_7_at_16, cat_6_5_5_5_1_3_7_at_11, cat_6_5_5_5_1_3_7_at_10, cat_6_5_5_5_1_3_7_at_7, cat_6_5_5_5_1_3_7_at_0]; rfl)
    (BitVec.and_zero)

theorem vmulhUVs (d a b m r) : Statement (.vmulhUVs d a b m r) :=
  chosen (w := 33#6 ++ d ++ a ++ b ++ m ++ r ++ 4#7) rfl (select21 _ (cat_6_5_5_5_1_3_7_at_26 ..))
    (by rw [group21, cat_6_5_5_5_1_3_7_at_21, cat_6_5_5_5_1_3_7_at_16, cat_6_5_5_5_1_3_7_at_11, cat_6_5_5_5_1_3_7_at_10, cat_6_5_5_5_1_3_7_at_7, cat_6_5_5_5_1_3_7_at_0]; rfl)
    (BitVec.and_zero)

theorem vminVs (d a b m r) : Statement (.vminVs d a b m r) :=
  chosen (w := 33#6 ++ d ++ a ++ b ++ m ++ r ++ 5#7) rfl (select21 _ (cat_6_5_5_5_1_3_7_at_26 ..))
    (by rw [group21, cat_6_5_5_5_1_3_7_at_21, cat_6_5_5_5_1_3_7_at_16, cat_6_5_5_5_1_3_7_at_11, cat_6_5_5_5_1_3_7_at_10, cat_6_5_5_5_1_3_7_at_7, cat_6_5_5_5_1_3_7_at_0]; rfl)
    (BitVec.and_zero)

theorem vminUVs (d a b m r) : Statement (.vminUVs d a b m r) :=
  chosen (w := 33#6 ++ d ++ a ++ b ++ m ++ r ++ 6#7) rfl (select21 _ (cat_6_5_5_5_1_3_7_at_26 ..))
    (by rw [group21, cat_6_5_5_5_1_3_7_at_21, cat_6_5_5_5_1_3_7_at_16, cat_6_5_5_5_1_3_7_at_11, cat_6_5_5_5_1_3_7_at_10, cat_6_5_5_5_1_3_7_at_7, cat_6_5_5_5_1_3_7_at_0]; rfl)
    (BitVec.and_zero)

theorem vmaxVs (d a b m r) : Statement (.vmaxVs d a b m r) :=
  chosen (w := 33#6 ++ d ++ a ++ b ++ m ++ r ++ 7#7) rfl (select21 _ (cat_6_5_5_5_1_3_7_at_26 ..))
    (by rw [group21, cat_6_5_5_5_1_3_7_at_21, cat_6_5_5_5_1_3_7_at_16, cat_6_5_5_5_1_3_7_at_11, cat_6_5_5_5_1_3_7_at_10, cat_6_5_5_5_1_3_7_at_7, cat_6_5_5_5_1_3_7_at_0]; rfl)
    (BitVec.and_zero)

theorem vmaxUVs (d a b m r) : Statement (.vmaxUVs d a b m r) :=
  chosen (w := 33#6 ++ d ++ a ++ b ++ m ++ r ++ 8#7) rfl (select21 _ (cat_6_5_5_5_1_3_7_at_26 ..))
    (by rw [group21, cat_6_5_5_5_1_3_7_at_21, cat_6_5_5_5_1_3_7_at_16, cat_6_5_5_5_1_3_7_at_11, cat_6_5_5_5_1_3_7_at_10, cat_6_5_5_5_1_3_7_at_7, cat_6_5_5_5_1_3_7_at_0]; rfl)
    (BitVec.and_zero)

theorem vandVs (d a b m r) : Statement (.vandVs d a b m r) :=
  chosen (w := 33#6 ++ d ++ a ++ b ++ m ++ r ++ 9#7) rfl (select21 _ (cat_6_5_5_5_1_3_7_at_26 ..))
    (by rw [group21, cat_6_5_5_5_1_3_7_at_21, cat_6_5_5_5_1_3_7_at_16, cat_6_5_5_5_1_3_7_at_11, cat_6_5_5_5_1_3_7_at_10, cat_6_5_5_5_1_3_7_at_7, cat_6_5_5_5_1_3_7_at_0]; rfl)
    (BitVec.and_zero)

theorem vorVs (d a b m r) : Statement (.vorVs d a b m r) :=
  chosen (w := 33#6 ++ d ++ a ++ b ++ m ++ r ++ 10#7) rfl (select21 _ (cat_6_5_5_5_1_3_7_at_26 ..))
    (by rw [group21, cat_6_5_5_5_1_3_7_at_21, cat_6_5_5_5_1_3_7_at_16, cat_6_5_5_5_1_3_7_at_11, cat_6_5_5_5_1_3_7_at_10, cat_6_5_5_5_1_3_7_at_7, cat_6_5_5_5_1_3_7_at_0]; rfl)
    (BitVec.and_zero)

theorem vxorVs (d a b m r) : Statement (.vxorVs d a b m r) :=
  chosen (w := 33#6 ++ d ++ a ++ b ++ m ++ r ++ 11#7) rfl (select21 _ (cat_6_5_5_5_1_3_7_at_26 ..))
    (by rw [group21, cat_6_5_5_5_1_3_7_at_21, cat_6_5_5_5_1_3_7_at_16, cat_6_5_5_5_1_3_7_at_11, cat_6_5_5_5_1_3_7_at_10, cat_6_5_5_5_1_3_7_at_7, cat_6_5_5_5_1_3_7_at_0]; rfl)
    (BitVec.and_zero)

theorem vsllVs (d a b m r) : Statement (.vsllVs d a b m r) :=
  chosen (w := 33#6 ++ d ++ a ++ b ++ m ++ r ++ 12#7) rfl (select21 _ (cat_6_5_5_5_1_3_7_at_26 ..))
    (by rw [group21, cat_6_5_5_5_1_3_7_at_21, cat_6_5_5_5_1_3_7_at_16, cat_6_5_5_5_1_3_7_at_11, cat_6_5_5_5_1_3_7_at_10, cat_6_5_5_5_1_3_7_at_7, cat_6_5_5_5_1_3_7_at_0]; rfl)
    (BitVec.and_zero)

theorem vsrlVs (d a b m r) : Statement (.vsrlVs d a b m r) :=
  chosen (w := 33#6 ++ d ++ a ++ b ++ m ++ r ++ 13#7) rfl (select21 _ (cat_6_5_5_5_1_3_7_at_26 ..))
    (by rw [group21, cat_6_5_5_5_1_3_7_at_21, cat_6_5_5_5_1_3_7_at_16, cat_6_5_5_5_1_3_7_at_11, cat_6_5_5_5_1_3_7_at_10, cat_6_5_5_5_1_3_7_at_7, cat_6_5_5_5_1_3_7_at_0]; rfl)
    (BitVec.and_zero)

theorem vsraVs (d a b m r) : Statement (.vsraVs d a b m r) :=
  chosen (w := 33#6 ++ d ++ a ++ b ++ m ++ r ++ 14#7) rfl (select21 _ (cat_6_5_5_5_1_3_7_at_26 ..))
    (by rw [group21, cat_6_5_5_5_1_3_7_at_21, cat_6_5_5_5_1_3_7_at_16, cat_6_5_5_5_1_3_7_at_11, cat_6_5_5_5_1_3_7_at_10, cat_6_5_5_5_1_3_7_at_7, cat_6_5_5_5_1_3_7_at_0]; rfl)
    (BitVec.and_zero)

theorem vcmpEqVs (d a b m r) : Statement (.vcmpEqVs d a b m r) :=
  chosen (w := 33#6 ++ d ++ a ++ b ++ m ++ r ++ 16#7) rfl (select21 _ (cat_6_5_5_5_1_3_7_at_26 ..))
    (by rw [group21, cat_6_5_5_5_1_3_7_at_21, cat_6_5_5_5_1_3_7_at_16, cat_6_5_5_5_1_3_7_at_11, cat_6_5_5_5_1_3_7_at_10, cat_6_5_5_5_1_3_7_at_7, cat_6_5_5_5_1_3_7_at_0]; rfl)
    (BitVec.and_zero)

theorem vcmpNeVs (d a b m r) : Statement (.vcmpNeVs d a b m r) :=
  chosen (w := 33#6 ++ d ++ a ++ b ++ m ++ r ++ 17#7) rfl (select21 _ (cat_6_5_5_5_1_3_7_at_26 ..))
    (by rw [group21, cat_6_5_5_5_1_3_7_at_21, cat_6_5_5_5_1_3_7_at_16, cat_6_5_5_5_1_3_7_at_11, cat_6_5_5_5_1_3_7_at_10, cat_6_5_5_5_1_3_7_at_7, cat_6_5_5_5_1_3_7_at_0]; rfl)
    (BitVec.and_zero)

theorem vcmpLtVs (d a b m r) : Statement (.vcmpLtVs d a b m r) :=
  chosen (w := 33#6 ++ d ++ a ++ b ++ m ++ r ++ 18#7) rfl (select21 _ (cat_6_5_5_5_1_3_7_at_26 ..))
    (by rw [group21, cat_6_5_5_5_1_3_7_at_21, cat_6_5_5_5_1_3_7_at_16, cat_6_5_5_5_1_3_7_at_11, cat_6_5_5_5_1_3_7_at_10, cat_6_5_5_5_1_3_7_at_7, cat_6_5_5_5_1_3_7_at_0]; rfl)
    (BitVec.and_zero)

theorem vcmpLtuVs (d a b m r) : Statement (.vcmpLtuVs d a b m r) :=
  chosen (w := 33#6 ++ d ++ a ++ b ++ m ++ r ++ 19#7) rfl (select21 _ (cat_6_5_5_5_1_3_7_at_26 ..))
    (by rw [group21, cat_6_5_5_5_1_3_7_at_21, cat_6_5_5_5_1_3_7_at_16, cat_6_5_5_5_1_3_7_at_11, cat_6_5_5_5_1_3_7_at_10, cat_6_5_5_5_1_3_7_at_7, cat_6_5_5_5_1_3_7_at_0]; rfl)
    (BitVec.and_zero)

theorem vcmpLeVs (d a b m r) : Statement (.vcmpLeVs d a b m r) :=
  chosen (w := 33#6 ++ d ++ a ++ b ++ m ++ r ++ 20#7) rfl (select21 _ (cat_6_5_5_5_1_3_7_at_26 ..))
    (by rw [group21, cat_6_5_5_5_1_3_7_at_21, cat_6_5_5_5_1_3_7_at_16, cat_6_5_5_5_1_3_7_at_11, cat_6_5_5_5_1_3_7_at_10, cat_6_5_5_5_1_3_7_at_7, cat_6_5_5_5_1_3_7_at_0]; rfl)
    (BitVec.and_zero)

theorem vcmpLeuVs (d a b m r) : Statement (.vcmpLeuVs d a b m r) :=
  chosen (w := 33#6 ++ d ++ a ++ b ++ m ++ r ++ 21#7) rfl (select21 _ (cat_6_5_5_5_1_3_7_at_26 ..))
    (by rw [group21, cat_6_5_5_5_1_3_7_at_21, cat_6_5_5_5_1_3_7_at_16, cat_6_5_5_5_1_3_7_at_11, cat_6_5_5_5_1_3_7_at_10, cat_6_5_5_5_1_3_7_at_7, cat_6_5_5_5_1_3_7_at_0]; rfl)
    (BitVec.and_zero)

theorem vselVs (d a b r) : Statement (.vselVs d a b r) :=
  chosen (w := 33#6 ++ d ++ a ++ b ++ 1#1 ++ r ++ 24#7) rfl (select21 _ (cat_6_5_5_5_1_3_7_at_26 ..))
    (by rw [group21, cat_6_5_5_5_1_3_7_at_21, cat_6_5_5_5_1_3_7_at_16, cat_6_5_5_5_1_3_7_at_11, cat_6_5_5_5_1_3_7_at_7, cat_6_5_5_5_1_3_7_at_10, cat_6_5_5_5_1_3_7_at_0]; rfl)
    (BitVec.and_zero)

theorem vfadd (d a b m r) : Statement (.vfadd d a b m r) :=
  chosen (w := 34#6 ++ d ++ a ++ b ++ m ++ r ++ 0#7) rfl (select22 _ (cat_6_5_5_5_1_3_7_at_26 ..))
    (by rw [group22, cat_6_5_5_5_1_3_7_at_21, cat_6_5_5_5_1_3_7_at_16, cat_6_5_5_5_1_3_7_at_11, cat_6_5_5_5_1_3_7_at_10, cat_6_5_5_5_1_3_7_at_7, cat_6_5_5_5_1_3_7_at_0]; rfl)
    (BitVec.and_zero)

theorem vfsub (d a b m r) : Statement (.vfsub d a b m r) :=
  chosen (w := 34#6 ++ d ++ a ++ b ++ m ++ r ++ 1#7) rfl (select22 _ (cat_6_5_5_5_1_3_7_at_26 ..))
    (by rw [group22, cat_6_5_5_5_1_3_7_at_21, cat_6_5_5_5_1_3_7_at_16, cat_6_5_5_5_1_3_7_at_11, cat_6_5_5_5_1_3_7_at_10, cat_6_5_5_5_1_3_7_at_7, cat_6_5_5_5_1_3_7_at_0]; rfl)
    (BitVec.and_zero)

theorem vfmul (d a b m r) : Statement (.vfmul d a b m r) :=
  chosen (w := 34#6 ++ d ++ a ++ b ++ m ++ r ++ 2#7) rfl (select22 _ (cat_6_5_5_5_1_3_7_at_26 ..))
    (by rw [group22, cat_6_5_5_5_1_3_7_at_21, cat_6_5_5_5_1_3_7_at_16, cat_6_5_5_5_1_3_7_at_11, cat_6_5_5_5_1_3_7_at_10, cat_6_5_5_5_1_3_7_at_7, cat_6_5_5_5_1_3_7_at_0]; rfl)
    (BitVec.and_zero)

theorem vfma (d a b m r) : Statement (.vfma d a b m r) :=
  chosen (w := 34#6 ++ d ++ a ++ b ++ m ++ r ++ 3#7) rfl (select22 _ (cat_6_5_5_5_1_3_7_at_26 ..))
    (by rw [group22, cat_6_5_5_5_1_3_7_at_21, cat_6_5_5_5_1_3_7_at_16, cat_6_5_5_5_1_3_7_at_11, cat_6_5_5_5_1_3_7_at_10, cat_6_5_5_5_1_3_7_at_7, cat_6_5_5_5_1_3_7_at_0]; rfl)
    (BitVec.and_zero)

theorem vfdiv (d a b m r) : Statement (.vfdiv d a b m r) :=
  chosen (w := 34#6 ++ d ++ a ++ b ++ m ++ r ++ 4#7) rfl (select22 _ (cat_6_5_5_5_1_3_7_at_26 ..))
    (by rw [group22, cat_6_5_5_5_1_3_7_at_21, cat_6_5_5_5_1_3_7_at_16, cat_6_5_5_5_1_3_7_at_11, cat_6_5_5_5_1_3_7_at_10, cat_6_5_5_5_1_3_7_at_7, cat_6_5_5_5_1_3_7_at_0]; rfl)
    (BitVec.and_zero)

theorem vfsqrt (d a m r) : Statement (.vfsqrt d a m r) :=
  chosen (w := 34#6 ++ d ++ a ++ 0#5 ++ m ++ r ++ 5#7) rfl (select22 _ (cat_6_5_5_5_1_3_7_at_26 ..))
    (by rw [group22, cat_6_5_5_5_1_3_7_at_21, cat_6_5_5_5_1_3_7_at_16, cat_6_5_5_5_1_3_7_at_10, cat_6_5_5_5_1_3_7_at_7, cat_6_5_5_5_1_3_7_at_0]; rfl)
    (cleared (0#6 ++ 0#5 ++ 0#5 ++ 31#5 ++ 0#1 ++ 0#3 ++ 0#7) (andCat (andCat (andCat (andCat (andCat (andCat BitVec.and_zero BitVec.and_zero) BitVec.and_zero) rfl) BitVec.and_zero) BitVec.and_zero) BitVec.and_zero) rfl)

theorem vfmin (d a b m r) : Statement (.vfmin d a b m r) :=
  chosen (w := 34#6 ++ d ++ a ++ b ++ m ++ r ++ 6#7) rfl (select22 _ (cat_6_5_5_5_1_3_7_at_26 ..))
    (by rw [group22, cat_6_5_5_5_1_3_7_at_21, cat_6_5_5_5_1_3_7_at_16, cat_6_5_5_5_1_3_7_at_11, cat_6_5_5_5_1_3_7_at_10, cat_6_5_5_5_1_3_7_at_7, cat_6_5_5_5_1_3_7_at_0]; rfl)
    (BitVec.and_zero)

theorem vfmax (d a b m r) : Statement (.vfmax d a b m r) :=
  chosen (w := 34#6 ++ d ++ a ++ b ++ m ++ r ++ 7#7) rfl (select22 _ (cat_6_5_5_5_1_3_7_at_26 ..))
    (by rw [group22, cat_6_5_5_5_1_3_7_at_21, cat_6_5_5_5_1_3_7_at_16, cat_6_5_5_5_1_3_7_at_11, cat_6_5_5_5_1_3_7_at_10, cat_6_5_5_5_1_3_7_at_7, cat_6_5_5_5_1_3_7_at_0]; rfl)
    (BitVec.and_zero)

theorem vfexp2 (d a m r) : Statement (.vfexp2 d a m r) :=
  chosen (w := 34#6 ++ d ++ a ++ 0#5 ++ m ++ r ++ 8#7) rfl (select22 _ (cat_6_5_5_5_1_3_7_at_26 ..))
    (by rw [group22, cat_6_5_5_5_1_3_7_at_21, cat_6_5_5_5_1_3_7_at_16, cat_6_5_5_5_1_3_7_at_10, cat_6_5_5_5_1_3_7_at_7, cat_6_5_5_5_1_3_7_at_0]; rfl)
    (cleared (0#6 ++ 0#5 ++ 0#5 ++ 31#5 ++ 0#1 ++ 0#3 ++ 0#7) (andCat (andCat (andCat (andCat (andCat (andCat BitVec.and_zero BitVec.and_zero) BitVec.and_zero) rfl) BitVec.and_zero) BitVec.and_zero) BitVec.and_zero) rfl)

theorem vfrsqrt (d a m r) : Statement (.vfrsqrt d a m r) :=
  chosen (w := 34#6 ++ d ++ a ++ 0#5 ++ m ++ r ++ 9#7) rfl (select22 _ (cat_6_5_5_5_1_3_7_at_26 ..))
    (by rw [group22, cat_6_5_5_5_1_3_7_at_21, cat_6_5_5_5_1_3_7_at_16, cat_6_5_5_5_1_3_7_at_10, cat_6_5_5_5_1_3_7_at_7, cat_6_5_5_5_1_3_7_at_0]; rfl)
    (cleared (0#6 ++ 0#5 ++ 0#5 ++ 31#5 ++ 0#1 ++ 0#3 ++ 0#7) (andCat (andCat (andCat (andCat (andCat (andCat BitVec.and_zero BitVec.and_zero) BitVec.and_zero) rfl) BitVec.and_zero) BitVec.and_zero) BitVec.and_zero) rfl)

theorem vfcmpEq (d a b m r) : Statement (.vfcmpEq d a b m r) :=
  chosen (w := 34#6 ++ d ++ a ++ b ++ m ++ r ++ 16#7) rfl (select22 _ (cat_6_5_5_5_1_3_7_at_26 ..))
    (by rw [group22, cat_6_5_5_5_1_3_7_at_21, cat_6_5_5_5_1_3_7_at_16, cat_6_5_5_5_1_3_7_at_11, cat_6_5_5_5_1_3_7_at_10, cat_6_5_5_5_1_3_7_at_7, cat_6_5_5_5_1_3_7_at_0]; rfl)
    (BitVec.and_zero)

theorem vfcmpLt (d a b m r) : Statement (.vfcmpLt d a b m r) :=
  chosen (w := 34#6 ++ d ++ a ++ b ++ m ++ r ++ 17#7) rfl (select22 _ (cat_6_5_5_5_1_3_7_at_26 ..))
    (by rw [group22, cat_6_5_5_5_1_3_7_at_21, cat_6_5_5_5_1_3_7_at_16, cat_6_5_5_5_1_3_7_at_11, cat_6_5_5_5_1_3_7_at_10, cat_6_5_5_5_1_3_7_at_7, cat_6_5_5_5_1_3_7_at_0]; rfl)
    (BitVec.and_zero)

theorem vfcmpLe (d a b m r) : Statement (.vfcmpLe d a b m r) :=
  chosen (w := 34#6 ++ d ++ a ++ b ++ m ++ r ++ 18#7) rfl (select22 _ (cat_6_5_5_5_1_3_7_at_26 ..))
    (by rw [group22, cat_6_5_5_5_1_3_7_at_21, cat_6_5_5_5_1_3_7_at_16, cat_6_5_5_5_1_3_7_at_11, cat_6_5_5_5_1_3_7_at_10, cat_6_5_5_5_1_3_7_at_7, cat_6_5_5_5_1_3_7_at_0]; rfl)
    (BitVec.and_zero)

theorem vfcmpUn (d a b m r) : Statement (.vfcmpUn d a b m r) :=
  chosen (w := 34#6 ++ d ++ a ++ b ++ m ++ r ++ 19#7) rfl (select22 _ (cat_6_5_5_5_1_3_7_at_26 ..))
    (by rw [group22, cat_6_5_5_5_1_3_7_at_21, cat_6_5_5_5_1_3_7_at_16, cat_6_5_5_5_1_3_7_at_11, cat_6_5_5_5_1_3_7_at_10, cat_6_5_5_5_1_3_7_at_7, cat_6_5_5_5_1_3_7_at_0]; rfl)
    (BitVec.and_zero)

theorem vfaddVs (d a b m r) : Statement (.vfaddVs d a b m r) :=
  chosen (w := 35#6 ++ d ++ a ++ b ++ m ++ r ++ 0#7) rfl (select23 _ (cat_6_5_5_5_1_3_7_at_26 ..))
    (by rw [group23, cat_6_5_5_5_1_3_7_at_21, cat_6_5_5_5_1_3_7_at_16, cat_6_5_5_5_1_3_7_at_11, cat_6_5_5_5_1_3_7_at_10, cat_6_5_5_5_1_3_7_at_7, cat_6_5_5_5_1_3_7_at_0]; rfl)
    (BitVec.and_zero)

theorem vfsubVs (d a b m r) : Statement (.vfsubVs d a b m r) :=
  chosen (w := 35#6 ++ d ++ a ++ b ++ m ++ r ++ 1#7) rfl (select23 _ (cat_6_5_5_5_1_3_7_at_26 ..))
    (by rw [group23, cat_6_5_5_5_1_3_7_at_21, cat_6_5_5_5_1_3_7_at_16, cat_6_5_5_5_1_3_7_at_11, cat_6_5_5_5_1_3_7_at_10, cat_6_5_5_5_1_3_7_at_7, cat_6_5_5_5_1_3_7_at_0]; rfl)
    (BitVec.and_zero)

theorem vfmulVs (d a b m r) : Statement (.vfmulVs d a b m r) :=
  chosen (w := 35#6 ++ d ++ a ++ b ++ m ++ r ++ 2#7) rfl (select23 _ (cat_6_5_5_5_1_3_7_at_26 ..))
    (by rw [group23, cat_6_5_5_5_1_3_7_at_21, cat_6_5_5_5_1_3_7_at_16, cat_6_5_5_5_1_3_7_at_11, cat_6_5_5_5_1_3_7_at_10, cat_6_5_5_5_1_3_7_at_7, cat_6_5_5_5_1_3_7_at_0]; rfl)
    (BitVec.and_zero)

theorem vfmaVs (d a b m r) : Statement (.vfmaVs d a b m r) :=
  chosen (w := 35#6 ++ d ++ a ++ b ++ m ++ r ++ 3#7) rfl (select23 _ (cat_6_5_5_5_1_3_7_at_26 ..))
    (by rw [group23, cat_6_5_5_5_1_3_7_at_21, cat_6_5_5_5_1_3_7_at_16, cat_6_5_5_5_1_3_7_at_11, cat_6_5_5_5_1_3_7_at_10, cat_6_5_5_5_1_3_7_at_7, cat_6_5_5_5_1_3_7_at_0]; rfl)
    (BitVec.and_zero)

theorem vfdivVs (d a b m r) : Statement (.vfdivVs d a b m r) :=
  chosen (w := 35#6 ++ d ++ a ++ b ++ m ++ r ++ 4#7) rfl (select23 _ (cat_6_5_5_5_1_3_7_at_26 ..))
    (by rw [group23, cat_6_5_5_5_1_3_7_at_21, cat_6_5_5_5_1_3_7_at_16, cat_6_5_5_5_1_3_7_at_11, cat_6_5_5_5_1_3_7_at_10, cat_6_5_5_5_1_3_7_at_7, cat_6_5_5_5_1_3_7_at_0]; rfl)
    (BitVec.and_zero)

theorem vfminVs (d a b m r) : Statement (.vfminVs d a b m r) :=
  chosen (w := 35#6 ++ d ++ a ++ b ++ m ++ r ++ 6#7) rfl (select23 _ (cat_6_5_5_5_1_3_7_at_26 ..))
    (by rw [group23, cat_6_5_5_5_1_3_7_at_21, cat_6_5_5_5_1_3_7_at_16, cat_6_5_5_5_1_3_7_at_11, cat_6_5_5_5_1_3_7_at_10, cat_6_5_5_5_1_3_7_at_7, cat_6_5_5_5_1_3_7_at_0]; rfl)
    (BitVec.and_zero)

theorem vfmaxVs (d a b m r) : Statement (.vfmaxVs d a b m r) :=
  chosen (w := 35#6 ++ d ++ a ++ b ++ m ++ r ++ 7#7) rfl (select23 _ (cat_6_5_5_5_1_3_7_at_26 ..))
    (by rw [group23, cat_6_5_5_5_1_3_7_at_21, cat_6_5_5_5_1_3_7_at_16, cat_6_5_5_5_1_3_7_at_11, cat_6_5_5_5_1_3_7_at_10, cat_6_5_5_5_1_3_7_at_7, cat_6_5_5_5_1_3_7_at_0]; rfl)
    (BitVec.and_zero)

theorem vfcmpEqVs (d a b m r) : Statement (.vfcmpEqVs d a b m r) :=
  chosen (w := 35#6 ++ d ++ a ++ b ++ m ++ r ++ 16#7) rfl (select23 _ (cat_6_5_5_5_1_3_7_at_26 ..))
    (by rw [group23, cat_6_5_5_5_1_3_7_at_21, cat_6_5_5_5_1_3_7_at_16, cat_6_5_5_5_1_3_7_at_11, cat_6_5_5_5_1_3_7_at_10, cat_6_5_5_5_1_3_7_at_7, cat_6_5_5_5_1_3_7_at_0]; rfl)
    (BitVec.and_zero)

theorem vfcmpLtVs (d a b m r) : Statement (.vfcmpLtVs d a b m r) :=
  chosen (w := 35#6 ++ d ++ a ++ b ++ m ++ r ++ 17#7) rfl (select23 _ (cat_6_5_5_5_1_3_7_at_26 ..))
    (by rw [group23, cat_6_5_5_5_1_3_7_at_21, cat_6_5_5_5_1_3_7_at_16, cat_6_5_5_5_1_3_7_at_11, cat_6_5_5_5_1_3_7_at_10, cat_6_5_5_5_1_3_7_at_7, cat_6_5_5_5_1_3_7_at_0]; rfl)
    (BitVec.and_zero)

theorem vfcmpLeVs (d a b m r) : Statement (.vfcmpLeVs d a b m r) :=
  chosen (w := 35#6 ++ d ++ a ++ b ++ m ++ r ++ 18#7) rfl (select23 _ (cat_6_5_5_5_1_3_7_at_26 ..))
    (by rw [group23, cat_6_5_5_5_1_3_7_at_21, cat_6_5_5_5_1_3_7_at_16, cat_6_5_5_5_1_3_7_at_11, cat_6_5_5_5_1_3_7_at_10, cat_6_5_5_5_1_3_7_at_7, cat_6_5_5_5_1_3_7_at_0]; rfl)
    (BitVec.and_zero)

theorem vfcmpUnVs (d a b m r) : Statement (.vfcmpUnVs d a b m r) :=
  chosen (w := 35#6 ++ d ++ a ++ b ++ m ++ r ++ 19#7) rfl (select23 _ (cat_6_5_5_5_1_3_7_at_26 ..))
    (by rw [group23, cat_6_5_5_5_1_3_7_at_21, cat_6_5_5_5_1_3_7_at_16, cat_6_5_5_5_1_3_7_at_11, cat_6_5_5_5_1_3_7_at_10, cat_6_5_5_5_1_3_7_at_7, cat_6_5_5_5_1_3_7_at_0]; rfl)
    (BitVec.and_zero)

theorem vredAdd (d a m r) : Statement (.vredAdd d a m r) :=
  chosen (w := 36#6 ++ d ++ a ++ 0#5 ++ m ++ r ++ 0#7) rfl (select24 _ (cat_6_5_5_5_1_3_7_at_26 ..))
    (by rw [group24, cat_6_5_5_5_1_3_7_at_21, cat_6_5_5_5_1_3_7_at_16, cat_6_5_5_5_1_3_7_at_10, cat_6_5_5_5_1_3_7_at_7, cat_6_5_5_5_1_3_7_at_0]; rfl)
    (cleared (0#6 ++ 0#5 ++ 0#5 ++ 31#5 ++ 0#1 ++ 0#3 ++ 0#7) (andCat (andCat (andCat (andCat (andCat (andCat BitVec.and_zero BitVec.and_zero) BitVec.and_zero) rfl) BitVec.and_zero) BitVec.and_zero) BitVec.and_zero) rfl)

theorem vredAnd (d a m r) : Statement (.vredAnd d a m r) :=
  chosen (w := 36#6 ++ d ++ a ++ 0#5 ++ m ++ r ++ 1#7) rfl (select24 _ (cat_6_5_5_5_1_3_7_at_26 ..))
    (by rw [group24, cat_6_5_5_5_1_3_7_at_21, cat_6_5_5_5_1_3_7_at_16, cat_6_5_5_5_1_3_7_at_10, cat_6_5_5_5_1_3_7_at_7, cat_6_5_5_5_1_3_7_at_0]; rfl)
    (cleared (0#6 ++ 0#5 ++ 0#5 ++ 31#5 ++ 0#1 ++ 0#3 ++ 0#7) (andCat (andCat (andCat (andCat (andCat (andCat BitVec.and_zero BitVec.and_zero) BitVec.and_zero) rfl) BitVec.and_zero) BitVec.and_zero) BitVec.and_zero) rfl)

theorem vredOr (d a m r) : Statement (.vredOr d a m r) :=
  chosen (w := 36#6 ++ d ++ a ++ 0#5 ++ m ++ r ++ 2#7) rfl (select24 _ (cat_6_5_5_5_1_3_7_at_26 ..))
    (by rw [group24, cat_6_5_5_5_1_3_7_at_21, cat_6_5_5_5_1_3_7_at_16, cat_6_5_5_5_1_3_7_at_10, cat_6_5_5_5_1_3_7_at_7, cat_6_5_5_5_1_3_7_at_0]; rfl)
    (cleared (0#6 ++ 0#5 ++ 0#5 ++ 31#5 ++ 0#1 ++ 0#3 ++ 0#7) (andCat (andCat (andCat (andCat (andCat (andCat BitVec.and_zero BitVec.and_zero) BitVec.and_zero) rfl) BitVec.and_zero) BitVec.and_zero) BitVec.and_zero) rfl)

theorem vredXor (d a m r) : Statement (.vredXor d a m r) :=
  chosen (w := 36#6 ++ d ++ a ++ 0#5 ++ m ++ r ++ 3#7) rfl (select24 _ (cat_6_5_5_5_1_3_7_at_26 ..))
    (by rw [group24, cat_6_5_5_5_1_3_7_at_21, cat_6_5_5_5_1_3_7_at_16, cat_6_5_5_5_1_3_7_at_10, cat_6_5_5_5_1_3_7_at_7, cat_6_5_5_5_1_3_7_at_0]; rfl)
    (cleared (0#6 ++ 0#5 ++ 0#5 ++ 31#5 ++ 0#1 ++ 0#3 ++ 0#7) (andCat (andCat (andCat (andCat (andCat (andCat BitVec.and_zero BitVec.and_zero) BitVec.and_zero) rfl) BitVec.and_zero) BitVec.and_zero) BitVec.and_zero) rfl)

theorem vredMin (d a m r) : Statement (.vredMin d a m r) :=
  chosen (w := 36#6 ++ d ++ a ++ 0#5 ++ m ++ r ++ 4#7) rfl (select24 _ (cat_6_5_5_5_1_3_7_at_26 ..))
    (by rw [group24, cat_6_5_5_5_1_3_7_at_21, cat_6_5_5_5_1_3_7_at_16, cat_6_5_5_5_1_3_7_at_10, cat_6_5_5_5_1_3_7_at_7, cat_6_5_5_5_1_3_7_at_0]; rfl)
    (cleared (0#6 ++ 0#5 ++ 0#5 ++ 31#5 ++ 0#1 ++ 0#3 ++ 0#7) (andCat (andCat (andCat (andCat (andCat (andCat BitVec.and_zero BitVec.and_zero) BitVec.and_zero) rfl) BitVec.and_zero) BitVec.and_zero) BitVec.and_zero) rfl)

theorem vredMax (d a m r) : Statement (.vredMax d a m r) :=
  chosen (w := 36#6 ++ d ++ a ++ 0#5 ++ m ++ r ++ 5#7) rfl (select24 _ (cat_6_5_5_5_1_3_7_at_26 ..))
    (by rw [group24, cat_6_5_5_5_1_3_7_at_21, cat_6_5_5_5_1_3_7_at_16, cat_6_5_5_5_1_3_7_at_10, cat_6_5_5_5_1_3_7_at_7, cat_6_5_5_5_1_3_7_at_0]; rfl)
    (cleared (0#6 ++ 0#5 ++ 0#5 ++ 31#5 ++ 0#1 ++ 0#3 ++ 0#7) (andCat (andCat (andCat (andCat (andCat (andCat BitVec.and_zero BitVec.and_zero) BitVec.and_zero) rfl) BitVec.and_zero) BitVec.and_zero) BitVec.and_zero) rfl)

theorem vredMinu (d a m r) : Statement (.vredMinu d a m r) :=
  chosen (w := 36#6 ++ d ++ a ++ 0#5 ++ m ++ r ++ 6#7) rfl (select24 _ (cat_6_5_5_5_1_3_7_at_26 ..))
    (by rw [group24, cat_6_5_5_5_1_3_7_at_21, cat_6_5_5_5_1_3_7_at_16, cat_6_5_5_5_1_3_7_at_10, cat_6_5_5_5_1_3_7_at_7, cat_6_5_5_5_1_3_7_at_0]; rfl)
    (cleared (0#6 ++ 0#5 ++ 0#5 ++ 31#5 ++ 0#1 ++ 0#3 ++ 0#7) (andCat (andCat (andCat (andCat (andCat (andCat BitVec.and_zero BitVec.and_zero) BitVec.and_zero) rfl) BitVec.and_zero) BitVec.and_zero) BitVec.and_zero) rfl)

theorem vredMaxu (d a m r) : Statement (.vredMaxu d a m r) :=
  chosen (w := 36#6 ++ d ++ a ++ 0#5 ++ m ++ r ++ 7#7) rfl (select24 _ (cat_6_5_5_5_1_3_7_at_26 ..))
    (by rw [group24, cat_6_5_5_5_1_3_7_at_21, cat_6_5_5_5_1_3_7_at_16, cat_6_5_5_5_1_3_7_at_10, cat_6_5_5_5_1_3_7_at_7, cat_6_5_5_5_1_3_7_at_0]; rfl)
    (cleared (0#6 ++ 0#5 ++ 0#5 ++ 31#5 ++ 0#1 ++ 0#3 ++ 0#7) (andCat (andCat (andCat (andCat (andCat (andCat BitVec.and_zero BitVec.and_zero) BitVec.and_zero) rfl) BitVec.and_zero) BitVec.and_zero) BitVec.and_zero) rfl)

theorem vfredAdd (d a m r) : Statement (.vfredAdd d a m r) :=
  chosen (w := 36#6 ++ d ++ a ++ 0#5 ++ m ++ r ++ 8#7) rfl (select24 _ (cat_6_5_5_5_1_3_7_at_26 ..))
    (by rw [group24, cat_6_5_5_5_1_3_7_at_21, cat_6_5_5_5_1_3_7_at_16, cat_6_5_5_5_1_3_7_at_10, cat_6_5_5_5_1_3_7_at_7, cat_6_5_5_5_1_3_7_at_0]; rfl)
    (cleared (0#6 ++ 0#5 ++ 0#5 ++ 31#5 ++ 0#1 ++ 0#3 ++ 0#7) (andCat (andCat (andCat (andCat (andCat (andCat BitVec.and_zero BitVec.and_zero) BitVec.and_zero) rfl) BitVec.and_zero) BitVec.and_zero) BitVec.and_zero) rfl)

theorem vfredMin (d a m r) : Statement (.vfredMin d a m r) :=
  chosen (w := 36#6 ++ d ++ a ++ 0#5 ++ m ++ r ++ 9#7) rfl (select24 _ (cat_6_5_5_5_1_3_7_at_26 ..))
    (by rw [group24, cat_6_5_5_5_1_3_7_at_21, cat_6_5_5_5_1_3_7_at_16, cat_6_5_5_5_1_3_7_at_10, cat_6_5_5_5_1_3_7_at_7, cat_6_5_5_5_1_3_7_at_0]; rfl)
    (cleared (0#6 ++ 0#5 ++ 0#5 ++ 31#5 ++ 0#1 ++ 0#3 ++ 0#7) (andCat (andCat (andCat (andCat (andCat (andCat BitVec.and_zero BitVec.and_zero) BitVec.and_zero) rfl) BitVec.and_zero) BitVec.and_zero) BitVec.and_zero) rfl)

theorem vfredMax (d a m r) : Statement (.vfredMax d a m r) :=
  chosen (w := 36#6 ++ d ++ a ++ 0#5 ++ m ++ r ++ 10#7) rfl (select24 _ (cat_6_5_5_5_1_3_7_at_26 ..))
    (by rw [group24, cat_6_5_5_5_1_3_7_at_21, cat_6_5_5_5_1_3_7_at_16, cat_6_5_5_5_1_3_7_at_10, cat_6_5_5_5_1_3_7_at_7, cat_6_5_5_5_1_3_7_at_0]; rfl)
    (cleared (0#6 ++ 0#5 ++ 0#5 ++ 31#5 ++ 0#1 ++ 0#3 ++ 0#7) (andCat (andCat (andCat (andCat (andCat (andCat BitVec.and_zero BitVec.and_zero) BitVec.and_zero) rfl) BitVec.and_zero) BitVec.and_zero) BitVec.and_zero) rfl)

theorem vslideUp (d a b m r) : Statement (.vslideUp d a b m r) :=
  chosen (w := 36#6 ++ d ++ a ++ b ++ m ++ r ++ 16#7) rfl (select24 _ (cat_6_5_5_5_1_3_7_at_26 ..))
    (by rw [group24, cat_6_5_5_5_1_3_7_at_21, cat_6_5_5_5_1_3_7_at_16, cat_6_5_5_5_1_3_7_at_11, cat_6_5_5_5_1_3_7_at_10, cat_6_5_5_5_1_3_7_at_7, cat_6_5_5_5_1_3_7_at_0]; rfl)
    (BitVec.and_zero)

theorem vslideDown (d a b m r) : Statement (.vslideDown d a b m r) :=
  chosen (w := 36#6 ++ d ++ a ++ b ++ m ++ r ++ 17#7) rfl (select24 _ (cat_6_5_5_5_1_3_7_at_26 ..))
    (by rw [group24, cat_6_5_5_5_1_3_7_at_21, cat_6_5_5_5_1_3_7_at_16, cat_6_5_5_5_1_3_7_at_11, cat_6_5_5_5_1_3_7_at_10, cat_6_5_5_5_1_3_7_at_7, cat_6_5_5_5_1_3_7_at_0]; rfl)
    (BitVec.and_zero)

theorem vperm (d a b m r) : Statement (.vperm d a b m r) :=
  chosen (w := 36#6 ++ d ++ a ++ b ++ m ++ r ++ 18#7) rfl (select24 _ (cat_6_5_5_5_1_3_7_at_26 ..))
    (by rw [group24, cat_6_5_5_5_1_3_7_at_21, cat_6_5_5_5_1_3_7_at_16, cat_6_5_5_5_1_3_7_at_11, cat_6_5_5_5_1_3_7_at_10, cat_6_5_5_5_1_3_7_at_7, cat_6_5_5_5_1_3_7_at_0]; rfl)
    (BitVec.and_zero)

theorem vcompress (d a r) : Statement (.vcompress d a r) :=
  chosen (w := 36#6 ++ d ++ a ++ 1#6 ++ r ++ 19#7) rfl (select24 _ (cat_6_5_5_6_3_7_at_26 ..))
    (by rw [group24, cat_6_5_5_6_3_7_at_21, cat_6_5_5_6_3_7_at_16, cat_6_5_5_6_3_7_at_7, cat_6_5_5_6_3_7_at_10_1, cat_6_5_5_6_3_7_at_0]; rfl)
    (cleared (0#6 ++ 0#5 ++ 0#5 ++ 62#6 ++ 0#3 ++ 0#7) (andCat (andCat (andCat (andCat (andCat BitVec.and_zero BitVec.and_zero) BitVec.and_zero) rfl) BitVec.and_zero) BitVec.and_zero) rfl)

theorem vexpand (d a r) : Statement (.vexpand d a r) :=
  chosen (w := 36#6 ++ d ++ a ++ 1#6 ++ r ++ 20#7) rfl (select24 _ (cat_6_5_5_6_3_7_at_26 ..))
    (by rw [group24, cat_6_5_5_6_3_7_at_21, cat_6_5_5_6_3_7_at_16, cat_6_5_5_6_3_7_at_7, cat_6_5_5_6_3_7_at_10_1, cat_6_5_5_6_3_7_at_0]; rfl)
    (cleared (0#6 ++ 0#5 ++ 0#5 ++ 62#6 ++ 0#3 ++ 0#7) (andCat (andCat (andCat (andCat (andCat BitVec.and_zero BitVec.and_zero) BitVec.and_zero) rfl) BitVec.and_zero) BitVec.and_zero) rfl)

theorem mand (d a b) : Statement (.mand d a b) :=
  chosen (w := 37#6 ++ d ++ a ++ b ++ 0#11) rfl (select25 _ (cat_6_5_5_5_11_at_26 ..))
    (by rw [group25, cat_6_5_5_5_11_at_21, cat_6_5_5_5_11_at_16, cat_6_5_5_5_11_at_11, cat_6_5_5_5_11_at_0_7]; rfl)
    (cleared (0#6 ++ 0#5 ++ 0#5 ++ 0#5 ++ 1920#11) (andCat (andCat (andCat (andCat BitVec.and_zero BitVec.and_zero) BitVec.and_zero) BitVec.and_zero) rfl) rfl)

theorem mor (d a b) : Statement (.mor d a b) :=
  chosen (w := 37#6 ++ d ++ a ++ b ++ 1#11) rfl (select25 _ (cat_6_5_5_5_11_at_26 ..))
    (by rw [group25, cat_6_5_5_5_11_at_21, cat_6_5_5_5_11_at_16, cat_6_5_5_5_11_at_11, cat_6_5_5_5_11_at_0_7]; rfl)
    (cleared (0#6 ++ 0#5 ++ 0#5 ++ 0#5 ++ 1920#11) (andCat (andCat (andCat (andCat BitVec.and_zero BitVec.and_zero) BitVec.and_zero) BitVec.and_zero) rfl) rfl)

theorem mxor (d a b) : Statement (.mxor d a b) :=
  chosen (w := 37#6 ++ d ++ a ++ b ++ 2#11) rfl (select25 _ (cat_6_5_5_5_11_at_26 ..))
    (by rw [group25, cat_6_5_5_5_11_at_21, cat_6_5_5_5_11_at_16, cat_6_5_5_5_11_at_11, cat_6_5_5_5_11_at_0_7]; rfl)
    (cleared (0#6 ++ 0#5 ++ 0#5 ++ 0#5 ++ 1920#11) (andCat (andCat (andCat (andCat BitVec.and_zero BitVec.and_zero) BitVec.and_zero) BitVec.and_zero) rfl) rfl)

theorem mnot (d a) : Statement (.mnot d a) :=
  chosen (w := 37#6 ++ d ++ a ++ 3#16) rfl (select25 _ (cat_6_5_5_16_at_26 ..))
    (by rw [group25, cat_6_5_5_16_at_21, cat_6_5_5_16_at_16, cat_6_5_5_16_at_0_7]; rfl)
    (cleared (0#6 ++ 0#5 ++ 0#5 ++ 65408#16) (andCat (andCat (andCat BitVec.and_zero BitVec.and_zero) BitVec.and_zero) rfl) rfl)

theorem mpop (d a) : Statement (.mpop d a) :=
  chosen (w := 37#6 ++ d ++ a ++ 4#16) rfl (select25 _ (cat_6_5_5_16_at_26 ..))
    (by rw [group25, cat_6_5_5_16_at_21, cat_6_5_5_16_at_16, cat_6_5_5_16_at_0_7]; rfl)
    (cleared (0#6 ++ 0#5 ++ 0#5 ++ 65408#16) (andCat (andCat (andCat BitVec.and_zero BitVec.and_zero) BitVec.and_zero) rfl) rfl)

theorem mfirst (d a) : Statement (.mfirst d a) :=
  chosen (w := 37#6 ++ d ++ a ++ 5#16) rfl (select25 _ (cat_6_5_5_16_at_26 ..))
    (by rw [group25, cat_6_5_5_16_at_21, cat_6_5_5_16_at_16, cat_6_5_5_16_at_0_7]; rfl)
    (cleared (0#6 ++ 0#5 ++ 0#5 ++ 65408#16) (andCat (andCat (andCat BitVec.and_zero BitVec.and_zero) BitVec.and_zero) rfl) rfl)

theorem mbreak (d a) : Statement (.mbreak d a) :=
  chosen (w := 37#6 ++ d ++ a ++ 6#16) rfl (select25 _ (cat_6_5_5_16_at_26 ..))
    (by rw [group25, cat_6_5_5_16_at_21, cat_6_5_5_16_at_16, cat_6_5_5_16_at_0_7]; rfl)
    (cleared (0#6 ++ 0#5 ++ 0#5 ++ 65408#16) (andCat (andCat (andCat BitVec.and_zero BitVec.and_zero) BitVec.and_zero) rfl) rfl)

theorem vcvt (d a t m r) : Statement (.vcvt d a t m r) :=
  chosen (w := 38#6 ++ d ++ a ++ t ++ m ++ r ++ 0#7) rfl (select26 _ (cat_6_5_5_5_1_3_7_at_26 ..))
    (by rw [group26, cat_6_5_5_5_1_3_7_at_21, cat_6_5_5_5_1_3_7_at_16, cat_6_5_5_5_1_3_7_at_11, cat_6_5_5_5_1_3_7_at_10, cat_6_5_5_5_1_3_7_at_7, cat_6_5_5_5_1_3_7_at_0]; rfl)
    (BitVec.and_zero)

theorem vmvV (d a m r) : Statement (.vmvV d a m r) :=
  chosen (w := 38#6 ++ d ++ a ++ 0#5 ++ m ++ r ++ 1#7) rfl (select26 _ (cat_6_5_5_5_1_3_7_at_26 ..))
    (by rw [group26, cat_6_5_5_5_1_3_7_at_21, cat_6_5_5_5_1_3_7_at_16, cat_6_5_5_5_1_3_7_at_10, cat_6_5_5_5_1_3_7_at_7, cat_6_5_5_5_1_3_7_at_0]; rfl)
    (cleared (0#6 ++ 0#5 ++ 0#5 ++ 31#5 ++ 0#1 ++ 0#3 ++ 0#7) (andCat (andCat (andCat (andCat (andCat (andCat BitVec.and_zero BitVec.and_zero) BitVec.and_zero) rfl) BitVec.and_zero) BitVec.and_zero) BitVec.and_zero) rfl)

theorem vmvS (d a m r) : Statement (.vmvS d a m r) :=
  chosen (w := 38#6 ++ d ++ a ++ 0#5 ++ m ++ r ++ 2#7) rfl (select26 _ (cat_6_5_5_5_1_3_7_at_26 ..))
    (by rw [group26, cat_6_5_5_5_1_3_7_at_21, cat_6_5_5_5_1_3_7_at_16, cat_6_5_5_5_1_3_7_at_10, cat_6_5_5_5_1_3_7_at_7, cat_6_5_5_5_1_3_7_at_0]; rfl)
    (cleared (0#6 ++ 0#5 ++ 0#5 ++ 31#5 ++ 0#1 ++ 0#3 ++ 0#7) (andCat (andCat (andCat (andCat (andCat (andCat BitVec.and_zero BitVec.and_zero) BitVec.and_zero) rfl) BitVec.and_zero) BitVec.and_zero) BitVec.and_zero) rfl)

theorem vmvRaw (d a t) : Statement (.vmvRaw d a t) :=
  chosen (w := 38#6 ++ d ++ a ++ t ++ 3#11) rfl (select26 _ (cat_6_5_5_5_11_at_26 ..))
    (by rw [group26, cat_6_5_5_5_11_at_21, cat_6_5_5_5_11_at_16, cat_6_5_5_5_11_at_11, cat_6_5_5_5_11_at_0_7]; rfl)
    (cleared (0#6 ++ 0#5 ++ 0#5 ++ 0#5 ++ 1920#11) (andCat (andCat (andCat (andCat BitVec.and_zero BitVec.and_zero) BitVec.and_zero) BitVec.and_zero) rfl) rfl)

theorem vidx (d m r) : Statement (.vidx d m r) :=
  chosen (w := 38#6 ++ d ++ 0#10 ++ m ++ r ++ 4#7) rfl (select26 _ (cat_6_5_10_1_3_7_at_26 ..))
    (by rw [group26, cat_6_5_10_1_3_7_at_21, cat_6_5_10_1_3_7_at_10, cat_6_5_10_1_3_7_at_7, cat_6_5_10_1_3_7_at_0]; rfl)
    (cleared (0#6 ++ 0#5 ++ 1023#10 ++ 0#1 ++ 0#3 ++ 0#7) (andCat (andCat (andCat (andCat (andCat BitVec.and_zero BitVec.and_zero) rfl) BitVec.and_zero) BitVec.and_zero) BitVec.and_zero) rfl)

theorem vextr (d a b) : Statement (.vextr d a b) :=
  chosen (w := 38#6 ++ d ++ a ++ b ++ 5#11) rfl (select26 _ (cat_6_5_5_5_11_at_26 ..))
    (by rw [group26, cat_6_5_5_5_11_at_21, cat_6_5_5_5_11_at_16, cat_6_5_5_5_11_at_11, cat_6_5_5_5_11_at_0_7]; rfl)
    (cleared (0#6 ++ 0#5 ++ 0#5 ++ 0#5 ++ 1920#11) (andCat (andCat (andCat (andCat BitVec.and_zero BitVec.and_zero) BitVec.and_zero) BitVec.and_zero) rfl) rfl)

theorem vins (d a b) : Statement (.vins d a b) :=
  chosen (w := 38#6 ++ d ++ a ++ b ++ 6#11) rfl (select26 _ (cat_6_5_5_5_11_at_26 ..))
    (by rw [group26, cat_6_5_5_5_11_at_21, cat_6_5_5_5_11_at_16, cat_6_5_5_5_11_at_11, cat_6_5_5_5_11_at_0_7]; rfl)
    (cleared (0#6 ++ 0#5 ++ 0#5 ++ 0#5 ++ 1920#11) (andCat (andCat (andCat (andCat BitVec.and_zero BitVec.and_zero) BitVec.and_zero) BitVec.and_zero) rfl) rfl)

theorem vsort (d a m r) : Statement (.vsort d a m r) :=
  chosen (w := 39#6 ++ d ++ a ++ 0#5 ++ m ++ r ++ 0#7) rfl (select27 _ (cat_6_5_5_5_1_3_7_at_26 ..))
    (by rw [group27, cat_6_5_5_5_1_3_7_at_21, cat_6_5_5_5_1_3_7_at_16, cat_6_5_5_5_1_3_7_at_10, cat_6_5_5_5_1_3_7_at_7, cat_6_5_5_5_1_3_7_at_0]; rfl)
    (cleared (0#6 ++ 0#5 ++ 0#5 ++ 31#5 ++ 0#1 ++ 0#3 ++ 0#7) (andCat (andCat (andCat (andCat (andCat (andCat BitVec.and_zero BitVec.and_zero) BitVec.and_zero) rfl) BitVec.and_zero) BitVec.and_zero) BitVec.and_zero) rfl)

theorem vsortKv (d a b m r) : Statement (.vsortKv d a b m r) :=
  chosen (w := 39#6 ++ d ++ a ++ b ++ m ++ r ++ 1#7) rfl (select27 _ (cat_6_5_5_5_1_3_7_at_26 ..))
    (by rw [group27, cat_6_5_5_5_1_3_7_at_21, cat_6_5_5_5_1_3_7_at_16, cat_6_5_5_5_1_3_7_at_11, cat_6_5_5_5_1_3_7_at_10, cat_6_5_5_5_1_3_7_at_7, cat_6_5_5_5_1_3_7_at_0]; rfl)
    (BitVec.and_zero)

theorem vld (d a b m r) : Statement (.vld d a b m r) :=
  chosen (w := 40#6 ++ d ++ a ++ b ++ m ++ r ++ 0#7) rfl (select28 _ (cat_6_5_5_5_1_3_7_at_26 ..))
    (by rw [group28, cat_6_5_5_5_1_3_7_at_21, cat_6_5_5_5_1_3_7_at_16, cat_6_5_5_5_1_3_7_at_11, cat_6_5_5_5_1_3_7_at_10, cat_6_5_5_5_1_3_7_at_7, cat_6_5_5_5_1_3_7_at_0_4]; rfl)
    (cleared (0#6 ++ 0#5 ++ 0#5 ++ 0#5 ++ 0#1 ++ 0#3 ++ 112#7) (andCat (andCat (andCat (andCat (andCat (andCat BitVec.and_zero BitVec.and_zero) BitVec.and_zero) BitVec.and_zero) BitVec.and_zero) BitVec.and_zero) rfl) rfl)

theorem vlds (d a b m r) : Statement (.vlds d a b m r) :=
  chosen (w := 40#6 ++ d ++ a ++ b ++ m ++ r ++ 1#7) rfl (select28 _ (cat_6_5_5_5_1_3_7_at_26 ..))
    (by rw [group28, cat_6_5_5_5_1_3_7_at_21, cat_6_5_5_5_1_3_7_at_16, cat_6_5_5_5_1_3_7_at_11, cat_6_5_5_5_1_3_7_at_10, cat_6_5_5_5_1_3_7_at_7, cat_6_5_5_5_1_3_7_at_0_4]; rfl)
    (cleared (0#6 ++ 0#5 ++ 0#5 ++ 0#5 ++ 0#1 ++ 0#3 ++ 112#7) (andCat (andCat (andCat (andCat (andCat (andCat BitVec.and_zero BitVec.and_zero) BitVec.and_zero) BitVec.and_zero) BitVec.and_zero) BitVec.and_zero) rfl) rfl)

theorem vldseg (d a m r f) : Statement (.vldseg d a m r f) :=
  chosen (w := 40#6 ++ d ++ a ++ 0#5 ++ m ++ r ++ f ++ 2#4) rfl (select28 _ (cat_6_5_5_5_1_3_3_4_at_26 ..))
    (by rw [group28, cat_6_5_5_5_1_3_3_4_at_21, cat_6_5_5_5_1_3_3_4_at_16, cat_6_5_5_5_1_3_3_4_at_10, cat_6_5_5_5_1_3_3_4_at_7, cat_6_5_5_5_1_3_3_4_at_4, cat_6_5_5_5_1_3_3_4_at_0]; rfl)
    (cleared (0#6 ++ 0#5 ++ 0#5 ++ 31#5 ++ 0#1 ++ 0#3 ++ 0#3 ++ 0#4) (andCat (andCat (andCat (andCat (andCat (andCat (andCat BitVec.and_zero BitVec.and_zero) BitVec.and_zero) rfl) BitVec.and_zero) BitVec.and_zero) BitVec.and_zero) BitVec.and_zero) rfl)

theorem vldff (d a b m r) : Statement (.vldff d a b m r) :=
  chosen (w := 40#6 ++ d ++ a ++ b ++ m ++ r ++ 3#7) rfl (select28 _ (cat_6_5_5_5_1_3_7_at_26 ..))
    (by rw [group28, cat_6_5_5_5_1_3_7_at_21, cat_6_5_5_5_1_3_7_at_16, cat_6_5_5_5_1_3_7_at_11, cat_6_5_5_5_1_3_7_at_10, cat_6_5_5_5_1_3_7_at_7, cat_6_5_5_5_1_3_7_at_0_4]; rfl)
    (cleared (0#6 ++ 0#5 ++ 0#5 ++ 0#5 ++ 0#1 ++ 0#3 ++ 112#7) (andCat (andCat (andCat (andCat (andCat (andCat BitVec.and_zero BitVec.and_zero) BitVec.and_zero) BitVec.and_zero) BitVec.and_zero) BitVec.and_zero) rfl) rfl)

theorem vst (d a b m r) : Statement (.vst d a b m r) :=
  chosen (w := 41#6 ++ d ++ a ++ b ++ m ++ r ++ 0#7) rfl (select29 _ (cat_6_5_5_5_1_3_7_at_26 ..))
    (by rw [group29, cat_6_5_5_5_1_3_7_at_21, cat_6_5_5_5_1_3_7_at_16, cat_6_5_5_5_1_3_7_at_11, cat_6_5_5_5_1_3_7_at_10, cat_6_5_5_5_1_3_7_at_7, cat_6_5_5_5_1_3_7_at_0_4]; rfl)
    (cleared (0#6 ++ 0#5 ++ 0#5 ++ 0#5 ++ 0#1 ++ 0#3 ++ 112#7) (andCat (andCat (andCat (andCat (andCat (andCat BitVec.and_zero BitVec.and_zero) BitVec.and_zero) BitVec.and_zero) BitVec.and_zero) BitVec.and_zero) rfl) rfl)

theorem vsts (d a b m r) : Statement (.vsts d a b m r) :=
  chosen (w := 41#6 ++ d ++ a ++ b ++ m ++ r ++ 1#7) rfl (select29 _ (cat_6_5_5_5_1_3_7_at_26 ..))
    (by rw [group29, cat_6_5_5_5_1_3_7_at_21, cat_6_5_5_5_1_3_7_at_16, cat_6_5_5_5_1_3_7_at_11, cat_6_5_5_5_1_3_7_at_10, cat_6_5_5_5_1_3_7_at_7, cat_6_5_5_5_1_3_7_at_0_4]; rfl)
    (cleared (0#6 ++ 0#5 ++ 0#5 ++ 0#5 ++ 0#1 ++ 0#3 ++ 112#7) (andCat (andCat (andCat (andCat (andCat (andCat BitVec.and_zero BitVec.and_zero) BitVec.and_zero) BitVec.and_zero) BitVec.and_zero) BitVec.and_zero) rfl) rfl)

theorem vstseg (d a m r f) : Statement (.vstseg d a m r f) :=
  chosen (w := 41#6 ++ d ++ a ++ 0#5 ++ m ++ r ++ f ++ 2#4) rfl (select29 _ (cat_6_5_5_5_1_3_3_4_at_26 ..))
    (by rw [group29, cat_6_5_5_5_1_3_3_4_at_21, cat_6_5_5_5_1_3_3_4_at_16, cat_6_5_5_5_1_3_3_4_at_10, cat_6_5_5_5_1_3_3_4_at_7, cat_6_5_5_5_1_3_3_4_at_4, cat_6_5_5_5_1_3_3_4_at_0]; rfl)
    (cleared (0#6 ++ 0#5 ++ 0#5 ++ 31#5 ++ 0#1 ++ 0#3 ++ 0#3 ++ 0#4) (andCat (andCat (andCat (andCat (andCat (andCat (andCat BitVec.and_zero BitVec.and_zero) BitVec.and_zero) rfl) BitVec.and_zero) BitVec.and_zero) BitVec.and_zero) BitVec.and_zero) rfl)

theorem vstq (d a b m r) : Statement (.vstq d a b m r) :=
  chosen (w := 41#6 ++ d ++ a ++ b ++ m ++ r ++ 4#7) rfl (select29 _ (cat_6_5_5_5_1_3_7_at_26 ..))
    (by rw [group29, cat_6_5_5_5_1_3_7_at_21, cat_6_5_5_5_1_3_7_at_16, cat_6_5_5_5_1_3_7_at_11, cat_6_5_5_5_1_3_7_at_10, cat_6_5_5_5_1_3_7_at_7, cat_6_5_5_5_1_3_7_at_0_4]; rfl)
    (cleared (0#6 ++ 0#5 ++ 0#5 ++ 0#5 ++ 0#1 ++ 0#3 ++ 112#7) (andCat (andCat (andCat (andCat (andCat (andCat BitVec.and_zero BitVec.and_zero) BitVec.and_zero) BitVec.and_zero) BitVec.and_zero) BitVec.and_zero) rfl) rfl)

theorem vldx (d a b m r w) : Statement (.vldx d a b m r w) :=
  chosen (w := 42#6 ++ d ++ a ++ b ++ m ++ r ++ 0#1 ++ w ++ 0#4) rfl (select2A _ (cat_6_5_5_5_1_3_1_2_4_at_26 ..))
    (by rw [group2A, cat_6_5_5_5_1_3_1_2_4_at_21, cat_6_5_5_5_1_3_1_2_4_at_16, cat_6_5_5_5_1_3_1_2_4_at_11, cat_6_5_5_5_1_3_1_2_4_at_10, cat_6_5_5_5_1_3_1_2_4_at_7, cat_6_5_5_5_1_3_1_2_4_at_4, cat_6_5_5_5_1_3_1_2_4_at_0]; rfl)
    (cleared (0#6 ++ 0#5 ++ 0#5 ++ 0#5 ++ 0#1 ++ 0#3 ++ 1#1 ++ 0#2 ++ 0#4) (andCat (andCat (andCat (andCat (andCat (andCat (andCat (andCat BitVec.and_zero BitVec.and_zero) BitVec.and_zero) BitVec.and_zero) BitVec.and_zero) BitVec.and_zero) rfl) BitVec.and_zero) BitVec.and_zero) rfl)

theorem vstx (d a b m r w) : Statement (.vstx d a b m r w) :=
  chosen (w := 42#6 ++ d ++ a ++ b ++ m ++ r ++ 0#1 ++ w ++ 1#4) rfl (select2A _ (cat_6_5_5_5_1_3_1_2_4_at_26 ..))
    (by rw [group2A, cat_6_5_5_5_1_3_1_2_4_at_21, cat_6_5_5_5_1_3_1_2_4_at_16, cat_6_5_5_5_1_3_1_2_4_at_11, cat_6_5_5_5_1_3_1_2_4_at_10, cat_6_5_5_5_1_3_1_2_4_at_7, cat_6_5_5_5_1_3_1_2_4_at_4, cat_6_5_5_5_1_3_1_2_4_at_0]; rfl)
    (cleared (0#6 ++ 0#5 ++ 0#5 ++ 0#5 ++ 0#1 ++ 0#3 ++ 1#1 ++ 0#2 ++ 0#4) (andCat (andCat (andCat (andCat (andCat (andCat (andCat (andCat BitVec.and_zero BitVec.and_zero) BitVec.and_zero) BitVec.and_zero) BitVec.and_zero) BitVec.and_zero) rfl) BitVec.and_zero) BitVec.and_zero) rfl)

theorem vstxOrd (d a b m r w) : Statement (.vstxOrd d a b m r w) :=
  chosen (w := 42#6 ++ d ++ a ++ b ++ m ++ r ++ 0#1 ++ w ++ 2#4) rfl (select2A _ (cat_6_5_5_5_1_3_1_2_4_at_26 ..))
    (by rw [group2A, cat_6_5_5_5_1_3_1_2_4_at_21, cat_6_5_5_5_1_3_1_2_4_at_16, cat_6_5_5_5_1_3_1_2_4_at_11, cat_6_5_5_5_1_3_1_2_4_at_10, cat_6_5_5_5_1_3_1_2_4_at_7, cat_6_5_5_5_1_3_1_2_4_at_4, cat_6_5_5_5_1_3_1_2_4_at_0]; rfl)
    (cleared (0#6 ++ 0#5 ++ 0#5 ++ 0#5 ++ 0#1 ++ 0#3 ++ 1#1 ++ 0#2 ++ 0#4) (andCat (andCat (andCat (andCat (andCat (andCat (andCat (andCat BitVec.and_zero BitVec.and_zero) BitVec.and_zero) BitVec.and_zero) BitVec.and_zero) BitVec.and_zero) rfl) BitVec.and_zero) BitVec.and_zero) rfl)

theorem vamoAdd (d a b m r o e q) : Statement (.vamoAdd d a b m r o e q) :=
  chosen (w := 43#6 ++ d ++ a ++ b ++ m ++ r ++ o ++ e ++ q ++ 0#4) rfl (select2B _ (cat_6_5_5_5_1_3_1_1_1_4_at_26 ..))
    (by rw [group2B, cat_6_5_5_5_1_3_1_1_1_4_at_21, cat_6_5_5_5_1_3_1_1_1_4_at_16, cat_6_5_5_5_1_3_1_1_1_4_at_11, cat_6_5_5_5_1_3_1_1_1_4_at_10, cat_6_5_5_5_1_3_1_1_1_4_at_7, cat_6_5_5_5_1_3_1_1_1_4_at_6, cat_6_5_5_5_1_3_1_1_1_4_at_5, cat_6_5_5_5_1_3_1_1_1_4_at_4, cat_6_5_5_5_1_3_1_1_1_4_at_0]; rfl)
    (BitVec.and_zero)

theorem vamoAnd (d a b m r o e q) : Statement (.vamoAnd d a b m r o e q) :=
  chosen (w := 43#6 ++ d ++ a ++ b ++ m ++ r ++ o ++ e ++ q ++ 1#4) rfl (select2B _ (cat_6_5_5_5_1_3_1_1_1_4_at_26 ..))
    (by rw [group2B, cat_6_5_5_5_1_3_1_1_1_4_at_21, cat_6_5_5_5_1_3_1_1_1_4_at_16, cat_6_5_5_5_1_3_1_1_1_4_at_11, cat_6_5_5_5_1_3_1_1_1_4_at_10, cat_6_5_5_5_1_3_1_1_1_4_at_7, cat_6_5_5_5_1_3_1_1_1_4_at_6, cat_6_5_5_5_1_3_1_1_1_4_at_5, cat_6_5_5_5_1_3_1_1_1_4_at_4, cat_6_5_5_5_1_3_1_1_1_4_at_0]; rfl)
    (BitVec.and_zero)

theorem vamoOr (d a b m r o e q) : Statement (.vamoOr d a b m r o e q) :=
  chosen (w := 43#6 ++ d ++ a ++ b ++ m ++ r ++ o ++ e ++ q ++ 2#4) rfl (select2B _ (cat_6_5_5_5_1_3_1_1_1_4_at_26 ..))
    (by rw [group2B, cat_6_5_5_5_1_3_1_1_1_4_at_21, cat_6_5_5_5_1_3_1_1_1_4_at_16, cat_6_5_5_5_1_3_1_1_1_4_at_11, cat_6_5_5_5_1_3_1_1_1_4_at_10, cat_6_5_5_5_1_3_1_1_1_4_at_7, cat_6_5_5_5_1_3_1_1_1_4_at_6, cat_6_5_5_5_1_3_1_1_1_4_at_5, cat_6_5_5_5_1_3_1_1_1_4_at_4, cat_6_5_5_5_1_3_1_1_1_4_at_0]; rfl)
    (BitVec.and_zero)

theorem vamoXor (d a b m r o e q) : Statement (.vamoXor d a b m r o e q) :=
  chosen (w := 43#6 ++ d ++ a ++ b ++ m ++ r ++ o ++ e ++ q ++ 3#4) rfl (select2B _ (cat_6_5_5_5_1_3_1_1_1_4_at_26 ..))
    (by rw [group2B, cat_6_5_5_5_1_3_1_1_1_4_at_21, cat_6_5_5_5_1_3_1_1_1_4_at_16, cat_6_5_5_5_1_3_1_1_1_4_at_11, cat_6_5_5_5_1_3_1_1_1_4_at_10, cat_6_5_5_5_1_3_1_1_1_4_at_7, cat_6_5_5_5_1_3_1_1_1_4_at_6, cat_6_5_5_5_1_3_1_1_1_4_at_5, cat_6_5_5_5_1_3_1_1_1_4_at_4, cat_6_5_5_5_1_3_1_1_1_4_at_0]; rfl)
    (BitVec.and_zero)

theorem vamoSmin (d a b m r o e q) : Statement (.vamoSmin d a b m r o e q) :=
  chosen (w := 43#6 ++ d ++ a ++ b ++ m ++ r ++ o ++ e ++ q ++ 4#4) rfl (select2B _ (cat_6_5_5_5_1_3_1_1_1_4_at_26 ..))
    (by rw [group2B, cat_6_5_5_5_1_3_1_1_1_4_at_21, cat_6_5_5_5_1_3_1_1_1_4_at_16, cat_6_5_5_5_1_3_1_1_1_4_at_11, cat_6_5_5_5_1_3_1_1_1_4_at_10, cat_6_5_5_5_1_3_1_1_1_4_at_7, cat_6_5_5_5_1_3_1_1_1_4_at_6, cat_6_5_5_5_1_3_1_1_1_4_at_5, cat_6_5_5_5_1_3_1_1_1_4_at_4, cat_6_5_5_5_1_3_1_1_1_4_at_0]; rfl)
    (BitVec.and_zero)

theorem vamoSmax (d a b m r o e q) : Statement (.vamoSmax d a b m r o e q) :=
  chosen (w := 43#6 ++ d ++ a ++ b ++ m ++ r ++ o ++ e ++ q ++ 5#4) rfl (select2B _ (cat_6_5_5_5_1_3_1_1_1_4_at_26 ..))
    (by rw [group2B, cat_6_5_5_5_1_3_1_1_1_4_at_21, cat_6_5_5_5_1_3_1_1_1_4_at_16, cat_6_5_5_5_1_3_1_1_1_4_at_11, cat_6_5_5_5_1_3_1_1_1_4_at_10, cat_6_5_5_5_1_3_1_1_1_4_at_7, cat_6_5_5_5_1_3_1_1_1_4_at_6, cat_6_5_5_5_1_3_1_1_1_4_at_5, cat_6_5_5_5_1_3_1_1_1_4_at_4, cat_6_5_5_5_1_3_1_1_1_4_at_0]; rfl)
    (BitVec.and_zero)

theorem vamoUmin (d a b m r o e q) : Statement (.vamoUmin d a b m r o e q) :=
  chosen (w := 43#6 ++ d ++ a ++ b ++ m ++ r ++ o ++ e ++ q ++ 6#4) rfl (select2B _ (cat_6_5_5_5_1_3_1_1_1_4_at_26 ..))
    (by rw [group2B, cat_6_5_5_5_1_3_1_1_1_4_at_21, cat_6_5_5_5_1_3_1_1_1_4_at_16, cat_6_5_5_5_1_3_1_1_1_4_at_11, cat_6_5_5_5_1_3_1_1_1_4_at_10, cat_6_5_5_5_1_3_1_1_1_4_at_7, cat_6_5_5_5_1_3_1_1_1_4_at_6, cat_6_5_5_5_1_3_1_1_1_4_at_5, cat_6_5_5_5_1_3_1_1_1_4_at_4, cat_6_5_5_5_1_3_1_1_1_4_at_0]; rfl)
    (BitVec.and_zero)

theorem vamoUmax (d a b m r o e q) : Statement (.vamoUmax d a b m r o e q) :=
  chosen (w := 43#6 ++ d ++ a ++ b ++ m ++ r ++ o ++ e ++ q ++ 7#4) rfl (select2B _ (cat_6_5_5_5_1_3_1_1_1_4_at_26 ..))
    (by rw [group2B, cat_6_5_5_5_1_3_1_1_1_4_at_21, cat_6_5_5_5_1_3_1_1_1_4_at_16, cat_6_5_5_5_1_3_1_1_1_4_at_11, cat_6_5_5_5_1_3_1_1_1_4_at_10, cat_6_5_5_5_1_3_1_1_1_4_at_7, cat_6_5_5_5_1_3_1_1_1_4_at_6, cat_6_5_5_5_1_3_1_1_1_4_at_5, cat_6_5_5_5_1_3_1_1_1_4_at_4, cat_6_5_5_5_1_3_1_1_1_4_at_0]; rfl)
    (BitVec.and_zero)

theorem vamoSwap (d a b m r o e q) : Statement (.vamoSwap d a b m r o e q) :=
  chosen (w := 43#6 ++ d ++ a ++ b ++ m ++ r ++ o ++ e ++ q ++ 8#4) rfl (select2B _ (cat_6_5_5_5_1_3_1_1_1_4_at_26 ..))
    (by rw [group2B, cat_6_5_5_5_1_3_1_1_1_4_at_21, cat_6_5_5_5_1_3_1_1_1_4_at_16, cat_6_5_5_5_1_3_1_1_1_4_at_11, cat_6_5_5_5_1_3_1_1_1_4_at_10, cat_6_5_5_5_1_3_1_1_1_4_at_7, cat_6_5_5_5_1_3_1_1_1_4_at_6, cat_6_5_5_5_1_3_1_1_1_4_at_5, cat_6_5_5_5_1_3_1_1_1_4_at_4, cat_6_5_5_5_1_3_1_1_1_4_at_0]; rfl)
    (BitVec.and_zero)

theorem vamoFmax (d a b m r o e q) : Statement (.vamoFmax d a b m r o e q) :=
  chosen (w := 43#6 ++ d ++ a ++ b ++ m ++ r ++ o ++ e ++ q ++ 9#4) rfl (select2B _ (cat_6_5_5_5_1_3_1_1_1_4_at_26 ..))
    (by rw [group2B, cat_6_5_5_5_1_3_1_1_1_4_at_21, cat_6_5_5_5_1_3_1_1_1_4_at_16, cat_6_5_5_5_1_3_1_1_1_4_at_11, cat_6_5_5_5_1_3_1_1_1_4_at_10, cat_6_5_5_5_1_3_1_1_1_4_at_7, cat_6_5_5_5_1_3_1_1_1_4_at_6, cat_6_5_5_5_1_3_1_1_1_4_at_5, cat_6_5_5_5_1_3_1_1_1_4_at_4, cat_6_5_5_5_1_3_1_1_1_4_at_0]; rfl)
    (BitVec.and_zero)

theorem vamoAddb (d a b m r o e q) : Statement (.vamoAddb d a b m r o e q) :=
  chosen (w := 43#6 ++ d ++ a ++ b ++ m ++ r ++ o ++ e ++ q ++ 10#4) rfl (select2B _ (cat_6_5_5_5_1_3_1_1_1_4_at_26 ..))
    (by rw [group2B, cat_6_5_5_5_1_3_1_1_1_4_at_21, cat_6_5_5_5_1_3_1_1_1_4_at_16, cat_6_5_5_5_1_3_1_1_1_4_at_11, cat_6_5_5_5_1_3_1_1_1_4_at_10, cat_6_5_5_5_1_3_1_1_1_4_at_7, cat_6_5_5_5_1_3_1_1_1_4_at_6, cat_6_5_5_5_1_3_1_1_1_4_at_5, cat_6_5_5_5_1_3_1_1_1_4_at_4, cat_6_5_5_5_1_3_1_1_1_4_at_0]; rfl)
    (BitVec.and_zero)

theorem vwait (d a b m r c) : Statement (.vwait d a b m r c) :=
  chosen (w := 44#6 ++ d ++ a ++ b ++ m ++ r ++ c ++ 0#4) rfl (select2C _ (cat_6_5_5_5_1_3_3_4_at_26 ..))
    (by rw [group2C, cat_6_5_5_5_1_3_3_4_at_21, cat_6_5_5_5_1_3_3_4_at_16, cat_6_5_5_5_1_3_3_4_at_11, cat_6_5_5_5_1_3_3_4_at_10, cat_6_5_5_5_1_3_3_4_at_7, cat_6_5_5_5_1_3_3_4_at_4]; rfl)
    (cleared (0#6 ++ 0#5 ++ 0#5 ++ 0#5 ++ 0#1 ++ 0#3 ++ 0#3 ++ 15#4) (andCat (andCat (andCat (andCat (andCat (andCat (andCat BitVec.and_zero BitVec.and_zero) BitVec.and_zero) BitVec.and_zero) BitVec.and_zero) BitVec.and_zero) BitVec.and_zero) rfl) rfl)

theorem mshape (d a f) : Statement (.mshape d a f) :=
  chosen (w := 48#6 ++ d ++ a ++ 0#9 ++ f ++ 0#4) rfl (select30 _ (cat_6_5_5_9_3_4_at_26 ..))
    (by rw [group30, cat_6_5_5_9_3_4_at_21, cat_6_5_5_9_3_4_at_16, cat_6_5_5_9_3_4_at_4, cat_6_5_5_9_3_4_at_0]; rfl)
    (cleared (0#6 ++ 0#5 ++ 0#5 ++ 511#9 ++ 0#3 ++ 0#4) (andCat (andCat (andCat (andCat (andCat BitVec.and_zero BitVec.and_zero) BitVec.and_zero) rfl) BitVec.and_zero) BitVec.and_zero) rfl)

theorem mzero (t) : Statement (.mzero t) :=
  chosen (w := 48#6 ++ 0#15 ++ t ++ 1#8) rfl (select30 _ (cat_6_15_3_8_at_26 ..))
    (by rw [group30, cat_6_15_3_8_at_8, cat_6_15_3_8_at_0_4]; rfl)
    (cleared (0#6 ++ 32767#15 ++ 0#3 ++ 240#8) (andCat (andCat (andCat BitVec.and_zero rfl) BitVec.and_zero) rfl) rfl)

theorem mldb (d a b u f) : Statement (.mldb d a b u f) :=
  chosen (w := 48#6 ++ d ++ a ++ b ++ 0#3 ++ u ++ f ++ 2#4) rfl (select30 _ (cat_6_5_5_5_3_1_3_4_at_26 ..))
    (by rw [group30, cat_6_5_5_5_3_1_3_4_at_21, cat_6_5_5_5_3_1_3_4_at_16, cat_6_5_5_5_3_1_3_4_at_11, cat_6_5_5_5_3_1_3_4_at_7, cat_6_5_5_5_3_1_3_4_at_4, cat_6_5_5_5_3_1_3_4_at_0]; rfl)
    (cleared (0#6 ++ 0#5 ++ 0#5 ++ 0#5 ++ 7#3 ++ 0#1 ++ 0#3 ++ 0#4) (andCat (andCat (andCat (andCat (andCat (andCat (andCat BitVec.and_zero BitVec.and_zero) BitVec.and_zero) BitVec.and_zero) rfl) BitVec.and_zero) BitVec.and_zero) BitVec.and_zero) rfl)

theorem mma (d a b t u f) : Statement (.mma d a b t u f) :=
  chosen (w := 48#6 ++ d ++ a ++ b ++ t ++ u ++ f ++ 3#4) rfl (select30 _ (cat_6_5_5_5_3_1_3_4_at_26 ..))
    (by rw [group30, cat_6_5_5_5_3_1_3_4_at_21, cat_6_5_5_5_3_1_3_4_at_16, cat_6_5_5_5_3_1_3_4_at_11, cat_6_5_5_5_3_1_3_4_at_8, cat_6_5_5_5_3_1_3_4_at_7, cat_6_5_5_5_3_1_3_4_at_4, cat_6_5_5_5_3_1_3_4_at_0]; rfl)
    (BitVec.and_zero)

theorem mst (d a t) : Statement (.mst d a t) :=
  chosen (w := 48#6 ++ d ++ a ++ 0#5 ++ t ++ 4#8) rfl (select30 _ (cat_6_5_5_5_3_8_at_26 ..))
    (by rw [group30, cat_6_5_5_5_3_8_at_21, cat_6_5_5_5_3_8_at_16, cat_6_5_5_5_3_8_at_8, cat_6_5_5_5_3_8_at_0_4]; rfl)
    (cleared (0#6 ++ 0#5 ++ 0#5 ++ 31#5 ++ 0#3 ++ 240#8) (andCat (andCat (andCat (andCat (andCat BitVec.and_zero BitVec.and_zero) BitVec.and_zero) rfl) BitVec.and_zero) rfl) rfl)

theorem mmovTo (d a t) : Statement (.mmovTo d a t) :=
  chosen (w := 48#6 ++ d ++ a ++ 0#5 ++ t ++ 5#8) rfl (select30 _ (cat_6_5_5_5_3_8_at_26 ..))
    (by rw [group30, cat_6_5_5_5_3_8_at_21, cat_6_5_5_5_3_8_at_16, cat_6_5_5_5_3_8_at_8, cat_6_5_5_5_3_8_at_0_4]; rfl)
    (cleared (0#6 ++ 0#5 ++ 0#5 ++ 31#5 ++ 0#3 ++ 240#8) (andCat (andCat (andCat (andCat (andCat BitVec.and_zero BitVec.and_zero) BitVec.and_zero) rfl) BitVec.and_zero) rfl) rfl)

theorem mmovFrom (d a t) : Statement (.mmovFrom d a t) :=
  chosen (w := 48#6 ++ d ++ a ++ 0#5 ++ t ++ 6#8) rfl (select30 _ (cat_6_5_5_5_3_8_at_26 ..))
    (by rw [group30, cat_6_5_5_5_3_8_at_21, cat_6_5_5_5_3_8_at_16, cat_6_5_5_5_3_8_at_8, cat_6_5_5_5_3_8_at_0_4]; rfl)
    (cleared (0#6 ++ 0#5 ++ 0#5 ++ 31#5 ++ 0#3 ++ 240#8) (andCat (andCat (andCat (andCat (andCat BitVec.and_zero BitVec.and_zero) BitVec.and_zero) rfl) BitVec.and_zero) rfl) rfl)

theorem entrySelection (ctx : Nat) : Statement (.entrySelection ctx) := fun h => nomatch h

theorem lookAhead (ctx : Nat) : Statement (.lookAhead ctx) := fun h => nomatch h

theorem preemption (die : Nat) (seq : Nat) : Statement (.preemption die seq) := fun h => nomatch h

theorem fullSwitch (ctx : Nat) : Statement (.fullSwitch ctx) := fun h => nomatch h

theorem reclaimFallback (ctx : Nat) : Statement (.reclaimFallback ctx) := fun h => nomatch h

theorem taskBudgetExceeded (ctx : Nat) : Statement (.taskBudgetExceeded ctx) := fun h => nomatch h

theorem trapEntry (ctx : Nat) : Statement (.trapEntry ctx) := fun h => nomatch h

theorem pageTableWalk (core : Nat) (kind : UnitKind) (va : Word) : Statement (.pageTableWalk core kind va) := fun h => nomatch h

theorem walkStalled (ctx : Nat) : Statement (.walkStalled ctx) := fun h => nomatch h

theorem sptEntryBusyTimeout (ctx : Nat) : Statement (.sptEntryBusyTimeout ctx) := fun h => nomatch h

theorem stashFill (ctx : Nat) (page : BitVec 14) : Statement (.stashFill ctx page) := fun h => nomatch h

theorem stashLineFill (ctx : Nat) (page : BitVec 14) (line : BitVec 6) : Statement (.stashLineFill ctx page line) := fun h => nomatch h

theorem pull (ctx : Nat) (page : BitVec 14) : Statement (.pull ctx page) := fun h => nomatch h

theorem copyCountStep (ctx : Nat) (slot : BitVec 3) : Statement (.copyCountStep ctx slot) := fun h => nomatch h

theorem commandCompletionArrival (ctx : Nat) (slot : BitVec 3) : Statement (.commandCompletionArrival ctx slot) := fun h => nomatch h

theorem engineFault (ctx : Nat) (slot : BitVec 3) : Statement (.engineFault ctx slot) := fun h => nomatch h

theorem postedStorePerform (id : Nat) : Statement (.postedStorePerform id) := fun h => nomatch h

theorem postedStoreAcknowledgement (id : Nat) : Statement (.postedStoreAcknowledgement id) := fun h => nomatch h

theorem sendPortHandover (ch : BitVec 4) (slot : Nat) : Statement (.sendPortHandover ch slot) := fun h => nomatch h

theorem mergePointForward (ch : BitVec 4) (point : Nat) : Statement (.mergePointForward ch point) := fun h => nomatch h

theorem recordDelivery (ch : BitVec 4) (dest : Nat) : Statement (.recordDelivery ch dest) := fun h => nomatch h

theorem consumedPoll (ch : BitVec 4) (dest : Nat) : Statement (.consumedPoll ch dest) := fun h => nomatch h

theorem roundCompletion (ch : BitVec 4) (dest : Nat) : Statement (.roundCompletion ch dest) := fun h => nomatch h

theorem deliveryRetry (ch : BitVec 4) (dest : Nat) : Statement (.deliveryRetry ch dest) := fun h => nomatch h

theorem sieveClose (ch : BitVec 4) : Statement (.sieveClose ch) := fun h => nomatch h

theorem channelWatchdog (ch : BitVec 4) : Statement (.channelWatchdog ch) := fun h => nomatch h

theorem barwaitLimitExpiry (ctx : Nat) : Statement (.barwaitLimitExpiry ctx) := fun h => nomatch h

theorem vwaitLimitExpiry (ctx : Nat) : Statement (.vwaitLimitExpiry ctx) := fun h => nomatch h

theorem containment (core : Nat) (unreadable : List Nat) : Statement (.containment core unreadable) := fun h => nomatch h

theorem linePoisoning (line : Nat) : Statement (.linePoisoning line) := fun h => nomatch h

theorem softErrorCorrection (pkg : Nat) (hbm : Bool) (count : Nat) : Statement (.softErrorCorrection pkg hbm count) := fun h => nomatch h

theorem linkFailure (pkg : Nat) (link : Nat) : Statement (.linkFailure pkg link) := fun h => nomatch h

theorem linkTraining (pkg : Nat) (link : Nat) (peer : Option Nat) : Statement (.linkTraining pkg link peer) := fun h => nomatch h

theorem eventEntryWrite (pkg : Nat) : Statement (.eventEntryWrite pkg) := fun h => nomatch h

theorem powerControlPeriod (pkg : Nat) (watts : Nat) : Statement (.powerControlPeriod pkg watts) := fun h => nomatch h

theorem thermalThrottle (pkg : Nat) (tj : BitVec 12) : Statement (.thermalThrottle pkg tj) := fun h => nomatch h

theorem thermalShutdown (pkg : Nat) (tj : BitVec 12) : Statement (.thermalShutdown pkg tj) := fun h => nomatch h

theorem firmwareVerification (pkg : Nat) : Statement (.firmwareVerification pkg) := fun h => nomatch h

theorem firmwareLoad (pkg : Nat) (image : Firmware) : Statement (.firmwareLoad pkg image) := fun h => nomatch h

theorem spdmRequest (pkg : Nat) (request : SpdmRequest) : Statement (.spdmRequest pkg request) := fun h => nomatch h

theorem ideKm (pkg : Nat) (key : BitVec 256) : Statement (.ideKm pkg key) := fun h => nomatch h

theorem lockInterface (pkg : Nat) : Statement (.lockInterface pkg) := fun h => nomatch h

theorem startInterface (pkg : Nat) : Statement (.startInterface pkg) := fun h => nomatch h

theorem stopInterface (pkg : Nat) : Statement (.stopInterface pkg) := fun h => nomatch h

theorem ideIntegrityFailure (pkg : Nat) : Statement (.ideIntegrityFailure pkg) := fun h => nomatch h

theorem hostMemoryAccess (pkg : Nat) (access : HostAccess) : Statement (.hostMemoryAccess pkg access) := fun h => nomatch h

theorem hostRegisterWrite (pkg : Nat) (offset : Nat) (value : Word) : Statement (.hostRegisterWrite pkg offset value) := fun h => nomatch h

theorem hostResume (pkg : Nat) (value : Word) : Statement (.hostResume pkg value) := fun h => nomatch h

theorem hostAbandon (pkg : Nat) (value : Word) : Statement (.hostAbandon pkg value) := fun h => nomatch h

theorem hspawn (pkg : Nat) (value : Word) : Statement (.hspawn pkg value) := fun h => nomatch h

theorem pkgcfg (pkg : Nat) (value : Word) : Statement (.pkgcfg pkg value) := fun h => nomatch h

theorem evbase (pkg : Nat) (value : Word) : Statement (.evbase pkg value) := fun h => nomatch h

theorem evsize (pkg : Nat) (value : Word) : Statement (.evsize pkg value) := fun h => nomatch h

theorem evhead (pkg : Nat) (value : Word) : Statement (.evhead pkg value) := fun h => nomatch h

theorem dieReset (die : Nat) : Statement (.dieReset die) := fun h => nomatch h

theorem commandCompletion (ctx : Nat) (slot : BitVec 3) : Statement (.commandCompletion ctx slot) := fun h => nomatch h

theorem pciExpressPortTraining (pkg : Nat) (width : Nat) (rate : Nat) : Statement (.pciExpressPortTraining pkg width rate) := fun h => nomatch h

theorem linkRekeying (pkg : Nat) (link : Nat) : Statement (.linkRekeying pkg link) := fun h => nomatch h

end Sys2Proof.Laws.Selects
end

