-- ==== Sys2Proof/Tests/Slice0.lean ====
section
/-! SUPPORT. The author's tests: ill-formed terms, words written out from the encoding tables, one witness for the hypotheses
of each statement, and single instructions whose results the spec works out. -/

set_option Elab.async false

namespace Sys2Proof.Tests

open Sys2Proof.Machine Sys2Proof.Claims

/-! ## Well-formedness -/

/-- None of the terms is well-formed. -/
def noneFormed (l : List Instr) : Bool := l.all fun i => !i.wellFormed

/-- FCMP conditions 100 to 111 and FCVT codes from 0x0E are unassigned (R79). -/
theorem test_ill_formed_fp : noneFormed
    [.fcmp 1 2 3 4 0, .fcvt 1 2 14] = true := by decide +kernel

/-- LD accepts WID 000 to 110 (R80). -/
theorem test_ill_formed_mem : noneFormed
    [.ld 1 2 0 7] = true := by decide +kernel

/-- Empty path and tier sets, unassigned scopes (R82, R83, R85). -/
theorem test_ill_formed_system : noneFormed
    [.fence 0 1, .fence 1 5, .svfence 0, .tlbinv 1 2 0, .tlbinv 1 5 0, .hbar 1 0, .hbar 1 5] = true := by decide +kernel

/-- Pairs are named by 1 to 30 and share no register (R72, R87). -/
theorem test_ill_formed_stream : noneFormed
    [.sisect 1 0 3, .sisect 1 2 31, .sisect 1 4 5, .sisect 1 5 4, .sisect 3 2 5, .sisect 6 2 5, .smerge 0 3 5, .smerge 1 31 5, .smerge 1 3 0, .smerge 1 3 4, .smerge 4 3 7, .smerge 8 3 7] = true := by decide +kernel

/-- Unassigned codes, vector pairs and groups past register 31 (R72, R89, R95 to R100). -/
theorem test_ill_formed_vector : noneFormed
    [.vsetl 1 2 0 3 0, .vcvt 1 2 0 0 0, .vcvt 1 2 9 0 0, .vmvRaw 1 2 11, .vsortKv 31 1 2 0 0, .vldseg 1 2 0 0 0, .vldseg 30 2 0 0 2, .vstseg 1 2 0 0 0, .vstseg 25 2 0 0 7, .vamoAddb 31 1 2 0 0 0 0 0, .vwait 1 2 3 0 0 6] = true := by decide +kernel

/-- A compare names a mask register, 0 to 7 (R72). -/
theorem test_ill_formed_compare : noneFormed
    [.vcmpEq 8 1 2 0 0, .vcmpNe 8 1 2 0 0, .vcmpLt 8 1 2 0 0, .vcmpLtu 8 1 2 0 0, .vcmpLe 8 1 2 0 0, .vcmpLeu 8 1 2 0 0, .vcmpEqVs 8 1 2 0 0, .vcmpNeVs 8 1 2 0 0, .vcmpLtVs 8 1 2 0 0, .vcmpLtuVs 8 1 2 0 0, .vcmpLeVs 8 1 2 0 0, .vcmpLeuVs 8 1 2 0 0, .vfcmpEq 8 1 2 0 0, .vfcmpLt 8 1 2 0 0, .vfcmpLe 8 1 2 0 0, .vfcmpUn 8 1 2 0 0, .vfcmpEqVs 8 1 2 0 0, .vfcmpLtVs 8 1 2 0 0, .vfcmpLeVs 8 1 2 0 0, .vfcmpUnVs 8 1 2 0 0] = true := by decide +kernel

/-- Mask operations name mask registers (R72, R94). -/
theorem test_ill_formed_mask : noneFormed
    [.mand 8 0 0, .mand 0 8 0, .mand 0 0 8, .mor 8 0 0, .mor 0 9 0, .mor 0 0 31, .mxor 8 0 0, .mxor 0 8 0, .mxor 0 0 8, .mnot 8 0, .mnot 0 8, .mpop 1 8, .mfirst 1 8, .mbreak 8 0, .mbreak 0 8] = true := by decide +kernel

/-- FMT above 100 is unassigned (R101). -/
theorem test_ill_formed_matrix : noneFormed
    [.mshape 1 2 5, .mldb 1 2 0 0 5, .mma 1 2 0 0 0 5] = true := by decide +kernel

/-- The address register under ALL and the side array of a format without one are reserved (R83, R101). -/
theorem test_ill_formed_spare : noneFormed
    [.tlbinv 1 3 1, .stflush 1 1, .stinv 1 1, .mldb 1 2 3 0 0, .mldb 1 2 3 0 2, .mma 1 2 3 0 0 1] = true := by decide +kernel

/-- Under MSK = 0, MREG is reserved (R72). -/
theorem test_ill_formed_masked : noneFormed
    [.vadd 1 1 1 0 1, .vsub 1 1 1 0 1, .vmul 1 1 1 0 1, .vmulh 1 1 1 0 1, .vmulhU 1 1 1 0 1, .vmin 1 1 1 0 1, .vminU 1 1 1 0 1, .vmax 1 1 1 0 1, .vmaxU 1 1 1 0 1, .vand 1 1 1 0 1, .vor 1 1 1 0 1, .vxor 1 1 1 0 1, .vsll 1 1 1 0 1, .vsrl 1 1 1 0 1, .vsra 1 1 1 0 1, .vcmpEq 1 1 1 0 1, .vcmpNe 1 1 1 0 1, .vcmpLt 1 1 1 0 1, .vcmpLtu 1 1 1 0 1, .vcmpLe 1 1 1 0 1, .vcmpLeu 1 1 1 0 1, .vaddVs 1 1 1 0 1, .vsubVs 1 1 1 0 1, .vmulVs 1 1 1 0 1, .vmulhVs 1 1 1 0 1, .vmulhUVs 1 1 1 0 1, .vminVs 1 1 1 0 1, .vminUVs 1 1 1 0 1, .vmaxVs 1 1 1 0 1, .vmaxUVs 1 1 1 0 1, .vandVs 1 1 1 0 1, .vorVs 1 1 1 0 1, .vxorVs 1 1 1 0 1, .vsllVs 1 1 1 0 1, .vsrlVs 1 1 1 0 1, .vsraVs 1 1 1 0 1, .vcmpEqVs 1 1 1 0 1, .vcmpNeVs 1 1 1 0 1, .vcmpLtVs 1 1 1 0 1, .vcmpLtuVs 1 1 1 0 1, .vcmpLeVs 1 1 1 0 1, .vcmpLeuVs 1 1 1 0 1, .vfadd 1 1 1 0 1, .vfsub 1 1 1 0 1, .vfmul 1 1 1 0 1, .vfma 1 1 1 0 1, .vfdiv 1 1 1 0 1, .vfsqrt 1 1 0 1, .vfmin 1 1 1 0 1, .vfmax 1 1 1 0 1, .vfexp2 1 1 0 1, .vfrsqrt 1 1 0 1, .vfcmpEq 1 1 1 0 1, .vfcmpLt 1 1 1 0 1, .vfcmpLe 1 1 1 0 1] = true := by decide +kernel

/-- Under MSK = 0, MREG is reserved (R72). -/
theorem test_ill_formed_masked_2 : noneFormed
    [.vfcmpUn 1 1 1 0 1, .vfaddVs 1 1 1 0 1, .vfsubVs 1 1 1 0 1, .vfmulVs 1 1 1 0 1, .vfmaVs 1 1 1 0 1, .vfdivVs 1 1 1 0 1, .vfminVs 1 1 1 0 1, .vfmaxVs 1 1 1 0 1, .vfcmpEqVs 1 1 1 0 1, .vfcmpLtVs 1 1 1 0 1, .vfcmpLeVs 1 1 1 0 1, .vfcmpUnVs 1 1 1 0 1, .vredAdd 1 1 0 1, .vredAnd 1 1 0 1, .vredOr 1 1 0 1, .vredXor 1 1 0 1, .vredMin 1 1 0 1, .vredMax 1 1 0 1, .vredMinu 1 1 0 1, .vredMaxu 1 1 0 1, .vfredAdd 1 1 0 1, .vfredMin 1 1 0 1, .vfredMax 1 1 0 1, .vslideUp 1 1 1 0 1, .vslideDown 1 1 1 0 1, .vperm 1 1 1 0 1, .vcvt 1 1 1 0 1, .vmvV 1 1 0 1, .vmvS 1 1 0 1, .vidx 1 0 1, .vsort 1 1 0 1, .vsortKv 1 1 1 0 1, .vld 1 1 1 0 1, .vlds 1 1 1 0 1, .vldseg 1 1 0 1 1, .vldff 1 1 1 0 1, .vst 1 1 1 0 1, .vsts 1 1 1 0 1, .vstseg 1 1 0 1 1, .vstq 1 1 1 0 1, .vldx 1 1 1 0 1 1, .vstx 1 1 1 0 1 1, .vstxOrd 1 1 1 0 1 1, .vamoAdd 1 1 1 0 1 1 1 1, .vamoAnd 1 1 1 0 1 1 1 1, .vamoOr 1 1 1 0 1 1 1 1, .vamoXor 1 1 1 0 1 1 1 1, .vamoSmin 1 1 1 0 1 1 1 1, .vamoSmax 1 1 1 0 1 1 1 1, .vamoUmin 1 1 1 0 1 1 1 1, .vamoUmax 1 1 1 0 1 1 1 1, .vamoSwap 1 1 1 0 1 1 1 1, .vamoFmax 1 1 1 0 1 1 1 1, .vamoAddb 1 1 1 0 1 1 1 1, .vwait 1 1 1 0 1 1] = true := by decide +kernel

/-- An event of the machine has no word. -/
theorem test_ill_formed_event : noneFormed
    [.entrySelection 0, .lookAhead 0, .preemption 0 0, .fullSwitch 0, .reclaimFallback 0, .taskBudgetExceeded 0, .trapEntry 0, .pageTableWalk 0 .core 0, .walkStalled 0, .sptEntryBusyTimeout 0, .stashFill 0 0, .stashLineFill 0 0 0, .pull 0 0, .copyCountStep 0 0, .commandCompletionArrival 0 0, .engineFault 0 0, .postedStorePerform 0, .postedStoreAcknowledgement 0, .sendPortHandover 0 0, .mergePointForward 0 0, .recordDelivery 0 0, .consumedPoll 0 0, .roundCompletion 0 0, .deliveryRetry 0 0, .sieveClose 0, .channelWatchdog 0, .barwaitLimitExpiry 0, .vwaitLimitExpiry 0, .containment 0 [], .linePoisoning 0, .softErrorCorrection 0 false 0, .linkFailure 0 0, .linkTraining 0 0 none, .eventEntryWrite 0, .powerControlPeriod 0 0, .thermalThrottle 0 0, .thermalShutdown 0 0, .firmwareVerification 0, .firmwareLoad 0 ⟨true, true, 0⟩, .spdmRequest 0 .getVersion, .ideKm 0 0, .lockInterface 0, .startInterface 0, .stopInterface 0, .ideIntegrityFailure 0, .hostMemoryAccess 0 (.read 0 1), .hostRegisterWrite 0 0 0, .hostResume 0 0, .hostAbandon 0 0, .hspawn 0 0, .pkgcfg 0 0, .evbase 0 0, .evsize 0 0, .evhead 0 0, .dieReset 0, .commandCompletion 0 0, .pciExpressPortTraining 0 0 0, .linkRekeying 0 0] = true := by decide +kernel

/-- The last value each of these checks lets through. -/
theorem test_well_formed_limits :
    ([.fcmp 1 2 3 3 0, .fcvt 1 2 13, .ld 1 2 0 6, .fence 1 4, .svfence 1, .tlbinv 0 4 1, .hbar 1 4, .sisect 31 1 29, .smerge 1 3 30, .vsetl 1 2 0 2 0, .vcmpEq 7 1 2 0 0, .mand 7 7 7, .vcvt 1 2 8 1 7, .vmvRaw 1 2 10, .vsortKv 30 1 2 0 0, .vldseg 24 2 0 0 7, .vstseg 30 2 1 7 1, .vamoAddb 30 1 2 0 0 0 0 0, .vwait 1 2 3 0 0 5, .mshape 1 2 4, .mldb 1 2 3 0 3, .mma 1 2 3 0 0 4, .stflush 1 0] : List Instr).all Instr.wellFormed = true := by decide +kernel

/-! ## Words, packed by hand from the tables of R71 and R76 to R101 or printed in the spec's examples -/

/-- Each word decodes to the instruction beside it. -/
def agree (l : List (BitVec 32 × Instr)) : Bool :=
  l.all fun p => match decode p.1 with
    | .ok i => i == p.2
    | .error _ => false

theorem test_decode_scalar_integer : agree
    [(0x0478F800, .add 3 24 31),
      (0x0497F801, .sub 4 23 31),
      (0x04B6F802, .mul 5 22 31),
      (0x04D5F803, .mulh 6 21 31),
      (0x04F4F804, .mulhu 7 20 31),
      (0x0513F805, .div 8 19 31),
      (0x0532F806, .divu 9 18 31),
      (0x0551F807, .rem 10 17 31),
      (0x0570F808, .remu 11 16 31),
      (0x058FF809, .and 12 15 31),
      (0x05AEF80A, .andn 13 14 31),
      (0x05CDF80B, .or 14 13 31),
      (0x05ECF80C, .xor 15 12 31),
      (0x060BF80D, .sll 16 11 31),
      (0x062AF80E, .srl 17 10 31),
      (0x0649F80F, .sra 18 9 31),
      (0x0668F810, .slt 19 8 31),
      (0x0687F811, .sltu 20 7 31),
      (0x06A6F812, .min 21 6 31),
      (0x06C5F813, .max 22 5 31),
      (0x0478F814, .minu 3 24 31),
      (0x0497F815, .maxu 4 23 31)] = true := by decide +kernel

theorem test_decode_scalar_unary : agree
    [(0x07C10016, .clz 30 1),
      (0x07A20017, .ctz 29 2),
      (0x07830018, .popc 28 3),
      (0x07640019, .sextB 27 4),
      (0x0745001A, .sextH 26 5),
      (0x0726001B, .sextW 25 6),
      (0x0707001C, .zextB 24 7),
      (0x06E8001D, .zextH 23 8),
      (0x06C9001E, .zextW 22 9),
      (0x0422191F, .csel 1 2 3 4)] = true := by decide +kernel

theorem test_decode_scalar_immediate : agree
    [(0x09318001, .addImm 9 17 32769),
      (0x0D318002, .andImm 9 17 32770),
      (0x11318003, .orImm 9 17 32771),
      (0x15318004, .xorImm 9 17 32772),
      (0x19318005, .sltImm 9 17 32773),
      (0x1D318006, .sltuImm 9 17 32774),
      (0x21318007, .lih 9 17 32775),
      (0x27E0FFFE, .addpc 31 65534)] = true := by decide +kernel

theorem test_decode_scalar_float : agree
    [(0x28A63800, .fadd 5 6 7 0),
      (0x29095010, .fadd 8 9 10 1),
      (0x28A63801, .fsub 5 6 7 0),
      (0x29095011, .fsub 8 9 10 1),
      (0x28A63802, .fmul 5 6 7 0),
      (0x29095012, .fmul 8 9 10 1),
      (0x28A63803, .fdiv 5 6 7 0),
      (0x29095013, .fdiv 8 9 10 1),
      (0x28A60014, .fsqrt 5 6 1),
      (0x28A63A05, .fma 5 6 7 8 0),
      (0x28A63806, .fmin 5 6 7 0),
      (0x28A63817, .fmax 5 6 7 1),
      (0x28A63808, .fcmp 5 6 7 0 0),
      (0x28A63858, .fcmp 5 6 7 1 1),
      (0x28A63888, .fcmp 5 6 7 2 0),
      (0x28A638D8, .fcmp 5 6 7 3 1),
      (0x28A60009, .fcvt 5 6 0),
      (0x28A60049, .fcvt 5 6 1),
      (0x28A60349, .fcvt 5 6 13),
      (0x28A6001A, .fmvx 5 6 1)] = true := by decide +kernel

theorem test_decode_load_store : agree
    [(0x2C94FFC0, .ld 4 20 8184 0),
      (0x2CB4FFC9, .ld 5 20 8185 1),
      (0x2CD4FFD2, .ld 6 20 8186 2),
      (0x2CF4FFDB, .ld 7 20 8187 3),
      (0x2D14FFE4, .ld 8 20 8188 4),
      (0x2D34FFED, .ld 9 20 8189 5),
      (0x2D54FFF6, .ld 10 20 8190 6),
      (0x30940040, .st 4 20 8 0),
      (0x30B40039, .st 5 20 7 1),
      (0x30D40032, .st 6 20 6 2),
      (0x30F4002B, .st 7 20 5 3)] = true := by decide +kernel

theorem test_decode_scalar_atomic : agree
    [(0x34556020, .amoAdd 2 21 12 0),
      (0x34756031, .amoAnd 3 21 12 1),
      (0x34956022, .amoOr 4 21 12 0),
      (0x34B56033, .amoXor 5 21 12 1),
      (0x34D56024, .amoSmin 6 21 12 0),
      (0x34F56035, .amoSmax 7 21 12 1),
      (0x35156026, .amoUmin 8 21 12 0),
      (0x35356037, .amoUmax 9 21 12 1),
      (0x35556028, .amoSwap 10 21 12 0),
      (0x35756039, .amoFmax 11 21 12 1),
      (0x3422193A, .amoAddb 1 2 3 4 1),
      (0x3422192B, .cas 1 2 3 4 0),
      (0x3402183C, .pst 2 3 1),
      (0x3402182D, .pstOrd 2 3 0)] = true := by decide +kernel

theorem test_decode_branch : agree
    [(0x38FEFFFF, .beq 7 30 65535),
      (0x3D1DFFFE, .bne 8 29 65534),
      (0x413CFFFD, .blt 9 28 65533),
      (0x455BFFFC, .bge 10 27 65532),
      (0x497AFFFB, .bltu 11 26 65531),
      (0x4D99FFFA, .bgeu 12 25 65530),
      (0x53F00001, .jal 31 0x100001),
      (0x541F0004, .jalr 0 31 4)] = true := by decide +kernel

theorem test_decode_system : agree
    [(0x58A61142, .csrset 5 6 0x045),
      (0x58002B10, .fence 0x05 0x3),
      (0x58001410, .fence 0x02 0x4),
      (0x58050014, .stflush 0x05 0x0),
      (0x58000094, .stflush 0x00 0x1),
      (0x58050015, .stinv 0x05 0x0),
      (0x58000095, .stinv 0x00 0x1),
      (0x58000051, .svfence 0x1),
      (0x58000091, .svfence 0x2),
      (0x5800014A, .brk 0x005),
      (0x58A00040, .csrr 0x05 0x001),
      (0x59000800, .csrr 0x08 0x020),
      (0x58060101, .csrw 0x00 0x06 0x004),
      (0x58161081, .csrw 0x00 0x16 0x042),
      (0x58070143, .csrclr 0x00 0x07 0x005),
      (0x58000009, .eret ),
      (0x58000012, .ifence ),
      (0x58050313, .tlbinv 0x05 0x3 0x0),
      (0x58050413, .tlbinv 0x05 0x4 0x0),
      (0x580500C8, .trap 0x05 0x03)] = true := by decide +kernel

theorem test_decode_copy_engine : agree
    [(0x64221901, .cpy2 1 2 3 4),
      (0x64A63A02, .cpyxG 5 6 7 8),
      (0x652A5B03, .cpyxS 9 10 11 12),
      (0x64432240, .cpy 0x02 0x03 0x04 0x09),
      (0x64A47080, .cpy 0x05 0x04 0x0e 0x02),
      (0x64432244, .rsort 0x02 0x03 0x04 0x09)] = true := by decide +kernel

theorem test_decode_vector_integer : agree
    [(0x80221C00, .vadd 1 2 3 1 0),
      (0x80432481, .vsub 2 3 4 1 1),
      (0x80642D02, .vmul 3 4 5 1 2),
      (0x80853583, .vmulh 4 5 6 1 3),
      (0x80A63E04, .vmulhU 5 6 7 1 4),
      (0x80C74685, .vmin 6 7 8 1 5),
      (0x80E84F06, .vminU 7 8 9 1 6),
      (0x81095787, .vmax 8 9 10 1 7),
      (0x812A5C08, .vmaxU 9 10 11 1 0),
      (0x814B6489, .vand 10 11 12 1 1),
      (0x816C6D0A, .vor 11 12 13 1 2),
      (0x818D758B, .vxor 12 13 14 1 3),
      (0x81AE7E0C, .vsll 13 14 15 1 4),
      (0x81CF868D, .vsrl 14 15 16 1 5),
      (0x81F08F0E, .vsra 15 16 17 1 6),
      (0x80F41810, .vcmpEq 7 20 3 0 0),
      (0x80D52011, .vcmpNe 6 21 4 0 0),
      (0x80B62812, .vcmpLt 5 22 5 0 0),
      (0x80973013, .vcmpLtu 4 23 6 0 0),
      (0x80783814, .vcmpLe 3 24 7 0 0),
      (0x80594015, .vcmpLeu 2 25 8 0 0),
      (0x812A5E98, .vsel 9 10 11 5)] = true := by decide +kernel

theorem test_decode_vector_scalar_integer : agree
    [(0x84221800, .vaddVs 1 2 3 0 0),
      (0x84432001, .vsubVs 2 3 4 0 0),
      (0x84642802, .vmulVs 3 4 5 0 0),
      (0x84853003, .vmulhVs 4 5 6 0 0),
      (0x84A63804, .vmulhUVs 5 6 7 0 0),
      (0x84C74005, .vminVs 6 7 8 0 0),
      (0x84E84806, .vminUVs 7 8 9 0 0),
      (0x85095007, .vmaxVs 8 9 10 0 0),
      (0x852A5808, .vmaxUVs 9 10 11 0 0),
      (0x854B6009, .vandVs 10 11 12 0 0),
      (0x856C680A, .vorVs 11 12 13 0 0),
      (0x858D700B, .vxorVs 12 13 14 0 0),
      (0x85AE780C, .vsllVs 13 14 15 0 0),
      (0x85CF800D, .vsrlVs 14 15 16 0 0),
      (0x85F0880E, .vsraVs 15 16 17 0 0),
      (0x84F41F90, .vcmpEqVs 7 20 3 1 7),
      (0x84D52711, .vcmpNeVs 6 21 4 1 6),
      (0x84B62E92, .vcmpLtVs 5 22 5 1 5),
      (0x84973613, .vcmpLtuVs 4 23 6 1 4),
      (0x84783D94, .vcmpLeVs 3 24 7 1 3),
      (0x84594515, .vcmpLeuVs 2 25 8 1 2),
      (0x852A5F18, .vselVs 9 10 11 6)] = true := by decide +kernel

theorem test_decode_vector_float : agree
    [(0x896C6C00, .vfadd 11 12 13 1 0),
      (0x8D6C6800, .vfaddVs 11 12 13 0 0),
      (0x898D7481, .vfsub 12 13 14 1 1),
      (0x8D8D7001, .vfsubVs 12 13 14 0 0),
      (0x89AE7D02, .vfmul 13 14 15 1 2),
      (0x8DAE7802, .vfmulVs 13 14 15 0 0),
      (0x89CF8583, .vfma 14 15 16 1 3),
      (0x8DCF8003, .vfmaVs 14 15 16 0 0),
      (0x89F08E04, .vfdiv 15 16 17 1 4),
      (0x8DF08804, .vfdivVs 15 16 17 0 0),
      (0x8A329F06, .vfmin 17 18 19 1 6),
      (0x8E329806, .vfminVs 17 18 19 0 0),
      (0x8A53A787, .vfmax 18 19 20 1 7),
      (0x8E53A007, .vfmaxVs 18 19 20 0 0),
      (0x896C0585, .vfsqrt 11 12 1 3),
      (0x896C0588, .vfexp2 11 12 1 3),
      (0x896C0589, .vfrsqrt 11 12 1 3),
      (0x88094010, .vfcmpEq 0 9 8 0 0),
      (0x8C894510, .vfcmpEqVs 4 9 8 1 2),
      (0x88294011, .vfcmpLt 1 9 8 0 0),
      (0x8CA94511, .vfcmpLtVs 5 9 8 1 2),
      (0x88494012, .vfcmpLe 2 9 8 0 0),
      (0x8CC94512, .vfcmpLeVs 6 9 8 1 2),
      (0x88694013, .vfcmpUn 3 9 8 0 0)] = true := by decide +kernel

theorem test_decode_vector_float_2 : agree
    [(0x8CE94513, .vfcmpUnVs 7 9 8 1 2)] = true := by decide +kernel

theorem test_decode_reduction : agree
    [(0x92890000, .vredAdd 20 9 0 0),
      (0x92A90601, .vredAnd 21 9 1 4),
      (0x92C90002, .vredOr 22 9 0 0),
      (0x92E90603, .vredXor 23 9 1 4),
      (0x93090004, .vredMin 24 9 0 0),
      (0x93290605, .vredMax 25 9 1 4),
      (0x93490006, .vredMinu 26 9 0 0),
      (0x93690607, .vredMaxu 27 9 1 4),
      (0x93890008, .vfredAdd 28 9 0 0),
      (0x93A90609, .vfredMin 29 9 1 4),
      (0x93C9000A, .vfredMax 30 9 0 0)] = true := by decide +kernel

theorem test_decode_vector_atomic : agree
    [(0xAC823580, .vamoAdd 4 2 6 1 3 0 0 0),
      (0xACA23591, .vamoAnd 5 2 6 1 3 0 0 1),
      (0xACC235A2, .vamoOr 6 2 6 1 3 0 1 0),
      (0xACE235B3, .vamoXor 7 2 6 1 3 0 1 1),
      (0xAD0235C4, .vamoSmin 8 2 6 1 3 1 0 0),
      (0xAD2235D5, .vamoSmax 9 2 6 1 3 1 0 1),
      (0xAD4235E6, .vamoUmin 10 2 6 1 3 1 1 0),
      (0xAD6235F7, .vamoUmax 11 2 6 1 3 1 1 1),
      (0xAD823588, .vamoSwap 12 2 6 1 3 0 0 0),
      (0xADA23599, .vamoFmax 13 2 6 1 3 0 0 1),
      (0xADC235AA, .vamoAddb 14 2 6 1 3 0 1 0)] = true := by decide +kernel

theorem test_decode_vsetl_rpt : agree
    [(0x70A40012, .vsetl 0x05 0x04 0x1 0x0 0x2),
      (0x70A40002, .vsetl 0x05 0x04 0x0 0x0 0x2),
      (0x74021380, .rpt 0x002 0x1 0x1 0x1 0x1 0x0)] = true := by decide +kernel

theorem test_decode_vector_load : agree
    [(0xA0890522, .vldseg 0x04 0x09 0x1 0x2 0x2),
      (0xA0821800, .vld 0x04 0x02 0x03 0x0 0x0),
      (0xA0220000, .vld 0x01 0x02 0x00 0x0 0x0),
      (0xA0822C81, .vlds 0x04 0x02 0x05 0x1 0x1),
      (0xA0820003, .vldff 0x04 0x02 0x00 0x0 0x0)] = true := by decide +kernel

theorem test_decode_matrix : agree
    [(0xC0C53AB3, .mma 0x06 0x05 0x07 0x2 0x1 0x3),
      (0xC1D3A033, .mma 0x0e 0x13 0x14 0x0 0x0 0x3),
      (0xC0A40030, .mshape 0x05 0x04 0x3),
      (0xC3DE0030, .mshape 0x1e 0x1e 0x3),
      (0xC0000201, .mzero 0x2),
      (0xC0C538B2, .mldb 0x06 0x05 0x07 0x1 0x3),
      (0xC1CC6832, .mldb 0x0e 0x0c 0x0d 0x0 0x3),
      (0xC0C50204, .mst 0x06 0x05 0x2),
      (0xC0640205, .mmovTo 0x03 0x04 0x2),
      (0xC0640206, .mmovFrom 0x03 0x04 0x2)] = true := by decide +kernel

theorem test_decode_synchronisation : agree
    [(0x60861800, .barrive 0x04 0x06 0x03),
      (0x61EB7000, .barrive 0x0f 0x0b 0x0e),
      (0x60C901C1, .barwait 0x06 0x09 0x00 0x07),
      (0x61EB0401, .barwait 0x0f 0x0b 0x00 0x10),
      (0x60050082, .hbar 0x05 0x2),
      (0x60050102, .hbar 0x05 0x4)] = true := by decide +kernel

theorem test_decode_exchange : agree
    [(0x6C0200C0, .xbind 0x02 0x3),
      (0x6C0600C0, .xbind 0x06 0x3),
      (0x6C0220C1, .xsend 0x02 0x04 0x3),
      (0x6C0740C1, .xsend 0x07 0x08 0x3),
      (0x6C0220C2, .xsendM 0x02 0x04 0x3),
      (0x6C0440C3, .xsendv 0x04 0x08 0x3),
      (0x6C0000C4, .xend 0x3),
      (0x6CC200C5, .xsplitRd 0x06 0x02 0x3),
      (0x6CC200C6, .xsplitIn 0x06 0x02 0x3)] = true := by decide +kernel

theorem test_decode_mask : agree
    [(0x94221800, .mand 0x01 0x02 0x03),
      (0x94221801, .mor 0x01 0x02 0x03),
      (0x94221802, .mxor 0x01 0x02 0x03),
      (0x94840003, .mnot 0x04 0x04),
      (0x94A20004, .mpop 0x05 0x02),
      (0x94C10005, .mfirst 0x06 0x01),
      (0x94220006, .mbreak 0x01 0x02)] = true := by decide +kernel

theorem test_decode_stream : agree
    [(0x68864000, .sisect 0x04 0x06 0x08),
      (0x688C7000, .sisect 0x04 0x0c 0x0e),
      (0x69464001, .smerge 0x0a 0x06 0x08)] = true := by decide +kernel

theorem test_decode_task : agree
    [(0x5C000001, .tend ),
      (0x5CA00002, .tself 0x05),
      (0x5C050000, .tspawn 0x05)] = true := by decide +kernel

theorem test_decode_permute : agree
    [(0x90A60513, .vcompress 0x05 0x06 0x2),
      (0x90A60514, .vexpand 0x05 0x06 0x2),
      (0x90A63812, .vperm 0x05 0x06 0x07 0x0 0x0),
      (0x90A63810, .vslideUp 0x05 0x06 0x07 0x0 0x0),
      (0x90A63811, .vslideDown 0x05 0x06 0x07 0x0 0x0)] = true := by decide +kernel

theorem test_decode_move : agree
    [(0x98A63C80, .vcvt 0x05 0x06 0x07 0x1 0x1),
      (0x98A63805, .vextr 0x05 0x06 0x07),
      (0x99220005, .vextr 0x09 0x02 0x00),
      (0x98600004, .vidx 0x03 0x0 0x0),
      (0x98600484, .vidx 0x03 0x1 0x1),
      (0x98A63806, .vins 0x05 0x06 0x07),
      (0x98A60001, .vmvV 0x05 0x06 0x0 0x0),
      (0x98A60002, .vmvS 0x05 0x06 0x0 0x0),
      (0x98400002, .vmvS 0x02 0x00 0x0 0x0),
      (0x98A63803, .vmvRaw 0x05 0x06 0x07)] = true := by decide +kernel

theorem test_decode_indexed : agree
    [(0xA8823020, .vldx 0x04 0x02 0x06 0x0 0x0 0x2),
      (0xA8A33831, .vstx 0x05 0x03 0x07 0x0 0x0 0x3),
      (0xA8A33832, .vstxOrd 0x05 0x03 0x07 0x0 0x0 0x3)] = true := by decide +kernel

theorem test_decode_sort : agree
    [(0x9C860000, .vsort 0x04 0x06 0x0 0x0),
      (0x9C864001, .vsortKv 0x04 0x06 0x08 0x0 0x0)] = true := by decide +kernel

theorem test_decode_vector_store : agree
    [(0xA4220000, .vst 0x01 0x02 0x00 0x0 0x0),
      (0xA4222801, .vsts 0x01 0x02 0x05 0x0 0x0),
      (0xA4890012, .vstseg 0x04 0x09 0x0 0x0 0x1),
      (0xA4421804, .vstq 0x02 0x02 0x03 0x0 0x0),
      (0xA46C6804, .vstq 0x03 0x0c 0x0d 0x0 0x0)] = true := by decide +kernel

theorem test_decode_vwait : agree
    [(0xB0873020, .vwait 0x04 0x07 0x06 0x0 0x0 0x2)] = true := by decide +kernel

/-! ## Witnesses: the hypotheses of the statements can be met -/

/-- A task runs in context 0 with everything enabled and the lowest 512 MiB mapped for the three units of its core. -/
def mapOf (u : UnitKind) (k : Nat) : TlbEntry := { core := k, kind := u, granule := 0, level := 29, leaf := 15 }

/-- The context of `machine`. -/
def task : Ctx := { Ctx.reset with
  life := .running, held := 8, ceil := 8, vl := 2, vcfg := 2, area := some ⟨0, 0⟩, tvec := 0x8000, pc := 0x1000 }

/-- The domain of the witnesses. -/
def machine : State := { State.reset with
  ctxs := [(0, task)]
  dies := [(0, { Die.reset with savebase := 0x100000, savecount := 4, areas := [0], qbase := 0x200000 })]
  pkgs := [(0, { Pkg.reset with enable := 0xFFF, trust := ⟨0, none, false, true⟩ })]
  tlb := [mapOf .core 0, mapOf .engine 0, mapOf .port 0] }

/-- The machine with scalar registers set. -/
def withRegs (l : List (BitVec 5 × Word)) : State := machine.setMe (l.foldl (fun x p => x.setReg p.1 p.2) task)

/-- The machine with bytes at a physical address. -/
def holding (s : State) (pa n v : Nat) : State := { s with mem := memPut s.mem pa (bytesOf n v) }

/-- The machine in supervisor mode. -/
def inHandler : State := machine.setMe { task with mode := .supervisor, tepc := 0x1008, svcfg := 2, svl := 2 }

/-- `n` places from a physical address. -/
def places (pa n : Nat) : List Loc := (List.range n).map fun k => .phys (pa + k)

/-- A meaning that can be evaluated ends as stated. -/
theorem ran {α : Type} {m : M α} {s : State} {r : Except Stop α × State}
    (h : (m.run s).1 = r.1) (k : (m.run s).2 = r.2) : m.run s = r := Prod.ext h k

/-- A meaning ends somewhere. -/
theorem ranTo {α : Type} {m : M α} {s : State} {r : Except Stop α} (h : (m.run s).1 = r) : ∃ t, m.run s = (r, t) :=
  ⟨(m.run s).2, Prod.ext h rfl⟩

/-- `Leads` as a test. -/
def reaches (s : State) (who : Who) (kind : Access) (va pa : Nat) : Bool :=
  !cacheFails s who kind va && match translate s who kind va with
    | .ok a => physical s (pkgOfCore who.core) a == some pa
    | .error _ => false

theorem leads_iff {s : State} {who : Who} {kind : Access} {va pa : Nat} : Leads s who kind va pa ↔ reaches s who kind va pa = true := by
  unfold Leads reaches
  cases h : translate s who kind va <;> simp

/-- `Mapped` as a test. -/
def maps (s : State) (who : Who) (kind : Access) (va n pa : Nat) : Bool :=
  decide (va < 2 ^ 55 ∧ 0 < n ∧ va % 64 + n ≤ 64) && reaches s who kind va pa && (kind == .write || !poisoned s pa)

theorem mapped_iff {s : State} {who : Who} {kind : Access} {va n pa : Nat} : Mapped s who kind va n pa ↔ maps s who kind va n pa = true := by
  unfold Mapped maps
  rw [leads_iff]
  simp [and_assoc]

/-- A meaning ends as it does. -/
theorem ranState {α : Type} {m : M α} {s : State} {r : Except Stop α} (h : (m.run s).1 = r) : m.run s = (r, (m.run s).2) := Prod.ext h rfl

theorem witness_ScalarMemory_load : ∃ (s t : State) (ls : List Loc) (w : BitVec 3), w ≠ 7#3 ∧
    (BitVec.ofInt 64 ((s.me.reg 2).toInt + (56#13 : BitVec 13).toInt)).toNat % 8 = 0 ∧
    (locateBytes s.who .read 56 8).run s = (.ok ls, t) ∧ ∀ l ∈ ls, t.locPoisoned l = false :=
  ⟨machine, machine, places 56 8, 3, by decide +kernel, by decide +kernel,
    ran (by decide +kernel) (by decide +kernel), by decide +kernel⟩

theorem witness_ScalarMemory_store : ∃ (s t : State) (ls : List Loc),
    (BitVec.ofInt 64 ((s.me.reg 2).toInt + (60#13 : BitVec 13).toInt)).toNat % 4 = 0 ∧
    (locateBytes s.who .write 60 4).run s = (.ok ls, t) :=
  ⟨machine, machine, places 60 4, by decide +kernel, ran (by decide +kernel) (by decide +kernel)⟩

theorem witness_AtomicResults : ∃ (s t : State) (ls ks : List Loc), (s.me.reg 2).toNat % 8 = 0 ∧
    (locateBytes s.who .atomic 120 8).run s = (.ok ls, t) ∧ (locateBytes s.who .atomic 120 4).run s = (.ok ks, t) ∧
    (s.me.reg 2).toNat = 120 ∧ (∀ l ∈ ls, t.locPoisoned l = false) ∧ ∀ l ∈ ks, t.locPoisoned l = false :=
  ⟨withRegs [(2, 120)], withRegs [(2, 120)], places 120 8, places 120 4, by decide +kernel,
    ran (by decide +kernel) (by decide +kernel), ran (by decide +kernel) (by decide +kernel), by decide +kernel⟩

/-- A store that PST has issued, and one that follows it. -/
def issued (id : Nat) (prior : List Nat) (done : Bool) : Posted :=
  { id := id, tid := 0, path := 3, pkg := 0, loc := 64, size := 8, value := 5, prior := prior, performed := done }

theorem witness_PostedStores_issue : ∃ (s : State) (pa : Nat), s.myPkg.enable.getLsbD 6 = true ∧ (s.me.reg 2).toNat % 8 = 0 ∧
    (s.me.reg 2).toNat < 2 ^ 55 ∧ Leads s { s.who with path := .p } .write (s.me.reg 2).toNat pa ∧
    (s.posted.filter fun p => p.tid == s.me.tid).length < 4096 := by
  simp only [leads_iff]
  exact ⟨withRegs [(2, 120)], 120, by decide +kernel⟩

theorem witness_PostedStores_perform : ∃ (s : State) (p : Posted), s.posted.find? (fun q => q.id == 4) = some p ∧ p.performed = false ∧
    p.prior ≠ [] ∧ ∀ q ∈ s.posted, q.id ∈ p.prior → q.performed = true :=
  ⟨{ machine with posted := [issued 3 [] true, issued 4 [3] false] }, issued 4 [3] false, by decide +kernel⟩

theorem witness_PostedStores_acknowledge : ∃ (s : State) (p : Posted), s.posted.find? (fun q => q.id == 3) = some p ∧
    p.performed = true ∧ p.path < 4 ∧ s.whereIs p.tid = some 0 :=
  ⟨{ machine with posted := [issued 3 [] true] }, issued 3 [] true, by decide +kernel⟩

theorem witness_MisalignedAccess : ∃ s : State, s.myPkg.enable.getLsbD 6 = true ∧ (s.me.reg 2).toNat % 4 ≠ 0 ∧
    (BitVec.ofInt 64 ((s.me.reg 2).toInt + (0#13 : BitVec 13).toInt)).toNat % 2 ^ ((3#3 : BitVec 3).toNat % 4) ≠ 0 :=
  ⟨withRegs [(2, 7)], by decide +kernel⟩

theorem witness_AddressedPlaces : (∃ (s : State) (pa : Nat), translate s s.who .read 63 = .ok pa ∧ 63 % 64 + 1 ≤ 64 ∧
      physical s (pkgOfCore s.who.core) pa = some pa ∧ poisoned s pa = false) ∧
    (∃ (s : State) (pa : Nat), translate s s.who .atomic 56 = .ok pa ∧ physical s (pkgOfCore s.who.core) pa = some pa ∧
      poisoned s pa = true) ∧
    (∃ (s : State) (pa : Nat), translate s s.who .read 0 = .ok pa ∧ physical s (pkgOfCore s.who.core) pa = none) ∧
    (0x4000 % 64 + 1 ≤ 64 ∧ machine.who.path ≠ .p ∧ ({ machine.who with path := .p } : Who).path = .p) ∧
    (inWindow (2 ^ 55) = false ∧ inWindow 0xFF00000003FFFFFF = true ∧ inWindow 0xFF00000004000000 = false) :=
  ⟨⟨machine, 63, by decide +kernel⟩, ⟨{ machine with poison := [0] }, 56, by decide +kernel⟩,
    ⟨{ machine with tlb := [{ mapOf .core 0 with leaf := 0xC00000000F }] }, 0xC000000000, by decide +kernel⟩, by decide +kernel, by decide +kernel⟩

theorem witness_EncodeDecode : (Instr.vsortKv 30 31 0 1 7).wellFormed = true := by decide +kernel

theorem witness_DecodeEncode : decode 0x9F0F07FF#32 = .error .illegal ∧ decode (encode (.vsortKv 30 31 0 1 7)) = .ok (.vsortKv 30 31 0 1 7) := by
  decide +kernel

theorem witness_StepRunsInstruction : ∃ (s t : State) (ls : List Loc) (w : BitVec 32), (s.agenda = [] ∧ s.me.life = .running ∧
    s.boundary s.cur = none ∧ s.me.ending = false ∧ s.me.fences = [] ∧ (∀ e ∈ s.me.prefetched, e.1 ≠ s.me.pc.toNat)) ∧
    (locateBytes s.who .fetch s.me.pc.toNat 4).run s = (.ok ls, t) ∧ w = BitVec.ofNat 32 (leNat (ls.map t.locByte)) ∧
    decode w = .ok (.addImm 3 4 0xFFF0) ∧ s.me.noneInFlight = true ∧ needOf (.addImm 3 4 0xFFF0) ≠ .every ∧ s.me.vAfter = 0 ∧
    s.me.sAfter = 0 :=
  ⟨holding machine 0x1000 4 0x0864FFF0, holding machine 0x1000 4 0x0864FFF0, places 0x1000 4, 0x0864FFF0, by decide +kernel,
    ran (by decide +kernel) (by decide +kernel), by decide +kernel, by decide +kernel⟩

/-- The machine before an instruction, with a vector store of four bytes at 0x40 in flight. -/
def flying (i : Instr) : State :=
  let s := machine.setMe { task with vstores := [⟨(places 0x40 4).zip (bytesOf 4 7), false, 0, 0, false⟩] }
  holding s 0x1000 4 (encode i).toNat

theorem witness_StepRunsInstruction_flight : ((flying (.fence 1 0)).me.noneInFlight = false ∧
      (let p := (flying (.fence 1 0)).prepare 0 (.fence 1 0) (needOf (.fence 1 0)); p.me.noneInFlight = true ∧ p.me.fences = [])) ∧
    ((flying (.stflush 0 1)).me.noneInFlight = false ∧ needOf (.stflush 0 1) = .every) ∧
    (match exec (.addImm 3 4 1) ((flying (.addImm 3 4 1)).prepare 0 (.addImm 3 4 1) (needOf (.addImm 3 4 1))) with
      | .next v => wentOn ((flying (.addImm 3 4 1)).prepare 0 (.addImm 3 4 1) (needOf (.addImm 3 4 1))).me v.me
      | _ => false) = true := by decide +kernel

theorem witness_StepRunsInstruction_words : decode 0 = .error .illegal ∧ decode 0x04642841 = .error .reserved ∧
    ({ machine with agenda := [.run 0] } : State).agenda = .run 0 :: [] ∧
    ({ machine with agenda := [.event (.linePoisoning 0)] } : State).agenda = .event (.linePoisoning 0) :: [] := by decide +kernel

theorem witness_StepRunsInstruction_rest : (flying (.trap 0 63)).core 0 = Core.reset ∧ isTrap (.trap 0 63) = true ∧
    (flying (.trap 0 63)).me.noneInFlight = false ∧ (flying (.trap 0 63)).me.vAfter = 0 ∧ boundaryOf (.fullSwitch 3) = some 3 ∧
    boundaryOf (.linePoisoning 0) = none ∧ settlesFirst (.fullSwitch 3) = true ∧ settlesFirst (.walkStalled 3) = false ∧
    ((machine.setMe { task with fences := [4] }).endFences 0).me.fences = [] ∧
    ((machine.setMe { task with fences := [4], cmds := task.cmds.set 0 (some ⟨.cpy, 0, 0, 8, 0, 0, 0, 0, [], [], [], [], [], 0, 0⟩) }).endFences 0).me.fences = [4] := by
  decide +kernel

/-- Whether a meaning answers a next state of which something holds. -/
def after (i : Instr) (s : State) (p : State → Bool) : Bool :=
  match exec i s with
  | .next t => p t
  | _ => false

/-- The same of a step. -/
def afterStep (s : State) (p : State → Bool) : Bool :=
  match step s with
  | .next t => p t
  | _ => false

theorem witness_MemoryStaysCanonical : Memory.wf (holding machine 0x1000 4 0x30401003).mem = true ∧
    afterStep (holding machine 0x1000 4 0x30401003) (fun t => t.me.pc == 0x1004) = true := by decide +kernel

theorem witness_ScalarFloat : ((0#3 : BitVec 3) = 0#3) ∧ ((3#3 : BitVec 3) = 3#3) := by decide +kernel

theorem witness_RoundingAndOverflow : FpFinite fp32 0x7F7FFFFF ∧ FpFinite fp32 0x00000001 ∧ FpFinite bf16 0x7F7F ∧
    (fpAdd fp32 .rne 0 0x7F7FFFFF 0x7F7FFFFF) = (0x7F800000, 0b00101#5) ∧ FpFinite fp32 (fpAdd fp32 .rne 0 1 1).1 ∧
    (fpAdd fp32 .rtz 0 0x7F7FFFFF 0x7F7FFFFF) = (0x7F7FFFFF, 0b00101#5) := by
  unfold FpFinite
  decide +kernel

theorem witness_RoundingAndOverflow_range : fp32 ∈ [fp16, bf16, fp32, fp64] ∧ (2#2 : BitVec 2) ≠ 3 ∧ FpFinite fp32 0x00400000 ∧
    FpFinite fp32 0x3F800001 ∧ 0 < fpValue fp32 0x3F800001 ∧ fpValue fp32 0x3F800001 ≠ 0 ∧ fpValue fp32 0x80000000 = 0 ∧
    (0x00400000 / 2 ^ fp32.fb % 2 ^ fp32.eb = 0 ∧ fpValue fp32 0x00400000 ≠ 0) ∧
    (fp32.emin ≤ fpValue fp32 0x3FC00000 ∧ fpValue fp32 0x3FC00000 < fp32.bias + 1) ∧ (fp32.bias + 1 : ℚ) ≤ fpValue fp32 0x43800000 ∧
    fpValue fp32 0xC3000000 < fp32.emin ∧ fpValue fp32 0x40400000 = 3 := by
  unfold FpFinite
  decide +kernel

theorem witness_FloatSpecials : FpFinite fp32 0xBF800000 ∧ (0xBF800000 : Nat).testBit 31 = true ∧ 0xBF800000 ≠ 2 ^ 31 ∧
    (0x7F800001 / 2 ^ 23 % 2 ^ 8 = 255 ∧ 0x7F800001 % 2 ^ 23 ≠ 0 ∧ 0x7F800001 / 2 ^ 22 % 2 = 0) ∧ 0x7F800001 < 2 ^ fp32.width := by
  unfold FpFinite
  decide +kernel

theorem witness_BranchesAndJumps : PcForm 0x007FFFFFFFFFFFFC ∧ ¬PcForm 2 ∧ ¬PcForm 0x0080000000000000 ∧
    (∃ s : State, s.me.reg 1 = s.me.reg 2 ∧ s.me.reg 1 ≠ s.me.reg 3 ∧ (s.me.reg 3).toInt < (s.me.reg 1).toInt ∧
      (s.me.reg 1).toNat < (s.me.reg 3).toNat ∧ PcForm (BitVec.ofInt 64 (s.me.pc.toNat + 4 * (0x8000#16 : BitVec 16).toInt + 0x20000)) ∧
      ¬PcForm (BitVec.ofInt 64 (s.me.pc.toNat + 4 * (0x8000#16 : BitVec 16).toInt))) := by
  unfold PcForm
  exact ⟨by decide +kernel, by decide +kernel, by decide +kernel, withRegs [(3, -1)], by decide +kernel⟩

theorem witness_SoftwareTraps : machine.me.mode = .task ∧ machine.me.tvec ≠ 0 := by decide +kernel

theorem witness_TrapRecord : machine.me.mode = .task ∧ machine.me.tvec ≠ 0 ∧ machine.me.area = some ⟨0, 0⟩ ∧
    noInfo.pages.length ≤ 27 ∧ noInfo.elem < 2 ^ 11 ∧ noInfo.lane < 2 ^ 5 ∧
    badLine machine 0 (areaBase machine ⟨0, 0⟩ + 0x200) 256 true = none ∧ writesRecord 0x101 0 = true ∧ writesRecord 0x010 0 = false ∧
    writesRecord 0x1FF 0 = true ∧ writesRecord 0x200 0 = false ∧ writesRecord 0x201 0 = true ∧ writesRecord 0x341 0 = false ∧
    writesRecord 0x341 0x8000000000000000 = true := by decide +kernel

theorem witness_HostStop : inHandler.me.mode = .supervisor ∧ inHandler.me.area = some ⟨0, 0⟩ ∧
    badLine inHandler 0 (areaBase inHandler ⟨0, 0⟩ + 0x200) 256 true = none ∧ writesRecord 0x003 0 = false := by decide +kernel

theorem witness_TrapReturn : inHandler.me.mode = .supervisor ∧ inHandler.me.abandon = false ∧ inHandler.me.svcfg.toNat / 4 % 4 ≠ 3 ∧
    PcForm inHandler.me.tepc ∧ ¬PcForm 0x1002 ∧ (0b0001100#7 : BitVec 7).toNat / 4 % 4 = 3 ∧
    (inHandler.setMe { inHandler.me with abandon := true }).me.abandon = true := by
  unfold PcForm
  decide +kernel

theorem witness_TrapReturn_stores :
    (let s := inHandler.setMe { inHandler.me with delayed := [.store 0 0 ((places 0x40 2).zip (bytesOf 2 7))] }
     (∀ h ∈ s.me.delayed, h = .store 0 0 ((places 0x40 2).zip (bytesOf 2 7))) ∧ s.me.cut = none ∧ s.me.due = none ∧ s.me.budget0 = 0) ∧
    (∀ j : Fin 8, inHandler.me.cmds[j] = none) := by decide +kernel

theorem witness_PrivilegeChecks : machine.me.mode = .task ∧ (0x0C6#10 : BitVec 10).toNat = 0x0C6 ∧
    (0x01F#10 : BitVec 10).toNat ≤ 0x01F ∧ (0x094#10 : BitVec 10).toNat ≤ 0x094 ∧ csrClass 0x3FF = none ∧
    csrRefused .supervisor 0x3FF true = some 0x001 := by decide +kernel

theorem witness_CsrAccess : csrRefused machine.me.mode 0x045 false = some 0x003 ∧ csrRefused machine.me.mode 0x000 false = none ∧
    csrRefused inHandler.me.mode 0x045 true = none ∧ csrRefused machine.me.mode 0x001 true = none ∧
    (setCsr inHandler 0x0C2 8).isNone = true ∧ (setCsr inHandler 0x0C2 9).isSome = true := by decide +kernel

theorem witness_CsrWrites : inHandler.me.mode = .supervisor ∧ (0x300 : Word).toNat / 256 % 4 = 3 ∧ (0x0B : Word).toNat % 32 = 11 ∧
    (0x0C : Word).toNat / 4 % 4 = 3 ∧ (16 : Word).toNat % 32 ≤ 16 ∧ (17 : Word).toNat % 32 > 16 := by decide +kernel

/-- A command as an instruction at 0x1000 has issued it. -/
def copying (d a b c : Word) : Command :=
  { kind := .cpy, d := d, a := a, b := b, c := c, issue := 0x1000, pos := 0, part := 0, block := [], stall := [], owed := [],
    ahead := [], kept := [], born := 0, after := 0 }

/-- With no posted store, no command and every queue empty nothing is outstanding. -/
theorem nothing_outstanding {s : State} {c : Nat} {p : BitVec 5} (posted : s.posted = []) (cmds : ∀ j : Fin 8, (s.ctx c).cmds[j] = none)
    (queues : ∀ e ∈ s.chans, ∀ k : Fin 16, ∀ x ∈ (e.2[k]).slots, x.queue = []) : ¬Outstanding s c p := by
  rintro (⟨-, q, hq, -⟩ | ⟨-, j, hj⟩ | ⟨-, e, he, k, x, hx, o, ho, -⟩ | ⟨-, -, e, he, k, i, x, hx, h⟩)
  · simp [posted] at hq
  · exact hj (cmds j)
  · simp [queues e he k x hx] at ho
  · have := queues e he k x (List.mem_of_getElem? hx)
    simp [EntryDue, this] at h

theorem witness_Fences : machine.myPkg.enable.getLsbD 6 = true ∧ (∀ j : Fin 8, machine.me.cmds[j] = none) ∧ machine.posted = [] ∧
    machine.chans = [] ∧
    (let s := machine.setMe { task with cmds := task.cmds.set 0 (some (copying 0 0 0 0)) }
     ∃ j : Fin 8, s.me.cmds[j] ≠ none) ∧ (0b00110#5 : BitVec 5).getLsbD 2 = true ∧
    ((machine.setPkg 0 Pkg.reset).myPkg).enable.getLsbD 6 = false := by decide +kernel

theorem witness_QueuedStoresPerformed : ∃ s : State,
    let ws := (s.ctx 0).vstores.flatMap (·.bytes)
    ws.map (·.1) = places 0x40 4 ∧ (ws.map (·.1)).Nodup ∧ (∀ l ∈ places 0x40 4, Holds s l) ∧ ∀ w ∈ ws, w.1 ≠ .phys 0x44 :=
  ⟨machine.setMe { task with vstores := [⟨cells 0x40 4 0x01020304, false, 0, 0, false⟩] }, by decide +kernel, by decide +kernel,
    by simp [places, Holds], by decide +kernel⟩

theorem witness_QueuedStoresPerformed_delayed :
    (let s := machine.setMe { task with delayed := [.store 0 0 (cells 0x40 2 0x0102), .store 1 0 (cells 0x41 2 0x0304)] }
     (s.ctx 0).delayed.flatMap Held.bytes = [(.phys 0x40, 2)] ++ (.phys 0x41, 1) :: [(.phys 0x41, 4), (.phys 0x42, 3)] ∧
     (s.settleStores 0).locByte (.phys 0x41) = 4 ∧ (s.settleStores 0).locByte (.phys 0x40) = 2 ∧
     ∀ h ∈ (s.ctx 0).delayed, h = .store 0 0 (cells 0x40 2 0x0102) ∨ h = .store 1 0 (cells 0x41 2 0x0304)) ∧
    (2 % 2 ^ (2#2 : BitVec 2).toNat ≠ 0 ∧ 0x800 % 2 ^ (2#2 : BitVec 2).toNat = 0) ∧
    ∃ t, (locateBytes machine.who .write 0x800 4).run machine = (.ok (places 0x800 4), t) :=
  ⟨by decide +kernel, by decide +kernel, machine, ran (by decide +kernel) (by decide +kernel)⟩

theorem witness_TaskModeCannotConfigure : decode 0x04642801 = .ok (.sub 3 4 5) ∧ machine.me.mode = .task ∧
    after (.sub 3 4 5) machine (fun t => t.me.pc == 0x1004) = true ∧
    after (.trap 0 63) machine (fun t => t.me.mode == .supervisor && t.me.pc == 0x8000) = true := by decide +kernel

/-! Translation and the stash. -/

/-- Three levels of tables at 0x300000 for the lowest 64 KiB; nothing is cached. -/
def tables : State :=
  let s := machine.setPkg 0 { Pkg.reset with enable := 0xFFF, ptroot := 0x300000 }
  holding (holding (holding { s with tlb := [] } 0x300000 8 0x310001) 0x310000 8 0x320001) 0x320000 8 15

theorem witness_PageTableWalk : cached tables tables.who 0xFFFF = none ∧ cachedTable tables tables.who 0xFFFF = none ∧ physNat tables 0x300000 8 % 2 = 1 ∧
    physNat tables 0x300000 8 / 2 ^ 7 % 2 = 0 ∧ physNat tables 0x300000 8 / 2 % 2 = 0 ∧ pteMalformed 0x310001 42 = false ∧
    physNat tables 0x310000 8 = 0x320001 ∧ pteMalformed 0x320001 29 = false ∧ physNat tables 0x320000 8 = 15 ∧
    pteMalformed 15 16 = false ∧ leafAllows 15 .write .task = true ∧ leafAllows 3 .write .task = false ∧
    (∀ a ∈ [0x300000, 0x310000, 0x320000], physical tables 0 a = some a ∧ poisoned tables a = false) ∧
    translate tables tables.who .write 0xFFFF = .ok 0xFFFF ∧ waitExpired tables tables.who (walkKey 0xFFFF) = false ∧
    (let late := tables.setMe { task with stall := [(walkKey 0xFFFF, 100000)] }
     waitExpired late late.who (walkKey 0xFFFF) = true) ∧
    physical tables 0 0xC000000000 = none ∧ (0x83 / 2 ^ 7 % 2 = 1 ∧ 0x83 % 2 = 1) := by decide +kernel

theorem witness_KeptTranslations : (inHandler.me.mode = .supervisor ∧ inHandler.posted = []) ∧
    (∃ q ∈ ({ inHandler with posted := [issued 0 [] false] } : State).posted, q.performed = false) ∧
    walk tables { core := 0, unit := .core, mode := .task, path := .o, ctx := 0, sptroot := 0, waits := [], since := tables.clock } 0xFFFF =
      .ok (15, 16, 0x320000) ∧
    (∃ e, walk tables { core := 0, unit := .core, mode := .task, path := .o, ctx := 0, sptroot := 0, waits := [], since := tables.clock } 0x10000 =
      .error e) ∧ (0x007FFFFFFFFFFFFF : Word).toNat < 2 ^ 55 :=
  ⟨by decide +kernel, by decide +kernel, by decide +kernel, ⟨.trap 0x101 0x10000 (atAddr 0x10000 0x320008), by decide +kernel⟩, by decide +kernel⟩

/-- A leaf without W is kept for the lowest page, whose entry in memory has it now. -/
def stale : State := { tables with tlb := [{ core := 0, kind := .core, granule := 0, level := 16, leaf := 3 }] }

theorem witness_AddressedPlaces_stale : cacheFails stale stale.who .write 56 = true ∧ translate stale stale.who .write 56 = .ok 56 ∧
    cacheFails stale stale.who .read 56 = false ∧ physical stale 0 56 = some 56 := by decide +kernel

theorem witness_KeptTranslations_kept : (physical tables 0 0x300000 = some 0x300000 ∧ physNat tables 0x300000 8 % 2 = 1 ∧
      pteMalformed (physNat tables 0x300000 8) 42 = false ∧ physNat tables 0x300000 8 / 2 ^ 16 % 2 ^ 41 * 2 ^ 16 = 0x310000) ∧
    (physical tables 0 0x310000 = some 0x310000 ∧ physNat tables 0x310000 8 % 2 = 1 ∧ pteMalformed (physNat tables 0x310000 8) 29 = false ∧
      physNat tables 0x310000 8 / 2 ^ 16 % 2 ^ 41 * 2 ^ 16 = 0x320000) ∧
    (physNat tables 0x320000 8 % 2 = 1 ∧ physNat tables 0x320000 8 / 2 ^ 7 % 2 = 0 ∧ pteMalformed (physNat tables 0x320000 8) 16 = false ∧
      physNat tables 0x320008 8 % 2 = 0) := by decide +kernel

/-- A page of the window in frame 0 of core 0; the table of entries stands at 0x400000. -/
def framed (mapped : Bool) (pull : Option Nat) : Frame :=
  { entry := 0x400000, mapped := mapped, page := 0x500000, phys := 0x500000, valid := if mapped then 0 else -1, dirty := 0,
    pageDirty := false, last := 0, data := 0, poison := 0, pull := pull }

/-- The machine with a stash entry at 0x400000 and, if given, a frame. -/
def stashed (e : Nat) (f : Option Frame) : State :=
  let s := holding (machine.setMe { task with sptroot := 0x400000, s := regSet task.s 2 0xFF00000000000000 }) 0x400000 8 e
  match f with
  | some g => s.setCore 0 ((s.core 0).setFrame 0 g)
  | none => s

theorem witness_StashAccess : ∃ s : State,
    inWindow 0xFF00000000000FFF = true ∧ s.who.path = .o ∧ (s.pkg (pkgOf s.who.ctx)).enable.getLsbD 3 = true ∧ s.who.sptroot ≠ 0 ∧
    Mapped s s.who.asTask .read 0x400000 8 0x400000 ∧ physNat s 0x400000 8 % 8 = 1 ∧ physNat s 0x400000 8 / 2 ^ 29 = 0 ∧
    s.coreAt (pkgOfCore s.who.core) 0 = some 0 ∧ (s.core 0).frame 0 = some (framed false none) ∧
    (framed false none).entry = BitVec.ofNat 64 0x400000 ∧ (framed false none).mapped = false ∧ s.spt = [] := by
  simp only [mapped_iff]
  exact ⟨stashed 1 (some (framed false none)), by decide +kernel⟩

theorem witness_StashAccess_stops :
    physNat (stashed 0 none) 0x400000 8 = 0 ∧ (stashed 0 none).me.sptroot ≠ 0 ∧ physNat (stashed 6 none) 0x400000 8 / 4 % 2 = 1 ∧
    waitExpired (stashed 6 none) (stashed 6 none).who (busyKey 0x400000) = false ∧
    (let late := (stashed 6 none).setMe { (stashed 6 none).me with stall := [(busyKey 0x400000, 100000)] }
     waitExpired late late.who (busyKey 0x400000) = true) ∧ machine.me.sptroot = 0 ∧
    ((stashed 0 none).setPkg 0 Pkg.reset).myPkg.enable.getLsbD 3 = false := by decide +kernel

theorem witness_StashAccess_entries :
    (∀ e ∈ [0, 0xFF0, 0xFFFFFFFFFFFFFFF0, 8, 1, 1 + 2 ^ 29, 0x50000A, 2 ^ 55 + 2], let s := stashed e none
      Mapped s s.who.asTask .read 0x400000 8 0x400000 ∧ physNat s 0x400000 8 = e) ∧
    0xFF0 % 16 = 0 ∧ (8 / 4 % 2 = 0 ∧ 8 % 4 = 0 ∧ 8 / 8 % 2 = 1) ∧ ((1 + 2 ^ 29) / 2 ^ 29 ≠ 0) ∧
    (∀ f, ((stashed 1 none).core 0).frame 0 ≠ some f) ∧ (0x50000A / 8 % 2 ^ 9 ≠ 0 ∧ 0x50000A % 4 = 2) ∧ (2 ^ 55 + 2) / 2 ^ 55 ≠ 0 := by
  simp only [mapped_iff]
  refine ⟨by decide +kernel, by decide, by decide, by decide, ?_, by decide, by decide⟩
  intro f
  have h : ((stashed 1 none).core 0).frame 0 = none := by decide +kernel
  simp [h]

theorem witness_StashFlush_entries : ∃ u0 u2 : State,
    (readEntry (stashed 0 none).who 0xFF00000000000000).run (stashed 0 none) = (.ok (0x400000, 0), u0) ∧
    (readEntry (stashed 0x500002 none).who 0xFF00000000000000).run (stashed 0x500002 none) = (.ok (0x400000, 0x500002), u2) ∧
    inWindow ((stashed 0 none).me.reg 2).toNat = true ∧ inWindow ((stashed 0 none).me.reg 3).toNat = false ∧
    (stashed 0 none).me.sptroot ≠ 0 ∧ (stashed 0 none).myPkg.enable.getLsbD 3 = true ∧
    ((stashed 0 none).settleStores 0).drain 0 = stashed 0 none :=
  ⟨stashed 0 none, stashed 0x500002 none, ran (by decide +kernel) (by decide +kernel),
    ran (by decide +kernel) (by decide +kernel), by decide +kernel⟩

theorem witness_StashFlush_inv : ∃ v : State,
    (setEntry (stashed 0x500002 none).who 0x400000 0).run (stashed 0x500002 none) = (.ok (), v) :=
  ranTo (by decide +kernel)

/-- A clean page in frame 0. -/
def resident : State := stashed 1 (some (framed false none))

/-- `resident` once its page is written back. -/
def written : State := ((writeBack resident.who 0 (framed false none)).run (resident.settlePage 0 0 (framed false none))).2

theorem witness_StashFlush_resident : ∃ v : State,
    (readEntry resident.who 0xFF00000000000000).run resident = (.ok (0x400000, 1), resident) ∧
    entryFrame resident 0 1 = some (0, 0, framed false none) ∧ (framed false none).entry = BitVec.ofNat 64 0x400000 ∧
    (globalLocs resident.who.asTask .atomic 0x400000 8).run resident = (.ok (places 0x400000 8), resident) ∧
    ((resident.settlePage 0 0 (framed false none)).core 0).frame 0 = some (framed false none) ∧
    (writeBack resident.who 0 (framed false none)).run (resident.settlePage 0 0 (framed false none)) = (.ok (), written) ∧
    (setEntry resident.who 0x400000 ((framed false none).page.toNat + 2)).run written = (.ok (), v) := by
  obtain ⟨v, hv⟩ := ranTo (m := setEntry resident.who 0x400000 ((framed false none).page.toNat + 2)) (s := written) (r := .ok ())
    (by decide +kernel)
  exact ⟨v, ran (by decide +kernel) (by decide +kernel), by decide +kernel, by decide +kernel, ran (by decide +kernel) (by decide +kernel),
    by decide +kernel, ran (by decide +kernel) rfl, hv⟩

theorem witness_StashFlush_completes : resident.me.noneInFlight = true ∧ resident.spt = [] ∧
    Mapped resident resident.who.asTask .read 0x400000 8 0x400000 ∧ Mapped resident resident.who.asTask .atomic 0x400000 8 0x400000 ∧
    physNat resident 0x400000 8 % 8 = 1 ∧ physNat resident 0x400000 8 / 2 ^ 29 = 0 ∧ resident.coreAt 0 0 = some 0 ∧
    (resident.core 0).frame 0 = some (framed false none) ∧ (framed false none).pageDirty = false ∧ (framed false none).page.toNat < 2 ^ 55 ∧
    (∀ x ∈ resident.ctxs, x.2.noneInFlight = true) ∧
    (let s := stashed 0 none; ∀ p ∈ [0, 1, 16383], Mapped s s.who.asTask .read (0x400000 + 8 * p) 8 (0x400000 + 8 * p) ∧
      physNat s (0x400000 + 8 * p) 8 = 0) := by
  simp only [mapped_iff]
  decide +kernel

/-- How FV4 reaches the window page of context 0. -/
def stashWho : Who := { fv4Who 0 [] with sptroot := 0x400000 }

theorem witness_StashEvents : (machine.ctx 5).life = .idle ∧ ((stashed 1 none).ctx 0).life ≠ .idle ∧
    (∃ (u : State) (f : Frame), (readEntry stashWho 0xFF00000000000000).run
        (stashed 1 (some (framed true (some 1)))) = (.ok (0x400000, 1), u) ∧ entryFrame u 0 1 = some (0, 0, f) ∧ f.mapped = true ∧
      f.valid.getLsbD 63 = false ∧ f.pull = some 1 ∧
      translate u { stashWho.asTask with core := 0, unit := .core } .read f.page.toNat = .ok 0x500000) ∧
    (stashed 1 none).me.sptroot = 0x400000 :=
  ⟨by decide +kernel, by decide +kernel, ⟨stashed 1 (some (framed true (some 1))), framed true (some 1),
    ran (by decide +kernel) (by decide +kernel), by decide +kernel⟩, by decide +kernel⟩

theorem witness_StashEvents_fill : (∃ (n : Nat) (v : State),
      (fillPage stashWho 0xFF00000000000000 0x400000 0x500002).run (stashed 0x500002 none) = (.ok n, v)) ∧
    (let s := stashed 0x500003 none
     s.spt = [] ∧ Mapped s stashWho.asTask .read 0x400000 8 0x400000 ∧ Mapped s stashWho.asTask .atomic 0x400000 8 0x400000 ∧
     physNat s 0x400000 8 = 0x500003 ∧ (s.core 0).frame 0 = none ∧ Leads s { stashWho.asTask with unit := .core } .read 0x500000 0x500000) := by
  refine ⟨⟨0, ranTo (by decide +kernel)⟩, ?_⟩
  simp only [mapped_iff, leads_iff]
  decide +kernel

/-- The window page in frame 0 of core 0, wanted by core 1, whose unit also translates. -/
def pulled : State := { stashed 1 (some (framed false (some 1))) with tlb := [mapOf .core 0, mapOf .core 1] }

theorem witness_StashEvents_pull : (∃ v : State,
      (pullPage stashWho 0xFF00000000000000 0x400000 0 0 1 (framed false (some 1))).run pulled = (.ok (), v)) ∧
    (pulled.core 0).frame 0 = some (framed false (some 1)) ∧ (pulled.core 1).frame 0 = none ∧
    (∀ x ∈ pulled.ctxs, x.2.noneInFlight = true) ∧ Mapped pulled { stashWho.asTask with core := 1 } .atomic 0x400000 8 0x400000 := by
  refine ⟨ranTo (by decide +kernel), ?_⟩
  simp only [mapped_iff]
  decide +kernel

/-! Tasks, barriers, commands. -/

/-- The eight words of a task record at 0x600000. -/
def recorded (ctrl parent : Nat) : State :=
  holding (machine.setMe { task with s := regSet task.s 2 0x600000 }) 0x600000 64
    (0x2000 + 7 * 2 ^ 64 + ctrl * 2 ^ 128 + parent * 2 ^ 192 + 1000 * 2 ^ 256)

theorem witness_TaskSpawn : ∃ (s : State) (w : Word), (s.me.reg 2).toNat % 64 = 0 ∧
    Mapped (s.drain s.cur) s.who .read (s.me.reg 2).toNat 64 0x600000 ∧ w = BitVec.ofNat 64 (physNat (s.drain s.cur) 0x600010 8) ∧
    recordForm ((List.range 8).map fun j => BitVec.ofNat 64 (physNat (s.drain s.cur) (0x600000 + 8 * j) 8)) = true ∧
    w.toNat / 2 ^ 43 % 16 = 3 ∧ (s.drain s.cur).dieFor (s.cur / 1024) w (s.cur / 256) 0 = some 0 ∧
    (s.die 0).stopped = false ∧ (s.die 0).queued = [] ∧ 256 < 2 ^ (s.die 0).qdepth.toNat ∧
    badLine (s.drain s.cur) 0 ((s.die 0).qbase.toNat + 127 * 4096 * 64) 64 true = none := by
  simp only [mapped_iff]
  exact ⟨recorded (3 * 2 ^ 43 + 127 * 2 ^ 32) 0, BitVec.ofNat 64 (3 * 2 ^ 43 + 127 * 2 ^ 32), by decide +kernel⟩

theorem witness_TaskSpawn_refused : recordForm [2, 0, 0, 0, 0, 0, 0, 0] = false ∧ recordForm [0, 0, 0x8000000000000000, 0, 0, 0, 0, 0] = false ∧
    placeOf (BitVec.ofNat 64 (5 * 2 ^ 43)) 0 0 = none ∧ placeOf (BitVec.ofNat 64 (3 * 2 ^ 43 + 1728 * 2 ^ 47)) 0 0 = none ∧
    placeOf (BitVec.ofNat 64 (3 * 2 ^ 43 + 1727 * 2 ^ 47)) 0 0 = some 1727 ∧
    machine.dieFor 0 (BitVec.ofNat 64 (3 * 2 ^ 43 + 1727 * 2 ^ 47)) 0 0 = none ∧
    ({ Die.reset with stopped := true }).stopped = true ∧ (0x600001 : Word).toNat % 64 ≠ 0 := by decide +kernel

theorem witness_TaskEnd : fenceWaits machine 0 0b01110#5 = false ∧ machine.me.pending = [] ∧ machine.me.lost = false ∧
    machine.posted = [] ∧ (∀ j : Fin 8, machine.me.cmds[j] = none) ∧ machine.chans = [] ∧
    machine.me.parent = 0 ∧ fenceWaits (machine.setMe { task with cmds := task.cmds.set 7 (some (copying 0 0 0 0)) }) 0 0b01110#5 = true ∧
    (machine.setMe { task with pending := [⟨0x201, 0, [], false⟩] }).me.pending ≠ [] ∧
    (let f := inHandler.setMe { inHandler.me with forced := true }; f.me.mode = .supervisor ∧ f.me.forced = true) := by decide +kernel

theorem witness_TaskEnd_clear : ¬Outstanding (machine.finishOlder 0) 0 0b01110#5 ∧ ¬Outstanding machine 0 0b11111#5 ∧
    Outstanding (machine.setMe { task with cmds := task.cmds.set 7 (some (copying 0 0 0 0)) }) 0 0b00100#5 :=
  ⟨nothing_outstanding (by decide +kernel) (by decide +kernel) (by decide +kernel),
    nothing_outstanding (by decide +kernel) (by decide +kernel) (by decide +kernel), .inr (.inl ⟨rfl, 7, by decide +kernel⟩)⟩

/-- A task with the parent at 0x600000, whose JOIN is `n`. -/
def child (n : Nat) : State := (recorded (3 * 2 ^ 43 + n) 0).setMe { (recorded (3 * 2 ^ 43 + n) 0).me with parent := 0x600000 }

theorem witness_TaskEnd_parent : (child 2).me.parent ≠ 0 ∧ (child 2).me.parent.toNat % 4 = 0 ∧
    Mapped ((child 2).finishOlder 0) ((child 2).finishOlder 0).who .atomic ((child 2).me.parent.toNat + 16) 4 0x600010 ∧
    physNat ((child 2).finishOlder 0) 0x600010 4 = 2 ∧ physNat ((child 0).finishOlder 0) 0x600010 4 = 0 := by
  simp only [mapped_iff]
  decide +kernel

/-- `recorded` with the JOIN word cleared. -/
def joined : State := (recorded (3 * 2 ^ 43 + 1) 0).writeLocs ((List.range 4).map fun k => (.phys (0x600010 + k), 0#8))

theorem witness_TaskEnd_join : ∃ (s : State), Mapped s s.who .atomic (0x600000 + 16) 4 0x600010 ∧ physNat s 0x600010 4 = 1 ∧
    (checkRecord s.who 0x600000 0 false).run s = (.ok (0, [0x2000, 7, BitVec.ofNat 64 (3 * 2 ^ 43 + 1), 0, 1000, 0, 0, 0]), s) ∧
    joined = s.writeLocs ((List.range 4).map fun k => (.phys (0x600010 + k), 0#8)) ∧
    (readVa s.who 0x600000 64).run joined = (.ok (leNat ([(0x2000 : Word), 7, BitVec.ofNat 64 (3 * 2 ^ 43), 0, 1000, 0, 0, 0].flatMap fun x => leBytes 8 x.toNat)), joined) ∧
    physNat (recorded 2 0) 0x600010 4 = 2 ∧ physNat (recorded 0 0) 0x600010 4 = 0 := by
  simp only [mapped_iff]
  exact ⟨recorded (3 * 2 ^ 43 + 1) 0, by decide +kernel, by decide +kernel,
    ran (by decide +kernel) (by decide +kernel), rfl, ran (by decide +kernel) (by decide +kernel), by decide +kernel⟩

/-- A barrier object at 0x700000 with the given words. -/
def barrier (w0 w1 : Nat) : State :=
  holding (machine.setMe { task with s := regSet (regSet task.s 2 0x700000) 3 1 }) 0x700000 16 (w0 + w1 * 2 ^ 64)

theorem witness_Barriers : ∃ s : State, (s.me.reg 2).toNat % 16 = 0 ∧
    Mapped (s.drain s.cur) s.who .atomic (s.me.reg 2).toNat 16 0x700000 ∧ Mapped s s.who .read (s.me.reg 2).toNat 16 0x700000 ∧
    physNat s 0x700000 8 = 2 + 2 ^ 20 ∧ physNat s 0x700008 8 = 0 ∧ (s.me.reg 3).toNat = 1 := by
  simp only [mapped_iff]
  exact ⟨barrier (2 + 2 ^ 20) 0, by decide +kernel⟩

theorem witness_Barriers_clauses : physNat (barrier (2 ^ 46) 0) 0x700000 8 / 2 ^ 46 ≠ 0 ∧ (physNat (barrier 0 0) 0x700000 8 % 2 ^ 20 < 0 + 1) ∧
    physNat (barrier (2 + 2 ^ 45) (2 ^ 32 + 1)) 0x700008 8 / 2 ^ 32 = 1 ∧ machine.me.waited.getD 0 = 0 ∧
    (0 : Word) ≠ 0xFFFFFFFFFFFFFFFF ∧ (0 : Word).toNat ≤ machine.me.waited.getD 0 ∧ (0x700008 : Word).toNat % 16 ≠ 0 := by decide +kernel

/-- A barrier object at the start of the resident page of the window. -/
def windowed : State := (resident.writeLocs [(.frame 0 0 0, 2#8)]).setMe { resident.me with sptroot := 0x400000 }

theorem witness_Barriers_window : ∃ u v : State, (windowed.me.reg 2).toNat % 16 = 0 ∧ inWindow (windowed.me.reg 2).toNat = true ∧
    (locateBytes windowed.who .atomic (windowed.me.reg 2).toNat 16).run (windowed.drain 0) = (.ok ((List.range 16).map (.frame 0 0 ·)), u) ∧
    (locateBytes windowed.who .read (windowed.me.reg 2).toNat 16).run windowed = (.ok ((List.range 16).map (.frame 0 0 ·)), v) ∧
    u.locByte (.frame 0 0 0) = 2 ∧ ∀ l ∈ (List.range 16).map (Loc.frame 0 0 ·), u.locPoisoned l = false ∧ v.locPoisoned l = false :=
  ⟨((locateBytes windowed.who .atomic (windowed.me.reg 2).toNat 16).run (windowed.drain 0)).2,
    ((locateBytes windowed.who .read (windowed.me.reg 2).toNat 16).run windowed).2, by decide +kernel, by decide +kernel,
    ranState (by decide +kernel), ranState (by decide +kernel), by decide +kernel, by decide +kernel⟩

/-- The tables of `tables` with the leaf in migration. -/
def migrating : State := holding (tables.setMe { task with s := regSet task.s 2 0x40 }) 0x320000 8 (15 + 2 ^ 7)

theorem witness_Barriers_waits : ∃ (u v : State) (ks : List Nat), (migrating.me.reg 2).toNat % 16 = 0 ∧
    (locateBytes migrating.who .atomic 0x40 16).run (migrating.drain 0) = (.error (.waitOn ks), u) ∧
    (locateBytes migrating.who .read 0x40 16).run migrating = (.error (.waitOn ks), v) :=
  ⟨_, _, [walkKey 0x40], by decide +kernel, ranState (by decide +kernel), ranState (by decide +kernel)⟩

/-- Episode 4 of quad 0 expects two arrivals and has one. -/
def gathering : State := { withRegs [(2, 2)] with episodes := [⟨⟨1, 0, 4⟩, 2, 1⟩], nextEpisode := 5 }

theorem witness_HierarchicalBarrier : gathering.myPkg.enable.getLsbD 11 = true ∧ gathering.me.hbar = none ∧
    (scopeInstance gathering 0 1).1 = 0 ∧ (scopeInstance gathering 0 1).2 = 16 ∧
    gathering.episodes.find? (fun e => e.id.scope == 1 && e.id.inst == 0) = some ⟨⟨1, 0, 4⟩, 2, 1⟩ ∧
    (∀ f ∈ gathering.episodes, f.id.number < gathering.nextEpisode) ∧ (gathering.me.reg 2).toNat = 2 ∧
    (gathering.me.reg 3).toNat = 0 ∧ machine.episodes = [] ∧ (scopeInstance gathering 0 4).2 = 1024 ∧
    (gathering.setMe { gathering.me with hbar := some ⟨1, 0, 4⟩ }).me.hbar = some ⟨1, 0, 4⟩ ∧
    ((gathering.setPkg 0 Pkg.reset).myPkg).enable.getLsbD 11 = false := by decide +kernel

theorem witness_HierarchicalBarrier_scopes : scopeInstance gathering 0 2 = (0, 256) ∧ scopeInstance gathering 0 3 = (0, 1024) ∧
    inDomain gathering 0 0 = true ∧ 1 ≤ (gathering.me.reg 2).toNat ∧ (gathering.me.reg 2).toNat ≤ 16 ∧ ¬1 ≤ (gathering.me.reg 3).toNat ∧
    (let s := gathering.setPkg 0 { gathering.pkg 0 with pkgcfg := 0x8000000100041000 }
     (scopeInstance s 0 4).2 = 1024 ∧ s.myPkg.pkgcfg.getLsbD 63 = true) := by decide +kernel

theorem witness_CommandIssue : ∃ s : State, (s.me.reg 4).toNat % 16 = 0 ∧ (s.me.reg 3).toNat % 8 = 0 ∧ (∃ j : Fin 8, s.me.cmds[j] = none) ∧
    (∀ j : Fin 8, j < 7 → s.me.cmds[j] ≠ none) ∧ s.me.cmds[(7 : Fin 8)] = none ∧ s.myPkg.enable.getLsbD 8 = true ∧
    (15 : Word).toNat % 16 ≠ 0 ∧ (7 : Word).toNat % 8 ≠ 0 ∧
    (∀ j : Fin 8, ({ task with cmds := Vector.replicate 8 (some (copying 0 0 0 0)) } : Ctx).cmds[j] ≠ none) ∧
    ((machine.setPkg 0 Pkg.reset).myPkg).enable.getLsbD 8 = false :=
  ⟨machine.setMe { task with cmds := (Vector.replicate 8 (some (copying 0 0 0 0))).set 7 none }, by decide +kernel⟩

/-- The engine of context 0. -/
def engine : Who := { core := 0, unit := .engine, mode := .task, path := .c, ctx := 0, sptroot := 0, waits := [], since := 0 }

/-- The machine with one copy command in slot 7. -/
def withCopy (k : Command) : State := machine.setMe { task with cmds := task.cmds.set 7 (some k) }

theorem witness_CommandSteps_copy : ∃ (s : State) (ls ms : List Loc), ((s.ctx 0).life = .running ∧ (s.pkg 0).off = false ∧
    get8 (s.ctx 0).cmds 7 = some (copying 0x10FF 0x2000 2 0) ∧ s.clock = 0 ∧ s.sources = [] ∧ s.pins = []) ∧
    (enginePlaces engine .read 0x2000 1).run s = (.ok ls, s) ∧
    (enginePlaces engine .write 0x10FF 1).run s = (.ok ms, s) ∧ ms.Nodup ∧ ls = places 0x2000 1 ∧ ms = places 0x10FF 1 ∧
    0 + min (2 - 0) (256 - 0x10FF % 256) < 2 :=
  ⟨withCopy (copying 0x10FF 0x2000 2 0), places 0x2000 1, places 0x10FF 1, by decide +kernel,
    ran (by decide +kernel) (by decide +kernel), ran (by decide +kernel) (by decide +kernel), by decide +kernel⟩

theorem witness_CommandSteps_done : get8 ((withCopy { copying 0 0 0 0 with pos := 0 }).ctx 0).cmds 7 = some (copying 0 0 0 0) ∧
    (copying 0 0 0 0).c = 0 ∧ (copying 0 0 0 0).total ≤ (copying 0 0 0 0).pos ∧ (machine.ctx 9).life = .idle ∧
    (machine.setPkg 0 { machine.pkg 0 with off := true }).pkg 0 ≠ machine.pkg 0 := by decide +kernel

theorem witness_CommandSteps_arrival : ∃ (s t : State) (v : Word),
    (readObject { engine with path := .o } .atomic 0x700000).run s = (.ok (places 0x700000 16, 2, 0), s) ∧ 2 / 2 ^ 45 % 2 = 0 ∧
    (updateObject { engine with path := .o } 0x700000 fun w0 w1 => arrived w0 w1 1).run s = (.ok v, t) := by
  obtain ⟨t, ht⟩ := ranTo (m := updateObject { engine with path := .o } 0x700000 fun w0 w1 => arrived w0 w1 1) (s := barrier 2 0)
    (r := .ok 2) (by decide +kernel)
  exact ⟨barrier 2 0, t, 2, ran (by decide +kernel) (by decide +kernel), by decide, ht⟩

theorem witness_CommandSteps_fault : (∃ (u : State) (i : Word) (r : FaultInfo),
      (nextAction engine (copying 0 0x20000000 8 0) none).run (withCopy (copying 0 0x20000000 8 0)) = (.error (.trap 0x101 i r), u)) ∧
    2 ^ 55 ≤ (0x80000000000000 : Word).toNat ∧ inWindow 0x80000000000000 = false :=
  ⟨⟨withCopy (copying 0 0x20000000 8 0), 0x20000000, { atAddr 0x20000000 0 with w2 := 0x101 }, ran (by decide +kernel) (by decide +kernel)⟩,
    by decide +kernel⟩

theorem witness_CommandSteps_stopped : ((machine.setCore 0 { machine.core 0 with out := true }).core 0).out = true ∧
    ((withCopy (copying 0 0 8 0)).setMe { (withCopy (copying 0 0 8 0)).me with life := .stopped }).me.life = .stopped ∧
    (withCopy (copying 0 0 8 0)).pkg 0 = machine.pkg 0 ∧ (machine.pkg 0).off = false ∧ (machine.core 0).out = false := by decide +kernel

/-! Vector and matrix statements. Lengths are 2, so that an element index is 0 or 1. -/

/-- The task with vector registers 1 to 4 holding a pattern under a tag, at a width code. -/
def vtask (t : Tag) (sew : BitVec 7) : Ctx := { task with
  vcfg := sew, tag := regSet (regSet (regSet (regSet task.tag 1 t) 2 t) 3 t) 4 t
  v := regSet (regSet (regSet task.v 1 0x0102030405060708) 2 0x1112131415161718) 3 0x40004000 }

/-- The machine with that task. -/
def vmachine (t : Tag) (sew : BitVec 7) : State := machine.setMe (vtask t sew)

/-- Only elements below VL are processed. -/
theorem runs_below {x : Ctx} {m : BitVec 1} {r : BitVec 3} {k : Nat} (h : Runs x m r k) : k < x.vl.toNat := h.2.1

/-- What holds of 0 and 1 holds of the elements of a batch of a length at most 2. -/
theorem of_two {P : Nat → Prop} {k : Nat} (h : k < 2) (p0 : P 0) (p1 : P 1) : P k := by
  obtain e | e : k = 0 ∨ k = 1 := by omega
  all_goals subst e; assumption

theorem witness_VectorInteger : ∀ p ∈ [(Tag.i8, 0#7), (.i16, 1#7), (.i32, 2#7), (.i64, 3#7)],
    let x := (vmachine p.1 p.2).me
    regGet x.tag 1 = tagOfWidth (sewBits x) ∧ regGet x.tag 2 = tagOfWidth (sewBits x) := by decide +kernel

theorem witness_VectorCompareSelect : (let x := (vmachine .fp64 3).me; (regGet x.tag 1).bits = sewBits x) ∧
    (let x := (vmachine .fp64 3).me; regGet x.tag 2 = regGet x.tag 1) ∧
    (let x := (vmachine .i8 0).me; regGet x.tag 1 = tagOfWidth (sewBits x) ∧ regGet x.tag 2 = tagOfWidth (sewBits x)) := by
  decide +kernel

theorem witness_VectorFloat : ∀ p ∈ [(Tag.bf16, 1#7), (.fp16, 1#7), (.fp32, 2#7), (.fp64, 3#7)],
    let x := (vmachine p.1 p.2).me
    (regGet x.tag 1).isFloat = true ∧ (regGet x.tag 1).bits = sewBits x ∧ (vmachine p.1 p.2).myPkg.enable.getLsbD 0 = true ∧
      regGet x.tag 2 = regGet x.tag 1 ∧ regGet x.tag 4 = regGet x.tag 1 := by decide +kernel

theorem witness_VectorReductions : (let x := (vmachine .i8 0).me
      regGet x.tag 1 = tagOfWidth (sewBits x) ∧ regGet x.tag 4 = regGet x.tag 1) ∧
    (let s := vmachine .fp32 0x42
     let x := s.me
     (regGet x.tag 1).isFloat = true ∧ (regGet x.tag 1).bits = sewBits x ∧ regGet x.tag 4 = regGet x.tag 1 ∧ x.vcfg.getLsbD 6 = true) ∧
    (let x := (vmachine .fp32 2).me
     x.vcfg.getLsbD 6 = false ∧ maxLen x = 2 ^ 8 ∧ (slotTree (fpAdd fp32 .rne 0) (fun i => if i ∈ [0, 1] then some (vel x 1 32 i) else none) 8 0).1.isSome = true) ∧
    (let x := { (vmachine .fp32 2).me with vl := 0 }
     (List.range x.vl.toNat).filter (fun i => (0#1 == 0#1) || (get8 x.m 0).getLsbD i) = []) := by decide +kernel

theorem witness_VectorMoves : (let x := (vmachine .i32 2).me
      (regGet x.tag 1).bits = sewBits x ∧ regGet x.tag 2 = tagOfWidth (sewBits x) ∧ (regGet x.tag 4).bits = sewBits x) ∧
    (tagOfCode 8).bits = 64 ∧ (tagOfCode 0).bits = 0 := by decide +kernel

theorem witness_VectorConvert : (let s := vmachine .i16 2
      (regGet s.me.tag 1).bits ≠ 0 ∧ (tagOfCode 7).bits ≠ 0 ∧ max (regGet s.me.tag 1).bits (tagOfCode 7).bits = sewBits s.me) ∧
    (let s := vmachine .sb8 2; (regGet s.me.tag 1).isSb = true ∧ (tagOfCode 1).isInt = true) ∧ tagOfCode 8 = .fp64 ∧
    ((machine.setPkg 0 Pkg.reset).myPkg).enable.getLsbD 0 = false := by decide +kernel

theorem witness_VectorConvert_expand :
    (let s := vmachine .sb8 2
     let x := s.me
     (regGet x.tag 1).isSb = true ∧ (tagOfCode 7).isFloat = true ∧ (tagOfCode 7).bits = sewBits x ∧
     (regGet x.sup 1).toNat % 2 ^ 32 / 2 ^ 23 % 256 ≠ 255 ∧ headerReason true ((regGet x.hdr 1).toNat % 2 ^ 16) = none) ∧
    headerReason true 0x100 = some 0 ∧ headerReason true 0x201 = some 1 ∧ headerReason false 0x301 = some 0 ∧ headerReason false 0x300 = some 1 ∧
    headerReason false 0x8000 = some 2 ∧ headerReason false 0x00FF = none ∧ 0x7F800000 / 2 ^ 23 % 256 = 255 := by decide +kernel

theorem witness_MaskInstructions : (let x := { task with m := set8 task.m 7 2 }
      (1 < x.vl.toNat ∧ (get8 x.m 7).getLsbD 1 = true ∧ ∀ j, j < 1 → (get8 x.m 7).getLsbD j = false)) ∧
    (∀ j, j < task.vl.toNat → (get8 task.m 7).getLsbD j = false) := by decide +kernel

theorem witness_VectorSort : (let s := vmachine .i32 2
      s.myPkg.enable.getLsbD 9 = true ∧ regGet s.me.tag 1 = tagOfWidth (sewBits s.me) ∧ (regGet s.me.tag 2).bits = sewBits s.me) ∧
    (let x := (vmachine .i32 2).me
     vel x 3 32 0 = 0x40004000 ∧ vel x 3 32 1 = 0) ∧
    ((machine.setPkg 0 Pkg.reset).myPkg).enable.getLsbD 9 = false := by decide +kernel

theorem witness_VectorLength : (let s := machine.setMe { task with ctrl := 3 <<< 41 }
      min (s.currentCeil 0) (s.me.held + groupsLeft s 0) = 8 ∧ s.me.held = 8) ∧
    (let s := machine.setMe { task with held := 4, ctrl := 3 <<< 41 }
     min (s.currentCeil 0) (s.me.held + groupsLeft s 0) = 8 ∧ s.me.held ≠ 8) ∧ machine.currentCeil 0 = 1 := by
  decide +kernel

theorem witness_VectorLength_reclaimed : (let p : Core := { machine.core 0 with preempt := some ⟨0, 0, 7, true, 3⟩ }
      let s := (machine.setMe { task with ctrl := 3 <<< 41, cut := some (2, none), lowered := some 5 }).setCore 0 p
      (s.core 0).preempt = some ⟨0, 0, 7, true, 3⟩ ∧ s.me.mode ≠ .supervisor ∧ s.me.cut = some (2, none) ∧ min 8 2 = 2 ∧
      s.me.held - 2 = 6 ∧ (s.core 0).reservedFor 0 7 = 0) ∧
    (let s := machine.setCore 0 { machine.core 0 with preempt := some ⟨0, 0, 7, true, 0⟩ }
     (s.core 0).preempt = some ⟨0, 0, 7, true, 0⟩) ∧ (machine.core 0).preempt = none := by decide +kernel

/-- The machine at an RPT of three iterations of one word, `vsub v1, v2, v3`, that stands behind it. -/
def repeating (pos : Nat) : State :=
  (holding machine 0x1004 4 0x80221801).setMe { vtask .i32 2 with rptpos := BitVec.ofNat 64 pos }

theorem witness_RepeatFrame : ∃ (u t : State) (w : BitVec 32), repeating (2 ^ 63 + 2 * 16) = repeating (2 ^ 63 + 32) ∧
    (rptIssue (.rpt 2 0 0 0 0 0) 3 1).run (repeating (2 ^ 63 + 32)) = (.ok (), u) ∧
    u.me.rpt[u.me.rptpos.toNat % 16]? = some w ∧ decode (stagger 0 0 0 1 2 w) = .ok (.vsub 1 2 3 0 0) ∧
    (capturedMeaning (.vsub 1 2 3 0 0)).run u = (.ok (), t) ∧ t.me.pc = u.me.pc ∧ u.me.rptpos.toNat / 16 % 2 ^ 10 = 2 ∧
    (repeating 0).me.rpt = [] ∧ ((repeating 0).setPkg 0 Pkg.reset).myPkg.enable.getLsbD 10 = false := by
  let u := (repeating (2 ^ 63 + 32)).setMe { (repeating (2 ^ 63 + 32)).me with rpt := [0x80221801] }
  let t := ((capturedMeaning (.vsub 1 2 3 0 0)).run u).2
  exact ⟨u, t, 0x80221801, rfl, ran (by decide +kernel) (by decide +kernel), by decide +kernel, by decide +kernel,
    ran (by decide +kernel) rfl, by decide +kernel, by decide +kernel, by decide +kernel, by decide +kernel⟩

theorem witness_RepeatFrame_trap : ∃ (t : State) (i : Word) (f : FaultInfo),
    (capturedMeaning (.vsub 1 2 3 0 0)).run (vmachine .i8 2) = (.error (.trap 0x081 i f), t) :=
  ⟨vmachine .i8 2, 0x1182, noInfo, ran (by decide +kernel) (by decide +kernel)⟩

/-- The machine of the vector memory witnesses: 32-bit elements at base s[2] = 0x800, indices 0 and 1 in v5. -/
def gathers (enc : BitVec 10) : State :=
  machine.setMe { vtask .fp32 2 with
    s := regSet task.s 2 0x800, mfmt := enc, tag := regSet (vtask .fp32 2).tag 5 .i32, v := regSet (vtask .fp32 2).v 5 0x0000000100000000 }

theorem witness_VectorLoads : ∃ s : State, (encOf s.me).isSb = false ∧ loadTag (encOf s.me) (slice s.me.vcfg 0 2) = some .fp32 ∧
    inWindow (s.me.reg 2).toNat = false ∧ regGet s.me.tag 5 = tagOfWidth (8 * 2 ^ (2#2 : BitVec 2).toNat) ∧
    (∀ k, Runs s.me 0 0 k → (0x800 + k * 4) % 2 ^ 64 % 4 = 0 ∧ (0x800 + k * 4) % 2 ^ 64 < 2 ^ 55) ∧
    ∀ k, Batch s.me 0 0 k → Mapped (s.drain s.cur) s.who .read ((0x800 + k * 4) % 2 ^ 64) 4 (0x800 + k * 4) :=
  ⟨gathers 7, by decide +kernel, by decide +kernel, by decide +kernel, by decide +kernel,
    fun _ h => of_two (P := fun k => (0x800 + k * 4) % 2 ^ 64 % 4 = 0 ∧ (0x800 + k * 4) % 2 ^ 64 < 2 ^ 55) (runs_below h)
      (by decide) (by decide),
    fun _ h => of_two (P := fun k => Mapped _ _ .read ((0x800 + k * 4) % 2 ^ 64) 4 (0x800 + k * 4)) (runs_below h.1)
      (mapped_iff.mpr (by decide +kernel)) (mapped_iff.mpr (by decide +kernel))⟩

/-- Two 32-bit elements of which the second lies behind the last page that is mapped. -/
def edge (base : Word) : State := (gathers 7).setMe { (gathers 7).me with s := regSet (gathers 7).me.s 2 base }

/-- How the second element of `edge` fails. -/
def missing : Nat × Stop := (0x20000000, .trap 0x101 0x20000000 (atAddr 0x20000000 0))

theorem witness_VectorLoads_fault : ∃ (o : Nat → Except (Nat × Stop) (List Loc)) (at_ : Nat → State) (u : State),
    let s := edge 0x1FFFFFFC
    let unit (k : Nat) := (0x1FFFFFFC + k * 4) % 2 ^ 64
    (encOf s.me).isSb = false ∧ loadTag (encOf s.me) (slice s.me.vcfg 0 2) = some .fp32 ∧ batchList s.me 0 0 0 = [0, 1] ∧
    (∀ k, k < 2 → unit k % 4 = 0 ∧ unit k < 2 ^ 55) ∧ s.pins = [] ∧
    PassOver s.who .read (fun k => [(unit k, 4)]) (fun _ _ v => v) o at_ u (s.drain s.cur) [0, 1] ∧
    failures [0, 1] o = [(1, 0x20000000, 0x101, 0x20000000, atAddr 0x20000000 0)] := by
  let s := edge 0x1FFFFFFC
  let unit (k : Nat) := (0x1FFFFFFC + k * 4) % 2 ^ 64
  let r0 := (elementPlaces s.who .read [(unit 0, 4)]).run (s.drain s.cur)
  let r1 := (elementPlaces s.who .read [(unit 1, 4)]).run r0.2
  refine ⟨fun k => if k = 0 then .ok (places 0x1FFFFFFC 4) else .error missing, fun k => if k = 0 then r0.2 else r1.2, r1.2,
    by decide +kernel, by decide +kernel, by decide +kernel, fun k h => of_two (P := fun k => (0x1FFFFFFC + k * 4) % 2 ^ 64 % 4 = 0 ∧
      (0x1FFFFFFC + k * 4) % 2 ^ 64 < 2 ^ 55) h (by decide) (by decide), by decide +kernel, ?_, by decide +kernel⟩
  simp only [PassOver]
  exact ⟨ran (by decide +kernel) (by simp; rfl), ran (by decide +kernel) (by simp; rfl), by decide, by simp⟩

theorem witness_VectorLoads_first : ∃ u v : State, let s := edge 0x1FFFFFFC
    let t := edge 0x20000000
    (elementPlaces s.who .read [(0x20000000, 4)]).run (s.drain s.cur) = (.ok (.error missing), u) ∧
    (elementPlaces t.who .read [(0x20000000, 4)]).run (t.drain t.cur) = (.ok (.error missing), v) ∧ s.me.vl = 2 :=
  ⟨_, _, ranState (by decide +kernel), ranState (by decide +kernel), by decide +kernel⟩

/-- Two 32-bit elements at the start of the resident page of the window. -/
def inside : State := resident.setMe { vtask .fp32 2 with s := resident.me.s, sptroot := 0x400000, mfmt := 7 }

theorem witness_VectorLoads_window : ∃ u v : State, inWindow (inside.me.reg 2).toNat = true ∧ inside.myPkg.enable.getLsbD 3 = true ∧ inside.pins = [] ∧
    (elementPlaces inside.who .read [(0xFF00000000000000, 4)]).run (inside.drain 0) = (.ok (.ok ((List.range 4).map (.frame 0 0 ·))), u) ∧
    (elementPlaces inside.who .write [(0xFF00000000000FFC, 4)]).run inside = (.ok (.ok ((List.range 4).map fun k => .frame 0 0 (4092 + k))), v) :=
  ⟨_, _, by decide +kernel, by decide +kernel, by decide +kernel, ranState (by decide +kernel), ranState (by decide +kernel)⟩

/-- One SB8 superblock at 0x800, its side entry, of which the header of block 0 is `h`, at 0x1000. -/
def packing (h : Nat) (vcfg : BitVec 7) : State :=
  holding (machine.setMe { vtask .sb8 vcfg with s := regSet (regSet task.s 2 0x800) 3 0x1000, mfmt := 0x00A, vl := 128 }) 0x1000 16 (h * 2 ^ 32)

/-- Its accesses. -/
def superblock : SuperAccess := { payload := 0x800, side := 0x1000, usesPayload := true, usesSide := true, elems := 128, block := 32, bits := 8 }

theorem witness_VectorLoads_super : ∀ p ∈ [(0xFF, (0 : BitVec 7)), (0xFF, 2)], ∃ u : State,
    let s := packing p.1 p.2
    (encOf s.me).isSb = true ∧ s.myPkg.enable.getLsbD 2 = true ∧ (sewBits s.me = 8 ∨ sewBits s.me = 32) ∧ s.me.vl.toNat % 128 = 0 ∧
    s.me.mfmt.toNat / 2 ^ 8 % 4 = 0 ∧ 0x800 % 128 = 0 ∧ 0x1000 % 16 = 0 ∧ ((batchList s.me 0 0 0).map (· / 128)).dedup = [0] ∧ s.pins = [] ∧
    superblock.accs (batchList s.me 0 0 0) 0 = [(0x800, 128), (0x1000, 16)] ∧
    (elementPlaces s.who .read [(0x800, 128), (0x1000, 16)]).run (s.drain s.cur) = (.ok (.ok (places 0x800 128 ++ places 0x1000 16)), u) ∧
    (∀ q, q < 4 → sideReason true (0xFF * 2 ^ 32) [0, 1, 2, 3] q = none) ∧ sideReason true (2 ^ 32) [0, 1, 2, 3] 0 = some 0 := by
  intro p h
  have : p = (0xFF, 0) ∨ p = (0xFF, 2) := by simpa using h
  obtain rfl | rfl := this
  all_goals exact ⟨_, by decide +kernel, by decide +kernel, by decide +kernel, by decide +kernel, by decide +kernel, by decide +kernel,
    by decide +kernel, by decide +kernel, by decide +kernel, by decide +kernel, ranState (by decide +kernel), by decide +kernel, by decide +kernel⟩

theorem witness_VectorStores : ∃ (s : State) (els : List Nat), storeAccepts (encOf s.me) 32 (regGet s.me.tag 1) = true ∧
    s.me.packedTag 1 = none ∧ s.me.quota = none ∧ (encOf s.me).isSb = false ∧ inWindow (s.me.reg 2).toNat = false ∧ Lists els (Batch s.me 0 0) ∧
    (∀ k, Runs s.me 0 0 k → (0x800 + k * 4) % 2 ^ 64 % 4 = 0 ∧ (0x800 + k * 4) % 2 ^ 64 < 2 ^ 55) ∧
    ∀ k, Batch s.me 0 0 k → Mapped s s.who .write ((0x800 + k * 4) % 2 ^ 64) 4 (0x800 + k * 4) := by
  have in_batch : ∀ k, k < 2 → Batch (gathers 7).me 0 0 k := fun k h =>
    ⟨⟨Nat.zero_le k, ⟨h, Or.inl rfl⟩⟩, Or.inl rfl⟩
  refine ⟨gathers 7, [0, 1], by decide +kernel, by decide +kernel, by decide +kernel, by decide +kernel, by decide +kernel, ⟨by decide, fun k =>
    ⟨fun h => in_batch k (by have := List.mem_pair.mp h; omega), fun h => List.mem_pair.mpr ?_⟩⟩, ?_, ?_⟩
  · exact of_two (P := fun k => k = 0 ∨ k = 1) (runs_below h.1) (Or.inl rfl) (Or.inr rfl)
  · exact fun _ h => of_two (P := fun k => (0x800 + k * 4) % 2 ^ 64 % 4 = 0 ∧ (0x800 + k * 4) % 2 ^ 64 < 2 ^ 55) (runs_below h)
      (by decide) (by decide)
  · exact fun _ h => of_two (P := fun k => Mapped _ _ .write ((0x800 + k * 4) % 2 ^ 64) 4 (0x800 + k * 4)) (runs_below h.1)
      (mapped_iff.mpr (by decide +kernel)) (mapped_iff.mpr (by decide +kernel))

theorem witness_VectorStores_fault : ∃ u : State, let s := edge 0x1FFFFFFC
    StoreTag (encOf s.me) 32 (regGet s.me.tag 1) ∧ batchList s.me 0 0 0 = [0, 1] ∧
    (elementPlaces s.who .write [(0x20000000, 4)]).run (withStore s (queued s.me (cells 0x1FFFFFFC 4 7) false)) = (.ok (.error missing), u) ∧
    pageWord 1 (1, 0x20000000, 0x101, 0x20000000, atAddr 0x20000000 0) = 0x20000501 := by
  simp only [StoreTag]
  exact ⟨_, by decide +kernel, by decide +kernel, ranState (by decide +kernel), by decide +kernel⟩

theorem witness_VectorStores_super : ∃ u : State, let s := packing 0xFF 0
    (regGet s.me.tag 1).isSb = true ∧ encOf s.me = regGet s.me.tag 1 ∧ sewBits s.me = 8 ∧ s.me.vl.toNat % 128 = 0 ∧
    (elementPlaces s.who .write (superblock.accs (batchList s.me 0 0 0) 0)).run s = (.ok (.ok (places 0x800 128 ++ places 0x1000 16)), u) :=
  ⟨_, by decide +kernel, by decide +kernel, by decide +kernel, by decide +kernel, ranState (by decide +kernel)⟩

/-- 256 elements of zero to quantise as one SB4 superblock, payload at 0x800, side entry at 0x1000. -/
def quantising : State :=
  machine.setMe { vtask .fp32 2 with s := regSet (regSet task.s 2 0x800) 3 0x1000, mfmt := 0x029, vl := 256 }

theorem witness_VectorStores_quantise : ∃ (s : State) (c : Nat × Nat), s.myPkg.enable.getLsbD 2 = true ∧ (encOf s.me).isSb = true ∧
    s.me.mfmt.toNat / 2 ^ 8 % 4 = 0 ∧ (3#5 : BitVec 5) ≠ 0 ∧ (List.range 3).filter (fun k => s.me.mfmt.getLsbD (5 + k)) = [0] ∧
    encOf s.me = .sb4 ∧ regGet s.me.tag 1 = .fp32 ∧ sewBits s.me = 32 ∧ (s.me.reg 2).toNat % 128 = 0 ∧ (s.me.reg 3).toNat % 16 = 0 ∧
    (s.me.vl.toNat + 256 - 1) / 256 = 1 ∧
    quantSuper false [0] ((List.range 256).map (s.me.quantSource 4 fp32 0 0 ∘ (0 * 256 + ·))) = .ok c ∧
    Mapped s s.who .write 0x800 64 0x800 ∧ Mapped s s.who .write 0x840 64 0x840 ∧
    Mapped s s.who .write 0x1000 16 0x1000 := by
  simp only [mapped_iff]
  exact ⟨quantising, (quantSuper false [0] ((List.range 256).map (quantising.me.quantSource 4 fp32 0 0 ∘ (0 * 256 + ·)))).toOption.getD (0, 0),
    by decide +kernel⟩

/-- A cached translation serves whatever memory holds. -/
theorem mapped_mem {s : State} {who : Who} {kind : Access} {va n pa : Nat} {t : TlbEntry} (mem : List Host.Cell)
    (c : cached s who va = some t) (a : leafAllows t.leaf.toNat kind who.mode = true) (h : Mapped s who kind va n pa) :
    Mapped { s with mem := mem } who kind va n pa := by
  obtain ⟨h1, h2, h3, ⟨-, b, hb, hp⟩, h5⟩ := h
  have c' : cached { s with mem := mem } who va = some t := c
  refine ⟨h1, h2, h3, ⟨?_, b, ?_, (physical_congr (s := { s with mem := mem }) (t := s) rfl _ _).trans hp⟩, h5⟩
  · unfold cacheFails
    rw [c']
    simp [a]
  · unfold Machine.translate at *
    rw [c']
    rw [c] at hb
    simp only [a, if_true] at *
    exact hb

theorem witness_VectorAtomics : ∃ s : State, let x := s.me
    (x.quota = none ∧ x.adone = 0 ∧ s.drain s.cur = s ∧ sewBits x = 32 ∧ regGet x.tag 5 = tagOfWidth 32 ∧ (x.reg 2).toNat % 4 = 0 ∧ inWindow (x.reg 2).toNat = false ∧
    regGet x.tag 6 = .i32 ∧ regGet x.tag 7 = .i32 ∧ regGet x.tag 1 = .fp32 ∧ vel x 5 32 0 = 0 ∧ vel x 5 32 1 = 1) ∧
    (∀ k, Runs x 0 0 k → (0x800 + k * 4) % 2 ^ 64 < 2 ^ 55) ∧
    (∀ k mem, k < 2 → Mapped { s with mem := mem } s.who .atomic ((0x800 + k * 4) % 2 ^ 64) 4 (0x800 + k * 4)) ∧
    (∀ k l, k < 2 → l < 2 → k ≠ l → 0x800 + k * 4 + 4 ≤ 0x800 + l * 4 ∨ 0x800 + l * 4 + 4 ≤ 0x800 + k * 4) := by
  let x := { (gathers 0).me with tag := regSet (regSet (gathers 0).me.tag 6 .i32) 7 .i32 }
  refine ⟨machine.setMe x, by decide +kernel, ?_, ?_, fun k l _ _ _ => by omega⟩
  · exact fun _ h => of_two (P := fun k => (0x800 + k * 4) % 2 ^ 64 < 2 ^ 55) (runs_below h) (by decide) (by decide)
  · intro k mem h
    refine of_two (P := fun k => Mapped { machine.setMe x with mem := mem } _ .atomic ((0x800 + k * 4) % 2 ^ 64) 4 (0x800 + k * 4)) h ?_ ?_
    · exact mapped_mem (t := mapOf .core 0) mem (by decide +kernel) (by decide +kernel) (mapped_iff.mpr (by decide +kernel))
    · exact mapped_mem (t := mapOf .core 0) mem (by decide +kernel) (by decide +kernel) (mapped_iff.mpr (by decide +kernel))

/-- Two addresses to wait for, in v5, with 64-bit elements. -/
def waiting (x : Word) : State :=
  machine.setMe { vtask .i64 3 with
    s := regSet task.s 2 x, tag := regSet (vtask .i64 3).tag 5 .i64, v := regSet (vtask .i64 3).v 5 (0x800 + 0x808 * 2 ^ 64) }

theorem witness_VectorAtomics_wait : ∃ s : State, let x := s.me
    sewBits x = 64 ∧ regGet x.tag 1 = .i64 ∧ regGet x.tag 5 = .i64 ∧
    (∀ k, Runs x 0 0 k → vel x 5 64 k % 8 = 0 ∧ vel x 5 64 k < 2 ^ 55) ∧
    (∀ k, Runs x 0 0 k → Mapped (s.drain s.cur) s.who .read (vel x 5 64 k) 8 (0x800 + 8 * k)) ∧
    physNat s 0x800 8 ≠ vel x 1 64 0 ∧ x.reg 2 = -1 ∧ (waiting 0).me.reg 2 ≠ -1 ∧ ((waiting 0).me.reg 2).toNat ≤ x.waited.getD 0 := by
  have two : (waiting (-1)).me.vl.toNat = 2 := by decide +kernel
  refine ⟨waiting (-1), by decide +kernel, by decide +kernel, by decide +kernel, ?_, ?_, by decide +kernel, by decide +kernel,
    by decide +kernel, by decide +kernel⟩
  · exact fun _ h => of_two (P := fun k => vel (waiting (-1)).me 5 64 k % 8 = 0 ∧ vel (waiting (-1)).me 5 64 k < 2 ^ 55)
      (two ▸ runs_below h) (by decide +kernel) (by decide +kernel)
  · exact fun _ h => of_two (P := fun k => Mapped ((waiting (-1)).drain (waiting (-1)).cur) (waiting (-1)).who .read
      (vel (waiting (-1)).me 5 64 k) 8 (0x800 + 8 * k)) (two ▸ runs_below h)
      (mapped_iff.mpr (by decide +kernel)) (mapped_iff.mpr (by decide +kernel))

/-- Context 0 holds its core's matrix unit with a shape of 1 by 1 by 64 elements and a filled buffer. -/
def multiplying : State :=
  let u := { Core.reset.mu with
    holder := some 0, shape := ⟨1, 1, 64, 1⟩, tiles := set8 Core.reset.mu.tiles 7 ⟨.fp32, 0⟩
    bufs := Vector.replicate 2 ⟨.bf16, 0, 0, 64, 1⟩ }
  (withRegs [(2, 0x800), (3, 0x900)]).setCore 0 { Core.reset with mu := u }

theorem witness_MatrixUnit_shape : machine.myPkg.enable.getLsbD 1 = true ∧ machine.myPkg.enable.getLsbD 2 = true ∧
    (machine.core 0).mu.holder = none ∧ (multiplying.setCore 0 { multiplying.core 0 with mu := { (multiplying.core 0).mu with holder := some 1 } }).core 0 ≠
      multiplying.core 0 ∧ (0xFFFF07FF : Word).toNat / 2 ^ 32 = 0 ∧ (0xFFFF07FF : Word).toNat / 2 ^ 11 % 32 = 0 ∧
    (0x800 : Word).toNat / 2 ^ 11 % 32 ≠ 0 ∧ ((machine.setPkg 0 Pkg.reset).myPkg).enable.getLsbD 1 = false := by decide +kernel

theorem witness_MatrixUnit_lines : ((multiplying.core 0).mu.holder = some multiplying.cur ∧
    (multiplying.core 0).mu.shape.fmt = 1#3 ∧ (matTag 1).isSb = false ∧
    (multiplying.me.reg 2).toNat % ((matTag 1).bits / 8) = 0 ∧ (multiplying.me.reg 3).toNat % ((matTag 1).bits / 8) = 0 ∧
    bufferAccepts (matTag 1) ((multiplying.core 0).mu.buf 0).tag = true ∧ (get8 (multiplying.core 0).mu.tiles 7).tag = .fp32 ∧
    (multiplying.core 0).mu.shape.k = ((multiplying.core 0).mu.buf 0).k ∧ (multiplying.core 0).mu.shape.n = ((multiplying.core 0).mu.buf 0).n) ∧
    (readLines { multiplying.who with path := .m } (matTag 1) 64 1 (multiplying.me.reg 2) (multiplying.me.reg 3) (multiplying.me.reg 0)).run
      multiplying = (.ok [{ payload := 0, sides := [] }], multiplying) :=
  ⟨by decide +kernel, ran (by decide +kernel) (by decide +kernel)⟩

theorem witness_MatrixUnit_move : (withRegs [(2, 63)]).me.reg 2 = 63 ∧ sewBits task = 32 ∧
    regGet (vtask .fp32 2).tag 4 = .fp32 ∧ (get8 (multiplying.core 0).mu.tiles 7).tag = .fp32 ∧
    (multiplying.me.reg 2).toNat % 4 = 0 ∧ (multiplying.me.reg 3).toNat % 4 = 0 := by decide +kernel

theorem witness_MatrixUnit_store : ∀ e, e < 1 * 1 → Mapped multiplying multiplying.who .write
    (((multiplying.me.reg 2).toNat + e / 1 * (multiplying.me.reg 3).toNat + 4 * (e % 1)) % 2 ^ 64) 4 0x800 := by
  intro e h
  have : e = 0 := by omega
  subst this
  simp only [mapped_iff]
  decide +kernel

/-- The unit of `multiplying` with an SB8 shape, one row of 32 elements at 0x800 and its side entry at 0x1000. -/
def superMultiplying : State :=
  (withRegs [(2, 0x800), (3, 0x80), (4, 0x1000)]).setCore 0 { multiplying.core 0 with
    mu := { (multiplying.core 0).mu with shape := ⟨1, 1, 32, 4⟩, bufs := Vector.replicate 2 ⟨.sb8, 0, 0, 32, 1⟩ } }

theorem witness_MatrixUnit_super : ((matTag 4).isSb = true ∧ (4#5 : BitVec 5) ≠ 0 ∧ (superMultiplying.me.reg 2).toNat % 128 = 0 ∧
      (superMultiplying.me.reg 3).toNat % 128 = 0 ∧ (superMultiplying.me.reg 4).toNat % 16 = 0 ∧
      bufferAccepts (matTag 4) ((superMultiplying.core 0).mu.buf 0).tag = true ∧ (superMultiplying.core 0).mu.shape.fmt = 4#3) ∧
    (readLines { superMultiplying.who with path := .m } (matTag 4) 32 1 (superMultiplying.me.reg 2) (superMultiplying.me.reg 3)
      (superMultiplying.me.reg 4)).run superMultiplying = (.ok [⟨0, [0]⟩], superMultiplying) ∧
    LineGood .sb8 ⟨0, [0]⟩ 32 ∧ LineGood .bf16 ⟨0, []⟩ 32 ∧ (¬LineGood .sb8 ⟨0, [2 ^ 32]⟩ 32) ∧ (0x3F800000 : Nat) < 2 ^ 32 := by
  unfold LineGood
  exact ⟨by decide +kernel, ran (by decide +kernel) (by decide +kernel), by decide +kernel, by decide +kernel, by decide +kernel, by decide⟩

/-! Streams. -/

/-- Two streams of one record each, keys 5 at 0x800 and 9 at 0x900, and a destination at 0xA00. -/
def streams (d a b : Nat) : State :=
  holding (holding ((withRegs [(2, 0xA00), (3, BitVec.ofNat 64 d), (4, 0x800), (5, BitVec.ofNat 64 a), (6, 0x900), (7, BitVec.ofNat 64 b)]))
    0x800 8 5) 0x900 8 9

theorem witness_StreamInstructions : ∃ s : State, s.myPkg.enable.getLsbD 7 = true ∧
    (∀ r ∈ ([2, 4, 6] : List (BitVec 5)), (s.me.reg (r + 1)).toNat / 2 ^ 36 = 0 ∧ (s.me.reg (r + 1)).toNat / 2 ^ 32 % 16 = 8 ∧
      (s.me.reg (r + 1)).toNat % 2 ^ 32 = 1 ∧ (s.me.reg r).toNat % 8 = 0) ∧
    s.pins = [] ∧ Mapped s s.who .read 0x800 8 0x800 ∧ Mapped s s.who .read 0x900 8 0x900 ∧ physNat s 0x800 8 = 5 ∧ physNat s 0x900 8 = 9 ∧
    (Instr.sisect 1 4 6).wellFormed = true ∧ (Instr.smerge 2 4 6).wellFormed = true := by
  simp only [mapped_iff]
  exact ⟨streams (1 + 8 * 2 ^ 32) (1 + 8 * 2 ^ 32) (1 + 8 * 2 ^ 32), by decide +kernel⟩

theorem witness_StreamInstructions_counts : ((streams 0 0 1).me.reg 3).toNat % 2 ^ 32 = 0 ∧ ((streams 1 0 1).me.reg 5).toNat % 2 ^ 32 = 0 ∧
    ((streams (9 * 2 ^ 32) 1 1).me.reg 3).toNat / 2 ^ 32 % 16 = 9 ∧ ((streams (2 ^ 36) 1 1).me.reg 3).toNat / 2 ^ 36 = 1 ∧
    ((machine.setPkg 0 Pkg.reset).myPkg).enable.getLsbD 7 = false := by decide +kernel

theorem witness_StreamInstructions_copy : MappedAll (streams 1 1 1) (streams 1 1 1).who .read 0x800 8 (fun k => 0x800 + k) ∧
    MappedAll (streams 1 1 1) (streams 1 1 1).who .write 0xA00 8 (fun k => 0xA00 + k) := by
  constructor <;> · unfold MappedAll; simp only [mapped_iff]; decide +kernel

theorem witness_StreamInstructions_goes : (let s := (streams 1 1 1).setMe { (streams 1 1 1).me with looping := true }
      s.me.looping = true ∧ (s.setPkg 0 Pkg.reset).myPkg.enable.getLsbD 7 = false) ∧ (streams 1 1 1).me.looping = false ∧
    (streams 1 1 1).pins = [] := by decide +kernel

/-! The exchange: a group of two destinations and one sender, its descriptor at 0x800000. -/

/-- Words as one number, the first lowest. -/
def packed (l : List Nat) : Nat := l.foldr (fun w n => w + 2 ^ 64 * n) 0

/-- Word 0 of the descriptor: channel 1, DET, PLEN 0, K 0, two destinations, home core 0. -/
def groupWord : Nat := 1 + 2 ^ 4 + 2 * 2 ^ 20

/-- A receive descriptor with a ring of two records. -/
def recvAt (k : Nat) : List Nat := [0, 0x900000 + 0x1000 * k, 2, 0, 0, 0, 0, 0, 0, 0x920000 + 0x100 * k, 0, 0, 0, 0, 0, 0]

/-- The structures of the group in memory. -/
def described (a : Word) : State :=
  let s := machine.setMe { task with s := regSet task.s 2 a, vcfg := 3, tag := regSet task.tag 1 .i64, v := regSet task.v 1 (7 + 8 * 2 ^ 64) }
  holding (holding (holding (holding s 0x800000 72
    (packed [groupWord, 1, 0, 0x810000, 0x850000, 0x850010, 0x850020, 0x850100, 0x850080])) 0x850000 8 (2 ^ 32)) 0x850010 8 0)
    0x850100 256 (packed (recvAt 0 ++ recvAt 1))

/-- The receive descriptor of destination k. -/
def recvOfGroup (k : Nat) : RecvDesc :=
  { owner := 0, index := false, tags := false, buf := BitVec.ofNat 64 (0x900000 + 0x1000 * k), cap := 2, ovf := 0, ocap := 0, lo := 0, hi := 0,
    idx := 0, sync := 0, stat := BitVec.ofNat 64 (0x920000 + 0x100 * k) }

/-- The group that XBIND reads from them. -/
def theGroup : Group :=
  { address := 0x800000, home := 0, d := 2, k := 0, plen := 0, press := 0, auto := false, det := true, ns := 1, round0 := 0, dver0 := 0,
    deckle := 0x810000, dests := [0, 1], senders := [0], status := 0x850020, recv := [recvOfGroup 0, recvOfGroup 1], gstat := 0x850080 }

/-- The channel as the first XBIND sets it up. -/
def opened : Channel := Channel.open' theGroup [0] []

theorem witness_ExchangeInstructions_bind : ∃ u : State, (described 0x800000).myPkg.enable.getLsbD 4 = true ∧
    (described 0x800000).me.reg 2 = 0x800000 ∧ (readGroup 1 0x800000 true).run (described 0x800000) = (.ok theGroup, described 0x800000) ∧
    (described 0x800000).myPkg.enable.getLsbD 5 = true ∧ (described 0x800000).ctxNumber (described 0x800000).cur = 0 ∧
    theGroup.senders[0]? = some 0 ∧ (described 0x800000).routes theGroup = [] ∧ senderCores (described 0x800000) theGroup = [0] ∧
    get16 (described 0x800000).me.chans 1 = none ∧ ((described 0x800000).chan 1).state = .free ∧ 0 < theGroup.senders.length ∧
    (writeTogether (described 0x800000).xWho ((theGroup.status.toNat + 16 * 0, leBytes 16 (theGroup.round0.toNat * 2 ^ 32)) ::
      (theGroup.gstat.toNat, groupBytes opened) ::
      theGroup.recv.map fun r => (r.stat.toNat, leBytes 128 (theGroup.round0.toNat * 2 ^ 32)))).run (described 0x800000) = (.ok (), u) := by
  obtain ⟨u, hu⟩ := ranTo (m := writeTogether (described 0x800000).xWho
    ((theGroup.status.toNat + 16 * 0, leBytes 16 (theGroup.round0.toNat * 2 ^ 32)) :: (theGroup.gstat.toNat, groupBytes opened) ::
      theGroup.recv.map fun r => (r.stat.toNat, leBytes 128 (theGroup.round0.toNat * 2 ^ 32)))) (s := described 0x800000) (r := .ok ())
    (by decide +kernel)
  exact ⟨u, by decide +kernel, by decide +kernel, ran (by decide +kernel) (by decide +kernel), by decide +kernel, by decide +kernel,
    by decide +kernel, by decide +kernel, by decide +kernel, by decide +kernel, by decide +kernel, by decide +kernel, hu⟩

/-- The sender slot of the group, held by the task, with a queue and a table. -/
def slotOf (q : List SendOp) (t : Option (List Word)) : Slot :=
  { holder := some 0, core := 0, pkg := 0, round := 0, sent := 0, lastKey := none, floor := Floor.least, queue := q, table := t,
    cancelled := 0, fcause := 0, stall := [] }

/-- The channel with that slot. -/
def bound (y : Slot) : Channel := { opened with slots := [y] }

/-- An operation that the task has issued from core 0. -/
def sendOf (k : SendKind) : SendOp := { kind := k, issue := 0, core := 0, tid := 0, ahead := [] }

/-- The machine with the slot bound to channel 1. -/
def exchanging (a : Word) (c : Channel) : State :=
  let s := (described a).setChan 1 c
  s.setMe { s.me with chans := set16 s.me.chans 1 (some (0, 0x800000)) }

/-- R185, R218: FENCE on O and X waits for the entry of an XEND at the head, not of one behind records or whose end cannot leave; on an aborted channel for all. -/
theorem witness_Fences_entries :
    let waits (p : BitVec 5) (c : Channel) : Bool := fenceWaits (exchanging 0x800000 c) 0 p
    let end_ := bound (slotOf [sendOf .xend] none)
    let behind := bound (slotOf [{ sendOf (.xsend 0 1 1) with ahead := [(0, 0, 0)] }, sendOf .xend] none)
    waits 0b01001 end_ = true ∧ waits 0b01000 end_ = false ∧ waits 0b01001 behind = false ∧
    waits 0b01001 { behind with state := .aborted } = true ∧
    waits 0b01001 { end_ with points := [⟨0, .leaf 0, .receive, [{ MergeInput.fresh (.slot 0) 0 Floor.least with ended := some 0 }], [], Floor.least, 0⟩] } = false := by
  decide +kernel

theorem witness_ExchangeInstructions_rebind : (exchanging 0x800000 (bound (slotOf [] none))).me.chans ≠ task.chans ∧
    ((exchanging 0x800000 (bound (slotOf [] none))).chan 1).state = .bound ∧ theGroup.address = 0x800000 ∧
    (exchanging 0x800000 (bound (slotOf [] none))).ctxNumber (exchanging 0x800000 (bound (slotOf [] none))).cur ∈ theGroup.senders ∧ 5 ∉ theGroup.senders ∧
    ((exchanging 0x800000 (bound (slotOf [] none))).chan 1).slots[0]? = some (slotOf [] none) ∧
    (let s := (described 0x800000).setChan 1 (bound { slotOf [] none with holder := none })
     get16 s.me.chans 1 = none ∧ (s.chan 1).group = some theGroup ∧ (s.chan 1).state = .bound ∧
     (s.chan 1).slots[0]? = some { slotOf [] none with holder := none } ∧
     Mapped s s.xWho .write (theGroup.status.toNat + 16 * 0) 16 0x850020) ∧
    (let s := exchanging 0 (bound (slotOf [] none))
     s.me.reg 2 = 0 ∧ get16 s.me.chans 1 = some (0, 0x800000)) := by
  simp only [mapped_iff]
  decide +kernel

theorem witness_ExchangeInstructions_send : (exchanging 0x1008 (bound (slotOf [] none))).me.reg 2 = 0x1008 ∧
    (0x1008 : Word).toNat % 8 = 0 ∧ (0x1008 : Word).toNat % 16 ≠ 0 ∧ (2 ^ 32 - 1 : Word).toNat < 2 ^ 32 ∧
    TableReady (bound (slotOf [] none)) (slotOf [] none) ∧
    ¬TableReady (bound { slotOf [] none with round := 1 }) { slotOf [] none with round := 1 } ∧ (slotOf [] none).queue.length < 4 ∧
    4 ≤ (slotOf (List.replicate 4 (sendOf .xend)) none).queue.length := by
  unfold TableReady
  decide +kernel

/-- The slot with the first record's table. -/
def ready1 : Slot := slotOf [] (some [0xFFFFFFFFFFFFFFFF])

theorem witness_ExchangeInstructions_vector : (let s := exchanging 0 (bound (slotOf [] none))
      sewBits s.me = 64 ∧ (31#5 : BitVec 5).toNat + 4 * theGroup.plen ≤ 32 ∧ regGet s.me.tag 1 = .i64 ∧ s.me.vstart.toNat < s.me.vl.toNat ∧
      vel s.me 1 64 0 = 7 ∧ vel s.me 1 64 1 = 8 ∧ (bound (slotOf [] none)).group = some theGroup) ∧
    ((bound (slotOf [] none)).placed theGroup 0 0).slots[0]? = some (slotOf [] none) ∧
    (slotTable (exchanging 0 (bound (slotOf [] none))).xWho (bound (slotOf [] none)) theGroup (slotOf [] none)).run
      (exchanging 0 (bound (slotOf [] none))) = (.ok [0], exchanging 0 (bound (slotOf [] none))) ∧
    ((bound (slotOf [] none)).handOver theGroup 0 (slotOf [] none) [0] 7 0).isSome = true :=
  ⟨by decide +kernel, by decide +kernel, ran (by decide +kernel) (by decide +kernel), by decide +kernel⟩

/-- The channel with version 1 proposed. -/
def proposed : Channel := { bound (slotOf [] none) with pver := 1, tstate := true }

/-- The table buffer at 0x1000, for version 1 with the splitter 7. -/
def splitting : State := holding (exchanging 0x1000 proposed) 0x1000 16 (packed [1, 7])

theorem witness_ExchangeInstructions_split : ∃ u z : State, (splitting.me.reg 2).toNat % 8 = 0 ∧ fenceWaits splitting 0 0b01001#5 = false ∧ (slotOf [] none).queue = [] ∧
    proposed.tstate = true ∧ (splitting.settleStores splitting.cur).drain splitting.cur = splitting ∧
    (readVa splitting.xWho (0x810000 + 0x20000) 16).run splitting = (.ok 0, splitting) ∧
    (readVa splitting.xWho 0x1000 8).run splitting = (.ok 1, splitting) ∧
    (readVa splitting.xWho 0x1008 8).run splitting = (.ok (leNat ([7].flatMap (leBytes 8))), splitting) ∧
    (writeBytes splitting.xWho (0x810000 + 0x20000 + 8) ([7].flatMap (leBytes 8))).run splitting = (.ok (), u) ∧
    (writeBytes splitting.xWho theGroup.gstat.toNat (groupBytes { proposed with dver := 1, dround := 1, tstate := false })).run u =
      (.ok (), z) ∧ theGroup.d = 2 ∧ theGroup.deckle = 0x810000 := by
  let u := ((writeBytes splitting.xWho (0x810000 + 0x20000 + 8) ([7].flatMap (leBytes 8))).run splitting).2
  obtain ⟨z, hz⟩ := ranTo (m := writeBytes splitting.xWho theGroup.gstat.toNat
    (groupBytes { proposed with dver := 1, dround := 1, tstate := false })) (s := u) (r := .ok ()) (by decide +kernel)
  exact ⟨u, z, by decide +kernel, by decide +kernel, by decide +kernel, by decide +kernel, by decide +kernel,
    ran (by decide +kernel) (by decide +kernel), ran (by decide +kernel) (by decide +kernel), ran (by decide +kernel) (by decide +kernel), ranState (by decide +kernel), hz,
    by decide +kernel, by decide +kernel⟩

theorem witness_ExchangeInstructions_split_places : ∃ u : State,
    (locateBytes splitting.xWho .write (0x810000 + 0x20000 + 8) 8).run splitting = (.ok (places 0x830008 8), splitting) ∧
    (locateBytes splitting.xWho .write theGroup.gstat.toNat 64).run splitting = (.ok (places 0x850080 64), splitting) ∧
    (locateBytes splitting.xWho .write 0x20000000 64).run splitting = (.error (.trap 0x101 0x20000000 (atAddr 0x20000000 0)), u) ∧
    (¬([8, 7] : List Nat).Pairwise (· ≤ ·)) ∧ (0 : Nat) ≠ proposed.pver.toNat ∧
    Outstanding (exchanging 0x1000 (bound (slotOf [sendOf (.xsend 0 1 0)] none))) 0 0b01001#5 ∧ ¬Outstanding splitting 0 0b01001#5 := by
  have h : ∃ e ∈ (exchanging 0x1000 (bound (slotOf [sendOf (.xsend 0 1 0)] none))).chans, ∃ x ∈ (e.2[(1 : Fin 16)]).slots,
      sendOf (.xsend 0 1 0) ∈ x.queue := by decide +kernel
  obtain ⟨e, he, x, hx, ho⟩ := h
  exact ⟨_, ran (by decide +kernel) (by decide +kernel), ran (by decide +kernel) (by decide +kernel), ranState (by decide +kernel),
    by decide, by decide +kernel, .inr (.inr (.inl ⟨rfl, e, he, 1, x, hx, _, ho, by decide +kernel, show 0 < (1 : Word).toNat by decide⟩)),
    nothing_outstanding (by decide +kernel) (by decide +kernel) (by decide +kernel)⟩

/-- An XSEND of two records at 0x1000, keys 3 and 4, as the first operation of the slot. -/
def sending (done : Nat) (l : Option Word) : State :=
  holding (exchanging 0 (bound { slotOf [sendOf (.xsend 0x1000 2 done)] (some [0]) with lastKey := l })) 0x1000 16 (packed [3, 4])

theorem witness_ExchangeEvents_port : (((sending 0 none).chan 1).state = .bound ∧ ((sending 0 none).chan 1).group = some theGroup ∧
    ((sending 0 none).chan 1).slots[0]? = some (slotOf [sendOf (.xsend 0x1000 2 0)] (some [0])) ∧
    ((sending 0 none).pkg 0).off = false ∧ (sending 0 none).whereIs 0 = some 0 ∧
    (((sending 0 none).chan 1).placed theGroup 0 0).slots[0]? = some (slotOf [sendOf (.xsend 0x1000 2 0)] (some [0])) ∧
    Mapped (sending 0 none) (portWho 0 442368 []) .write (theGroup.status.toNat + 16 * 0) 16 0x850020 ∧ 0 < (2 : Word).toNat) ∧
    (readRecord (portWho 0 442368 []) theGroup.plen 0x1000).run (sending 0 none) = (.ok (3, 0), sending 0 none) ∧
    ((sending 0 none).chan 1).handOver theGroup 0 (slotOf [sendOf (.xsend 0x1000 2 0)] (some [0])) [0] 3 0 ≠ none ∧
    (bound (slotOf [sendOf .xend] none)).handEnd theGroup 0 (slotOf [sendOf .xend] none) ≠ none ∧
    (∃ l, (sending 0 (some 4)).chan 1 ≠ (sending 0 none).chan 1 ∧ l = (4 : Word) ∧ (3 : Word).toNat < l.toNat) := by
  simp only [mapped_iff]
  exact ⟨by decide +kernel,
    ran (by decide +kernel) (by decide +kernel), by decide +kernel, by decide +kernel, 4, by decide +kernel⟩

/-- An XSEND of one record behind the last page that is mapped. -/
def unreadable : State := exchanging 0 (bound { slotOf [sendOf (.xsend 0x20000000 1 0)] (some [0]) with lastKey := none })

theorem witness_ExchangeEvents_cancels :
    (readRecord (portWho 0 442368 []) theGroup.plen 0x20000000).run unreadable = (.error (.trap 0x101 0x20000000 (atAddr 0x20000000 0)), unreadable) ∧
    unreadable.whereIs 0 = some 0 ∧ (unreadable.ctx 0).life = .running ∧
    ((unreadable.setPkg 0 { unreadable.pkg 0 with off := true }).pkg 0).off = true ∧
    Mapped unreadable (portWho 0 442368 []) .write (theGroup.status.toNat + 16 * 0) 16 0x850020 := by
  simp only [mapped_iff]
  exact ⟨ran (by decide +kernel) (by decide +kernel), by decide +kernel⟩

/-- A record with key 7 from context 0, the first of its round. -/
def seven : Record := { key := 7, origin := 0, seq := 0, count := 1, payload := 0 }

/-- The leaf of destination 0 with an input and what its press holds. -/
def leafWith (m : MergeInput) (held : List Record) : MergePoint :=
  { dest := 0, node := .leaf 0, next := .package 0, inputs := [m], held := held, sent := .value 0 0 0, round := 0 }

/-- An input from slot 0. -/
def inputOf (h : Option Record) (e : Option Nat) : MergeInput :=
  { source := .slot 0, head := h, floor := .value 7 0 1, ended := e, skip := 0, gone := false }

/-- The channel with that leaf and a press. -/
def merging (m : MergeInput) (held : List Record) (press : BitVec 3) : Channel :=
  let ch := bound (slotOf [] none)
  { ch with group := some { theGroup with press := press }, points := ch.points.set 0 (leafWith m held) }

theorem witness_ExchangeEvents_merge : (merging (inputOf (some seven) none) [] 0).points[0]? = some (leafWith (inputOf (some seven) none) []) ∧
    (∃ o, (merging (inputOf (some seven) none) [] 0).fed (leafWith (inputOf (some seven) none) []) = some o ∧ o.accepts = true ∧
      o.acceptsEnd = true) ∧ (leafWith (inputOf (some seven) none) []).next ≠ (leafWith (inputOf (some seven) none) []).node ∧
    theGroup.det = true ∧ (inputOf (some seven) none).head = some seven ∧ mayCombine 6 theGroup.plen seven seven = true ∧
    (6 : BitVec 3) ≠ 0 ∧ (inputOf none (some 1)).isEnded = true ∧ (inputOf none (some 1)).gone = false := by
  refine ⟨by decide +kernel, ⟨{ inputOf none none with source := .leaf 0, floor := .value 0 0 0 }, by decide +kernel⟩, by decide +kernel, by decide +kernel, by decide +kernel,
    by decide +kernel, by decide +kernel, by decide +kernel, by decide +kernel⟩

/-- The merge point of destination `d` on the link from package 0 to package 1. -/
def linkPoint (d round : Nat) (m : MergeInput) : MergePoint :=
  { dest := d, node := .package 0, next := .package 1, inputs := [m], held := [], sent := .value 0 0 0, round := round }

theorem witness_ExchangeEvents_link : (linkPoint 0 0 (inputOf (some seven) none)).node = .package 0 ∧
    (linkPoint 1 0 (inputOf none none)).dest ≠ (linkPoint 0 0 (inputOf (some seven) none)).dest ∧ (inputOf none none).gone = false ∧
    (orderOf true seven).le ((linkPoint 1 0 (inputOf none none)).mark true) = true ∧
    (orderOf true { seven with key := 8 }).le ((linkPoint 1 0 (inputOf none none)).mark true) = false ∧
    (linkPoint 0 0 (inputOf none (some 1))).round < (linkPoint 1 1 (inputOf none none)).round := by decide +kernel

/-- Destination 0 in its round, with a record or a mark at its input. -/
def receiving (h : Option Record) (e : Option Nat) : Dest :=
  { input := { source := .package 0, head := h, floor := .value 7 0 1, ended := e, skip := 0, gone := false }, round := 0,
    started := true, written := 0, consumed := 0, rstart := 0, nrec := 0, ovfpos := 0, ovfn := 0, keys := [], stage := .receiving,
    stalled := false, retry := false, aborted := false, done := false, finished := 0, report := none, told := false, late := [], stall := [] }

/-- The machine with that destination. -/
def delivering (d : Dest) : State :=
  exchanging 0 { bound (slotOf [] none) with dests := (bound (slotOf [] none)).dests.set 0 d }

/-- Where the port finds the record, WRITTEN and the entry of the round that delivers the first record. -/
def delivered : List Loc := places 0x900000 8 ++ places 0x920000 8 ++ places 0x920040 32

theorem witness_ExchangeEvents_delivery : ∃ u : State, (recvOfGroup 0).stat = 0x920000 ∧ (recvOfGroup 0).buf = 0x900000 ∧
    theGroup.recv[0]? = some (recvOfGroup 0) ∧
    ((delivering (receiving (some seven) none)).chan 1).dests[0]? = some (receiving (some seven) none) ∧
    ((delivering (receiving (some seven) none)).pkg 0).off = false ∧ (receiving (some seven) none).late = [] ∧
    (receiving (some seven) none).report = none ∧
    ((receiving (some seven) none).written - (receiving (some seven) none).consumed).toNat < (recvOfGroup 0).cap ∧
    (do let w ← locateBytes (portWho 0 442368 []) .write 0x900000 8
        let v ← locateBytes (portWho 0 442368 []) .write 0x920000 8
        let z ← locateBytes (portWho 0 442368 []) .write 0x920040 32
        pure (w ++ v ++ z) : M (List Loc)).run (delivering (receiving (some seven) none)) = (.ok delivered, u) :=
  ⟨_, by decide +kernel, by decide +kernel, by decide +kernel, by decide +kernel, by decide +kernel, by decide +kernel, by decide +kernel,
    by decide +kernel, ranState (by decide +kernel)⟩

theorem witness_ExchangeEvents_report : ∃ u : State,
    (let d := { receiving none none with report := some (0x102, 0x910000) }
     d.report = some (0x102, 0x910000) ∧ d.stage = .receiving ∧ d.late = []) ∧
    (do let w ← locateBytes (portWho 0 442368 []) .write 0x920010 8
        let v ← locateBytes (portWho 0 442368 []) .write 0x920058 8
        pure (w ++ v) : M (List Loc)).run (delivering { receiving none none with report := some (0x102, 0x910000) }) =
      (.ok (places 0x920010 8 ++ places 0x920058 8), u) :=
  ⟨_, by decide +kernel, ranState (by decide +kernel)⟩

theorem witness_ExchangeEvents_poll :
    (let d := { receiving none none with started := false, written := 2 }
     (delivering d).chan 1 ≠ machine.chan 1 ∧ (recvOfGroup 0).cap ≤ (d.written - d.consumed).toNat ∧ d.started = false ∧
     Mapped (delivering d) (portWho 0 442368 []) .read ((recvOfGroup 0).stat.toNat + 8) 8 0x920008) ∧
    (let d := { receiving (some seven) none with stalled := true, retry := true }
     d.stalled = true ∧ d.retry = true ∧ d.started = true ∧ d.ovfn = 0) := by
  simp only [mapped_iff]
  decide +kernel

theorem witness_ExchangeEvents_told : ∃ u : State,
    (let d := { receiving none none with written := 2, told := true }
     d.told = true ∧ (recvOfGroup 0).cap ≤ (d.written - d.consumed).toNat ∧
     Mapped (delivering d) (portWho 0 442368 []) .read ((recvOfGroup 0).stat.toNat + 8) 8 0x920008) ∧
    (locateBytes (portWho 0 442368 []) .write 0x920058 8).run (delivering { receiving none none with written := 2, told := true }) =
      (.ok (places 0x920058 8), u) := by
  simp only [mapped_iff]
  exact ⟨_, by decide +kernel, ranState (by decide +kernel)⟩

/-- The end of the round of destination 0 up to its arrival at the object of words `w0` and `w1`. -/
def ending (w0 w1 : Nat) : State :=
  let s := holding (delivering (receiving none (some 1))) (recvOfGroup 0).sync.toNat 16 (packed [w0, w1])
  s.writeLocs ((places 0x920040 32).zip (leBytes 8 0 ++ leBytes 8 0 ++ leBytes 8 0 ++ leBytes 8 1))

theorem witness_ExchangeEvents_round : ∃ (u v w : State), (recvOfGroup 0).index = false ∧ (receiving none (some 1)).input.ended = some 1 ∧
    (∃ t, (locateBytes (portWho 0 442368 []) .write 0x920040 32).run
      (holding (delivering (receiving none (some 1))) (recvOfGroup 0).sync.toNat 16 (packed [2, 2])) = (.ok (places 0x920040 32), t)) ∧
    (arriveSync (portWho 0 442368 []) (recvOfGroup 0)).run (ending 2 2) = (.ok 0, u) ∧
    (arriveSync (portWho 0 442368 []) (recvOfGroup 0)).run (ending 0 0) = (.ok 0x302, v) ∧
    (locateBytes (portWho 0 442368 []) .write 0x920058 8).run v = (.ok (places 0x920058 8), w) := by
  let v := ((arriveSync (portWho 0 442368 []) (recvOfGroup 0)).run (ending 0 0)).2
  exact ⟨_, v, _, by decide +kernel, by decide +kernel, ⟨_, ranState (by decide +kernel)⟩, ranState (by decide +kernel),
    ranState (by decide +kernel), ranState (by decide +kernel)⟩

/-- The sieve of the group once its sender has ended its round and, early, the next one, with two samples. -/
def sieved : Channel := { bound (slotOf [] none) with sieve := ⟨[(9, 1), (5, 0)], 0, [0, 1], 0⟩ }

/-- The channel after its close: version 1 proposed. -/
def closed : Channel := { sieved with nsamp := 2, sieve := ⟨[], 0, [1], 1⟩, pver := 1, tstate := true }

theorem witness_ExchangeEvents_sieve : ∃ u z : State, (sieved.sieve.ends.filter fun r => r == sieved.sieve.round).length = theGroup.ns ∧
    (∀ e ∈ sieved.sieve.samples, e.2 % 2 ^ theGroup.k = 0) ∧ sieved.sieve.samples.length ≤ 65536 ∧
    ([5, 9] : List Word).Perm (sieved.sieve.samples.map (·.1)) ∧
    ([5, 9] : List Word).Pairwise (fun p q => p.toNat ≤ q.toNat) ∧ theGroup.d ≤ ([5, 9] : List Word).length + 1 ∧
    (writeBytes (portWho 0 442368 []) (0x810000 + 0x20000) (leBytes 8 1 ++ leBytes 8 9)).run (exchanging 0 sieved) = (.ok (), u) ∧
    (writeBytes (portWho 0 442368 []) theGroup.gstat.toNat (groupBytes closed)).run u = (.ok (), z) := by
  let u := ((writeBytes (portWho 0 442368 []) (0x810000 + 0x20000) (leBytes 8 1 ++ leBytes 8 9)).run (exchanging 0 sieved)).2
  obtain ⟨z, hz⟩ := ranTo (m := writeBytes (portWho 0 442368 []) theGroup.gstat.toNat (groupBytes closed)) (s := u) (r := .ok ())
    (by decide +kernel)
  exact ⟨u, z, by decide +kernel, by decide +kernel, by decide +kernel, by decide +kernel, by decide +kernel, by decide +kernel,
    ranState (by decide +kernel), hz⟩

theorem witness_ExchangeEvents_watchdog : (let ch := { bound (slotOf [] none) with opened := 1, watch := 50000000 }
      (∃ d ∈ ch.dests, d.finished < ch.opened) ∧ ((exchanging 0 ch).pkg (theGroup.home / 256)).exchLimit.toNat ≤ ch.watch ∧
      ((exchanging 0 ch).pkg (theGroup.home / 256)).exchLimit.toNat ≠ 0 ∧ ∃ x ∈ ch.slots, x.holder.isSome = true) ∧
    ¬∃ d ∈ (bound (slotOf [] none)).dests, d.finished < (bound (slotOf [] none)).opened := by decide +kernel

/-! The scheduler. -/

/-- One entry of level 127 in the ring of die 0, for the record at 0x600000. -/
def entryOf (ctrl w0 seq : Nat) : QEntry :=
  { level := 127, slot := 0, words := [BitVec.ofNat 64 w0, BitVec.ofNat 64 (127 * 2 ^ 32 + ctrl), 0, 0, BitVec.ofNat 64 seq, 0, 0, 0] }

/-- The machine with that entry queued. -/
def queuedWith (ctrl w0 : Nat) : State :=
  let s := recorded (127 * 2 ^ 32 + ctrl) 0
  holding (s.setDie 0 { s.die 0 with queued := [(127, 0)], nextSeq := 6 }) (0x200000 + 127 * 4096 * 64) 40
    (packed [w0, 127 * 2 ^ 32 + ctrl, 0, 0, 5])

theorem witness_SchedulerEvents_select :
    let s := queuedWith 0 0x600000
    (s.ctx 4).life = .idle ∧ (s.core 1).out = false ∧ (s.die 0).stopped = false ∧ (s.die 0).corrupted = false ∧
    (s.pkg 0).dispatchOff = false ∧ (s.pkg 0).off = false ∧ (s.pkg 0).trust.verified = true ∧
    readRings s 0 (s.die 0).queued = .ok [entryOf 0 0x600000 5] ∧
    dispatchable s 4 0 [] (entryOf 0 0x600000 5) = true ∧ (s.die 0).pops < (s.die 0).ageN.toNat ∧
    (entryOf 0 0x600000 5).resume = false ∧ (entryOf 0 0x600000 5).w 2 = 0 ∧ 1 < (s.die 0).savecount.toNat ∧ 1 ∉ (s.die 0).areas ∧
    0 ∈ (s.die 0).areas ∧ dispatchable (queuedWith (2 ^ 43) 0x600000) 4 0 [] (entryOf (2 ^ 43) 0x600000 5) = false := by
  decide +kernel

theorem witness_SchedulerEvents_record : ∀ j ∈ [0, 1, 3, 4, 7],
    let u := (({ queuedWith 0 0x600000 with tlb := [mapOf .core 1] } : State).dieWaits 4 []).popEntry 0 (entryOf 0 0x600000 5) false false
    Mapped u (fv4Who 4 []) .read (0x600000 + 8 * j) 8 (0x600000 + 8 * j) := by
  simp only [mapped_iff]
  decide +kernel

/-- A task switched out into area 0. -/
def asleep : Parked := { area := ⟨0, 0⟩, tid := 9, ctrl := BitVec.ofNat 64 (127 * 2 ^ 32), budget0 := 0, home := 0, seq := 5, hbar := none, due := none }

theorem witness_SchedulerEvents_resume :
    let s := { queuedWith 0 (0x100000 + 2 ^ 63) with parked := [asleep] }
    readRings s 0 (s.die 0).queued = .ok [entryOf 0 (0x100000 + 2 ^ 63) 5] ∧ dispatchable s 4 0 [] (entryOf 0 (0x100000 + 2 ^ 63) 5) = true ∧
    (entryOf 0 (0x100000 + 2 ^ 63) 5).resume = true ∧
    (let u := (s.dieWaits 4 []).popEntry 0 (entryOf 0 (0x100000 + 2 ^ 63) 5) false false
     u.parked.find? (fun p => p.area == areaOfEntry u 0 (entryOf 0 (0x100000 + 2 ^ 63) 5)) = some asleep ∧ savedUnit u asleep.area = false ∧
     badArea u asleep.area = none) := by
  decide +kernel

/-- An entry that only core 0 may run, of which no context is free for want of groups, and the reclaimable task there. -/
def crowded (reclaim : Bool) : State :=
  let s := queuedWith (2 ^ 43) 0x600000
  s.setMe { s.me with ctrl := if reclaim then 1 <<< 40 else 0 }

theorem witness_SchedulerEvents_preempt : readRings (crowded true) 0 ((crowded true).die 0).queued = .ok [entryOf (2 ^ 43) 0x600000 5] ∧
    ([entryOf (2 ^ 43) 0x600000 5].find? fun e => (e.w 4).toNat == 5) = some (entryOf (2 ^ 43) 0x600000 5) ∧
    ready (crowded true) 0 0 [] (entryOf (2 ^ 43) 0x600000 5) = true ∧
    (∀ k, k < 64 → mayRun (crowded true) 0 ((entryOf (2 ^ 43) 0x600000 5).w 1) k = true → k = 0) ∧
    groupsFor (crowded true) 0 0 5 < groupsNeeded (crowded true) 0 (entryOf (2 ^ 43) 0x600000 5) ∧
    (((crowded true).core 0).preempt = none ∧ prioOf (crowded true).me.ctrl < 127 ∧ (crowded true).me.switch = false ∧
      (crowded true).me.ctrl.getLsbD 40 = true ∧ ((crowded true).ctx 1).life = .idle ∧
      reclaimNeed (crowded true) 0 (entryOf (2 ^ 43) 0x600000 5) 0 + 1 ≤ (crowded true).me.ceil) ∧
    (crowded false).me.ctrl.getLsbD 40 = false := by decide +kernel

theorem witness_SchedulerEvents_need : (max 1 (wanted (crowded true) 0 (entryOf (2 ^ 43) 0x600000 5) - (freeGroups (crowded true) 0 - reservedGroups (crowded true) 0)) + 1
      ≤ (crowded true).me.ceil) ∧ ((crowded true).die 0).stopped = false ∧
    ((crowded true).ctx 0).life = .running ∧ ((crowded true).ctx 1).life = .idle ∧
    (let x := { task with switch := true, held := 0, life := .acquiring }
     x.switch = true ∧ x.mode = .task ∧ x.ending = false ∧ between x ∧ x.life = .acquiring ∧ x.pending = [] ∧ x.lost = false ∧ x.due = none) := by
  unfold between
  decide +kernel

/-- A pair with a given second part. -/
theorem endsIn {α β : Type} {p : α × β} {b : β} (h : p.2 = b) : ∃ a, p = (a, b) := ⟨p.1, Prod.ext rfl h⟩

theorem witness_SchedulerEvents_switch : ∃ u : State, (let x := { task with switch := true, held := 1 }
      x.switch = true ∧ x.mode = .task ∧ x.ending = false ∧ x.busy = false ∧ x.adone = 0 ∧ x.fences = [] ∧ x.life = .running ∧ x.pending = [] ∧
      x.lost = false ∧ x.due = none ∧ x.area = some ⟨0, 0⟩) ∧
    (let s := machine.setMe { task with switch := true, held := 1 }
     let t := (s.finishOlder 0).settleCommands 0
     (t.core 0).mu.holder ≠ some 0 ∧ (t.ctx 0).midUnit = false ∧ writeImage t 0 (areaBase t ⟨0, 0⟩) (saveImage t 0 none) = (u, none)) := by
  let s := machine.setMe { task with switch := true, held := 1 }
  let t := (s.finishOlder 0).settleCommands 0
  obtain ⟨u, hu⟩ := endsIn (p := writeImage t 0 (areaBase t ⟨0, 0⟩) (saveImage t 0 none)) (b := none) (by decide +kernel)
  exact ⟨u, by decide +kernel, by decide +kernel, by decide +kernel, hu⟩

theorem witness_SchedulerEvents_due : (let x := { task with lowered := some 50000 }
      x.lowered = some 50000 ∧ (machine.die 0).reclaimLimit.toNat ≤ 50000 ∧ ¬(machine.die 0).reclaimLimit.toNat ≤ 49999) ∧
    (let x := { task with due := some 0, ctrl := 1 <<< 39 }
     x.due = some 0 ∧ x.mode = .task ∧ x.ending = false ∧ between x ∧ x.life = .running ∧ x.pending = [] ∧ x.lost = false ∧
     x.ctrl.getLsbD 39 = true) ∧
    (let x := { task with pending := [⟨0x28A, 3, [], true⟩], due := some 1 }
     x.pending = [⟨0x28A, 3, [], true⟩] ∧ x.due ≠ some 0 ∧ x.tvec ≠ 0 ∧ writesRecord 0x28A 3 = false) ∧
    (let s := machine.setMe { task with stall := [(0x320000, 100000)] }
     (s.ctx 0).life = .running ∧ ∃ e ∈ (s.ctx 0).stall, (s.pkg 0).walkLimit.toNat ≤ e.2) := by
  unfold between
  decide +kernel

theorem witness_SchedulerEvents_again :
    (∃ u, (enqueue (fv4Who 0 []) 0x600000 0 true).run (recorded (3 * 2 ^ 43) 0) = (.ok (), u)) ∧
    ∃ u, (enqueue (fv4Who 0 []) 0x600001 0 true).run (recorded 0 0) = (.error (.trap 0x010 0x600001 noInfo), u) :=
  ⟨ranTo (by decide +kernel), ranTo (by decide +kernel)⟩

/-- A context that waits at a BARWAIT or a VWAIT at 0x1000 with limit s[9]. -/
def waits (w : Nat) (limit : Word) : State :=
  (holding machine 0x1000 4 w).setMe { task with waited := some 10, s := regSet task.s 9 limit }

theorem witness_SchedulerEvents_wait : (waits 0x60C61A41 10).nextInstr = .ok (.barwait 6 6 3 9, waits 0x60C61A41 10) ∧
    (waits 0x60C61A41 10).boundary 0 = none ∧ (waits 0x60C61A41 10).me.reg 9 ≠ -1 ∧
    ((waits 0x60C61A41 10).me.reg 9).toNat ≤ (waits 0x60C61A41 10).me.waited.getD 0 ∧ ¬(11 : Word).toNat ≤ (waits 0 10).me.waited.getD 0 ∧
    (waits 0xB0892800 10).nextInstr = .ok (.vwait 4 9 5 0 0 0, waits 0xB0892800 10) := by decide +kernel

/-! Failures, power, the host. -/

theorem witness_FailuresAndPower : (machine.core 0).out = false ∧ (machine.setCore 0 { machine.core 0 with out := true }).core 0 ≠ machine.core 0 ∧
    machine.me.life ≠ .idle ∧ machine.me.ctrl.getLsbD 39 = false ∧
    (machine.pkg 0).ceil ∈ [1, 2, 4, 8] ∧ max 500 (min 3400 ((machine.pkg 0).powerlimit.toNat % 4096)) = 3400 ∧ 10 * 3059 < 9 * 3400 ∧
    ¬10 * 3060 < 9 * 3400 ∧ 9 ≤ ({ Pkg.reset with below := 9 } : Pkg).below ∧
    ((machine.pkg 0).periods + 1) * 100000 ≤ ({ machine with ticks := 100000 } : State).ticks.toNat ∧
    ¬((machine.pkg 0).periods + 1) * 100000 ≤ ({ machine with ticks := 99999 } : State).ticks.toNat ∧ 920 ≤ (0x398#12 : BitVec 12).toNat ∧
    (0x397#12 : BitVec 12).toNat < 920 ∧ (8 ∈ [1, 2, 4, 8] ∧ (128 : Nat) ≤ 128) := by decide +kernel

/-- The one frame of core 0 is clean, and its entry can be changed. -/
theorem witness_FailuresAndPower_frame : (let s := resident
    (s.core 0).frames = [(0, framed false none)] ∧ (framed false none).dirty = 0 ∧ (framed false none).pageDirty = false ∧
    (∀ x ∈ s.ctxs, x.2.noneInFlight = true) ∧ Mapped s (fv4Who (4 * 0) []) .atomic (framed false none).entry.toNat 8 0x400000) := by
  simp only [mapped_iff]
  decide +kernel

/-- Two packages that differ in the first coordinate, joined, with their direct link trained and a spare of each. -/
def linked : State :=
  let cfg (n : Nat) : Word := BitVec.ofNat 64 (2 ^ 63 + (2 ^ 12 + 2 ^ 13) + 2 ^ 18 + 2 ^ 32 + n)
  let ends (q : Nat) : List (Nat × Link) := [(0, ⟨some q, true, false, false, false, 0⟩), (21, ⟨some q, true, true, false, false, 0⟩)]
  (machine.setPkg 0 { machine.pkg 0 with pkgcfg := cfg 0, linkctl := 0xFFFFFF, links := ends 1 }).setPkg 1
    { Pkg.reset with pkgcfg := cfg 1, linkctl := 0xFFFFFF, links := ends 0 }

theorem witness_FailuresAndPower_links : ((linked.pkg 0).link 0).peer = some 1 ∧ farEnd linked 0 0 1 = some 0 ∧
    spareTo (linked.pkg 0) 1 = some 21 ∧ spareTo (linked.pkg 1) 0 = some 21 ∧ (linked.pkg 0).number = 0 ∧ (linked.pkg 1).number = 1 ∧
    (linked.pkg 0).linkctl.getLsbD 23 = true ∧ linkPeer 0 0 = some 1 ∧ linkTo 0 1 = some 0 ∧
    (linked.pkg 0).pkgcfg.getLsbD 63 = true ∧ (linked.pkg 1).pkgcfg.getLsbD 63 = true ∧
    (linked.pkg 0).pkgcfg.toNat / 2 ^ 12 % 2 ^ 32 = (linked.pkg 1).pkgcfg.toNat / 2 ^ 12 % 2 ^ 32 := by decide +kernel

theorem witness_FailuresAndPower_spare : ((linked.pkg 0).link 21).peer = some 1 ∧ ((linked.pkg 0).link 0).failed = false ∧
    (∀ j, linkTo (linked.pkg 0).number (linked.pkg 1).number = some j → ((linked.pkg 0).link j).failed = false) ∧
    (linked.pkg 0).linkctl.getLsbD 32 = (linked.pkg 1).linkctl.getLsbD 32 ∧ (linked.pkg 0).linkctl.getLsbD 0 = true ∧
    ({ machine.core 0 with out := true, retiring := none } : Core).retiring = none ∧ 920 ≤ (920#12 : BitVec 12).toNat := by
  refine ⟨by decide +kernel, by decide +kernel, fun j h => ?_, by decide +kernel, by decide +kernel, by decide +kernel, by decide⟩
  have e : linkTo (linked.pkg 0).number (linked.pkg 1).number = some 0 := by decide +kernel
  obtain rfl : 0 = j := by simpa [e] using h
  decide +kernel

/-- A package with an event, a ring of 64 entries and a host that it hears. -/
def reporting : Pkg := { Pkg.reset with evbase := 0x40000, evsize := 64, evtail := 63, events := [⟨0x28B, 2, 5, 9⟩] }

theorem witness_HostServices_ring : (machine.setPkg 0 reporting).pkg 0 = reporting ∧ reporting.trust.recovery = false ∧ reporting.tdisp ≠ .error ∧
    reporting.evsize.toNat = 2 ^ 6 ∧ reporting.evbase.toNat % 4096 = 0 ∧ reporting.evbase.toNat < 2 ^ 48 ∧
    reporting.evtail - reporting.evhead ≠ reporting.evsize ∧
    badLine (machine.setPkg 0 reporting) 0 (0 * 2 ^ 48 + reporting.evbase.toNat + 32 * (reporting.evtail.toNat % reporting.evsize.toNat)) 32 true = none ∧
    ({ reporting with evtail := 64 } : Pkg).evtail - reporting.evhead = reporting.evsize := by decide +kernel

theorem witness_HostServices_config : (let v := BitVec.ofNat 64 (2 ^ 63 + 2 ^ 12 + 2 ^ 18 + 2 ^ 32)
      v.getLsbD 63 = true ∧ v.toNat % 512 < 432 ∧ v.getLsbD 12 = true ∧ v.getLsbD 18 = true ∧ v.getLsbD 32 = true) ∧
    (431 : Nat) < 432 ∧ Pkg.reset.pkgcfg.getLsbD 63 = false ∧ Pkg.reset.tdisp = .unlocked ∧
    ({ Pkg.reset with tdisp := .locked } : Pkg).tdisp = .locked ∧
    ({ Pkg.reset with trust := { Pkg.reset.trust with recovery := true } } : Pkg).trust.recovery = true ∧
    ({ Pkg.reset with tdisp := .error } : Pkg).tdisp = .error := by decide +kernel

theorem witness_HostServices_control :
    (let s := (machine.setPkg 0 { Pkg.reset with hcaddr := 0x9000 }).setMe
       { task with life := .stopped, stopInfo := some (0x341, 0) }
     let v : Word := 0x100000
     v.toNat % 2 ^ 19 / 1024 = 0 ∧ v.toNat / 2 ^ 20 % 4 = 1 ∧ (s.ctx 0).life = .stopped ∧ (s.ctx 0).stopInfo ≠ none ∧ (s.pkg 0).off = false ∧
      PcForm (s.pkg 0).hcaddr ∧ (s.ctx 0).mode = .task ∧ (s.ctx 0).stopInfo.map (·.1) ≠ some 0x28A) ∧
    (0x200000 : Word).toNat / 2 ^ 20 % 4 = 2 ∧ (0x300000 : Word).toNat / 2 ^ 20 % 4 = 3 ∧ ¬PcForm 0x9002 := by
  unfold PcForm
  decide +kernel

theorem witness_HostServices_spawn : (recorded 0 0).pkg 0 ≠ { (recorded 0 0).pkg 0 with tdisp := .locked } ∧
    (∃ t, (enqueue (fv4Who (1024 * 0) []) 0x600000 (4 * 0) false).run (recorded (3 * 2 ^ 43) 0) = (.ok (), t)) ∧
    (∃ t, (enqueue (fv4Who (1024 * 0) []) 0x600001 (4 * 0) false).run (recorded 0 0) = (.error (.trap 0x010 0x600001 noInfo), t)) ∧
    ∃ ks t, (enqueue (fv4Who (1024 * 0) []) 0x7FC0 (4 * 0) false).run (holding tables 0x320000 8 0x8F) = (.error (.waitOn ks), t) :=
  ⟨by decide +kernel, ranTo (by decide +kernel), ranTo (by decide +kernel), [walkKey 0x7FC0], ranTo (by decide +kernel)⟩

theorem witness_HostServices_offsets : windowValue machine 0 0x150000 = none ∧ machine.ctxAt 0 1023 = some 1023 ∧
    ({ Pkg.reset with tdisp := .run } : Pkg).tdisp = .run ∧ (machine.pkg 0).trust.verified = true ∧ Pkg.reset.trust.verified = false := by
  decide +kernel

theorem witness_HostServices_window : (0 + 64 ≤ 2 ^ 36 ∧ (machine.pkg 0).hwin.toNat + 0 + 64 ≤ 0xC000000000) ∧
    ¬(2 ^ 36 - 63 + 64 ≤ 2 ^ 36) ∧ (∀ k, k < 64 → poisoned machine (0 * 2 ^ 48 + (machine.pkg 0).hwin.toNat + 0 + k) = false) ∧
    ({ Pkg.reset with measurement := [1] } : Pkg).measurement ≠ [] ∧
    ({ Pkg.reset with trust := ⟨3, some ⟨true, true, 3⟩, true, false⟩ } : Pkg).trust.minimum ≤ 3 := by decide +kernel

/-! ## One instruction: values from the spec's worked examples, or worked out by hand -/

/-- 05_arithmetic: DIV of −7 by 2 gives −3, REM −1; DIVU of 7 by 0 gives all ones, REMU 7. -/
theorem test_division : after (.div 1 2 3) (withRegs [(2, -7), (3, 2)]) (fun t => t.me.reg 1 == -3) = true ∧
    after (.rem 1 2 3) (withRegs [(2, -7), (3, 2)]) (fun t => t.me.reg 1 == -1) = true ∧
    after (.divu 1 2 0) (withRegs [(2, 7)]) (fun t => t.me.reg 1 == 0xFFFFFFFFFFFFFFFF) = true ∧
    after (.remu 2 2 0) (withRegs [(2, 7)]) (fun t => t.me.reg 2 == 7) = true := by decide +kernel

/-- By hand: the most negative number by −1 overflows to itself, remainder 0 (R103). -/
theorem test_division_overflow : after (.div 1 2 3) (withRegs [(2, 0x8000000000000000), (3, -1)]) (fun t => t.me.reg 1 == 0x8000000000000000) = true ∧
    after (.rem 1 2 3) (withRegs [(2, 0x8000000000000000), (3, -1)]) (fun t => t.me.reg 1 == 0) = true := by decide +kernel

/-- R340's table: s[a] = 0x123456789ABCDEF0. -/
theorem test_extend : after (.sextB 1 2) (withRegs [(2, 0x123456789ABCDEF0)]) (fun t => t.me.reg 1 == 0xFFFFFFFFFFFFFFF0) = true ∧
    after (.sextW 2 2) (withRegs [(2, 0x123456789ABCDEF0)]) (fun t => t.me.reg 2 == 0xFFFFFFFF9ABCDEF0) = true ∧
    after (.zextH 1 2) (withRegs [(2, 0x123456789ABCDEF0)]) (fun t => t.me.reg 1 == 0xDEF0) = true := by decide +kernel

/-- By hand: a shift uses bits [5:0] of its amount (R343); counts of zeros at the ends. -/
theorem test_shift_and_count : after (.sra 1 2 3) (withRegs [(2, 0x8000000000000000), (3, 0x7F)]) (fun t => t.me.reg 1 == -1) = true ∧
    after (.sll 1 2 3) (withRegs [(2, 3), (3, 0xBF)]) (fun t => t.me.reg 1 == 0x8000000000000000) = true ∧
    after (.clz 1 2) (withRegs [(2, 1)]) (fun t => t.me.reg 1 == 63) = true ∧ after (.ctz 1 0) machine (fun t => t.me.reg 1 == 64) = true ∧
    after (.mulh 1 2 3) (withRegs [(2, -1), (3, 2)]) (fun t => t.me.reg 1 == -1) = true ∧
    after (.mulhu 1 2 3) (withRegs [(2, -1), (3, 2)]) (fun t => t.me.reg 1 == 1) = true := by decide +kernel

/-- R283: addpc s5, 2 placed at 0x00100400 writes 0x00120400; a write to s0 changes nothing; an immediate of SLTU is sign-extended first. -/
theorem test_immediate : after (.addpc 5 2) (machine.setMe { task with pc := 0x100400 }) (fun t => t.me.reg 5 == 0x120400 && t.me.pc == 0x100404) = true ∧
    after (.addImm 0 0 5) machine (fun t => t.me.reg 0 == 0 && t.me.pc == 0x1004) = true ∧
    after (.sltuImm 2 3 0xFFFF) machine (fun t => t.me.reg 2 == 1) = true ∧
    after (.lih 4 4 0xFFFE) (withRegs [(4, 0x1234567800000001)]) (fun t => t.me.reg 4 == 0x567800000001FFFE) = true := by decide +kernel

/-- By hand: ld.w extends the sign, ld.wu does not; the bytes lie lowest first (R2). -/
theorem test_load : after (.ld 1 2 0 2) (holding (withRegs [(2, 0x100)]) 0x100 4 0x80000001) (fun t => t.me.reg 1 == 0xFFFFFFFF80000001) = true ∧
    after (.ld 1 2 0x1FFF 4) (holding (withRegs [(2, 0x101)]) 0x100 4 0x80000001) (fun t => t.me.reg 1 == 1) = true ∧
    after (.st 3 2 8 1) (withRegs [(2, 0x100), (3, 0x1234)]) (fun t =>
      t.locByte (.phys 0x108) == 0x34 && t.locByte (.phys 0x109) == 0x12 && t.locByte (.phys 0x10A) == 0) = true := by decide +kernel

/-- R285's example: amo.smin.w with 5 on 0xFFFFFFFE leaves the word and returns it zero-extended; R241: a bounded add that would pass its bound. -/
theorem test_atomic : after (.amoSmin 1 2 3 0) (holding (withRegs [(2, 0x100), (3, 5)]) 0x100 4 0xFFFFFFFE) (fun t =>
      t.me.reg 1 == 0xFFFFFFFE && t.locByte (.phys 0x100) == 0xFE) = true ∧
    after (.amoAddb 1 2 3 4 1) (holding (withRegs [(2, 0x100), (3, 2), (4, 6)]) 0x100 8 5) (fun t =>
      t.me.reg 1 == 0x8000000000000005 && t.locByte (.phys 0x100) == 5) = true ∧
    after (.cas 1 2 3 4 1) (holding (withRegs [(2, 0x100), (3, 5), (4, 6)]) 0x100 8 5) (fun t =>
      t.me.reg 1 == 5 && t.locByte (.phys 0x100) == 6) = true := by decide +kernel

/-- R288's encodings: a branch 0x40 bytes ahead, and one three words back; JALR with its link in its own source. -/
theorem test_jump : after (.beq 5 0 0x10) machine (fun t => t.me.pc == 0x1040) = true ∧
    after (.bne 5 6 0xFFFD) (withRegs [(6, 1)]) (fun t => t.me.pc == 0xFF4) = true ∧
    after (.jalr 7 7 4) (withRegs [(7, 0x2000)]) (fun t => t.me.pc == 0x2004 && t.me.reg 7 == 0x1004) = true ∧
    after (.jalr 7 7 2) (withRegs [(7, 0x2000)]) (fun t => t.me.pc == 0x8000 && t.me.cause == 0x010 && t.me.reg 7 == 0x2000) = true := by decide +kernel

/-- 05_arithmetic: 2^−70 × 2^−70 at FP32: exact under FZ = 00 without a flag, +0 with UF and NX under FZ = 01. -/
theorem test_tiny_product :
    (let s := (vmachine .fp32 2).setMe { (vmachine .fp32 2).me with v := regSet (vtask .fp32 2).v 1 0x1C800000 }
     after (.vfmul 4 1 1 0 0) s (fun t => vel t.me 4 32 0 == 0x200 && t.me.fflags == 0) = true) ∧
    (let s := (vmachine .fp32 6).setMe { (vmachine .fp32 6).me with v := regSet (vtask .fp32 6).v 1 0x1C800000 }
     after (.vfmul 4 1 1 0 0) s (fun t => vel t.me 4 32 0 == 0 && t.me.fflags == 0b00011) = true) := by decide +kernel

/-- By hand: 1.0 + 2.0 at FP32; 1.0 / 0 gives an infinity with DZ; a signalling NaN in FCMP.eq gives 0 with NV; FCVT to int saturates. -/
theorem test_scalar_float : after (.fadd 1 2 3 0) (withRegs [(2, 0x3F800000), (3, 0x40000000)]) (fun t => t.me.reg 1 == 0x40400000 && t.me.fflags == 0) = true ∧
    after (.fdiv 1 2 0 0) (withRegs [(2, 0xBF800000)]) (fun t => t.me.reg 1 == 0xFF800000 && t.me.fflags == flagDZ) = true ∧
    after (.fcmp 1 2 2 0 0) (withRegs [(2, 0x7F800001)]) (fun t => t.me.reg 1 == 0 && t.me.fflags == flagNV) = true ∧
    after (.fma 1 2 3 4 1) (withRegs [(2, 0x3FF0000000000000), (3, 0x4000000000000000), (4, 0xC000000000000000)]) (fun t => t.me.reg 1 == 0) = true := by
  decide +kernel

/-- R301's example: in task mode 0x4F written to VCFG = 0x0A leaves 0x4A; in supervisor mode it raises 0x002. -/
theorem test_csr : after (.csrw 5 6 1) ((withRegs [(6, 0x4F)]).setMe { (withRegs [(6, 0x4F)]).me with vcfg := 0x0A })
      (fun t => t.me.vcfg == 0x4A && t.me.reg 5 == 0x0A) = true ∧
    after (.csrw 5 6 1) (inHandler.setMe { inHandler.me with vcfg := 0x0A, s := regSet task.s 6 0x4F })
      (fun t => t.me.vcfg == 0x0A && t.me.life == .stopped && t.me.stopInfo == some (0x002, 0x58A60041)) = true := by decide +kernel

/-- R353: TRAP 5 from a task: cause 0x3C5, the next word saved; ERET goes back. -/
theorem test_trap : after (.trap 2 5) (withRegs [(2, 9)]) (fun t =>
      t.me.mode == .supervisor && t.me.pc == 0x8000 && t.me.cause == 0x3C5 && t.me.tinfo == 9 && t.me.tepc == 0x1004) = true ∧
    after .eret inHandler (fun t => t.me.mode == .task && t.me.pc == 0x1008 && t.me.vl == 2) = true := by decide +kernel

/-- R324's example: VL = 8, bits 7 to 0 of m2 are 0010_1000. -/
theorem test_mask : (let s := machine.setMe { task with vl := 8, m := set8 task.m 2 0b00101000 }
      after (.mpop 1 2) s (fun t => t.me.reg 1 == 2) = true ∧ after (.mfirst 1 2) s (fun t => t.me.reg 1 == 3) = true ∧
      after (.mbreak 3 2) s (fun t => (get8 t.me.m 3).toNat == 0b00000111) = true) ∧
    (let s := machine.setMe { task with vl := 8 }
     after (.mfirst 1 2) s (fun t => t.me.reg 1 == 0xFFFFFFFFFFFFFFFF) = true ∧
     after (.mbreak 3 2) s (fun t => (get8 t.me.m 3).toNat == 0xFF) = true) := by decide +kernel

/-- R380's example: `vldseg.3 v4, (s9)` at SEW 32, VL 2, on the words 10 to 15. -/
theorem test_vldseg : after (.vldseg 4 9 0 0 2) (holding (withRegs [(9, 0x200)]) 0x200 24
      (10 + 11 * 2 ^ 32 + 12 * 2 ^ 64 + 13 * 2 ^ 96 + 14 * 2 ^ 128 + 15 * 2 ^ 160)) (fun t =>
    vel t.me 4 32 0 == 10 && vel t.me 4 32 1 == 13 && vel t.me 5 32 0 == 11 && vel t.me 5 32 1 == 14 && vel t.me 6 32 0 == 12 &&
    vel t.me 6 32 1 == 15 && regGet t.me.tag 4 == .i32 && regGet t.me.tag 6 == .i32) = true := by decide +kernel

/-- By hand: a vector store is queued, and a fence on path O performs it. -/
theorem test_vst : (match exec (.vst 1 2 0 0 0) (gathers 0) with
    | .next t => decide (t.me.vstores.length = 2) && after (.fence 1 0) t (fun u => u.locByte (.phys 0x800) == 8 && u.locByte (.phys 0x804) == 4) &&
        t.locByte (.phys 0x800) == 0
    | _ => false) = true := by decide +kernel

/-- R156: a walk caches the table pointers on its way; a change of an entry on the path takes effect only once they are invalidated. -/
theorem test_table_pointer : after (.pageTableWalk 0 .core 0xFFFF) tables (fun t =>
    let u := holding (holding t 0x300000 8 0) 0x320008 8 0x10000F
    let reaches (s : State) (pa : Nat) : Bool := match translate s s.who .read 0x10008 with
      | .ok p => p == pa
      | .error _ => false
    t.tlb.length == 3 && reaches u 0x100008 && !reaches { u with tlb := [] } 0x100008) = true := by decide +kernel

/-- R139: accesses may keep reaching the old frame after software has written a resident entry that the context caches. -/
theorem test_cached_entry : (let s := stashed 1 (some (framed false none))
    afterStep { s with agenda := [.entry 0 0] } (fun t =>
      let u := holding t 0x400000 8 0
      after (.ld 1 2 0 3) u (fun v => v.me.pc == 0x1004) && after (.ld 1 2 0 3) { u with spt := [] } (fun v => v.me.cause == 0x1C1))) = true := by
  decide +kernel

/-- R346: an older vector load of the same location, with no SVFENCE.vs between it and the ST, may return the stored value. -/
theorem test_load_placed_late : afterStep
    (let s := gathers 7
     { holding (s.setMe { s.me with late := [lateOf s (.vld 1 2 0 0 0) 0], pc := 0x1008 }) 0x800 4 9 with agenda := [.late 0 0] })
    (fun t => vel t.me 1 32 0 == 9 && vel t.me 1 32 1 == 0 && t.me.pc == 0x1008) = true := by decide +kernel

/-- R168, R411: a vector load may read older bytes than those that stand there, until SVFENCE.sv follows a scalar read of the newer ones. -/
theorem test_past_moment : afterStep { tables with agenda := [.pin 0] } (fun t =>
    let u := t.writeLocs ((places 0x800 4).zip (bytesOf 4 7))
    let read (p : Pin) : Bool := decide (pastBytes u u.who 0x800 (places 0x800 4) p = some (bytesOf 4 0))
    let v := { u with pins := u.pins.map fun p => { p with scalar := false } }
    u.pins.length == 1 && u.pins.all read && u.locByte (.phys 0x800) == 7 && u.pins.all (·.vector) &&
    after (.svfence 1) v (fun w => w.pins.all fun p => !p.vector) && after (.svfence 2) v (fun w => w.pins.all (·.vector))) = true := by
  decide +kernel

/-- R168, R346: a store in a HOLD turn waits; a younger vector load without SVFENCE.sv still reads the old bytes, a scalar load the new ones. -/
theorem test_store_delayed :
    (let s := (gathers 7).setMe ((gathers 7).me.setReg 3 7)
     let at_ (i : Instr) (h : Bool) (d : List Held) : State :=
       { holding (s.setMe { s.me with delayed := d }) 0x1000 4 (encode i).toNat with agenda := [if h then .hold 0 else .run 0] }
     let kept : List Held := [.store 0 0 ((places 0x800 4).zip (bytesOf 4 7))]
     afterStep (at_ (.st 3 2 0 2) true []) (fun t => t.me.delayed == kept && t.locByte (.phys 0x800) == 0) = true ∧
     afterStep (at_ (.vld 1 2 0 0 0) false kept) (fun t => vel t.me 1 32 0 == 0 && t.me.delayed == kept) = true ∧
     afterStep (at_ (.ld 4 2 0 2) false kept) (fun t => t.me.reg 4 == 7 && t.me.delayed == []) = true ∧
     after (.svfence 1) (at_ .ifence false kept) (fun t => t.locByte (.phys 0x800) == 7) = true) := by decide +kernel

/-- By hand: 0xFF + 1 wraps at width 8; a reduction leaves the other elements; VSLIDE.up leaves the elements below its amount. -/
theorem test_vector : (let s := machine.setMe { vtask .i8 0 with v := regSet (vtask .i8 0).v 2 0x01FF }
      after (.vadd 2 2 2 0 0) s (fun t => vel t.me 2 8 0 == 0xFE && vel t.me 2 8 1 == 2 && vel t.me 2 8 2 == 0) = true ∧
      after (.vredAdd 3 2 0 0) s (fun t => vel t.me 3 8 0 == 0 && vel t.me 3 8 1 == 0x40) = true ∧
      after (.vslideUp 3 2 4 0 0) (s.setMe (s.me.setReg 4 1)) (fun t => vel t.me 3 8 0 == 0 && vel t.me 3 8 1 == 0xFF) = true ∧
      after (.vcmpLt 7 2 3 0 0) s (fun t => (get8 t.me.m 7).toNat == 0b11) = true) := by decide +kernel

/-- 06_selected_block_formats: the worked block of 1.0, −0.5 and 0.25 in an SB4 superblock takes POW2 with header 0x0110, payload 0xE7, 0x05; with
SELMASK = 101 QNT wins with 0x7, 0xC, 0x2. -/
theorem test_superblock :
    (let s := quantising.setMe { quantising.me with mfmt := 0x0E9, v := regSet quantising.me.v 1 0x3E800000BF0000003F800000 }
     after (.vstq 1 2 3 0 0) s (fun t => match t.me.vstores with
       | [q] => decide ((q.bytes.take 3).map (·.2) = [0xE7, 0x05, 0x00]) &&
           decide ((q.bytes.drop 128).map (·.2) = [0, 0, 0x80, 0x3F, 0x10, 1, 0xFF, 0, 0xFF, 0, 0xFF, 0, 0, 0, 0, 0])
       | _ => false) = true) ∧
    (let s := quantising.setMe { quantising.me with mfmt := 0x0A9, v := regSet quantising.me.v 1 0x3E800000BF0000003F800000 }
     after (.vstq 1 2 3 0 0) s (fun t => match t.me.vstores with
       | [q] => decide ((q.bytes.take 2).map (·.2) = [0xC7, 0x02])
       | _ => false) = true) := by decide +kernel

/-- 12_matrix_unit: one row of ones times a column of ones over K = 32 gives 32.0 in FP32. -/
theorem test_product :
    (let u := { (multiplying.core 0).mu with shape := ⟨1, 1, 32, 1⟩, bufs := Vector.replicate 2 ⟨.bf16, BitVec.ofNat 262144 (packed (List.replicate 8 0x3F803F803F803F80)), 0, 32, 1⟩ }
     let s := holding (multiplying.setCore 0 { Core.reset with mu := u }) 0x800 64 (packed (List.replicate 8 0x3F803F803F803F80))
     after (.mma 3 2 0 7 0 1) s (fun t => (get8 (t.core 0).mu.tiles 7).at 0 0 == 0x42000000) = true) := by decide +kernel

/-- R341's example, step 2: equal keys 5 count once and both pairs move on. -/
theorem test_intersect : after (.sisect 1 4 6) (holding (holding (withRegs [(4, 0x800), (5, 2), (6, 0x900), (7, 4)]) 0x800 8 5) 0x900 8 5) (fun t =>
      t.me.reg 1 == 1 && t.me.reg 4 == 0x808 && t.me.reg 5 == 1 && t.me.reg 6 == 0x908 && t.me.reg 7 == 3 && t.me.pc == 0x1000) = true := by decide +kernel

/-- By hand from R232: the second of two arrivals turns phase 15 to 0 and clears the count. -/
theorem test_barrier : after (.barrive 1 2 3) (barrier (2 + 2 ^ 20 + 15 * 2 ^ 40) 0) (fun t =>
      t.me.reg 1 == BitVec.ofNat 64 (2 + 2 ^ 20 + 15 * 2 ^ 40) && t.locByte (.phys 0x700000) == 2 && t.locByte (.phys 0x700002) == 0 &&
      t.locByte (.phys 0x700005) == 0) = true ∧
    after (.barwait 1 2 3 4) (barrier 2 0) (fun t => t.me.pc == 0x1004 && t.me.reg 1 == 2) = true ∧
    after (.barwait 1 2 0 4) ((barrier 2 0).setMe ((barrier 2 0).me.setReg 4 5)) (fun t => t.me.pc == 0x1000) = true := by decide +kernel

/-- R296's example: one step of packing rows moves 16 bytes up to destination offset 0x100. -/
theorem test_copy : after (.cpy 2 3 4 5) (withRegs [(2, 0x10F0), (3, 0x2000), (4, 0x30), (5, 0)]) (fun t => t.me.pc == 0x1004 &&
      after (.copyCountStep 0 0) (holding t 0x2000 16 0x0102) (fun u => u.locByte (.phys 0x10F0) == 2 && u.locByte (.phys 0x10F1) == 1)) = true := by
  decide +kernel

/-- By hand from R387: VSETL at SEW 64 with eight groups grants at most 128. -/
theorem test_vsetl : after (.vsetl 1 2 0 0 3) (withRegs [(2, 1000)]) (fun t => t.me.reg 1 == 128 && t.me.vl == 128 && t.me.vcfg == 3) = true := by
  decide +kernel

/-- Words that are no instruction: the all-zero word, a set unused field, an unassigned code that is also reserved. -/
theorem test_decode_refused : decode 0 = .error .illegal ∧ decode 0x04642841 = .error .reserved ∧ decode 0x0464287F = .error .illegal ∧
    decode 0x8043248E = .ok (.vsra 2 3 4 1 1) ∧ decode 0x8043288E = .error .reserved ∧ decode 0x81032490 = .error .illegal := by decide +kernel

end Sys2Proof.Tests
end

/-! ## Decoding: an instruction is what the decoder reads from its word -/

namespace Sys2Proof.Laws

/-- Each row of the table is selected from its own word; the rows' own lemmas are those of `Selects`. -/
theorem selects : ∀ i : Instr, Selects.Statement i
  | .add d a b => Selects.add d a b
  | .sub d a b => Selects.sub d a b
  | .mul d a b => Selects.mul d a b
  | .mulh d a b => Selects.mulh d a b
  | .mulhu d a b => Selects.mulhu d a b
  | .div d a b => Selects.div d a b
  | .divu d a b => Selects.divu d a b
  | .rem d a b => Selects.rem d a b
  | .remu d a b => Selects.remu d a b
  | .and d a b => Selects.and d a b
  | .andn d a b => Selects.andn d a b
  | .or d a b => Selects.or d a b
  | .xor d a b => Selects.xor d a b
  | .sll d a b => Selects.sll d a b
  | .srl d a b => Selects.srl d a b
  | .sra d a b => Selects.sra d a b
  | .slt d a b => Selects.slt d a b
  | .sltu d a b => Selects.sltu d a b
  | .min d a b => Selects.min d a b
  | .max d a b => Selects.max d a b
  | .minu d a b => Selects.minu d a b
  | .maxu d a b => Selects.maxu d a b
  | .clz d a => Selects.clz d a
  | .ctz d a => Selects.ctz d a
  | .popc d a => Selects.popc d a
  | .sextB d a => Selects.sextB d a
  | .sextH d a => Selects.sextH d a
  | .sextW d a => Selects.sextW d a
  | .zextB d a => Selects.zextB d a
  | .zextH d a => Selects.zextH d a
  | .zextW d a => Selects.zextW d a
  | .csel d a b c => Selects.csel d a b c
  | .addImm d a i => Selects.addImm d a i
  | .andImm d a i => Selects.andImm d a i
  | .orImm d a i => Selects.orImm d a i
  | .xorImm d a i => Selects.xorImm d a i
  | .sltImm d a i => Selects.sltImm d a i
  | .sltuImm d a i => Selects.sltuImm d a i
  | .lih d a i => Selects.lih d a i
  | .addpc d i => Selects.addpc d i
  | .fadd d a b f => Selects.fadd d a b f
  | .fsub d a b f => Selects.fsub d a b f
  | .fmul d a b f => Selects.fmul d a b f
  | .fdiv d a b f => Selects.fdiv d a b f
  | .fsqrt d a f => Selects.fsqrt d a f
  | .fma d a b c f => Selects.fma d a b c f
  | .fmin d a b f => Selects.fmin d a b f
  | .fmax d a b f => Selects.fmax d a b f
  | .fcmp d a b c f => Selects.fcmp d a b c f
  | .fcvt d a c => Selects.fcvt d a c
  | .fmvx d a f => Selects.fmvx d a f
  | .ld d a o w => Selects.ld d a o w
  | .st d a o w => Selects.st d a o w
  | .amoAdd d a b s => Selects.amoAdd d a b s
  | .amoAnd d a b s => Selects.amoAnd d a b s
  | .amoOr d a b s => Selects.amoOr d a b s
  | .amoXor d a b s => Selects.amoXor d a b s
  | .amoSmin d a b s => Selects.amoSmin d a b s
  | .amoSmax d a b s => Selects.amoSmax d a b s
  | .amoUmin d a b s => Selects.amoUmin d a b s
  | .amoUmax d a b s => Selects.amoUmax d a b s
  | .amoSwap d a b s => Selects.amoSwap d a b s
  | .amoFmax d a b s => Selects.amoFmax d a b s
  | .amoAddb d a b c s => Selects.amoAddb d a b c s
  | .cas d a b c s => Selects.cas d a b c s
  | .pst a b s => Selects.pst a b s
  | .pstOrd a b s => Selects.pstOrd a b s
  | .beq a b o => Selects.beq a b o
  | .bne a b o => Selects.bne a b o
  | .blt a b o => Selects.blt a b o
  | .bge a b o => Selects.bge a b o
  | .bltu a b o => Selects.bltu a b o
  | .bgeu a b o => Selects.bgeu a b o
  | .jal d o => Selects.jal d o
  | .jalr d a i => Selects.jalr d a i
  | .csrr d n => Selects.csrr d n
  | .csrw d a n => Selects.csrw d a n
  | .csrset d a n => Selects.csrset d a n
  | .csrclr d a n => Selects.csrclr d a n
  | .trap a n => Selects.trap a n
  | .eret => Selects.eret
  | .brk n => Selects.brk n
  | .fence p s => Selects.fence p s
  | .svfence f => Selects.svfence f
  | .ifence => Selects.ifence
  | .tlbinv a s l => Selects.tlbinv a s l
  | .stflush a l => Selects.stflush a l
  | .stinv a l => Selects.stinv a l
  | .tspawn a => Selects.tspawn a
  | .tend => Selects.tend
  | .tself d => Selects.tself d
  | .barrive d a b => Selects.barrive d a b
  | .barwait d a b c => Selects.barwait d a b c
  | .hbar a s => Selects.hbar a s
  | .cpy d a b c => Selects.cpy d a b c
  | .cpy2 d a b c => Selects.cpy2 d a b c
  | .cpyxG d a b c => Selects.cpyxG d a b c
  | .cpyxS d a b c => Selects.cpyxS d a b c
  | .rsort d a b c => Selects.rsort d a b c
  | .sisect d a b => Selects.sisect d a b
  | .smerge d a b => Selects.smerge d a b
  | .xbind a n => Selects.xbind a n
  | .xsend a b n => Selects.xsend a b n
  | .xsendM a b n => Selects.xsendM a b n
  | .xsendv a b n => Selects.xsendv a b n
  | .xend n => Selects.xend n
  | .xsplitRd d a n => Selects.xsplitRd d a n
  | .xsplitIn d a n => Selects.xsplitIn d a n
  | .vsetl d a r f s => Selects.vsetl d a r f s
  | .rpt n k s x y z => Selects.rpt n k s x y z
  | .vadd d a b m r => Selects.vadd d a b m r
  | .vsub d a b m r => Selects.vsub d a b m r
  | .vmul d a b m r => Selects.vmul d a b m r
  | .vmulh d a b m r => Selects.vmulh d a b m r
  | .vmulhU d a b m r => Selects.vmulhU d a b m r
  | .vmin d a b m r => Selects.vmin d a b m r
  | .vminU d a b m r => Selects.vminU d a b m r
  | .vmax d a b m r => Selects.vmax d a b m r
  | .vmaxU d a b m r => Selects.vmaxU d a b m r
  | .vand d a b m r => Selects.vand d a b m r
  | .vor d a b m r => Selects.vor d a b m r
  | .vxor d a b m r => Selects.vxor d a b m r
  | .vsll d a b m r => Selects.vsll d a b m r
  | .vsrl d a b m r => Selects.vsrl d a b m r
  | .vsra d a b m r => Selects.vsra d a b m r
  | .vcmpEq d a b m r => Selects.vcmpEq d a b m r
  | .vcmpNe d a b m r => Selects.vcmpNe d a b m r
  | .vcmpLt d a b m r => Selects.vcmpLt d a b m r
  | .vcmpLtu d a b m r => Selects.vcmpLtu d a b m r
  | .vcmpLe d a b m r => Selects.vcmpLe d a b m r
  | .vcmpLeu d a b m r => Selects.vcmpLeu d a b m r
  | .vsel d a b r => Selects.vsel d a b r
  | .vaddVs d a b m r => Selects.vaddVs d a b m r
  | .vsubVs d a b m r => Selects.vsubVs d a b m r
  | .vmulVs d a b m r => Selects.vmulVs d a b m r
  | .vmulhVs d a b m r => Selects.vmulhVs d a b m r
  | .vmulhUVs d a b m r => Selects.vmulhUVs d a b m r
  | .vminVs d a b m r => Selects.vminVs d a b m r
  | .vminUVs d a b m r => Selects.vminUVs d a b m r
  | .vmaxVs d a b m r => Selects.vmaxVs d a b m r
  | .vmaxUVs d a b m r => Selects.vmaxUVs d a b m r
  | .vandVs d a b m r => Selects.vandVs d a b m r
  | .vorVs d a b m r => Selects.vorVs d a b m r
  | .vxorVs d a b m r => Selects.vxorVs d a b m r
  | .vsllVs d a b m r => Selects.vsllVs d a b m r
  | .vsrlVs d a b m r => Selects.vsrlVs d a b m r
  | .vsraVs d a b m r => Selects.vsraVs d a b m r
  | .vcmpEqVs d a b m r => Selects.vcmpEqVs d a b m r
  | .vcmpNeVs d a b m r => Selects.vcmpNeVs d a b m r
  | .vcmpLtVs d a b m r => Selects.vcmpLtVs d a b m r
  | .vcmpLtuVs d a b m r => Selects.vcmpLtuVs d a b m r
  | .vcmpLeVs d a b m r => Selects.vcmpLeVs d a b m r
  | .vcmpLeuVs d a b m r => Selects.vcmpLeuVs d a b m r
  | .vselVs d a b r => Selects.vselVs d a b r
  | .vfadd d a b m r => Selects.vfadd d a b m r
  | .vfsub d a b m r => Selects.vfsub d a b m r
  | .vfmul d a b m r => Selects.vfmul d a b m r
  | .vfma d a b m r => Selects.vfma d a b m r
  | .vfdiv d a b m r => Selects.vfdiv d a b m r
  | .vfsqrt d a m r => Selects.vfsqrt d a m r
  | .vfmin d a b m r => Selects.vfmin d a b m r
  | .vfmax d a b m r => Selects.vfmax d a b m r
  | .vfexp2 d a m r => Selects.vfexp2 d a m r
  | .vfrsqrt d a m r => Selects.vfrsqrt d a m r
  | .vfcmpEq d a b m r => Selects.vfcmpEq d a b m r
  | .vfcmpLt d a b m r => Selects.vfcmpLt d a b m r
  | .vfcmpLe d a b m r => Selects.vfcmpLe d a b m r
  | .vfcmpUn d a b m r => Selects.vfcmpUn d a b m r
  | .vfaddVs d a b m r => Selects.vfaddVs d a b m r
  | .vfsubVs d a b m r => Selects.vfsubVs d a b m r
  | .vfmulVs d a b m r => Selects.vfmulVs d a b m r
  | .vfmaVs d a b m r => Selects.vfmaVs d a b m r
  | .vfdivVs d a b m r => Selects.vfdivVs d a b m r
  | .vfminVs d a b m r => Selects.vfminVs d a b m r
  | .vfmaxVs d a b m r => Selects.vfmaxVs d a b m r
  | .vfcmpEqVs d a b m r => Selects.vfcmpEqVs d a b m r
  | .vfcmpLtVs d a b m r => Selects.vfcmpLtVs d a b m r
  | .vfcmpLeVs d a b m r => Selects.vfcmpLeVs d a b m r
  | .vfcmpUnVs d a b m r => Selects.vfcmpUnVs d a b m r
  | .vredAdd d a m r => Selects.vredAdd d a m r
  | .vredAnd d a m r => Selects.vredAnd d a m r
  | .vredOr d a m r => Selects.vredOr d a m r
  | .vredXor d a m r => Selects.vredXor d a m r
  | .vredMin d a m r => Selects.vredMin d a m r
  | .vredMax d a m r => Selects.vredMax d a m r
  | .vredMinu d a m r => Selects.vredMinu d a m r
  | .vredMaxu d a m r => Selects.vredMaxu d a m r
  | .vfredAdd d a m r => Selects.vfredAdd d a m r
  | .vfredMin d a m r => Selects.vfredMin d a m r
  | .vfredMax d a m r => Selects.vfredMax d a m r
  | .vslideUp d a b m r => Selects.vslideUp d a b m r
  | .vslideDown d a b m r => Selects.vslideDown d a b m r
  | .vperm d a b m r => Selects.vperm d a b m r
  | .vcompress d a r => Selects.vcompress d a r
  | .vexpand d a r => Selects.vexpand d a r
  | .mand d a b => Selects.mand d a b
  | .mor d a b => Selects.mor d a b
  | .mxor d a b => Selects.mxor d a b
  | .mnot d a => Selects.mnot d a
  | .mpop d a => Selects.mpop d a
  | .mfirst d a => Selects.mfirst d a
  | .mbreak d a => Selects.mbreak d a
  | .vcvt d a t m r => Selects.vcvt d a t m r
  | .vmvV d a m r => Selects.vmvV d a m r
  | .vmvS d a m r => Selects.vmvS d a m r
  | .vmvRaw d a t => Selects.vmvRaw d a t
  | .vidx d m r => Selects.vidx d m r
  | .vextr d a b => Selects.vextr d a b
  | .vins d a b => Selects.vins d a b
  | .vsort d a m r => Selects.vsort d a m r
  | .vsortKv d a b m r => Selects.vsortKv d a b m r
  | .vld d a b m r => Selects.vld d a b m r
  | .vlds d a b m r => Selects.vlds d a b m r
  | .vldseg d a m r f => Selects.vldseg d a m r f
  | .vldff d a b m r => Selects.vldff d a b m r
  | .vst d a b m r => Selects.vst d a b m r
  | .vsts d a b m r => Selects.vsts d a b m r
  | .vstseg d a m r f => Selects.vstseg d a m r f
  | .vstq d a b m r => Selects.vstq d a b m r
  | .vldx d a b m r w => Selects.vldx d a b m r w
  | .vstx d a b m r w => Selects.vstx d a b m r w
  | .vstxOrd d a b m r w => Selects.vstxOrd d a b m r w
  | .vamoAdd d a b m r o e q => Selects.vamoAdd d a b m r o e q
  | .vamoAnd d a b m r o e q => Selects.vamoAnd d a b m r o e q
  | .vamoOr d a b m r o e q => Selects.vamoOr d a b m r o e q
  | .vamoXor d a b m r o e q => Selects.vamoXor d a b m r o e q
  | .vamoSmin d a b m r o e q => Selects.vamoSmin d a b m r o e q
  | .vamoSmax d a b m r o e q => Selects.vamoSmax d a b m r o e q
  | .vamoUmin d a b m r o e q => Selects.vamoUmin d a b m r o e q
  | .vamoUmax d a b m r o e q => Selects.vamoUmax d a b m r o e q
  | .vamoSwap d a b m r o e q => Selects.vamoSwap d a b m r o e q
  | .vamoFmax d a b m r o e q => Selects.vamoFmax d a b m r o e q
  | .vamoAddb d a b m r o e q => Selects.vamoAddb d a b m r o e q
  | .vwait d a b m r c => Selects.vwait d a b m r c
  | .mshape d a f => Selects.mshape d a f
  | .mzero t => Selects.mzero t
  | .mldb d a b u f => Selects.mldb d a b u f
  | .mma d a b t u f => Selects.mma d a b t u f
  | .mst d a t => Selects.mst d a t
  | .mmovTo d a t => Selects.mmovTo d a t
  | .mmovFrom d a t => Selects.mmovFrom d a t
  | .entrySelection ctx => Selects.entrySelection ctx
  | .lookAhead ctx => Selects.lookAhead ctx
  | .preemption die seq => Selects.preemption die seq
  | .fullSwitch ctx => Selects.fullSwitch ctx
  | .reclaimFallback ctx => Selects.reclaimFallback ctx
  | .taskBudgetExceeded ctx => Selects.taskBudgetExceeded ctx
  | .trapEntry ctx => Selects.trapEntry ctx
  | .pageTableWalk core kind va => Selects.pageTableWalk core kind va
  | .walkStalled ctx => Selects.walkStalled ctx
  | .sptEntryBusyTimeout ctx => Selects.sptEntryBusyTimeout ctx
  | .stashFill ctx page => Selects.stashFill ctx page
  | .stashLineFill ctx page line => Selects.stashLineFill ctx page line
  | .pull ctx page => Selects.pull ctx page
  | .copyCountStep ctx slot => Selects.copyCountStep ctx slot
  | .commandCompletionArrival ctx slot => Selects.commandCompletionArrival ctx slot
  | .engineFault ctx slot => Selects.engineFault ctx slot
  | .postedStorePerform id => Selects.postedStorePerform id
  | .postedStoreAcknowledgement id => Selects.postedStoreAcknowledgement id
  | .sendPortHandover ch slot => Selects.sendPortHandover ch slot
  | .mergePointForward ch point => Selects.mergePointForward ch point
  | .recordDelivery ch dest => Selects.recordDelivery ch dest
  | .consumedPoll ch dest => Selects.consumedPoll ch dest
  | .roundCompletion ch dest => Selects.roundCompletion ch dest
  | .deliveryRetry ch dest => Selects.deliveryRetry ch dest
  | .sieveClose ch => Selects.sieveClose ch
  | .channelWatchdog ch => Selects.channelWatchdog ch
  | .barwaitLimitExpiry ctx => Selects.barwaitLimitExpiry ctx
  | .vwaitLimitExpiry ctx => Selects.vwaitLimitExpiry ctx
  | .containment core unreadable => Selects.containment core unreadable
  | .linePoisoning line => Selects.linePoisoning line
  | .softErrorCorrection pkg hbm count => Selects.softErrorCorrection pkg hbm count
  | .linkFailure pkg link => Selects.linkFailure pkg link
  | .linkTraining pkg link peer => Selects.linkTraining pkg link peer
  | .eventEntryWrite pkg => Selects.eventEntryWrite pkg
  | .powerControlPeriod pkg watts => Selects.powerControlPeriod pkg watts
  | .thermalThrottle pkg tj => Selects.thermalThrottle pkg tj
  | .thermalShutdown pkg tj => Selects.thermalShutdown pkg tj
  | .firmwareVerification pkg => Selects.firmwareVerification pkg
  | .firmwareLoad pkg image => Selects.firmwareLoad pkg image
  | .spdmRequest pkg request => Selects.spdmRequest pkg request
  | .ideKm pkg key => Selects.ideKm pkg key
  | .lockInterface pkg => Selects.lockInterface pkg
  | .startInterface pkg => Selects.startInterface pkg
  | .stopInterface pkg => Selects.stopInterface pkg
  | .ideIntegrityFailure pkg => Selects.ideIntegrityFailure pkg
  | .hostMemoryAccess pkg access => Selects.hostMemoryAccess pkg access
  | .hostRegisterWrite pkg offset value => Selects.hostRegisterWrite pkg offset value
  | .hostResume pkg value => Selects.hostResume pkg value
  | .hostAbandon pkg value => Selects.hostAbandon pkg value
  | .hspawn pkg value => Selects.hspawn pkg value
  | .pkgcfg pkg value => Selects.pkgcfg pkg value
  | .evbase pkg value => Selects.evbase pkg value
  | .evsize pkg value => Selects.evsize pkg value
  | .evhead pkg value => Selects.evhead pkg value
  | .dieReset die => Selects.dieReset die
  | .commandCompletion ctx slot => Selects.commandCompletion ctx slot
  | .pciExpressPortTraining pkg width rate => Selects.pciExpressPortTraining pkg width rate
  | .linkRekeying pkg link => Selects.linkRekeying pkg link

/-- The checks of R73 pass on the word of a well-formed instruction. -/
theorem decode_encode {i : Instr} (h : i.wellFormed = true) : decode (encode i) = .ok i := by
  obtain ⟨unused, hsel, hzero⟩ := selects i h
  obtain ⟨legal, spare⟩ : i.legal = true ∧ i.spare = true := by simpa [Instr.wellFormed] using h
  simp [decode, hsel, legal, hzero, spare]

/-- The four bytes of a word, put together again (R2). -/
theorem wordOfBytes_bytesOfWord (w : BitVec 32) :
    wordOfBytes (w.extractLsb' 0 8) (w.extractLsb' 8 8) (w.extractLsb' 16 8) (w.extractLsb' 24 8) = w := by
  unfold wordOfBytes
  ext k hk
  simp only [BitVec.getElem_append, BitVec.getElem_extractLsb']
  grind

/-- Decoding of bytes is decoding of the word they make, with what follows left over. -/
theorem decodeBytes_bytesOfWord (w : BitVec 32) (rest : List Byte) :
    decodeBytes (bytesOfWord w ++ rest) = (decode w).map fun i => (i, rest) := by
  simp only [bytesOfWord, List.cons_append, List.nil_append, decodeBytes, wordOfBytes_bytesOfWord]
  cases decode w <;> rfl

/-- Settles O11: each row's lemma on its own word, and the bytes of a word make the word. -/
theorem encodeDecode : Obligations.EncodeDecode := by
  intro i h
  refine ⟨decode_encode h, fun rest => ?_⟩
  rw [decodeBytes_bytesOfWord, decode_encode h]
  rfl

end Sys2Proof.Laws


/-! ## Finding the places of an address -/

namespace Sys2Proof.Machine

open Sys2Proof.Claims

/-- What finding places never touches. -/
def State.untouched (s : State) :=
  (s.pkgs, s.posted, s.nextPosted, s.episodes, s.nextEpisode, s.parked, s.chans, s.reruns, s.agenda, s.cur, s.free, s.nextTid, s.ticks)

/-- The second state is the first after places have been found: the frame of `Obligations.AddressedPlaces`. -/
structure Relocated (s t : State) : Prop where
  rest : t.untouched = s.untouched
  ahead : ∀ c, SameButAhead (s.ctx c) (t.ctx c)
  orphans : ∃ f, t.orphans = s.orphans.map fun o => { o with command := o.command.mapAhead f }
  units : ∀ k, (t.core k).mu = (s.core k).mu
  dies : ∀ d, t.die d = { s.die d with corrupted := (t.die d).corrupted }

@[simp] theorem Command.mapAhead_id (k : Command) : k.mapAhead id = k := rfl

theorem Ctx.mapAhead_id (x : Ctx) : x.mapAhead id = x := by
  simp [Ctx.mapAhead]

theorem Ctx.mapAhead_mapAhead (x : Ctx) (f g : List (Loc × Nat) → List (Loc × Nat)) :
    (x.mapAhead f).mapAhead g = x.mapAhead (g ∘ f) := by
  simp [Ctx.mapAhead, Function.comp_def, Command.mapAhead]

theorem sameButAhead_refl (x : Ctx) : SameButAhead x x := ⟨id, x.mapAhead_id.symm⟩

theorem sameButAhead_trans {x y z : Ctx} (h : SameButAhead x y) (k : SameButAhead y z) : SameButAhead x z := by
  obtain ⟨f, rfl⟩ := h
  obtain ⟨g, rfl⟩ := k
  exact ⟨g ∘ f, x.mapAhead_mapAhead f g⟩

/-- What holds between each value of a table and its image holds between what the tables give. -/
theorem tableGet_map {α : Type} (R : α → α → Prop) (f : Nat → α → α) (t : List (Nat × α)) (k : Nat) {d : α} (unlisted : R d d)
    (listed : ∀ j x, R x (f j x)) : R (tableGet t k d) (tableGet (t.map fun e => (e.1, f e.1 e.2)) k d) := by
  have keys : ((fun e : Nat × α => e.1 == k) ∘ fun e : Nat × α => (e.1, f e.1 e.2)) = fun e => e.1 == k := rfl
  unfold tableGet
  rw [List.find?_map, keys]
  cases t.find? fun e => e.1 == k with
  | none => exact unlisted
  | some e => exact listed e.1 e.2

namespace Relocated

theorem refl (s : State) : Relocated s s :=
  ⟨rfl, fun c => sameButAhead_refl _, ⟨id, by simp⟩, fun _ => rfl, fun _ => rfl⟩

theorem trans {s t u : State} (h : Relocated s t) (k : Relocated t u) : Relocated s u where
  rest := k.rest.trans h.rest
  ahead c := sameButAhead_trans (h.ahead c) (k.ahead c)
  orphans := by
    obtain ⟨f, hf⟩ := h.orphans
    obtain ⟨g, hg⟩ := k.orphans
    exact ⟨g ∘ f, by simp [hg, hf, Command.mapAhead]⟩
  units j := (k.units j).trans (h.units j)
  dies d := by rw [k.dies d, h.dies d]

/-- The whole frame as `Obligations.AddressedPlaces` states it. -/
theorem eq {s t : State} (h : Relocated s t) :
    t = { s with mem := t.mem, poison := t.poison, ctxs := t.ctxs, cores := t.cores, clock := t.clock, spt := t.spt, tlb := t.tlb, pins := t.pins,
                 sources := t.sources, orphans := t.orphans, dies := t.dies } := by
  have := h.rest
  cases s
  cases t
  simp_all [State.untouched]

/-- Memory, poison, caches, clock and past moments may change. -/
theorem of_tables {s t : State} (rest : t.untouched = s.untouched) (ctxs : t.ctxs = s.ctxs) (orphans : t.orphans = s.orphans)
    (cores : t.cores = s.cores) (dies : t.dies = s.dies) : Relocated s t where
  rest := rest
  ahead c := by simpa [State.ctx, ctxs] using sameButAhead_refl _
  orphans := ⟨id, by simp [orphans]⟩
  units k := by simp [State.core, cores]
  dies d := by simp [State.die, dies]

/-- A core may change but for its matrix unit. -/
theorem setCore (s : State) (k : Nat) (x : Core) (h : x.mu = (s.core k).mu) : Relocated s (s.setCore k x) where
  __ := refl s
  units j := by
    by_cases hj : j = k
    · subst hj; simpa using h
    · rw [core_setCore_other _ _ _ _ hj]

theorem put (s : State) (l : Loc) (b : Byte) : Relocated s (s.put l b) := by
  cases l with
  | phys a => exact of_tables rfl rfl rfl rfl rfl
  | frame k i o =>
    unfold State.put
    dsimp only
    split
    · exact setCore _ _ _ rfl
    · exact refl s

theorem remember (s : State) (l : Loc) : Relocated s (s.remember l) := by
  unfold State.remember
  split
  · exact of_tables rfl rfl rfl rfl rfl
  · exact refl s

theorem setLocs (s : State) (w : List (Loc × Byte)) : Relocated s (s.setLocs w) := by
  induction w generalizing s with
  | nil => exact refl s
  | cons e w ih => exact ((remember s e.1).trans (put _ e.1 e.2)).trans (ih _)

theorem clearPoison (s : State) (ls : List Loc) : Relocated s (s.clearPoison ls) := by
  unfold State.clearPoison
  split
  · exact refl s
  · exact of_tables rfl rfl rfl rfl rfl

theorem clearFrames (s : State) (ls : List Loc) : Relocated s (s.clearFrames ls) := by
  unfold State.clearFrames
  split
  · refine { refl s with units := fun k => ?_ }
    exact tableGet_map (fun x y => y.mu = x.mu) (fun k c => c.clearPoison k ls) s.cores k rfl fun _ _ => rfl
  · exact refl s

theorem watchQueues (s : State) (ls : List Loc) : Relocated s (s.watchQueues ls) := by
  unfold State.watchQueues
  split
  · refine { refl s with dies := fun d => ?_ }
    exact tableGet_map (fun x y => y = { x with corrupted := y.corrupted })
      (fun d q => { q with corrupted := q.corrupted || ls.any (q.holdsPlace d) }) s.dies d (d := Die.reset) rfl fun _ _ => rfl
  · exact refl s

theorem writeLocs (s : State) (w : List (Loc × Byte)) : Relocated s (s.writeLocs w) :=
  (((setLocs s w).trans (clearPoison _ _)).trans (clearFrames _ _)).trans (watchQueues _ _)

theorem mapPlaces (s : State) (f : {α : Type} → List (Loc × α) → List (Loc × α)) : Relocated s (s.mapPlaces f) := by
  have saved : Relocated s (if s.keeps then s.mapSaved f else s) := by
    split
    exacts [of_tables rfl rfl rfl rfl rfl, refl s]
  unfold State.mapPlaces
  extract_lets t
  split
  · exact saved.trans
      ⟨rfl, fun c => tableGet_map SameButAhead (fun _ x => x.mapAhead f) _ c (sameButAhead_refl _) fun _ _ => ⟨f, rfl⟩, ⟨f, rfl⟩,
        fun _ => rfl, fun _ => rfl⟩
  · exact saved

theorem pageLeaves (s : State) (k i : Nat) (f : Frame) : Relocated s (s.pageLeaves k i f) := by
  unfold State.pageLeaves
  split
  exacts [refl s, mapPlaces s _]

theorem pageEnters (s : State) (k i : Nat) (f : Frame) : Relocated s (s.pageEnters k i f) := by
  unfold State.pageEnters
  split
  exacts [refl s, mapPlaces s _]

theorem discard (s : State) (who : Who) (va : Nat) : Relocated s (s.discard who va) := of_tables rfl rfl rfl rfl rfl

theorem forgetEntry (s : State) (e : Nat) : Relocated s (s.forgetEntry e) := of_tables rfl rfl rfl rfl rfl

theorem tick (s : State) (n : Nat) : Relocated s { s with clock := n } := of_tables rfl rfl rfl rfl rfl

/-- A frame is given up, or filled: its core's matrix unit stays. -/
theorem frameLeft (s : State) (k i : Nat) (f : Frame) : Relocated s ((s.setCore k ((s.core k).freeFrame i)).pageLeaves k i f) :=
  (setCore s k ((s.core k).freeFrame i) rfl).trans (pageLeaves _ k i f)

theorem frameTouched (s : State) (k i n : Nat) (f : Frame) :
    Relocated s { s.setCore k ((s.core k).setFrame i f) with clock := n } :=
  (setCore s k ((s.core k).setFrame i f) rfl).trans (tick _ n)

theorem frameFilled (s : State) (k i n : Nat) (f : Frame) :
    Relocated s { (s.setCore k ((s.core k).setFrame i f)).pageEnters k i f with clock := n } :=
  ((setCore s k ((s.core k).setFrame i f) rfl).trans (pageEnters _ k i f)).trans (tick _ n)

end Relocated

/-! ### Every meaning that finds places -/

/-- A meaning whose every end is a relocation of the state it starts in. -/
structure Finds {α : Type} (m : M α) : Prop where
  reaches : ∀ s, Relocated s (m.run s).2

namespace Finds

theorem leaves {α : Type} {m : M α} : Finds m ↔ ∀ s, Leaves (Relocated s) m :=
  ⟨fun h _ t k => k.trans (h.reaches t), fun h => ⟨fun s => h s s (.refl s)⟩⟩

theorem seq {α β : Type} {m : M α} {f : α → M β} (first : Finds m) (second : ∀ a, Finds (f a)) : Finds (m >>= f) :=
  leaves.mpr fun s => (leaves.mp first s).seq fun a => leaves.mp (second a) s

theorem ret {α : Type} (a : α) : Finds (pure a : M α) := leaves.mpr fun _ => .ret a
theorem look : Finds getS := leaves.mpr fun _ => .look
theorem trap {α : Type} (c : BitVec 10) (i : Word) (r : FaultInfo) : Finds (trapM c i r : M α) := leaves.mpr fun _ => .trap c i r
theorem back {α : Type} (g : Nat) (w : Word) (r : Except Stop α) : Finds (backing g w r) := leaves.mpr fun _ => .back g w r
theorem caught {α : Type} {m : M α} (h : Finds m) : Finds (attempt m) := ⟨h.reaches⟩

/-- The rules for the operations of the monad, together. -/
theorem steps : (∀ (α : Type) (a : α), Finds (pure a : M α)) ∧ Finds getS ∧ (∀ (α : Type) (e : Stop), Finds (throw e : M α)) ∧
    (∀ (α : Type) (c : BitVec 10) (i : Word) (r : FaultInfo), Finds (trapM c i r : M α)) ∧
    (∀ (α : Type) (r : Except Stop α), Finds (liftE r)) ∧
    (∀ (α : Type) (g : Nat) (w : Word) (r : Except Stop α), Finds (backing g w r)) ∧
    (∀ f : State → State, (∀ s, Relocated s (f s)) → Finds (modS f)) ∧
    (∀ (α : Type) (m : M α), Finds m → Finds (attempt m)) ∧
    ∀ (α β : Type) (m : M α) (f : α → M β), Finds m → (∀ a, Finds (f a)) → Finds (m >>= f) :=
  ⟨fun _ => ret, look, fun _ e => leaves.mpr fun _ => .stop e, fun _ => trap, fun _ r => leaves.mpr fun _ => .lift r, fun _ => back,
    fun _ h => ⟨h⟩, fun _ _ => caught, fun _ _ _ _ => seq⟩

theorem translateM (who : Who) (a : Access) (va : Nat) : Finds (translateM who a va) := by
  unfold Machine.translateM
  grind [steps, Relocated.discard]

theorem globalLoc (who : Who) (a : Access) (va : Nat) : Finds (globalLoc who a va) := by
  unfold Machine.globalLoc
  grind [steps, translateM]

theorem globalLocs (who : Who) (a : Access) (va n : Nat) : Finds (globalLocs who a va n) := by
  suffices h : ∀ n va last, Finds (globalFrom who a va last n) from h n va none
  intro n
  induction n with
  | zero => grind [steps, globalFrom]
  | succ n ih =>
    intro va last
    unfold globalFrom
    grind [steps, globalLoc]

theorem setEntry (who : Who) (e v : Nat) : Finds (setEntry who e v) := by
  unfold Machine.setEntry
  grind [steps, globalLocs, Relocated.trans, Relocated.setLocs, Relocated.forgetEntry]

theorem readEntry (who : Who) (va : Nat) : Finds (readEntry who va) := by
  unfold Machine.readEntry
  grind [steps, globalLocs]

theorem writeBack (who : Who) (k : Nat) (f : Frame) : Finds (writeBack who k f) := by
  unfold Machine.writeBack
  grind [steps, translateM, Relocated.writeLocs]

theorem takeFrame (who : Who) (k g : Nat) : Finds (takeFrame who k g) := by
  unfold Machine.takeFrame
  refine look.seq fun s => ?_
  dsimp only
  split
  · exact ret _
  split
  · exact ret _
  · exact (writeBack _ _ _).caught.seq fun _ => (back _ _ _).seq fun _ => (setEntry _ _ _).caught.seq fun _ => (back _ _ _).seq fun _ =>
      seq ⟨fun t => Relocated.frameLeft t _ _ _⟩ fun _ => ret _

theorem fillPage (who : Who) (g e v : Nat) : Finds (fillPage who g e v) := by
  unfold Machine.fillPage
  refine (takeFrame _ _ _).seq fun i => ?_
  obtain _ | i := i
  · exact leaves.mpr fun _ => .stop _
  refine (translateM _ _ _).caught.seq fun _ => (back _ _ _).seq fun _ => look.seq fun s => ?_
  split
  · exact (setEntry _ _ _).seq fun _ => seq ⟨fun t => Relocated.frameFilled t _ _ _ _⟩ fun _ => ret _
  · exact trap _ _ _

theorem touchFrame (who : Who) (a : Access) (g e k i : Nat) : Finds (touchFrame who a g e k i) := by
  unfold Machine.touchFrame
  grind [steps, translateM, Relocated.frameTouched]

theorem stashLoc (who : Who) (a : Access) (g : Nat) : Finds (stashLoc who a g) := by
  unfold Machine.stashLoc
  grind [steps, readEntry, fillPage, touchFrame]

theorem locate (who : Who) (a : Access) (va : Nat) : Finds (locate who a va) := by
  unfold Machine.locate
  grind [steps, stashLoc, globalLoc]

theorem locateBytes (who : Who) (a : Access) (va n : Nat) : Finds (locateBytes who a va n) := by
  suffices h : ∀ n va last, Finds (locateFrom who a va last n) from h n va none
  intro n
  induction n with
  | zero => grind [steps, locateFrom]
  | succ n ih =>
    intro va last
    unfold locateFrom
    grind [steps, locate]

end Finds

/-! ### The places of one line -/

/-- What an access leaves of the cached translations: those that fail it are discarded (R156). -/
def State.afterTranslate (s : State) (who : Who) (kind : Access) (va : Nat) : State :=
  if cacheFails s who kind va then s.discard who va else s

theorem run_liftE {α : Type} (r : Except Stop α) (s : State) : (liftE r : M α).run s = (r, s) := by
  cases r <;> rfl

theorem run_translateM (who : Who) (kind : Access) (va : Nat) (s : State) :
    (translateM who kind va).run s = (translate s who kind va, s.afterTranslate who kind va) := by
  unfold translateM State.afterTranslate
  by_cases h : cacheFails s who kind va = true <;> simp [h, run_liftE]

@[simp] theorem afterTranslate_pkgs (s : State) (who : Who) (kind : Access) (va : Nat) :
    (s.afterTranslate who kind va).pkgs = s.pkgs := by
  unfold State.afterTranslate
  split <;> rfl

@[simp] theorem afterTranslate_poison (s : State) (who : Who) (kind : Access) (va : Nat) :
    (s.afterTranslate who kind va).poison = s.poison := by
  unfold State.afterTranslate
  split <;> rfl

/-- A global byte whose translation is found: what lies at the address reached decides (R19, R155, R265). -/
theorem run_globalLoc {who : Who} {kind : Access} {va a : Nat} {s : State} (h : translate s who kind va = .ok a) :
    (globalLoc who kind va).run s =
      ((physical s (pkgOfCore who.core) a).elim (.error (.trap 0x382 (word va) (atAddr va 0))) fun pa =>
        if poisoned s pa && kind != .write then .error (.trap 0x381 (word va) (atAddr va 0)) else .ok pa,
       s.afterTranslate who kind va) := by
  have same : physical (s.afterTranslate who kind va) = physical s :=
    funext fun p => funext fun b => physical_congr (afterTranslate_pkgs s who kind va) p b
  have lines (pa : Nat) : poisoned (s.afterTranslate who kind va) pa = poisoned s pa := by simp [poisoned]
  simp only [globalLoc, run_bind, run_translateM, h, run_getS, same, lines]
  cases physical s (pkgOfCore who.core) a with
  | none => rfl
  | some pa => dsimp only [Option.elim]; split <;> rfl

theorem inWindow_of_lt {va : Nat} (h : va < 2 ^ 55) : inWindow va = false := by
  have : ¬windowBase ≤ va := by unfold windowBase; omega
  simp [inWindow, this]

/-- A global address is located by its translation. -/
theorem run_locate_global {who : Who} {kind : Access} {va : Nat} {s t : State} {r : Except Stop Nat} (hv : va < 2 ^ 55)
    (h : (globalLoc who kind va).run s = (r, t)) : (locate who kind va).run s = (r.map .phys, t) := by
  simp only [locate, inWindow_of_lt hv, Bool.false_eq_true, ↓reduceIte, Nat.not_le.mpr hv, run_bind, h]
  cases r <;> rfl

/-- A line is located by its first byte, or not at all. -/
theorem run_locateBytes_line {who : Who} {kind : Access} {va n pa : Nat} {s t : State} (hv : va < 2 ^ 55) (hn : 0 < n)
    (hl : va % 64 + n ≤ 64) (h : (locate who kind va).run s = (.ok (.phys pa), t)) :
    (locateBytes who kind va n).run s = (.ok (physLocs pa n), t) := by
  obtain ⟨m, rfl⟩ : ∃ m, n = m + 1 := ⟨n - 1, by omega⟩
  have inside : (va + 1) % 2 ^ 64 = va + 1 := Nat.mod_eq_of_lt (by omega)
  simp only [locateBytes, locateFrom, run_bind, h, inside, physLocs_succ]
  rcases Nat.eq_zero_or_pos m with rfl | pos
  · rfl
  · have same : ((va + 1) % 64 == 0) = false := by simp; omega
    simp [same, Loc.plus, run_locateFrom_line who kind t (va + 1) (pa + 1) m (by omega) (by omega)]

/-- An access stops where its first byte does. -/
theorem run_locateBytes_stop {who : Who} {kind : Access} {va n : Nat} {e : Stop} {s t : State} (hn : 0 < n)
    (h : (locate who kind va).run s = (.error e, t)) : (locateBytes who kind va n).run s = (.error e, t) := by
  obtain ⟨m, rfl⟩ : ∃ m, n = m + 1 := ⟨n - 1, by omega⟩
  simp [locateBytes, locateFrom, h]

/-- An address that no access can use (R136). -/
theorem run_locate_unusable {who : Who} {kind : Access} {va : Nat} {s : State} (hw : inWindow va = false) (hv : 2 ^ 55 ≤ va) :
    (locate who kind va).run s = (.error (.trap 0x1C4 (word va) (atAddr va 0)), s) := by
  simp only [locate, hw, Bool.false_eq_true, ↓reduceIte, hv, run_trapM]

/-- Posted stores and port accesses do not reach the stash (R136). -/
theorem run_locate_path {who : Who} {kind : Access} {va : Nat} {s : State} (hw : inWindow va = true)
    (hp : who.path = .p ∨ who.path = .x) : (locate who kind va).run s = (.error (.trap 0x1C4 (word va) (atAddr va 0)), s) := by
  simp [locate, hw, stashLoc, hp]

/-- Settles O8: the first byte is translated and leads the others; unusable addresses stop before any translation; and
finding places is a relocation of the state. -/
theorem addressedPlaces : Obligations.AddressedPlaces := by
  refine ⟨fun who kind va n s a hv hn hl ha => ?_, fun who kind va n s hn _ => ⟨fun hw hv => ?_, fun hw hp => ?_⟩,
    fun who kind va n s => ?_⟩
  · have first := run_locate_global hv (run_globalLoc ha)
    refine ⟨fun pa hpa => ⟨fun whole => ?_, fun hk poison => ?_⟩, fun nothing => ?_⟩
    · have passes : (poisoned s pa && kind != .write) = false := by rcases whole with rfl | clean <;> simp [*]
      simp only [hpa, Option.elim, passes, Bool.false_eq_true, ↓reduceIte] at first
      exact run_locateBytes_line hv hn hl first
    · have stops : (poisoned s pa && kind != .write) = true := by simp [poison, hk]
      simp only [hpa, Option.elim, stops, ↓reduceIte] at first
      exact run_locateBytes_stop hn first
    · simp only [nothing, Option.elim] at first
      exact run_locateBytes_stop hn first
  · exact run_locateBytes_stop hn (run_locate_unusable hw hv)
  · exact run_locateBytes_stop hn (run_locate_path hw hp)
  · have found := (Finds.locateBytes who kind va n).reaches s
    exact ⟨found.eq, found.ahead, found.orphans, found.units, found.dies⟩

end Sys2Proof.Machine


/-! ## A step runs the decoded instruction -/

namespace Sys2Proof.Machine

open Sys2Proof.Claims

/-- What finding places leaves of a context, but for what commands have performed ahead. -/
theorem sameButAhead_eq {x y : Ctx} (h : SameButAhead x y) : y = { x with cmds := y.cmds } := by
  obtain ⟨f, rfl⟩ := h
  rfl

theorem Relocated.cur {s t : State} (h : Relocated s t) : t.cur = s.cur := by
  rw [h.eq]

theorem Relocated.me {s t : State} (h : Relocated s t) : t.me = { s.me with cmds := t.me.cmds } := by
  have := sameButAhead_eq (h.ahead s.cur)
  rwa [← me_eq, ← h.cur, ← me_eq] at this

theorem ofBytes_eq_leNat (bs : List Byte) : ofBytes bs = leNat bs := by
  induction bs with
  | nil => rfl
  | cons b bs ih => simp only [ofBytes, ih]; rfl

/-- A context with a word to fetch from memory, and the places where that word lies. -/
structure Fetches (u t : State) (ls : List Loc) : Prop where
  ending : u.me.ending = false
  fences : u.me.fences = []
  ahead : ∀ e ∈ u.me.prefetched, e.1 ≠ u.me.pc.toNat
  found : (locateBytes u.who .fetch u.me.pc.toNat 4).run u = (.ok ls, t)

/-- The word that is fetched, the lowest byte first (R2). -/
def fetched (t : State) (ls : List Loc) : BitVec 32 := BitVec.ofNat 32 (leNat (ls.map t.locByte))

namespace Fetches
variable {u t : State} {ls : List Loc}

theorem relocated (h : Fetches u t ls) : Relocated u t := by
  have := (Finds.locateBytes u.who .fetch u.me.pc.toNat 4).reaches u
  rwa [h.found] at this

theorem fences_after (h : Fetches u t ls) : t.me.fences = [] := by
  rw [h.relocated.me]; exact h.fences

theorem flight_after (h : Fetches u t ls) : t.me.noneInFlight = u.me.noneInFlight := by
  rw [h.relocated.me]; rfl

theorem run_fetchWord (h : Fetches u t ls) : (fetchWord u.who u.me.pc.toNat).run u = (.ok (fetched t ls), t) := by
  have none_ahead : u.me.prefetched.find? (fun e => e.1 == u.me.pc.toNat && (e.2.1 || u.who.mode == .supervisor)) = none :=
    List.find?_eq_none.mpr fun e he => by simp [h.ahead e he]
  simp only [fetchWord, run_bind, run_getS, none_ahead, h.found, run_pure, ofBytes_eq_leNat, fetched]

theorem nextInstr_ok (h : Fetches u t ls) {i : Instr} (hd : decode (fetched t ls) = .ok i) : u.nextInstr = .ok (i, t) := by
  simp [State.nextInstr, h.ending, h.run_fetchWord, hd]

theorem nextInstr_illegal (h : Fetches u t ls) (hd : decode (fetched t ls) = .error .illegal) :
    u.nextInstr = .error (t.trapNow 0x001 ((fetched t ls).setWidth 64) noInfo) := by
  simp [State.nextInstr, h.ending, h.run_fetchWord, hd]

theorem nextInstr_reserved (h : Fetches u t ls) (hd : decode (fetched t ls) = .error .reserved) :
    u.nextInstr = .error (t.trapNow 0x002 ((fetched t ls).setWidth 64) noInfo) := by
  simp [State.nextInstr, h.ending, h.run_fetchWord, hd]

end Fetches

/-- With no fence waited for there is none to end. -/
theorem State.endFences_of_nil (s : State) (c : Nat) (h : (s.ctx c).fences = []) : s.endFences c = s := by
  simp [State.endFences, h]

theorem State.flush_idle (s : State) (c : Nat) (h : (s.ctx c).noneInFlight = true) (hv : (s.ctx c).vAfter = 0)
    (hs : (s.ctx c).sAfter = 0) : s.flush c = s := by
  have stores : (s.ctx c).onlyStores = true := by
    simp only [Ctx.noneInFlight, Bool.and_eq_true, List.isEmpty_iff] at h
    simp [Ctx.onlyStores, h]
  simp [State.flush, stores, s.storesDone_idle c h, hv, hs]

theorem fenced_of_nil {x : Ctx} (h : x.fences = []) (i : Instr) : x.fenced i = false := by
  simp [Ctx.fenced, h]

/-- With nothing in flight and no fence an instruction is `exec`. -/
theorem perform_idle {i : Instr} {s : State} (h : s.me.noneInFlight = true) (hf : s.me.fences = []) (hn : needOf i ≠ .every) :
    perform i s = exec i s := by
  simp [perform, h, hf, hn]

/-- What an instruction waits for comes first. -/
theorem perform_settled {i : Instr} {s : State} (h : needOf i = .every ∨ s.me.noneInFlight = false)
    (hp : (s.prepare s.cur i (needOf i)).me.noneInFlight = true) (hf : (s.prepare s.cur i (needOf i)).me.fences = []) :
    perform i s = exec i (s.prepare s.cur i (needOf i)) := by
  have late : (s.me.noneInFlight && s.me.fences.isEmpty && needOf i != .every) = false := by
    rcases h with h | h <;> simp [h]
  simp [perform, late, hp, hf]

/-- An instruction that goes on, or TRAP, leaves the rest in flight (R353). -/
theorem perform_goesOn {i : Instr} {s v : State} (h : s.me.noneInFlight = false)
    (he : exec i (s.prepare s.cur i (needOf i)) = .next v)
    (hw : wentOn (s.prepare s.cur i (needOf i)).me v.me = true ∨ isTrap i = true) : perform i s = .next v := by
  simp only [perform, h, Bool.false_and, Bool.false_eq_true, ↓reduceIte, he]
  split
  · rfl
  · simp [hw]

/-- A context that runs at a boundary where nothing is due (R34, R56, R252, R264). -/
structure Ready (u : State) : Prop where
  life : u.me.life = .running
  out : (u.core (u.cur / 4)).out = false
  due : u.boundary u.cur = none
  fences : u.me.fences = []

namespace Ready
variable {u t : State} {i : Instr}

/-- Its turn is the instruction at its program counter. -/
theorem runOne_ok (h : Ready u) (next : u.nextInstr = .ok (i, t)) : runOne u false = runNow i t := by
  simp [runOne, u.endFences_of_nil u.cur h.fences, h.life, coreOf, h.out, h.due, next]

/-- With nothing in flight, what stands in place of an instruction comes at once. -/
theorem runOne_error (h : Ready u) (next : u.nextInstr = .error t) (idle : u.me.noneInFlight = true) (hv : u.me.vAfter = 0)
    (hs : u.me.sAfter = 0) : runOne u false = .next t := by
  simp [runOne, u.endFences_of_nil u.cur h.fences, h.life, coreOf, h.out, h.due, next, State.whenDone,
    u.flush_idle u.cur idle hv hs, h.fences]

end Ready

/-- A step with an empty agenda, or with a RUN turn first, is that turn. -/
theorem step_eq_runOne {s u : State}
    (h : (s.agenda = [] ∧ u = s) ∨ ∃ c rest, s.agenda = .run c :: rest ∧ u = { s with agenda := rest, cur := c }) :
    step s = afterTurn (runOne u false) := by
  rcases h with ⟨ha, rfl⟩ | ⟨c, rest, ha, rfl⟩ <;> simp [step, ha, runTurn]

/-- An event of the agenda that acts at no boundary is `exec`, after what it settles. -/
theorem runEvent_free {i : Instr} {s : State} (h : isEvent i = true) (hb : boundaryOf i = none) :
    runEvent i s = exec i (if settlesFirst i then s.flushAll else s) := by
  simp [runEvent, h, hb]

/-- One that acts at a context's boundary finds none on a core that is taken out or while a fence is waited for. -/
theorem runEvent_boundary {i : Instr} {s v : State} {c : Nat} (h : isEvent i = true) (hb : boundaryOf i = some c)
    (hv : v = (if settlesFirst i then s.flushAll else s).endFences c) :
    runEvent i s = if (v.core (c / 4)).out = true ∨ (v.ctx c).fences ≠ [] then .next v else exec i v := by
  subst hv
  simp [runEvent, h, hb, noBoundary, coreOf]

/-- Settles O13: the fetch reads the word at the program counter; what `perform` waits for comes first. -/
theorem stepRunsInstruction : Obligations.StepRunsInstruction := by
  refine ⟨fun s u t ls turn life out due ending fences ahead found => ?_, fun s i rest ha event => ?_⟩
  · have ready : Ready u := ⟨life, out, due, fences⟩
    have fetch : Fetches u t ls := ⟨ending, fences, ahead, found⟩
    have run (i : Instr) (hd : decode (fetched t ls) = .ok i) : step s = afterTurn (perform i t) := by
      rw [step_eq_runOne turn, ready.runOne_ok (fetch.nextInstr_ok hd), runNow, fenced_of_nil fetch.fences_after]
      rfl
    refine ⟨fun i hd idle need => ?_, fun i hd idle clear late => ?_, fun i v hd late goes on => ?_, fun idle hv hs => ⟨fun hd => ?_, fun hd => ?_⟩⟩
    · rw [run i hd, perform_idle (fetch.flight_after.trans idle) fetch.fences_after need]
    · rw [run i hd, perform_settled (late.imp_right fetch.flight_after.trans) idle clear]
    · rw [run i hd, perform_goesOn (fetch.flight_after.trans late) goes on]
    · rw [step_eq_runOne turn, ready.runOne_error (fetch.nextInstr_illegal hd) idle hv hs]; rfl
    · rw [step_eq_runOne turn, ready.runOne_error (fetch.nextInstr_reserved hd) idle hv hs]; rfl
  · have run : step s = afterTurn (runEvent i { s with agenda := rest }) := by simp [step, ha, runTurn]
    refine ⟨fun free => ?_, fun c bound => ?_⟩
    · rw [run, runEvent_free event free]
    · rw [run, runEvent_boundary event bound rfl]

end Sys2Proof.Machine


/-! # Every step keeps memory canonical

Memory changes only where bytes are put, one at a time (`State.put`), or zeroed (`State.zeroMemory`); both keep its addresses
rising. What follows says so of each function of the model in turn, in the order of the model. -/

namespace Sys2Proof.Machine

/-- Memory is in its canonical form. -/
def Canonical (s : State) : Prop := Memory.wf s.mem = true

theorem canonical_iff (s : State) : Canonical s ↔ Memory.wf s.mem = true := Iff.rfl

namespace Canonical
variable {s t : State}

theorem of_mem (h : Canonical s) (e : t.mem = s.mem) : Canonical t := (congrArg Memory.wf e).trans h

/-- A fold of steps that keep memory canonical keeps it. -/
theorem foldl {β : Type} {f : State → β → State} (h : Canonical s) (hf : ∀ t b, Canonical t → Canonical (f t b)) (l : List β) :
    Canonical (l.foldl f s) :=
  List.foldlRecOn l f h fun t ht b _ => hf t b ht

theorem writeLocs (h : Canonical s) (w : List (Loc × Byte)) : Canonical (s.writeLocs w) := Memory.wf_writeLocs w h
theorem storeLocs (h : Canonical s) (w : List (Loc × Byte)) : Canonical (s.storeLocs w) := Memory.wf_storeLocs w h
theorem setLocs (h : Canonical s) (w : List (Loc × Byte)) : Canonical (s.setLocs w) := Memory.wf_setLocs w h
theorem drain (h : Canonical s) (c : Nat) : Canonical (s.drain c) := Memory.wf_drain c h
theorem drainFirst (h : Canonical s) (c n : Nat) : Canonical (s.drainFirst c n) := Memory.wf_drainFirst c n h
theorem drainOne (h : Canonical s) (c n : Nat) : Canonical (s.drainOne c n) := Memory.wf_drainOne c n h
theorem settleOne (h : Canonical s) (c : Nat) : Canonical (s.settleOne c) := Memory.wf_settleOne c h
theorem settleFirst (h : Canonical s) (c n : Nat) : Canonical (s.settleFirst c n) := Memory.wf_settleFirst c n h
theorem settleStores (h : Canonical s) (c : Nat) : Canonical (s.settleStores c) := Memory.wf_settleStores c h
theorem storeNext (h : Canonical s) (c : Nat) : Canonical (s.storeNext c) := Memory.wf_storeNext c h
theorem storesInOrder (h : Canonical s) (c n : Nat) : Canonical (s.storesInOrder c n) := Memory.wf_storesInOrder c n h
theorem storesDone (h : Canonical s) (c : Nat) : Canonical (s.storesDone c) := Memory.wf_storesDone c h
theorem finishOlder (h : Canonical s) (c : Nat) : Canonical (s.finishOlder c) := Memory.wf_finishOlder c h

theorem putPhys {p base : Nat} {bs : List Byte} (h : Canonical s) (e : Machine.putPhys s p base bs = .ok t) : Canonical t :=
  Memory.wf_putPhys h e

end Canonical

/-- A meaning that keeps memory canonical, however it ends. -/
structure Keeps {α : Type} (m : M α) : Prop where
  after : ∀ s, Canonical s → Canonical (m.run s).2

namespace Keeps
variable {α β : Type}

theorem of_leaves {m : M α} (h : Leaves (fun s => Memory.wf s.mem = true) m) : Keeps m := ⟨h⟩

/-- The rule for a meaning written as a function of the state. -/
theorem of_run {g : State → Except Stop α × State} (h : ∀ s, Canonical s → Canonical (g s).2) : Keeps (α := α) g := ⟨h⟩

/-- What a run of a meaning ends in. -/
theorem ends {m : M α} (hm : Keeps m) {s t : State} {r : Except Stop α} (e : m.run s = (r, t)) (hs : Canonical s) :
    Canonical t := by
  simpa [e] using hm.after s hs

theorem seq {m : M α} {f : α → M β} (first : Keeps m) (second : ∀ a, Keeps (f a)) : Keeps (m >>= f) :=
  of_leaves (Leaves.seq first.after fun a => (second a).after)

theorem still {m : M α} (h : ∀ s, (m.run s).2 = s) : Keeps m := ⟨fun s hs => by rwa [h s]⟩

theorem ret (a : α) : Keeps (pure a : M α) := still fun _ => rfl
theorem look : Keeps getS := still fun _ => rfl
theorem stop (e : Stop) : Keeps (throw e : M α) := still fun _ => rfl
theorem trap (c : BitVec 10) (i : Word) (r : FaultInfo) : Keeps (trapM c i r : M α) := still fun _ => rfl

/-- The state that a meaning looks at is canonical. -/
theorem looking {f : State → M α} (h : ∀ s, Canonical s → Keeps (f s)) : Keeps (getS >>= f) :=
  ⟨fun s hs => (h s hs).after s hs⟩

theorem lift (r : Except Stop α) : Keeps (liftE r) := of_leaves (Leaves.lift r)
theorem back (g : Nat) (w : Word) (r : Except Stop α) : Keeps (backing g w r) := of_leaves (Leaves.back g w r)
theorem modify {f : State → State} (h : ∀ s, Canonical s → Canonical (f s)) : Keeps (modS f) := ⟨h⟩
theorem modifyMe (f : Ctx → Ctx) : Keeps (modMe f) := ⟨fun _ h => h⟩
theorem caught {m : M α} (h : Keeps m) : Keeps (attempt m) := ⟨h.after⟩
theorem check (ok : Bool) (c : BitVec 10) (i : Word) : Keeps (check ok c i) := by
  cases ok
  exacts [trap c i noInfo, ret ()]

/-- A check before the rest. -/
theorem guarded {c : Prop} [Decidable c] {m : M Unit} {n : M α} (hm : Keeps m) (hn : Keeps n) : Keeps (do if c then m
                                                                                                          n) := by
  dsimp only
  split
  · exact hm.seq fun _ => hn
  · exact hn

/-- The rules for the operations of the monad, together. -/
theorem steps : (∀ (α : Type) (a : α), Keeps (pure a : M α)) ∧ Keeps getS ∧
    (∀ (α : Type) (e : Stop), Keeps (throw e : M α)) ∧
    (∀ (α : Type) (c : BitVec 10) (i : Word) (r : FaultInfo), Keeps (trapM c i r : M α)) ∧
    (∀ (α : Type) (r : Except Stop α), Keeps (liftE r)) ∧
    (∀ (α : Type) (g : Nat) (w : Word) (r : Except Stop α), Keeps (backing g w r)) ∧
    (∀ f : State → State, (∀ s, Canonical s → Canonical (f s)) → Keeps (modS f)) ∧
    (∀ f : Ctx → Ctx, Keeps (modMe f)) ∧
    (∀ (α : Type) (m : M α), Keeps m → Keeps (attempt m)) ∧
    (∀ (ok : Bool) (c : BitVec 10) (i : Word), Keeps (Machine.check ok c i)) ∧
    ∀ (α β : Type) (m : M α) (f : α → M β), Keeps m → (∀ a, Keeps (f a)) → Keeps (m >>= f) :=
  ⟨fun _ => ret, look, fun _ => stop, fun _ => trap, fun _ => lift, fun _ => back, fun _ => modify, modifyMe, fun _ _ => caught,
    check, fun _ _ _ _ => seq⟩

/-! The rules that the laws of places have for memory already. -/

theorem translateM (who : Who) (a : Access) (va : Nat) : Keeps (Machine.translateM who a va) :=
  ⟨Localised.wf.translateM _ _ _⟩
theorem globalLoc (who : Who) (a : Access) (va : Nat) : Keeps (Machine.globalLoc who a va) := ⟨Localised.wf.globalLoc _ _ _⟩
theorem globalLocs (who : Who) (a : Access) (va n : Nat) : Keeps (Machine.globalLocs who a va n) :=
  ⟨Localised.wf.globalLocs _ _ _ _⟩
theorem setEntry (who : Who) (e v : Nat) : Keeps (Machine.setEntry who e v) := ⟨Localised.wf.setEntry _ _ _⟩
theorem readEntry (who : Who) (va : Nat) : Keeps (Machine.readEntry who va) := ⟨Localised.wf.readEntry _ _⟩
theorem writeBack (who : Who) (k : Nat) (f : Frame) : Keeps (Machine.writeBack who k f) := ⟨Localised.wf.writeBack _ _ _⟩
theorem takeFrame (who : Who) (k g : Nat) : Keeps (Machine.takeFrame who k g) := ⟨Localised.wf.takeFrame _ _ _⟩
theorem fillPage (who : Who) (g e v : Nat) : Keeps (Machine.fillPage who g e v) := ⟨Localised.wf.fillPage _ _ _ _⟩
theorem touchFrame (who : Who) (a : Access) (g e k i : Nat) : Keeps (Machine.touchFrame who a g e k i) :=
  ⟨Localised.wf.touchFrame _ _ _ _ _ _⟩
theorem stashLoc (who : Who) (a : Access) (g : Nat) : Keeps (Machine.stashLoc who a g) := ⟨Localised.wf.stashLoc _ _ _⟩
theorem locate (who : Who) (a : Access) (va : Nat) : Keeps (Machine.locate who a va) := ⟨Localised.wf.locate _ _ _⟩
theorem locateBytes (who : Who) (a : Access) (va n : Nat) : Keeps (Machine.locateBytes who a va n) :=
  ⟨Localised.wf.locateBytes _ _ _ _⟩
theorem readVa (who : Who) (va n : Nat) : Keeps (Machine.readVa who va n) := ⟨Localised.wf.readVa _ _ _⟩
theorem writeVa (who : Who) (va n v : Nat) : Keeps (Machine.writeVa who va n v) := ⟨Localised.wf.writeVa _ _ _ _⟩
theorem writeBytes (who : Who) (va : Nat) (bs : List Byte) : Keeps (Machine.writeBytes who va bs) :=
  ⟨Localised.wf.writeBytes _ _ _⟩

end Keeps

end Sys2Proof.Machine


namespace Sys2Proof.Machine

/-! ## Accesses -/

@[simp] theorem State.setChanOf_mem (s : State) (root : Nat) (c : BitVec 4) (x : Channel) :
    (s.setChanOf root c x).mem = s.mem := rfl

theorem Canonical.within {s : State} (h : Canonical s) (p : Nat) {f : State → State}
    (hf : ∀ t, Canonical t → Canonical (f t)) : Canonical (s.within p f) :=
  (hf { s with cur := 1024 * p } h).of_mem rfl

@[simp] theorem State.mapChans_mem (s : State) (f : Channel → Channel) : (s.mapChans f).mem = s.mem := by
  unfold State.mapChans
  split <;> rfl

@[simp] theorem State.alignPins_mem (s : State) (c : Nat) (a b : Stream) : (s.alignPins c a b).mem = s.mem := by
  simp [State.alignPins]

@[simp] theorem State.closeBefore_mem (s : State) (c : Nat) (st : Stream) (j : Nat) : (s.closeBefore c st j).mem = s.mem := by
  unfold State.closeBefore
  split <;> rfl

@[simp] theorem State.acquired_mem (s : State) (c : Nat) : (s.acquired c).mem = s.mem := by simp [State.acquired]

@[simp] theorem State.newPin_mem (s : State) (c : Nat) : (s.newPin c).mem = s.mem := rfl

@[simp] theorem State.dropPins_mem (s : State) (c : Nat) : (s.dropPins c).mem = s.mem := by
  unfold State.dropPins
  split <;> rfl

theorem Keeps.choose (n : Nat) : Keeps (Machine.choose n) := by
  unfold Machine.choose
  grind [Keeps.steps, canonical_iff]

theorem Keeps.aligned (v : Word) (n : Nat) : Keeps (Machine.aligned v n) := by
  unfold Machine.aligned
  grind [Keeps.steps]

theorem Keeps.each {α : Type} {f : α → M Unit} (hf : ∀ a, Keeps (f a)) (l : List α) : Keeps (Machine.each f l) := by
  induction l with
  | nil => exact ret ()
  | cons a l ih => exact (hf a).seq fun _ => ih

theorem Keeps.collect {α β : Type} {f : α → M β} (hf : ∀ a, Keeps (f a)) (l : List α) :
    Keeps (Machine.collect f l) := by
  induction l with
  | nil => exact ret []
  | cons a l ih => exact (hf a).seq fun _ => ih.seq fun _ => ret _

@[simp] theorem State.discard_mem (s : State) (who : Who) (va : Nat) : (s.discard who va).mem = s.mem := rfl

@[simp] theorem State.pageDropped_mem (s : State) (k i : Nat) : (s.pageDropped k i).mem = s.mem := by simp [State.pageDropped]

theorem Keeps.checkPoison (va : Nat) (ls : List Loc) : Keeps (Machine.checkPoison va ls) := by
  unfold Machine.checkPoison
  grind [Keeps.steps]

theorem Keeps.readUnit (who : Who) (may : Pin → Bool) (va : Nat) (ls : List Loc) (now : List Byte) :
    Keeps (Machine.readUnit who may va ls now) := by
  unfold Machine.readUnit
  grind [Keeps.steps, Keeps.choose]

theorem Keeps.readUnits (who : Who) (may : Pin → Bool) (va : Nat) (ls : List Loc) (now : List Byte) (fuel : Nat) :
    Keeps (Machine.readUnits who may va ls now fuel) := by
  induction fuel generalizing va ls now with
  | zero => exact ret []
  | succ fuel ih =>
    unfold Machine.readUnits
    grind [Keeps.steps, Keeps.readUnit]

theorem Keeps.transferBytes (who : Who) (may : Pin → Bool) (va : Nat) (ls : List Loc) (now : List Byte) :
    Keeps (Machine.transferBytes who may va ls now) := by
  unfold Machine.transferBytes
  grind [Keeps.steps, Keeps.readUnits]

theorem Keeps.loadVa (who : Who) (va n : Nat) : Keeps (Machine.loadVa who va n) := by
  unfold Machine.loadVa
  grind [Keeps.steps, canonical_iff, Keeps.locateBytes, Keeps.checkPoison, Keeps.readUnit, State.closeBefore_mem]

theorem Keeps.drainM : Keeps (Machine.drainM) := by
  unfold Machine.drainM
  grind [Keeps.steps, canonical_iff, Canonical.drain]

theorem Keeps.settleM : Keeps (Machine.settleM) := by
  unfold Machine.settleM
  grind [Keeps.steps, canonical_iff, Canonical.settleStores]

/-! ## The engines -/

theorem Keeps.readObject (who : Who) (kind : Access) (a : Word) : Keeps (Machine.readObject who kind a) := by
  unfold Machine.readObject
  grind [Keeps.steps, Keeps.aligned, Keeps.locateBytes, Keeps.checkPoison]

theorem Keeps.updateObject (who : Who) (a : Word) (f : Nat → Nat → Option (Nat × Nat)) :
    Keeps (Machine.updateObject who a f) := by
  unfold Machine.updateObject
  grind [Keeps.steps, canonical_iff, Keeps.readObject, Canonical.writeLocs]

@[simp] theorem State.raise_mem (s : State) (c : Nat) (p : Pending) : (s.raise c p).mem = s.mem := rfl

@[simp] theorem State.setCommand_mem (s : State) (c : Nat) (slot : BitVec 3) (k : Option Command) :
    (s.setCommand c slot k).mem = s.mem := rfl

@[simp] theorem State.dropSource_mem (s : State) (tid slot : Nat) : (s.dropSource tid slot).mem = s.mem := by
  unfold State.dropSource
  split <;> rfl

@[simp] theorem State.keepSource_mem (s : State) (tid slot : Nat) : (s.keepSource tid slot).mem = s.mem := by
  simp [State.keepSource]

@[simp] theorem State.retire_mem (s : State) (c : Nat) (slot : BitVec 3) : (s.retire c slot).mem = s.mem := by
  simp [State.retire]

theorem Keeps.atFault {α : Type} (va : Nat) {m : M α} (hm : Keeps m) : Keeps (Machine.atFault va m) := by
  unfold Machine.atFault
  refine of_run fun s hs => ?_
  split
  · next e => exact hm.ends e hs
  · exact hm.after s hs

theorem Keeps.enginePlacesFrom (who : Who) (kind : Access) (va n lines : Nat) :
    Keeps (Machine.enginePlacesFrom who kind va n lines) := by
  induction lines generalizing va n with
  | zero => exact ret []
  | succ lines ih =>
    unfold Machine.enginePlacesFrom
    grind [Keeps.steps, Keeps.atFault, Keeps.locateBytes, Keeps.checkPoison]

theorem Keeps.enginePlaces (who : Who) (kind : Access) (va n : Nat) : Keeps (Machine.enginePlaces who kind va n) := by
  unfold Machine.enginePlaces
  grind [Keeps.steps, Keeps.enginePlacesFrom]

theorem Keeps.sourceBytes (x : Option Source) (ls : List Loc) : Keeps (Machine.sourceBytes x ls) := by
  unfold Machine.sourceBytes
  grind [Keeps.steps, canonical_iff]

theorem Keeps.engineRead (who : Who) (k : Command) (x : Option Source) (va n : Nat) :
    Keeps (Machine.engineRead who k x va n) := by
  unfold Machine.engineRead
  grind [Keeps.steps, Keeps.enginePlaces, Keeps.sourceBytes, Keeps.transferBytes]

theorem Keeps.enginePut (who : Who) (va : Nat) (bs : List Byte) : Keeps (Machine.enginePut who va bs) := by
  unfold Machine.enginePut
  grind [Keeps.steps, canonical_iff, Keeps.enginePlaces, Canonical.writeLocs]

theorem Keeps.engineWrites (who : Who) (ws : List (Nat × List Byte)) : Keeps (Machine.engineWrites who ws) := by
  unfold Machine.engineWrites
  refine of_run fun s hs => ?_
  split
  · exact hs
  · exact (Keeps.each (fun _ => Keeps.enginePut who _ _) ws).after s hs

theorem Keeps.putBytes (who : Who) (k : Command) (bs : List (Nat × Nat × Byte)) : Keeps (Machine.putBytes who k bs) := by
  induction bs generalizing k with
  | nil => exact ret k
  | cons b bs ih =>
    unfold Machine.putBytes
    grind [Keeps.steps, Keeps.enginePlaces, Canonical.writeLocs]

theorem Keeps.performBytes (who : Who) (k : Command) (bs : List (Nat × Nat × Byte)) :
    Keeps (Machine.performBytes who k bs) := by
  unfold Machine.performBytes
  refine of_run fun s hs => ?_
  split
  · next e => exact ((Keeps.putBytes who k bs).ends e hs).of_mem (by simp)
  · exact hs

theorem Keeps.moveWrites (who : Who) (k : Command) (x : Option Source) : Keeps (Machine.moveWrites who k x) := by
  unfold Machine.moveWrites
  grind [Keeps.steps, Keeps.engineRead]

theorem Keeps.performAhead (who : Who) (k : Command) (x : Option Source) (pos : Nat) :
    Keeps (Machine.performAhead who k x pos) := by
  unfold Machine.performAhead
  grind [Keeps.steps, Keeps.engineRead, Keeps.performBytes]

theorem Keeps.settled (k : Command) : Keeps (Machine.settled k) := by
  unfold Machine.settled
  grind [Keeps.steps, canonical_iff]

theorem Keeps.chunkWrites (who : Who) (k : Command) : Keeps (Machine.chunkWrites who k) := by
  unfold Machine.chunkWrites
  grind [Keeps.steps, Keeps.collect, Keeps.engineRead]

theorem Keeps.runWrites (who : Who) (k : Command) : Keeps (Machine.runWrites who k) := by
  unfold Machine.runWrites
  grind [Keeps.steps, Keeps.collect, Keeps.engineRead]

theorem Keeps.unitWrites (who : Who) (k : Command) (x : Option Source) : Keeps (Machine.unitWrites who k x) := by
  unfold Machine.unitWrites
  grind [Keeps.steps, Keeps.moveWrites, Keeps.chunkWrites, Keeps.runWrites]

theorem Keeps.readBlock (who : Who) (k : Command) : Keeps (Machine.readBlock who k) := by
  unfold Machine.readBlock
  split
  · exact ret k
  split
  · exact (Keeps.engineRead who k none _ _).seq fun _ => ret _
  split
  · exact ret k
  · refine of_run fun s hs => ?_
    grind [canonical_iff]

theorem Keeps.laterBytes (who : Who) (k : Command) (n : Nat) : Keeps (Machine.laterBytes who k n) := by
  induction n generalizing k with
  | zero => exact ret []
  | succ n ih =>
    unfold Machine.laterBytes
    grind [Keeps.steps, Keeps.unitWrites, Keeps.each, Keeps.enginePut]

theorem Keeps.restBytes (who : Who) (k : Command) (x : Option Source) (n : Nat) : Keeps (Machine.restBytes who k x n) := by
  unfold Machine.restBytes
  grind [Keeps.steps, Keeps.laterBytes, Keeps.collect, Keeps.engineRead]

theorem Keeps.targetPlaces (who : Who) (k : Command) (ws : List (Nat × Nat × Byte)) :
    Keeps (Machine.targetPlaces who k ws) := by
  unfold Machine.targetPlaces
  grind [Keeps.steps, Keeps.collect, Keeps.enginePlaces]

theorem Canonical.strew {s : State} (h : Canonical s) (who : Who) (k : Command) (x : Option Source) :
    Canonical (s.strew who k x) := by
  unfold State.strew
  grind [canonical_iff, Keeps.ends, Keeps.restBytes, Keeps.targetPlaces, Canonical.writeLocs]

@[simp] theorem State.commandFault_mem (s : State) (c : Nat) (slot : BitVec 3) (k : Command) (cause : BitVec 10) (r :
    FaultInfo) : (s.commandFault c slot k cause r).mem = s.mem := by
  simp [State.commandFault]

theorem Keeps.performUnit (who : Who) (k : Command) (x : Option Source) : Keeps (Machine.performUnit who k x) := by
  unfold Machine.performUnit
  grind [Keeps.steps, Keeps.performBytes, Keeps.unitWrites, Keeps.engineWrites]

theorem Keeps.finishUnit (who : Who) (k : Command) (x : Option Source) : Keeps (Machine.finishUnit who k x) := by
  unfold Machine.finishUnit
  grind [Keeps.steps, Keeps.performUnit, Keeps.settled]

theorem Keeps.countsBytes (who : Who) (k : Command) : Keeps (Machine.countsBytes who k) := by
  unfold Machine.countsBytes
  grind [Keeps.steps, Keeps.atFault, Keeps.readObject]

theorem Keeps.countBytes (who : Who) (k : Command) (n : Nat) : Keeps (Machine.countBytes who k n) := by
  unfold Machine.countBytes
  grind [Keeps.steps, Keeps.atFault, Keeps.updateObject]

theorem Keeps.advanceCommand (who : Who) (k : Command) (x : Option Source) : Keeps (Machine.advanceCommand who k x) := by
  unfold Machine.advanceCommand
  grind [Keeps.steps, Keeps.readBlock, Keeps.countsBytes, Keeps.countBytes, Keeps.finishUnit, Keeps.performUnit,
    Keeps.performBytes]

theorem Canonical.commandAction {s : State} (h : Canonical s) (c : Nat) (slot : BitVec 3) (k : Command)
    {m : M (Option Command)} (hm : Keeps m) : Canonical (s.commandAction c slot k m) := by
  unfold State.commandAction
  split
  · next e => exact (hm.ends e h).of_mem (by simp)
  · next e => exact (hm.ends e h).of_mem (by simp)
  · next e => exact ((hm.ends e h).strew (engineWho s c k) k (s.source c slot)).of_mem (by simp)
  · exact h.of_mem (by simp)
  · exact h

theorem Canonical.settleCommand {s : State} (h : Canonical s) (c : Nat) (slot : BitVec 3) (fuel : Nat) :
    Canonical (s.settleCommand c slot fuel) := by
  induction fuel generalizing s with
  | zero => exact h
  | succ fuel ih =>
    unfold State.settleCommand
    split
    · exact h
    · split
      · exact h
      · exact ih (h.commandAction c slot _ (Keeps.advanceCommand _ _ _))

theorem Canonical.settleCommands {s : State} (h : Canonical s) (c : Nat) : Canonical (s.settleCommands c) := by
  unfold State.settleCommands
  split
  · exact h
  · exact h.foldl (fun t _ ht => ht.settleCommand c _ _) _

/-! ## Traps, records and the ends of tasks -/

@[simp] theorem State.report_mem (s : State) (p : Nat) (e : Event) : (s.report p e).mem = s.mem := rfl

@[simp] theorem State.corrupt_mem (s : State) (d address : Nat) : (s.corrupt d address).mem = s.mem := rfl

@[simp] theorem State.reportKind_mem (s : State) (p kind : Nat) : (s.reportKind p kind).mem = s.mem := rfl

@[simp] theorem State.unbindAll_mem (s : State) (c : Nat) : (s.unbindAll c).mem = s.mem := by
  unfold State.unbindAll
  split
  · rfl
  · refine List.foldlRecOn (motive := fun t : State => t.mem = s.mem) _ _ rfl fun t ht i _ => ?_
    split <;> simpa using ht

@[simp] theorem State.retryPorts_mem (s : State) (c : Nat) (stat : Word) : (s.retryPorts c stat).mem = s.mem := rfl

@[simp] theorem State.leaveHandler_mem (s : State) (c : Nat) : (s.leaveHandler c).mem = s.mem := by
  unfold State.leaveHandler
  grind [State.retryPorts_mem]

@[simp] theorem State.restoreCeilings_mem (s : State) (tid : Nat) : (s.restoreCeilings tid).mem = s.mem := rfl

@[simp] theorem State.vacate_mem (s : State) (c : Nat) : (s.vacate c).mem = s.mem := by simp [State.vacate]

@[simp] theorem State.taskGone_mem (s : State) (tid : Nat) : (s.taskGone tid).mem = s.mem := by
  unfold State.taskGone
  dsimp only
  split <;> simp

@[simp] theorem State.releaseArea_mem (s : State) (a : Option Area) : (s.releaseArea a).mem = s.mem := by
  unfold State.releaseArea
  split <;> rfl

@[simp] theorem State.orphanCommands_mem (s : State) (c : Nat) : (s.orphanCommands c).mem = s.mem := by
  unfold State.orphanCommands
  dsimp only
  split <;> simp

theorem Canonical.abandon {s : State} (h : Canonical s) (c : Nat) : Canonical (s.abandon c) := by
  unfold State.abandon
  grind [canonical_iff, State.leaveHandler_mem, Canonical.settleCommands, Canonical.finishOlder, State.unbindAll_mem,
    State.orphanCommands_mem, State.releaseArea_mem, State.taskGone_mem, State.vacate_mem]

theorem Canonical.loseTask {s : State} (h : Canonical s) (c address : Nat) : Canonical (s.loseTask c address) := by
  unfold State.loseTask
  grind [canonical_iff, State.corrupt_mem, State.report_mem, Canonical.abandon]

/-- The constant is unfolded before it is applied: between the application and its body the kernel would compare by evaluating
the address of the save area. -/
theorem Canonical.putArea {s : State} (h : Canonical s) (a : Area) (off : Nat) (bs : List Byte) :
    Canonical (s.putArea a off bs) := by
  have unfolded := Eq.refl State.putArea
  conv at unfolded => rhs; delta State.putArea
  simp only [unfolded]
  split
  · next e => exact h.putPhys e
  · exact h.of_mem (by simp)

theorem Canonical.addPair {s : State} (h : Canonical s) (a : Area) (p : Pending) : Canonical (s.addPair a p) := by
  have unfolded := Eq.refl State.addPair
  conv at unfolded => rhs; delta State.addPair
  simp only [unfolded]
  split
  · exact h.of_mem (by simp)
  · split
    · exact h
    split
    · exact h.putArea _ _ _
    · exact ((h.putArea _ _ _).putArea _ _ _).putArea _ _ _

theorem Canonical.raiseTask {s : State} (h : Canonical s) (tid : Nat) (p : Pending) : Canonical (s.raiseTask tid p) := by
  unfold State.raiseTask
  grind [canonical_iff, Canonical.addPair, State.raise_mem]

theorem Canonical.putRecord {s t : State} (h : Canonical s) {c : Nat} {ws : List Word} {b : Bool}
    (e : s.putRecord c ws = (t, b)) : Canonical t := by
  have unfolded := Eq.refl State.putRecord
  conv at unfolded => rhs; delta State.putRecord
  simp only [unfolded] at e
  grind [Canonical.putPhys, Canonical.loseTask]

theorem Canonical.hostStop {s : State} (h : Canonical s) (c : Nat) (cause : BitVec 10) (info w1 : Word) (r : FaultInfo) :
    Canonical (s.hostStop c cause info w1 r) := by
  have unfolded := Eq.refl State.hostStop
  conv at unfolded => rhs; delta State.hostStop
  simp only [unfolded]
  split
  · next e => exact h.putRecord e
  · next e => exact (h.putRecord e).of_mem (by simp)

theorem Canonical.takeTrap {s : State} (h : Canonical s) (c : Nat) (cause : BitVec 10) (info w1 : Word) (r : FaultInfo)
    (async skip : Bool) : Canonical (s.takeTrap c cause info w1 r async skip) := by
  have older : Canonical (if skip then s else s.finishOlder c) := by
    split
    exacts [h, h.finishOlder c]
  unfold State.takeTrap
  generalize (if skip then s else s.finishOlder c) = u at older ⊢
  have recorded {t : State} {b : Bool}
      (e : (if writesRecord cause info then u.putRecord c (faultRecord cause w1 r) else (u, true)) = (t, b)) :
      Canonical t := by
    grind [Canonical.putRecord]
  dsimp only
  split
  · exact older.hostStop c cause info w1 r
  · split
    · next e => exact recorded e
    · next e => exact (recorded e).of_mem (by simp)

theorem Canonical.trapNow {s : State} (h : Canonical s) (cause : BitVec 10) (info : Word) (r : FaultInfo) :
    Canonical (s.trapNow cause info r) := by
  unfold State.trapNow
  grind [canonical_iff, Canonical.takeTrap]

theorem Canonical.takeAsync {s : State} (h : Canonical s) (c : Nat) : Canonical (s.takeAsync c) := by
  unfold State.takeAsync
  grind [canonical_iff, Canonical.takeTrap, mem_setCtx]

@[simp] theorem State.unmarked_mem (s : State) : (s.unmarked).mem = s.mem := by
  unfold State.unmarked
  split <;> rfl

theorem Keeps.nextM : Keeps (Machine.nextM) := by
  unfold Machine.nextM
  grind [Keeps.steps]

theorem Canonical.fullFence {s : State} (h : Canonical s) (c : Nat) : Canonical (s.fullFence c) := by
  unfold State.fullFence
  grind [canonical_iff, State.alignPins_mem, Canonical.storesDone]

theorem Canonical.eret {s : State} (h : Canonical s) (c : Nat) : Canonical (s.eret c) := by
  unfold State.eret
  grind [canonical_iff, Canonical.fullFence, Canonical.abandon, State.leaveHandler_mem, mem_setCtx]

theorem Keeps.feature (n : Nat) (i : Instr) : Keeps (Machine.feature n i) := by
  unfold Machine.feature
  grind [Keeps.steps]

theorem Keeps.stashOpen (vas : List Nat) : Keeps (Machine.stashOpen vas) := by
  unfold Machine.stashOpen
  grind [Keeps.steps]

end Sys2Proof.Machine


namespace Sys2Proof.Machine

/-! ## Scalar accesses -/

theorem Keeps.afterScalar : Keeps (Machine.afterScalar) := by
  unfold Machine.afterScalar
  grind [Keeps.steps, canonical_iff, State.closePins_mem]

/-! ## Atomics and posted stores -/

theorem Keeps.atomicVa (who : Who) (va n : Nat) (f : Nat → Nat × Nat) : Keeps (Machine.atomicVa who va n f) := by
  unfold Machine.atomicVa
  grind [Keeps.steps, canonical_iff, Keeps.locateBytes, Keeps.checkPoison, Canonical.writeLocs]

/-! ## The scheduler -/

theorem Canonical.pushEntry {s : State} (h : Canonical s) (d level : Nat) (w : List Word) :
    Canonical (s.pushEntry d level w) := by
  have unfolded := Eq.refl State.pushEntry
  conv at unfolded => rhs; delta State.pushEntry
  obtain ⟨address, e⟩ : ∃ f, f = slotAddr := ⟨_, rfl⟩
  rw [← e] at unfolded
  simp only [unfolded]
  split
  · exact h.of_mem (by simp)
  · next e => exact (h.putPhys e).of_mem (by simp)

theorem Canonical.pushRecord {s : State} (h : Canonical s) (d : Nat) (addr ctrl waddr wval : Word) :
    Canonical (s.pushRecord d addr ctrl waddr wval) := by
  have unfolded := Eq.refl State.pushRecord
  conv at unfolded => rhs; delta State.pushRecord
  simp only [unfolded]
  exact (h.of_mem (by simp) : Canonical (s.setDie d _)).pushEntry _ _ _

theorem Canonical.pushResume {s : State} (h : Canonical s) (d : Nat) (area : Nat) (ctrl seq : Word) :
    Canonical (s.pushResume d area ctrl seq) := by
  unfold State.pushResume
  grind [canonical_iff, Canonical.pushEntry]

theorem Keeps.checkRecord (who : Who) (addr : Word) (home : Nat) (reserved : Bool) :
    Keeps (Machine.checkRecord who addr home reserved) := by
  unfold Machine.checkRecord
  refine guarded (trap _ _ _) (guarded (trap _ _ _) ((readVa _ _ _).caught.seq fun r => ?_))
  extract_lets rest
  have after (n : Nat) : Keeps (rest n) := by
    refine guarded (trap _ _ _) ?_
    grind [Keeps.steps, Keeps.choose]
  split
  exacts [(ret _).seq after, (trap _ _ _).seq after, (stop _).seq after]

theorem Keeps.enqueue (who : Who) (addr : Word) (home : Nat) (reserved : Bool) :
    Keeps (Machine.enqueue who addr home reserved) := by
  unfold Machine.enqueue
  exact (Keeps.checkRecord who addr home reserved).seq fun _ => Keeps.modify fun s h => h.pushRecord _ _ _ _ _

theorem Canonical.popEntry {s : State} (h : Canonical s) (d : Nat) (e : QEntry) (aged keep : Bool) :
    Canonical (s.popEntry d e aged keep) := by
  have unfolded := Eq.refl State.popEntry
  conv at unfolded => rhs; delta State.popEntry
  obtain ⟨address, e⟩ : ∃ f, f = slotAddr := ⟨_, rfl⟩
  rw [← e] at unfolded
  simp only [unfolded]
  split
  · exact h.of_mem (by simp)
  · split
    · next e => exact Canonical.putPhys (h.of_mem (by simp)) e
    · exact h.of_mem (by simp)

theorem Keeps.startWord (who : Who) (addr : Nat) : Keeps (Machine.startWord who addr) := by
  unfold Machine.startWord
  grind [Keeps.steps, Keeps.readVa]

@[simp] theorem State.claim_mem (s : State) (c d : Nat) (seq : Word) (tid : Nat) : (s.claim c d seq tid).mem = s.mem := rfl

theorem Keeps.startRecord (c d : Nat) (waits : List (Nat × Nat)) (e : QEntry) : Keeps (Machine.startRecord c d waits e) := by
  unfold Machine.startRecord
  grind [Keeps.steps, canonical_iff, Keeps.startWord, mem_setDie, mem_setCtx, State.claim_mem]

theorem Canonical.acquireUnit {s : State} (h : Canonical s) (c : Nat) : Canonical (s.acquireUnit c) := by
  have unfolded := Eq.refl State.acquireUnit
  conv at unfolded => rhs; delta State.acquireUnit
  obtain ⟨bad, e⟩ : ∃ f, f = badArea := ⟨_, rfl⟩
  rw [← e] at unfolded
  simp only [unfolded]
  split
  · exact h
  split
  · exact h
  split
  · exact h.loseTask _ _
  · exact h.of_mem (by simp)

@[simp] theorem State.resumeSources_mem (s : State) (c : Nat) (get : Nat → Nat → Nat) :
    (s.resumeSources c get).mem = s.mem := by
  unfold State.resumeSources
  refine List.foldlRecOn (motive := fun t : State => t.mem = s.mem) _ _ rfl fun t ht i _ => ?_
  split
  · split
    · simpa using ht
    split
    · simpa using ht
    · exact ht
  · simpa using ht

theorem Keeps.startResume (c d : Nat) (e : QEntry) (keep : Bool) : Keeps (Machine.startResume c d e keep) := by
  unfold Machine.startResume
  obtain ⟨bad, hidden⟩ : ∃ f, f = badArea := ⟨_, rfl⟩
  rw [← hidden]
  refine Keeps.modify fun s h => ?_
  grind [canonical_iff, mem_setCtx, Canonical.loseTask, Canonical.acquireUnit, State.resumeSources_mem, State.claim_mem]

@[simp] theorem State.dieWaits_mem (s : State) (c : Nat) (more : List Nat) : (s.dieWaits c more).mem = s.mem := rfl

theorem Keeps.selection (c : Nat) : Keeps (Machine.selection c) := by
  unfold Machine.selection
  refine look.seq fun s => ?_
  extract_lets d q p
  split
  · exact ret ()
  split
  · exact Keeps.modify fun t h => h.of_mem (by simp)
  refine (Keeps.modify fun t h => h.of_mem (by simp)).seq fun _ => ?_
  split
  · exact ret ()
  · grind [Keeps.steps, Keeps.choose, Canonical.popEntry, Keeps.startResume, Keeps.startRecord]

theorem Canonical.select {s : State} (h : Canonical s) (c : Nat) : Canonical (s.select c) := by
  unfold State.select
  split
  · next e => exact (Keeps.selection c).ends e h
  · exact h.of_mem (by simp)
  · exact h

/-! ## Registers and fences -/

theorem Canonical.setCsr {s t : State} (h : Canonical s) {n : Nat} {v : Word} (e : Machine.setCsr s n v = some t) :
    Canonical t := by
  unfold Machine.setCsr at e
  split at e
  · cases e
    exact h.of_mem (by simp)
  split at e
  · obtain ⟨q, -, rfl⟩ := Option.map_eq_some_iff.mp e
    exact h.of_mem (by simp)
  · obtain ⟨x, -, rfl⟩ := Option.map_eq_some_iff.mp e
    refine h.of_mem ?_
    split <;> rfl

theorem Canonical.settleScope {s : State} (h : Canonical s) (pod : Bool) : Canonical (s.settleScope pod) := by
  unfold State.settleScope
  exact h.foldl (by grind [Canonical.storesDone]) _

theorem Canonical.settlePage {s : State} (h : Canonical s) (k i : Nat) (f : Frame) : Canonical (s.settlePage k i f) := by
  unfold State.settlePage
  exact h.foldl (by grind [Canonical.storesDone]) _

theorem Keeps.flushPage (inv : Bool) (page : Nat) : Keeps (Machine.flushPage inv page) := by
  have leave (who : Who) (k i entry : Nat) (f : Frame) :
      Keeps (do
        Machine.setEntry who entry (if inv then 0 else leftEntry f)
        modS fun t =>
          let u := t.setCore k ((t.core k).freeFrame i)
          if inv && !f.mapped then u.pageDropped k i else u.pageLeaves k i f) := by
    refine (setEntry _ _ _).seq fun _ => modify fun t h => h.of_mem ?_
    dsimp only
    split <;> simp
  unfold Machine.flushPage
  refine look.seq fun s => (readEntry _ _).seq fun ⟨entry, e⟩ => ?_
  dsimp only
  split
  · split
    · split
      · next f _ =>
        refine guarded (trap _ _ _) ((globalLocs _ _ _ _).seq fun _ => (modify fun t h => h.settlePage _ _ f).seq fun _ =>
          look.seq fun u => ?_)
        split
        · split
          · exact (writeBack _ _ _).caught.seq fun w => (back _ _ w).seq fun _ => leave _ _ _ _ _
          · exact leave _ _ _ _ _
        · exact stop _
      · exact trap _ _ _
    · exact trap _ _ _
  · split
    · exact setEntry _ _ _
    · exact ret ()

/-! ## Tasks -/

theorem Keeps.join (who : Who) (parent : Word) (home : Nat) : Keeps (Machine.join who parent home) := by
  unfold Machine.join
  refine guarded (trap _ _ _) ((locateBytes _ _ _ _).seq fun ls => (checkPoison _ _).seq fun _ => look.seq fun s => ?_)
  extract_lets old
  refine guarded (trap _ _ _) ?_
  split
  · refine (checkRecord _ _ _ _).seq fun ⟨d, w⟩ => ?_
    exact (modify fun t h => h.writeLocs _).seq fun _ => (readVa _ _ _).seq fun n => modify fun t h => h.pushRecord _ _ _ _ _
  · exact modify fun t h => h.writeLocs _

theorem Keeps.endTask : Keeps (Machine.endTask) := by
  unfold Machine.endTask
  grind [Keeps.steps, canonical_iff, State.leaveHandler_mem, State.unbindAll_mem, State.releaseArea_mem, State.taskGone_mem,
    State.vacate_mem, Keeps.join]

/-! ## Sync objects -/

theorem Keeps.barwaitRead (d a b c : BitVec 5) (t : Nat) (s : State) : Keeps (Machine.barwaitRead d a b c t s) := by
  unfold Machine.barwaitRead
  grind [Keeps.steps, canonical_iff, Keeps.readObject, Keeps.afterScalar, State.acquired_mem]

theorem Keeps.hbarArrive (sc inst count : Nat) : Keeps (Machine.hbarArrive sc inst count) := by
  unfold Machine.hbarArrive
  grind [Keeps.steps, canonical_iff]

theorem Keeps.hbarReturn : Keeps (Machine.hbarReturn) := by
  unfold Machine.hbarReturn
  grind [Keeps.steps, canonical_iff, State.closePins_mem]

/-! ## Commands -/

@[simp] theorem State.addCommand_mem (s : State) (i : BitVec 3) (k : CmdKind) (d a b c : Word) :
    (s.addCommand i k d a b c).mem = s.mem := by
  unfold State.addCommand
  split <;> simp

theorem Keeps.issueCommand (k : CmdKind) (d a b c : BitVec 5) : Keeps (Machine.issueCommand k d a b c) := by
  unfold Machine.issueCommand
  grind [Keeps.steps, canonical_iff, Keeps.aligned, State.addCommand_mem]

theorem Canonical.copyStep {s : State} (h : Canonical s) (c : Nat) (slot : BitVec 3) : Canonical (s.copyStep c slot) := by
  unfold State.copyStep
  split
  · exact h
  · exact h.commandAction _ _ _ (by grind [Keeps.steps, Keeps.readBlock, Keeps.advanceCommand])

theorem Canonical.copyComplete {s : State} (h : Canonical s) (c : Nat) (slot : BitVec 3) :
    Canonical (s.copyComplete c slot) := by
  unfold State.copyComplete
  split
  · exact h
  · exact h.commandAction _ _ _ (by grind [Keeps.steps, Keeps.readBlock, Keeps.performUnit])

theorem Canonical.copyArrive {s : State} (h : Canonical s) (c : Nat) (slot : BitVec 3) : Canonical (s.copyArrive c slot) := by
  unfold State.copyArrive
  split
  · exact h
  · exact h.commandAction _ _ _
      (by grind [Keeps.steps, Keeps.readBlock, Keeps.countsBytes, Keeps.atFault, Keeps.updateObject])

theorem Keeps.nextAction (who : Who) (k : Command) (x : Option Source) : Keeps (Machine.nextAction who k x) := by
  unfold Machine.nextAction
  grind [Keeps.steps, Keeps.readBlock, Keeps.performUnit, Keeps.countsBytes, Keeps.atFault, Keeps.updateObject,
    Keeps.advanceCommand]

theorem Canonical.copyFault {s : State} (h : Canonical s) (c : Nat) (slot : BitVec 3) : Canonical (s.copyFault c slot) := by
  unfold State.copyFault
  split
  · exact h
  · next k _ =>
    split
    · next e => exact (((Keeps.nextAction _ _ _).ends e h).strew (engineWho s c k) k (s.source c slot)).of_mem (by simp)
    · exact h

theorem Canonical.copyAhead {s : State} (h : Canonical s) (c : Nat) (slot : BitVec 3) (key : Nat) :
    Canonical (s.copyAhead c slot key) := by
  unfold State.copyAhead
  split
  · exact h
  · exact h.commandAction _ _ _ (by grind [Keeps.steps, Keeps.readBlock, Keeps.performBytes, Keeps.performAhead])

theorem Canonical.copyKeep {s : State} (h : Canonical s) (c : Nat) (slot : BitVec 3) : Canonical (s.copyKeep c slot) := by
  unfold State.copyKeep
  split
  · exact h
  · exact h.commandAction _ _ _ (by grind [Keeps.steps, Keeps.readBlock, Keeps.unitWrites, Keeps.settled])

theorem Canonical.orphanTurn {s : State} (h : Canonical s) (i : Nat) : Canonical (s.orphanTurn i) := by
  unfold State.orphanTurn
  split
  · exact h
  · next o _ =>
    extract_lets x t u left
    have ht : Canonical t := h.of_mem (by simp [t])
    have hu : Canonical u := ht.commandAction _ _ _ (Keeps.advanceCommand _ _ _)
    split
    · exact h
    · exact hu.of_mem rfl

/-! ## Switches -/

theorem Canonical.writeImage {s : State} (h : Canonical s) (p base : Nat) (ws : List (Nat × List Byte)) :
    Canonical (Machine.writeImage s p base ws).1 := by
  induction ws generalizing s with
  | nil => exact h
  | cons w ws ih =>
    unfold Machine.writeImage
    split
    · next e => exact ih (h.putPhys e)
    · exact h

@[simp] theorem State.parkSources_mem (s : State) (c : Nat) : (s.parkSources c).mem = s.mem := by
  unfold State.parkSources
  split <;> rfl

@[simp] theorem State.reserveNeed_mem (s : State) (c : Nat) : (s.reserveNeed c).mem = s.mem := by
  unfold State.reserveNeed
  grind [mem_setCore]

theorem Canonical.park {s : State} (h : Canonical s) (c : Nat) (a : Area) : Canonical (s.park c a) := by
  have unfolded := Eq.refl State.park
  conv at unfolded => rhs; delta State.park
  simp only [unfolded]
  refine Canonical.pushResume (h.of_mem ?_) _ _ _ _
  simp

theorem Canonical.saveOr {s : State} (h : Canonical s) (c : Nat) (a : Area) (image : List (Nat × List Byte))
    {go : State → State} (hgo : ∀ t, Canonical t → Canonical (go t)) : Canonical (s.saveOr c a image go) := by
  have unfolded := Eq.refl State.saveOr
  conv at unfolded => rhs; delta State.saveOr
  simp only [unfolded]
  have written := h.writeImage (a.die / 4) (areaBase s a) image
  generalize Machine.writeImage s (a.die / 4) (areaBase s a) image = r at written ⊢
  obtain ⟨t, _ | bad⟩ := r
  · exact hgo t written
  · exact Canonical.loseTask written _ _

theorem Canonical.switchOut {s : State} (h : Canonical s) (c : Nat) : Canonical (s.switchOut c) := by
  have settled := (h.finishOlder c).settleCommands c
  have unfolded := Eq.refl State.switchOut
  conv at unfolded => rhs; delta State.switchOut
  simp only [unfolded]
  split
  · exact h.abandon _
  split
  · exact h.park _ _
  split
  · exact settled
  · exact settled.saveOr _ _ _ fun t ht => ht.park _ _

theorem Canonical.fullSwitch {s : State} (h : Canonical s) (c : Nat) : Canonical (s.fullSwitch c) := by
  unfold State.fullSwitch
  grind [canonical_iff, Canonical.switchOut]

@[simp] theorem State.reclaim_mem (s : State) (d : Nat) (e : QEntry) (c : Nat) : (s.reclaim d e c).mem = s.mem := rfl

@[simp] theorem State.orderSwitch_mem (s : State) (d : Nat) (e : QEntry) (c : Nat) : (s.orderSwitch d e c).mem = s.mem := rfl

@[simp] theorem State.preemptFor_mem (s : State) (d seq : Nat) : (s.preemptFor d seq).mem = s.mem := by
  unfold State.preemptFor
  grind [State.corrupt_mem, State.reclaim_mem, State.orderSwitch_mem]

@[simp] theorem State.reclaimFallback_mem (s : State) (c : Nat) : (s.reclaimFallback c).mem = s.mem := by
  unfold State.reclaimFallback
  grind [mem_setCtx]

theorem Keeps.budgetTrap (c : Nat) : Keeps (Machine.budgetTrap c) := by
  unfold Machine.budgetTrap
  grind [Keeps.steps, canonical_iff, mem_setCtx, Keeps.enqueue, Canonical.takeTrap]

theorem Canonical.takeBudget {s : State} (h : Canonical s) (c : Nat) : Canonical (s.takeBudget c) := by
  unfold State.takeBudget
  split
  · split
    · next e => exact (Keeps.budgetTrap c).ends e h
    · exact h.of_mem (by simp)
    · exact h
  · exact h

theorem Canonical.takePending {s : State} (h : Canonical s) (c : Nat) : Canonical (s.takePending c) := by
  unfold State.takePending
  grind [canonical_iff, Canonical.takeAsync]

end Sys2Proof.Machine


namespace Sys2Proof.Machine

/-! ## Operands -/

theorem Keeps.tagIn (r : BitVec 5) (accept : Tag → Bool) (lowest : Nat) : Keeps (Machine.tagIn r accept lowest) := by
  unfold Machine.tagIn
  grind [Keeps.steps]

theorem Keeps.tagInt (r : BitVec 5) : Keeps (Machine.tagInt r) := by
  unfold Machine.tagInt
  grind [Keeps.steps, Keeps.tagIn]

theorem Keeps.tagWide (r : BitVec 5) : Keeps (Machine.tagWide r) := by
  unfold Machine.tagWide
  grind [Keeps.steps, Keeps.tagIn]

theorem Keeps.tagIs (r : BitVec 5) (t : Tag) : Keeps (Machine.tagIs r t) := by
  unfold Machine.tagIs
  grind [Keeps.steps, Keeps.tagIn]

theorem Keeps.tagFloat (r : BitVec 5) (only32 : Bool) : Keeps (Machine.tagFloat r only32) := by
  unfold Machine.tagFloat
  grind [Keeps.steps, Keeps.tagIn]

theorem Keeps.tagOk (y : VSrc) {f : BitVec 5 → M Unit} (hf : ∀ r, Keeps (f r)) : Keeps (y.tagOk f) := by
  cases y with
  | vec r => exact hf r
  | scl _ => exact ret ()

/-! ## Fetch and boundaries -/

theorem Keeps.fetchWord (who : Who) (va : Nat) : Keeps (Machine.fetchWord who va) := by
  unfold Machine.fetchWord
  grind [Keeps.steps, Keeps.locateBytes]

theorem Canonical.prefetch {s : State} (h : Canonical s) (c : Nat) (va : Word) : Canonical (s.prefetch c va) := by
  unfold State.prefetch
  grind [canonical_iff, Keeps.locateBytes, mem_setCtx]

theorem Canonical.boundary {s t : State} (h : Canonical s) {c : Nat} (e : s.boundary c = some t) : Canonical t := by
  unfold State.boundary at e
  grind [canonical_iff, Canonical.takeBudget, Canonical.takeAsync, Canonical.switchOut, State.reclaimFallback_mem]

theorem Canonical.idleTurn {s : State} (h : Canonical s) (c : Nat) : Canonical (s.idleTurn c) := by
  unfold State.idleTurn
  grind [canonical_iff, State.reclaimFallback_mem, Canonical.switchOut, Canonical.acquireUnit]

theorem Canonical.nextInstr {s t : State} {i : Instr} (h : Canonical s) (e : s.nextInstr = .ok (i, t)) : Canonical t := by
  unfold State.nextInstr at e
  grind [canonical_iff, Keeps.fetchWord, Keeps.ends]

theorem Canonical.nextInstr_error {s t : State} (h : Canonical s) (e : s.nextInstr = .error t) : Canonical t := by
  unfold State.nextInstr at e
  grind [canonical_iff, Keeps.fetchWord, Keeps.ends, Canonical.trapNow, mem_setMe]

/-! ## Time -/

@[simp] theorem State.elapse_mem (s : State) (n : Nat) : (s.elapse n).mem = s.mem := by simp [State.elapse]

/-! ## Events -/

theorem Canonical.background {s : State} (h : Canonical s) {m : M Unit} (hm : Keeps m) : Canonical (s.background m) := by
  unfold State.background
  split
  · next e => exact hm.ends e h
  · exact h

@[simp] theorem State.tryAgain_mem (s : State) (c : Nat) : (s.tryAgain c).mem = s.mem := by
  unfold State.tryAgain
  split <;> rfl

theorem Keeps.pullPage (who : Who) (stash entry k i dest : Nat) (f : Frame) :
    Keeps (Machine.pullPage who stash entry k i dest f) := by
  unfold Machine.pullPage
  refine looking fun s hs => ?_
  split
  · exact ret ()
  refine Keeps.seq (Keeps.caught ((takeFrame _ _ _).seq fun o => ?_)) fun r => ?_
  · split
    · exact stop _
    · exact (setEntry _ _ _).seq fun _ => ret _
  · split
    · refine modify fun t h => ?_
      dsimp only
      split
      · exact h.of_mem (by simp)
      · exact h.of_mem (by simp)
    · exact modify fun t h => hs.of_mem (by simp)

theorem Canonical.areaAck {s : State} (h : Canonical s) (a : Area) (k : Nat) : Canonical (s.areaAck a k) := by
  have unfolded := Eq.refl State.areaAck
  conv at unfolded => rhs; delta State.areaAck
  simp only [unfolded]
  split
  · exact h.of_mem (by simp)
  · exact h.putArea _ _ _

theorem Canonical.countAck {s : State} (h : Canonical s) (tid k : Nat) : Canonical (s.countAck tid k) := by
  unfold State.countAck
  grind [canonical_iff, mem_setCtx, Canonical.areaAck]

/-! ## Send ports -/

theorem Keeps.readGroup (n : BitVec 4) (ad : Word) (first : Bool) : Keeps (Machine.readGroup n ad first) := by
  unfold Machine.readGroup
  refine look.seq fun s => (readVa _ _ _).seq fun w => (check _ _ _).seq fun _ => (readVa _ _ _).seq fun _ =>
    (readVa _ _ _).seq fun _ => ?_
  grind [Keeps.steps, Keeps.readVa]

theorem Keeps.writeTogether (who : Who) (ws : List (Nat × List Byte)) : Keeps (Machine.writeTogether who ws) := by
  unfold Machine.writeTogether
  grind [Keeps.steps, canonical_iff, Keeps.collect, Keeps.locateBytes, Canonical.writeLocs]

theorem Keeps.bindSlot (n : BitVec 4) (ad : Word) (ch : Channel) (i : Nat) (x : Slot) :
    Keeps (Machine.bindSlot n ad ch i x) := by
  unfold Machine.bindSlot
  grind [Keeps.steps, canonical_iff, mem_setChan]

theorem Keeps.bindGroup (n : BitVec 4) (ad : Word) : Keeps (Machine.bindGroup n ad) := by
  unfold Machine.bindGroup
  refine (aligned _ _).seq fun _ => look.seq fun s => (readGroup _ _ _).seq fun g => (check _ _ _).seq fun _ => ?_
  dsimp only
  split
  · exact trap _ _ _
  · split
    · exact check _ _ _
    · refine (check _ _ _).seq fun _ => ?_
      split
      · exact trap _ _ _
      · refine (check _ _ _).seq fun _ => (writeTogether _ _).seq fun _ => ?_
        grind [Keeps.steps, canonical_iff, Keeps.bindSlot]

theorem Keeps.heldSlot (n : BitVec 4) : Keeps (Machine.heldSlot n) := by
  unfold Machine.heldSlot
  grind [Keeps.steps]

theorem Keeps.awaitTable (n : BitVec 4) (x : Slot) : Keeps (Machine.awaitTable n x) := by
  unfold Machine.awaitTable
  grind [Keeps.steps]

theorem Keeps.enqueueSend (n : BitVec 4) (i : Nat) (x : Slot) (k : SendKind) : Keeps (Machine.enqueueSend n i x k) := by
  unfold Machine.enqueueSend
  grind [Keeps.steps, canonical_iff, mem_setChan]

theorem Keeps.exchangeAddr (a : Word) : Keeps (Machine.exchangeAddr a) := by
  unfold Machine.exchangeAddr
  grind [Keeps.steps]

theorem Keeps.slotTable (who : Who) (ch : Channel) (g : Group) (x : Slot) : Keeps (Machine.slotTable who ch g x) := by
  unfold Machine.slotTable
  grind [Keeps.steps, Keeps.readVa]

theorem Keeps.writeStatus (who : Who) (n : BitVec 4) (g : Group) (i : Nat) (op : SendOp) :
    Keeps (Machine.writeStatus who n g i op) := by
  unfold Machine.writeStatus
  grind [Keeps.steps, canonical_iff, Keeps.writeBytes, Canonical.raiseTask]

theorem Keeps.settleChannel (n : BitVec 4) : Keeps (Machine.settleChannel n) := by
  unfold Machine.settleChannel
  grind [Keeps.steps, canonical_iff, mem_setChan]

theorem Keeps.sendFault (who : Who) (n : BitVec 4) (g : Group) (i : Nat) (op : SendOp) (cause : BitVec 10)
    (f : FaultInfo) : Keeps (Machine.sendFault who n g i op cause f) := by
  unfold Machine.sendFault
  grind [Keeps.steps, canonical_iff, mem_setChan, Keeps.writeStatus, Canonical.raiseTask, Keeps.settleChannel]

theorem Keeps.readRecord (who : Who) (plen : Nat) (va : Nat) : Keeps (Machine.readRecord who plen va) := by
  unfold Machine.readRecord
  grind [Keeps.steps, Keeps.readVa]

theorem Keeps.runHeads (who : Who) (plen table : Nat) (js : List (Nat × Nat)) :
    Keeps (Machine.runHeads who plen table js) := by
  induction js with
  | nil => exact ret []
  | cons j js ih =>
    unfold Machine.runHeads
    refine (readVa _ _ _).seq fun e => guarded (trap _ _ _) (guarded (trap _ _ _) ?_)
    split
    · exact (readVa _ _ _).seq fun k => ih.seq fun more => ret _
    · exact ih

theorem Keeps.nextRecord (who : Who) (plen : Nat) (k : SendKind) : Keeps (Machine.nextRecord who plen k) := by
  unfold Machine.nextRecord
  grind [Keeps.steps, Keeps.runHeads]

theorem Keeps.takeRecord (who : Who) (plen : Nat) (op : SendOp) : Keeps (Machine.takeRecord who plen op) := by
  unfold Machine.takeRecord
  grind [Keeps.steps, Keeps.nextRecord, Keeps.readRecord]

theorem Keeps.completeSend (who : Who) (n : BitVec 4) (g : Group) (i : Nat) (op : SendOp) :
    Keeps (Machine.completeSend who n g i op) := by
  unfold Machine.completeSend
  grind [Keeps.steps, canonical_iff, mem_setChan, Keeps.writeStatus, Keeps.settleChannel]

@[simp] theorem State.continueSend_mem (s : State) (n : BitVec 4) (i : Nat) (op : SendOp) :
    (s.continueSend n i op).mem = s.mem := by
  unfold State.continueSend
  split <;> rfl

theorem Keeps.handRecord (who : Who) (n : BitVec 4) (g : Group) (i : Nat) (x : Slot) (r : Nat × Word × BitVec 2048)
    (op : SendOp) : Keeps (Machine.handRecord who n g i x r op) := by
  unfold Machine.handRecord
  grind [Keeps.steps, canonical_iff, Keeps.slotTable, State.continueSend_mem, mem_setChan]

theorem Keeps.recordsLeft (who : Who) (k : SendKind) : Keeps (Machine.recordsLeft who k) := by
  unfold Machine.recordsLeft
  grind [Keeps.steps, Keeps.collect, Keeps.readVa]

theorem Keeps.portAction (n : BitVec 4) (g : Group) (i : Nat) (x : Slot) (op : SendOp) :
    Keeps (Machine.portAction n g i x op) := by
  unfold Machine.portAction
  grind [Keeps.steps, canonical_iff, mem_setChan, Keeps.completeSend, Keeps.takeRecord, State.continueSend_mem,
    Keeps.recordsLeft, Keeps.handRecord, Keeps.sendFault]

@[simp] theorem State.slotWaits_mem (s : State) (n : BitVec 4) (i : Nat) (keys : List Nat) :
    (s.slotWaits n i keys).mem = s.mem := by
  unfold State.slotWaits
  grind [mem_setChan]

theorem Canonical.slotAction {s : State} (h : Canonical s) (n : BitVec 4) (i : Nat) {m : M Unit} (hm : Keeps m) :
    Canonical (s.slotAction n i m) := by
  unfold State.slotAction
  split
  · next e => exact (hm.ends e h).of_mem (by simp)
  · exact h.of_mem (by simp)
  · exact h

theorem Keeps.readAhead (who : Who) (plen : Nat) (ops : List SendOp) : Keeps (Machine.readAhead who plen ops) := by
  induction ops with
  | nil => exact ret []
  | cons op ops ih =>
    unfold Machine.readAhead
    grind [Keeps.steps, Keeps.nextRecord, Keeps.readRecord]

theorem Canonical.portReads {s : State} (h : Canonical s) (n : BitVec 4) (i : Nat) : Canonical (s.portReads n i) := by
  unfold State.portReads
  dsimp only
  split
  · split
    · exact h
    · split
      · next e => exact ((Keeps.readAhead _ _ _).ends e h).of_mem (by simp)
      · exact h
  · exact h

theorem Keeps.xsendvForm (i : Instr) (a b : BitVec 5) (g : Group) : Keeps (Machine.xsendvForm i a b g) := by
  unfold Machine.xsendvForm
  grind [Keeps.steps, Keeps.tagIs, Keeps.each, Keeps.tagIn]

theorem Keeps.xsendvKeys (a : BitVec 5) (ch : Channel) (x : Slot) : Keeps (Machine.xsendvKeys a ch x) := by
  unfold Machine.xsendvKeys
  grind [Keeps.steps]

theorem Keeps.elementTable (who : Who) (ch : Channel) (g : Group) (x : Slot) : Keeps (Machine.elementTable who ch g x) := by
  unfold Machine.elementTable
  grind [Keeps.steps, Keeps.slotTable]

/-! ## Delivery -/

@[simp] theorem State.raiseOwner_mem (s : State) (r : RecvDesc) (cause : BitVec 10) (info : Word) :
    (s.raiseOwner r cause info).mem = s.mem := by
  unfold State.raiseOwner
  split <;> rfl

theorem Keeps.putLate (who : Who) (va : Nat) (bs : List Byte) (d : Dest) : Keeps (Machine.putLate who va bs d) := by
  unfold Machine.putLate
  grind [Keeps.steps, Keeps.locateBytes]

theorem Canonical.placeWrites {s : State} (h : Canonical s) (d : Dest) : Canonical (s.placeWrites d) := by
  unfold State.placeWrites
  grind [canonical_iff, Canonical.writeLocs]

theorem Keeps.placeM (d : Dest) : Keeps (Machine.placeM d) := by
  unfold Machine.placeM
  grind [Keeps.steps, canonical_iff, Canonical.placeWrites]

theorem Keeps.putHead (who : Who) (r : RecvDesc) (d : Dest) : Keeps (Machine.putHead who r d) := by
  unfold Machine.putHead
  grind [Keeps.steps, Keeps.putLate]

theorem Keeps.putEntry (who : Who) (r : RecvDesc) (d : Dest) (idxres : Nat) (cause : BitVec 10) (state : Nat) :
    Keeps (Machine.putEntry who r d idxres cause state) := by
  unfold Machine.putEntry
  grind [Keeps.steps, Keeps.putLate]

theorem Keeps.putState (who : Who) (r : RecvDesc) (d : Dest) (cause : BitVec 10) (state : Nat) :
    Keeps (Machine.putState who r d cause state) := by
  unfold Machine.putState
  grind [Keeps.steps, Keeps.putLate]

theorem Keeps.putIndexState (who : Who) (r : RecvDesc) (d : Dest) (j : Nat) (cause : BitVec 10) :
    Keeps (Machine.putIndexState who r d j cause) := by
  unfold Machine.putIndexState
  grind [Keeps.steps, Keeps.putLate]

theorem Keeps.putCounters (who : Who) (r : RecvDesc) (d : Dest) : Keeps (Machine.putCounters who r d) := by
  unfold Machine.putCounters
  grind [Keeps.steps, Keeps.putHead, Keeps.putEntry]

theorem Keeps.startRound (who : Who) (r : RecvDesc) (d : Dest) : Keeps (Machine.startRound who r d) := by
  unfold Machine.startRound
  grind [Keeps.steps, Keeps.putCounters]

theorem Keeps.readConsumed (who : Who) (r : RecvDesc) (d : Dest) : Keeps (Machine.readConsumed who r d) := by
  unfold Machine.readConsumed
  grind [Keeps.steps, Keeps.readVa]

theorem Keeps.countersStep (who : Who) (r : RecvDesc) (d : Dest) (first : Bool) :
    Keeps (Machine.countersStep who r d first) := by
  unfold Machine.countersStep
  grind [Keeps.steps, Keeps.putCounters]

theorem Keeps.deliverAction (who : Who) (g : Group) (r : RecvDesc) (d : Dest) (x : Record) :
    Keeps (Machine.deliverAction who g r d x) := by
  unfold Machine.deliverAction
  refine Keeps.seq (Keeps.caught ?_) fun a => ?_
  · split
    exacts [readConsumed _ _ _, ret _]
  split
  · exact ret _
  split
  · exact ret _
  refine (putLate _ _ _ _).caught.seq fun t => ?_
  split
  · exact ret _
  split
  exacts [countersStep _ _ _ _, ret _]

theorem Keeps.arriveSync (who : Who) (r : RecvDesc) : Keeps (Machine.arriveSync who r) := by
  unfold Machine.arriveSync
  grind [Keeps.steps, Keeps.updateObject]

theorem Keeps.putIndex (who : Who) (r : RecvDesc) (d : Dest) (js : List Nat) : Keeps (Machine.putIndex who r d js) := by
  induction js generalizing d with
  | nil => exact ret _
  | cons j js ih =>
    unfold Machine.putIndex
    grind [Keeps.steps, Keeps.putLate]

theorem Keeps.markStep (who : Who) (r : RecvDesc) (d : Dest) (cause : BitVec 10) : Keeps (Machine.markStep who r d cause) := by
  unfold Machine.markStep
  grind [Keeps.steps, Keeps.putState]

theorem Keeps.syncStep (who : Who) (r : RecvDesc) (d : Dest) : Keeps (Machine.syncStep who r d) := by
  unfold Machine.syncStep
  grind [Keeps.steps, Keeps.placeM, Keeps.arriveSync, Keeps.markStep]

theorem Keeps.statusStep (who : Who) (r : RecvDesc) (d : Dest) : Keeps (Machine.statusStep who r d) := by
  unfold Machine.statusStep
  grind [Keeps.steps, Keeps.putEntry, Keeps.syncStep]

theorem Keeps.indexStep (who : Who) (r : RecvDesc) (d : Dest) (j : Nat) : Keeps (Machine.indexStep who r d j) := by
  unfold Machine.indexStep
  grind [Keeps.steps, Keeps.statusStep, Keeps.putIndex]

theorem Keeps.pollAction (who : Who) (r : RecvDesc) (d : Dest) : Keeps (Machine.pollAction who r d) := by
  unfold Machine.pollAction
  grind [Keeps.steps, Keeps.readConsumed, Keeps.putState]

theorem Keeps.stageAction (who : Who) (r : RecvDesc) (d : Dest) : Keeps (Machine.stageAction who r d) := by
  unfold Machine.stageAction
  grind [Keeps.steps, Keeps.indexStep, Keeps.statusStep, Keeps.syncStep, Keeps.markStep]

theorem Keeps.destAction (who : Who) (g : Group) (r : RecvDesc) (d : Dest) : Keeps (Machine.destAction who g r d) := by
  unfold Machine.destAction
  grind [Keeps.steps, Keeps.countersStep, Keeps.pollAction, Keeps.startRound, Keeps.deliverAction, Keeps.stageAction]

theorem Keeps.tryWrite (d : Dest) {m : M Dest} (hm : Keeps m) : Keeps (Machine.tryWrite d m) := by
  unfold Machine.tryWrite
  grind [Keeps.steps]

theorem Keeps.reportFault (who : Who) (r : RecvDesc) (d : Dest) (cause : BitVec 10) (at_ : Word) :
    Keeps (Machine.reportFault who r d cause at_) := by
  unfold Machine.reportFault
  grind [Keeps.steps, Keeps.tryWrite, Keeps.putLate, Keeps.putState, Keeps.putIndexState, Keeps.placeM]

@[simp] theorem State.setDest_mem (s : State) (c : BitVec 4) (i : Nat) (d : Dest) : (s.setDest c i d).mem = s.mem := rfl

theorem Canonical.portReport {s : State} (h : Canonical s) (c : BitVec 4) (i : Nat) (g : Group) (r : RecvDesc) (d : Dest) :
    Canonical (s.portReport c i g r d) := by
  unfold State.portReport
  split
  · exact h
  · have ends {who : Who} {e : Dest} {cause : BitVec 10} {at_ : Word} {x : Except Stop Unit} {t : State}
        (ran : (reportFault who r e cause at_).run (s.placeWrites d) = (x, t)) : Canonical t :=
      (Keeps.reportFault _ _ _ _ _).ends ran (h.placeWrites d)
    split
    · next ran => exact (ends ran).of_mem (by simp)
    · next ran => exact (ends ran).of_mem rfl
    · next ran => exact (ends ran).of_mem rfl

theorem Canonical.portStep {s : State} (h : Canonical s) (c : BitVec 4) (i : Nat) (g : Group) (r : RecvDesc) (d : Dest)
    (hold : Bool) {act : Who → M (Reached × Bool)} (hact : ∀ who, Keeps (act who)) :
    Canonical (s.portStep c i g r d hold act) := by
  unfold State.portStep
  split
  · exact h
  · next e stop first t ran =>
    have ht : Canonical t := (hact _).ends ran h
    have placed : Canonical (if hold && stop.isNone then (t, e) else (t.placeWrites e, { e with late := [] })).1 := by
      split
      exacts [ht, ht.placeWrites e]
    generalize (if hold && stop.isNone then (t, e) else (t.placeWrites e, { e with late := [] })) = w at placed ⊢
    obtain ⟨u, f⟩ := w
    grind [canonical_iff, Canonical.portReport, mem_setChan, State.setDest_mem, State.raiseOwner_mem]

theorem Canonical.portAct {s : State} (h : Canonical s) (c : BitVec 4) (i : Nat) (g : Group) (r : RecvDesc) (d : Dest)
    (ready hold : Bool) {act : Who → M (Reached × Bool)} (hact : ∀ who, Keeps (act who)) :
    Canonical (s.portAct c i g r d ready hold act) := by
  unfold State.portAct
  grind [Canonical.portReport, Canonical.portStep]

theorem Keeps.abortStep (who : Who) (r : RecvDesc) (d : Dest) (cause : BitVec 10) :
    Keeps (Machine.abortStep who r d cause) := by
  unfold Machine.abortStep
  split
  · refine (arriveSync _ _).caught.seq fun a => ?_
    split
    exacts [ret _, ret _, ret _, ret _]
  · refine (putState _ _ _ _ _).caught.seq fun a => ?_
    split
    exacts [ret _, ret _, ret _]
  · split
    · exact ret _
    · refine (tryWrite _ (putLate _ _ _ _)).caught.seq fun a => ?_
      split
      exacts [ret _, ret _]
  · refine (putEntry _ _ _ _ _ _).caught.seq fun a => ?_
    split
    exacts [ret _, ret _, ret _]

theorem Canonical.endAborted {s : State} (h : Canonical s) (c : BitVec 4) (i fuel : Nat) :
    Canonical (s.endAborted c i fuel) := by
  induction fuel generalizing s with
  | zero => exact h
  | succ fuel ih =>
    unfold State.endAborted
    dsimp only
    split
    · exact h
    · split
      · exact h
      · split
        · exact h
        · next e _ _ ran => exact (((Keeps.abortStep _ _ _ _).ends ran h).placeWrites e).of_mem rfl
        · next e _ _ _ ran => exact (((Keeps.abortStep _ _ _ _).ends ran h).placeWrites e).of_mem rfl
        · next e _ ran =>
          have placed := ((Keeps.abortStep _ _ _ _).ends ran h).placeWrites e
          refine ih ?_
          split
          · exact placed.of_mem (by simp)
          · exact placed.of_mem (by simp)

@[simp] theorem State.raiseOwners_mem (s : State) (g : Group) (cause : BitVec 10) (info : Word) :
    (s.raiseOwners g cause info).mem = s.mem := by
  unfold State.raiseOwners
  exact List.foldlRecOn (motive := fun t : State => t.mem = s.mem) _ _ rfl fun t ht o _ => by simpa using ht

theorem Canonical.raiseAbort {s : State} (h : Canonical s) (c : BitVec 4) (g : Group) (cause : BitVec 10) :
    Canonical (s.raiseAbort c g cause) := by
  have told := h.foldl (f := fun t tid => t.raiseTask tid ⟨cause, c.setWidth 64, [0, 0, 0, 0], false⟩)
    (fun t tid ht => ht.raiseTask _ _) ((s.chan c).slots.filterMap (·.holder))
  unfold State.raiseAbort
  dsimp only
  split
  · exact told
  · exact told.of_mem (by simp)

theorem Canonical.putGroup {s : State} (h : Canonical s) (c : BitVec 4) (g : Group) : Canonical (s.putGroup c g).1 := by
  unfold State.putGroup
  dsimp only
  split
  · exact h.of_mem (by simp)
  · split
    · next e => exact ((Keeps.writeBytes _ _ _).ends e h).of_mem (by simp)
    · next e => exact ((Keeps.writeBytes _ _ _).ends e h).of_mem (by simp)
    · next e => exact ((Keeps.writeBytes _ _ _).ends e h).of_mem (by simp)
    · next e => exact ((Keeps.writeBytes _ _ _).ends e h).of_mem (by simp)

theorem Canonical.abortChannel {s : State} (h : Canonical s) (c : BitVec 4) (cause : BitVec 10) :
    Canonical (s.abortChannel c cause) := by
  unfold State.abortChannel
  dsimp only
  split
  · next g _ _ =>
    have placed := h.foldl (fun t d ht => ht.placeWrites d) (s.chan c).dests
    refine Canonical.of_mem (Canonical.raiseAbort (Canonical.foldl (Canonical.putGroup (placed.of_mem ?_) c g)
      (fun t i ht => ht.endAborted c i 8) _) c g _) (by simp; rfl)
    simp
  · exact h

theorem Canonical.finishGroup {s : State} (h : Canonical s) (c : BitVec 4) (g : Group) : Canonical (s.finishGroup c g) := by
  have put := h.putGroup c g
  unfold State.finishGroup
  grind [canonical_iff, Canonical.raiseAbort, mem_setChan]

theorem Canonical.deliverTurn {s : State} (h : Canonical s) (c : BitVec 4) (i : Nat) : Canonical (s.deliverTurn c i) := by
  unfold State.deliverTurn
  grind [canonical_iff, Canonical.portAct, Keeps.destAction]

theorem Canonical.placeTurn {s : State} (h : Canonical s) (c : BitVec 4) (i n : Nat) : Canonical (s.placeTurn c i n) := by
  unfold State.placeTurn
  grind [canonical_iff, State.setDest_mem, Canonical.writeLocs]

theorem Canonical.placeAllWrites {s : State} (h : Canonical s) : Canonical s.placeAllWrites := by
  unfold State.placeAllWrites
  split
  · exact h
  · have one {t : State} (ht : Canonical t) (ch : Channel) : Canonical (ch.dests.foldl State.placeWrites t) :=
      ht.foldl (fun u d hu => hu.placeWrites d) _
    refine Canonical.of_mem (h.foldl (fun t e ht => ht.foldl (fun u ch hu => one hu ch) e.2.toList) s.chans) ?_
    simp

theorem Canonical.watchdogsOf {s : State} (h : Canonical s) (chs : Vector Channel 16) : Canonical (s.watchdogsOf chs) := by
  unfold State.watchdogsOf
  exact h.foldl (fun t i ht => by grind [Canonical.abortChannel]) _

theorem Canonical.watchdogs {s : State} (h : Canonical s) : Canonical s.watchdogs := by
  unfold State.watchdogs
  split
  · exact h
  · exact h.foldl (fun t e ht => ht.within _ fun u hu => hu.watchdogsOf _) _

theorem Keeps.splittersAt (who : Who) (g : Group) (v : BitVec 32) : Keeps (Machine.splittersAt who g v) := by
  unfold Machine.splittersAt
  grind [Keeps.steps, Keeps.readVa]

theorem Keeps.closeSieve (c : BitVec 4) (g : Group) : Keeps (Machine.closeSieve c g) := by
  unfold Machine.closeSieve
  grind [Keeps.steps, canonical_iff, Keeps.writeBytes, mem_setChan, Keeps.splittersAt]

theorem Keeps.xsplitIssue (i : Instr) (a : BitVec 5) (n : BitVec 4) : Keeps (Machine.xsplitIssue i a n) := by
  unfold Machine.xsplitIssue
  refine (feature _ _).seq fun _ => (heldSlot _).seq fun _ => look.seq fun s => (aligned _ _).seq fun _ =>
    (exchangeAddr _).seq fun _ => ?_
  split
  · exact trap _ _ _
  · exact settleM.seq fun _ => drainM.seq fun _ => look.seq fun t => guarded (stop _) (ret _)

theorem Keeps.xsplitFence : Keeps (Machine.xsplitFence) := by
  unfold Machine.xsplitFence
  grind [Keeps.steps, canonical_iff, State.closePins_mem]

theorem Keeps.writeWords (who : Who) (va : Nat) (ws : List Word) : Keeps (Machine.writeWords who va ws) := by
  unfold Machine.writeWords
  grind [Keeps.steps, canonical_iff, Keeps.locateBytes, Canonical.writeLocs, Keeps.each, Keeps.writeVa]

end Sys2Proof.Machine


namespace Sys2Proof.Machine

/-! ## Containment and links -/

@[simp] theorem State.poisonLine_mem (s : State) (line : Nat) : (s.poisonLine line).mem = s.mem := by
  unfold State.poisonLine
  split <;> rfl

theorem Keeps.takeOut (who : Who) (k : Nat) (f : Frame) : Keeps (Machine.takeOut who k f) := by
  unfold Machine.takeOut
  grind [Keeps.steps, Keeps.writeBack]

theorem Keeps.retireFrame (who : Who) (k i : Nat) (bad : List Nat) : Keeps (Machine.retireFrame who k i bad) := by
  have free (value : Nat) (f : Frame) : Keeps (modS fun t =>
      let u := t.setCore k ((t.core k).freeFrame i)
      if value = 0 && !f.mapped then u.pageDropped k i else u.pageLeaves k i f) := by
    refine modify fun t h => h.of_mem ?_
    dsimp only
    split <;> simp
  have poison {t : State} (h : Canonical t) (f : Frame) (js : List Nat) :
      Canonical (js.foldl (fun t j => t.poisonLine (f.phys / 64 + j)) t) :=
    h.foldl (fun u j hu => hu.of_mem (by simp)) js
  unfold Machine.retireFrame
  refine look.seq fun s => ?_
  split
  · exact ret ()
  · next f _ =>
    refine (modify fun t h => h.settlePage _ _ f).seq fun _ => look.seq fun u => (takeOut _ _ _).seq fun value => ?_
    refine (modify fun t h => poison h _ _).seq fun _ => (setEntry _ _ _).caught.seq fun r => ?_
    dsimp only
    split
    · exact (ret ()).seq fun _ => free _ _
    · exact (ret ()).seq fun _ => free _ _
    · exact (stop _).seq fun _ => free _ _

theorem Canonical.retireFrames {s : State} (h : Canonical s) (k : Nat) (unreadable : List Nat) (n : Nat) :
    Canonical (s.retireFrames k unreadable n).1 := by
  induction n generalizing s with
  | zero => exact h
  | succ n ih =>
    unfold State.retireFrames
    dsimp only
    split
    · next e => exact ih (((Keeps.retireFrame _ _ _ _).ends e h).of_mem (by simp))
    · exact h.of_mem (by simp)
    · exact h

theorem Canonical.retireFrames_ends {s t : State} (h : Canonical s) {k : Nat} {unreadable : List Nat} {n : Nat} {b : Bool}
    (e : s.retireFrames k unreadable n = (t, b)) : Canonical t := by
  simpa [e] using h.retireFrames k unreadable n

theorem Canonical.enqueueLater {s : State} (h : Canonical s) (r : Rerun) : Canonical (s.enqueueLater r) := by
  unfold State.enqueueLater
  split
  · next e => exact (Keeps.enqueue _ _ _ _).ends e h
  · next e =>
    have ended := (Keeps.enqueue _ _ _ _).ends e h
    split
    · exact ended.of_mem (by simp)
    · exact ended.of_mem (by simp)
  · exact h
  · exact h

theorem Canonical.retryRerun {s : State} (h : Canonical s) (i : Nat) : Canonical (s.retryRerun i) := by
  unfold State.retryRerun
  grind [canonical_iff, Canonical.enqueueLater]

theorem Canonical.containTask {s : State} (h : Canonical s) (c : Nat) : Canonical (s.containTask c) := by
  unfold State.containTask
  grind [canonical_iff, Canonical.abandon, Canonical.enqueueLater, State.report_mem]

theorem Canonical.endRoundsHere {s : State} (h : Canonical s) (hit : Channel → Group → Bool) :
    Canonical (s.endRoundsHere hit) := by
  unfold State.endRoundsHere
  exact h.foldl (fun t n ht => by grind [Canonical.abortChannel]) _

theorem Canonical.endRounds {s : State} (h : Canonical s) (hit : Channel → Group → Bool) : Canonical (s.endRounds hit) := by
  unfold State.endRounds
  exact h.foldl (fun t e ht => ht.within _ fun u hu => hu.endRoundsHere _) _

@[simp] theorem State.setLink_mem (s : State) (p i : Nat) (l : Link) : (s.setLink p i l).mem = s.mem := rfl

@[simp] theorem State.maskLink_mem (s : State) (p i : Nat) : (s.maskLink p i).mem = s.mem := rfl

@[simp] theorem State.openSpare_mem (s : State) (p q : Nat) : (s.openSpare p q).mem = s.mem := by
  unfold State.openSpare
  grind [State.setLink_mem]

theorem Canonical.rerouteHere {s : State} (h : Canonical s) (hit : Channel → Group → Bool) :
    Canonical (s.rerouteHere hit) := by
  unfold State.rerouteHere
  refine h.foldl (fun t n ht => ?_) _
  dsimp only
  split
  · split
    · exact ht.of_mem (by simp)
    · exact ht
  · exact ht

theorem Canonical.reroute {s : State} (h : Canonical s) (hit : Channel → Group → Bool) : Canonical (s.reroute hit) := by
  unfold State.reroute
  exact h.foldl (fun t e ht => ht.within _ fun u hu => hu.rerouteHere _) _

/-! ## Vector integers -/

theorem Keeps.vecInt (op : IntOp) (d a : BitVec 5) (y : VSrc) (m : BitVec 1) (r : BitVec 3) :
    Keeps (Machine.vecInt op d a y m r) := by
  unfold Machine.vecInt
  grind [Keeps.steps, Keeps.tagInt, Keeps.tagOk]

theorem Keeps.vecCmp (c : IntCond) (d a : BitVec 5) (y : VSrc) (m : BitVec 1) (r : BitVec 3) :
    Keeps (Machine.vecCmp c d a y m r) := by
  unfold Machine.vecCmp
  grind [Keeps.steps, Keeps.tagInt, Keeps.tagOk]

theorem Keeps.vecSel (d a : BitVec 5) (y : VSrc) (r : BitVec 3) : Keeps (Machine.vecSel d a y r) := by
  unfold Machine.vecSel
  grind [Keeps.steps, Keeps.tagWide, Keeps.tagOk, Keeps.tagIs]

/-! ## Vector floating point -/

theorem Keeps.needFp64 (i : Instr) : Keeps (Machine.needFp64 i) := by
  unfold Machine.needFp64
  grind [Keeps.steps, Keeps.feature]

theorem Keeps.vecFloat (i : Instr) (op : FloatOp) (d a : BitVec 5) (y : VSrc) (m : BitVec 1) (r : BitVec 3) :
    Keeps (Machine.vecFloat i op d a y m r) := by
  unfold Machine.vecFloat
  grind [Keeps.steps, Keeps.needFp64, Keeps.tagFloat, Keeps.tagOk, Keeps.tagIs]

theorem Keeps.vecFloat1 (i : Instr) (op : FloatOp) (d a : BitVec 5) (m : BitVec 1) (r : BitVec 3) :
    Keeps (Machine.vecFloat1 i op d a m r) := by
  unfold Machine.vecFloat1
  grind [Keeps.steps, Keeps.vecFloat]

theorem Keeps.vecFcmp (i : Instr) (c : FpCond) (d a : BitVec 5) (y : VSrc) (m : BitVec 1) (r : BitVec 3) :
    Keeps (Machine.vecFcmp i c d a y m r) := by
  unfold Machine.vecFcmp
  grind [Keeps.steps, Keeps.needFp64, Keeps.tagFloat, Keeps.tagOk, Keeps.tagIs]

/-! ## Reductions and permutations -/

theorem Keeps.vecRed (op : IntOp) (d a : BitVec 5) (m : BitVec 1) (r : BitVec 3) : Keeps (Machine.vecRed op d a m r) := by
  unfold Machine.vecRed
  grind [Keeps.steps, Keeps.tagInt]

theorem Keeps.redChecks (i : Instr) (d a : BitVec 5) : Keeps (Machine.redChecks i d a) := by
  unfold Machine.redChecks
  grind [Keeps.steps, Keeps.needFp64, Keeps.tagFloat, Keeps.tagIs]

theorem Keeps.vecFredAdd (i : Instr) (d a : BitVec 5) (m : BitVec 1) (r : BitVec 3) : Keeps (Machine.vecFredAdd i d a m r) := by
  unfold Machine.vecFredAdd
  grind [Keeps.steps, Keeps.redChecks]

theorem Keeps.vecFredMinMax (i : Instr) (max : Bool) (d a : BitVec 5) (m : BitVec 1) (r : BitVec 3) :
    Keeps (Machine.vecFredMinMax i max d a m r) := by
  unfold Machine.vecFredMinMax
  grind [Keeps.steps, Keeps.redChecks]

theorem Keeps.vecMove (d a : BitVec 5) (m : BitVec 1) (r : BitVec 3) (f : Ctx → Nat → Option Nat) :
    Keeps (Machine.vecMove d a m r f) := by
  unfold Machine.vecMove
  grind [Keeps.steps, Keeps.tagWide]

/-! ## Moves and conversions -/

theorem Keeps.cvtSb (d a : BitVec 5) (dst : Tag) (sb8 : Bool) (m : BitVec 1) (r : BitVec 3) :
    Keeps (Machine.cvtSb d a dst sb8 m r) := by
  unfold Machine.cvtSb
  grind [Keeps.steps]

/-! ## Vector accesses -/

theorem Keeps.placesOf (who : Who) (kind : Access) (va n : Nat) : Keeps (Machine.placesOf who kind va n) := by
  unfold Machine.placesOf
  grind [Keeps.steps, Keeps.locateBytes, Keeps.checkPoison]

theorem Keeps.placesAll (who : Who) (kind : Access) (accs : List (Nat × Nat)) : Keeps (Machine.placesAll who kind accs) := by
  induction accs with
  | nil => exact ret _
  | cons a accs ih =>
    unfold Machine.placesAll
    grind [Keeps.steps, Keeps.placesOf]

theorem Keeps.elementPlaces (who : Who) (kind : Access) (accs : List (Nat × Nat)) :
    Keeps (Machine.elementPlaces who kind accs) := by
  unfold Machine.elementPlaces
  refine of_run fun s hs => ?_
  split
  · next e =>
    split
    · exact (placesAll _ _ _).after _ (hs.storesDone _)
    · exact (placesAll _ _ _).ends e hs
  · exact (placesAll _ _ _).after s hs

theorem Keeps.passOver {α : Type} (who : Who) (kind : Access) (mark : Nat → FaultInfo → FaultInfo)
    {act : Nat → List Loc → M α} (hact : ∀ i ls, Keeps (act i ls)) (p : Pass α) (els : List (Nat × List (Nat × Nat))) :
    Keeps (Machine.passOver who kind mark act p els) := by
  induction els generalizing p with
  | nil => exact ret p
  | cons e els ih =>
    unfold Machine.passOver
    refine (elementPlaces _ _ _).seq fun x => ?_
    split
    · exact (hact _ _).seq fun _ => ih _
    · split
      · exact ih _
      · exact trap _ _ _
    · exact ih _
    · exact ih _

theorem Keeps.batchPass {α : Type} (who : Who) (kind : Access) (mark : Nat → FaultInfo → FaultInfo)
    (els : List (Nat × List (Nat × Nat))) {act : Nat → List Loc → M α} (hact : ∀ i ls, Keeps (act i ls)) :
    Keeps (Machine.batchPass who kind mark els act) := by
  unfold Machine.batchPass
  refine of_run fun s hs => ?_
  split
  · next e =>
    split
    · exact hs
    · exact (passOver _ _ _ hact _ _).ends e hs
  · exact hs

theorem Keeps.endBatch (kind : Access) (w : Nat) (marked : List Nat) (fs : List Fail) :
    Keeps (Machine.endBatch kind w marked fs) := by
  unfold Machine.endBatch
  grind [Keeps.steps]

theorem Keeps.needSb (i : Instr) : Keeps (Machine.needSb i) := by
  unfold Machine.needSb
  grind [Keeps.steps, Keeps.feature]

theorem Keeps.alignedAll (m : Nat) (vas : List Nat) : Keeps (Machine.alignedAll m vas) := by
  unfold Machine.alignedAll
  grind [Keeps.steps]

theorem Keeps.insideAll (base w : Nat) (vas : List (Nat × Nat)) : Keeps (Machine.insideAll base w vas) := by
  unfold Machine.insideAll
  grind [Keeps.steps]

theorem Keeps.readParts (who : Who) (parts : List (Nat × List Loc)) : Keeps (Machine.readParts who parts) := by
  induction parts with
  | nil => exact ret _
  | cons x parts ih =>
    unfold Machine.readParts
    grind [Keeps.steps, Keeps.readUnit]

theorem Keeps.readUpTo (js : List Nat) : Keeps (Machine.readUpTo js) := by
  unfold Machine.readUpTo
  grind [Keeps.steps, canonical_iff, State.closeBefore_mem]

theorem Keeps.loadBatch (d : BitVec 5) (m : BitVec 1) (r : BitVec 3) (dst : Tag) (n fields : Nat) (adr : Addresses) :
    Keeps (Machine.loadBatch d m r dst n fields adr) := by
  unfold Machine.loadBatch
  grind [Keeps.steps, Keeps.stashOpen, Keeps.drainM, Keeps.batchPass, Keeps.readParts, Keeps.readUpTo, Keeps.endBatch]

theorem Keeps.queueStore (at_ : Ctx) (ordered split : Bool) (bytes : List (Loc × Byte)) :
    Keeps (Machine.queueStore at_ ordered split bytes) := by
  unfold Machine.queueStore
  grind [Keeps.steps]

theorem Keeps.storeBatch (d : BitVec 5) (m : BitVec 1) (r : BitVec 3) (n fields : Nat) (adr : Addresses) :
    Keeps (Machine.storeBatch d m r n fields adr) := by
  unfold Machine.storeBatch
  grind [Keeps.steps, Keeps.stashOpen, Keeps.batchPass, Keeps.queueStore, Keeps.endBatch]

theorem Keeps.indexRange (a b : BitVec 5) (iw : Nat) (els : List Nat) : Keeps (Machine.indexRange a b iw els) := by
  unfold Machine.indexRange
  grind [Keeps.steps]

theorem Keeps.indexFits (i : Instr) (w : BitVec 2) : Keeps (Machine.indexFits i w) := by
  unfold Machine.indexFits
  grind [Keeps.steps]

theorem Canonical.anyOrder {α : Type} {s : State} (h : Canonical s) (l : List α) (fuel : Nat) :
    Canonical (Machine.anyOrder s l fuel).2 := by
  induction fuel generalizing s l with
  | zero => cases l <;> exact h
  | succ fuel ih =>
    cases l with
    | nil => exact h
    | cons x l =>
      unfold Machine.anyOrder
      dsimp only
      split
      · exact h
      · exact ih (s := { s with free := s.free + 1 }) h _

theorem Keeps.unordered (who : Who) (els : List (Nat × List (Nat × Nat))) : Keeps (Machine.unordered who els) := by
  unfold Machine.unordered
  refine looking fun s hs => ?_
  split
  · exact (modify fun t h => hs.anyOrder els els.length).seq fun _ => ret _
  · exact ret els

theorem Keeps.atomicAt (ls : List Loc) (n : Nat) (f : Nat → Nat × Nat) : Keeps (Machine.atomicAt ls n f) := by
  unfold Machine.atomicAt
  grind [Keeps.steps, canonical_iff, Canonical.writeLocs]

theorem Keeps.orderedPass {α : Type} (who : Who) (kind : Access) (w : Nat) {act : Nat → List Loc → M α}
    (hact : ∀ i ls, Keeps (act i ls)) (quota : Option Nat) (done : List (Nat × α)) (els : List (Nat × List (Nat × Nat))) :
    Keeps (Machine.orderedPass who kind w act quota done els) := by
  induction els generalizing quota done with
  | nil => exact ret _
  | cons e els ih =>
    unfold Machine.orderedPass
    split
    · exact ret _
    · refine (elementPlaces _ _ _).seq fun x => ?_
      split
      · exact (hact _ _).seq fun _ => ih _ _
      · exact ret _
      · exact ret _

theorem Keeps.endOrdered (stop : OrderedEnd) : Keeps (Machine.endOrdered stop) := by
  unfold Machine.endOrdered
  grind [Keeps.steps, Keeps.nextM]

/-! ## Vector loads -/

theorem Keeps.loadTagM (i : Instr) : Keeps (Machine.loadTagM i) := by
  unfold Machine.loadTagM
  grind [Keeps.steps]

theorem Keeps.checkAddresses (base : Nat) (n : Nat) (m : BitVec 1) (r : BitVec 3) (adr : Addresses) :
    Keeps (Machine.checkAddresses base n m r adr) := by
  unfold Machine.checkAddresses
  grind [Keeps.steps, Keeps.alignedAll, Keeps.insideAll]

theorem Keeps.plainLoad (i : Instr) (d a : BitVec 5) (m : BitVec 1) (r : BitVec 3) (fields : Nat)
    (adr : Ctx → Addresses) : Keeps (Machine.plainLoad i d a m r fields adr) := by
  unfold Machine.plainLoad
  grind [Keeps.steps, Keeps.loadTagM, Keeps.checkAddresses, Keeps.loadBatch]

theorem Keeps.sbPass (who : Who) (g : SbShape) (payload side w : Nat) (p : SbPass) (els : List (Nat × List Nat)) :
    Keeps (Machine.sbPass who g payload side w p els) := by
  induction els generalizing p with
  | nil => exact ret p
  | cons e els ih =>
    unfold Machine.sbPass
    refine (elementPlaces _ _ _).seq fun x => ?_
    split
    · refine (readParts _ _).seq fun y => ?_
      dsimp only
      split
      · exact ret _
      · exact ih _
    · split
      · exact ih _
      · exact trap _ _ _
    · exact ih _
    · exact ih _

theorem Keeps.endSb (g : SbShape) (d : BitVec 5) (dst : Tag) (side : Nat) (m : BitVec 1) (r : BitVec 3) (p : SbPass) :
    Keeps (Machine.endSb g d dst side m r p) := by
  unfold Machine.endSb
  grind [Keeps.steps, Keeps.endBatch]

theorem Keeps.packedChecks (i : Instr) (b : BitVec 5) (m : BitVec 1) : Keeps (Machine.packedChecks i b m) := by
  unfold Machine.packedChecks
  grind [Keeps.steps]

theorem Keeps.sbBases (payload side : Word) (usesSide : Bool) : Keeps (Machine.sbBases payload side usesSide) := by
  unfold Machine.sbBases
  grind [Keeps.steps, Keeps.aligned]

theorem Keeps.sbLoad (i : Instr) (d a b : BitVec 5) (m : BitVec 1) (r : BitVec 3) : Keeps (Machine.sbLoad i d a b m r) := by
  unfold Machine.sbLoad
  refine look.seq fun s => (check _ _ _).seq fun _ => ?_
  extract_lets g start act payload side dst es loaded based
  have hloaded (u : PUnit) : Keeps (loaded u) :=
    (stashOpen _).seq fun _ => drainM.seq fun _ => look.seq fun t => (sbPass _ _ _ _ _ _ _).seq fun p =>
      guarded (stop _) ((readUpTo _).seq fun _ => endSb _ _ _ _ _ _ _)
  have hbased (u : PUnit) : Keeps (based u) := by
    refine (sbBases _ _ _).seq fun _ => ?_
    split
    · exact (insideAll _ _ _).seq hloaded
    · exact hloaded ⟨⟩
  split
  · exact (packedChecks _ _ _).seq hbased
  · exact (check _ _ _).seq fun _ => (check _ _ _).seq hbased

theorem Keeps.firstFaults (who : Who) (width : Nat) (done : List (Nat × List Loc)) (els : List (Nat × List (Nat × Nat))) :
    Keeps (Machine.firstFaults who width done els) := by
  induction els generalizing done with
  | nil => exact ret _
  | cons e els ih =>
    unfold Machine.firstFaults
    grind [Keeps.steps, Keeps.elementPlaces]

/-! ## Vector stores -/

theorem Keeps.noPacked (i : Instr) (qs : List (BitVec 5)) : Keeps (Machine.noPacked i qs) := by
  unfold Machine.noPacked
  grind [Keeps.steps]

theorem Keeps.storeTags (qs : List (BitVec 5)) : Keeps (Machine.storeTags qs) := by
  unfold Machine.storeTags
  grind [Keeps.steps, Keeps.each, Keeps.tagIn]

theorem Keeps.noWideSb (i : Instr) (qs : List (BitVec 5)) : Keeps (Machine.noWideSb i qs) := by
  unfold Machine.noWideSb
  grind [Keeps.steps]

theorem Keeps.plainStore (i : Instr) (d a : BitVec 5) (m : BitVec 1) (r : BitVec 3) (fields : Nat)
    (adr : Ctx → Addresses) : Keeps (Machine.plainStore i d a m r fields adr) := by
  unfold Machine.plainStore
  grind [Keeps.steps, Keeps.noPacked, Keeps.noWideSb, Keeps.storeTags, Keeps.checkAddresses, Keeps.storeBatch]

theorem Keeps.sbStore (i : Instr) (d a b : BitVec 5) (m : BitVec 1) (r : BitVec 3) (fmt : Tag) :
    Keeps (Machine.sbStore i d a b m r fmt) := by
  unfold Machine.sbStore
  refine look.seq fun s => (check _ _ _).seq fun _ => (packedChecks _ _ _).seq fun _ => (check _ _ _).seq fun _ =>
    (tagIs _ _).seq fun _ => (sbBases _ _ _).seq fun _ => guarded (insideAll _ _ _) ((stashOpen _).seq fun _ =>
    look.seq fun t => (batchPass _ _ _ _ fun j ls => queueStore _ _ _ _).seq fun p => endBatch _ _ _ _)

theorem Keeps.scatterChecks (i : Instr) (d a b : BitVec 5) (w : BitVec 2) (els : List Nat) :
    Keeps (Machine.scatterChecks i d a b w els) := by
  unfold Machine.scatterChecks
  refine (needSb _).seq fun _ => (noPacked _ _).seq fun _ => (noWideSb _ _).seq fun _ => (storeTags _).seq fun _ =>
    (indexFits _ _).seq fun _ => (tagIs _ _).seq fun _ => (indexRange _ _ _ _).seq fun _ => look.seq fun s => ?_
  exact (alignedAll _ _).seq fun _ => ret _

theorem Keeps.storeSuper (at_ : Ctx) (who : Who) (d : BitVec 5) (payload side : Nat) (m : BitVec 1) (r : BitVec 3)
    (sels : List Nat) (j : Nat) : Keeps (Machine.storeSuper at_ who d payload side m r sels j) := by
  unfold Machine.storeSuper
  refine look.seq fun s => ?_
  extract_lets x sb8 n stopWith
  have stopped (e : Stop) : Keeps (stopWith e) := by
    simp only [stopWith]
    split
    exacts [(modifyMe _).seq fun _ => stop _, stop _]
  clear_value stopWith
  split
  · exact stopped _
  · refine (elementPlaces _ _ _).seq fun p => ?_
    split
    exacts [stopped _, queueStore _ _ _ _]

/-! ## Vector atomics and waits -/

theorem Keeps.vamoChecks (i : Instr) (op : AtomOp) (d a b : BitVec 5) (els : List Nat) :
    Keeps (Machine.vamoChecks i op d a b els) := by
  unfold Machine.vamoChecks
  grind [Keeps.steps, Keeps.tagIs, Keeps.aligned, Keeps.indexRange, Keeps.stashOpen, Keeps.drainM]

theorem Keeps.vamoAfter (acq : BitVec 1) : Keeps (Machine.vamoAfter acq) := by
  unfold Machine.vamoAfter
  grind [Keeps.steps, canonical_iff, State.closePins_mem]

theorem Keeps.vamoBatch (op : AtomOp) (d a b : BitVec 5) (m : BitVec 1) (r : BitVec 3) (acq : BitVec 1) :
    Keeps (Machine.vamoBatch op d a b m r acq) := by
  unfold Machine.vamoBatch
  grind [Keeps.steps, Keeps.atomicAt, Keeps.unordered, Keeps.batchPass, Keeps.vamoAfter, Keeps.endBatch, Keeps.nextM]

theorem Keeps.vamoOrdered (op : AtomOp) (d a b : BitVec 5) (m : BitVec 1) (r : BitVec 3) (acq : BitVec 1) :
    Keeps (Machine.vamoOrdered op d a b m r acq) := by
  unfold Machine.vamoOrdered
  grind [Keeps.steps, Keeps.atomicAt, Keeps.orderedPass, Keeps.vamoAfter, Keeps.endOrdered]

theorem Keeps.waitPass (who : Who) (test : Nat → Nat → Bool) (p : WaitPass) (els : List (Nat × Nat)) :
    Keeps (Machine.waitPass who test p els) := by
  induction els generalizing p with
  | nil => exact ret p
  | cons e els ih =>
    unfold Machine.waitPass
    refine (elementPlaces _ _ _).seq fun x => ?_
    split
    · exact (readParts _ _).seq fun y => ih _
    · split
      · exact ih _
      · exact trap _ _ _
    · exact ih _
    · exact ih _

theorem Keeps.vwaitChecks (i : Instr) (d b : BitVec 5) (m : BitVec 1) (r : BitVec 3) :
    Keeps (Machine.vwaitChecks i d b m r) := by
  unfold Machine.vwaitChecks
  refine look.seq fun s => (check _ _ _).seq fun _ => (tagIs _ _).seq fun _ => (tagIs _ _).seq fun _ =>
    (alignedAll _ _).seq fun _ => ?_
  dsimp only
  split
  · exact (trap _ _ _).seq fun _ => (stashOpen _).seq fun _ => drainM
  · exact (ret _).seq fun _ => (stashOpen _).seq fun _ => drainM

theorem Keeps.vwaitRound (i : Instr) (d a b : BitVec 5) (m : BitVec 1) (r c : BitVec 3) (t : Nat) :
    Keeps (Machine.vwaitRound i d a b m r c t) := by
  unfold Machine.vwaitRound
  grind [Keeps.steps, canonical_iff, Keeps.vwaitChecks, Keeps.waitPass, Keeps.readUpTo, State.acquired_mem, Keeps.endBatch]

/-! ## The matrix unit -/

theorem Keeps.matFeatures (i : Instr) (f : BitVec 3) : Keeps (Machine.matFeatures i f) := by
  unfold Machine.matFeatures
  grind [Keeps.steps, Keeps.feature]

theorem Keeps.heldUnit (i : Instr) : Keeps (Machine.heldUnit i) := by
  unfold Machine.heldUnit
  grind [Keeps.steps]

theorem Keeps.modUnit (f : MatrixUnit → MatrixUnit) : Keeps (Machine.modUnit f) := by
  unfold Machine.modUnit
  grind [Keeps.steps, canonical_iff, mem_setCore]

theorem Keeps.operandAligned (t : Tag) (base stride side : Word) : Keeps (Machine.operandAligned t base stride side) := by
  unfold Machine.operandAligned
  grind [Keeps.steps, Keeps.aligned]

theorem Keeps.readPiece (who : Who) (va n : Nat) : Keeps (Machine.readPiece who va n) := by
  unfold Machine.readPiece
  grind [Keeps.steps, Keeps.elementPlaces, Keeps.transferBytes]

theorem Keeps.readM (who : Who) (va n : Nat) : Keeps (Machine.readM who va n) := by
  unfold Machine.readM
  grind [Keeps.steps, Keeps.collect, Keeps.readPiece]

theorem Keeps.readSuper (who : Who) (t : Tag) (base side : Nat) (q count : Nat) :
    Keeps (Machine.readSuper who t base side q count) := by
  unfold Machine.readSuper
  grind [Keeps.steps, Keeps.readM]

theorem Keeps.readLine (who : Who) (t : Tag) (k base side : Nat) : Keeps (Machine.readLine who t k base side) := by
  unfold Machine.readLine
  grind [Keeps.steps, Keeps.collect, Keeps.readSuper, Keeps.readM]

theorem Keeps.readLines (who : Who) (t : Tag) (k lines : Nat) (base stride side : Word) :
    Keeps (Machine.readLines who t k lines base stride side) := by
  unfold Machine.readLines
  grind [Keeps.steps, Keeps.stashOpen, Keeps.collect, Keeps.readLine]

theorem Keeps.tileFp32 (u : MatrixUnit) (t : BitVec 3) : Keeps (Machine.tileFp32 u t) := by
  unfold Machine.tileFp32
  grind [Keeps.steps]

theorem Keeps.mmovRow (i : Instr) (row : Word) : Keeps (Machine.mmovRow i row) := by
  unfold Machine.mmovRow
  grind [Keeps.steps, Keeps.feature, Keeps.heldUnit]

/-! ## Repeated instructions -/

theorem Keeps.capturedMeaning (i : Instr) : Keeps (Machine.capturedMeaning i) := by
  unfold Machine.capturedMeaning
  grind [Keeps.steps, Keeps.vecInt, Keeps.vecCmp, Keeps.vecSel, Keeps.vecFloat, Keeps.vecFcmp, Keeps.vecFloat1]

theorem Keeps.capture (s : State) (k : Nat) : Keeps (Machine.capture s k) := by
  unfold Machine.capture
  grind [Keeps.steps, Keeps.collect, Keeps.fetchWord, Keeps.each]

theorem Keeps.rptIssue (i : Instr) (n k : Nat) : Keeps (Machine.rptIssue i n k) := by
  unfold Machine.rptIssue
  grind [Keeps.steps, Keeps.feature, Keeps.capture]

/-! ## Holdings -/

@[simp] theorem applyHolding_mem (s : State) : (applyHolding s).mem = s.mem := rfl

/-! ## Host services -/

theorem Canonical.writeEvent {s : State} (h : Canonical s) (p : Nat) : Canonical (s.writeEvent p) := by
  have unfolded := Eq.refl State.writeEvent
  conv at unfolded => rhs; delta State.writeEvent
  obtain ⟨put, hidden⟩ : ∃ f, f = Machine.putPhys := ⟨_, rfl⟩
  rw [← hidden] at unfolded
  simp only [unfolded]
  split
  · exact h
  · split
    · exact h
    · split
      · exact h
      · next e =>
        rw [hidden] at e
        exact (h.putPhys e).of_mem (by simp)

@[simp] theorem State.tdispError_mem (s : State) (p : Nat) : (s.tdispError p).mem = s.mem := rfl

theorem Canonical.frozenWrite {s : State} (h : Canonical s) (p : Nat) {f : State → State} (hf : Canonical (f s)) :
    Canonical (s.frozenWrite p f) := by
  unfold State.frozenWrite
  grind [canonical_iff, State.tdispError_mem]

theorem Canonical.openWrite {s : State} (h : Canonical s) (p : Nat) {f : State → State} (hf : Canonical (f s)) :
    Canonical (s.openWrite p f) := by
  unfold State.openWrite
  split
  exacts [hf, h]

theorem Canonical.windowWrite {s : State} (h : Canonical s) (p offset : Nat) (v : Word) :
    Canonical (Machine.windowWrite s p offset v) := by
  have unfolded := Eq.refl Machine.windowWrite
  conv at unfolded => rhs; delta Machine.windowWrite
  obtain ⟨register, hidden⟩ : ∃ f, f = windowReg := ⟨_, rfl⟩
  rw [← hidden] at unfolded
  simp only [unfolded]
  split
  · exact h.of_mem (by simp)
  · split
    · split
      · exact h.of_mem (by simp)
      · exact h
    · exact h

theorem Canonical.hostWrite {s : State} (h : Canonical s) (p offset : Nat) (v : Word) : Canonical (s.hostWrite p offset v) := by
  unfold State.hostWrite
  grind [canonical_iff, Canonical.frozenWrite, mem_setPkg, Canonical.openWrite, Canonical.writeEvent, Canonical.windowWrite,
    mem_setCtx]

theorem Canonical.hctlWrite {s : State} (h : Canonical s) (p : Nat) (v : Word) : Canonical (s.hctlWrite p v) := by
  unfold State.hctlWrite
  grind [canonical_iff, Canonical.openWrite, State.leaveHandler_mem, mem_setPkg, mem_setCtx, Canonical.abandon]

theorem Canonical.zeroMemory {s : State} (h : Canonical s) (p : Nat) : Canonical (s.zeroMemory p) := Memory.wf_filter _ h

@[simp] theorem State.clearUnits_mem (s : State) (mine : Nat → Bool) : (s.clearUnits mine).mem = s.mem := rfl

theorem Canonical.performPosted {s : State} (h : Canonical s) : Canonical s.performPosted := by
  unfold State.performPosted
  refine Canonical.of_mem (Canonical.foldl h (fun t p ht => ?_) _) rfl
  exact ht.writeLocs _

@[simp] theorem State.dropParked_mem (s : State) (mine : Nat → Bool) : (s.dropParked mine).mem = s.mem := by
  unfold State.dropParked
  exact List.foldlRecOn (motive := fun t : State => t.mem = s.mem) _ _ rfl fun t ht q _ => by simpa using ht

theorem Canonical.abandonEach {s : State} (h : Canonical s) (cs : List Nat) :
    Canonical (cs.foldl (fun t c => if (t.ctx c).life == .idle then t else t.abandon c) s) := by
  refine h.foldl (fun t c ht => ?_) cs
  split
  exacts [ht, ht.abandon c]

@[simp] theorem State.capCeilings_mem (s : State) (p : Nat) : (s.capCeilings p).mem = s.mem := rfl

@[simp] theorem State.shutDown_mem (s : State) (p : Nat) (tj : BitVec 12) : (s.shutDown p tj).mem = s.mem := rfl

/-! ## Streams -/

theorem Keeps.sisectStep (d a b : BitVec 5) : Keeps (Machine.sisectStep d a b) := by
  unfold Machine.sisectStep
  grind [Keeps.steps, Keeps.aligned, Keeps.loadVa, Keeps.afterScalar]

theorem Keeps.streamChecks (i : Instr) (formed : Bool) : Keeps (Machine.streamChecks i formed) := by
  unfold Machine.streamChecks
  grind [Keeps.steps, Keeps.feature]

theorem Keeps.loopEnd : Keeps (Machine.loopEnd) := by
  unfold Machine.loopEnd
  grind [Keeps.steps]

theorem Keeps.storeLines (who : Who) (va : Nat) (bs : List Byte) (fuel : Nat) :
    Keeps (Machine.storeLines who va bs fuel) := by
  induction fuel generalizing va bs with
  | zero => exact ret _
  | succ fuel ih =>
    unfold Machine.storeLines
    grind [Keeps.steps, Keeps.locateBytes]

theorem Keeps.storeRecord (who : Who) (va : Nat) (bs : List Byte) : Keeps (Machine.storeRecord who va bs) := by
  unfold Machine.storeRecord
  grind [Keeps.steps, canonical_iff, Keeps.storeLines, Canonical.writeLocs]

theorem Keeps.delayRecord (who : Who) (va : Nat) (bs : List Byte) : Keeps (Machine.delayRecord who va bs) := by
  unfold Machine.delayRecord
  grind [Keeps.steps, Keeps.locateBytes]

theorem Keeps.smergeStep {put : Who → Nat → List Byte → M Unit} (hput : ∀ who va bs, Keeps (put who va bs))
    (d a b : BitVec 5) : Keeps (Machine.smergeStep put d a b) := by
  unfold Machine.smergeStep
  refine look.seq fun s => guarded (aligned _ _) (guarded (aligned _ _) ((aligned _ _).seq fun _ => ?_))
  grind [Keeps.steps, Keeps.loadVa, Keeps.afterScalar]

end Sys2Proof.Machine

namespace Sys2Proof.Machine

/-! ## What a step answers -/

/-- An answer is a next state, and one whose memory is canonical if the state's is. -/
inductive Goes (s : State) : Out → Prop
  | next {t : State} (h : Canonical s → Canonical t) : Goes s (.next t)

namespace Goes
variable {s t : State} {o : Out}

theorem exists_next (h : Goes s o) : ∃ t, o = .next t := by
  cases h
  exact ⟨_, rfl⟩

theorem canonical (h : Goes s (.next t)) (hs : Canonical s) : Canonical t := by
  cases h with
  | next h => exact h hs

theorem still : Goes s (.next s) := next id

/-- An answer with the memory of the state. -/
theorem same (e : t.mem = s.mem) : Goes s (.next t) := next fun h => h.of_mem e

/-- An answer from a state that is canonical if the first is. -/
theorem from_state (h : Canonical s → Canonical t) (ho : Goes t o) : Goes s o := by
  cases ho with
  | next ht => exact next fun hs => ht (h hs)

theorem trapNow (c : BitVec 10) (i : Word) (r : FaultInfo) : Goes s (.next (s.trapNow c i r)) := next fun h => h.trapNow c i r

theorem finishWith {m : M Unit} (hm : Keeps m) (whole : Bool) : Goes s (Machine.finishWith whole m s) := by
  unfold Machine.finishWith
  split
  · next e => exact next fun h => hm.ends e h
  · next e => exact next fun h => (hm.ends e h).trapNow _ _ _
  · exact same (by simp)
  · exact same (by simp)

theorem finish {m : M Unit} (hm : Keeps m) : Goes s (Machine.finish m s) := finishWith hm true
theorem finishOpen {m : M Unit} (hm : Keeps m) : Goes s (Machine.finishOpen m s) := finishWith hm false
theorem complete {m : M Unit} (hm : Keeps m) : Goes s (Machine.complete m s) := finish (hm.seq fun _ => Keeps.nextM)

/-! The shapes that instructions share. -/

theorem writeReg (d : BitVec 5) (v : Word) : Goes s (Machine.writeReg d v s) := same rfl
theorem alu1 (f : Word → Word) (d a : BitVec 5) : Goes s (Machine.alu1 f d a s) := same rfl
theorem alu2 (f : Word → Word → Word) (d a b : BitVec 5) : Goes s (Machine.alu2 f d a b s) := same rfl
theorem writeFp (d : BitVec 5) (r : FpResult) : Goes s (Machine.writeFp d r s) := same rfl
theorem maskScalar (d : BitVec 5) (v : Nat) : Goes s (Machine.maskScalar d v s) := same rfl

theorem jumpTo (t : Word) (link : Ctx → Ctx) : Goes s (Machine.jumpTo t link s) := by
  unfold Machine.jumpTo
  split
  exacts [same rfl, trapNow _ _ _]

theorem branch (taken : Word → Word → Bool) (a b : BitVec 5) (i : BitVec 16) : Goes s (Machine.branch taken a b i s) := by
  unfold Machine.branch
  split
  exacts [jumpTo _ _, same rfl]

theorem amo (d a : BitVec 5) (z : BitVec 1) (f : Nat → Nat × Nat) : Goes s (Machine.amo d a z f s) :=
  complete ((Keeps.aligned _ _).seq fun _ => (Keeps.atomicVa _ _ _ _).seq fun _ => Keeps.afterScalar.seq fun _ => Keeps.modifyMe _)

theorem post (i : Instr) (a b : BitVec 5) (z : BitVec 1) (ord : Bool) : Goes s (Machine.post i a b z ord s) :=
  complete ((Keeps.feature _ _).seq fun _ => (Keeps.aligned _ _).seq fun _ => (Keeps.locate _ _ _).seq fun _ =>
    Keeps.guarded (Keeps.stop _) ((Keeps.choose _).seq fun _ => Keeps.modify fun _ h => h.of_mem rfl))

theorem csrAccess (i : Instr) (d : BitVec 5) (n : BitVec 10) (new : Option Word) : Goes s (Machine.csrAccess i d n new s) := by
  unfold Machine.csrAccess
  split
  · exact trapNow _ _ _
  · split
    · exact trapNow _ _ _
    · next u e =>
      refine next fun h => Canonical.of_mem (s := u) ?_ (by simp)
      cases new with
      | none => cases e; exact h
      | some v => exact h.setCsr e

theorem stashOp (i : Instr) (inv : Bool) (a : BitVec 5) (l : BitVec 1) : Goes s (Machine.stashOp i inv a l s) := by
  have close : Keeps (modS fun t => t.closePins t.cur [.scalar, .vector]) := Keeps.modify fun _ h => h.of_mem (by simp)
  refine complete ((Keeps.feature _ _).seq fun _ => Keeps.settleM.seq fun _ => Keeps.drainM.seq fun _ => ?_)
  dsimp only
  split
  · refine Keeps.guarded (Keeps.trap _ _ _) ?_
    split
    · exact (Keeps.flushPage _ _).seq fun _ => close
    · exact close
  · split
    · exact (Keeps.each (Keeps.flushPage _) _).seq fun _ => close
    · exact close

theorem expire (c : Nat) {f : Instr → State → Option Out} (hf : ∀ i u o, f i u = some o → Goes u o) :
    Goes s (Machine.expire c f s) := by
  unfold Machine.expire
  dsimp only
  split
  · exact still
  · split
    · next e =>
      split
      · next e' => exact next fun h => ((hf _ _ _ e').canonical (Canonical.nextInstr (s := { s with cur := c }) h e)).of_mem rfl
      · exact still
    · exact still

theorem vamo (i : Instr) (op : AtomOp) (d a b : BitVec 5) (m : BitVec 1) (r : BitVec 3) (ord q : BitVec 1) :
    Goes s (Machine.vamo i op d a b m r ord q s) := by
  unfold Machine.vamo
  split
  · exact finishOpen ((Keeps.vamoChecks _ _ _ _ _ _).seq fun _ => Keeps.vamoOrdered _ _ _ _ _ _ _)
  · exact finish ((Keeps.vamoChecks _ _ _ _ _ _).seq fun _ => Keeps.vamoBatch _ _ _ _ _ _ _)

theorem smergeBy {put : Who → Nat → List Byte → M Unit} (hput : ∀ who va bs, Keeps (put who va bs)) (d a b : BitVec 5) :
    Goes s (Machine.smergeBy put d a b s) := by
  refine finish ((Keeps.streamChecks _ _).seq fun _ => ?_)
  split
  exacts [Keeps.loopEnd, Keeps.smergeStep hput _ _ _]

end Goes
end Sys2Proof.Machine


namespace Sys2Proof.Machine

namespace Goes
variable {s : State}

theorem execFcmp (d a b : BitVec 5) (c : BitVec 3) (f : BitVec 1) : Goes s (Machine.execFcmp d a b c f s) := writeFp _ _

theorem execLd (d a : BitVec 5) (o : BitVec 13) (w : BitVec 3) : Goes s (Machine.execLd d a o w s) := by
  unfold Machine.execLd
  exact complete (by grind [Keeps.steps, Keeps.aligned, Keeps.loadVa])

theorem execSt (d a : BitVec 5) (o : BitVec 13) (w : BitVec 2) : Goes s (Machine.execSt d a o w s) := by
  unfold Machine.execSt
  exact complete (by grind [Keeps.steps, Keeps.aligned, Keeps.writeVa, Keeps.afterScalar])

theorem execTrap (a : BitVec 5) (n : BitVec 6) : Goes s (Machine.execTrap a n s) := by
  unfold Machine.execTrap
  grind [Goes.next, canonical_iff, Canonical.takeTrap]

theorem execEret : Goes s (Machine.execEret s) := by
  unfold Machine.execEret
  grind [Goes.next, canonical_iff, Canonical.trapNow, Canonical.eret]

theorem execBrk (n : BitVec 10) : Goes s (Machine.execBrk n s) := by
  unfold Machine.execBrk
  grind [Goes.next, canonical_iff, Canonical.trapNow]

theorem execFence (p : BitVec 5) (sc : BitVec 3) : Goes s (Machine.execFence p sc s) := by
  unfold Machine.execFence
  exact complete (by grind [Keeps.steps, canonical_iff, State.closePins_mem, Keeps.settleM, Keeps.drainM, Keeps.feature])

theorem execSvfence (f : BitVec 2) : Goes s (Machine.execSvfence f s) := by
  unfold Machine.execSvfence
  exact complete (by grind [Keeps.steps, canonical_iff, State.alignPins_mem, Keeps.drainM, Keeps.settleM])

theorem execIfence : Goes s (Machine.execIfence s) := by
  unfold Machine.execIfence
  exact complete (by grind [Keeps.steps, canonical_iff, Keeps.drainM, State.alignPins_mem])

theorem execTlbinv (a : BitVec 5) (sc : BitVec 3) (l : BitVec 1) : Goes s (Machine.execTlbinv a sc l s) := by
  unfold Machine.execTlbinv
  exact complete (by grind [Keeps.steps, canonical_iff, Canonical.settleScope])

theorem execTspawn (a : BitVec 5) : Goes s (Machine.execTspawn a s) := by
  unfold Machine.execTspawn
  exact complete (by grind [Keeps.steps, Keeps.drainM, Keeps.enqueue, Keeps.afterScalar])

theorem execTend : Goes s (Machine.execTend s) := by
  have older (h : Canonical s) : Canonical (s.finishOlder s.cur) := h.finishOlder _
  unfold Machine.execTend
  generalize s.finishOlder s.cur = t at older ⊢
  dsimp only
  split
  · exact next fun h => h.abandon _
  · split
    · exact next fun h => (older h).of_mem (by simp)
    · split
      · exact next fun h => Canonical.takeAsync ((older h).of_mem (by simp)) _
      · exact from_state (fun h => (older h).of_mem (by simp)) (finish Keeps.endTask)

theorem execBarrive (d a b : BitVec 5) : Goes s (Machine.execBarrive d a b s) := by
  unfold Machine.execBarrive
  exact complete (by grind [Keeps.steps, Keeps.drainM, Keeps.updateObject, Keeps.afterScalar])

theorem execBarwait (d a b c : BitVec 5) : Goes s (Machine.execBarwait d a b c s) :=
  from_state (fun h => h.of_mem (by simp)) (finishOpen (Keeps.barwaitRead _ _ _ _ _ _))

theorem execHbar (a : BitVec 5) (sc : BitVec 3) : Goes s (Machine.execHbar a sc s) := by
  unfold Machine.execHbar
  exact finishOpen (by grind [Keeps.steps, Keeps.feature, Keeps.hbarReturn, Keeps.drainM, Keeps.hbarArrive])

theorem execRsort (d a b c : BitVec 5) : Goes s (Machine.execRsort d a b c s) := by
  unfold Machine.execRsort
  exact complete (by grind [Keeps.steps, Keeps.feature, Keeps.issueCommand])

theorem execSisect (d a b : BitVec 5) : Goes s (Machine.execSisect d a b s) := by
  unfold Machine.execSisect
  exact finish (by grind [Keeps.steps, Keeps.streamChecks, Keeps.loopEnd, Keeps.sisectStep])

theorem execSmerge (d a b : BitVec 5) : Goes s (Machine.execSmerge d a b s) := smergeBy Keeps.storeRecord _ _ _

theorem execXbind (a : BitVec 5) (n : BitVec 4) : Goes s (Machine.execXbind a n s) := by
  refine complete ((Keeps.feature _ _).seq fun _ => ?_)
  dsimp only
  split
  · split
    · exact (Keeps.modify fun _ h => h.of_mem (by simp)).seq fun _ => Keeps.modifyMe _
    · exact Keeps.ret ()
  · refine Keeps.of_run fun t ht => ?_
    split
    · next e => exact (Keeps.bindGroup _ _).ends e ht
    · exact (Keeps.bindGroup _ _).after t ht

theorem execXsend (a b : BitVec 5) (n : BitVec 4) : Goes s (Machine.execXsend a b n s) := by
  unfold Machine.execXsend
  exact complete
      (by grind [Keeps.steps, Keeps.feature, Keeps.heldSlot, Keeps.exchangeAddr, Keeps.aligned, Keeps.enqueueSend,
        Keeps.awaitTable])

theorem execXsendM (a b : BitVec 5) (n : BitVec 4) : Goes s (Machine.execXsendM a b n s) := by
  unfold Machine.execXsendM
  exact complete
      (by grind [Keeps.steps, Keeps.feature, Keeps.heldSlot, Keeps.exchangeAddr, Keeps.aligned, Keeps.awaitTable,
        Keeps.enqueueSend])

theorem execXsendv (a b : BitVec 5) (n : BitVec 4) : Goes s (Machine.execXsendv a b n s) := by
  refine finishOpen ((Keeps.feature _ _).seq fun _ => (Keeps.heldSlot _).seq fun p => ?_)
  dsimp only
  split
  · exact Keeps.trap _ _ _
  · refine (Keeps.xsendvForm _ _ _ _).seq fun _ => ?_
    split
    · exact Keeps.modifyMe _
    · refine Keeps.guarded (Keeps.stop _) ((Keeps.xsendvKeys _ _ _).seq fun _ => (Keeps.awaitTable _ _).seq fun _ =>
        (Keeps.elementTable _ _ _ _).seq fun _ => ?_)
      split
      · exact Keeps.stop _
      · exact (Keeps.modify fun _ h => h.of_mem (by simp)).seq fun _ => Keeps.modifyMe _

theorem execXend (n : BitVec 4) : Goes s (Machine.execXend n s) := by
  unfold Machine.execXend
  exact complete (by grind [Keeps.steps, Keeps.feature, Keeps.heldSlot, Keeps.enqueueSend])

theorem execXsplitRd (d a : BitVec 5) (n : BitVec 4) : Goes s (Machine.execXsplitRd d a n s) := by
  unfold Machine.execXsplitRd
  exact complete (by grind [Keeps.steps, Keeps.xsplitIssue, Keeps.readVa, Keeps.writeBytes, Keeps.xsplitFence])

theorem execXsplitIn (d a : BitVec 5) (n : BitVec 4) : Goes s (Machine.execXsplitIn d a n s) := by
  have left (g : Group) (ch : Channel) (sp : List Word) (x : Channel) : Keeps (do
      writeWords s.xWho (tableSlot g ch.pver + 8) sp
      writeBytes s.xWho g.gstat.toNat (groupBytes x)
      modS fun t => t.setChan n x
      modMe fun x => x.setReg d (ch.pver.setWidth 64)
      xsplitFence) :=
    (Keeps.writeWords _ _ _).seq fun _ => (Keeps.writeBytes _ _ _).seq fun _ =>
      (Keeps.modify fun _ h => h.of_mem (by simp)).seq fun _ => (Keeps.modifyMe _).seq fun _ => Keeps.xsplitFence
  refine complete ((Keeps.xsplitIssue _ _ _).seq fun g => Keeps.look.seq fun t => (Keeps.check _ _ _).seq fun _ =>
    (Keeps.readVa _ _ _).seq fun w => (Keeps.check _ _ _).seq fun _ => (Keeps.readVa _ _ _).seq fun v =>
    (Keeps.check _ _ _).seq fun _ => (Keeps.locateBytes _ _ _ _).caught.seq fun r => ?_)
  dsimp only
  split
  · exact (Keeps.locateBytes _ _ _ _).seq fun _ => left _ _ _ _
  · exact left _ _ _ _

theorem execVsetl (d a : BitVec 5) (r : BitVec 1) (f w : BitVec 2) : Goes s (Machine.execVsetl d a r f w s) := by
  unfold Machine.execVsetl
  grind [Goes.next, canonical_iff, applyHolding_mem, mem_setMe]

theorem execRpt {st : State} (n : BitVec 10) (k : BitVec 4) (s : BitVec 3) (x y z : BitVec 1) : Goes st
    (Machine.execRpt n k s x y z st) := by
  unfold Machine.execRpt
  exact finishOpen (by grind [Keeps.steps, Keeps.rptIssue, Keeps.capturedMeaning])

theorem execVslideUp (d a b : BitVec 5) (m : BitVec 1) (r : BitVec 3) : Goes s (Machine.execVslideUp d a b m r s) :=
  complete (Keeps.vecMove _ _ _ _ _)

theorem execVslideDown (d a b : BitVec 5) (m : BitVec 1) (r : BitVec 3) : Goes s (Machine.execVslideDown d a b m r s) :=
  complete (Keeps.vecMove _ _ _ _ _)

theorem execVperm (d a b : BitVec 5) (m : BitVec 1) (r : BitVec 3) : Goes s (Machine.execVperm d a b m r s) := by
  unfold Machine.execVperm
  exact complete (by grind [Keeps.steps, Keeps.tagWide, Keeps.tagInt, Keeps.vecMove])

theorem execVcompress (d a : BitVec 5) (r : BitVec 3) : Goes s (Machine.execVcompress d a r s) := by
  unfold Machine.execVcompress
  exact complete (by grind [Keeps.steps, Keeps.tagWide])

theorem execVexpand (d a : BitVec 5) (r : BitVec 3) : Goes s (Machine.execVexpand d a r s) := by
  unfold Machine.execVexpand
  exact complete (by grind [Keeps.steps, Keeps.tagWide])

theorem execMand (d a b : BitVec 5) : Goes s (Machine.execMand d a b s) := by
  unfold Machine.execMand
  grind [Goes.next, canonical_iff, mem_setMe]

theorem execMor (d a b : BitVec 5) : Goes s (Machine.execMor d a b s) := by
  unfold Machine.execMor
  grind [Goes.next, canonical_iff, mem_setMe]

theorem execMxor (d a b : BitVec 5) : Goes s (Machine.execMxor d a b s) := by
  unfold Machine.execMxor
  grind [Goes.next, canonical_iff, mem_setMe]

theorem execMnot (d a : BitVec 5) : Goes s (Machine.execMnot d a s) := by
  unfold Machine.execMnot
  grind [Goes.next, canonical_iff, mem_setMe]

theorem execMfirst (d a : BitVec 5) : Goes s (Machine.execMfirst d a s) := maskScalar _ _

theorem execMbreak (d a : BitVec 5) : Goes s (Machine.execMbreak d a s) := by
  unfold Machine.execMbreak
  grind [Goes.next, canonical_iff, mem_setMe]

theorem execVcvt (d a t : BitVec 5) (m : BitVec 1) (r : BitVec 3) : Goes s (Machine.execVcvt d a t m r s) := by
  unfold Machine.execVcvt
  exact complete (by grind [Keeps.steps, Keeps.tagIn, Keeps.cvtSb, Keeps.feature])

theorem execVmvS (d a : BitVec 5) (m : BitVec 1) (r : BitVec 3) : Goes s (Machine.execVmvS d a m r s) := by
  unfold Machine.execVmvS
  grind [Goes.next, canonical_iff, mem_setMe]

theorem execVmvRaw (d a t : BitVec 5) : Goes s (Machine.execVmvRaw d a t s) := by
  unfold Machine.execVmvRaw
  grind [Goes.next, canonical_iff, mem_setMe]

theorem execVidx (d : BitVec 5) (m : BitVec 1) (r : BitVec 3) : Goes s (Machine.execVidx d m r s) := by
  unfold Machine.execVidx
  grind [Goes.next, canonical_iff, mem_setMe]

theorem execVextr (d a b : BitVec 5) : Goes s (Machine.execVextr d a b s) := by
  unfold Machine.execVextr
  exact complete (by grind [Keeps.steps, Keeps.tagWide])

theorem execVins (d a b : BitVec 5) : Goes s (Machine.execVins d a b s) := by
  unfold Machine.execVins
  exact complete (by grind [Keeps.steps, Keeps.tagWide])

theorem execVsort (d a : BitVec 5) (m : BitVec 1) (r : BitVec 3) : Goes s (Machine.execVsort d a m r s) := by
  unfold Machine.execVsort
  exact complete (by grind [Keeps.steps, Keeps.feature, Keeps.tagInt])

theorem execVsortKv (d a b : BitVec 5) (m : BitVec 1) (r : BitVec 3) : Goes s (Machine.execVsortKv d a b m r s) := by
  unfold Machine.execVsortKv
  exact complete (by grind [Keeps.steps, Keeps.feature, Keeps.tagInt, Keeps.tagWide])

theorem execVld (d a b : BitVec 5) (m : BitVec 1) (r : BitVec 3) : Goes s (Machine.execVld d a b m r s) := by
  unfold Machine.execVld
  exact complete (by grind [Keeps.steps, Keeps.needSb, Keeps.sbLoad, Keeps.plainLoad])

theorem execVlds (d a b : BitVec 5) (m : BitVec 1) (r : BitVec 3) : Goes s (Machine.execVlds d a b m r s) := by
  unfold Machine.execVlds
  exact complete (by grind [Keeps.steps, Keeps.needSb, Keeps.plainLoad])

theorem execVldseg (d a : BitVec 5) (m : BitVec 1) (r f : BitVec 3) : Goes s (Machine.execVldseg d a m r f s) := by
  unfold Machine.execVldseg
  exact complete (by grind [Keeps.steps, Keeps.needSb, Keeps.plainLoad])

theorem execVldff (d a b : BitVec 5) (m : BitVec 1) (r : BitVec 3) : Goes s (Machine.execVldff d a b m r s) := by
  refine complete ((Keeps.needSb _).seq fun _ => (Keeps.loadTagM _).seq fun _ => (Keeps.checkAddresses _ _ _ _ _).seq fun _ =>
    (Keeps.stashOpen _).seq fun _ => Keeps.drainM.seq fun _ => (Keeps.firstFaults _ _ _ _).seq fun ⟨done, stop⟩ => ?_)
  dsimp -zeta only
  extract_lets rest
  have hrest (u : PUnit) : Keeps (rest u) :=
    (Keeps.collect (fun _ => (Keeps.readParts _ _).seq fun _ => Keeps.ret _) _).seq fun _ =>
      (Keeps.readUpTo _).seq fun _ => Keeps.modifyMe _
  split
  · split
    · exact (Keeps.modifyMe _).seq fun _ => (Keeps.trap _ _ _).seq hrest
    · exact hrest ⟨⟩
  · exact hrest ⟨⟩

theorem execVst (d a b : BitVec 5) (m : BitVec 1) (r : BitVec 3) : Goes s (Machine.execVst d a b m r s) := by
  unfold Machine.execVst
  exact complete (by grind [Keeps.steps, Keeps.needSb, Keeps.sbStore, Keeps.plainStore])

theorem execVsts (d a b : BitVec 5) (m : BitVec 1) (r : BitVec 3) : Goes s (Machine.execVsts d a b m r s) := by
  unfold Machine.execVsts
  exact complete (by grind [Keeps.steps, Keeps.needSb, Keeps.plainStore])

theorem execVstseg (d a : BitVec 5) (m : BitVec 1) (r f : BitVec 3) : Goes s (Machine.execVstseg d a m r f s) := by
  unfold Machine.execVstseg
  exact complete (by grind [Keeps.steps, Keeps.needSb, Keeps.plainStore])

theorem execVstq (d a b : BitVec 5) (m : BitVec 1) (r : BitVec 3) : Goes s (Machine.execVstq d a b m r s) :=
  complete ((Keeps.feature _ _).seq fun _ => (Keeps.check _ _ _).seq fun _ => (Keeps.check _ _ _).seq fun _ =>
    (Keeps.tagIn _ _ _).seq fun _ => (Keeps.check _ _ _).seq fun _ => (Keeps.sbBases _ _ _).seq fun _ =>
    (Keeps.stashOpen _).seq fun _ => (Keeps.each (Keeps.storeSuper _ _ _ _ _ _ _ _) _).seq fun _ => Keeps.modifyMe _)

theorem execVldx (d a b : BitVec 5) (m : BitVec 1) (r : BitVec 3) (w : BitVec 2) : Goes s (Machine.execVldx d a b m r w s) := by
  unfold Machine.execVldx
  exact complete
      (by grind [Keeps.steps, Keeps.needSb, Keeps.loadTagM, Keeps.indexFits, Keeps.tagIs, Keeps.indexRange,
        Keeps.alignedAll, Keeps.loadBatch])

theorem execVstx (d a b : BitVec 5) (m : BitVec 1) (r : BitVec 3) (w : BitVec 2) : Goes s (Machine.execVstx d a b m r w s) := by
  unfold Machine.execVstx
  exact complete (by grind [Keeps.steps, Keeps.scatterChecks, Keeps.storeBatch])

theorem execVstxOrd (d a b : BitVec 5) (m : BitVec 1) (r : BitVec 3) (w : BitVec 2) : Goes s
    (Machine.execVstxOrd d a b m r w s) := by
  unfold Machine.execVstxOrd
  exact finishOpen
      (by grind [Keeps.steps, Keeps.scatterChecks, Keeps.stashOpen, Keeps.orderedPass, Keeps.queueStore, Keeps.endOrdered])

theorem execVwait (d a b : BitVec 5) (m : BitVec 1) (r c : BitVec 3) : Goes s (Machine.execVwait d a b m r c s) :=
  from_state (fun h => h.of_mem (by simp)) (finishOpen (Keeps.vwaitRound _ _ _ _ _ _ _ _))

theorem execMshape (d a : BitVec 5) (f : BitVec 3) : Goes s (Machine.execMshape d a f s) := by
  unfold Machine.execMshape
  exact complete (by grind [Keeps.steps, Keeps.matFeatures, Keeps.modUnit])

theorem execMzero (t : BitVec 3) : Goes s (Machine.execMzero t s) := by
  unfold Machine.execMzero
  exact complete (by grind [Keeps.steps, Keeps.feature, Keeps.heldUnit, Keeps.modUnit])

theorem execMldb (d a b : BitVec 5) (u : BitVec 1) (f : BitVec 3) : Goes s (Machine.execMldb d a b u f s) := by
  unfold Machine.execMldb
  exact complete
      (by grind [Keeps.steps, Keeps.matFeatures, Keeps.heldUnit, Keeps.operandAligned, Keeps.readLines, Keeps.modUnit])

theorem execMma (d a b : BitVec 5) (t : BitVec 3) (u : BitVec 1) (f : BitVec 3) : Goes s (Machine.execMma d a b t u f s) :=
  complete ((Keeps.matFeatures _ _).seq fun _ => (Keeps.heldUnit _).seq fun _ => (Keeps.operandAligned _ _ _ _).seq fun _ =>
    (Keeps.check _ _ _).seq fun _ => (Keeps.check _ _ _).seq fun _ => (Keeps.tileFp32 _ _).seq fun _ =>
    (Keeps.check _ _ _).seq fun _ => (Keeps.readLines _ _ _ _ _ _ _).seq fun _ => (Keeps.modUnit _).seq fun _ =>
    Keeps.modifyMe _)

theorem execMst (d a : BitVec 5) (t : BitVec 3) : Goes s (Machine.execMst d a t s) := by
  refine complete ((Keeps.feature _ _).seq fun _ => (Keeps.heldUnit _).seq fun _ => (Keeps.tileFp32 _ _).seq fun _ =>
    (Keeps.aligned _ _).seq fun _ => (Keeps.aligned _ _).seq fun _ => (Keeps.stashOpen _).seq fun _ =>
    (Keeps.batchPass _ _ _ _ fun e ls => Keeps.queueStore _ _ _ _).seq fun p => ?_)
  split
  · exact Keeps.ret ()
  · exact (Keeps.modify fun _ h => h.of_mem (by simp)).seq fun _ => Keeps.trap _ _ _

theorem execMmovTo (d a : BitVec 5) (t : BitVec 3) : Goes s (Machine.execMmovTo d a t s) := by
  unfold Machine.execMmovTo
  exact complete (by grind [Keeps.steps, Keeps.mmovRow, Keeps.tileFp32])

theorem execMmovFrom (d a : BitVec 5) (t : BitVec 3) : Goes s (Machine.execMmovFrom d a t s) := by
  unfold Machine.execMmovFrom
  exact complete (by grind [Keeps.steps, Keeps.mmovRow, Keeps.tagIs, Keeps.modUnit])

theorem execEntrySelection (c : Nat) : Goes s (Machine.execEntrySelection c s) :=
  next fun h => h.select _

theorem execLookAhead (_c : Nat) : Goes s (Machine.execLookAhead _c s) := by
  unfold Machine.execLookAhead
  grind [Goes.next, canonical_iff]

theorem execPreemption (d seq : Nat) : Goes s (Machine.execPreemption d seq s) :=
  same (by simp)

theorem execFullSwitch (c : Nat) : Goes s (Machine.execFullSwitch c s) :=
  next fun h => h.fullSwitch _

theorem execReclaimFallback (c : Nat) : Goes s (Machine.execReclaimFallback c s) :=
  same (by simp)

theorem execTaskBudgetExceeded (c : Nat) : Goes s (Machine.execTaskBudgetExceeded c s) :=
  next fun h => h.takeBudget _

theorem execTrapEntry (c : Nat) : Goes s (Machine.execTrapEntry c s) :=
  next fun h => h.takePending _

theorem execPageTableWalk (k : Nat) (u : UnitKind) (va : Word) : Goes s (Machine.execPageTableWalk k u va s) := by
  unfold Machine.execPageTableWalk
  grind [Goes.next, canonical_iff]

theorem execWalkStalled (c : Nat) : Goes s (Machine.execWalkStalled c s) :=
  same (by simp)

theorem execSptEntryBusyTimeout (c : Nat) : Goes s (Machine.execSptEntryBusyTimeout c s) :=
  same (by simp)

theorem execStashFill (c : Nat) (page : BitVec 14) : Goes s (Machine.execStashFill c page s) := by
  unfold Machine.execStashFill
  split
  · exact still
  · exact next fun h => h.background (by grind [Keeps.steps, Keeps.readEntry, Keeps.fillPage])

theorem execStashLineFill (c : Nat) (page : BitVec 14) (line : BitVec 6) :
    Goes s (Machine.execStashLineFill c page line s) := by
  unfold Machine.execStashLineFill
  split
  · exact still
  · refine next fun h => h.background ((Keeps.readEntry _ _).seq fun p => Keeps.look.seq fun t => ?_)
    grind [Keeps.steps, Keeps.translateM, canonical_iff, mem_setCore]

theorem execPull (c : Nat) (page : BitVec 14) : Goes s (Machine.execPull c page s) := by
  unfold Machine.execPull
  split
  · exact still
  · refine next fun h => h.background ((Keeps.readEntry _ _).seq fun p => Keeps.look.seq fun t => ?_)
    grind [Keeps.steps, Keeps.pullPage]

theorem execCopyCountStep (c : Nat) (slot : BitVec 3) : Goes s (Machine.execCopyCountStep c slot s) := by
  unfold Machine.execCopyCountStep
  grind [Goes.next, canonical_iff, Canonical.copyStep]

theorem execCommandCompletionArrival (c : Nat) (slot : BitVec 3) : Goes s (Machine.execCommandCompletionArrival c slot s) := by
  unfold Machine.execCommandCompletionArrival
  grind [Goes.next, canonical_iff, Canonical.copyArrive]

theorem execEngineFault (c : Nat) (slot : BitVec 3) : Goes s (Machine.execEngineFault c slot s) := by
  unfold Machine.execEngineFault
  grind [Goes.next, canonical_iff, Canonical.copyFault]

theorem execPostedStorePerform (id : Nat) : Goes s (Machine.execPostedStorePerform id s) := by
  unfold Machine.execPostedStorePerform
  grind [Goes.next, canonical_iff, Canonical.writeLocs]

theorem execPostedStoreAcknowledgement (id : Nat) : Goes s (Machine.execPostedStoreAcknowledgement id s) := by
  unfold Machine.execPostedStoreAcknowledgement
  grind [Goes.next, canonical_iff, Canonical.countAck]

theorem execSendPortHandover (n : BitVec 4) (i : Nat) : Goes s (Machine.execSendPortHandover n i s) := by
  unfold Machine.execSendPortHandover
  dsimp only
  split
  · split
    · exact still
    · split
      · exact still
      · exact next fun h => h.slotAction _ _ (Keeps.portAction _ _ _ _ _)
  · exact still

theorem execMergePointForward (c : BitVec 4) (n : Nat) : Goes s (Machine.execMergePointForward c n s) := by
  unfold Machine.execMergePointForward
  grind [Goes.next, canonical_iff, mem_setChan]

theorem execRecordDelivery (c : BitVec 4) (i : Nat) : Goes s (Machine.execRecordDelivery c i s) := by
  unfold Machine.execRecordDelivery
  grind [Goes.next, canonical_iff, Canonical.portAct, Keeps.destAction]

theorem execConsumedPoll (c : BitVec 4) (i : Nat) : Goes s (Machine.execConsumedPoll c i s) := by
  unfold Machine.execConsumedPoll
  grind [Goes.next, canonical_iff, Canonical.portAct, Keeps.pollAction]

theorem execRoundCompletion (c : BitVec 4) (i : Nat) : Goes s (Machine.execRoundCompletion c i s) := by
  unfold Machine.execRoundCompletion
  grind [Goes.next, canonical_iff, Canonical.portAct, Keeps.destAction, Canonical.endAborted, mem_setChan]

theorem execDeliveryRetry (c : BitVec 4) (i : Nat) : Goes s (Machine.execDeliveryRetry c i s) := by
  unfold Machine.execDeliveryRetry
  grind [Goes.next, canonical_iff, Canonical.portAct, Keeps.destAction]

theorem execSieveClose (c : BitVec 4) : Goes s (Machine.execSieveClose c s) := by
  unfold Machine.execSieveClose
  dsimp only
  split
  · split
    · exact still
    · split
      · next e => exact next fun h => (Keeps.closeSieve _ _).ends e h
      · next e => exact next fun h => ((Keeps.closeSieve _ _).ends e h).abortChannel _ _
      · next e => exact next fun h => ((Keeps.closeSieve _ _).ends e h).of_mem (by simp)
      · next e => exact next fun h => (Keeps.closeSieve _ _).ends e h
  · exact still

theorem execChannelWatchdog (c : BitVec 4) : Goes s (Machine.execChannelWatchdog c s) := by
  unfold Machine.execChannelWatchdog
  grind [Goes.next, canonical_iff, Canonical.abortChannel, Canonical.finishGroup]

theorem execBarwaitLimitExpiry (c : Nat) : Goes s (Machine.execBarwaitLimitExpiry c s) := by
  refine expire c fun i u o e => ?_
  grind [Goes.execBarwait]

theorem execVwaitLimitExpiry (c : Nat) : Goes s (Machine.execVwaitLimitExpiry c s) := by
  refine expire c fun i u o e => ?_
  grind [Goes.execVwait]

theorem execContainment (k : Nat) (unreadable : List Nat) : Goes s (Machine.execContainment k unreadable s) := by
  unfold Machine.execContainment
  dsimp only
  split
  · exact still
  · have taken (h : Canonical s) (x : Core) : Canonical (s.setCore k x) := h.of_mem (by simp)
    split
    · next e => exact next fun h => (taken h _).retireFrames_ends e
    · next t e =>
      have retired (h : Canonical s) (x : Core) : Canonical (t.setCore k x) :=
        ((taken h _).retireFrames_ends e).of_mem (by simp)
      exact next fun h => ((retired h _).foldl (fun u c hu => hu.containTask c) _).endRounds _

theorem execLinePoisoning (line : Nat) : Goes s (Machine.execLinePoisoning line s) :=
  same (by simp)

theorem execSoftErrorCorrection (p : Nat) (hbm : Bool) (n : Nat) : Goes s (Machine.execSoftErrorCorrection p hbm n s) := by
  unfold Machine.execSoftErrorCorrection
  grind [Goes.next, canonical_iff, mem_setPkg]

theorem execLinkFailure (p i : Nat) : Goes s (Machine.execLinkFailure p i s) := by
  unfold Machine.execLinkFailure
  grind [Goes.next, canonical_iff, State.maskLink_mem, State.openSpare_mem, Canonical.reroute, Canonical.endRounds]

theorem execLinkTraining (p i : Nat) (peer : Option Nat) : Goes s (Machine.execLinkTraining p i peer s) := by
  unfold Machine.execLinkTraining
  grind [Goes.next, canonical_iff, State.reportKind_mem, State.setLink_mem]

theorem execEventEntryWrite (p : Nat) : Goes s (Machine.execEventEntryWrite p s) :=
  next fun h => h.writeEvent _

theorem execPowerControlPeriod (p watts : Nat) : Goes s (Machine.execPowerControlPeriod p watts s) := by
  unfold Machine.execPowerControlPeriod
  grind [Goes.next, canonical_iff, State.capCeilings_mem, mem_setPkg]

theorem execThermalThrottle (p : Nat) (tj : BitVec 12) : Goes s (Machine.execThermalThrottle p tj s) := by
  unfold Machine.execThermalThrottle
  grind [Goes.next, canonical_iff, State.shutDown_mem, mem_setPkg]

theorem execThermalShutdown (p : Nat) (tj : BitVec 12) : Goes s (Machine.execThermalShutdown p tj s) := by
  unfold Machine.execThermalShutdown
  grind [Goes.next, canonical_iff, State.shutDown_mem]

theorem execFirmwareVerification (p : Nat) : Goes s (Machine.execFirmwareVerification p s) := by
  unfold Machine.execFirmwareVerification
  grind [Goes.next, canonical_iff, mem_setPkg]

theorem execFirmwareLoad (p : Nat) (i : Firmware) : Goes s (Machine.execFirmwareLoad p i s) := by
  unfold Machine.execFirmwareLoad
  grind [Goes.next, canonical_iff, mem_setPkg]

theorem execSpdmRequest (p : Nat) (r : SpdmRequest) : Goes s (Machine.execSpdmRequest p r s) := by
  unfold Machine.execSpdmRequest
  grind [Goes.next, canonical_iff, mem_setPkg]

theorem execIdeKm (p : Nat) (key : BitVec 256) : Goes s (Machine.execIdeKm p key s) := by
  unfold Machine.execIdeKm
  grind [Goes.next, canonical_iff, mem_setPkg]

theorem execLockInterface (p : Nat) : Goes s (Machine.execLockInterface p s) := by
  unfold Machine.execLockInterface
  grind [Goes.next, canonical_iff, mem_setPkg]

theorem execStartInterface (p : Nat) : Goes s (Machine.execStartInterface p s) := by
  unfold Machine.execStartInterface
  grind [Goes.next, canonical_iff, mem_setPkg]

theorem execStopInterface (p : Nat) : Goes s (Machine.execStopInterface p s) := by
  unfold Machine.execStopInterface
  dsimp only
  split
  · exact still
  · exact next fun h => Canonical.of_mem (Canonical.foldl (Canonical.of_mem (Canonical.zeroMemory (Canonical.performPosted
      (Canonical.of_mem (h.abandonEach _) (State.dropParked_mem _ _))) p) (State.clearUnits_mem _ _))
      (fun t d ht => ht.of_mem (mem_setDie _ _ _)) _) rfl

theorem execIdeIntegrityFailure (p : Nat) : Goes s (Machine.execIdeIntegrityFailure p s) := by
  unfold Machine.execIdeIntegrityFailure
  grind [Goes.next, canonical_iff, State.tdispError_mem]

theorem execHostMemoryAccess (p : Nat) (x : HostAccess) : Goes s (Machine.execHostMemoryAccess p x s) := by
  unfold Machine.execHostMemoryAccess
  grind [Goes.next, canonical_iff, mem_setPkg, Canonical.writeLocs]

theorem execHostRegisterWrite (p offset : Nat) (v : Word) : Goes s (Machine.execHostRegisterWrite p offset v s) := by
  unfold Machine.execHostRegisterWrite
  grind [Goes.next, canonical_iff, Canonical.hostWrite]

theorem execHostResume (p : Nat) (v : Word) : Goes s (Machine.execHostResume p v s) :=
  next fun h => h.hctlWrite _ _

theorem execHostAbandon (p : Nat) (v : Word) : Goes s (Machine.execHostAbandon p v s) :=
  next fun h => h.hctlWrite _ _

theorem execHspawn (p : Nat) (v : Word) : Goes s (Machine.execHspawn p v s) := by
  unfold Machine.execHspawn
  grind [Goes.next, canonical_iff, State.report_mem, Canonical.enqueueLater]

theorem execPkgcfg (p : Nat) (v : Word) : Goes s (Machine.execPkgcfg p v s) :=
  next fun h => h.hostWrite _ _ _

theorem execEvbase (p : Nat) (v : Word) : Goes s (Machine.execEvbase p v s) :=
  next fun h => h.hostWrite _ _ _

theorem execEvsize (p : Nat) (v : Word) : Goes s (Machine.execEvsize p v s) :=
  next fun h => h.hostWrite _ _ _

theorem execEvhead (p : Nat) (v : Word) : Goes s (Machine.execEvhead p v s) :=
  next fun h => h.hostWrite _ _ _

theorem execDieReset (d : Nat) : Goes s (Machine.execDieReset d s) :=
  next fun h => (h.abandonEach ((s.ctxs.filter fun e => dieOf e.1 == d).map (·.1))).of_mem (by simp)

theorem execCommandCompletion (c : Nat) (slot : BitVec 3) : Goes s (Machine.execCommandCompletion c slot s) := by
  unfold Machine.execCommandCompletion
  grind [Goes.next, canonical_iff, Canonical.copyComplete]

theorem execPciExpressPortTraining (p width rate : Nat) : Goes s (Machine.execPciExpressPortTraining p width rate s) := by
  unfold Machine.execPciExpressPortTraining
  grind [Goes.next, canonical_iff, mem_setPkg]

theorem execLinkRekeying (p i : Nat) : Goes s (Machine.execLinkRekeying p i s) := by
  unfold Machine.execLinkRekeying
  grind [Goes.next, canonical_iff, State.setLink_mem]

end Goes

end Sys2Proof.Machine


namespace Sys2Proof.Machine

namespace Goes

/-- Every instruction and event ends in a next state, and keeps memory canonical. -/
theorem exec_goes (i : Instr) (s : State) : Goes s (exec i s) := by
  delta exec
  cases i with
  | add | sub | mul | mulh | mulhu | div | divu | rem | remu | and | andn | or | xor | sll | srl | sra | slt | sltu | min
  | max | minu | maxu => exact alu2 _ _ _ _
  | clz | ctz | popc | sextB | sextH | sextW | zextB | zextH | zextW => exact alu1 _ _ _
  | csel => exact writeReg _ _
  | addImm | andImm | orImm | xorImm | sltImm | sltuImm | lih => exact alu1 _ _ _
  | addpc => exact writeReg _ _
  | fadd | fsub | fmul | fdiv | fsqrt | fma | fmin | fmax => exact writeFp _ _
  | fcmp => exact execFcmp _ _ _ _ _
  | fcvt => exact writeFp _ _
  | fmvx => exact writeReg _ _
  | ld => exact execLd _ _ _ _
  | st => exact execSt _ _ _ _
  | amoAdd | amoAnd | amoOr | amoXor | amoSmin | amoSmax | amoUmin | amoUmax | amoSwap | amoFmax | amoAddb
  | cas => exact amo _ _ _ _
  | pst | pstOrd => exact post _ _ _ _ _
  | beq | bne | blt | bge | bltu | bgeu => exact branch _ _ _ _
  | jal | jalr => exact jumpTo _ _
  | csrr | csrw | csrset | csrclr => exact csrAccess _ _ _ _
  | trap => exact execTrap _ _
  | eret => exact execEret
  | brk => exact execBrk _
  | fence => exact execFence _ _
  | svfence => exact execSvfence _
  | ifence => exact execIfence
  | tlbinv => exact execTlbinv _ _ _
  | stflush | stinv => exact stashOp _ _ _ _
  | tspawn => exact execTspawn _
  | tend => exact execTend
  | tself => exact writeReg _ _
  | barrive => exact execBarrive _ _ _
  | barwait => exact execBarwait _ _ _ _
  | hbar => exact execHbar _ _
  | cpy | cpy2 | cpyxG | cpyxS => exact complete (Keeps.issueCommand _ _ _ _ _)
  | rsort => exact execRsort _ _ _ _
  | sisect => exact execSisect _ _ _
  | smerge => exact execSmerge _ _ _
  | xbind => exact execXbind _ _
  | xsend => exact execXsend _ _ _
  | xsendM => exact execXsendM _ _ _
  | xsendv => exact execXsendv _ _ _
  | xend => exact execXend _
  | xsplitRd => exact execXsplitRd _ _ _
  | xsplitIn => exact execXsplitIn _ _ _
  | vsetl => exact execVsetl _ _ _ _ _
  | rpt => exact execRpt _ _ _ _ _ _
  | vadd | vsub | vmul | vmulh | vmulhU | vmin | vminU | vmax | vmaxU | vand | vor | vxor | vsll | vsrl
  | vsra => exact complete (Keeps.vecInt _ _ _ _ _ _)
  | vcmpEq | vcmpNe | vcmpLt | vcmpLtu | vcmpLe | vcmpLeu => exact complete (Keeps.vecCmp _ _ _ _ _ _)
  | vsel => exact complete (Keeps.vecSel _ _ _ _)
  | vaddVs | vsubVs | vmulVs | vmulhVs | vmulhUVs | vminVs | vminUVs | vmaxVs | vmaxUVs | vandVs | vorVs | vxorVs
  | vsllVs | vsrlVs | vsraVs => exact complete (Keeps.vecInt _ _ _ _ _ _)
  | vcmpEqVs | vcmpNeVs | vcmpLtVs | vcmpLtuVs | vcmpLeVs | vcmpLeuVs => exact complete (Keeps.vecCmp _ _ _ _ _ _)
  | vselVs => exact complete (Keeps.vecSel _ _ _ _)
  | vfadd | vfsub | vfmul | vfma | vfdiv => exact complete (Keeps.vecFloat _ _ _ _ _ _ _)
  | vfsqrt => exact complete (Keeps.vecFloat1 _ _ _ _ _ _)
  | vfmin | vfmax => exact complete (Keeps.vecFloat _ _ _ _ _ _ _)
  | vfexp2 | vfrsqrt => exact complete (Keeps.vecFloat1 _ _ _ _ _ _)
  | vfcmpEq | vfcmpLt | vfcmpLe | vfcmpUn => exact complete (Keeps.vecFcmp _ _ _ _ _ _ _)
  | vfaddVs | vfsubVs | vfmulVs | vfmaVs | vfdivVs | vfminVs | vfmaxVs => exact complete (Keeps.vecFloat _ _ _ _ _ _ _)
  | vfcmpEqVs | vfcmpLtVs | vfcmpLeVs | vfcmpUnVs => exact complete (Keeps.vecFcmp _ _ _ _ _ _ _)
  | vredAdd | vredAnd | vredOr | vredXor | vredMin | vredMax | vredMinu | vredMaxu => exact complete (Keeps.vecRed _ _ _ _ _)
  | vfredAdd => exact complete (Keeps.vecFredAdd _ _ _ _ _)
  | vfredMin | vfredMax => exact complete (Keeps.vecFredMinMax _ _ _ _ _ _)
  | vslideUp => exact execVslideUp _ _ _ _ _
  | vslideDown => exact execVslideDown _ _ _ _ _
  | vperm => exact execVperm _ _ _ _ _
  | vcompress => exact execVcompress _ _ _
  | vexpand => exact execVexpand _ _ _
  | mand => exact execMand _ _ _
  | mor => exact execMor _ _ _
  | mxor => exact execMxor _ _ _
  | mnot => exact execMnot _ _
  | mpop => exact maskScalar _ _
  | mfirst => exact execMfirst _ _
  | mbreak => exact execMbreak _ _
  | vcvt => exact execVcvt _ _ _ _ _
  | vmvV => exact complete (Keeps.vecMove _ _ _ _ _)
  | vmvS => exact execVmvS _ _ _ _
  | vmvRaw => exact execVmvRaw _ _ _
  | vidx => exact execVidx _ _ _
  | vextr => exact execVextr _ _ _
  | vins => exact execVins _ _ _
  | vsort => exact execVsort _ _ _ _
  | vsortKv => exact execVsortKv _ _ _ _ _
  | vld => exact execVld _ _ _ _ _
  | vlds => exact execVlds _ _ _ _ _
  | vldseg => exact execVldseg _ _ _ _ _
  | vldff => exact execVldff _ _ _ _ _
  | vst => exact execVst _ _ _ _ _
  | vsts => exact execVsts _ _ _ _ _
  | vstseg => exact execVstseg _ _ _ _ _
  | vstq => exact execVstq _ _ _ _ _
  | vldx => exact execVldx _ _ _ _ _ _
  | vstx => exact execVstx _ _ _ _ _ _
  | vstxOrd => exact execVstxOrd _ _ _ _ _ _
  | vamoAdd | vamoAnd | vamoOr | vamoXor | vamoSmin | vamoSmax | vamoUmin | vamoUmax | vamoSwap | vamoFmax
  | vamoAddb => exact vamo _ _ _ _ _ _ _ _ _
  | vwait => exact execVwait _ _ _ _ _ _
  | mshape => exact execMshape _ _ _
  | mzero => exact execMzero _
  | mldb => exact execMldb _ _ _ _ _
  | mma => exact execMma _ _ _ _ _ _
  | mst => exact execMst _ _ _
  | mmovTo => exact execMmovTo _ _ _
  | mmovFrom => exact execMmovFrom _ _ _
  | entrySelection => exact execEntrySelection _
  | lookAhead => exact execLookAhead _
  | preemption => exact execPreemption _ _
  | fullSwitch => exact execFullSwitch _
  | reclaimFallback => exact execReclaimFallback _
  | taskBudgetExceeded => exact execTaskBudgetExceeded _
  | trapEntry => exact execTrapEntry _
  | pageTableWalk => exact execPageTableWalk _ _ _
  | walkStalled => exact execWalkStalled _
  | sptEntryBusyTimeout => exact execSptEntryBusyTimeout _
  | stashFill => exact execStashFill _ _
  | stashLineFill => exact execStashLineFill _ _ _
  | pull => exact execPull _ _
  | copyCountStep => exact execCopyCountStep _ _
  | commandCompletionArrival => exact execCommandCompletionArrival _ _
  | engineFault => exact execEngineFault _ _
  | postedStorePerform => exact execPostedStorePerform _
  | postedStoreAcknowledgement => exact execPostedStoreAcknowledgement _
  | sendPortHandover => exact execSendPortHandover _ _
  | mergePointForward => exact execMergePointForward _ _
  | recordDelivery => exact execRecordDelivery _ _
  | consumedPoll => exact execConsumedPoll _ _
  | roundCompletion => exact execRoundCompletion _ _
  | deliveryRetry => exact execDeliveryRetry _ _
  | sieveClose => exact execSieveClose _
  | channelWatchdog => exact execChannelWatchdog _
  | barwaitLimitExpiry => exact execBarwaitLimitExpiry _
  | vwaitLimitExpiry => exact execVwaitLimitExpiry _
  | containment => exact execContainment _ _
  | linePoisoning => exact execLinePoisoning _
  | softErrorCorrection => exact execSoftErrorCorrection _ _ _
  | linkFailure => exact execLinkFailure _ _
  | linkTraining => exact execLinkTraining _ _ _
  | eventEntryWrite => exact execEventEntryWrite _
  | powerControlPeriod => exact execPowerControlPeriod _ _
  | thermalThrottle => exact execThermalThrottle _ _
  | thermalShutdown => exact execThermalShutdown _ _
  | firmwareVerification => exact execFirmwareVerification _
  | firmwareLoad => exact execFirmwareLoad _ _
  | spdmRequest => exact execSpdmRequest _ _
  | ideKm => exact execIdeKm _ _
  | lockInterface => exact execLockInterface _
  | startInterface => exact execStartInterface _
  | stopInterface => exact execStopInterface _
  | ideIntegrityFailure => exact execIdeIntegrityFailure _
  | hostMemoryAccess => exact execHostMemoryAccess _ _
  | hostRegisterWrite => exact execHostRegisterWrite _ _ _
  | hostResume => exact execHostResume _ _
  | hostAbandon => exact execHostAbandon _ _
  | hspawn => exact execHspawn _ _
  | pkgcfg => exact execPkgcfg _ _
  | evbase => exact execEvbase _ _
  | evsize => exact execEvsize _ _
  | evhead => exact execEvhead _ _
  | dieReset => exact execDieReset _
  | commandCompletion => exact execCommandCompletion _ _
  | pciExpressPortTraining => exact execPciExpressPortTraining _ _ _
  | linkRekeying => exact execLinkRekeying _ _

end Goes

end Sys2Proof.Machine


namespace Sys2Proof.Machine

/-! ## Placing accesses in flight -/

@[simp] theorem State.takeResults_mem (s t : State) (c : Nat) (l : Late) : (s.takeResults t c l).mem = s.mem := by
  unfold State.takeResults
  split <;> rfl

@[simp] theorem State.withEnable_mem (s : State) (p : Nat) (e : BitVec 12) : (s.withEnable p e).mem = s.mem := by
  unfold State.withEnable
  split <;> rfl

theorem Canonical.replayed {s : State} (h : Canonical s) (c : Nat) (l : Late) : Canonical (s.replayed c l) := by
  refine h.of_mem ?_
  unfold State.replayed
  dsimp only
  split <;> simp

theorem Canonical.placeLater {s : State} (h : Canonical s) (c : Nat) (l : Late) : Canonical (s.placeLater c l) := by
  have kept (x : Ctx) : Canonical (s.setCtx c x) := h.of_mem (by simp)
  have ran {u : State} (e : exec l.instr (s.replayed c l) = .next u) : Canonical u :=
    (e ▸ Goes.exec_goes l.instr (s.replayed c l)).canonical (h.replayed c l)
  have tile (t : State) (x : Core) : (if l.isTile then t.setCore (coreOf c) x else t).mem = t.mem := by
    split
    exacts [by simp, rfl]
  unfold State.placeLater
  dsimp only
  split
  · next e =>
    split
    · refine (ran e).of_mem ?_
      split
      · simp [tile]
      · simp [tile]
    · exact kept _
  · exact kept _

theorem Canonical.placeStamp {s : State} (h : Canonical s) (c n : Nat) : Canonical (s.placeStamp c n) := by
  unfold State.placeStamp
  grind [Canonical.placeLater, Canonical.settleOne, Canonical.drainFirst]

theorem Canonical.placeAll {s : State} (h : Canonical s) (c fuel : Nat) : Canonical (s.placeAll c fuel) := by
  induction fuel generalizing s with
  | zero => exact h
  | succ fuel ih =>
    unfold State.placeAll
    split
    exacts [ih (h.placeStamp _ _), h]

theorem Canonical.placeBelow {s : State} (h : Canonical s) (c sc ve fuel : Nat) : Canonical (s.placeBelow c sc ve fuel) := by
  induction fuel generalizing s with
  | zero => exact h
  | succ fuel ih =>
    unfold State.placeBelow
    split
    exacts [ih (h.placeStamp _ _), h]

theorem Canonical.flush {s : State} (h : Canonical s) (c : Nat) : Canonical (s.flush c) := by
  have placed : Canonical (if (s.ctx c).onlyStores then s.storesDone c else s.placeAll c (s.ctx c).inFlight) := by
    split
    exacts [h.storesDone c, h.placeAll c _]
  unfold State.flush
  dsimp only
  split
  · exact placed
  · exact placed.of_mem (by simp)

theorem Canonical.flushAll {s : State} (h : Canonical s) : Canonical s.flushAll := by
  unfold State.flushAll
  exact (h.foldl (fun t e ht => by grind [Canonical.flush]) _).placeAllWrites

theorem Canonical.prepare {s : State} (h : Canonical s) (c : Nat) (i : Instr) (need : Need) :
    Canonical (s.prepare c i need) := by
  unfold State.prepare
  split
  · exact h.flushAll
  split
  · exact h.flush c
  dsimp only
  split
  · exact h
  · exact (h.foldl (fun t l ht => ht.placeLater c l) _).placeBelow _ _ _ _

@[simp] theorem State.endFences_mem (s : State) (c : Nat) : (s.endFences c).mem = s.mem := by
  unfold State.endFences
  dsimp only
  split
  · rfl
  · exact List.foldlRecOn (motive := fun t : State => t.mem = s.mem) _ _ (by simp) fun _ ht _ _ => by simpa using ht

theorem Canonical.serveFences {s : State} (h : Canonical s) (c : Nat) : Canonical (s.serveFences c) :=
  (h.foldl (f := fun t p => t.prepare c (.fence p 0) (fenceNeed p)) (fun _ _ ht => ht.prepare c _ _) (s.ctx c).fences).of_mem
    (State.endFences_mem _ _)

theorem Canonical.drainTurn {s : State} (h : Canonical s) (c n : Nat) : Canonical (s.drainTurn c n) := by
  unfold State.drainTurn
  grind [canonical_iff, Canonical.drainOne]

theorem Canonical.settleTurn {s : State} (h : Canonical s) (c : Nat) : Canonical (s.settleTurn c) := by
  unfold State.settleTurn
  grind [canonical_iff, Canonical.settleOne, Canonical.placeLater]

theorem Canonical.lateTurn {s : State} (h : Canonical s) (c k : Nat) : Canonical (s.lateTurn c k) := by
  unfold State.lateTurn
  grind [canonical_iff, Canonical.placeLater]

@[simp] theorem State.pinTurn_mem (s : State) (c : Nat) : (s.pinTurn c).mem = s.mem := by
  unfold State.pinTurn
  split <;> rfl

@[simp] theorem State.cacheEntry_mem (s : State) (c : Nat) (page : BitVec 14) : (s.cacheEntry c page).mem = s.mem := by
  unfold State.cacheEntry
  dsimp only
  split
  · split <;> rfl
  · rfl

end Sys2Proof.Machine

namespace Sys2Proof.Machine

namespace Goes
variable {s : State}

theorem endFences (c : Nat) : Goes s (.next (s.endFences c)) := same (by simp)

theorem atPointer (i : Instr) : Goes s (s.atPointer i) := by
  have flushed (h : Canonical s) : Canonical ((s.flush s.cur).endFences s.cur) := (h.flush s.cur).of_mem (by simp)
  unfold State.atPointer
  dsimp only
  split
  · exact from_state flushed (exec_goes _ _)
  · exact next flushed

theorem perform (i : Instr) : Goes s (Machine.perform i s) := by
  unfold Machine.perform
  split
  · exact exec_goes i s
  · refine from_state (fun h => h.prepare s.cur i (needOf i)) ?_
    generalize s.prepare s.cur i (needOf i) = t
    dsimp only
    have ran := exec_goes i t
    split
    · exact ran
    · generalize exec i t = o at ran ⊢
      cases ran with
      | next h =>
        dsimp only
        split
        exacts [next h, atPointer i]

theorem runNow (i : Instr) : Goes s (Machine.runNow i s) := by
  unfold Machine.runNow
  split
  · refine from_state (fun h => h.serveFences s.cur) ?_
    dsimp only
    split
    exacts [still, perform i]
  · exact perform i

theorem issueLater (i : Instr) : Goes s (s.issueLater i) := by
  have prepared (h : Canonical s) : Canonical (s.prepare s.cur i .none) := h.prepare _ _ _
  unfold State.issueLater
  dsimp only
  split
  · split
    · exact next fun h => (prepared h).of_mem (by simp)
    · exact runNow i
  · exact runNow i

theorem holdFence (p : BitVec 5) (sc : BitVec 3) : Goes s (Machine.holdFence p sc s) := by
  unfold Machine.holdFence
  split
  exacts [runNow _, same (by simp)]

theorem holdSvfence (f : BitVec 2) : Goes s (Machine.holdSvfence f s) := by
  unfold Machine.holdSvfence
  refine same ?_
  dsimp only
  split <;> split <;> simp

theorem delaySmerge (d a b : BitVec 5) : Goes s (Machine.delaySmerge d a b s) := smergeBy Keeps.delayRecord _ _ _

theorem delaySt (d a : BitVec 5) (o : BitVec 13) (w : BitVec 2) : Goes s (Machine.delaySt d a o w s) :=
  complete ((Keeps.aligned _ _).seq fun _ => (Keeps.locateBytes _ _ _ _).seq fun _ => Keeps.modifyMe _)

/-- A trial of an access in flight, which counts if it went on; if not, the instruction is performed. -/
theorem orNow {t u : State} (ht : Canonical s → Canonical t) (tried : Goes t (.next u)) (went : Bool) (i : Instr) :
    Goes s (if went then .next u else Machine.runNow i s) := by
  split
  exacts [next fun h => tried.canonical (ht h), runNow i]

theorem holdSmerge (d a b : BitVec 5) : Goes s (Machine.holdSmerge d a b s) := by
  unfold Machine.holdSmerge
  dsimp only
  split
  · next e => exact orNow (fun h => h.prepare _ _ _) (e ▸ delaySmerge d a b) _ _
  · exact runNow _

theorem runHeld (i : Instr) : Goes s (Machine.runHeld i s) := by
  unfold Machine.runHeld
  refine iteInduction (fun _ => still) fun _ => ?_
  split
  · dsimp only
    split
    · next e => exact orNow (fun h => h.prepare _ _ _) (e ▸ delaySt _ _ _ _) _ _
    · exact runNow _
  · exact holdSvfence _
  · exact holdFence _ _
  · exact holdSmerge _ _ _
  · split
    exacts [issueLater _, runNow _]

theorem whenDone {f : State → State} (hf : ∀ t, Canonical t → Canonical (f t)) : Goes s (s.whenDone f) := by
  have flushed (h : Canonical s) : Canonical ((s.flush s.cur).endFences s.cur) := (h.flush s.cur).of_mem (by simp)
  refine next fun h => ?_
  split
  exacts [hf _ (flushed h), flushed h]

theorem runOne (hold : Bool) : Goes s (Machine.runOne s hold) := by
  unfold Machine.runOne
  refine from_state (fun h => h.of_mem (State.endFences_mem s s.cur)) ?_
  generalize s.endFences s.cur = t
  dsimp only
  split
  · exact still
  split
  · exact next fun h => h.idleTurn _
  split
  · refine whenDone fun u hu => ?_
    cases e : u.boundary u.cur with
    | none => exact hu
    | some v => exact hu.boundary e
  · split
    · refine whenDone fun u hu => ?_
      split
      · next e => exact hu.nextInstr_error e
      · exact hu
    · next e =>
      refine from_state (fun h => h.nextInstr e) ?_
      split
      exacts [runHeld _, runNow _]

theorem runPart (n : Nat) : Goes s (Machine.runPart s n) := by
  have ran : Goes s (Machine.runOne (s.setMe { s.me with quota := some n }) false) :=
    from_state (fun h => h.of_mem (by simp)) (runOne false)
  unfold Machine.runPart
  generalize Machine.runOne (s.setMe { s.me with quota := some n }) false = o at ran ⊢
  cases ran with
  | next h => exact next fun hs => (h hs).of_mem (by simp)

theorem runEvent (i : Instr) : Goes s (Machine.runEvent i s) := by
  have settled (h : Canonical s) : Canonical (if settlesFirst i then s.flushAll else s) := by
    split
    exacts [h.flushAll, h]
  unfold Machine.runEvent
  split
  · exact still
  · refine from_state settled ?_
    generalize (if settlesFirst i then s.flushAll else s) = t
    split
    · next c _ =>
      dsimp only
      split
      · exact endFences c
      · exact from_state (fun h => h.of_mem (State.endFences_mem t c)) (exec_goes _ _)
    · exact exec_goes _ _

theorem at_cur (c : Nat) {o : Out} (h : Goes { s with cur := c } o) : Goes s o :=
  from_state (t := { s with cur := c }) (fun hs => hs.of_mem rfl) h

theorem runTurn (t : Turn) : Goes s (Machine.runTurn s t) := by
  cases t with
  | run c => exact at_cur c (runOne false)
  | hold c => exact at_cur c (runOne true)
  | part c n => exact at_cur c (runPart n)
  | event i => exact runEvent i
  | elapse n => exact same (by simp)
  | drain c n => exact next fun h => h.drainTurn c n
  | settle c => exact next fun h => h.settleTurn c
  | late c k => exact next fun h => h.lateTurn c k
  | unit c slot pos =>
    refine next fun h => ?_
    split
    exacts [h.copyAhead c slot pos, h]
  | keep c slot =>
    refine next fun h => ?_
    split
    exacts [h.copyKeep c slot, h]
  | orphan n => exact next fun h => h.orphanTurn n
  | deliver ch d => exact next fun h => h.deliverTurn ch d
  | place ch d n => exact next fun h => h.placeTurn ch d n
  | pin c => exact same (by simp)
  | sread ch slot => exact next fun h => h.portReads ch slot
  | retry n => exact next fun h => h.retryRerun n
  | look c => exact same rfl
  | entry c page => exact same (by simp)
  | prefetch c a => exact next fun h => h.prefetch c a

theorem afterTurn {o : Out} (h : Goes s o) : Goes s (Machine.afterTurn o) := by
  cases h with
  | next h => exact next fun hs => (h hs).watchdogs

theorem step : Goes s (Machine.step s) := by
  unfold Machine.step
  refine afterTurn ?_
  split
  · next rest _ => exact from_state (t := { s with agenda := rest }) (fun h => h.of_mem rfl) (runTurn _)
  · exact runOne false

end Goes

/-- Settles O14: each instruction and turn answers a next state. -/
theorem everyStepGoesOn : Obligations.EveryStepGoesOn := by
  unfold Obligations.EveryStepGoesOn
  exact ⟨fun _ => Goes.step.exists_next, fun i s => (Goes.exec_goes i s).exists_next⟩

/-- Settles O15: every instruction and turn keeps memory canonical. -/
theorem memoryStaysCanonical : Obligations.MemoryStaysCanonical := by
  unfold Obligations.MemoryStaysCanonical
  intro s t hs e
  exact Goes.canonical (e ▸ Goes.step) hs

end Sys2Proof.Machine


namespace Sys2Proof.Machine

/-! ## Containment: a task that is abandoned takes a frame of the core that is taken out

R264 handles the frames of a core before its tasks. Abandoning a task takes its commands to their resume points (R259,
`State.settleCommands`), and a command that has performed its bytes has still to access its sync object (R234). Where that object
lies in a page of the stash without a frame, the access gives the page a frame of the command's own core (R143, `fillPage`), when
the frames of the core are handled already. -/

/-- A CPY of one byte, which is performed; its sync object stands at the first address of the window. -/
def unarrivedCopy : Command :=
  { Command.new .cpy 0x1000 0x2000 1 0xFF00000000000000 0x100 0 0 with part := 1 }

/-- A task that has issued it, with the entries of its stash at 0x400000. -/
def copyingTask : Ctx :=
  { Ctx.reset with life := .running, sptroot := 0x400000, cmds := (Vector.replicate 8 none).set 0 (some unarrivedCopy) }

/-- The lowest 512 MiB, as a unit of core 0 has cached their translation (R156). -/
def lowestMapped (u : UnitKind) : TlbEntry := { core := 0, kind := u, granule := 0, level := 29, leaf := 15 }

/-- The task runs in context 0. Its first stash entry names the page at 0x500000, mapped and without a frame (R137), where an
object stands that expects two arrivals (R230). No frame of the core holds a page. -/
def syncInStash : State :=
  { State.reset with
    mem := [(0x400000, 3#8), (0x400002, 0x50#8), (0x500000, 2#8)]
    ctxs := [(0, copyingTask)]
    pkgs := [(0, { Pkg.reset with enable := 0xFFF })]
    tlb := [lowestMapped .core, lowestMapped .engine] }

/-- What CONTAINMENT of its core leaves. -/
def syncContained : State :=
  match execContainment 0 [] syncInStash with
  | .next t => t
  | _ => syncInStash

theorem syncInStash_core : (syncInStash.core 0).out = false ∧ (syncInStash.core 0).frames = [] := by decide +kernel

theorem exec_containment_syncInStash : exec (.containment 0 []) syncInStash = .next syncContained := rfl

/-- The page of the sync object has got frame 0. -/
theorem syncContained_frame :
    ((syncContained.core 0).frame 0).map (fun f => (f.entry, f.page)) = some (0x400000#64, 0x500000#64) := by
  decide +kernel

/-- Refutes O59, where it says that a core whose frames are handled has no frame left: at `syncInStash` no frame of core 0 has to be
handled, so that containment goes to its end; but the CPY of context 0 has still to arrive at its sync object, which then takes
frame 0. -/
theorem not_failuresAndPower : ¬ Obligations.FailuresAndPower := by
  unfold Obligations.FailuresAndPower
  rintro ⟨-, -, containment, -⟩
  obtain ⟨inUse, noFrames⟩ := syncInStash_core
  obtain ⟨t, ht, -, retires, -, emptied⟩ := (containment 0 [] syncInStash).2 inUse
  obtain rfl : syncContained = t := by simpa [exec_containment_syncInStash] using ht
  have handled : (syncContained.core 0).retiring = none := retires fun i _ => by simp [Core.frame, noFrames]
  have free : (syncContained.core 0).frame 0 = none := (emptied handled).1 0 (by decide)
  have taken := syncContained_frame
  simp [free] at taken

end Sys2Proof.Machine

/-! ## What task mode may not configure -/

namespace Sys2Proof.Machine

/-- The registers of a context that only a trap, a return or supervisor mode changes (R251, R252). -/
structure Control where
  mode : Mode
  tvec : Word
  tepc : Word
  cause : BitVec 10
  tinfo : Word
  tscratch : Word

@[simp] def Ctx.control (x : Ctx) : Control := ⟨x.mode, x.tvec, x.tepc, x.cause, x.tinfo, x.tscratch⟩

@[simp] theorem control_advance (x : Ctx) : x.advance.control = x.control := rfl

@[simp] theorem control_setReg (x : Ctx) (r : BitVec 5) (v : Word) : (x.setReg r v).control = x.control := by simp

@[simp] theorem control_resize (x : Ctx) (n : Nat) : (x.resize n).control = x.control := by
  unfold Ctx.resize
  split <;> rfl

@[simp] theorem control_grant (x : Ctx) (d : BitVec 5) (req : Word) (f w : BitVec 2) : (x.grant d req f w).control = x.control :=
  control_setReg x d _

@[simp] theorem control_wrote (x : Ctx) (d : BitVec 5) (w : Nat) (res : List (Nat × FpResult)) (t : Tag) :
    (x.wrote d w res t).control = x.control := rfl

theorem control_streamStep (x : Ctx) (p : BitVec 5) : (x.streamStep p).control = x.control :=
  (control_setReg _ _ _).trans (control_setReg _ _ _)

theorem control_putSuper (x : Ctx) (g : SbShape) (d : BitVec 5) (dst : Tag) (q : SuperRead) (es blocks : List Nat) :
    (x.putSuper g d dst q es blocks).control = x.control := by
  unfold Ctx.putSuper
  split
  · dsimp only
    split <;> rfl
  · rfl

/-- A package's registers and links, without the reports that wait for the ring. -/
def Pkg.settings (p : Pkg) : Pkg := { p with events := [] }

/-- A die's registers, without what its scheduler keeps of queues and save areas (R30, R31, R255). -/
def Die.settings (d : Die) : Die :=
  { d with nextSeq := 0, queued := [], tails := [], heads := [], areas := [], corrupted := false, stopped := false }

/-- What software configures, with whose turn it is. -/
@[ext] structure Setup where
  cur : Nat
  pkg : Nat → Pkg
  die : Nat → Die
  ctx : Nat → Control

/-- The configuration that tables hold. -/
def Setup.of (cur : Nat) (pkgs : List (Nat × Pkg)) (dies : List (Nat × Die)) (ctxs : List (Nat × Ctx)) : Setup where
  cur := cur
  pkg p := (tableGet pkgs p Pkg.reset).settings
  die d := (tableGet dies d Die.reset).settings
  ctx c := (tableGet ctxs c Ctx.reset).control

def State.config (s : State) : Setup := .of s.cur s.pkgs s.dies s.ctxs

/-- The configuration is `cfg`. -/
def Under (cfg : Setup) (s : State) : Prop := s.config = cfg

theorem under_iff (cfg : Setup) (s : State) : Under cfg s ↔ s.config = cfg := Iff.rfl

/-! ### Updates that configure nothing -/

@[simp] theorem config_setCtx {s : State} {c : Nat} {x : Ctx} (h : x.control = (s.ctx c).control) : (s.setCtx c x).config = s.config := by
  have other (j : Nat) : ((s.setCtx c x).ctx j).control = (s.ctx j).control := by
    by_cases e : j = c
    · rw [e, ctx_setCtx_same, h]
    · rw [ctx_setCtx_other s c j x e]
  exact Setup.ext rfl rfl rfl (funext other)

/-- A context's record changed on a state configured like the first. -/
theorem config_onto {s t : State} {c : Nat} {x : Ctx} (h : x.control = (t.ctx c).control) (e : t.config = s.config) :
    (t.setCtx c x).config = s.config := (config_setCtx h).trans e

@[simp] theorem config_setMe {s : State} {x : Ctx} (h : x.control = s.me.control) : (s.setMe x).config = s.config := config_setCtx h

@[simp] theorem config_setDie {s : State} {d : Nat} {x : Die} (h : x.settings = (s.die d).settings) : (s.setDie d x).config = s.config := by
  have other (j : Nat) : ((s.setDie d x).die j).settings = (s.die j).settings := by
    by_cases e : j = d
    · rw [e, die_setDie_same, h]
    · rw [die_setDie_other s d j x e]
  exact Setup.ext rfl rfl (funext other) rfl

@[simp] theorem config_setPkg {s : State} {p : Nat} {x : Pkg} (h : x.settings = (s.pkg p).settings) : (s.setPkg p x).config = s.config := by
  have other (j : Nat) : ((s.setPkg p x).pkg j).settings = (s.pkg j).settings := by
    by_cases e : j = p
    · rw [e, pkg_setPkg_same, h]
    · rw [pkg_setPkg_other s p j x e]
  exact Setup.ext rfl (funext other) rfl rfl

@[simp] theorem config_free (s : State) (n : Nat) : State.config { s with free := n } = s.config := rfl

@[simp] theorem config_setCore (s : State) (k : Nat) (x : Core) : (s.setCore k x).config = s.config := rfl

@[simp] theorem config_setChan (s : State) (c : BitVec 4) (x : Channel) : (s.setChan c x).config = s.config := rfl

/-- A change of every listed context that leaves what a trap and supervisor mode change. -/
theorem config_mapCtxs {s : State} {f : Nat → Ctx → Ctx} (h : ∀ j x, (f j x).control = x.control) :
    State.config { s with ctxs := s.ctxs.map fun e => (e.1, f e.1 e.2) } = s.config := by
  have same (c : Nat) : (tableGet (s.ctxs.map fun e => (e.1, f e.1 e.2)) c Ctx.reset).control = (s.ctx c).control :=
    tableGet_map (fun x y => y.control = x.control) f s.ctxs c rfl h
  exact Setup.ext rfl rfl rfl (funext same)

/-- Finding the places of an address and writing to them configures nothing. -/
theorem Relocated.config {s t : State} (h : Relocated s t) : t.config = s.config := by
  have pkgs : t.pkgs = s.pkgs := congrArg (·.1) h.rest
  have dies (d : Nat) : (t.die d).settings = (s.die d).settings := by rw [h.dies d]; rfl
  have ctxs (c : Nat) : (t.ctx c).control = (s.ctx c).control := by rw [sameButAhead_eq (h.ahead c)]; rfl
  exact Setup.ext h.cur (by simp [State.config, Setup.of, pkgs]) (funext dies) (funext ctxs)

@[simp] theorem State.writeLocs_config (s : State) (w : List (Loc × Byte)) : (s.writeLocs w).config = s.config :=
  (Relocated.writeLocs s w).config
@[simp] theorem State.setLocs_config (s : State) (w : List (Loc × Byte)) : (s.setLocs w).config = s.config :=
  (Relocated.setLocs s w).config
@[simp] theorem State.clearPoison_config (s : State) (ls : List Loc) : (s.clearPoison ls).config = s.config :=
  (Relocated.clearPoison s ls).config
@[simp] theorem State.clearFrames_config (s : State) (ls : List Loc) : (s.clearFrames ls).config = s.config :=
  (Relocated.clearFrames s ls).config
@[simp] theorem State.watchQueues_config (s : State) (ls : List Loc) : (s.watchQueues ls).config = s.config :=
  (Relocated.watchQueues s ls).config
@[simp] theorem State.storeLocs_config (s : State) (w : List (Loc × Byte)) : (s.storeLocs w).config = s.config := by
  simp [State.storeLocs]
@[simp] theorem State.mapPlaces_config (s : State) (f : {α : Type} → List (Loc × α) → List (Loc × α)) :
    (s.mapPlaces f).config = s.config := (Relocated.mapPlaces s f).config
@[simp] theorem State.pageLeaves_config (s : State) (k i : Nat) (f : Frame) : (s.pageLeaves k i f).config = s.config :=
  (Relocated.pageLeaves s k i f).config
@[simp] theorem State.pageDropped_config (s : State) (k i : Nat) : (s.pageDropped k i).config = s.config := by
  simp [State.pageDropped]
@[simp] theorem State.mapPins_config (s : State) (c : Nat) (f : Pin → Pin) : (s.mapPins c f).config = s.config := by
  unfold State.mapPins
  split <;> rfl
@[simp] theorem State.closePins_config (s : State) (c : Nat) (l : List Stream) : (s.closePins c l).config = s.config := by
  simp [State.closePins]

/-! ### Stores in flight -/

@[simp] theorem config_drainFrom (s : State) (q : List QStore) (n : Nat) : (drainFrom s q n).config = s.config := by
  induction n generalizing s q with
  | zero => rfl
  | succ n ih =>
    cases q with
    | nil => rfl
    | cons x q =>
      rw [drainFrom, ih]
      split <;> split <;> simp

@[simp] theorem State.drainFirst_config (s : State) (c n : Nat) : (s.drainFirst c n).config = s.config := by
  unfold State.drainFirst
  dsimp only
  split
  · rfl
  · exact (State.closePins_config _ _ _).trans (config_onto (by simp) (by simp))

@[simp] theorem State.drain_config (s : State) (c : Nat) : (s.drain c).config = s.config := s.drainFirst_config c _

@[simp] theorem State.settleOne_config (s : State) (c : Nat) : (s.settleOne c).config = s.config := by
  unfold State.settleOne
  dsimp only
  split
  · exact (State.closePins_config _ _ _).trans (config_onto (by simp) (s.writeLocs_config _))
  · rfl

@[simp] theorem State.settleFirst_config (s : State) (c n : Nat) : (s.settleFirst c n).config = s.config := by
  induction n generalizing s with
  | zero => rfl
  | succ n ih => rw [State.settleFirst, ih, State.settleOne_config]

@[simp] theorem State.settleStores_config (s : State) (c : Nat) : (s.settleStores c).config = s.config := s.settleFirst_config c _

@[simp] theorem State.storeNext_config (s : State) (c : Nat) : (s.storeNext c).config = s.config := by
  unfold State.storeNext
  dsimp only
  split
  · split <;> simp
  · simp
  · simp

@[simp] theorem State.storesInOrder_config (s : State) (c n : Nat) : (s.storesInOrder c n).config = s.config := by
  induction n generalizing s with
  | zero => rfl
  | succ n ih => rw [State.storesInOrder, ih, State.storeNext_config]

@[simp] theorem State.storesDone_config (s : State) (c : Nat) : (s.storesDone c).config = s.config := by
  unfold State.storesDone
  dsimp only
  split <;> simp

@[simp] theorem State.finishOlder_config (s : State) (c : Nat) : (s.finishOlder c).config = s.config := by
  unfold State.finishOlder
  dsimp only
  split
  · simp
  · exact config_onto (by simp) (by simp)

theorem config_putPhys {s t : State} {p base : Nat} {bs : List Byte} (e : putPhys s p base bs = .ok t) : t.config = s.config := by
  unfold putPhys at e
  split at e <;> cases e
  simp

namespace Under
variable {cfg : Setup} {s t : State}

theorem of_config (h : Under cfg s) (e : t.config = s.config) : Under cfg t := e.trans h

/-- A fold of steps that configure nothing. -/
theorem foldl {β : Type} {f : State → β → State} (h : Under cfg s) (hf : ∀ t b, Under cfg t → Under cfg (f t b)) (l : List β) :
    Under cfg (l.foldl f s) :=
  List.foldlRecOn l f h fun t ht b _ => hf t b ht

theorem putPhys {p base : Nat} {bs : List Byte} (h : Under cfg s) (e : Machine.putPhys s p base bs = .ok t) : Under cfg t :=
  h.of_config (config_putPhys e)

end Under

/-- A meaning that leaves the configuration `cfg`, however it ends. -/
structure Obeys (cfg : Setup) {α : Type} (m : M α) : Prop where
  after : ∀ s, Under cfg s → Under cfg (m.run s).2

namespace Obeys
variable {cfg : Setup} {α β : Type}

theorem of_leaves {m : M α} (h : Leaves (Under cfg) m) : Obeys cfg m := ⟨h⟩

theorem of_finds {m : M α} (h : Finds m) : Obeys cfg m := ⟨fun s hs => hs.of_config (h.reaches s).config⟩

/-- The rule for a meaning written as a function of the state. -/
theorem of_run {g : State → Except Stop α × State} (h : ∀ s, Under cfg s → Under cfg (g s).2) : Obeys cfg (α := α) g := ⟨h⟩

/-- What a run of a meaning ends in. -/
theorem ends {m : M α} (hm : Obeys cfg m) {s t : State} {r : Except Stop α} (e : m.run s = (r, t)) (hs : Under cfg s) :
    Under cfg t := by
  simpa [e] using hm.after s hs

theorem seq {m : M α} {f : α → M β} (first : Obeys cfg m) (second : ∀ a, Obeys cfg (f a)) : Obeys cfg (m >>= f) :=
  of_leaves (Leaves.seq first.after fun a => (second a).after)

theorem still {m : M α} (h : ∀ s, (m.run s).2 = s) : Obeys cfg m := ⟨fun s hs => by rwa [h s]⟩

theorem ret (a : α) : Obeys cfg (pure a : M α) := still fun _ => rfl
theorem look : Obeys cfg getS := still fun _ => rfl
theorem stop (e : Stop) : Obeys cfg (throw e : M α) := still fun _ => rfl
theorem trap (c : BitVec 10) (i : Word) (r : FaultInfo) : Obeys cfg (trapM c i r : M α) := still fun _ => rfl

/-- The state that a meaning looks at has the configuration. -/
theorem looking {f : State → M α} (h : ∀ s, Under cfg s → Obeys cfg (f s)) : Obeys cfg (getS >>= f) :=
  ⟨fun s hs => (h s hs).after s hs⟩

theorem lift (r : Except Stop α) : Obeys cfg (liftE r) := of_leaves (Leaves.lift r)
theorem back (g : Nat) (w : Word) (r : Except Stop α) : Obeys cfg (backing g w r) := of_leaves (Leaves.back g w r)
theorem modify {f : State → State} (h : ∀ s, Under cfg s → Under cfg (f s)) : Obeys cfg (modS f) := ⟨h⟩
theorem modifyMe {f : Ctx → Ctx} (h : ∀ x, (f x).control = x.control) : Obeys cfg (modMe f) :=
  ⟨fun s hs => hs.of_config (config_setMe (h s.me))⟩
theorem caught {m : M α} (h : Obeys cfg m) : Obeys cfg (attempt m) := ⟨h.after⟩
theorem check (ok : Bool) (c : BitVec 10) (i : Word) : Obeys cfg (check ok c i) := by
  cases ok
  exacts [trap c i noInfo, ret ()]

/-- A check before the rest. -/
theorem guarded {c : Prop} [Decidable c] {m : M Unit} {n : M α} (hm : Obeys cfg m) (hn : Obeys cfg n) :
    Obeys cfg (do if c then m
                  n) := by
  dsimp only
  split
  · exact hm.seq fun _ => hn
  · exact hn

/-- The rules for the operations of the monad, together. -/
theorem steps (cfg : Setup) : (∀ s, Under cfg s ↔ s.config = cfg) ∧ (∀ x : Ctx, x.advance.control = x.control) ∧
    (∀ (x : Ctx) (r : BitVec 5) (v : Word), (x.setReg r v).control = x.control) ∧
    (∀ (x : Ctx) (d : BitVec 5) (v : BitVec 8192) (t : Tag), (x.setVec d v t).control = x.control) ∧
    (∀ (x : Ctx) (f : BitVec 5), (x.raiseFlags f).control = x.control) ∧
    (∀ (x : Ctx) (d : BitVec 5) (w : Nat) (res : List (Nat × FpResult)) (t : Tag), (x.wrote d w res t).control = x.control) ∧
    (∀ (x : Ctx) (d : BitVec 5) (res : List (Nat × Bool × BitVec 5)), (x.wroteMask d res).control = x.control) ∧
    (∀ (x : Ctx) (d : BitVec 5) (v : Nat) (f : BitVec 5), (x.wroteFirst d v f).control = x.control) ∧
    (∀ (x : Ctx) (d : BitVec 5) (f : Nat → Bool), (x.setMask d f).control = x.control) ∧
    (∀ (x : Ctx) (d : BitVec 5) (done : List (Nat × Nat)), (x.putOld d done).control = x.control) ∧
    (∀ (x : Ctx) (p : BitVec 5), (x.streamStep p).control = x.control) ∧ (∀ (α : Type) (a : α), Obeys cfg (pure a : M α)) ∧ Obeys cfg getS ∧
    (∀ (α : Type) (e : Stop), Obeys cfg (throw e : M α)) ∧
    (∀ (α : Type) (c : BitVec 10) (i : Word) (r : FaultInfo), Obeys cfg (trapM c i r : M α)) ∧
    (∀ (α : Type) (r : Except Stop α), Obeys cfg (liftE r)) ∧
    (∀ (α : Type) (g : Nat) (w : Word) (r : Except Stop α), Obeys cfg (backing g w r)) ∧
    (∀ f : State → State, (∀ s, Under cfg s → Under cfg (f s)) → Obeys cfg (modS f)) ∧
    (∀ f : Ctx → Ctx, (∀ x, (f x).control = x.control) → Obeys cfg (modMe f)) ∧
    (∀ (α : Type) (m : M α), Obeys cfg m → Obeys cfg (attempt m)) ∧
    (∀ (ok : Bool) (c : BitVec 10) (i : Word), Obeys cfg (Machine.check ok c i)) ∧
    ∀ (α β : Type) (m : M α) (f : α → M β), Obeys cfg m → (∀ a, Obeys cfg (f a)) → Obeys cfg (m >>= f) :=
  ⟨under_iff cfg, control_advance, control_setReg, fun _ _ _ _ => rfl, fun _ _ => rfl, control_wrote, fun _ _ _ => rfl,
    fun _ _ _ _ => rfl, fun _ _ _ => rfl, fun _ _ _ => rfl, control_streamStep, fun _ => ret, look, fun _ => stop, fun _ => trap, fun _ => lift, fun _ => back, fun _ => modify, fun _ => modifyMe, fun _ _ => caught,
    check, fun _ _ _ _ => seq⟩

theorem setEntry (who : Who) (e v : Nat) : Obeys cfg (Machine.setEntry who e v) := of_finds (.setEntry who e v)
theorem globalLocs (who : Who) (a : Access) (va n : Nat) : Obeys cfg (Machine.globalLocs who a va n) := of_finds (.globalLocs who a va n)
theorem readEntry (who : Who) (va : Nat) : Obeys cfg (Machine.readEntry who va) := of_finds (.readEntry who va)
theorem writeBack (who : Who) (j : Nat) (f : Frame) : Obeys cfg (Machine.writeBack who j f) := of_finds (.writeBack who j f)
theorem locate (who : Who) (a : Access) (va : Nat) : Obeys cfg (Machine.locate who a va) := of_finds (.locate who a va)
theorem locateBytes (who : Who) (a : Access) (va n : Nat) : Obeys cfg (Machine.locateBytes who a va n) :=
  of_finds (.locateBytes who a va n)

theorem checkPoison (va : Nat) (ls : List Loc) : Obeys cfg (Machine.checkPoison va ls) := of_leaves (Leaves.poison va ls)

theorem readVa (who : Who) (va n : Nat) : Obeys cfg (Machine.readVa who va n) :=
  (locateBytes _ _ _ _).seq fun _ => (checkPoison _ _).seq fun _ => look.seq fun _ => ret _
theorem writeVa (who : Who) (va n v : Nat) : Obeys cfg (Machine.writeVa who va n v) :=
  (locateBytes _ _ _ _).seq fun _ => modify fun s h => h.of_config (s.writeLocs_config _)
theorem writeBytes (who : Who) (va : Nat) (bs : List Byte) : Obeys cfg (Machine.writeBytes who va bs) :=
  (locateBytes _ _ _ _).seq fun _ => modify fun s h => h.of_config (s.writeLocs_config _)

end Obeys

end Sys2Proof.Machine

namespace Sys2Proof.Machine

section
variable {cfg : Setup}

@[simp] theorem State.setChanOf_config (s : State) (root : Nat) (c : BitVec 4) (x : Channel) :
    (s.setChanOf root c x).config = s.config := rfl

@[simp] theorem State.alignPins_config (s : State) (c : Nat) (a b : Stream) : (s.alignPins c a b).config = s.config := by
  simp [State.alignPins]

@[simp] theorem State.closeBefore_config (s : State) (c : Nat) (st : Stream) (j : Nat) : (s.closeBefore c st j).config = s.config := by
  unfold State.closeBefore
  split <;> rfl

@[simp] theorem State.acquired_config (s : State) (c : Nat) : (s.acquired c).config = s.config := by simp [State.acquired]

@[simp] theorem State.dropPins_config (s : State) (c : Nat) : (s.dropPins c).config = s.config := by
  unfold State.dropPins
  split <;> rfl

theorem Obeys.choose (n : Nat) : Obeys cfg (Machine.choose n) := by
  unfold Machine.choose
  grind [Obeys.steps cfg, State.config]

theorem Obeys.aligned (v : Word) (n : Nat) : Obeys cfg (Machine.aligned v n) := by
  unfold Machine.aligned
  grind [Obeys.steps cfg]

theorem Obeys.each {α : Type} {f : α → M Unit} (hf : ∀ a, Obeys cfg (f a)) (l : List α) : Obeys cfg (Machine.each f l) := by
  induction l with
  | nil => exact ret ()
  | cons a l ih => exact (hf a).seq fun _ => ih

theorem Obeys.collect {α β : Type} {f : α → M β} (hf : ∀ a, Obeys cfg (f a)) (l : List α) :
    Obeys cfg (Machine.collect f l) := by
  induction l with
  | nil => exact ret []
  | cons a l ih => exact (hf a).seq fun _ => ih.seq fun _ => ret _

@[simp] theorem State.discard_config (s : State) (who : Who) (va : Nat) : (s.discard who va).config = s.config := rfl

theorem Obeys.readUnit (who : Who) (may : Pin → Bool) (va : Nat) (ls : List Loc) (now : List Byte) :
    Obeys cfg (Machine.readUnit who may va ls now) := by
  unfold Machine.readUnit
  grind [Obeys.steps cfg, Obeys.choose]

theorem Obeys.readUnits (who : Who) (may : Pin → Bool) (va : Nat) (ls : List Loc) (now : List Byte) (fuel : Nat) :
    Obeys cfg (Machine.readUnits who may va ls now fuel) := by
  induction fuel generalizing va ls now with
  | zero => exact ret []
  | succ fuel ih =>
    unfold Machine.readUnits
    grind [Obeys.steps cfg, Obeys.readUnit]

theorem Obeys.transferBytes (who : Who) (may : Pin → Bool) (va : Nat) (ls : List Loc) (now : List Byte) :
    Obeys cfg (Machine.transferBytes who may va ls now) := by
  unfold Machine.transferBytes
  grind [Obeys.steps cfg, Obeys.readUnits]

theorem Obeys.loadVa (who : Who) (va n : Nat) : Obeys cfg (Machine.loadVa who va n) := by
  unfold Machine.loadVa
  grind [Obeys.steps cfg, Obeys.locateBytes, Obeys.checkPoison, Obeys.readUnit, State.closeBefore_config]

theorem Obeys.drainM : Obeys cfg (Machine.drainM) := by
  unfold Machine.drainM
  grind [Obeys.steps cfg, State.drain_config]

theorem Obeys.settleM : Obeys cfg (Machine.settleM) := by
  unfold Machine.settleM
  grind [Obeys.steps cfg, State.settleStores_config]

theorem Obeys.readObject (who : Who) (kind : Access) (a : Word) : Obeys cfg (Machine.readObject who kind a) := by
  unfold Machine.readObject
  grind [Obeys.steps cfg, Obeys.aligned, Obeys.locateBytes, Obeys.checkPoison]

theorem Obeys.updateObject (who : Who) (a : Word) (f : Nat → Nat → Option (Nat × Nat)) :
    Obeys cfg (Machine.updateObject who a f) := by
  unfold Machine.updateObject
  grind [Obeys.steps cfg, Obeys.readObject, State.writeLocs_config]

@[simp] theorem State.raise_config (s : State) (c : Nat) (p : Pending) : (s.raise c p).config = s.config :=
  config_setCtx (by simp)

@[simp] theorem State.setCommand_config (s : State) (c : Nat) (slot : BitVec 3) (k : Option Command) :
    (s.setCommand c slot k).config = s.config := config_setCtx (by simp)

@[simp] theorem State.dropSource_config (s : State) (tid slot : Nat) : (s.dropSource tid slot).config = s.config := by
  unfold State.dropSource
  split <;> rfl

@[simp] theorem State.keepSource_config (s : State) (tid slot : Nat) : (s.keepSource tid slot).config = s.config := by
  exact s.dropSource_config tid slot

@[simp] theorem State.retire_config (s : State) (c : Nat) (slot : BitVec 3) : (s.retire c slot).config = s.config := by
  simp [State.retire]

theorem Obeys.atFault {α : Type} (va : Nat) {m : M α} (hm : Obeys cfg m) : Obeys cfg (Machine.atFault va m) := by
  unfold Machine.atFault
  refine of_run fun s hs => ?_
  split
  · next e => exact hm.ends e hs
  · exact hm.after s hs

theorem Obeys.enginePlacesFrom (who : Who) (kind : Access) (va n lines : Nat) :
    Obeys cfg (Machine.enginePlacesFrom who kind va n lines) := by
  induction lines generalizing va n with
  | zero => exact ret []
  | succ lines ih =>
    unfold Machine.enginePlacesFrom
    grind [Obeys.steps cfg, Obeys.atFault, Obeys.locateBytes, Obeys.checkPoison]

theorem Obeys.enginePlaces (who : Who) (kind : Access) (va n : Nat) : Obeys cfg (Machine.enginePlaces who kind va n) := by
  unfold Machine.enginePlaces
  grind [Obeys.steps cfg, Obeys.enginePlacesFrom]

theorem Obeys.sourceBytes (x : Option Source) (ls : List Loc) : Obeys cfg (Machine.sourceBytes x ls) := by
  unfold Machine.sourceBytes
  grind [Obeys.steps cfg, State.config]

theorem Obeys.engineRead (who : Who) (k : Command) (x : Option Source) (va n : Nat) :
    Obeys cfg (Machine.engineRead who k x va n) := by
  unfold Machine.engineRead
  grind [Obeys.steps cfg, Obeys.enginePlaces, Obeys.sourceBytes, Obeys.transferBytes]

theorem Obeys.enginePut (who : Who) (va : Nat) (bs : List Byte) : Obeys cfg (Machine.enginePut who va bs) := by
  unfold Machine.enginePut
  grind [Obeys.steps cfg, Obeys.enginePlaces, State.writeLocs_config]

theorem Obeys.engineWrites (who : Who) (ws : List (Nat × List Byte)) : Obeys cfg (Machine.engineWrites who ws) := by
  unfold Machine.engineWrites
  refine of_run fun s hs => ?_
  split
  · exact hs
  · exact (Obeys.each (fun _ => Obeys.enginePut who _ _) ws).after s hs

theorem Obeys.putBytes (who : Who) (k : Command) (bs : List (Nat × Nat × Byte)) : Obeys cfg (Machine.putBytes who k bs) := by
  induction bs generalizing k with
  | nil => exact ret k
  | cons b bs ih =>
    unfold Machine.putBytes
    grind [Obeys.steps cfg, Obeys.enginePlaces, State.writeLocs_config]

theorem Obeys.performBytes (who : Who) (k : Command) (bs : List (Nat × Nat × Byte)) :
    Obeys cfg (Machine.performBytes who k bs) := by
  unfold Machine.performBytes
  refine of_run fun s hs => ?_
  split
  · next e => exact ((Obeys.putBytes who k bs).ends e hs).of_config (by simp)
  · exact hs

theorem Obeys.moveWrites (who : Who) (k : Command) (x : Option Source) : Obeys cfg (Machine.moveWrites who k x) := by
  unfold Machine.moveWrites
  grind [Obeys.steps cfg, Obeys.engineRead]

theorem Obeys.settled (k : Command) : Obeys cfg (Machine.settled k) := by
  unfold Machine.settled
  grind [Obeys.steps cfg, State.config]

theorem Obeys.chunkWrites (who : Who) (k : Command) : Obeys cfg (Machine.chunkWrites who k) := by
  unfold Machine.chunkWrites
  grind [Obeys.steps cfg, Obeys.collect, Obeys.engineRead]

theorem Obeys.runWrites (who : Who) (k : Command) : Obeys cfg (Machine.runWrites who k) := by
  unfold Machine.runWrites
  grind [Obeys.steps cfg, Obeys.collect, Obeys.engineRead]

theorem Obeys.unitWrites (who : Who) (k : Command) (x : Option Source) : Obeys cfg (Machine.unitWrites who k x) := by
  unfold Machine.unitWrites
  grind [Obeys.steps cfg, Obeys.moveWrites, Obeys.chunkWrites, Obeys.runWrites]

theorem Obeys.readBlock (who : Who) (k : Command) : Obeys cfg (Machine.readBlock who k) := by
  unfold Machine.readBlock
  split
  · exact ret k
  split
  · exact (Obeys.engineRead who k none _ _).seq fun _ => ret _
  split
  · exact ret k
  · refine of_run fun s hs => ?_
    grind [under_iff, State.config]

theorem Obeys.laterBytes (who : Who) (k : Command) (n : Nat) : Obeys cfg (Machine.laterBytes who k n) := by
  induction n generalizing k with
  | zero => exact ret []
  | succ n ih =>
    unfold Machine.laterBytes
    grind [Obeys.steps cfg, Obeys.unitWrites, Obeys.each, Obeys.enginePut]

theorem Obeys.restBytes (who : Who) (k : Command) (x : Option Source) (n : Nat) : Obeys cfg (Machine.restBytes who k x n) := by
  unfold Machine.restBytes
  grind [Obeys.steps cfg, Obeys.laterBytes, Obeys.collect, Obeys.engineRead]

theorem Obeys.targetPlaces (who : Who) (k : Command) (ws : List (Nat × Nat × Byte)) :
    Obeys cfg (Machine.targetPlaces who k ws) := by
  unfold Machine.targetPlaces
  grind [Obeys.steps cfg, Obeys.collect, Obeys.enginePlaces]

theorem Under.strew {s : State} (h : Under cfg s) (who : Who) (k : Command) (x : Option Source) :
    Under cfg (s.strew who k x) := by
  unfold State.strew
  extract_lets k' n mask u
  have hu : Under cfg u := h.of_config rfl
  split
  · exact h
  · split
    · split
      · next e => exact ((Obeys.targetPlaces _ _ _).ends e hu).of_config (by simp)
      · next e => exact (Obeys.targetPlaces _ _ _).ends e hu
    · exact hu

@[simp] theorem State.commandFault_config (s : State) (c : Nat) (slot : BitVec 3) (k : Command) (cause : BitVec 10) (r :
    FaultInfo) : (s.commandFault c slot k cause r).config = s.config := by
  simp [State.commandFault]

theorem Obeys.performUnit (who : Who) (k : Command) (x : Option Source) : Obeys cfg (Machine.performUnit who k x) := by
  unfold Machine.performUnit
  grind [Obeys.steps cfg, Obeys.performBytes, Obeys.unitWrites, Obeys.engineWrites]

theorem Obeys.finishUnit (who : Who) (k : Command) (x : Option Source) : Obeys cfg (Machine.finishUnit who k x) := by
  unfold Machine.finishUnit
  grind [Obeys.steps cfg, Obeys.performUnit, Obeys.settled]

theorem Obeys.countsBytes (who : Who) (k : Command) : Obeys cfg (Machine.countsBytes who k) := by
  unfold Machine.countsBytes
  grind [Obeys.steps cfg, Obeys.atFault, Obeys.readObject]

theorem Obeys.countBytes (who : Who) (k : Command) (n : Nat) : Obeys cfg (Machine.countBytes who k n) := by
  unfold Machine.countBytes
  grind [Obeys.steps cfg, Obeys.atFault, Obeys.updateObject]

theorem Obeys.advanceCommand (who : Who) (k : Command) (x : Option Source) : Obeys cfg (Machine.advanceCommand who k x) := by
  unfold Machine.advanceCommand
  grind [Obeys.steps cfg, Obeys.readBlock, Obeys.countsBytes, Obeys.countBytes, Obeys.finishUnit, Obeys.performUnit,
    Obeys.performBytes]

theorem Under.commandAction {s : State} (h : Under cfg s) (c : Nat) (slot : BitVec 3) (k : Command)
    {m : M (Option Command)} (hm : Obeys cfg m) : Under cfg (s.commandAction c slot k m) := by
  unfold State.commandAction
  split
  · next e => exact (hm.ends e h).of_config (by simp)
  · next e => exact (hm.ends e h).of_config (by simp)
  · next e => exact ((hm.ends e h).strew (engineWho s c k) k (s.source c slot)).of_config (by simp)
  · exact h.of_config (by simp)
  · exact h

theorem Under.settleCommand {s : State} (h : Under cfg s) (c : Nat) (slot : BitVec 3) (fuel : Nat) :
    Under cfg (s.settleCommand c slot fuel) := by
  induction fuel generalizing s with
  | zero => exact h
  | succ fuel ih =>
    unfold State.settleCommand
    split
    · exact h
    · split
      · exact h
      · exact ih (h.commandAction c slot _ (Obeys.advanceCommand _ _ _))

theorem Under.settleCommands {s : State} (h : Under cfg s) (c : Nat) : Under cfg (s.settleCommands c) := by
  unfold State.settleCommands
  split
  · exact h
  · exact h.foldl (fun t _ ht => ht.settleCommand c _ _) _

@[simp] theorem State.report_config (s : State) (p : Nat) (e : Event) : (s.report p e).config = s.config := config_setPkg rfl

@[simp] theorem State.corrupt_config (s : State) (d address : Nat) : (s.corrupt d address).config = s.config :=
  (State.report_config _ _ _).trans (config_setDie (s := s) rfl)

@[simp] theorem State.unbindAll_config (s : State) (c : Nat) : (s.unbindAll c).config = s.config := by
  unfold State.unbindAll
  split
  · rfl
  · refine config_onto (by simp) ?_
    refine List.foldlRecOn (motive := fun t : State => t.config = s.config) _ _ rfl fun t ht i _ => ?_
    split
    · exact ht
    · exact ht

@[simp] theorem State.retryPorts_config (s : State) (c : Nat) (stat : Word) : (s.retryPorts c stat).config = s.config := rfl

@[simp] theorem State.leaveHandler_config (s : State) (c : Nat) : (s.leaveHandler c).config = s.config := by
  unfold State.leaveHandler
  grind [State.retryPorts_config]

/-- A change of every entry of the table of contexts that leaves the contexts' numbers and what a trap and supervisor mode change. -/
theorem config_mapEntries {s : State} {f : Nat × Ctx → Nat × Ctx} (key : ∀ e, (f e).1 = e.1)
    (h : ∀ e, (f e).2.control = e.2.control) : State.config { s with ctxs := s.ctxs.map f } = s.config := by
  have keyed : f = fun e => (e.1, (f (e.1, e.2)).2) := funext fun e => Prod.ext (key e) rfl
  rw [keyed]
  exact config_mapCtxs (f := fun j x => (f (j, x)).2) fun j x => h (j, x)

@[simp] theorem State.restoreCeilings_config (s : State) (tid : Nat) : (s.restoreCeilings tid).config = s.config := by
  unfold State.restoreCeilings
  refine config_mapEntries (fun e => ?_) fun e => ?_ <;> split <;> (try split) <;> rfl

/-- A context that was in task mode stays so as its task leaves it. -/
theorem Under.vacate {s : State} (h : Under cfg s) {c : Nat} (task : (cfg.ctx c).mode = .task) : Under cfg (s.vacate c) := by
  unfold State.vacate
  extract_lets x k t u
  have same : u.config = s.config := State.dropPins_config _ c
  have mode : (u.ctx c).mode = .task := by
    have : (cfg.ctx c).mode = (u.ctx c).mode := by rw [← h, ← same]; rfl
    rw [← this, task]
  refine h.of_config (config_onto ?_ same)
  rw [Ctx.control, ← mode]
  rfl

@[simp] theorem State.taskGone_config (s : State) (tid : Nat) : (s.taskGone tid).config = s.config := by
  unfold State.taskGone
  dsimp only
  split
  · exact s.restoreCeilings_config tid
  · exact s.restoreCeilings_config tid

@[simp] theorem State.releaseArea_config (s : State) (a : Option Area) : (s.releaseArea a).config = s.config := by
  unfold State.releaseArea
  split
  · rfl
  · exact config_setDie rfl

@[simp] theorem State.orphanCommands_config (s : State) (c : Nat) : (s.orphanCommands c).config = s.config := by
  unfold State.orphanCommands
  dsimp only
  split <;> rfl

theorem Under.abandon {s : State} (h : Under cfg s) {c : Nat} (task : (cfg.ctx c).mode = .task) : Under cfg (s.abandon c) := by
  have settled : Under cfg ((s.finishOlder c).settleCommands c) := Under.settleCommands (h.of_config (by simp)) c
  have unbound : Under cfg (((((s.finishOlder c).settleCommands c).leaveHandler c).orphanCommands c).unbindAll c) :=
    settled.of_config (by simp)
  exact (unbound.vacate task).of_config ((State.releaseArea_config _ _).trans (State.taskGone_config _ _))

theorem Under.loseTask {s : State} (h : Under cfg s) {c : Nat} (task : (cfg.ctx c).mode = .task) (address : Nat) :
    Under cfg (s.loseTask c address) := by
  unfold State.loseTask
  refine Under.of_config (Under.abandon ?_ task) (State.report_config _ _ _)
  split
  · exact h.of_config (by simp)
  · exact h

theorem Under.putRecord {s t : State} (h : Under cfg s) {c : Nat} (task : (cfg.ctx c).mode = .task) {ws : List Word} {b : Bool}
    (e : s.putRecord c ws = (t, b)) : Under cfg t := by
  have unfolded := Eq.refl State.putRecord
  conv at unfolded => rhs; delta State.putRecord
  simp only [unfolded] at e
  grind [Under.putPhys, Under.loseTask]

@[simp] theorem State.unmarked_config (s : State) : (s.unmarked).config = s.config := by
  unfold State.unmarked
  split
  · exact config_setMe (by simp [Ctx.waitsOn])
  · rfl

theorem Obeys.tagOk (y : VSrc) {f : BitVec 5 → M Unit} (hf : ∀ r, Obeys cfg (f r)) : Obeys cfg (y.tagOk f) := by
  unfold VSrc.tagOk
  split
  exacts [hf _, ret ()]

theorem Obeys.nextM : Obeys cfg (Machine.nextM) := by
  unfold Machine.nextM
  grind [Obeys.steps cfg]

theorem Obeys.feature (n : Nat) (i : Instr) : Obeys cfg (Machine.feature n i) := by
  unfold Machine.feature
  grind [Obeys.steps cfg]

end

end Sys2Proof.Machine

namespace Sys2Proof.Machine

section
variable {cfg : Setup}

theorem Obeys.stashOpen (vas : List Nat) : Obeys cfg (Machine.stashOpen vas) := by
  unfold Machine.stashOpen
  grind [Obeys.steps cfg]

theorem Obeys.afterScalar : Obeys cfg (Machine.afterScalar) := by
  unfold Machine.afterScalar
  grind [Obeys.steps cfg, State.closePins_config]

theorem Obeys.atomicVa (who : Who) (va n : Nat) (f : Nat → Nat × Nat) : Obeys cfg (Machine.atomicVa who va n f) := by
  unfold Machine.atomicVa
  grind [Obeys.steps cfg, Obeys.locateBytes, Obeys.checkPoison, State.writeLocs_config]

theorem Under.pushEntry {s : State} (h : Under cfg s) (d level : Nat) (w : List Word) :
    Under cfg (s.pushEntry d level w) := by
  have unfolded := Eq.refl State.pushEntry
  conv at unfolded => rhs; delta State.pushEntry
  obtain ⟨address, e⟩ : ∃ f, f = slotAddr := ⟨_, rfl⟩
  rw [← e] at unfolded
  simp only [unfolded]
  split
  · exact h.of_config (by simp)
  · next t e =>
    have kept (q : List (Nat × Nat)) (l : List (Nat × Nat)) : ({ t.die d with queued := q, tails := l } : Die).settings = (t.die d).settings := rfl
    have written : Under cfg t := h.putPhys e
    refine written.of_config ?_
    exact config_setDie (kept _ _)

theorem Under.pushRecord {s : State} (h : Under cfg s) (d : Nat) (addr ctrl waddr wval : Word) :
    Under cfg (s.pushRecord d addr ctrl waddr wval) := by
  have unfolded := Eq.refl State.pushRecord
  conv at unfolded => rhs; delta State.pushRecord
  simp only [unfolded]
  have counted (n : Word) : Under cfg (s.setDie d { s.die d with nextSeq := n }) := h.of_config (config_setDie (by rfl))
  exact (counted _).pushEntry _ _ _

theorem Obeys.checkRecord (who : Who) (addr : Word) (home : Nat) (reserved : Bool) :
    Obeys cfg (Machine.checkRecord who addr home reserved) := by
  unfold Machine.checkRecord
  refine guarded (trap _ _ _) (guarded (trap _ _ _) ((readVa _ _ _).caught.seq fun r => ?_))
  extract_lets rest
  have after (n : Nat) : Obeys cfg (rest n) := by
    refine guarded (trap _ _ _) ?_
    grind [Obeys.steps cfg, Obeys.choose]
  split
  exacts [(ret _).seq after, (trap _ _ _).seq after, (stop _).seq after]

theorem Obeys.enqueue (who : Who) (addr : Word) (home : Nat) (reserved : Bool) :
    Obeys cfg (Machine.enqueue who addr home reserved) := by
  unfold Machine.enqueue
  exact (Obeys.checkRecord who addr home reserved).seq fun _ => Obeys.modify fun s h => h.pushRecord _ _ _ _ _

theorem Under.settlePage {s : State} (h : Under cfg s) (k i : Nat) (f : Frame) : Under cfg (s.settlePage k i f) := by
  unfold State.settlePage
  refine h.foldl (fun t e ht => ?_) _
  split
  exacts [ht.of_config (by simp), ht]

theorem Obeys.flushPage (inv : Bool) (page : Nat) : Obeys cfg (Machine.flushPage inv page) := by
  have leave (who : Who) (k i entry : Nat) (f : Frame) :
      Obeys cfg (do
        Machine.setEntry who entry (if inv then 0 else leftEntry f)
        modS fun t =>
          let u := t.setCore k ((t.core k).freeFrame i)
          if inv && !f.mapped then u.pageDropped k i else u.pageLeaves k i f) := by
    refine (setEntry _ _ _).seq fun _ => modify fun t h => h.of_config ?_
    dsimp only
    split <;> simp
  unfold Machine.flushPage
  refine look.seq fun s => (readEntry _ _).seq fun ⟨entry, e⟩ => ?_
  dsimp only
  split
  · split
    · split
      · next f _ =>
        refine guarded (trap _ _ _) ((globalLocs _ _ _ _).seq fun _ => (modify fun t h => h.settlePage _ _ f).seq fun _ =>
          look.seq fun u => ?_)
        split
        · split
          · exact (writeBack _ _ _).caught.seq fun w => (back _ _ w).seq fun _ => leave _ _ _ _ _
          · exact leave _ _ _ _ _
        · exact stop _
      · exact trap _ _ _
    · exact trap _ _ _
  · split
    · exact setEntry _ _ _
    · exact ret ()

theorem Obeys.join (who : Who) (parent : Word) (home : Nat) : Obeys cfg (Machine.join who parent home) := by
  unfold Machine.join
  refine guarded (trap _ _ _) ((locateBytes _ _ _ _).seq fun ls => (checkPoison _ _).seq fun _ => look.seq fun s => ?_)
  extract_lets old
  refine guarded (trap _ _ _) ?_
  split
  · refine (checkRecord _ _ _ _).seq fun ⟨d, w⟩ => ?_
    exact (modify fun t h => h.of_config (by simp)).seq fun _ => (readVa _ _ _).seq fun n => modify fun t h => h.pushRecord _ _ _ _ _
  · exact modify fun t h => h.of_config (by simp)

theorem Obeys.endTask (task : (cfg.ctx cfg.cur).mode = .task) : Obeys cfg Machine.endTask := by
  have gone {s : State} (h : Under cfg s) : Under cfg (s.vacate s.cur) := h.vacate (by rwa [← h] at task ⊢)
  unfold Machine.endTask
  refine look.seq fun s => guarded (join _ _ _) (modify fun t h => ?_)
  have unbound : Under cfg ((t.unbindAll t.cur).leaveHandler t.cur) := h.of_config (by simp)
  exact (gone unbound).of_config ((State.releaseArea_config _ _).trans (State.taskGone_config _ _))

theorem Obeys.barwaitRead (d a b c : BitVec 5) (t : Nat) (s : State) : Obeys cfg (Machine.barwaitRead d a b c t s) := by
  unfold Machine.barwaitRead
  grind [Obeys.steps cfg, Ctx.control, Obeys.readObject, Obeys.afterScalar, State.acquired_config]

theorem Obeys.hbarArrive (sc inst count : Nat) : Obeys cfg (Machine.hbarArrive sc inst count) := by
  unfold Machine.hbarArrive
  grind [Obeys.steps cfg, State.config, Ctx.control]

theorem Obeys.hbarReturn : Obeys cfg (Machine.hbarReturn) := by
  unfold Machine.hbarReturn
  grind [Obeys.steps cfg, Ctx.control, State.closePins_config]

@[simp] theorem State.addCommand_config (s : State) (i : BitVec 3) (k : CmdKind) (d a b c : Word) :
    (s.addCommand i k d a b c).config = s.config := by
  unfold State.addCommand
  extract_lets t u
  have filled : u.config = s.config := State.setCommand_config s _ _ _
  split
  · exact (State.keepSource_config _ _ _).trans filled
  · exact filled

theorem Obeys.issueCommand (k : CmdKind) (d a b c : BitVec 5) : Obeys cfg (Machine.issueCommand k d a b c) := by
  unfold Machine.issueCommand
  grind [Obeys.steps cfg, Obeys.aligned, State.addCommand_config]

theorem Obeys.tagIn (r : BitVec 5) (accept : Tag → Bool) (lowest : Nat) : Obeys cfg (Machine.tagIn r accept lowest) := by
  unfold Machine.tagIn
  grind [Obeys.steps cfg]

theorem Obeys.tagInt (r : BitVec 5) : Obeys cfg (Machine.tagInt r) := by
  unfold Machine.tagInt
  grind [Obeys.steps cfg, Obeys.tagIn]

theorem Obeys.tagWide (r : BitVec 5) : Obeys cfg (Machine.tagWide r) := by
  unfold Machine.tagWide
  grind [Obeys.steps cfg, Obeys.tagIn]

theorem Obeys.tagIs (r : BitVec 5) (t : Tag) : Obeys cfg (Machine.tagIs r t) := by
  unfold Machine.tagIs
  grind [Obeys.steps cfg, Obeys.tagIn]

theorem Obeys.tagFloat (r : BitVec 5) (only32 : Bool) : Obeys cfg (Machine.tagFloat r only32) := by
  unfold Machine.tagFloat
  grind [Obeys.steps cfg, Obeys.tagIn]

theorem Obeys.fetchWord (who : Who) (va : Nat) : Obeys cfg (Machine.fetchWord who va) := by
  unfold Machine.fetchWord
  grind [Obeys.steps cfg, Obeys.locateBytes]

theorem Obeys.readGroup (n : BitVec 4) (ad : Word) (first : Bool) : Obeys cfg (Machine.readGroup n ad first) := by
  unfold Machine.readGroup
  refine look.seq fun s => (readVa _ _ _).seq fun w => (check _ _ _).seq fun _ => (readVa _ _ _).seq fun _ =>
    (readVa _ _ _).seq fun _ => ?_
  grind [Obeys.steps cfg, Obeys.readVa]

theorem Obeys.writeTogether (who : Who) (ws : List (Nat × List Byte)) : Obeys cfg (Machine.writeTogether who ws) := by
  unfold Machine.writeTogether
  grind [Obeys.steps cfg, Obeys.collect, Obeys.locateBytes, State.writeLocs_config]

theorem Obeys.bindSlot (n : BitVec 4) (ad : Word) (ch : Channel) (i : Nat) (x : Slot) :
    Obeys cfg (Machine.bindSlot n ad ch i x) := by
  unfold Machine.bindSlot
  grind [Obeys.steps cfg, Ctx.control, config_setChan]

theorem Obeys.bindGroup (n : BitVec 4) (ad : Word) : Obeys cfg (Machine.bindGroup n ad) := by
  unfold Machine.bindGroup
  refine (aligned _ _).seq fun _ => look.seq fun s => (readGroup _ _ _).seq fun g => (check _ _ _).seq fun _ => ?_
  dsimp only
  split
  · exact trap _ _ _
  · split
    · exact check _ _ _
    · refine (check _ _ _).seq fun _ => ?_
      split
      · exact trap _ _ _
      · refine (check _ _ _).seq fun _ => (writeTogether _ _).seq fun _ => ?_
        grind [Obeys.steps cfg, State.config, Obeys.bindSlot]

theorem Obeys.heldSlot (n : BitVec 4) : Obeys cfg (Machine.heldSlot n) := by
  unfold Machine.heldSlot
  grind [Obeys.steps cfg]

theorem Obeys.awaitTable (n : BitVec 4) (x : Slot) : Obeys cfg (Machine.awaitTable n x) := by
  unfold Machine.awaitTable
  grind [Obeys.steps cfg]

theorem Obeys.enqueueSend (n : BitVec 4) (i : Nat) (x : Slot) (k : SendKind) : Obeys cfg (Machine.enqueueSend n i x k) := by
  unfold Machine.enqueueSend
  grind [Obeys.steps cfg, config_setChan]

theorem Obeys.exchangeAddr (a : Word) : Obeys cfg (Machine.exchangeAddr a) := by
  unfold Machine.exchangeAddr
  grind [Obeys.steps cfg]

theorem Obeys.slotTable (who : Who) (ch : Channel) (g : Group) (x : Slot) : Obeys cfg (Machine.slotTable who ch g x) := by
  unfold Machine.slotTable
  grind [Obeys.steps cfg, Obeys.readVa]

theorem Obeys.xsendvForm (i : Instr) (a b : BitVec 5) (g : Group) : Obeys cfg (Machine.xsendvForm i a b g) := by
  unfold Machine.xsendvForm
  grind [Obeys.steps cfg, Obeys.tagIs, Obeys.each, Obeys.tagIn]

theorem Obeys.xsendvKeys (a : BitVec 5) (ch : Channel) (x : Slot) : Obeys cfg (Machine.xsendvKeys a ch x) := by
  unfold Machine.xsendvKeys
  grind [Obeys.steps cfg]

theorem Obeys.elementTable (who : Who) (ch : Channel) (g : Group) (x : Slot) : Obeys cfg (Machine.elementTable who ch g x) := by
  unfold Machine.elementTable
  grind [Obeys.steps cfg, Obeys.slotTable]

theorem Obeys.xsplitIssue (i : Instr) (a : BitVec 5) (n : BitVec 4) : Obeys cfg (Machine.xsplitIssue i a n) := by
  unfold Machine.xsplitIssue
  refine (feature _ _).seq fun _ => (heldSlot _).seq fun _ => look.seq fun s => (aligned _ _).seq fun _ =>
    (exchangeAddr _).seq fun _ => ?_
  split
  · exact trap _ _ _
  · exact settleM.seq fun _ => drainM.seq fun _ => look.seq fun t => guarded (stop _) (ret _)

theorem Obeys.xsplitFence : Obeys cfg (Machine.xsplitFence) := by
  unfold Machine.xsplitFence
  grind [Obeys.steps cfg, State.closePins_config]

theorem Obeys.writeWords (who : Who) (va : Nat) (ws : List Word) : Obeys cfg (Machine.writeWords who va ws) := by
  unfold Machine.writeWords
  refine (locateBytes _ _ _ _).caught.seq fun r => ?_
  split
  · exact modify fun s h => h.of_config (s.writeLocs_config _)
  · refine look.seq fun s => ?_
    extract_lets mask
    refine (modify fun t h => h.of_config (config_free t _)).seq fun _ => (each (fun e => ?_) _).seq fun _ => trap _ _ _
    split
    · exact (writeVa _ _ _ _).caught.seq fun _ => ret _
    · exact ret _
  · exact stop _

theorem Obeys.vecInt (op : IntOp) (d a : BitVec 5) (y : VSrc) (m : BitVec 1) (r : BitVec 3) :
    Obeys cfg (Machine.vecInt op d a y m r) := by
  unfold Machine.vecInt
  grind [Obeys.steps cfg, Obeys.tagInt, Obeys.tagOk]

theorem Obeys.vecCmp (c : IntCond) (d a : BitVec 5) (y : VSrc) (m : BitVec 1) (r : BitVec 3) :
    Obeys cfg (Machine.vecCmp c d a y m r) := by
  unfold Machine.vecCmp
  grind [Obeys.steps cfg, Obeys.tagInt, Obeys.tagOk]

theorem Obeys.vecSel (d a : BitVec 5) (y : VSrc) (r : BitVec 3) : Obeys cfg (Machine.vecSel d a y r) := by
  unfold Machine.vecSel
  grind [Obeys.steps cfg, Obeys.tagWide, Obeys.tagOk, Obeys.tagIs]

theorem Obeys.needFp64 (i : Instr) : Obeys cfg (Machine.needFp64 i) := by
  unfold Machine.needFp64
  grind [Obeys.steps cfg, Obeys.feature]

theorem Obeys.vecFloat (i : Instr) (op : FloatOp) (d a : BitVec 5) (y : VSrc) (m : BitVec 1) (r : BitVec 3) :
    Obeys cfg (Machine.vecFloat i op d a y m r) := by
  unfold Machine.vecFloat
  grind [Obeys.steps cfg, Obeys.needFp64, Obeys.tagFloat, Obeys.tagOk, Obeys.tagIs]

theorem Obeys.vecFloat1 (i : Instr) (op : FloatOp) (d a : BitVec 5) (m : BitVec 1) (r : BitVec 3) :
    Obeys cfg (Machine.vecFloat1 i op d a m r) := by
  unfold Machine.vecFloat1
  grind [Obeys.steps cfg, Obeys.vecFloat]

theorem Obeys.vecFcmp (i : Instr) (c : FpCond) (d a : BitVec 5) (y : VSrc) (m : BitVec 1) (r : BitVec 3) :
    Obeys cfg (Machine.vecFcmp i c d a y m r) := by
  unfold Machine.vecFcmp
  grind [Obeys.steps cfg, Obeys.needFp64, Obeys.tagFloat, Obeys.tagOk, Obeys.tagIs]

theorem Obeys.vecRed (op : IntOp) (d a : BitVec 5) (m : BitVec 1) (r : BitVec 3) : Obeys cfg (Machine.vecRed op d a m r) := by
  unfold Machine.vecRed
  grind [Obeys.steps cfg, Obeys.tagInt]

theorem Obeys.redChecks (i : Instr) (d a : BitVec 5) : Obeys cfg (Machine.redChecks i d a) := by
  unfold Machine.redChecks
  grind [Obeys.steps cfg, Obeys.needFp64, Obeys.tagFloat, Obeys.tagIs]

theorem Obeys.vecFredAdd (i : Instr) (d a : BitVec 5) (m : BitVec 1) (r : BitVec 3) : Obeys cfg (Machine.vecFredAdd i d a m r) := by
  unfold Machine.vecFredAdd
  grind [Obeys.steps cfg, Ctx.control, Obeys.redChecks]

theorem Obeys.vecFredMinMax (i : Instr) (max : Bool) (d a : BitVec 5) (m : BitVec 1) (r : BitVec 3) :
    Obeys cfg (Machine.vecFredMinMax i max d a m r) := by
  unfold Machine.vecFredMinMax
  grind [Obeys.steps cfg, Obeys.redChecks]

theorem Obeys.vecMove (d a : BitVec 5) (m : BitVec 1) (r : BitVec 3) (f : Ctx → Nat → Option Nat) :
    Obeys cfg (Machine.vecMove d a m r f) := by
  unfold Machine.vecMove
  grind [Obeys.steps cfg, Obeys.tagWide]

theorem Obeys.cvtSb (d a : BitVec 5) (dst : Tag) (sb8 : Bool) (m : BitVec 1) (r : BitVec 3) :
    Obeys cfg (Machine.cvtSb d a dst sb8 m r) := by
  unfold Machine.cvtSb
  grind [Obeys.steps cfg, Ctx.control]

theorem Obeys.placesOf (who : Who) (kind : Access) (va n : Nat) : Obeys cfg (Machine.placesOf who kind va n) := by
  unfold Machine.placesOf
  grind [Obeys.steps cfg, Obeys.locateBytes, Obeys.checkPoison]

theorem Obeys.placesAll (who : Who) (kind : Access) (accs : List (Nat × Nat)) : Obeys cfg (Machine.placesAll who kind accs) := by
  induction accs with
  | nil => exact ret _
  | cons a accs ih =>
    unfold Machine.placesAll
    grind [Obeys.steps cfg, Obeys.placesOf]

end

end Sys2Proof.Machine

namespace Sys2Proof.Machine

section
variable {cfg : Setup}

theorem Obeys.elementPlaces (who : Who) (kind : Access) (accs : List (Nat × Nat)) :
    Obeys cfg (Machine.elementPlaces who kind accs) := by
  unfold Machine.elementPlaces
  refine of_run fun s hs => ?_
  split
  · next e =>
    split
    · exact (placesAll _ _ _).after _ (hs.of_config (by simp))
    · exact (placesAll _ _ _).ends e hs
  · exact (placesAll _ _ _).after s hs

theorem Obeys.passOver {α : Type} (who : Who) (kind : Access) (mark : Nat → FaultInfo → FaultInfo)
    {act : Nat → List Loc → M α} (hact : ∀ i ls, Obeys cfg (act i ls)) (p : Pass α) (els : List (Nat × List (Nat × Nat))) :
    Obeys cfg (Machine.passOver who kind mark act p els) := by
  induction els generalizing p with
  | nil => exact ret p
  | cons e els ih =>
    unfold Machine.passOver
    refine (elementPlaces _ _ _).seq fun x => ?_
    split
    · exact (hact _ _).seq fun _ => ih _
    · split
      · exact ih _
      · exact trap _ _ _
    · exact ih _
    · exact ih _

theorem Obeys.batchPass {α : Type} (who : Who) (kind : Access) (mark : Nat → FaultInfo → FaultInfo)
    (els : List (Nat × List (Nat × Nat))) {act : Nat → List Loc → M α} (hact : ∀ i ls, Obeys cfg (act i ls)) :
    Obeys cfg (Machine.batchPass who kind mark els act) := by
  unfold Machine.batchPass
  refine of_run fun s hs => ?_
  split
  · next e =>
    split
    · exact hs
    · exact (passOver _ _ _ hact _ _).ends e hs
  · exact hs

theorem Obeys.endBatch (kind : Access) (w : Nat) (marked : List Nat) (fs : List Fail) :
    Obeys cfg (Machine.endBatch kind w marked fs) := by
  unfold Machine.endBatch
  grind [Obeys.steps cfg, Ctx.control]

theorem Obeys.needSb (i : Instr) : Obeys cfg (Machine.needSb i) := by
  unfold Machine.needSb
  grind [Obeys.steps cfg, Obeys.feature]

theorem Obeys.alignedAll (m : Nat) (vas : List Nat) : Obeys cfg (Machine.alignedAll m vas) := by
  unfold Machine.alignedAll
  grind [Obeys.steps cfg]

theorem Obeys.insideAll (base w : Nat) (vas : List (Nat × Nat)) : Obeys cfg (Machine.insideAll base w vas) := by
  unfold Machine.insideAll
  grind [Obeys.steps cfg]

theorem Obeys.readParts (who : Who) (parts : List (Nat × List Loc)) : Obeys cfg (Machine.readParts who parts) := by
  induction parts with
  | nil => exact ret _
  | cons x parts ih =>
    unfold Machine.readParts
    grind [Obeys.steps cfg, Obeys.readUnit]

theorem Obeys.readUpTo (js : List Nat) : Obeys cfg (Machine.readUpTo js) := by
  unfold Machine.readUpTo
  grind [Obeys.steps cfg, State.closeBefore_config]

theorem control_foldl {β : Type} {f : Ctx → β → Ctx} (h : ∀ x b, (f x b).control = x.control) (l : List β) (x : Ctx) :
    (l.foldl f x).control = x.control :=
  List.foldlRecOn (motive := fun y => y.control = x.control) l f rfl fun y hy b _ => (h y b).trans hy

theorem Obeys.loadBatch (d : BitVec 5) (m : BitVec 1) (r : BitVec 3) (dst : Tag) (n fields : Nat) (adr : Addresses) :
    Obeys cfg (Machine.loadBatch d m r dst n fields adr) := by
  unfold Machine.loadBatch
  refine look.seq fun _ => (stashOpen _).seq fun _ => drainM.seq fun _ => look.seq fun s =>
    (batchPass _ _ _ _ fun i ls => (readParts _ _).seq fun _ => ret _).seq fun p => (readUpTo _).seq fun _ =>
    (modifyMe fun y => ?_).seq fun _ => endBatch _ _ _ _
  exact control_foldl (fun z j => control_wrote z _ _ _ _) _ y

theorem Obeys.queueStore (at_ : Ctx) (ordered split : Bool) (bytes : List (Loc × Byte)) :
    Obeys cfg (Machine.queueStore at_ ordered split bytes) := by
  unfold Machine.queueStore
  grind [Obeys.steps cfg, Ctx.control]

theorem Obeys.storeBatch (d : BitVec 5) (m : BitVec 1) (r : BitVec 3) (n fields : Nat) (adr : Addresses) :
    Obeys cfg (Machine.storeBatch d m r n fields adr) := by
  unfold Machine.storeBatch
  grind [Obeys.steps cfg, Obeys.stashOpen, Obeys.batchPass, Obeys.queueStore, Obeys.endBatch]

theorem Obeys.indexRange (a b : BitVec 5) (iw : Nat) (els : List Nat) : Obeys cfg (Machine.indexRange a b iw els) := by
  unfold Machine.indexRange
  grind [Obeys.steps cfg]

theorem Obeys.indexFits (i : Instr) (w : BitVec 2) : Obeys cfg (Machine.indexFits i w) := by
  unfold Machine.indexFits
  grind [Obeys.steps cfg]

theorem Under.anyOrder {α : Type} {s : State} (h : Under cfg s) (l : List α) (fuel : Nat) :
    Under cfg (Machine.anyOrder s l fuel).2 := by
  induction fuel generalizing s l with
  | zero => cases l <;> exact h
  | succ fuel ih =>
    cases l with
    | nil => exact h
    | cons x l =>
      unfold Machine.anyOrder
      dsimp only
      split
      · exact h
      · exact ih (s := { s with free := s.free + 1 }) h _

theorem Obeys.unordered (who : Who) (els : List (Nat × List (Nat × Nat))) : Obeys cfg (Machine.unordered who els) := by
  unfold Machine.unordered
  refine looking fun s hs => ?_
  split
  · exact (modify fun t h => hs.anyOrder els els.length).seq fun _ => ret _
  · exact ret els

theorem Obeys.atomicAt (ls : List Loc) (n : Nat) (f : Nat → Nat × Nat) : Obeys cfg (Machine.atomicAt ls n f) := by
  unfold Machine.atomicAt
  grind [Obeys.steps cfg, State.writeLocs_config]

theorem Obeys.orderedPass {α : Type} (who : Who) (kind : Access) (w : Nat) {act : Nat → List Loc → M α}
    (hact : ∀ i ls, Obeys cfg (act i ls)) (quota : Option Nat) (done : List (Nat × α)) (els : List (Nat × List (Nat × Nat))) :
    Obeys cfg (Machine.orderedPass who kind w act quota done els) := by
  induction els generalizing quota done with
  | nil => exact ret _
  | cons e els ih =>
    unfold Machine.orderedPass
    split
    · exact ret _
    · refine (elementPlaces _ _ _).seq fun x => ?_
      split
      · exact (hact _ _).seq fun _ => ih _ _
      · exact ret _
      · exact ret _

theorem Obeys.endOrdered (stop : OrderedEnd) : Obeys cfg (Machine.endOrdered stop) := by
  unfold Machine.endOrdered
  split
  · exact (modifyMe fun _ => by rfl).seq fun _ => nextM
  · exact modifyMe fun _ => by rfl
  · exact (modifyMe fun _ => by rfl).seq fun _ => trap _ _ _
  · exact modifyMe fun _ => by rfl
  · exact modifyMe fun _ => by rfl

theorem Obeys.loadTagM (i : Instr) : Obeys cfg (Machine.loadTagM i) := by
  unfold Machine.loadTagM
  grind [Obeys.steps cfg]

theorem Obeys.checkAddresses (base : Nat) (n : Nat) (m : BitVec 1) (r : BitVec 3) (adr : Addresses) :
    Obeys cfg (Machine.checkAddresses base n m r adr) := by
  unfold Machine.checkAddresses
  grind [Obeys.steps cfg, Obeys.alignedAll, Obeys.insideAll]

theorem Obeys.plainLoad (i : Instr) (d a : BitVec 5) (m : BitVec 1) (r : BitVec 3) (fields : Nat)
    (adr : Ctx → Addresses) : Obeys cfg (Machine.plainLoad i d a m r fields adr) := by
  unfold Machine.plainLoad
  grind [Obeys.steps cfg, Obeys.loadTagM, Obeys.checkAddresses, Obeys.loadBatch]

theorem Obeys.sbPass (who : Who) (g : SbShape) (payload side w : Nat) (p : SbPass) (els : List (Nat × List Nat)) :
    Obeys cfg (Machine.sbPass who g payload side w p els) := by
  induction els generalizing p with
  | nil => exact ret p
  | cons e els ih =>
    unfold Machine.sbPass
    refine (elementPlaces _ _ _).seq fun x => ?_
    split
    · refine (readParts _ _).seq fun y => ?_
      dsimp only
      split
      · exact ret _
      · exact ih _
    · split
      · exact ih _
      · exact trap _ _ _
    · exact ih _
    · exact ih _

theorem Obeys.endSb (g : SbShape) (d : BitVec 5) (dst : Tag) (side : Nat) (m : BitVec 1) (r : BitVec 3) (p : SbPass) :
    Obeys cfg (Machine.endSb g d dst side m r p) := by
  unfold Machine.endSb
  refine look.seq fun s => (modifyMe fun y => ?_).seq fun _ => ?_
  · exact control_foldl (fun z q => control_putSuper z _ _ _ q _ _) _ _
  · split
    · refine (modifyMe fun y => ?_).seq fun _ => trap _ _ _
      dsimp only
      split
      · rfl
      · exact control_putSuper y _ _ _ _ _ _
    · exact endBatch _ _ _ _
    · exact endBatch _ _ _ _

theorem Obeys.packedChecks (i : Instr) (b : BitVec 5) (m : BitVec 1) : Obeys cfg (Machine.packedChecks i b m) := by
  unfold Machine.packedChecks
  grind [Obeys.steps cfg]

theorem Obeys.sbBases (payload side : Word) (usesSide : Bool) : Obeys cfg (Machine.sbBases payload side usesSide) := by
  unfold Machine.sbBases
  grind [Obeys.steps cfg, Obeys.aligned]

theorem Obeys.sbLoad (i : Instr) (d a b : BitVec 5) (m : BitVec 1) (r : BitVec 3) : Obeys cfg (Machine.sbLoad i d a b m r) := by
  unfold Machine.sbLoad
  refine look.seq fun s => (check _ _ _).seq fun _ => ?_
  extract_lets g start act payload side dst es loaded based
  have hloaded (u : PUnit) : Obeys cfg (loaded u) :=
    (stashOpen _).seq fun _ => drainM.seq fun _ => look.seq fun t => (sbPass _ _ _ _ _ _ _).seq fun p =>
      guarded (stop _) ((readUpTo _).seq fun _ => endSb _ _ _ _ _ _ _)
  have hbased (u : PUnit) : Obeys cfg (based u) := by
    refine (sbBases _ _ _).seq fun _ => ?_
    split
    · exact (insideAll _ _ _).seq hloaded
    · exact hloaded ⟨⟩
  split
  · exact (packedChecks _ _ _).seq hbased
  · exact (check _ _ _).seq fun _ => (check _ _ _).seq hbased

theorem Obeys.firstFaults (who : Who) (width : Nat) (done : List (Nat × List Loc)) (els : List (Nat × List (Nat × Nat))) :
    Obeys cfg (Machine.firstFaults who width done els) := by
  induction els generalizing done with
  | nil => exact ret _
  | cons e els ih =>
    unfold Machine.firstFaults
    grind [Obeys.steps cfg, Obeys.elementPlaces]

theorem Obeys.noPacked (i : Instr) (qs : List (BitVec 5)) : Obeys cfg (Machine.noPacked i qs) := by
  unfold Machine.noPacked
  grind [Obeys.steps cfg]

theorem Obeys.storeTags (qs : List (BitVec 5)) : Obeys cfg (Machine.storeTags qs) := by
  unfold Machine.storeTags
  grind [Obeys.steps cfg, Obeys.each, Obeys.tagIn]

theorem Obeys.noWideSb (i : Instr) (qs : List (BitVec 5)) : Obeys cfg (Machine.noWideSb i qs) := by
  unfold Machine.noWideSb
  grind [Obeys.steps cfg]

theorem Obeys.plainStore (i : Instr) (d a : BitVec 5) (m : BitVec 1) (r : BitVec 3) (fields : Nat)
    (adr : Ctx → Addresses) : Obeys cfg (Machine.plainStore i d a m r fields adr) := by
  unfold Machine.plainStore
  grind [Obeys.steps cfg, Obeys.noPacked, Obeys.noWideSb, Obeys.storeTags, Obeys.checkAddresses, Obeys.storeBatch]

theorem Obeys.sbStore (i : Instr) (d a b : BitVec 5) (m : BitVec 1) (r : BitVec 3) (fmt : Tag) :
    Obeys cfg (Machine.sbStore i d a b m r fmt) := by
  unfold Machine.sbStore
  refine look.seq fun s => (check _ _ _).seq fun _ => (packedChecks _ _ _).seq fun _ => (check _ _ _).seq fun _ =>
    (tagIs _ _).seq fun _ => (sbBases _ _ _).seq fun _ => guarded (insideAll _ _ _) ((stashOpen _).seq fun _ =>
    look.seq fun t => (batchPass _ _ _ _ fun j ls => queueStore _ _ _ _).seq fun p => endBatch _ _ _ _)

theorem Obeys.scatterChecks (i : Instr) (d a b : BitVec 5) (w : BitVec 2) (els : List Nat) :
    Obeys cfg (Machine.scatterChecks i d a b w els) := by
  unfold Machine.scatterChecks
  refine (needSb _).seq fun _ => (noPacked _ _).seq fun _ => (noWideSb _ _).seq fun _ => (storeTags _).seq fun _ =>
    (indexFits _ _).seq fun _ => (tagIs _ _).seq fun _ => (indexRange _ _ _ _).seq fun _ => look.seq fun s => ?_
  exact (alignedAll _ _).seq fun _ => ret _

theorem Obeys.storeSuper (at_ : Ctx) (who : Who) (d : BitVec 5) (payload side : Nat) (m : BitVec 1) (r : BitVec 3)
    (sels : List Nat) (j : Nat) : Obeys cfg (Machine.storeSuper at_ who d payload side m r sels j) := by
  unfold Machine.storeSuper
  refine look.seq fun s => ?_
  extract_lets x sb8 n stopWith
  have stopped (e : Stop) : Obeys cfg (stopWith e) := by
    simp only [stopWith]
    split
    exacts [(modifyMe fun _ => by rfl).seq fun _ => stop _, stop _]
  clear_value stopWith
  split
  · exact stopped _
  · refine (elementPlaces _ _ _).seq fun p => ?_
    split
    exacts [stopped _, queueStore _ _ _ _]

theorem Obeys.vamoChecks (i : Instr) (op : AtomOp) (d a b : BitVec 5) (els : List Nat) :
    Obeys cfg (Machine.vamoChecks i op d a b els) := by
  unfold Machine.vamoChecks
  exact look.seq fun _ => (check _ _ _).seq fun _ => (tagIs _ _).seq fun _ => guarded (tagIs _ _) ((tagIs _ _).seq fun _ =>
    (aligned _ _).seq fun _ => (indexRange _ _ _ _).seq fun _ => (stashOpen _).seq fun _ => drainM)

theorem Obeys.vamoAfter (acq : BitVec 1) : Obeys cfg (Machine.vamoAfter acq) := by
  unfold Machine.vamoAfter
  grind [Obeys.steps cfg, State.closePins_config]

theorem Obeys.vamoBatch (op : AtomOp) (d a b : BitVec 5) (m : BitVec 1) (r : BitVec 3) (acq : BitVec 1) :
    Obeys cfg (Machine.vamoBatch op d a b m r acq) := by
  unfold Machine.vamoBatch
  grind [Obeys.steps cfg, Ctx.control, Obeys.atomicAt, Obeys.unordered, Obeys.batchPass, Obeys.vamoAfter, Obeys.endBatch, Obeys.nextM]

theorem Obeys.vamoOrdered (op : AtomOp) (d a b : BitVec 5) (m : BitVec 1) (r : BitVec 3) (acq : BitVec 1) :
    Obeys cfg (Machine.vamoOrdered op d a b m r acq) := by
  unfold Machine.vamoOrdered
  grind [Obeys.steps cfg, Obeys.atomicAt, Obeys.orderedPass, Obeys.vamoAfter, Obeys.endOrdered]

theorem Obeys.waitPass (who : Who) (test : Nat → Nat → Bool) (p : WaitPass) (els : List (Nat × Nat)) :
    Obeys cfg (Machine.waitPass who test p els) := by
  induction els generalizing p with
  | nil => exact ret p
  | cons e els ih =>
    unfold Machine.waitPass
    refine (elementPlaces _ _ _).seq fun x => ?_
    split
    · exact (readParts _ _).seq fun y => ih _
    · split
      · exact ih _
      · exact trap _ _ _
    · exact ih _
    · exact ih _

theorem Obeys.vwaitChecks (i : Instr) (d b : BitVec 5) (m : BitVec 1) (r : BitVec 3) :
    Obeys cfg (Machine.vwaitChecks i d b m r) := by
  unfold Machine.vwaitChecks
  refine look.seq fun s => (check _ _ _).seq fun _ => (tagIs _ _).seq fun _ => (tagIs _ _).seq fun _ =>
    (alignedAll _ _).seq fun _ => ?_
  dsimp only
  split
  · exact (trap _ _ _).seq fun _ => (stashOpen _).seq fun _ => drainM
  · exact (ret _).seq fun _ => (stashOpen _).seq fun _ => drainM

theorem Obeys.vwaitRound (i : Instr) (d a b : BitVec 5) (m : BitVec 1) (r c : BitVec 3) (t : Nat) :
    Obeys cfg (Machine.vwaitRound i d a b m r c t) := by
  unfold Machine.vwaitRound
  refine (vwaitChecks _ _ _ _ _).seq fun _ => look.seq fun s => (waitPass _ _ _ _).seq fun p => (readUpTo _).seq fun _ =>
    (modifyMe fun _ => by rfl).seq fun _ => ?_
  split
  · exact modifyMe fun _ => by rfl
  · refine guarded (endBatch _ _ _ _) (guarded (modify fun u h => h.of_config (u.acquired_config _)) ?_)
    split
    · exact modifyMe fun y => control_setReg y _ _
    · exact modifyMe fun _ => by rfl

theorem Obeys.matFeatures (i : Instr) (f : BitVec 3) : Obeys cfg (Machine.matFeatures i f) := by
  unfold Machine.matFeatures
  grind [Obeys.steps cfg, Obeys.feature]

theorem Obeys.heldUnit (i : Instr) : Obeys cfg (Machine.heldUnit i) := by
  unfold Machine.heldUnit
  grind [Obeys.steps cfg]

theorem Obeys.modUnit (f : MatrixUnit → MatrixUnit) : Obeys cfg (Machine.modUnit f) := by
  unfold Machine.modUnit
  grind [Obeys.steps cfg, config_setCore]

theorem Obeys.operandAligned (t : Tag) (base stride side : Word) : Obeys cfg (Machine.operandAligned t base stride side) := by
  unfold Machine.operandAligned
  grind [Obeys.steps cfg, Obeys.aligned]

theorem Obeys.readPiece (who : Who) (va n : Nat) : Obeys cfg (Machine.readPiece who va n) := by
  unfold Machine.readPiece
  grind [Obeys.steps cfg, Obeys.elementPlaces, Obeys.transferBytes]

theorem Obeys.readM (who : Who) (va n : Nat) : Obeys cfg (Machine.readM who va n) := by
  unfold Machine.readM
  grind [Obeys.steps cfg, Obeys.collect, Obeys.readPiece]

theorem Obeys.readSuper (who : Who) (t : Tag) (base side : Nat) (q count : Nat) :
    Obeys cfg (Machine.readSuper who t base side q count) := by
  unfold Machine.readSuper
  grind [Obeys.steps cfg, Obeys.readM]

theorem Obeys.readLine (who : Who) (t : Tag) (k base side : Nat) : Obeys cfg (Machine.readLine who t k base side) := by
  unfold Machine.readLine
  grind [Obeys.steps cfg, Obeys.collect, Obeys.readSuper, Obeys.readM]

theorem Obeys.readLines (who : Who) (t : Tag) (k lines : Nat) (base stride side : Word) :
    Obeys cfg (Machine.readLines who t k lines base stride side) := by
  unfold Machine.readLines
  grind [Obeys.steps cfg, Obeys.stashOpen, Obeys.collect, Obeys.readLine]

theorem Obeys.tileFp32 (u : MatrixUnit) (t : BitVec 3) : Obeys cfg (Machine.tileFp32 u t) := by
  unfold Machine.tileFp32
  grind [Obeys.steps cfg]

theorem Obeys.mmovRow (i : Instr) (row : Word) : Obeys cfg (Machine.mmovRow i row) := by
  unfold Machine.mmovRow
  grind [Obeys.steps cfg, Obeys.feature, Obeys.heldUnit]

theorem Obeys.capturedMeaning (i : Instr) : Obeys cfg (Machine.capturedMeaning i) := by
  unfold Machine.capturedMeaning
  grind [Obeys.steps cfg, Obeys.vecInt, Obeys.vecCmp, Obeys.vecSel, Obeys.vecFloat, Obeys.vecFcmp, Obeys.vecFloat1]

theorem Obeys.capture (s : State) (k : Nat) : Obeys cfg (Machine.capture s k) := by
  unfold Machine.capture
  grind [Obeys.steps cfg, Obeys.collect, Obeys.fetchWord, Obeys.each]

theorem Obeys.rptIssue (i : Instr) (n k : Nat) : Obeys cfg (Machine.rptIssue i n k) := by
  unfold Machine.rptIssue
  grind [Obeys.steps cfg, Ctx.control, Obeys.feature, Obeys.capture]

@[simp] theorem applyHolding_config (s : State) : (applyHolding s).config = s.config := by
  have resized (k : Core) (n m : Nat) :
      ((s.setCore (coreOf s.cur) k).setMe { s.me.resize n with ceil := m, lowered := none }).config = s.config :=
    config_setMe (s := s.setCore (coreOf s.cur) k) (control_resize s.me n)
  exact resized _ _ _

theorem Obeys.sisectStep (d a b : BitVec 5) : Obeys cfg (Machine.sisectStep d a b) := by
  unfold Machine.sisectStep
  grind [Obeys.steps cfg, Ctx.control, Obeys.aligned, Obeys.loadVa, Obeys.afterScalar]

theorem Obeys.streamChecks (i : Instr) (formed : Bool) : Obeys cfg (Machine.streamChecks i formed) := by
  unfold Machine.streamChecks
  grind [Obeys.steps cfg, Obeys.feature]

theorem Obeys.loopEnd : Obeys cfg (Machine.loopEnd) := by
  unfold Machine.loopEnd
  grind [Obeys.steps cfg, Ctx.control]

theorem Obeys.storeLines (who : Who) (va : Nat) (bs : List Byte) (fuel : Nat) :
    Obeys cfg (Machine.storeLines who va bs fuel) := by
  induction fuel generalizing va bs with
  | zero => exact ret _
  | succ fuel ih =>
    unfold Machine.storeLines
    grind [Obeys.steps cfg, Obeys.locateBytes]

theorem Obeys.storeRecord (who : Who) (va : Nat) (bs : List Byte) : Obeys cfg (Machine.storeRecord who va bs) := by
  unfold Machine.storeRecord
  grind [Obeys.steps cfg, State.config, Obeys.storeLines, State.writeLocs_config]

theorem Obeys.smergeStep {put : Who → Nat → List Byte → M Unit} (hput : ∀ who va bs, Obeys cfg (put who va bs))
    (d a b : BitVec 5) : Obeys cfg (Machine.smergeStep put d a b) := by
  unfold Machine.smergeStep
  refine look.seq fun s => guarded (aligned _ _) (guarded (aligned _ _) ((aligned _ _).seq fun _ => ?_))
  grind [Obeys.steps cfg, Ctx.control, Obeys.loadVa, Obeys.afterScalar]

end

end Sys2Proof.Machine

namespace Sys2Proof.Machine

/-! ### Traps from task mode -/

/-- The context whose turn it is is in task mode. -/
def Setup.Tasked (cfg : Setup) : Prop := (cfg.ctx cfg.cur).mode = .task

/-- What a word in task mode may leave: the configuration as it was, or with the handler of the context entered (R252). -/
inductive Confined (cfg : Setup) : State → Prop
  | kept {t : State} (h : Under cfg t) : Confined cfg t
  | entered {t : State} {x : Ctx} (h : Under cfg t) (mode : x.mode = .supervisor) (tvec : x.tvec = (cfg.ctx cfg.cur).tvec)
      (pc : x.pc = (cfg.ctx cfg.cur).tvec) (handler : (cfg.ctx cfg.cur).tvec ≠ 0) : Confined cfg (t.setCtx cfg.cur x)

section
variable {cfg : Setup} {s t : State}

namespace Under

theorem ctx (h : Under cfg s) (c : Nat) : (s.ctx c).control = cfg.ctx c := by
  rw [← h]
  rfl

theorem mode (h : Under cfg s) (task : cfg.Tasked) : (s.ctx cfg.cur).mode = .task := (congrArg Control.mode (h.ctx _)).trans task

theorem tvec (h : Under cfg s) (c : Nat) : (s.ctx c).tvec = (cfg.ctx c).tvec := congrArg Control.tvec (h.ctx c)

theorem cur (h : Under cfg s) : s.cur = cfg.cur := by
  rw [← h]
  rfl

/-- The host stops a context: it keeps its mode and what belongs to it (R254). -/
theorem hostStop (h : Under cfg s) (task : cfg.Tasked) (cause : BitVec 10) (info w1 : Word) (r : FaultInfo) :
    Under cfg (s.hostStop cfg.cur cause info w1 r) := by
  have unfolded := Eq.refl State.hostStop
  conv at unfolded => rhs; delta State.hostStop
  simp only [unfolded]
  split
  · next e => exact h.putRecord task e
  · next e => exact (h.putRecord task e).of_config ((State.report_config _ _ _).trans (config_setCtx (by rfl)))

theorem takeTrap (h : Under cfg s) (task : cfg.Tasked) (cause : BitVec 10) (info w1 : Word) (r : FaultInfo)
    (async skip : Bool) : Confined cfg (s.takeTrap cfg.cur cause info w1 r async skip) := by
  have older : Under cfg (if skip then s else s.finishOlder cfg.cur) := by
    split
    exacts [h, h.of_config (by simp)]
  unfold State.takeTrap
  generalize (if skip then s else s.finishOlder cfg.cur) = u at older ⊢
  have recorded {t : State} {b : Bool}
      (e : (if writesRecord cause info then u.putRecord cfg.cur (faultRecord cause w1 r) else (u, true)) = (t, b)) :
      Under cfg t := by
    grind [Under.putRecord, Setup.Tasked]
  dsimp only
  split
  · exact .kept (older.hostStop task cause info w1 r)
  · next handled =>
    have handler : (cfg.ctx cfg.cur).tvec ≠ 0 := by
      simp only [older.mode task, older.tvec] at handled
      simpa using handled
    split
    · next e => exact .kept (recorded e)
    · next e => exact .entered (recorded e) rfl ((recorded e).tvec _) (older.tvec _) handler

theorem trapNow (h : Under cfg s) (task : cfg.Tasked) (cause : BitVec 10) (info : Word) (r : FaultInfo) :
    Confined cfg (s.trapNow cause info r) := by
  unfold State.trapNow
  rw [h.cur]
  exact h.takeTrap task _ _ _ _ _ _

theorem takeAsync (h : Under cfg s) (task : cfg.Tasked) : Confined cfg (s.takeAsync cfg.cur) := by
  unfold State.takeAsync
  dsimp only
  split
  · exact (h.of_config (config_setCtx (by rfl))).takeTrap task _ _ _ _ _ _
  · split
    · exact (h.of_config (config_setCtx (by rfl))).takeTrap task _ _ _ _ _ _
    · exact .kept h

end Under
end

/-- The registers that task mode writes are VCFG, MFMT and FFLAGS (R58). -/
theorem csrRefused_task_write {n : Nat} (h : csrRefused .task n true = none) : n = 0x001 ∨ n = 0x004 ∨ n = 0x005 := by
  have writable : csrClass n = some .rw := by
    unfold csrRefused at h
    cases e : csrClass n with
    | none => simp [e] at h
    | some c => cases c <;> simp_all
  unfold csrClass at writable
  grind

/-- What task mode writes into a register configures nothing. -/
theorem setCsr_config_of_task {s t : State} {n : Nat} {v : Word} (mode : s.me.mode = .task) (granted : csrRefused .task n true = none)
    (e : setCsr s n v = some t) : t.config = s.config := by
  have kept {x : Ctx} (h : x.control = s.me.control) : some (s.setMe x) = some t → t.config = s.config := fun e => by
    cases e
    exact config_setMe h
  obtain rfl | rfl | rfl := csrRefused_task_write granted
  · refine kept (x := { s.me with vcfg := (v.setWidth 7 &&& 0x70#7) ||| (s.me.vcfg &&& 0x0F#7) }) rfl ?_
    simpa [setCsr, pkgReg, dieReg, setCtxReg, mode] using e
  · refine kept (x := { s.me with mfmt := v.setWidth 10 }) rfl ?_
    by_cases reserved : slice v 8 2 = 3#2 ∨ 0x0B ≤ field v.toNat 0 5
    · simp [setCsr, pkgReg, dieReg, setCtxReg, reserved] at e
    · simpa [setCsr, pkgReg, dieReg, setCtxReg, reserved] using e
  · exact kept (x := { s.me with fflags := v.setWidth 5 }) rfl (by simpa [setCsr, pkgReg, dieReg, setCtxReg] using e)

/-- Nothing follows a trap. -/
theorem Obeys.halts {cfg : Setup} {α β : Type} (c : BitVec 10) (i : Word) (r : FaultInfo) (f : α → M β) : Obeys cfg (trapM c i r >>= f) :=
  still fun _ => rfl

/-- Under a configuration in which the context whose turn it is is in task mode, an answer leaves what is confined. -/
def Confines (cfg : Setup) (s : State) (o : Out) : Prop := Under cfg s → cfg.Tasked → ∃ t, o = .next t ∧ Confined cfg t

namespace Confines
variable {cfg : Setup} {s t : State} {o : Out}

theorem of_task (h : Under cfg s → cfg.Tasked → Confines cfg s o) : Confines cfg s o := fun hs task => h hs task hs task

theorem next (h : Under cfg s → Under cfg t) : Confines cfg s (.next t) := fun hs _ => ⟨t, rfl, .kept (h hs)⟩

/-- An answer with the configuration of the state. -/
theorem same (e : t.config = s.config) : Confines cfg s (.next t) := next fun h => h.of_config e

/-- An answer that changes the context whose turn it is. -/
theorem me {x : Ctx} (e : x.control = s.me.control) : Confines cfg s (.next (s.setMe x)) := same (config_setMe e)

/-- An answer from a state that has the configuration if the first has it. -/
theorem from_state (h : Under cfg s → Under cfg t) (ho : Confines cfg t o) : Confines cfg s o := fun hs => ho (h hs)

theorem trapNow (c : BitVec 10) (i : Word) (r : FaultInfo) : Confines cfg s (.next (s.trapNow c i r)) :=
  fun hs task => ⟨_, rfl, hs.trapNow task c i r⟩

theorem finishWith {m : M Unit} (hm : Obeys cfg m) (whole : Bool) : Confines cfg s (Machine.finishWith whole m s) := by
  unfold Machine.finishWith
  split
  · next e => exact next fun h => hm.ends e h
  · next e => exact from_state (fun h => hm.ends e h) (trapNow _ _ _)
  · exact same (by simp)
  · exact me (by rfl)

theorem finish {m : M Unit} (hm : Obeys cfg m) : Confines cfg s (Machine.finish m s) := finishWith hm true
theorem finishOpen {m : M Unit} (hm : Obeys cfg m) : Confines cfg s (Machine.finishOpen m s) := finishWith hm false
theorem complete {m : M Unit} (hm : Obeys cfg m) : Confines cfg s (Machine.complete m s) := finish (hm.seq fun _ => Obeys.nextM)

/-! The shapes that instructions share. -/

theorem writeReg (d : BitVec 5) (v : Word) : Confines cfg s (Machine.writeReg d v s) := me (control_setReg s.me d _)
theorem alu1 (f : Word → Word) (d a : BitVec 5) : Confines cfg s (Machine.alu1 f d a s) := me (control_setReg s.me d _)
theorem alu2 (f : Word → Word → Word) (d a b : BitVec 5) : Confines cfg s (Machine.alu2 f d a b s) := me (control_setReg s.me d _)
theorem writeFp (d : BitVec 5) (r : FpResult) : Confines cfg s (Machine.writeFp d r s) := me (control_setReg s.me d _)
theorem maskScalar (d : BitVec 5) (v : Nat) : Confines cfg s (Machine.maskScalar d v s) := me (control_setReg s.me d _)

theorem jumpTo (t : Word) {link : Ctx → Ctx} (h : ∀ x, (link x).control = x.control) : Confines cfg s (Machine.jumpTo t link s) := by
  unfold Machine.jumpTo
  split
  exacts [me (h s.me), trapNow _ _ _]

theorem branch (taken : Word → Word → Bool) (a b : BitVec 5) (i : BitVec 16) : Confines cfg s (Machine.branch taken a b i s) := by
  unfold Machine.branch
  split
  exacts [jumpTo _ fun _ => rfl, me (by rfl)]

theorem amo (d a : BitVec 5) (z : BitVec 1) (f : Nat → Nat × Nat) : Confines cfg s (Machine.amo d a z f s) :=
  complete ((Obeys.aligned _ _).seq fun _ => (Obeys.atomicVa _ _ _ _).seq fun _ => Obeys.afterScalar.seq fun _ =>
    Obeys.modifyMe fun x => control_setReg x _ _)

theorem post (i : Instr) (a b : BitVec 5) (z : BitVec 1) (ord : Bool) : Confines cfg s (Machine.post i a b z ord s) :=
  complete ((Obeys.feature _ _).seq fun _ => (Obeys.aligned _ _).seq fun _ => (Obeys.locate _ _ _).seq fun _ =>
    Obeys.guarded (Obeys.stop _) ((Obeys.choose _).seq fun _ => Obeys.modify fun t h => h.of_config (config_setMe (s := t) (by rfl))))

theorem csrAccess (i : Instr) (d : BitVec 5) (n : BitVec 10) (new : Option Word) :
    Confines cfg s (Machine.csrAccess i d n new s) := of_task fun hs task => by
  have mode : s.me.mode = .task := by
    rw [State.me, hs.cur]
    exact hs.mode task
  unfold Machine.csrAccess
  split
  · exact trapNow _ _ _
  · next granted =>
    split
    · exact trapNow _ _ _
    · next u e =>
      have written : u.config = s.config := by
        cases new with
        | none => cases e; rfl
        | some v => exact setCsr_config_of_task mode (by simpa [mode] using granted) e
      exact from_state (fun h => h.of_config written) (me (control_setReg u.me d _))

theorem stashOp (i : Instr) (inv : Bool) (a : BitVec 5) (l : BitVec 1) : Confines cfg s (Machine.stashOp i inv a l s) := by
  have close : Obeys cfg (modS fun t => t.closePins t.cur [.scalar, .vector]) := Obeys.modify fun _ h => h.of_config (by simp)
  refine complete ((Obeys.feature _ _).seq fun _ => Obeys.settleM.seq fun _ => Obeys.drainM.seq fun _ => ?_)
  dsimp only
  split
  · refine Obeys.guarded (Obeys.trap _ _ _) ?_
    split
    · exact (Obeys.flushPage _ _).seq fun _ => close
    · exact close
  · split
    · exact (Obeys.each (Obeys.flushPage _) _).seq fun _ => close
    · exact close

theorem vamo (i : Instr) (op : AtomOp) (d a b : BitVec 5) (m : BitVec 1) (r : BitVec 3) (ord q : BitVec 1) :
    Confines cfg s (Machine.vamo i op d a b m r ord q s) := by
  unfold Machine.vamo
  split
  · exact finishOpen ((Obeys.vamoChecks _ _ _ _ _ _).seq fun _ => Obeys.vamoOrdered _ _ _ _ _ _ _)
  · exact finish ((Obeys.vamoChecks _ _ _ _ _ _).seq fun _ => Obeys.vamoBatch _ _ _ _ _ _ _)

theorem smergeBy {put : Who → Nat → List Byte → M Unit} (hput : ∀ who va bs, Obeys cfg (put who va bs)) (d a b : BitVec 5) :
    Confines cfg s (Machine.smergeBy put d a b s) := by
  refine finish ((Obeys.streamChecks _ _).seq fun _ => ?_)
  split
  exacts [Obeys.loopEnd, Obeys.smergeStep hput _ _ _]

end Confines
end Sys2Proof.Machine

namespace Sys2Proof.Machine

/-- An RPT frame goes on to its next word, to its next iteration or past itself (R65). -/
theorem Obeys.rptMoves {cfg : Setup} (again next : Prop) [Decidable again] [Decidable next] (p q : Word) (k : Nat) : Obeys cfg (do
    if again then modMe fun c => { c with rptpos := p }
    else if next then modMe fun c => { c with rptpos := q }
    else modMe fun c => { c with rptpos := 0, rpt := [], pc := nextPc c.pc k, stall := [], busy := false }) := by
  split
  · exact modifyMe fun _ => by rfl
  · split <;> exact modifyMe fun _ => by rfl

namespace Confines
variable {cfg : Setup} {s : State}

theorem execFcmp (d a b : BitVec 5) (c : BitVec 3) (f : BitVec 1) : Confines cfg s (Machine.execFcmp d a b c f s) := writeFp _ _

theorem execLd (d a : BitVec 5) (o : BitVec 13) (w : BitVec 3) : Confines cfg s (Machine.execLd d a o w s) := by
  unfold Machine.execLd
  exact complete (by grind [Obeys.steps cfg, Obeys.aligned, Obeys.loadVa])

theorem execSt (d a : BitVec 5) (o : BitVec 13) (w : BitVec 2) : Confines cfg s (Machine.execSt d a o w s) := by
  unfold Machine.execSt
  exact complete (by grind [Obeys.steps cfg, Obeys.aligned, Obeys.writeVa, Obeys.afterScalar])

theorem execTrap (a : BitVec 5) (n : BitVec 6) : Confines cfg s (Machine.execTrap a n s) := fun hs task => by
  refine ⟨_, rfl, ?_⟩
  rw [hs.cur]
  exact hs.takeTrap task _ _ _ _ _ _

/-- In task mode ERET traps (R304). -/
theorem execEret : Confines cfg s (Machine.execEret s) := of_task fun hs task => by
  have mode : s.me.mode = .task := by
    rw [State.me, hs.cur]
    exact hs.mode task
  unfold Machine.execEret
  rw [if_pos (by simp [mode])]
  exact trapNow _ _ _

theorem execBrk (n : BitVec 10) : Confines cfg s (Machine.execBrk n s) := trapNow _ _ _

theorem execFence (p : BitVec 5) (sc : BitVec 3) : Confines cfg s (Machine.execFence p sc s) := by
  unfold Machine.execFence
  exact complete (by grind [Obeys.steps cfg, under_iff, State.closePins_config, Obeys.settleM, Obeys.drainM, Obeys.feature])

theorem execSvfence (f : BitVec 2) : Confines cfg s (Machine.execSvfence f s) := by
  unfold Machine.execSvfence
  exact complete (by grind [Obeys.steps cfg, under_iff, State.alignPins_config, Obeys.drainM, Obeys.settleM])

theorem execIfence : Confines cfg s (Machine.execIfence s) := by
  exact complete (Obeys.drainM.seq fun _ => (Obeys.modify fun _ h => h.of_config (by simp)).seq fun _ =>
    Obeys.modifyMe fun _ => by rfl)

/-- In task mode TLBINV traps (R351). -/
theorem execTlbinv (a : BitVec 5) (sc : BitVec 3) (l : BitVec 1) : Confines cfg s (Machine.execTlbinv a sc l s) :=
  of_task fun hs task => by
    have mode : (s.me.mode == .supervisor) = false := by
      rw [State.me, hs.cur, hs.mode task]
      rfl
    unfold Machine.execTlbinv
    rw [mode]
    exact complete (Obeys.halts _ _ _ _)

theorem execTspawn (a : BitVec 5) : Confines cfg s (Machine.execTspawn a s) := by
  unfold Machine.execTspawn
  exact complete (by grind [Obeys.steps cfg, Obeys.drainM, Obeys.enqueue, Obeys.afterScalar])

/-- In task mode TEND never abandons (R350). -/
theorem execTend : Confines cfg s (Machine.execTend s) := of_task fun hs task => by
  have mode : s.me.mode = .task := by
    rw [State.me, hs.cur]
    exact hs.mode task
  have older : Under cfg (s.finishOlder s.cur) := hs.of_config (by simp)
  unfold Machine.execTend
  rw [if_neg (by simp [mode])]
  generalize s.finishOlder s.cur = t at older
  dsimp only
  have ending (e : Bool) : Under cfg (t.setMe { t.me with ending := e }) := older.of_config (config_setMe (by rfl))
  split
  · exact next fun _ => ending true
  · split
    · have left : Under cfg ((t.setMe { t.me with ending := true }).setMe { (t.setMe { t.me with ending := true }).me with ending := false }) :=
        (ending true).of_config (config_setMe (by rfl))
      rw [(ending true).cur]
      exact fun _ _ => ⟨_, rfl, left.takeAsync task⟩
    · exact from_state (fun _ => ending true) (finish (Obeys.endTask task))

theorem execBarrive (d a b : BitVec 5) : Confines cfg s (Machine.execBarrive d a b s) := by
  unfold Machine.execBarrive
  exact complete (by grind [Obeys.steps cfg, Obeys.drainM, Obeys.updateObject, Obeys.afterScalar])

theorem execBarwait (d a b c : BitVec 5) : Confines cfg s (Machine.execBarwait d a b c s) :=
  from_state (fun h => h.of_config (config_setMe (s := s) (by rfl))) (finishOpen (Obeys.barwaitRead _ _ _ _ _ _))

theorem execHbar (a : BitVec 5) (sc : BitVec 3) : Confines cfg s (Machine.execHbar a sc s) := by
  unfold Machine.execHbar
  exact finishOpen (by grind [Obeys.steps cfg, Obeys.feature, Obeys.hbarReturn, Obeys.drainM, Obeys.hbarArrive])

theorem execRsort (d a b c : BitVec 5) : Confines cfg s (Machine.execRsort d a b c s) := by
  unfold Machine.execRsort
  exact complete (by grind [Obeys.steps cfg, Obeys.feature, Obeys.issueCommand])

theorem execSisect (d a b : BitVec 5) : Confines cfg s (Machine.execSisect d a b s) := by
  unfold Machine.execSisect
  exact finish (by grind [Obeys.steps cfg, Obeys.streamChecks, Obeys.loopEnd, Obeys.sisectStep])

theorem execSmerge (d a b : BitVec 5) : Confines cfg s (Machine.execSmerge d a b s) := smergeBy (Obeys.storeRecord) _ _ _

theorem execXbind (a : BitVec 5) (n : BitVec 4) : Confines cfg s (Machine.execXbind a n s) := by
  refine complete ((Obeys.feature _ _).seq fun _ => ?_)
  dsimp only
  split
  · split
    · exact (Obeys.modify fun _ h => h.of_config (by simp)).seq fun _ => Obeys.modifyMe fun _ => by rfl
    · exact Obeys.ret ()
  · refine Obeys.of_run fun t ht => ?_
    split
    · next e => exact (Obeys.bindGroup _ _).ends e ht
    · exact (Obeys.bindGroup _ _).after t ht

theorem execXsend (a b : BitVec 5) (n : BitVec 4) : Confines cfg s (Machine.execXsend a b n s) := by
  unfold Machine.execXsend
  exact complete
      (by grind [Obeys.steps cfg, Obeys.feature, Obeys.heldSlot, Obeys.exchangeAddr, Obeys.aligned, Obeys.enqueueSend,
        Obeys.awaitTable])

theorem execXsendM (a b : BitVec 5) (n : BitVec 4) : Confines cfg s (Machine.execXsendM a b n s) := by
  unfold Machine.execXsendM
  exact complete
      (by grind [Obeys.steps cfg, Obeys.feature, Obeys.heldSlot, Obeys.exchangeAddr, Obeys.aligned, Obeys.awaitTable,
        Obeys.enqueueSend])

theorem execXsendv (a b : BitVec 5) (n : BitVec 4) : Confines cfg s (Machine.execXsendv a b n s) := by
  refine finishOpen ((Obeys.feature _ _).seq fun _ => (Obeys.heldSlot _).seq fun p => ?_)
  dsimp only
  split
  · exact Obeys.trap _ _ _
  · refine (Obeys.xsendvForm _ _ _ _).seq fun _ => ?_
    split
    · exact Obeys.modifyMe fun _ => by rfl
    · refine Obeys.guarded (Obeys.stop _) ((Obeys.xsendvKeys _ _ _).seq fun _ => (Obeys.awaitTable _ _).seq fun _ =>
        (Obeys.elementTable _ _ _ _).seq fun _ => ?_)
      split
      · exact Obeys.stop _
      · refine (Obeys.modify fun _ h => h.of_config (by simp)).seq fun _ => Obeys.modifyMe fun x => ?_
        split <;> rfl

theorem execXend (n : BitVec 4) : Confines cfg s (Machine.execXend n s) := by
  unfold Machine.execXend
  exact complete (by grind [Obeys.steps cfg, Obeys.feature, Obeys.heldSlot, Obeys.enqueueSend])

theorem execXsplitRd (d a : BitVec 5) (n : BitVec 4) : Confines cfg s (Machine.execXsplitRd d a n s) := by
  unfold Machine.execXsplitRd
  exact complete (by grind [Obeys.steps cfg, Obeys.xsplitIssue, Obeys.readVa, Obeys.writeBytes, Obeys.xsplitFence])

theorem execXsplitIn (d a : BitVec 5) (n : BitVec 4) : Confines cfg s (Machine.execXsplitIn d a n s) := by
  have left (g : Group) (ch : Channel) (sp : List Word) (x : Channel) : Obeys cfg (do
      writeWords s.xWho (tableSlot g ch.pver + 8) sp
      writeBytes s.xWho g.gstat.toNat (groupBytes x)
      modS fun t => t.setChan n x
      modMe fun x => x.setReg d (ch.pver.setWidth 64)
      xsplitFence) :=
    (Obeys.writeWords _ _ _).seq fun _ => (Obeys.writeBytes _ _ _).seq fun _ =>
      (Obeys.modify fun _ h => h.of_config (by simp)).seq fun _ => (Obeys.modifyMe fun x => control_setReg x _ _).seq fun _ => Obeys.xsplitFence
  refine complete ((Obeys.xsplitIssue _ _ _).seq fun g => Obeys.look.seq fun t => (Obeys.check _ _ _).seq fun _ =>
    (Obeys.readVa _ _ _).seq fun w => (Obeys.check _ _ _).seq fun _ => (Obeys.readVa _ _ _).seq fun v =>
    (Obeys.check _ _ _).seq fun _ => (Obeys.locateBytes _ _ _ _).caught.seq fun r => ?_)
  dsimp only
  split
  · exact (Obeys.locateBytes _ _ _ _).seq fun _ => left _ _ _ _
  · exact left _ _ _ _

theorem execVsetl (d a : BitVec 5) (r : BitVec 1) (f w : BitVec 2) : Confines cfg s (Machine.execVsetl d a r f w s) := by
  have held : (if r = 1#1 then applyHolding s else s).config = s.config := by
    split
    exacts [applyHolding_config s, rfl]
  unfold Machine.execVsetl
  generalize (if r = 1#1 then applyHolding s else s) = t at held
  exact from_state (fun h => h.of_config held) (me (control_grant t.me d _ f w))

theorem execRpt {st : State} (n : BitVec 10) (k : BitVec 4) (s : BitVec 3) (x y z : BitVec 1) : Confines cfg st
    (Machine.execRpt n k s x y z st) := by
  refine finishOpen ((Obeys.rptIssue _ _ _).seq fun _ => Obeys.look.seq fun t => ?_)
  dsimp only
  split
  · exact (Obeys.trap _ _ _).seq fun _ => Obeys.rptMoves _ _ _ _ _
  · exact (Obeys.capturedMeaning _).seq fun _ => Obeys.rptMoves _ _ _ _ _

theorem execVslideUp (d a b : BitVec 5) (m : BitVec 1) (r : BitVec 3) : Confines cfg s (Machine.execVslideUp d a b m r s) :=
  complete (Obeys.vecMove _ _ _ _ _)

theorem execVslideDown (d a b : BitVec 5) (m : BitVec 1) (r : BitVec 3) : Confines cfg s (Machine.execVslideDown d a b m r s) :=
  complete (Obeys.vecMove _ _ _ _ _)

theorem execVperm (d a b : BitVec 5) (m : BitVec 1) (r : BitVec 3) : Confines cfg s (Machine.execVperm d a b m r s) := by
  unfold Machine.execVperm
  exact complete (by grind [Obeys.steps cfg, Obeys.tagWide, Obeys.tagInt, Obeys.vecMove])

theorem execVcompress (d a : BitVec 5) (r : BitVec 3) : Confines cfg s (Machine.execVcompress d a r s) := by
  unfold Machine.execVcompress
  exact complete (by grind [Obeys.steps cfg, Obeys.tagWide])

theorem execVexpand (d a : BitVec 5) (r : BitVec 3) : Confines cfg s (Machine.execVexpand d a r s) := by
  unfold Machine.execVexpand
  exact complete (by grind [Obeys.steps cfg, Obeys.tagWide])

theorem execMand (d a b : BitVec 5) : Confines cfg s (Machine.execMand d a b s) := by
  unfold Machine.execMand
  exact me (by rfl)

theorem execMor (d a b : BitVec 5) : Confines cfg s (Machine.execMor d a b s) := by
  unfold Machine.execMor
  exact me (by rfl)

theorem execMxor (d a b : BitVec 5) : Confines cfg s (Machine.execMxor d a b s) := by
  unfold Machine.execMxor
  exact me (by rfl)

theorem execMnot (d a : BitVec 5) : Confines cfg s (Machine.execMnot d a s) := by
  unfold Machine.execMnot
  exact me (by rfl)

theorem execMfirst (d a : BitVec 5) : Confines cfg s (Machine.execMfirst d a s) := maskScalar _ _

theorem execMbreak (d a : BitVec 5) : Confines cfg s (Machine.execMbreak d a s) := by
  unfold Machine.execMbreak
  exact me (by rfl)

theorem execVcvt (d a t : BitVec 5) (m : BitVec 1) (r : BitVec 3) : Confines cfg s (Machine.execVcvt d a t m r s) := by
  unfold Machine.execVcvt
  exact complete (by grind [Obeys.steps cfg, Obeys.tagIn, Obeys.cvtSb, Obeys.feature])

theorem execVmvS (d a : BitVec 5) (m : BitVec 1) (r : BitVec 3) : Confines cfg s (Machine.execVmvS d a m r s) := by
  unfold Machine.execVmvS
  exact me (by rfl)

theorem execVmvRaw (d a t : BitVec 5) : Confines cfg s (Machine.execVmvRaw d a t s) := by
  unfold Machine.execVmvRaw
  refine me ?_
  dsimp only
  split <;> rfl

theorem execVidx (d : BitVec 5) (m : BitVec 1) (r : BitVec 3) : Confines cfg s (Machine.execVidx d m r s) := by
  unfold Machine.execVidx
  exact me (by rfl)

theorem execVextr (d a b : BitVec 5) : Confines cfg s (Machine.execVextr d a b s) := by
  unfold Machine.execVextr
  exact complete (by grind [Obeys.steps cfg, Obeys.tagWide])

theorem execVins (d a b : BitVec 5) : Confines cfg s (Machine.execVins d a b s) := by
  refine complete ((Obeys.tagWide _).seq fun _ => Obeys.modifyMe fun x => ?_)
  dsimp only
  split <;> rfl

theorem execVsort (d a : BitVec 5) (m : BitVec 1) (r : BitVec 3) : Confines cfg s (Machine.execVsort d a m r s) := by
  unfold Machine.execVsort
  exact complete (by grind [Obeys.steps cfg, Obeys.feature, Obeys.tagInt])

theorem execVsortKv (d a b : BitVec 5) (m : BitVec 1) (r : BitVec 3) : Confines cfg s (Machine.execVsortKv d a b m r s) := by
  unfold Machine.execVsortKv
  exact complete (by grind [Obeys.steps cfg, Obeys.feature, Obeys.tagInt, Obeys.tagWide])

theorem execVld (d a b : BitVec 5) (m : BitVec 1) (r : BitVec 3) : Confines cfg s (Machine.execVld d a b m r s) := by
  unfold Machine.execVld
  exact complete (by grind [Obeys.steps cfg, Obeys.needSb, Obeys.sbLoad, Obeys.plainLoad])

theorem execVlds (d a b : BitVec 5) (m : BitVec 1) (r : BitVec 3) : Confines cfg s (Machine.execVlds d a b m r s) := by
  unfold Machine.execVlds
  exact complete (by grind [Obeys.steps cfg, Obeys.needSb, Obeys.plainLoad])

theorem execVldseg (d a : BitVec 5) (m : BitVec 1) (r f : BitVec 3) : Confines cfg s (Machine.execVldseg d a m r f s) := by
  unfold Machine.execVldseg
  exact complete (by grind [Obeys.steps cfg, Obeys.needSb, Obeys.plainLoad])

theorem execVldff (d a b : BitVec 5) (m : BitVec 1) (r : BitVec 3) : Confines cfg s (Machine.execVldff d a b m r s) := by
  refine complete ((Obeys.needSb _).seq fun _ => (Obeys.loadTagM _).seq fun _ => (Obeys.checkAddresses _ _ _ _ _).seq fun _ =>
    (Obeys.stashOpen _).seq fun _ => Obeys.drainM.seq fun _ => (Obeys.firstFaults _ _ _ _).seq fun ⟨done, stop⟩ => ?_)
  dsimp -zeta only
  extract_lets rest
  have hrest (u : PUnit) : Obeys cfg (rest u) := by
    refine (Obeys.collect (fun _ => (Obeys.readParts _ _).seq fun _ => Obeys.ret _) _).seq fun _ =>
      (Obeys.readUpTo _).seq fun _ => Obeys.modifyMe fun y => ?_
    dsimp only
    split <;> rfl
  split
  · split
    · exact (Obeys.modifyMe fun _ => by rfl).seq fun _ => (Obeys.trap _ _ _).seq hrest
    · exact hrest ⟨⟩
  · exact hrest ⟨⟩

theorem execVst (d a b : BitVec 5) (m : BitVec 1) (r : BitVec 3) : Confines cfg s (Machine.execVst d a b m r s) := by
  unfold Machine.execVst
  exact complete (by grind [Obeys.steps cfg, Obeys.needSb, Obeys.sbStore, Obeys.plainStore])

theorem execVsts (d a b : BitVec 5) (m : BitVec 1) (r : BitVec 3) : Confines cfg s (Machine.execVsts d a b m r s) := by
  unfold Machine.execVsts
  exact complete (by grind [Obeys.steps cfg, Obeys.needSb, Obeys.plainStore])

theorem execVstseg (d a : BitVec 5) (m : BitVec 1) (r f : BitVec 3) : Confines cfg s (Machine.execVstseg d a m r f s) := by
  unfold Machine.execVstseg
  exact complete (by grind [Obeys.steps cfg, Obeys.needSb, Obeys.plainStore])

theorem execVstq (d a b : BitVec 5) (m : BitVec 1) (r : BitVec 3) : Confines cfg s (Machine.execVstq d a b m r s) :=
  complete ((Obeys.feature _ _).seq fun _ => (Obeys.check _ _ _).seq fun _ => (Obeys.check _ _ _).seq fun _ =>
    (Obeys.tagIn _ _ _).seq fun _ => (Obeys.check _ _ _).seq fun _ => (Obeys.sbBases _ _ _).seq fun _ =>
    (Obeys.stashOpen _).seq fun _ => (Obeys.each (Obeys.storeSuper _ _ _ _ _ _ _ _) _).seq fun _ => Obeys.modifyMe fun _ => by rfl)

theorem execVldx (d a b : BitVec 5) (m : BitVec 1) (r : BitVec 3) (w : BitVec 2) : Confines cfg s (Machine.execVldx d a b m r w s) := by
  unfold Machine.execVldx
  exact complete
      (by grind [Obeys.steps cfg, Obeys.needSb, Obeys.loadTagM, Obeys.indexFits, Obeys.tagIs, Obeys.indexRange,
        Obeys.alignedAll, Obeys.loadBatch])

theorem execVstx (d a b : BitVec 5) (m : BitVec 1) (r : BitVec 3) (w : BitVec 2) : Confines cfg s (Machine.execVstx d a b m r w s) := by
  unfold Machine.execVstx
  exact complete (by grind [Obeys.steps cfg, Obeys.scatterChecks, Obeys.storeBatch])

theorem execVstxOrd (d a b : BitVec 5) (m : BitVec 1) (r : BitVec 3) (w : BitVec 2) : Confines cfg s
    (Machine.execVstxOrd d a b m r w s) := by
  exact finishOpen ((Obeys.scatterChecks _ _ _ _ _ _).seq fun _ => Obeys.look.seq fun _ => (Obeys.stashOpen _).seq fun _ =>
    Obeys.look.seq fun _ => (Obeys.orderedPass _ _ _ (fun _ _ => (Obeys.queueStore _ _ _ _).seq fun _ => Obeys.ret _) _ _ _).seq fun _ =>
    (Obeys.modifyMe fun _ => by rfl).seq fun _ => Obeys.endOrdered _)

theorem execVwait (d a b : BitVec 5) (m : BitVec 1) (r c : BitVec 3) : Confines cfg s (Machine.execVwait d a b m r c s) :=
  from_state (fun h => h.of_config (config_setMe (s := s) (by rfl))) (finishOpen (Obeys.vwaitRound _ _ _ _ _ _ _ _))

theorem execMshape (d a : BitVec 5) (f : BitVec 3) : Confines cfg s (Machine.execMshape d a f s) := by
  unfold Machine.execMshape
  exact complete (by grind [Obeys.steps cfg, Obeys.matFeatures, Obeys.modUnit])

theorem execMzero (t : BitVec 3) : Confines cfg s (Machine.execMzero t s) := by
  unfold Machine.execMzero
  exact complete (by grind [Obeys.steps cfg, Obeys.feature, Obeys.heldUnit, Obeys.modUnit])

theorem execMldb (d a b : BitVec 5) (u : BitVec 1) (f : BitVec 3) : Confines cfg s (Machine.execMldb d a b u f s) := by
  unfold Machine.execMldb
  exact complete
      (by grind [Obeys.steps cfg, Obeys.matFeatures, Obeys.heldUnit, Obeys.operandAligned, Obeys.readLines, Obeys.modUnit])

theorem execMma (d a b : BitVec 5) (t : BitVec 3) (u : BitVec 1) (f : BitVec 3) : Confines cfg s (Machine.execMma d a b t u f s) :=
  complete ((Obeys.matFeatures _ _).seq fun _ => (Obeys.heldUnit _).seq fun _ => (Obeys.operandAligned _ _ _ _).seq fun _ =>
    (Obeys.check _ _ _).seq fun _ => (Obeys.check _ _ _).seq fun _ => (Obeys.tileFp32 _ _).seq fun _ =>
    (Obeys.check _ _ _).seq fun _ => (Obeys.readLines _ _ _ _ _ _ _).seq fun _ => (Obeys.modUnit _).seq fun _ =>
    Obeys.modifyMe fun _ => by rfl)

theorem execMst (d a : BitVec 5) (t : BitVec 3) : Confines cfg s (Machine.execMst d a t s) := by
  refine complete ((Obeys.feature _ _).seq fun _ => (Obeys.heldUnit _).seq fun _ => (Obeys.tileFp32 _ _).seq fun _ =>
    (Obeys.aligned _ _).seq fun _ => (Obeys.aligned _ _).seq fun _ => (Obeys.stashOpen _).seq fun _ =>
    (Obeys.batchPass _ _ _ _ fun e ls => Obeys.queueStore _ _ _ _).seq fun p => ?_)
  split
  · exact Obeys.ret ()
  · have left (u : State) (st k : Nat) : (u.setMe (u.me.someOf st k)).config = u.config := config_setMe (by rfl)
    refine (Obeys.modify fun u h => ?_).seq fun _ => Obeys.trap _ _ _
    exact h.of_config (left u _ _)

theorem execMmovTo (d a : BitVec 5) (t : BitVec 3) : Confines cfg s (Machine.execMmovTo d a t s) := by
  unfold Machine.execMmovTo
  exact complete (by grind [Obeys.steps cfg, Obeys.mmovRow, Obeys.tileFp32])

theorem execMmovFrom (d a : BitVec 5) (t : BitVec 3) : Confines cfg s (Machine.execMmovFrom d a t s) := by
  exact complete ((Obeys.mmovRow _ _).seq fun _ => (Obeys.tagIs _ _).seq fun _ => Obeys.look.seq fun _ => (Obeys.modUnit _).seq fun _ =>
    Obeys.modifyMe fun _ => by rfl)


end Confines

end Sys2Proof.Machine

namespace Sys2Proof.Machine

namespace Confines
variable {cfg : Setup}

/-- Every instruction word in task mode leaves what is confined. -/
theorem exec_confines {i : Instr} (word : i.legal = true) (s : State) : Confines cfg s (exec i s) := by
  delta exec
  cases i with
  | add | sub | mul | mulh | mulhu | div | divu | rem | remu | and | andn | or | xor | sll | srl | sra | slt | sltu | min
  | max | minu | maxu => exact alu2 _ _ _ _
  | clz | ctz | popc | sextB | sextH | sextW | zextB | zextH | zextW => exact alu1 _ _ _
  | csel => exact writeReg _ _
  | addImm | andImm | orImm | xorImm | sltImm | sltuImm | lih => exact alu1 _ _ _
  | addpc => exact writeReg _ _
  | fadd | fsub | fmul | fdiv | fsqrt | fma | fmin | fmax => exact writeFp _ _
  | fcmp => exact execFcmp _ _ _ _ _
  | fcvt => exact writeFp _ _
  | fmvx => exact writeReg _ _
  | ld => exact execLd _ _ _ _
  | st => exact execSt _ _ _ _
  | amoAdd | amoAnd | amoOr | amoXor | amoSmin | amoSmax | amoUmin | amoUmax | amoSwap | amoFmax | amoAddb
  | cas => exact amo _ _ _ _
  | pst | pstOrd => exact post _ _ _ _ _
  | beq | bne | blt | bge | bltu | bgeu => exact branch _ _ _ _
  | jal | jalr => exact jumpTo _ fun x => control_setReg x _ _
  | csrr | csrw | csrset | csrclr => exact csrAccess _ _ _ _
  | trap => exact execTrap _ _
  | eret => exact execEret
  | brk => exact execBrk _
  | fence => exact execFence _ _
  | svfence => exact execSvfence _
  | ifence => exact execIfence
  | tlbinv => exact execTlbinv _ _ _
  | stflush | stinv => exact stashOp _ _ _ _
  | tspawn => exact execTspawn _
  | tend => exact execTend
  | tself => exact writeReg _ _
  | barrive => exact execBarrive _ _ _
  | barwait => exact execBarwait _ _ _ _
  | hbar => exact execHbar _ _
  | cpy | cpy2 | cpyxG | cpyxS => exact complete (Obeys.issueCommand _ _ _ _ _)
  | rsort => exact execRsort _ _ _ _
  | sisect => exact execSisect _ _ _
  | smerge => exact execSmerge _ _ _
  | xbind => exact execXbind _ _
  | xsend => exact execXsend _ _ _
  | xsendM => exact execXsendM _ _ _
  | xsendv => exact execXsendv _ _ _
  | xend => exact execXend _
  | xsplitRd => exact execXsplitRd _ _ _
  | xsplitIn => exact execXsplitIn _ _ _
  | vsetl => exact execVsetl _ _ _ _ _
  | rpt => exact execRpt _ _ _ _ _ _
  | vadd | vsub | vmul | vmulh | vmulhU | vmin | vminU | vmax | vmaxU | vand | vor | vxor | vsll | vsrl
  | vsra => exact complete (Obeys.vecInt _ _ _ _ _ _)
  | vcmpEq | vcmpNe | vcmpLt | vcmpLtu | vcmpLe | vcmpLeu => exact complete (Obeys.vecCmp _ _ _ _ _ _)
  | vsel => exact complete (Obeys.vecSel _ _ _ _)
  | vaddVs | vsubVs | vmulVs | vmulhVs | vmulhUVs | vminVs | vminUVs | vmaxVs | vmaxUVs | vandVs | vorVs | vxorVs
  | vsllVs | vsrlVs | vsraVs => exact complete (Obeys.vecInt _ _ _ _ _ _)
  | vcmpEqVs | vcmpNeVs | vcmpLtVs | vcmpLtuVs | vcmpLeVs | vcmpLeuVs => exact complete (Obeys.vecCmp _ _ _ _ _ _)
  | vselVs => exact complete (Obeys.vecSel _ _ _ _)
  | vfadd | vfsub | vfmul | vfma | vfdiv => exact complete (Obeys.vecFloat _ _ _ _ _ _ _)
  | vfsqrt => exact complete (Obeys.vecFloat1 _ _ _ _ _ _)
  | vfmin | vfmax => exact complete (Obeys.vecFloat _ _ _ _ _ _ _)
  | vfexp2 | vfrsqrt => exact complete (Obeys.vecFloat1 _ _ _ _ _ _)
  | vfcmpEq | vfcmpLt | vfcmpLe | vfcmpUn => exact complete (Obeys.vecFcmp _ _ _ _ _ _ _)
  | vfaddVs | vfsubVs | vfmulVs | vfmaVs | vfdivVs | vfminVs | vfmaxVs => exact complete (Obeys.vecFloat _ _ _ _ _ _ _)
  | vfcmpEqVs | vfcmpLtVs | vfcmpLeVs | vfcmpUnVs => exact complete (Obeys.vecFcmp _ _ _ _ _ _ _)
  | vredAdd | vredAnd | vredOr | vredXor | vredMin | vredMax | vredMinu | vredMaxu => exact complete (Obeys.vecRed _ _ _ _ _)
  | vfredAdd => exact complete (Obeys.vecFredAdd _ _ _ _ _)
  | vfredMin | vfredMax => exact complete (Obeys.vecFredMinMax _ _ _ _ _ _)
  | vslideUp => exact execVslideUp _ _ _ _ _
  | vslideDown => exact execVslideDown _ _ _ _ _
  | vperm => exact execVperm _ _ _ _ _
  | vcompress => exact execVcompress _ _ _
  | vexpand => exact execVexpand _ _ _
  | mand => exact execMand _ _ _
  | mor => exact execMor _ _ _
  | mxor => exact execMxor _ _ _
  | mnot => exact execMnot _ _
  | mpop => exact maskScalar _ _
  | mfirst => exact execMfirst _ _
  | mbreak => exact execMbreak _ _
  | vcvt => exact execVcvt _ _ _ _ _
  | vmvV => exact complete (Obeys.vecMove _ _ _ _ _)
  | vmvS => exact execVmvS _ _ _ _
  | vmvRaw => exact execVmvRaw _ _ _
  | vidx => exact execVidx _ _ _
  | vextr => exact execVextr _ _ _
  | vins => exact execVins _ _ _
  | vsort => exact execVsort _ _ _ _
  | vsortKv => exact execVsortKv _ _ _ _ _
  | vld => exact execVld _ _ _ _ _
  | vlds => exact execVlds _ _ _ _ _
  | vldseg => exact execVldseg _ _ _ _ _
  | vldff => exact execVldff _ _ _ _ _
  | vst => exact execVst _ _ _ _ _
  | vsts => exact execVsts _ _ _ _ _
  | vstseg => exact execVstseg _ _ _ _ _
  | vstq => exact execVstq _ _ _ _ _
  | vldx => exact execVldx _ _ _ _ _ _
  | vstx => exact execVstx _ _ _ _ _ _
  | vstxOrd => exact execVstxOrd _ _ _ _ _ _
  | vamoAdd | vamoAnd | vamoOr | vamoXor | vamoSmin | vamoSmax | vamoUmin | vamoUmax | vamoSwap | vamoFmax
  | vamoAddb => exact vamo _ _ _ _ _ _ _ _ _
  | vwait => exact execVwait _ _ _ _ _ _
  | mshape => exact execMshape _ _ _
  | mzero => exact execMzero _
  | mldb => exact execMldb _ _ _ _ _
  | mma => exact execMma _ _ _ _ _ _
  | mst => exact execMst _ _ _
  | mmovTo => exact execMmovTo _ _ _
  | mmovFrom => exact execMmovFrom _ _ _
  | entrySelection | lookAhead | preemption | fullSwitch | reclaimFallback | taskBudgetExceeded | trapEntry
  | pageTableWalk | walkStalled | sptEntryBusyTimeout | stashFill | stashLineFill | pull | copyCountStep
  | commandCompletionArrival | engineFault | postedStorePerform | postedStoreAcknowledgement
  | sendPortHandover | mergePointForward | recordDelivery | consumedPoll | roundCompletion | deliveryRetry
  | sieveClose | channelWatchdog | barwaitLimitExpiry | vwaitLimitExpiry | containment | linePoisoning
  | softErrorCorrection | linkFailure | linkTraining | eventEntryWrite | powerControlPeriod | thermalThrottle
  | thermalShutdown | firmwareVerification | firmwareLoad | spdmRequest | ideKm | lockInterface
  | startInterface | stopInterface | ideIntegrityFailure | hostMemoryAccess | hostRegisterWrite | hostResume
  | hostAbandon | hspawn | pkgcfg | evbase | evsize | evhead | dieReset | commandCompletion
  | pciExpressPortTraining | linkRekeying => exact absurd word Bool.false_ne_true

end Confines

/-- A word that decodes stands for a legal instruction (R73). -/
theorem legal_of_decode {w : BitVec 32} {i : Instr} (h : decode w = .ok i) : i.legal = true := by
  unfold decode at h
  grind

section
variable {s t : State}

theorem pkg_of_settings {p : Nat} (h : (t.pkg p).settings = (s.pkg p).settings) : t.pkg p = { s.pkg p with events := (t.pkg p).events } := by
  have back (x : Pkg) : x = { x.settings with events := x.events } := rfl
  rw [back (t.pkg p), h]
  rfl

theorem die_of_settings {d : Nat} (h : (t.die d).settings = (s.die d).settings) : t.die d = { s.die d with
    nextSeq := (t.die d).nextSeq, queued := (t.die d).queued, tails := (t.die d).tails, heads := (t.die d).heads
    areas := (t.die d).areas, corrupted := (t.die d).corrupted, stopped := (t.die d).stopped } := by
  have back (x : Die) : x = { x.settings with
    nextSeq := x.nextSeq, queued := x.queued, tails := x.tails, heads := x.heads
    areas := x.areas, corrupted := x.corrupted, stopped := x.stopped } := rfl
  rw [back (t.die d), h]
  rfl

end

/-- Settles O29: every word's effect is a sequence of moves that keep the configuration, and a trap enters the handler. -/
theorem taskModeCannotConfigure : Obligations.TaskModeCannotConfigure := by
  unfold Obligations.TaskModeCannotConfigure
  intro w i s t decoded task ran
  obtain ⟨u, answer, confined⟩ := Confines.exec_confines (cfg := s.config) (legal_of_decode decoded) s rfl task
  cases ran.symm.trans answer
  have same {u : State} (h : Under s.config u) : u.config = s.config := h
  have settings {u : State} (h : Under s.config u) :
      (∀ p, (u.pkg p).settings = (s.pkg p).settings) ∧ ∀ d, (u.die d).settings = (s.die d).settings :=
    ⟨fun p => congrArg (·.pkg p) (same h), fun d => congrArg (·.die d) (same h)⟩
  cases confined with
  | kept h =>
    have control : t.me.control = s.me.control := by
      rw [State.me, h.cur]
      exact h.ctx _
    simp only [Ctx.control, Control.mk.injEq] at control
    obtain ⟨mode, -, tepc, cause, tinfo, tscratch⟩ := control
    refine ⟨fun p => pkg_of_settings ((settings h).1 p), fun d => die_of_settings ((settings h).2 d),
      fun c => ⟨h.tvec c, fun _ => congrArg Control.mode (h.ctx c)⟩, fun super => ?_, fun _ => ⟨tepc, cause, tinfo, tscratch⟩⟩
    rw [mode, task] at super
    cases super
  | @entered u x h mode tvec pc handler =>
    have me : (u.setCtx s.cur x).me = x := by
      have turn : u.cur = s.cur := h.cur
      rw [State.me, show (u.setCtx s.cur x).cur = u.cur from rfl, turn, ctx_setCtx_same]
    refine ⟨fun p => pkg_of_settings ((settings h).1 p), fun d => die_of_settings ((settings h).2 d), fun c => ?_, fun _ => ?_, fun still => ?_⟩
    · by_cases own : c = s.cur
      · subst own
        rw [show (u.setCtx s.config.cur x).ctx s.cur = x from ctx_setCtx_same u s.cur x]
        exact ⟨tvec, fun other => absurd rfl other⟩
      · rw [show (u.setCtx s.config.cur x).ctx c = u.ctx c from ctx_setCtx_other u s.cur c x own]
        exact ⟨h.tvec c, fun _ => congrArg Control.mode (h.ctx c)⟩
    · rw [show (u.setCtx s.config.cur x).me = x from me]
      exact ⟨pc, handler⟩
    · rw [show (u.setCtx s.config.cur x).me = x from me, mode] at still
      cases still

end Sys2Proof.Machine

/-! ## Control registers and the privileged instructions -/

namespace Sys2Proof.Machine

open Sys2Proof.Claims

/-! ### The classes of the registers (R59) -/

theorem csrClass_readOnly {m : Nat} (h : (0x020 ≤ m ∧ m ≤ 0x023) ∨ (0x030 ≤ m ∧ m ≤ 0x033) ∨ m = 0x080 ∨ m = 0x081 ∨ (0x090 ≤ m ∧ m ≤ 0x094)) :
    csrClass m = some .ro := by
  unfold csrClass
  split <;> grind

theorem csrClass_supervisor {m : Nat} (h : (0x040 ≤ m ∧ m ≤ 0x045) ∨ m = 0x083 ∨ m = 0x0C1 ∨ m = 0x0C2 ∨ m = 0x0C5 ∨ m = 0x0C6) :
    csrClass m = some .s := by
  unfold csrClass
  split <;> grind

theorem csrClass_software {m : Nat} (h : m = 0x000 ∨ m = 0x002 ∨ m = 0x006 ∨ (0x010 ≤ m ∧ m ≤ 0x01F) ∨ m = 0x034 ∨ m = 0x082 ∨
    m = 0x084 ∨ m = 0x085 ∨ m = 0x0C0 ∨ m = 0x0C3 ∨ m = 0x0C4) : csrClass m = some .sw := by
  unfold csrClass
  split <;> grind

/-- A number in none of the ranges of R59 names no register. -/
theorem csrClass_unassigned {m : Nat}
    (ro : ¬((0x020 ≤ m ∧ m ≤ 0x023) ∨ (0x030 ≤ m ∧ m ≤ 0x033) ∨ m = 0x080 ∨ m = 0x081 ∨ (0x090 ≤ m ∧ m ≤ 0x094)))
    (super : ¬((0x040 ≤ m ∧ m ≤ 0x045) ∨ m = 0x083 ∨ m = 0x0C1 ∨ m = 0x0C2 ∨ m = 0x0C5 ∨ m = 0x0C6))
    (sw : ¬(m = 0x000 ∨ m = 0x002 ∨ m = 0x006 ∨ (0x010 ≤ m ∧ m ≤ 0x01F) ∨ m = 0x034 ∨ m = 0x082 ∨ m = 0x084 ∨
      m = 0x085 ∨ m = 0x0C0 ∨ m = 0x0C3 ∨ m = 0x0C4)) (rw : ¬(m = 0x001 ∨ m = 0x004 ∨ m = 0x005)) : csrClass m = none := by
  unfold csrClass
  split <;> grind

/-! ### Refused accesses -/

theorem csrRefused_unassigned {n : Nat} (h : csrClass n = none) (mode : Mode) (writes : Bool) : csrRefused mode n writes = some 0x001 := by
  simp [csrRefused, h]

theorem csrRefused_readOnly {n : Nat} (h : csrClass n = some .ro) (mode : Mode) : csrRefused mode n true = some 0x001 := by
  simp [csrRefused, h]

theorem csrRefused_software {n : Nat} (h : csrClass n = some .sw) : csrRefused .task n true = some 0x003 := by
  simp [csrRefused, h]

theorem csrRefused_supervisor {n : Nat} (h : csrClass n = some .s) (writes : Bool) : csrRefused .task n writes = some 0x003 := by
  simp [csrRefused, h]

/-- An access that R58 refuses raises the cause with the word. -/
theorem csrAccess_refused {i : Instr} {d : BitVec 5} {n : BitVec 10} {new : Option Word} {s : State} {cause : BitVec 10}
    (h : csrRefused s.me.mode n.toNat new.isSome = some cause) :
    csrAccess i d n new s = .next (s.trapNow cause (instrWord i) noInfo) := by
  simp [csrAccess, h]

section
variable {d a : BitVec 5} {n : BitVec 10} {s : State} {cause : BitVec 10}

/-- A refused read: CSRR, and CSRSET and CSRCLR with source s0, which only read. -/
theorem csr_read_refused (h : csrRefused s.me.mode n.toNat false = some cause) :
    ∀ i ∈ ([.csrr d n, .csrset d 0 n, .csrclr d 0 n] : List Instr), Traps i s cause ((encode i).setWidth 64) := by
  simp only [List.mem_cons, List.not_mem_nil, or_false, forall_eq_or_imp, forall_eq]
  exact ⟨csrAccess_refused h, csrAccess_refused h, csrAccess_refused h⟩

/-- A refused write: CSRW, and CSRSET and CSRCLR with another source than s0. -/
theorem csr_write_refused (h : csrRefused s.me.mode n.toNat true = some cause) :
    ∀ i ∈ (.csrw d a n :: if a = 0 then [] else [.csrset d a n, .csrclr d a n] : List Instr), Traps i s cause ((encode i).setWidth 64) := by
  have direct : Traps (.csrw d a n) s cause ((encode (.csrw d a n)).setWidth 64) := csrAccess_refused h
  by_cases zero : a = 0
  · simpa [zero] using direct
  · have writes (v : Word) : (if a = 0#5 then none else some v).isSome = true := by rw [if_neg (show ¬a = 0#5 from zero)]; rfl
    simp only [if_neg zero, List.mem_cons, List.not_mem_nil, or_false, forall_eq_or_imp, forall_eq]
    exact ⟨direct, csrAccess_refused (by rwa [writes]), csrAccess_refused (by rwa [writes])⟩

end

/-- ERET in task mode (R304). -/
theorem eret_task {s : State} (task : s.me.mode = .task) : Traps .eret s 0x003 ((encode .eret).setWidth 64) := by
  show execEret s = _
  rw [execEret, if_pos (by simp [task])]
  rfl

/-- TLBINV in task mode (R351). -/
theorem tlbinv_task {s : State} (task : s.me.mode = .task) (a : BitVec 5) (k : BitVec 3) (l : BitVec 1) :
    Traps (.tlbinv a k l) s 0x003 ((encode (.tlbinv a k l)).setWidth 64) := by
  show execTlbinv a k l s = _
  have mode : (s.me.mode == .supervisor) = false := by
    rw [task]
    rfl
  rw [execTlbinv, mode]
  exact complete_trap (by simp [instrWord])

/-- Settles O24: the class of a number decides whether an access is refused, and with which cause. -/
theorem privilegeChecks : Obligations.PrivilegeChecks := by
  unfold Obligations.PrivilegeChecks
  intro d a n k l s R reads writes m readOnly supervisor software free
  refine ⟨fun task => ⟨eret_task task, tlbinv_task task a k l, fun super i hi => ?_, fun sw => ?_⟩, fun ro => ?_,
    fun ⟨ro, super, sw, rw⟩ i hi => ?_⟩
  · have refused (b : Bool) : csrRefused s.me.mode n.toNat b = some 0x003 := task ▸ csrRefused_supervisor (csrClass_supervisor super) b
    exact (List.mem_append.1 hi).elim (csr_read_refused (refused false) i) (csr_write_refused (refused true) i)
  · exact csr_write_refused (task ▸ csrRefused_software (csrClass_software sw))
  · exact csr_write_refused (csrRefused_readOnly (csrClass_readOnly ro) _)
  · have refused (b : Bool) : csrRefused s.me.mode n.toNat b = some 0x001 := csrRefused_unassigned (csrClass_unassigned ro super sw rw) _ b
    exact (List.mem_append.1 hi).elim (csr_read_refused (refused false) i) (csr_write_refused (refused true) i)

end Sys2Proof.Machine

/-! ## What a write of a control register leaves -/

namespace Sys2Proof.Machine

/-! ### Bits of a word -/

/-- A register of `k` bits keeps the low `k` bits of the word written. -/
theorem low_bits (v : Word) (k : Nat) : (v.setWidth k).setWidth 64 = v &&& BitVec.ofNat 64 (2 ^ k - 1) := by
  refine BitVec.eq_of_getLsbD_eq fun i hi => ?_
  rw [BitVec.getLsbD_and, BitVec.getLsbD_ofNat, Nat.testBit_two_pow_sub_one]
  simp [hi, Bool.and_comm]

/-- A bit of a replaced field is the new value's, and outside the field the old word's. -/
theorem getLsbD_splice {n : Nat} (x : BitVec n) (lo len v i : Nat) (hi : i < n) :
    (splice x lo len v).getLsbD i = if lo ≤ i ∧ i < lo + len then v.testBit (i - lo) else x.getLsbD i := by
  have inside : (BitVec.ofNat n (2 ^ len - 1) <<< lo).getLsbD i = decide (lo ≤ i ∧ i < lo + len) := by
    rw [BitVec.getLsbD_shiftLeft, BitVec.getLsbD_ofNat, Nat.testBit_two_pow_sub_one]
    by_cases h : lo ≤ i
    · simp [hi, h, show i - lo < n by omega, show ¬i < lo by omega, show (i - lo < len) = (i < lo + len) by grind]
    · simp [h, show i < lo by omega]
  unfold splice
  simp only [BitVec.getLsbD_or, BitVec.getLsbD_and, BitVec.getLsbD_not, inside, BitVec.getLsbD_shiftLeft, BitVec.getLsbD_ofNat]
  split
  · simp [*, show ¬i < lo by omega, show i - lo < n by omega]
  · simp [*]

/-- A field reads as it was written. -/
theorem slice_splice_same {n : Nat} (x : BitVec n) (lo len : Nat) (v : BitVec len) (h : lo + len ≤ n) :
    slice (splice x lo len v.toNat) lo len = v := by
  refine BitVec.eq_of_getLsbD_eq fun i hi => ?_
  rw [slice, BitVec.getLsbD_extractLsb', getLsbD_splice _ _ _ _ _ (by omega)]
  simp [hi, BitVec.testBit_toNat]

/-- A field that does not overlap the one written keeps its bits. -/
theorem slice_splice_other {n : Nat} (x : BitVec n) (lo len v lo' len' : Nat) (apart : lo' + len' ≤ lo ∨ lo + len ≤ lo') :
    slice (splice x lo len v) lo' len' = slice x lo' len' := by
  refine BitVec.eq_of_getLsbD_eq fun i hi => ?_
  simp only [slice, BitVec.getLsbD_extractLsb']
  by_cases inside : lo' + i < n
  · rw [getLsbD_splice _ _ _ _ _ inside, if_neg (by omega)]
  · rw [BitVec.getLsbD_of_ge _ _ (by omega), BitVec.getLsbD_of_ge _ _ (by omega)]

/-! ### A write changes one register only -/

theorem pkgReg_setPkgReg_other (p : Pkg) (v : Word) {n k : Nat} (h : k ≠ n) : pkgReg (setPkgReg p n v) k = pkgReg p k := by
  unfold setPkgReg
  split <;> (unfold pkgReg; split <;> trivial)

theorem dieReg_setDieReg_other {d d' : Die} {v : Word} {n k : Nat} (h : k ≠ n) (e : setDieReg d n v = some d') :
    dieReg d' k = dieReg d k := by
  unfold setDieReg at e
  split at e
  case h_3 =>
    dsimp only at e
    split at e <;> cases e
    unfold dieReg
    split <;> trivial
  all_goals
    cases e
    unfold dieReg
    split <;> trivial

theorem ctxReg_setCtxReg_other {x y : Ctx} {v : Word} {n k : Nat} (h : k ≠ n) (e : setCtxReg x n v = some y) :
    ctxReg y k = ctxReg x k := by
  unfold setCtxReg at e
  split at e
  case h_2 =>
    obtain ⟨w, rfl⟩ : ∃ w, y = { x with vcfg := w } := by grind
    unfold ctxReg
    split <;> trivial
  case h_4 =>
    obtain ⟨w, rfl⟩ : ∃ w, y = { x with mfmt := w } := by grind
    unfold ctxReg
    split <;> trivial
  case h_12 =>
    split at e
    · next range =>
      cases e
      unfold ctxReg
      split <;> try rfl
      split
      · exact slice_splice_other _ _ _ _ _ _ (by grind)
      · rfl
    · cases e
      rfl
  all_goals
    cases e
    unfold ctxReg
    split <;> trivial

theorem number_setPkgReg (p : Pkg) (n : Nat) (v : Word) : (setPkgReg p n v).number = p.number := by
  unfold setPkgReg
  split <;> rfl



/-- What a register reads depends on the package, the die and the context in whose scope it may lie. -/
theorem csrValue_congr {s u : State} {k : Nat} (cur : u.cur = s.cur) (ticks : u.ticks = s.ticks) (number : u.ctxNumber s.cur = s.ctxNumber s.cur)
    (pkg : pkgReg u.myPkg k = pkgReg s.myPkg k) (die : dieReg (u.die (dieOf s.cur)) k = dieReg (s.die (dieOf s.cur)) k)
    (ctx : ctxReg u.me k = ctxReg s.me k) : csrValue u k = csrValue s k := by
  simp only [csrValue, cur, ticks, number, pkg, die, ctx]

/-- A write of register `n` is accepted and leaves `x` in it, and no other register or context and no byte changes. -/
def Writes (s : State) (n : Nat) (v x : Word) : Prop :=
  ∃ u, setCsr s n v = some u ∧ csrValue u n = x ∧ (∀ k, k ≠ n → csrValue u k = csrValue s k) ∧ (∀ c, c ≠ s.cur → u.ctx c = s.ctx c) ∧
    u.mem = s.mem

section
variable {s : State} {n : Nat} {v x : Word}

/-- A write of a register of the package. -/
theorem writes_pkg (h : (pkgReg s.myPkg n).isSome = true) (value : pkgReg (setPkgReg s.myPkg n v) n = some x) : Writes s n v x := by
  set u := s.setPkg (pkgOf s.cur) (setPkgReg s.myPkg n v) with hu
  have pkg : u.myPkg = setPkgReg s.myPkg n v := pkg_setPkg_same s _ _
  have numbers (p : Nat) : u.number p = s.number p := by
    by_cases own : p = pkgOf s.cur
    · rw [own]
      exact (congrArg Pkg.number pkg).trans (number_setPkgReg _ n v)
    · exact congrArg Pkg.number (pkg_setPkg_other s _ p _ own)
  refine ⟨u, by rw [setCsr, if_pos h], ?_, fun k hk => ?_, fun c _ => rfl, rfl⟩
  · simp [csrValue, pkg, value]
  · exact csrValue_congr rfl rfl (by simp only [State.ctxNumber, numbers]) (by rw [pkg, pkgReg_setPkgReg_other _ v hk]) rfl rfl

/-- A write of a register of the die. -/
theorem writes_die {d : Die} (noPkg : pkgReg s.myPkg n = none) (h : (dieReg (s.die (dieOf s.cur)) n).isSome = true)
    (accepted : setDieReg (s.die (dieOf s.cur)) n v = some d) (value : dieReg d n = some x) : Writes s n v x := by
  have die : (s.setDie (dieOf s.cur) d).die (dieOf s.cur) = d := die_setDie_same s _ _
  have pkg : (s.setDie (dieOf s.cur) d).myPkg = s.myPkg := rfl
  refine ⟨s.setDie (dieOf s.cur) d, by simp [setCsr, noPkg, h, accepted], ?_, fun k hk => ?_, fun c _ => rfl, rfl⟩
  · simp [csrValue, pkg, noPkg, die, value]
  · exact csrValue_congr rfl rfl rfl rfl (by rw [die, dieReg_setDieReg_other hk accepted]) rfl

/-- The numbers that name registers of a package or a die, or values that no context holds (R59). -/
abbrev OutsideContext (n : Nat) : Prop :=
  n = 0x030 ∨ n = 0x032 ∨ (0x080 ≤ n ∧ n ≤ 0x085) ∨ (0x090 ≤ n ∧ n ≤ 0x094) ∨ (0x0C0 ≤ n ∧ n ≤ 0x0C6)

theorem pkgReg_none (h : ¬OutsideContext n) (p : Pkg) : pkgReg p n = none := by
  unfold OutsideContext at h
  unfold pkgReg
  split <;> grind

theorem dieReg_none (h : ¬OutsideContext n) (d : Die) : dieReg d n = none := by
  unfold OutsideContext at h
  unfold dieReg
  split <;> grind

/-- A register of the context reads as the context holds it. -/
theorem csrValue_ctx (h : ¬OutsideContext n) (s : State) : csrValue s n = ctxReg s.me n := by
  have hn := h
  unfold OutsideContext at hn
  rw [csrValue, pkgReg_none h, dieReg_none h]
  simp only
  rw [if_neg (by omega), if_neg (by omega), if_neg (by omega), if_neg (by omega)]

/-- A write of a register of the context. -/
theorem writes_ctx {y : Ctx} (h : ¬OutsideContext n) (accepted : setCtxReg s.me n v = some y) (value : ctxReg y n = x) : Writes s n v x := by
  set t : State := if n == 0x034 then { s with spt := s.spt.filter fun p => p.ctx != s.cur } else s with ht
  have same : t.cur = s.cur ∧ t.ticks = s.ticks ∧ t.ctxs = s.ctxs ∧ t.pkgs = s.pkgs ∧ t.dies = s.dies ∧ t.mem = s.mem := by
    rw [ht]
    split <;> exact ⟨rfl, rfl, rfl, rfl, rfl, rfl⟩
  obtain ⟨cur, ticks, ctxs, pkgs, dies, mem⟩ := same
  have pkg (p : Nat) : t.pkg p = s.pkg p := by simp [State.pkg, pkgs]
  refine ⟨t.setMe y, by simp [setCsr, pkgReg_none h, dieReg_none h, accepted, ht], ?_, fun k hk => ?_, fun c hc => ?_, mem⟩
  · rw [csrValue_ctx h, me_setMe, value]
  · refine csrValue_congr cur ticks ?_ ?_ ?_ ?_
    · exact congrArg (1024 * Pkg.number · + s.cur % 1024) (pkg _)
    · exact congrArg (pkgReg · k) ((congrArg t.pkg (congrArg pkgOf cur)).trans (pkg _))
    · have die : (t.setMe y).die (dieOf s.cur) = s.die (dieOf s.cur) := by
        show tableGet t.dies _ _ = tableGet s.dies _ _
        rw [dies]
      rw [die]
    · rw [me_setMe, ctxReg_setCtxReg_other hk accepted]
  · rw [State.setMe, cur, ctx_setCtx_other _ _ _ _ hc]
    simp [State.ctx, ctxs]

end

end Sys2Proof.Machine

namespace Sys2Proof.Machine

/-! ### Each register -/

section
variable {s : State} {v : Word}

/-- A register of a package or a die that keeps the bits of a mask (R59, R255). -/
theorem writes_wide : ∀ p ∈ ([(0x082, 0xFFF), (0x083, 0x01FFFFFFFFFF0000), (0x084, 0xFFFFFFFF), (0x085, 0xFFFFFFFF), (0x0C0, 0xFFFF),
    (0x0C1, 0x0000FFFFFFFF0000), (0x0C3, 0xFFFFFFFF), (0x0C4, 0xF), (0x0C5, 0x0000FFFFFFFF0000), (0x0C6, 0xFFFF)] : List (Nat × Word)),
    Writes s p.1 v (v &&& p.2) := by
  simp only [List.mem_cons, List.not_mem_nil, or_false, forall_eq_or_imp, forall_eq]
  have low (k : Nat) : some ((v.setWidth k).setWidth 64) = some (v &&& BitVec.ofNat 64 (2 ^ k - 1)) := congrArg some (low_bits v k)
  exact ⟨writes_pkg rfl (low 12), writes_pkg rfl rfl, writes_pkg rfl (low 32), writes_pkg rfl (low 32), writes_die rfl rfl rfl (low 16),
    writes_die rfl rfl rfl rfl, writes_die rfl rfl rfl (low 32), writes_die rfl rfl rfl (low 4), writes_die rfl rfl rfl rfl,
    writes_die rfl rfl rfl (low 16)⟩

/-- A register of the context that keeps the bits of a mask (R60, R62, R64, R251). -/
theorem writes_plain : ∀ p ∈ ([(0x002, 0x7FF), (0x005, 0x1F), (0x006, 0x8000000000003FFF), (0x034, -1), (0x040, 0x007FFFFFFFFFFFFC),
    (0x042, -1), (0x045, -1)] : List (Nat × Word)), Writes s p.1 v (v &&& p.2) := by
  have all : v &&& -1 = v := BitVec.and_allOnes
  simp only [List.mem_cons, List.not_mem_nil, or_false, forall_eq_or_imp, forall_eq, all]
  exact ⟨writes_ctx (by decide) rfl (low_bits v 11), writes_ctx (by decide) rfl (low_bits v 5), writes_ctx (by decide) rfl rfl,
    writes_ctx (by decide) rfl rfl, writes_ctx (by decide) rfl rfl, writes_ctx (by decide) rfl rfl, writes_ctx (by decide) rfl rfl⟩

end

end Sys2Proof.Machine

namespace Sys2Proof.Machine

open Sys2Proof.Claims

section
variable {s : State} {v : Word}

/-- A word of VFM keeps every bit (R63). -/
theorem writes_vfm {n : Nat} (low : 0x010 ≤ n) (high : n ≤ 0x01F) : Writes s n v (v &&& -1) := by
  have held (x : Ctx) : ctxReg x n = slice x.vfm (64 * (n - 0x010)) 64 := by
    unfold ctxReg
    split <;> grind
  have set (x : Ctx) : setCtxReg x n v = some { x with vfm := splice x.vfm (64 * (n - 0x010)) 64 v.toNat } := by
    unfold setCtxReg
    split <;> grind
  refine writes_ctx (by unfold OutsideContext; omega) (set s.me) ?_
  rw [held, slice_splice_same _ _ _ _ (by omega)]
  exact BitVec.and_allOnes.symm

/-- TSTATUS as its fields one above the other (R251). -/
theorem tstatus_fields (x : Ctx) : x.tstatus =
    word ((x.svcfg ++ x.svl).toNat <<< 16 ||| (flag x.forced <<< 4 ||| flag x.abandon <<< 3)) := by
  have bit (b : Bool) : flag b ≤ 1 := by cases b <;> decide
  have forced := bit x.forced
  have abandon := bit x.abandon
  rw [← Nat.shiftLeft_add_eq_or_of_lt (i := 4) (by rw [Nat.shiftLeft_eq]; omega)]
  rw [← Nat.shiftLeft_add_eq_or_of_lt (i := 16) (by simp only [Nat.shiftLeft_eq]; omega)]
  rw [BitVec.toNat_append, ← Nat.shiftLeft_add_eq_or_of_lt x.svl.isLt]
  simp only [Nat.shiftLeft_eq]
  exact congrArg word (by ring)

theorem testBit_flag (b : Bool) (i : Nat) : (flag b).testBit i = (decide (i = 0) && b) := by
  cases b <;> cases i <;> simp [flag, Nat.testBit_succ]

/-- A bit of TSTATUS. -/
theorem getLsbD_tstatus (x : Ctx) (i : Nat) (hi : i < 64) : x.tstatus.getLsbD i =
    ((decide (16 ≤ i) && (x.svcfg ++ x.svl).getLsbD (i - 16)) || (decide (i = 4) && x.forced) || (decide (i = 3) && x.abandon)) := by
  rw [tstatus_fields, word, BitVec.getLsbD_ofNat]
  simp only [Nat.testBit_or, Nat.testBit_shiftLeft, testBit_flag, hi, decide_true, Bool.true_and, BitVec.testBit_toNat]
  grind

/-- TSTATUS keeps SVCFG and SVL, and ABANDON unless FORCED is set (R251). -/
theorem writes_tstatus : Writes s 0x041 v ((v &&& 0x00000003FFFF0000) ||| (csrValue s 0x041 &&& 0x10) |||
    ((if s.me.forced then csrValue s 0x041 else v) &&& 0x8)) := by
  refine writes_ctx (by decide) rfl ?_
  have old : csrValue s 0x041 = s.me.tstatus := csrValue_ctx (by decide) s
  have fields : slice v 27 7 ++ slice v 16 11 = slice v 16 18 := by
    refine BitVec.eq_of_getLsbD_eq fun i hi => ?_
    simp only [slice, BitVec.getLsbD_append, BitVec.getLsbD_extractLsb']
    grind
  have read (y : Ctx) : ctxReg y 0x041 = y.tstatus := rfl
  refine BitVec.eq_of_getLsbD_eq fun i hi => ?_
  rw [read, getLsbD_tstatus _ i hi, old]
  simp only [fields, BitVec.getLsbD_or, BitVec.getLsbD_and, apply_ite (BitVec.getLsbD · i), getLsbD_tstatus _ i hi]
  simp only [slice, BitVec.getLsbD_extractLsb']
  interval_cases i <;> simp

/-- VL is limited to VLMAX (R50, R60). -/
theorem writes_vl : Writes s 0x000 v
    (BitVec.ofNat 64 (min (v.toNat % 2 ^ 11) (1024 * s.me.held / (8 * 2 ^ (s.me.vcfg.toNat % 4))) % 2 ^ 11)) := by
  refine writes_ctx (by decide) rfl ?_
  have width : (slice s.me.vcfg 0 2).toNat = s.me.vcfg.toNat % 4 := by simp [slice]
  show (BitVec.ofNat 11 _).setWidth 64 = _
  rw [vlmaxAt, width]
  refine BitVec.eq_of_toNat_eq ?_
  simp only [BitVec.toNat_setWidth, BitVec.toNat_ofNat]

/-- TCAUSE and TINFO keep everything (R251). -/
theorem writes_trapRegister {n : Nat} (h : n = 0x043 ∨ n = 0x044) : Writes s n v (csrValue s n) := by
  obtain rfl | rfl := h
  all_goals exact writes_ctx (by decide) rfl (csrValue_ctx (by decide) s).symm

/-! ### Registers with reserved encodings -/

theorem slice_eq_three_iff (v : Word) (lo : Nat) : slice v lo 2 = 3#2 ↔ v.toNat / 2 ^ lo % 4 = 3 := by
  rw [← BitVec.toNat_inj]
  simp [slice, Nat.shiftRight_eq_div_pow]

/-- A reserved FZ is refused (R61). -/
theorem setCsr_vcfg_reserved (mode : s.me.mode = .supervisor) (h : v.toNat / 4 % 4 = 3) : setCsr s 0x001 v = none := by
  have fz : slice v 2 2 = 3#2 := (slice_eq_three_iff v 2).2 h
  simp [setCsr, pkgReg, dieReg, setCtxReg, mode, fz]

theorem writes_vcfg (mode : s.me.mode = .supervisor) (h : v.toNat / 4 % 4 ≠ 3) : Writes s 0x001 v (v &&& 0x7F) := by
  have fz : ¬slice v 2 2 = 3#2 := fun e => h ((slice_eq_three_iff v 2).1 e)
  exact writes_ctx (y := { s.me with vcfg := v.setWidth 7 }) (by decide) (by simp [setCtxReg, mode, fz]) (low_bits v 7)

/-- Task mode writes RM and REPRO of VCFG only (R58). -/
theorem writes_vcfg_task (mode : s.me.mode = .task) : Writes s 0x001 v ((v &&& 0x70) ||| (csrValue s 0x001 &&& 0x0F)) := by
  have old : csrValue s 0x001 = s.me.vcfg.setWidth 64 := csrValue_ctx (by decide) s
  refine writes_ctx (y := { s.me with vcfg := (v.setWidth 7 &&& 0x70#7) ||| (s.me.vcfg &&& 0x0F#7) }) (by decide)
    (by simp [setCtxReg, mode]) ?_
  have narrow : v &&& 0x7F &&& 0x70 = v &&& 0x70 := by rw [BitVec.and_assoc]; rfl
  show ((v.setWidth 7 &&& 0x70#7) ||| (s.me.vcfg &&& 0x0F#7)).setWidth 64 = _
  rw [BitVec.setWidth_or, BitVec.setWidth_and, BitVec.setWidth_and, low_bits, old, ← narrow]
  rfl

/-- A reserved SIDE or ENC is refused (R62). -/
theorem setCsr_mfmt_reserved (h : v.toNat / 256 % 4 = 3 ∨ 11 ≤ v.toNat % 32) : setCsr s 0x004 v = none := by
  have reserved : slice v 8 2 = 3#2 ∨ 0x0B ≤ field v.toNat 0 5 := h.imp (slice_eq_three_iff v 8).2 (by simp [field])
  simp [setCsr, pkgReg, dieReg, setCtxReg, reserved]

theorem writes_mfmt (side : v.toNat / 256 % 4 ≠ 3) (enc : v.toNat % 32 < 11) : Writes s 0x004 v (v &&& 0x3FF) := by
  have accepted : ¬(slice v 8 2 = 3#2 ∨ 0x0B ≤ field v.toNat 0 5) := by
    rw [slice_eq_three_iff]
    simp [field]
    omega
  exact writes_ctx (y := { s.me with mfmt := v.setWidth 10 }) (by decide) (by simp [setCtxReg, accepted]) (low_bits v 10)

/-- A QDEPTH outside 9 to 16 is refused (R59). -/
theorem setCsr_qdepth_refused (h : v.toNat % 32 < 9 ∨ 16 < v.toNat % 32) : setCsr s 0x0C2 v = none := by
  have outside : ¬(9 ≤ v.toNat % 32 ∧ v.toNat % 32 ≤ 16) := by omega
  simp [setCsr, pkgReg, dieReg, setDieReg, outside]

theorem writes_qdepth (low : 9 ≤ v.toNat % 32) (high : v.toNat % 32 ≤ 16) : Writes s 0x0C2 v (v &&& 0x1F) :=
  writes_die (d := { s.die (dieOf s.cur) with
      qdepth := v.setWidth 5, corrupted := (s.die (dieOf s.cur)).corrupted || !(s.die (dieOf s.cur)).queued.isEmpty })
    rfl rfl (by simp [setDieReg, low, high]) (congrArg some (low_bits v 5))

end

/-- Settles O26: each register's case of the write gives the register's value, and each is a record update of one field. -/
theorem csrWrites : Obligations.CsrWrites := by
  unfold Obligations.CsrWrites
  refine ⟨fun s v mode => ⟨fun p hp => ?_, fun n => writes_vfm, writes_vl, writes_tstatus, writes_trapRegister (.inl rfl),
    writes_trapRegister (.inr rfl), setCsr_vcfg_reserved mode, writes_vcfg mode, setCsr_mfmt_reserved, writes_mfmt, writes_qdepth,
    setCsr_qdepth_refused⟩, fun s v mode => ⟨writes_vcfg_task mode, ?_, setCsr_mfmt_reserved, writes_mfmt⟩⟩
  · exact (List.mem_append.1 hp).elim (writes_plain p) (writes_wide p)
  · exact writes_plain (0x005, 0x1F) (by simp)

end Sys2Proof.Machine

/-! ## Stores performed from the queues (R55, R168, R170) -/

namespace Sys2Proof.Machine

open Sys2Proof.Claims

/-! ### One byte -/

theorem frame_eq_tableGet (c : Core) (i : Nat) : c.frame i = tableGet (c.frames.map fun e => (e.1, some e.2)) i none := by
  have keys : ((fun e : Nat × Option Frame => e.1 == i) ∘ fun e : Nat × Frame => (e.1, some e.2)) = fun e => e.1 == i := rfl
  rw [Core.frame, tableGet, List.find?_map, keys]
  cases c.frames.find? fun e => e.1 == i <;> rfl

theorem frame_setFrame (c : Core) (i j : Nat) (f : Frame) : (c.setFrame i f).frame j = if j = i then some f else c.frame j := by
  have mapped : (tableSet c.frames i f).map (fun e => (e.1, some e.2)) = tableSet (c.frames.map fun e => (e.1, some e.2)) i (some f) := by
    have listed : ((c.frames.map fun e => (e.1, some e.2)).any fun e => e.1 == i) = c.frames.any fun e => e.1 == i := by
      rw [List.any_map]
      rfl
    unfold tableSet
    rw [listed]
    split
    · simp only [List.map_map]
      refine List.map_congr_left fun e _ => ?_
      dsimp only [Function.comp]
      split <;> rfl
    · simp
  rw [frame_eq_tableGet, frame_eq_tableGet c, Core.setFrame, mapped, tableGet_tableSet]

/-- A frame's place exists, and its byte is read, by the frame alone. -/
theorem locByte_frame (s : State) (k i o : Nat) : s.locByte (.frame k i o) = (((s.core k).frame i).map fun f => slice f.data (8 * o) 8).getD 0 := by
  rw [State.locByte]
  cases (s.core k).frame i <;> rfl

/-- The frames of a state after one byte is put. -/
theorem frame_put (s : State) (p : Loc) (b : Byte) (k i : Nat) : ((s.put p b).core k).frame i =
    ((s.core k).frame i).map fun f => match p with
      | .phys _ => f
      | .frame k' i' o => if k = k' ∧ i = i' then { f with data := splice f.data (8 * o) 8 b.toNat, pageDirty := true } else f := by
  cases p with
  | phys a => simp [State.put, State.core]
  | frame k' i' o =>
    unfold State.put
    dsimp only
    cases e : (s.core k').frame i' with
    | none =>
      dsimp only
      cases h : (s.core k).frame i with
      | none => rfl
      | some f =>
        have other : ¬(k = k' ∧ i = i') := by
          rintro ⟨rfl, rfl⟩
          cases e.symm.trans h
        simp [other]
    | some g =>
      dsimp only
      by_cases hk : k = k'
      · subst hk
        rw [core_setCore_same, frame_setFrame]
        by_cases hi : i = i'
        · subst hi
          simp [e]
        · simp [hi]
      · simp [core_setCore_other _ _ _ _ hk, hk]

theorem locByte_remember (s : State) (p l : Loc) : (s.remember p).locByte l = s.locByte l := by
  unfold State.remember
  split <;> rfl

theorem holds_remember (s : State) (p l : Loc) : Holds (s.remember p) l ↔ Holds s l := by
  unfold State.remember
  split <;> exact Iff.rfl

theorem holds_put (s : State) (p l : Loc) (b : Byte) : Holds (s.put p b) l ↔ Holds s l := by
  cases l with
  | phys a => exact Iff.rfl
  | frame k i o => simp only [Holds, frame_put, Option.isSome_map]

theorem locByte_put_other (s : State) {p l : Loc} (b : Byte) (h : l ≠ p) : (s.put p b).locByte l = s.locByte l := by
  cases l with
  | phys c =>
    cases p with
    | phys a =>
      have apart : c ≠ a := fun e => h (congrArg Loc.phys e)
      simp [State.put, State.locByte, memByte_memSet, apart]
    | frame k i o =>
      unfold State.put
      dsimp only
      split <;> rfl
  | frame k i o =>
    rw [locByte_frame, locByte_frame, frame_put]
    cases (s.core k).frame i with
    | none => rfl
    | some f =>
      cases p with
      | phys a => rfl
      | frame k' i' o' =>
        dsimp only [Option.map_some, Option.getD_some]
        split
        · next same =>
          obtain ⟨rfl, rfl⟩ := same
          have apart : o ≠ o' := fun e => h (by rw [e])
          exact slice_splice_other _ _ _ _ _ _ (by omega)
        · rfl

theorem locByte_put_same (s : State) {l : Loc} (b : Byte) (h : Holds s l) : (s.put l b).locByte l = b := by
  cases l with
  | phys a => simp [State.put, State.locByte]
  | frame k i o =>
    obtain ⟨low, present⟩ := h
    obtain ⟨f, e⟩ := Option.isSome_iff_exists.1 present
    rw [locByte_frame, frame_put, e]
    simpa using slice_splice_same f.data (8 * o) 8 b (by omega)

end Sys2Proof.Machine

namespace Sys2Proof.Machine

open Sys2Proof.Claims

/-! ### Many bytes -/

/-- The bytes `ws` have been written one after another: every other place reads as before, and each place as the last of them says. -/
structure Puts (s t : State) (ws : List (Loc × Byte)) : Prop where
  holds : ∀ l, Holds t l ↔ Holds s l
  kept : ∀ l, (∀ w ∈ ws, w.1 ≠ l) → t.locByte l = s.locByte l
  last : ∀ pre w post, ws = pre ++ w :: post → (∀ v ∈ post, v.1 ≠ w.1) → Holds s w.1 → t.locByte w.1 = w.2

namespace Puts
variable {s t u : State} {a b ws : List (Loc × Byte)}

/-- A state with the same places and bytes. -/
theorem same (holds : ∀ l, Holds t l ↔ Holds s l) (bytes : ∀ l, t.locByte l = s.locByte l) : Puts s t [] :=
  ⟨holds, fun l _ => bytes l, fun pre _ _ e => by simp at e⟩

/-- Memory and frames as they were. -/
theorem of_eq (mem : t.mem = s.mem) (frames : ∀ k i, (t.core k).frame i = (s.core k).frame i) : Puts s t [] := by
  refine same (fun l => ?_) fun l => ?_
  · cases l with
    | phys => exact Iff.rfl
    | frame k i o => simp only [Holds, frames]
  · cases l with
    | phys a => simp only [State.locByte, mem]
    | frame k i o => simp only [locByte_frame, frames]

theorem append (h : Puts s t a) (k : Puts t u b) : Puts s u (a ++ b) where
  holds l := (k.holds l).trans (h.holds l)
  kept l hl := by
    simp only [List.mem_append] at hl
    rw [k.kept l fun w hw => hl w (.inr hw), h.kept l fun w hw => hl w (.inl hw)]
  last pre w post e hpost hw := by
    obtain ⟨c, hb⟩ | ⟨c, ha⟩ := List.append_eq_append_iff.1 e
    · exact k.last c w post hb.2 hpost ((h.holds _).2 hw)
    · obtain ⟨ha, hc⟩ := ha
      cases c with
      | nil => exact k.last [] w post (by simpa using hc.symm) hpost ((h.holds _).2 hw)
      | cons x c =>
        obtain ⟨rfl, rfl⟩ := List.cons.inj hc
        rw [k.kept _ fun v hv => hpost v (List.mem_append_right _ hv)]
        exact h.last pre w c ha (fun v hv => hpost v (List.mem_append_left _ hv)) hw

theorem then_same (h : Puts s t ws) (k : Puts t u []) : Puts s u ws := by simpa using h.append k

theorem setLoc (s : State) (p : Loc) (b : Byte) : Puts s (s.setLoc p b) [(p, b)] where
  holds l := (holds_put _ _ _ _).trans (holds_remember _ _ _)
  kept l hl := (locByte_put_other _ _ (Ne.symm (hl (p, b) (by simp)))).trans (locByte_remember _ _ _)
  last pre w post e _ hw := by
    obtain ⟨rfl, rfl, rfl⟩ : pre = [] ∧ w = (p, b) ∧ post = [] := by
      cases pre <;> simp_all
    exact locByte_put_same _ _ ((holds_remember _ _ _).2 hw)

theorem setLocs (s : State) (ws : List (Loc × Byte)) : Puts s (s.setLocs ws) ws := by
  induction ws generalizing s with
  | nil => exact of_eq rfl fun _ _ => rfl
  | cons w ws ih => exact (setLoc s w.1 w.2).append (ih _)

theorem clearPoison (s : State) (ls : List Loc) : Puts s (s.clearPoison ls) [] := by
  unfold State.clearPoison
  split <;> exact of_eq rfl fun _ _ => rfl

theorem watchQueues (s : State) (ls : List Loc) : Puts s (s.watchQueues ls) [] := by
  unfold State.watchQueues
  split <;> exact of_eq rfl fun _ _ => rfl

theorem mapPins (s : State) (c : Nat) (f : Pin → Pin) : Puts s (s.mapPins c f) [] := by
  unfold State.mapPins
  split <;> exact of_eq rfl fun _ _ => rfl

theorem closePins (s : State) (c : Nat) (l : List Stream) : Puts s (s.closePins c l) [] := mapPins s c _

theorem setCtx (s : State) (c : Nat) (x : Ctx) : Puts s (s.setCtx c x) [] := of_eq rfl fun _ _ => rfl

end Puts

/-- Marking a frame's lines as clean of poison leaves its data. -/
theorem data_frame_clearPoison (c : Core) (k i : Nat) (ls : List Loc) :
    ((c.clearPoison k ls).frame i).map (·.data) = (c.frame i).map (·.data) := by
  unfold Core.clearPoison Core.frame
  have keys : ((fun e : Nat × Frame => e.1 == i) ∘ fun e : Nat × Frame =>
      if e.2.poison = 0 then e else (e.1, { e.2 with poison := e.2.poison &&& ~~~(coveredLines k e.1 ls) })) = fun e => e.1 == i := by
    funext e
    dsimp only [Function.comp]
    split <;> rfl
  dsimp only
  rw [List.find?_map, keys]
  cases c.frames.find? fun e => e.1 == i with
  | none => rfl
  | some e =>
    dsimp only [Option.map_some]
    split <;> rfl

theorem data_frame_clearFrames (s : State) (ls : List Loc) (k i : Nat) :
    (((s.clearFrames ls).core k).frame i).map (·.data) = ((s.core k).frame i).map (·.data) := by
  unfold State.clearFrames
  split
  · exact tableGet_map (fun x y => (y.frame i).map (·.data) = (x.frame i).map (·.data)) (fun k c => c.clearPoison k ls) s.cores k rfl
      fun _ _ => data_frame_clearPoison _ _ _ _
  · rfl

theorem Puts.clearFrames (s : State) (ls : List Loc) : Puts s (s.clearFrames ls) [] := by
  have data := data_frame_clearFrames s ls
  refine same (fun l => ?_) fun l => ?_
  · cases l with
    | phys => exact Iff.rfl
    | frame k i o =>
      have := congrArg Option.isSome (data k i)
      simp only [Option.isSome_map] at this
      simp only [Holds, this]
  · cases l with
    | phys a => simp only [State.locByte, State.clearFrames_mem]
    | frame k i o =>
      have := congrArg (fun d => (d.map fun x => slice x (8 * o) 8).getD 0) (data k i)
      simpa only [locByte_frame, Option.map_map, Function.comp_def] using this

theorem Puts.writeLocs (s : State) (ws : List (Loc × Byte)) : Puts s (s.writeLocs ws) ws :=
  (((setLocs s ws).then_same (clearPoison _ _)).then_same (clearFrames _ _)).then_same (watchQueues _ _)

/-! ### What performing stores leaves beside the bytes -/

/-- The second state is the first after bytes have been written: memory, poison, frames, past moments, sources and marks of corrupted queues may differ. -/
structure BytesWritten (s t : State) : Prop where
  relocated : Relocated s t
  tables : (t.ctxs, t.tlb, t.spt, t.orphans, t.clock) = (s.ctxs, s.tlb, s.spt, s.orphans, s.clock)

namespace BytesWritten
variable {s t u : State}

theorem refl (s : State) : BytesWritten s s := ⟨.refl s, rfl⟩

theorem trans (h : BytesWritten s t) (k : BytesWritten t u) : BytesWritten s u := ⟨h.relocated.trans k.relocated, k.tables.trans h.tables⟩

theorem ctxs (h : BytesWritten s t) : t.ctxs = s.ctxs := congrArg (·.1) h.tables

theorem ctx (h : BytesWritten s t) (c : Nat) : t.ctx c = s.ctx c := by simp only [State.ctx, h.ctxs]

theorem free (h : BytesWritten s t) : t.free = s.free := congrArg (fun x => x.2.2.2.2.2.2.2.2.2.2.1) h.relocated.rest

/-- Beside the contexts only memory and what belongs to it differs, also once contexts have changed. -/
theorem onlyMemory_of (h : BytesWritten s t) (e : u = { t with ctxs := u.ctxs }) : OnlyMemory s u := by
  obtain ⟨relocated, tables⟩ := h
  have frame := relocated.eq
  simp only [Prod.mk.injEq] at tables
  obtain ⟨-, tlb, spt, orphans, clock⟩ := tables
  refine ⟨?_, fun k => ?_, fun d => ?_⟩
  · rw [e]
    rw [frame, tlb, spt, orphans, clock]
  · rw [e]
    exact relocated.units k
  · rw [e]
    exact relocated.dies d

theorem setFree (h : BytesWritten s t) (n : Nat) : BytesWritten { s with free := n } { t with free := n } where
  relocated := { h.relocated with
    rest := by
      have := h.relocated.rest
      simp only [State.untouched, Prod.mk.injEq] at this ⊢
      tauto }
  tables := h.tables

theorem setLocs (s : State) (w : List (Loc × Byte)) : BytesWritten s (s.setLocs w) := by
  refine ⟨.setLocs s w, ?_⟩
  induction w generalizing s with
  | nil => rfl
  | cons e w ih =>
    refine (ih _).trans ?_
    have noted : ∀ t : State, (fun t : State => (t.ctxs, t.tlb, t.spt, t.orphans, t.clock)) (t.remember e.1) = (t.ctxs, t.tlb, t.spt, t.orphans, t.clock) := by
      intro t
      unfold State.remember
      split <;> rfl
    refine Eq.trans ?_ (noted s)
    unfold State.setLoc State.put
    split
    · rfl
    · split <;> rfl

theorem clearPoison (s : State) (ls : List Loc) : BytesWritten s (s.clearPoison ls) := by
  refine ⟨.clearPoison s ls, ?_⟩
  unfold State.clearPoison
  split <;> rfl

theorem clearFrames (s : State) (ls : List Loc) : BytesWritten s (s.clearFrames ls) := by
  refine ⟨.clearFrames s ls, ?_⟩
  unfold State.clearFrames
  split <;> rfl

theorem watchQueues (s : State) (ls : List Loc) : BytesWritten s (s.watchQueues ls) := by
  refine ⟨.watchQueues s ls, ?_⟩
  unfold State.watchQueues
  split <;> rfl

theorem writeLocs (s : State) (w : List (Loc × Byte)) : BytesWritten s (s.writeLocs w) :=
  (((setLocs s w).trans (clearPoison _ _)).trans (clearFrames _ _)).trans (watchQueues _ _)

end BytesWritten
end Sys2Proof.Machine

namespace Sys2Proof.Machine

open Sys2Proof.Claims

/-! ### Queued vector stores -/

theorem headGroup_length_pos {q : List QStore} (h : q ≠ []) : 0 < (headGroup q).length := by
  cases q with
  | nil => exact absurd rfl h
  | cons x q => simp [headGroup]

theorem headGroup_length_le (q : List QStore) : (headGroup q).length ≤ q.length := by
  cases q with
  | nil => exact Nat.le_refl _
  | cons x q => exact (List.takeWhile_sublist _).length_le

theorem pickStore_lt {q : List QStore} (h : q ≠ []) (n : Nat) : pickStore q n < q.length := by
  have pos := headGroup_length_pos h
  have le := headGroup_length_le q
  have picked := Nat.mod_lt n pos
  unfold pickStore
  split
  · exact absurd rfl h
  · split <;> omega

/-- One element of the queue is performed, with or without a free choice among those of the oldest instruction. -/
theorem drainFrom_step (s : State) {q : List QStore} (h : q ≠ []) (n : Nat) : ∃ (i : Nat) (bound : i < q.length) (k : Nat),
    drainFrom s q (n + 1) = drainFrom { s.setLocs q[i].bytes with free := k } (q.eraseIdx i) n := by
  have bound := pickStore_lt h (Config.freeNat s.free)
  cases q with
  | nil => exact absurd rfl h
  | cons x q =>
    refine ⟨_, bound, if !x.ordered && overlapping (headGroup (x :: q)) then (s.setLocs (x :: q)[pickStore (x :: q) (Config.freeNat s.free)].bytes).free + 1
      else (s.setLocs (x :: q)[pickStore (x :: q) (Config.freeNat s.free)].bytes).free, ?_⟩
    rw [drainFrom]
    dsimp only
    rw [List.getElem?_eq_getElem bound]
    split <;> rfl

/-- Performing all of a queue writes its bytes, in some order. -/
theorem Puts.drainFrom {n : Nat} (s : State) (q : List QStore) (enough : q.length ≤ n) :
    ∃ ws, ws.Perm (q.flatMap (·.bytes)) ∧ Puts s (Machine.drainFrom s q n) ws := by
  induction n generalizing s q with
  | zero =>
    obtain rfl : q = [] := List.length_eq_zero_iff.1 (by omega)
    exact ⟨[], .refl _, of_eq rfl fun _ _ => rfl⟩
  | succ n ih =>
    rcases eq_or_ne q [] with rfl | some
    · exact ⟨[], .refl _, of_eq rfl fun _ _ => rfl⟩
    · obtain ⟨i, bound, k, step⟩ := drainFrom_step s some n
      have next := List.length_eraseIdx_of_lt bound
      obtain ⟨ws, perm, rest⟩ := ih { s.setLocs q[i].bytes with free := k } (q.eraseIdx i) (by omega)
      have one : Puts s { s.setLocs q[i].bytes with free := k } q[i].bytes := (setLocs s _).then_same (of_eq rfl fun _ _ => rfl)
      refine ⟨q[i].bytes ++ ws, ?_, by rw [step]; exact one.append rest⟩
      exact (perm.append_left _).trans ((List.getElem_cons_eraseIdx_perm bound).flatMap_right _)

/-- Beside bytes, performing a queue takes free choices only. -/
theorem BytesWritten.drainFrom (s : State) (q : List QStore) (n : Nat) :
    BytesWritten { s with free := (Machine.drainFrom s q n).free } (Machine.drainFrom s q n) := by
  induction n generalizing s q with
  | zero => exact refl s
  | succ n ih =>
    rcases eq_or_ne q [] with rfl | some
    · exact refl s
    · obtain ⟨i, bound, k, step⟩ := drainFrom_step s some n
      rw [step]
      exact ((setLocs s q[i].bytes).setFree _).trans (ih { s.setLocs q[i].bytes with free := k } (q.eraseIdx i))

/-- What is left in the queues after all of a context's stores are performed. -/
theorem drain_eq (s : State) (c : Nat) (q : List QStore) (h : (s.ctx c).vstores = q) (some : q ≠ []) : ∃ ls ms l t,
    t = ((((Machine.drainFrom s q q.length).clearPoison ls).clearFrames ls).watchQueues ms) ∧
    s.drain c = (t.setCtx c { t.ctx c with vstores := [], drained := [] }).closePins c l := by
  unfold State.drain State.drainFirst
  dsimp only
  rw [h, List.take_length, List.drop_length]
  cases q with
  | nil => exact absurd rfl some
  | cons x q => exact ⟨_, _, _, _, rfl, rfl⟩

theorem closePins_setCtx (u : State) (c d : Nat) (x : Ctx) (l : List Stream) :
    (u.setCtx c x).closePins d l = (u.closePins d l).setCtx c x := by
  unfold State.closePins State.mapPins
  by_cases h : u.pins.isEmpty = true
  · rw [if_pos h, if_pos (show (u.setCtx c x).pins.isEmpty = true from h)]
  · rw [if_neg h, if_neg (show ¬(u.setCtx c x).pins.isEmpty = true from h)]
    rfl

theorem BytesWritten.onlyMemory_setCtx {s t : State} (h : BytesWritten s t) (c : Nat) (x : Ctx) : OnlyMemory s (t.setCtx c x) := h.onlyMemory_of rfl

theorem BytesWritten.closePins (s : State) (c : Nat) (l : List Stream) : BytesWritten s (s.closePins c l) := by
  unfold State.closePins State.mapPins
  split
  · exact refl s
  · exact ⟨.of_tables rfl rfl rfl rfl rfl, rfl⟩

/-- Queued vector stores are performed: the queue is empty, and each byte is one that the queue names. -/
theorem drain_performs (s : State) (c : Nat) :
    let t := s.drain c
    let ws := (s.ctx c).vstores.flatMap (·.bytes)
    t.ctx c = { s.ctx c with vstores := [], drained := (t.ctx c).drained } ∧ (∀ d, d ≠ c → t.ctx d = s.ctx d) ∧
    (∀ l, (∀ w ∈ ws, w.1 ≠ l) → t.locByte l = s.locByte l) ∧
    ((ws.map (·.1)).Nodup → ∀ w ∈ ws, Holds s w.1 → t.locByte w.1 = w.2) ∧ OnlyMemory { s with free := t.free } t := by
  intro t ws
  rcases eq_or_ne (s.ctx c).vstores [] with none | some
  · have idle : t = s := by
      unfold t State.drain State.drainFirst
      rw [none]
      rfl
    have nothing : ws = [] := by simp [ws, none]
    rw [idle, nothing]
    refine ⟨by rw [← none], fun _ _ => rfl, fun _ _ => rfl, fun _ w hw => absurd hw List.not_mem_nil, ?_⟩
    exact (BytesWritten.refl s).onlyMemory_of rfl
  · obtain ⟨ls, ms, l, u, hu, ht⟩ := drain_eq s c _ rfl some
    obtain ⟨order, perm, puts⟩ := Puts.drainFrom (n := (s.ctx c).vstores.length) s (s.ctx c).vstores (Nat.le_refl _)
    have reached : Puts s u order := by
      rw [hu]
      exact ((puts.then_same (.clearPoison _ _)).then_same (.clearFrames _ _)).then_same (.watchQueues _ _)
    have cleared : BytesWritten (Machine.drainFrom s (s.ctx c).vstores (s.ctx c).vstores.length) (u.closePins c l) := by
      rw [hu]
      exact (((BytesWritten.clearPoison _ _).trans (.clearFrames _ _)).trans (.watchQueues _ _)).trans (.closePins _ _ _)
    have whole : Puts s t order := by
      rw [show t = _ from ht]
      exact (reached.then_same (.setCtx _ _ _)).then_same (.closePins _ _ _)
    replace ht : t = (u.closePins c l).setCtx c { u.ctx c with vstores := [], drained := [] } := ht.trans (closePins_setCtx _ _ _ _ _)
    have frees : (u.closePins c l).free = t.free := by rw [ht]; rfl
    have left : BytesWritten { s with free := t.free } (u.closePins c l) := by
      rw [← frees, cleared.free]
      exact (BytesWritten.drainFrom s _ _).trans cleared
    have same : u.ctx c = s.ctx c := ((BytesWritten.closePins u c l).ctx c).symm.trans (left.ctx c)
    have ctx (d : Nat) : t.ctx d = ((u.closePins c l).setCtx c { u.ctx c with vstores := [], drained := [] }).ctx d := congrArg (·.ctx d) ht
    refine ⟨?_, fun d hd => ?_, fun p hp => whole.kept p fun w hw => hp w (perm.mem_iff.1 hw), fun distinct w hw present => ?_, ?_⟩
    · rw [ctx, ctx_setCtx_same, same]
    · rw [ctx, ctx_setCtx_other _ _ _ _ hd, left.ctx]
      rfl
    · obtain ⟨pre, post, split⟩ := List.append_of_mem (perm.mem_iff.2 hw)
      refine whole.last pre w post split (fun v hv e => ?_) present
      have apart := ((perm.map (·.1)).nodup_iff.2 distinct)
      rw [split, List.map_append, List.map_cons] at apart
      exact (List.nodup_cons.1 (List.nodup_append.1 apart).2.1).1 (e ▸ List.mem_map_of_mem hv)
    · have only := left.onlyMemory_setCtx c { u.ctx c with vstores := [], drained := [] }
      rwa [← ht] at only

end Sys2Proof.Machine

namespace Sys2Proof.Machine

open Sys2Proof.Claims

/-! ### Delayed scalar stores -/

theorem onlyMemory_trans {s t u : State} (h : OnlyMemory s t) (k : OnlyMemory t u) : OnlyMemory s u := by
  obtain ⟨eq, units, dies⟩ := h
  obtain ⟨eq', units', dies'⟩ := k
  refine ⟨?_, fun c => (units' c).trans (units c), fun d => ?_⟩
  · rw [eq'] at *
    rw [eq]
  · rw [dies' d, dies d]

/-- What performing the first delayed store of a context leaves. -/
theorem settleOne_store {s : State} {c : Nat} {stamp follows : Nat} {bytes : List (Loc × Byte)} {rest : List Held}
    (h : (s.ctx c).delayed = .store stamp follows bytes :: rest) :
    Puts s (s.settleOne c) bytes ∧ (s.settleOne c).ctx c = { s.ctx c with delayed := rest } ∧
    (∀ d, d ≠ c → (s.settleOne c).ctx d = s.ctx d) ∧ OnlyMemory s (s.settleOne c) := by
  have opened : s.settleOne c =
      ((s.writeLocs bytes).closePins c ((s.ctx c).afterScalarAt stamp)).setCtx c { (s.writeLocs bytes).ctx c with delayed := rest } := by
    unfold State.settleOne
    dsimp only
    rw [h]
    exact closePins_setCtx _ _ _ _ _
  have written : BytesWritten s ((s.writeLocs bytes).closePins c ((s.ctx c).afterScalarAt stamp)) := (BytesWritten.writeLocs s bytes).trans (.closePins _ _ _)
  rw [opened, (BytesWritten.writeLocs s bytes).ctx c]
  refine ⟨?_, ctx_setCtx_same _ _ _, fun d hd => ?_, written.onlyMemory_setCtx _ _⟩
  · exact ((Puts.writeLocs s bytes).then_same (.closePins _ _ _)).then_same (.setCtx _ _ _)
  · rw [ctx_setCtx_other _ _ _ _ hd, written.ctx]

/-- Delayed stores are performed one after another. -/
theorem settleFirst_performs (c : Nat) (q : List Held) (stores : ∀ h ∈ q, ∃ n m bs, h = .store n m bs) (s : State)
    (h : (s.ctx c).delayed = q) : Puts s (s.settleFirst c q.length) (q.flatMap Held.bytes) ∧
      (s.settleFirst c q.length).ctx c = { s.ctx c with delayed := [] } ∧
      (∀ d, d ≠ c → (s.settleFirst c q.length).ctx d = s.ctx d) ∧ OnlyMemory s (s.settleFirst c q.length) := by
  induction q generalizing s with
  | nil =>
    have own : s.ctx c = { s.ctx c with delayed := [] } := by rw [← h]
    exact ⟨.of_eq rfl fun _ _ => rfl, own, fun _ _ => rfl, (BytesWritten.refl s).onlyMemory_of rfl⟩
  | cons x q ih =>
    obtain ⟨n, m, bytes, rfl⟩ := stores x List.mem_cons_self
    obtain ⟨first, own, others, only⟩ := settleOne_store h
    obtain ⟨later, own', others', only'⟩ := ih (fun y hy => stores y (List.mem_cons_of_mem _ hy)) (s.settleOne c) (by rw [own])
    exact ⟨first.append later, by rw [List.length_cons, State.settleFirst, own', own],
      fun d hd => (others' d hd).trans (others d hd), onlyMemory_trans only only'⟩

/-- The delayed scalar stores of a context are performed in program order. -/
theorem settleStores_performs (s : State) (c : Nat) (stores : ∀ h ∈ (s.ctx c).delayed, ∃ n m bs, h = .store n m bs) :
    let t := s.settleStores c
    let ws := (s.ctx c).delayed.flatMap Held.bytes
    t.ctx c = { s.ctx c with delayed := [] } ∧ (∀ d, d ≠ c → t.ctx d = s.ctx d) ∧
    (∀ l, (∀ w ∈ ws, w.1 ≠ l) → t.locByte l = s.locByte l) ∧
    (∀ pre w post, ws = pre ++ w :: post → (∀ v ∈ post, v.1 ≠ w.1) → Holds s w.1 → t.locByte w.1 = w.2) ∧ OnlyMemory s t := by
  obtain ⟨puts, own, others, only⟩ := settleFirst_performs c _ stores s rfl
  exact ⟨own, others, puts.kept, puts.last, only⟩

/-! ### A store that is delayed -/

theorem bytesOf_eq_leBytes (n v : Nat) : bytesOf n v = leBytes n v := by
  induction n generalizing v with
  | zero => rfl
  | succ n ih =>
    rw [bytesOf, ih, leBytes, leBytes, List.range_succ_eq_map, List.map_cons, List.map_map]
    refine congrArg₂ List.cons (by simp) (List.map_congr_left fun k _ => ?_)
    rw [Function.comp, Nat.succ_eq_add_one, Nat.pow_succ', Nat.div_div_eq_div_mul]

theorem widthBytes_two_bits (w : BitVec 2) : widthBytes w.toNat = 2 ^ w.toNat := by
  rw [widthBytes, Nat.mod_eq_of_lt w.isLt]

/-- The address of a scalar access (R80). -/
theorem memAddr_eq_ofInt (a : BitVec 5) (o : BitVec 13) (s : State) : memAddr a o s = BitVec.ofInt 64 ((s.me.reg a).toNat + o.toInt) := by
  rw [memAddr, BitVec.ofInt_add, BitVec.ofInt_natCast, BitVec.ofNat_toNat, BitVec.setWidth_eq]
  rfl

section
variable (d a : BitVec 5) (o : BitVec 13) (w : BitVec 2) {s t : State}

theorem delaySt_misaligned (h : (memAddr a o s).toNat % 2 ^ w.toNat ≠ 0) :
    delaySt d a o w s = .next (s.trapNow 0x010 (memAddr a o s) noInfo) := by
  refine complete_trap ?_
  have bad : ((memAddr a o s).toNat % widthBytes w.toNat == 0) = false := by simpa [widthBytes_two_bits] using h
  simp [aligned, bad]

/-- Once it has its places the store waits at the end of the context's scalar accesses. -/
theorem delaySt_delays {ls : List Loc} (h : (memAddr a o s).toNat % 2 ^ w.toNat = 0)
    (found : (locateBytes s.who .write (memAddr a o s).toNat (2 ^ w.toNat)).run s = (.ok ls, t)) :
    delaySt d a o w s = .next (t.setMe { t.me with
      delayed := t.me.delayed ++ [Held.store t.me.newStamp t.me.sAfter (ls.zip (leBytes (2 ^ w.toNat) (s.me.reg d).toNat))]
      pc := nextPc t.me.pc 1, stall := [], busy := false }) := by
  have good : ((memAddr a o s).toNat % widthBytes w.toNat == 0) = true := by simpa [widthBytes_two_bits] using h
  rw [← widthBytes_two_bits] at found
  have run : (do
      let x := memAddr a o s
      aligned x (widthBytes w.toNat)
      let ls ← locateBytes s.who .write x.toNat (widthBytes w.toNat)
      modMe fun m => { m with delayed := m.delayed ++
        [Held.store m.newStamp m.sAfter (ls.zip (bytesOf (widthBytes w.toNat) (s.me.reg d).toNat))] }).run s =
      (.ok (), t.setMe { t.me with delayed := t.me.delayed ++
        [Held.store t.me.newStamp t.me.sAfter (ls.zip (bytesOf (widthBytes w.toNat) (s.me.reg d).toNat))] }) := by
    simp [aligned, good, found]
  rw [delaySt, complete_ok run, me_setMe, bytesOf_eq_leBytes, widthBytes_two_bits]
  exact congrArg Host.Outcome.next (setCtx_setCtx _ _ _ _)

end

end Sys2Proof.Machine

namespace Sys2Proof.Machine

/-! ### What an access waits for -/

theorem le_foldl_max (l : List Nat) (m : Nat) : m ≤ l.foldl max m :=
  List.foldlRecOn (motive := fun n => m ≤ n) l max (Nat.le_refl m) fun n hn k _ => hn.trans (Nat.le_max_left n k)

theorem mem_le_foldl_max {l : List Nat} {n : Nat} (h : n ∈ l) (m : Nat) : n ≤ l.foldl max m := by
  induction l generalizing m with
  | nil => exact absurd h List.not_mem_nil
  | cons k l ih =>
    rw [List.foldl_cons]
    obtain rfl | h := List.mem_cons.1 h
    · exact (Nat.le_max_right m n).trans (le_foldl_max l _)
    · exact ih h _

/-- A new access has a later stamp than every scalar access in flight. -/
theorem stamp_lt_newStamp {x : Ctx} {h : Held} (waits : h ∈ x.delayed) : h.stamp < x.newStamp := by
  have listed : h.stamp + 1 ∈ x.delayed.map fun h => h.stamp + 1 := List.mem_map_of_mem waits
  exact (mem_le_foldl_max listed _).trans (le_foldl_max _ _)

theorem le_closeBounds (x : Ctx) (sc ve fuel : Nat) : sc ≤ (x.closeBounds sc ve fuel).1 := by
  induction fuel generalizing sc ve with
  | zero => exact Nat.le_refl sc
  | succ fuel ih =>
    unfold Ctx.closeBounds
    dsimp only
    split
    · exact Nat.le_refl sc
    · exact (le_foldl_max _ sc).trans (ih _ _)

/-- An instruction that waits for older scalar accesses waits for all that are in flight. -/
theorem newStamp_le_placeBounds (x : Ctx) (i : Instr) {need : Need} (h : need = .scalar ∨ need = .both ∨ need = .own) :
    x.newStamp ≤ (placeBounds x i need).1 := by
  unfold placeBounds
  obtain rfl | rfl | rfl := h <;> exact (Nat.le_max_left _ _).trans (le_closeBounds _ _ _ _)

/-- The upper part of two fields side by side. -/
theorem toNat_append_div {m n : Nat} (a : BitVec m) (b : BitVec n) : (a ++ b).toNat / 2 ^ n = a.toNat := by
  rw [BitVec.toNat_append, ← Nat.shiftLeft_add_eq_or_of_lt b.isLt, Nat.shiftLeft_eq, Nat.mul_comm,
    Nat.mul_add_div (Nat.two_pow_pos n), Nat.div_eq_of_lt b.isLt, Nat.add_zero]

/-- The major codes of the scalar accesses and of the stream instructions, above the fields of their words (R80, R81, R341). -/
theorem majorOf_ld (d a : BitVec 5) (o : BitVec 13) (w : BitVec 3) : majorOf (.ld d a o w) = 0x0B := by
  rw [majorOf, encode, show (2 : Nat) ^ 26 = 2 ^ 3 * 2 ^ 13 * 2 ^ 5 * 2 ^ 5 from rfl]
  simp only [← Nat.div_div_eq_div_mul, toNat_append_div]
  rfl

theorem majorOf_st (d a : BitVec 5) (o : BitVec 13) (w : BitVec 2) : majorOf (.st d a o w) = 0x0C := by
  rw [majorOf, encode, show (2 : Nat) ^ 26 = 2 ^ 2 * 2 ^ 1 * 2 ^ 13 * 2 ^ 5 * 2 ^ 5 from rfl]
  simp only [← Nat.div_div_eq_div_mul, toNat_append_div]
  rfl

theorem majorOf_amoAdd (d a b : BitVec 5) (z : BitVec 1) : majorOf (.amoAdd d a b z) = 0x0D := by
  rw [majorOf, encode, show (2 : Nat) ^ 26 = 2 ^ 4 * 2 ^ 1 * 2 ^ 6 * 2 ^ 5 * 2 ^ 5 * 2 ^ 5 from rfl]
  simp only [← Nat.div_div_eq_div_mul, toNat_append_div]
  rfl

theorem majorOf_amoSwap (d a b : BitVec 5) (z : BitVec 1) : majorOf (.amoSwap d a b z) = 0x0D := by
  rw [majorOf, encode, show (2 : Nat) ^ 26 = 2 ^ 4 * 2 ^ 1 * 2 ^ 6 * 2 ^ 5 * 2 ^ 5 * 2 ^ 5 from rfl]
  simp only [← Nat.div_div_eq_div_mul, toNat_append_div]
  rfl

theorem majorOf_cas (d a b c : BitVec 5) (z : BitVec 1) : majorOf (.cas d a b c z) = 0x0D := by
  rw [majorOf, encode, show (2 : Nat) ^ 26 = 2 ^ 4 * 2 ^ 1 * 2 ^ 1 * 2 ^ 5 * 2 ^ 5 * 2 ^ 5 * 2 ^ 5 from rfl]
  simp only [← Nat.div_div_eq_div_mul, toNat_append_div]
  rfl

theorem majorOf_sisect (d a b : BitVec 5) : majorOf (.sisect d a b) = 0x1A := by
  rw [majorOf, encode, show (2 : Nat) ^ 26 = 2 ^ 11 * 2 ^ 5 * 2 ^ 5 * 2 ^ 5 from rfl]
  simp only [← Nat.div_div_eq_div_mul, toNat_append_div]
  rfl

theorem majorOf_smerge (d a b : BitVec 5) : majorOf (.smerge d a b) = 0x1A := by
  rw [majorOf, encode, show (2 : Nat) ^ 26 = 2 ^ 11 * 2 ^ 5 * 2 ^ 5 * 2 ^ 5 from rfl]
  simp only [← Nat.div_div_eq_div_mul, toNat_append_div]
  rfl

/-- What the major code alone says of an instruction's need: the last line of `needOf`. -/
def needByMajor (i : Instr) : Need :=
  let m := majorOf i
  if m == 0x0B || m == 0x0C || m == 0x0D || m == 0x1A then .scalar
  else if m == 0x28 || m == 0x2C then .vector
  else if m == 0x2B then (if (encode i).getLsbD 5 then .both else .vector)
  else .none

theorem needByMajor_scalar {i : Instr} (h : majorOf i = 0x0B ∨ majorOf i = 0x0C ∨ majorOf i = 0x0D ∨ majorOf i = 0x1A) :
    needByMajor i = .scalar := by
  unfold needByMajor
  obtain h | h | h | h := h <;> simp [h]

/-- Scalar accesses, releases and fences over path O wait for the older scalar accesses (R168, R170, R172). -/
theorem needOf_scalar (d a b c : BitVec 5) (o : BitVec 13) (w : BitVec 3) (v : BitVec 2) (z : BitVec 1) :
    ∀ i ∈ ([.ld d a o w, .st d a o v, .amoAdd d a b z, .amoSwap d a b z, .cas d a b c z, .barrive d a b, .barwait d a b c, .sisect d a b,
      .smerge d a b, .tspawn a, .tend, .svfence 1, .svfence 3, .fence 1 w] : List Instr),
      needOf i = .scalar ∨ needOf i = .both ∨ needOf i = .own := by
  simp only [List.mem_cons, List.not_mem_nil, or_false, forall_eq_or_imp, forall_eq]
  have ld : needOf (.ld d a o w) = needByMajor (.ld d a o w) := rfl
  have st : needOf (.st d a o v) = needByMajor (.st d a o v) := rfl
  have amoAdd : needOf (.amoAdd d a b z) = needByMajor (.amoAdd d a b z) := rfl
  have amoSwap : needOf (.amoSwap d a b z) = needByMajor (.amoSwap d a b z) := rfl
  have cas : needOf (.cas d a b c z) = needByMajor (.cas d a b c z) := rfl
  have sisect : needOf (.sisect d a b) = needByMajor (.sisect d a b) := rfl
  have smerge : needOf (.smerge d a b) = needByMajor (.smerge d a b) := rfl
  rw [ld, st, amoAdd, amoSwap, cas, sisect, smerge]
  exact ⟨.inl (needByMajor_scalar (by simp [majorOf_ld])), .inl (needByMajor_scalar (by simp [majorOf_st])),
    .inl (needByMajor_scalar (by simp [majorOf_amoAdd])), .inl (needByMajor_scalar (by simp [majorOf_amoSwap])),
    .inl (needByMajor_scalar (by simp [majorOf_cas])), .inr (.inl rfl), .inl rfl, .inl (needByMajor_scalar (by simp [majorOf_sisect])),
    .inl (needByMajor_scalar (by simp [majorOf_smerge])), .inr (.inl rfl), .inr (.inr rfl), .inl rfl, .inr (.inl rfl), .inr (.inl rfl)⟩

/-- Settles O28: performing writes the bytes in some order that keeps each instruction's, and a delayed store only joins its queue. -/
theorem queuedStoresPerformed : Obligations.QueuedStoresPerformed := by
  unfold Obligations.QueuedStoresPerformed
  refine ⟨drain_performs, settleStores_performs, fun d a o w s t ls => ?_, fun d a b c o w v z x i hi h waits => ?_⟩
  · rw [← memAddr_eq_ofInt]
    exact ⟨delaySt_misaligned d a o w, delaySt_delays d a o w⟩
  · exact (stamp_lt_newStamp waits).trans_le (newStamp_le_placeBounds x i (needOf_scalar d a b c o w v z i hi))

end Sys2Proof.Machine

/-! ## RPT (R65, R66, R336, R337) -/

namespace Sys2Proof.Machine

open Sys2Proof.Claims

section
variable {n : BitVec 10} {k : BitVec 4} {g : BitVec 3} {x y z : BitVec 1} {s u t : State} {w : BitVec 32} {i : Instr}

/-- What an RPT frame does to its position and, at its end, to the program counter once a captured word has run. -/
def rptMoves (n : BitVec 10) (k : BitVec 4) (j e : Nat) : M Unit := do
  if e < k.toNat then modMe fun c => { c with rptpos := rptAt j (e + 1) }
  else if j < n.toNat then modMe fun c => { c with rptpos := rptAt (j + 1) 0 }
  else modMe fun c => { c with rptpos := 0, rpt := [], pc := nextPc c.pc (k.toNat + 2), stall := [], busy := false }

/-- Without the feature RPT traps as it issues. -/
theorem rpt_disabled (fresh : s.me.rpt = []) (off : s.myPkg.enable.getLsbD 10 = false) :
    Traps (.rpt n k g x y z) s 0x004 ((encode (.rpt n k g x y z)).setWidth 64) := by
  have refused (j : Instr) : (feature 10 j).run s = (.error (.trap 0x004 (instrWord j) noInfo), s) := by
    rw [run_feature, off]
    rfl
  exact finishWith_trap (by simp [rptIssue, fresh, refused, instrWord])

/-- A step of an RPT frame: the word at the position runs with its staggered fields, then the position moves. -/
theorem execRpt_run (issued : (rptIssue (.rpt n k g x y z) (n.toNat + 1) (k.toNat + 1)).run s = (.ok (), u))
    (word : u.me.rpt[u.me.rptpos.toNat % 16]? = some w)
    (legal : decode (stagger x y z (g.toNat + 1) (u.me.rptpos.toNat / 16 % 2 ^ 10) w) = .ok i) :
    execRpt n k g x y z s =
      finishOpen (do
        rptIssue (.rpt n k g x y z) (n.toNat + 1) (k.toNat + 1)
        capturedMeaning i
        rptMoves n k (u.me.rptpos.toNat / 16 % 2 ^ 10) (u.me.rptpos.toNat % 16)) s := by
  have iteration : field u.me.rptpos.toNat 4 10 = u.me.rptpos.toNat / 16 % 2 ^ 10 := by simp [field, Nat.shiftRight_eq_div_pow]
  have position : field u.me.rptpos.toNat 0 4 = u.me.rptpos.toNat % 16 := by simp [field]
  unfold execRpt finishOpen finishWith
  simp only [run_bind, issued, run_getS, iteration, position, word, Option.getD_some, legal]
  rfl

end

/-- Settles O50: a step is the issue, the captured word and the move of the position, one after another. -/
theorem repeatFrame : Obligations.RepeatFrame := by
  unfold Obligations.RepeatFrame
  intro n k g x y z s u w i p j e
  refine ⟨rpt_disabled, fun issued word legal => ⟨fun t ran pc => ?_, fun t cause info f trapped => ?_⟩⟩
  · have moved : (rptMoves n k j e).run t = (.ok (), t.setMe
        (if e < k.toNat then { t.me with rptpos := BitVec.ofNat 64 (2 ^ 63 + j * 16 + (e + 1)) }
         else if j < n.toNat then { t.me with rptpos := BitVec.ofNat 64 (2 ^ 63 + (j + 1) * 16) }
         else { t.me with rptpos := 0, rpt := [], pc := nextPc u.me.pc (k.toNat + 2), stall := [], busy := false })) := by
      unfold rptMoves
      rw [← pc]
      split
      · rfl
      · split <;> rfl
    refine (execRpt_run issued word legal).trans (finishWith_ok ?_)
    simp only [run_bind, issued, ran]
    exact moved
  · refine (execRpt_run issued word legal).trans (finishWith_trap ?_)
    simp only [run_bind, issued, trapped]

end Sys2Proof.Machine

/-! ## Elements and lists of the vector instructions -/

namespace Sys2Proof.Machine

open Sys2Proof.Claims

/-! ### Lists -/

theorem span_eq_range' (a n : Nat) : span a n = List.range' a n := by
  induction n generalizing a with
  | zero => rfl
  | succ n ih => rw [span, ih, List.range'_succ]

theorem span_zero (n : Nat) : span 0 n = List.range n := by rw [span_eq_range', List.range_eq_range']

/-- Keeping the first of equal entries, one after another, is `eraseDups`. -/
theorem foldl_firsts {α : Type} [BEq α] [LawfulBEq α] (l : List α) (acc : List α) :
    l.foldl (fun acc x => if acc.contains x then acc else acc ++ [x]) acc = acc ++ (l.filter fun x => !acc.contains x).eraseDups := by
  induction l generalizing acc with
  | nil => simp
  | cons x l ih =>
    rw [List.foldl_cons, ih]
    by_cases h : acc.contains x = true
    · simp only [h, ↓reduceIte, List.filter_cons, Bool.not_true, Bool.false_eq_true]
    · simp only [h, Bool.false_eq_true, ↓reduceIte, List.filter_cons, Bool.not_false, List.eraseDups_cons,
        List.append_assoc, List.singleton_append, List.filter_filter]
      congr 3
      refine List.filter_congr fun y _ => ?_
      by_cases e : y = x <;> simp [e, List.contains_eq_mem]

theorem distinct_eq_eraseDups (l : List Word) : distinct l = l.eraseDups := by
  simpa [distinct] using foldl_firsts l []

theorem pairwise_lt_eraseDups {l : List Nat} (sorted : l.Pairwise (· ≤ ·)) : l.eraseDups.Pairwise (· < ·) := by
  induction h : l.length using Nat.strong_induction_on generalizing l with
  | _ n ih =>
    cases l with
    | nil => simp
    | cons a l =>
      rw [List.pairwise_cons] at sorted
      obtain ⟨le, rest⟩ := sorted
      rw [List.eraseDups_cons, List.pairwise_cons]
      refine ⟨fun b hb => ?_, ih _ ?_ (rest.filter _) rfl⟩
      · have := le b (List.mem_filter.mp (List.mem_eraseDups.mp hb)).1
        have : b ≠ a := by simpa using (List.mem_filter.mp (List.mem_eraseDups.mp hb)).2
        omega
      · have := List.length_filter_le (fun b => !b == a) l
        simp only [List.length_cons] at h
        omega

/-- The first of equal neighbours or the last: in ascending order the same list is left. -/
theorem dedup_eq_dedup {l : List Nat} (sorted : l.Pairwise (· ≤ ·)) : dedup l = l.dedup := by
  have firsts : dedup l = l.eraseDups := by simpa [dedup] using foldl_firsts l []
  have lasts : l.dedup.Pairwise (· < ·) :=
    ((sorted.sublist (List.dedup_sublist l)).and (List.nodup_dedup l)).imp fun h => by omega
  rw [firsts]
  exact (pairwise_lt_eraseDups sorted).eq_of_mem_iff lasts fun a => by simp [List.mem_eraseDups]

theorem leastBy_of_sorted {α : Type} (key : α → Nat) {x : α} {l : List α} (sorted : (x :: l).Pairwise fun a b => key a ≤ key b) :
    leastBy key (x :: l) = some x := by
  induction l generalizing x with
  | nil => rfl
  | cons y l ih =>
    rw [List.pairwise_cons] at sorted
    have : ¬key y < key x := by have := sorted.1 y (by simp); omega
    rw [leastBy, ih sorted.2]
    simp [this]

/-! ### Elements -/

theorem elem_eq (v : BitVec 8192) (w i : Nat) : elem v w i = v.toNat / 2 ^ (w * i) % 2 ^ w := by
  simp [elem, slice, BitVec.extractLsb'_toNat, Nat.shiftRight_eq_div_pow]

theorem vel_eq_elem (x : Ctx) (r : BitVec 5) (w i : Nat) : vel x r w i = elem (regGet x.v r) w i := (elem_eq _ _ _).symm

theorem width_eq_sewBits (x : Ctx) : x.width = sewBits x := by
  simp [Ctx.width, sewBits, Ctx.sew, slice, BitVec.extractLsb'_toNat]

theorem at_eq_vel (x : Ctx) (r : BitVec 5) (i : Nat) : x.at r i = vel x r (sewBits x) i := by
  rw [vel_eq_elem, ← width_eq_sewBits]; rfl

theorem slice_splice_ofNat {n : Nat} (x : BitVec n) (lo len v : Nat) (h : lo + len ≤ n) : slice (splice x lo len v) lo len = BitVec.ofNat len v := by
  refine BitVec.eq_of_getLsbD_eq fun i hi => ?_
  rw [slice, BitVec.getLsbD_extractLsb', getLsbD_splice _ _ _ _ _ (by omega)]
  simp [hi, BitVec.getLsbD_ofNat, -BitVec.getLsbD_eq_getElem]

theorem elem_splice_same (v : BitVec 8192) {w i : Nat} (y : Nat) (h : (i + 1) * w ≤ 8192) : elem (splice v (w * i) w y) w i = y % 2 ^ w := by
  have fits : w * i + w ≤ 8192 := by rw [Nat.add_mul, Nat.mul_comm, Nat.one_mul] at h; omega
  rw [elem, slice_splice_ofNat _ _ _ _ fits, BitVec.toNat_ofNat]

theorem elem_splice_other (v : BitVec 8192) {w i j : Nat} (y : Nat) (h : j ≠ i) : elem (splice v (w * j) w y) w i = elem v w i := by
  have apart : w * i + w ≤ w * j ∨ w * j + w ≤ w * i := by
    rcases Nat.lt_or_gt_of_ne h with l | l
    · right; calc w * j + w = w * (j + 1) := by ring
        _ ≤ w * i := Nat.mul_le_mul_left _ l
    · left; calc w * i + w = w * (i + 1) := by ring
        _ ≤ w * j := Nat.mul_le_mul_left _ l
  rw [elem, slice_splice_other _ _ _ _ _ _ apart, elem]

/-- An element that none of the writes names keeps its bits. -/
theorem elem_setElems_of_not_mem (v : BitVec 8192) {w i : Nat} {l : List (Nat × Nat)} (h : ∀ e ∈ l, e.1 ≠ i) :
    elem (setElems v w l) w i = elem v w i := by
  induction l generalizing v with
  | nil => rfl
  | cons e l ih =>
    rw [setElems, List.foldl_cons, ← setElems, ih _ fun e he => h e (by simp [he])]
    exact elem_splice_other v _ (h e (by simp))

/-- An element reads as the writes that name it say. -/
theorem elem_setElems_of_mem (v : BitVec 8192) {w i y : Nat} {l : List (Nat × Nat)} (fits : (i + 1) * w ≤ 8192)
    (named : ∃ e ∈ l, e.1 = i) (agree : ∀ e ∈ l, e.1 = i → e.2 = y) : elem (setElems v w l) w i = y % 2 ^ w := by
  induction l generalizing v with
  | nil => simp at named
  | cons e l ih =>
    rw [setElems, List.foldl_cons, ← setElems]
    by_cases later : ∃ e ∈ l, e.1 = i
    · exact ih _ later fun e he => agree e (by simp [he])
    · have last : e.1 = i := by
        obtain ⟨f, hf, e1⟩ := named
        rcases List.mem_cons.mp hf with rfl | hf
        · exact e1
        · exact absurd ⟨f, hf, e1⟩ later
      rw [elem_setElems_of_not_mem _ fun f hf e1 => later ⟨f, hf, e1⟩, last, elem_splice_same _ _ fits, agree e (by simp) last]

/-! ### Masks of elements -/

theorem getLsbD_setBits (m : BitVec 1024) (l : List Nat) (i : Nat) (hi : i < 1024) :
    (setBits m (l.map fun k => (k, true))).getLsbD i = (decide (i ∈ l) || m.getLsbD i) := by
  induction l generalizing m with
  | nil => simp [setBits]
  | cons k l ih =>
    rw [List.map_cons, setBits, List.foldl_cons, ← setBits, ih, getLsbD_splice _ _ _ _ _ hi]
    by_cases h : i = k
    · simp [h, flag]
    · rw [if_neg (by omega)]; simp [h]

theorem getLsbD_sum_two_pow {l : List Nat} (nodup : l.Nodup) (i : Nat) (hi : i < 1024) :
    (BitVec.ofNat 1024 ((l.map (2 ^ ·)).sum)).getLsbD i = decide (i ∈ l) := by
  induction l generalizing i with
  | nil => simp
  | cons k l ih =>
    rw [List.nodup_cons] at nodup
    have one (j : Nat) (hj : j < 1024) : (BitVec.ofNat 1024 (2 ^ k)).getLsbD j = decide (j = k) := by
      rw [BitVec.getLsbD_ofNat, Nat.testBit_two_pow]
      simp [hj, eq_comm]
    have apart : BitVec.ofNat 1024 (2 ^ k) &&& BitVec.ofNat 1024 ((l.map (2 ^ ·)).sum) = 0 := by
      refine BitVec.eq_of_getLsbD_eq fun j hj => ?_
      rw [BitVec.getLsbD_and, one j hj, ih nodup.2 j hj]
      by_cases h : j = k
      · simp [h, nodup.1]
      · simp [h]
    rw [List.map_cons, List.sum_cons, BitVec.ofNat_add, BitVec.add_eq_or_of_and_eq_zero _ _ apart, BitVec.getLsbD_or, one i hi,
      ih nodup.2 i hi]
    simp

/-- The mask of a batch's remaining elements (R163). -/
theorem maskOf_eq {l : List Nat} (nodup : l.Nodup) : maskOf l = BitVec.ofNat 1024 ((l.map (2 ^ ·)).sum) := by
  refine BitVec.eq_of_getLsbD_eq fun i hi => ?_
  rw [maskOf, getLsbD_setBits _ _ _ hi, getLsbD_sum_two_pow nodup i hi]
  simp

/-! ### The elements of a batch -/

theorem batchList_eq (x : Ctx) (m : BitVec 1) (r : BitVec 3) (start : Nat) :
    (x.activesFrom m r start).filter (fun i => x.vfm == 0 || x.vfm.getLsbD i) = batchList x m r start := by
  have below : List.range' start (x.vl.toNat - start) = (List.range x.vl.toNat).filter fun k => decide (start ≤ k) := by
    refine (List.pairwise_lt_range' (s := start)).eq_of_mem_iff ((List.pairwise_lt_range).filter _) fun a => ?_
    simp only [List.mem_range'_1, List.mem_filter, List.mem_range, decide_eq_true_eq]
    omega
  rw [Ctx.activesFrom, span_eq_range', below, batchList, List.filter_filter, List.filter_filter]
  refine List.filter_congr fun k hk => ?_
  simp only [Ctx.active, List.mem_range.mp hk, decide_true, Bool.true_and]
  cases decide (start ≤ k) <;> cases (m == 0#1 || (get8 x.m r).getLsbD k) <;> simp

theorem passElems_eq (x : Ctx) (m : BitVec 1) (r : BitVec 3) : x.passElems m r = batchList x m r x.vstart.toNat := batchList_eq x m r _

theorem mem_activesFrom {x : Ctx} {m : BitVec 1} {r : BitVec 3} {start k : Nat} :
    k ∈ x.activesFrom m r start ↔ start ≤ k ∧ On x m r k := by
  rw [Ctx.activesFrom, span_eq_range', List.mem_filter, List.mem_range'_1]
  simp only [Ctx.active, On, Bool.and_eq_true, Bool.or_eq_true, decide_eq_true_eq, beq_iff_eq]
  grind

theorem mem_actives {x : Ctx} {m : BitVec 1} {r : BitVec 3} {k : Nat} : k ∈ x.actives m r ↔ Runs x m r k := mem_activesFrom

theorem pairwise_activesFrom (x : Ctx) (m : BitVec 1) (r : BitVec 3) (start : Nat) : (x.activesFrom m r start).Pairwise (· < ·) := by
  rw [Ctx.activesFrom, span_eq_range']
  exact (List.pairwise_lt_range').filter _

theorem pairwise_batchList (x : Ctx) (m : BitVec 1) (r : BitVec 3) (start : Nat) : (batchList x m r start).Pairwise (· < ·) :=
  List.pairwise_lt_range.filter _

theorem mem_batchList {x : Ctx} {m : BitVec 1} {r : BitVec 3} {start k : Nat} :
    k ∈ batchList x m r start ↔ (start ≤ k ∧ On x m r k) ∧ (x.vfm = 0 ∨ x.vfm.getLsbD k = true) := by
  rw [← batchList_eq, List.mem_filter, mem_activesFrom]
  simp

theorem mem_batchList_vstart {x : Ctx} {m : BitVec 1} {r : BitVec 3} {k : Nat} : k ∈ batchList x m r x.vstart.toNat ↔ Batch x m r k :=
  mem_batchList

end Sys2Proof.Machine

/-! ## Finding the places of an element -/

namespace Sys2Proof.Machine

open Sys2Proof.Claims

/-! ### What a translation reads -/

/-- Two states and agents for which every translation is the same: the tables, memory and what the agent has waited for (R153 to R158). -/
structure SameView (s t : State) (who agent : Who) : Prop where
  tlb : t.tlb = s.tlb
  mem : t.mem = s.mem
  poison : t.poison = s.poison
  pkgs : t.pkgs = s.pkgs
  core : agent.core = who.core
  unit : agent.unit = who.unit
  mode : agent.mode = who.mode
  waits : agent.waits = who.waits

namespace SameView
variable {s t : State} {who agent : Who}

theorem physical (h : SameView s t who agent) : Machine.physical t = Machine.physical s := funext fun p => funext fun a => physical_congr h.pkgs p a

theorem poisoned (h : SameView s t who agent) : Machine.poisoned t = Machine.poisoned s := by funext a; simp [Machine.poisoned, h.poison]

theorem walkFrom (h : SameView s t who agent) (va node : Nat) (l : List Nat) : walkFrom t agent va node l = walkFrom s who va node l := by
  induction l generalizing node with
  | nil => rfl
  | cons sh l ih =>
    have expired (k : Nat) : waitExpired t agent k = waitExpired s who k := by
      unfold waitExpired State.pkg; rw [h.waits, h.core, h.pkgs]
    simp only [Machine.walkFrom, h.core, h.physical, h.mem, h.poisoned, expired, ih]

theorem walk (h : SameView s t who agent) (va : Nat) : walk t agent va = walk s who va := by
  simp only [Machine.walk, h.walkFrom, h.core, State.pkg, h.pkgs]

theorem serves (h : SameView s t who agent) : serves agent = serves who := by
  funext va e; simp only [Machine.serves, h.core, h.unit]

theorem cached (h : SameView s t who agent) (va : Nat) : cached t agent va = cached s who va := by simp only [Machine.cached, h.tlb, h.serves]

theorem cachedTable (h : SameView s t who agent) (va : Nat) : cachedTable t agent va = cachedTable s who va := by
  simp only [Machine.cachedTable, h.tlb, h.serves]

theorem translate (h : SameView s t who agent) (kind : Access) (va : Nat) : translate t agent kind va = translate s who kind va := by
  simp only [Machine.translate, translate.fresh, h.cached, h.cachedTable, h.walkFrom, h.walk, h.mode]

theorem cacheFails (h : SameView s t who agent) (kind : Access) (va : Nat) : cacheFails t agent kind va = cacheFails s who kind va := by
  simp only [Machine.cacheFails, h.cached, h.cachedTable, h.walkFrom, h.mode]

theorem mapped (h : SameView s t who agent) {kind : Access} {va n pa : Nat} (m : Mapped s who kind va n pa) : Mapped t agent kind va n pa := by
  simpa only [Mapped, Leads, h.cacheFails, h.translate, h.physical, h.poisoned, h.core] using m

end SameView

/-- A page is no smaller than a line, so that an access to one line reaches one line. -/
theorem translate_line {s : State} {who : Who} {kind : Access} {va a : Nat} (h : translate s who kind va = .ok a) : a % 64 ≤ va % 64 := by
  have target (e sh : Nat) : leafTarget e sh va % 64 ≤ va % 64 := by
    have whole : ptePa e % 64 = 0 := by unfold ptePa; omega
    have small : va % 2 ^ sh % 64 ≤ va % 64 := by
      rcases Nat.le_total 6 sh with l | l
      · rw [show (64 : Nat) = 2 ^ 6 from rfl, Nat.mod_mod_of_dvd _ (Nat.pow_dvd_pow 2 l)]
      · have : va % 2 ^ sh ≤ va % 64 := by
          rw [← Nat.mod_mod_of_dvd va (show 2 ^ sh ∣ 64 from Nat.pow_dvd_pow 2 l)]; exact Nat.mod_le _ _
        omega
    unfold leafTarget
    omega
  have fresh {a : Nat} (h : translate.fresh s who kind va = .ok a) : a % 64 ≤ va % 64 := by
    unfold translate.fresh at h
    split at h
    · cases h
    · split at h <;> cases h
      exact target _ _
  unfold translate at h
  split at h
  · split at h
    · cases h; exact target _ _
    · exact fresh h
  · split at h
    · split at h
      · split at h
        · cases h; exact target _ _
        · exact fresh h
      · exact fresh h
    · exact fresh h

/-! ### Accesses to mapped lines -/

section
variable {s : State} {who : Who} {kind : Access} {va n pa : Nat}

theorem reaches_of_mapped (h : Mapped s who kind va n pa) : Reaches s who kind va pa := by
  obtain ⟨_, _, _, ⟨fresh, found⟩, whole⟩ := h
  exact ⟨fresh, found, whole⟩

theorem line_of_mapped (h : Mapped s who kind va n pa) : pa % 64 + n ≤ 64 := by
  obtain ⟨_, _, line, ⟨_, a, found, there⟩, _⟩ := h
  have := translate_line found
  unfold physical at there
  split at there
  · obtain ⟨q, _, rfl⟩ := Option.map_eq_some_iff.mp there
    omega
  · cases there

theorem run_checkPoison (ls : List Loc) : (checkPoison va ls).run s =
    (if ls.any s.locPoisoned then .error (.trap 0x381 (word va) (atAddr va 0)) else .ok (), s) := by
  simp only [checkPoison, run_bind, run_getS]
  split <;> rfl

theorem run_placesOf (h : Mapped s who kind va n pa) : (placesOf who kind va n).run s = (.ok (placesAt pa n), s) := by
  have line := line_of_mapped h
  have found : (locateBytes who kind va n).run s = (.ok (placesAt pa n), s) := by
    obtain ⟨low, pos, inside, _, _⟩ := id h
    exact (reaches_of_mapped h).run_locateBytes low pos inside
  rcases (reaches_of_mapped h).whole with rfl | clean
  · simp [placesOf, found]
  · have whole : (placesAt pa n).any s.locPoisoned = false := by
      simp only [placesAt, List.any_eq_false, List.mem_map, List.mem_range]
      rintro _ ⟨k, hk, rfl⟩
      simp only [State.locPoisoned, poisoned] at clean ⊢
      rw [show (pa + k) / 64 = pa / 64 by omega, clean]
      simp
    have passes : (checkPoison va (placesAt pa n)).run s = (.ok (), s) := by rw [run_checkPoison, whole]; rfl
    simp only [placesOf, run_bind, found]
    split <;> simp [passes]

/-- The accesses of an element to mapped lines, one after another. -/
theorem run_placesAll {β : Type} (l : List β) (adr len at_ : β → Nat) (h : ∀ j ∈ l, Mapped s who kind (adr j) (len j) (at_ j)) :
    (placesAll who kind (l.map fun j => (adr j, len j))).run s = (.ok (.ok (l.flatMap fun j => placesAt (at_ j) (len j))), s) := by
  induction l with
  | nil => rfl
  | cons j l ih =>
    simp [placesAll, run_placesOf (h j (by simp)), ih fun i hi => h i (by simp [hi])]

theorem run_elementPlaces_eq (s : State) (who : Who) (kind : Access) (accs : List (Nat × Nat)) : (elementPlaces who kind accs).run s =
    match (placesAll { who with since := s.clock } kind accs).run s with
    | (.ok (.error (va, .wait)), t) =>
      if s.me.onlyStores then (placesAll { who with since := (s.storesDone s.cur).clock } kind accs).run (s.storesDone s.cur)
      else (.ok (.error (va, .wait)), t)
    | r => r := rfl

theorem run_elementPlaces_of_placesAll {accs : List (Nat × Nat)} {ls : List Loc}
    (h : (placesAll { who with since := s.clock } kind accs).run s = (.ok (.ok ls), s)) :
    (elementPlaces who kind accs).run s = (.ok (.ok ls), s) := by
  rw [run_elementPlaces_eq, h]

/-- An element whose accesses are to mapped lines is found without a change of the state. -/
theorem run_elementPlaces {β : Type} (l : List β) (adr len at_ : β → Nat) (h : ∀ j ∈ l, Mapped s who kind (adr j) (len j) (at_ j)) :
    (elementPlaces who kind (l.map fun j => (adr j, len j))).run s = (.ok (.ok (l.flatMap fun j => placesAt (at_ j) (len j))), s) :=
  run_elementPlaces_of_placesAll <| run_placesAll l adr len at_ fun j hj =>
    SameView.mapped (who := who) (agent := { who with since := s.clock }) ⟨rfl, rfl, rfl, rfl, rfl, rfl, rfl, rfl⟩ (h j hj)

end

end Sys2Proof.Machine

/-! ## What finding the places of an element leaves -/

namespace Sys2Proof.Machine

open Sys2Proof.Claims

/-- The registers that a vector instruction reads and that no search for places writes. -/
def Ctx.operands (x : Ctx) := (x.v, x.tag, x.hdr, x.sup, x.vcfg, x.vstart, x.pc)

/-- After a search for places, which may let the context's own stores go (R141): registers are as before, and no past moment is newly open. -/
structure Steady (s t : State) : Prop where
  cur : t.cur = s.cur
  operands : ∀ c, (t.ctx c).operands = (s.ctx c).operands
  pins : ∀ p ∈ t.pins, ∃ q ∈ s.pins, q.ctx = p.ctx ∧ ∀ st, p.isOpen st = true → q.isOpen st = true

namespace Steady
variable {s t u : State}

theorem refl (s : State) : Steady s s := ⟨rfl, fun _ => rfl, fun p hp => ⟨p, hp, rfl, fun _ => id⟩⟩

theorem trans (h : Steady s t) (k : Steady t u) : Steady s u where
  cur := k.cur.trans h.cur
  operands c := (k.operands c).trans (h.operands c)
  pins p hp := by
    obtain ⟨q, hq, e, imp⟩ := k.pins p hp
    obtain ⟨r, hr, e', imp'⟩ := h.pins q hq
    exact ⟨r, hr, e'.trans e, fun st o => imp' st (imp st o)⟩

theorem me (h : Steady s t) : t.me.operands = s.me.operands := by rw [me_eq, me_eq, h.cur, h.operands]

theorem present (h : Steady s t) {c : Nat} {st : Stream} (k : Present s c st) : Present t c st := fun p hp e => by
  obtain ⟨q, hq, e', imp⟩ := h.pins p hp
  by_contra o
  have := k q hq (e'.trans e)
  simp [imp st (by simpa using o)] at this

theorem of_eq (cur : t.cur = s.cur) (ctxs : t.ctxs = s.ctxs) (pins : t.pins = s.pins) : Steady s t where
  cur := cur
  operands c := by simp [State.ctx, ctxs]
  pins := pins ▸ (refl s).pins

theorem setCtx {c : Nat} {x : Ctx} (h : x.operands = (s.ctx c).operands) : Steady s (s.setCtx c x) where
  cur := rfl
  operands d := by
    by_cases e : d = c
    · subst e; simpa using h
    · rw [ctx_setCtx_other _ _ _ _ e]
  pins := (refl s).pins

/-- The bytes that past moments keep are no matter. -/
theorem mapSaved (s : State) (f : List (Loc × Byte) → List (Loc × Byte)) : Steady s (s.mapSaved f) where
  cur := rfl
  operands _ := rfl
  pins p hp := by
    obtain ⟨q, hq, rfl⟩ := List.mem_map.mp hp
    exact ⟨q, hq, rfl, fun st o => by cases st <;> exact o⟩

theorem isOpen_of_limit {p : Pin} {st : Stream} {b : Bool} {k : Stream} (h : (p.limit st b).isOpen k = true) : p.isOpen k = true := by
  cases st <;> cases k <;> simp_all [Pin.limit, Pin.isOpen]

theorem ctx_limit (p : Pin) (st : Stream) (b : Bool) : (p.limit st b).ctx = p.ctx := by cases st <;> rfl

theorem closePins (s : State) (c : Nat) (l : List Stream) : Steady s (s.closePins c l) where
  cur := by unfold State.closePins State.mapPins; split <;> rfl
  operands d := by unfold State.closePins State.mapPins; split <;> rfl
  pins := by
    have closed (l : List Stream) (p : Pin) : (l.foldl (fun p st => p.limit st false) p).ctx = p.ctx ∧
        ∀ k, (l.foldl (fun p st => p.limit st false) p).isOpen k = true → p.isOpen k = true := by
      induction l generalizing p with
      | nil => exact ⟨rfl, fun _ => id⟩
      | cons st l ih => exact ⟨(ih _).1.trans (ctx_limit p st false), fun k o => isOpen_of_limit ((ih _).2 k o)⟩
    unfold State.closePins State.mapPins
    split
    · exact (refl s).pins
    · intro p hp
      obtain ⟨q, hq, rfl⟩ := List.mem_map.mp hp
      refine ⟨q, hq, ?_⟩
      split
      · exact ⟨(closed l q).1.symm, (closed l q).2⟩
      · exact ⟨rfl, fun _ => id⟩

theorem setLocs (s : State) (w : List (Loc × Byte)) : Steady s (s.setLocs w) := by
  induction w generalizing s with
  | nil => exact refl s
  | cons e w ih =>
    have noted : Steady s (s.remember e.1) := by
      unfold State.remember
      split
      exacts [mapSaved s _, refl s]
    have put : Steady (s.remember e.1) ((s.remember e.1).put e.1 e.2) := by
      unfold State.put
      split
      · exact of_eq rfl rfl rfl
      · split
        exacts [of_eq rfl rfl rfl, refl _]
    exact (noted.trans put).trans (ih _)

theorem clearPoison (s : State) (ls : List Loc) : Steady s (s.clearPoison ls) := by
  unfold State.clearPoison; split <;> exact of_eq rfl rfl rfl

theorem clearFrames (s : State) (ls : List Loc) : Steady s (s.clearFrames ls) := by
  unfold State.clearFrames; split <;> exact of_eq rfl rfl rfl

theorem watchQueues (s : State) (ls : List Loc) : Steady s (s.watchQueues ls) := by
  unfold State.watchQueues; split <;> exact of_eq rfl rfl rfl

theorem writeLocs (s : State) (w : List (Loc × Byte)) : Steady s (s.writeLocs w) :=
  (((setLocs s w).trans (clearPoison _ _)).trans (clearFrames _ _)).trans (watchQueues _ _)

theorem mapPlaces (s : State) (f : {α : Type} → List (Loc × α) → List (Loc × α)) : Steady s (s.mapPlaces f) where
  cur := (Relocated.mapPlaces s f).cur
  operands c := by rw [sameButAhead_eq ((Relocated.mapPlaces s f).ahead c)]; rfl
  pins := by
    have saved : Steady s (if s.keeps then s.mapSaved f else s) := by
      split
      exacts [mapSaved s _, refl s]
    unfold State.mapPlaces
    extract_lets t
    split <;> exact saved.pins

/-! ### The context's own stores -/

theorem drainFrom (s : State) (q : List QStore) (n : Nat) : Steady s (drainFrom s q n) := by
  induction n generalizing s q with
  | zero => exact refl s
  | succ n ih =>
    cases q with
    | nil => exact refl s
    | cons x q =>
      rw [Machine.drainFrom]
      refine .trans ?_ (ih _ _)
      split <;> split
      exacts [(setLocs s _).trans (of_eq rfl rfl rfl), of_eq rfl rfl rfl, setLocs s _, refl s]

theorem drainFirst (s : State) (c n : Nat) : Steady s (s.drainFirst c n) := by
  unfold State.drainFirst
  dsimp only
  split
  · exact refl s
  · exact (((((drainFrom s _ _).trans (clearPoison _ _)).trans (clearFrames _ _)).trans (watchQueues _ _)).trans
      (by exact setCtx rfl)).trans (closePins _ _ _)

theorem drain (s : State) (c : Nat) : Steady s (s.drain c) := drainFirst s c _

theorem settleOne (s : State) (c : Nat) : Steady s (s.settleOne c) := by
  unfold State.settleOne
  dsimp only
  split
  · exact ((writeLocs s _).trans (by exact setCtx rfl)).trans (closePins _ _ _)
  · exact refl s

theorem settleFirst (s : State) (c n : Nat) : Steady s (s.settleFirst c n) := by
  induction n generalizing s with
  | zero => exact refl s
  | succ n ih => exact (settleOne s c).trans (ih _)

theorem storeNext (s : State) (c : Nat) : Steady s (s.storeNext c) := by
  unfold State.storeNext
  dsimp only
  split
  · split
    exacts [settleOne s c, drainFirst s c _]
  · exact drainFirst s c _
  · exact settleOne s c

theorem storesInOrder (s : State) (c n : Nat) : Steady s (s.storesInOrder c n) := by
  induction n generalizing s with
  | zero => exact refl s
  | succ n ih => exact (storeNext s c).trans (ih _)

theorem storesDone (s : State) (c : Nat) : Steady s (s.storesDone c) := by
  unfold State.storesDone
  dsimp only
  split
  · exact (settleFirst s c _).trans (drain _ c)
  · exact (storesInOrder s c _).trans (drain _ c)

end Steady

/-! ### The search -/

theorem Localised.steady (s : State) : Localised (Steady s) where
  locs _ w h := h.trans (.setLocs _ w)
  write _ w h := h.trans (.writeLocs _ w)
  core _ _ _ h := h.trans (.of_eq rfl rfl rfl)
  clock _ _ h := h.trans (.of_eq rfl rfl rfl)
  forget _ _ h := h.trans (.of_eq rfl rfl rfl)
  discard _ _ _ h := h.trans (.of_eq rfl rfl rfl)
  places _ f h := h.trans (.mapPlaces _ f)

theorem Leaves.placesAll_steady (s : State) (who : Who) (kind : Access) (accs : List (Nat × Nat)) :
    Leaves (Steady s) (placesAll who kind accs) := by
  have one (va n : Nat) : Leaves (Steady s) (placesOf who kind va n) :=
    ((Localised.steady s).locateBytes who kind va n).seq fun ls =>
      Leaves.cond (fun _ => (Leaves.poison va ls).seq fun _ => Leaves.ret ls) fun _ => Leaves.ret ls
  induction accs with
  | nil => exact Leaves.ret _
  | cons a accs ih =>
    refine (one a.1 a.2).caught.seq fun r => ?_
    split
    · exact Leaves.ret _
    · refine ih.seq fun r => ?_
      split <;> exact Leaves.ret _

theorem Steady.elementPlaces (s : State) (who : Who) (kind : Access) (accs : List (Nat × Nat)) :
    Steady s ((Machine.elementPlaces who kind accs).run s).2 := by
  have all (who : Who) (s : State) : Steady s ((placesAll who kind accs).run s).2 := Leaves.placesAll_steady s who kind accs s (refl s)
  have first := all { who with since := s.clock } s
  rw [run_elementPlaces_eq]
  generalize (placesAll { who with since := s.clock } kind accs).run s = r at first
  split
  · split
    exacts [(storesDone s s.cur).trans (all _ _), first]
  · exact first

end Sys2Proof.Machine

/-! ## Passes over a batch -/

namespace Sys2Proof.Machine

open Sys2Proof.Claims

/-- A failure of a pass as the model keeps it, under the element that stands for the failing one. -/
def Fail.of (first : Nat → Nat) (f : Nat × Nat × BitVec 10 × Word × FaultInfo) : Fail := ⟨first f.1, f.2.1, f.2.2.1, f.2.2.2.1, f.2.2.2.2⟩

/-- The results of the elements of a batch that were located. -/
def results {α : Type} (els : List Nat) (o : Nat → Except (Nat × Stop) (List Loc)) (res : Nat → List Loc → α) : List (Nat × α) :=
  els.filterMap fun k => match o k with
    | .ok ls => some (k, res k ls)
    | .error _ => none

section
variable {α : Type} {els : List Nat} {o : Nat → Except (Nat × Stop) (List Loc)} {res : Nat → List Loc → α}

theorem mem_results {e : Nat × α} : e ∈ results els o res ↔ e.1 ∈ els ∧ ∃ ls, o e.1 = .ok ls ∧ e.2 = res e.1 ls := by
  simp only [results, List.mem_filterMap]
  constructor
  · rintro ⟨k, hk, e1⟩
    split at e1
    · cases e1; exact ⟨hk, _, ‹_›, rfl⟩
    · cases e1
  · rintro ⟨hk, ls, h, e2⟩
    exact ⟨e.1, hk, by simp [h, ← e2]⟩

theorem results_cons_ok {k : Nat} {ls : List Loc} (h : o k = .ok ls) : results (k :: els) o res = (k, res k ls) :: results els o res := by
  simp [results, h]

theorem results_cons_error {k : Nat} {e : Nat × Stop} (h : o k = .error e) : results (k :: els) o res = results els o res := by
  simp [results, h]

theorem failures_cons_ok {k : Nat} {ls : List Loc} (h : o k = .ok ls) : failures (k :: els) o = failures els o := by
  simp [failures, h]

theorem failures_cons_trap {k va : Nat} {c : BitVec 10} {w : Word} {r : FaultInfo} (h : o k = .error (va, .trap c w r)) :
    failures (k :: els) o = (k, va, c, w, r) :: failures els o := by
  simp [failures, h]

theorem mem_failures {f : Nat × Nat × BitVec 10 × Word × FaultInfo} :
    f ∈ failures els o ↔ f.1 ∈ els ∧ o f.1 = .error (f.2.1, .trap f.2.2.1 f.2.2.2.1 f.2.2.2.2) := by
  simp only [failures, List.mem_filterMap]
  constructor
  · rintro ⟨k, hk, e⟩
    split at e
    · cases e; exact ⟨hk, ‹_›⟩
    · cases e
  · rintro ⟨hk, h⟩
    exact ⟨f.1, hk, by simp [h]⟩

/-- Failures come in the order of their elements. -/
theorem pairwise_failures (sorted : els.Pairwise (· < ·)) : (failures els o).Pairwise fun f g => f.1 < g.1 := by
  rw [failures, List.pairwise_filterMap]
  refine sorted.imp fun {a b} lt f hf g hg => ?_
  split at hf <;> cases hf
  split at hg <;> cases hg
  exact lt

end

theorem batchCause_of_mem {c : BitVec 10} (h : c ∈ ([0x101, 0x102, 0x103, 0x105, 0x1C1, 0x1C2, 0x1C3, 0x381, 0x382] : List (BitVec 10))) :
    batchCause c = true := by
  simp only [List.mem_cons, List.not_mem_nil, or_false] at h
  rcases h with rfl | rfl | rfl | rfl | rfl | rfl | rfl | rfl | rfl <;> rfl

section
variable {α : Type} {who : Who} {kind : Access} {accs : Nat → List (Nat × Nat)} {effect : Nat → List Loc → State → State}
  {o : Nat → Except (Nat × Stop) (List Loc)} {at_ : Nat → State} {s u : State} {els : List Nat}

/-- A pass that finds nothing to wait for performs each element that it locates, and collects the others (R163). -/
theorem run_passOver {mark : Nat → FaultInfo → FaultInfo} {act : Nat → List Loc → M α} {res : Nat → List Loc → α}
    (h : PassOver who kind accs effect o at_ u s els)
    (acts : ∀ k ∈ els, ∀ ls, o k = .ok ls → (act k ls).run (at_ k) = (.ok (res k ls), effect k ls (at_ k))) (p : Pass α) :
    ∃ keys, (passOver who kind mark act p (els.map fun k => (k, accs k))).run s =
      (.ok ⟨p.done ++ results els o res, p.fails ++ (failures els o).map (.of id), keys, p.held⟩, u) := by
  induction els generalizing s p with
  | nil =>
    cases (show u = s from h)
    exact ⟨p.keys, by simp [passOver, results, failures]⟩
  | cons k els ih =>
    obtain ⟨found, next⟩ := h
    simp only [List.map_cons, passOver, run_bind, found]
    cases hk : o k with
    | ok ls =>
      rw [hk] at next
      obtain ⟨keys, e⟩ := ih next (fun j hj => acts j (by simp [hj])) { p with done := p.done ++ [(k, res k ls)] }
      refine ⟨keys, ?_⟩
      simp only [run_bind, acts k (by simp) ls hk, e, results_cons_ok hk, failures_cons_ok hk, List.append_assoc, List.singleton_append]
    | error e =>
      rw [hk] at next
      obtain ⟨va, ⟨c, w, r⟩ | _ | _⟩ := e
      · obtain ⟨cause, next⟩ := next
        obtain ⟨keys, e⟩ := ih next (fun j hj => acts j (by simp [hj]))
          { p with fails := p.fails ++ [⟨k, va, c, w, r⟩], keys := p.keys ++ waitedKeys c w r }
        refine ⟨keys, ?_⟩
        simp only [batchCause_of_mem cause, ↓reduceIte, e, results_cons_error hk, failures_cons_trap hk, List.append_assoc,
          List.singleton_append, List.map_cons, Fail.of, id]
      all_goals exact absurd next id

theorem run_batchPass {mark : Nat → FaultInfo → FaultInfo} {act : Nat → List Loc → M α} {res : Nat → List Loc → α}
    (h : PassOver who kind accs effect o at_ u s els)
    (acts : ∀ k ∈ els, ∀ ls, o k = .ok ls → (act k ls).run (at_ k) = (.ok (res k ls), effect k ls (at_ k))) :
    ∃ keys, (batchPass who kind mark (els.map fun k => (k, accs k)) act).run s =
      (.ok ⟨results els o res, (failures els o).map (.of id), keys, false⟩, u) := by
  obtain ⟨keys, e⟩ := run_passOver (mark := mark) h acts ⟨[], [], [], false⟩
  refine ⟨keys, ?_⟩
  have : (batchPass who kind mark (els.map fun k => (k, accs k)) act).run s =
    match (passOver who kind mark act ⟨[], [], [], false⟩ (els.map fun k => (k, accs k))).run s with
    | (.ok p, t) => if p.held then (.error (.waitOn p.keys), s) else (.ok p, t)
    | (.error e, _) => (.error e, s) := rfl
  rw [this, e]
  rfl

/-- What holds after each search and each act holds where a pass stands at each of its elements, and at its end. -/
theorem passOver_invariant (P : State → Prop) (finds : ∀ k v, P v → P ((elementPlaces who kind (accs k)).run v).2)
    (acts : ∀ k ls v, P v → P (effect k ls v)) (h : PassOver who kind accs effect o at_ u s els) (hs : P s) :
    P u ∧ ∀ k ∈ els, P (at_ k) := by
  induction els generalizing s with
  | nil => cases (show u = s from h); exact ⟨hs, by simp⟩
  | cons k els ih =>
    obtain ⟨found, next⟩ := h
    have here : P (at_ k) := by simpa [found] using finds k s hs
    simp only [List.forall_mem_cons]
    cases hk : o k with
    | ok ls =>
      rw [hk] at next
      obtain ⟨hu, rest⟩ := ih next (acts k ls _ here)
      exact ⟨hu, here, rest⟩
    | error e =>
      rw [hk] at next
      obtain ⟨va, ⟨c, w, r⟩ | _ | _⟩ := e
      · obtain ⟨hu, rest⟩ := ih next.2 here
        exact ⟨hu, here, rest⟩
      all_goals exact absurd next id

end

/-! ### The end of a batch -/

section
variable {i : Instr} {s y : State} {w : Nat} {els : List Nat} {o : Nat → Except (Nat × Stop) (List Loc)} {first : Nat → Nat}
  {marks : Nat → List Nat}

theorem pageEntry_eq (kind : Access) (f : Nat × Nat × BitVec 10 × Word × FaultInfo) :
    pageEntry kind (.of first f) = pageWord kind.code f := by
  obtain ⟨k, va, c, w, r⟩ := f
  change pageEntry kind ⟨first k, va, c, w, r⟩ = _
  simp [pageEntry, pageWord, word]

theorem Fail.word_eq (f : Nat × Nat × BitVec 10 × Word × FaultInfo) : (Fail.of first f).word = batchWord f := by
  obtain ⟨k, va, c, w, r⟩ := f
  change Fail.word ⟨first k, va, c, w, r⟩ = _
  simp [Fail.word, batchWord, Machine.word, or_assoc]

/-- A batch whose failures are as a pass collected them, named by the first element of each group, ends as R163 says. -/
theorem batchEnds_of {kind : Access} {m : M Unit} (sorted : (failures els o).Pairwise fun f g => first f.1 ≤ first g.1)
    (pc : y.me.pc = s.me.pc) (nodup : ((failures els o).flatMap fun f => marks f.1).Nodup)
    (execs : exec i s = complete m s)
    (runs : m.run s = (endBatch kind w ((failures els o).flatMap fun f => marks f.1)
      ((failures els o).map (.of first))).run y) :
    BatchEnds i s y kind.code w els o first marks := by
  rw [BatchEnds, execs]
  constructor
  · intro none
    rw [none] at runs
    refine complete_ok (t := y.setMe { y.me with vfm := 0, vstart := 0, adone := 0 }) (runs.trans ?_) |>.trans ?_
    · simp [endBatch, leastBy]
    · simp [Ctx.advance, pc]
  · intro f rest some
    simp only [some] at runs sorted nodup ⊢
    have least : leastBy (fun (f : Fail) => f.elem) ((f :: rest).map (.of first)) =
        Option.some (.of first f) := by
      have : ((f :: rest).map (Fail.of first)).Pairwise fun a b => a.elem ≤ b.elem := List.pairwise_map.mpr sorted
      exact leastBy_of_sorted _ this
    have pages : distinct (((f :: rest).map (.of first)).map (pageEntry kind)) =
        ((f :: rest).map (pageWord kind.code)).eraseDups := by
      rw [distinct_eq_eraseDups, List.map_map]
      congr 1
      exact List.map_congr_left fun g _ => pageEntry_eq kind g
    refine complete_trap (runs.trans ?_)
    simp only [endBatch, least, run_bind, run_modMe, run_trapM, Fail.word_eq, maskOf_eq nodup, batchRecord, pages]
    rfl

end

end Sys2Proof.Machine

/-! ## The checks and conversions of vector accesses -/

namespace Sys2Proof.Machine

open Sys2Proof.Claims

/-! ### Formats in memory (R61, R124 to R126) -/

theorem enc_eq (x : Ctx) : x.enc = encOf x := by simp [Ctx.enc, encOf, field]

theorem bits_pos_of_isInt {t : Tag} (h : t.isInt = true) : 0 < t.bits := by cases t <;> simp_all [Tag.isInt, Tag.bits]

theorem signed_eq_toInt {w : Nat} (hw : 0 < w) (v : Nat) : signed w v = (BitVec.ofNat w v).toInt := by
  obtain ⟨n, rfl⟩ : ∃ n, w = n + 1 := ⟨w - 1, by omega⟩
  rw [BitVec.toInt_eq_toNat_cond, BitVec.toNat_ofNat]
  have double : 2 ^ (n + 1) = 2 * 2 ^ n := Nat.pow_succ'
  have wide : (2 : Int) ^ (n + 1) = ((2 * 2 ^ n : Nat) : Int) := by rw [← double]; push_cast; rfl
  simp only [signed, Nat.add_sub_cancel, wide, double]
  generalize 2 ^ n = p
  split <;> split <;> omega

theorem saturate_eq (w : Nat) (v : Int) :
    saturate w v = (max (-2 ^ (w - 1)) (min (2 ^ (w - 1) - 1) v) % 2 ^ w).toNat := by
  have pos : (0 : Int) < 2 ^ (w - 1) := by positivity
  unfold saturate wrap
  split
  · rw [max_eq_left (by omega)]
  · split
    · rw [min_eq_left (by omega), max_eq_right (by omega)]
    · rw [min_eq_right (by omega), max_eq_right (by omega)]

theorem convertElem_eq_converted (src dst : Tag) (rm : Rm) (fz : BitVec 2) (v : Nat) :
    convertElem src dst rm fz v = converted src dst rm fz v := by
  unfold convertElem converted
  by_cases hs : src.isInt = true
  · simp only [hs, ↓reduceIte, true_and, signed_eq_toInt (bits_pos_of_isInt hs), saturate_eq, flushOut]
  · simp only [hs, Bool.false_eq_true, ↓reduceIte, false_and]

theorem loadElem_eq {enc dst : Tag} (x : Ctx) (v : Nat) (h : dst ≠ .unset) : loadElem enc dst x.rm x.fz v = recoded enc dst x v := by
  simp only [loadElem, recoded, convertElem_eq_converted, Bool.or_eq_true, beq_iff_eq, h, false_or, Ctx.rm, Ctx.fz]

theorem storeElem_eq {enc src : Tag} (x : Ctx) (v : Nat) (h : src ≠ .unset) : storeElem enc src x.rm x.fz v = recoded src enc x v := by
  have same : src = enc ↔ enc = src := eq_comm
  simp only [storeElem, recoded, convertElem_eq_converted, Bool.or_eq_true, beq_iff_eq, h, false_or, Ctx.rm, Ctx.fz, same]

theorem getLsbD_unionFlags (l : List (BitVec 5)) (c : Nat) : (unionFlags l).getLsbD c = true ↔ ∃ f ∈ l, f.getLsbD c = true := by
  have general (l : List (BitVec 5)) (a : BitVec 5) : (l.foldl (fun a b => a ||| b) a).getLsbD c = true ↔
      a.getLsbD c = true ∨ ∃ f ∈ l, f.getLsbD c = true := by
    induction l generalizing a with
    | nil => simp
    | cons f l ih => simp [ih, or_assoc]
  simpa [unionFlags] using general l 0

/-! ### Checks that pass -/

theorem run_check_of {ok : Bool} (h : ok = true) (c : BitVec 10) (i : Word) (s : State) : (check ok c i).run s = (.ok (), s) := by
  subst h; simp

theorem run_tagIn {q : BitVec 5} {accept : Tag → Bool} {s : State} (h : accept (regGet s.me.tag q) = true) (low : Nat) :
    (tagIn q accept low).run s = (.ok (), s) := by
  simp [tagIn, run_check_of h]

theorem run_tagIs {q : BitVec 5} {t : Tag} {s : State} (h : regGet s.me.tag q = t) : (tagIs q t).run s = (.ok (), s) :=
  run_tagIn (by simp [h]) _

theorem run_each {α : Type} {f : α → M Unit} {l : List α} {s : State} (h : ∀ a ∈ l, (f a).run s = (.ok (), s)) :
    (each f l).run s = (.ok (), s) := by
  induction l with
  | nil => rfl
  | cons a l ih => simp [each, h a (by simp), ih fun b hb => h b (by simp [hb])]

theorem run_alignedAll {n : Nat} {vas : List Nat} (h : ∀ a ∈ vas, a % n = 0) (s : State) : (alignedAll n vas).run s = (.ok (), s) := by
  have none : vas.filter (fun a => a % n != 0) = [] := by
    rw [List.filter_eq_nil_iff]
    intro a ha
    simp [h a ha]
  simp [alignedAll, none, leastBy]

theorem run_insideAll {base w : Nat} {vas : List (Nat × Nat)} (h : ∀ a ∈ vas, (inWindow base = true → inWindow a.2 = true) ∧
    (inWindow base = false → a.2 < 2 ^ 55)) (s : State) : (insideAll base w vas).run s = (.ok (), s) := by
  have none : vas.find? (fun a => if inWindow base then !inWindow a.2 else decide (2 ^ 55 ≤ a.2)) = none := by
    rw [List.find?_eq_none]
    intro a ha
    obtain ⟨inside, low⟩ := h a ha
    cases hb : inWindow base
    · simpa using low hb
    · simp [inside hb]
  simp only [insideAll, none]
  rfl

theorem run_stashOpen {vas : List Nat} {s : State} (h : ∀ a ∈ vas, inWindow a = true → s.myPkg.enable.getLsbD 3 = true) :
    (stashOpen vas).run s = (.ok (), s) := by
  simp only [stashOpen, run_bind, run_getS]
  by_cases on : s.myPkg.enable.getLsbD 3 = true
  · simp only [on, Bool.not_true, Bool.false_eq_true, ↓reduceIte]
    rfl
  · have none : vas.filter inWindow = [] := by
      rw [List.filter_eq_nil_iff]
      exact fun a ha w => on (h a ha w)
    simp only [on, Bool.not_false, ↓reduceIte, none, leastBy]
    rfl

theorem run_needSb {i : Instr} {s : State} (h : s.me.enc.isSb = true → s.myPkg.enable.getLsbD 2 = true) : (needSb i).run s = (.ok (), s) := by
  by_cases sb : s.me.enc.isSb = true
  · simp only [needSb, run_bind, run_getS, sb, ↓reduceIte, feature]
    exact run_check_of (h sb) _ _ s
  · simp [needSb, sb]

theorem va64_eq (a : Word) (n : Nat) : va64 a n = (a.toNat + n) % 2 ^ 64 := by
  simp [va64, word, BitVec.toNat_add, BitVec.toNat_ofNat]

/-! ### The common checks of an access (R376, R377) -/

/-- The addresses that the accesses of an element have, field by field. -/
def addresses (fields : Nat) (adr : Nat → Nat → Nat) : Addresses := fun k => (List.range fields).map (adr k)

theorem mem_flatMap_addresses {l : List Nat} {fields : Nat} {adr : Nat → Nat → Nat} {a : Nat} :
    a ∈ l.flatMap (addresses fields adr) ↔ ∃ k ∈ l, ∃ j < fields, adr k j = a := by
  simp [addresses]

section
variable {s : State} {n base fields : Nat} {adr : Nat → Nat → Nat} {C : Nat → Prop}

theorem run_checkAddresses {m : BitVec 1} {r : BitVec 3} (all : ∀ k, Runs s.me m r k → C k)
    (h : ∀ k j, C k → j < fields → adr k j % n = 0 ∧ InRange s base (adr k j)) :
    (checkAddresses base n m r (addresses fields adr)).run s = (.ok (), s) := by
  have aligned := run_alignedAll (n := n) (vas := (s.me.actives m r).flatMap (addresses fields adr)) (fun a ha => by
    obtain ⟨k, hk, j, hj, rfl⟩ := mem_flatMap_addresses.mp ha
    exact (h k j (all k (mem_actives.mp hk)) hj).1) s
  have inside := run_insideAll (base := base) (w := s.me.width)
    (vas := (s.me.actives m r).flatMap fun i => (addresses fields adr i).map fun a => (i, a)) (fun a ha => by
      simp only [List.mem_flatMap, List.mem_map, addresses, List.mem_range] at ha
      obtain ⟨k, hk, _, ⟨j, hj, rfl⟩, rfl⟩ := ha
      obtain ⟨_, low, high, _⟩ := h k j (all k (mem_actives.mp hk)) hj
      exact ⟨low, high⟩) s
  simp [checkAddresses, aligned, inside]

theorem run_stashOpen_addresses {l : List Nat} (all : ∀ k ∈ l, C k)
    (h : ∀ k j, C k → j < fields → adr k j % n = 0 ∧ InRange s base (adr k j)) :
    (stashOpen (l.flatMap (addresses fields adr))).run s = (.ok (), s) :=
  run_stashOpen fun a ha w => by
    obtain ⟨k, hk, j, hj, rfl⟩ := mem_flatMap_addresses.mp ha
    exact (h k j (all k hk) hj).2.2.2 w

end

/-! ### The addresses of each form of access -/

section
variable (x : Ctx) (a b : BitVec 5)

/-- Bytes of an element in memory, SB encodings apart. -/
def elemBytes (x : Ctx) : Nat := if encOf x = .unset then sewBits x / 8 else (encOf x).bits / 8

theorem memSize_eq : memSize x.enc x.width = elemBytes x := by
  simp [memSize, elemBytes, enc_eq, width_eq_sewBits]

theorem unitStride_eq : x.unitStride a = addresses 1 fun k _ => ((x.reg a).toNat + k * elemBytes x) % 2 ^ 64 := by
  funext k
  simp [Ctx.unitStride, addresses, va64_eq, memSize_eq]

theorem strided_eq : x.strided a b = addresses 1 fun k _ => ((x.reg a).toNat + k * (x.reg b).toNat) % 2 ^ 64 := by
  funext k
  simp [Ctx.strided, addresses, word, BitVec.toNat_add, BitVec.toNat_mul]

theorem segment_eq (fields : Nat) :
    x.segment a fields = addresses fields fun k j => ((x.reg a).toNat + (fields * k + j) * elemBytes x) % 2 ^ 64 := by
  funext k
  simp [Ctx.segment, addresses, va64_eq, memSize_eq, span_zero]

theorem indexed_eq (z : BitVec 2) : (fun k => [x.indexed a b (indexBits z) k]) =
    addresses 1 fun k _ => ((x.reg a).toNat + vel x b (8 * 2 ^ z.toNat) k * (sewBits x / 8)) % 2 ^ 64 := by
  funext k
  simp [Ctx.indexed, addresses, va64_eq, width_eq_sewBits, vel_eq_elem, indexBits]

end

end Sys2Proof.Machine

/-! ## Batches of vector stores (R125, R163, R393 to R396) -/

namespace Sys2Proof.Machine

open Sys2Proof.Claims

/-! ### The checks of a store -/

theorem ne_unset_of_storeTag {enc src : Tag} {x : Ctx} (h : StoreTag enc (sewBits x) src) : src ≠ .unset := by
  rintro rfl
  have pos : 0 < sewBits x := by unfold sewBits; positivity
  obtain ⟨_, _, bits, _⟩ := h
  simp only [Tag.bits] at bits
  omega

section
variable {s : State} {qs : List (BitVec 5)}

theorem packedTag_eq_none {x : Ctx} {q : BitVec 5} (h : StoreTag (encOf x) (sewBits x) (regGet x.tag q)) : x.packedTag q = none := by
  obtain ⟨src, enc, _, _⟩ := h
  simp [Ctx.packedTag, enc_eq, src, enc]

theorem storeAccepts_of {enc src : Tag} {w : Nat} (h : StoreTag enc w src) : storeAccepts enc w src = true := by
  obtain ⟨_, sb, bits, int⟩ := h
  by_cases u : enc = .unset
  · simp [storeAccepts, u, bits]
  · by_cases i : enc.isInt = true
    · simp [storeAccepts, u, i, bits, int i]
    · have : enc.isFloat = true := by cases enc <;> simp_all [Tag.isInt, Tag.isFloat, Tag.isSb]
      simp [storeAccepts, u, i, this, bits]

/-- The checks of the source tags pass (R125, R126). -/
theorem run_storeTagChecks (i : Instr) (h : ∀ q ∈ qs, StoreTag (encOf s.me) (sewBits s.me) (regGet s.me.tag q)) :
    (noPacked i qs).run s = (.ok (), s) ∧ (noWideSb i qs).run s = (.ok (), s) ∧ (storeTags qs).run s = (.ok (), s) := by
  refine ⟨?_, ?_, ?_⟩
  · have none : (qs.any fun q => (s.me.packedTag q).isSome) = false := by
      rw [List.any_eq_false]
      intro q hq
      simp [packedTag_eq_none (h q hq)]
    simp [noPacked, run_check_of, none]
  · have none : (qs.any fun q => (regGet s.me.tag q).isSb) = false := by
      rw [List.any_eq_false]
      intro q hq
      obtain ⟨src, _⟩ := h q hq
      simp [src]
    simp [noWideSb, run_check_of, none]
  · simp only [storeTags, run_bind, run_getS]
    exact run_each fun q hq => run_tagIn (by rw [enc_eq, width_eq_sewBits]; exact storeAccepts_of (h q hq)) _

theorem forall_segRegs {d : BitVec 5} {fields : Nat} {P : BitVec 5 → Prop} :
    (∀ q ∈ segRegs d fields, P q) ↔ ∀ j, j < fields → P (d + BitVec.ofNat 5 j) := by
  simp [segRegs, span_zero]

end

/-! ### A batch -/

/-- The value that field `j` of element `k` has in memory (R125). -/
def storeVal (x : Ctx) (d : BitVec 5) (k j : Nat) : FpResult :=
  recoded (regGet x.tag (d + BitVec.ofNat 5 j)) (encOf x) x (vel x (d + BitVec.ofNat 5 j) (sewBits x) k)

/-- The bytes that element `k` has in memory, field by field. -/
def storeBytes (x : Ctx) (d : BitVec 5) (fields k : Nat) : List Byte :=
  (List.range fields).flatMap fun j => leBytes (elemBytes x) (storeVal x d k j).1

/-- A store is queued at the places that were found for its element. -/
def storeElement (x : Ctx) (d : BitVec 5) (fields : Nat) (ord : Bool) (k : Nat) (ls : List Loc) (v : State) : State :=
  withStore v (queued x (ls.zip (storeBytes x d fields k)) ord)

theorem run_queueStore (x : Ctx) (ord : Bool) (bytes : List (Loc × Byte)) (v : State) :
    (queueStore x ord false bytes).run v = (.ok (), withStore v (queued x bytes ord)) := rfl

section
variable {i : Instr} {d a b : BitVec 5} {m : BitVec 1} {r : BitVec 3} {s u : State} {fields : Nat} {adr : Nat → Nat → Nat}
  {o : Nat → Except (Nat × Stop) (List Loc)} {at_ : Nat → State} {els : List Nat} {C : Nat → Prop}

/-- What the model does with an element of a store once it is located. -/
def storeAct (x : Ctx) (d : BitVec 5) (n fields k : Nat) (ls : List Loc) : M (BitVec 5) := do
  let vs := (span 0 fields).map fun j =>
    storeElem x.enc (regGet x.tag (d + BitVec.ofNat 5 j)) x.rm x.fz (x.at (d + BitVec.ofNat 5 j) k)
  queueStore x false false (ls.zip (vs.flatMap fun v => bytesOf n v.1))
  return unionFlags (vs.map (·.2))

theorem storeElem_at_eq {x : Ctx} {k j : Nat} (h : StoreTag (encOf x) (sewBits x) (regGet x.tag (d + BitVec.ofNat 5 j))) :
    storeElem x.enc (regGet x.tag (d + BitVec.ofNat 5 j)) x.rm x.fz (x.at (d + BitVec.ofNat 5 j) k) = storeVal x d k j := by
  rw [storeElem_eq _ _ (ne_unset_of_storeTag h), enc_eq, at_eq_vel]; rfl

theorem run_storeAct {x : Ctx} (tags : ∀ j, j < fields → StoreTag (encOf x) (sewBits x) (regGet x.tag (d + BitVec.ofNat 5 j))) (k : Nat)
    (ls : List Loc) (v : State) : (storeAct x d (elemBytes x) fields k ls).run v =
      (.ok (unionFlags ((List.range fields).map fun j => (storeVal x d k j).2)), storeElement x d fields false k ls v) := by
  have vals : (List.range fields).map (fun j =>
      storeElem x.enc (regGet x.tag (d + BitVec.ofNat 5 j)) x.rm x.fz (x.at (d + BitVec.ofNat 5 j) k)) =
      (List.range fields).map (storeVal x d k) :=
    List.map_congr_left fun j hj => storeElem_at_eq (tags j (List.mem_range.mp hj))
  simp only [storeAct, span_zero, vals, run_bind, run_queueStore, run_pure, storeElement, storeBytes, List.flatMap_map, bytesOf_eq_leBytes,
    List.map_map, Function.comp_def]

theorem storeBatch_eq (n : Nat) (adr : Addresses) : storeBatch d m r n fields adr = (do
    stashOpen (((← getS).me.passElems m r).flatMap adr)
    let s ← getS
    let p ← batchPass s.who .write (atElem s.me.width) ((s.me.passElems m r).map fun i => (i, (adr i).map fun a => (a, n)))
      (storeAct s.me d n fields)
    modMe fun y => y.raiseFlags (unionFlags (p.done.map (·.2)))
    endBatch .write s.me.width (p.fails.map (·.elem)) p.fails) := rfl

/-- A batch of stores queues what its pass finds, and ends with its failures. -/
theorem run_storeBatch (tags : ∀ j, j < fields → StoreTag (encOf s.me) (sewBits s.me) (regGet s.me.tag (d + BitVec.ofNat 5 j)))
    (all : ∀ k ∈ batchList s.me m r s.me.vstart.toNat, C k)
    (ok : ∀ k j, C k → j < fields → adr k j % elemBytes s.me = 0 ∧ InRange s (s.me.reg a).toNat (adr k j))
    (h : PassOver s.who .write (fun k => (List.range fields).map fun j => (adr k j, elemBytes s.me)) (storeElement s.me d fields false) o at_ u s
      (batchList s.me m r s.me.vstart.toNat)) :
    ∃ fl, (∀ c, fl.getLsbD c = true ↔ ∃ k j, (k ∈ batchList s.me m r s.me.vstart.toNat ∧ ∃ ls, o k = .ok ls) ∧ j < fields ∧
        (storeVal s.me d k j).2.getLsbD c = true) ∧
      (storeBatch d m r (elemBytes s.me) fields (addresses fields adr)).run s =
        (endBatch .write (sewBits s.me) ((failures (batchList s.me m r s.me.vstart.toNat) o).map (·.1))
          ((failures (batchList s.me m r s.me.vstart.toNat) o).map (.of id))).run (u.setMe { u.me with fflags := u.me.fflags ||| fl }) := by
  obtain ⟨keys, pass⟩ := run_batchPass (mark := atElem (sewBits s.me)) h fun k _ ls _ => run_storeAct tags k ls (at_ k)
  refine ⟨unionFlags ((results (batchList s.me m r s.me.vstart.toNat) o fun k _ =>
    unionFlags ((List.range fields).map fun j => (storeVal s.me d k j).2)).map (·.2)), fun c => ?_, ?_⟩
  · simp only [getLsbD_unionFlags, List.mem_map, mem_results]
    constructor
    · rintro ⟨_, ⟨e, ⟨hk, ls, located, rfl'⟩, rfl⟩, hc⟩
      rw [rfl', getLsbD_unionFlags] at hc
      obtain ⟨_, hf, hc⟩ := hc
      obtain ⟨j, hj, rfl⟩ := List.mem_map.mp hf
      exact ⟨e.1, j, ⟨hk, ls, located⟩, List.mem_range.mp hj, hc⟩
    · rintro ⟨k, j, ⟨hk, ls, located⟩, hj, hc⟩
      refine ⟨_, ⟨(k, unionFlags ((List.range fields).map fun j => (storeVal s.me d k j).2)), ⟨hk, ls, located, rfl⟩, rfl⟩, ?_⟩
      rw [getLsbD_unionFlags]
      exact ⟨_, List.mem_map.mpr ⟨j, List.mem_range.mpr hj, rfl⟩, hc⟩
  · have opens := run_stashOpen_addresses (l := batchList s.me m r s.me.vstart.toNat) all ok
    have same : (batchList s.me m r s.me.vstart.toNat).map (fun i => (i, (addresses fields adr i).map fun a => (a, elemBytes s.me))) =
        (batchList s.me m r s.me.vstart.toNat).map fun k => (k, (List.range fields).map fun j => (adr k j, elemBytes s.me)) := by
      simp [addresses, Function.comp_def]
    simp only [storeBatch_eq, run_bind, run_getS, passElems_eq, opens, same, pass, run_modMe, width_eq_sewBits, List.map_map]
    rfl

/-- A store whose meaning comes to a batch ends as R163 says. -/
theorem storeBatch_ends {n : Nat} {mn : M Unit} (hn : n = elemBytes s.me)
    (tags : ∀ j, j < fields → StoreTag (encOf s.me) (sewBits s.me) (regGet s.me.tag (d + BitVec.ofNat 5 j)))
    (all : ∀ k ∈ batchList s.me m r s.me.vstart.toNat, C k)
    (ok : ∀ k j, C k → j < fields → adr k j % n = 0 ∧ InRange s (s.me.reg a).toNat (adr k j))
    (h : PassOver s.who .write (fun k => (List.range fields).map fun j => (adr k j, n)) (storeElement s.me d fields false) o at_ u s
      (batchList s.me m r s.me.vstart.toNat))
    (execs : exec i s = complete mn s) (runs : mn.run s = (storeBatch d m r n fields (addresses fields adr)).run s) :
    ∃ fl, (∀ c, fl.getLsbD c = true ↔ ∃ k j, (k ∈ batchList s.me m r s.me.vstart.toNat ∧ ∃ ls, o k = .ok ls) ∧ j < fields ∧
        (storeVal s.me d k j).2.getLsbD c = true) ∧
      BatchEnds i s (u.setMe { u.me with fflags := u.me.fflags ||| fl }) 1 (sewBits s.me) (batchList s.me m r s.me.vstart.toNat) o id fun k => [k] := by
  subst hn
  obtain ⟨fl, flags, run⟩ := run_storeBatch tags all ok h
  have steady : Steady s u := (passOver_invariant (Steady s) (fun k v hv => hv.trans (.elementPlaces v _ _ _))
    (fun k ls v hv => hv.trans (by exact .setCtx rfl)) h (.refl s)).1
  have sorted := pairwise_failures (o := o) (pairwise_batchList s.me m r s.me.vstart.toNat)
  have alone (l : List (Nat × Nat × BitVec 10 × Word × FaultInfo)) : (l.flatMap fun f => [f.1]) = l.map (·.1) := by
    induction l <;> simp_all
  refine ⟨fl, flags, batchEnds_of (kind := .write) (sorted.imp fun {f g} h => by simp only [id]; omega) ?_ ?_ execs (runs.trans ?_)⟩
  · rw [me_setMe]; exact congrArg (fun x => x.2.2.2.2.2.2) steady.me
  · rw [alone, List.Nodup, List.pairwise_map]
    exact sorted.imp fun h => by omega
  · rw [alone]; exact run

end

end Sys2Proof.Machine

/-! ## Vector stores to mapped addresses, and in order -/

namespace Sys2Proof.Machine

open Sys2Proof.Claims

theorem onlyMe_setMe (s : State) (x : Ctx) : OnlyMe s (s.setMe x) :=
  ⟨rfl, fun _ h => ctx_setCtx_other _ _ _ _ h⟩

/-! ### Several stores queued -/

/-- The state with more queued stores of the context. -/
def withStores (s : State) (qs : List QStore) : State := qs.foldl withStore s

theorem withStores_append (s : State) (qs : List QStore) (q : QStore) : withStores s (qs ++ [q]) = withStore (withStores s qs) q := by
  simp [withStores]

theorem me_withStores (s : State) (qs : List QStore) : (withStores s qs).me = { s.me with vstores := s.me.vstores ++ qs } := by
  induction qs generalizing s with
  | nil => simp [withStores]
  | cons q qs ih => rw [withStores, List.foldl_cons, ← withStores, ih]; simp [withStore]

theorem setMe_withStores (s : State) (qs : List QStore) (x : Ctx) : (withStores s qs).setMe x = s.setMe x := by
  induction qs generalizing s with
  | nil => rfl
  | cons q qs ih => rw [withStores, List.foldl_cons, ← withStores, ih]; simp [withStore]

/-- Queued stores are not seen by translations. -/
theorem SameView.withStores (s : State) (qs : List QStore) (who : Who) : SameView s (Machine.withStores s qs) who who := by
  induction qs generalizing s with
  | nil => exact ⟨rfl, rfl, rfl, rfl, rfl, rfl, rfl, rfl⟩
  | cons q qs ih =>
    obtain ⟨tlb, mem, poison, pkgs, _⟩ := ih (withStore s q)
    exact ⟨tlb, mem, poison, pkgs, rfl, rfl, rfl, rfl⟩

section
variable {s : State} {who : Who} {accs : Nat → List (Nat × Nat)} {ls : Nat → List Loc} {effect : Nat → List Loc → State → State}
  {q : Nat → QStore} {els : List Nat}

/-- A pass over elements that are all found, each of which queues one store, queues them all. -/
theorem passOver_withStores (sorted : els.Pairwise (· < ·))
    (found : ∀ k ∈ els, ∀ qs, (elementPlaces who .write (accs k)).run (withStores s qs) = (.ok (.ok (ls k)), withStores s qs))
    (queues : ∀ k ∈ els, ∀ v, effect k (ls k) v = withStore v (q k)) :
    PassOver who .write accs effect (fun k => .ok (ls k)) (fun k => withStores s ((els.filter fun j => decide (j < k)).map q))
      (withStores s (els.map q)) s els := by
  suffices h : ∀ pre rest, els = pre ++ rest →
      PassOver who .write accs effect (fun k => .ok (ls k)) (fun k => withStores s ((els.filter fun j => decide (j < k)).map q))
        (withStores s (els.map q)) (withStores s (pre.map q)) rest from h [] els rfl
  intro pre rest
  induction rest generalizing pre with
  | nil => rintro rfl; simp [PassOver]
  | cons k rest ih =>
    intro e
    have below : els.filter (fun j => decide (j < k)) = pre := by
      rw [e, List.pairwise_append, List.pairwise_cons] at sorted
      obtain ⟨_, ⟨after, _⟩, before⟩ := sorted
      rw [e, List.filter_append, List.filter_eq_self.mpr fun j hj => by simpa using before j hj k (by simp),
        List.filter_eq_nil_iff.mpr, List.append_nil]
      rintro j hj
      rcases List.mem_cons.mp hj with rfl | hj
      · simp
      · have := after j hj; simp; omega
    have hk : k ∈ els := by simp [e]
    refine ⟨?_, ?_⟩
    · beta_reduce; rw [below]; exact found k hk _
    · dsimp only
      rw [below, queues k hk, ← withStores_append, ← List.map_singleton (f := q), ← List.map_append]
      exact ih (pre ++ [k]) (by simp [e])

end

theorem zip_flatMap {β : Type} (l : List Nat) (f : Nat → List Loc) (g : Nat → List β) (h : ∀ j ∈ l, (f j).length = (g j).length) :
    (l.flatMap f).zip (l.flatMap g) = l.flatMap fun j => (f j).zip (g j) := by
  induction l with
  | nil => rfl
  | cons j l ih =>
    rw [List.flatMap_cons, List.flatMap_cons, List.flatMap_cons, List.zip_append (h j (by simp)), ih fun i hi => h i (by simp [hi])]

theorem length_leBytes (n v : Nat) : (leBytes n v).length = n := by simp [leBytes]

theorem length_placesAt (pa n : Nat) : (placesAt pa n).length = n := by simp [placesAt]

theorem zip_storeBytes (x : Ctx) (d : BitVec 5) (fields k : Nat) (pa : Nat → Nat) :
    ((List.range fields).flatMap fun j => placesAt (pa j) (elemBytes x)).zip (storeBytes x d fields k) =
      (List.range fields).flatMap fun j => cells (pa j) (elemBytes x) (storeVal x d k j).1 :=
  zip_flatMap _ _ _ fun j _ => by rw [length_placesAt, length_leBytes]

/-! ### An ordered pass -/

section
variable {α : Type} {who : Who} {kind : Access} {accs : Nat → List (Nat × Nat)} {effect : Nat → List Loc → State → State}
  {o : Nat → Except (Nat × Stop) (List Loc)} {at_ : Nat → State} {s u : State} {els : List Nat}

/-- Elements that are all found are performed one after another (R164). -/
theorem run_orderedPass {w : Nat} {act : Nat → List Loc → M α} {res : Nat → List Loc → α}
    (h : PassOver who kind accs effect o at_ u s els) (all : failures els o = [])
    (acts : ∀ k ∈ els, ∀ ls, o k = .ok ls → (act k ls).run (at_ k) = (.ok (res k ls), effect k ls (at_ k))) (done : List (Nat × α)) :
    (orderedPass who kind w act none done (els.map fun k => (k, accs k))).run s = (.ok (done ++ results els o res, .all), u) := by
  induction els generalizing s done with
  | nil => cases (show u = s from h); simp [orderedPass, results]
  | cons k els ih =>
    obtain ⟨found, next⟩ := h
    cases hk : o k with
    | ok ls =>
      rw [hk] at next
      rw [failures_cons_ok hk] at all
      simp only [List.map_cons, orderedPass, show ((none : Option Nat) == some 0) = false from rfl, Bool.false_eq_true, ↓reduceIte, run_bind,
        found, hk, acts k (by simp) ls hk, Option.map_none, ih next all fun j hj => acts j (by simp [hj]), results_cons_ok hk,
        List.append_assoc, List.singleton_append]
    | error e =>
      rw [hk] at next
      obtain ⟨va, ⟨c, w, r⟩ | _ | _⟩ := e
      · rw [failures_cons_trap hk] at all; cases all
      all_goals exact absurd next id

end

end Sys2Proof.Machine

/-! ## The plain vector stores -/

namespace Sys2Proof.Machine

open Sys2Proof.Claims

/-- The conditions under which a store's checks pass (R125, R135, R377). -/
def StoreOk (s : State) (d a : BitVec 5) (C : Nat → Prop) (fields : Nat) (adr : Nat → Nat → Nat) : Prop :=
  (∀ j, j < fields → StoreTag (encOf s.me) (sewBits s.me) (regGet s.me.tag (d + BitVec.ofNat 5 j))) ∧
  ∀ k j, C k → j < fields → adr k j % elemBytes s.me = 0 ∧ InRange s (s.me.reg a).toNat (adr k j)

/-- An instruction comes to a batch of stores. -/
def ComesToStores (i : Instr) (s : State) (d : BitVec 5) (m : BitVec 1) (r : BitVec 3) (fields : Nat) (adr : Nat → Nat → Nat) : Prop :=
  ∃ mn, exec i s = complete mn s ∧ mn.run s = (storeBatch d m r (elemBytes s.me) fields (addresses fields adr)).run s

/-- The addresses of each form. -/
def unitAdr (x : Ctx) (a : BitVec 5) (k _j : Nat) : Nat := ((x.reg a).toNat + k * elemBytes x) % 2 ^ 64
def stridedAdr (x : Ctx) (a b : BitVec 5) (k _j : Nat) : Nat := ((x.reg a).toNat + k * (x.reg b).toNat) % 2 ^ 64
def segmentAdr (x : Ctx) (a : BitVec 5) (fields k j : Nat) : Nat := ((x.reg a).toNat + (fields * k + j) * elemBytes x) % 2 ^ 64
def indexedAdr (x : Ctx) (a b : BitVec 5) (z : BitVec 2) (k _j : Nat) : Nat :=
  ((x.reg a).toNat + vel x b (8 * 2 ^ z.toNat) k * (sewBits x / 8)) % 2 ^ 64

/-- The checks of the index operand (R380). -/
def IndexOk (x : Ctx) (b : BitVec 5) (z : BitVec 2) : Prop := z.toNat ≤ x.vcfg.toNat % 4 ∧ regGet x.tag b = tagOfWidth (8 * 2 ^ z.toNat)

section
variable {s : State} {d a b : BitVec 5} {m : BitVec 1} {r : BitVec 3} {z : BitVec 2} {fields : Nat} {adr : Nat → Nat → Nat} {C : Nat → Prop}

theorem run_needSb_of_storeOk (h : StoreOk s d a C fields adr) (pos : 0 < fields) (i : Instr) : (needSb i).run s = (.ok (), s) := by
  obtain ⟨_, enc, _⟩ := h.1 0 pos
  exact run_needSb fun sb => by rw [enc_eq, enc] at sb; cases sb

theorem run_plainStore {form : Ctx → Addresses} (h : StoreOk s d a (Runs s.me m r) fields adr) (i : Instr)
    (adrs : form s.me = addresses fields adr) :
    (plainStore i d a m r fields form).run s = (storeBatch d m r (elemBytes s.me) fields (addresses fields adr)).run s := by
  obtain ⟨noPacked, noWide, tags⟩ := run_storeTagChecks i (forall_segRegs.mpr h.1)
  have checked := run_checkAddresses (m := m) (r := r) (n := elemBytes s.me) (fun k => id) h.2
  simp only [plainStore, run_bind, noPacked, noWide, tags, run_getS, adrs, memSize_eq, checked]

theorem comesToStores_vst (h : StoreOk s d a (Runs s.me m r) 1 (unitAdr s.me a)) :
    ComesToStores (.vst d a b m r) s d m r 1 (unitAdr s.me a) := by
  refine ⟨_, rfl, ?_⟩
  have plain : s.me.packedTag d = none := packedTag_eq_none (by simpa using h.1 0 Nat.one_pos)
  rw [run_bind, run_needSb_of_storeOk h Nat.one_pos]
  simp only [plain]
  exact run_plainStore h _ (unitStride_eq _ _)

theorem comesToStores_vsts (h : StoreOk s d a (Runs s.me m r) 1 (stridedAdr s.me a b)) :
    ComesToStores (.vsts d a b m r) s d m r 1 (stridedAdr s.me a b) := by
  refine ⟨_, rfl, ?_⟩
  rw [run_bind, run_needSb_of_storeOk h Nat.one_pos]
  exact run_plainStore h _ (strided_eq _ _ _)

theorem comesToStores_vstseg {f : BitVec 3} (h : StoreOk s d a (Runs s.me m r) (f.toNat + 1) (segmentAdr s.me a (f.toNat + 1))) :
    ComesToStores (.vstseg d a m r f) s d m r (f.toNat + 1) (segmentAdr s.me a (f.toNat + 1)) := by
  refine ⟨_, rfl, ?_⟩
  rw [run_bind, run_needSb_of_storeOk h (Nat.succ_pos _)]
  exact run_plainStore h _ (segment_eq _ _ _)

/-! ### Indexed stores -/

theorem intTag_eq (w : BitVec 2) : intTag w = tagOfWidth (8 * 2 ^ w.toNat) := by
  match w with
  | 0#2 | 1#2 | 2#2 | 3#2 => rfl

theorem run_indexRange {els : List Nat} (h : ∀ k ∈ els, InRange s (s.me.reg a).toNat (indexedAdr s.me a b z k 0)) :
    (indexRange a b (indexBits z) els).run s = (.ok (), s) := by
  have at_ (k : Nat) : s.me.indexed a b (indexBits z) k = indexedAdr s.me a b z k 0 := by
    have := congrFun (indexed_eq s.me a b z) k
    simpa [addresses, indexedAdr] using this
  have none : els.find? (fun i => if inWindow (s.me.reg a).toNat then !inWindow (s.me.indexed a b (indexBits z) i)
      else decide (2 ^ 55 ≤ s.me.indexed a b (indexBits z) i)) = none := by
    rw [List.find?_eq_none]
    intro k hk
    obtain ⟨inside, low, _⟩ := h k hk
    rw [at_]
    cases hb : inWindow (s.me.reg a).toNat
    · simpa using low hb
    · simp [inside hb]
  simp only [indexRange, run_bind, run_getS, none]
  rfl

theorem run_indexFits (h : z.toNat ≤ s.me.vcfg.toNat % 4) (i : Instr) : (indexFits i z).run s = (.ok (), s) := by
  have fits : z.toNat ≤ s.me.sew.toNat := by simpa [Ctx.sew, slice, BitVec.extractLsb'_toNat] using h
  simp only [indexFits, run_bind, run_getS]
  exact run_check_of (by simpa using fits) _ _ s

/-- The checks of a scatter pass (R396). -/
theorem run_scatterChecks {els : List Nat} (index : IndexOk s.me b z) (h : StoreOk s d a C 1 (indexedAdr s.me a b z)) (all : ∀ k ∈ els, C k)
    (i : Instr) : (scatterChecks i d a b z els).run s = (.ok (elemBytes s.me, addresses 1 (indexedAdr s.me a b z)), s) := by
  have one : ∀ q ∈ [d], StoreTag (encOf s.me) (sewBits s.me) (regGet s.me.tag q) := by simpa using h.1 0 Nat.one_pos
  obtain ⟨noPacked, noWide, tags⟩ := run_storeTagChecks i one
  have aligned := run_alignedAll (n := elemBytes s.me) (vas := els.flatMap (addresses 1 (indexedAdr s.me a b z))) (fun v hv => by
    obtain ⟨k, hk, j, hj, rfl⟩ := mem_flatMap_addresses.mp hv
    exact (h.2 k j (all k hk) hj).1) s
  have tag : (tagIs b (intTag z)).run s = (.ok (), s) := run_tagIs (by rw [intTag_eq]; exact index.2)
  have range : (indexRange a b (indexBits z) els).run s = (.ok (), s) := run_indexRange fun k hk => (h.2 k 0 (all k hk) Nat.one_pos).2
  have form : (fun k => [s.me.indexed a b (indexBits z) k]) = addresses 1 (indexedAdr s.me a b z) := indexed_eq _ _ _ _
  simp only [scatterChecks, run_bind, run_needSb_of_storeOk h Nat.one_pos, noPacked, noWide, tags, run_indexFits index.1, tag, range, run_getS,
    form, memSize_eq, aligned, run_pure]

theorem comesToStores_vstx (index : IndexOk s.me b z) (h : StoreOk s d a (Batch s.me m r) 1 (indexedAdr s.me a b z)) :
    ComesToStores (.vstx d a b m r z) s d m r 1 (indexedAdr s.me a b z) := by
  refine ⟨_, rfl, ?_⟩
  rw [run_bind, run_scatterChecks index h fun k hk => mem_batchList_vstart.mp (by rwa [← passElems_eq])]

/-! ### How they end -/

variable {i : Instr} {o : Nat → Except (Nat × Stop) (List Loc)} {at_ : Nat → State} {u : State}

/-- A store over any addresses, some of which may fault (R163). -/
theorem stores_end (comes : ComesToStores i s d m r fields adr) (h : StoreOk s d a C fields adr)
    (all : ∀ k, Batch s.me m r k → C k)
    (pass : PassOver s.who .write (fun k => (List.range fields).map fun j => (adr k j, elemBytes s.me)) (storeElement s.me d fields false) o at_ u s
      (batchList s.me m r s.me.vstart.toNat)) :
    ∃ fl, (∀ c, fl.getLsbD c = true ↔ ∃ k j, (k ∈ batchList s.me m r s.me.vstart.toNat ∧ ∃ ls, o k = .ok ls) ∧ j < fields ∧
        (storeVal s.me d k j).2.getLsbD c = true) ∧
      BatchEnds i s (u.setMe { u.me with fflags := u.me.fflags ||| fl }) 1 (sewBits s.me) (batchList s.me m r s.me.vstart.toNat) o id fun k => [k] := by
  obtain ⟨mn, execs, runs⟩ := comes
  exact storeBatch_ends rfl h.1 (fun k hk => all k (mem_batchList_vstart.mp hk)) h.2 pass execs runs

/-- What element `k` of a store to mapped addresses queues. -/
def mappedStore (x : Ctx) (d : BitVec 5) (fields : Nat) (pa : Nat → Nat → Nat) (ord : Bool) (k : Nat) : QStore :=
  queued x ((List.range fields).flatMap fun j => cells (pa k j) (elemBytes x) (storeVal x d k j).1) ord

theorem passOver_mapped {els : List Nat} {pa : Nat → Nat → Nat} (sorted : els.Pairwise (· < ·)) (ord : Bool)
    (mapped : ∀ k ∈ els, ∀ j, j < fields → Mapped s s.who .write (adr k j) (elemBytes s.me) (pa k j)) :
    PassOver s.who .write (fun k => (List.range fields).map fun j => (adr k j, elemBytes s.me)) (storeElement s.me d fields ord)
      (fun k => .ok ((List.range fields).flatMap fun j => placesAt (pa k j) (elemBytes s.me)))
      (fun k => withStores s ((els.filter fun j => decide (j < k)).map (mappedStore s.me d fields pa ord)))
      (withStores s (els.map (mappedStore s.me d fields pa ord))) s els := by
  refine passOver_withStores sorted (fun k hk qs => ?_) fun k _ v => ?_
  · exact run_elementPlaces (List.range fields) (adr k) (fun _ => elemBytes s.me) (pa k) fun j hj =>
      (SameView.withStores s qs s.who).mapped (mapped k hk j (List.mem_range.mp hj))
  · rw [storeElement, zip_storeBytes, mappedStore]

/-- Elements that are all found fail nowhere. -/
theorem failures_of_found {els : List Nat} {ls : Nat → List Loc} : failures els (fun k => .ok (ls k)) = [] := by
  simp [failures]

theorem results_of_found {α : Type} {els : List Nat} {ls : Nat → List Loc} {res : Nat → List Loc → α} :
    results els (fun k => .ok (ls k)) res = els.map fun k => (k, res k (ls k)) := by
  exact congrFun (List.filterMap_eq_map' (f := fun k => (k, res k (ls k)))) els

theorem queued_of_setMe {els : List Nat} {fl : BitVec 5} {q : Nat → QStore} {x : Ctx}
    (h : x = { s.me with
      vstores := s.me.vstores ++ els.map q, fflags := s.me.fflags ||| fl, vfm := 0, vstart := 0, pc := nextPc s.me.pc 1, stall := [], busy := false
      adone := x.adone }) : Queued s (s.setMe x) els fl q := by
  refine ⟨onlyMe_setMe s x, ?_⟩
  rw [me_setMe]
  exact h

/-- A store to mapped addresses queues every element (R55, R168). -/
theorem stores_queue {els : List Nat} {pa : Nat → Nat → Nat} (comes : ComesToStores i s d m r fields adr) (h : StoreOk s d a C fields adr)
    (all : ∀ k, Batch s.me m r k → C k) (lists : Lists els (Batch s.me m r))
    (mapped : ∀ k j, Batch s.me m r k → j < fields → Mapped s s.who .write (adr k j) (elemBytes s.me) (pa k j)) :
    ∃ u fl, exec i s = .next u ∧ (∀ c, fl.getLsbD c = true ↔ ∃ k j, Batch s.me m r k ∧ j < fields ∧ (storeVal s.me d k j).2.getLsbD c = true) ∧
      Queued s u els fl (mappedStore s.me d fields pa false) := by
  have e : els = batchList s.me m r s.me.vstart.toNat :=
    lists.1.eq_of_mem_iff (pairwise_batchList _ _ _ _) fun k => (lists.2 k).trans mem_batchList_vstart.symm
  subst e
  obtain ⟨fl, flags, ends, _⟩ := stores_end comes h all
    (passOver_mapped (d := d) lists.1 false fun k hk j hj => mapped k j ((lists.2 k).mp hk) hj)
  refine ⟨_, fl, ends failures_of_found, fun c => (flags c).trans ?_, ?_⟩
  · simp [mem_batchList_vstart]
  · simp only [me_withStores, setMe_withStores, setMe_setMe, me_setMe]
    exact queued_of_setMe rfl

/-- What the model does with an element of VSTX.ord once it is located. -/
def orderedAct (x : Ctx) (d : BitVec 5) (n k : Nat) (ls : List Loc) : M (BitVec 5) := do
  queueStore x true false (ls.zip (bytesOf n (storeElem x.enc (regGet x.tag d) x.rm x.fz (x.at d k)).1))
  return (storeElem x.enc (regGet x.tag d) x.rm x.fz (x.at d k)).2

theorem run_orderedAct {x : Ctx} (tag : StoreTag (encOf x) (sewBits x) (regGet x.tag (d + BitVec.ofNat 5 0))) (k : Nat) (ls : List Loc)
    (v : State) : (orderedAct x d (elemBytes x) k ls).run v = (.ok (storeVal x d k 0).2, storeElement x d 1 true k ls v) := by
  have val := storeElem_at_eq (k := k) tag
  rw [BitVec.add_zero] at val
  simp only [orderedAct, val, run_bind, run_queueStore, run_pure, storeElement, storeBytes, bytesOf_eq_leBytes, List.range_one,
    List.flatMap_singleton]

theorem execVstxOrd_eq : execVstxOrd d a b m r z s = finishOpen (do
    let (n, adr) ← scatterChecks (.vstxOrd d a b m r z) d a b z (s.me.actives m r)
    stashOpen (((← getS).me.actives m r).flatMap adr)
    let t ← getS
    let (done, stop) ← orderedPass t.who .write t.me.width (orderedAct t.me d n) t.me.quota []
      ((t.me.actives m r).map fun k => (k, (adr k).map fun v => (v, n)))
    modMe fun y => y.raiseFlags (unionFlags (done.map (·.2)))
    endOrdered stop) s := rfl

/-- VSTX.ord to mapped addresses queues every element, in order (R164). -/
theorem vstxOrd_queues {els : List Nat} {pa : Nat → Nat → Nat} (index : IndexOk s.me b z) (h : StoreOk s d a (Runs s.me m r) 1 (indexedAdr s.me a b z))
    (quota : s.me.quota = none) (lists : Lists els (Runs s.me m r))
    (mapped : ∀ k j, Runs s.me m r k → j < 1 → Mapped s s.who .write (indexedAdr s.me a b z k j) (elemBytes s.me) (pa k j)) :
    ∃ u fl, exec (.vstxOrd d a b m r z) s = .next u ∧
      (∀ c, fl.getLsbD c = true ↔ ∃ k j, Runs s.me m r k ∧ j < 1 ∧ (storeVal s.me d k j).2.getLsbD c = true) ∧
      Queued s u els fl (mappedStore s.me d 1 pa true) := by
  have e : els = s.me.actives m r := lists.1.eq_of_mem_iff (pairwise_activesFrom _ _ _ _) fun k => (lists.2 k).trans mem_actives.symm
  subst e
  have pass := passOver_mapped (d := d) lists.1 true fun k hk j hj => mapped k j ((lists.2 k).mp hk) hj
  have run := run_orderedPass (w := s.me.width) pass failures_of_found (fun k _ ls _ => run_orderedAct (h.1 0 Nat.one_pos) k ls _) []
  have opens := run_stashOpen_addresses (l := s.me.actives m r) (fun k hk => mem_actives.mp hk) h.2
  have same : (s.me.actives m r).map (fun k => (k, (addresses 1 (indexedAdr s.me a b z) k).map fun v => (v, elemBytes s.me))) =
      (s.me.actives m r).map fun k => (k, (List.range 1).map fun j => (indexedAdr s.me a b z k j, elemBytes s.me)) := by
    simp [addresses]
  have checks := run_scatterChecks (d := d) index h (fun k hk => mem_actives.mp hk) (.vstxOrd d a b m r z)
  have flags (c : Nat) : (unionFlags ((s.me.actives m r).map fun k => (storeVal s.me d k 0).2)).getLsbD c = true ↔
      ∃ k j, Runs s.me m r k ∧ j < 1 ∧ (storeVal s.me d k j).2.getLsbD c = true := by
    rw [getLsbD_unionFlags]
    constructor
    · rintro ⟨_, hf, hc⟩
      obtain ⟨k, hk, rfl⟩ := List.mem_map.mp hf
      exact ⟨k, 0, mem_actives.mp hk, Nat.one_pos, hc⟩
    · rintro ⟨k, j, hk, hj, hc⟩
      obtain rfl : j = 0 := by omega
      exact ⟨_, List.mem_map.mpr ⟨k, mem_actives.mpr hk, rfl⟩, hc⟩
  generalize hfl : unionFlags ((s.me.actives m r).map fun k => (storeVal s.me d k 0).2) = fl at flags
  refine ⟨_, fl, execVstxOrd_eq.trans (finishWith_ok (t := s.setMe { s.me with
    vstores := s.me.vstores ++ (s.me.actives m r).map (mappedStore s.me d 1 pa true), fflags := s.me.fflags ||| fl, vfm := 0, vstart := 0,
    pc := nextPc s.me.pc 1, stall := [], busy := false }) ?_), flags, queued_of_setMe rfl⟩
  simp only [run_bind, checks, run_getS, opens, same, quota, run, run_modMe, results_of_found, List.nil_append, List.map_map,
    Function.comp_def, me_withStores, setMe_withStores, endOrdered, run_nextM, me_setMe, setMe_setMe, hfl]
  rfl

end

end Sys2Proof.Machine

/-! ## Superblocks: how their elements are grouped -/

namespace Sys2Proof.Machine

open Sys2Proof.Claims

/-! ### Bytes of a number -/

theorem leBytes_append (m n a b : Nat) (h : a < 256 ^ m) : leBytes (m + n) (a + b * 256 ^ m) = leBytes m a ++ leBytes n b := by
  rw [leBytes, List.range_add, List.map_append]
  congr 1
  · refine List.map_congr_left fun k hk => ?_
    have hk : k < m := List.mem_range.mp hk
    have split : 256 ^ m = 256 ^ k * 256 ^ (m - k) := by rw [← pow_add]; congr 1; omega
    refine BitVec.eq_of_toNat_eq ?_
    rw [BitVec.toNat_ofNat, BitVec.toNat_ofNat, split, show b * (256 ^ k * 256 ^ (m - k)) = 256 ^ k * (b * 256 ^ (m - k)) by ring,
      Nat.add_mul_div_left _ _ (by positivity)]
    obtain ⟨e, rfl⟩ : ∃ e, m = k + e + 1 := ⟨m - k - 1, by omega⟩
    rw [show k + e + 1 - k = e + 1 by omega, pow_succ, show b * (256 ^ e * 256) = 2 ^ 8 * (b * 256 ^ e) by ring, Nat.add_mul_mod_self_left]
  · rw [List.map_map]
    refine List.map_congr_left fun k _ => ?_
    rw [Function.comp_apply, pow_add, ← Nat.div_div_eq_div_mul, Nat.add_mul_div_right _ _ (by positivity), Nat.div_eq_of_lt h, Nat.zero_add]

theorem leBytes_zero (n : Nat) : leBytes n 0 = List.replicate n 0 := by
  simp [leBytes, List.map_const']

/-- The side entry of a superblock as one number (R119). -/
theorem sideEntry_eq (x : Ctx) (q : BitVec 5) (j : Nat) : x.sideEntry q j =
    leBytes 16 ((regGet x.sup q).toNat / 2 ^ (32 * j) % 2 ^ 32 + (regGet x.hdr q).toNat / 2 ^ (64 * j) % 2 ^ 64 * 2 ^ 32) := by
  have sup : (slice (regGet x.sup q) (32 * j) 32).toNat = (regGet x.sup q).toNat / 2 ^ (32 * j) % 2 ^ 32 := by
    simp [slice, BitVec.extractLsb'_toNat, Nat.shiftRight_eq_div_pow]
  have hdr : (slice (regGet x.hdr q) (64 * j) 64).toNat = (regGet x.hdr q).toNat / 2 ^ (64 * j) % 2 ^ 64 := by
    simp [slice, BitVec.extractLsb'_toNat, Nat.shiftRight_eq_div_pow]
  have first := leBytes_append 4 12 ((regGet x.sup q).toNat / 2 ^ (32 * j) % 2 ^ 32) ((regGet x.hdr q).toNat / 2 ^ (64 * j) % 2 ^ 64)
    (Nat.mod_lt _ (by norm_num))
  have second := leBytes_append 8 4 ((regGet x.hdr q).toNat / 2 ^ (64 * j) % 2 ^ 64) 0 (Nat.mod_lt _ (by norm_num))
  rw [Nat.zero_mul, Nat.add_zero, leBytes_zero] at second
  rw [Ctx.sideEntry, sup, hdr, bytesOf_eq_leBytes, bytesOf_eq_leBytes, List.append_assoc]
  exact (first.trans (congrArg (_ ++ ·) second)).symm

/-! ### Groups -/

section
variable {es : List Nat} {n : Nat}

/-- The superblocks of a batch, in ascending order. -/
def supersOf (n : Nat) (es : List Nat) : List Nat := (es.map (· / n)).dedup

/-- The elements of a batch that lie in a superblock. -/
def inSuper (n : Nat) (es : List Nat) (j : Nat) : List Nat := es.filter fun k => k / n == j

theorem mem_inSuper {j k : Nat} : k ∈ inSuper n es j ↔ k ∈ es ∧ k / n = j := by simp [inSuper]

theorem mem_supersOf {j : Nat} : j ∈ supersOf n es ↔ ∃ k ∈ es, k / n = j := by simp [supersOf]

theorem pairwise_div (sorted : es.Pairwise (· < ·)) : (es.map (· / n)).Pairwise (· ≤ ·) :=
  List.pairwise_map.mpr (sorted.imp fun h => Nat.div_le_div_right h.le)

theorem pairwise_supersOf (sorted : es.Pairwise (· < ·)) : (supersOf n es).Pairwise (· < ·) :=
  (((pairwise_div sorted).sublist (List.dedup_sublist _)).and (List.nodup_dedup _)).imp fun h => by omega

theorem inSuper_ne_nil {j : Nat} (h : j ∈ supersOf n es) : inSuper n es j ≠ [] := by
  obtain ⟨k, hk, e⟩ := mem_supersOf.mp h
  exact List.ne_nil_of_mem (mem_inSuper.mpr ⟨hk, e⟩)

/-- The elements of superblocks in ascending order are in ascending order. -/
theorem pairwise_flatMap_inSuper (sorted : es.Pairwise (· < ·)) {js : List Nat} (ordered : js.Pairwise (· < ·)) :
    (js.flatMap (inSuper n es)).Pairwise (· < ·) := by
  rw [List.pairwise_flatMap]
  refine ⟨fun j _ => sorted.filter _, ordered.imp fun {i j} lt a ha b hb => ?_⟩
  obtain ⟨_, rfl⟩ := mem_inSuper.mp ha
  obtain ⟨_, rfl⟩ := mem_inSuper.mp hb
  exact lt_of_not_ge fun h => absurd (Nat.div_le_div_right (c := n) h) (by omega)

/-- They are the elements of the batch that lie in those superblocks. -/
theorem flatMap_inSuper_eq (sorted : es.Pairwise (· < ·)) {js : List Nat} (ordered : js.Pairwise (· < ·)) :
    js.flatMap (inSuper n es) = es.filter fun k => js.contains (k / n) := by
  refine (pairwise_flatMap_inSuper sorted ordered).eq_of_mem_iff (sorted.filter _) fun k => ?_
  simp [mem_inSuper, and_comm]

theorem head_inSuper_mem {j : Nat} (h : j ∈ supersOf n es) : (inSuper n es j).head?.getD 0 ∈ inSuper n es j := by
  rw [List.head?_eq_some_head (inSuper_ne_nil h)]
  exact List.head_mem _

theorem last_inSuper_mem {j : Nat} (h : j ∈ supersOf n es) : (inSuper n es j).getLast?.getD 0 ∈ inSuper n es j := by
  rw [List.getLast?_eq_some_getLast (inSuper_ne_nil h)]
  exact List.getLast_mem _

theorem head_inSuper_le (sorted : es.Pairwise (· < ·)) {j k : Nat} (hk : k ∈ inSuper n es j) : (inSuper n es j).head?.getD 0 ≤ k := by
  have sub : (inSuper n es j).Pairwise (· < ·) := sorted.filter _
  cases h : inSuper n es j with
  | nil => simp [h] at hk
  | cons a l =>
    rw [h] at hk sub
    rcases List.mem_cons.mp hk with rfl | hk
    · exact le_rfl
    · exact (List.rel_of_pairwise_cons sub hk).le

theorem le_last_inSuper (sorted : es.Pairwise (· < ·)) {j k : Nat} (hk : k ∈ inSuper n es j) : k ≤ (inSuper n es j).getLast?.getD 0 := by
  have sub : (inSuper n es j).Pairwise (· < ·) := sorted.filter _
  have ne : inSuper n es j ≠ [] := List.ne_nil_of_mem hk
  rw [List.getLast?_eq_some_getLast ne, Option.getD_some]
  rw [← List.dropLast_append_getLast ne, List.pairwise_append] at sub
  rw [← List.dropLast_append_getLast ne, List.mem_append, List.mem_singleton] at hk
  rcases hk with hk | hk
  · exact (sub.2.2 k hk _ (by simp)).le
  · exact hk.le

/-- First elements of superblocks ascend with them. -/
theorem head_inSuper_le_head {i j : Nat} (hi : i ∈ supersOf n es) (hj : j ∈ supersOf n es) (lt : i < j) :
    (inSuper n es i).head?.getD 0 ≤ (inSuper n es j).head?.getD 0 := by
  obtain ⟨_, ei⟩ := mem_inSuper.mp (head_inSuper_mem hi)
  obtain ⟨_, ej⟩ := mem_inSuper.mp (head_inSuper_mem hj)
  generalize (inSuper n es i).head?.getD 0 = a at *
  generalize (inSuper n es j).head?.getD 0 = b at *
  exact (lt_of_not_ge fun h => absurd (Nat.div_le_div_right (c := n) h) (by omega)).le

theorem group_eq (g : SbShape) (sorted : es.Pairwise (· < ·)) :
    g.group es = (supersOf g.superElems es).map fun j => (j, inSuper g.superElems es j) := by
  rw [SbShape.group, dedup_eq_dedup (pairwise_div sorted)]
  rfl

end

end Sys2Proof.Machine

/-! ## The packed store of SB data (R125, R126, R394) -/

namespace Sys2Proof.Machine

open Sys2Proof.Claims

theorem side_eq (x : Ctx) : x.side = x.mfmt.toNat / 2 ^ 8 % 4 := by simp [Ctx.side, field, Nat.shiftRight_eq_div_pow]

/-- The layout of packed data: 128 bytes a superblock, 32 a block. -/
def packedAccess (x : Ctx) (a b : BitVec 5) : SuperAccess :=
  { payload := (x.reg a).toNat, side := (x.reg b).toNat, usesPayload := x.mfmt.toNat / 2 ^ 8 % 4 != 1,
    usesSide := x.mfmt.toNat / 2 ^ 8 % 4 != 2, elems := 128, block := 32, bits := 8 }

/-- What a packed store writes of a superblock: its bytes from the first to the last touched, then its side entry. -/
def packedBytes (x : Ctx) (d a b : BitVec 5) (es : List Nat) (j : Nat) : List Byte :=
  (if x.mfmt.toNat / 2 ^ 8 % 4 = 1 then [] else
    (List.range ((packedAccess x a b).hi es j - (packedAccess x a b).lo es j + 1)).map fun q =>
      BitVec.ofNat 8 (vel x d 8 (128 * j + (packedAccess x a b).lo es j + q))) ++
  if x.mfmt.toNat / 2 ^ 8 % 4 = 2 then [] else
    leBytes 16 ((regGet x.sup d).toNat / 2 ^ (32 * j) % 2 ^ 32 + (regGet x.hdr d).toNat / 2 ^ (64 * j) % 2 ^ 64 * 2 ^ 32)

/-- A superblock of a packed store is queued at the places that were found for it. -/
def storePacked (x : Ctx) (d a b : BitVec 5) (es : List Nat) (j : Nat) (ls : List Loc) (v : State) : State :=
  withStore v { queued x (ls.zip (packedBytes x d a b es j)) false with split := true }

/-- What the model does with a superblock of a packed store once it is located. -/
def packedAct (x : Ctx) (d : BitVec 5) (g : SbShape) (es : List Nat) (j : Nat) (ls : List Loc) : M Unit := do
  let mine := es.filter fun k => k / 128 == j
  let lo := mine.head?.getD 0
  let hi := mine.getLast?.getD 0
  let body := if g.payload then (span lo (hi - lo + 1)).map fun k => BitVec.ofNat 8 (elem (regGet x.v d) 8 k) else []
  queueStore x false true (ls.zip (body ++ if g.side then x.sideEntry d j else []))

theorem sbStore_eq (i : Instr) (d a b : BitVec 5) (m : BitVec 1) (r : BitVec 3) (fmt : Tag) : sbStore i d a b m r fmt = (do
    let x := (← getS).me
    check (x.width == 8) 0x085 (instrWord i)
    packedChecks i b m
    check (!(regGet x.tag d).isFloat) 0x085 (instrWord i)
    tagIs d fmt
    let g : SbShape := ⟨fmt == .sb8, true, x.side != 1, x.side != 2⟩
    sbBases (x.reg a) (x.reg b) g.side
    let act := x.activesFrom m r (x.vstart.toNat / 32 * 32)
    if g.payload then insideAll (x.reg a).toNat 8 (act.map fun k => (k, ((x.reg a).toNat + k) % 2 ^ 64))
    stashOpen (act.flatMap fun k => (if g.payload then [((x.reg a).toNat + k) % 2 ^ 64] else []) ++
      (if g.side then [((x.reg b).toNat + 16 * (k / 128)) % 2 ^ 64] else []))
    let s ← getS
    let es := act.filter fun k => x.vfm == 0 || x.vfm.getLsbD k
    let first j := (es.find? fun k => k / 128 == j).getD 0
    let p ← batchPass s.who .write (fun j r => atElem 8 (first j) r)
      ((g.group es).map fun e => (e.1, g.accesses (x.reg a).toNat (x.reg b).toNat e.1 e.2)) (packedAct x d g es)
    let fails := p.fails.map fun f => { f with elem := first f.elem }
    endBatch .write x.width (es.filter fun k => p.fails.any fun f => f.elem == k / 128) fails) := rfl

section
variable {s u : State} {d a b : BitVec 5} {m : BitVec 1} {r : BitVec 3} {es : List Nat} {x : Ctx}

theorem lo_packedAccess (es : List Nat) (j : Nat) : (packedAccess x a b).lo es j = (inSuper 128 es j).head?.getD 0 % 128 := by
  simp [SuperAccess.lo, SuperAccess.byteOf, packedAccess, SuperAccess.within, inSuper]

theorem hi_packedAccess (es : List Nat) (j : Nat) : (packedAccess x a b).hi es j = (inSuper 128 es j).getLast?.getD 0 % 128 := by
  simp [SuperAccess.hi, SuperAccess.byteOf, packedAccess, SuperAccess.within, inSuper]

/-- The bytes of a superblock from its first element's to its last one's. -/
theorem span_packed {j : Nat} (h : j ∈ supersOf 128 es) :
    (span ((inSuper 128 es j).head?.getD 0) ((inSuper 128 es j).getLast?.getD 0 - (inSuper 128 es j).head?.getD 0 + 1)) =
      (List.range ((packedAccess x a b).hi es j - (packedAccess x a b).lo es j + 1)).map fun q => 128 * j + (packedAccess x a b).lo es j + q := by
  obtain ⟨_, first⟩ := mem_inSuper.mp (head_inSuper_mem h)
  obtain ⟨_, last⟩ := mem_inSuper.mp (last_inSuper_mem h)
  rw [lo_packedAccess, hi_packedAccess, span_eq_range', List.range'_eq_map_range]
  generalize (inSuper 128 es j).head?.getD 0 = p at *
  generalize (inSuper 128 es j).getLast?.getD 0 = q at *
  rw [show q - p = q % 128 - p % 128 by omega]
  exact List.map_congr_left fun k _ => by omega

theorem run_packedAct (sb8 : Bool) {j : Nat} (h : j ∈ supersOf 128 es) (ls : List Loc) (v : State) :
    (packedAct x d ⟨sb8, true, x.side != 1, x.side != 2⟩ es j ls).run v = (.ok (), storePacked x d a b es j ls v) := by
  have bytes : (if x.side != 1 then (span ((inSuper 128 es j).head?.getD 0)
        ((inSuper 128 es j).getLast?.getD 0 - (inSuper 128 es j).head?.getD 0 + 1)).map fun k => BitVec.ofNat 8 (elem (regGet x.v d) 8 k) else []) ++
      (if x.side != 2 then x.sideEntry d j else []) = packedBytes x d a b es j := by
    rw [span_packed (x := x) (a := a) (b := b) h, packedBytes, sideEntry_eq, side_eq, List.map_map]
    congr 1
    · simp [vel_eq_elem, Function.comp_def]
    · simp
  rw [storePacked, ← bytes]
  rfl

theorem accesses_packed (sb8 : Bool) (es : List Nat) (j : Nat) :
    SbShape.accesses ⟨sb8, true, x.side != 1, x.side != 2⟩ (x.reg a).toNat (x.reg b).toNat j (inSuper 128 es j) = (packedAccess x a b).accs es j := by
  rw [side_eq]; rfl

/-- The checks on superblock data that a packed access passes (R126). -/
theorem run_packedChecks {i : Instr} (side : s.me.mfmt.toNat / 2 ^ 8 % 4 = 2 ∨ b ≠ 0) (mask : m = 0) (whole : s.me.vl.toNat % 128 = 0) :
    (packedChecks i b m).run s = (.ok (), s) := by
  have c1 : (s.me.side == 2 || b != 0#5) = true := by rw [side_eq]; simpa using side
  simp only [packedChecks, run_bind, run_getS, run_check_of c1, run_check_of (show (m == 0#1) = true by simp [mask])]
  exact run_check_of (by simpa using whole) _ _ _

theorem run_sbBases {p q : Word} {uses : Bool} (hp : p.toNat % 128 = 0) (hq : uses = true → q.toNat % 16 = 0) :
    (sbBases p q uses).run s = (.ok (), s) := by
  have c1 := run_check_of (show (p.toNat % 128 == 0) = true by simpa using hp) 0x010 p s
  cases uses
  · simp only [sbBases, aligned, run_bind, c1]; rfl
  · have c2 := run_check_of (show (q.toNat % 16 == 0) = true by simpa using hq rfl) 0x010 q s
    simp only [sbBases, aligned, run_bind, c1, ↓reduceIte, c2]

/-- A check that is made under a condition passes where it passes or the condition fails. -/
theorem run_guarded {α : Type} {c : Prop} [Decidable c] {n : M Unit} {k : M α} (h : c → n.run s = (.ok (), s)) :
    (if c then (do n; k) else k).run s = k.run s := by
  by_cases hc : c
  · rw [if_pos hc, run_bind, h hc]
  · rw [if_neg hc]

theorem execVst_packed (sb : (regGet s.me.tag d).isSb = true)
    (enc : encOf s.me = .unset ∨ (encOf s.me = regGet s.me.tag d ∧ s.myPkg.enable.getLsbD 2 = true)) :
    exec (.vst d a b m r) s = complete (do
      needSb (.vst d a b m r)
      sbStore (.vst d a b m r) d a b m r (regGet s.me.tag d)) s := by
  have packed : s.me.packedTag d = some (regGet s.me.tag d) := by
    rcases enc with e | ⟨e, _⟩
    · simp [Ctx.packedTag, enc_eq, e, sb, show Tag.unset.isSb = false from rfl]
    · simp [Ctx.packedTag, enc_eq, e, sb]
  have : exec (.vst d a b m r) s = execVst d a b m r s := rfl
  rw [this, execVst]
  simp only [packed]

/-- Accesses whose addresses keep to the range of their base pass the checks of R135. -/
theorem run_insideAll_of {l : List Nat} {base w : Nat} {address : Nat → Nat} (h : ∀ k ∈ l, InRange s base (address k)) :
    (insideAll base w (l.map fun k => (k, address k))).run s = (.ok (), s) :=
  run_insideAll (fun p hp => by
    obtain ⟨k, hk, rfl⟩ := List.mem_map.mp hp
    obtain ⟨inside, low, -⟩ := h k hk
    exact ⟨inside, low⟩) s

/-- Accesses of payload and side entries reach the stash window only where it is enabled. -/
theorem run_stashOpen_super {l : List Nat} {payload side : Nat → Nat} {p q : Bool}
    (hp : p = true → ∀ k ∈ l, inWindow (payload k) = true → s.myPkg.enable.getLsbD 3 = true)
    (hq : q = true → ∀ k ∈ l, inWindow (side k) = true → s.myPkg.enable.getLsbD 3 = true) :
    (stashOpen (l.flatMap fun k => (if p then [payload k] else []) ++ (if q then [side k] else []))).run s = (.ok (), s) :=
  run_stashOpen fun v hv w => by
    obtain ⟨k, hk, hv⟩ := List.mem_flatMap.mp hv
    rcases List.mem_append.mp hv with hv | hv
    · split at hv
      next uses => obtain rfl := List.mem_singleton.mp hv; exact hp uses k hk w
      next => cases hv
    · split at hv
      next uses => obtain rfl := List.mem_singleton.mp hv; exact hq uses k hk w
      next => cases hv

/-- The conditions under which the checks of a packed store pass (R119, R126, R135). -/
structure PackedOk (s : State) (a b : BitVec 5) (m : BitVec 1) (r : BitVec 3) : Prop where
  width : sewBits s.me = 8
  source : s.me.mfmt.toNat / 2 ^ 8 % 4 = 2 ∨ b ≠ 0
  mask : m = 0
  whole : s.me.vl.toNat % 128 = 0
  base : (s.me.reg a).toNat % 128 = 0
  side : s.me.mfmt.toNat / 2 ^ 8 % 4 = 2 ∨ (s.me.reg b).toNat % 16 = 0
  inRange : ∀ k, s.me.vstart.toNat / 32 * 32 ≤ k → On s.me m r k →
    (s.me.mfmt.toNat / 2 ^ 8 % 4 = 1 ∨ InRange s (s.me.reg a).toNat (((s.me.reg a).toNat + k) % 2 ^ 64)) ∧
    (s.me.mfmt.toNat / 2 ^ 8 % 4 = 2 ∨ inWindow (((s.me.reg b).toNat + 16 * (k / 128)) % 2 ^ 64) = true → s.myPkg.enable.getLsbD 3 = true)

/-- The elements of a packed store. -/
def packedElems (x : Ctx) (m : BitVec 1) (r : BitVec 3) : List Nat := batchList x m r (x.vstart.toNat / 32 * 32)

/-- A packed store after its checks: its pass, and its end. -/
def sbQueue (s : State) (d a b : BitVec 5) (es : List Nat) (sb8 : Bool) : M Unit := do
  let g : SbShape := ⟨sb8, true, s.me.side != 1, s.me.side != 2⟩
  let first j := (es.find? fun k => k / 128 == j).getD 0
  let p ← batchPass s.who .write (fun j r => atElem 8 (first j) r)
    ((g.group es).map fun e => (e.1, g.accesses (s.me.reg a).toNat (s.me.reg b).toNat e.1 e.2)) (packedAct s.me d g es)
  endBatch .write s.me.width (es.filter fun k => p.fails.any fun f => f.elem == k / 128) (p.fails.map fun f => { f with elem := first f.elem })

theorem run_sbStore (ok : PackedOk s a b m r) (sb : (regGet s.me.tag d).isSb = true) (i : Instr) :
    (sbStore i d a b m r (regGet s.me.tag d)).run s = (sbQueue s d a b (packedElems s.me m r) (regGet s.me.tag d == .sb8)).run s := by
  have c8 : (s.me.width == 8) = true := by rw [width_eq_sewBits, ok.width]; rfl
  have notFloat : (!(regGet s.me.tag d).isFloat) = true := by cases h : regGet s.me.tag d <;> simp_all [Tag.isSb, Tag.isFloat]
  have tag : (tagIs d (regGet s.me.tag d)).run s = (.ok (), s) := run_tagIs rfl
  have bases := run_sbBases (s := s) (uses := s.me.side != 2) ok.base fun uses => by
    rw [side_eq] at uses
    exact ok.side.resolve_left (by simpa using uses)
  have inside : (s.me.side != 1) = true → (insideAll (s.me.reg a).toNat 8 ((s.me.activesFrom m r (s.me.vstart.toNat / 32 * 32)).map
      fun k => (k, ((s.me.reg a).toNat + k) % 2 ^ 64))).run s = (.ok (), s) := fun uses => run_insideAll_of fun k hk => by
    obtain ⟨low, on⟩ := mem_activesFrom.mp hk
    rw [side_eq] at uses
    exact (ok.inRange k low on).1.resolve_left (by simpa using uses)
  have opens : (stashOpen ((s.me.activesFrom m r (s.me.vstart.toNat / 32 * 32)).flatMap fun k =>
      (if s.me.side != 1 then [((s.me.reg a).toNat + k) % 2 ^ 64] else []) ++
      (if s.me.side != 2 then [((s.me.reg b).toNat + 16 * (k / 128)) % 2 ^ 64] else []))).run s = (.ok (), s) := by
    refine run_stashOpen_super (fun uses k hk => ?_) fun _ k hk w => ?_ <;> obtain ⟨low, on⟩ := mem_activesFrom.mp hk
    · rw [side_eq] at uses
      exact ((ok.inRange k low on).1.resolve_left (by simpa using uses)).2.2
    · exact (ok.inRange k low on).2 (.inr w)
  simp only [sbStore_eq, run_bind, run_getS, run_check_of c8, run_packedChecks ok.source ok.mask ok.whole, run_check_of notFloat, tag, bases]
  rw [run_guarded inside]
  simp only [sbQueue, packedElems, run_bind, opens, run_getS, batchList_eq]

/-- The packed store of SB data ends as its pass says. -/
theorem packedStore_ends {o : Nat → Except (Nat × Stop) (List Loc)} {at_ : Nat → State}
    (sb : (regGet s.me.tag d).isSb = true)
    (enc : encOf s.me = .unset ∨ (encOf s.me = regGet s.me.tag d ∧ s.myPkg.enable.getLsbD 2 = true)) (ok : PackedOk s a b m r)
    (pass : PassOver s.who .write ((packedAccess s.me a b).accs (packedElems s.me m r)) (storePacked s.me d a b (packedElems s.me m r)) o at_ u s
      (supersOf 128 (packedElems s.me m r))) :
    BatchEnds (.vst d a b m r) s u 1 8 (supersOf 128 (packedElems s.me m r)) o (fun j => (inSuper 128 (packedElems s.me m r) j).head?.getD 0)
      (inSuper 128 (packedElems s.me m r)) := by
  have sorted : (packedElems s.me m r).Pairwise (· < ·) := pairwise_batchList _ _ _ _
  have checks := run_sbStore ok sb (.vst d a b m r)
  generalize packedElems s.me m r = es at *
  have steady : Steady s u := (passOver_invariant (Steady s) (fun k v hv => hv.trans (.elementPlaces v _ _ _))
    (fun k ls v hv => hv.trans (by exact .setCtx rfl)) pass (.refl s)).1
  have order := pairwise_failures (o := o) (pairwise_supersOf (n := 128) sorted)
  have supers : ∀ f ∈ failures (supersOf 128 es) o, f.1 ∈ supersOf 128 es := fun f hf => (mem_failures.mp hf).1
  have marks : (failures (supersOf 128 es) o).flatMap (fun f => inSuper 128 es f.1) =
      ((failures (supersOf 128 es) o).map (·.1)).flatMap (inSuper 128 es) := by rw [List.flatMap_map]
  have ascending : ((failures (supersOf 128 es) o).map (·.1)).Pairwise (· < ·) := List.pairwise_map.mpr order
  refine batchEnds_of (kind := .write) ?_ (congrArg (fun x => x.2.2.2.2.2.2) steady.me) ?_ (execVst_packed sb enc) ?_
  · exact order.imp_of_mem fun {f g} hf hg lt => head_inSuper_le_head (supers f hf) (supers g hg) lt
  · rw [marks]
    exact (pairwise_flatMap_inSuper sorted ascending).imp fun h => by omega
  · obtain ⟨keys, run⟩ := run_batchPass (mark := fun j r => atElem 8 ((es.find? fun k => k / 128 == j).getD 0) r) pass
      fun j hj ls _ => run_packedAct (regGet s.me.tag d == .sb8) hj ls (at_ j)
    have needs : (needSb (.vst d a b m r)).run s = (.ok (), s) := run_needSb fun e => by
      rcases enc with u | ⟨_, on⟩
      · rw [enc_eq, u] at e; cases e
      · exact on
    have groups : (SbShape.group ⟨regGet s.me.tag d == .sb8, true, s.me.side != 1, s.me.side != 2⟩ es).map (fun e =>
        (e.1, SbShape.accesses ⟨regGet s.me.tag d == .sb8, true, s.me.side != 1, s.me.side != 2⟩ (s.me.reg a).toNat (s.me.reg b).toNat e.1 e.2)) =
        (supersOf 128 es).map fun j => (j, (packedAccess s.me a b).accs es j) := by
      rw [group_eq _ sorted, List.map_map]
      exact List.map_congr_left fun j _ => by rw [← accesses_packed (regGet s.me.tag d == .sb8)]; rfl
    have left : (es.filter fun k => ((failures (supersOf 128 es) o).map (Fail.of id)).any fun f => f.elem == k / 128) =
        (failures (supersOf 128 es) o).flatMap fun f => inSuper 128 es f.1 := by
      rw [marks, flatMap_inSuper_eq sorted ascending]
      refine List.filter_congr fun k _ => ?_
      rw [Bool.eq_iff_iff]
      simp [Fail.of]
    have firsts : ((failures (supersOf 128 es) o).map (Fail.of id)).map (fun f =>
        { f with elem := (es.find? fun k => k / 128 == f.elem).getD 0 }) =
        (failures (supersOf 128 es) o).map (Fail.of fun j => (inSuper 128 es j).head?.getD 0) := by
      rw [List.map_map]
      exact List.map_congr_left fun f _ => by simp [Fail.of, inSuper, List.head?_filter]
    rw [run_bind, needs]
    refine checks.trans ?_
    simp only [sbQueue, run_bind, groups, run, left, firsts, width_eq_sewBits, ok.width]

end

end Sys2Proof.Machine

section
/-! The magnitudes of a binary format (R104): the patterns without a sign, in the order of their values. -/

namespace Sys2Proof.Machine

open Sys2Proof.Claims

/-- A format with at least two exponent bits and one fraction bit. -/
def Fmt.Usual (f : Fmt) : Prop := 2 ≤ f.eb ∧ 1 ≤ f.fb

theorem usual_fp16 : fp16.Usual := ⟨by decide, by decide⟩
theorem usual_bf16 : bf16.Usual := ⟨by decide, by decide⟩
theorem usual_fp32 : fp32.Usual := ⟨by decide, by decide⟩

/-- The exponent of the last place of a subnormal. -/
def Fmt.low (f : Fmt) : ℤ := f.emin - f.fb

/-- The value of a pattern without a sign; above those of a format it goes on as if the format had further exponents. -/
noncomputable def Fmt.magnitude (f : Fmt) (n : ℕ) : ℝ :=
  if n / 2 ^ f.fb = 0 then (n : ℝ) * 2 ^ f.low else ((2 ^ f.fb + n % 2 ^ f.fb : ℕ) : ℝ) * 2 ^ ((n / 2 ^ f.fb : ℕ) - 1 + f.low)

variable {f : Fmt}

/-- `r` units in a binade, the upper bound of it included. -/
theorem magnitude_grid {k r : ℕ} (most : r ≤ 2 ^ (f.fb + 1)) (least : k = 0 ∨ 2 ^ f.fb ≤ r) :
    f.magnitude (k * 2 ^ f.fb + r) = (r : ℝ) * 2 ^ ((k : ℤ) + f.low) := by
  have p : 0 < 2 ^ f.fb := by positivity
  rw [pow_succ] at most
  rcases Nat.lt_or_ge r (2 ^ f.fb) with small | normal
  · obtain rfl : k = 0 := least.resolve_right (by omega)
    simp [Fmt.magnitude, Nat.div_eq_of_lt small]
  · obtain ⟨t, rfl⟩ := Nat.exists_eq_add_of_le normal
    have exponent : (k * 2 ^ f.fb + (2 ^ f.fb + t)) / 2 ^ f.fb = k + 1 + t / 2 ^ f.fb := by
      rw [show k * 2 ^ f.fb + (2 ^ f.fb + t) = t + 2 ^ f.fb * (k + 1) by ring, Nat.add_mul_div_left _ _ p]; ring
    have fraction : (k * 2 ^ f.fb + (2 ^ f.fb + t)) % 2 ^ f.fb = t % 2 ^ f.fb := by
      rw [show k * 2 ^ f.fb + (2 ^ f.fb + t) = t + 2 ^ f.fb * (k + 1) by ring, Nat.add_mul_mod_self_left]
    rw [Fmt.magnitude, exponent, fraction, if_neg (Nat.ne_of_gt (by positivity))]
    rcases Nat.lt_or_ge t (2 ^ f.fb) with inside | top
    · rw [Nat.div_eq_of_lt inside, Nat.mod_eq_of_lt inside]
      push_cast
      congr 2; ring
    · obtain rfl : t = 2 ^ f.fb := by omega
      rw [Nat.div_self p, Nat.mod_self]
      push_cast
      rw [show ((k : ℤ) + 1 + 1 - 1 + f.low) = (k + f.low) + 1 by ring, zpow_add_one₀ (by norm_num)]
      ring

/-- Each magnitude lies in a binade. -/
theorem exists_grid (f : Fmt) (n : ℕ) : ∃ k r, n = k * 2 ^ f.fb + r ∧ r < 2 ^ (f.fb + 1) ∧ (k = 0 ∨ 2 ^ f.fb ≤ r) := by
  have p : 0 < 2 ^ f.fb := by positivity
  rcases Nat.lt_or_ge n (2 ^ f.fb) with small | normal
  · exact ⟨0, n, by simp, by rw [pow_succ]; omega, .inl rfl⟩
  · obtain ⟨t, rfl⟩ := Nat.exists_eq_add_of_le normal
    refine ⟨t / 2 ^ f.fb, 2 ^ f.fb + t % 2 ^ f.fb, ?_, ?_, .inr (by omega)⟩
    · have := Nat.div_add_mod' t (2 ^ f.fb); omega
    · have := Nat.mod_lt t p; rw [pow_succ]; omega

theorem magnitude_succ {k r : ℕ} (most : r < 2 ^ (f.fb + 1)) (least : k = 0 ∨ 2 ^ f.fb ≤ r) :
    f.magnitude (k * 2 ^ f.fb + r + 1) = f.magnitude (k * 2 ^ f.fb + r) + 2 ^ ((k : ℤ) + f.low) := by
  rw [Nat.add_assoc, magnitude_grid (r := r + 1) most (least.imp_right fun h => by omega), magnitude_grid most.le least]
  push_cast; ring

theorem magnitude_strictMono (f : Fmt) : StrictMono f.magnitude :=
  strictMono_nat_of_lt_succ fun n => by
    obtain ⟨k, r, rfl, most, least⟩ := exists_grid f n
    rw [magnitude_succ most least]
    have : (0 : ℝ) < 2 ^ ((k : ℤ) + f.low) := by positivity
    linarith

@[simp] theorem magnitude_zero (f : Fmt) : f.magnitude 0 = 0 := by simp [Fmt.magnitude]

theorem magnitude_nonneg (f : Fmt) (n : ℕ) : 0 ≤ f.magnitude n := by
  simpa using (magnitude_strictMono f).monotone n.zero_le

theorem magnitude_pos {n : ℕ} (h : n ≠ 0) : 0 < f.magnitude n := by
  simpa using (magnitude_strictMono f) (Nat.pos_of_ne_zero h)

theorem magnitude_eq_zero {n : ℕ} : f.magnitude n = 0 ↔ n = 0 :=
  ⟨fun h => by by_contra c; exact (magnitude_pos c).ne' h, fun h => by rw [h, magnitude_zero]⟩

/-- The place just above the largest finite magnitude is as far from it as the one below. -/
theorem magnitude_inf (usual : f.Usual) :
    f.magnitude f.inf = f.magnitude (f.inf - 1) + (f.magnitude (f.inf - 1) - f.magnitude (f.inf - 2)) := by
  obtain ⟨e, m⟩ := usual
  have p : 2 ≤ 2 ^ f.fb := by simpa using Nat.pow_le_pow_right (n := 2) (by norm_num) m
  have q : 4 ≤ 2 ^ f.eb := by simpa using Nat.pow_le_pow_right (n := 2) (by norm_num) e
  obtain ⟨k, hk⟩ : ∃ k, 2 ^ f.eb = k + 3 := ⟨2 ^ f.eb - 3, by omega⟩
  obtain ⟨w, hw⟩ : ∃ w, 2 ^ f.fb = w + 2 := ⟨2 ^ f.fb - 2, by omega⟩
  have base : f.inf - 2 = k * 2 ^ f.fb + (2 ^ f.fb + w) := by
    rw [Fmt.inf, hk, hw, show k + 3 - 1 = k + 2 by omega]; ring_nf; omega
  have two : 2 ≤ f.inf := p.trans (Nat.le_mul_of_pos_left _ (by omega))
  have first := magnitude_succ (f := f) (k := k) (r := 2 ^ f.fb + w) (by rw [pow_succ]; omega) (.inr (by omega))
  have second := magnitude_succ (f := f) (k := k) (r := 2 ^ f.fb + w + 1) (by rw [pow_succ]; omega) (.inr (by omega))
  rw [show k * 2 ^ f.fb + (2 ^ f.fb + w + 1) + 1 = f.inf by omega, show k * 2 ^ f.fb + (2 ^ f.fb + w + 1) = f.inf - 1 by omega] at second
  rw [show k * 2 ^ f.fb + (2 ^ f.fb + w) + 1 = f.inf - 1 by omega, ← base] at first
  rw [second, first]; ring

/-- The magnitude of a pattern. -/
def Fmt.mag (f : Fmt) (x : ℕ) : ℕ := x % 2 ^ (f.eb + f.fb)

theorem mag_div (f : Fmt) (x : ℕ) : f.mag x / 2 ^ f.fb = x / 2 ^ f.fb % 2 ^ f.eb := by
  rw [Fmt.mag, Nat.add_comm, pow_add, Nat.mod_mul_right_div_self]

theorem mag_mod (f : Fmt) (x : ℕ) : f.mag x % 2 ^ f.fb = x % 2 ^ f.fb := by
  rw [Fmt.mag, Nat.mod_mod_of_dvd _ (Nat.pow_dvd_pow 2 (by omega))]

/-- A pattern's value is its magnitude, with the sign of its top bit. -/
theorem fpValue_eq (f : Fmt) (x : ℕ) :
    (fpValue f x : ℝ) = if x.testBit (f.eb + f.fb) then -f.magnitude (f.mag x) else f.magnitude (f.mag x) := by
  have value : ((if x / 2 ^ f.fb % 2 ^ f.eb = 0 then ((x % 2 ^ f.fb : ℕ) : ℚ) / 2 ^ f.fb * 2 ^ f.emin
      else (1 + ((x % 2 ^ f.fb : ℕ) : ℚ) / 2 ^ f.fb) * 2 ^ (((x / 2 ^ f.fb % 2 ^ f.eb : ℕ) : ℤ) - f.bias) : ℚ) : ℝ) =
      f.magnitude (f.mag x) := by
    have unit : (2 : ℝ) ^ f.low = 2 ^ f.emin / 2 ^ f.fb := by rw [Fmt.low, zpow_sub₀ (by norm_num), zpow_natCast]
    rw [Fmt.magnitude, mag_div, mag_mod]
    split
    next zero =>
      have : f.mag x = x % 2 ^ f.fb := by
        rw [← mag_mod, Nat.mod_eq_of_lt ((Nat.div_eq_zero_iff_lt (by positivity)).mp (by rw [mag_div, zero]))]
      rw [unit, this]; push_cast; ring
    next =>
      generalize x / 2 ^ f.fb % 2 ^ f.eb = e
      rw [zpow_add₀ (by norm_num : (2 : ℝ) ≠ 0), unit, Fmt.emin]
      push_cast
      rw [show (e : ℤ) - f.bias = (e - 1) + (1 - f.bias) by ring, zpow_add₀ (by norm_num : (2 : ℝ) ≠ 0)]
      field_simp
  have top : (x / 2 ^ (f.eb + f.fb) % 2 = 1) ↔ x.testBit (f.eb + f.fb) = true := by
    rw [Nat.testBit_eq_decide_div_mod_eq, decide_eq_true_eq]
  simp only [fpValue, top]
  rw [← value]
  split <;> push_cast <;> rfl

/-- The finite patterns. -/
theorem fpFinite_iff (f : Fmt) (x : ℕ) : FpFinite f x ↔ x < 2 ^ f.width ∧ f.mag x < f.inf := by
  have below : x / 2 ^ f.fb % 2 ^ f.eb < 2 ^ f.eb := Nat.mod_lt _ (by positivity)
  rw [FpFinite, Fmt.inf, ← Nat.div_lt_iff_lt_mul (by positivity), mag_div]
  exact and_congr_right fun _ => by omega

theorem inf_lt (f : Fmt) : f.inf < 2 ^ (f.eb + f.fb) := by
  rw [pow_add, Fmt.inf]
  have : 0 < 2 ^ f.eb := by positivity
  exact Nat.mul_lt_mul_of_pos_right (by omega) (by positivity)

/-- A sign put on a magnitude of a format. -/
theorem mag_sign_add {b : ℕ} (neg : Bool) (h : b < 2 ^ (f.eb + f.fb)) : f.mag (f.sign neg + b) = b := by
  cases neg <;> simp [Fmt.mag, Fmt.sign, Nat.mod_eq_of_lt h]

theorem testBit_sign_add {b : ℕ} (neg : Bool) (h : b < 2 ^ (f.eb + f.fb)) : (f.sign neg + b).testBit (f.eb + f.fb) = neg := by
  cases neg
  · simp [Fmt.sign, Nat.testBit_lt_two_pow h]
  · simp [Fmt.sign, Nat.testBit_two_pow_add_eq, Nat.testBit_lt_two_pow h]

theorem sign_add_lt {b : ℕ} (neg : Bool) (h : b < 2 ^ (f.eb + f.fb)) : f.sign neg + b < 2 ^ f.width := by
  rw [Fmt.width, Nat.add_assoc, Nat.add_comm 1, pow_succ]
  cases neg <;> simp [Fmt.sign] <;> omega

end Sys2Proof.Machine
end

section
/-! Rounding to a format (R105 to R107): a value between two neighbouring magnitudes goes to one of them. -/

namespace Sys2Proof.Machine

open Sys2Proof.Claims

variable {f : Fmt} {a : ℝ} {n : ℕ}

theorem fpValue_sign_add {b : ℕ} (neg : Bool) (h : b < 2 ^ (f.eb + f.fb)) :
    (fpValue f (f.sign neg + b) : ℝ) = if neg then -f.magnitude b else f.magnitude b := by
  rw [fpValue_eq, mag_sign_add neg h, testBit_sign_add neg h]

theorem fpValue_of_lt {b : ℕ} (h : b < 2 ^ (f.eb + f.fb)) : (fpValue f b : ℝ) = f.magnitude b := by
  simpa [Fmt.sign] using fpValue_sign_add false h

/-- A finite pattern has a magnitude below the infinity, under one of the signs. -/
theorem exists_magnitude_of_finite {w : ℕ} (h : FpFinite f w) : ∃ k < f.inf, (fpValue f w : ℝ) = f.magnitude k ∨ (fpValue f w : ℝ) = -f.magnitude k := by
  refine ⟨f.mag w, ((fpFinite_iff f w).mp h).2, ?_⟩
  rw [fpValue_eq]
  split
  · exact .inr rfl
  · exact .inl rfl

/-- The value rounded up from magnitude `n` on, under a sign and a mode. -/
def RoundsUp (f : Fmt) (rm : Rm) (neg : Bool) (n : ℕ) (a : ℝ) : Prop :=
  match rm with
  | .rne => (f.magnitude n + f.magnitude (n + 1)) / 2 < a ∨ ((f.magnitude n + f.magnitude (n + 1)) / 2 = a ∧ n % 2 = 1)
  | .rtz => False
  | .rdn => neg = true ∧ f.magnitude n ≠ a
  | .rup => neg = false ∧ f.magnitude n ≠ a

/-- A magnitude between two neighbours and nothing else of the format. -/
structure Between (f : Fmt) (n : ℕ) (a : ℝ) : Prop where
  pos : 0 < a
  below : f.magnitude n ≤ a
  above : a < f.magnitude (n + 1)

namespace Between

variable (h : Between f n a)
include h

theorem le_of_le {k : ℕ} (le : f.magnitude k ≤ a) : k ≤ n := by
  by_contra c
  exact absurd ((magnitude_strictMono f).monotone (show n + 1 ≤ k by omega)) (not_le.mpr (le.trans_lt h.above))

theorem le_iff {k : ℕ} : f.magnitude k ≤ a ↔ k ≤ n := ⟨h.le_of_le, fun le => ((magnitude_strictMono f).monotone le).trans h.below⟩

theorem lt_iff_or {k : ℕ} : f.magnitude k < a ↔ k < n ∨ (k = n ∧ f.magnitude n ≠ a) := by
  rw [lt_iff_le_and_ne, h.le_iff, Nat.le_iff_lt_or_eq]
  refine ⟨fun ⟨le, ne⟩ => le.imp_right fun e => ⟨e, e ▸ ne⟩, ?_⟩
  rintro (lt | ⟨rfl, ne⟩)
  · exact ⟨.inl lt, ((magnitude_strictMono f) lt |>.trans_le h.below).ne⟩
  · exact ⟨.inr rfl, ne⟩

/-- The chosen neighbour, when all bounds on the side of zero are looked at. -/
theorem toward : f.magnitude n ≤ a ∧ ∀ k, f.magnitude k ≤ a → f.magnitude k ≤ f.magnitude n :=
  ⟨h.below, fun _ le => (magnitude_strictMono f).monotone (h.le_of_le le)⟩

/-- The chosen neighbour, when all bounds away from zero are looked at. -/
theorem away {b : ℕ} (exact_ : f.magnitude n = a → b = n) (up : f.magnitude n ≠ a → b = n + 1) :
    a ≤ f.magnitude b ∧ ∀ k, a ≤ f.magnitude k → f.magnitude b ≤ f.magnitude k := by
  by_cases e : f.magnitude n = a
  · rw [exact_ e, e]; exact ⟨le_rfl, fun _ le => le⟩
  · rw [up e]
    refine ⟨h.above.le, fun k le => (magnitude_strictMono f).monotone ?_⟩
    by_contra c
    have : f.magnitude k ≤ f.magnitude n := (magnitude_strictMono f).monotone (by omega)
    exact e (le_antisymm h.below (le.trans this))

/-- The nearest neighbour; the even one of two that are as near. -/
theorem nearest {b : ℕ} (up : RoundsUp f .rne false n a → b = n + 1) (down : ¬RoundsUp f .rne false n a → b = n) (k : ℕ) :
    |f.magnitude b - a| ≤ |f.magnitude k - a| ∧ (|f.magnitude k - a| = |f.magnitude b - a| → f.magnitude k ≠ f.magnitude b → b % 2 = 0) := by
  obtain ⟨pos, below, above⟩ := h
  have mono := (magnitude_strictMono f).monotone
  have low (le : k ≤ n) := mono le
  have high (le : n + 1 ≤ k) := mono le
  have distN : |f.magnitude n - a| = a - f.magnitude n := by rw [abs_sub_comm, abs_of_nonneg (by linarith)]
  have distS : |f.magnitude (n + 1) - a| = f.magnitude (n + 1) - a := abs_of_nonneg (by linarith)
  simp only [RoundsUp] at up down
  by_cases c : (f.magnitude n + f.magnitude (n + 1)) / 2 < a ∨ ((f.magnitude n + f.magnitude (n + 1)) / 2 = a ∧ n % 2 = 1)
  · rw [up c, distS]
    have mid : (f.magnitude n + f.magnitude (n + 1)) / 2 ≤ a := by rcases c with c | ⟨c, _⟩ <;> linarith
    rcases Nat.lt_or_ge n k with lt | ge
    · have := high lt
      rw [abs_of_nonneg (by linarith)]
      exact ⟨by linarith, fun e ne => absurd (by linarith) ne⟩
    · have := low ge
      rw [abs_sub_comm, abs_of_nonneg (by linarith)]
      refine ⟨by linarith, fun e _ => ?_⟩
      rcases c with c | ⟨_, odd⟩
      · linarith
      · omega
  · rw [down c, distN]
    rw [not_or, not_lt, not_and] at c
    rcases Nat.lt_or_ge n k with lt | ge
    · have := high lt
      rw [abs_of_nonneg (by linarith)]
      refine ⟨by linarith, fun e _ => ?_⟩
      have := c.2 (by linarith)
      omega
    · have := low ge
      rw [abs_sub_comm, abs_of_nonneg (by linarith)]
      exact ⟨by linarith, fun e ne => absurd (by linarith) ne⟩

end Between

/-- The rounded magnitude is past the last finite one. -/
def Exceeds (f : Fmt) (rm : Rm) (neg : Bool) (a : ℝ) : Prop :=
  match rm with
  | .rne => (f.magnitude (f.inf - 1) + f.magnitude f.inf) / 2 ≤ a
  | .rtz => f.magnitude f.inf ≤ a
  | .rdn => if neg then f.magnitude (f.inf - 1) < a else f.magnitude f.inf ≤ a
  | .rup => if neg then f.magnitude f.inf ≤ a else f.magnitude (f.inf - 1) < a

theorem inf_pos (usual : f.Usual) : 2 ≤ f.inf ∧ f.inf % 2 = 0 := by
  obtain ⟨e, m⟩ := usual
  obtain ⟨k, hk⟩ := Nat.exists_eq_add_of_le' m
  have : 2 ≤ 2 ^ f.fb := by simpa using Nat.pow_le_pow_right (n := 2) (by norm_num) m
  have : 4 ≤ 2 ^ f.eb := by simpa using Nat.pow_le_pow_right (n := 2) (by norm_num) e
  refine ⟨‹2 ≤ 2 ^ f.fb›.trans (Nat.le_mul_of_pos_left _ (by omega)), ?_⟩
  rw [Fmt.inf, hk, pow_succ, ← mul_assoc, Nat.mul_mod_left]

open scoped Classical in
theorem Between.exceeds_iff (h : Between f n a) (usual : f.Usual) {rm : Rm} {neg : Bool} {b : ℕ}
    (up : RoundsUp f rm neg n a → b = n + 1) (down : ¬RoundsUp f rm neg n a → b = n) : Exceeds f rm neg a ↔ f.inf ≤ b := by
  obtain ⟨two, even⟩ := inf_pos usual
  have last : f.magnitude (f.inf - 1) < a ↔ f.inf ≤ if f.magnitude n ≠ a then n + 1 else n := by
    rw [h.lt_iff_or]; split <;> simp_all <;> omega
  have pick : b = if RoundsUp f rm neg n a then n + 1 else n := by split <;> simp_all
  cases rm with
  | rtz => simpa [Exceeds, pick, RoundsUp] using h.le_iff
  | rdn => cases neg <;> simp [Exceeds, pick, RoundsUp, h.le_iff, last]
  | rup => cases neg <;> simp [Exceeds, pick, RoundsUp, h.le_iff, last]
  | rne =>
    have mono := magnitude_strictMono f
    obtain ⟨pos, below, above⟩ := h
    simp only [Exceeds, pick]
    rcases lt_trichotomy (n + 1) f.inf with lt | e | gt
    · have s : f.magnitude (n + 1) ≤ f.magnitude (f.inf - 1) := mono.monotone (by omega)
      have t : f.magnitude (f.inf - 1) < f.magnitude f.inf := mono (by omega)
      exact iff_of_false (by linarith) (by split <;> omega)
    · rw [← e, Nat.add_sub_cancel]
      have odd : n % 2 = 1 := by omega
      simp only [RoundsUp, odd, and_true, ← le_iff_lt_or_eq, e]
      split
      next c => exact iff_of_true c le_rfl
      next c => exact iff_of_false c (by omega)
    · have s : f.magnitude f.inf ≤ f.magnitude n := mono.monotone (by omega)
      have t : f.magnitude (f.inf - 1) < f.magnitude f.inf := mono (by omega)
      exact iff_of_true (by linarith) (by split <;> omega)

/-- The finite value that a mode chooses (R105). -/
def Chosen (f : Fmt) (rm : Rm) (q : ℝ) (p : ℕ) : Prop :=
  match rm with
  | .rne => ∀ w, FpFinite f w → |(fpValue f p : ℝ) - q| ≤ |(fpValue f w : ℝ) - q| ∧
      (|(fpValue f w : ℝ) - q| = |(fpValue f p : ℝ) - q| → (fpValue f w : ℝ) ≠ fpValue f p → p % 2 = 0)
  | .rtz => |(fpValue f p : ℝ)| ≤ |q| ∧ ∀ w, FpFinite f w → |(fpValue f w : ℝ)| ≤ |q| → |(fpValue f w : ℝ)| ≤ |(fpValue f p : ℝ)|
  | .rdn => (fpValue f p : ℝ) ≤ q ∧ ∀ w, FpFinite f w → (fpValue f w : ℝ) ≤ q → (fpValue f w : ℝ) ≤ fpValue f p
  | .rup => q ≤ (fpValue f p : ℝ) ∧ ∀ w, FpFinite f w → q ≤ (fpValue f w : ℝ) → (fpValue f p : ℝ) ≤ fpValue f w

/-- A magnitude with a sign. -/
def withSign (neg : Bool) (a : ℝ) : ℝ := if neg then -a else a

@[simp] theorem withSign_false (a : ℝ) : withSign false a = a := rfl
@[simp] theorem withSign_true (a : ℝ) : withSign true a = -a := rfl

theorem abs_withSign (neg : Bool) (pos : 0 ≤ a) : |withSign neg a| = a := by cases neg <;> simp [abs_of_nonneg pos]

theorem rounded_withSign {rm : Rm} {flush neg : Bool} {r : FpResult} (usual : f.Usual) (pos : 0 < a) :
    Rounded f rm flush (withSign neg a) r ↔
      (flush = true → a < 2 ^ f.emin → r = (f.sign neg, 0b00011#5)) ∧
      (Exceeds f rm neg a → r = overflow f rm neg) ∧
      (¬(flush = true ∧ a < 2 ^ f.emin) → ¬Exceeds f rm neg a →
        FpFinite f r.1 ∧ (r.1.testBit (f.eb + f.fb) = true ↔ neg = true) ∧ Chosen f rm (withSign neg a) r.1 ∧
        ((fpValue f r.1 : ℝ) = withSign neg a → r.2 = 0) ∧
        ((fpValue f r.1 : ℝ) ≠ withSign neg a → a < 2 ^ f.emin → r.2 = 0b00011#5) ∧
        ((fpValue f r.1 : ℝ) ≠ withSign neg a → ¬a < 2 ^ f.emin → r.2 = 0b00001#5)) := by
  obtain ⟨two, _⟩ := inf_pos usual
  have small := inf_lt f
  have below : withSign neg a < 0 ↔ neg = true := by cases neg <;> simp [pos, pos.le]
  have above : 0 ≤ withSign neg a ↔ neg = false := by rw [← not_lt, below]; simp
  have largest : (fpValue f ((2 ^ f.eb - 1) * 2 ^ f.fb - 1) : ℝ) = f.magnitude (f.inf - 1) := fpValue_of_lt (b := f.inf - 1) (by omega)
  have last : (fpValue f ((2 ^ f.eb - 1) * 2 ^ f.fb - 2) : ℝ) = f.magnitude (f.inf - 2) := fpValue_of_lt (b := f.inf - 2) (by omega)
  have sign : (if neg = true then 2 ^ (f.eb + f.fb) else 0) = f.sign neg := rfl
  have size : |withSign neg a| = a := abs_withSign neg pos.le
  have down : withSign neg a < -f.magnitude (f.inf - 1) ↔ neg = true ∧ f.magnitude (f.inf - 1) < a := by
    have := magnitude_nonneg f (f.inf - 1)
    cases neg <;> simp; linarith
  have up : f.magnitude (f.inf - 1) < withSign neg a ↔ neg = false ∧ f.magnitude (f.inf - 1) < a := by
    have := magnitude_nonneg f (f.inf - 1)
    cases neg <;> simp; linarith
  have flags : flagOF ||| flagNX = 0b00101#5 := rfl
  have place : f.sign neg + (2 ^ f.eb - 1) * 2 ^ f.fb = f.sign neg + f.inf := rfl
  have before : f.sign neg + f.inf - 1 = f.sign neg + (f.inf - 1) := by omega
  simp only [Rounded, below, above, largest, last, ← magnitude_inf usual, sign, size, down, up, place, before, overflow, flags]
  refine and_congr Iff.rfl (and_congr ?_ ?_)
  · cases rm <;> cases neg <;> simp [Exceeds]
  · cases rm <;> cases neg <;> simp [Exceeds, Chosen, abs_of_pos pos]

end Sys2Proof.Machine
end

section
/-! Rounding to a format: the neighbour that a mode picks is the rounded result. -/

namespace Sys2Proof.Machine

open Sys2Proof.Claims

variable {f : Fmt} {a : ℝ} {n b : ℕ} {rm : Rm} {neg flush : Bool}

/-- `b` is the neighbour that the mode picks for a value between the magnitudes `n` and `n + 1`. -/
structure Picked (f : Fmt) (rm : Rm) (neg : Bool) (n : ℕ) (a : ℝ) (b : ℕ) : Prop where
  between : Between f n a
  up : RoundsUp f rm neg n a → b = n + 1
  down : ¬RoundsUp f rm neg n a → b = n

theorem Between.not_roundsUp (h : Between f n a) (e : f.magnitude n = a) : ¬RoundsUp f rm neg n a := by
  have above := h.above
  cases rm with
  | rne => rintro (c | ⟨c, _⟩) <;> linarith
  | rtz => exact id
  | rdn => exact fun c => c.2 e
  | rup => exact fun c => c.2 e

namespace Picked

variable (h : Picked f rm neg n a b)
include h

theorem exact_iff : f.magnitude b = a ↔ f.magnitude n = a := by
  by_cases up : RoundsUp f rm neg n a
  · rw [h.up up]
    exact iff_of_false h.between.above.ne' fun e => h.between.not_roundsUp e up
  · rw [h.down up]

theorem chosen_rdn (m : rm = .rdn) (hb : b < 2 ^ (f.eb + f.fb)) : Chosen f .rdn (withSign neg a) (f.sign neg + b) := by
  subst m
  have value := fpValue_sign_add neg hb
  have pos := h.between.pos
  cases neg with
  | false =>
    rw [h.down (by simp [RoundsUp])] at value ⊢
    simp only [Chosen, value, withSign_false, Bool.false_eq_true, if_false]
    refine ⟨h.between.toward.1, fun w fin le => ?_⟩
    have := magnitude_nonneg f n
    obtain ⟨k, _, e | e⟩ := exists_magnitude_of_finite fin
    · rw [e]; exact h.between.toward.2 k (e ▸ le)
    · have := magnitude_nonneg f k; rw [e]; simp; linarith
  | true =>
    obtain ⟨bound, best⟩ := h.between.away (b := b) (fun e => h.down (h.between.not_roundsUp e)) fun ne => h.up ⟨rfl, ne⟩
    simp only [Chosen, value, withSign_true, if_true]
    refine ⟨neg_le_neg bound, fun w fin le => ?_⟩
    obtain ⟨k, _, e | e⟩ := exists_magnitude_of_finite fin
    · have := magnitude_nonneg f k; linarith
    · rw [e]; exact neg_le_neg (best k (by linarith))

theorem chosen_rup (m : rm = .rup) (hb : b < 2 ^ (f.eb + f.fb)) : Chosen f .rup (withSign neg a) (f.sign neg + b) := by
  subst m
  have value := fpValue_sign_add neg hb
  have pos := h.between.pos
  cases neg with
  | true =>
    rw [h.down (by simp [RoundsUp])] at value ⊢
    simp only [Chosen, value, withSign_true, if_true]
    refine ⟨neg_le_neg h.between.toward.1, fun w fin le => ?_⟩
    have := magnitude_nonneg f n
    obtain ⟨k, _, e | e⟩ := exists_magnitude_of_finite fin
    · have := magnitude_nonneg f k; rw [e]; simp; linarith
    · rw [e]; exact neg_le_neg (h.between.toward.2 k (by linarith))
  | false =>
    obtain ⟨bound, best⟩ := h.between.away (b := b) (fun e => h.down (h.between.not_roundsUp e)) fun ne => h.up ⟨rfl, ne⟩
    simp only [Chosen, value, withSign_false, Bool.false_eq_true, if_false]
    refine ⟨bound, fun w fin le => ?_⟩
    obtain ⟨k, _, e | e⟩ := exists_magnitude_of_finite fin
    · rw [e]; exact best k (e ▸ le)
    · have := magnitude_nonneg f k; linarith

theorem chosen_rtz (m : rm = .rtz) (hb : b < 2 ^ (f.eb + f.fb)) : Chosen f .rtz (withSign neg a) (f.sign neg + b) := by
  subst m
  have value : |(fpValue f (f.sign neg + b) : ℝ)| = f.magnitude b := by
    rw [fpValue_sign_add neg hb]; cases neg <;> simp [abs_of_nonneg (magnitude_nonneg f b)]
  rw [h.down (by simp [RoundsUp])] at value ⊢
  simp only [Chosen, value, abs_withSign neg h.between.pos.le]
  refine ⟨h.between.toward.1, fun w fin le => ?_⟩
  obtain ⟨k, _, e⟩ := exists_magnitude_of_finite fin
  have : |(fpValue f w : ℝ)| = f.magnitude k := by
    rcases e with e | e <;> rw [e] <;> simp [abs_of_nonneg (magnitude_nonneg f k)]
  rw [this]
  exact h.between.toward.2 k (this ▸ le)

theorem chosen_rne (m : rm = .rne) (usual : f.Usual) (hb : b < 2 ^ (f.eb + f.fb)) : Chosen f .rne (withSign neg a) (f.sign neg + b) := by
  subst m
  have pos := h.between.pos
  have near := h.between.nearest (b := b) h.up h.down
  have even : (f.sign neg + b) % 2 = b % 2 := by
    obtain ⟨e, m⟩ := usual
    obtain ⟨w, hw⟩ : ∃ w, f.eb + f.fb = w + 1 := ⟨f.eb + f.fb - 1, by omega⟩
    cases neg <;> simp [Fmt.sign, hw, pow_succ, Nat.add_mod]
  have dist : |(fpValue f (f.sign neg + b) : ℝ) - withSign neg a| = |f.magnitude b - a| := by
    rw [fpValue_sign_add neg hb]
    cases neg
    · simp
    · simp only [if_true, withSign_true]; rw [← abs_neg]; congr 1; ring
  have same (p : ℝ) (q : ℝ) : |withSign neg p - withSign neg q| = |p - q| := by
    cases neg
    · simp
    · simp only [withSign_true]; rw [← abs_neg]; congr 1; ring
  intro w fin
  rw [dist, even]
  obtain ⟨k, -, e⟩ := exists_magnitude_of_finite fin
  have value : (fpValue f (f.sign neg + b) : ℝ) = withSign neg (f.magnitude b) := by rw [fpValue_sign_add neg hb]; rfl
  have nonneg := magnitude_nonneg f k
  rcases (show (fpValue f w : ℝ) = withSign neg (f.magnitude k) ∨ (fpValue f w : ℝ) = withSign neg (-f.magnitude k) by
    cases neg <;> simp [e, or_comm]) with e | e
  · rw [e, same]
    refine ⟨(near k).1, fun eq ne => (near k).2 eq fun c => ne ?_⟩
    rw [value, c]
  · have far : |-f.magnitude k - a| = f.magnitude k + a := by rw [abs_of_nonpos (by linarith)]; ring
    obtain ⟨zero, tie⟩ := near 0
    rw [magnitude_zero, zero_sub, abs_neg, abs_of_pos pos] at zero tie
    rw [e, same, far]
    refine ⟨by linarith, fun eq ne => ?_⟩
    by_cases c : b = 0
    · rw [c]
    · exact tie (by linarith) fun z => (magnitude_pos c).ne z

theorem chosen (usual : f.Usual) (hb : b < 2 ^ (f.eb + f.fb)) : Chosen f rm (withSign neg a) (f.sign neg + b) := by
  cases rm with
  | rne => exact h.chosen_rne rfl usual hb
  | rtz => exact h.chosen_rtz rfl hb
  | rdn => exact h.chosen_rdn rfl hb
  | rup => exact h.chosen_rup rfl hb

end Picked

/-- The smallest normal magnitude. -/
theorem magnitude_emin (f : Fmt) : f.magnitude (2 ^ f.fb) = 2 ^ f.emin := by
  have := magnitude_grid (f := f) (k := 0) (r := 2 ^ f.fb) (by rw [pow_succ]; omega) (.inl rfl)
  rw [Nat.zero_mul, Nat.zero_add] at this
  rw [this, Fmt.low, Nat.cast_zero, zero_add, zpow_sub₀ (by norm_num), zpow_natCast]
  push_cast
  field_simp

/-- A tiny value is far from the largest. -/
theorem not_exceeds_of_tiny (usual : f.Usual) (tiny : a < 2 ^ f.emin) : ¬Exceeds f rm neg a := by
  obtain ⟨e, m⟩ := usual
  have mono := magnitude_strictMono f
  have four : 4 ≤ 2 ^ f.eb := by simpa using Nat.pow_le_pow_right (n := 2) (by norm_num) e
  have : 2 * 2 ^ f.fb ≤ f.inf := Nat.mul_le_mul_right _ (by omega)
  have p : 0 < 2 ^ f.fb := by positivity
  have last : a < f.magnitude (f.inf - 1) := by
    refine lt_of_lt_of_le (magnitude_emin f ▸ tiny) (mono.monotone (by omega))
  have inf : f.magnitude (f.inf - 1) < f.magnitude f.inf := mono (by omega)
  cases rm <;> cases neg <;> simp [Exceeds] <;> linarith

/-- The rounding of a value between two neighbours, from the one that the mode picks. -/
theorem Picked.rounded {r : FpResult} (h : Picked f rm neg n a b) (usual : f.Usual)
    (flushed : flush = true → a < 2 ^ f.emin → r = (f.sign neg, 0b00011#5))
    (large : ¬(flush = true ∧ a < 2 ^ f.emin) → f.inf ≤ b → r = overflow f rm neg)
    (fits : ¬(flush = true ∧ a < 2 ^ f.emin) → b < f.inf → r.1 = f.sign neg + b ∧ (f.magnitude n = a → r.2 = 0) ∧
      (f.magnitude n ≠ a → a < 2 ^ f.emin → r.2 = 0b00011#5) ∧ (f.magnitude n ≠ a → ¬a < 2 ^ f.emin → r.2 = 0b00001#5)) :
    Rounded f rm flush (withSign neg a) r := by
  have past := h.between.exceeds_iff usual h.up h.down
  refine (rounded_withSign usual h.between.pos).mpr ⟨flushed, fun e => ?_, fun keeps e => ?_⟩
  · exact large (fun c => not_exceeds_of_tiny usual c.2 e) (past.mp e)
  · have hb : b < f.inf := by rwa [past, not_le] at e
    obtain ⟨bits, exact_, tiny, normal⟩ := fits keeps hb
    have small := hb.trans (inf_lt f)
    have equal : (fpValue f (f.sign neg + b) : ℝ) = withSign neg a ↔ f.magnitude n = a := by
      rw [← h.exact_iff, fpValue_sign_add neg small]; cases neg <;> simp
    rw [bits, ne_eq, equal]
    exact ⟨(fpFinite_iff _ _).mpr ⟨sign_add_lt neg small, by rwa [mag_sign_add neg small]⟩, by rw [testBit_sign_add neg small],
      h.chosen usual small, exact_, tiny, normal⟩

end Sys2Proof.Machine
end

section
/-! The model's rounding of an exact value is the rounding of the claims. -/

namespace Sys2Proof.Machine

open Sys2Proof.Claims

variable {f : Fmt} {a : ℝ} {rm : Rm} {neg flush : Bool}

/-- The last part of `round`: `t` units of the binade `k` are kept, of the rest `rem` is compared with `half`. -/
def cutResult (f : Fmt) (rm : Rm) (flush neg tiny : Bool) (k t rem half : ℕ) (st : Bool) : FpResult :=
  if tiny && flush then (f.sign neg, flagUF ||| flagNX)
  else
    let bits := k * 2 ^ f.fb + if roundsUp rm neg t rem half st then t + 1 else t
    if f.inf ≤ bits then overflow f rm neg
    else (f.sign neg + bits, if rem != 0 || st then flagNX ||| (if tiny then flagUF else 0) else 0)

/-- How a value lies to `t` units of the binade `k` and the next unit. -/
structure Cut (f : Fmt) (k t rem half : ℕ) (st : Bool) (a : ℝ) : Prop where
  pos : 0 < a
  most : t < 2 ^ (f.fb + 1)
  least : k = 0 ∨ 2 ^ f.fb ≤ t
  below : (t : ℝ) * 2 ^ ((k : ℤ) + f.low) ≤ a
  above : a < (t + 1 : ℝ) * 2 ^ ((k : ℤ) + f.low)
  inexact : (rem != 0 || st) = true ↔ (t : ℝ) * 2 ^ ((k : ℤ) + f.low) ≠ a
  past : half < rem ∨ (rem = half ∧ st = true) ↔ (t + 1 / 2 : ℝ) * 2 ^ ((k : ℤ) + f.low) < a
  middle : rem = half ∧ st = false ↔ (t + 1 / 2 : ℝ) * 2 ^ ((k : ℤ) + f.low) = a

namespace Cut

variable {k t rem half : ℕ} {st tiny : Bool} (h : Cut f k t rem half st a)
include h

theorem magnitude : f.magnitude (k * 2 ^ f.fb + t) = t * 2 ^ ((k : ℤ) + f.low) := magnitude_grid h.most.le h.least

theorem magnitude_succ : f.magnitude (k * 2 ^ f.fb + t + 1) = (t + 1 : ℝ) * 2 ^ ((k : ℤ) + f.low) := by
  rw [Machine.magnitude_succ h.most h.least, magnitude_grid h.most.le h.least]; ring

theorem between : Between f (k * 2 ^ f.fb + t) a := ⟨h.pos, h.magnitude ▸ h.below, h.magnitude_succ ▸ h.above⟩

theorem roundsUp_iff (usual : f.Usual) : roundsUp rm neg t rem half st = true ↔ RoundsUp f rm neg (k * 2 ^ f.fb + t) a := by
  have parity : (k * 2 ^ f.fb + t) % 2 = t % 2 := by
    obtain ⟨w, hw⟩ := Nat.exists_eq_add_of_le' usual.2
    rw [hw, pow_succ, ← mul_assoc, Nat.mul_add_mod']
  have mid : (f.magnitude (k * 2 ^ f.fb + t) + f.magnitude (k * 2 ^ f.fb + t + 1)) / 2 = (t + 1 / 2 : ℝ) * 2 ^ ((k : ℤ) + f.low) := by
    rw [h.magnitude, h.magnitude_succ]; ring
  have inexact := h.inexact
  cases rm with
  | rne =>
    simp only [RoundsUp, mid, parity, ← h.past, ← h.middle, roundsUp]
    cases st <;> simp
  | rtz => simp [RoundsUp, roundsUp]
  | rdn => rw [RoundsUp, h.magnitude, ← inexact, roundsUp]; simp
  | rup => rw [RoundsUp, h.magnitude, ← inexact, roundsUp]; simp

theorem picked (usual : f.Usual) :
    Picked f rm neg (k * 2 ^ f.fb + t) a (k * 2 ^ f.fb + if roundsUp rm neg t rem half st then t + 1 else t) := by
  refine ⟨h.between, fun up => ?_, fun down => ?_⟩
  · rw [if_pos ((h.roundsUp_iff usual).mpr up), Nat.add_assoc]
  · rw [if_neg (mt (h.roundsUp_iff usual).mp down)]

theorem rounded (usual : f.Usual) (small : tiny = true ↔ a < 2 ^ f.emin) :
    Rounded f rm flush (withSign neg a) (cutResult f rm flush neg tiny k t rem half st) := by
  refine (h.picked usual).rounded usual (fun on less => ?_) (fun keeps large => ?_) fun keeps fits => ?_
  · rw [cutResult, small.mpr less, on]; rfl
  · rw [← small, and_comm, ← Bool.and_eq_true] at keeps
    rw [cutResult, if_neg keeps, if_pos large]
  · rw [← small, and_comm, ← Bool.and_eq_true] at keeps
    rw [cutResult, if_neg keeps, if_neg (not_le.mpr fits), h.magnitude, ← small]
    refine ⟨rfl, fun e => ?_, fun e => ?_, fun e => ?_⟩
    · exact if_neg (mt h.inexact.mp (not_not_intro e))
    · intro t; simp only [if_pos (h.inexact.mpr e), if_pos t]; rfl
    · intro t; simp only [if_pos (h.inexact.mpr e), if_neg t]; rfl

end Cut

/-- A value that is far below the smallest magnitude. -/
theorem Cut.deep (pos : 0 < a) (small : a < 2 ^ (f.low - 3)) : Cut f 0 0 1 4 true a := by
  have unit : (2 : ℝ) ^ (f.low - 3) = 2 ^ f.low / 8 := by rw [zpow_sub₀ (by norm_num)]; norm_num
  have : (0 : ℝ) < 2 ^ f.low := by positivity
  rw [unit] at small
  refine ⟨pos, by positivity, .inl rfl, ?_, ?_, ?_, ?_, ?_⟩ <;> simp
  all_goals linarith

theorem log2_le_real {m : ℕ} (h : m ≠ 0) : (2 : ℝ) ^ (m.log2 : ℤ) ≤ m ∧ (m : ℝ) < 2 ^ ((m.log2 : ℤ) + 1) := by
  have low := Nat.log2_self_le h
  have high := Nat.lt_log2_self (n := m)
  rw [← Nat.cast_succ, zpow_natCast, zpow_natCast]
  exact ⟨by exact_mod_cast low, by exact_mod_cast high⟩

/-- Binary exponents of a value. -/
theorem value_bounds {m : ℕ} (h : m ≠ 0) (x : ℤ) : (2 : ℝ) ^ ((m.log2 : ℤ) + x) ≤ m * 2 ^ x ∧ (m : ℝ) * 2 ^ x < 2 ^ ((m.log2 : ℤ) + x + 1) := by
  obtain ⟨low, high⟩ := log2_le_real h
  have p : (0 : ℝ) < 2 ^ x := by positivity
  rw [zpow_add₀ (by norm_num), show (m.log2 : ℤ) + x + 1 = (m.log2 + 1) + x by ring, zpow_add₀ (by norm_num) (_ + 1)]
  exact ⟨by gcongr, by gcongr⟩

theorem lt_two_zpow_iff {m : ℕ} (h : m ≠ 0) (x c : ℤ) : (m : ℝ) * 2 ^ x < 2 ^ c ↔ (m.log2 : ℤ) + x < c := by
  obtain ⟨low, high⟩ := value_bounds h x
  refine ⟨fun lt => ?_, fun lt => high.trans_le (zpow_le_zpow_right₀ (by norm_num) (by omega))⟩
  exact (zpow_lt_zpow_iff_right₀ (by norm_num : (1 : ℝ) < 2)).mp (low.trans_lt lt)

/-- The binade that a value of leading exponent `e` is cut in. -/
def Fmt.binade (f : Fmt) (e : ℤ) : ℕ := (max (e - f.fb) f.low - f.low).toNat

theorem binade_add_low (f : Fmt) (e : ℤ) : (f.binade e : ℤ) + f.low = max (e - f.fb) f.low := by
  rw [Fmt.binade]; omega

/-- A value that the format's last place divides. -/
theorem Cut.exact {m c : ℕ} {x : ℤ} (h : m ≠ 0) (unit : x = max ((m.log2 : ℤ) + x - f.fb) f.low + c) :
    Cut f (f.binade (m.log2 + x)) (m * 2 ^ c) 0 1 false (m * 2 ^ x) := by
  have place := binade_add_low f (m.log2 + x)
  have low := Nat.log2_self_le h
  have high := Nat.lt_log2_self (n := m)
  have value : ((m * 2 ^ c : ℕ) : ℝ) * 2 ^ ((f.binade (m.log2 + x) : ℤ) + f.low) = m * 2 ^ x := by
    rw [place, Nat.cast_mul, Nat.cast_pow, mul_assoc, Nat.cast_ofNat, ← zpow_natCast, ← zpow_add₀ (by norm_num)]
    congr 2; omega
  have p : (0 : ℝ) < 2 ^ ((f.binade (m.log2 + x) : ℤ) + f.low) := by positivity
  have m0 : (0 : ℝ) < m := by exact_mod_cast Nat.pos_of_ne_zero h
  refine ⟨by positivity, ?_, ?_, value.le, ?_, ?_, ?_, ?_⟩
  · calc m * 2 ^ c < 2 ^ (m.log2 + 1) * 2 ^ c := by gcongr
      _ ≤ 2 ^ (f.fb + 1) := by rw [← pow_add]; exact Nat.pow_le_pow_right (by norm_num) (by omega)
  · by_cases zero : f.binade (m.log2 + x) = 0
    · exact .inl zero
    · refine .inr ?_
      calc 2 ^ f.fb = 2 ^ m.log2 * 2 ^ c := by rw [← pow_add]; congr 1; omega
        _ ≤ m * 2 ^ c := by gcongr
  · rw [← value]; nlinarith
  · exact iff_of_false (by decide) (not_not_intro value)
  · simp only [← value]; simp; nlinarith
  · simp only [← value]; simp; nlinarith

/-- A value of which `d` places are cut off. -/
theorem Cut.split {m d : ℕ} {x : ℤ} (h : m ≠ 0) (some : d ≠ 0) (unit : x + d = max ((m.log2 : ℤ) + x - f.fb) f.low) :
    Cut f (f.binade (m.log2 + x)) (m / 2 ^ d) (m % 2 ^ d) (2 ^ (d - 1)) false (m * 2 ^ x) := by
  have place := binade_add_low f (m.log2 + x)
  have low := Nat.log2_self_le h
  have high := Nat.lt_log2_self (n := m)
  have m0 : (0 : ℝ) < m := by exact_mod_cast Nat.pos_of_ne_zero h
  have p : (0 : ℝ) < 2 ^ x := by positivity
  obtain ⟨e, rfl⟩ := Nat.exists_eq_succ_of_ne_zero some
  have big : (2 : ℝ) ^ ((f.binade (m.log2 + x) : ℤ) + f.low) = 2 * 2 ^ e * 2 ^ x := by
    rw [place, ← unit, zpow_add₀ (by norm_num), zpow_natCast, pow_succ]; ring
  have parts : (m : ℝ) = (m / 2 ^ (e + 1) : ℕ) * (2 * 2 ^ e) + (m % 2 ^ (e + 1) : ℕ) := by
    have := Nat.div_add_mod' m (2 ^ (e + 1))
    rw [pow_succ'] at this ⊢
    exact_mod_cast this.symm
  have rest : (m % 2 ^ (e + 1) : ℕ) < (2 * 2 ^ e : ℝ) := by
    have := Nat.mod_lt m (y := 2 ^ (e + 1)) (by positivity)
    rw [pow_succ'] at this ⊢
    exact_mod_cast this
  have nonneg : (0 : ℝ) ≤ (m % 2 ^ (e + 1) : ℕ) := by positivity
  have half : ((2 ^ e : ℕ) : ℝ) = 2 ^ e := by push_cast; rfl
  have value : (m : ℝ) * 2 ^ x = (m / 2 ^ (e + 1) : ℕ) * (2 * 2 ^ e * 2 ^ x) + (m % 2 ^ (e + 1) : ℕ) * 2 ^ x := by
    conv_lhs => rw [parts]
    ring
  have zero : m % 2 ^ (e + 1) = 0 ↔ ((m % 2 ^ (e + 1) : ℕ) : ℝ) = 0 := by norm_cast
  have compare : 2 ^ e < m % 2 ^ (e + 1) ↔ (2 ^ e : ℝ) < (m % 2 ^ (e + 1) : ℕ) := by norm_cast
  have equal : m % 2 ^ (e + 1) = 2 ^ e ↔ ((m % 2 ^ (e + 1) : ℕ) : ℝ) = 2 ^ e := by norm_cast
  have most : m / 2 ^ (e + 1) < 2 ^ (f.fb + 1) := by
    refine Nat.div_lt_of_lt_mul (high.trans_le ?_)
    rw [← pow_add]; exact Nat.pow_le_pow_right (by norm_num) (by push_cast at unit; omega)
  have least : f.binade (m.log2 + x) = 0 ∨ 2 ^ f.fb ≤ m / 2 ^ (e + 1) := by
    by_cases zero : f.binade (m.log2 + x) = 0
    · exact .inl zero
    · refine .inr ((Nat.le_div_iff_mul_le (by positivity)).mpr ?_)
      rw [← pow_add]; refine le_trans (Nat.pow_le_pow_right (by norm_num) ?_) low
      push_cast at unit; omega
  rw [show e.succ - 1 = e by omega]
  refine ⟨by positivity, most, least, ?_, ?_, ?_, ?_, ?_⟩ <;> rw [big, value]
  · linarith [mul_nonneg nonneg p.le]
  · linarith [mul_lt_mul_of_pos_right rest p]
  · simp [p.ne']
  · rw [compare, ← mul_lt_mul_iff_left₀ p]
    simp only [Bool.false_eq_true, and_false, or_false]
    constructor <;> intro <;> linarith
  · rw [equal, ← mul_left_inj' p.ne']
    simp only [and_true]
    constructor <;> intro <;> linarith

theorem round_eq_cutResult {m : ℕ} {x : ℤ} (h : m ≠ 0) (shallow : ¬((m.log2 : ℤ) + x < f.low - 3)) :
    round f rm flush neg m x false =
      let shift := max ((m.log2 : ℤ) + x - f.fb) f.low - x
      cutResult f rm flush neg (decide ((m.log2 : ℤ) + x < f.emin)) (f.binade (m.log2 + x))
        (if shift ≤ 0 then m * 2 ^ (-shift).toNat else m / 2 ^ shift.toNat) (if shift ≤ 0 then 0 else m % 2 ^ shift.toNat)
        (if shift ≤ 0 then 1 else 2 ^ (shift.toNat - 1)) false := by
  have : decide ((m.log2 : ℤ) + x < f.emin - f.fb - 3) = false := decide_eq_false shallow
  have some : (m == 0) = false := beq_eq_false_iff_ne.mpr h
  simp [round, this, some, h, cutResult, Fmt.binade, Fmt.low]

theorem round_eq_deep {m : ℕ} {x : ℤ} (h : m ≠ 0) (deep : (m.log2 : ℤ) + x < f.low - 3) :
    round f rm flush neg m x false = cutResult f rm flush neg true 0 0 1 4 true := by
  have : decide ((m.log2 : ℤ) + x < f.emin - f.fb - 3) = true := decide_eq_true deep
  have place : max (f.emin - f.fb - 3 - f.fb) (f.emin - f.fb) = f.emin - f.fb := by omega
  have tiny : f.emin - f.fb - 3 < f.emin := by omega
  have log : Nat.log2 1 = 0 := by decide
  simp [round, this, h, cutResult, place, log, tiny, show f.emin - f.fb - (f.emin - f.fb - 3) = 3 by ring]

/-- R105 to R107: the exact value ± m × 2^x is rounded once. -/
theorem rounded_round (usual : f.Usual) {m : ℕ} (h : m ≠ 0) (x : ℤ) :
    Rounded f rm flush (withSign neg (m * 2 ^ x)) (round f rm flush neg m x false) := by
  have m0 : (0 : ℝ) < m := by exact_mod_cast Nat.pos_of_ne_zero h
  by_cases deep : (m.log2 : ℤ) + x < f.low - 3
  · rw [round_eq_deep h deep]
    refine (Cut.deep (by positivity) ((lt_two_zpow_iff h _ _).mpr deep)).rounded usual (iff_of_true rfl ((lt_two_zpow_iff h _ _).mpr ?_))
    rw [Fmt.low] at deep; omega
  · rw [round_eq_cutResult h deep]
    have tiny : decide ((m.log2 : ℤ) + x < f.emin) = true ↔ (m : ℝ) * 2 ^ x < 2 ^ f.emin := by rw [lt_two_zpow_iff h, decide_eq_true_eq]
    by_cases fine : max ((m.log2 : ℤ) + x - f.fb) f.low - x ≤ 0
    · simp only [fine, if_true]
      exact (Cut.exact h (by omega)).rounded usual tiny
    · simp only [fine, if_false]
      exact (Cut.split h (by omega) (by omega)).rounded usual tiny

end Sys2Proof.Machine
end

section
/-! Values of patterns (R104), sums and products rounded once (R105), and that rounding to nearest has one result. -/

namespace Sys2Proof.Machine

open Sys2Proof.Claims

variable {f : Fmt} {rm : Rm} {flush : Bool}

/-- The number that a finite value is. -/
def Fp.val : Fp → ℚ
  | .fin n m e => (if n then -1 else 1) * (m * 2 ^ e)
  | _ => 0

@[simp] theorem val_fin (n : Bool) (m : ℕ) (e : ℤ) : (Fp.fin n m e).val = (if n then -1 else 1) * (m * 2 ^ e) := rfl

theorem val_eq_zero {n : Bool} {m : ℕ} {e : ℤ} : (Fp.fin n m e).val = 0 ↔ m = 0 := by
  cases n <;> simp [zpow_ne_zero]

theorem abs_val (n : Bool) (m : ℕ) (e : ℤ) : |(Fp.fin n m e).val| = m * 2 ^ e := by
  have : (0 : ℚ) ≤ m * 2 ^ e := by positivity
  cases n <;> simp [abs_of_nonneg this]

theorem val_neg_iff {n : Bool} {m : ℕ} {e : ℤ} : (Fp.fin n m e).val < 0 ↔ n = true ∧ m ≠ 0 := by
  have p : (0 : ℚ) < 2 ^ e := by positivity
  cases n
  · have : (0 : ℚ) ≤ m * 2 ^ e := by positivity
    simpa using this
  · simp [Nat.pos_iff_ne_zero, p]

/-- Any exact value but zero is rounded once. -/
theorem rounded_fin (usual : f.Usual) {n : Bool} {m : ℕ} (h : m ≠ 0) (e : ℤ) :
    Rounded f rm flush ((Fp.fin n m e).val : ℝ) (round f rm flush n m e false) := by
  have : ((Fp.fin n m e).val : ℝ) = withSign n (m * 2 ^ e) := by cases n <;> simp
  rw [this]
  exact rounded_round usual h e

theorem round_zero (n : Bool) (e : ℤ) : round f rm flush n 0 e false = (f.sign n, 0) := by simp [round]

theorem roundInt_zero (e : ℤ) (z : Bool) : roundInt f rm flush 0 e z = (f.sign z, 0) := by simp [roundInt]

theorem rounded_roundInt (usual : f.Usual) {v : ℤ} (h : v ≠ 0) (e : ℤ) (z : Bool) :
    Rounded f rm flush (((v : ℚ) * 2 ^ e : ℚ) : ℝ) (roundInt f rm flush v e z) := by
  have size : (v.natAbs : ℚ) = |(v : ℚ)| := by rw [← Int.cast_natCast, Int.natCast_natAbs, Int.cast_abs]
  have value : ((v : ℚ) * 2 ^ e : ℚ) = (Fp.fin (decide (v < 0)) v.natAbs e).val := by
    rw [val_fin, size]
    rcases lt_or_ge v 0 with neg | pos
    · rw [if_pos (decide_eq_true neg), abs_of_neg (by exact_mod_cast neg)]; ring
    · rw [if_neg (by simpa using pos), abs_of_nonneg (by exact_mod_cast pos)]; ring
  rw [roundInt, if_neg h, value]
  exact rounded_fin usual (Int.natAbs_ne_zero.mpr h) e

theorem cast_sgn (n : Bool) (m : ℕ) : ((sgn n m : ℤ) : ℚ) = (if n then -1 else 1) * m := by cases n <;> simp [sgn]

/-- The integer that the sum of two values is in units of the lower of their last places. -/
theorem sum_val (na : Bool) (ma : ℕ) (ea : ℤ) (nb : Bool) (mb : ℕ) (eb : ℤ) :
    ((sgn na ma * 2 ^ (ea - min ea eb).toNat + sgn nb mb * 2 ^ (eb - min ea eb).toNat : ℤ) : ℚ) * 2 ^ min ea eb =
      (Fp.fin na ma ea).val + (Fp.fin nb mb eb).val := by
  have shift {e : ℤ} (h : min ea eb ≤ e) : (2 : ℚ) ^ (e - min ea eb).toNat * 2 ^ min ea eb = 2 ^ e := by
    rw [← zpow_natCast, ← zpow_add₀ (by norm_num)]; congr 1; omega
  push_cast
  rw [add_mul, cast_sgn, cast_sgn, mul_assoc, mul_assoc _ _ ((2 : ℚ) ^ min ea eb), shift (min_le_left _ _), shift (min_le_right _ _), val_fin, val_fin]
  ring

theorem rounded_addFin (usual : f.Usual) {na : Bool} {ma : ℕ} {ea : ℤ} {nb : Bool} {mb : ℕ} {eb : ℤ}
    (h : (Fp.fin na ma ea).val + (Fp.fin nb mb eb).val ≠ 0) :
    Rounded f rm flush (((Fp.fin na ma ea).val + (Fp.fin nb mb eb).val : ℚ) : ℝ) (addFin f rm flush na ma ea nb mb eb) := by
  rw [← sum_val] at h ⊢
  exact rounded_roundInt usual (fun z => h (by rw [z]; simp)) _ _

theorem addFin_zero {na : Bool} {ma : ℕ} {ea : ℤ} {nb : Bool} {mb : ℕ} {eb : ℤ}
    (h : (Fp.fin na ma ea).val + (Fp.fin nb mb eb).val = 0) :
    addFin f rm flush na ma ea nb mb eb = (f.sign (if ma = 0 ∧ mb = 0 ∧ na = nb then na else rm == .rdn), 0) := by
  rw [← sum_val] at h
  have : sgn na ma * 2 ^ (ea - min ea eb).toNat + sgn nb mb * 2 ^ (eb - min ea eb).toNat = 0 := by
    have := (mul_eq_zero.mp h).resolve_right (by positivity)
    exact_mod_cast this
  rw [addFin]
  simp only [this, roundInt_zero]
  simp [and_assoc]

/-- The cases of a pattern by its exponent and fraction (R104). -/
theorem unpack_eq (f : Fmt) (x : ℕ) : unpack f x =
    if x / 2 ^ f.fb % 2 ^ f.eb = 2 ^ f.eb - 1 then
      if x % 2 ^ f.fb = 0 then .inf (x.testBit (f.eb + f.fb)) else .nan (!x.testBit (f.fb - 1))
    else if x / 2 ^ f.fb % 2 ^ f.eb = 0 then .fin (x.testBit (f.eb + f.fb)) (x % 2 ^ f.fb) (f.emin - f.fb)
    else .fin (x.testBit (f.eb + f.fb)) (x % 2 ^ f.fb + 2 ^ f.fb) ((x / 2 ^ f.fb % 2 ^ f.eb : ℕ) + f.emin - 1 - f.fb) := by
  simp only [unpack, field, Nat.shiftRight_eq_div_pow, pow_zero, Nat.div_one, Fmt.neg, bit]

/-- A finite pattern is a value. -/
theorem unpack_of_finite {x : ℕ} (h : FpFinite f x) :
    ∃ m e, unpack f x = .fin (x.testBit (f.eb + f.fb)) m e ∧ (Fp.fin (x.testBit (f.eb + f.fb)) m e).val = fpValue f x := by
  obtain ⟨_, top⟩ := h
  have neg : (x / 2 ^ (f.eb + f.fb) % 2 = 1) ↔ x.testBit (f.eb + f.fb) = true := by
    rw [Nat.testBit_eq_decide_div_mod_eq, decide_eq_true_eq]
  simp only [unpack_eq, if_neg top, fpValue, neg]
  by_cases zero : x / 2 ^ f.fb % 2 ^ f.eb = 0
  · refine ⟨_, _, if_pos zero, ?_⟩
    rw [if_pos zero, val_fin, zpow_sub₀ (by norm_num), zpow_natCast]
    split <;> ring
  · refine ⟨_, _, if_neg zero, ?_⟩
    rw [if_neg zero, val_fin, show ((x / 2 ^ f.fb % 2 ^ f.eb : ℕ) : ℤ) + f.emin - 1 - f.fb = (x / 2 ^ f.fb % 2 ^ f.eb : ℕ) - f.bias - f.fb by
      rw [Fmt.emin]; ring, zpow_sub₀ (by norm_num) _ (f.fb : ℤ), zpow_natCast]
    push_cast
    split <;> field_simp <;> ring

theorem unpack_inf (f : Fmt) {x : ℕ} (h : f.mag x = f.inf) : unpack f x = .inf (x.testBit (f.eb + f.fb)) := by
  have e : x / 2 ^ f.fb % 2 ^ f.eb = 2 ^ f.eb - 1 := by rw [← mag_div, h, Fmt.inf, Nat.mul_div_cancel _ (by positivity)]
  have m : x % 2 ^ f.fb = 0 := by rw [← mag_mod, h, Fmt.inf, Nat.mul_mod_left]
  rw [unpack_eq, if_pos e, if_pos m]

/-- Whether a pattern is a value. -/
theorem unpack_eq_fin_iff {x : ℕ} (h : x < 2 ^ f.width) : (∃ n m e, unpack f x = .fin n m e) ↔ FpFinite f x := by
  refine ⟨fun ⟨n, m, e, eq⟩ => ⟨h, fun top => ?_⟩, fun fin => ?_⟩
  · rw [unpack_eq, if_pos top] at eq
    split at eq <;> cases eq
  · obtain ⟨m, e, eq, _⟩ := unpack_of_finite fin
    exact ⟨_, m, e, eq⟩

/-- Magnitudes order the finite patterns without a sign. -/
theorem fpValue_lt_iff {x y : ℕ} (hx : x < 2 ^ (f.eb + f.fb)) (hy : y < 2 ^ (f.eb + f.fb)) : fpValue f x < fpValue f y ↔ x < y := by
  rw [← Rat.cast_lt (K := ℝ), fpValue_of_lt hx, fpValue_of_lt hy, (magnitude_strictMono f).lt_iff_lt]

theorem fpValue_le_iff {x y : ℕ} (hx : x < 2 ^ (f.eb + f.fb)) (hy : y < 2 ^ (f.eb + f.fb)) : fpValue f x ≤ fpValue f y ↔ x ≤ y := by
  rw [← not_lt, fpValue_lt_iff hy hx, not_lt]

/-- A finite pattern is its sign and its magnitude. -/
theorem eq_sign_add_mag {x : ℕ} (h : x < 2 ^ f.width) : x = f.sign (x.testBit (f.eb + f.fb)) + f.mag x := by
  rw [Fmt.width, Nat.add_assoc, Nat.add_comm 1, pow_succ] at h
  rw [Fmt.mag, Fmt.sign]
  have := Nat.div_add_mod x (2 ^ (f.eb + f.fb))
  have small : x / 2 ^ (f.eb + f.fb) < 2 := Nat.div_lt_of_lt_mul h
  rw [Nat.testBit_eq_decide_div_mod_eq, Nat.mod_eq_of_lt small]
  interval_cases hq : x / 2 ^ (f.eb + f.fb) <;> simp <;> omega

theorem mag_lt (f : Fmt) (x : ℕ) : f.mag x < 2 ^ (f.eb + f.fb) := Nat.mod_lt _ (by positivity)

/-- Two even magnitudes cannot both be nearest: the odd one between them is nearer. -/
theorem nearest_unique {a : ℝ} {b c : ℕ} (hc : c < f.inf) (lt : b < c)
    (eq : |f.magnitude b - a| = |f.magnitude c - a|) (best : ∀ k < f.inf, |f.magnitude c - a| ≤ |f.magnitude k - a|)
    (even : b % 2 = 0 ∧ c % 2 = 0) : False := by
  have mono := magnitude_strictMono f
  have one : f.magnitude b < f.magnitude (b + 1) := mono (by omega)
  have two : f.magnitude (b + 1) < f.magnitude c := mono (by omega)
  have near := best (b + 1) (by omega)
  have low : f.magnitude b ≤ a := by
    by_contra gt
    rw [abs_of_nonneg (by linarith), abs_of_nonneg (by linarith)] at eq
    linarith
  have high : a ≤ f.magnitude c := by
    by_contra gt
    rw [abs_of_nonpos (by linarith), abs_of_nonpos (by linarith)] at eq
    linarith
  rw [abs_of_nonpos (by linarith), abs_of_nonneg (by linarith)] at eq
  rw [abs_of_nonneg (a := f.magnitude c - a) (by linarith)] at near
  rcases abs_cases (f.magnitude (b + 1) - a) with ⟨e, _⟩ | ⟨e, _⟩ <;> linarith

/-- Rounding to nearest gives one pattern. -/
theorem rounded_rne_unique (usual : f.Usual) {q : ℝ} (h : q ≠ 0) {r t : FpResult} (hr : Rounded f .rne false q r) (ht : Rounded f .rne false q t) :
    r.1 = t.1 := by
  obtain ⟨neg, a, rfl, pos⟩ : ∃ neg a, q = withSign neg a ∧ 0 < a := by
    rcases lt_or_gt_of_ne h with lt | gt
    · exact ⟨true, -q, by simp, by linarith⟩
    · exact ⟨false, q, rfl, gt⟩
  obtain ⟨-, overR, fitR⟩ := (rounded_withSign usual pos).mp hr
  obtain ⟨-, overT, fitT⟩ := (rounded_withSign usual pos).mp ht
  by_cases past : Exceeds f .rne neg a
  · rw [overR past, overT past]
  · obtain ⟨finR, signR, bestR, -⟩ := fitR (by simp) past
    obtain ⟨finT, signT, bestT, -⟩ := fitT (by simp) past
    have value {x : ℕ} (s : x.testBit (f.eb + f.fb) = true ↔ neg = true) : (fpValue f x : ℝ) = withSign neg (f.magnitude (f.mag x)) := by
      rw [fpValue_eq, withSign]; simp only [s]
    have dist (p : ℝ) : |withSign neg p - withSign neg a| = |p - a| := by
      cases neg
      · simp
      · simp only [withSign_true]; rw [← abs_neg]; congr 1; ring
    have parity (x : ℕ) : f.mag x % 2 = x % 2 := Nat.mod_mod_of_dvd _ (dvd_pow_self 2 (by have := usual.1; omega))
    have better {x y : ℕ} (sx : x.testBit (f.eb + f.fb) = true ↔ neg = true) (best : Chosen f .rne (withSign neg a) x) :
        ∀ k < f.inf, |f.magnitude (f.mag x) - a| ≤ |f.magnitude k - a| := fun k hk => by
      have small := hk.trans (inf_lt f)
      have := (best (f.sign neg + k) ((fpFinite_iff _ _).mpr ⟨sign_add_lt neg small, by rwa [mag_sign_add neg small]⟩)).1
      rwa [value sx, fpValue_sign_add neg small, dist, show (if neg = true then -f.magnitude k else f.magnitude k) = withSign neg (f.magnitude k) from rfl, dist] at this
    have nearR := better (y := 0) signR bestR
    have nearT := better (y := 0) signT bestT
    have magR := ((fpFinite_iff _ _).mp finR).2
    have magT := ((fpFinite_iff _ _).mp finT).2
    have same := le_antisymm (nearR _ magT) (nearT _ magR)
    have mags : f.mag r.1 = f.mag t.1 := by
      by_contra ne
      have differ : f.magnitude (f.mag r.1) ≠ f.magnitude (f.mag t.1) := fun e => ne ((magnitude_strictMono f).injective e)
      have apart : withSign neg (f.magnitude (f.mag r.1)) ≠ withSign neg (f.magnitude (f.mag t.1)) := by cases neg <;> simpa using differ
      have evenR := (bestR t.1 finT).2 (by rw [value signR, value signT, dist, dist, same])
        (by rw [value signR, value signT]; exact apart.symm)
      have evenT := (bestT r.1 finR).2 (by rw [value signR, value signT, dist, dist, same])
        (by rw [value signR, value signT]; exact apart)
      rcases Nat.lt_or_gt_of_ne ne with lt | gt
      · exact nearest_unique magT lt same nearT ⟨by rw [parity, evenR], by rw [parity, evenT]⟩
      · exact nearest_unique magR gt same.symm nearR ⟨by rw [parity, evenT], by rw [parity, evenR]⟩
    rw [eq_sign_add_mag finR.1, eq_sign_add_mag finT.1, mags, Bool.eq_iff_iff.mpr (signR.trans signT.symm)]

end Sys2Proof.Machine
end

section
/-! Selected-block elements: codes, scales and headers of the model and of the claims (R118 to R123, R128). -/

namespace Sys2Proof.Machine

open Sys2Proof.Claims

variable {f : Fmt} {rm : Rm}

theorem popcount_eq (x n : ℕ) : popcount x n = (List.range n).countP x.testBit := by
  induction n generalizing x with
  | zero => rfl
  | succ n ih =>
    rw [popcount, ih, List.range_succ_eq_map, List.countP_cons, List.countP_map, Nat.testBit_zero]
    have : x.testBit ∘ Nat.succ = (x / 2).testBit := by funext k; simp [Nat.testBit_succ]
    rw [this]
    rcases Nat.mod_two_eq_zero_or_one x with h | h <;> simp [h, Nat.add_comm]

theorem field_eq (x lo n : ℕ) : field x lo n = x / 2 ^ lo % 2 ^ n := by rw [field, Nat.shiftRight_eq_div_pow]

/-! ### Elements -/

/-- A selector of a format that has a table. -/
def SelectorOk (sb8 : Bool) (sel : ℕ) : Prop := sel < if sb8 then 2 else 3

theorem codeBits_eq (sb8 : Bool) : codeBits sb8 - 1 = if sb8 then 7 else 3 := by cases sb8 <;> rfl

/-- The magnitude of a code: its numerator over the denominator of its table (R122). -/
theorem sbDecode_mag {sb8 : Bool} {sel : ℕ} (ok : SelectorOk sb8 sel) {mi : ℕ} (h : mi < 2 ^ (codeBits sb8 - 1)) :
    sbDecode sb8 sel mi = (numer sb8 sel mi : ℚ) / 2 ^ denom sb8 sel := by
  cases sb8 with
  | true =>
    have h : mi < 2 ^ 7 := h
    have sign : mi.testBit 7 = false := Nat.testBit_lt_two_pow h
    have whole : mi / 8 % 16 = mi / 8 := Nat.mod_eq_of_lt (by omega)
    have ok : sel < 2 := ok
    interval_cases sel
    · simp only [sbDecode, numer, denom, sign, Nat.mod_eq_of_lt h, if_true]
      norm_num
      ring
    · simp only [sbDecode, numer, denom, sign, field_eq, Nat.mod_eq_of_lt h, if_true, show (2 : ℕ) ^ 3 = 8 by rfl, show (2 : ℕ) ^ 4 = 16 by rfl, whole]
      by_cases zero : mi / 8 = 0 <;> simp [zero]
  | false =>
    have h : mi < 2 ^ 3 := h
    have sign : mi.testBit 3 = false := Nat.testBit_lt_two_pow h
    have ok : sel < 3 := ok
    interval_cases sel
    · simp only [sbDecode, numer, denom, Bool.false_eq_true, if_false, sign, Nat.mod_eq_of_lt h]
      norm_num
      ring
    · simp only [sbDecode, numer, denom, Bool.false_eq_true, if_false, sign, Nat.mod_eq_of_lt h]
      by_cases zero : mi = 0 <;> simp [zero]
      norm_num
    · simp only [sbDecode, numer, denom, Bool.false_eq_true, if_false, sign, Nat.mod_eq_of_lt h]
      have : mi < 8 := h
      interval_cases mi <;> norm_num [qntTable]

theorem sbDecode_code (sb8 : Bool) (sel code : ℕ) : sbDecode sb8 sel code =
    if code.testBit (codeBits sb8 - 1) then -sbDecode sb8 sel (code % 2 ^ (codeBits sb8 - 1)) else sbDecode sb8 sel (code % 2 ^ (codeBits sb8 - 1)) := by
  have sign (k : ℕ) : (code % 2 ^ k).testBit k = false := Nat.testBit_lt_two_pow (Nat.mod_lt _ (by positivity))
  rw [codeBits_eq]
  cases sb8 <;> simp only [sbDecode, sign, Nat.mod_mod, if_true, Bool.false_eq_true, if_false]

/-- The value of a code without its block scale (R123). -/
theorem sbDecode_eq {sb8 : Bool} {sel : ℕ} (ok : SelectorOk sb8 sel) (code : ℕ) :
    sbDecode sb8 sel code = (Fp.fin (decodeSb sb8 sel code).1 (decodeSb sb8 sel code).2 (-(denom sb8 sel : ℤ))).val := by
  have small : code % 2 ^ (codeBits sb8 - 1) < 2 ^ (codeBits sb8 - 1) := Nat.mod_lt _ (by positivity)
  rw [sbDecode_code, sbDecode_mag ok small, val_fin, zpow_neg, zpow_natCast, decodeSb]
  simp only [bit]
  by_cases zero : numer sb8 sel (code % 2 ^ (codeBits sb8 - 1)) = 0
  · simp [zero]
  · by_cases neg : code.testBit (codeBits sb8 - 1) <;> simp [zero, neg, div_eq_mul_inv]

theorem decodeSb_neg {sb8 : Bool} {sel code : ℕ} (h : (decodeSb sb8 sel code).1 = true) : (decodeSb sb8 sel code).2 ≠ 0 := by
  rw [decodeSb, Bool.and_eq_true, bne_iff_ne] at h
  exact h.2

theorem sbDecode_neg_iff {sb8 : Bool} {sel : ℕ} (ok : SelectorOk sb8 sel) (code : ℕ) :
    decide (sbDecode sb8 sel code < 0) = (decodeSb sb8 sel code).1 := by
  rw [Bool.eq_iff_iff, decide_eq_true_eq, sbDecode_eq ok, val_neg_iff]
  exact ⟨And.left, fun h => ⟨h, decodeSb_neg h⟩⟩

/-! ### Scales -/

theorem mulVal_fin (f : Fmt) (rm : Rm) (flush : Bool) (na nb : Bool) (ma mb : ℕ) (ea eb : ℤ) :
    mulVal f rm flush (.fin na ma ea) (.fin nb mb eb) = round f rm flush (na != nb) (ma * mb) (ea + eb) false := rfl

theorem val_mul (na nb : Bool) (ma mb : ℕ) (ea eb : ℤ) : (Fp.fin (na != nb) (ma * mb) (ea + eb)).val = (Fp.fin na ma ea).val * (Fp.fin nb mb eb).val := by
  simp only [val_fin]
  rw [zpow_add₀ (by norm_num)]
  cases na <;> cases nb <;> simp <;> ring

/-- The block scale of the model is that of R121. -/
theorem blockScale_spec {s : ℕ} (fin : FpFinite fp32 s) (code : ℕ) : BlockScale s code (blockScale s code) := by
  obtain ⟨m, e, eq, value⟩ := unpack_of_finite fin
  have scale : (Fp.fin false (32 - code % 16) (-(field code 4 4 : ℤ) - 4)).val = (32 - (code % 16 : ℕ)) * 2 ^ (-(code / 16 % 16 : ℕ) - 4 : ℤ) := by
    have : code % 16 ≤ 32 := by omega
    rw [val_fin, field_eq, Nat.cast_sub this]
    simp
  have product : blockScale s code = (round fp32 .rne false (s.testBit 31 != false) (m * (32 - code % 16)) (e + (-(field code 4 4 : ℤ) - 4)) false).1 := by
    rw [blockScale, eq, mulVal_fin]
    rfl
  unfold BlockScale
  dsimp only
  rw [← value, ← scale, ← val_mul, product]
  refine ⟨fun zero => ?_, fun some => ⟨_, rounded_fin usual_fp32 (fun z => some (val_eq_zero.mpr z)) _⟩⟩
  rw [val_eq_zero.mp zero, round_zero]
  have small : s / 2 ^ 31 < 2 := Nat.div_lt_of_lt_mul (by have := fin.1; simpa [Fmt.width, fp32] using this)
  rw [Nat.testBit_eq_decide_div_mod_eq, Nat.mod_eq_of_lt small]
  interval_cases s / 2 ^ 31 <;> rfl

/-- There is one block scale. -/
theorem blockScale_unique {s code b c : ℕ} (hb : BlockScale s code b) (hc : BlockScale s code c) : b = c := by
  unfold BlockScale at hb hc
  dsimp only at hb hc
  by_cases zero : fpValue fp32 s * ((32 - (code % 16 : ℕ)) * 2 ^ (-(code / 16 % 16 : ℕ) - 4 : ℤ)) = 0
  · rw [hb.1 zero, hc.1 zero]
  · obtain ⟨_, rb⟩ := hb.2 zero
    obtain ⟨_, rc⟩ := hc.2 zero
    exact rounded_rne_unique usual_fp32 (by exact_mod_cast zero) rb rc

/-! ### Header checks -/

theorem headerBad_eq (sb8 : Bool) (h : ℕ) : headerBad sb8 h = headerReason sb8 h := by
  simp only [headerBad, headerReason, popcount_eq, headerSel, field_eq]
  cases sb8 <;> simp

theorem selectorOk_of_good {sb8 : Bool} {h : ℕ} (good : headerReason sb8 h = none) : SelectorOk sb8 (headerSel h) := by
  rw [headerReason] at good
  split_ifs at good with parity table
  have : headerSel h = h / 256 % 4 := field_eq _ _ _
  rw [SelectorOk, this]
  cases sb8 <;> simp_all <;> omega

end Sys2Proof.Machine
end

section
/-! The parts of the quantiser (R130): comparisons of magnitudes, first least elements, the tree of errors, packing. -/

namespace Sys2Proof.Machine

open Sys2Proof.Claims

/-! ### Comparisons -/

theorem scaled_eq (m : ℕ) {e g : ℤ} (h : g ≤ e) : ((m * 2 ^ (e - g).toNat : ℕ) : ℚ) * 2 ^ g = m * 2 ^ e := by
  push_cast
  rw [mul_assoc, ← zpow_natCast, ← zpow_add₀ (by norm_num)]
  congr 2; omega

theorem magLe_iff (m : ℕ) (e : ℤ) (n : ℕ) (g : ℤ) : magLe m e n g = true ↔ (m : ℚ) * 2 ^ e ≤ n * 2 ^ g := by
  have p : (0 : ℚ) < 2 ^ min e g := by positivity
  rw [magLe, decide_eq_true_eq, ← Nat.cast_le (α := ℚ), ← mul_le_mul_iff_left₀ p, scaled_eq m (min_le_left _ _), scaled_eq n (min_le_right _ _)]

theorem magDist_val (m : ℕ) (e : ℤ) (n : ℕ) (g : ℤ) :
    ((magDist m e n g).1 : ℚ) * 2 ^ (magDist m e n g).2 = |(m : ℚ) * 2 ^ e - n * 2 ^ g| := by
  have p : (0 : ℚ) < 2 ^ min e g := by positivity
  rw [← scaled_eq m (min_le_left e g), ← scaled_eq n (min_le_right e g), ← sub_mul, abs_mul, abs_of_pos p, magDist]
  congr 1
  split
  next le => rw [Nat.cast_sub le, abs_sub_comm, abs_of_nonneg (sub_nonneg.mpr (Nat.cast_le.mpr le))]
  next gt => rw [Nat.cast_sub (by omega), abs_of_nonneg (sub_nonneg.mpr (Nat.cast_le.mpr (by omega)))]

/-! ### First least elements -/

theorem leastBy_eq_none {α : Type} (key : α → ℕ) {l : List α} : leastBy key l = none ↔ l = [] := by
  cases l with
  | nil => simp [leastBy]
  | cons x rest =>
    simp only [leastBy, reduceCtorEq, iff_false]
    split
    · simp
    · split <;> simp

/-- What `leastBy` finds in an ascending list: an element with the least key, the least of those. -/
theorem leastBy_spec {key : ℕ → ℕ} {l : List ℕ} (sorted : l.Pairwise (· < ·)) {x : ℕ} (h : leastBy key l = some x) :
    x ∈ l ∧ ∀ y ∈ l, key x ≤ key y ∧ (key x = key y → x ≤ y) := by
  induction l generalizing x with
  | nil => simp [leastBy] at h
  | cons z rest ih =>
    obtain ⟨above, sorted⟩ := List.pairwise_cons.mp sorted
    rw [leastBy] at h
    cases e : leastBy key rest with
    | none =>
      rw [e] at h
      rw [leastBy_eq_none] at e
      simp_all
    | some y =>
      rw [e] at h
      obtain ⟨mem, best⟩ := ih sorted e
      dsimp only at h
      split at h
      next lt =>
        obtain rfl := Option.some.inj h
        refine ⟨.tail _ mem, fun w hw => ?_⟩
        rcases List.mem_cons.mp hw with rfl | hw
        · exact ⟨lt.le, fun eq => absurd lt (by omega)⟩
        · exact best w hw
      next ge =>
        obtain rfl := Option.some.inj h
        refine ⟨.head _, fun w hw => ?_⟩
        rcases List.mem_cons.mp hw with rfl | hw
        · exact ⟨le_rfl, fun _ => le_rfl⟩
        · exact ⟨by have := (best w hw).1; omega, fun _ => (above w hw).le⟩

/-- A fold that keeps the first element of least distance finds it. -/
theorem foldl_first_least {dist : ℕ → ℚ} {closer : ℕ → ℕ → Bool} (spec : ∀ x y, closer x y = true ↔ dist x ≤ dist y) (l : List ℕ) (start : ℕ)
    (sorted : (start :: l).Pairwise (· < ·)) :
    let r := l.foldl (fun best y => if closer best y then best else y) start
    r ∈ start :: l ∧ ∀ y ∈ start :: l, dist r ≤ dist y ∧ (dist r = dist y → r ≤ y) := by
  induction l generalizing start with
  | nil => simp
  | cons z rest ih =>
    obtain ⟨above, sorted'⟩ := List.pairwise_cons.mp sorted
    obtain ⟨above', sorted''⟩ := List.pairwise_cons.mp sorted'
    rw [List.foldl_cons]
    by_cases keep : closer start z = true
    · rw [if_pos keep]
      have le := (spec _ _).mp keep
      obtain ⟨mem, best⟩ := ih start (List.pairwise_cons.mpr ⟨fun y hy => above y (.tail _ hy), sorted''⟩)
      refine ⟨(List.mem_cons.mp mem).elim (fun e => List.mem_cons.mpr (.inl e)) fun h => .tail _ (.tail _ h), fun y hy => ?_⟩
      rcases List.mem_cons.mp hy with rfl | hy
      · exact best y (.head _)
      · rcases List.mem_cons.mp hy with rfl | hy
        · obtain ⟨first, tie⟩ := best start (.head _)
          refine ⟨first.trans le, fun eq => ?_⟩
          exact (tie (le_antisymm first (eq ▸ le))).trans (above _ (.head _)).le
        · exact best y (.tail _ hy)
    · rw [if_neg keep]
      have lt : dist z < dist start := not_le.mp (mt (spec _ _).mpr keep)
      obtain ⟨mem, best⟩ := ih z sorted'
      refine ⟨.tail _ mem, fun y hy => ?_⟩
      rcases List.mem_cons.mp hy with rfl | hy
      · have := (best z (.head _)).1.trans_lt lt
        exact ⟨this.le, fun eq => absurd eq this.ne⟩
      · exact best y hy

/-! ### Trees -/

/-- Two slots of the tree combined (R113). -/
def pairSlot (comb : ℕ → ℕ → FpResult) (x y : Option ℕ) : Option ℕ :=
  match x, y with
  | some a, some b => some (comb a b).1
  | some a, none => some a
  | none, b => b

theorem slotTree_succ (comb : ℕ → ℕ → FpResult) (slot : ℕ → Option ℕ) (k i : ℕ) :
    (slotTree comb slot (k + 1) i).1 = pairSlot comb (slotTree comb slot k i).1 (slotTree comb slot k (i + 2 ^ k)).1 := by
  rw [slotTree]
  rcases (slotTree comb slot k i).1 with _ | a <;> rcases (slotTree comb slot k (i + 2 ^ k)).1 with _ | b <;> rfl

/-- The upper levels of a tree stand over its lowest level. -/
theorem slotTree_pairs (comb : ℕ → ℕ → FpResult) (slot : ℕ → Option ℕ) (k i : ℕ) :
    (slotTree comb (fun j => pairSlot comb (slot (2 * j)) (slot (2 * j + 1))) k i).1 = (slotTree comb slot (k + 1) (2 * i)).1 := by
  induction k generalizing i with
  | zero => rw [slotTree_succ]; rfl
  | succ k ih => rw [slotTree_succ, ih, ih, slotTree_succ _ _ (k + 1), show 2 * (i + 2 ^ k) = 2 * i + 2 ^ (k + 1) by rw [pow_succ]; ring]

theorem slotTree_congr (comb : ℕ → ℕ → FpResult) {slot slot' : ℕ → Option ℕ} {k i : ℕ} (h : ∀ j, i ≤ j → j < i + 2 ^ k → slot j = slot' j) :
    (slotTree comb slot k i).1 = (slotTree comb slot' k i).1 := by
  induction k generalizing i with
  | zero => exact h i le_rfl (by simp)
  | succ k ih =>
    rw [pow_succ] at h
    rw [slotTree_succ, slotTree_succ, ih fun j a b => h j a (by omega), ih fun j a b => h j (by omega) (by omega)]

theorem pairUp_cons (comb : ℕ → ℕ → FpResult) (x y : Option ℕ) (rest : List (Option ℕ)) :
    (pairUp comb (x :: y :: rest)).1 = pairSlot comb x y :: (pairUp comb rest).1 := by
  rw [pairUp]
  cases x <;> cases y <;> rfl

theorem pairUp_spec (comb : ℕ → ℕ → FpResult) (n : ℕ) (l : List (Option ℕ)) (h : l.length = 2 * n) :
    (pairUp comb l).1.length = n ∧ ∀ j < n, (pairUp comb l).1[j]?.getD none = pairSlot comb (l[2 * j]?.getD none) (l[2 * j + 1]?.getD none) := by
  induction n generalizing l with
  | zero =>
    obtain rfl := List.eq_nil_of_length_eq_zero (by simpa using h)
    exact ⟨rfl, fun j hj => absurd hj (by omega)⟩
  | succ n ih =>
    obtain ⟨x, y, rest, rfl⟩ : ∃ x y rest, l = x :: y :: rest := by
      rcases l with _ | ⟨x, _ | ⟨y, rest⟩⟩
      · simp at h
      · simp at h; omega
      · exact ⟨x, y, rest, rfl⟩
    obtain ⟨len, elems⟩ := ih rest (by simp at h; omega)
    rw [pairUp_cons]
    refine ⟨by simp [len], fun j hj => ?_⟩
    cases j with
    | zero => simp
    | succ j => simpa [Nat.mul_succ] using elems j (by omega)

/-- The tree that the model builds level by level is the tree of R113. -/
theorem treeOf_eq (comb : ℕ → ℕ → FpResult) (k : ℕ) (l : List (Option ℕ)) (flags : BitVec 5) (h : l.length = 2 ^ k) :
    (treeOf comb l flags k).1 = (slotTree comb (fun j => l[j]?.getD none) k 0).1 := by
  induction k generalizing l flags with
  | zero => cases l <;> rfl
  | succ k ih =>
    rw [pow_succ, Nat.mul_comm] at h
    obtain ⟨len, elems⟩ := pairUp_spec comb (2 ^ k) l h
    have levels : (treeOf comb l flags (k + 1)).1 = (treeOf comb (pairUp comb l).1 (flags ||| (pairUp comb l).2) k).1 := by
      have : 0 < 2 ^ k := by positivity
      rcases l with _ | ⟨x, _ | ⟨y, rest⟩⟩
      · simp at h
      · simp at h; omega
      · rfl
    have upper := slotTree_pairs comb (fun j => l[j]?.getD none) k 0
    rw [Nat.mul_zero] at upper
    rw [levels, ih _ _ len, ← upper]
    exact slotTree_congr comb fun j _ hj => elems j (by simpa using hj)

/-! ### Packing -/

/-- Numbers of `b` bits side by side, the first lowest. -/
theorem foldl_pack_eq {b : ℕ} (l : List ℕ) : l.reverse.foldl (fun acc c => acc * 2 ^ b + c) 0 = Nat.ofDigits (2 ^ b) l := by
  induction l with
  | nil => rfl
  | cons c l ih => rw [List.reverse_cons, List.foldl_append, ih, Nat.ofDigits_cons, List.foldl_cons, List.foldl_nil]; ring

theorem packCodes_eq (sb8 : Bool) (l : List ℕ) : packCodes sb8 l = Nat.ofDigits (2 ^ codeBits sb8) l := foldl_pack_eq l

theorem ofDigits_field {b : ℕ} {l : List ℕ} (small : ∀ c ∈ l, c < 2 ^ b) (j : ℕ) :
    Nat.ofDigits (2 ^ b) l / 2 ^ (b * j) % 2 ^ b = l.getD j 0 := by
  induction l generalizing j with
  | nil => simp
  | cons c l ih =>
    have hc : c < 2 ^ b := small c (.head _)
    rw [Nat.ofDigits_cons]
    cases j with
    | zero => simpa using Nat.mod_eq_of_lt hc
    | succ j =>
      rw [Nat.mul_succ, pow_add, Nat.mul_comm (2 ^ (b * j)), ← Nat.div_div_eq_div_mul, Nat.add_mul_div_left _ _ (by positivity),
        Nat.div_eq_of_lt hc, Nat.zero_add, ih fun d hd => small d (.tail _ hd)]
      simp

end Sys2Proof.Machine
end

section
/-! One block quantised under one selector (R130): the scale code, the element codes and the error are determined, and the model finds them. -/

namespace Sys2Proof.Machine

open Sys2Proof.Claims

variable {f : Fmt} {sb8 : Bool} {sel : ℕ}

/-- The source elements of a block: none for padding. -/
def quants (f : Fmt) (p : ℕ → Option ℕ) (n : ℕ) : List Quant := (List.range n).map fun i => (p i).map (unpack f)

/-- The magnitude of an element, zero for padding. -/
def elemMag (f : Fmt) (p : ℕ → Option ℕ) (i : ℕ) : ℚ := ((p i).map fun w => |fpValue f w|).getD 0

theorem elemMag_some {p : ℕ → Option ℕ} {i w : ℕ} (h : p i = some w) : elemMag f p i = |fpValue f w| := by simp [elemMag, h]

theorem abs_fpValue {w : ℕ} {n : Bool} {m : ℕ} {e : ℤ} (h : (Fp.fin n m e).val = fpValue f w) : |fpValue f w| = m * 2 ^ e := by rw [← h, abs_val]

/-! ### The greatest magnitude -/

theorem foldl_maxMag (xs : List Quant) (acc : ℕ × ℤ) :
    let r := xs.foldl (fun acc x =>
      match x with
      | some (.fin _ m e) => if magLe m e acc.1 acc.2 then acc else (m, e)
      | _ => acc) acc
    (acc.1 : ℚ) * 2 ^ acc.2 ≤ r.1 * 2 ^ r.2 ∧ (∀ n m e, some (Fp.fin n m e) ∈ xs → (m : ℚ) * 2 ^ e ≤ r.1 * 2 ^ r.2) ∧
      (r = acc ∨ ∃ n, some (Fp.fin n r.1 r.2) ∈ xs) := by
  induction xs generalizing acc with
  | nil => simp
  | cons x xs ih =>
    rw [List.foldl_cons]
    rcases x with _ | ⟨_ | _ | ⟨n, m, e⟩⟩
    iterate 3
      · obtain ⟨low, all, from_⟩ := ih acc
        exact ⟨low, fun n m e h => all n m e (by simpa using h), from_.imp_right fun ⟨n, h⟩ => ⟨n, .tail _ h⟩⟩
    · by_cases keep : magLe m e acc.1 acc.2 = true
      · simp only [keep, if_true]
        obtain ⟨low, all, from_⟩ := ih acc
        refine ⟨low, fun n' m' e' h => ?_, from_.imp_right fun ⟨n, h⟩ => ⟨n, .tail _ h⟩⟩
        rcases List.mem_cons.mp h with h | h
        · cases h; exact ((magLe_iff _ _ _ _).mp keep).trans low
        · exact all _ _ _ h
      · simp only [keep, if_false, Bool.false_eq_true]
        obtain ⟨low, all, from_⟩ := ih (m, e)
        refine ⟨(not_le.mp (mt (magLe_iff _ _ _ _).mpr keep)).le.trans low, fun n' m' e' h => ?_, .inr ?_⟩
        · rcases List.mem_cons.mp h with h | h
          · cases h; exact low
          · exact all _ _ _ h
        · rcases from_ with eq | ⟨n', h⟩
          · exact ⟨n, by rw [eq]; exact .head _⟩
          · exact ⟨n', .tail _ h⟩

section

variable {p : ℕ → Option ℕ} {n : ℕ} (fin : ∀ i w, i < n → p i = some w → FpFinite f w)
include fin

/-- The greatest magnitude of a block without infinities and NaNs. -/
theorem maxMag_spec :
    (∀ i < n, elemMag f p i ≤ (maxMag (quants f p n)).1 * 2 ^ (maxMag (quants f p n)).2) ∧
    (maxMag (quants f p n) = (0, 0) ∨ ∃ i w, i < n ∧ p i = some w ∧ |fpValue f w| = (maxMag (quants f p n)).1 * 2 ^ (maxMag (quants f p n)).2 ∧
      ∃ s, unpack f w = .fin s (maxMag (quants f p n)).1 (maxMag (quants f p n)).2) := by
  obtain ⟨low, all, from_⟩ := foldl_maxMag (quants f p n) (0, 0)
  change maxMag (quants f p n) = (0, 0) ∨ _ at from_
  refine ⟨fun i hi => ?_, from_.imp_right fun ⟨s, h⟩ => ?_⟩
  · cases e : p i with
    | none =>
      have : (0 : ℚ) ≤ (maxMag (quants f p n)).1 * 2 ^ (maxMag (quants f p n)).2 := by positivity
      simpa [elemMag, e] using this
    | some w =>
      obtain ⟨m, x, eq, value⟩ := unpack_of_finite (fin i w hi e)
      rw [elemMag_some e, abs_fpValue value]
      exact all _ m x (List.mem_map.mpr ⟨i, List.mem_range.mpr hi, by rw [e, Option.map_some, eq]⟩)
  · obtain ⟨i, hi, eq⟩ := List.mem_map.mp h
    have hi := List.mem_range.mp hi
    obtain ⟨w, hw, eq⟩ := Option.map_eq_some_iff.mp eq
    obtain ⟨m, x, eq', value⟩ := unpack_of_finite (fin i w hi hw)
    have eq' := eq'.symm.trans eq
    cases eq'
    exact ⟨i, w, hi, hw, abs_fpValue value, _, eq⟩

/-- A bound of the greatest magnitude bounds all. -/
theorem maxMag_le_iff {q : ℚ} (pos : 0 ≤ q) :
    ((maxMag (quants f p n)).1 : ℚ) * 2 ^ (maxMag (quants f p n)).2 ≤ q ↔ ∀ i < n, elemMag f p i ≤ q := by
  obtain ⟨all, from_⟩ := maxMag_spec fin
  refine ⟨fun le i hi => (all i hi).trans le, fun le => ?_⟩
  rcases from_ with zero | ⟨i, w, hi, hw, eq, -⟩
  · rw [zero]; simpa using pos
  · rw [← eq, ← elemMag_some hw]; exact le i hi

end

/-! ### Scales -/

theorem rounded_pos_lt (usual : f.Usual) {rm : Rm} {flush : Bool} {q : ℝ} (pos : 0 < q) {r : FpResult} (h : Rounded f rm flush q r)
    (keeps : flush = false) : r.1 < 2 ^ (f.eb + f.fb) := by
  obtain ⟨-, large, fit⟩ := (rounded_withSign (neg := false) usual pos).mp h
  by_cases past : Exceeds f rm false q
  · rw [large past]
    have := inf_lt f
    cases rm <;> simp [overflow, Fmt.sign] <;> omega
  · obtain ⟨finite, sign, -⟩ := fit (by simp [keeps]) past
    rw [eq_sign_add_mag finite.1, Bool.eq_false_iff.mpr (mt sign.mp (by simp))]
    simpa [Fmt.sign] using mag_lt f r.1

theorem fpValue_nonneg {x : ℕ} (h : x < 2 ^ (f.eb + f.fb)) : 0 ≤ fpValue f x := by
  rw [← Rat.cast_nonneg (K := ℝ), fpValue_of_lt h]; exact magnitude_nonneg f x

theorem blockScale_lt {s : ℕ} (fin : FpFinite fp32 s) (small : s < 2 ^ 31) (c : ℕ) : blockScale s c < 2 ^ 31 := by
  obtain ⟨zero, some⟩ := blockScale_spec fin c
  by_cases q : fpValue fp32 s * ((32 - (c % 16 : ℕ)) * 2 ^ (-(c / 16 % 16 : ℕ) - 4 : ℤ)) = 0
  · rw [zero q, Nat.div_eq_of_lt small]; norm_num
  · obtain ⟨fl, r⟩ := some q
    refine rounded_pos_lt (r := (blockScale s c, fl)) usual_fp32 ?_ r rfl
    have : (c % 16 : ℕ) < (16 : ℚ) := by exact_mod_cast Nat.mod_lt c (by norm_num)
    have : (0 : ℚ) ≤ (32 - (c % 16 : ℕ)) * 2 ^ (-(c / 16 % 16 : ℕ) - 4 : ℤ) := mul_nonneg (by linarith) (by positivity)
    exact_mod_cast lt_of_le_of_ne (mul_nonneg (fpValue_nonneg small) this) (Ne.symm q)

theorem finiteScale_spec {b : ℕ} (small : b < 2 ^ 31) :
    (FpFinite fp32 b → ∃ m e, finiteScale b = some (m, e) ∧ (m : ℚ) * 2 ^ e = fpValue fp32 b) ∧ (¬FpFinite fp32 b → finiteScale b = none) := by
  have wide : b < 2 ^ fp32.width := small.trans (by decide)
  refine ⟨fun fin => ?_, fun bad => ?_⟩
  · obtain ⟨m, e, eq, value⟩ := unpack_of_finite fin
    rw [show b.testBit (fp32.eb + fp32.fb) = false from Nat.testBit_lt_two_pow small] at eq value
    exact ⟨m, e, by rw [finiteScale, eq], by simpa using value⟩
  · rw [← unpack_eq_fin_iff wide] at bad
    rw [finiteScale]
    split
    next n m e eq => exact absurd ⟨n, m, e, eq⟩ bad
    next => rfl

/-- The greatest magnitude of a table. -/
def topDecode (sb8 : Bool) (sel : ℕ) : ℚ := sbDecode sb8 sel (2 ^ (codeBits sb8 - 1) - 1)

theorem topDecode_eq (ok : SelectorOk sb8 sel) : topDecode sb8 sel = (maxNumer sb8 sel : ℚ) / 2 ^ denom sb8 sel :=
  sbDecode_mag ok (Nat.sub_lt (by positivity) (by norm_num))

/-- A scale code under which no element of the block is cut off (R130). -/
def Fits (f : Fmt) (p : ℕ → Option ℕ) (n : ℕ) (sb8 : Bool) (sel : ℕ) (b : ℕ → ℕ) (c : ℕ) : Prop :=
  c < 256 ∧ FpFinite fp32 (b c) ∧ ∀ i, i < n → elemMag f p i ≤ fpValue fp32 (b c) * topDecode sb8 sel

section

variable {p : ℕ → Option ℕ} {n s : ℕ} (fin : ∀ i w, i < n → p i = some w → FpFinite f w) (ok : SelectorOk sb8 sel)
  (finS : FpFinite fp32 s) (smallS : s < 2 ^ 31)
include fin ok finS smallS

theorem qualifies_iff (c : ℕ) : (c < 256 ∧ qualifies sb8 sel s (maxMag (quants f p n)).1 (maxMag (quants f p n)).2 c = true) ↔
    Fits f p n sb8 sel (blockScale s) c := by
  refine and_congr_right fun _ => ?_
  have small := blockScale_lt finS smallS c
  obtain ⟨good, bad⟩ := finiteScale_spec small
  by_cases finB : FpFinite fp32 (blockScale s c)
  · obtain ⟨m, e, eq, value⟩ := good finB
    have product : (((m * maxNumer sb8 sel : ℕ) : ℚ) * 2 ^ (e - denom sb8 sel : ℤ)) = fpValue fp32 (blockScale s c) * topDecode sb8 sel := by
      rw [← value, topDecode_eq ok, zpow_sub₀ (by norm_num), zpow_natCast]; push_cast; ring
    have pos : 0 ≤ fpValue fp32 (blockScale s c) * topDecode sb8 sel := by rw [← product]; positivity
    simp only [qualifies, eq, finB, true_and]
    rw [magLe_iff, product, maxMag_le_iff fin pos]
  · simp [qualifies, bad finB, finB]

/-- The scale code that is taken has the least scale of those that fit, and is the least of those codes. -/
theorem pickScale_spec {c : ℕ} (h : pickScale sb8 sel s (maxMag (quants f p n)).1 (maxMag (quants f p n)).2 = some c) :
    Fits f p n sb8 sel (blockScale s) c ∧ ∀ e, Fits f p n sb8 sel (blockScale s) e →
      fpValue fp32 (blockScale s c) ≤ fpValue fp32 (blockScale s e) ∧ (fpValue fp32 (blockScale s c) = fpValue fp32 (blockScale s e) → c ≤ e) := by
  have member (e : ℕ) : e ∈ (Machine.span 0 256).filter (qualifies sb8 sel s (maxMag (quants f p n)).1 (maxMag (quants f p n)).2) ↔
      Fits f p n sb8 sel (blockScale s) e := by
    rw [List.mem_filter, span_zero, List.mem_range]
    exact qualifies_iff fin ok finS smallS e
  have sorted : ((Machine.span 0 256).filter (qualifies sb8 sel s (maxMag (quants f p n)).1 (maxMag (quants f p n)).2)).Pairwise (· < ·) := by
    rw [span_zero]; exact List.pairwise_lt_range.filter _
  obtain ⟨mem, best⟩ := leastBy_spec sorted h
  refine ⟨(member c).mp mem, fun e he => ?_⟩
  obtain ⟨le, tie⟩ := best e ((member e).mpr he)
  have below (x : ℕ) : blockScale s x < 2 ^ (fp32.eb + fp32.fb) := blockScale_lt finS smallS x
  refine ⟨(fpValue_le_iff (below c) (below e)).mpr le, fun eq => tie (le_antisymm le ?_)⟩
  exact (fpValue_le_iff (below e) (below c)).mp eq.ge

theorem pickScale_none (h : pickScale sb8 sel s (maxMag (quants f p n)).1 (maxMag (quants f p n)).2 = none) (c : ℕ) :
    ¬Fits f p n sb8 sel (blockScale s) c := fun fits => by
  obtain ⟨lt, q⟩ := (qualifies_iff fin ok finS smallS c).mpr fits
  have empty := (leastBy_eq_none _).mp h
  have : c ∈ (Machine.span 0 256).filter (qualifies sb8 sel s (maxMag (quants f p n)).1 (maxMag (quants f p n)).2) :=
    List.mem_filter.mpr ⟨by rw [span_zero]; exact List.mem_range.mpr lt, q⟩
  rw [empty] at this
  cases this

end

end Sys2Proof.Machine
end

section
/-! Elements quantised under a scale (R130), and that one selector gives one scale code and one error. -/

namespace Sys2Proof.Machine

open Sys2Proof.Claims

variable {f : Fmt} {sb8 : Bool} {sel : ℕ}

open scoped Classical in
/-- The code and the squared error of one element under the scale `B`. -/
def ElemTry (sb8 : Bool) (sel : ℕ) (f : Fmt) (B mag : ℚ) (w code : ℕ) (slot : Option ℕ) : Prop :=
  let k := if sb8 then 7 else 3
  let mi := code % 2 ^ k
  let diff : ℚ := fpValue f w - B * sbDecode sb8 sel code
  (∀ e, e < 2 ^ k → |mag - B * sbDecode sb8 sel mi| ≤ |mag - B * sbDecode sb8 sel e| ∧
    (|mag - B * sbDecode sb8 sel mi| = |mag - B * sbDecode sb8 sel e| → mi ≤ e)) ∧
  code = mi + (if fpValue f w < 0 ∧ mi ≠ 0 then 2 ^ k else 0) ∧
  (diff = 0 → slot = some 0) ∧
  (diff ≠ 0 → ∃ dlt fl, Rounded fp32 .rne false (diff : ℝ) (dlt, fl) ∧ slot = some (fpMul fp32 .rne 0 dlt dlt).1)

theorem quantTry_iff {S : ℕ} {ps : ℕ → Option ℕ} {base n c : ℕ} {code : ℕ → ℕ} {err : ℕ} :
    QuantTry sb8 S f ps base n sel c code err ↔ ∃ b : ℕ → ℕ, (∀ c, c < 256 → BlockScale S c (b c)) ∧
      Fits f (fun i => ps (base + i)) n sb8 sel b c ∧
      (∀ e, Fits f (fun i => ps (base + i)) n sb8 sel b e → fpValue fp32 (b c) ≤ fpValue fp32 (b e) ∧ (fpValue fp32 (b c) = fpValue fp32 (b e) → c ≤ e)) ∧
      ∃ slot : ℕ → Option ℕ, (slotTree (fpAdd fp32 .rne 0) slot 6 0).1.getD 0 = err ∧ (∀ i, n ≤ i → slot i = none) ∧
        ∀ i, i < n → (ps (base + i) = none → code i = 0 ∧ slot i = none) ∧
          ∀ w, ps (base + i) = some w → ElemTry sb8 sel f (fpValue fp32 (b c)) (elemMag f (fun i => ps (base + i)) i) w (code i) (slot i) := by
  cases sb8 <;> rfl

/-- One code and one error for an element. -/
theorem ElemTry.unique {B mag : ℚ} {w code code' : ℕ} {slot slot' : Option ℕ} (h : ElemTry sb8 sel f B mag w code slot)
    (h' : ElemTry sb8 sel f B mag w code' slot') : code = code' ∧ slot = slot' := by
  obtain ⟨best, eq, zero, some_⟩ := h
  obtain ⟨best', eq', zero', some'⟩ := h'
  have small (x : ℕ) : x % 2 ^ (if sb8 then 7 else 3) < 2 ^ (if sb8 then 7 else 3) := Nat.mod_lt _ (by positivity)
  have a := best _ (small code')
  have b := best' _ (small code)
  have mags := le_antisymm a.1 b.1
  have index := le_antisymm (a.2 mags) (b.2 mags.symm)
  have codes : code = code' := by rw [eq, eq', index]
  subst codes
  refine ⟨rfl, ?_⟩
  by_cases diff : fpValue f w - B * sbDecode sb8 sel code = 0
  · rw [zero diff, zero' diff]
  · obtain ⟨d, _, rd, sd⟩ := some_ diff
    obtain ⟨e, _, re, se⟩ := some' diff
    have : d = e := rounded_rne_unique usual_fp32 (by exact_mod_cast diff) rd re
    rw [sd, se, this]

/-- One scale code and one error for a block under a selector. -/
theorem quantTry_unique {S : ℕ} {ps : ℕ → Option ℕ} {base n c c' : ℕ} {code code' : ℕ → ℕ} {err err' : ℕ}
    (h : QuantTry sb8 S f ps base n sel c code err) (h' : QuantTry sb8 S f ps base n sel c' code' err') :
    c = c' ∧ err = err' := by
  obtain ⟨b, scales, fits, least, slot, tree, beyond, elems⟩ := quantTry_iff.mp h
  obtain ⟨b', scales', fits', least', slot', tree', beyond', elems'⟩ := quantTry_iff.mp h'
  have same (x : ℕ) (hx : x < 256) : b x = b' x := blockScale_unique (scales x hx) (scales' x hx)
  have same_ (x : ℕ) : Fits f (fun i => ps (base + i)) n sb8 sel b x ↔ Fits f (fun i => ps (base + i)) n sb8 sel b' x :=
    and_congr_right fun hx => by rw [same x hx]
  have up := least c' ((same_ c').mpr fits')
  have down := least' c ((same_ c).mp fits)
  rw [same c fits.1, same c' fits'.1] at up
  have value := le_antisymm up.1 down.1
  obtain rfl : c = c' := le_antisymm (up.2 value) (down.2 value.symm)
  refine ⟨rfl, ?_⟩
  have : slot = slot' := by
    funext i
    rcases Nat.lt_or_ge i n with hi | hi
    · cases e : ps (base + i) with
      | none => rw [((elems i hi).1 e).2, ((elems' i hi).1 e).2]
      | some w =>
        have a := (elems i hi).2 w e
        rw [same c fits.1] at a
        exact (a.unique ((elems' i hi).2 w e)).2
    · rw [beyond i hi, beyond' i hi]
  rw [← tree, ← tree', this]

/-! ### The model's element -/

/-- The magnitude index that the model takes is nearest, the smallest of those. -/
theorem nearest_spec (ok : SelectorOk sb8 sel) {B mag : ℚ} {mb mx : ℕ} {eb ex : ℤ} (hb : (mb : ℚ) * 2 ^ eb = B) (hx : (mx : ℚ) * 2 ^ ex = mag) :
    let mi := nearest sb8 sel mb eb mx ex
    mi < 2 ^ (codeBits sb8 - 1) ∧ ∀ e, e < 2 ^ (codeBits sb8 - 1) → |mag - B * sbDecode sb8 sel mi| ≤ |mag - B * sbDecode sb8 sel e| ∧
      (|mag - B * sbDecode sb8 sel mi| = |mag - B * sbDecode sb8 sel e| → mi ≤ e) := by
  have spec (x y : ℕ) : magLe (magDist mx ex (mb * numer sb8 sel x) (eb - denom sb8 sel)).1 (magDist mx ex (mb * numer sb8 sel x) (eb - denom sb8 sel)).2
      (magDist mx ex (mb * numer sb8 sel y) (eb - denom sb8 sel)).1 (magDist mx ex (mb * numer sb8 sel y) (eb - denom sb8 sel)).2 = true ↔
      |mag - B * ((numer sb8 sel x : ℚ) / 2 ^ denom sb8 sel)| ≤ |mag - B * ((numer sb8 sel y : ℚ) / 2 ^ denom sb8 sel)| := by
    have value (z : ℕ) : (mx : ℚ) * 2 ^ ex - ((mb * numer sb8 sel z : ℕ) : ℚ) * 2 ^ (eb - denom sb8 sel : ℤ) =
        mag - B * ((numer sb8 sel z : ℚ) / 2 ^ denom sb8 sel) := by
      rw [← hb, ← hx, zpow_sub₀ (by norm_num), zpow_natCast]; push_cast; ring
    rw [magLe_iff, magDist_val, magDist_val, value, value]
  have least := foldl_first_least (dist := fun z => |mag - B * ((numer sb8 sel z : ℚ) / 2 ^ denom sb8 sel)|) spec
    (List.range' 1 (2 ^ (codeBits sb8 - 1) - 1)) 0 (List.pairwise_cons.mpr ⟨fun y hy => by have := (List.mem_range'_1.mp hy).1; omega, List.pairwise_lt_range' 1⟩)
  have count : 2 ^ (codeBits sb8 - 1) = 2 ^ (codeBits sb8 - 1) - 1 + 1 := (Nat.sub_add_cancel (Nat.one_le_two_pow)).symm
  have all : 0 :: List.range' 1 (2 ^ (codeBits sb8 - 1) - 1) = List.range (2 ^ (codeBits sb8 - 1)) := by
    rw [count, List.range_eq_range', List.range'_succ]; rfl
  have start : magLe (magDist mx ex (mb * numer sb8 sel 0) (eb - denom sb8 sel)).1 (magDist mx ex (mb * numer sb8 sel 0) (eb - denom sb8 sel)).2
      (magDist mx ex (mb * numer sb8 sel 0) (eb - denom sb8 sel)).1 (magDist mx ex (mb * numer sb8 sel 0) (eb - denom sb8 sel)).2 = true :=
    (spec 0 0).mpr le_rfl
  have run : nearest sb8 sel mb eb mx ex = (List.range' 1 (2 ^ (codeBits sb8 - 1) - 1)).foldl (fun best y =>
      if magLe (magDist mx ex (mb * numer sb8 sel best) (eb - denom sb8 sel)).1 (magDist mx ex (mb * numer sb8 sel best) (eb - denom sb8 sel)).2
        (magDist mx ex (mb * numer sb8 sel y) (eb - denom sb8 sel)).1 (magDist mx ex (mb * numer sb8 sel y) (eb - denom sb8 sel)).2 = true then best else y) 0 := by
    rw [nearest, span_zero, ← all, List.foldl_cons]
    simp only [start, if_true]
  rw [all, ← run] at least
  obtain ⟨mem, best⟩ := least
  have lt := List.mem_range.mp mem
  refine ⟨lt, fun e he => ?_⟩
  rw [sbDecode_mag ok lt, sbDecode_mag ok he]
  exact best e (List.mem_range.mpr he)

theorem fpMul_zero_square (x : ℕ) (h : x = 0 ∨ x = 2 ^ 31) : (fpMul fp32 .rne 0 x x).1 = 0 := by
  rcases h with rfl | rfl <;> decide

/-- The code and the error of an element that the model computes. -/
theorem quantElem_spec (ok : SelectorOk sb8 sel) {B : ℚ} {mb : ℕ} {eb : ℤ} (hb : (mb : ℚ) * 2 ^ eb = B) {w : ℕ} (fin : FpFinite f w) :
    ElemTry sb8 sel f B |fpValue f w| w (quantElem sb8 sel mb eb (some (unpack f w))).1 (quantElem sb8 sel mb eb (some (unpack f w))).2 := by
  obtain ⟨m, e, eq, value⟩ := unpack_of_finite fin
  generalize w.testBit (f.eb + f.fb) = neg at eq value
  obtain ⟨lt, best⟩ := nearest_spec ok hb (abs_fpValue value).symm
  have below : (neg && m != 0) = decide (fpValue f w < 0) := by rw [← value, Bool.eq_iff_iff, decide_eq_true_eq, val_neg_iff]; simp
  generalize hmi : nearest sb8 sel mb eb m e = mi at lt best
  have codeEq : (quantElem sb8 sel mb eb (some (unpack f w))).1 = mi + if fpValue f w < 0 ∧ mi ≠ 0 then 2 ^ (codeBits sb8 - 1) else 0 := by
    rw [eq]
    simp only [quantElem, hmi, below]
    simp
  have slotEq : (quantElem sb8 sel mb eb (some (unpack f w))).2 =
      let code := (quantElem sb8 sel mb eb (some (unpack f w))).1
      let dlt := (addFin fp32 .rne false neg m e (!(decodeSb sb8 sel code).1) (mb * (decodeSb sb8 sel code).2) (eb - denom sb8 sel)).1
      some (fpMul fp32 .rne 0 dlt dlt).1 := by
    rw [eq]; rfl
  generalize (quantElem sb8 sel mb eb (some (unpack f w))).1 = code at codeEq slotEq
  have index : code % 2 ^ (codeBits sb8 - 1) = mi := by
    rw [codeEq]; split <;> simp [Nat.mod_eq_of_lt lt]
  have minus : (Fp.fin (!(decodeSb sb8 sel code).1) (mb * (decodeSb sb8 sel code).2) (eb - denom sb8 sel)).val = -(B * sbDecode sb8 sel code) := by
    rw [sbDecode_eq ok, val_fin, val_fin, ← hb, zpow_sub₀ (by norm_num), zpow_neg]
    cases (decodeSb sb8 sel code).1 <;> push_cast <;> simp <;> ring
  have total : (Fp.fin neg m e).val + (Fp.fin (!(decodeSb sb8 sel code).1) (mb * (decodeSb sb8 sel code).2) (eb - denom sb8 sel)).val =
      fpValue f w - B * sbDecode sb8 sel code := by rw [minus, value]; ring
  unfold ElemTry
  rw [← codeBits_eq]
  refine ⟨by rw [index]; exact best, by rw [index]; convert codeEq, fun zero => ?_, fun some_ => ?_⟩
  · rw [slotEq]
    dsimp only
    rw [addFin_zero (total.trans zero), fpMul_zero_square]
    split <;> cases neg <;> decide
  · exact ⟨_, _, total ▸ rounded_addFin usual_fp32 (total ▸ some_), slotEq⟩

end Sys2Proof.Machine
end

section
/-! Blocks and superblocks quantised (R130). -/

namespace Sys2Proof.Machine

open Sys2Proof.Claims

variable {f : Fmt} {sb8 : Bool}

section

variable {ps : ℕ → Option ℕ} {base n s sel : ℕ} (fin : ∀ i w, i < n → ps (base + i) = some w → FpFinite f w) (ok : SelectorOk sb8 sel)
  (finS : FpFinite fp32 s) (smallS : s < 2 ^ 31) (size : n ≤ 64)
include fin ok finS smallS

/-- What the model computes under a selector is what R130 says of it. -/
theorem quantWith_spec (size : n ≤ 64) {sel' c err : ℕ} {codes : List ℕ}
    (h : quantWith sb8 s (quants f (fun i => ps (base + i)) n) (maxMag (quants f (fun i => ps (base + i)) n)).1 (maxMag (quants f (fun i => ps (base + i)) n)).2 sel =
      some (sel', c, codes, err)) :
    sel' = sel ∧ codes.length = n ∧ QuantTry sb8 s f ps base n sel c (fun i => codes.getD i 0) err := by
  rw [quantWith] at h
  cases pick : pickScale sb8 sel s (maxMag (quants f (fun i => ps (base + i)) n)).1 (maxMag (quants f (fun i => ps (base + i)) n)).2 with
  | none => rw [pick] at h; cases h
  | some c₀ =>
    obtain ⟨fits, least⟩ := pickScale_spec fin ok finS smallS pick
    obtain ⟨mb, eb, scale, value⟩ := (finiteScale_spec (blockScale_lt finS smallS c₀)).1 fits.2.1
    rw [pick] at h
    simp only [scale, Option.some.injEq, Prod.mk.injEq] at h
    obtain ⟨rfl, rfl, rfl, rfl⟩ := h
    have elem (i : ℕ) (hi : i < n) : (quants f (fun i => ps (base + i)) n)[i]? = some ((ps (base + i)).map (unpack f)) := by
      simp [quants, hi]
    refine ⟨rfl, by simp [quants], quantTry_iff.mpr ⟨blockScale s, fun c _ => blockScale_spec finS c, fits, least, ?_⟩⟩
    have slots : ((quants f (fun i => ps (base + i)) n).map (quantElem sb8 sel mb eb)).length = n := by simp [quants]
    refine ⟨_, (congrArg (·.getD 0) (treeOf_eq (fpAdd fp32 .rne 0) 6 _ 0 (by simp [quants]; omega))).symm, fun i hi => ?_, fun i hi => ⟨fun none => ?_, fun w some => ?_⟩⟩
    · rw [List.getElem?_append_right (by simpa [quants] using hi)]
      rw [List.getElem?_replicate]
      split <;> rfl
    · rw [List.getElem?_append_left (by simpa [quants] using hi)]
      simp [elem i hi, none, quantElem, List.getD_eq_getElem?_getD]
    · have given := quantElem_spec ok value (fin i w hi some)
      rw [List.getElem?_append_left (by simpa [quants] using hi), show elemMag f (fun i => ps (base + i)) i = |fpValue f w| from elemMag_some some]
      simpa [elem i hi, some, List.getD_eq_getElem?_getD] using given

/-- A selector that the model leaves out has no scale code that fits. -/
theorem quantWith_none (h : quantWith sb8 s (quants f (fun i => ps (base + i)) n) (maxMag (quants f (fun i => ps (base + i)) n)).1
      (maxMag (quants f (fun i => ps (base + i)) n)).2 sel = none) (c : ℕ) (code : ℕ → ℕ) (err : ℕ) :
    ¬QuantTry sb8 s f ps base n sel c code err := by
  intro t
  obtain ⟨b, scales, fits, -⟩ := quantTry_iff.mp t
  have fits : Fits f (fun i => ps (base + i)) n sb8 sel (blockScale s) c :=
    ⟨fits.1, blockScale_unique (scales c fits.1) (blockScale_spec finS c) ▸ fits.2⟩
  rw [quantWith] at h
  cases pick : pickScale sb8 sel s (maxMag (quants f (fun i => ps (base + i)) n)).1 (maxMag (quants f (fun i => ps (base + i)) n)).2 with
  | none => exact pickScale_none fin ok finS smallS pick c fits
  | some c₀ =>
    obtain ⟨fits₀, -⟩ := pickScale_spec fin ok finS smallS pick
    obtain ⟨mb, eb, scale, -⟩ := (finiteScale_spec (blockScale_lt finS smallS c₀)).1 fits₀.2.1
    rw [pick] at h
    simp [scale] at h

end

/-- The first result of least error. -/
def leastErr {α : Type} (err : α → ℕ) (l : List α) (start : Option α) : Option α :=
  l.foldl (fun best r =>
    match best with
    | none => some r
    | some b => if err r < err b then some r else best) start

theorem quantBlock_eq (sb8 : Bool) (s : ℕ) (sels : List ℕ) (xs : List Quant) :
    quantBlock sb8 s sels xs = leastErr (·.2.2.2) (sels.filterMap (quantWith sb8 s xs (maxMag xs).1 (maxMag xs).2)) none := by
  rw [quantBlock, leastErr]
  dsimp only
  congr 1
  funext best r
  cases best <;> rfl

theorem leastErr_cons_none {α : Type} (err : α → ℕ) (z : α) (l : List α) : leastErr err (z :: l) none = leastErr err l (some z) := rfl

theorem leastErr_cons_some {α : Type} (err : α → ℕ) (z b : α) (l : List α) :
    leastErr err (z :: l) (some b) = leastErr err l (if err z < err b then some z else some b) := rfl

theorem leastErr_spec {α : Type} (err : α → ℕ) (l : List α) (start : Option α) :
    let r := leastErr err l start
    (r = none ↔ start = none ∧ l = []) ∧ ∀ x, r = some x → (start = some x ∨ ∃ pre post, l = pre ++ x :: post ∧ (∀ y ∈ pre, err x < err y) ∧ ∀ y, start = some y → err x < err y) ∧
      (∀ y ∈ l, err x ≤ err y) ∧ ∀ y, start = some y → err x ≤ err y := by
  induction l generalizing start with
  | nil =>
    refine ⟨by simp [leastErr], fun x h => ⟨.inl h, fun y hy => absurd hy List.not_mem_nil, fun y h' => ?_⟩⟩
    obtain rfl := Option.some.inj (h.symm.trans h')
    exact le_rfl
  | cons z l ih =>
    cases start with
    | none =>
      rw [leastErr_cons_none]
      obtain ⟨no, yes⟩ := ih (some z)
      refine ⟨by simpa using no, fun x hx => ?_⟩
      obtain ⟨from_, all, first⟩ := yes x hx
      refine ⟨.inr ?_, fun y hy => ?_, fun y hy => by cases hy⟩
      · rcases from_ with e | ⟨pre, post, rfl, below, lt⟩
        · cases e; exact ⟨[], l, rfl, by simp, fun y hy => by cases hy⟩
        · exact ⟨z :: pre, post, rfl, fun y hy => (List.mem_cons.mp hy).elim (fun e => e ▸ lt z rfl) (below y), fun y hy => by cases hy⟩
      · rcases List.mem_cons.mp hy with rfl | hy
        · exact first _ rfl
        · exact all y hy
    | some b =>
      rw [leastErr_cons_some]
      by_cases lt : err z < err b
      · rw [if_pos lt]
        obtain ⟨no, yes⟩ := ih (some z)
        refine ⟨by simpa using no, fun x hx => ?_⟩
        obtain ⟨from_, all, first⟩ := yes x hx
        have firstZ := first z rfl
        refine ⟨.inr ?_, fun y hy => ?_, fun y hy => by cases hy; omega⟩
        · rcases from_ with e | ⟨pre, post, rfl, below, ltz⟩
          · cases e; exact ⟨[], l, rfl, by simp, fun y hy => by cases hy; exact lt⟩
          · exact ⟨z :: pre, post, rfl, fun y hy => (List.mem_cons.mp hy).elim (fun e => e ▸ ltz z rfl) (below y), fun y hy => by cases hy; omega⟩
        · rcases List.mem_cons.mp hy with rfl | hy
          · exact firstZ
          · exact all y hy
      · rw [if_neg lt]
        obtain ⟨no, yes⟩ := ih (some b)
        refine ⟨by simpa using no, fun x hx => ?_⟩
        obtain ⟨from_, all, first⟩ := yes x hx
        have firstB := first b rfl
        refine ⟨?_, fun y hy => ?_, first⟩
        · rcases from_ with e | ⟨pre, post, rfl, below, ltb⟩
          · exact .inl e
          · exact .inr ⟨z :: pre, post, rfl, fun y hy => (List.mem_cons.mp hy).elim (fun e => by have := ltb b rfl; subst e; omega) (below y), ltb⟩
        · rcases List.mem_cons.mp hy with rfl | hy
          · omega
          · exact all y hy

section

variable {ps : ℕ → Option ℕ} {base n s : ℕ} {sels : List ℕ} (fin : ∀ i w, i < n → ps (base + i) = some w → FpFinite f w)
  (ok : ∀ sel ∈ sels, SelectorOk sb8 sel) (sorted : sels.Pairwise (· < ·)) (finS : FpFinite fp32 s) (smallS : s < 2 ^ 31) (size : n ≤ 64)
include fin ok sorted finS smallS size

/-- The selector of a block: the least error, the lowest selector among equals. -/
theorem quantBlock_spec {sel c err : ℕ} {codes : List ℕ} (h : quantBlock sb8 s sels (quants f (fun i => ps (base + i)) n) = some (sel, c, codes, err)) :
    sel ∈ sels ∧ codes.length = n ∧ QuantTry sb8 s f ps base n sel c (fun i => codes.getD i 0) err ∧
      ∀ sel' ∈ sels, ∀ c' code' err', QuantTry sb8 s f ps base n sel' c' code' err' → err ≤ err' ∧ (err = err' → sel ≤ sel') := by
  rw [quantBlock_eq] at h
  obtain ⟨from_, all, -⟩ := (leastErr_spec (fun r : ℕ × ℕ × List ℕ × ℕ => r.2.2.2) _ none).2 _ h
  obtain ⟨pre, post, split, before, -⟩ := from_.resolve_left (by simp)
  have source {x : ℕ × ℕ × List ℕ × ℕ} (hx : x ∈ sels.filterMap (quantWith sb8 s (quants f (fun i => ps (base + i)) n)
      (maxMag (quants f (fun i => ps (base + i)) n)).1 (maxMag (quants f (fun i => ps (base + i)) n)).2)) :
      x.1 ∈ sels ∧ x.2.2.1.length = n ∧ QuantTry sb8 s f ps base n x.1 x.2.1 (fun i => x.2.2.1.getD i 0) x.2.2.2 := by
    obtain ⟨k, hk, e⟩ := List.mem_filterMap.mp hx
    obtain ⟨a, b, c⟩ := quantWith_spec fin (ok k hk) finS smallS size e
    rw [a]
    exact ⟨hk, b, c⟩
  have order : (sels.filterMap (quantWith sb8 s (quants f (fun i => ps (base + i)) n)
      (maxMag (quants f (fun i => ps (base + i)) n)).1 (maxMag (quants f (fun i => ps (base + i)) n)).2)).Pairwise fun x y => x.1 < y.1 := by
    refine List.pairwise_filterMap.mpr (sorted.imp_of_mem fun {a b} ha hb lt x hx y hy => ?_)
    have := (quantWith_spec fin (ok a ha) finS smallS size hx).1
    have := (quantWith_spec fin (ok b hb) finS smallS size hy).1
    omega
  obtain ⟨mem, len, this⟩ := source (x := (sel, c, codes, err)) (by rw [split]; simp)
  refine ⟨mem, len, this, fun sel' hs c' code' err' t => ?_⟩
  cases e : quantWith sb8 s (quants f (fun i => ps (base + i)) n)
      (maxMag (quants f (fun i => ps (base + i)) n)).1 (maxMag (quants f (fun i => ps (base + i)) n)).2 sel' with
  | none => exact absurd t (quantWith_none fin (ok _ hs) finS smallS e _ _ _)
  | some x =>
    obtain ⟨index, -, t'⟩ := quantWith_spec fin (ok _ hs) finS smallS size e
    have same := (quantTry_unique t t').2
    have listed : x ∈ pre ++ (sel, c, codes, err) :: post := by rw [← split]; exact List.mem_filterMap.mpr ⟨sel', hs, e⟩
    refine ⟨same ▸ all x (split ▸ listed), fun eq => ?_⟩
    rw [split] at order
    rcases List.mem_append.mp listed with hx | hx
    · have : err < x.2.2.2 := before x hx; exact absurd (eq.trans same) this.ne
    · rcases List.mem_cons.mp hx with rfl | hx
      · exact index.le
      · have := (List.pairwise_cons.mp (List.pairwise_append.mp order).2.1).1 x hx
        dsimp only at this; omega

omit sorted in
theorem quantBlock_none_iff : quantBlock sb8 s sels (quants f (fun i => ps (base + i)) n) = none ↔
    ∀ sel ∈ sels, ¬∃ c code err, QuantTry sb8 s f ps base n sel c code err := by
  rw [quantBlock_eq]
  rw [(leastErr_spec (fun r : ℕ × ℕ × List ℕ × ℕ => r.2.2.2) _ none).1]
  simp only [true_and, List.filterMap_eq_nil_iff]
  refine forall₂_congr fun sel hs => ⟨fun none ⟨c, code, err, t⟩ => quantWith_none fin (ok sel hs) finS smallS none c code err t, fun no => ?_⟩
  cases e : quantWith sb8 s (quants f (fun i => ps (base + i)) n)
      (maxMag (quants f (fun i => ps (base + i)) n)).1 (maxMag (quants f (fun i => ps (base + i)) n)).2 sel with
  | none => rfl
  | some x => exact absurd ⟨_, _, _, (quantWith_spec fin (ok sel hs) finS smallS size e).2.2⟩ no

end

end Sys2Proof.Machine
end

section
/-! Superblocks quantised (R130): the superscale, the side entry and the payload. -/

namespace Sys2Proof.Machine

open Sys2Proof.Claims

variable {f : Fmt} {sb8 : Bool}

/-! ### The superscale -/

theorem magnitude_top (usual : f.Usual) : f.magnitude f.inf = 2 ^ ((2 ^ f.eb : ℤ) - 2 + f.low + f.fb) := by
  have four : 4 ≤ 2 ^ f.eb := by simpa using Nat.pow_le_pow_right (n := 2) (by norm_num) usual.1
  have split : f.inf = (2 ^ f.eb - 2) * 2 ^ f.fb + 2 ^ f.fb := by
    obtain ⟨k, hk⟩ := Nat.exists_eq_add_of_le' four
    rw [Fmt.inf, hk, show k + 4 - 1 = k + 4 - 2 + 1 by omega, Nat.succ_mul]
  rw [split, magnitude_grid (by rw [pow_succ]; omega) (.inr le_rfl), Nat.cast_sub (by omega)]
  push_cast
  rw [← zpow_natCast, ← zpow_add₀ (by norm_num)]
  congr 1; ring

theorem unpack_bounds {w : ℕ} (fin : FpFinite f w) {s : Bool} {m : ℕ} {e : ℤ} (h : unpack f w = .fin s m e) : m < 2 ^ (f.fb + 1) ∧ f.low ≤ e := by
  have small : w % 2 ^ f.fb < 2 ^ f.fb := Nat.mod_lt _ (by positivity)
  rw [unpack_eq, if_neg fin.2] at h
  rw [pow_succ, Fmt.low]
  split at h
  · cases h; omega
  · cases h; omega

theorem magnitude_lt_top {w : ℕ} (fin : FpFinite f w) : |(fpValue f w : ℝ)| < f.magnitude f.inf := by
  have := (magnitude_strictMono f) ((fpFinite_iff f w).mp fin).2
  rw [fpValue_eq]
  split <;> simpa [abs_of_nonneg (magnitude_nonneg f _)] using this

/-- A value that is a magnitude of the format is rounded to itself. -/
theorem rounded_exact (usual : f.Usual) {a : ℝ} {n : ℕ} (pos : 0 < a) (value : f.magnitude n = a) (lt : n < f.inf) {r : FpResult}
    (h : Rounded f .rne false a r) : FpFinite f r.1 ∧ (fpValue f r.1 : ℝ) = a := by
  have small := lt.trans (inf_lt f)
  have under : ¬Exceeds f .rne false a := by
    have mono := magnitude_strictMono f
    have a := mono.monotone (show n ≤ f.inf - 1 by omega)
    have b := mono (show f.inf - 1 < f.inf by omega)
    simp only [Exceeds]; linarith
  obtain ⟨-, -, fit⟩ := (rounded_withSign (neg := false) usual pos).mp h
  obtain ⟨finite, -, best, -⟩ := fit (by simp) under
  have near := (best n ((fpFinite_iff f n).mpr ⟨by simpa [Fmt.sign] using sign_add_lt false small, by rwa [Fmt.mag, Nat.mod_eq_of_lt small]⟩)).1
  rw [fpValue_of_lt small, value, withSign_false, sub_self, abs_zero] at near
  exact ⟨finite, by linarith [abs_nonpos_iff.mp near]⟩

/-- The formats of the quantiser's source hold no value that FP32 does not hold. -/
theorem superscale_spec (formats : f ∈ [fp16, bf16, fp32]) {w : ℕ} (fin : FpFinite f w) {s : Bool} {m : ℕ} {e : ℤ} (h : unpack f w = .fin s m e)
    (some : m ≠ 0) : let S := (round fp32 .rne false false m e false).1
    FpFinite fp32 S ∧ S < 2 ^ 31 ∧ fpValue fp32 S = m * 2 ^ e := by
  obtain ⟨digits, place⟩ := unpack_bounds fin h
  have size : (m : ℝ) * 2 ^ e < 2 ^ (128 : ℤ) := by
    obtain ⟨m', e', eq, value⟩ := unpack_of_finite fin
    rw [eq] at h
    cases h
    have lt := magnitude_lt_top fin
    rw [← Rat.cast_abs, abs_fpValue value] at lt
    push_cast at lt
    refine lt.trans_le ?_
    rw [magnitude_top (by rcases List.mem_cons.mp formats with rfl | h
                          · exact usual_fp16
                          · rcases List.mem_cons.mp h with rfl | h
                            · exact usual_bf16
                            · obtain rfl := List.mem_singleton.mp h; exact usual_fp32)]
    refine zpow_le_zpow_right₀ (by norm_num) ?_
    rcases List.mem_cons.mp formats with rfl | h
    · decide
    · rcases List.mem_cons.mp h with rfl | h
      · decide
      · obtain rfl := List.mem_singleton.mp h; decide
  have bounds : m < 2 ^ 24 ∧ -149 ≤ e := by
    rcases List.mem_cons.mp formats with rfl | h
    · exact ⟨digits.trans (by decide), le_trans (by decide) place⟩
    · rcases List.mem_cons.mp h with rfl | h
      · exact ⟨digits.trans (by decide), le_trans (by decide) place⟩
      · obtain rfl := List.mem_singleton.mp h; exact ⟨digits, place⟩
  have log : m.log2 < 24 := (Nat.log2_lt some).mpr bounds.1
  have low : fp32.low = -149 := by decide
  have m0 : (0 : ℝ) < m := by exact_mod_cast Nat.pos_of_ne_zero some
  have pos : (0 : ℝ) < m * 2 ^ e := by positivity
  have cut : Cut fp32 _ _ 0 1 false (m * 2 ^ e) := Cut.exact (f := fp32) (c := (e - max ((m.log2 : ℤ) + e - fp32.fb) fp32.low).toNat) some (by
    rw [low, show ((fp32.fb : ℕ) : ℤ) = 23 from rfl]; omega)
  obtain ⟨n, value⟩ : ∃ n, fp32.magnitude n = m * 2 ^ e :=
    ⟨_, cut.magnitude.trans (not_not.mp fun ne => absurd (cut.inexact.mpr ne) (by decide))⟩
  have top : fp32.magnitude fp32.inf = 2 ^ (128 : ℤ) := by
    rw [magnitude_top usual_fp32, show (2 ^ fp32.eb : ℤ) - 2 + fp32.low + fp32.fb = 128 by rw [low]; norm_num [fp32]]
  have lt : n < fp32.inf := by rw [← (magnitude_strictMono fp32).lt_iff_lt, value, top]; exact size
  have rounded := rounded_round (rm := .rne) (neg := false) (flush := false) usual_fp32 some e
  obtain ⟨finite, eq⟩ := rounded_exact usual_fp32 pos value lt rounded
  exact ⟨finite, rounded_pos_lt usual_fp32 pos rounded rfl, Rat.cast_injective (α := ℝ) (by rw [eq]; push_cast; rfl)⟩

/-! ### Headers and payload -/

theorem makeHeader_spec {sel c : ℕ} (hs : sel < 4) (hc : c < 256) :
    makeHeader sel c % 2 ^ 10 = c + 256 * sel ∧ makeHeader sel c < 2 ^ 11 ∧ (List.range 11).countP (makeHeader sel c).testBit % 2 = 0 := by
  have two : popcount (c + sel * 256) 10 % 2 < 2 := Nat.mod_lt _ (by norm_num)
  have form : makeHeader sel c = c + sel * 256 + popcount (c + sel * 256) 10 % 2 * 2 ^ 10 := rfl
  have small : c + sel * 256 < 2 ^ 10 := by omega
  rw [form]
  generalize hv : c + sel * 256 = v at *
  refine ⟨by omega, by omega, ?_⟩
  have low (j : ℕ) (hj : j ∈ List.range 10) : (v + popcount v 10 % 2 * 2 ^ 10).testBit j = v.testBit j := by
    rw [Nat.add_comm, Nat.mul_comm, Nat.testBit_two_pow_mul_add _ small, if_pos (List.mem_range.mp hj)]
  have top : (v + popcount v 10 % 2 * 2 ^ 10).testBit 10 = decide (popcount v 10 % 2 = 1) := by
    rw [Nat.add_comm, Nat.mul_comm, Nat.testBit_two_pow_mul_add _ small, if_neg (by omega), Nat.sub_self, Nat.testBit_zero, Nat.mod_mod]
  rw [List.range_succ, List.countP_append, List.countP_congr (fun j hj => by rw [low j hj]), List.countP_singleton, top, ← popcount_eq]
  rcases Nat.mod_two_eq_zero_or_one (popcount v 10) with h | h <;> simp [h, Nat.add_mod]

/-- Elements of lists of one length that stand one after another. -/
theorem getD_flatMap {α : Type} {n : ℕ} {codes : α → List ℕ} (l : List α) (len : ∀ x ∈ l, (codes x).length = n) {q i : ℕ} (hq : q < l.length) (hi : i < n) :
    (l.flatMap codes).getD (n * q + i) 0 = (codes l[q]).getD i 0 := by
  induction l generalizing q with
  | nil => simp at hq
  | cons x l ih =>
    have first := len x (.head _)
    rw [List.flatMap_cons]
    cases q with
    | zero => rw [Nat.mul_zero, Nat.zero_add, List.getD_append _ _ _ _ (by omega)]; rfl
    | succ q =>
      rw [List.getD_append_right _ _ _ _ (by rw [first, Nat.mul_succ]; omega), first,
        show n * (q + 1) + i - n = n * q + i by rw [Nat.mul_succ]; omega]
      exact ih (fun y hy => len y (.tail _ hy)) (by simpa using hq)

theorem quantTry_code_lt {S : ℕ} {ps : ℕ → Option ℕ} {base n sel c : ℕ} {code : ℕ → ℕ} {err : ℕ} (h : QuantTry sb8 S f ps base n sel c code err)
    {i : ℕ} (hi : i < n) : code i < 2 ^ codeBits sb8 := by
  obtain ⟨b, -, -, -, slot, -, -, elems⟩ := quantTry_iff.mp h
  cases e : ps (base + i) with
  | none => rw [((elems i hi).1 e).1]; positivity
  | some w =>
    obtain ⟨-, eq, -⟩ := (elems i hi).2 w e
    have small : code i % 2 ^ (if sb8 then 7 else 3) < 2 ^ (if sb8 then 7 else 3) := Nat.mod_lt _ (by positivity)
    have double : 2 ^ codeBits sb8 = 2 ^ (if sb8 then 7 else 3) * 2 := by cases sb8 <;> rfl
    rw [double, Nat.mul_two]
    refine eq.trans_lt (Nat.add_lt_add_of_lt_of_le small ?_)
    split_ifs <;> norm_num

theorem quantTry_c_lt {S : ℕ} {ps : ℕ → Option ℕ} {base n sel c : ℕ} {code : ℕ → ℕ} {err : ℕ} (h : QuantTry sb8 S f ps base n sel c code err) :
    c < 256 := by
  obtain ⟨b, -, fits, -⟩ := quantTry_iff.mp h
  exact fits.1

/-- The side entry that the model builds from four headers. -/
def entryOf (s : ℕ) (h : ℕ → ℕ) : ℕ := 
  s + h 0 * 2 ^ (32 + 16 * 0) + h 1 * 2 ^ (32 + 16 * 1) + h 2 * 2 ^ (32 + 16 * 2) + h 3 * 2 ^ (32 + 16 * 3)

theorem entryOf_spec {s : ℕ} {h : ℕ → ℕ} (hs : s < 2 ^ 32) (hh : ∀ q < 4, h q < 2 ^ 11) :
    entryOf s h < 2 ^ 96 ∧ entryOf s h % 2 ^ 32 = s ∧ ∀ q < 4, entryOf s h / 2 ^ (32 + 16 * q) % 2 ^ 16 = h q := by
  have h0 := hh 0 (by norm_num)
  have h1 := hh 1 (by norm_num)
  have h2 := hh 2 (by norm_num)
  have h3 := hh 3 (by norm_num)
  unfold entryOf
  simp only [Nat.reduceMul, Nat.reduceAdd]
  refine ⟨by omega, by omega, fun q hq => ?_⟩
  interval_cases q <;> simp only [Nat.reduceMul, Nat.reduceAdd] <;> omega

end Sys2Proof.Machine
end

section
/-! The quantiser of VSTQ does what R130 says. -/

namespace Sys2Proof.Machine

open Sys2Proof.Claims

variable {f : Fmt} {sb8 : Bool}

/-- A block of a superblock. -/
theorem quants_block (f : Fmt) (ps : ℕ → Option ℕ) (n : ℕ) {q : ℕ} (hq : q < 4) :
    ((quants f ps (4 * n)).drop (n * q)).take n = quants f (fun i => ps (n * q + i)) n := by
  have : 4 * n - n * q = n + (4 * n - n * q - n) := by
    have : n * q + n ≤ 4 * n := by nlinarith
    omega
  rw [quants, quants, ← List.map_drop, ← List.map_take, List.range_eq_range', List.drop_range', this, ← List.range'_append, List.take_append_of_le_length (by simp)]
  rw [List.take_of_length_le (by simp), List.range'_eq_map_range, List.map_map]
  simp [Function.comp_def]

/-- An element that is an infinity or a NaN. -/
def special : Quant → Bool
  | some (.fin _ _ _) => false
  | some _ => true
  | none => false

/-- A superblock without infinities and NaNs. -/
def quantFinite (sb8 : Bool) (sels : List ℕ) (xs : List Quant) : Except ℕ (ℕ × ℕ) :=
  let s := (round fp32 .rne false false (maxMag xs).1 (maxMag xs).2 false).1
  let blocks := (Machine.span 0 4).map fun q => quantBlock sb8 s sels ((xs.drop (blockLen sb8 * q)).take (blockLen sb8))
  if (maxMag xs).1 = 0 then .ok (0, 0x00FF00FF00FF00FF * 2 ^ 32)
  else if blocks.any (·.isNone) then .error 2
  else .ok (packCodes sb8 ((blocks.filterMap id).flatMap fun b => b.2.2.1),
    ((blocks.filterMap id).zip (Machine.span 0 4)).foldl (fun acc b => acc + makeHeader b.1.1 b.1.2.1 * 2 ^ (32 + 16 * b.2)) s)

theorem quantSuper_eq (sb8 : Bool) (sels : List ℕ) (xs : List Quant) :
    quantSuper sb8 sels xs = if xs.any special then .error 1 else quantFinite sb8 sels xs := by
  have zero : (Machine.span 0 4).foldl (fun acc q => acc + makeHeader 0 255 * 2 ^ (32 + 16 * q)) 0 = 0x00FF00FF00FF00FF * 2 ^ 32 := by decide
  have same : special = fun x => match x with
      | some (.fin _ _ _) => false
      | some _ => true
      | none => false := by
    funext x
    rcases x with _ | ⟨_ | _ | _⟩ <;> rfl
  rw [quantSuper, quantFinite, same, zero] <;> rfl

/-- Whether some element is an infinity or a NaN. -/
theorem any_special_iff {ps : ℕ → Option ℕ} (fits : ∀ i p, ps i = some p → p < 2 ^ f.width) (len : ℕ) :
    (quants f ps len).any special = true ↔ ∃ i p, i < len ∧ ps i = some p ∧ ¬FpFinite f p := by
  rw [quants, List.any_map, List.any_eq_true]
  constructor
  · rintro ⟨i, hi, h⟩
    cases e : ps i with
    | none => simp [e, special] at h
    | some p =>
      refine ⟨i, p, List.mem_range.mp hi, e, fun fin => ?_⟩
      obtain ⟨m, x, eq, -⟩ := unpack_of_finite fin
      simp [e, eq, special] at h
  · rintro ⟨i, p, hi, e, bad⟩
    refine ⟨i, List.mem_range.mpr hi, ?_⟩
    rw [← unpack_eq_fin_iff (fits i p e)] at bad
    simp only [Function.comp_apply, e, Option.map_some]
    cases h : unpack f p with
    | nan => rfl
    | inf => rfl
    | fin n m x => exact absurd ⟨n, m, x, h⟩ bad

section

variable {ps : ℕ → Option ℕ} {sels : List ℕ}

/-- The blocks of a superblock as the model quantises them. -/
def blockCodes (sb8 : Bool) (f : Fmt) (ps : ℕ → Option ℕ) (sels : List ℕ) (s q : ℕ) : Option (ℕ × ℕ × List ℕ × ℕ) :=
  quantBlock sb8 s sels (quants f (fun i => ps (blockLen sb8 * q + i)) (blockLen sb8))

/-- The headers of blocks. -/
def headersOf (l : List (ℕ × ℕ × List ℕ × ℕ)) (q : ℕ) : ℕ := ((l[q]?).map fun x => makeHeader x.1 x.2.1).getD 0

theorem headersOf_eq {l : List (ℕ × ℕ × List ℕ × ℕ)} {q : ℕ} (h : q < l.length) : headersOf l q = makeHeader l[q].1 l[q].2.1 := by
  rw [headersOf, List.getElem?_eq_getElem h]; rfl

theorem foldl_places {α : Type} (s : ℕ) (g : α → ℕ) (w : ℕ → ℕ) (a b c d : α) :
    ([a, b, c, d].zip (Machine.span 0 4)).foldl (fun acc b => acc + g b.1 * w b.2) s = s + g a * w 0 + g b * w 1 + g c * w 2 + g d * w 3 := by
  simp [Machine.span]

theorem foldl_headers (s : ℕ) (a b c d : ℕ × ℕ × List ℕ × ℕ) :
    ([a, b, c, d].zip (Machine.span 0 4)).foldl (fun acc b => acc + makeHeader b.1.1 b.1.2.1 * 2 ^ (32 + 16 * b.2)) s =
      entryOf s (headersOf [a, b, c, d]) := by
  have places := foldl_places s (fun b : ℕ × ℕ × List ℕ × ℕ => makeHeader b.1 b.2.1) (fun q => 2 ^ (32 + 16 * q)) a b c d
  beta_reduce at places
  rw [entryOf, headersOf_eq (by simp), headersOf_eq (by simp), headersOf_eq (by simp), headersOf_eq (by simp)]
  exact places

/-- The result of a superblock whose elements are all finite, not all zero. -/
def superResult (sb8 : Bool) (s : ℕ) (bs : ℕ → Option (ℕ × ℕ × List ℕ × ℕ)) : Except ℕ (ℕ × ℕ) :=
  match bs 0, bs 1, bs 2, bs 3 with
  | some a, some b, some c, some d => .ok (packCodes sb8 ([a, b, c, d].flatMap fun x => x.2.2.1),
      entryOf s (headersOf [a, b, c, d]))
  | _, _, _, _ => .error 2

theorem quantSuper_finite (fits : ∀ i p, ps i = some p → p < 2 ^ f.width) (fin : ∀ i p, i < 4 * blockLen sb8 → ps i = some p → FpFinite f p) :
    quantSuper sb8 sels (quants f ps (4 * blockLen sb8)) =
      if (maxMag (quants f ps (4 * blockLen sb8))).1 = 0 then .ok (0, 0x00FF00FF00FF00FF * 2 ^ 32)
      else superResult sb8 (round fp32 .rne false false (maxMag (quants f ps (4 * blockLen sb8))).1 (maxMag (quants f ps (4 * blockLen sb8))).2 false).1
        (blockCodes sb8 f ps sels (round fp32 .rne false false (maxMag (quants f ps (4 * blockLen sb8))).1 (maxMag (quants f ps (4 * blockLen sb8))).2 false).1) := by
  have ordinary : ¬(quants f ps (4 * blockLen sb8)).any special = true := fun h => by
    obtain ⟨i, p, hi, e, bad⟩ := (any_special_iff fits _).mp h
    exact bad (fin i p hi e)
  rw [quantSuper_eq, if_neg ordinary, quantFinite]
  congr 1
  generalize (round fp32 .rne false false (maxMag (quants f ps (4 * blockLen sb8))).1 (maxMag (quants f ps (4 * blockLen sb8))).2 false).1 = s
  have four : (Machine.span 0 4).map (fun q => quantBlock sb8 s sels (((quants f ps (4 * blockLen sb8)).drop (blockLen sb8 * q)).take (blockLen sb8))) =
      [blockCodes sb8 f ps sels s 0, blockCodes sb8 f ps sels s 1, blockCodes sb8 f ps sels s 2, blockCodes sb8 f ps sels s 3] := by
    simp only [Machine.span, List.map_cons, List.map_nil, blockCodes]
    rw [quants_block f ps _ (by norm_num), quants_block f ps _ (by norm_num), quants_block f ps _ (by norm_num), quants_block f ps _ (by norm_num)]
  rw [four, superResult]
  rcases blockCodes sb8 f ps sels s 0 with _ | a
  · simp
  rcases blockCodes sb8 f ps sels s 1 with _ | b
  · simp
  rcases blockCodes sb8 f ps sels s 2 with _ | c
  · simp
  rcases blockCodes sb8 f ps sels s 3 with _ | d
  · simp
  simp only [← foldl_headers]
  simp

end

/-- The codes of four blocks are the 128 bytes of a superblock. -/
theorem packCodes_lt {l : List (ℕ × ℕ × List ℕ × ℕ)} (four : l.length = 4) (whole : ∀ x ∈ l, x.2.2.1.length = blockLen sb8)
    (codes : ∀ y ∈ l.flatMap fun x => x.2.2.1, y < 2 ^ codeBits sb8) : packCodes sb8 (l.flatMap fun x => x.2.2.1) < 2 ^ 1024 := by
  have total : (l.flatMap fun x => x.2.2.1).length = 4 * blockLen sb8 := by
    rw [List.length_flatMap, List.map_congr_left whole, List.map_const', List.sum_replicate, four, smul_eq_mul]
  rw [packCodes_eq]
  refine (Nat.ofDigits_lt_base_pow_length (by cases sb8 <;> norm_num [codeBits]) codes).trans_eq ?_
  rw [total, ← pow_mul]
  cases sb8 <;> rfl

/-- What R130 says of block `q` of a superblock that was quantised. -/
def BlockQuantised (sb8 : Bool) (S : ℕ) (f : Fmt) (ps : ℕ → Option ℕ) (sels : List ℕ) (payload entry q : ℕ) : Prop :=
  let header := entry / 2 ^ (32 + 16 * q) % 2 ^ 16
  ∃ sel ∈ sels, ∃ c code err, QuantTry sb8 S f ps (blockLen sb8 * q) (blockLen sb8) sel c code err ∧
    (∀ sel' ∈ sels, ∀ c' code' err', QuantTry sb8 S f ps (blockLen sb8 * q) (blockLen sb8) sel' c' code' err' → err ≤ err' ∧ (err = err' → sel ≤ sel')) ∧
    header % 2 ^ 10 = c + 256 * sel ∧ header < 2 ^ 11 ∧ (List.range 11).countP header.testBit % 2 = 0 ∧
    ∀ i, i < blockLen sb8 → payload / 2 ^ (codeBits sb8 * (blockLen sb8 * q + i)) % 2 ^ codeBits sb8 = code i

/-- Where each block has a usable selector, the superblock is the codes and headers of its blocks. -/
theorem superResult_quantised {sels : List ℕ} {ps : ℕ → Option ℕ} {S : ℕ}
    (inner : ∀ q, q < 4 → ∀ j w, j < blockLen sb8 → ps (blockLen sb8 * q + j) = some w → FpFinite f w) (okSel : ∀ sel ∈ sels, SelectorOk sb8 sel)
    (sorted : sels.Pairwise (· < ·)) (finS : FpFinite fp32 S) (smallS : S < 2 ^ 31)
    (usable : ∀ q, q < 4 → ∃ sel ∈ sels, ∃ c code err, QuantTry sb8 S f ps (blockLen sb8 * q) (blockLen sb8) sel c code err) :
    ∃ payload entry, superResult sb8 S (blockCodes sb8 f ps sels S) = .ok (payload, entry) ∧ payload < 2 ^ 1024 ∧ entry < 2 ^ 96 ∧ entry % 2 ^ 32 = S ∧
      ∀ q, q < 4 → BlockQuantised sb8 S f ps sels payload entry q := by
  have short : blockLen sb8 ≤ 64 := by cases sb8 <;> decide
  have each (q : ℕ) (hq : q < 4) : ∃ r : ℕ × ℕ × List ℕ × ℕ, blockCodes sb8 f ps sels S q = some r := by
    rw [← Option.isSome_iff_exists, ← Option.ne_none_iff_isSome]
    intro none
    obtain ⟨sel, hs, use⟩ := usable q hq
    exact (quantBlock_none_iff (inner q hq) okSel finS smallS short).mp none sel hs use
  have spec (q : ℕ) (hq : q < 4) {r : ℕ × ℕ × List ℕ × ℕ} (h : blockCodes sb8 f ps sels S q = some r) :=
    quantBlock_spec (inner q hq) okSel sorted finS smallS short (sel := r.1) (c := r.2.1) (codes := r.2.2.1) (err := r.2.2.2) h
  obtain ⟨a, ha⟩ := each 0 (by norm_num)
  obtain ⟨b, hb⟩ := each 1 (by norm_num)
  obtain ⟨c, hc⟩ := each 2 (by norm_num)
  obtain ⟨d, hd⟩ := each 3 (by norm_num)
  have listed (q : ℕ) (hq : q < 4) : blockCodes sb8 f ps sels S q = some ([a, b, c, d][q]) := by
    interval_cases q <;> assumption
  have given (x : ℕ × ℕ × List ℕ × ℕ) (hx : x ∈ [a, b, c, d]) : x.2.2.1.length = blockLen sb8 ∧ ∀ y ∈ x.2.2.1, y < 2 ^ codeBits sb8 := by
    obtain ⟨q, hq, rfl⟩ := List.mem_iff_getElem.mp hx
    obtain ⟨-, len, t, -⟩ := spec q hq (listed q hq)
    refine ⟨len, fun y hy => ?_⟩
    obtain ⟨j, hj, rfl⟩ := List.mem_iff_getElem.mp hy
    have := quantTry_code_lt t (i := j) (len ▸ hj)
    rwa [List.getD_eq_getElem _ _ hj] at this
  have codes : ∀ y ∈ [a, b, c, d].flatMap fun x => x.2.2.1, y < 2 ^ codeBits sb8 := fun y hy => by
    obtain ⟨x, hx, hy⟩ := List.mem_flatMap.mp hy
    exact (given x hx).2 y hy
  have good (q : ℕ) (hq : q < 4) : [a, b, c, d][q].1 < 4 ∧ [a, b, c, d][q].2.1 < 256 := by
    obtain ⟨mem, -, t, -⟩ := spec q hq (listed q hq)
    refine ⟨?_, quantTry_c_lt t⟩
    have : _ < if sb8 then 2 else 3 := okSel _ mem
    split_ifs at this <;> omega
  obtain ⟨entrySize, entryLow, entryHeader⟩ := entryOf_spec (s := S) (h := headersOf [a, b, c, d]) (by omega) fun q hq => by
    rw [headersOf_eq hq]
    exact (makeHeader_spec (good q hq).1 (good q hq).2).2.1
  have result : superResult sb8 S (blockCodes sb8 f ps sels S) = .ok (packCodes sb8 ([a, b, c, d].flatMap fun x => x.2.2.1),
      entryOf S (headersOf [a, b, c, d])) := by
    rw [superResult, ha, hb, hc, hd]
  refine ⟨_, _, result, ?_, entrySize, entryLow, fun q hq => ?_⟩
  · exact packCodes_lt rfl (fun x hx => (given x hx).1) codes
  · obtain ⟨mem, len, t, best⟩ := spec q hq (listed q hq)
    obtain ⟨low, size, parity⟩ := makeHeader_spec (good q hq).1 (good q hq).2
    simp only [BlockQuantised]
    rw [entryHeader q hq, headersOf_eq hq]
    refine ⟨_, mem, _, _, _, t, best, low, size, parity, fun i hi => ?_⟩
    rw [packCodes_eq, ofDigits_field codes, getD_flatMap _ (fun x hx => (given x hx).1) hq hi]

/-- The last clause of the vector stores: what the quantiser gives. -/
theorem quantSuper_quantised {sels : List ℕ} {ps : ℕ → Option ℕ} (formats : f ∈ [fp16, bf16, fp32]) (sorted : sels.Pairwise (· < ·))
    (ok : ∀ sel ∈ sels, sel < if sb8 then 2 else 3) (fits : ∀ i p, ps i = some p → p < 2 ^ f.width) :
    Quantised sb8 sels f ps (quantSuper sb8 sels (quants f ps (if sb8 then 128 else 256))) := by
  have len : (if sb8 then 128 else 256) = 4 * blockLen sb8 := by cases sb8 <;> rfl
  have bits : (if sb8 then 8 else 4) = codeBits sb8 := by cases sb8 <;> rfl
  have block : (if sb8 then 32 else 64) = blockLen sb8 := rfl
  have short : blockLen sb8 ≤ 64 := by cases sb8 <;> decide
  unfold Quantised
  dsimp only
  rw [len, block, bits]
  refine ⟨fun ⟨i, p, hi, e, bad⟩ => ?_, fun fin => ?_⟩
  · rw [quantSuper_eq, if_pos ((any_special_iff fits _).mpr ⟨i, p, hi, e, bad⟩)]
  · rw [quantSuper_finite fits fin]
    obtain ⟨all, from_⟩ := maxMag_spec (f := f) (p := ps) (n := 4 * blockLen sb8) fun i w hi e => fin i w hi e
    generalize maxMag (quants f ps (4 * blockLen sb8)) = M at all from_
    have zeroIff : (∀ i p, i < 4 * blockLen sb8 → ps i = some p → fpValue f p = 0) ↔ M.1 = 0 := by
      constructor
      · intro zero
        rcases from_ with e | ⟨i, w, hi, hw, eq, -⟩
        · rw [e]
        · rw [zero i w hi hw, abs_zero] at eq
          exact_mod_cast (mul_eq_zero.mp eq.symm).resolve_right (by positivity)
      · intro zero i p hi hp
        have := all i hi
        rw [elemMag_some hp, zero] at this
        simpa using this
    rw [zeroIff]
    refine ⟨fun zero => by rw [if_pos zero], fun some_ => ?_⟩
    rw [if_neg some_]
    obtain ⟨i, w, hi, hw, eq, s, unp⟩ := from_.resolve_left (fun e => some_ (by rw [e]))
    obtain ⟨finS, smallS, value⟩ := superscale_spec formats (fin i w hi hw) unp some_
    generalize (round fp32 .rne false false M.1 M.2 false).1 = S at finS smallS value
    have inner (q : ℕ) (hq : q < 4) (j w : ℕ) (hj : j < blockLen sb8) (e : ps (blockLen sb8 * q + j) = some w) : FpFinite f w :=
      fin _ w (by nlinarith) e
    have okSel : ∀ sel ∈ sels, SelectorOk sb8 sel := ok
    have noneIff (q : ℕ) (hq : q < 4) := quantBlock_none_iff (inner q hq) okSel finS smallS short
    refine ⟨S, finS, smallS, fun i p hi hp => ?_, ⟨i, w, hi, hw, by rw [value, eq]⟩, fun ⟨q, hq, no⟩ => ?_, fun usable => ?_⟩
    · rw [value, ← elemMag_some hp]; exact all i hi
    · have empty : blockCodes sb8 f ps sels S q = none := (noneIff q hq).mpr no
      rw [superResult]
      split
      next a b c d ha hb hc hd => interval_cases q <;> simp_all
      next => rfl
    · exact superResult_quantised inner okSel sorted finS smallS usable

end Sys2Proof.Machine
end

section
/-! VSTQ (R129 to R131, R395): quantised superblocks are queued in ascending order. -/

namespace Sys2Proof.Machine

open Sys2Proof.Claims

/-! ### Accesses of two lines -/

section
variable {s : State} {who : Who} {kind : Access} {va n pa qa : Nat}

/-- The rest of a line, and then what follows it. -/
theorem run_locateFrom_lines {m : Nat} {rest : List Loc} (pos : 0 < m) (line : va % 64 + m = 64) (low : va + m < 2 ^ 64)
    (more : (locateFrom who kind (va + m) none n).run s = (.ok rest, s)) :
    (locateFrom who kind va (some (.phys pa)) (m + n)).run s = (.ok (physLocs pa m ++ rest), s) := by
  induction m generalizing va pa with
  | zero => omega
  | succ m ih =>
    have inside : (va + 1) % 2 ^ 64 = va + 1 := Nat.mod_eq_of_lt (by omega)
    rw [physLocs_succ, show m + 1 + n = m + n + 1 by omega]
    unfold locateFrom
    simp only [run_bind, run_pure, inside, Loc.plus]
    rcases Nat.eq_zero_or_pos m with rfl | some
    · have ends : ((va + 1) % 64 == 0) = true := by simp; omega
      rw [Nat.zero_add] at more ⊢
      simp [ends, more, physLocs]
    · have same : ((va + 1) % 64 == 0) = false := by simp; omega
      rw [show va + (m + 1) = va + 1 + m by omega] at more
      simp [same, ih (pa := pa + 1) some (by omega) (by omega) more]

/-- Two lines that follow each other. -/
theorem run_locateBytes_lines (first : Mapped s who kind va 64 pa) (second : Mapped s who kind (va + 64) 64 qa) :
    (locateBytes who kind va 128).run s = (.ok (placesAt pa 64 ++ placesAt qa 64), s) := by
  obtain ⟨low, _, whole, _, _⟩ := id first
  obtain ⟨low', _, whole', _, _⟩ := id second
  have aligned : va % 64 = 0 := by omega
  have more : (locateFrom who kind (va + 1 + 63) none 64).run s = (.ok (physLocs qa 64), s) :=
    (reaches_of_mapped second).run_locateBytes low' (by norm_num) whole'
  have inside : (va + 1) % 2 ^ 64 = va + 1 := Nat.mod_eq_of_lt (by omega)
  have same : ((va + 1) % 64 == 0) = false := by simp; omega
  have rest := run_locateFrom_lines (pa := pa + 1) (show 0 < 63 by norm_num) (by omega) (by omega) more
  rw [locateBytes, show 128 = 63 + 64 + 1 from rfl, locateFrom]
  simp only [run_bind, (reaches_of_mapped first).run_locate low, inside, same, Loc.plus, Bool.false_eq_true, if_false, rest, run_pure]
  rw [show placesAt pa 64 = .phys pa :: physLocs (pa + 1) 63 from physLocs_succ pa 63]
  rfl

theorem run_placesOf_lines (first : Mapped s who .write va 64 pa) (second : Mapped s who .write (va + 64) 64 qa) :
    (placesOf who .write va 128).run s = (.ok (placesAt pa 64 ++ placesAt qa 64), s) := by
  simp [placesOf, run_locateBytes_lines first second]

end

theorem leBytes_add (m n v : Nat) : leBytes (m + n) v = leBytes m v ++ leBytes n (v / 256 ^ m) := by
  have split : v = v % 256 ^ m + v / 256 ^ m * 256 ^ m := by rw [Nat.mul_comm]; exact (Nat.mod_add_div _ _).symm
  have same : leBytes m v = leBytes m (v % 256 ^ m) := by
    refine List.map_congr_left fun k hk => BitVec.eq_of_toNat_eq ?_
    have hk := List.mem_range.mp hk
    obtain ⟨e, rfl⟩ : ∃ e, m = k + e + 1 := ⟨m - k - 1, by omega⟩
    rw [BitVec.toNat_ofNat, BitVec.toNat_ofNat, show 256 ^ (k + e + 1) = 256 ^ k * (256 * 256 ^ e) by ring, Nat.mod_mul_right_div_self,
      Nat.mod_mod_of_dvd _ ⟨256 ^ e, rfl⟩]
  conv_lhs => rw [split, leBytes_append _ _ _ _ (Nat.mod_lt _ (by positivity))]
  rw [same]

/-! ### Superblocks -/

section
variable {s : State} {d a b : BitVec 5} {m : BitVec 1} {r : BitVec 3}

theorem active_iff (x : Ctx) (m : BitVec 1) (r : BitVec 3) (i : Nat) : x.active m r i = true ↔ On x m r i := by
  simp only [Ctx.active, On, Bool.and_eq_true, Bool.or_eq_true, decide_eq_true_eq, beq_iff_eq]

/-- The elements of superblock `j` that the quantiser sees: none for those that are not Active. -/
def superSource (x : Ctx) (d : BitVec 5) (m : BitVec 1) (r : BitVec 3) (len j : Nat) : List Quant :=
  (List.range len).map fun k =>
    if x.active m r (j * len + k) then some (unpack (regGet x.tag d).fmt (vel x d (sewBits x) (j * len + k))) else none

theorem quantSource_eq (x : Ctx) (len j : Nat) :
    (Machine.span (j * len) len).map (x.quantSource d (regGet x.tag d).fmt m r) = superSource x d m r len j := by
  rw [span_eq_range', List.range'_eq_map_range, List.map_map, superSource]
  exact List.map_congr_left fun k _ => by simp only [Function.comp_apply, Ctx.quantSource, at_eq_vel]

/-- The store that a quantised superblock becomes. -/
def superStore (x : Ctx) (pa : Nat → Nat → Nat) (c : Nat → Nat × Nat) (j : Nat) : QStore :=
  queued x ((if x.mfmt.toNat / 2 ^ 8 % 4 = 1 then [] else cells (pa j 0) 64 (c j).1 ++ cells (pa j 1) 64 ((c j).1 / 2 ^ 512)) ++
    (if x.mfmt.toNat / 2 ^ 8 % 4 = 2 then [] else cells (pa j 2) 16 (c j).2)) true

/-- The places of a superblock and its side entry are mapped. -/
def SuperMapped (s : State) (a b : BitVec 5) (pa : Nat → Nat → Nat) (j : Nat) : Prop :=
  (s.me.mfmt.toNat / 2 ^ 8 % 4 ≠ 1 → Mapped s s.who .write (((s.me.reg a).toNat + 128 * j) % 2 ^ 64) 64 (pa j 0) ∧
    Mapped s s.who .write (((s.me.reg a).toNat + 128 * j + 64) % 2 ^ 64) 64 (pa j 1)) ∧
  (s.me.mfmt.toNat / 2 ^ 8 % 4 ≠ 2 → Mapped s s.who .write (((s.me.reg b).toNat + 16 * j) % 2 ^ 64) 16 (pa j 2))

theorem second_line {base j : Nat} (low : (base + 128 * j) % 2 ^ 64 < 2 ^ 55) : (base + 128 * j + 64) % 2 ^ 64 = (base + 128 * j) % 2 ^ 64 + 64 := by omega

/-- The accesses of a superblock and its places. -/
theorem run_superPlaces {pa : Nat → Nat → Nat} {j : Nat} (mapped : SuperMapped s a b pa j) (qs : List QStore) :
    (elementPlaces s.who .write ((if s.me.side != 1 then [(((s.me.reg a).toNat + 128 * j) % 2 ^ 64, 128)] else []) ++
      (if s.me.side != 2 then [(((s.me.reg b).toNat + 16 * j) % 2 ^ 64, 16)] else []))).run (withStores s qs) =
      (.ok (.ok ((if s.me.side != 1 then placesAt (pa j 0) 64 ++ placesAt (pa j 1) 64 else []) ++
        (if s.me.side != 2 then placesAt (pa j 2) 16 else []))), withStores s qs) := by
  obtain ⟨body, entry⟩ := mapped
  rw [← side_eq] at body entry
  have view : SameView s (withStores s qs) s.who { s.who with since := (withStores s qs).clock } :=
    let ⟨tlb, mem, poison, pkgs, _, _, _, _⟩ := SameView.withStores s qs s.who
    ⟨tlb, mem, poison, pkgs, rfl, rfl, rfl, rfl⟩
  refine run_elementPlaces_of_placesAll ?_
  generalize ({ s.who with since := (withStores s qs).clock } : Who) = agent at view ⊢
  have one (h : s.me.side ≠ 1) : (placesOf agent .write (((s.me.reg a).toNat + 128 * j) % 2 ^ 64) 128).run (withStores s qs) =
      (.ok (placesAt (pa j 0) 64 ++ placesAt (pa j 1) 64), withStores s qs) := by
    obtain ⟨first, second⟩ := body h
    rw [second_line first.1] at second
    exact run_placesOf_lines (view.mapped first) (view.mapped second)
  have two (h : s.me.side ≠ 2) := run_placesOf (view.mapped (entry h))
  generalize ((s.me.reg a).toNat + 128 * j) % 2 ^ 64 = va at one ⊢
  generalize ((s.me.reg b).toNat + 16 * j) % 2 ^ 64 = vb at two ⊢
  by_cases h1 : s.me.side = 1 <;> by_cases h2 : s.me.side = 2
  · omega
  · simp [h1, placesAll, two h2]
  · simp [h2, placesAll, one h1]
  · simp [h1, h2, placesAll, one h1, two h2]

theorem zip_superBytes (x : Ctx) (pa : Nat → Nat → Nat) (c : Nat → Nat × Nat) (j : Nat) :
    ((if x.side != 1 then placesAt (pa j 0) 64 ++ placesAt (pa j 1) 64 else []) ++ (if x.side != 2 then placesAt (pa j 2) 16 else [])).zip
      ((if x.side != 1 then bytesOf 128 (c j).1 else []) ++ (if x.side != 2 then bytesOf 16 (c j).2 else [])) =
      (if x.mfmt.toNat / 2 ^ 8 % 4 = 1 then [] else cells (pa j 0) 64 (c j).1 ++ cells (pa j 1) 64 ((c j).1 / 2 ^ 512)) ++
        (if x.mfmt.toNat / 2 ^ 8 % 4 = 2 then [] else cells (pa j 2) 16 (c j).2) := by
  have body : (placesAt (pa j 0) 64 ++ placesAt (pa j 1) 64).zip (bytesOf 128 (c j).1) = cells (pa j 0) 64 (c j).1 ++ cells (pa j 1) 64 ((c j).1 / 2 ^ 512) := by
    rw [bytesOf_eq_leBytes, show 128 = 64 + 64 from rfl, leBytes_add, List.zip_append (by simp [length_leBytes, length_placesAt]), cells, cells,
      show (256 : Nat) ^ 64 = 2 ^ 512 by rw [show 256 = 2 ^ 8 from rfl, ← pow_mul]]
  have entry : (placesAt (pa j 2) 16).zip (bytesOf 16 (c j).2) = cells (pa j 2) 16 (c j).2 := by rw [bytesOf_eq_leBytes]; rfl
  rw [← side_eq]
  by_cases h1 : x.side = 1 <;> by_cases h2 : x.side = 2
  · omega
  · simp [h1, entry]
  · simp [h2, body]
  · simp only [h1, h2, bne_iff_ne, ne_eq, not_false_eq_true, if_true, if_false]
    rw [List.zip_append (by simp [bytesOf_eq_leBytes, length_leBytes, length_placesAt]), body, entry]

theorem run_storeSuper {pa : Nat → Nat → Nat} {sels : List Nat} {c : Nat → Nat × Nat} {j : Nat} (mapped : SuperMapped s a b pa j)
    (code : quantSuper (s.me.enc == .sb8) sels (superSource s.me d m r (superLen (s.me.enc == .sb8)) j) = .ok (c j)) (qs : List QStore) :
    (storeSuper s.me s.who d (s.me.reg a).toNat (s.me.reg b).toNat m r sels j).run (withStores s qs) =
      (.ok (), withStore (withStores s qs) (superStore s.me pa c j)) := by
  have me := me_withStores s qs
  have enc : (withStores s qs).me.enc = s.me.enc := by rw [me]; rfl
  have side : (withStores s qs).me.side = s.me.side := by rw [me]; rfl
  have source (len : Nat) : (Machine.span (j * len) len).map ((withStores s qs).me.quantSource d (regGet (withStores s qs).me.tag d).fmt m r) =
      superSource s.me d m r len j := by rw [me]; exact quantSource_eq s.me len j
  unfold storeSuper
  simp only [run_bind, run_getS, enc, side, source, code, run_superPlaces mapped qs, zip_superBytes, run_queueStore, superStore]

theorem run_storeSupers {pa : Nat → Nat → Nat} {sels : List Nat} {c : Nat → Nat × Nat} {els : List Nat} (mapped : ∀ j ∈ els, SuperMapped s a b pa j)
    (codes : ∀ j ∈ els, quantSuper (s.me.enc == .sb8) sels (superSource s.me d m r (superLen (s.me.enc == .sb8)) j) = .ok (c j)) (qs : List QStore) :
    (each (storeSuper s.me s.who d (s.me.reg a).toNat (s.me.reg b).toNat m r sels) els).run (withStores s qs) =
      (.ok (), withStores s (qs ++ els.map (superStore s.me pa c))) := by
  induction els generalizing qs with
  | nil => simp [each]
  | cons j els ih =>
    simp only [each, run_bind, run_storeSuper (mapped j (.head _)) (codes j (.head _)), ← withStores_append,
      ih (fun i hi => mapped i (.tail _ hi)) fun i hi => codes i (.tail _ hi)]
    simp

/-- The tag and the element width of a source of the quantiser. -/
theorem run_vstqTag (tag : (regGet s.me.tag d = .fp32 ∧ sewBits s.me = 32) ∨ ((regGet s.me.tag d = .bf16 ∨ regGet s.me.tag d = .fp16) ∧ sewBits s.me = 16)) (low : Nat) :
    (tagIn d (fun t => (t == .fp32 && s.me.width == 32) || ((t == .bf16 || t == .fp16) && s.me.width == 16)) low).run s = (.ok (), s) :=
  run_tagIn (by rw [width_eq_sewBits]; rcases tag with ⟨t, w⟩ | ⟨t | t, w⟩ <;> simp [t, w]) _

theorem selectors_eq (x : Ctx) (sb8 : Bool) : (Machine.span 0 (if sb8 then 2 else 3)).filter (bit x.selMask) =
    (List.range (if sb8 then 2 else 3)).filter fun k => x.mfmt.getLsbD (5 + k) := by
  rw [span_zero]
  refine List.filter_congr fun k hk => ?_
  have hk : k < 3 := by have := List.mem_range.mp hk; split at this <;> omega
  rw [bit, Ctx.selMask, field, Nat.testBit_mod_two_pow, Nat.testBit_shiftRight, BitVec.testBit_toNat]
  simp [hk]

/-- VSTQ to mapped places queues its superblocks. -/
theorem vstq_queues {pa : Nat → Nat → Nat} {c : Nat → Nat × Nat} {els : List Nat}
    (on : s.myPkg.enable.getLsbD 2 = true) (sb : (encOf s.me).isSb = true) (sideReg : s.me.mfmt.toNat / 2 ^ 8 % 4 = 2 ∨ b ≠ 0)
    (sels : (List.range (if (encOf s.me == .sb8) then 2 else 3)).filter (fun k => s.me.mfmt.getLsbD (5 + k)) ≠ [])
    (tag : (regGet s.me.tag d = .fp32 ∧ sewBits s.me = 32) ∨ ((regGet s.me.tag d = .bf16 ∨ regGet s.me.tag d = .fp16) ∧ sewBits s.me = 16))
    (base : (s.me.reg a).toNat % 128 = 0) (sideBase : s.me.mfmt.toNat / 2 ^ 8 % 4 = 2 ∨ (s.me.reg b).toNat % 16 = 0)
    (lists : Lists els fun j => s.me.vstart.toNat / superLen (encOf s.me == .sb8) ≤ j ∧
      j < (s.me.vl.toNat + superLen (encOf s.me == .sb8) - 1) / superLen (encOf s.me == .sb8))
    (codes : ∀ j ∈ els, quantSuper (encOf s.me == .sb8) ((List.range (if (encOf s.me == .sb8) then 2 else 3)).filter fun k => s.me.mfmt.getLsbD (5 + k))
      (superSource s.me d m r (superLen (encOf s.me == .sb8)) j) = .ok (c j))
    (mapped : ∀ j ∈ els, SuperMapped s a b pa j) :
    ∃ u, exec (.vstq d a b m r) s = .next u ∧ OnlyMe s u ∧
      u.me = { s.me with
        vstart := 0, pc := nextPc s.me.pc 1, stall := [], busy := false, vstores := s.me.vstores ++ els.map (superStore s.me pa c) } := by
  have supers : Machine.span (s.me.vstart.toNat / superLen (encOf s.me == .sb8))
      ((s.me.vl.toNat + superLen (encOf s.me == .sb8) - 1) / superLen (encOf s.me == .sb8) - s.me.vstart.toNat / superLen (encOf s.me == .sb8)) = els := by
    rw [span_eq_range']
    refine (List.pairwise_lt_range' _).eq_of_mem_iff lists.1 fun k => ?_
    rw [lists.2, List.mem_range'_1]; omega
  have whole := run_storeSupers (s := s) (d := d) (m := m) (r := r) mapped (by rw [enc_eq]; exact codes) []
  have opens : (stashOpen (els.flatMap fun j => (if s.me.side != 1 then [va64 (s.me.reg a) (128 * j)] else []) ++
      (if s.me.side != 2 then [va64 (s.me.reg b) (16 * j)] else []))).run s = (.ok (), s) := run_stashOpen fun v hv window => by
    obtain ⟨j, hj, hv⟩ := List.mem_flatMap.mp hv
    obtain ⟨body, entry⟩ := mapped j hj
    rw [← side_eq] at body entry
    have low : v < 2 ^ 55 := by
      rcases List.mem_append.mp hv with hv | hv
      · split at hv
        next h => rw [List.mem_singleton.mp hv, va64_eq]; exact (body (by simpa using h)).1.1
        next => cases hv
      · split at hv
        next h => rw [List.mem_singleton.mp hv, va64_eq]; exact (entry (by simpa using h)).1
        next => cases hv
    rw [inWindow_of_lt low] at window
    cases window
  have c1 : (s.me.side == 2 || b != 0#5) = true := by rw [side_eq]; simpa using sideReg
  have bases := run_sbBases (s := s) (p := s.me.reg a) (q := s.me.reg b) (uses := s.me.side != 2) base fun uses => by
    rw [side_eq] at uses
    exact sideBase.resolve_left (by simpa using uses)
  have run : exec (.vstq d a b m r) s = complete (do
    feature 2 (.vstq d a b m r)
    check s.me.enc.isSb 0x085 (instrWord (.vstq d a b m r))
    check (s.me.side == 2 || b != 0#5) 0x085 (instrWord (.vstq d a b m r))
    tagIn d (fun t => (t == .fp32 && s.me.width == 32) || ((t == .bf16 || t == .fp16) && s.me.width == 16))
      (if s.me.width = 32 then 7 else if s.me.width = 16 then 5 else 0)
    check (!((Machine.span 0 (if (s.me.enc == .sb8) then 2 else 3)).filter (bit s.me.selMask)).isEmpty) 0x083 (instrWord (.vstq d a b m r))
    sbBases (s.me.reg a) (s.me.reg b) (s.me.side != 2)
    stashOpen ((Machine.span (s.me.vstart.toNat / superLen (s.me.enc == .sb8))
      ((s.me.vl.toNat + superLen (s.me.enc == .sb8) - 1) / superLen (s.me.enc == .sb8) - s.me.vstart.toNat / superLen (s.me.enc == .sb8))).flatMap fun j =>
        (if s.me.side != 1 then [va64 (s.me.reg a) (128 * j)] else []) ++ (if s.me.side != 2 then [va64 (s.me.reg b) (16 * j)] else []))
    each (storeSuper s.me s.who d (s.me.reg a).toNat (s.me.reg b).toNat m r ((Machine.span 0 (if (s.me.enc == .sb8) then 2 else 3)).filter (bit s.me.selMask)))
      (Machine.span (s.me.vstart.toNat / superLen (s.me.enc == .sb8))
      ((s.me.vl.toNat + superLen (s.me.enc == .sb8) - 1) / superLen (s.me.enc == .sb8) - s.me.vstart.toNat / superLen (s.me.enc == .sb8)))
    modMe fun y => { y with vstart := 0 }) s := rfl
  rw [run]
  have some : (!((List.range (if (encOf s.me == .sb8) then 2 else 3)).filter fun k => s.me.mfmt.getLsbD (5 + k)).isEmpty) = true := by
    simpa [List.isEmpty_iff] using sels
  refine ⟨_, complete_ok (t := s.setMe { s.me with vstart := 0, vstores := s.me.vstores ++ els.map (superStore s.me pa c) }) ?_, ?_, ?_⟩
  · simp only [enc_eq, selectors_eq, supers] at whole ⊢
    simp only [run_bind, run_feature, on, if_true, run_check_of sb, run_check_of c1, run_vstqTag tag, run_check_of some, bases, opens]
    rw [show withStores s [] = s from rfl, List.nil_append] at whole
    simp only [whole, run_modMe, me_withStores, setMe_withStores]
  · rw [setMe_setMe]; exact onlyMe_setMe s _
  · simp [Ctx.advance]

end

end Sys2Proof.Machine
end

section
/-! The vector stores (O52). -/

namespace Sys2Proof.Machine

open Sys2Proof.Claims

open scoped Classical in
/-- The source of a superblock as the claims say it. -/
theorem superSource_eq (x : Ctx) (d : BitVec 5) (m : BitVec 1) (r : BitVec 3) (len j : Nat) : superSource x d m r len j =
    (List.range len).map fun k => if On x m r (j * len + k) then some (unpack (regGet x.tag d).fmt (vel x d (sewBits x) (j * len + k))) else none := by
  refine List.map_congr_left fun k _ => ?_
  by_cases h : On x m r (j * len + k)
  · rw [if_pos h, if_pos ((active_iff _ _ _ _).mpr h)]
  · rw [if_neg h, if_neg (mt (active_iff _ _ _ _).mp h)]

/-- Settles O52: the checks of each store pass, its pass over the elements queues what the claim says, and the quantiser is that of R130. -/
theorem vectorStores : Obligations.VectorStores := by
  unfold Obligations.VectorStores
  refine ⟨fun d a b m r f z s els pa o at_ u => ?_, fun sb8 sels f ps formats _ sorted ok fits => quantSuper_quantised formats sorted ok fits⟩
  extract_lets x w enc n base side idx reg val fields unit strided segment indexed indexOk ok Flags
  refine ⟨?_, ?_, ?_, ?_⟩
  · exact ⟨fun _ h lists mapped => stores_queue (comesToStores_vst h) h (fun k hk => hk.1) lists mapped,
      fun _ h lists mapped => stores_queue (comesToStores_vsts h) h (fun k hk => hk.1) lists mapped,
      fun _ h lists mapped => stores_queue (comesToStores_vstseg h) h (fun k hk => hk.1) lists mapped,
      fun index => ⟨fun _ h lists mapped => stores_queue (comesToStores_vstx index h) h (fun k hk => hk) lists mapped,
        fun quota _ h lists mapped => vstxOrd_queues index h quota lists mapped⟩⟩
  · exact ⟨fun h pass => stores_end (comesToStores_vst h) h (fun k hk => hk.1) pass, fun h pass => stores_end (comesToStores_vsts h) h (fun k hk => hk.1) pass,
      fun h pass => stores_end (comesToStores_vstseg h) h (fun k hk => hk.1) pass,
      fun index h pass => stores_end (comesToStores_vstx index h) h (fun k hk => hk) pass⟩
  · intro sb recode width sideReg mask whole aligned sideAligned inRange pass
    exact packedStore_ends sb recode ⟨width, sideReg, mask, whole, aligned, sideAligned, inRange⟩ pass
  · intro on sb sideReg some tag aligned sideAligned lists c codes
    exact vstq_queues on sb sideReg some tag aligned sideAligned lists
      (fun j hj => (congrArg _ (superSource_eq s.me d m r _ j)).trans (codes j hj).1) fun j hj => (codes j hj).2

end Sys2Proof.Machine
end

section
/-! Sums and products of the matrix unit (R116, R117, R132): their factors, special sums and exact sums. -/

namespace Sys2Proof.Machine

open Sys2Proof.Claims

/-! ### Operations on patterns without input flush -/

theorem unpack_mod (f : Fmt) (x : ℕ) : unpack f (x % 2 ^ f.width) = unpack f x := by
  have top : x % 2 ^ f.width / 2 ^ f.fb % 2 ^ f.eb = x / 2 ^ f.fb % 2 ^ f.eb := by
    rw [Fmt.width, show 1 + f.eb + f.fb = f.fb + (f.eb + 1) by omega, pow_add, Nat.mod_mul_right_div_self, Nat.mod_mod_of_dvd _ (Nat.pow_dvd_pow 2 (by omega))]
  have low : x % 2 ^ f.width % 2 ^ f.fb = x % 2 ^ f.fb := Nat.mod_mod_of_dvd _ (Nat.pow_dvd_pow 2 (by rw [Fmt.width]; omega))
  have bits (k : ℕ) (hk : k < f.width) : (x % 2 ^ f.width).testBit k = x.testBit k := by rw [Nat.testBit_mod_two_pow]; simp [hk]
  rw [unpack_eq, unpack_eq, top, low, bits _ (by rw [Fmt.width]; omega), bits _ (by rw [Fmt.width]; omega)]

theorem flushIn_zero (f : Fmt) (x : ℕ) : flushIn f 0 x = x % 2 ^ f.width := rfl

theorem fpAdd_eq (f : Fmt) (rm : Rm) (x y : ℕ) : fpAdd f rm 0 x y = addVal f rm false (unpack f x) (unpack f y) := by
  rw [fpAdd, flushIn_zero, flushIn_zero, unpack_mod, unpack_mod]; rfl

theorem fpMul_eq (f : Fmt) (rm : Rm) (x y : ℕ) : fpMul f rm 0 x y = mulVal f rm false (unpack f x) (unpack f y) := by
  rw [fpMul, flushIn_zero, flushIn_zero, unpack_mod, unpack_mod]; rfl

section
variable {f : Fmt} {rm : Rm} {flush : Bool}

/-- A result that is no NaN: a sign and a magnitude, at most the infinity. -/
def Plain (f : Fmt) (neg : Bool) (r : FpResult) : Prop := ∃ b ≤ f.inf, r.1 = f.sign neg + b

theorem Plain.lt {neg : Bool} {r : FpResult} (h : Plain f neg r) : r.1 < 2 ^ f.width := by
  obtain ⟨b, le, eq⟩ := h
  rw [eq]; exact sign_add_lt neg (le.trans_lt (inf_lt f))

theorem plain_zero (f : Fmt) (neg : Bool) (fl : BitVec 5) : Plain f neg (f.sign neg, fl) := ⟨0, Nat.zero_le _, rfl⟩

theorem plain_inf (f : Fmt) (neg : Bool) (fl : BitVec 5) : Plain f neg (f.sign neg + f.inf, fl) := ⟨_, le_rfl, rfl⟩

theorem plain_overflow (f : Fmt) (rm : Rm) (neg : Bool) : Plain f neg (overflow f rm neg) := by
  have most (b : Bool) : (if b then f.inf - 1 else f.inf) ≤ f.inf := by
    cases b
    exacts [le_rfl, Nat.sub_le _ _]
  exact ⟨_, most _, rfl⟩

theorem plain_cutResult (neg tiny : Bool) (k t rem half : ℕ) (st : Bool) : Plain f neg (cutResult f rm flush neg tiny k t rem half st) := by
  unfold cutResult
  split
  · exact plain_zero f neg _
  · dsimp only
    generalize (k * 2 ^ f.fb + if roundsUp rm neg t rem half st = true then t + 1 else t) = bits
    split
    next => exact plain_overflow f rm neg
    next fits => exact ⟨bits, (not_le.mp fits).le, rfl⟩

theorem plain_round (neg : Bool) (m : ℕ) (e : ℤ) : Plain f neg (round f rm flush neg m e false) := by
  by_cases zero : m = 0
  · rw [zero, round_zero]; exact plain_zero f neg _
  · by_cases deep : (m.log2 : ℤ) + e < f.low - 3
    · rw [round_eq_deep zero deep]; exact plain_cutResult ..
    · rw [round_eq_cutResult zero deep]; exact plain_cutResult ..

theorem nan_lt (f : Fmt) : f.nan < 2 ^ f.width := by
  have quiet : 2 ^ (f.fb - 1) ≤ 2 ^ f.fb := Nat.pow_le_pow_right (by norm_num) (by omega)
  have whole : f.inf + 2 ^ f.fb = 2 ^ (f.eb + f.fb) := by
    have : 0 < 2 ^ f.eb := by positivity
    rw [Fmt.inf, pow_add, ← Nat.succ_mul]; congr 1; omega
  rw [Fmt.nan, Fmt.width, Nat.add_assoc, Nat.add_comm 1, pow_succ]
  have : 0 < 2 ^ (f.eb + f.fb) := by positivity
  omega

theorem addVal_lt (x y : Fp) : (addVal f rm flush x y).1 < 2 ^ f.width := by
  have nan (b : Bool) : (nanOf f b).1 < 2 ^ f.width := nan_lt f
  cases x <;> cases y <;> simp only [addVal] <;> try exact nan _
  · split
    exacts [(plain_inf f _ 0).lt, nan _]
  · exact (plain_inf f _ 0).lt
  · exact (plain_inf f _ 0).lt
  · rw [addFin, roundInt]
    split
    exacts [(plain_zero f _ 0).lt, (plain_round _ _ _).lt]

/-- A product is the canonical NaN or no NaN. -/
theorem mulVal_cases (x y : Fp) : (mulVal f rm flush x y).1 = f.nan ∨ ∃ neg, Plain f neg (mulVal f rm flush x y) := by
  cases x <;> cases y <;> simp only [mulVal]
  iterate 4 exact .inl rfl
  · exact .inr ⟨_, plain_inf f _ 0⟩
  · split
    exacts [.inl rfl, .inr ⟨_, plain_inf f _ 0⟩]
  · exact .inl rfl
  · split
    exacts [.inl rfl, .inr ⟨_, plain_inf f _ 0⟩]
  · exact .inr ⟨_, plain_round _ _ _⟩

theorem Plain.mag_le {neg : Bool} {r : FpResult} (h : Plain f neg r) : f.mag r.1 ≤ f.inf := by
  obtain ⟨b, le, eq⟩ := h
  rw [eq, mag_sign_add neg (le.trans_lt (inf_lt f))]; exact le

end

/-! ### Factors -/

/-- The sign that the model gives a factor. -/
def Fp.neg : Fp → Bool
  | .nan _ => false
  | .inf n => n
  | .fin n _ _ => n

/-- A factor of the model is one of the claims, its value in units of 2^-d. -/
structure FactorOf (x : Fp) (d : ℕ) (F : Factor) : Prop where
  nan : F.nan ↔ ∃ s, x = .nan s
  signalling : F.signalling ↔ x = .nan true
  inf : F.inf ↔ ∃ n, x = .inf n
  neg : ¬F.nan → (F.neg ↔ x.neg = true)
  val : ¬F.nan → ¬F.inf → F.val = x.val / 2 ^ d

theorem factorOf_pattern (f : Fmt) (p : ℕ) (small : p < 2 ^ f.width) : FactorOf (unpack f p) 0 (.ofPattern f p) := by
  have bit : p.testBit (f.fb - 1) = decide (p / 2 ^ (f.fb - 1) % 2 = 1) := Nat.testBit_eq_decide_div_mod_eq ..
  by_cases top : p / 2 ^ f.fb % 2 ^ f.eb = 2 ^ f.eb - 1
  · by_cases zero : p % 2 ^ f.fb = 0
    · have eq : unpack f p = .inf (p.testBit (f.eb + f.fb)) := by rw [unpack_eq, if_pos top, if_pos zero]
      constructor <;> simp [Factor.ofPattern, eq, top, zero, Fp.neg]
    · have eq : unpack f p = .nan (!p.testBit (f.fb - 1)) := by rw [unpack_eq, if_pos top, if_neg zero]
      constructor <;> simp [Factor.ofPattern, eq, top, zero, bit]
      exact (Nat.mod_two_eq_zero_or_one _).symm
  · obtain ⟨m, e, eq, value⟩ := unpack_of_finite (f := f) (x := p) ⟨small, top⟩
    constructor <;> simp only [Factor.ofPattern, eq, top, false_and, Fp.neg]
    · simp
    · simp
    · simp
    · simp
    · intro _ _; rw [value]; simp

theorem factorOf_code {sb8 : Bool} {sel : ℕ} (ok : SelectorOk sb8 sel) (code : ℕ) :
    FactorOf (.fin (decodeSb sb8 sel code).1 (decodeSb sb8 sel code).2 0) (denom sb8 sel) (.ofValue (sbDecode sb8 sel code)) := by
  refine ⟨by simp [Factor.ofValue], by simp [Factor.ofValue], by simp [Factor.ofValue], fun _ => ?_, fun _ _ => ?_⟩
  · have := sbDecode_neg_iff ok code
    rw [Factor.ofValue, Fp.neg, ← this, decide_eq_true_eq]
  · rw [Factor.ofValue]
    dsimp only
    rw [sbDecode_eq ok, val_fin, val_fin, zpow_neg, zpow_natCast]; simp [div_eq_mul_inv]

namespace FactorOf
variable {x y : Fp} {d e : ℕ} {F G : Factor}

theorem fin_of (h : FactorOf x d F) (n : ¬F.nan) (i : ¬F.inf) : ∃ s m g, x = .fin s m g := by
  cases x with
  | nan s => exact absurd (h.nan.mpr ⟨s, rfl⟩) n
  | inf s => exact absurd (h.inf.mpr ⟨s, rfl⟩) i
  | fin s m g => exact ⟨s, m, g, rfl⟩

theorem special_iff (h : FactorOf x d F) : isSpecial x = true ↔ F.nan ∨ F.inf := by
  rw [h.nan, h.inf]
  cases x <;> simp [isSpecial]

/-- A factor that is zero. -/
theorem zero_iff (h : FactorOf x d F) : (¬F.nan ∧ ¬F.inf ∧ F.val = 0) ↔ ∃ s g, x = .fin s 0 g := by
  constructor
  · rintro ⟨n, i, z⟩
    obtain ⟨s, m, g, rfl⟩ := h.fin_of n i
    have := h.val n i
    rw [z] at this
    have : (Fp.fin s m g).val = 0 := (div_eq_zero_iff.mp this.symm).resolve_right (by positivity)
    exact ⟨s, g, by rw [val_eq_zero.mp this]⟩
  · rintro ⟨s, g, rfl⟩
    have n : ¬F.nan := by rw [h.nan]; simp
    have i : ¬F.inf := by rw [h.inf]; simp
    exact ⟨n, i, by rw [h.val n i]; simp⟩

/-- The product of two values. -/
theorem product (h : FactorOf x d F) (k : FactorOf y e G) (n : ¬F.nan) (i : ¬F.inf) (n' : ¬G.nan) (i' : ¬G.inf) :
    ((exactProduct (x, y)).1 : ℚ) * 2 ^ (exactProduct (x, y)).2 = F.val * G.val * 2 ^ (d + e) := by
  obtain ⟨s, m, g, rfl⟩ := h.fin_of n i
  obtain ⟨s', m', g', rfl⟩ := k.fin_of n' i'
  rw [h.val n i, k.val n' i', exactProduct, cast_sgn]
  dsimp only
  have : (if (s != s') = true then (-1 : ℚ) else 1) * ((m * m' : ℕ) : ℚ) * 2 ^ (g + g') = (Fp.fin s m g).val * (Fp.fin s' m' g').val := by
    rw [← val_mul, val_fin]; ring
  rw [this, pow_add]; field_simp

end FactorOf

end Sys2Proof.Machine
end

section
/-! Special sums (R117), and a group of products or a segment added to an accumulator (R116, R132). -/

namespace Sys2Proof.Machine

open Sys2Proof.Claims

def Fp.isNan : Fp → Bool
  | .nan _ => true
  | _ => false

def Fp.isInf : Fp → Bool
  | .inf _ => true
  | _ => false

def Fp.isZero : Fp → Bool
  | .fin _ 0 _ => true
  | _ => false

/-- Some of the infinite products has a sign. -/
def hasInf (ps : List (Fp × Fp)) (b : Bool) : Bool := ps.any fun p => (p.1.isInf || p.2.isInf) && ((p.1.neg != p.2.neg) == b)

theorem contains_infs (ps : List (Fp × Fp)) (b : Bool) :
    ((ps.filter fun p => p.1.isInf || p.2.isInf).map fun p => p.1.neg != p.2.neg).contains b = hasInf ps b := by
  rw [hasInf, Bool.eq_iff_iff]
  simp [List.any_eq_true]
  grind

theorem specialSum_eq (ps : List (Fp × Fp)) : specialSum ps =
    let nan := ps.any fun p => p.1.isNan || p.2.isNan
    let snan := ps.any fun p => p.1 == .nan true || p.2 == .nan true
    let invalid := ps.any fun p => (p.1.isInf && p.2.isZero) || (p.1.isZero && p.2.isInf)
    if nan || invalid then (.nan false, if snan || invalid then flagNV else 0)
    else if hasInf ps true && hasInf ps false then (.nan false, flagNV)
    else (.inf (hasInf ps true), 0) := by
  simp only [← contains_infs]
  rfl

/-- The model's factors of `n` products. -/
structure Factors (X Y : ℕ → Fp) (d e n : ℕ) (A B : ℕ → Factor) : Prop where
  left : ∀ k < n, FactorOf (X k) d (A k)
  right : ∀ k < n, FactorOf (Y k) e (B k)

/-- The pairs of the factors. -/
def pairs (X Y : ℕ → Fp) (n : ℕ) : List (Fp × Fp) := (List.range n).map fun k => (X k, Y k)

theorem any_pairs {X Y : ℕ → Fp} {n : ℕ} {p : Fp × Fp → Bool} {P : ℕ → Prop} (same : ∀ k < n, p (X k, Y k) = true ↔ P k) :
    (pairs X Y n).any p = true ↔ ∃ k, k < n ∧ P k := by
  rw [pairs, List.any_map, List.any_eq_true]
  exact exists_congr fun k => by rw [List.mem_range]; exact and_congr_right fun hk => same k hk

namespace FactorOf
variable {x : Fp} {d : ℕ} {F : Factor}

theorem isNan_iff (h : FactorOf x d F) : x.isNan = true ↔ F.nan := by rw [h.nan]; cases x <;> simp [Fp.isNan]
theorem isInf_iff (h : FactorOf x d F) : x.isInf = true ↔ F.inf := by rw [h.inf]; cases x <;> simp [Fp.isInf]
theorem isSnan_iff (h : FactorOf x d F) : (x == .nan true) = true ↔ F.signalling := by rw [h.signalling, beq_iff_eq]
theorem isZero_iff (h : FactorOf x d F) : x.isZero = true ↔ ¬F.nan ∧ ¬F.inf ∧ F.val = 0 := by
  rw [h.zero_iff]
  rcases x with _ | _ | ⟨n, _ | m, e⟩ <;> simp [Fp.isZero]

end FactorOf

section
variable {X Y : ℕ → Fp} {d e n : ℕ} {A B : ℕ → Factor} (h : Factors X Y d e n A B)
include h

theorem any_special_pairs : ((pairs X Y n).any fun p => isSpecial p.1 || isSpecial p.2) = true ↔ Special A B n :=
  any_pairs fun k hk => by rw [Bool.or_eq_true, (h.left k hk).special_iff, (h.right k hk).special_iff, or_assoc]

/-- The special sum of the model is that of R117. -/
theorem specialSum_spec : ∃ g, SpecialSum A B n g (specialSum (pairs X Y n)).2 ∧ unpack fp32 g = (specialSum (pairs X Y n)).1 := by
  have nan := any_pairs (X := X) (Y := Y) (n := n) (p := fun p => p.1.isNan || p.2.isNan) (P := fun k => (A k).nan ∨ (B k).nan) fun k hk => by
    rw [Bool.or_eq_true, (h.left k hk).isNan_iff, (h.right k hk).isNan_iff]
  have snan := any_pairs (X := X) (Y := Y) (n := n) (p := fun p => p.1 == .nan true || p.2 == .nan true) (P := fun k => (A k).signalling ∨ (B k).signalling)
    fun k hk => by rw [Bool.or_eq_true, (h.left k hk).isSnan_iff, (h.right k hk).isSnan_iff]
  have invalid := any_pairs (X := X) (Y := Y) (n := n) (p := fun p => (p.1.isInf && p.2.isZero) || (p.1.isZero && p.2.isInf))
    (P := fun k => ((A k).inf ∧ ¬(B k).nan ∧ ¬(B k).inf ∧ (B k).val = 0) ∨ ((¬(A k).nan ∧ ¬(A k).inf ∧ (A k).val = 0) ∧ (B k).inf)) fun k hk => by
    rw [Bool.or_eq_true, Bool.and_eq_true, Bool.and_eq_true, (h.left k hk).isInf_iff, (h.right k hk).isZero_iff, (h.left k hk).isZero_iff, (h.right k hk).isInf_iff]
  have quiet : unpack fp32 0x7FC00000 = .nan false := by decide
  have plus : unpack fp32 0x7F800000 = .inf false := by decide
  have minus : unpack fp32 0xFF800000 = .inf true := by decide
  unfold SpecialSum
  dsimp only
  rw [specialSum_eq, ← nan, ← snan, ← invalid]
  dsimp only
  rw [← Bool.or_eq_true, ← Bool.or_eq_true]
  generalize hv : (pairs X Y n).any (fun p => (p.1.isInf && p.2.isZero) || (p.1.isZero && p.2.isInf)) = inv at *
  by_cases bad : ((pairs X Y n).any (fun p => p.1.isNan || p.2.isNan) || inv) = true
  · refine ⟨0x7FC00000, ⟨fun _ => ⟨rfl, fun s => ?_, fun s => ?_⟩, fun c => absurd bad c⟩, ?_⟩
    · rw [if_pos bad, if_pos s]
    · rw [if_pos bad, if_neg s]
    · rw [if_pos bad, quiet]
  · have clean (k : ℕ) (hk : k < n) : ¬(A k).nan ∧ ¬(B k).nan := by
      refine ⟨fun c => bad ?_, fun c => bad ?_⟩
      · rw [Bool.or_eq_true]; exact .inl (nan.mpr ⟨k, hk, .inl c⟩)
      · rw [Bool.or_eq_true]; exact .inl (nan.mpr ⟨k, hk, .inr c⟩)
    have infs (b : Bool) : hasInf (pairs X Y n) b = true ↔
        ∃ k, k < n ∧ ((A k).inf ∨ (B k).inf) ∧ (¬((A k).neg ↔ (B k).neg) ↔ b = true) := by
      refine any_pairs fun k hk => ?_
      rw [Bool.and_eq_true, Bool.or_eq_true, (h.left k hk).isInf_iff, (h.right k hk).isInf_iff, (h.left k hk).neg (clean k hk).1, (h.right k hk).neg (clean k hk).2]
      cases (X k).neg <;> cases (Y k).neg <;> cases b <;> simp
    have infT := infs true
    have infF := infs false
    simp only [Bool.false_eq_true] at infF
    simp only [iff_true, iff_false] at infT infF ⊢
    rw [if_neg bad]
    by_cases t : hasInf (pairs X Y n) true = true
    · by_cases f : hasInf (pairs X Y n) false = true
      · exact ⟨0x7FC00000, ⟨fun c => absurd c bad, fun _ => ⟨fun _ => ⟨rfl, by rw [t, f]; rfl⟩, fun c => absurd (infF.mp f) c.2, fun c => absurd (infT.mp t) c⟩⟩, by rw [t, f, quiet]; rfl⟩
      · refine ⟨0xFF800000, ⟨fun c => absurd c bad, fun _ => ⟨fun c => absurd (infF.mpr c.2) f, fun _ => ⟨rfl, ?_⟩, fun c => absurd (infT.mp t) c⟩⟩, ?_⟩
        · simp [f]
        · simp [f, t, minus]
    · refine ⟨0x7F800000, ⟨fun c => absurd c bad, fun _ => ⟨fun c => absurd (infT.mpr c.1) t, fun c => absurd (infT.mpr c.1) t, fun _ => ⟨rfl, ?_⟩⟩⟩, ?_⟩
      · simp [t]
      · simp [t, plus]

end

end Sys2Proof.Machine
end

section
/-! A group of products (R116) and a segment of an SB pair (R132) added to an accumulator. -/

namespace Sys2Proof.Machine

open Sys2Proof.Claims

/-! ### Exact values -/

/-- The number that a signed mantissa with an exponent is. -/
def exactVal (p : ℤ × ℤ) : ℚ := (p.1 : ℚ) * 2 ^ p.2

theorem exactVal_eq_zero {p : ℤ × ℤ} : exactVal p = 0 ↔ p.1 = 0 := by
  simp [exactVal, zpow_ne_zero]

theorem natAbs_val (v e : ℤ) : (Fp.fin (decide (v < 0)) v.natAbs e).val = v * 2 ^ e := by
  have size : (v.natAbs : ℚ) = |(v : ℚ)| := by rw [← Int.cast_natCast, Int.natCast_natAbs, Int.cast_abs]
  rw [val_fin, size]
  rcases lt_or_ge v 0 with neg | pos
  · rw [if_pos (decide_eq_true neg), abs_of_neg (by exact_mod_cast neg)]; ring
  · rw [if_neg (by simpa using pos), abs_of_nonneg (by exact_mod_cast pos)]; ring

/-- Truncation towards zero. -/
def trunc (y : ℚ) : ℤ := if 0 ≤ y then ⌊y⌋ else ⌈y⌉

theorem truncTo_eq (q : ℤ) (p : ℤ × ℤ) : truncTo q p = trunc (exactVal p / 2 ^ q) := by
  rw [truncTo, trunc, exactVal]
  split
  next le =>
    have : (p.1 : ℚ) * 2 ^ p.2 / 2 ^ q = ((p.1 * 2 ^ (p.2 - q).toNat : ℤ) : ℚ) := by
      push_cast
      rw [mul_div_assoc, ← zpow_sub₀ (by norm_num), ← zpow_natCast]; congr 2; omega
    rw [this, Int.floor_intCast, Int.ceil_intCast, ite_self]
  next lt =>
    have small : (p.1 : ℚ) * 2 ^ p.2 / 2 ^ q = p.1 / ((2 ^ (q - p.2).toNat : ℕ) : ℚ) := by
      push_cast
      rw [mul_div_assoc, ← zpow_sub₀ (by norm_num), div_eq_mul_inv (p.1 : ℚ), ← zpow_natCast, ← zpow_neg]; congr 2; omega
    have pos : (0 : ℚ) < ((2 ^ (q - p.2).toNat : ℕ) : ℚ) := by positivity
    have cast : ((2 ^ (q - p.2).toNat : ℕ) : ℤ) = 2 ^ (q - p.2).toNat := by push_cast; rfl
    rw [small]
    rcases le_or_gt 0 p.1 with nonneg | neg
    · rw [if_pos (div_nonneg (by exact_mod_cast nonneg) pos.le), Rat.floor_intCast_div_natCast, cast, Int.tdiv_eq_ediv_of_nonneg nonneg]
    · have : (0 : ℤ) ≤ -p.1 := by omega
      rw [if_neg (not_le.mpr (div_neg_of_neg_of_pos (by exact_mod_cast neg) pos)), show ∀ y : ℚ, ⌈y⌉ = -⌊-y⌋ from fun y => by rw [Int.floor_neg, neg_neg], ← neg_div, ← Int.cast_neg,
        Rat.floor_intCast_div_natCast, cast, ← Int.tdiv_eq_ediv_of_nonneg this, Int.neg_tdiv, neg_neg]

theorem sum_filter_ne_zero {β : Type} [AddCommMonoid β] (f : ℤ × ℤ → β) (zero : ∀ p, p.1 = 0 → f p = 0) (l : List (ℤ × ℤ)) :
    ((l.filter fun p => p.1 != 0).map f).sum = (l.map f).sum := by
  induction l with
  | nil => rfl
  | cons p l ih =>
    by_cases h : p.1 = 0
    · simp [h, ih, zero p h]
    · simp [h, ih]

/-- The largest exponent of a list. -/
theorem foldl_max_eq {α : Type} (g : α → ℤ) (x : α) (rest : List α) {E : ℤ} (all : ∀ y ∈ x :: rest, g y ≤ E) (some : ∃ y ∈ x :: rest, g y = E) :
    rest.foldl (fun e p => max e (g p)) (g x) = E := by
  have general (l : List α) (e : ℤ) (le : e ≤ E) (all : ∀ y ∈ l, g y ≤ E) (some : e = E ∨ ∃ y ∈ l, g y = E) : l.foldl (fun e p => max e (g p)) e = E := by
    induction l generalizing e with
    | nil => simpa using some
    | cons y l ih =>
      have hy := all y (.head _)
      refine ih (max e (g y)) (by omega) (fun z hz => all z (.tail _ hz)) ?_
      rcases some with rfl | ⟨z, hz, e'⟩
      · exact .inl (by omega)
      · rcases List.mem_cons.mp hz with rfl | hz
        · exact .inl (by omega)
        · exact .inr ⟨z, hz, e'⟩
  refine general rest (g x) (all x (.head _)) (fun y hy => all y (.tail _ hy)) ?_
  obtain ⟨y, hy, e⟩ := some
  rcases List.mem_cons.mp hy with rfl | hy
  · exact .inl e
  · exact .inr ⟨y, hy, e⟩

/-- The leading exponent of a value that is not zero. -/
theorem expOf_spec {p : ℤ × ℤ} (h : p.1 ≠ 0) : (2 : ℚ) ^ expOf p ≤ |exactVal p| ∧ |exactVal p| < 2 ^ (expOf p + 1) := by
  have bounds := value_bounds (Int.natAbs_ne_zero.mpr h) p.2
  have size : ((|exactVal p| : ℚ) : ℝ) = (p.1.natAbs : ℝ) * 2 ^ p.2 := by
    rw [exactVal, Rat.cast_abs]
    push_cast
    rw [abs_mul, abs_of_pos (by positivity : (0 : ℝ) < 2 ^ p.2), Nat.cast_natAbs]
    push_cast; rfl
  rw [← size] at bounds
  obtain ⟨low, high⟩ := bounds
  refine ⟨(Rat.cast_le (K := ℝ)).mp ?_, (Rat.cast_lt (K := ℝ)).mp ?_⟩ <;> rw [Rat.cast_zpow, Rat.cast_ofNat]
  exacts [low, high]

theorem exactSum_val (xs : List (ℤ × ℤ)) : exactVal (exactSum xs) = (xs.map exactVal).sum := by
  rw [← sum_filter_ne_zero exactVal fun p => exactVal_eq_zero.mpr]
  rw [exactSum]
  cases h : xs.filter fun p => p.1 != 0 with
  | nil => simp [exactVal]
  | cons x rest =>
    dsimp only
    have low (l : List (ℤ × ℤ)) (e : ℤ) : l.foldl (fun e p => min e p.2) e ≤ e ∧ ∀ p ∈ l, l.foldl (fun e p => min e p.2) e ≤ p.2 := by
      induction l generalizing e with
      | nil => simp
      | cons y l ih =>
        obtain ⟨first, rest⟩ := ih (min e y.2)
        rw [List.foldl_cons]
        exact ⟨by omega, fun p hp => (List.mem_cons.mp hp).elim (fun h => by subst h; omega) (rest p)⟩
    obtain ⟨first, others⟩ := low rest x.2
    generalize rest.foldl (fun e p => min e p.2) x.2 = e at first others
    have all : ∀ p ∈ x :: rest, e ≤ p.2 := fun p hp => (List.mem_cons.mp hp).elim (fun h => h ▸ first) (others p)
    generalize x :: rest = l at all
    induction l with
    | nil => simp [exactVal]
    | cons p l ih =>
      have here := all p (.head _)
      have one : ((p.1 * 2 ^ (p.2 - e).toNat : ℤ) : ℚ) * 2 ^ e = exactVal p := by
        push_cast
        rw [exactVal, mul_assoc, ← zpow_natCast, ← zpow_add₀ (by norm_num)]; congr 2; omega
      rw [List.map_cons, List.map_cons, List.sum_cons, List.sum_cons, ← ih fun q hq => all q (.tail _ hq), ← one, exactVal, exactVal]
      push_cast; ring

/-! ### The addition to an accumulator -/

/-- R116 and R132 add a value once, rounded to nearest. -/
theorem addVal_fin_spec {acc : ℕ} (n : Bool) {m : ℕ} (e : ℤ) (plus : m = 0 → n = false) :
    let r := addVal fp32 .rne false (unpack fp32 acc) (.fin n m e)
    (acc < 2 ^ 32 → ¬FpFinite fp32 acc → r = fpAdd fp32 .rne 0 acc 0) ∧
    (FpFinite fp32 acc → (fpValue fp32 acc + (Fp.fin n m e).val = 0 → r = (0, 0)) ∧
      (fpValue fp32 acc + (Fp.fin n m e).val ≠ 0 → Rounded fp32 .rne false ((fpValue fp32 acc + (Fp.fin n m e).val : ℚ) : ℝ) r)) := by
  constructor
  · intro small bad
    rw [fpAdd_eq, show unpack fp32 0 = .fin false 0 (-149) by decide]
    cases h : unpack fp32 acc with
    | nan => rfl
    | inf => rfl
    | fin s k g => exact absurd ((unpack_eq_fin_iff small).mp ⟨s, k, g, h⟩) bad
  · intro fin
    obtain ⟨k, g, eq, value⟩ := unpack_of_finite fin
    generalize acc.testBit (fp32.eb + fp32.fb) = s at eq value
    rw [← value, eq]
    refine ⟨fun zero => ?_, rounded_addFin usual_fp32⟩
    rw [addVal, addFin_zero zero]
    by_cases both : k = 0 ∧ m = 0 ∧ s = n
    · rw [if_pos both, both.2.2, plus both.2.1]; rfl
    · rw [if_neg both]; rfl

section
variable {X Y : ℕ → Fp} {d e n : ℕ} {A B : ℕ → Factor}

theorem products_map (X Y : ℕ → Fp) (n : ℕ) : (pairs X Y n).map exactProduct = (List.range n).map fun k => exactProduct (X k, Y k) := by
  rw [pairs, List.map_map]; rfl

theorem product_of_ordinary (h : Factors X Y d e n A B) (ordinary : ¬Special A B n) {k : ℕ} (hk : k < n) :
    exactVal (exactProduct (X k, Y k)) = (A k).val * (B k).val * 2 ^ (d + e) := by
  have clean : ¬((A k).nan ∨ (A k).inf ∨ (B k).nan ∨ (B k).inf) := fun c => ordinary ⟨k, hk, c⟩
  simp only [not_or] at clean
  obtain ⟨a, b, c, f⟩ := clean
  exact (h.left k hk).product (h.right k hk) a b c f

/-- The products of a group that are not zero. -/
def nonzero (ps : List (Fp × Fp)) : List (ℤ × ℤ) := (ps.map exactProduct).filter fun p => p.1 != 0

theorem groupStep_nil {ps : List (Fp × Fp)} (ordinary : ¬(ps.any fun p => isSpecial p.1 || isSpecial p.2) = true) (h : nonzero ps = []) (acc : ℕ) :
    groupStep acc ps = addVal fp32 .rne false (unpack fp32 acc) (.fin false 0 0) := by
  have e : (ps.map exactProduct).filter (fun p => p.1 != 0) = [] := h
  rw [groupStep, if_neg ordinary]
  dsimp only
  rw [e]

theorem groupStep_cons {ps : List (Fp × Fp)} (ordinary : ¬(ps.any fun p => isSpecial p.1 || isSpecial p.2) = true) {x : ℤ × ℤ} {rest : List (ℤ × ℤ)}
    (h : nonzero ps = x :: rest) (acc : ℕ) :
    groupStep acc ps =
      let q := (rest.foldl (fun e p => max e (expOf p)) (expOf x)) - 46
      let g := ((nonzero ps).map (truncTo q)).sum
      addVal fp32 .rne false (unpack fp32 acc) (.fin (decide (g < 0)) g.natAbs q) := by
  have e : (ps.map exactProduct).filter (fun p => p.1 != 0) = x :: rest := h
  rw [groupStep, if_neg ordinary, h]
  dsimp only
  rw [e]

/-- R116. -/
theorem groupStep_spec (h : Factors X Y 0 0 32 A B) {acc : ℕ} (small : acc < 2 ^ 32) : GroupStep A B acc (groupStep acc (pairs X Y 32)) := by
  unfold GroupStep
  refine ⟨fun special => ?_, fun ordinary => ?_⟩
  · obtain ⟨g, sum, eq⟩ := specialSum_spec h
    refine ⟨g, _, sum, ?_⟩
    rw [fpAdd_eq, eq, groupStep, if_pos ((any_special_pairs h).mpr special)]
  · have value (k : ℕ) (hk : k < 32) : exactVal (exactProduct (X k, Y k)) = (A k).val * (B k).val := by
      rw [product_of_ordinary h ordinary hk]; simp
    have plain := mt (any_special_pairs h).mp ordinary
    have member (p : ℤ × ℤ) : p ∈ nonzero (pairs X Y 32) ↔ ∃ k < 32, exactProduct (X k, Y k) = p ∧ p.1 ≠ 0 := by
      rw [nonzero, products_map, List.mem_filter, List.mem_map]
      simp only [List.mem_range, bne_iff_ne]
      constructor
      · rintro ⟨⟨k, hk, rfl⟩, ne⟩; exact ⟨k, hk, rfl, ne⟩
      · rintro ⟨k, hk, rfl, ne⟩; exact ⟨⟨k, hk, rfl⟩, ne⟩
    refine ⟨fun zero => ?_, fun E ⟨k, hk, low⟩ high => ?_⟩
    · have none : nonzero (pairs X Y 32) = [] := by
        rw [List.eq_nil_iff_forall_not_mem]
        intro p hp
        obtain ⟨k, hk, rfl, ne⟩ := (member p).mp hp
        exact ne (exactVal_eq_zero.mp ((value k hk).trans (zero k hk)))
      rw [groupStep_nil plain none]
      obtain ⟨bad, good⟩ := addVal_fin_spec (acc := acc) false (m := 0) 0 fun _ => rfl
      refine ⟨bad small, fun fin => ?_⟩
      simpa using good fin
    · dsimp only at low high
      cases hl : nonzero (pairs X Y 32) with
      | nil =>
        have ne : (exactProduct (X k, Y k)).1 ≠ 0 := fun z => by
          rw [← value k hk, exactVal_eq_zero.mpr z, abs_zero] at low
          exact absurd low (not_le.mpr (by positivity))
        have := (member _).mpr ⟨k, hk, rfl, ne⟩
        rw [hl] at this
        cases this
      | cons x rest =>
        rw [hl] at member
        have top : rest.foldl (fun e p => max e (expOf p)) (expOf x) = E := by
          refine foldl_max_eq expOf x rest (fun y hy => ?_) ?_
          · obtain ⟨j, hj, rfl, ne⟩ := (member y).mp hy
            have := (expOf_spec ne).1.trans_lt (value j hj ▸ high j hj)
            have := (zpow_lt_zpow_iff_right₀ (by norm_num : (1 : ℚ) < 2)).mp this
            omega
          · have ne : (exactProduct (X k, Y k)).1 ≠ 0 := fun z => by
              rw [← value k hk, exactVal_eq_zero.mpr z, abs_zero] at low
              exact absurd low (not_le.mpr (by positivity))
            refine ⟨_, (member _).mpr ⟨k, hk, rfl, ne⟩, ?_⟩
            obtain ⟨below, above⟩ := expOf_spec ne
            rw [value k hk] at below above
            have a := (zpow_lt_zpow_iff_right₀ (by norm_num : (1 : ℚ) < 2)).mp (low.trans_lt above)
            have b := (zpow_lt_zpow_iff_right₀ (by norm_num : (1 : ℚ) < 2)).mp (below.trans_lt (high k hk))
            omega
        rw [groupStep_cons plain hl]
        dsimp only
        rw [top, nonzero, sum_filter_ne_zero (truncTo (E - 46)) (fun p z => by rw [truncTo, z]; simp), products_map, List.map_map]
        have sum : ((((List.range 32).map (truncTo (E - 46) ∘ fun k => exactProduct (X k, Y k))).sum : ℤ) : ℚ) * 2 ^ (E - 46) =
            ((List.range 32).map fun k => (trunc ((A k).val * (B k).val / 2 ^ (E - 46)) : ℚ) * 2 ^ (E - 46)).sum := by
          rw [List.sum_map_mul_right]
          congr 1
          rw [Int.cast_list_sum, List.map_map]
          refine congrArg List.sum (List.map_congr_left fun j hj => ?_)
          simp only [Function.comp_apply, truncTo_eq, value j (List.mem_range.mp hj)]
        generalize ((List.range 32).map (truncTo (E - 46) ∘ fun k => exactProduct (X k, Y k))).sum = G at sum
        obtain ⟨bad, good⟩ := addVal_fin_spec (acc := acc) (decide (G < 0)) (m := G.natAbs) (E - 46) fun z => by
          rw [Int.natAbs_eq_zero.mp z]; rfl
        rw [natAbs_val, sum] at good
        exact ⟨bad small, good⟩

end

end Sys2Proof.Machine
end

section
/-! Segments of SB pairs (R132), and an accumulator element over a row and a column. -/

namespace Sys2Proof.Machine

open Sys2Proof.Claims

/-! ### Segments -/

/-- The NaNs lie above the infinity. -/
theorem isNan_iff (f : Fmt) (x : ℕ) : isNan f x = true ↔ f.inf < f.mag x := by
  have whole := Nat.div_add_mod (f.mag x) (2 ^ f.fb)
  have below : f.mag x / 2 ^ f.fb < 2 ^ f.eb := by rw [mag_div]; exact Nat.mod_lt _ (by positivity)
  have frac : f.mag x % 2 ^ f.fb < 2 ^ f.fb := Nat.mod_lt _ (by positivity)
  rw [mag_div, mag_mod] at whole
  rw [mag_div] at below
  rw [mag_mod] at frac
  have shape : f.inf = 2 ^ f.fb * (2 ^ f.eb - 1) := Nat.mul_comm _ _
  rw [isNan, unpack_eq]
  by_cases top : x / 2 ^ f.fb % 2 ^ f.eb = 2 ^ f.eb - 1
  · rw [top, ← shape] at whole
    rw [if_pos top]
    by_cases zero : x % 2 ^ f.fb = 0
    · rw [if_pos zero]
      exact iff_of_false (by simp) (by omega)
    · rw [if_neg zero]
      exact iff_of_true rfl (by omega)
  · rw [if_neg top]
    have : f.mag x < f.inf := by
      rw [shape, ← whole]
      have : 2 ^ f.fb * (x / 2 ^ f.fb % 2 ^ f.eb + 1) ≤ 2 ^ f.fb * (2 ^ f.eb - 1) := Nat.mul_le_mul_left _ (by omega)
      rw [Nat.mul_succ] at this
      omega
    by_cases zero : x / 2 ^ f.fb % 2 ^ f.eb = 0
    · rw [if_pos zero]; exact iff_of_false (by simp) (by omega)
    · rw [if_neg zero]; exact iff_of_false (by simp) (by omega)

/-- The product of two scales is a NaN only where it is the canonical one. -/
theorem scaleProduct_eq (a b : ℕ) : scaleProduct a b = if (fpMul fp32 .rne 0 a b).1 = 0x7FC00000 then (0, 0) else fpMul fp32 .rne 0 a b := by
  have same : isNan fp32 (fpMul fp32 .rne 0 a b).1 = true ↔ (fpMul fp32 .rne 0 a b).1 = 0x7FC00000 := by
    rw [fpMul_eq, isNan_iff]
    have nan : fp32.nan = 0x7FC00000 := by decide
    have mag : fp32.inf < fp32.mag 0x7FC00000 := by decide
    rcases mulVal_cases (f := fp32) (rm := .rne) (flush := false) (unpack fp32 a) (unpack fp32 b) with e | ⟨neg, plain⟩
    · rw [e, nan]; exact iff_of_true mag rfl
    · exact iff_of_false (not_lt.mpr plain.mag_le) fun e => absurd plain.mag_le (by rw [e]; exact not_le.mpr mag)
  rw [scaleProduct, ← fpMul_eq]
  by_cases h : (fpMul fp32 .rne 0 a b).1 = 0x7FC00000
  · rw [if_pos h, if_pos (same.mpr h)]
  · rw [if_neg h, if_neg (mt same.mp h)]

theorem scaleProduct_ordinary (a b : ℕ) : isNan fp32 (scaleProduct a b).1 = false ∧ (scaleProduct a b).1 < 2 ^ 32 := by
  rw [scaleProduct]
  split
  next => exact ⟨by decide, by norm_num⟩
  next h =>
    refine ⟨by simpa using h, ?_⟩
    rcases mulVal_cases (f := fp32) (rm := .rne) (flush := false) (unpack fp32 a) (unpack fp32 b) with e | ⟨neg, plain⟩
    · rw [e]; decide
    · exact plain.lt

theorem addVal_pattern {acc u : ℕ} : addVal fp32 .rne false (unpack fp32 acc) (unpack fp32 u) = fpAdd fp32 .rne 0 acc u := (fpAdd_eq _ _ _ _).symm

section
variable {X Y : ℕ → Fp} {d e n : ℕ} {A B : ℕ → Factor}

theorem neg_mul_pos_iff {a c : ℚ} (h : 0 < c) : a * c < 0 ↔ a < 0 :=
  ⟨fun l => neg_of_mul_neg_left l h.le, fun l => mul_neg_of_neg_of_pos l h⟩

/-- A dot product that is not zero, under the product of two scales. -/
def scaledDot (p : ℤ × ℤ) (d e : ℕ) : Fp → FpResult
  | .inf n => (fp32.sign (n != decide (p.1 < 0)) + fp32.inf, 0)
  | .fin n tm te => round fp32 .rne false (n != decide (p.1 < 0)) (p.1.natAbs * tm) (p.2 + te - d - e) false
  | .nan _ => (0, 0)

/-- R132. -/
theorem segStep_spec {sa sb : Seg} (h : Factors X Y sa.d sb.d n A B) (vals : sa.vals.zip sb.vals = pairs X Y n) (acc : ℕ) :
    SegmentStep n sa.scale sb.scale A B acc (segStep acc sa sb) := by
  unfold SegmentStep
  dsimp only
  rw [← scaleProduct_eq]
  obtain ⟨noNan, small⟩ := scaleProduct_ordinary sa.scale sb.scale
  generalize ht : scaleProduct sa.scale sb.scale = t at noNan small
  refine ⟨fun special => ?_, fun ordinary => ?_⟩
  · obtain ⟨g, sum, eq⟩ := specialSum_spec h
    refine ⟨g, _, sum, ?_⟩
    rw [fpAdd_eq, eq, segStep, vals, if_pos ((any_special_pairs h).mpr special), ht]
  · have dot : exactVal (exactSum ((pairs X Y n).map exactProduct)) =
        ((List.range n).map fun k => (A k).val * (B k).val).sum * 2 ^ (sa.d + sb.d) := by
      rw [exactSum_val, products_map, List.map_map, ← List.sum_map_mul_right]
      exact congrArg List.sum (List.map_congr_left fun k hk => product_of_ordinary h ordinary (List.mem_range.mp hk))
    generalize ((List.range n).map fun k => (A k).val * (B k).val).sum = q at dot
    generalize hp : exactSum ((pairs X Y n).map exactProduct) = p at dot
    have p2 : (0 : ℚ) < 2 ^ (sa.d + sb.d) := by positivity
    have zero : p.1 = 0 ↔ q = 0 := by rw [← exactVal_eq_zero, dot, mul_eq_zero, or_iff_left p2.ne']
    have neg : decide (p.1 < 0) = decide (q < 0) := by
      have : exactVal p < 0 ↔ p.1 < 0 := by
        rw [exactVal, neg_mul_pos_iff (by positivity), Int.cast_lt_zero]
      rw [decide_eq_decide, ← this, dot, neg_mul_pos_iff p2]
    have step : segStep acc sa sb =
        let u : FpResult :=
          if p.1 = 0 then (0, 0) else scaledDot p sa.d sb.d (unpack fp32 t.1)
        ((fpAdd fp32 .rne 0 acc u.1).1, (fpAdd fp32 .rne 0 acc u.1).2 ||| u.2 ||| t.2) := by
      rw [segStep, vals, if_neg (mt (any_special_pairs h).mp ordinary), hp, ht]
      simp only [addVal_pattern]
      rfl
    refine ⟨_, step, fun z => if_pos (zero.mpr z), fun some => ?_⟩
    rw [if_neg (mt zero.mp some)]
    have sign (n : Bool) : fp32.sign (n != decide (p.1 < 0)) = if (n != decide (q < 0)) = true then 2 ^ 31 else 0 := by rw [neg]; rfl
    have magnitude : fp32.mag t.1 = t.1 % 2 ^ 31 := rfl
    refine ⟨fun inf => ?_, fun nul => ?_, fun ninf nnul => ?_⟩
    · rw [unpack_inf fp32 (magnitude.trans inf)]
      rw [scaledDot, sign]; rfl
    · have fin : FpFinite fp32 t.1 := (fpFinite_iff _ _).mpr ⟨small, by rw [magnitude, nul]; decide⟩
      obtain ⟨m, g, eq, value⟩ := unpack_of_finite fin
      have : m = 0 := by
        have zeroVal : (fpValue fp32 t.1 : ℝ) = 0 := by rw [fpValue_eq, magnitude, nul, magnitude_zero]; simp
        rw [← value] at zeroVal
        exact val_eq_zero.mp (by exact_mod_cast zeroVal)
      rw [eq, this]
      rw [scaledDot, Nat.mul_zero, round_zero, sign]; rfl
    · have fin : FpFinite fp32 t.1 := by
        refine (fpFinite_iff _ _).mpr ⟨small, lt_of_le_of_ne (not_lt.mp fun c => ?_) fun c => ninf (magnitude.symm.trans c)⟩
        rw [(isNan_iff fp32 t.1).mpr c] at noNan
        cases noNan
      obtain ⟨m, g, eq, value⟩ := unpack_of_finite fin
      have some' : m ≠ 0 := fun c => by
        have : fpValue fp32 t.1 = 0 := by rw [← value, val_eq_zero.mpr c]
        have : (fpValue fp32 t.1 : ℝ) = 0 := by rw [this]; simp
        rw [fpValue_eq] at this
        have zeroMag : fp32.magnitude (fp32.mag t.1) = 0 := by split at this <;> linarith
        exact nnul (magnitude.symm.trans (magnitude_eq_zero.mp zeroMag))
      rw [eq, scaledDot]
      have product : q * fpValue fp32 t.1 = (Fp.fin (t.1.testBit (fp32.eb + fp32.fb) != decide (p.1 < 0)) (p.1.natAbs * m) (p.2 + g - sa.d - sb.d)).val := by
        have q' : q = exactVal p * 2 ^ (-(sa.d : ℤ) - sb.d) := by
          rw [dot, mul_assoc, ← zpow_natCast, ← zpow_add₀ (by norm_num), show ((sa.d + sb.d : ℕ) : ℤ) + (-(sa.d : ℤ) - sb.d) = 0 by push_cast; ring]; simp
        rw [Nat.mul_comm, show p.2 + g - sa.d - sb.d = g + (p.2 + (-(sa.d : ℤ) - sb.d)) by ring, val_mul, value, natAbs_val, q', exactVal,
          zpow_add₀ (by norm_num) p.2]
        ring
      rw [product]
      exact rounded_fin usual_fp32 (Nat.mul_ne_zero (Int.natAbs_ne_zero.mpr (mt zero.mp some)) some') _

end

end Sys2Proof.Machine
end

section
/-! An accumulator element over the segments of a row and a column (R116, R132). -/

namespace Sys2Proof.Machine

open Sys2Proof.Claims

/-! ### Segments of a line -/

/-- The element of the model at position `i` of a line whose header is `h`. -/
def lineElem (t : Tag) (l : Line) (h i : ℕ) : Fp :=
  if t.isSb then
    .fin (decodeSb (t == .sb8) (headerSel h) (l.payload / 2 ^ (codeBits (t == .sb8) * i) % 2 ^ codeBits (t == .sb8))).1
      (decodeSb (t == .sb8) (headerSel h) (l.payload / 2 ^ (codeBits (t == .sb8) * i) % 2 ^ codeBits (t == .sb8))).2 0
  else unpack t.fmt (l.payload / 2 ^ (t.bits * i) % 2 ^ t.bits)

/-- Segment `j` of a line. -/
def segOf (t : Tag) (len : ℕ) (l : Line) (j : ℕ) : Seg :=
  { scale := if t.isSb then blockScale (lineSide t l (len * j) % 2 ^ 32) (lineHeader t l (len * j) % 256) else 0x3F800000
    d := if t.isSb then denom (t == .sb8) (lineHeader t l (len * j) / 256 % 4) else 0
    vals := (List.range len).map fun k => lineElem t l (lineHeader t l (len * j)) (len * j + k) }

theorem lineSegs_eq (t : Tag) (len k : ℕ) (l : Line) : lineSegs t len k l = (List.range (k / len)).map (segOf t len l) := by
  rw [lineSegs, span_zero]
  refine List.map_congr_left fun j _ => ?_
  by_cases sb : t.isSb = true
  · have side : (l.sides[len * j / superLen (t == .sb8)]?).getD 0 = lineSide t l (len * j) := by
      rw [lineSide, superLen]; cases t <;> rfl
    have header : sideHeader (lineSide t l (len * j)) (len * j % superLen (t == .sb8) / blockLen (t == .sb8)) = lineHeader t l (len * j) := by
      rw [sideHeader, field_eq, lineHeader, superLen, blockLen]; cases t <;> rfl
    have sel : headerSel (lineHeader t l (len * j)) = lineHeader t l (len * j) / 256 % 4 := field_eq _ _ _
    have super : sideSuper (lineSide t l (len * j)) = lineSide t l (len * j) % 2 ^ 32 := by rw [sideSuper, field_eq, pow_zero, Nat.div_one]
    simp only [sb, if_true, side, header, segOf, super, headerCode, ← sel, span_eq_range', List.range'_eq_map_range, List.map_map, Function.comp_def, lineElem]
  · simp only [sb, if_false, Bool.false_eq_true, segOf, span_eq_range', List.range'_eq_map_range, List.map_map, Function.comp_def, lineElem]

/-- A segment lies in one block. -/
theorem lineHeader_segment {t : Tag} {len : ℕ} (fits : len = 32 ∨ (len = 64 ∧ t = .sb4)) (sb : t.isSb = true) (l : Line) {j k : ℕ} (hk : k < len) :
    lineSide t l (len * j + k) = lineSide t l (len * j) ∧ lineHeader t l (len * j + k) = lineHeader t l (len * j) := by
  have entry : (len * j + k) / (if t = .sb8 then 128 else 256) = len * j / (if t = .sb8 then 128 else 256) := by
    rcases fits with rfl | ⟨rfl, rfl⟩
    · split <;> omega
    · simp only [reduceCtorEq, if_false]; omega
  have side : lineSide t l (len * j + k) = lineSide t l (len * j) := by rw [lineSide, lineSide, entry]
  have block : (if t = .sb8 then (len * j + k) % 128 / 32 else (len * j + k) % 256 / 64) = if t = .sb8 then len * j % 128 / 32 else len * j % 256 / 64 := by
    rcases fits with rfl | ⟨rfl, rfl⟩
    · split <;> omega
    · simp only [reduceCtorEq, if_false]; omega
  exact ⟨side, by rw [lineHeader, lineHeader, side, block]⟩

section
variable {t : Tag} {l : Line} {K len : ℕ}

/-- The tags whose elements the matrix unit multiplies. -/
def MatTag (t : Tag) : Prop := t.isSb = true ∨ t = .fp32 ∨ t = .bf16 ∨ t = .fp16

theorem factorOf_line (ok : MatTag t) (good : LineGood t l K) (fits : len = 32 ∨ (len = 64 ∧ t = .sb4)) {j k : ℕ} (hj : j < K / len) (hk : k < len) :
    FactorOf (lineElem t l (lineHeader t l (len * j)) (len * j + k)) (segOf t len l j).d (lineFactor t l (len * j + k)) := by
  have inside : len * j + k < K := by
    have := Nat.div_mul_le_self K len
    have : (j + 1) * len ≤ K / len * len := Nat.mul_le_mul_right _ hj
    rw [Nat.succ_mul, Nat.mul_comm j] at this; omega
  by_cases sb : t.isSb = true
  · obtain ⟨-, header⟩ := lineHeader_segment fits sb l (j := j) hk
    have sel := selectorOk_of_good (good sb _ inside).1
    rw [header] at sel
    have selEq : headerSel (lineHeader t l (len * j)) = lineHeader t l (len * j) / 256 % 4 := field_eq _ _ _
    have bits : (if t = .sb8 then 8 else 4) = codeBits (t == .sb8) := by cases t <;> rfl
    simp only [lineElem, segOf, lineFactor, sb, if_true, header, bits, ← selEq]
    exact factorOf_code sel _
  · simp only [lineElem, segOf, lineFactor, sb, if_false, Bool.false_eq_true]
    refine factorOf_pattern _ _ ?_
    have width : t.bits = t.fmt.width := by
      rcases ok with h | rfl | rfl | rfl
      · exact absurd h sb
      all_goals rfl
    rw [← width]
    exact Nat.mod_lt _ (by positivity)

theorem lineScale_line (good : LineGood t l K) (pos : 0 < len) {j : ℕ} (hj : j < K / len) : LineScale t l (len * j) (segOf t len l j).scale := by
  have inside : len * j < K := by
    have := Nat.div_mul_le_self K len
    have : (j + 1) * len ≤ K / len * len := Nat.mul_le_mul_right _ hj
    rw [Nat.succ_mul, Nat.mul_comm j] at this; omega
  refine ⟨fun sb => ?_, fun no => by rw [segOf, no]; rfl⟩
  simp only [segOf, sb, if_true]
  refine blockScale_spec ⟨Nat.mod_lt _ (by positivity), ?_⟩ _
  have := (good sb _ inside).2
  have field : lineSide t l (len * j) % 2 ^ 32 / 2 ^ 23 % 2 ^ 8 = lineSide t l (len * j) / 2 ^ 23 % 256 := by omega
  change lineSide t l (len * j) % 2 ^ 32 / 2 ^ 23 % 2 ^ 8 ≠ 255
  rw [field]; exact this

end

/-! ### Steps -/

theorem foldSteps_range {α : Type} (step : ℕ → α → FpResult) (acc : ℕ) (g : ℕ → α) (n : ℕ) :
    foldSteps step acc ((List.range (n + 1)).map g) =
      ((step (foldSteps step acc ((List.range n).map g)).1 (g n)).1,
        (foldSteps step acc ((List.range n).map g)).2 ||| (step (foldSteps step acc ((List.range n).map g)).1 (g n)).2) := by
  rw [foldSteps, List.range_succ, List.map_append, List.foldl_append]; rfl

theorem foldSteps_flags {α : Type} (step : ℕ → α → FpResult) (acc : ℕ) (g : ℕ → α) (n k : ℕ) :
    (foldSteps step acc ((List.range n).map g)).2.getLsbD k = true ↔
      ∃ j, j < n ∧ (step (foldSteps step acc ((List.range j).map g)).1 (g j)).2.getLsbD k = true := by
  induction n with
  | zero => simp [foldSteps]
  | succ n ih =>
    rw [foldSteps_range, BitVec.getLsbD_or, Bool.or_eq_true, ih]
    constructor
    · rintro (⟨j, hj, h⟩ | h)
      exacts [⟨j, by omega, h⟩, ⟨n, by omega, h⟩]
    · rintro ⟨j, hj, h⟩
      rcases Nat.lt_or_eq_of_le (Nat.le_of_lt_succ hj) with lt | rfl
      exacts [.inl ⟨j, lt, h⟩, .inr h]

theorem groupStep_lt (acc : ℕ) (ps : List (Fp × Fp)) : (groupStep acc ps).1 < 2 ^ 32 := by
  by_cases special : (ps.any fun p => isSpecial p.1 || isSpecial p.2) = true
  · rw [groupStep, if_pos special]; exact addVal_lt _ _
  · cases h : nonzero ps with
    | nil => rw [groupStep_nil special h]; exact addVal_lt _ _
    | cons x rest => rw [groupStep_cons special h]; exact addVal_lt _ _

theorem zip_range {α β : Type} (n : ℕ) (g : ℕ → α) (h : ℕ → β) : ((List.range n).map g).zip ((List.range n).map h) = (List.range n).map fun j => (g j, h j) := by
  rw [List.zip_map']

/-- The accumulator before step `j` of a chain of steps. -/
def accBefore {α : Type} (step : ℕ → α → FpResult) (acc : ℕ) (g : ℕ → α) (j : ℕ) : ℕ := (foldSteps step acc ((List.range j).map g)).1

theorem accBefore_succ {α : Type} (step : ℕ → α → FpResult) (acc : ℕ) (g : ℕ → α) (j : ℕ) :
    accBefore step acc g (j + 1) = (step (accBefore step acc g j) (g j)).1 := by
  rw [accBefore, foldSteps_range]; rfl

/-- The length of a segment of a pair of operands (R116, R132). -/
def segLen (tA tB : Tag) : ℕ := if tA = .sb4 ∧ tB = .sb4 then 64 else 32

theorem segLen_fits (tA tB : Tag) : (segLen tA tB = 32 ∨ (segLen tA tB = 64 ∧ tA = .sb4)) ∧ (segLen tA tB = 32 ∨ (segLen tA tB = 64 ∧ tB = .sb4)) := by
  by_cases both : tA = .sb4 ∧ tB = .sb4
  · exact ⟨.inr ⟨if_pos both, both.1⟩, .inr ⟨if_pos both, both.2⟩⟩
  · exact ⟨.inl (if_neg both), .inl (if_neg both)⟩

theorem segLen_pos (tA tB : Tag) : 0 < segLen tA tB := by
  rw [segLen]; split <;> norm_num

theorem segLen_plain {tA tB : Tag} (no : tA.isSb = false) : segLen tA tB = 32 := by
  rw [segLen, if_neg]; rintro ⟨rfl, -⟩; cases no

/-- A chain of steps is an accumulation where each step does what R116 and R132 say of its segment. -/
theorem accumulated_of_steps {α : Type} {step : ℕ → α → FpResult} {g : ℕ → α} {tA tB : Tag} {K acc : ℕ} {row col : Line}
    (plain : ∀ j, j < K / segLen tA tB → tA.isSb = false ∧ tB.isSb = false →
      GroupStep (fun k => lineFactor tA row (segLen tA tB * j + k)) (fun k => lineFactor tB col (segLen tA tB * j + k)) (accBefore step acc g j)
        (step (accBefore step acc g j) (g j)))
    (sb : ∀ j, j < K / segLen tA tB → tA.isSb = true ∨ tB.isSb = true →
      ∃ bA bB, LineScale tA row (segLen tA tB * j) bA ∧ LineScale tB col (segLen tA tB * j) bB ∧
        SegmentStep (segLen tA tB) bA bB (fun k => lineFactor tA row (segLen tA tB * j + k)) (fun k => lineFactor tB col (segLen tA tB * j + k))
          (accBefore step acc g j) (step (accBefore step acc g j) (g j))) :
    Accumulated tA tB K row col acc (foldSteps step acc ((List.range (K / segLen tA tB)).map g)) := by
  refine ⟨accBefore step acc g, fun j => (step (accBefore step acc g j) (g j)).2, rfl, rfl, fun k => foldSteps_flags _ _ _ _ k, fun j hj => ⟨fun no => ?_, fun yes => ?_⟩⟩
  · rw [accBefore_succ]; exact plain j hj no
  · rw [accBefore_succ]; exact sb j hj yes

section
variable {tA tB : Tag} {K : ℕ} {row col : Line} {acc : ℕ}

theorem factors_segment (okA : MatTag tA) (okB : MatTag tB) (goodA : LineGood tA row K) (goodB : LineGood tB col K) {j : ℕ} (hj : j < K / segLen tA tB) :
    Factors (fun k => lineElem tA row (lineHeader tA row (segLen tA tB * j)) (segLen tA tB * j + k))
      (fun k => lineElem tB col (lineHeader tB col (segLen tA tB * j)) (segLen tA tB * j + k)) (segOf tA (segLen tA tB) row j).d
      (segOf tB (segLen tA tB) col j).d (segLen tA tB) (fun k => lineFactor tA row (segLen tA tB * j + k)) (fun k => lineFactor tB col (segLen tA tB * j + k)) :=
  ⟨fun _ hk => factorOf_line okA goodA (segLen_fits tA tB).1 hj hk, fun _ hk => factorOf_line okB goodB (segLen_fits tA tB).2 hj hk⟩

theorem vals_segment (tA tB : Tag) (row col : Line) (len j : ℕ) : (segOf tA len row j).vals.zip (segOf tB len col j).vals =
    pairs (fun k => lineElem tA row (lineHeader tA row (len * j)) (len * j + k)) (fun k => lineElem tB col (lineHeader tB col (len * j)) (len * j + k)) len :=
  zip_range _ _ _

/-- One step of a pair without SB operands. -/
def plainStep (r : ℕ) (p : Seg × Seg) : FpResult := groupStep r (p.1.vals.zip p.2.vals)

/-- One step of an SB pair. -/
def sbStep (r : ℕ) (p : Seg × Seg) : FpResult := segStep r p.1 p.2

theorem accBefore_plain_lt (small : acc < 2 ^ 32) (g : ℕ → Seg × Seg) (j : ℕ) : accBefore plainStep acc g j < 2 ^ 32 := by
  cases j with
  | zero => exact small
  | succ j => rw [accBefore_succ]; exact groupStep_lt _ _

theorem accumulate_eq (sb : Bool) (acc : ℕ) (as bs : List Seg) :
    accumulate sb acc as bs = if sb then foldSteps sbStep acc (as.zip bs) else foldSteps plainStep acc (as.zip bs) := rfl

theorem groupStep_segment (okA : MatTag tA) (okB : MatTag tB) (goodA : LineGood tA row K) (goodB : LineGood tB col K)
    (no : tA.isSb = false ∧ tB.isSb = false) {j : ℕ} (hj : j < K / segLen tA tB) {a : ℕ} (small : a < 2 ^ 32) :
    GroupStep (fun k => lineFactor tA row (segLen tA tB * j + k)) (fun k => lineFactor tB col (segLen tA tB * j + k)) a
      (plainStep a (segOf tA (segLen tA tB) row j, segOf tB (segLen tA tB) col j)) := by
  have these := factors_segment okA okB goodA goodB hj
  have units : (segOf tA (segLen tA tB) row j).d = 0 ∧ (segOf tB (segLen tA tB) col j).d = 0 := by simp [segOf, no]
  rw [units.1, units.2] at these
  rw [plainStep, vals_segment]
  rw [segLen_plain no.1] at these ⊢
  exact groupStep_spec these small

/-- What an accumulator element becomes (R116, R132). -/
theorem accumulate_accumulated (small : acc < 2 ^ 32) (okA : MatTag tA) (okB : MatTag tB) (goodA : LineGood tA row K) (goodB : LineGood tB col K) :
    Accumulated tA tB K row col acc (accumulate (tA.isSb || tB.isSb) acc (lineSegs tA (segLen tA tB) K row) (lineSegs tB (segLen tA tB) K col)) := by
  rw [lineSegs_eq, lineSegs_eq, accumulate_eq, zip_range]
  by_cases sb : (tA.isSb || tB.isSb) = true
  · rw [if_pos sb]
    refine accumulated_of_steps (fun j hj no => ?_) fun j hj _ => ?_
    · rw [no.1, no.2] at sb; cases sb
    · exact ⟨_, _, lineScale_line goodA (segLen_pos tA tB) hj, lineScale_line goodB (segLen_pos tA tB) hj,
        segStep_spec (factors_segment okA okB goodA goodB hj) (vals_segment ..) _⟩
  · rw [if_neg sb]
    have no : tA.isSb = false ∧ tB.isSb = false := by simpa using sb
    refine accumulated_of_steps (fun j hj _ => groupStep_segment okA okB goodA goodB no hj (accBefore_plain_lt small _ j)) fun j hj c => ?_
    rw [no.1, no.2] at c; simp at c

end

end Sys2Proof.Machine
end

section
/-! What the element-wise end of a vector instruction leaves (R357), and the matrix unit's checks, MSHAPE and MZERO (R220, R221, R225). -/

namespace Sys2Proof.Machine

open Sys2Proof.Claims

/-! ### Elements written -/

section
variable {x : Ctx} {d : BitVec 5} {w i : ℕ} {res : List (ℕ × FpResult)} {t : Tag}

theorem v_wrote : (x.wrote d w res t).v = regSet x.v d (setElems (regGet x.v d) w (res.map fun e => (e.1, e.2.1))) := rfl

theorem vel_wrote_of_not_mem (h : ∀ e ∈ res, e.1 ≠ i) : vel (x.wrote d w res t) d w i = vel x d w i := by
  rw [vel_eq_elem, vel_eq_elem, v_wrote, regGet_regSet_same, elem_setElems_of_not_mem]
  simp only [List.mem_map, forall_exists_index, and_imp]
  rintro _ e he rfl
  exact h e he

theorem vel_wrote_of_mem {y : ℕ} (fits : (i + 1) * w ≤ 8192) (named : ∃ e ∈ res, e.1 = i) (agree : ∀ e ∈ res, e.1 = i → e.2.1 = y) :
    vel (x.wrote d w res t) d w i = y % 2 ^ w := by
  rw [vel_eq_elem, v_wrote, regGet_regSet_same, elem_setElems_of_mem _ fits]
  · simpa using named
  · simp only [List.mem_map, forall_exists_index, and_imp]
    rintro _ e he rfl
    exact agree e he

theorem regGet_wrote_other {q : BitVec 5} (h : q ≠ d) : regGet (x.wrote d w res t).v q = regGet x.v q := by
  rw [v_wrote, regGet_regSet_other _ _ _ _ h]

/-- What an element-wise instruction leaves, where its elements are as `f` says. -/
theorem vecWrote_wrote {f : ℕ → ℕ} (plain : t.isSb = false) (elems : ∀ i, (i + 1) * w ≤ 8192 → vel (x.wrote d w res t) d w i = f i) :
    VecWrote x (x.wrote d w res t).advance d w t (unionFlags (res.map (·.2.2))) f := by
  refine ⟨?_, fun q hq => regGet_wrote_other (t := t) hq, elems⟩
  simp only [Ctx.wrote, Ctx.setVec, plain, Ctx.raiseFlags, Ctx.advance]
  rfl

end

theorem sameBytes_of_cores {s t : State} (mem : t.mem = s.mem) (cores : ∀ k, (t.core k).frames = (s.core k).frames) : SameBytes s t := by
  intro l
  cases l with
  | phys a => simp [State.locByte, mem]
  | frame k i o => simp only [State.locByte, Core.frame, cores]

theorem unionFlags_zero {l : List (BitVec 5)} (h : ∀ f ∈ l, f = 0) : unionFlags l = 0 := by
  refine BitVec.eq_of_getLsbD_eq fun c _ => Bool.eq_iff_iff.mpr ?_
  rw [getLsbD_unionFlags]
  constructor
  · rintro ⟨f, hf, bit⟩; rwa [h f hf] at bit
  · simp

/-! ### Checks -/

section
variable {i : Instr} {f : BitVec 3} {s : State}

theorem unmarked_eq (s : State) :
    s.unmarked = if s.me.busy = true ∨ s.me.stall ≠ [] then s.setMe { s.me with stall := [], busy := false } else s := by
  have marked : (s.me.busy || !s.me.stall.isEmpty) = true ↔ s.me.busy = true ∨ s.me.stall ≠ [] := by simp
  rw [State.unmarked]
  by_cases h : s.me.busy = true ∨ s.me.stall ≠ []
  · rw [if_pos (marked.mpr h), if_pos h]; rfl
  · rw [if_neg (mt marked.mp h), if_neg h]

/-- What a package must enable for a matrix instruction with a format (R63). -/
def SbEnabled (s : State) (f : BitVec 3) : Prop := f.toNat ≤ 2 ∨ s.myPkg.enable.getLsbD 2 = true

theorem matTag_isSb (f : BitVec 3) : (matTag f).isSb = true ↔ ¬f.toNat ≤ 2 := by
  revert f; decide

theorem run_feature_off {n : ℕ} (off : ¬s.myPkg.enable.getLsbD n = true) (i : Instr) : (feature n i).run s = (.error (.trap 0x004 (instrWord i) noInfo), s) := by
  rw [run_feature, if_neg off]

theorem run_feature_on {n : ℕ} (on : s.myPkg.enable.getLsbD n = true) (i : Instr) : (feature n i).run s = (.ok (), s) := by
  rw [run_feature, if_pos on]

theorem run_matFeatures_off (off : ¬s.myPkg.enable.getLsbD 1 = true) (i : Instr) (f : BitVec 3) :
    (matFeatures i f).run s = (.error (.trap 0x004 (instrWord i) noInfo), s) := by
  simp only [matFeatures, run_bind, run_feature_off off]

theorem run_matFeatures (on : s.myPkg.enable.getLsbD 1 = true) (sb : SbEnabled s f) (i : Instr) : (matFeatures i f).run s = (.ok (), s) := by
  simp only [matFeatures, run_bind, run_feature_on on]
  by_cases h : (matTag f).isSb = true
  · rw [if_pos h, run_feature_on (sb.resolve_left ((matTag_isSb f).mp h))]
  · rw [if_neg h]; rfl

/-- The matrix unit of the context's core. -/
def State.unit (s : State) : MatrixUnit := (s.core (s.cur / 4)).mu

/-- A state with another matrix unit in the context's core. -/
def State.withUnit (s : State) (v : MatrixUnit) : State := s.setCore (s.cur / 4) { s.core (s.cur / 4) with mu := v }

theorem run_heldUnit (mine : s.unit.holder = some s.cur) (i : Instr) : (heldUnit i).run s = (.ok s.unit, s) := by
  have held : ((s.core (coreOf s.cur)).mu.holder == some s.cur) = true := by rw [beq_iff_eq]; exact mine
  simp only [heldUnit, run_bind, run_getS, held, run_check_true]
  rfl

theorem run_heldUnit_not (other : ¬s.unit.holder = some s.cur) (i : Instr) : (heldUnit i).run s = (.error (.trap 0x210 (instrWord i) noInfo), s) := by
  have held : ((s.core (coreOf s.cur)).mu.holder == some s.cur) = false := by rw [beq_eq_false_iff_ne]; exact other
  simp only [heldUnit, run_bind, run_getS, held, run_check_false]

theorem run_modUnit (g : MatrixUnit → MatrixUnit) (s : State) : (modUnit g).run s = (.ok (), s.withUnit (g s.unit)) := rfl

@[simp] theorem withUnit_me (s : State) (v : MatrixUnit) : (s.withUnit v).me = s.me := rfl
@[simp] theorem withUnit_unit (s : State) (v : MatrixUnit) : (s.withUnit v).unit = v := by simp [State.withUnit, State.unit]
@[simp] theorem withUnit_cur (s : State) (v : MatrixUnit) : (s.withUnit v).cur = s.cur := rfl

theorem frames_withUnit (s : State) (v : MatrixUnit) (k : ℕ) : ((s.withUnit v).core k).frames = (s.core k).frames := by
  by_cases h : k = s.cur / 4
  · subst h; simp [State.withUnit]
  · simp [State.withUnit, core_setCore_other _ _ _ _ h]

end

/-! ### Without the feature or the unit -/

section
variable {s : State} (d a b : BitVec 5) (t f : BitVec 3) (h : BitVec 1)

/-- Every matrix instruction needs ENABLE.MAT. -/
theorem matrix_disabled (off : ¬s.myPkg.enable.getLsbD 1 = true) :
    ∀ i ∈ ([.mshape d a f, .mzero t, .mldb d a b h f, .mma d a b t h f, .mst d a t, .mmovTo d a t, .mmovFrom d a t] : List Instr),
      Traps i s 0x004 ((encode i).setWidth 64) := by
  simp only [List.forall_mem_cons, List.not_mem_nil, false_imp_iff, implies_true, and_true]
  refine ⟨complete_trap (t := s) ?_, complete_trap (t := s) ?_, complete_trap (t := s) ?_, complete_trap (t := s) ?_, complete_trap (t := s) ?_,
    complete_trap (t := s) ?_, complete_trap (t := s) ?_⟩
  · rw [run_bind, run_matFeatures_off off]; rfl
  · rw [run_bind, run_feature_off off]; rfl
  · rw [run_bind, run_matFeatures_off off]; rfl
  · rw [run_bind, run_matFeatures_off off]; rfl
  · rw [run_bind, run_feature_off off]; rfl
  · rw [run_bind, mmovRow, run_bind, run_feature_off off]; rfl
  · rw [run_bind, mmovRow, run_bind, run_feature_off off]; rfl

/-- Without the unit an instruction that uses it traps. -/
theorem matrix_notHeld (on : s.myPkg.enable.getLsbD 1 = true) (other : ¬s.unit.holder = some s.cur) :
    ∀ i ∈ ([.mzero t, .mst d a t, .mmovTo d a t, .mmovFrom d a t] : List Instr), Traps i s 0x210 ((encode i).setWidth 64) := by
  simp only [List.forall_mem_cons, List.not_mem_nil, false_imp_iff, implies_true, and_true]
  refine ⟨complete_trap (t := s) ?_, complete_trap (t := s) ?_, complete_trap (t := s) ?_, complete_trap (t := s) ?_⟩
  · simp only [run_bind, run_feature_on on, run_heldUnit_not other]; rfl
  · simp only [run_bind, run_feature_on on, run_heldUnit_not other]; rfl
  · simp only [mmovRow, run_bind, run_feature_on on, run_heldUnit_not other]; rfl
  · simp only [mmovRow, run_bind, run_feature_on on, run_heldUnit_not other]; rfl

theorem matrix_notHeld_format (on : s.myPkg.enable.getLsbD 1 = true) (sb : SbEnabled s f) (other : ¬s.unit.holder = some s.cur) :
    ∀ i ∈ ([.mldb d a b h f, .mma d a b t h f] : List Instr), Traps i s 0x210 ((encode i).setWidth 64) := by
  simp only [List.forall_mem_cons, List.not_mem_nil, false_imp_iff, implies_true, and_true]
  refine ⟨complete_trap (t := s) ?_, complete_trap (t := s) ?_⟩
  · simp only [run_bind, run_matFeatures on sb, run_heldUnit_not other]; rfl
  · simp only [run_bind, run_matFeatures on sb, run_heldUnit_not other]; rfl

end

/-! ### MSHAPE and MZERO -/

section
variable {s : State} {d a : BitVec 5} {f : BitVec 3}

theorem shapeRequestOk_iff (v : Word) : shapeRequestOk v = true ↔ v.toNat / 2 ^ 32 = 0 ∧ v.toNat / 2 ^ 11 % 32 = 0 := by
  have small : v.toNat / 2 ^ 32 % 2 ^ 32 = v.toNat / 2 ^ 32 := Nat.mod_eq_of_lt (by have := v.isLt; omega)
  rw [shapeRequestOk, Bool.and_eq_true, beq_iff_eq, beq_iff_eq, field_eq, field_eq, small]
  rfl

/-- The granule and the largest length of a format (R221). -/
def shapeGranule (f : BitVec 3) : ℕ := if f.toNat = 3 then 64 else 32
def shapeLimit (f : BitVec 3) : ℕ := if f.toNat = 0 then 128 else if f.toNat ≤ 2 then 256 else if f.toNat = 3 then 1024 else 512

theorem matK_eq (f : BitVec 3) : matK f = (shapeGranule f, shapeLimit f) := by
  revert f; decide

theorem grantShape_eq (c : ℕ) (v : Word) (f : BitVec 3) : grantShape c v f =
    { m := min (min (max (v.toNat / 2 ^ 24 % 256) 1) 64) (8 * c)
      n := min (max (v.toNat / 2 ^ 16 % 256) 1) 64
      k := min (max ((v.toNat % 2048 + shapeGranule f - 1) / shapeGranule f * shapeGranule f) (shapeGranule f)) (shapeLimit f)
      fmt := f } := by
  rw [grantShape, matK_eq, field_eq, field_eq, field_eq, pow_zero, Nat.div_one]
  rfl

theorem mshape_malformed (on : s.myPkg.enable.getLsbD 1 = true) (sb : SbEnabled s f)
    (bad : (s.me.reg a).toNat / 2 ^ 32 ≠ 0 ∨ (s.me.reg a).toNat / 2 ^ 11 % 32 ≠ 0) : Traps (.mshape d a f) s 0x211 (s.me.reg a) := by
  refine complete_trap (t := s) ?_
  have refused : shapeRequestOk (s.me.reg a) = false := by
    rw [← Bool.not_eq_true, shapeRequestOk_iff]; omega
  simp only [run_bind, run_matFeatures on sb, refused, run_check_false]

theorem mshape_waits (on : s.myPkg.enable.getLsbD 1 = true) (sb : SbEnabled s f)
    (good : (s.me.reg a).toNat / 2 ^ 32 = 0 ∧ (s.me.reg a).toNat / 2 ^ 11 % 32 = 0) {c : ℕ} (held : s.unit.holder = some c) (other : c ≠ s.cur) :
    Waits (.mshape d a f) s := by
  have taken : ((s.core (coreOf s.cur)).mu.holder.isSome && (s.core (coreOf s.cur)).mu.holder != some s.cur) = true := by
    rw [show (s.core (coreOf s.cur)).mu.holder = some c from held]; simpa using other
  rw [Waits, ← unmarked_eq]
  refine complete_wait (t := s) ?_
  simp only [run_bind, run_matFeatures on sb, (shapeRequestOk_iff _).mpr good, run_check_true, taken, if_true, run_throw]

/-- The unit that a grant leaves. -/
def granted (s : State) (a : BitVec 5) (f : BitVec 3) : MatrixUnit :=
  { (if s.unit.holder = none then Core.reset.mu else s.unit) with holder := some s.cur, shape := grantShape s.myPkg.ceil (s.me.reg a) f }

/-- The extents of a grant as they are returned. -/
def grantWord (s : State) (a : BitVec 5) (f : BitVec 3) : Word :=
  BitVec.ofNat 64 ((granted s a f).shape.k + (granted s a f).shape.n * 2 ^ 16 + (granted s a f).shape.m * 2 ^ 24)

theorem regSet_advance (x : Ctx) (d : BitVec 5) (v : Word) : RegSet x (x.setReg d v).advance d v := by
  refine ⟨?_, ?_, fun r hr => ?_⟩
  · rw [Ctx.setReg]; split <;> rfl
  · by_cases zero : d = 0#5
    · subst zero; rfl
    · rw [if_neg zero]; exact reg_setReg_same x d v zero
  · exact reg_setReg_other x d r v hr

theorem wrote_setReg (t : State) (d : BitVec 5) (v : Word) : Claims.Wrote t (t.setMe (t.me.setReg d v).advance) d v := by
  refine ⟨onlyMe_setMe t _, fun l => by cases l <;> rfl, ?_⟩
  rw [me_setMe]
  exact regSet_advance t.me d v

theorem mshape_grants (on : s.myPkg.enable.getLsbD 1 = true) (sb : SbEnabled s f)
    (good : (s.me.reg a).toNat / 2 ^ 32 = 0 ∧ (s.me.reg a).toNat / 2 ^ 11 % 32 = 0) (free : s.unit.holder = none ∨ s.unit.holder = some s.cur) :
    ∃ y, exec (.mshape d a f) s = .next y ∧ Claims.Wrote (s.withUnit (granted s a f)) y d
      (grantWord s a f) := by
  have untaken : ((s.core (coreOf s.cur)).mu.holder.isSome && (s.core (coreOf s.cur)).mu.holder != some s.cur) = false := by
    change (s.unit.holder.isSome && s.unit.holder != some s.cur) = false
    rcases free with h | h <;> simp [h]
  refine ⟨_, Eq.trans (complete_ok (t := (s.withUnit (granted s a f)).setMe (s.me.setReg d (grantWord s a f))) ?_) ?_, wrote_setReg _ _ _⟩
  · simp only [run_bind, run_matFeatures on sb, (shapeRequestOk_iff _).mpr good, run_check_true, untaken, if_false, Bool.false_eq_true, run_modUnit]
    rw [run_modMe, grantWord, granted]
    simp only [Option.isNone_iff_eq_none]
    rfl
  · simp

theorem mzero_clears (on : s.myPkg.enable.getLsbD 1 = true) (mine : s.unit.holder = some s.cur) (t : BitVec 3) :
    exec (.mzero t) s = .next ((s.withUnit { s.unit with tiles := set8 s.unit.tiles t ⟨.fp32, 0⟩ }).setMe s.me.advance) := by
  refine complete_ok (t := s.withUnit { s.unit with tiles := set8 s.unit.tiles t ⟨.fp32, 0⟩ }) ?_
  simp only [run_bind, run_feature_on on, run_heldUnit mine, run_modUnit]
  rfl

end

end Sys2Proof.Machine
end

section
/-! Operands of the matrix unit in memory, MLDB, MMOV and MST (R222 to R225, R325 to R330). -/

namespace Sys2Proof.Machine

open Sys2Proof.Claims

section
variable {s y : State} {f : BitVec 3} {d a b : BitVec 5} {h : BitVec 1}

/-- The operand's base, stride and side base are aligned (R222). -/
def OperandAligned (x : Ctx) (f : BitVec 3) (d a b : BitVec 5) : Prop :=
  let n := if (matTag f).isSb then 128 else (matTag f).bits / 8
  (x.reg a).toNat % n = 0 ∧ (x.reg d).toNat % n = 0 ∧ ((matTag f).isSb = true → (x.reg b).toNat % 16 = 0)

theorem run_aligned {v : Word} {n : ℕ} (h : v.toNat % n = 0) (s : State) : (aligned v n).run s = (.ok (), s) :=
  run_check_of (by simpa using h) _ _ s

theorem run_operandAligned (h : OperandAligned s.me f d a b) (s' : State) :
    (operandAligned (matTag f) (s.me.reg a) (s.me.reg d) (s.me.reg b)).run s' = (.ok (), s') := by
  obtain ⟨base, stride, side⟩ := h
  simp only [operandAligned, run_bind, run_aligned base, run_aligned stride]
  by_cases sb : (matTag f).isSb = true
  · rw [if_pos sb, run_aligned (side sb)]
  · rw [if_neg sb]; rfl

theorem run_sideBase (h : (matTag f).isSb = true → b ≠ 0) (c : BitVec 10) (w : Word) (s : State) :
    (check (!(matTag f).isSb || b != 0#5) c w).run s = (.ok (), s) := by
  refine run_check_of ?_ _ _ _
  by_cases sb : (matTag f).isSb = true
  · simpa [sb] using h sb
  · simp [sb]

theorem cur_of_readLines {who : Who} {t : Tag} {k n : ℕ} {base stride side : Word} {r : Except Stop (List Line)}
    (reads : (readLines who t k n base stride side).run s = (r, y)) : y.cur = s.cur := by
  have kept : y.config = s.config := (Obeys.readLines (cfg := s.config) who t k n base stride side).ends reads rfl
  exact congrArg Setup.cur kept

theorem mldb_fills {ls : List Line} (on : s.myPkg.enable.getLsbD 1 = true) (mine : s.unit.holder = some s.cur) (sb : SbEnabled s f)
    (fmt : s.unit.shape.fmt = f) (base : (matTag f).isSb = true → b ≠ 0) (aligned : OperandAligned s.me f d a b)
    (reads : (readLines { s.who with path := .m } (matTag f) s.unit.shape.k s.unit.shape.n (s.me.reg a) (s.me.reg d) (s.me.reg b)).run s = (.ok ls, y)) :
    exec (.mldb d a b h f) s = .next ((y.withUnit (y.unit.setBuf h (fillBuffer (matTag f) s.unit.shape.k ls))).setMe y.me.advance) := by
  refine complete_ok (t := y.withUnit (y.unit.setBuf h (fillBuffer (matTag f) s.unit.shape.k ls))) ?_
  have same : (s.unit.shape.fmt == f) = true := by rw [beq_iff_eq]; exact fmt
  simp only [run_bind, run_matFeatures on sb, run_heldUnit mine, same, run_check_true, run_sideBase base, run_operandAligned aligned, reads, run_modUnit]

end

/-! ### MMOV -/

section
variable {s : State} {d a : BitVec 5} {t : BitVec 3}

theorem run_mmovRow (on : s.myPkg.enable.getLsbD 1 = true) (mine : s.unit.holder = some s.cur) (row : (s.me.reg a).toNat ≤ 63) (wide : sewBits s.me = 32)
    (i : Instr) : (mmovRow i (s.me.reg a)).run s = (.ok (s.unit, (s.me.reg a).toNat), s) := by
  have ok : (decide ((s.me.reg a).toNat ≤ 63) && s.me.width == 32) = true := by simp [row, width_eq_sewBits, wide]
  simp only [mmovRow, run_bind, run_feature_on on, run_heldUnit mine, run_getS, ok, run_check_true, run_pure]

theorem run_tileFp32 {u : MatrixUnit} (tag : (get8 u.tiles t).tag = .fp32) (s : State) : (tileFp32 u t).run s = (.ok (), s) :=
  run_check_of (by simp [tag]) _ _ s

theorem mem_moved {x : Ctx} {e : ℕ} : e ∈ x.moved ↔ x.vstart.toNat ≤ e ∧ e < x.vl.toNat ∧ e < 64 := by
  rw [Ctx.moved, span_eq_range', List.mem_range'_1]; omega

theorem mmovTo_gives (on : s.myPkg.enable.getLsbD 1 = true) (mine : s.unit.holder = some s.cur) (row : (s.me.reg a).toNat ≤ 63) (wide : sewBits s.me = 32)
    (tag : (get8 s.unit.tiles t).tag = .fp32) :
    VecGives (.mmovTo d a t) s d 32 .fp32 0 fun i =>
      if s.me.vstart.toNat ≤ i ∧ i < s.me.vl.toNat ∧ i < 64 then (get8 s.unit.tiles t).at (s.me.reg a).toNat i else vel s.me d 32 i := by
  let res := s.me.moved.map fun e => (e, (get8 s.unit.tiles t).at (s.me.reg a).toNat e, (0 : BitVec 5))
  have runs : exec (.mmovTo d a t) s = .next (s.setMe (s.me.wrote d 32 res .fp32).advance) := by
    refine (complete_ok (t := s.setMe (s.me.wrote d 32 res .fp32)) ?_).trans (by simp)
    simp only [run_bind, run_mmovRow on mine row wide, run_tileFp32 tag, run_modMe]
    rfl
  refine ⟨_, runs, onlyMe_setMe _ _, fun l => by cases l <;> rfl, ?_⟩
  rw [me_setMe]
  have none : unionFlags (res.map (·.2.2)) = 0 := unionFlags_zero (by simp [res])
  rw [← none]
  refine vecWrote_wrote rfl fun i fits => ?_
  by_cases here : s.me.vstart.toNat ≤ i ∧ i < s.me.vl.toNat ∧ i < 64
  · have small : (get8 s.unit.tiles t).at (s.me.reg a).toNat i < 2 ^ 32 := BitVec.isLt _
    rw [if_pos here, ← Nat.mod_eq_of_lt small]
    refine vel_wrote_of_mem fits ⟨_, List.mem_map_of_mem (mem_moved.mpr here), rfl⟩ ?_
    simp only [res, List.mem_map, forall_exists_index, and_imp]
    rintro _ e _ rfl rfl
    rfl
  · rw [if_neg here]
    refine vel_wrote_of_not_mem ?_
    simp only [res, List.mem_map, forall_exists_index, and_imp]
    rintro _ e he rfl rfl
    exact here (mem_moved.mp he)

/-- The bits of a tile, element by element. -/
def tileElem (x : BitVec 131072) (i j : ℕ) : ℕ := (slice x (32 * (64 * i + j)) 32).toNat

theorem tileElem_splice_same (x : BitVec 131072) {i j : ℕ} (hi : i < 64) (hj : j < 64) (v : ℕ) :
    tileElem (splice x (32 * (64 * i + j)) 32 v) i j = v % 2 ^ 32 := by
  rw [tileElem, slice_splice_ofNat _ _ _ _ (by omega), BitVec.toNat_ofNat]

theorem tileElem_splice_other (x : BitVec 131072) {i j k l : ℕ} (hj : j < 64) (hl : l < 64) (other : (i, j) ≠ (k, l)) (v : ℕ) :
    tileElem (splice x (32 * (64 * k + l)) 32 v) i j = tileElem x i j := by
  have apart : 64 * i + j ≠ 64 * k + l := fun e => other (by rw [Prod.mk.injEq]; omega)
  rw [tileElem, slice_splice_other _ _ _ _ _ _ (by omega), tileElem]

/-- The row of a tile with some of its elements replaced. -/
def withRow (x : BitVec 131072) (row : ℕ) (g : ℕ → ℕ) (es : List ℕ) : BitVec 131072 :=
  es.foldl (fun v e => splice v (32 * (64 * row + e)) 32 (g e)) x

theorem tileElem_withRow (x : BitVec 131072) {row i j : ℕ} (hrow : row < 64) (hj : j < 64) (g : ℕ → ℕ) {es : List ℕ} (inside : ∀ e ∈ es, e < 64) :
    tileElem (withRow x row g es) i j = if i = row ∧ j ∈ es then g j % 2 ^ 32 else tileElem x i j := by
  induction es generalizing x with
  | nil => simp [withRow]
  | cons e es ih =>
    rw [withRow, List.foldl_cons, ← withRow, ih _ fun k hk => inside k (.tail _ hk)]
    by_cases later : i = row ∧ j ∈ es
    · rw [if_pos later, if_pos ⟨later.1, .tail _ later.2⟩]
    · rw [if_neg later]
      by_cases here : i = row ∧ j = e
      · obtain ⟨rfl, rfl⟩ := here
        rw [tileElem_splice_same _ hrow hj, if_pos ⟨rfl, .head _⟩]
      · rw [tileElem_splice_other _ hj (inside e (.head _)) (by rw [ne_eq, Prod.mk.injEq]; exact here), if_neg]
        rintro ⟨r, c⟩
        rcases List.mem_cons.mp c with c | c
        exacts [here ⟨r, c⟩, later ⟨r, c⟩]

/-- The tile's bits that MMOV.from starts from. -/
def tileBase (u : Tile) : BitVec 131072 := if u.tag == .unset then 0 else u.data

theorem tileElem_tileBase (u : Tile) (i j : ℕ) : tileElem (tileBase u) i j = if u.tag = .unset then 0 else u.at i j := by
  rw [tileBase]
  by_cases h : u.tag = .unset
  · simp [h, tileElem, slice]
  · simp [h, tileElem, Tile.at]

theorem mmovFrom_moves (on : s.myPkg.enable.getLsbD 1 = true) (mine : s.unit.holder = some s.cur) (row : (s.me.reg a).toNat ≤ 63) (wide : sewBits s.me = 32)
    (tag : regGet s.me.tag d = .fp32) :
    ∃ y g, exec (.mmovFrom d a t) s = .next y ∧
      y = (s.withUnit { s.unit with tiles := set8 s.unit.tiles t ⟨.fp32, g⟩ }).setMe { s.me.advance with vstart := 0 } ∧
      ∀ i j, i < 64 → j < 64 → (⟨.fp32, g⟩ : Tile).at i j =
        if i = (s.me.reg a).toNat ∧ s.me.vstart.toNat ≤ j ∧ j < s.me.vl.toNat then vel s.me d 32 j
        else if (get8 s.unit.tiles t).tag = .unset then 0 else (get8 s.unit.tiles t).at i j := by
  let g := withRow (tileBase (get8 s.unit.tiles t)) (s.me.reg a).toNat (s.me.at d) s.me.moved
  refine ⟨_, g, ?_, rfl, fun i j _ hj => ?_⟩
  · refine (complete_ok (t := (s.withUnit { s.unit with tiles := set8 s.unit.tiles t ⟨.fp32, g⟩ }).setMe { s.me with vstart := 0 }) ?_).trans ?_
    · simp only [run_bind, run_mmovRow on mine row wide, run_tagIs tag, run_getS, run_modUnit, run_modMe]
      rfl
    · rw [me_setMe, setMe_setMe]; rfl
  · change tileElem g i j = _
    rw [tileElem_withRow _ (by omega) hj _ fun e he => (mem_moved.mp he).2.2, tileElem_tileBase]
    have member : i = (s.me.reg a).toNat ∧ j ∈ s.me.moved ↔ i = (s.me.reg a).toNat ∧ s.me.vstart.toNat ≤ j ∧ j < s.me.vl.toNat := by
      rw [mem_moved]; constructor <;> rintro ⟨e, m⟩ <;> exact ⟨e, by omega⟩
    by_cases here : i = (s.me.reg a).toNat ∧ j ∈ s.me.moved
    · rw [if_pos here, if_pos (member.mp here), at_eq_vel, wide]
      exact Nat.mod_eq_of_lt (Nat.mod_lt _ (by positivity))
    · rw [if_neg here, if_neg (mt member.mpr here)]

/-! ### MST -/

/-- The address of an element that MST stores. -/
def mstAdr (x : Ctx) (d a : BitVec 5) (n e : ℕ) : ℕ := ((x.reg a).toNat + e / n * (x.reg d).toNat + 4 * (e % n)) % 2 ^ 64

theorem mstAdr_eq (x : Ctx) (d a : BitVec 5) (n e : ℕ) : (x.reg a + word (e / n) * x.reg d + word (4 * (e % n))).toNat = mstAdr x d a n e := by
  simp [mstAdr, word, BitVec.toNat_add, BitVec.toNat_mul]

/-- What MST queues for an element. -/
def tileStore (s : State) (t : BitVec 3) (pa : ℕ → ℕ) (e : ℕ) : QStore :=
  queued s.me (cells (pa e) 4 ((get8 s.unit.tiles t).at (e / s.unit.shape.n) (e % s.unit.shape.n))) false

theorem mst_queues (on : s.myPkg.enable.getLsbD 1 = true) (mine : s.unit.holder = some s.cur) {pa : ℕ → ℕ} (tag : (get8 s.unit.tiles t).tag = .fp32)
    (base : (s.me.reg a).toNat % 4 = 0) (stride : (s.me.reg d).toNat % 4 = 0)
    (mapped : ∀ e, e < s.unit.shape.m * s.unit.shape.n → Mapped s s.who .write (mstAdr s.me d a s.unit.shape.n e) 4 (pa e)) :
    exec (.mst d a t) s = .next (s.setMe { s.me.advance with
      vstores := s.me.vstores ++ (List.range (s.unit.shape.m * s.unit.shape.n)).map (tileStore s t pa) }) := by
  have inside : (stashOpen ((List.range (s.unit.shape.m * s.unit.shape.n)).map (mstAdr s.me d a s.unit.shape.n))).run s = (.ok (), s) := by
    refine run_stashOpen fun v hv window => ?_
    obtain ⟨e, he, rfl⟩ := List.mem_map.mp hv
    rw [inWindow_of_lt (mapped e (List.mem_range.mp he)).1] at window
    cases window
  have pass := passOver_withStores (s := s) (who := s.who) (accs := fun e => [(mstAdr s.me d a s.unit.shape.n e, 4)]) (ls := fun e => placesAt (pa e) 4)
    (effect := fun e ls v => withStore v (queued s.me (ls.zip (bytesOf 4 ((get8 s.unit.tiles t).at (e / s.unit.shape.n) (e % s.unit.shape.n)))) false))
    (q := tileStore s t pa) (List.pairwise_lt_range (n := s.unit.shape.m * s.unit.shape.n))
    (fun e he qs => by
      have := run_elementPlaces (who := s.who) (kind := .write) [0] (fun _ => mstAdr s.me d a s.unit.shape.n e) (fun _ => 4) (fun _ => pa e) fun _ _ =>
        (SameView.withStores s qs s.who).mapped (mapped e (List.mem_range.mp he))
      simpa using this)
    (fun e _ v => by rw [bytesOf_eq_leBytes]; rfl)
  obtain ⟨keys, runs⟩ := run_batchPass (mark := fun _ r => r) (res := fun _ _ => ())
    (act := fun e ls => queueStore s.me false false (ls.zip (bytesOf 4 ((get8 s.unit.tiles t).at (e / s.unit.shape.n) (e % s.unit.shape.n))))) pass fun _ _ _ _ => rfl
  rw [failures_of_found] at runs
  refine (complete_ok (t := withStores s ((List.range (s.unit.shape.m * s.unit.shape.n)).map (tileStore s t pa))) ?_).trans ?_
  · simp only [run_bind, run_feature_on on, run_heldUnit mine, run_tileFp32 tag, run_aligned base, run_aligned stride, mstAdr_eq, span_zero, inside, runs]
    rfl
  · rw [setMe_withStores, me_withStores]; rfl

end

end Sys2Proof.Machine
end

section
/-! The product of MMA (R223, R327), and the statement on the matrix unit. -/

namespace Sys2Proof.Machine

open Sys2Proof.Claims

/-! ### The product, element by element -/

theorem tileElem_eq (t : Tag) (x : BitVec 131072) (i j : ℕ) : (⟨t, x⟩ : Tile).at i j = tileElem x i j := rfl

/-- An element of a tile replaced, and the flags of its steps. -/
def putCell (z : ℕ → ℕ → FpResult) (acc : BitVec 131072 × BitVec 5) (p : ℕ × ℕ) : BitVec 131072 × BitVec 5 :=
  (splice acc.1 (32 * (64 * p.1 + p.2)) 32 (z p.1 p.2).1, acc.2 ||| (z p.1 p.2).2)

section
variable {z : ℕ → ℕ → FpResult} {ps : List (ℕ × ℕ)}

theorem tileElem_foldl_putCell (inside : ∀ p ∈ ps, p.1 < 64 ∧ p.2 < 64) (acc : BitVec 131072 × BitVec 5) {i j : ℕ} (hj : j < 64) :
    tileElem (ps.foldl (putCell z) acc).1 i j = if (i, j) ∈ ps then (z i j).1 % 2 ^ 32 else tileElem acc.1 i j := by
  induction ps generalizing acc with
  | nil => simp
  | cons p ps ih =>
    obtain ⟨hp1, hp2⟩ := inside p (.head _)
    rw [List.foldl_cons, ih fun q hq => inside q (.tail _ hq)]
    by_cases later : (i, j) ∈ ps
    · rw [if_pos later, if_pos (.tail _ later)]
    · rw [if_neg later]
      by_cases here : (i, j) = p
      · subst here
        rw [if_pos (.head _), putCell, tileElem_splice_same _ hp1 hp2]
      · rw [if_neg (by simp [here, later])]
        exact tileElem_splice_other _ hj hp2 here _

theorem flags_foldl_putCell (ps : List (ℕ × ℕ)) (acc : BitVec 131072 × BitVec 5) (k : ℕ) :
    (ps.foldl (putCell z) acc).2.getLsbD k = true ↔ acc.2.getLsbD k = true ∨ ∃ p ∈ ps, (z p.1 p.2).2.getLsbD k = true := by
  induction ps generalizing acc with
  | nil => simp
  | cons p ps ih => rw [List.foldl_cons, ih, putCell, BitVec.getLsbD_or, Bool.or_eq_true, or_assoc, List.exists_mem_cons_iff]

end

/-- The elements of a product of `m` rows and `n` columns, row by row. -/
def cellOrder (m n : ℕ) : List (ℕ × ℕ) := (List.range m).flatMap fun i => (List.range n).map fun j => (i, j)

theorem mem_cellOrder {m n : ℕ} {p : ℕ × ℕ} : p ∈ cellOrder m n ↔ p.1 < m ∧ p.2 < n := by
  obtain ⟨i, j⟩ := p
  simp [cellOrder]

theorem zip_range_length {α : Type} (l : List α) (d : α) : l.zip (List.range l.length) = (List.range l.length).map fun i => (l[i]?.getD d, i) := by
  refine List.ext_getElem (by simp) fun i h1 h2 => ?_
  have hi : i < l.length := by simpa using h2
  simp [List.getElem?_eq_getElem hi]

/-- An element of the product of R223. -/
def productCell (sa sb : Tag) (k : ℕ) (rows cols : List Line) (tile : BitVec 131072) (i j : ℕ) : FpResult :=
  accumulate (sa.isSb || sb.isSb) (tileElem tile i j) (lineSegs sa (segLen sa sb) k ((rows[i]?).getD ⟨0, []⟩))
    (lineSegs sb (segLen sa sb) k ((cols[j]?).getD ⟨0, []⟩))

theorem product_eq (sa sb : Tag) (k : ℕ) (rows cols : List Line) (tile : BitVec 131072) :
    product sa sb k rows cols tile = (cellOrder rows.length cols.length).foldl (putCell (productCell sa sb k rows cols tile)) (tile, 0) := by
  have len : (if sa == .sb4 && sb == .sb4 then 64 else 32) = segLen sa sb := by rw [segLen]; simp
  have lines (t : Tag) (ls : List Line) : (ls.map (lineSegs t (segLen sa sb) k)).zip (span 0 ls.length) =
      (List.range ls.length).map fun i => (lineSegs t (segLen sa sb) k ((ls[i]?).getD ⟨0, []⟩), i) := by
    rw [span_zero, List.zip_map_left, zip_range_length ls ⟨0, []⟩, List.map_map]; rfl
  rw [product, len, lines, lines, cellOrder, List.foldl_flatMap, List.foldl_map]
  simp only [List.foldl_map]
  rfl

/-! ### MMA -/

section
variable {s y : State} {f : BitVec 3} {d a b : BitVec 5} {h : BitVec 1} {t : BitVec 3} {rows : List Line}

/-- The lines of a buffer. -/
def bufferLines (u : MatrixUnit) (h : BitVec 1) : List Line := (List.range u.shape.n).map (bufferLine (u.buf h))

/-- The product that MMA adds to a tile. -/
def mmaProduct (u : MatrixUnit) (f : BitVec 3) (t : BitVec 3) (h : BitVec 1) (rows : List Line) : BitVec 131072 × BitVec 5 :=
  product (matTag f) (u.buf h).tag u.shape.k rows (bufferLines u h) (get8 u.tiles t).data

theorem mma_adds (on : s.myPkg.enable.getLsbD 1 = true) (mine : s.unit.holder = some s.cur) (sb : SbEnabled s f)
    (base : (matTag f).isSb = true → b ≠ 0) (aligned : OperandAligned s.me f d a b) (accepts : bufferAccepts (matTag f) (s.unit.buf h).tag = true)
    (tag : (get8 s.unit.tiles t).tag = .fp32) (k : s.unit.shape.k = (s.unit.buf h).k) (n : s.unit.shape.n = (s.unit.buf h).n)
    (reads : (readLines { s.who with path := .m } (matTag f) s.unit.shape.k s.unit.shape.m (s.me.reg a) (s.me.reg d) (s.me.reg b)).run s = (.ok rows, y)) :
    exec (.mma d a b t h f) s = .next ((y.withUnit (y.unit.setTile t ⟨.fp32, (mmaProduct s.unit f t h rows).1⟩)).setMe
      (y.me.raiseFlags (mmaProduct s.unit f t h rows).2).advance) := by
  refine (complete_ok (t := (y.withUnit (y.unit.setTile t ⟨.fp32, (mmaProduct s.unit f t h rows).1⟩)).setMe
      (y.me.raiseFlags (mmaProduct s.unit f t h rows).2)) ?_).trans ?_
  · have extents : (s.unit.shape.k == (s.unit.buf h).k && s.unit.shape.n == (s.unit.buf h).n) = true := by simp [← k, ← n]
    simp only [run_bind, run_matFeatures on sb, run_heldUnit mine, run_sideBase base, run_operandAligned aligned, accepts, run_check_true,
      run_tileFp32 tag, extents, reads, span_zero, run_modUnit, run_modMe]
    rfl
  · rw [me_setMe, setMe_setMe]

/-- An element of the tile after MMA, and the flags that its steps raise (R116, R132). -/
def mmaCell (u : MatrixUnit) (f : BitVec 3) (t : BitVec 3) (h : BitVec 1) (rows : List Line) (i j : ℕ) : FpResult :=
  accumulate ((matTag f).isSb || (u.buf h).tag.isSb) ((get8 u.tiles t).at i j)
    (lineSegs (matTag f) (segLen (matTag f) (u.buf h).tag) u.shape.k ((rows[i]?).getD ⟨0, []⟩))
    (lineSegs (u.buf h).tag (segLen (matTag f) (u.buf h).tag) u.shape.k (bufferLine (u.buf h) j))

theorem productCell_mma {u : MatrixUnit} {i j : ℕ} (hj : j < u.shape.n) :
    productCell (matTag f) (u.buf h).tag u.shape.k rows (bufferLines u h) (get8 u.tiles t).data i j = mmaCell u f t h rows i j := by
  rw [productCell, mmaCell, bufferLines, List.getElem?_map, List.getElem?_range hj]
  rfl

theorem mmaProduct_eq (u : MatrixUnit) : mmaProduct u f t h rows = (cellOrder rows.length u.shape.n).foldl
    (putCell (productCell (matTag f) (u.buf h).tag u.shape.k rows (bufferLines u h) (get8 u.tiles t).data)) ((get8 u.tiles t).data, 0) := by
  rw [mmaProduct, product_eq, show (bufferLines u h).length = u.shape.n by simp [bufferLines]]

theorem mmaProduct_at {u : MatrixUnit} (m : rows.length ≤ 64) (n : u.shape.n ≤ 64) {i j : ℕ} (hj : j < 64) :
    (⟨.fp32, (mmaProduct u f t h rows).1⟩ : Tile).at i j =
      if i < rows.length ∧ j < u.shape.n then (mmaCell u f t h rows i j).1 % 2 ^ 32 else (get8 u.tiles t).at i j := by
  rw [tileElem_eq, mmaProduct_eq, tileElem_foldl_putCell (fun p hp => by rw [mem_cellOrder] at hp; omega) _ hj]
  simp only [mem_cellOrder]
  by_cases here : i < rows.length ∧ j < u.shape.n
  · rw [if_pos here, if_pos here, productCell_mma here.2]
  · rw [if_neg here, if_neg here]; rfl

theorem mmaProduct_flags (u : MatrixUnit) (k : ℕ) :
    (mmaProduct u f t h rows).2.getLsbD k = true ↔ ∃ i j, i < rows.length ∧ j < u.shape.n ∧ (mmaCell u f t h rows i j).2.getLsbD k = true := by
  rw [mmaProduct_eq, flags_foldl_putCell, or_iff_right (by simp)]
  simp only [mem_cellOrder, Prod.exists, and_assoc]
  exact exists_congr fun i => exists_congr fun j => and_congr_right fun _ => and_congr_right fun hj => by rw [productCell_mma hj]

end

/-- The operands that the matrix unit pairs (R223). -/
theorem matTags_of_pair {tA tB : Tag}
    (pair : (tA = tB ∧ tA ∈ ([.fp32, .bf16, .fp16] : List Tag)) ∨ (tA.isSb = true ∧ (tB.isSb = true ∨ tB = .bf16)) ∨ (tA = .bf16 ∧ tB.isSb = true)) :
    MatTag tA ∧ MatTag tB := by
  rcases pair with ⟨rfl, plain⟩ | ⟨sb, other⟩ | ⟨rfl, sb⟩
  · have : MatTag tA := .inr (by simpa using plain)
    exact ⟨this, this⟩
  · refine ⟨.inl sb, ?_⟩
    rcases other with sb | rfl
    exacts [.inl sb, .inr (.inr (.inl rfl))]
  · exact ⟨.inr (.inr (.inl rfl)), .inl sb⟩

/-- Settles O54: each clause is the rule of its instruction; an accumulator element is a chain of group or segment steps. -/
theorem matrixUnit : Obligations.MatrixUnit := by
  unfold Obligations.MatrixUnit
  refine ⟨?_, fun tA tB K row col acc small pair goodA goodB =>
    accumulate_accumulated small (matTags_of_pair pair).1 (matTags_of_pair pair).2 goodA goodB⟩
  intro d a b t f h s x core u P withUnit req on sb mine row
  refine ⟨matrix_disabled d a b t f h, fun hon other => ⟨matrix_notHeld d a t hon other, fun hsb => matrix_notHeld_format d a b t f h hon hsb other⟩,
    fun hon hsb => ⟨mshape_malformed hon hsb, fun high mid => ⟨fun c held other => mshape_waits hon hsb ⟨high, mid⟩ held other, fun free => ?_⟩⟩,
    fun hon hmine => ⟨mzero_clears hon hmine t, ?_, ?_, fun small wide => ⟨mmovTo_gives hon hmine small wide, mmovFrom_moves hon hmine small wide⟩,
      fun pa tag base stride mapped => mst_queues hon hmine tag base stride mapped⟩⟩
  · have grants := mshape_grants (d := d) hon hsb ⟨high, mid⟩ free
    rw [grantWord, granted, grantShape_eq] at grants
    exact grants
  · intro ls y hsb fmt base aligned reads v
    have cur : y.cur = s.cur := cur_of_readLines reads
    refine ⟨_, mldb_fills hon hmine hsb fmt base aligned reads, ?_⟩
    rw [State.withUnit, State.unit, cur]; rfl
  · intro rows y hsb base aligned accepts tag hk hn reads sameCore sameMe T len cell m n
    have cur : y.cur = s.cur := cur_of_readLines reads
    have sameUnit : y.unit = s.unit := by rw [State.unit, cur, sameCore]; rfl
    refine ⟨_, mma_adds hon hmine hsb base aligned accepts tag hk hn reads, ?_⟩
    rw [sameUnit, sameMe, ← cur]
    have newUnit (w : MatrixUnit) (c : Ctx) : (((y.withUnit w).setMe c).core (y.cur / 4)).mu = w := withUnit_unit y w
    refine ⟨?_, ?_, fun o other => ?_, fun i j _ hj => ?_, _, mmaProduct_flags s.unit, ?_⟩
    · refine (frames_withUnit y _ _).trans ?_
      rw [cur, sameCore]
    · rw [newUnit, MatrixUnit.setTile, get8_set8_same]
    · rw [newUnit, MatrixUnit.setTile, get8_set8_other _ _ _ _ other]; rfl
    · rw [newUnit, MatrixUnit.setTile, get8_set8_same]
      exact mmaProduct_at m n hj
    · rw [me_setMe]; rfl

end Sys2Proof.Machine
end

section
/-! The bytes that vector loads read (R163, R167, R169). -/

namespace Sys2Proof.Machine

open Sys2Proof.Claims

/-! ### After the queued stores -/

/-- Performing a context's queued stores leaves its registers. -/
theorem me_drain (s : State) : ∃ dr, (s.drain s.cur).me = { s.me with vstores := [], drained := dr } := by
  obtain ⟨own, -, -, -, rest, -⟩ := drain_performs s s.cur
  have cur : (s.drain s.cur).cur = s.cur := by rw [rest]
  exact ⟨_, by rw [me_eq, cur]; exact own⟩

theorem rest_drain (s : State) : (s.drain s.cur).cur = s.cur ∧ (s.drain s.cur).pkgs = s.pkgs ∧ (s.drain s.cur).clock = s.clock ∧ (s.drain s.cur).tlb = s.tlb := by
  obtain ⟨-, -, -, -, rest, -⟩ := drain_performs s s.cur
  rw [rest]; exact ⟨rfl, rfl, rfl, rfl⟩

theorem who_drain (s : State) : (s.drain s.cur).who = s.who := by
  obtain ⟨dr, me⟩ := me_drain s
  obtain ⟨cur, -, clock, -⟩ := rest_drain s
  simp only [State.who, me, cur, clock]

/-! ### A unit of a read -/

/-- The state with another counter of free choices. -/
def State.withFree (s : State) (n : ℕ) : State := { s with free := n }

section
variable {s v : State} {who : Who} {va : ℕ} {ls : List Loc}

/-- A read takes what stands at its places, or what stood there at a past moment that is open (R169). -/
theorem run_readUnit (s : State) (who : Who) (va : ℕ) (ls : List Loc) (n : ℕ) :
    ∃ j bs n', (readUnit who (·.isOpen .vector) va ls (ls.map s.locByte)).run (s.withFree n) = (.ok (j, bs), s.withFree n') ∧ MayTake s who .vector va ls bs := by
  rw [readUnit]
  simp only [run_bind, run_getS]
  have pins : (s.withFree n).pins = s.pins := rfl
  rw [pins]
  generalize hpast : (s.pins.zip (span 0 s.pins.length)).filterMap (fun e =>
    if e.1.isOpen .vector then (pastBytes (s.withFree n) who va ls e.1).map fun bs => (e.2, bs) else none) = past
  have each : ∀ e ∈ past, MayTake s who .vector va ls e.2 := by
    subst hpast
    intro e he
    obtain ⟨p, hp, he⟩ := List.mem_filterMap.mp he
    by_cases isOpen : p.1.isOpen .vector = true
    · rw [if_pos isOpen] at he
      obtain ⟨bs, taken, rfl⟩ := Option.map_eq_some_iff.mp he
      exact .inr ⟨p.1, (List.of_mem_zip hp).1, isOpen, n, taken⟩
    · rw [if_neg isOpen] at he; cases he
  by_cases none : past.isEmpty = true
  · rw [if_pos none]
    exact ⟨_, _, n, rfl, .inl rfl⟩
  · rw [if_neg none, run_bind, run_choose]
    refine ⟨_, _, n + 1, rfl, ?_⟩
    change MayTake s who .vector va ls ((past[Config.freeNat n % (past.length + 1)]?).getD (s.pins.length, ls.map s.locByte)).2
    cases h : past[Config.freeNat n % (past.length + 1)]? with
    | none => exact .inl rfl
    | some e => exact each e (List.mem_of_getElem? h)

/-- Where no past moment is open, a read takes what stands at its places. -/
theorem run_readUnit_present (present : Present v who.ctx .vector) : ∃ j, (readUnit who (·.isOpen .vector) va ls (ls.map v.locByte)).run v =
    (.ok (j, ls.map v.locByte), v) := by
  have none : (v.pins.zip (span 0 v.pins.length)).filterMap (fun e =>
      if e.1.isOpen .vector then (pastBytes v who va ls e.1).map fun bs => (e.2, bs) else none) = [] := by
    rw [List.filterMap_eq_nil_iff]
    intro e he
    by_cases isOpen : e.1.isOpen .vector = true
    · have other : (e.1.ctx == who.ctx) = false := by
        rw [beq_eq_false_iff_ne]
        intro same
        rw [present e.1 (List.of_mem_zip he).1 same] at isOpen
        cases isOpen
      rw [if_pos isOpen, pastBytes, other]; rfl
    · rw [if_neg isOpen]
  refine ⟨v.pins.length, ?_⟩
  simp only [readUnit, run_bind, run_getS, none, List.isEmpty_nil, if_true, run_pure]

/-- The parts of an element, read one after another. -/
theorem run_readParts_present (present : Present v who.ctx .vector) (ps : List (ℕ × List Loc)) :
    ∃ j, (readParts who ps).run v = (.ok (j, ps.flatMap fun p => p.2.map v.locByte), v) := by
  induction ps with
  | nil => exact ⟨0, rfl⟩
  | cons p ps ih =>
    obtain ⟨j, first⟩ := run_readUnit_present (va := p.1) (ls := p.2) present
    obtain ⟨k, rest⟩ := ih
    refine ⟨max j k, ?_⟩
    simp only [readParts, run_bind, run_getS, first, rest, run_pure, List.flatMap_cons]

theorem length_of_mayTake {bs : List Byte} (h : MayTake s who .vector va ls bs) : bs.length = ls.length := by
  rcases h with rfl | ⟨p, -, -, n, taken⟩
  · simp
  · rw [pastBytes] at taken
    split at taken
    · split at taken
      · split at taken
        · cases taken; simp
        · cases taken
      · cases taken
    · cases taken

theorem run_readParts (s : State) (who : Who) (ps : List (ℕ × List Loc)) (n : ℕ) :
    ∃ j bss n', (readParts who ps).run (s.withFree n) = (.ok (j, bss.flatten), s.withFree n') ∧
      List.Forall₂ (fun p bs => MayTake s who .vector p.1 p.2 bs) ps bss := by
  induction ps generalizing n with
  | nil => exact ⟨0, [], n, rfl, .nil⟩
  | cons p ps ih =>
    obtain ⟨j, bs, n1, first, taken⟩ := run_readUnit s who p.1 p.2 n
    obtain ⟨k, bss, n2, rest, others⟩ := ih n1
    have same : (s.withFree n).locByte = s.locByte := rfl
    refine ⟨max j k, bs :: bss, n2, ?_, .cons taken others⟩
    simp only [readParts, run_bind, run_getS, same, first, rest, run_pure, List.flatten_cons]

end

/-! ### The parts of an element -/

/-- The places of field `j` among those of an element. -/
def chunk {α : Type} (n j : ℕ) (l : List α) : List α := (l.drop (n * j)).take n

theorem parts_eq (n : ℕ) (adr : ℕ → ℕ) (fields : ℕ) (ls : List Loc) :
    parts ((List.range fields).map adr) n ls = (List.range fields).map fun j => (adr j, chunk n j ls) := by
  have pairs := zip_range fields adr id
  rw [List.map_id] at pairs
  rw [parts, List.length_map, List.length_range, span_zero, pairs, List.map_map]
  rfl

theorem flatMap_chunk {α : Type} (n fields : ℕ) (l : List α) : ((List.range fields).flatMap fun j => chunk n j l) = l.take (n * fields) := by
  induction fields with
  | zero => simp
  | succ m ih => rw [List.range_succ, List.flatMap_append, ih, List.flatMap_singleton, chunk, Nat.mul_succ, List.take_add]

theorem chunk_take {α : Type} {n j fields : ℕ} (hj : j < fields) (l : List α) : chunk n j (l.take (n * fields)) = chunk n j l := by
  have : n * (j + 1) ≤ n * fields := Nat.mul_le_mul_left _ hj
  rw [Nat.mul_succ] at this
  rw [chunk, chunk, List.drop_take, List.take_take, min_eq_left (by omega)]

theorem chunk_flatMap {α : Type} {n fields j : ℕ} (f : ℕ → List α) (len : ∀ i, i < fields → (f i).length = n) (hj : j < fields) :
    chunk n j ((List.range fields).flatMap f) = f j := by
  induction fields with
  | zero => cases hj
  | succ m ih =>
    have whole : ((List.range m).flatMap f).length = n * m := by
      rw [List.length_flatMap, List.map_congr_left fun i hi => len i (Nat.lt_succ_of_lt (List.mem_range.mp hi))]
      simp [Nat.mul_comm]
    rw [List.range_succ, List.flatMap_append, List.flatMap_singleton]
    rcases Nat.lt_or_eq_of_le (Nat.le_of_lt_succ hj) with lt | rfl
    · have : n * (j + 1) ≤ n * m := Nat.mul_le_mul_left _ lt
      rw [Nat.mul_succ] at this
      rw [← ih (fun i hi => len i (Nat.lt_succ_of_lt hi)) lt, chunk, chunk, List.drop_append_of_le_length (by omega), List.take_append_of_le_length]
      rw [List.length_drop]; omega
    · rw [chunk, ← whole, List.drop_left, List.take_of_length_le (by rw [len j (Nat.lt_succ_self _)])]

theorem chunk_map {α β : Type} (n j : ℕ) (f : α → β) (l : List α) : chunk n j (l.map f) = (chunk n j l).map f := by
  rw [chunk, chunk, List.map_take, List.map_drop]

/-- The bytes of an element whose places are found, where no past moment is open. -/
theorem run_readParts_element {v : State} {who : Who} (present : Present v who.ctx .vector) (n fields : ℕ) (adr : ℕ → ℕ) (ls : List Loc) :
    ∃ j, (readParts who (parts ((List.range fields).map adr) n ls)).run v = (.ok (j, (ls.map v.locByte).take (n * fields)), v) := by
  obtain ⟨j, run⟩ := run_readParts_present present (parts ((List.range fields).map adr) n ls)
  refine ⟨j, run.trans ?_⟩
  rw [parts_eq, List.flatMap_map, ← flatMap_chunk]
  simp only [chunk_map]

/-- The bytes of an element at mapped addresses. -/
theorem run_readParts_mapped (s : State) (who : Who) (n fields : ℕ) (adr pa : ℕ → ℕ) (free : ℕ) :
    ∃ j free', ∃ bs : ℕ → List Byte, (readParts who (parts ((List.range fields).map adr) n ((List.range fields).flatMap fun j => placesAt (pa j) n))).run
        (s.withFree free) = (.ok (j, (List.range fields).flatMap bs), s.withFree free') ∧
      ∀ j, j < fields → MayTake s who .vector (adr j) (placesAt (pa j) n) (bs j) := by
  obtain ⟨j, bss, free', run, taken⟩ := run_readParts s who ((List.range fields).map fun j => (adr j, placesAt (pa j) n)) free
  have same : parts ((List.range fields).map adr) n ((List.range fields).flatMap fun j => placesAt (pa j) n) =
      (List.range fields).map fun j => (adr j, placesAt (pa j) n) := by
    rw [parts_eq]
    exact List.map_congr_left fun j hj => by rw [chunk_flatMap _ (fun i _ => length_placesAt _ _) (List.mem_range.mp hj)]
  have len : bss.length = fields := by rw [← taken.length_eq]; simp
  refine ⟨j, free', fun j => bss[j]?.getD [], ?_, fun j hj => ?_⟩
  · rw [same, run]
    have : bss = (List.range fields).map fun j => bss[j]?.getD [] := by
      refine List.ext_getElem (by simp [len]) fun i h1 _ => ?_
      simp [List.getElem?_eq_getElem h1]
    rw [List.flatMap_def, ← this]
  · have := List.forall₂_iff_get.mp taken
    have h := this.2 j (by simpa using hj) (by rw [len]; exact hj)
    dsimp only
    rw [List.getElem?_eq_getElem (by rw [len]; exact hj)]
    simpa using h

theorem length_of_run_locateFrom {who : Who} {kind : Access} {va n : ℕ} {last : Option Loc} {s t : State} {ls : List Loc}
    (h : (locateFrom who kind va last n).run s = (.ok ls, t)) : ls.length = n := by
  induction n generalizing va last s ls with
  | zero => cases h; rfl
  | succ n ih =>
    have after (l : Loc) (next : Option Loc) (u : State)
        (h : (do let rest ← locateFrom who kind ((va + 1) % 2 ^ 64) next n; return l :: rest : M (List Loc)).run u = (.ok ls, t)) : ls.length = n + 1 := by
      rw [run_bind] at h
      split at h
      · next rest => cases h; rw [List.length_cons, ih rest]
      · cases h
    unfold locateFrom at h
    cases last with
    | some l => exact after l _ s h
    | none =>
      dsimp only at h
      rw [run_bind] at h
      split at h
      · exact after _ _ _ h
      · cases h

theorem length_of_run_placesOf {who : Who} {kind : Access} {va n : ℕ} {s t : State} {ls : List Loc}
    (h : (placesOf who kind va n).run s = (.ok ls, t)) : ls.length = n := by
  rw [placesOf, run_bind] at h
  split at h
  · next found =>
    have len := length_of_run_locateFrom found
    split at h
    · rw [run_bind] at h
      split at h
      · cases h; exact len
      · cases h
    · cases h; exact len
  · cases h

theorem length_of_run_placesAll {who : Who} {kind : Access} {accs : List (ℕ × ℕ)} {s t : State} {ls : List Loc}
    (h : (placesAll who kind accs).run s = (.ok (.ok ls), t)) : ls.length = (accs.map (·.2)).sum := by
  induction accs generalizing s ls with
  | nil => cases h; rfl
  | cons a accs ih =>
    obtain ⟨va, n⟩ := a
    rw [placesAll, run_bind, run_attempt] at h
    cases found : (placesOf who kind va n).run s with
    | mk r u =>
      rw [found] at h
      cases r with
      | error e => cases h
      | ok first =>
        dsimp only at h
        rw [run_bind] at h
        cases others : (placesAll who kind accs).run u with
        | mk r w =>
          rw [others] at h
          cases r with
          | error e => cases h
          | ok r =>
            cases r with
            | error e => cases h
            | ok more =>
              cases h
              rw [List.length_append, length_of_run_placesOf found, ih others, List.map_cons, List.sum_cons]

/-- An element that is found has as many places as its accesses have bytes. -/
theorem length_of_run_elementPlaces {who : Who} {kind : Access} {accs : List (ℕ × ℕ)} {s t : State} {ls : List Loc}
    (h : (elementPlaces who kind accs).run s = (.ok (.ok ls), t)) : ls.length = (accs.map (·.2)).sum := by
  rw [run_elementPlaces_eq] at h
  split at h
  · split at h
    · exact length_of_run_placesAll h
    · cases h
  · exact length_of_run_placesAll h

end Sys2Proof.Machine
end

section
/-! The registers that a load of several fields writes (R378). -/

namespace Sys2Proof.Machine

open Sys2Proof.Claims

/-- Registers written field by field. -/
def Ctx.wroteFields (y : Ctx) (d : BitVec 5) (w : ℕ) (dst : Tag) (res : ℕ → List (ℕ × FpResult)) (n : ℕ) : Ctx :=
  (List.range n).foldl (fun z j => z.wrote (d + BitVec.ofNat 5 j) w (res j) dst) y

/-- Some of `n` registers' results raise a flag. -/
def Raised (n : ℕ) (res : ℕ → List (ℕ × FpResult)) (b : ℕ) : Prop := ∃ j, j < n ∧ ∃ e ∈ res j, e.2.2.getLsbD b = true

section
variable {x y : Ctx} {d : BitVec 5} {w n : ℕ} {dst : Tag} {res : ℕ → List (ℕ × FpResult)}

theorem wroteFields_succ : y.wroteFields d w dst res (n + 1) = (y.wroteFields d w dst res n).wrote (d + BitVec.ofNat 5 n) w (res n) dst := by
  rw [Ctx.wroteFields, List.range_succ, List.foldl_append]; rfl

theorem field_ne {i j : ℕ} (hi : i < 32) (hj : j < 32) (ne : i ≠ j) : d + BitVec.ofNat 5 i ≠ d + BitVec.ofNat 5 j := by
  intro e
  have : BitVec.ofNat 5 i = BitVec.ofNat 5 j := by simpa using e
  have := congrArg BitVec.toNat this
  simp only [BitVec.toNat_ofNat] at this
  omega

/-- Beside vector registers and flags, a load writes nothing of its context. -/
theorem wroteFields_rest (y : Ctx) (d : BitVec 5) (w : ℕ) (dst : Tag) (res : ℕ → List (ℕ × FpResult)) (n : ℕ) :
    let z := y.wroteFields d w dst res n
    ∃ fl, (∀ b, fl.getLsbD b = true ↔ Raised n res b) ∧
      { z with vstart := y.vstart } = { y with v := z.v, tag := z.tag, hdr := z.hdr, sup := z.sup, fflags := y.fflags ||| fl } := by
  induction n with
  | zero => exact ⟨0, by simp [Raised], by simp [Ctx.wroteFields]⟩
  | succ n ih =>
    obtain ⟨fl, flags, rest⟩ := ih
    refine ⟨fl ||| unionFlags ((res n).map (·.2.2)), fun b => ?_, ?_⟩
    · rw [BitVec.getLsbD_or, Bool.or_eq_true, flags, getLsbD_unionFlags]
      simp only [Raised, List.mem_map, exists_exists_and_eq_and]
      constructor
      · rintro (⟨j, hj, h⟩ | h)
        exacts [⟨j, by omega, h⟩, ⟨n, by omega, h⟩]
      · rintro ⟨j, hj, h⟩
        rcases Nat.lt_or_eq_of_le (Nat.le_of_lt_succ hj) with lt | rfl
        exacts [.inl ⟨j, lt, h⟩, .inr h]
    · rw [wroteFields_succ]
      generalize y.wroteFields d w dst res n = z at rest
      have flagsOf : z.fflags = y.fflags ||| fl := congrArg Ctx.fflags rest
      have := congrArg (fun c : Ctx => ({ c with
        v := (z.wrote (d + BitVec.ofNat 5 n) w (res n) dst).v, tag := (z.wrote (d + BitVec.ofNat 5 n) w (res n) dst).tag
        hdr := (z.wrote (d + BitVec.ofNat 5 n) w (res n) dst).hdr, sup := (z.wrote (d + BitVec.ofNat 5 n) w (res n) dst).sup
        fflags := z.fflags ||| unionFlags ((res n).map (·.2.2)) } : Ctx)) rest
      dsimp only at this
      rw [← BitVec.or_assoc, ← flagsOf]
      exact this

theorem wroteFields_written (plain : dst.isSb = false) (few : n ≤ 32) {j : ℕ} (hj : j < n) :
    let z := y.wroteFields d w dst res n
    let q := d + BitVec.ofNat 5 j
    regGet z.v q = setElems (regGet y.v q) w ((res j).map fun e => (e.1, e.2.1)) ∧ regGet z.tag q = dst ∧ regGet z.hdr q = 0 ∧ regGet z.sup q = 0 := by
  have other (n : ℕ) (few : n ≤ 32) (q : BitVec 5) (h : ∀ j, j < n → q ≠ d + BitVec.ofNat 5 j) : regGet (y.wroteFields d w dst res n).v q = regGet y.v q := by
    induction n with
    | zero => rfl
    | succ n ih => rw [wroteFields_succ, regGet_wrote_other (h n (Nat.lt_succ_self _)), ih (by omega) fun j hj => h j (by omega)]
  induction n with
  | zero => cases hj
  | succ n ih =>
    rw [wroteFields_succ]
    rcases Nat.lt_or_eq_of_le (Nat.le_of_lt_succ hj) with lt | rfl
    · have ne : d + BitVec.ofNat 5 j ≠ d + BitVec.ofNat 5 n := field_ne (by omega) (by omega) (by omega)
      obtain ⟨hv, ht, hh, hs⟩ := ih (by omega) lt
      refine ⟨(regGet_wrote_other ne).trans hv, ?_, ?_, ?_⟩
      · exact (regGet_regSet_other _ _ _ _ ne).trans ht
      · simp only [Ctx.wrote, Ctx.setVec, plain, Ctx.raiseFlags]
        exact (regGet_regSet_other _ _ _ _ ne).trans hh
      · simp only [Ctx.wrote, Ctx.setVec, plain, Ctx.raiseFlags]
        exact (regGet_regSet_other _ _ _ _ ne).trans hs
    · refine ⟨?_, regGet_regSet_same _ _ _, ?_, ?_⟩
      · rw [v_wrote, regGet_regSet_same, other j (by omega) _ fun i hi => field_ne (by omega) (by omega) (by omega)]
      · simp only [Ctx.wrote, Ctx.setVec, plain, Ctx.raiseFlags]
        exact regGet_regSet_same _ _ _
      · simp only [Ctx.wrote, Ctx.setVec, plain, Ctx.raiseFlags]
        exact regGet_regSet_same _ _ _

theorem wroteFields_kept (plain : dst.isSb = false) {q : BitVec 5} (h : ∀ j, j < n → q ≠ d + BitVec.ofNat 5 j) :
    let z := y.wroteFields d w dst res n
    regGet z.v q = regGet y.v q ∧ regGet z.tag q = regGet y.tag q ∧ regGet z.hdr q = regGet y.hdr q ∧ regGet z.sup q = regGet y.sup q := by
  induction n with
  | zero => exact ⟨rfl, rfl, rfl, rfl⟩
  | succ n ih =>
    have ne := h n (Nat.lt_succ_self _)
    obtain ⟨hv, ht, hh, hs⟩ := ih fun j hj => h j (by omega)
    rw [wroteFields_succ]
    refine ⟨(regGet_wrote_other ne).trans hv, (regGet_regSet_other _ _ _ _ ne).trans ht, ?_, ?_⟩
    · simp only [Ctx.wrote, Ctx.setVec, plain, Ctx.raiseFlags]
      exact (regGet_regSet_other _ _ _ _ ne).trans hh
    · simp only [Ctx.wrote, Ctx.setVec, plain, Ctx.raiseFlags]
      exact (regGet_regSet_other _ _ _ _ ne).trans hs

/-- An element that a field's results name, and one that they do not. -/
theorem vel_wroteFields_of_mem (plain : dst.isSb = false) (few : n ≤ 32) {j k v : ℕ} (hj : j < n) (fits : (k + 1) * w ≤ 8192)
    (named : ∃ e ∈ res j, e.1 = k) (agree : ∀ e ∈ res j, e.1 = k → e.2.1 = v) :
    vel (y.wroteFields d w dst res n) (d + BitVec.ofNat 5 j) w k = v % 2 ^ w := by
  rw [vel_eq_elem, (wroteFields_written plain few hj).1, elem_setElems_of_mem _ fits]
  · simpa using named
  · simp only [List.mem_map, forall_exists_index, and_imp]
    rintro _ e he rfl
    exact agree e he

theorem vel_wroteFields_of_not_mem (plain : dst.isSb = false) (few : n ≤ 32) {j k : ℕ} (hj : j < n) (h : ∀ e ∈ res j, e.1 ≠ k) :
    vel (y.wroteFields d w dst res n) (d + BitVec.ofNat 5 j) w k = vel y (d + BitVec.ofNat 5 j) w k := by
  rw [vel_eq_elem, vel_eq_elem, (wroteFields_written plain few hj).1, elem_setElems_of_not_mem]
  simp only [List.mem_map, forall_exists_index, and_imp]
  rintro _ e he rfl
  exact h e he

end

theorem isSb_of_loadTag {enc dst : Tag} {w : ℕ} (h : LoadTag enc w dst) : dst.isSb = false ∧ dst ≠ .unset := by
  have tag (w : ℕ) : (tagOfWidth w).isSb = false ∧ tagOfWidth w ≠ .unset := by
    rw [tagOfWidth]
    split
    · exact ⟨rfl, by decide⟩
    split
    · exact ⟨rfl, by decide⟩
    split <;> exact ⟨rfl, by decide⟩
  rcases h with ⟨-, rfl⟩ | ⟨-, -, rfl⟩ | ⟨-, -, rfl⟩ | ⟨-, -, rfl⟩
  · exact tag w
  · split <;> exact ⟨rfl, by decide⟩
  · exact ⟨rfl, by decide⟩
  · exact ⟨rfl, by decide⟩

/-- The tag that a load gives (R124). -/
theorem loadTag_eq {x : Ctx} {enc dst : Tag} (h : LoadTag enc (sewBits x) dst) : loadTag enc x.sew = some dst := by
  have width : sewBits x = 8 * 2 ^ x.sew.toNat := (width_eq_sewBits x).symm
  have tag : intTag x.sew = tagOfWidth (sewBits x) := by rw [intTag_eq, width]
  rw [loadTag]
  have sizes : ∀ v : BitVec 2, (8 * 2 ^ v.toNat = 16 → v.toNat = 1) ∧ (8 * 2 ^ v.toNat = 32 → v.toNat = 2) ∧ (8 * 2 ^ v.toNat = 64 → v.toNat = 3) := by decide
  obtain ⟨one, two, three⟩ := sizes x.sew
  rw [width] at h
  rcases h with ⟨plain, rfl⟩ | ⟨float, w, rfl⟩ | ⟨float, w, rfl⟩ | ⟨float, w, rfl⟩
  · rw [if_neg (by simp [plain]), tag, width]
  · simp [float, one w]
  · simp [float, two w]
  · simp [float, three w]

end Sys2Proof.Machine
end

section
/-! A batch of loads (R163, R378). -/

namespace Sys2Proof.Machine

open Sys2Proof.Claims

/-- The state with other past moments. -/
def State.withPins (s : State) (ps : List Pin) : State := { s with pins := ps }

theorem run_readUpTo (js : List ℕ) (v : State) : ∃ ps, (readUpTo js).run v = (.ok (), v.withPins ps) := by
  cases js with
  | nil => exact ⟨v.pins, rfl⟩
  | cons j js =>
    change ∃ ps, (Except.ok (), v.closeBefore v.cur .vector ((j :: js).foldl max 0)) = (Except.ok (), v.withPins ps)
    rw [State.closeBefore]
    split
    · exact ⟨v.pins, rfl⟩
    · exact ⟨_, rfl⟩

/-- What a batch of loads leaves of a state where its pass ends. -/
def loadedState (u : State) (ps : List Pin) (d : BitVec 5) (dst : Tag) (res : ℕ → List (ℕ × FpResult)) (fields : ℕ) : State :=
  (u.withPins ps).setMe { u.me.wroteFields d u.me.width dst res fields with vstart := u.me.vstart }

section
variable {s u : State} {d : BitVec 5} {m : BitVec 1} {r : BitVec 3} {dst : Tag} {fields n : ℕ} {adr : ℕ → ℕ → ℕ}

/-- What the model does with an element of a load once it is located. -/
def loadAct (x : Ctx) (who : Who) (dst : Tag) (n fields : ℕ) (adr : ℕ → ℕ → ℕ) (k : ℕ) (ls : List Loc) : M (ℕ × List FpResult) := do
  let (j, bytes) ← readParts who (parts (addresses fields adr k) n ls)
  return (j, (span 0 fields).map fun q => loadElem x.enc dst x.rm x.fz (ofBytes ((bytes.drop (n * q)).take n)))

/-- The accesses of the elements of a batch. -/
def loadElems (l : List ℕ) (n fields : ℕ) (adr : ℕ → ℕ → ℕ) : List (ℕ × List (ℕ × ℕ)) := l.map fun i => (i, (addresses fields adr i).map fun a => (a, n))

theorem loadElems_eq (l : List ℕ) : loadElems l n fields adr = l.map fun k => (k, (List.range fields).map fun j => (adr k j, n)) := by
  simp [loadElems, addresses, Function.comp_def]

/-- The registers that a batch of loads writes. -/
def loadRegs (d : BitVec 5) (dst : Tag) (fields : ℕ) (done : List (ℕ × ℕ × List FpResult)) (y : Ctx) : Ctx :=
  let z := (span 0 fields).foldl (fun (z : Ctx) j => z.wrote (d + BitVec.ofNat 5 j) y.width (done.map fun e => (e.1, (e.2.2[j]?).getD (0, 0))) dst) y
  { z with vstart := y.vstart }

theorem loadRegs_eq (done : List (ℕ × ℕ × List FpResult)) (y : Ctx) : loadRegs d dst fields done y =
    { y.wroteFields d y.width dst (fun j => done.map fun e => (e.1, (e.2.2[j]?).getD (0, 0))) fields with vstart := y.vstart } := by
  rw [loadRegs, span_zero]; rfl

theorem loadBatch_eq : loadBatch d m r dst n fields (addresses fields adr) = (do
    stashOpen (((← getS).me.passElems m r).flatMap (addresses fields adr))
    drainM
    let t ← getS
    let p ← batchPass t.who .read (atElem t.me.width) (loadElems (t.me.passElems m r) n fields adr) (loadAct t.me t.who dst n fields adr)
    readUpTo (p.done.map (·.2.1))
    modMe (loadRegs d dst fields p.done)
    endBatch .read t.me.width (p.fails.map (·.elem)) p.fails) := rfl

/-- A batch of loads is its pass, and then the registers. -/
theorem run_loadBatch {done : List (ℕ × ℕ × List FpResult)} {fails : List Fail} {keys : List ℕ}
    (opens : (stashOpen ((batchList s.me m r s.me.vstart.toNat).flatMap (addresses fields adr))).run s = (.ok (), s))
    (pass : (batchPass s.who .read (atElem (sewBits s.me))
        ((batchList s.me m r s.me.vstart.toNat).map fun k => (k, (List.range fields).map fun j => (adr k j, n)))
        (loadAct s.me s.who dst n fields adr)).run (s.drain s.cur) = (.ok ⟨done, fails, keys, false⟩, u)) :
    ∃ ps, (loadBatch d m r dst n fields (addresses fields adr)).run s =
      (endBatch .read (sewBits s.me) (fails.map (·.elem)) fails).run
        (loadedState u ps d dst (fun j => done.map fun e => (e.1, (e.2.2[j]?).getD (0, 0))) fields) := by
  obtain ⟨dr, me⟩ := me_drain s
  obtain ⟨ps, upTo⟩ := run_readUpTo (done.map (·.2.1)) u
  refine ⟨ps, ?_⟩
  have list : (s.drain s.cur).me.passElems m r = batchList s.me m r s.me.vstart.toNat := by rw [me, ← passElems_eq]; rfl
  have width : (s.drain s.cur).me.width = sewBits s.me := by rw [me, ← width_eq_sewBits]; rfl
  have act : loadAct (s.drain s.cur).me s.who dst n fields adr = loadAct s.me s.who dst n fields adr := by rw [me]; rfl
  simp only [loadBatch_eq, run_bind, run_getS, passElems_eq s.me, opens, run_drainM, list, width, who_drain, act, loadElems_eq, pass, upTo, run_modMe,
    loadRegs_eq]
  rfl

end

/-! ### At any addresses -/

/-- The value of a field of an element whose places are read in a state (R124). -/
def fieldVal (x : Ctx) (dst : Tag) (n j : ℕ) (ls : List Loc) (v : State) : FpResult := recoded (encOf x) dst x (leNat (chunk n j (ls.map v.locByte)))

/-- What a load leaves in registers of the elements that were read, each with its places and the state in which they were. -/
def Written (x : Ctx) (d : BitVec 5) (dst : Tag) (n : ℕ) (v y : State) (fields : ℕ) (got : List (ℕ × List Loc × State)) : Prop :=
  ∃ fl, (∀ b, fl.getLsbD b = true ↔ ∃ e ∈ got, ∃ j, j < fields ∧ (fieldVal x dst n j e.2.1 e.2.2).2.getLsbD b = true) ∧
    y = { v with ctxs := y.ctxs, pins := y.pins } ∧ (∀ c, c ≠ v.cur → y.ctx c = v.ctx c) ∧
    y.me = { v.me with v := y.me.v, tag := y.me.tag, hdr := y.me.hdr, sup := y.me.sup, fflags := v.me.fflags ||| fl } ∧
    (∀ j, j < fields → let q := d + BitVec.ofNat 5 j
      regGet y.me.tag q = dst ∧ regGet y.me.hdr q = 0 ∧ regGet y.me.sup q = 0 ∧
      ∀ k, (k + 1) * sewBits x ≤ 8192 →
        (∀ e ∈ got, e.1 = k → vel y.me q (sewBits x) k = (fieldVal x dst n j e.2.1 e.2.2).1 % 2 ^ sewBits x) ∧
        ((∀ e ∈ got, e.1 ≠ k) → vel y.me q (sewBits x) k = vel x q (sewBits x) k)) ∧
    ∀ q, (∀ j, j < fields → q ≠ d + BitVec.ofNat 5 j) → regGet y.me.v q = regGet x.v q ∧ regGet y.me.tag q = regGet x.tag q ∧
      regGet y.me.hdr q = regGet x.hdr q ∧ regGet y.me.sup q = regGet x.sup q

section
variable {x : Ctx} {v : State} {d : BitVec 5} {dst : Tag} {n fields : ℕ} {got : List (ℕ × List Loc × State)}

/-- The registers of `x` that vector instructions read are those of `y`. -/
def SameOperands (x y : Ctx) : Prop := y.operands = x.operands

theorem SameOperands.regs {y : Ctx} (h : SameOperands x y) : y.v = x.v ∧ y.tag = x.tag ∧ y.hdr = x.hdr ∧ y.sup = x.sup ∧ y.vcfg = x.vcfg ∧ y.vstart = x.vstart ∧ y.pc = x.pc := by
  simpa only [SameOperands, Ctx.operands, Prod.mk.injEq] using h

theorem SameOperands.width {y : Ctx} (h : SameOperands x y) : y.width = sewBits x := by
  rw [width_eq_sewBits, sewBits, h.regs.2.2.2.2.1, sewBits]

theorem setMe_withPins (v : State) (ps : List Pin) (c : Ctx) : let y := (v.withPins ps).setMe c
    y = { v with ctxs := y.ctxs, pins := y.pins } ∧ (∀ i, i ≠ v.cur → y.ctx i = v.ctx i) ∧ y.me = c :=
  ⟨rfl, fun _ hi => ctx_setCtx_other _ _ _ _ hi, me_setMe _ _⟩

theorem written_loadedState (plain : dst.isSb = false) (few : fields ≤ 32) (same : SameOperands x v.me) (ps : List Pin)
    (apart : ∀ e ∈ got, ∀ f ∈ got, e.1 = f.1 → e = f) {res : ℕ → List (ℕ × FpResult)}
    (values : ∀ j, j < fields → res j = got.map fun e => (e.1, fieldVal x dst n j e.2.1 e.2.2)) :
    Written x d dst n v (loadedState v ps d dst res fields) fields got := by
  obtain ⟨hv, htag, hhdr, hsup, -⟩ := same.regs
  obtain ⟨fl, flags, rest⟩ := wroteFields_rest v.me d v.me.width dst res fields
  have written {j : ℕ} (hj : j < fields) := wroteFields_written (y := v.me) (w := v.me.width) (res := res) (d := d) plain few hj
  have named {j k : ℕ} (hj : j < fields) (fits : (k + 1) * v.me.width ≤ 8192) (e : ℕ × List Loc × State) (he : e ∈ got) (hk : e.1 = k) :
      vel (v.me.wroteFields d v.me.width dst res fields) (d + BitVec.ofNat 5 j) v.me.width k = (fieldVal x dst n j e.2.1 e.2.2).1 % 2 ^ v.me.width := by
    refine vel_wroteFields_of_mem plain few hj fits ?_ ?_ <;> rw [values j hj]
    · exact ⟨_, List.mem_map_of_mem he, hk⟩
    · intro f hf hfk
      obtain ⟨g, hg, rfl⟩ := List.mem_map.mp hf
      rw [apart g hg e he (hfk.trans hk.symm)]
  have unnamed {j k : ℕ} (hj : j < fields) (none : ∀ e ∈ got, e.1 ≠ k) :
      vel (v.me.wroteFields d v.me.width dst res fields) (d + BitVec.ofNat 5 j) v.me.width k = vel x (d + BitVec.ofNat 5 j) v.me.width k := by
    rw [vel_wroteFields_of_not_mem plain few hj, vel, vel, hv]
    rw [values j hj]
    intro f hf
    obtain ⟨g, hg, rfl⟩ := List.mem_map.mp hf
    exact none g hg
  have kept {q : BitVec 5} (hq : ∀ j, j < fields → q ≠ d + BitVec.ofNat 5 j) := wroteFields_kept (y := v.me) (w := v.me.width) (res := res) plain hq
  rw [loadedState]
  rw [same.width] at rest written named unnamed kept ⊢
  generalize v.me.wroteFields d (sewBits x) dst res fields = z at rest written named unnamed kept
  obtain ⟨only, others, me⟩ := setMe_withPins v ps { z with vstart := v.me.vstart }
  rw [Written, me]
  refine ⟨fl, fun b => (flags b).trans ?_, only, others, rest, fun j hj => ?_, fun q hq => ?_⟩
  · constructor
    · rintro ⟨j, hj, e, he, bit⟩
      rw [values j hj] at he
      obtain ⟨f, hf, rfl⟩ := List.mem_map.mp he
      exact ⟨f, hf, j, hj, bit⟩
    · rintro ⟨e, he, j, hj, bit⟩
      exact ⟨j, hj, (e.1, fieldVal x dst n j e.2.1 e.2.2), by rw [values j hj]; exact List.mem_map_of_mem he, bit⟩
  · obtain ⟨-, tag, hdr, sup⟩ := written hj
    exact ⟨tag, hdr, sup, fun k fits => ⟨named hj fits, unnamed hj⟩⟩
  · rw [← hv, ← htag, ← hhdr, ← hsup]
    exact kept hq

end

theorem sameOperands_drain (s : State) : SameOperands s.me (s.drain s.cur).me := by
  obtain ⟨dr, me⟩ := me_drain s
  rw [SameOperands, me]; rfl

section
variable {s u : State} {d : BitVec 5} {m : BitVec 1} {r : BitVec 3} {dst : Tag} {fields : ℕ} {adr : ℕ → ℕ → ℕ}
  {o : ℕ → Except (ℕ × Stop) (List Loc)} {at_ : ℕ → State} {i : Instr} {els : List ℕ} {C : ℕ → Prop}

/-- An element that was located is read where it was. -/
theorem run_loadAct_present {v : State} {x : Ctx} {who : Who} (present : Present v who.ctx .vector) (set : dst ≠ .unset) (n : ℕ) (k : ℕ) (ls : List Loc) :
    ∃ j, (loadAct x who dst n fields adr k ls).run v = (.ok (j, (List.range fields).map fun q => fieldVal x dst n q ls v), v) := by
  obtain ⟨j, reads⟩ := run_readParts_element present n fields (adr k) ls
  refine ⟨j, ?_⟩
  have vals : (List.range fields).map (fun q => loadElem x.enc dst x.rm x.fz (leNat (chunk n q ((ls.map v.locByte).take (n * fields))))) =
      (List.range fields).map fun q => fieldVal x dst n q ls v :=
    List.map_congr_left fun q hq => by rw [chunk_take (List.mem_range.mp hq), loadElem_eq _ _ set, enc_eq]; rfl
  simp only [ofBytes_eq_leNat, loadAct, run_bind, addresses, span_zero, reads, run_pure]
  rw [← vals]; rfl

theorem apart_results {β : Type} {res : ℕ → List Loc → β} : ∀ e ∈ results els o res, ∀ f ∈ results els o res, e.1 = f.1 → e = f := by
  intro e he f hf same
  obtain ⟨-, ls, found, val⟩ := mem_results.mp he
  obtain ⟨-, ls', found', val'⟩ := mem_results.mp hf
  rw [same, found'] at found
  cases found
  exact Prod.ext same (by rw [val, val', same])

/-- The elements of a batch that were located, with their places and the state where they were. -/
def placed (els : List ℕ) (o : ℕ → Except (ℕ × Stop) (List Loc)) (v : ℕ → State) : List (ℕ × List Loc × State) := results els o fun k ls => (ls, v k)

theorem values_of_placed {x : Ctx} {n j : ℕ} (hj : j < fields) (J : ℕ → List Loc → ℕ) :
    (results els o fun k ls => (J k ls, (List.range fields).map fun q => fieldVal x dst n q ls (at_ k))).map (fun e => (e.1, (e.2.2[j]?).getD (0, 0))) =
      (placed els o at_).map fun e => (e.1, fieldVal x dst n j e.2.1 e.2.2) := by
  induction els with
  | nil => rfl
  | cons k els ih =>
    cases h : o k with
    | ok ls =>
      rw [placed, results_cons_ok h, results_cons_ok h, List.map_cons, List.map_cons, ← placed, ih, List.getElem?_map, List.getElem?_range hj]
      rfl
    | error e => rw [placed, results_cons_error h, results_cons_error h, ← placed, ih]

theorem pc_wroteFields (y : Ctx) (d : BitVec 5) (w : ℕ) (dst : Tag) (res : ℕ → List (ℕ × FpResult)) (n : ℕ) : (y.wroteFields d w dst res n).pc = y.pc := by
  obtain ⟨_, -, rest⟩ := wroteFields_rest y d w dst res n
  have same := congrArg Ctx.pc rest
  exact same

/-- A batch of loads with what its pass finds (R163). -/
theorem run_loadBatch_present (tag : LoadTag (encOf s.me) (sewBits s.me) dst) (few : fields ≤ 32) {n : ℕ}
    (opens : (stashOpen ((batchList s.me m r s.me.vstart.toNat).flatMap (addresses fields adr))).run s = (.ok (), s))
    (present : Present (s.drain s.cur) s.cur .vector)
    (pass : PassOver s.who .read (fun k => (List.range fields).map fun j => (adr k j, n)) (fun _ _ v => v) o at_ u (s.drain s.cur)
      (batchList s.me m r s.me.vstart.toNat)) :
    ∃ y, Written s.me d dst n u y fields (placed (batchList s.me m r s.me.vstart.toNat) o at_) ∧ y.me.pc = s.me.pc ∧
      (loadBatch d m r dst n fields (addresses fields adr)).run s =
        (endBatch .read (sewBits s.me) ((failures (batchList s.me m r s.me.vstart.toNat) o).map (·.1))
          ((failures (batchList s.me m r s.me.vstart.toNat) o).map (.of id))).run y := by
  obtain ⟨plain, set⟩ := isSb_of_loadTag tag
  obtain ⟨steady, each⟩ := passOver_invariant (Steady (s.drain s.cur)) (fun k v hv => hv.trans (.elementPlaces v _ _ _)) (fun _ _ _ hv => hv) pass (.refl _)
  have reads (k : ℕ) (ls : List Loc) : ∃ j, k ∈ batchList s.me m r s.me.vstart.toNat → (loadAct s.me s.who dst n fields adr k ls).run (at_ k) =
      (.ok (j, (List.range fields).map fun q => fieldVal s.me dst n q ls (at_ k)), at_ k) := by
    by_cases hk : k ∈ batchList s.me m r s.me.vstart.toNat
    · obtain ⟨j, run⟩ := run_loadAct_present (x := s.me) (who := s.who) (adr := adr) (fields := fields) (v := at_ k) ((each k hk).present present) set n k ls
      exact ⟨j, fun _ => run⟩
    · exact ⟨0, fun h => absurd h hk⟩
  choose J reads using reads
  obtain ⟨keys, passes⟩ := run_batchPass (mark := atElem (sewBits s.me)) pass fun k hk ls _ => reads k ls hk
  obtain ⟨ps, runs⟩ := run_loadBatch (d := d) opens passes
  have same : SameOperands s.me u.me := steady.me.trans (sameOperands_drain s)
  refine ⟨_, written_loadedState plain few same ps apart_results fun j hj => values_of_placed hj J, ?_, runs.trans ?_⟩
  · rw [loadedState, me_setMe, ← same.regs.2.2.2.2.2.2]
    exact pc_wroteFields ..
  · rw [List.map_map]; rfl

/-- A load whose meaning comes to a batch ends as R163 says. -/
theorem loadBatch_ends (tag : LoadTag (encOf s.me) (sewBits s.me) dst) (few : fields ≤ 32) {n : ℕ} {mn : M Unit}
    (opens : (stashOpen ((batchList s.me m r s.me.vstart.toNat).flatMap (addresses fields adr))).run s = (.ok (), s))
    (present : Present (s.drain s.cur) s.cur .vector)
    (pass : PassOver s.who .read (fun k => (List.range fields).map fun j => (adr k j, n)) (fun _ _ v => v) o at_ u (s.drain s.cur)
      (batchList s.me m r s.me.vstart.toNat))
    (execs : exec i s = complete mn s) (runs : mn.run s = (loadBatch d m r dst n fields (addresses fields adr)).run s) :
    ∃ y, Written s.me d dst n u y fields (placed (batchList s.me m r s.me.vstart.toNat) o at_) ∧
      BatchEnds i s y 0 (sewBits s.me) (batchList s.me m r s.me.vstart.toNat) o id fun k => [k] := by
  obtain ⟨y, written, pc, run⟩ := run_loadBatch_present (d := d) tag few opens present pass
  have sorted := pairwise_failures (o := o) (pairwise_batchList s.me m r s.me.vstart.toNat)
  have alone (l : List (ℕ × ℕ × BitVec 10 × Word × FaultInfo)) : (l.flatMap fun f => [f.1]) = l.map (·.1) := by induction l <;> simp_all
  refine ⟨y, written, batchEnds_of (kind := .read) (sorted.imp fun {f g} h => by simp only [id]; omega) pc ?_ execs (runs.trans ?_)⟩
  · rw [alone, List.Nodup, List.pairwise_map]
    exact sorted.imp fun h => by omega
  · rw [alone]; exact run

end

end Sys2Proof.Machine
end

section
/-! The plain vector loads (R375 to R381) and loads from mapped addresses. -/

namespace Sys2Proof.Machine

open Sys2Proof.Claims

/-- The conditions under which a load's checks of addresses pass (R135, R377). -/
def LoadOk (s : State) (a : BitVec 5) (C : ℕ → Prop) (fields : ℕ) (adr : ℕ → ℕ → ℕ) : Prop :=
  ∀ k j, C k → j < fields → adr k j % elemBytes s.me = 0 ∧ InRange s (s.me.reg a).toNat (adr k j)

/-- An instruction comes to a batch of loads. -/
def ComesToLoads (i : Instr) (s : State) (d : BitVec 5) (m : BitVec 1) (r : BitVec 3) (dst : Tag) (fields : ℕ) (adr : ℕ → ℕ → ℕ) : Prop :=
  ∃ mn, exec i s = complete mn s ∧ mn.run s = (loadBatch d m r dst (elemBytes s.me) fields (addresses fields adr)).run s

section
variable {s : State} {d a b : BitVec 5} {m : BitVec 1} {r : BitVec 3} {z : BitVec 2} {dst : Tag} {fields : ℕ} {adr : ℕ → ℕ → ℕ} {C : ℕ → Prop}

theorem run_loadTagM (enc : (encOf s.me).isSb = false) (tag : LoadTag (encOf s.me) (sewBits s.me) dst) (i : Instr) : (loadTagM i).run s = (.ok dst, s) := by
  simp only [loadTagM, run_bind, run_getS, enc_eq, enc, Bool.false_eq_true, if_false, loadTag_eq tag, run_pure]

theorem run_needSb_plain (enc : (encOf s.me).isSb = false) (i : Instr) : (needSb i).run s = (.ok (), s) :=
  run_needSb fun sb => by rw [enc_eq, enc] at sb; cases sb

theorem run_plainLoad {form : Ctx → Addresses} (enc : (encOf s.me).isSb = false) (tag : LoadTag (encOf s.me) (sewBits s.me) dst)
    (ok : LoadOk s a (Runs s.me m r) fields adr) (i : Instr) (adrs : form s.me = addresses fields adr) :
    (plainLoad i d a m r fields form).run s = (loadBatch d m r dst (elemBytes s.me) fields (addresses fields adr)).run s := by
  have checked := run_checkAddresses (m := m) (r := r) (n := elemBytes s.me) (fun k => id) ok
  simp only [plainLoad, run_bind, run_loadTagM enc tag, run_getS, adrs, memSize_eq, checked]

theorem comesToLoads_vld (enc : (encOf s.me).isSb = false) (tag : LoadTag (encOf s.me) (sewBits s.me) dst)
    (ok : LoadOk s a (Runs s.me m r) 1 (unitAdr s.me a)) : ComesToLoads (.vld d a b m r) s d m r dst 1 (unitAdr s.me a) := by
  refine ⟨_, rfl, ?_⟩
  rw [run_bind, run_needSb_plain enc]
  simp only [enc_eq, enc, Bool.false_eq_true, if_false]
  exact run_plainLoad enc tag ok _ (unitStride_eq _ _)

theorem comesToLoads_vlds (enc : (encOf s.me).isSb = false) (tag : LoadTag (encOf s.me) (sewBits s.me) dst)
    (ok : LoadOk s a (Runs s.me m r) 1 (stridedAdr s.me a b)) : ComesToLoads (.vlds d a b m r) s d m r dst 1 (stridedAdr s.me a b) := by
  refine ⟨_, rfl, ?_⟩
  rw [run_bind, run_needSb_plain enc]
  exact run_plainLoad enc tag ok _ (strided_eq _ _ _)

theorem comesToLoads_vldseg {f : BitVec 3} (enc : (encOf s.me).isSb = false) (tag : LoadTag (encOf s.me) (sewBits s.me) dst)
    (ok : LoadOk s a (Runs s.me m r) (f.toNat + 1) (segmentAdr s.me a (f.toNat + 1))) :
    ComesToLoads (.vldseg d a m r f) s d m r dst (f.toNat + 1) (segmentAdr s.me a (f.toNat + 1)) := by
  refine ⟨_, rfl, ?_⟩
  rw [run_bind, run_needSb_plain enc]
  exact run_plainLoad enc tag ok _ (segment_eq _ _ _)

theorem comesToLoads_vldx (enc : (encOf s.me).isSb = false) (tag : LoadTag (encOf s.me) (sewBits s.me) dst) (index : IndexOk s.me b z)
    (ok : LoadOk s a (Batch s.me m r) 1 (indexedAdr s.me a b z)) : ComesToLoads (.vldx d a b m r z) s d m r dst 1 (indexedAdr s.me a b z) := by
  refine ⟨_, rfl, ?_⟩
  have all : ∀ k ∈ s.me.passElems m r, Batch s.me m r k := fun k hk => mem_batchList_vstart.mp (by rwa [← passElems_eq])
  have form : (fun k => [s.me.indexed a b (indexBits z) k]) = addresses 1 (indexedAdr s.me a b z) := indexed_eq _ _ _ _
  have itag : (tagIs b (intTag z)).run s = (.ok (), s) := run_tagIs (by rw [intTag_eq]; exact index.2)
  have range : (indexRange a b (indexBits z) (s.me.passElems m r)).run s = (.ok (), s) := run_indexRange fun k hk => (ok k 0 (all k hk) Nat.one_pos).2
  have aligned := run_alignedAll (n := elemBytes s.me) (vas := (s.me.passElems m r).flatMap (addresses 1 (indexedAdr s.me a b z))) (fun v hv => by
    obtain ⟨k, hk, j, hj, rfl⟩ := mem_flatMap_addresses.mp hv
    exact (ok k j (all k hk) hj).1) s
  simp only [run_bind, run_needSb_plain enc, run_loadTagM enc tag, run_indexFits index.1, itag, range, form, memSize_eq, aligned]

/-! ### With elements that may fault -/

variable {o : ℕ → Except (ℕ × Stop) (List Loc)} {at_ : ℕ → State} {u : State} {i : Instr}

/-- A load over any addresses, some of which may fault (R163). -/
theorem loads_end (comes : ComesToLoads i s d m r dst fields adr) (tag : LoadTag (encOf s.me) (sewBits s.me) dst) (few : fields ≤ 32)
    (ok : LoadOk s a C fields adr) (all : ∀ k, Batch s.me m r k → C k) (present : Present (s.drain s.cur) s.cur .vector)
    (pass : PassOver s.who .read (fun k => (List.range fields).map fun j => (adr k j, elemBytes s.me)) (fun _ _ v => v) o at_ u (s.drain s.cur)
      (batchList s.me m r s.me.vstart.toNat)) :
    ∃ y, Written s.me d dst (elemBytes s.me) u y fields (placed (batchList s.me m r s.me.vstart.toNat) o at_) ∧
      BatchEnds i s y 0 (sewBits s.me) (batchList s.me m r s.me.vstart.toNat) o id fun k => [k] := by
  obtain ⟨mn, execs, runs⟩ := comes
  exact loadBatch_ends tag few (run_stashOpen_addresses (C := C) (fun k hk => all k (mem_batchList_vstart.mp hk)) ok) present pass execs runs

end

/-! ### From mapped addresses -/

theorem SameView.withFree (s : State) (n : ℕ) (who : Who) : SameView s (s.withFree n) who who := ⟨rfl, rfl, rfl, rfl, rfl, rfl, rfl, rfl⟩

section
variable {α : Type} {t : State} {who : Who} {kind : Access} {accs : ℕ → List (ℕ × ℕ)} {ls : ℕ → List Loc} {act : ℕ → List Loc → M α} {P : ℕ → α → Prop}
  {els : List ℕ} {mark : ℕ → FaultInfo → FaultInfo}

/-- A pass over elements that are all found and of which each only makes free choices. -/
theorem run_passOver_found (found : ∀ k ∈ els, ∀ n, (elementPlaces who kind (accs k)).run (t.withFree n) = (.ok (.ok (ls k)), t.withFree n))
    (acts : ∀ k ∈ els, ∀ n, ∃ a n', (act k (ls k)).run (t.withFree n) = (.ok a, t.withFree n') ∧ P k a) (p : Pass α) (n : ℕ) :
    ∃ got n', got.map (·.1) = els ∧ (∀ e ∈ got, P e.1 e.2) ∧
      (passOver who kind mark act p (els.map fun k => (k, accs k))).run (t.withFree n) = (.ok { p with done := p.done ++ got }, t.withFree n') := by
  induction els generalizing n p with
  | nil => exact ⟨[], n, rfl, by simp, by simp [passOver]⟩
  | cons k els ih =>
    obtain ⟨a, n1, ran, holds⟩ := acts k (.head _) n
    obtain ⟨got, n2, names, each, rest⟩ := ih (fun j hj => found j (.tail _ hj)) (fun j hj => acts j (.tail _ hj)) { p with done := p.done ++ [(k, a)] } n1
    refine ⟨(k, a) :: got, n2, by rw [List.map_cons, names], ?_, ?_⟩
    · intro e he
      rcases List.mem_cons.mp he with rfl | he
      exacts [holds, each e he]
    · simp only [List.map_cons, passOver, run_bind, found k (.head _) n, ran, rest, List.append_assoc, List.singleton_append]

theorem run_batchPass_found (found : ∀ k ∈ els, ∀ n, (elementPlaces who kind (accs k)).run (t.withFree n) = (.ok (.ok (ls k)), t.withFree n))
    (acts : ∀ k ∈ els, ∀ n, ∃ a n', (act k (ls k)).run (t.withFree n) = (.ok a, t.withFree n') ∧ P k a) :
    ∃ got n', got.map (·.1) = els ∧ (∀ e ∈ got, P e.1 e.2) ∧
      (batchPass who kind mark (els.map fun k => (k, accs k)) act).run t = (.ok ⟨got, [], [], false⟩, t.withFree n') := by
  obtain ⟨got, n', names, each, run⟩ := run_passOver_found (mark := mark) found acts ⟨[], [], [], false⟩ t.free
  refine ⟨got, n', names, each, ?_⟩
  have : (batchPass who kind mark (els.map fun k => (k, accs k)) act).run t =
    match (passOver who kind mark act ⟨[], [], [], false⟩ (els.map fun k => (k, accs k))).run t with
    | (.ok p, u) => if p.held then (.error (.waitOn p.keys), t) else (.ok p, u)
    | (.error e, _) => (.error e, t) := rfl
  rw [this, show (passOver who kind mark act ⟨[], [], [], false⟩ (els.map fun k => (k, accs k))).run t = _ from run]
  rfl

end

/-- The context of a load that has completed. -/
def Ctx.loadDone (z : Ctx) (vfm ad : BitVec 1024) : Ctx := { z with vfm := vfm, vstart := 0, pc := nextPc z.pc 1, stall := [], busy := false, adone := ad }

end Sys2Proof.Machine
end

section
/-! What a load from mapped addresses leaves. -/

namespace Sys2Proof.Machine

open Sys2Proof.Claims

/-- The value of a field of an element whose bytes are read (R124). -/
def bytesVal (x : Ctx) (dst : Tag) (bs : List Byte) : FpResult := recoded (encOf x) dst x (leNat bs)

/-- Results of fields that are those of the bytes read for their elements. -/
def FieldsOf (x : Ctx) (dst : Tag) (fields : ℕ) (Q : ℕ → Prop) (bs : ℕ → ℕ → List Byte) (res : ℕ → List (ℕ × FpResult)) : Prop :=
  ∀ j, j < fields → (∀ e ∈ res j, Q e.1 ∧ e.2 = bytesVal x dst (bs e.1 j)) ∧ ∀ k, Q k → ∃ e ∈ res j, e.1 = k

section
variable {x : Ctx} {t : State} {d : BitVec 5} {dst : Tag} {n fields : ℕ} {Q : ℕ → Prop} {adr pa : ℕ → ℕ → ℕ} {vfm ad : BitVec 1024}
  {bs : ℕ → ℕ → List Byte} {res : ℕ → List (ℕ × FpResult)}

theorem loadDone_eq {z y : Ctx} {fl : BitVec 5} (rest : { z with vstart := y.vstart } = { y with v := z.v, tag := z.tag, hdr := z.hdr, sup := z.sup, fflags := y.fflags ||| fl }) :
    z.loadDone vfm ad = { y with
      v := z.v, tag := z.tag, hdr := z.hdr, sup := z.sup, fflags := y.fflags ||| fl, vfm := vfm, vstart := 0
      pc := nextPc y.pc 1, stall := [], busy := false, adone := ad } := by
  have := congrArg (fun c : Ctx => c.loadDone vfm ad) rest
  exact this

theorem setMe_withFree (t : State) (k : ℕ) (ps : List Pin) (c : Ctx) : let y := ((t.withFree k).withPins ps).setMe c
    y = { t with ctxs := y.ctxs, pins := y.pins, free := y.free } ∧ (∀ i, i ≠ t.cur → y.ctx i = t.ctx i) ∧ y.me = c :=
  ⟨rfl, fun _ hi => ctx_setCtx_other _ _ _ _ hi, me_setMe _ _⟩

theorem loaded_of (plain : dst.isSb = false) (few : fields ≤ 32) (same : SameOperands x t.me) (flagsSame : t.me.fflags = x.fflags) (k : ℕ) (ps : List Pin)
    (taken : ∀ k j, Q k → j < fields → MayTake t t.who .vector (adr k j) (placesAt (pa k j) n) (bs k j)) (values : FieldsOf x dst fields Q bs res) :
    Loaded x t (((t.withFree k).withPins ps).setMe ((t.me.wroteFields d t.me.width dst res fields).loadDone vfm ad)) d dst n fields Q adr pa vfm := by
  obtain ⟨hv, htag, hhdr, hsup, -, -, hpc⟩ := same.regs
  obtain ⟨fl, flags, rest⟩ := wroteFields_rest t.me d t.me.width dst res fields
  have written {j : ℕ} (hj : j < fields) := wroteFields_written (y := t.me) (w := t.me.width) (res := res) (d := d) plain few hj
  have named {j k : ℕ} (hj : j < fields) (fits : (k + 1) * t.me.width ≤ 8192) (hk : Q k) :
      vel (t.me.wroteFields d t.me.width dst res fields) (d + BitVec.ofNat 5 j) t.me.width k = (bytesVal x dst (bs k j)).1 % 2 ^ t.me.width := by
    refine vel_wroteFields_of_mem plain few hj fits ((values j hj).2 k hk) ?_
    rintro e he rfl
    rw [((values j hj).1 e he).2]
  have unnamed {j k : ℕ} (hj : j < fields) (none : ¬Q k) :
      vel (t.me.wroteFields d t.me.width dst res fields) (d + BitVec.ofNat 5 j) t.me.width k = vel x (d + BitVec.ofNat 5 j) t.me.width k := by
    rw [vel_wroteFields_of_not_mem plain few hj, vel, vel, hv]
    rintro e he rfl
    exact none ((values j hj).1 e he).1
  have kept {q : BitVec 5} (hq : ∀ j, j < fields → q ≠ d + BitVec.ofNat 5 j) := wroteFields_kept (y := t.me) (w := t.me.width) (res := res) plain hq
  rw [same.width] at rest written named unnamed kept ⊢
  generalize t.me.wroteFields d (sewBits x) dst res fields = z at rest written named unnamed kept
  obtain ⟨only, others, me⟩ := setMe_withFree t k ps (z.loadDone vfm ad)
  rw [Loaded]
  refine ⟨bs, taken, fl, fun b => (flags b).trans ?_, only, others, ?_, ?_, ?_⟩
  · constructor
    · rintro ⟨j, hj, e, he, bit⟩
      obtain ⟨hq, val⟩ := (values j hj).1 e he
      rw [val] at bit
      exact ⟨e.1, j, hq, hj, bit⟩
    · rintro ⟨k, j, hq, hj, bit⟩
      obtain ⟨e, he, rfl⟩ := (values j hj).2 k hq
      refine ⟨j, hj, e, he, ?_⟩
      rw [((values j hj).1 e he).2]
      exact bit
  · rw [me, loadDone_eq rest, ← flagsSame, ← hpc]
  · rw [me]
    intro j hj
    obtain ⟨-, tag, hdr, sup⟩ := written hj
    exact ⟨tag, hdr, sup, fun k fits => ⟨named hj fits, unnamed hj⟩⟩
  · rw [me, ← hv, ← htag, ← hhdr, ← hsup]
    exact fun q hq => kept hq

end

section
variable {s : State} {d a b : BitVec 5} {m : BitVec 1} {r : BitVec 3} {dst : Tag} {fields : ℕ} {adr pa : ℕ → ℕ → ℕ} {C : ℕ → Prop} {i : Instr}

/-- What is read for an element at mapped addresses. -/
def ReadOf (t : State) (x : Ctx) (dst : Tag) (n fields : ℕ) (adr pa : ℕ → ℕ → ℕ) (k : ℕ) (a : ℕ × List FpResult) : Prop :=
  ∃ bs : ℕ → List Byte, (∀ j, j < fields → MayTake t t.who .vector (adr k j) (placesAt (pa k j) n) (bs j)) ∧
    a.2 = (List.range fields).map fun j => bytesVal x dst (bs j)

theorem run_loadAct_mapped (t : State) (x : Ctx) (set : dst ≠ .unset) (n fields : ℕ) (adr pa : ℕ → ℕ → ℕ) (k free : ℕ) :
    ∃ got free', (loadAct x t.who dst n fields adr k ((List.range fields).flatMap fun j => placesAt (pa k j) n)).run (t.withFree free) =
      (.ok got, t.withFree free') ∧ ReadOf t x dst n fields adr pa k got := by
  obtain ⟨j, free', bs, reads, taken⟩ := run_readParts_mapped t t.who n fields (adr k) (pa k) free
  have len (j : ℕ) (hj : j < fields) : (bs j).length = n := (length_of_mayTake (taken j hj)).trans (length_placesAt _ _)
  refine ⟨(j, (List.range fields).map fun j => bytesVal x dst (bs j)), free', ?_, bs, taken, rfl⟩
  have vals : (List.range fields).map (fun q => loadElem x.enc dst x.rm x.fz (leNat (chunk n q ((List.range fields).flatMap bs)))) =
      (List.range fields).map fun j => bytesVal x dst (bs j) :=
    List.map_congr_left fun q hq => by rw [chunk_flatMap bs len (List.mem_range.mp hq), loadElem_eq _ _ set, enc_eq]; rfl
  simp only [ofBytes_eq_leNat, loadAct, run_bind, addresses, span_zero, reads, run_pure]
  rw [← vals]; rfl

/-- The results of elements that were read, as the bytes of each. -/
theorem exists_bytes {t : State} {x : Ctx} {n : ℕ} {got : List (ℕ × ℕ × List FpResult)} (nodup : (got.map (·.1)).Nodup)
    (each : ∀ e ∈ got, ReadOf t x dst n fields adr pa e.1 e.2) :
    ∃ bs : ℕ → ℕ → List Byte, (∀ k j, k ∈ got.map (·.1) → j < fields → MayTake t t.who .vector (adr k j) (placesAt (pa k j) n) (bs k j)) ∧
      FieldsOf x dst fields (· ∈ got.map (·.1)) bs fun j => got.map fun e => (e.1, (e.2.2[j]?).getD (0, 0)) := by
  have bytes (k : ℕ) : ∃ bs : ℕ → List Byte, ∀ e ∈ got, e.1 = k → (∀ j, j < fields → MayTake t t.who .vector (adr k j) (placesAt (pa k j) n) (bs j)) ∧
      e.2.2 = (List.range fields).map fun j => bytesVal x dst (bs j) := by
    by_cases hk : ∃ e ∈ got, e.1 = k
    · obtain ⟨e, he, rfl⟩ := hk
      obtain ⟨bs, taken, val⟩ := each e he
      refine ⟨bs, fun f hf same => ?_⟩
      rw [List.inj_on_of_nodup_map nodup hf he same]
      exact ⟨taken, val⟩
    · exact ⟨fun _ => [], fun e he same => absurd ⟨e, he, same⟩ hk⟩
  choose bs bytes using bytes
  refine ⟨bs, fun k j hk hj => ?_, fun j hj => ⟨fun f hf => ?_, fun k hk => ?_⟩⟩
  · obtain ⟨e, he, same⟩ := List.mem_map.mp hk
    exact (bytes k e he same).1 j hj
  · obtain ⟨e, he, rfl⟩ := List.mem_map.mp hf
    refine ⟨List.mem_map_of_mem he, ?_⟩
    rw [(bytes e.1 e he rfl).2, List.getElem?_map, List.getElem?_range hj]; rfl
  · obtain ⟨e, he, same⟩ := List.mem_map.mp hk
    exact ⟨_, List.mem_map_of_mem he, same⟩

/-- Elements at mapped addresses are found without a change of the state. -/
theorem run_elementPlaces_mapped {t : State} {who : Who} {kind : Access} {n k : ℕ} (mapped : ∀ j, j < fields → Mapped t who kind (adr k j) n (pa k j)) (free : ℕ) :
    (elementPlaces who kind ((List.range fields).map fun j => (adr k j, n))).run (t.withFree free) =
      (.ok (.ok ((List.range fields).flatMap fun j => placesAt (pa k j) n)), t.withFree free) :=
  run_elementPlaces (List.range fields) (adr k) (fun _ => n) (pa k) fun j hj => (SameView.withFree t free who).mapped (mapped j (List.mem_range.mp hj))

/-- A load from mapped addresses. -/
theorem loads_load (comes : ComesToLoads i s d m r dst fields adr) (tag : LoadTag (encOf s.me) (sewBits s.me) dst) (few : fields ≤ 32)
    (ok : LoadOk s a C fields adr) (all : ∀ k, Batch s.me m r k → C k)
    (mapped : ∀ k j, Batch s.me m r k → j < fields → Mapped (s.drain s.cur) s.who .read (adr k j) (elemBytes s.me) (pa k j)) :
    ∃ u, exec i s = .next u ∧ Loaded s.me (s.drain s.cur) u d dst (elemBytes s.me) fields (Batch s.me m r) adr pa 0 := by
  obtain ⟨plain, set⟩ := isSb_of_loadTag tag
  obtain ⟨mn, execs, runs⟩ := comes
  have opens := run_stashOpen_addresses (l := batchList s.me m r s.me.vstart.toNat) (fun k hk => all k (mem_batchList_vstart.mp hk)) ok
  obtain ⟨got, free', names, each, pass⟩ := run_batchPass_found (t := s.drain s.cur) (who := s.who) (kind := .read) (mark := atElem (sewBits s.me))
    (accs := fun k => (List.range fields).map fun j => (adr k j, elemBytes s.me)) (P := ReadOf (s.drain s.cur) s.me dst (elemBytes s.me) fields adr pa)
    (els := batchList s.me m r s.me.vstart.toNat) (act := loadAct s.me s.who dst (elemBytes s.me) fields adr)
    (fun k hk free => run_elementPlaces_mapped (fun j hj => mapped k j (mem_batchList_vstart.mp hk) hj) free)
    (fun k hk free => by rw [← who_drain]; exact run_loadAct_mapped (s.drain s.cur) s.me set _ _ adr pa k free)
  obtain ⟨ps, loads⟩ := run_loadBatch (d := d) opens pass
  have nodup : (got.map (·.1)).Nodup := by
    rw [names]; exact (pairwise_batchList _ _ _ _).imp fun h => Nat.ne_of_lt h
  obtain ⟨bs, taken, values⟩ := exists_bytes nodup each
  have member : ∀ k, k ∈ got.map (·.1) ↔ Batch s.me m r k := fun k => by rw [names]; exact mem_batchList_vstart
  have same : (· ∈ got.map (·.1)) = Batch s.me m r := funext fun k => propext (member k)
  rw [same] at values
  obtain ⟨dr, me⟩ := me_drain s
  have ends := loaded_of (n := elemBytes s.me) (d := d) (adr := adr) (pa := pa) (vfm := 0) (ad := 0) plain few (sameOperands_drain s) (by rw [me]) free' ps
    (fun k j hk hj => taken k j ((member k).mpr hk) hj) values
  refine ⟨_, ?_, ends⟩
  rw [execs]
  refine (complete_ok (runs.trans loads)).trans ?_
  rw [loadedState]
  simp only [me_setMe, setMe_setMe]
  rfl

end

end Sys2Proof.Machine
end

section
/-! First-faulting loads (R379). -/

namespace Sys2Proof.Machine

open Sys2Proof.Claims

/-! ### Elements up to the first that faults -/

section
variable {who : Who} {accs : ℕ → List (ℕ × ℕ)} {o : ℕ → Except (ℕ × Stop) (List Loc)} {at_ : ℕ → State} {s u : State} {els : List ℕ} {w : ℕ}

/-- Elements that are all found are collected one after another. -/
theorem run_firstFaults_found (pass : PassOver who .read accs (fun _ _ v => v) o at_ u s els) (all : failures els o = []) (done : List (ℕ × List Loc))
    (rest : List (ℕ × List (ℕ × ℕ))) :
    (firstFaults who w done (els.map (fun k => (k, accs k)) ++ rest)).run s = (firstFaults who w (done ++ results els o fun _ ls => ls) rest).run u := by
  induction els generalizing s done with
  | nil => cases (show u = s from pass); simp [results]
  | cons k els ih =>
    obtain ⟨found, next⟩ := pass
    cases hk : o k with
    | ok ls =>
      rw [hk] at next
      rw [failures_cons_ok hk] at all
      simp only [List.map_cons, List.cons_append, firstFaults, run_bind, found, hk]
      rw [ih next all, results_cons_ok hk, List.append_assoc, List.singleton_append]
    | error e =>
      rw [hk] at next
      obtain ⟨va, ⟨c, i, r⟩ | _ | _⟩ := e
      · rw [failures_cons_trap hk] at all; cases all
      all_goals exact absurd next id

theorem run_firstFaults_stop {k va : ℕ} {c : BitVec 10} {i : Word} {r : FaultInfo} {v : State} (found : (elementPlaces who .read (accs k)).run s = (.ok (.error (va, .trap c i r)), v))
    (cause : c ∈ ([0x101, 0x102, 0x103, 0x105, 0x1C1, 0x1C2, 0x1C3, 0x381, 0x382] : List (BitVec 10))) (done : List (ℕ × List Loc)) (rest : List (ℕ × List (ℕ × ℕ))) :
    (firstFaults who w done ((k, accs k) :: rest)).run s = (.ok (done, some ⟨k, va, c, i, r⟩), v) := by
  simp only [firstFaults, run_bind, found, batchCause_of_mem cause, if_true, run_pure]

end

/-! ### The elements read -/

/-- The read of an element that was located. -/
def ffRead (x : Ctx) (who : Who) (dst : Tag) (n : ℕ) (adr : Addresses) (e : ℕ × List Loc) : M (ℕ × ℕ × FpResult) := do
  let (j, bytes) ← readParts who (parts (adr e.1) n e.2)
  return (e.1, j, loadElem x.enc dst x.rm x.fz (ofBytes bytes))

/-- VL where a first-faulting load stopped. -/
def Ctx.cutAt (z : Ctx) : Option Fail → Ctx
  | some f => { z with vl := BitVec.ofNat 11 f.elem }
  | none => z

/-- The registers that a first-faulting load writes. -/
def ffRegs (d : BitVec 5) (dst : Tag) (got : List (ℕ × ℕ × FpResult)) (stop : Option Fail) (y : Ctx) : Ctx :=
  (y.wrote d y.width (got.map fun e => (e.1, e.2.2)) dst).cutAt stop

/-- The fault of a first element (R379). -/
def ffFault (w : ℕ) (f : Fail) : M Unit := do
  modMe fun y => { y with vfm := 0, vstart := BitVec.ofNat 11 f.elem }
  trapM f.cause f.word (batchRecord .read w f [f])

/-- The reads and registers of a first-faulting load. -/
def ffLoad (x : Ctx) (who : Who) (d : BitVec 5) (dst : Tag) (n : ℕ) (adr : Addresses) (done : List (ℕ × List Loc)) (stop : Option Fail) : M Unit := do
  let got ← collect (ffRead x who dst n adr) done
  readUpTo (got.map (·.2.1))
  modMe (ffRegs d dst got stop)

/-- The end of a first-faulting load once elements are located. -/
def ffEnd (x : Ctx) (who : Who) (d : BitVec 5) (dst : Tag) (n : ℕ) (adr : Addresses) (done : List (ℕ × List Loc)) (stop : Option Fail) : M Unit := do
  match stop with
  | some f => if done.isEmpty then ffFault x.width f
  | none => pure ()
  ffLoad x who d dst n adr done stop

section
variable {s : State} {d a b : BitVec 5} {m : BitVec 1} {r : BitVec 3} {dst : Tag} {x : Ctx} {who : Who} {n : ℕ} {adr : Addresses}

theorem execVldff_eq : execVldff d a b m r s = complete (do
    needSb (.vldff d a b m r)
    let dst ← loadTagM (.vldff d a b m r)
    checkAddresses (s.me.reg a).toNat (memSize s.me.enc s.me.width) m r (s.me.unitStride a)
    stashOpen ((s.me.actives m r).flatMap (s.me.unitStride a))
    drainM
    let (done, stop) ← firstFaults s.who s.me.width []
      ((s.me.actives m r).map fun k => (k, (s.me.unitStride a k).map fun v => (v, memSize s.me.enc s.me.width)))
    ffEnd s.me s.who d dst (memSize s.me.enc s.me.width) (s.me.unitStride a) done stop) s := by
  unfold execVldff ffEnd ffFault ffLoad ffRead ffRegs
  refine congrArg (complete · s) ?_
  refine bind_congr (m := M) fun _ => bind_congr (m := M) fun _ => bind_congr (m := M) fun _ => bind_congr (m := M) fun _ => bind_congr (m := M) fun _ =>
    bind_congr (m := M) fun p => ?_
  obtain ⟨done, stop⟩ := p
  cases stop <;> rfl

/-- The elements that VLDFF loads, with their accesses. -/
theorem run_vldff (enc : (encOf s.me).isSb = false) (tag : LoadTag (encOf s.me) (sewBits s.me) dst) (ok : LoadOk s a (Runs s.me m r) 1 (unitAdr s.me a)) :
    ∃ mn, exec (.vldff d a b m r) s = complete mn s ∧ mn.run s = (do
      let p ← firstFaults s.who (sewBits s.me) [] ((s.me.actives m r).map fun k => (k, [(unitAdr s.me a k 0, elemBytes s.me)]))
      ffEnd s.me s.who d dst (elemBytes s.me) (addresses 1 (unitAdr s.me a)) p.1 p.2).run (s.drain s.cur) := by
  refine ⟨_, execVldff_eq, ?_⟩
  have form : s.me.unitStride a = addresses 1 (unitAdr s.me a) := unitStride_eq _ _
  have checked := run_checkAddresses (m := m) (r := r) (n := elemBytes s.me) (fun k => id) ok
  have opens := run_stashOpen_addresses (l := s.me.actives m r) (fun k hk => mem_actives.mp hk) ok
  rw [form, memSize_eq, width_eq_sewBits]
  simp only [run_bind, run_needSb_plain enc, run_loadTagM enc tag, checked, opens, run_drainM]
  rfl

theorem wrote_eq_wroteFields (y : Ctx) (w : ℕ) (res : List (ℕ × FpResult)) : y.wrote d w res dst = y.wroteFields d w dst (fun _ => res) 1 := by
  simp [Ctx.wroteFields]

theorem run_ffEnd_fault (f : Fail) (v : State) : (ffEnd x who d dst n adr [] (some f)).run v =
    (.error (.trap f.cause f.word (batchRecord .read x.width f [f])), v.setMe { v.me with vfm := 0, vstart := BitVec.ofNat 11 f.elem }) := rfl

theorem ffEnd_of_ne_nil {done : List (ℕ × List Loc)} {stop : Option Fail} (h : done ≠ [] ∨ stop = none) :
    ffEnd x who d dst n adr done stop = ffLoad x who d dst n adr done stop := by
  cases stop with
  | none => rfl
  | some f =>
    have : done.isEmpty = false := by simpa using h
    simp only [ffEnd, this]
    rfl

end

end Sys2Proof.Machine
end

section
/-! What a first-faulting load leaves (R379). -/

namespace Sys2Proof.Machine

open Sys2Proof.Claims

section
variable {s u v : State} {d a b : BitVec 5} {m : BitVec 1} {r : BitVec 3} {dst : Tag} {x : Ctx} {who : Who} {n : ℕ} {adr pa : ℕ → ℕ → ℕ}

theorem run_ffRead_present (set : dst ≠ .unset) (present : Present v who.ctx .vector) (e : ℕ × List Loc) :
    ∃ j, (ffRead x who dst n (addresses 1 adr) e).run v = (.ok (e.1, j, fieldVal x dst n 0 e.2 v), v) := by
  obtain ⟨j, reads⟩ := run_readParts_element present n 1 (adr e.1) e.2
  refine ⟨j, ?_⟩
  have val : loadElem x.enc dst x.rm x.fz (leNat ((e.2.map v.locByte).take (n * 1))) = fieldVal x dst n 0 e.2 v := by
    rw [loadElem_eq _ _ set, enc_eq, Nat.mul_one, fieldVal, chunk, Nat.mul_zero, List.drop_zero]
  simp only [ffRead, run_bind, addresses, reads, ofBytes_eq_leNat, val, run_pure]

theorem run_collect_ffRead_present (set : dst ≠ .unset) (present : Present v who.ctx .vector) (done : List (ℕ × List Loc)) :
    ∃ got, (collect (ffRead x who dst n (addresses 1 adr)) done).run v = (.ok got, v) ∧
      got.map (fun e => (e.1, e.2.2)) = done.map fun e => (e.1, fieldVal x dst n 0 e.2 v) := by
  induction done with
  | nil => exact ⟨[], rfl, rfl⟩
  | cons e done ih =>
    obtain ⟨j, first⟩ := run_ffRead_present (x := x) (n := n) (adr := adr) set present e
    obtain ⟨got, rest, vals⟩ := ih
    refine ⟨(e.1, j, fieldVal x dst n 0 e.2 v) :: got, ?_, by rw [List.map_cons, List.map_cons, vals]⟩
    simp only [collect, run_bind, first, rest, run_pure]

/-- Where no past moment is open, a first-faulting load leaves what its elements read. -/
theorem run_ffLoad_present (set : dst ≠ .unset) (present : Present v who.ctx .vector) (done : List (ℕ × List Loc)) (stop : Option Fail) :
    ∃ ps, (ffLoad x who d dst n (addresses 1 adr) done stop).run v = (.ok (), (v.withPins ps).setMe
      ((v.me.wroteFields d v.me.width dst (fun _ => done.map fun e => (e.1, fieldVal x dst n 0 e.2 v)) 1).cutAt stop)) := by
  obtain ⟨got, reads, vals⟩ := run_collect_ffRead_present (x := x) (n := n) (adr := adr) set present done
  obtain ⟨ps, upTo⟩ := run_readUpTo (got.map (·.2.1)) v
  refine ⟨ps, ?_⟩
  simp only [ffLoad, run_bind, reads, upTo, run_modMe, ffRegs, vals, wrote_eq_wroteFields]
  rfl

/-- What is read for an element at a mapped address. -/
theorem run_ffRead_mapped (t : State) (set : dst ≠ .unset) (k free : ℕ) :
    ∃ j val free', (ffRead x t.who dst n (addresses 1 adr) (k, placesAt (pa k 0) n)).run (t.withFree free) = (.ok (k, j, val), t.withFree free') ∧
      ReadOf t x dst n 1 adr pa k (j, [val]) := by
  obtain ⟨j, free', bs, reads, taken⟩ := run_readParts_mapped t t.who n 1 (adr k) (pa k) free
  refine ⟨j, bytesVal x dst (bs 0), free', ?_, bs, taken, rfl⟩
  have one (f : ℕ → List Loc) : (List.range 1).flatMap f = f 0 := by simp
  have bytes : (List.range 1).flatMap bs = bs 0 := by simp
  rw [one, bytes] at reads
  simp only [ffRead, run_bind, addresses, reads, ofBytes_eq_leNat, loadElem_eq _ _ set, enc_eq, run_pure]
  rfl

theorem run_collect_ffRead_mapped (t : State) (set : dst ≠ .unset) (els : List ℕ) (free : ℕ) :
    ∃ got free', (collect (ffRead x t.who dst n (addresses 1 adr)) (els.map fun k => (k, placesAt (pa k 0) n))).run (t.withFree free) =
      (.ok got, t.withFree free') ∧ got.map (·.1) = els ∧ ∀ e ∈ got, ReadOf t x dst n 1 adr pa e.1 (e.2.1, [e.2.2]) := by
  induction els generalizing free with
  | nil => exact ⟨[], free, rfl, rfl, by simp⟩
  | cons k els ih =>
    obtain ⟨j, val, free1, first, here⟩ := run_ffRead_mapped (x := x) (n := n) (adr := adr) (pa := pa) t set k free
    obtain ⟨got, free2, rest, names, each⟩ := ih free1
    refine ⟨(k, j, val) :: got, free2, ?_, by rw [List.map_cons, names], ?_⟩
    · simp only [List.map_cons, collect, run_bind, first, rest, run_pure]
    · intro e he
      rcases List.mem_cons.mp he with rfl | he
      exacts [here, each e he]

/-- A pass over elements at mapped addresses stays where it is. -/
theorem passOver_still {kind : Access} {t : State} {els : List ℕ} (mapped : ∀ k ∈ els, Mapped t who kind (adr k 0) n (pa k 0)) :
    PassOver who kind (fun k => [(adr k 0, n)]) (fun _ _ v => v) (fun k => .ok (placesAt (pa k 0) n)) (fun _ => t) t t els := by
  induction els with
  | nil => rfl
  | cons k els ih =>
    refine ⟨?_, ih fun j hj => mapped j (.tail _ hj)⟩
    have found := run_elementPlaces_mapped (fields := 1) (t := t) (who := who) (kind := kind) (n := n) (adr := adr) (pa := pa) (k := k)
      (fun j hj => by rw [Nat.lt_one_iff.mp hj]; exact mapped k (.head _)) t.free
    simpa [State.withFree] using found

/-- A first-faulting load from mapped addresses. -/
theorem vldff_load (enc : (encOf s.me).isSb = false) (tag : LoadTag (encOf s.me) (sewBits s.me) dst) (ok : LoadOk s a (Runs s.me m r) 1 (unitAdr s.me a))
    (mapped : ∀ k, Runs s.me m r k → Mapped (s.drain s.cur) s.who .read (unitAdr s.me a k 0) (elemBytes s.me) (pa k 0)) :
    ∃ u, exec (.vldff d a b m r) s = .next u ∧
      Loaded s.me (s.drain s.cur) u d dst (elemBytes s.me) 1 (Runs s.me m r) (unitAdr s.me a) pa s.me.vfm := by
  obtain ⟨plain, set⟩ := isSb_of_loadTag tag
  obtain ⟨mn, execs, runs⟩ := run_vldff (d := d) (b := b) enc tag ok
  have found := run_firstFaults_found (w := sewBits s.me) (passOver_still (pa := pa) fun k hk => mapped k (mem_actives.mp hk)) failures_of_found [] []
  rw [List.append_nil, List.nil_append, results_of_found, firstFaults] at found
  obtain ⟨got, free', reads, names, each⟩ := run_collect_ffRead_mapped (x := s.me) (n := elemBytes s.me) (adr := unitAdr s.me a) (pa := pa) (s.drain s.cur) set
    (s.me.actives m r) (s.drain s.cur).free
  replace reads : (collect (ffRead s.me s.who dst (elemBytes s.me) (addresses 1 (unitAdr s.me a)))
      ((s.me.actives m r).map fun k => (k, placesAt (pa k 0) (elemBytes s.me)))).run (s.drain s.cur) = (.ok got, (s.drain s.cur).withFree free') := by
    rw [← who_drain]; exact reads
  obtain ⟨ps, upTo⟩ := run_readUpTo (got.map (·.2.1)) ((s.drain s.cur).withFree free')
  have single : ((got.map fun e => (e.1, e.2.1, [e.2.2])).map (·.1)) = s.me.actives m r := by rw [List.map_map]; exact names
  have nodup : ((got.map fun e => (e.1, e.2.1, [e.2.2])).map (·.1)).Nodup := by
    rw [single]; exact (pairwise_activesFrom _ _ _ _).imp fun h => Nat.ne_of_lt h
  obtain ⟨bs, taken, values⟩ := exists_bytes nodup (List.forall_mem_map.mpr each)
  have member : ∀ k, k ∈ (got.map fun e => (e.1, e.2.1, [e.2.2])).map (·.1) ↔ Runs s.me m r k := fun k => by rw [single]; exact mem_actives
  have same : (· ∈ (got.map fun e => (e.1, e.2.1, [e.2.2])).map (·.1)) = Runs s.me m r := funext fun k => propext (member k)
  rw [same] at values
  have first : FieldsOf s.me dst 1 (Runs s.me m r) bs fun _ => got.map fun e => (e.1, e.2.2) := fun j hj => by
    obtain rfl := Nat.lt_one_iff.mp hj
    have := values 0 Nat.one_pos
    dsimp only at this
    rw [List.map_map] at this
    exact this
  obtain ⟨dr, me⟩ := me_drain s
  have ends := loaded_of (n := elemBytes s.me) (d := d) (adr := unitAdr s.me a) (pa := pa) (vfm := s.me.vfm) (ad := s.me.adone) plain (by norm_num : 1 ≤ 32)
    (sameOperands_drain s) (by rw [me]) free' ps (fun k j hk hj => taken k j ((member k).mpr hk) hj) first
  refine ⟨_, ?_, ends⟩
  rw [execs]
  refine (complete_ok (t := (((s.drain s.cur).withFree free').withPins ps).setMe
    ((s.drain s.cur).me.wroteFields d (s.drain s.cur).me.width dst (fun _ => got.map fun e => (e.1, e.2.2)) 1)) (runs.trans ?_)).trans ?_
  · rw [run_bind, found, run_pure]
    dsimp only
    rw [ffEnd_of_ne_nil (.inr rfl)]
    simp only [ffLoad, run_bind, reads, upTo, run_modMe, ffRegs, Ctx.cutAt, wrote_eq_wroteFields]
    rfl
  · have kept (y : Ctx) (hy : y.vfm = s.me.vfm ∧ y.adone = s.me.adone) (res : ℕ → List (ℕ × FpResult)) :
        (y.wroteFields d y.width dst res 1).advance = (y.wroteFields d y.width dst res 1).loadDone s.me.vfm s.me.adone := by
      rw [← hy.1, ← hy.2]
      simp only [Ctx.wroteFields, List.range_one, List.foldl_cons, List.foldl_nil]
      rfl
    rw [me_setMe, setMe_setMe, kept _ (by rw [me]; exact ⟨rfl, rfl⟩)]

end

section
variable {s u v : State} {d a b : BitVec 5} {m : BitVec 1} {r : BitVec 3} {dst : Tag} {o : ℕ → Except (ℕ × Stop) (List Loc)} {at_ : ℕ → State}
  {pre post : List ℕ} {k va : ℕ} {c : BitVec 10} {inf : Word} {rec : FaultInfo}

/-- A first-faulting load whose element `k` is the first that faults. -/
theorem run_vldff_stop (lists : Lists (pre ++ k :: post) (Runs s.me m r))
    (pass : PassOver s.who .read (fun k => [(unitAdr s.me a k 0, elemBytes s.me)]) (fun _ _ v => v) o at_ u (s.drain s.cur) pre) (all : failures pre o = [])
    (found : (elementPlaces s.who .read [(unitAdr s.me a k 0, elemBytes s.me)]).run u = (.ok (.error (va, .trap c inf rec)), v))
    (cause : c ∈ ([0x101, 0x102, 0x103, 0x105, 0x1C1, 0x1C2, 0x1C3, 0x381, 0x382] : List (BitVec 10))) :
    (firstFaults s.who (sewBits s.me) [] ((s.me.actives m r).map fun k => (k, [(unitAdr s.me a k 0, elemBytes s.me)]))).run (s.drain s.cur) =
      (.ok (results pre o fun _ ls => ls, some ⟨k, va, c, inf, rec⟩), v) := by
  have same : s.me.actives m r = pre ++ k :: post :=
    (pairwise_activesFrom s.me m r _).eq_of_mem_iff lists.1 fun j => mem_actives.trans (lists.2 j).symm
  rw [same, List.map_append, run_firstFaults_found pass all, List.map_cons, List.nil_append]
  exact run_firstFaults_stop (accs := fun k => [(unitAdr s.me a k 0, elemBytes s.me)]) found cause _ _

theorem results_eq_nil (all : failures pre o = []) (finds : ∀ k ∈ pre, ∀ e, o k = .error e → ∃ va c w r, e = (va, .trap c w r))
    (none : results pre o (fun _ ls => ls) = []) : pre = [] := by
  cases pre with
  | nil => rfl
  | cons k pre =>
    cases h : o k with
    | ok ls => rw [results_cons_ok h] at none; cases none
    | error e =>
      obtain ⟨va, c, w, r, rfl⟩ := finds k (.head _) e h
      rw [failures_cons_trap h] at all; cases all

/-- An element of a pass that is not found faults with a cause of R163. -/
theorem trap_of_passOver {who : Who} {kind : Access} {accs : ℕ → List (ℕ × ℕ)} {act : ℕ → List Loc → State → State} {t : State} {els : List ℕ}
    (pass : PassOver who kind accs act o at_ u t els) : ∀ k ∈ els, ∀ e, o k = .error e → ∃ va c w r, e = (va, .trap c w r) := by
  induction els generalizing t with
  | nil => simp
  | cons j els ih =>
    obtain ⟨-, next⟩ := pass
    intro k hk e he
    cases hj : o j with
    | ok ls =>
      rw [hj] at next
      rcases List.mem_cons.mp hk with rfl | hk
      · rw [hj] at he; cases he
      · exact ih next k hk e he
    | error f =>
      rw [hj] at next
      obtain ⟨va, ⟨c, w, r⟩ | _ | _⟩ := f
      · rcases List.mem_cons.mp hk with rfl | hk
        · rw [hj] at he; cases he; exact ⟨va, c, w, r, rfl⟩
        · exact ih next.2 k hk e he
      all_goals exact absurd next id

/-- The first element faults: its cause is raised. -/
theorem vldff_fault (enc : (encOf s.me).isSb = false) (tag : LoadTag (encOf s.me) (sewBits s.me) dst) (ok : LoadOk s a (Runs s.me m r) 1 (unitAdr s.me a))
    (stop : (firstFaults s.who (sewBits s.me) [] ((s.me.actives m r).map fun k => (k, [(unitAdr s.me a k 0, elemBytes s.me)]))).run (s.drain s.cur) =
      (.ok ([], some ⟨k, va, c, inf, rec⟩), v)) :
    exec (.vldff d a b m r) s = .next ((v.setMe { v.me with vfm := 0, vstart := BitVec.ofNat 11 k }).trapNow c (batchWord (k, va, c, inf, rec))
      { rec with elem := k, lane := k * sewBits s.me / 256, more := false, pages := [pageWord 0 (k, va, c, inf, rec)] }) := by
  obtain ⟨mn, execs, runs⟩ := run_vldff (d := d) (b := b) enc tag ok
  rw [execs]
  have word : Fail.word ⟨k, va, c, inf, rec⟩ = batchWord (k, va, c, inf, rec) := Fail.word_eq (first := id) (k, va, c, inf, rec)
  have page : pageEntry .read ⟨k, va, c, inf, rec⟩ = pageWord 0 (k, va, c, inf, rec) := pageEntry_eq (first := id) .read (k, va, c, inf, rec)
  refine complete_trap (runs.trans ?_)
  rw [run_bind, stop]
  dsimp only
  rw [run_ffEnd_fault, word, width_eq_sewBits]
  simp only [batchRecord, List.map_cons, List.map_nil, page]
  rfl

/-- A later element faults: the load ends before it and VL is shortened. -/
theorem vldff_cut (enc : (encOf s.me).isSb = false) (tag : LoadTag (encOf s.me) (sewBits s.me) dst) (ok : LoadOk s a (Runs s.me m r) 1 (unitAdr s.me a))
    (present : Present v s.cur .vector) (same : SameOperands s.me v.me) (some_ : results pre o (fun _ ls => ls) ≠ [])
    (stop : (firstFaults s.who (sewBits s.me) [] ((s.me.actives m r).map fun k => (k, [(unitAdr s.me a k 0, elemBytes s.me)]))).run (s.drain s.cur) =
      (.ok (results pre o fun _ ls => ls, some ⟨k, va, c, inf, rec⟩), v)) :
    ∃ y, Written s.me d dst (elemBytes s.me) v y 1 (placed pre o fun _ => v) ∧
      exec (.vldff d a b m r) s = .next (y.setMe { y.me with vl := BitVec.ofNat 11 k, vstart := 0, pc := nextPc s.me.pc 1, stall := [], busy := false }) := by
  obtain ⟨plain, set⟩ := isSb_of_loadTag tag
  obtain ⟨mn, execs, runs⟩ := run_vldff (d := d) (b := b) enc tag ok
  obtain ⟨ps, loads⟩ := run_ffLoad_present (x := s.me) (who := s.who) (d := d) (n := elemBytes s.me) (adr := unitAdr s.me a) set present
    (results pre o fun _ ls => ls) (some ⟨k, va, c, inf, rec⟩)
  have values (j : ℕ) (hj : j < 1) : (results pre o fun _ ls => ls).map (fun e => (e.1, fieldVal s.me dst (elemBytes s.me) 0 e.2 v)) =
      (placed pre o fun _ => v).map fun e => (e.1, fieldVal s.me dst (elemBytes s.me) j e.2.1 e.2.2) := by
    obtain rfl := Nat.lt_one_iff.mp hj
    rw [placed]
    clear some_ stop loads
    induction pre with
    | nil => rfl
    | cons k pre ih =>
      cases h : o k with
      | ok ls => rw [results_cons_ok h, results_cons_ok h, List.map_cons, List.map_cons, ih]
      | error e => rw [results_cons_error h, results_cons_error h, ih]
  refine ⟨_, written_loadedState plain (by norm_num : 1 ≤ 32) same ps apart_results values, ?_⟩
  rw [execs]
  rw [← ffEnd_of_ne_nil (.inl some_)] at loads
  rw [run_bind, stop] at runs
  refine (complete_ok (runs.trans loads)).trans ?_
  · rw [loadedState, me_setMe, setMe_setMe, me_setMe, setMe_setMe, ← same.regs.2.2.2.2.2.2]
    simp only [Ctx.wroteFields, List.range_one, List.foldl_cons, List.foldl_nil]
    rfl

end

end Sys2Proof.Machine
end

section
/-! The registers that a load of SB data writes, superblock by superblock (R124, R127). -/

namespace Sys2Proof.Machine

open Sys2Proof.Claims

theorem regSet_regSet {α : Type} (v : Vector α 32) (i : BitVec 5) (x y : α) : regSet (regSet v i x) i y = regSet v i y := Vector.set_set _ _

theorem slice_eq_div {n : ℕ} (v : BitVec n) (lo len : ℕ) : (slice v lo len).toNat = v.toNat / 2 ^ lo % 2 ^ len := by
  simp [slice, BitVec.extractLsb'_toNat, Nat.shiftRight_eq_div_pow]

/-! ### Sidecars -/

section
variable {x : Ctx} {d : BitVec 5} {j entry : ℕ} {blocks : List ℕ}

theorem sup_setSidecars {l : ℕ} (hl : l < 8) : (regGet (x.setSidecars d j entry blocks).sup d).toNat / 2 ^ (32 * l) % 2 ^ 32 =
    if l = j then entry % 2 ^ 32 else (regGet x.sup d).toNat / 2 ^ (32 * l) % 2 ^ 32 := by
  have super : sideSuper entry = entry % 2 ^ 32 := by rw [sideSuper, field_eq, pow_zero, Nat.div_one]
  rw [← slice_eq_div, ← slice_eq_div, Ctx.setSidecars, regGet_regSet_same, super]
  by_cases same : l = j
  · subst same
    rw [if_pos rfl, slice_splice_ofNat _ _ _ _ (by omega), BitVec.toNat_ofNat, Nat.mod_mod]
  · rw [if_neg same, slice_splice_other _ _ _ _ _ _ (by omega)]

/-- The headers of a superblock's blocks replaced. -/
def withHeaders (h : BitVec 512) (j entry : ℕ) (blocks : List ℕ) : BitVec 512 :=
  blocks.foldl (fun h q => splice h (16 * (4 * j + q)) 16 (sideHeader entry q)) h

theorem slice_withHeaders (h : BitVec 512) {l q : ℕ} (hl : l < 8) (hq : q < 4) (inside : ∀ b ∈ blocks, b < 4) :
    (slice (withHeaders h j entry blocks) (16 * (4 * l + q)) 16).toNat =
      if l = j ∧ q ∈ blocks then sideHeader entry q else (slice h (16 * (4 * l + q)) 16).toNat := by
  have small : sideHeader entry q % 2 ^ 16 = sideHeader entry q := by rw [sideHeader, field_eq, Nat.mod_mod]
  induction blocks generalizing h with
  | nil => simp [withHeaders]
  | cons b blocks ih =>
    have hb := inside b (.head _)
    rw [withHeaders, List.foldl_cons, ← withHeaders, ih _ fun c hc => inside c (.tail _ hc)]
    by_cases later : l = j ∧ q ∈ blocks
    · rw [if_pos later, if_pos ⟨later.1, .tail _ later.2⟩]
    · rw [if_neg later]
      by_cases here : l = j ∧ q = b
      · obtain ⟨rfl, rfl⟩ := here
        rw [if_pos ⟨rfl, .head _⟩, slice_splice_ofNat _ _ _ _ (by omega), BitVec.toNat_ofNat, small]
      · rw [if_neg, slice_splice_other _ _ _ _ _ _ (by omega)]
        rintro ⟨e, c⟩
        rcases List.mem_cons.mp c with c | c
        exacts [here ⟨e, c⟩, later ⟨e, c⟩]

theorem hdr_setSidecars {l q : ℕ} (hl : l < 8) (hq : q < 4) (inside : ∀ b ∈ blocks, b < 4) :
    (regGet (x.setSidecars d j entry blocks).hdr d).toNat / 2 ^ (16 * (4 * l + q)) % 2 ^ 16 =
      if l = j ∧ q ∈ blocks then sideHeader entry q else (regGet x.hdr d).toNat / 2 ^ (16 * (4 * l + q)) % 2 ^ 16 := by
  rw [← slice_eq_div, ← slice_eq_div, Ctx.setSidecars, regGet_regSet_same]
  exact slice_withHeaders _ hl hq inside

end

/-! ### Superblocks written -/

/-- How a load of SB data writes: the destination, its tag and width, and what each element, header and superscale becomes. -/
structure SbWrites where
  d : BitVec 5
  dst : Tag
  w : ℕ
  packed : Bool
  payload : Bool
  val : ℕ → FpResult
  super : ℕ → ℕ
  header : ℕ → ℕ → ℕ

/-- The context `z` is `y` with the elements `P` and the sidecars of the blocks `L` written. -/
structure SbWritten (g : SbWrites) (y z : Ctx) (P : ℕ → Prop) (L : ℕ → ℕ → Prop) : Prop where
  rest : ∃ fl, (∀ b, fl.getLsbD b = true ↔ g.packed = false ∧ ∃ k, P k ∧ (g.val k).2.getLsbD b = true) ∧
    z = { y with v := z.v, tag := regSet y.tag g.d g.dst, hdr := z.hdr, sup := z.sup, fflags := y.fflags ||| fl }
  others : ∀ q, q ≠ g.d → regGet z.v q = regGet y.v q ∧ regGet z.hdr q = regGet y.hdr q ∧ regGet z.sup q = regGet y.sup q
  named : ∀ k, (k + 1) * g.w ≤ 8192 → P k → g.payload = true → vel z g.d g.w k = (g.val k).1 % 2 ^ g.w
  unnamed : ∀ k, (k + 1) * g.w ≤ 8192 → ¬(P k ∧ g.payload = true) → vel z g.d g.w k = vel y g.d g.w k
  plain : g.packed = false → regGet z.hdr g.d = 0 ∧ regGet z.sup g.d = 0
  supers : g.packed = true → ∀ j, j < 8 →
    ((∃ q, L j q) → (regGet z.sup g.d).toNat / 2 ^ (32 * j) % 2 ^ 32 = g.super j) ∧
    ((∀ q, ¬L j q) → (regGet z.sup g.d).toNat / 2 ^ (32 * j) % 2 ^ 32 = (regGet y.sup g.d).toNat / 2 ^ (32 * j) % 2 ^ 32)
  headers : g.packed = true → ∀ j, j < 8 → ∀ q, q < 4 →
    (L j q → (regGet z.hdr g.d).toNat / 2 ^ (16 * (4 * j + q)) % 2 ^ 16 = g.header j q) ∧
    (¬L j q → (regGet z.hdr g.d).toNat / 2 ^ (16 * (4 * j + q)) % 2 ^ 16 = (regGet y.hdr g.d).toNat / 2 ^ (16 * (4 * j + q)) % 2 ^ 16)

/-- The tag of the destination fits the form of the load (R124). -/
def SbWrites.Fits (g : SbWrites) : Prop := g.dst.isSb = g.packed

section
variable {g : SbWrites} {y z : Ctx} {P : ℕ → Prop} {L : ℕ → ℕ → Prop}

theorem hdr_wrote (x : Ctx) (d : BitVec 5) (w : ℕ) (res : List (ℕ × FpResult)) (t : Tag) : (x.wrote d w res t).hdr = if t.isSb then x.hdr else regSet x.hdr d 0 := rfl
theorem sup_wrote (x : Ctx) (d : BitVec 5) (w : ℕ) (res : List (ℕ × FpResult)) (t : Tag) : (x.wrote d w res t).sup = if t.isSb then x.sup else regSet x.sup d 0 := rfl

/-- What a write of elements leaves, its register's file and flags apart. -/
theorem wrote_eq (x : Ctx) (d : BitVec 5) (w : ℕ) (res : List (ℕ × FpResult)) (t : Tag) : { x.wrote d w res t with vstart := x.vstart } = { x with
    v := (x.wrote d w res t).v, tag := regSet x.tag d t, hdr := (x.wrote d w res t).hdr, sup := (x.wrote d w res t).sup
    fflags := x.fflags ||| unionFlags (res.map (·.2.2)) } := rfl

/-- More elements written, of the values that they are to have. -/
theorem SbWritten.wrote (h : SbWritten g y z P L) (fits : g.Fits) {res : List (ℕ × FpResult)} {els : List ℕ}
    (values : res = if g.packed && !g.payload then [] else els.map fun k => (k, g.val k))
    (quiet : g.packed = true → ∀ k ∈ els, (g.val k).2 = 0) (uses : g.packed = false → g.payload = true) :
    SbWritten g y { z.wrote g.d g.w res g.dst with vstart := z.vstart } (fun k => P k ∨ k ∈ els) L := by
  obtain ⟨fl, flags, rest⟩ := h.rest
  have tagZ : z.tag = regSet y.tag g.d g.dst := congrArg Ctx.tag rest
  have member (k : ℕ) : (∃ e ∈ res, e.1 = k) ↔ k ∈ els ∧ g.payload = true := by
    subst values
    cases hp : g.packed <;> cases hq : g.payload
    · exact absurd (uses hp) (by simp [hq])
    all_goals simp
  have value (k : ℕ) : ∀ e ∈ res, e.1 = k → e.2 = g.val k := by
    subst values
    intro e he hk
    split at he
    · cases he
    · obtain ⟨i, -, rfl⟩ := List.mem_map.mp he
      rw [← hk]
  have kept (hs : g.packed = true) : (z.wrote g.d g.w res g.dst).hdr = z.hdr ∧ (z.wrote g.d g.w res g.dst).sup = z.sup := by
    rw [hdr_wrote, sup_wrote, if_pos (fits.trans hs), if_pos (fits.trans hs)]; exact ⟨rfl, rfl⟩
  have cleared (hs : g.packed = false) : (z.wrote g.d g.w res g.dst).hdr = regSet z.hdr g.d 0 ∧ (z.wrote g.d g.w res g.dst).sup = regSet z.sup g.d 0 := by
    have : ¬g.dst.isSb = true := by rw [fits, hs]; decide
    rw [hdr_wrote, sup_wrote, if_neg this, if_neg this]; exact ⟨rfl, rfl⟩
  refine ⟨⟨fl ||| unionFlags (res.map (·.2.2)), fun b => ?_, ?_⟩, fun q hq => ?_, fun k hk named uses => ?_, fun k hk none => ?_, fun hs => ?_, fun hs => ?_, fun hs => ?_⟩
  · rw [BitVec.getLsbD_or, Bool.or_eq_true, flags, getLsbD_unionFlags]
    constructor
    · rintro (⟨hs, k, hk, bit⟩ | ⟨f, hf, bit⟩)
      · exact ⟨hs, k, .inl hk, bit⟩
      · obtain ⟨e, he, rfl⟩ := List.mem_map.mp hf
        have here := (member e.1).mp ⟨e, he, rfl⟩
        rw [value e.1 e he rfl] at bit
        cases hs : g.packed with
        | false => exact ⟨rfl, e.1, .inr here.1, bit⟩
        | true => rw [quiet hs _ here.1] at bit; simp at bit
    · rintro ⟨hs, k, hk | hk, bit⟩
      · exact .inl ⟨hs, k, hk, bit⟩
      · obtain ⟨e, he, rfl⟩ := (member k).mpr ⟨hk, uses hs⟩
        exact .inr ⟨_, List.mem_map_of_mem he, by rw [value e.1 e he rfl]; exact bit⟩
  · have := congrArg (fun c : Ctx => ({ c with
      v := (z.wrote g.d g.w res g.dst).v, tag := regSet z.tag g.d g.dst, hdr := (z.wrote g.d g.w res g.dst).hdr, sup := (z.wrote g.d g.w res g.dst).sup
      fflags := c.fflags ||| unionFlags (res.map (·.2.2)) } : Ctx)) rest
    dsimp only at this
    rw [BitVec.or_assoc, tagZ, regSet_regSet] at this
    rw [wrote_eq, tagZ, regSet_regSet]
    exact this
  · obtain ⟨hv, hh, hu⟩ := h.others q hq
    refine ⟨(regGet_wrote_other (t := g.dst) hq).trans hv, ?_, ?_⟩
    · change regGet (z.wrote g.d g.w res g.dst).hdr q = _
      cases hs : g.packed with
      | true => rw [(kept hs).1, hh]
      | false => rw [(cleared hs).1, regGet_regSet_other _ _ _ _ hq, hh]
    · change regGet (z.wrote g.d g.w res g.dst).sup q = _
      cases hs : g.packed with
      | true => rw [(kept hs).2, hu]
      | false => rw [(cleared hs).2, regGet_regSet_other _ _ _ _ hq, hu]
  · change vel (z.wrote g.d g.w res g.dst) g.d g.w k = _
    by_cases here : k ∈ els
    · exact vel_wrote_of_mem hk ((member k).mpr ⟨here, uses⟩) fun e he same => by rw [value k e he same]
    · rw [vel_wrote_of_not_mem fun e he same => here ((member k).mp ⟨e, he, same⟩).1]
      exact h.named k hk (named.resolve_right here) uses
  · change vel (z.wrote g.d g.w res g.dst) g.d g.w k = _
    rw [vel_wrote_of_not_mem fun e he same => none (((member k).mp ⟨e, he, same⟩).imp .inr id)]
    exact h.unnamed k hk fun c => none (c.imp .inl id)
  · change regGet (z.wrote g.d g.w res g.dst).hdr g.d = 0 ∧ regGet (z.wrote g.d g.w res g.dst).sup g.d = 0
    rw [(cleared hs).1, (cleared hs).2, regGet_regSet_same, regGet_regSet_same]; exact ⟨rfl, rfl⟩
  · change ∀ j, j < 8 → ((∃ q, L j q) → (regGet (z.wrote g.d g.w res g.dst).sup g.d).toNat / 2 ^ (32 * j) % 2 ^ 32 = g.super j) ∧ _
    rw [(kept hs).2]; exact h.supers hs
  · change ∀ j, j < 8 → ∀ q, q < 4 → (L j q → (regGet (z.wrote g.d g.w res g.dst).hdr g.d).toNat / 2 ^ (16 * (4 * j + q)) % 2 ^ 16 = g.header j q) ∧ _
    rw [(kept hs).1]; exact h.headers hs

/-- The tag and the cleared sidecars of a load that writes no element. -/
theorem sbWritten_start (fits : g.Fits) (y : Ctx) :
    SbWritten g y { y.wrote g.d g.w [] g.dst with vstart := y.vstart } (fun _ => False) fun _ _ => False := by
  have files (v : Vector (BitVec 8192) 32) (q : BitVec 5) : regGet (regSet v g.d (regGet v g.d)) q = regGet v q := by
    by_cases h : q = g.d
    · rw [h, regGet_regSet_same]
    · rw [regGet_regSet_other _ _ _ _ h]
  refine ⟨⟨0, fun b => by simp, ?_⟩, fun q hq => ⟨?_, ?_, ?_⟩, fun _ _ h => h.elim, fun k _ _ => ?_, fun hs => ?_, fun hs j _ => ?_, fun hs j _ q _ => ?_⟩
  · rw [wrote_eq]; rfl
  · exact files y.v q
  · change regGet (y.wrote g.d g.w [] g.dst).hdr q = _
    rw [hdr_wrote]; split
    exacts [rfl, regGet_regSet_other _ _ _ _ hq]
  · change regGet (y.wrote g.d g.w [] g.dst).sup q = _
    rw [sup_wrote]; split
    exacts [rfl, regGet_regSet_other _ _ _ _ hq]
  · exact vel_wrote_of_not_mem (t := g.dst) (by simp)
  · have : ¬g.dst.isSb = true := by rw [fits, hs]; decide
    change regGet (y.wrote g.d g.w [] g.dst).hdr g.d = 0 ∧ regGet (y.wrote g.d g.w [] g.dst).sup g.d = 0
    rw [hdr_wrote, sup_wrote, if_neg this, if_neg this, regGet_regSet_same, regGet_regSet_same]; exact ⟨rfl, rfl⟩
  · refine ⟨fun ⟨_, h⟩ => h.elim, fun _ => ?_⟩
    change (regGet (y.wrote g.d g.w [] g.dst).sup g.d).toNat / _ % _ = _
    rw [sup_wrote, if_pos (fits.trans hs)]
  · refine ⟨fun h => h.elim, fun _ => ?_⟩
    change (regGet (y.wrote g.d g.w [] g.dst).hdr g.d).toNat / _ % _ = _
    rw [hdr_wrote, if_pos (fits.trans hs)]

/-- The sidecars of some blocks of a superblock written, of the values that they are to have. -/
theorem SbWritten.setSidecars (h : SbWritten g y z P L) (packed : g.packed = true) {j entry : ℕ} {blocks : List ℕ} (some : blocks ≠ []) (inside : ∀ b ∈ blocks, b < 4)
    (super : g.super j = entry % 2 ^ 32) (header : ∀ q ∈ blocks, g.header j q = sideHeader entry q) :
    SbWritten g y (z.setSidecars g.d j entry blocks) P fun l q => L l q ∨ (l = j ∧ q ∈ blocks) := by
  obtain ⟨fl, flags, rest⟩ := h.rest
  refine ⟨⟨fl, flags, ?_⟩, fun q hq => ?_, h.named, h.unnamed, fun hs => (by rw [packed] at hs; cases hs), fun hs l hl => ?_, fun hs l hl q hq => ?_⟩
  · exact (congrArg (fun c : Ctx => ({ c with
      hdr := (z.setSidecars g.d j entry blocks).hdr, sup := (z.setSidecars g.d j entry blocks).sup } : Ctx)) rest :)
  · obtain ⟨hv, hh, hu⟩ := h.others q hq
    exact ⟨hv, (regGet_regSet_other _ _ _ _ hq).trans hh, (regGet_regSet_other _ _ _ _ hq).trans hu⟩
  · obtain ⟨given, kept⟩ := h.supers hs l hl
    rw [sup_setSidecars hl]
    by_cases same : l = j
    · subst same
      rw [if_pos rfl]
      obtain ⟨b, hb⟩ := List.exists_mem_of_ne_nil _ some
      exact ⟨fun _ => super.symm, fun none => absurd (.inr ⟨rfl, hb⟩) (none b)⟩
    · rw [if_neg same]
      refine ⟨fun ⟨q, hq⟩ => given ⟨q, hq.resolve_right fun c => same c.1⟩, fun none => kept fun q hq => none q (.inl hq)⟩
  · obtain ⟨given, kept⟩ := h.headers hs l hl q hq
    rw [hdr_setSidecars hl hq inside]
    by_cases here : l = j ∧ q ∈ blocks
    · rw [if_pos here]
      obtain ⟨rfl, hb⟩ := here
      exact ⟨fun _ => (header q hb).symm, fun none => absurd (.inr ⟨rfl, hb⟩) none⟩
    · rw [if_neg here]
      exact ⟨fun hq => given (hq.resolve_right here), fun none => kept fun hq => none (.inl hq)⟩

end

end Sys2Proof.Machine
end

section
/-! Superblocks as they are read: their accesses, codes, side entries and checks (R118, R119, R128). -/

namespace Sys2Proof.Machine

open Sys2Proof.Claims

/-! ### The layout -/

/-- SB data held as they are in memory (R126). -/
def sbPacked (x : Ctx) : Bool := sewBits x == 8

/-- SIDE of MFMT. -/
def sideMode (x : Ctx) : ℕ := x.mfmt.toNat / 2 ^ 8 % 4

/-- Whether elements lie as in SB8: a byte each. -/
def byteWide (x : Ctx) : Bool := sbPacked x || encOf x == .sb8

/-- How a load of SB data accesses superblocks. -/
def loadAccess (x : Ctx) (a b : BitVec 5) : SuperAccess :=
  { payload := (x.reg a).toNat, side := (x.reg b).toNat, usesPayload := sideMode x != 1, usesSide := sideMode x != 2
    elems := if byteWide x then 128 else 256, block := if byteWide x then 32 else 64, bits := if byteWide x then 8 else 4 }

/-- The model's layout of the same. -/
def loadShape (x : Ctx) : SbShape := ⟨x.enc == .sb8, x.width == 8, x.side != 1, x.side != 2⟩

section
variable {x : Ctx} {a b : BitVec 5} {es : List ℕ} {j k : ℕ}

theorem loadShape_eq (x : Ctx) : loadShape x = ⟨encOf x == .sb8, sbPacked x, sideMode x != 1, sideMode x != 2⟩ := by
  rw [loadShape, enc_eq, width_eq_sewBits, side_eq]; rfl

theorem superElems_loadShape : (loadShape x).superElems = (loadAccess x a b).elems := by
  rw [loadShape_eq, loadAccess, byteWide, SbShape.superElems, superLen]
  cases sbPacked x <;> cases encOf x == .sb8 <;> rfl

theorem blockElems_loadShape : (loadShape x).blockElems = (loadAccess x a b).block := by
  rw [loadShape_eq, loadAccess, byteWide, SbShape.blockElems, blockLen]
  cases sbPacked x <;> cases encOf x == .sb8 <;> rfl

theorem elemBits_loadShape : (loadShape x).elemBits = (loadAccess x a b).bits := by
  rw [loadShape_eq, loadAccess, byteWide, SbShape.elemBits, codeBits]
  cases sbPacked x <;> cases encOf x == .sb8 <;> rfl

theorem byteOf_loadShape : (loadShape x).byteOf k = (loadAccess x a b).byteOf k := by
  rw [SbShape.byteOf, SuperAccess.byteOf, superElems_loadShape (a := a) (b := b), elemBits_loadShape (a := a) (b := b)]

theorem payload_loadShape : (loadShape x).payload = (loadAccess x a b).usesPayload := by rw [loadShape_eq]; rfl
theorem side_loadShape : (loadShape x).side = (loadAccess x a b).usesSide := by rw [loadShape_eq]; rfl

theorem accesses_loadShape : (loadShape x).accesses (x.reg a).toNat (x.reg b).toNat j ((loadAccess x a b).within es j) = (loadAccess x a b).accs es j := by
  rw [SbShape.accesses, byteOf_loadShape (a := a) (b := b), byteOf_loadShape (a := a) (b := b), payload_loadShape (a := a) (b := b),
    side_loadShape (a := a) (b := b)]
  rfl

/-- A superblock holds 128 bytes, four blocks, and whole bytes of elements. -/
theorem loadAccess_sizes (x : Ctx) (a b : BitVec 5) : let g := loadAccess x a b
    0 < g.elems ∧ g.elems = 4 * g.block ∧ ((g.elems = 128 ∧ g.bits = 8) ∨ (g.elems = 256 ∧ g.bits = 4)) := by
  simp only [loadAccess]
  cases byteWide x <;> simp

end

/-! ### The bytes of a superblock -/

theorem snd_parts (vas : List ℕ) (n : ℕ) (ls : List Loc) : (parts vas n ls).map (·.2) = (List.range vas.length).map fun j => chunk n j ls := by
  have general (l : List ℕ) (k : ℕ) : ((l.zip (List.range' k l.length)).map fun v => chunk n v.2 ls) = (List.range' k l.length).map fun j => chunk n j ls := by
    induction l generalizing k with
    | nil => rfl
    | cons v l ih => rw [List.length_cons, List.range'_succ, List.zip_cons_cons, List.map_cons, List.map_cons, ih]
  rw [parts, List.map_map, span_eq_range', List.range_eq_range', ← general]
  rfl

theorem flatMap_parts (vas : List ℕ) (n : ℕ) (ls : List Loc) : (parts vas n ls).flatMap (·.2) = ls.take (n * vas.length) := by
  rw [← flatMap_chunk, List.flatMap_def, snd_parts, ← List.flatMap_def]

/-- The units of a superblock's accesses are its places, in order. -/
theorem flatMap_units {g : SbShape} {accs : List (ℕ × ℕ)} {ls : List Loc} (len : ls.length = (accs.map (·.2)).sum)
    (entries : ∀ acc ∈ (if g.payload then accs.tail else accs), acc.2 = 16) : (g.units accs ls).flatMap (·.2) = ls := by
  have sixteen (l : List (ℕ × ℕ)) (h : ∀ acc ∈ l, acc.2 = 16) : (l.map (·.2)).sum = 16 * l.length := by
    rw [List.map_congr_left h, List.map_const', List.sum_replicate, smul_eq_mul, Nat.mul_comm]
  obtain ⟨sb8, packed, payload, side⟩ := g
  rw [SbShape.units.eq_def]
  cases payload with
  | false => rw [flatMap_parts, List.length_map, ← sixteen accs entries, ← len, List.take_length]
  | true =>
    cases accs with
    | nil => exact (List.eq_nil_of_length_eq_zero len).symm
    | cons acc rest =>
      obtain ⟨va, n⟩ := acc
      rw [List.map_cons, List.sum_cons, sixteen rest entries] at len
      dsimp only
      rw [List.flatMap_append, flatMap_parts, flatMap_parts, List.length_map, List.length_map, span_zero, List.length_range, Nat.one_mul, List.take_take,
        min_self, List.take_of_length_le (l := ls.drop n) (by rw [List.length_drop]; omega), List.take_append_drop]

section
variable {x : Ctx} {a b : BitVec 5} {es : List ℕ} {j : ℕ} {ls : List Loc} {v : State} {who : Who}

theorem run_readSuper (present : Present v who.ctx .vector) (len : ls.length = (((loadAccess x a b).accs es j).map (·.2)).sum) :
    ∃ at_, (readParts who ((loadShape x).units ((loadAccess x a b).accs es j) ls)).run v = (.ok (at_, ls.map v.locByte), v) := by
  obtain ⟨at_, run⟩ := run_readParts_present present ((loadShape x).units ((loadAccess x a b).accs es j) ls)
  refine ⟨at_, run.trans ?_⟩
  have whole : ((loadShape x).units ((loadAccess x a b).accs es j) ls).flatMap (·.2) = ls := by
    refine flatMap_units len ?_
    rw [payload_loadShape (a := a) (b := b), SuperAccess.accs]
    cases (loadAccess x a b).usesPayload <;> cases (loadAccess x a b).usesSide <;> simp
  conv_rhs => rw [← whole, List.map_flatMap]

end

/-! ### Codes and side entries -/

theorem leNat_div (bs : List Byte) (i : ℕ) : leNat bs / 256 ^ i % 256 = ((bs[i]?).getD 0).toNat := by
  induction bs generalizing i with
  | nil => simp [leNat]
  | cons b bs ih =>
    have cons : leNat (b :: bs) = b.toNat + 256 * leNat bs := rfl
    have small : b.toNat < 256 := b.isLt
    cases i with
    | zero => rw [cons]; simp; omega
    | succ i =>
      rw [cons, Nat.pow_succ', ← Nat.div_div_eq_div_mul, show (b.toNat + 256 * leNat bs) / 256 = leNat bs by omega, ih]
      rfl

/-- Low bits of a byte of a number. -/
theorem byte_bits (n i r w : ℕ) (h : r + w ≤ 8) : n / 2 ^ (8 * i + r) % 2 ^ w = n / 256 ^ i % 256 / 2 ^ r % 2 ^ w := by
  have split : 256 = 2 ^ r * 2 ^ (8 - r) := by rw [← Nat.pow_add, Nat.add_sub_cancel' (by omega)]
  rw [Nat.pow_add, ← Nat.div_div_eq_div_mul, Nat.pow_mul, show (2 : ℕ) ^ 8 = 256 from rfl]
  generalize n / 256 ^ i = a
  conv_rhs => rw [split]
  rw [Nat.mod_mul_right_div_self, Nat.mod_mod_of_dvd _ (Nat.pow_dvd_pow 2 (by omega))]

section
variable {x : Ctx} {a b : BitVec 5} {es : List ℕ} {j k : ℕ} {ls : List Loc} {v : State}

/-- Bytes from the first to the last of a superblock that are accessed. -/
def bodyLen (g : SuperAccess) (es : List ℕ) (j : ℕ) : ℕ := if g.usesPayload then g.hi es j - g.lo es j + 1 else 0

/-- A superblock as it is read in a state. -/
def superRead (x : Ctx) (a b : BitVec 5) (es : List ℕ) (v : State) (j : ℕ) (ls : List Loc) : SuperRead :=
  ⟨j, (loadAccess x a b).within es j, leNat ((ls.map v.locByte).take (bodyLen (loadAccess x a b) es j)) * 2 ^ (8 * (loadAccess x a b).lo es j),
    (loadAccess x a b).entry es v ls j⟩

theorem split_loadShape : (loadShape x).split ((loadAccess x a b).within es j) (ls.map v.locByte) =
    ((superRead x a b es v j ls).payload, (superRead x a b es v j ls).side) := by
  rw [SbShape.split, ofBytes_eq_leNat, ofBytes_eq_leNat, byteOf_loadShape (a := a) (b := b), byteOf_loadShape (a := a) (b := b),
    payload_loadShape (a := a) (b := b)]
  rfl

theorem byteOf_le {k l : ℕ} (g : SuperAccess) (same : k / g.elems = l / g.elems) (le : k ≤ l) : g.byteOf k ≤ g.byteOf l := by
  have hk := Nat.div_add_mod k g.elems
  have hl := Nat.div_add_mod l g.elems
  rw [same] at hk
  refine Nat.div_le_div_right (Nat.mul_le_mul_right _ ?_)
  generalize g.elems * (l / g.elems) = p at hk hl
  omega

/-- The code of an element in its superblock's payload. -/
theorem code_superRead (sorted : es.Pairwise (· < ·)) (hk : k ∈ (loadAccess x a b).within es j) (uses : (loadAccess x a b).usesPayload = true) :
    (superRead x a b es v j ls).payload / 2 ^ (k % (loadShape x).superElems * (loadShape x).elemBits) % 2 ^ (loadShape x).elemBits =
      (loadAccess x a b).code es v ls k := by
  rw [superElems_loadShape (a := a) (b := b), elemBits_loadShape (a := a) (b := b)]
  obtain ⟨-, -, sizes⟩ := loadAccess_sizes x a b
  have whole : bodyLen (loadAccess x a b) es j = (loadAccess x a b).hi es j - (loadAccess x a b).lo es j + 1 := if_pos uses
  obtain ⟨mem, here⟩ := mem_inSuper.mp hk
  have first : j ∈ supersOf (loadAccess x a b).elems es := mem_supersOf.mpr ⟨k, mem, here⟩
  have low : (loadAccess x a b).lo es j ≤ (loadAccess x a b).byteOf k :=
    byteOf_le _ ((mem_inSuper.mp (head_inSuper_mem first)).2.trans here.symm) (head_inSuper_le sorted hk)
  have high : (loadAccess x a b).byteOf k ≤ (loadAccess x a b).hi es j :=
    byteOf_le _ (here.trans (mem_inSuper.mp (last_inSuper_mem first)).2.symm) (le_last_inSuper sorted hk)
  rw [superRead, SuperAccess.code, here]
  dsimp only
  rw [whole]
  generalize (loadAccess x a b).lo es j = lo at low ⊢
  generalize (loadAccess x a b).hi es j = hi at high ⊢
  have place : k % (loadAccess x a b).elems * (loadAccess x a b).bits = 8 * (loadAccess x a b).byteOf k + k * (loadAccess x a b).bits % 8 := by
    rw [SuperAccess.byteOf]
    rcases sizes with ⟨e, f⟩ | ⟨e, f⟩ <;> rw [e, f] <;> omega
  have fits : k * (loadAccess x a b).bits % 8 + (loadAccess x a b).bits ≤ 8 := by
    rcases sizes with ⟨-, f⟩ | ⟨-, f⟩ <;> rw [f] <;> omega
  rw [place]
  generalize (loadAccess x a b).byteOf k = byte at low high ⊢
  generalize (loadAccess x a b).bits = w at fits ⊢
  have shift : 8 * byte + k * w % 8 = 8 * lo + (8 * (byte - lo) + k * w % 8) := by omega
  rw [shift, Nat.pow_add, ← Nat.div_div_eq_div_mul, Nat.mul_div_cancel _ (by positivity), byte_bits _ _ _ _ fits, leNat_div,
    List.getElem?_take_of_lt (by omega)]

end

/-! ### Checks of side entries (R128) -/

theorem superBad_eq (e : ℕ) : superBad (sideSuper e) (sideReserved e) = true ↔ e / 2 ^ 96 % 2 ^ 32 ≠ 0 ∨ e / 2 ^ 23 % 256 = 255 := by
  have field : e % 2 ^ 32 / 2 ^ 23 % 2 ^ 8 = e / 2 ^ 23 % 256 := by omega
  rw [superBad, Bool.or_eq_true, bne_iff_ne, beq_iff_eq, sideSuper, sideReserved, field_eq, field_eq, field_eq, pow_zero, Nat.div_one, field]

theorem headerBad_side (sb8 : Bool) (e q : ℕ) : headerBad sb8 (sideHeader e q) = headerReason sb8 (e / 2 ^ (32 + 16 * q) % 2 ^ 16) := by
  rw [headerBad_eq, sideHeader, field_eq]

section
variable {sb8 : Bool} {e : ℕ} {blocks : List ℕ}

theorem sideBad_cons (q : ℕ) (l : List ℕ) : sideBad sb8 e (q :: l) = if e / 2 ^ 96 % 2 ^ 32 ≠ 0 ∨ e / 2 ^ 23 % 256 = 255 then some (q, 3)
    else (q :: l).findSome? fun q => (headerReason sb8 (e / 2 ^ (32 + 16 * q) % 2 ^ 16)).map fun r => (q, r) := by
  simp only [sideBad, superBad_eq, headerBad_side]

theorem sideReason_of_good (good : ¬(e / 2 ^ 96 % 2 ^ 32 ≠ 0 ∨ e / 2 ^ 23 % 256 = 255)) (q : ℕ) :
    sideReason sb8 e blocks q = headerReason sb8 (e / 2 ^ (32 + 16 * q) % 2 ^ 16) := by
  rw [sideReason, if_neg fun c => good c.2]

/-- Blocks in ascending order, without repeats, of a list in which they may repeat. -/
theorem sideBad_none (sorted : blocks.Pairwise (· ≤ ·)) (all : ∀ q ∈ blocks, sideReason sb8 e blocks q = none) : sideBad sb8 e (dedup blocks) = none := by
  rw [dedup_eq_dedup sorted]
  have mem (q : ℕ) : q ∈ blocks.dedup ↔ q ∈ blocks := List.mem_dedup
  have order : blocks.dedup.Pairwise (· ≤ ·) := sorted.sublist (List.dedup_sublist _)
  generalize blocks.dedup = l at mem order
  cases l with
  | nil => rfl
  | cons q l =>
    have least : ∀ p ∈ blocks, q ≤ p := fun p hp => by
      rcases List.mem_cons.mp ((mem p).mpr hp) with rfl | hp
      exacts [le_rfl, List.rel_of_pairwise_cons order hp]
    have good : ¬(e / 2 ^ 96 % 2 ^ 32 ≠ 0 ∨ e / 2 ^ 23 % 256 = 255) := fun bad => by
      have := all q ((mem q).mp (.head _))
      rw [sideReason, if_pos ⟨least, bad⟩] at this
      cases this
    rw [sideBad_cons, if_neg good, List.findSome?_eq_none_iff]
    intro p hp
    have := all p ((mem p).mp hp)
    rw [sideReason_of_good good] at this
    rw [this]; rfl

theorem sideBad_some (sorted : blocks.Pairwise (· ≤ ·)) {q reason : ℕ} (hq : q ∈ blocks) (bad : sideReason sb8 e blocks q = some reason)
    (before : ∀ p ∈ blocks, p < q → sideReason sb8 e blocks p = none) : sideBad sb8 e (dedup blocks) = some (q, reason) := by
  rw [dedup_eq_dedup sorted]
  have mem (q : ℕ) : q ∈ blocks.dedup ↔ q ∈ blocks := List.mem_dedup
  have order : blocks.dedup.Pairwise (· < ·) := ((sorted.sublist (List.dedup_sublist _)).and (List.nodup_dedup _)).imp fun h => by omega
  generalize blocks.dedup = l at mem order
  have here := (mem q).mpr hq
  obtain ⟨pre, post, rfl⟩ := List.append_of_mem here
  have below : ∀ p ∈ pre, p < q := fun p hp => (List.pairwise_append.mp order).2.2 p hp q (.head _)
  by_cases super : e / 2 ^ 96 % 2 ^ 32 ≠ 0 ∨ e / 2 ^ 23 % 256 = 255
  · cases pre with
    | nil =>
      have least : ∀ p ∈ blocks, q ≤ p := fun p hp => by
        rcases List.mem_cons.mp ((mem p).mpr hp) with rfl | hp
        exacts [le_rfl, (List.rel_of_pairwise_cons order hp).le]
      rw [sideReason, if_pos ⟨least, super⟩] at bad
      cases bad
      rw [List.nil_append, sideBad_cons, if_pos super]
    | cons p pre =>
      have least : ∀ r ∈ blocks, p ≤ r := fun r hr => by
        rcases List.mem_cons.mp ((mem r).mpr hr) with rfl | hr
        exacts [le_rfl, (List.rel_of_pairwise_cons order hr).le]
      have := before p ((mem p).mp (.head _)) (below p (.head _))
      rw [sideReason, if_pos ⟨least, super⟩] at this
      cases this
  · have cons : sideBad sb8 e (pre ++ q :: post) = (pre ++ q :: post).findSome? fun q => (headerReason sb8 (e / 2 ^ (32 + 16 * q) % 2 ^ 16)).map fun r => (q, r) := by
      cases pre with
      | nil => rw [List.nil_append, sideBad_cons, if_neg super]
      | cons p pre => rw [List.cons_append, sideBad_cons, if_neg super]
    have none : (pre.findSome? fun q => (headerReason sb8 (e / 2 ^ (32 + 16 * q) % 2 ^ 16)).map fun r => (q, r)) = none := by
      rw [List.findSome?_eq_none_iff]
      intro p hp
      have := before p ((mem p).mp (by simp [hp])) (below p hp)
      rw [sideReason_of_good super] at this
      rw [this]; rfl
    rw [sideReason_of_good super] at bad
    rw [cons, List.findSome?_append, none, List.findSome?_cons, bad]
    rfl

end

end Sys2Proof.Machine
end

section
/-! What loads of SB data leave in registers (R124, R127). -/

namespace Sys2Proof.Machine

open Sys2Proof.Claims

/-- The tag of the destination of a load of SB data (R124). -/
def sbDst (x : Ctx) : Tag := if sbPacked x then encOf x else if sewBits x = 16 then .bf16 else .fp32

/-- The places of a superblock, where they were found. -/
def gotOf (o : ℕ → Except (ℕ × Stop) (List Loc)) (j : ℕ) : Option (List Loc) :=
  match o j with
  | .ok ls => some ls
  | .error _ => none

theorem gotOf_ok {o : ℕ → Except (ℕ × Stop) (List Loc)} {j : ℕ} {ls : List Loc} (h : o j = .ok ls) : gotOf o j = some ls := by rw [gotOf, h]

theorem gotOf_error {o : ℕ → Except (ℕ × Stop) (List Loc)} {j : ℕ} {e : ℕ × Stop} (h : o j = .error e) : gotOf o j = none := by rw [gotOf, h]

/-- What an element expands to, from the places of its superblock in a state (R120 to R122). -/
def expandedAt (x : Ctx) (a b : BitVec 5) (es : List ℕ) (v : State) (ls : List Loc) (k : ℕ) : FpResult :=
  let g := loadAccess x a b
  let e := g.entry es v ls (k / g.elems)
  expand (encOf x == .sb8) (e % 2 ^ 32) (e / 2 ^ (32 + 16 * (k % g.elems / g.block)) % 2 ^ 16) (g.code es v ls k) (sbDst x).fmt (rmOf (slice x.vcfg 4 2)) (slice x.vcfg 2 2)

/-- What an element of a load of SB data expands to, where its superblock was found. -/
def sbRes (x : Ctx) (a b : BitVec 5) (es : List ℕ) (o : ℕ → Except (ℕ × Stop) (List Loc)) (at_ : ℕ → State) (k : ℕ) : FpResult :=
  match gotOf o (k / (loadAccess x a b).elems) with
  | some ls => expandedAt x a b es (at_ (k / (loadAccess x a b).elems)) ls k
  | none => (0, 0)

/-- How a load of SB data writes its destination. -/
def sbWrites (x : Ctx) (d a b : BitVec 5) (es : List ℕ) (o : ℕ → Except (ℕ × Stop) (List Loc)) (at_ : ℕ → State) : SbWrites :=
  let g := loadAccess x a b
  { d, dst := sbDst x, w := sewBits x, packed := sbPacked x, payload := g.usesPayload
    val := fun k => if sbPacked x then (((gotOf o (k / g.elems)).map fun ls => g.code es (at_ (k / g.elems)) ls k).getD 0, 0)
      else sbRes x a b es o at_ k
    super := fun j => ((gotOf o j).map fun ls => g.entry es (at_ j) ls j % 2 ^ 32).getD 0
    header := fun j q => ((gotOf o j).map fun ls => g.entry es (at_ j) ls j / 2 ^ (32 + 16 * q) % 2 ^ 16).getD 0 }

/-- A load of SB data that its checks let pass (R124, R126): packed, or expanding from payload and side entries. -/
structure SbForm (x : Ctx) : Prop where
  sb : (encOf x).isSb = true
  expands : sbPacked x = false → sideMode x = 0

section
variable {x y z : Ctx} {d a b : BitVec 5} {es : List ℕ} {o : ℕ → Except (ℕ × Stop) (List Loc)} {at_ : ℕ → State} {P : ℕ → Prop} {L : ℕ → ℕ → Prop}

theorem SbForm.fits (form : SbForm x) : (sbWrites x d a b es o at_).Fits := by
  rw [SbWrites.Fits, sbWrites, sbDst]
  cases h : sbPacked x with
  | true => exact form.sb
  | false =>
    by_cases w : sewBits x = 16
    · simp [w, Tag.isSb]
    · simp [w, Tag.isSb]

theorem SbWritten.iff {g : SbWrites} {P' : ℕ → Prop} {L' : ℕ → ℕ → Prop} (h : SbWritten g y z P L) (sameP : ∀ k, P k ↔ P' k) (sameL : ∀ j q, L j q ↔ L' j q) :
    SbWritten g y z P' L' := by
  obtain rfl : P = P' := funext fun k => propext (sameP k)
  obtain rfl : L = L' := funext fun j => funext fun q => propext (sameL j q)
  exact h

/-- A load that expands writes no sidecars. -/
theorem SbWritten.of_expanding {g : SbWrites} {L' : ℕ → ℕ → Prop} (h : SbWritten g y z P L) (plain : g.packed = false) : SbWritten g y z P L' :=
  { h with supers := fun hs => (by rw [plain] at hs; cases hs), headers := fun hs => (by rw [plain] at hs; cases hs) }

/-- Elements of a superblock, and headers of its blocks, written (R124, R127). -/
theorem SbWritten.putSuper (form : SbForm x) (sorted : es.Pairwise (· < ·)) (h : SbWritten (sbWrites x d a b es o at_) y z P L) (vcfg : y.vcfg = x.vcfg)
    {j : ℕ} {ls : List Loc} (found : gotOf o j = some ls) {els blocks : List ℕ} (sub : ∀ k ∈ els, k ∈ (loadAccess x a b).within es j) (inside : ∀ q ∈ blocks, q < 4) :
    SbWritten (sbWrites x d a b es o at_) y (z.putSuper (loadShape x) d (sbDst x) (superRead x a b es (at_ j) j ls) els blocks) (fun k => P k ∨ k ∈ els)
      fun l q => L l q ∨ (l = j ∧ q ∈ blocks ∧ (loadAccess x a b).usesSide = true) := by
  have same : z.vcfg = x.vcfg := by
    obtain ⟨fl, -, rest⟩ := h.rest
    exact (congrArg Ctx.vcfg rest).trans vcfg
  have here {k : ℕ} (hk : k ∈ els) : k / (loadAccess x a b).elems = j := (mem_inSuper.mp (sub k hk)).2
  have codes {k : ℕ} (hk : k ∈ els) (uses : (loadAccess x a b).usesPayload = true) := code_superRead (v := at_ j) (ls := ls) sorted (sub k hk) uses
  have isPacked : (loadShape x).packed = sbPacked x := by rw [loadShape_eq]
  cases packed : sbPacked x with
  | true =>
    have width : sewBits x = 8 := by simpa [sbPacked] using packed
    have wrote := h.wrote (els := els) form.fits (res := if (loadShape x).payload then els.map fun k =>
        (k, (superRead x a b es (at_ j) j ls).payload / 2 ^ (k % (loadShape x).superElems * (loadShape x).elemBits) % 2 ^ (loadShape x).elemBits, 0) else [])
      (by
        rw [payload_loadShape (a := a) (b := b), sbWrites]
        dsimp only
        cases uses : (loadAccess x a b).usesPayload with
        | false => simp [packed]
        | true =>
          rw [if_pos rfl, packed]
          refine List.map_congr_left fun k hk => ?_
          rw [codes hk uses, here hk, found]
          rfl)
      (fun _ k _ => by simp [sbWrites, packed]) (fun hs => by rw [sbWrites] at hs; rw [packed] at hs; cases hs)
    rw [show (sbWrites x d a b es o at_).w = 8 from width] at wrote
    rw [Ctx.putSuper, if_pos (isPacked.trans packed), side_loadShape (a := a) (b := b)]
    by_cases written : ((loadAccess x a b).usesSide && !blocks.isEmpty) = true
    · rw [if_pos written]
      obtain ⟨uses, some⟩ := Bool.and_eq_true_iff.mp written
      refine (wrote.setSidecars packed (j := j) (entry := (superRead x a b es (at_ j) j ls).side) (by simpa using some) inside ?_ fun q hq => ?_).iff
        (fun _ => .rfl) fun l q => by simp [uses]
      · change ((gotOf o j).map _).getD 0 = _
        rw [found]; rfl
      · change ((gotOf o j).map _).getD 0 = _
        rw [found, sideHeader, field_eq]; rfl
    · rw [if_neg written]
      refine wrote.iff (fun _ => .rfl) fun l q => ⟨.inl, fun c => c.resolve_right fun ⟨_, hq, uses⟩ => written ?_⟩
      rw [uses, Bool.true_and, Bool.not_eq_true', List.isEmpty_eq_false_iff]
      exact List.ne_nil_of_mem hq
  | false =>
    have uses : (loadAccess x a b).usesPayload = true := by rw [loadAccess, form.expands packed]; rfl
    have rm : z.rm = rmOf (slice x.vcfg 4 2) := by rw [Ctx.rm, same]
    have fz : z.fz = slice x.vcfg 2 2 := by rw [Ctx.fz, same]
    have width : z.width = sewBits x := by rw [width_eq_sewBits, sewBits, same]; rfl
    have wrote := h.wrote (els := els) form.fits (res := els.map fun i =>
        (i, expand (loadShape x).sb8 (sideSuper (superRead x a b es (at_ j) j ls).side)
          (sideHeader (superRead x a b es (at_ j) j ls).side (i % (loadShape x).superElems / (loadShape x).blockElems))
          ((superRead x a b es (at_ j) j ls).payload / 2 ^ (i % (loadShape x).superElems * (loadShape x).elemBits) % 2 ^ (loadShape x).elemBits)
          (sbDst x).fmt z.rm z.fz))
      (by
        simp only [sbWrites, packed, Bool.false_and, Bool.false_eq_true, if_false]
        refine List.map_congr_left fun k hk => ?_
        have res : sbRes x a b es o at_ k = expandedAt x a b es (at_ j) ls k := by simp only [sbRes, here hk, found]
        rw [codes hk uses, res, rm, fz, superElems_loadShape (a := a) (b := b), blockElems_loadShape (a := a) (b := b), sideSuper, sideHeader,
          field_eq, field_eq, expandedAt, here hk, loadShape_eq, pow_zero, Nat.div_one]
        rfl)
      (fun hs => by rw [sbWrites] at hs; rw [packed] at hs; cases hs) fun _ => uses
    rw [Ctx.putSuper, if_neg (by rw [isPacked, packed]; decide), width]
    exact wrote.of_expanding packed

/-- Superblocks as they were read, each in its state. -/
def superReads (x : Ctx) (a b : BitVec 5) (es : List ℕ) (o : ℕ → Except (ℕ × Stop) (List Loc)) (at_ : ℕ → State) (js : List ℕ) : List SuperRead :=
  js.filterMap fun j => (gotOf o j).map fun ls => superRead x a b es (at_ j) j ls

/-- All the superblocks of a pass written. -/
theorem SbWritten.putSupers (form : SbForm x) (sorted : es.Pairwise (· < ·)) (vcfg : y.vcfg = x.vcfg) (js : List ℕ)
    (h : SbWritten (sbWrites x d a b es o at_) y z P L) :
    SbWritten (sbWrites x d a b es o at_) y
      ((superReads x a b es o at_ js).foldl (fun z q => z.putSuper (loadShape x) d (sbDst x) q q.elems [0, 1, 2, 3]) z)
      (fun k => P k ∨ ∃ j ∈ js, (gotOf o j).isSome ∧ k ∈ (loadAccess x a b).within es j)
      fun l q => L l q ∨ (l ∈ js ∧ (gotOf o l).isSome ∧ q < 4 ∧ (loadAccess x a b).usesSide = true) := by
  induction js generalizing z P L with
  | nil => exact h.iff (fun k => by simp) fun l q => by simp
  | cons j js ih =>
    cases found : gotOf o j with
    | none =>
      rw [show superReads x a b es o at_ (j :: js) = superReads x a b es o at_ js by rw [superReads, List.filterMap_cons, found]; rfl]
      refine (ih h).iff (fun k => ?_) fun l q => ?_
      · simp [found]
      · rw [List.mem_cons]
        refine or_congr_right ⟨fun ⟨m, c⟩ => ⟨.inr m, c⟩, fun ⟨m, c⟩ => ⟨m.resolve_left ?_, c⟩⟩
        rintro rfl
        rw [found] at c
        exact absurd c.1 (by decide)
    | some ls =>
      rw [show superReads x a b es o at_ (j :: js) = superRead x a b es (at_ j) j ls :: superReads x a b es o at_ js by
        rw [superReads, List.filterMap_cons, found]; rfl, List.foldl_cons]
      have step := h.putSuper (els := (loadAccess x a b).within es j) (blocks := [0, 1, 2, 3]) form sorted vcfg found (fun k hk => hk) (by decide)
      refine (ih step).iff (fun k => ?_) fun l q => ?_
      · simp [found, or_assoc]
      · have four : q ∈ [0, 1, 2, 3] ↔ q < 4 := by simp; omega
        rw [four, or_assoc, List.mem_cons]
        refine or_congr_right ⟨?_, ?_⟩
        · rintro (⟨rfl, c⟩ | ⟨m, c⟩)
          exacts [⟨.inl rfl, by rw [found]; rfl, c⟩, ⟨.inr m, c⟩]
        · rintro ⟨rfl | m, c⟩
          exacts [.inl ⟨rfl, c.2⟩, .inr ⟨m, c⟩]

/-- The registers that a load of SB data leaves after its pass. -/
def sbRegs (x : Ctx) (d a b : BitVec 5) (es : List ℕ) (o : ℕ → Except (ℕ × Stop) (List Loc)) (at_ : ℕ → State) (js : List ℕ) (y : Ctx) : Ctx :=
  (superReads x a b es o at_ js).foldl (fun z q => z.putSuper (loadShape x) d (sbDst x) q q.elems [0, 1, 2, 3])
    { y.wrote d (if (loadShape x).packed then 8 else y.width) [] (sbDst x) with vstart := y.vstart }

theorem sbWritten_sbRegs (form : SbForm x) (sorted : es.Pairwise (· < ·)) (vcfg : y.vcfg = x.vcfg) (js : List ℕ) :
    SbWritten (sbWrites x d a b es o at_) y (sbRegs x d a b es o at_ js y) (fun k => ∃ j ∈ js, (gotOf o j).isSome ∧ k ∈ (loadAccess x a b).within es j)
      fun l q => l ∈ js ∧ (gotOf o l).isSome ∧ q < 4 ∧ (loadAccess x a b).usesSide = true :=
  (SbWritten.putSupers form sorted vcfg js (sbWritten_start form.fits y)).iff (fun _ => by rw [false_or]) fun _ _ => by rw [false_or]

end

end Sys2Proof.Machine
end

section
/-! The pass of a load over superblocks (R128, R378). -/

namespace Sys2Proof.Machine

open Sys2Proof.Claims

/-- The blocks of a superblock's elements. -/
def blocksOf (g : SuperAccess) (es : List ℕ) (j : ℕ) : List ℕ := (g.within es j).map fun k => k % g.elems / g.block

/-- What is wrong with a block of a superblock whose places are known (R128). -/
def badAt (x : Ctx) (a b : BitVec 5) (es : List ℕ) (v : State) (ls : List Loc) (j q : ℕ) : Option ℕ :=
  let g := loadAccess x a b
  if g.usesSide then sideReason (encOf x == .sb8) (g.entry es v ls j) (blocksOf g es j) q else none

section
variable {x : Ctx} {a b : BitVec 5} {es : List ℕ} {j q reason : ℕ} {ls : List Loc} {v : State}

/-- Blocks of ascending elements of one superblock ascend. -/
theorem pairwise_blocksOf (sorted : es.Pairwise (· < ·)) : (blocksOf (loadAccess x a b) es j).Pairwise (· ≤ ·) := by
  have within : (inSuper (loadAccess x a b).elems es j).Pairwise (· < ·) := sorted.filter _
  refine List.pairwise_map.mpr (within.imp_of_mem fun {k l} hk hl lt => Nat.div_le_div_right ?_)
  obtain ⟨-, ek⟩ := mem_inSuper.mp hk
  obtain ⟨-, el⟩ := mem_inSuper.mp hl
  have := Nat.div_add_mod k (loadAccess x a b).elems
  have := Nat.div_add_mod l (loadAccess x a b).elems
  rw [ek] at *
  rw [el] at *
  omega

/-- The check of a superblock's side entry, as the model makes it. -/
def superCheck (x : Ctx) (a b : BitVec 5) (es : List ℕ) (v : State) (j : ℕ) (ls : List Loc) : Option (ℕ × ℕ) :=
  if (loadShape x).side then sideBad (loadShape x).sb8 (superRead x a b es v j ls).side
    (dedup (((loadAccess x a b).within es j).map fun i => i % (loadShape x).superElems / (loadShape x).blockElems)) else none

theorem superCheck_eq : superCheck x a b es v j ls = if (loadAccess x a b).usesSide then
    sideBad (encOf x == .sb8) ((loadAccess x a b).entry es v ls j) (dedup (blocksOf (loadAccess x a b) es j)) else none := by
  rw [superCheck, superElems_loadShape (a := a) (b := b), blockElems_loadShape (a := a) (b := b), side_loadShape (a := a) (b := b), loadShape_eq]
  rfl

theorem superCheck_none (sorted : es.Pairwise (· < ·)) (all : ∀ q ∈ blocksOf (loadAccess x a b) es j, badAt x a b es v ls j q = none) :
    superCheck x a b es v j ls = none := by
  rw [superCheck_eq]
  simp only [badAt] at all
  split
  next uses => exact sideBad_none (pairwise_blocksOf sorted) fun q hq => by simpa only [if_pos uses] using all q hq
  next => rfl

theorem superCheck_some (sorted : es.Pairwise (· < ·)) (hq : q ∈ blocksOf (loadAccess x a b) es j) (bad : badAt x a b es v ls j q = some reason)
    (before : ∀ p ∈ blocksOf (loadAccess x a b) es j, p < q → badAt x a b es v ls j p = none) : superCheck x a b es v j ls = some (q, reason) := by
  rw [superCheck_eq]
  simp only [badAt] at bad before
  split at bad
  next uses =>
    rw [if_pos uses]
    exact sideBad_some (pairwise_blocksOf sorted) hq bad fun p hp lt => by simpa only [if_pos uses] using before p hp lt
  next => cases bad

end

/-! ### A superblock of the pass -/

section
variable {x : Ctx} {a b : BitVec 5} {es : List ℕ} {j : ℕ} {ls : List Loc} {s v : State} {who : Who} {w : ℕ} {p : SbPass} {rest : List (ℕ × List ℕ)}

/-- The pass of a load of SB data. -/
def loadPass (x : Ctx) (a b : BitVec 5) (who : Who) (w : ℕ) (p : SbPass) (l : List (ℕ × List ℕ)) : M SbPass :=
  sbPass who (loadShape x) (x.reg a).toNat (x.reg b).toNat w p l

/-- A superblock that is located is read, and checked. -/
theorem run_loadPass_located (found : (elementPlaces who .read ((loadAccess x a b).accs es j)).run s = (.ok (.ok ls), v)) (present : Present v who.ctx .vector) :
    ∃ n, ∀ rest, (loadPass x a b who w p ((j, (loadAccess x a b).within es j) :: rest)).run s =
      (superCheck x a b es v j ls).elim
        ((loadPass x a b who w { p with done := p.done ++ [superRead x a b es v j ls], latest := p.latest ++ [n] } rest).run v)
        fun c => (.ok { p with latest := p.latest ++ [n], bad := some (superRead x a b es v j ls, c.1, c.2) }, v) := by
  obtain ⟨n, reads⟩ := run_readSuper present (length_of_run_elementPlaces found)
  refine ⟨n, fun rest => ?_⟩
  simp only [loadPass, sbPass, accesses_loadShape, run_bind, found, reads, split_loadShape]
  change StateT.run (match superCheck x a b es v j ls with
    | some (q, reason) => _
    | none => _) v = _
  cases superCheck x a b es v j ls <;> rfl

/-- A superblock that is not located, for a cause of the batch set, is named. -/
theorem run_loadPass_trap {va : ℕ} {c : BitVec 10} {i : Word} {r : FaultInfo} (cause : batchCause c = true)
    (found : (elementPlaces who .read ((loadAccess x a b).accs es j)).run s = (.ok (.error (va, .trap c i r)), v)) :
    (loadPass x a b who w p ((j, (loadAccess x a b).within es j) :: rest)).run s =
      (loadPass x a b who w { p with
        fails := p.fails ++ [⟨((loadAccess x a b).within es j).head?.getD 0, va, c, i, r⟩]
        marked := p.marked ++ (loadAccess x a b).within es j
        keys := p.keys ++ waitedKeys c i r } rest).run v := by
  simp only [loadPass, sbPass, accesses_loadShape, run_bind, found, cause, if_pos]

end

/-! ### The pass -/

/-- What is wrong with a block of a superblock of a pass (R128). -/
def badOf (x : Ctx) (a b : BitVec 5) (es : List ℕ) (o : ℕ → Except (ℕ × Stop) (List Loc)) (at_ : ℕ → State) (j q : ℕ) : Option ℕ :=
  match gotOf o j with
  | some ls => badAt x a b es (at_ j) ls j q
  | none => none

section
variable {x : Ctx} {a b : BitVec 5} {es : List ℕ} {s u : State} {who : Who} {w : ℕ} {o : ℕ → Except (ℕ × Stop) (List Loc)} {at_ : ℕ → State} {js : List ℕ}

/-- The first element of each superblock stands for it (R163, R378). -/
def firstOf (g : SuperAccess) (es : List ℕ) (j : ℕ) : ℕ := (g.within es j).head?.getD 0

/-- A pass in which no side entry is bad reads each superblock that it locates and names the others. -/
theorem run_loadPass (sorted : es.Pairwise (· < ·)) (pass : PassOver who .read ((loadAccess x a b).accs es) (fun _ _ v => v) o at_ u s js)
    (present : ∀ j ∈ js, Present (at_ j) who.ctx .vector) (good : ∀ j ∈ js, ∀ q ∈ blocksOf (loadAccess x a b) es j, badOf x a b es o at_ j q = none) (p : SbPass) :
    ∃ latest keys, ∀ rest, (loadPass x a b who w p (js.map (fun j => (j, (loadAccess x a b).within es j)) ++ rest)).run s =
      (loadPass x a b who w { p with
        done := p.done ++ superReads x a b es o at_ js
        latest
        fails := p.fails ++ (failures js o).map (.of (firstOf (loadAccess x a b) es))
        marked := p.marked ++ (failures js o).flatMap fun f => (loadAccess x a b).within es f.1
        keys } rest).run u := by
  induction js generalizing s p with
  | nil =>
    cases (show u = s from pass)
    exact ⟨p.latest, p.keys, fun rest => by simp [superReads, failures]⟩
  | cons j js ih =>
    obtain ⟨found, next⟩ := pass
    have later (p : SbPass) {v : State} (next : PassOver who .read ((loadAccess x a b).accs es) (fun _ _ v => v) o at_ u v js) :=
      ih next (fun i hi => present i (.tail _ hi)) (fun i hi => good i (.tail _ hi)) p
    have check := good j (.head _)
    simp only [List.map_cons, List.cons_append]
    cases hj : o j with
    | ok ls =>
      rw [hj] at next found
      have got : gotOf o j = some ls := gotOf_ok hj
      obtain ⟨n, step⟩ := run_loadPass_located (w := w) (p := p) found (present j (.head _))
      obtain ⟨latest, keys, run⟩ := later { p with done := p.done ++ [superRead x a b es (at_ j) j ls], latest := p.latest ++ [n] } next
      simp only [badOf, got] at check
      refine ⟨latest, keys, fun rest => ?_⟩
      rw [step, superCheck_none sorted check, Option.elim_none, run, failures_cons_ok hj, superReads, superReads, List.filterMap_cons, got]
      simp only [Option.map_some, List.append_assoc, List.singleton_append]
    | error e =>
      rw [hj] at next found
      obtain ⟨va, ⟨c, i, r⟩ | _ | _⟩ := e
      · obtain ⟨cause, next⟩ := next
        have got : gotOf o j = none := gotOf_error hj
        obtain ⟨latest, keys, run⟩ := later { p with
          fails := p.fails ++ [⟨((loadAccess x a b).within es j).head?.getD 0, va, c, i, r⟩]
          marked := p.marked ++ (loadAccess x a b).within es j
          keys := p.keys ++ waitedKeys c i r } next
        refine ⟨latest, keys, fun rest => ?_⟩
        rw [run_loadPass_trap (batchCause_of_mem cause) found, run, failures_cons_trap hj, superReads, superReads, List.filterMap_cons, got]
        simp only [Option.map_none, List.append_assoc, List.singleton_append, List.map_cons, List.flatMap_cons, Fail.of, firstOf]
      all_goals exact absurd next id

/-- A pass over a list is one over each of its parts. -/
theorem passOver_append {kind : Access} {accs : ℕ → List (ℕ × ℕ)} {act : ℕ → List Loc → State → State} {pre post : List ℕ}
    (pass : PassOver who kind accs act o at_ u s (pre ++ post)) : ∃ v, PassOver who kind accs act o at_ v s pre ∧ PassOver who kind accs act o at_ u v post := by
  induction pre generalizing s with
  | nil => exact ⟨s, rfl, pass⟩
  | cons k pre ih =>
    obtain ⟨found, next⟩ := pass
    cases hk : o k with
    | ok ls =>
      rw [hk] at next
      obtain ⟨v, first, second⟩ := ih next
      exact ⟨v, ⟨found, by rw [hk]; exact first⟩, second⟩
    | error e =>
      rw [hk] at next
      obtain ⟨va, ⟨c, i, r⟩ | _ | _⟩ := e
      · obtain ⟨v, first, second⟩ := ih next.2
        exact ⟨v, ⟨found, by rw [hk]; exact ⟨next.1, first⟩⟩, second⟩
      all_goals exact absurd next id

/-- Where no element of a pass fails, each is located. -/
theorem located_of_passOver {kind : Access} {accs : ℕ → List (ℕ × ℕ)} {act : ℕ → List Loc → State → State}
    (pass : PassOver who kind accs act o at_ u s js) (none : failures js o = []) {j : ℕ} (hj : j ∈ js) : ∃ ls, o j = .ok ls := by
  cases h : o j with
  | ok ls => exact ⟨ls, rfl⟩
  | error e =>
    obtain ⟨va, c, w, r, rfl⟩ := trap_of_passOver pass j hj e h
    exact absurd (none ▸ mem_failures (f := (j, va, c, w, r)).mpr ⟨hj, h⟩) (by simp)

/-- A pass ends at the first superblock whose side entry is bad (R128). -/
theorem run_loadPass_bad {pre post : List ℕ} {j q reason : ℕ} (sorted : es.Pairwise (· < ·))
    (pass : PassOver who .read ((loadAccess x a b).accs es) (fun _ _ v => v) o at_ u s (pre ++ [j]))
    (present : ∀ i ∈ pre ++ [j], Present (at_ i) who.ctx .vector) (none : failures (pre ++ [j]) o = [])
    (good : ∀ i ∈ pre, ∀ q ∈ blocksOf (loadAccess x a b) es i, badOf x a b es o at_ i q = .none)
    (hq : q ∈ blocksOf (loadAccess x a b) es j) (bad : badOf x a b es o at_ j q = some reason)
    (before : ∀ p ∈ blocksOf (loadAccess x a b) es j, p < q → badOf x a b es o at_ j p = .none) (p : SbPass) :
    ∃ ls latest keys, gotOf o j = some ls ∧ (loadPass x a b who w p ((pre ++ j :: post).map fun j => (j, (loadAccess x a b).within es j))).run s =
      (.ok { p with
        done := p.done ++ superReads x a b es o at_ pre
        latest
        keys
        bad := some (superRead x a b es (at_ j) j ls, q, reason) }, u) := by
  obtain ⟨ls, hj⟩ := located_of_passOver pass none (j := j) (by simp)
  have got : gotOf o j = some ls := gotOf_ok hj
  have noFailure : failures pre o = [] := by
    have := none
    rw [failures, List.filterMap_append] at this
    exact (List.append_eq_nil_iff.mp this).1
  obtain ⟨v, first, found, next⟩ := passOver_append pass
  rw [hj] at found next
  cases (show u = at_ j from next)
  obtain ⟨latest, keys, run⟩ := run_loadPass (w := w) sorted first (fun i hi => present i (by simp [hi])) good p
  simp only [noFailure, List.map_nil, List.flatMap_nil, List.append_nil] at run
  obtain ⟨n, step⟩ := run_loadPass_located (w := w)
    (p := { p with done := p.done ++ superReads x a b es o at_ pre, latest := latest, fails := p.fails, marked := p.marked, keys := keys })
    found (present j (by simp))
  simp only [badOf, got] at bad before
  refine ⟨ls, latest ++ [n], keys, got, ?_⟩
  rw [List.map_append, List.map_cons, run, step, superCheck_some sorted hq bad before, Option.elim_some]

end

end Sys2Proof.Machine
end

section
/-! Loads of SB data (R124, R126 to R128, R376 to R378). -/

namespace Sys2Proof.Machine

open Sys2Proof.Claims

/-- The first element of a load of SB data (R127). -/
def sbStart (x : Ctx) : ℕ := if sbPacked x then x.vstart.toNat / 32 * 32 else x.vstart.toNat

/-- The elements of a load of SB data. -/
def sbElems (x : Ctx) (m : BitVec 1) (r : BitVec 3) : List ℕ := batchList x m r (sbStart x)

/-- The conditions under which the checks of a load of SB data pass (R61, R119, R126, R135). -/
structure SbOk (s : State) (a b : BitVec 5) (m : BitVec 1) (r : BitVec 3) : Prop where
  sb : (encOf s.me).isSb = true
  enabled : s.myPkg.enable.getLsbD 2 = true
  packed : sbPacked s.me = true → (sideMode s.me = 2 ∨ b ≠ 0) ∧ m = 0 ∧ s.me.vl.toNat % 128 = 0
  expands : sbPacked s.me = false → sewBits s.me ≠ 64 ∧ b ≠ 0 ∧ sideMode s.me = 0
  base : (s.me.reg a).toNat % 128 = 0
  side : sideMode s.me = 2 ∨ (s.me.reg b).toNat % 16 = 0
  inRange : ∀ k, sbStart s.me ≤ k → On s.me m r k →
    (sideMode s.me = 1 ∨ InRange s (s.me.reg a).toNat
      (((s.me.reg a).toNat + 128 * (k / (loadAccess s.me a b).elems) + (loadAccess s.me a b).byteOf k) % 2 ^ 64)) ∧
    (sideMode s.me = 2 ∨ inWindow (((s.me.reg b).toNat + 16 * (k / (loadAccess s.me a b).elems)) % 2 ^ 64) = true → s.myPkg.enable.getLsbD 3 = true)

/-- A load of SB data after its checks. -/
def sbRead (x : Ctx) (d a b : BitVec 5) (m : BitVec 1) (r : BitVec 3) (dst : Tag) (es : List ℕ) : M Unit := do
  drainM
  let s ← getS
  let p ← loadPass x a b s.who x.width ⟨[], [], [], [], [], false, none⟩ ((loadShape x).group es)
  if p.held then throw (.waitOn p.keys)
  readUpTo p.latest
  endSb (loadShape x) d dst (x.reg b).toNat m r p

theorem sbLoad_eq (i : Instr) (d a b : BitVec 5) (m : BitVec 1) (r : BitVec 3) : sbLoad i d a b m r = (do
    let x := (← getS).me
    check (x.width != 64) 0x085 (instrWord i)
    if x.width == 8 then packedChecks i b m
    else
      check (b != 0#5) 0x085 (instrWord i)
      check (x.side == 0) 0x085 (instrWord i)
    sbBases (x.reg a) (x.reg b) (loadShape x).side
    let act := x.activesFrom m r (if x.width == 8 then x.vstart.toNat / 32 * 32 else x.vstart.toNat)
    if (loadShape x).payload then
      insideAll (x.reg a).toNat x.width (act.map fun k => (k, ((x.reg a).toNat + 128 * (k / (loadShape x).superElems) + (loadShape x).byteOf k) % 2 ^ 64))
    stashOpen (act.flatMap fun k =>
      (if (loadShape x).payload then [((x.reg a).toNat + 128 * (k / (loadShape x).superElems) + (loadShape x).byteOf k) % 2 ^ 64] else []) ++
      (if (loadShape x).side then [((x.reg b).toNat + 16 * (k / (loadShape x).superElems)) % 2 ^ 64] else []))
    sbRead x d a b m r (if x.width == 8 then x.enc else if x.width = 16 then Tag.bf16 else Tag.fp32)
      (act.filter fun k => x.vfm == 0 || x.vfm.getLsbD k)) := rfl

section
variable {s : State} {d a b : BitVec 5} {m : BitVec 1} {r : BitVec 3}

/-- The checks on the form of a load of SB data (R126). -/
theorem run_sbForm (ok : SbOk s a b m r) (i : Instr) {α : Type} (k : M α) : (if s.me.width == 8 then (do packedChecks i b m; k) else (do
      check (b != 0#5) 0x085 (instrWord i)
      check (s.me.side == 0) 0x085 (instrWord i)
      k)).run s = k.run s := by
  have width : (s.me.width == 8) = sbPacked s.me := by rw [width_eq_sewBits]; rfl
  rw [width]
  cases packed : sbPacked s.me with
  | true =>
    obtain ⟨side, mask, whole⟩ := ok.packed packed
    rw [if_pos rfl, run_bind, run_packedChecks side mask whole]
  | false =>
    obtain ⟨-, source, mode⟩ := ok.expands packed
    have c1 : (b != 0#5) = true := by simpa using source
    have c2 : (s.me.side == 0) = true := by rw [side_eq]; exact beq_iff_eq.mpr mode
    rw [if_neg (by decide), run_bind, run_check_of c1]
    simp only [run_bind, run_check_of c2]

theorem run_sbLoad (ok : SbOk s a b m r) (i : Instr) :
    (sbLoad i d a b m r).run s = (sbRead s.me d a b m r (sbDst s.me) (sbElems s.me m r)).run s := by
  have width : s.me.width = sewBits s.me := width_eq_sewBits _
  have c1 : (s.me.width != 64) = true := by
    rw [width]
    cases packed : sbPacked s.me with
    | true => rw [sbPacked, beq_iff_eq] at packed; rw [packed]; rfl
    | false => simpa using (ok.expands packed).1
  have bases : (sbBases (s.me.reg a) (s.me.reg b) (loadAccess s.me a b).usesSide).run s = (.ok (), s) := run_sbBases ok.base fun uses =>
    ok.side.resolve_left (by simpa [loadAccess] using uses)
  have payload (uses : (loadAccess s.me a b).usesPayload = true) (k : ℕ) (hk : k ∈ s.me.activesFrom m r (sbStart s.me)) : InRange s (s.me.reg a).toNat
      (((s.me.reg a).toNat + 128 * (k / (loadAccess s.me a b).elems) + (loadAccess s.me a b).byteOf k) % 2 ^ 64) := by
    obtain ⟨low, on⟩ := mem_activesFrom.mp hk
    exact (ok.inRange k low on).1.resolve_left (by simpa [loadAccess] using uses)
  have inside := fun uses => run_insideAll_of (w := s.me.width) (payload uses)
  have opens := run_stashOpen_super (q := (loadAccess s.me a b).usesSide) (fun uses k hk => (payload uses k hk).2.2) fun _ k hk w => by
    obtain ⟨low, on⟩ := mem_activesFrom.mp hk
    exact (ok.inRange k low on).2 (.inr w)
  have start : (if s.me.width == 8 then s.me.vstart.toNat / 32 * 32 else s.me.vstart.toNat) = sbStart s.me := by rw [width]; rfl
  have dst : (if s.me.width == 8 then s.me.enc else if s.me.width = 16 then Tag.bf16 else Tag.fp32) = sbDst s.me := by rw [width, enc_eq]; rfl
  simp only [sbLoad_eq, run_bind, run_getS, run_check_of c1, start, dst, superElems_loadShape (a := a) (b := b), byteOf_loadShape (a := a) (b := b),
    payload_loadShape (a := a) (b := b), side_loadShape (a := a) (b := b)]
  rw [run_sbForm ok, run_bind, bases]
  dsimp only
  rw [run_guarded inside, run_bind, opens, batchList_eq]
  rfl

theorem execVld_sb (ok : SbOk s a b m r) : ∃ mn, exec (.vld d a b m r) s = complete mn s ∧
    mn.run s = (sbRead s.me d a b m r (sbDst s.me) (sbElems s.me m r)).run s := by
  refine ⟨_, rfl, ?_⟩
  have needs : (needSb (.vld d a b m r)).run s = (.ok (), s) := run_needSb fun _ => ok.enabled
  rw [run_bind, needs]
  simp only [enc_eq, ok.sb, if_pos]
  exact run_sbLoad ok _

end

end Sys2Proof.Machine
end

section
/-! How loads of SB data end (R127, R128, R163). -/

namespace Sys2Proof.Machine

open Sys2Proof.Claims

open scoped Classical in
/-- What a load of SB data leaves of the elements `P` and the sidecars of the blocks `L`, from a state `v`. -/
def SbLeaves (x : Ctx) (d a b : BitVec 5) (es : List ℕ) (o : ℕ → Except (ℕ × Stop) (List Loc)) (at_ : ℕ → State) (v y : State) (P : ℕ → Prop) (L : ℕ → ℕ → Prop) : Prop :=
  let g := loadAccess x a b
  ∃ fl, (∀ c, fl.getLsbD c = true ↔ sbPacked x = false ∧ ∃ k, P k ∧ (sbRes x a b es o at_ k).2.getLsbD c = true) ∧
    y = { v with ctxs := y.ctxs, pins := y.pins } ∧ (∀ c, c ≠ v.cur → y.ctx c = v.ctx c) ∧
    y.me = { v.me with v := y.me.v, tag := regSet x.tag d (sbDst x), hdr := y.me.hdr, sup := y.me.sup, fflags := v.me.fflags ||| fl } ∧
    (∀ q, q ≠ d → regGet y.me.v q = regGet x.v q ∧ regGet y.me.hdr q = regGet x.hdr q ∧ regGet y.me.sup q = regGet x.sup q) ∧
    (∀ k, (k + 1) * sewBits x ≤ 8192 → vel y.me d (sewBits x) k =
      if P k ∧ g.usesPayload = true then (if sbPacked x then ((gotOf o (k / g.elems)).map fun ls => g.code es (at_ (k / g.elems)) ls k).getD 0
        else (sbRes x a b es o at_ k).1 % 2 ^ sewBits x)
      else vel x d (sewBits x) k) ∧
    (sbPacked x = false → regGet y.me.hdr d = 0 ∧ regGet y.me.sup d = 0) ∧
    (sbPacked x = true → ∀ j, j < 8 →
      (regGet y.me.sup d).toNat / 2 ^ (32 * j) % 2 ^ 32 =
        (if ∃ q, L j q then ((gotOf o j).map fun ls => g.entry es (at_ j) ls j % 2 ^ 32).getD 0 else (regGet x.sup d).toNat / 2 ^ (32 * j) % 2 ^ 32) ∧
      ∀ q, q < 4 → (regGet y.me.hdr d).toNat / 2 ^ (16 * (4 * j + q)) % 2 ^ 16 =
        if L j q then ((gotOf o j).map fun ls => g.entry es (at_ j) ls j / 2 ^ (32 + 16 * q) % 2 ^ 16).getD 0
        else (regGet x.hdr d).toNat / 2 ^ (16 * (4 * j + q)) % 2 ^ 16)

section
variable {x z : Ctx} {d a b : BitVec 5} {es : List ℕ} {o : ℕ → Except (ℕ × Stop) (List Loc)} {at_ : ℕ → State} {P : ℕ → Prop} {L : ℕ → ℕ → Prop} {v : State}

theorem code_lt (g : SuperAccess) (t : State) (ls : List Loc) (k : ℕ) : g.code es t ls k < 2 ^ g.bits := Nat.mod_lt _ (by positivity)

/-- A packed code is an element. -/
theorem packed_val (packed : sbPacked x = true) (k : ℕ) :
    ((sbWrites x d a b es o at_).val k).1 % 2 ^ (sbWrites x d a b es o at_).w =
      ((gotOf o (k / (loadAccess x a b).elems)).map fun ls => (loadAccess x a b).code es (at_ (k / (loadAccess x a b).elems)) ls k).getD 0 := by
  have width : (sbWrites x d a b es o at_).w = 8 := beq_iff_eq.mp packed
  have bits : (loadAccess x a b).bits = 8 := by rw [loadAccess, byteWide, packed]; rfl
  rw [width]
  simp only [sbWrites, packed, if_pos]
  cases gotOf o (k / (loadAccess x a b).elems) with
  | none => rfl
  | some ls => exact Nat.mod_eq_of_lt (bits ▸ code_lt _ _ _ _)

theorem sbLeaves_of (same : SameOperands x v.me) (ps : List Pin) (h : SbWritten (sbWrites x d a b es o at_) v.me z P L) :
    SbLeaves x d a b es o at_ v ((v.withPins ps).setMe z) P L := by
  obtain ⟨hv, htag, hhdr, hsup, -⟩ := same.regs
  obtain ⟨fl, flags, rest⟩ := h.rest
  obtain ⟨only, others, me⟩ := setMe_withPins v ps z
  rw [SbLeaves, me]
  refine ⟨fl, fun c => (flags c).trans ?_, only, others, ?_, fun q hq => ?_, fun k hk => ?_, h.plain, fun packed j hj => ⟨?_, fun q hq => ?_⟩⟩
  · refine and_congr_right fun plain => exists_congr fun k => and_congr_right fun _ => ?_
    replace plain : sbPacked x = false := plain
    simp only [sbWrites, plain, Bool.false_eq_true, if_false]
  · rw [← htag]; exact rest
  · rw [← hv, ← hhdr, ← hsup]; exact h.others q hq
  · by_cases named : P k ∧ (loadAccess x a b).usesPayload = true
    · rw [if_pos named]
      refine (h.named k hk named.1 named.2).trans ?_
      cases packed : sbPacked x with
      | true => rw [if_pos rfl]; exact packed_val packed k
      | false =>
        rw [if_neg (by decide)]
        simp only [sbWrites, packed, Bool.false_eq_true, if_false]
    · rw [if_neg named]
      refine (h.unnamed k hk named).trans ?_
      rw [vel, vel, hv]; rfl
  · obtain ⟨given, kept⟩ := h.supers packed j hj
    by_cases some : ∃ q, L j q
    · rw [if_pos some]; exact given some
    · rw [if_neg some, ← hsup]; exact kept fun q hq => some ⟨q, hq⟩
  · obtain ⟨given, kept⟩ := h.headers packed j hj q hq
    by_cases named : L j q
    · rw [if_pos named]; exact given named
    · rw [if_neg named, ← hhdr]; exact kept named

end

section
variable {s u v : State} {d a b : BitVec 5} {m : BitVec 1} {r : BitVec 3} {es : List ℕ} {o : ℕ → Except (ℕ × Stop) (List Loc)} {at_ : ℕ → State} {js : List ℕ}
  {p : SbPass} {dst : Tag}

/-- A load of SB data is its pass, and then its end. -/
theorem run_sbRead (sorted : es.Pairwise (· < ·)) (held : p.held = false)
    (pass : (loadPass s.me a b s.who (sewBits s.me) ⟨[], [], [], [], [], false, none⟩
      ((supersOf (loadAccess s.me a b).elems es).map fun j => (j, (loadAccess s.me a b).within es j))).run (s.drain s.cur) = (.ok p, u)) :
    ∃ ps, (sbRead s.me d a b m r dst es).run s = (endSb (loadShape s.me) d dst (s.me.reg b).toNat m r p).run (u.withPins ps) := by
  obtain ⟨ps, upTo⟩ := run_readUpTo p.latest u
  refine ⟨ps, ?_⟩
  have groups : (loadShape s.me).group es = (supersOf (loadAccess s.me a b).elems es).map fun j => (j, (loadAccess s.me a b).within es j) := by
    rw [group_eq _ sorted, superElems_loadShape (a := a) (b := b)]
    rfl
  simp only [sbRead, run_bind, run_drainM, run_getS, who_drain, groups, width_eq_sewBits, pass, held, Bool.false_eq_true, if_false, upTo]

/-- The end of a load of SB data in which no side entry was bad. -/
theorem run_endSb_good (reads : p.done = superReads s.me a b es o at_ js) (good : p.bad = none) :
    (endSb (loadShape s.me) d (sbDst s.me) (s.me.reg b).toNat m r p).run v =
      (endBatch .read v.me.width p.marked p.fails).run (v.setMe (sbRegs s.me d a b es o at_ js v.me)) := by
  simp only [endSb, run_bind, run_getS, run_modMe, good, reads]
  rfl

/-- The registers that a load leaves at a bad side entry: those of the superblocks before, and of this one's elements before the bad block. -/
def badRegs (x : Ctx) (d a b : BitVec 5) (es : List ℕ) (o : ℕ → Except (ℕ × Stop) (List Loc)) (at_ : ℕ → State) (js : List ℕ) (t : SuperRead) (q : ℕ) (y : Ctx) : Ctx :=
  let below := t.elems.filter (· < t.j * (loadAccess x a b).elems + q * (loadAccess x a b).block)
  if below.isEmpty then sbRegs x d a b es o at_ js y else (sbRegs x d a b es o at_ js y).putSuper (loadShape x) d (sbDst x) t below (span 0 q)

theorem run_endSb_bad {t : SuperRead} {q reason : ℕ} (reads : p.done = superReads s.me a b es o at_ js) (bad : p.bad = some (t, q, reason)) (none : p.fails = []) :
    (endSb (loadShape s.me) d (sbDst s.me) (s.me.reg b).toNat m r p).run v =
      (.error (.trap 0x082 (headerInfo (((s.me.reg b).toNat + 16 * t.j) % 2 ^ 64) q reason) noInfo),
        v.setMe { badRegs s.me d a b es o at_ js t q v.me with
          vstart := BitVec.ofNat 11 (max (t.j * (loadAccess s.me a b).elems + q * (loadAccess s.me a b).block) v.me.vstart.toNat) }) := by
  simp only [endSb, run_bind, run_getS, run_modMe, bad, none, reads, List.isEmpty_nil, superElems_loadShape (a := a) (b := b),
    blockElems_loadShape (a := a) (b := b), run_trapM]
  rw [setMe_setMe, me_setMe]
  rfl

end

end Sys2Proof.Machine
end

section
/-! The two ways in which a load of SB data ends (R128, R163). -/

namespace Sys2Proof.Machine

open Sys2Proof.Claims

section
variable {s u : State} {d a b : BitVec 5} {m : BitVec 1} {r : BitVec 3} {o : ℕ → Except (ℕ × Stop) (List Loc)} {at_ : ℕ → State} {js : List ℕ} {x : Ctx} {es : List ℕ}

theorem SbOk.form (ok : SbOk s a b m r) : SbForm s.me := ⟨ok.sb, fun h => (ok.expands h).2.2⟩

theorem usesSide_iff : (loadAccess x a b).usesSide = true ↔ sideMode x ≠ 2 := by simp [loadAccess]

theorem pairwise_sbElems : (sbElems x m r).Pairwise (· < ·) := pairwise_batchList _ _ _ _

/-- A pass of loads leaves the operands of the instruction and past moments as they are. -/
theorem steady_of_loadPass {accs : ℕ → List (ℕ × ℕ)} (pass : PassOver s.who .read accs (fun _ _ v => v) o at_ u (s.drain s.cur) js) :
    Steady (s.drain s.cur) u ∧ ∀ j ∈ js, Steady (s.drain s.cur) (at_ j) :=
  passOver_invariant (Steady (s.drain s.cur)) (fun _ v hv => hv.trans (.elementPlaces v _ _ _)) (fun _ _ _ hv => hv) pass (.refl _)

theorem pc_of_sbWritten {g : SbWrites} {y z : Ctx} {P : ℕ → Prop} {L : ℕ → ℕ → Prop} (h : SbWritten g y z P L) : z.pc = y.pc := by
  obtain ⟨_, -, rest⟩ := h.rest
  have same := congrArg Ctx.pc rest
  exact same

/-- A load of SB data whose side entries are good reads what it locates and ends as R163 says. -/
theorem sbLoad_ends (ok : SbOk s a b m r) (present : Present (s.drain s.cur) s.cur .vector)
    (pass : PassOver s.who .read ((loadAccess s.me a b).accs (sbElems s.me m r)) (fun _ _ v => v) o at_ u (s.drain s.cur)
      (supersOf (loadAccess s.me a b).elems (sbElems s.me m r)))
    (good : ∀ j ∈ supersOf (loadAccess s.me a b).elems (sbElems s.me m r), ∀ q ∈ blocksOf (loadAccess s.me a b) (sbElems s.me m r) j,
      badOf s.me a b (sbElems s.me m r) o at_ j q = none) :
    ∃ y, SbLeaves s.me d a b (sbElems s.me m r) o at_ u y (fun k => k ∈ sbElems s.me m r ∧ (gotOf o (k / (loadAccess s.me a b).elems)).isSome)
        (fun j q => j ∈ supersOf (loadAccess s.me a b).elems (sbElems s.me m r) ∧ (gotOf o j).isSome ∧ q < 4 ∧ sideMode s.me ≠ 2) ∧
      BatchEnds (.vld d a b m r) s y 0 (sewBits s.me) (supersOf (loadAccess s.me a b).elems (sbElems s.me m r)) o
        (firstOf (loadAccess s.me a b) (sbElems s.me m r)) ((loadAccess s.me a b).within (sbElems s.me m r)) := by
  have sorted : (sbElems s.me m r).Pairwise (· < ·) := pairwise_sbElems
  obtain ⟨mn, execs, runs⟩ := execVld_sb (d := d) ok
  generalize sbElems s.me m r = es at *
  obtain ⟨steady, each⟩ := steady_of_loadPass pass
  have same : SameOperands s.me u.me := steady.me.trans (sameOperands_drain s)
  obtain ⟨latest, keys, run⟩ := run_loadPass (w := sewBits s.me) sorted pass (fun j hj => (each j hj).present present) good ⟨[], [], [], [], [], false, none⟩
  have whole := run []
  rw [List.append_nil] at whole
  obtain ⟨ps, read⟩ := run_sbRead (d := d) (m := m) (r := r) (dst := sbDst s.me) sorted rfl whole
  have written := sbWritten_sbRegs (d := d) (at_ := at_) (o := o) (a := a) (b := b) ok.form sorted same.regs.2.2.2.2.1 (supersOf (loadAccess s.me a b).elems es)
  have order := pairwise_failures (o := o) (pairwise_supersOf (n := (loadAccess s.me a b).elems) sorted)
  have supers : ∀ f ∈ failures (supersOf (loadAccess s.me a b).elems es) o, f.1 ∈ supersOf (loadAccess s.me a b).elems es := fun f hf => (mem_failures.mp hf).1
  have left := sbLeaves_of same ps (written.iff (P' := fun k => k ∈ es ∧ (gotOf o (k / (loadAccess s.me a b).elems)).isSome)
    (L' := fun j q => j ∈ supersOf (loadAccess s.me a b).elems es ∧ (gotOf o j).isSome ∧ q < 4 ∧ sideMode s.me ≠ 2) (fun k => ?_) fun j q => ?_)
  refine ⟨(u.withPins ps).setMe (sbRegs s.me d a b es o at_ (supersOf (loadAccess s.me a b).elems es) u.me), left,
    batchEnds_of (kind := .read) ?_ ?_ ?_ execs (runs.trans (read.trans ((run_endSb_good (a := a) (b := b) (es := es) (o := o) (at_ := at_)
      (js := supersOf (loadAccess s.me a b).elems es) rfl rfl).trans ?_)))⟩
  · exact order.imp_of_mem fun {f g} hf hg lt => head_inSuper_le_head (supers f hf) (supers g hg) lt
  · rw [me_setMe, ← same.regs.2.2.2.2.2.2]
    exact pc_of_sbWritten written
  · rw [← List.flatMap_map]
    exact (pairwise_flatMap_inSuper sorted (List.pairwise_map.mpr order)).imp fun h => by omega
  · rw [show (u.withPins ps).me.width = sewBits s.me from same.width]
    rfl
  · constructor
    · rintro ⟨j, hj, some, hk⟩
      obtain ⟨mem, rfl⟩ := mem_inSuper.mp hk
      exact ⟨mem, some⟩
    · rintro ⟨mem, some⟩
      exact ⟨_, mem_supersOf.mpr ⟨k, mem, rfl⟩, some, mem_inSuper.mpr ⟨mem, rfl⟩⟩
  · rw [usesSide_iff]

/-! ### A bad side entry -/

/-- The elements of a load before a block of a superblock are those of the superblocks before, and of this one those before the block. -/
theorem before_block {g : SuperAccess} {pre post : List ℕ} {j q : ℕ} (positive : 0 < g.elems) (sorted : es.Pairwise (· < ·))
    (supers : supersOf g.elems es = pre ++ j :: post) (inside : q * g.block < g.elems) (k : ℕ) :
    (k ∈ es ∧ k < j * g.elems + q * g.block) ↔ (∃ i ∈ pre, k ∈ g.within es i) ∨ (k ∈ g.within es j ∧ k < j * g.elems + q * g.block) := by
  have order := supers ▸ pairwise_supersOf (n := g.elems) sorted
  obtain ⟨-, after, apart⟩ := List.pairwise_append.mp order
  have parts := Nat.div_add_mod' k g.elems
  have small := Nat.mod_lt k positive
  constructor
  · rintro ⟨mem, lt⟩
    have here : k / g.elems ∈ pre ++ j :: post := supers ▸ mem_supersOf.mpr ⟨k, mem, rfl⟩
    rcases List.mem_append.mp here with hp | hp
    · exact .inl ⟨_, hp, mem_inSuper.mpr ⟨mem, rfl⟩⟩
    · rcases List.mem_cons.mp hp with hp | hp
      · exact .inr ⟨mem_inSuper.mpr ⟨mem, hp⟩, lt⟩
      · have past := List.rel_of_pairwise_cons after hp
        have : (j + 1) * g.elems ≤ k / g.elems * g.elems := Nat.mul_le_mul_right _ past
        rw [Nat.add_mul] at this
        omega
  · rintro (⟨i, hi, hk⟩ | ⟨hk, lt⟩)
    · obtain ⟨mem, rfl⟩ := mem_inSuper.mp hk
      have lt := apart _ hi j (.head _)
      have : (k / g.elems + 1) * g.elems ≤ j * g.elems := Nat.mul_le_mul_right _ lt
      rw [Nat.add_mul] at this
      exact ⟨mem, by omega⟩
    · exact ⟨(mem_inSuper.mp hk).1, lt⟩

theorem block_inside {j q : ℕ} (hq : q ∈ blocksOf (loadAccess x a b) es j) : q < 4 ∧ q * (loadAccess x a b).block < (loadAccess x a b).elems := by
  obtain ⟨positive, four, -⟩ := loadAccess_sizes x a b
  obtain ⟨k, -, rfl⟩ := List.mem_map.mp hq
  have small := Nat.mod_lt k positive
  have block : 0 < (loadAccess x a b).block := by omega
  refine ⟨(Nat.div_lt_iff_lt_mul block).mpr (by omega), ?_⟩
  exact lt_of_le_of_lt (Nat.div_mul_le_self _ _) small

/-- What a load leaves at a bad side entry (R128). -/
theorem sbWritten_badRegs {y : Ctx} {pre : List ℕ} {j q : ℕ} {ls : List Loc} (form : SbForm x) (sorted : es.Pairwise (· < ·)) (vcfg : y.vcfg = x.vcfg)
    (found : gotOf o j = some ls) (few : q < 4) :
    SbWritten (sbWrites x d a b es o at_) y (badRegs x d a b es o at_ pre (superRead x a b es (at_ j) j ls) q y)
      (fun k => (∃ i ∈ pre, (gotOf o i).isSome ∧ k ∈ (loadAccess x a b).within es i) ∨
        (k ∈ (loadAccess x a b).within es j ∧ k < j * (loadAccess x a b).elems + q * (loadAccess x a b).block))
      fun l p => (l ∈ pre ∧ (gotOf o l).isSome ∧ p < 4 ∧ (loadAccess x a b).usesSide = true) ∨ ((l = j ∧ p < q ∧ (loadAccess x a b).usesSide = true) ∧
        ∃ k ∈ (loadAccess x a b).within es j, k < j * (loadAccess x a b).elems + q * (loadAccess x a b).block) := by
  have start := sbWritten_sbRegs (d := d) (at_ := at_) (o := o) (a := a) (b := b) form sorted vcfg pre
  have mem (k : ℕ) : k ∈ ((loadAccess x a b).within es j).filter (· < j * (loadAccess x a b).elems + q * (loadAccess x a b).block) ↔
      k ∈ (loadAccess x a b).within es j ∧ k < j * (loadAccess x a b).elems + q * (loadAccess x a b).block := by
    rw [List.mem_filter, decide_eq_true_eq]
  have elems : (superRead x a b es (at_ j) j ls).elems = (loadAccess x a b).within es j := rfl
  have super : (superRead x a b es (at_ j) j ls).j = j := rfl
  rw [badRegs, elems, super]
  split
  next empty =>
    have none (k : ℕ) (c : k ∈ (loadAccess x a b).within es j ∧ k < j * (loadAccess x a b).elems + q * (loadAccess x a b).block) : False := by
      have := (mem k).mpr c
      rw [List.isEmpty_iff.mp empty] at this
      cases this
    exact start.iff (fun k => ⟨.inl, fun c => c.resolve_right (none k)⟩) fun l p => ⟨.inl, fun c => c.resolve_right fun ⟨_, k, c⟩ => none k c⟩
  next some_ =>
    obtain ⟨k, hk⟩ := List.exists_mem_of_ne_nil _ fun c => some_ (List.isEmpty_iff.mpr c)
    refine (start.putSuper (j := j) (blocks := span 0 q) form sorted vcfg found (fun k hk => ((mem k).mp hk).1) fun p hp => ?_).iff
      (fun k => or_congr_right (mem k)) fun l p => or_congr_right ?_
    · rw [span_zero, List.mem_range] at hp; omega
    · rw [span_zero, List.mem_range]
      exact ⟨fun c => ⟨c, k, (mem k).mp hk⟩, And.left⟩

theorem headerInfo_eq (base q reason : ℕ) : headerInfo base q reason = BitVec.ofNat 64 (base / 16 % 2 ^ 51 * 16 + q * 4 + reason) := by
  rw [headerInfo, field_eq]; rfl

/-- A load of SB data ends at the first bad side entry (R128). -/
theorem sbLoad_bad {pre post : List ℕ} {j q reason : ℕ} (ok : SbOk s a b m r) (present : Present (s.drain s.cur) s.cur .vector)
    (supers : supersOf (loadAccess s.me a b).elems (sbElems s.me m r) = pre ++ j :: post)
    (pass : PassOver s.who .read ((loadAccess s.me a b).accs (sbElems s.me m r)) (fun _ _ v => v) o at_ u (s.drain s.cur) (pre ++ [j]))
    (none : failures (pre ++ [j]) o = [])
    (good : ∀ i ∈ pre, ∀ q ∈ blocksOf (loadAccess s.me a b) (sbElems s.me m r) i, badOf s.me a b (sbElems s.me m r) o at_ i q = .none)
    (hq : q ∈ blocksOf (loadAccess s.me a b) (sbElems s.me m r) j) (bad : badOf s.me a b (sbElems s.me m r) o at_ j q = some reason)
    (before : ∀ p ∈ blocksOf (loadAccess s.me a b) (sbElems s.me m r) j, p < q → badOf s.me a b (sbElems s.me m r) o at_ j p = .none) :
    let stop := j * (loadAccess s.me a b).elems + q * (loadAccess s.me a b).block
    ∃ y, SbLeaves s.me d a b (sbElems s.me m r) o at_ u y (fun k => k ∈ sbElems s.me m r ∧ k < stop)
        (fun l p => sideMode s.me ≠ 2 ∧ ((l ∈ pre ∧ p < 4) ∨ (l = j ∧ p < q ∧ ∃ k ∈ (loadAccess s.me a b).within (sbElems s.me m r) j, k < stop))) ∧
      exec (.vld d a b m r) s = .next ((y.setMe { y.me with vstart := BitVec.ofNat 11 (max stop s.me.vstart.toNat) }).trapNow 0x082
        (BitVec.ofNat 64 (((s.me.reg b).toNat + 16 * j) % 2 ^ 64 / 16 % 2 ^ 51 * 16 + q * 4 + reason)) noInfo) := by
  have sorted : (sbElems s.me m r).Pairwise (· < ·) := pairwise_sbElems
  obtain ⟨mn, execs, runs⟩ := execVld_sb (d := d) ok
  generalize sbElems s.me m r = es at *
  obtain ⟨steady, each⟩ := steady_of_loadPass pass
  have same : SameOperands s.me u.me := steady.me.trans (sameOperands_drain s)
  obtain ⟨few, inside⟩ := block_inside hq
  obtain ⟨positive, -⟩ := loadAccess_sizes s.me a b
  have located (i : ℕ) (hi : i ∈ pre) : (gotOf o i).isSome = true := by
    obtain ⟨ls, h⟩ := located_of_passOver pass none (j := i) (by simp [hi])
    rw [gotOf_ok h]; rfl
  obtain ⟨ls, latest, keys, found, run⟩ := run_loadPass_bad (w := sewBits s.me) (post := post) sorted pass (fun i hi => (each i hi).present present) none good hq bad
    before ⟨[], [], [], [], [], false, .none⟩
  rw [← supers] at run
  obtain ⟨ps, read⟩ := run_sbRead (d := d) (m := m) (r := r) (dst := sbDst s.me) sorted rfl run
  have written := sbWritten_badRegs (d := d) (a := a) (b := b) (at_ := at_) (pre := pre) ok.form sorted same.regs.2.2.2.2.1 found few
  refine ⟨_, sbLeaves_of same ps (written.iff (fun k => ?_) fun l p => ?_), ?_⟩
  · rw [before_block positive sorted supers inside]
    refine or_congr_left ⟨fun ⟨i, hi, _, hk⟩ => ⟨i, hi, hk⟩, fun ⟨i, hi, hk⟩ => ⟨i, hi, located i hi, hk⟩⟩
  · rw [usesSide_iff]
    constructor
    · rintro (⟨hl, _, hp, uses⟩ | ⟨⟨hl, hp, uses⟩, some⟩)
      exacts [⟨uses, .inl ⟨hl, hp⟩⟩, ⟨uses, .inr ⟨hl, hp, some⟩⟩]
    · rintro ⟨uses, ⟨hl, hp⟩ | ⟨hl, hp, some⟩⟩
      exacts [.inl ⟨hl, located l hl, hp, uses⟩, .inr ⟨⟨hl, hp, uses⟩, some⟩]
  · rw [execs]
    refine (complete_trap (runs.trans (read.trans (run_endSb_bad (a := a) (b := b) (es := es) (o := o) (at_ := at_) (js := pre) rfl rfl rfl)))).trans ?_
    rw [headerInfo_eq, setMe_setMe, me_setMe, ← same.regs.2.2.2.2.2.1]
    rfl

end

end Sys2Proof.Machine
end

section
/-! ## O51: the vector loads -/

namespace Sys2Proof.Machine

open Sys2Proof.Claims

section
variable {s u : State} {d a b : BitVec 5} {m : BitVec 1} {r : BitVec 3} {dst : Tag} {o : ℕ → Except (ℕ × Stop) (List Loc)} {at_ : ℕ → State}
  {pre post : List ℕ} {k va : ℕ} {c : BitVec 10} {inf : Word} {rec : FaultInfo}

/-- A first-faulting load with a faulting element: the first one's cause is raised, a later one ends the load (R379). -/
theorem vldff_stops (enc : (encOf s.me).isSb = false) (tag : LoadTag (encOf s.me) (sewBits s.me) dst) (ok : LoadOk s a (Runs s.me m r) 1 (unitAdr s.me a))
    (present : Present (s.drain s.cur) s.cur .vector) (lists : Lists (pre ++ k :: post) (Runs s.me m r))
    (pass : PassOver s.who .read (fun k => [(unitAdr s.me a k 0, elemBytes s.me)]) (fun _ _ v => v) o at_ u (s.drain s.cur) pre) (all : failures pre o = [])
    (found : (elementPlaces s.who .read [(unitAdr s.me a k 0, elemBytes s.me)]).run u = (.ok (.error (va, .trap c inf rec)), at_ k))
    (cause : c ∈ ([0x101, 0x102, 0x103, 0x105, 0x1C1, 0x1C2, 0x1C3, 0x381, 0x382] : List (BitVec 10))) :
    (pre = [] → exec (.vldff d a b m r) s =
      .next (((at_ k).setMe { (at_ k).me with vfm := 0, vstart := BitVec.ofNat 11 k }).trapNow c (batchWord (k, va, c, inf, rec))
        { rec with elem := k, lane := k * sewBits s.me / 256, more := false, pages := [pageWord 0 (k, va, c, inf, rec)] })) ∧
    (pre ≠ [] → ∃ y, Written s.me d dst (elemBytes s.me) (at_ k) y 1 (placed pre o fun _ => at_ k) ∧
      exec (.vldff d a b m r) s = .next (y.setMe { y.me with vl := BitVec.ofNat 11 k, vstart := 0, pc := nextPc s.me.pc 1, stall := [], busy := false })) := by
  have stop := run_vldff_stop lists pass all found cause
  have steady : Steady (s.drain s.cur) (at_ k) := by
    have last := Steady.elementPlaces u s.who .read [(unitAdr s.me a k 0, elemBytes s.me)]
    rw [found] at last
    exact (steady_of_loadPass pass).1.trans last
  refine ⟨fun first => ?_, fun later => ?_⟩
  · subst first
    exact vldff_fault enc tag ok stop
  · exact vldff_cut enc tag ok (steady.present present) (steady.me.trans (sameOperands_drain s))
      (fun none => later (results_eq_nil all (trap_of_passOver pass) none)) stop

end

/-- The conditions of R126, each under its form. -/
theorem sbOk_of {s : State} {a b : BitVec 5} {m : BitVec 1} {r : BitVec 3} (sb : (encOf s.me).isSb = true) (enabled : s.myPkg.enable.getLsbD 2 = true)
    (form : if sbPacked s.me then (sideMode s.me = 2 ∨ b ≠ 0) ∧ m = 0 ∧ s.me.vl.toNat % 128 = 0 else sewBits s.me ≠ 64 ∧ b ≠ 0 ∧ sideMode s.me = 0)
    (base : (s.me.reg a).toNat % 128 = 0) (side : sideMode s.me = 2 ∨ (s.me.reg b).toNat % 16 = 0)
    (inRange : ∀ k, sbStart s.me ≤ k → On s.me m r k →
      (sideMode s.me = 1 ∨ InRange s (s.me.reg a).toNat
        (((s.me.reg a).toNat + 128 * (k / (loadAccess s.me a b).elems) + (loadAccess s.me a b).byteOf k) % 2 ^ 64)) ∧
      (sideMode s.me = 2 ∨ inWindow (((s.me.reg b).toNat + 16 * (k / (loadAccess s.me a b).elems)) % 2 ^ 64) = true → s.myPkg.enable.getLsbD 3 = true)) :
    SbOk s a b m r :=
  ⟨sb, enabled, fun h => by rwa [if_pos h] at form, fun h => by rwa [if_neg (by rw [h]; decide)] at form, base, side, inRange⟩

/-- Settles O51: the checks of each load pass, its pass over the elements reads what the claim says, and packed and expanding loads read superblock by superblock. -/
theorem vectorLoads : Obligations.VectorLoads := by
  unfold Obligations.VectorLoads
  intro d a b m r f z s dst pa o at_ u
  extract_lets x t w enc n base idx fields unit strided segment indexed indexOk es ok
  have few : fields ≤ 32 := by have := f.isLt; omega
  refine ⟨fun plain tag => ⟨?_, ?_⟩, fun sb on => ?_⟩
  · exact ⟨fun _ h mapped => loads_load (comesToLoads_vld plain tag h) tag (by norm_num) h (fun k hk => hk.1) mapped,
      fun _ h mapped => loads_load (comesToLoads_vlds plain tag h) tag (by norm_num) h (fun k hk => hk.1) mapped,
      fun _ h mapped => loads_load (comesToLoads_vldseg plain tag h) tag few h (fun k hk => hk.1) mapped,
      fun _ h mapped => vldff_load plain tag h fun k hk => mapped k 0 hk Nat.one_pos,
      fun index _ h mapped => loads_load (comesToLoads_vldx plain tag index h) tag (by norm_num) h (fun k hk => hk) mapped⟩
  · exact ⟨fun h present pass => loads_end (comesToLoads_vld plain tag h) tag (by norm_num) h (fun k hk => hk.1) present pass,
      fun h present pass => loads_end (comesToLoads_vlds plain tag h) tag (by norm_num) h (fun k hk => hk.1) present pass,
      fun h present pass => loads_end (comesToLoads_vldseg plain tag h) tag few h (fun k hk => hk.1) present pass,
      fun index h present pass => loads_end (comesToLoads_vldx plain tag index h) tag (by norm_num) h (fun k hk => hk) present pass,
      fun pre k post va c inf rec h present lists pass all found cause => vldff_stops plain tag h present lists pass all found cause⟩
  · intro form aligned sideAligned inRange present
    have checked : SbOk s a b m r := sbOk_of sb on form aligned sideAligned inRange
    exact ⟨fun pass good => sbLoad_ends checked present pass good, fun pre j post q reason supers pass none good hq bad before =>
      sbLoad_bad checked present supers pass none good hq bad before⟩

end Sys2Proof.Machine
end
